-- ==== Sys2Proof/Word.lean ====
section
/-! DEFINITION. The word types of the machine (spec/00_scope.md R5, R6) and nothing else: bytes, words,
double words, predicates and the eight-lane container. -/

namespace Sys2Proof

/-- One byte of storage. -/
abbrev Byte := BitVec 8
/-- One 32-bit lane value, instruction word or control register. -/
abbrev Word := BitVec 32
/-- One 64-bit quantity: a register pair, a PT64, a physical address register. -/
abbrev DWord := BitVec 64
/-- A 57-bit virtual address (R131, R350). -/
abbrev VAddr := BitVec 57
/-- One bit per lane (R48, R50). -/
abbrev Mask := BitVec 8

/-- Eight things of one kind, one per lane of a strand (R140). -/
structure L8 (α : Type) where
  l0 : α
  l1 : α
  l2 : α
  l3 : α
  l4 : α
  l5 : α
  l6 : α
  l7 : α
  deriving DecidableEq, Repr

end Sys2Proof
end

