-- ==== Sys2Proof/Syntax.lean ====
section
/-! DEFINITION. The abstract syntax: one constructor of `Instr` per row of spec/opcode_table.json, and the
plain data an event row carries in from outside the device (network packets, PTP messages, peer accesses). -/

namespace Sys2Proof

/-- One line segment of an RFC 4175 packet (R397): its line, its first pixel and its octets. -/
structure Segment where
  line  : Nat
  first : Nat
  data  : List Byte
  deriving DecidableEq, Repr

/-- A received SMPTE ST 2110-20 packet as the port complex sees it (R390, R392, R397). -/
structure VideoPacket where
  stamp   : DWord
  srcIp   : Word
  dstIp   : Word
  dport   : BitVec 16
  pt      : BitVec 7
  ssrc    : Word
  seq     : Word
  rtp     : Word
  sumOk   : Bool
  segs    : List Segment
  deriving DecidableEq, Repr

/-- A received RTP packet of any other essence (R399). -/
structure RtpPacket where
  stamp   : DWord
  srcIp   : Word
  dstIp   : Word
  dport   : BitVec 16
  pt      : BitVec 7
  ssrc    : Word
  seq     : Word
  rtp     : Word
  sumOk   : Bool
  payload : List Byte
  deriving DecidableEq, Repr

/-- The kinds of PTP message the follower acts on (R391). -/
inductive PtpKind where
  | sync | followUp | delayResp | announce
  deriving DecidableEq, Repr

/-- A PTP message: its domain, its ingress stamp, the master's time it carries, whether its IPv4 checksum is right, and its sender; an
Announce also has the sender's grandmaster data set: quality (priority 1, class, accuracy, variance, priority 2), identity and steps
removed (R390 to R392). -/
structure PtpMsg where
  kind    : PtpKind
  domain  : Byte
  twoStep : Bool
  stamp   : DWord
  origin  : DWord
  sumOk   : Bool
  source  : Nat
  quality : List Nat
  gm      : Nat
  steps   : Nat
  deriving DecidableEq, Repr

/-- The 32-byte header of a Llynad datagram (R400), without VER and KIND, which the row names; `via` is the rank of the module
whose port sent it, as its UDP source says, `rport` the remote logical port, and `sumOk` whether its IPv4
checksum is right. -/
structure LlyHeader where
  src    : Nat
  dst    : Nat
  tag    : Word
  seq    : Word
  ackSeq : Word
  msg    : Word
  row    : Nat
  nflit  : Nat
  param  : DWord
  rport  : Nat
  via    : Nat
  sumOk  : Bool
  deriving DecidableEq, Repr

/-- What a peer asks of device memory (R353, R380): a read, a write, or an atomic add. -/
inductive PeerAccess where
  | read (count : Nat)
  | write (data : List Byte)
  | atomicAdd (wide : Bool) (operand : DWord)
  deriving DecidableEq, Repr

/-- The instruction set: one constructor per row of the opcode table. The first 211 are instruction words;
the others are the device's own steps and the inputs of the outside world, which the table lists beside them
(spec/95_what_each_step_holds.md). A constructor's fields are the word's fields as the table names them; an
event's fields say which unit it concerns and what the outside world supplies. -/
inductive Instr where
  /-- ADD (R95): Integer add of two registers, wrapping or saturating, 32- or 64-bit. -/
  | add (d : BitVec 6) (a : BitVec 6) (b : BitVec 6) (f : BitVec 3) (g : BitVec 3)
  /-- SUB (R95): Integer subtract of two registers. -/
  | sub (d : BitVec 6) (a : BitVec 6) (b : BitVec 6) (f : BitVec 3) (g : BitVec 3)
  /-- MUL (R95): Integer multiply giving the low bits, or saturated. -/
  | mul (d : BitVec 6) (a : BitVec 6) (b : BitVec 6) (f : BitVec 3) (g : BitVec 3)
  /-- MULHI (R95): High half of the exact double-width integer product. -/
  | mulhi (d : BitVec 6) (a : BitVec 6) (b : BitVec 6) (f : BitVec 2) (g : BitVec 3)
  /-- MAD (R96): Signed 32-bit multiply-add of three registers, unguarded. -/
  | mad (d : BitVec 6) (a : BitVec 6) (b : BitVec 6) (c : BitVec 6)
  /-- MIN (R97): Integer minimum of two registers. -/
  | min (d : BitVec 6) (a : BitVec 6) (b : BitVec 6) (f : BitVec 2) (g : BitVec 3)
  /-- MAX (R97): Integer maximum of two registers. -/
  | max (d : BitVec 6) (a : BitVec 6) (b : BitVec 6) (f : BitVec 2) (g : BitVec 3)
  /-- LEA (R98): Adds va to vb scaled by 2^sh, modulo 2^32. -/
  | lea (d : BitVec 6) (a : BitVec 6) (b : BitVec 6) (s : BitVec 3) (g : BitVec 3)
  /-- ABS (R99): Absolute value, optionally saturating. -/
  | abs (d : BitVec 6) (a : BitVec 6) (g : BitVec 3)
  /-- NEG (R99): Negation, optionally saturating. -/
  | neg (d : BitVec 6) (a : BitVec 6) (g : BitVec 3)
  /-- NOT (R99): Bitwise complement. -/
  | not (d : BitVec 6) (a : BitVec 6) (g : BitVec 3)
  /-- CLZ (R99): Counts leading zero bits. -/
  | clz (d : BitVec 6) (a : BitVec 6) (g : BitVec 3)
  /-- POPC (R99): Counts one bits. -/
  | popc (d : BitVec 6) (a : BitVec 6) (g : BitVec 3)
  /-- BREV (R99): Reverses the bit order. -/
  | brev (d : BitVec 6) (a : BitVec 6) (g : BitVec 3)
  /-- AND (R100): Bitwise AND of two registers or pairs. -/
  | and (d : BitVec 6) (a : BitVec 6) (b : BitVec 6) (w : BitVec 1) (g : BitVec 3)
  /-- OR (R100): Bitwise OR of two registers or pairs. -/
  | or (d : BitVec 6) (a : BitVec 6) (b : BitVec 6) (w : BitVec 1) (g : BitVec 3)
  /-- XOR (R100): Bitwise XOR of two registers or pairs. -/
  | xor (d : BitVec 6) (a : BitVec 6) (b : BitVec 6) (w : BitVec 1) (g : BitVec 3)
  /-- ANDN (R100): Bitwise a AND NOT b. -/
  | andn (d : BitVec 6) (a : BitVec 6) (b : BitVec 6) (w : BitVec 1) (g : BitVec 3)
  /-- SHL (R101): Shift left by a register amount. -/
  | shl (d : BitVec 6) (a : BitVec 6) (b : BitVec 6) (g : BitVec 3)
  /-- SHR (R101): Logical shift right by a register amount. -/
  | shr (d : BitVec 6) (a : BitVec 6) (b : BitVec 6) (g : BitVec 3)
  /-- SAR (R101): Arithmetic shift right by a register amount. -/
  | sar (d : BitVec 6) (a : BitVec 6) (b : BitVec 6) (g : BitVec 3)
  /-- ROT (R101): Rotate left by a register amount. -/
  | rot (d : BitVec 6) (a : BitVec 6) (b : BitVec 6) (g : BitVec 3)
  /-- BFE (R102): Extracts a bit field, zero- or sign-extended. -/
  | bfe (d : BitVec 6) (a : BitVec 6) (b : BitVec 6) (s : BitVec 1) (g : BitVec 3)
  /-- BFI (R102): Inserts a bit field into a base value. -/
  | bfi (d : BitVec 6) (a : BitVec 6) (b : BitVec 6) (c : BitVec 6)
  /-- ICMP (R103): Integer compare writing a predicate. -/
  | icmp (w : BitVec 1) (u : BitVec 1) (p : BitVec 3) (a : BitVec 6) (b : BitVec 6) (c : BitVec 3) (g : BitVec 3)
  /-- SEL (R104): Selects va or vb per lane by vc. -/
  | sel (d : BitVec 6) (a : BitVec 6) (b : BitVec 6) (c : BitVec 6)
  /-- MOV (R104): Copies a register or pair bit for bit. -/
  | mov (d : BitVec 6) (a : BitVec 6) (w : BitVec 1) (g : BitVec 3)
  /-- MOVI (R106): Writes a sign-extended immediate to every lane. -/
  | movi (d : BitVec 6) (i : BitVec 18)
  /-- MOVHI (R106): Writes the upper 14 bits of a uniform register. -/
  | movhi (d : BitVec 6) (i : BitVec 14)
  /-- IOTA (R106): Writes base plus stride times lane number. -/
  | iota (d : BitVec 6) (b : BitVec 9) (s : BitVec 9)
  /-- ADD_IMM (R105): Adds an immediate. -/
  | addImm (d : BitVec 6) (a : BitVec 6) (i : BitVec 9) (g : BitVec 3)
  /-- MUL_IMM (R105): Multiplies by an immediate. -/
  | mulImm (d : BitVec 6) (a : BitVec 6) (i : BitVec 9) (g : BitVec 3)
  /-- AND_IMM (R105): Bitwise AND with an immediate. -/
  | andImm (d : BitVec 6) (a : BitVec 6) (i : BitVec 9) (g : BitVec 3)
  /-- OR_IMM (R105): Bitwise OR with an immediate. -/
  | orImm (d : BitVec 6) (a : BitVec 6) (i : BitVec 9) (g : BitVec 3)
  /-- XOR_IMM (R105): Bitwise XOR with an immediate. -/
  | xorImm (d : BitVec 6) (a : BitVec 6) (i : BitVec 9) (g : BitVec 3)
  /-- SHL_IMM (R105): Shift left by an immediate. -/
  | shlImm (d : BitVec 6) (a : BitVec 6) (n : BitVec 5) (g : BitVec 3)
  /-- SHR_IMM (R105): Logical shift right by an immediate. -/
  | shrImm (d : BitVec 6) (a : BitVec 6) (n : BitVec 5) (g : BitVec 3)
  /-- SAR_IMM (R105): Arithmetic shift right by an immediate. -/
  | sarImm (d : BitVec 6) (a : BitVec 6) (n : BitVec 5) (g : BitVec 3)
  /-- ROT_IMM (R105): Rotate left by an immediate. -/
  | rotImm (d : BitVec 6) (a : BitVec 6) (n : BitVec 5) (g : BitVec 3)
  /-- MIN_IMM (R105): Signed minimum with an immediate. -/
  | minImm (d : BitVec 6) (a : BitVec 6) (i : BitVec 9) (g : BitVec 3)
  /-- MAX_IMM (R105): Signed maximum with an immediate. -/
  | maxImm (d : BitVec 6) (a : BitVec 6) (i : BitVec 9) (g : BitVec 3)
  /-- LEA_IMM (R105): Adds four times an immediate. -/
  | leaImm (d : BitVec 6) (a : BitVec 6) (i : BitVec 9) (g : BitVec 3)
  /-- FADD (R108): Floating-point add rounded under the mode in force. -/
  | fadd (d : BitVec 6) (a : BitVec 6) (b : BitVec 6) (f : BitVec 3) (g : BitVec 3)
  /-- FSUB (R108): Floating-point subtract. -/
  | fsub (d : BitVec 6) (a : BitVec 6) (b : BitVec 6) (f : BitVec 3) (g : BitVec 3)
  /-- FMUL (R108): Floating-point multiply. -/
  | fmul (d : BitVec 6) (a : BitVec 6) (b : BitVec 6) (f : BitVec 3) (g : BitVec 3)
  /-- FMA (R108): Fused multiply-add into vd with one rounding. -/
  | fma (d : BitVec 6) (a : BitVec 6) (b : BitVec 6) (f : BitVec 3) (g : BitVec 3)
  /-- FMIN (R109): IEEE minimumNumber. -/
  | fmin (d : BitVec 6) (a : BitVec 6) (b : BitVec 6) (t : BitVec 2) (g : BitVec 3)
  /-- FMAX (R109): IEEE maximumNumber. -/
  | fmax (d : BitVec 6) (a : BitVec 6) (b : BitVec 6) (t : BitVec 2) (g : BitVec 3)
  /-- FABS (R109): Clears the sign bit of each element. -/
  | fabs (d : BitVec 6) (a : BitVec 6) (t : BitVec 2) (g : BitVec 3)
  /-- FNEG (R109): Inverts the sign bit of each element. -/
  | fneg (d : BitVec 6) (a : BitVec 6) (t : BitVec 2) (g : BitVec 3)
  /-- FCMP (R110): Floating-point compare writing a predicate. -/
  | fcmp (t : BitVec 2) (p : BitVec 3) (a : BitVec 6) (b : BitVec 6) (c : BitVec 3) (g : BitVec 3)
  /-- FCLASS (R111): Writes the class mask of each element. -/
  | fclass (d : BitVec 6) (a : BitVec 6) (t : BitVec 2) (g : BitVec 3)
  /-- FDIV (R108): Floating-point divide. -/
  | fdiv (d : BitVec 6) (a : BitVec 6) (b : BitVec 6) (f : BitVec 3) (g : BitVec 3)
  /-- FSCALE (R108): Multiplies by 2 to an integer power. -/
  | fscale (d : BitVec 6) (a : BitVec 6) (b : BitVec 6) (f : BitVec 3) (g : BitVec 3)
  /-- FSQRT (R112): Correctly rounded square root. -/
  | fsqrt (d : BitVec 6) (a : BitVec 6) (f : BitVec 3) (g : BitVec 3)
  /-- FRCP (R112): Correctly rounded reciprocal. -/
  | frcp (d : BitVec 6) (a : BitVec 6) (f : BitVec 3) (g : BitVec 3)
  /-- FRSQRT (R112): Correctly rounded reciprocal square root. -/
  | frsqrt (d : BitVec 6) (a : BitVec 6) (f : BitVec 3) (g : BitVec 3)
  /-- FEXP2 (R112): Correctly rounded 2^a. -/
  | fexp2 (d : BitVec 6) (a : BitVec 6) (f : BitVec 3) (g : BitVec 3)
  /-- FLOG2 (R112): Correctly rounded log2. -/
  | flog2 (d : BitVec 6) (a : BitVec 6) (f : BitVec 3) (g : BitVec 3)
  /-- FSIN (R112): Correctly rounded sine. -/
  | fsin (d : BitVec 6) (a : BitVec 6) (f : BitVec 3) (g : BitVec 3)
  /-- FCOS (R112): Correctly rounded cosine. -/
  | fcos (d : BitVec 6) (a : BitVec 6) (f : BitVec 3) (g : BitVec 3)
  /-- FFRACT (R113): Fractional part below 1.0. -/
  | ffract (d : BitVec 6) (a : BitVec 6) (t : BitVec 2) (g : BitVec 3)
  /-- FROUND (R113): Rounds to an integral value. -/
  | fround (d : BitVec 6) (a : BitVec 6) (t : BitVec 2) (g : BitVec 3)
  /-- FDOT2 (R114): Two-term dot product of 16-bit pairs to FP32. -/
  | fdot2 (d : BitVec 6) (a : BitVec 6) (b : BitVec 6) (t : BitVec 2) (s : BitVec 1) (g : BitVec 3)
  /-- CVT (R116): Converts between element formats and integers. -/
  | cvt (d : BitVec 6) (a : BitVec 6) (t : BitVec 3) (s : BitVec 3) (u : BitVec 1) (q : BitVec 1) (g : BitVec 3)
  /-- PACK_B16 (R117): Packs low halves of va and vb. -/
  | packB16 (d : BitVec 6) (a : BitVec 6) (b : BitVec 6) (g : BitVec 3)
  /-- PACK_B8_LO (R117): Packs low bytes into bits 15:0 of vd. -/
  | packB8Lo (d : BitVec 6) (a : BitVec 6) (b : BitVec 6) (g : BitVec 3)
  /-- PACK_B8_HI (R117): Packs low bytes into bits 31:16 of vd. -/
  | packB8Hi (d : BitVec 6) (a : BitVec 6) (b : BitVec 6) (g : BitVec 3)
  /-- PACK_B4_Q0 (R117): Packs nibbles into nibbles 0 and 1. -/
  | packB4Q0 (d : BitVec 6) (a : BitVec 6) (b : BitVec 6) (g : BitVec 3)
  /-- PACK_B4_Q1 (R117): Packs nibbles into nibbles 2 and 3. -/
  | packB4Q1 (d : BitVec 6) (a : BitVec 6) (b : BitVec 6) (g : BitVec 3)
  /-- PACK_B4_Q2 (R117): Packs nibbles into nibbles 4 and 5. -/
  | packB4Q2 (d : BitVec 6) (a : BitVec 6) (b : BitVec 6) (g : BitVec 3)
  /-- PACK_B4_Q3 (R117): Packs nibbles into nibbles 6 and 7. -/
  | packB4Q3 (d : BitVec 6) (a : BitVec 6) (b : BitVec 6) (g : BitVec 3)
  /-- UNPACK (R118): Extracts one field of va, zero- or sign-extended. -/
  | unpack (d : BitVec 6) (a : BitVec 6) (k : BitVec 3) (s : BitVec 1) (w : BitVec 2) (g : BitVec 3)
  /-- PAND (R119): Predicate AND. -/
  | pand (d : BitVec 3) (a : BitVec 3) (b : BitVec 3) (g : BitVec 3)
  /-- POR (R119): Predicate OR. -/
  | por (d : BitVec 3) (a : BitVec 3) (b : BitVec 3) (g : BitVec 3)
  /-- PXOR (R119): Predicate XOR. -/
  | pxor (d : BitVec 3) (a : BitVec 3) (b : BitVec 3) (g : BitVec 3)
  /-- PNOT (R119): Predicate NOT. -/
  | pnot (d : BitVec 3) (a : BitVec 3) (g : BitVec 3)
  /-- PMOV (R119): Predicate copy. -/
  | pmov (d : BitVec 3) (a : BitVec 3) (g : BitVec 3)
  /-- PCNT (R120): Writes the popcount of the effective lane mask. -/
  | pcnt (d : BitVec 6) (g : BitVec 3)
  /-- PFIRST (R119): Keeps only the lowest acting set lane of a predicate. -/
  | pfirst (d : BitVec 3) (a : BitVec 3) (g : BitVec 3)
  /-- XPERM (R124): Permutes lanes by a pattern register. -/
  | xperm (d : BitVec 6) (a : BitVec 6) (k : BitVec 4) (g : BitVec 3)
  /-- XTAB (R124): Maps bytes through a crew byte table. -/
  | xtab (d : BitVec 6) (a : BitVec 6) (t : BitVec 1) (g : BitVec 3)
  /-- XBCAST (R124): Broadcasts one lane of va. -/
  | xbcast (d : BitVec 6) (a : BitVec 6) (m : BitVec 3) (g : BitVec 3)
  /-- XSHFL_IDX (R124): Shuffles lanes by index. -/
  | xshflIdx (d : BitVec 6) (a : BitVec 6) (b : BitVec 6) (g : BitVec 3)
  /-- XSHFL_XOR (R124): Shuffles lanes by lane xor index. -/
  | xshflXor (d : BitVec 6) (a : BitVec 6) (b : BitVec 6) (g : BitVec 3)
  /-- XSHFL_UP (R124): Shuffles lanes up by a distance. -/
  | xshflUp (d : BitVec 6) (a : BitVec 6) (b : BitVec 6) (g : BitVec 3)
  /-- XSHFL_DOWN (R124): Shuffles lanes down by a distance. -/
  | xshflDown (d : BitVec 6) (a : BitVec 6) (b : BitVec 6) (g : BitVec 3)
  /-- XRED (R125): Reduces the lanes in a fixed tree order. -/
  | xred (d : BitVec 6) (a : BitVec 6) (f : BitVec 3) (g : BitVec 3)
  /-- XSCAN (R125): Inclusive scan across lanes. -/
  | xscan (d : BitVec 6) (a : BitVec 6) (f : BitVec 3) (g : BitVec 3)
  /-- XMAXI (R126): Maximum with index across lanes. -/
  | xmaxi (d : BitVec 6) (a : BitVec 6) (b : BitVec 6) (f : BitVec 3) (g : BitVec 3)
  /-- VOTE_ANY (R127): 1 if any acting lane is non-zero. -/
  | voteAny (d : BitVec 6) (a : BitVec 6) (g : BitVec 3)
  /-- VOTE_ALL (R127): 1 if every acting lane is non-zero. -/
  | voteAll (d : BitVec 6) (a : BitVec 6) (g : BitVec 3)
  /-- VOTE_BALLOT (R127): Mask of acting lanes that are non-zero. -/
  | voteBallot (d : BitVec 6) (a : BitVec 6) (g : BitVec 3)
  /-- MOVC_READ (R128): Reads a control register. -/
  | movcRead (d : BitVec 6) (n : BitVec 12)
  /-- MOVC_WRITE (R128): Writes a control register from the lowest lane. -/
  | movcWrite (a : BitVec 6) (n : BitVec 12)
  /-- VSHAPE (R130): Writes the shape code of va. -/
  | vshape (d : BitVec 6) (a : BitVec 6) (g : BitVec 3)
  /-- BRA (R156): Direct branch, possibly splitting the group. -/
  | bra (o : BitVec 21) (g : BitVec 3)
  /-- BRX (R157): Indirect branch through a register pair per lane. -/
  | brx (a : BitVec 6) (g : BitVec 3)
  /-- CALL_DIRECT (R158): Writes the return address and branches by offset. -/
  | callDirect (d : BitVec 5) (i : BitVec 18)
  /-- CALL_INDIRECT (R158): Writes the return address and branches through a pair. -/
  | callIndirect (d : BitVec 5) (a : BitVec 6)
  /-- RET (R157): Indirect branch predicted as a return. -/
  | ret (a : BitVec 6) (g : BitVec 3)
  /-- MEET (R159): Writes meeting registers of acting threads. -/
  | meet (o : BitVec 21) (g : BitVec 3)
  /-- YIELD (R160): Selection event rotating to the next runnable group. -/
  | yield
  /-- EXIT (R161): Makes acting threads exited. -/
  | exit (g : BitVec 3)
  /-- NOP (R160): Does nothing. -/
  | nop
  /-- SLEEP (R160): Makes the group wait n times 64 cycles. -/
  | sleep (n : BitVec 12)
  /-- BAR (R162): Arrives at a crew barrier slot. -/
  | bar (b : BitVec 4)
  /-- GBAR (R162): Arrives at the gang barrier. -/
  | gbar
  /-- SBAR (R162): Arrives at the stage barrier. -/
  | sbar
  /-- RGROW (R164): Requests register blocks and waits for the grant. -/
  | rgrow (n : BitVec 3)
  /-- RGROW_TRY (R165): Takes register blocks from the free pool if possible, never waiting. -/
  | rgrowTry (p : BitVec 3) (n : BitVec 3)
  /-- RSHRINK (R166): Releases the top register blocks. -/
  | rshrink (n : BitVec 3)
  /-- DISP (R168): Takes one index from the tile dispenser, stealing if needed. -/
  | disp (d : BitVec 6) (p : BitVec 3) (g : BitVec 3)
  /-- LD_B32 (R204): Raw 32-bit global load. -/
  | ldB32 (d : BitVec 6) (a : BitVec 6) (i : BitVec 9) (g : BitVec 3)
  /-- LD_B64 (R204): Raw 64-bit global load into a pair. -/
  | ldB64 (d : BitVec 6) (a : BitVec 6) (i : BitVec 9) (g : BitVec 3)
  /-- LD_F32 (R203): Typed load decoded to FP32 by page format. -/
  | ldF32 (d : BitVec 6) (a : BitVec 6) (i : BitVec 9) (g : BitVec 3)
  /-- LD_F16 (R203): Typed load of an FP16 pair. -/
  | ldF16 (d : BitVec 6) (a : BitVec 6) (i : BitVec 9) (g : BitVec 3)
  /-- LD_BF16 (R203): Typed load of a BF16 pair. -/
  | ldBf16 (d : BitVec 6) (a : BitVec 6) (i : BitVec 9) (g : BitVec 3)
  /-- LD_I32 (R203): Typed load to a saturated i32. -/
  | ldI32 (d : BitVec 6) (a : BitVec 6) (i : BitVec 9) (g : BitVec 3)
  /-- ST_B8 (R205): Stores one byte. -/
  | stB8 (d : BitVec 6) (a : BitVec 6) (i : BitVec 9) (g : BitVec 3)
  /-- ST_B16 (R205): Stores two bytes. -/
  | stB16 (d : BitVec 6) (a : BitVec 6) (i : BitVec 9) (g : BitVec 3)
  /-- ST_B32 (R205): Stores four bytes. -/
  | stB32 (d : BitVec 6) (a : BitVec 6) (i : BitVec 9) (g : BitVec 3)
  /-- ST_B64 (R205): Stores eight bytes from a pair. -/
  | stB64 (d : BitVec 6) (a : BitVec 6) (i : BitVec 9) (g : BitVec 3)
  /-- LDB_W (R207): Loads a word from WBUF. -/
  | ldbW (d : BitVec 6) (a : BitVec 6) (i : BitVec 9) (g : BitVec 3)
  /-- LDB_A (R207): Loads a word from ABUF. -/
  | ldbA (d : BitVec 6) (a : BitVec 6) (i : BitVec 9) (g : BitVec 3)
  /-- LDB_C (R207): Loads a word from CBUF. -/
  | ldbC (d : BitVec 6) (a : BitVec 6) (i : BitVec 9) (g : BitVec 3)
  /-- STB_A (R207): Stores a word to ABUF. -/
  | stbA (d : BitVec 6) (a : BitVec 6) (i : BitVec 9) (g : BitVec 3)
  /-- STB_C (R207): Stores a word to CBUF. -/
  | stbC (d : BitVec 6) (a : BitVec 6) (i : BitVec 9) (g : BitVec 3)
  /-- ATOM (R208): Atomic read-modify-write at the home slice. -/
  | atom (d : BitVec 6) (a : BitVec 6) (b : BitVec 6) (f : BitVec 3) (g : BitVec 3)
  /-- ATOM_ACQ (R209): Atomic followed by an acquire. -/
  | atomAcq (d : BitVec 6) (a : BitVec 6) (b : BitVec 6) (f : BitVec 3) (g : BitVec 3)
  /-- ATOM_REL (R209): Atomic preceded by a release. -/
  | atomRel (d : BitVec 6) (a : BitVec 6) (b : BitVec 6) (f : BitVec 3) (g : BitVec 3)
  /-- ATOM_ACQ_REL (R209): Atomic with release and acquire. -/
  | atomAcqRel (d : BitVec 6) (a : BitVec 6) (b : BitVec 6) (f : BitVec 3) (g : BitVec 3)
  /-- CAS (R211): Compare and swap at the home slice. -/
  | cas (d : BitVec 6) (a : BitVec 6) (b : BitVec 6) (o : BitVec 2) (w : BitVec 1) (g : BitVec 3)
  /-- ACQ (R212): Acquire: invalidates non-owned L1 words. -/
  | acq
  /-- REL (R212): Release: earlier writes acknowledged first. -/
  | rel
  /-- FENCE (R212): Release then acquire. -/
  | fence
  /-- WAITA (R213): Sleeps until a word changes or a deadline passes. -/
  | waita (d : BitVec 6) (a : BitVec 6) (b : BitVec 6) (p : BitVec 3) (g : BitVec 3)
  /-- TXB (R214): Acquires and begins lane transactions. -/
  | txb (g : BitVec 3)
  /-- TXC (R194): Commits lane transactions with locking and validation. -/
  | txc (p : BitVec 3) (g : BitVec 3)
  /-- TXA (R193): Aborts lane transactions. -/
  | txa (g : BitVec 3)
  /-- CP (R220): Starts a format-converting copy. -/
  | cp (d : BitVec 6) (a : BitVec 6) (b : BitVec 6) (c : BitVec 6)
  /-- CP2 (R220): Starts a two-dimensional copy. -/
  | cp2 (d : BitVec 6) (a : BitVec 6) (b : BitVec 6) (c : BitVec 6)
  /-- CPTAB (R222): Starts a byte-table mapping copy. -/
  | cptab (d : BitVec 6) (a : BitVec 6) (b : BitVec 6) (c : BitVec 6)
  /-- WAIT (R223): Waits until ld, st, cp and mx counters meet thresholds. -/
  | wait (l : BitVec 6) (s : BitVec 6) (c : BitVec 6) (m : BitVec 6)
  /-- WAITX (R223): Waits until tr, sr and cl counters meet thresholds. -/
  | waitx (t : BitVec 6) (s : BitVec 6) (c : BitVec 6)
  /-- PGREQ (R215): Requests pages be made resident. -/
  | pgreq (d : BitVec 6) (a : BitVec 6) (g : BitVec 3)
  /-- PFETCH (R216): Prefetches lines into the Hearth and optionally L1. -/
  | pfetch (a : BitVec 6) (l : BitVec 1) (n : BitVec 8) (g : BitVec 3)
  /-- MRES (R232): Reserves the Swage if free. -/
  | mres (p : BitVec 3)
  /-- MREL (R233): Releases the Swage after operations complete. -/
  | mrel
  /-- CDECL (R240): Declares a signer count on a convergence register. -/
  | cdecl (c : BitVec 3) (n : BitVec 12)
  /-- TLD (R243): Loads a tile raw or decoding by page. -/
  | tld (t : BitVec 4) (a : BitVec 4) (b : BitVec 4) (c : BitVec 3) (q : BitVec 1) (s : BitVec 2) (e : BitVec 1) (g : BitVec 3)
  /-- TST (R243): Stores a tile raw. -/
  | tst (t : BitVec 4) (a : BitVec 4) (b : BitVec 4) (c : BitVec 3) (q : BitVec 1) (s : BitVec 2) (g : BitVec 3)
  /-- TZERO (R246): Zeroes a tile within its shape. -/
  | tzero (t : BitVec 4) (c : BitVec 3) (q : BitVec 1) (g : BitVec 3)
  /-- TMETA (R243): Loads a sparsity index tile. -/
  | tmeta (t : BitVec 4) (a : BitVec 4) (b : BitVec 4) (c : BitVec 3) (q : BitVec 1) (s : BitVec 2) (g : BitVec 3)
  /-- MMA (R247): Accumulates a tile product into the active bank. -/
  | mma (a : BitVec 4) (b : BitVec 4) (c : BitVec 3) (q : BitVec 1) (g : BitVec 3)
  /-- MMAS (R248): Accumulates a 2:4 sparse tile product. -/
  | mmas (t : BitVec 4) (a : BitVec 4) (b : BitVec 4) (c : BitVec 3) (q : BitVec 1) (g : BitVec 3)
  /-- MSWAP (R250): Makes the other bank active. -/
  | mswap (c : BitVec 3) (q : BitVec 1) (g : BitVec 3)
  /-- MDRAIN (R251): Drains a bank into CBUF with scaling and conversion. -/
  | mdrain (k : BitVec 1) (a : BitVec 4) (b : BitVec 4) (c : BitVec 3) (q : BitVec 1) (t : BitVec 3) (x : BitVec 2) (g : BitVec 3)
  /-- MCLR (R250): Clears a bank and sets its mode. -/
  | mclr (k : BitVec 1) (c : BitVec 3) (q : BitVec 1) (m : BitVec 1) (g : BitVec 3)
  /-- MSTAT (R252): Reads the accumulator status in acceptance order. -/
  | mstat (d : BitVec 6)
  /-- HGF (R265): Evaluates a hash-grid field. -/
  | hgf (d : BitVec 6) (a : BitVec 6) (b : BitVec 6) (o : BitVec 1) (g : BitVec 3)
  /-- HGS (R266): Scatters gradients into the shadow table. -/
  | hgs (d : BitVec 6) (a : BitVec 6) (b : BitVec 6) (i : BitVec 1) (g : BitVec 3)
  /-- HGFOLD (R269): Folds shadow values into parameters. -/
  | hgfold (d : BitVec 6) (a : BitVec 6) (b : BitVec 6) (c : BitVec 6)
  /-- MARCH (R272): Marches rays through an occupancy grid. -/
  | march (d : BitVec 6) (a : BitVec 6) (b : BitVec 6) (g : BitVec 3)
  /-- TEX (R274): Samples a plate texture. -/
  | tex (d : BitVec 6) (a : BitVec 6) (b : BitVec 6) (g : BitVec 3)
  /-- TRACE (R277): Starts a BVH traversal query per lane. -/
  | trace (d : BitVec 6) (a : BitVec 6) (b : BitVec 6) (g : BitVec 3)
  /-- TCONT_REJECT (R278): Rejects the candidate and continues. -/
  | tcontReject (d : BitVec 6) (a : BitVec 6) (g : BitVec 3)
  /-- TCONT_ACCEPT (R278): Commits the candidate and continues. -/
  | tcontAccept (d : BitVec 6) (a : BitVec 6) (g : BitVec 3)
  /-- TCONT_TERMINATE (R278): Commits the candidate and ends the query. -/
  | tcontTerminate (d : BitVec 6) (a : BitVec 6) (g : BitVec 3)
  /-- THIT (R279): Writes the committed or candidate hit. -/
  | thit (d : BitVec 6) (s : BitVec 1) (g : BitVec 3)
  /-- TABORT (R279): Ends the lane's query. -/
  | tabort (g : BitVec 3)
  /-- SRD (R296): Reads eight pixels at the stream cursor. -/
  | srd (d : BitVec 6) (v : BitVec 1) (s : BitVec 4) (b : BitVec 6) (p : BitVec 3) (g : BitVec 3)
  /-- SRDT (R297): Reads a pixel rectangle channel into a tile. -/
  | srdt (t : BitVec 4) (s : BitVec 4) (b : BitVec 6) (p : BitVec 3) (g : BitVec 3)
  /-- SWR (R298): Writes eight pixels at a send cursor. -/
  | swr (d : BitVec 6) (v : BitVec 1) (s : BitVec 4) (b : BitVec 6) (g : BitVec 3)
  /-- SINH (R300): Copies capture and presentation times to the send frame. -/
  | sinh (s : BitVec 4) (m : BitVec 4) (g : BitVec 3)
  /-- SINH_OFFSET (R300): As sinh, adding an offset to the presentation time. -/
  | sinhOffset (d : BitVec 6) (s : BitVec 4) (m : BitVec 4) (g : BitVec 3)
  /-- STS (R301): Reads a stream time or sequence number. -/
  | sts (d : BitVec 6) (s : BitVec 4) (f : BitVec 3) (g : BitVec 3)
  /-- SSTAT (R301): Reads a stream status word or counter. -/
  | sstat (d : BitVec 6) (s : BitVec 4) (f : BitVec 3) (g : BitVec 3)
  /-- SFLUSH_LINE (R299): Marks written lines of the flush frame ready. -/
  | sflushLine (s : BitVec 4) (g : BitVec 3)
  /-- SFLUSH_FRAME (R299): Marks the whole flush frame ready. -/
  | sflushFrame (s : BitVec 4) (g : BitVec 3)
  /-- TIME (R302): Reads the device clock. -/
  | time (d : BitVec 6)
  /-- SLEEPU (R302): Waits until a PT64 is reached. -/
  | sleepu (a : BitVec 6)
  /-- LAUNCH (R329): Copies a packet into the device launch queue. -/
  | launch (p : BitVec 3) (a : BitVec 6) (g : BitVec 3)
  /-- LAUNCH_TAIL (R331): Reserves a tail launch slot. -/
  | launchTail (p : BitVec 3) (a : BitVec 6) (g : BitVec 3)
  /-- PUBLISH (R383): Releases and enqueues a window publication. -/
  | publish (w : BitVec 3)
  /-- CPROG (R412): Hands a collective program to an engine. -/
  | cprog (p : BitVec 3) (a : BitVec 6) (g : BitVec 3)
  /-- CTRIG_ARM (R413): Arms a trigger slot from a descriptor. -/
  | ctrigArm (p : BitVec 3) (a : BitVec 6) (s : BitVec 5) (g : BitVec 3)
  /-- CTRIG_DISARM (R413): Disarms a trigger slot. -/
  | ctrigDisarm (p : BitVec 3) (s : BitVec 5) (g : BitVec 3)
  /-- CCTR_ADD (R414): Adds to a trigger counter. -/
  | cctrAdd (d : BitVec 6) (a : BitVec 6) (k : BitVec 3) (g : BitVec 3)
  /-- CCTR_SET (R414): Sets a trigger counter. -/
  | cctrSet (d : BitVec 6) (a : BitVec 6) (k : BitVec 3) (g : BitVec 3)
  /-- CCTR_READ (R414): Reads a trigger counter, then acquires. -/
  | cctrRead (d : BitVec 6) (k : BitVec 3) (g : BitVec 3)
  /-- TBAR (R416): Joins a genlock timed barrier for a send frame. -/
  | tbar (d : BitVec 6) (a : BitVec 6) (s : BitVec 4) (x : BitVec 3) (g : BitVec 3)
  /-- IDEMB (R342): Opens an idempotent region and writes the restart record. -/
  | idemb
  /-- IDEME (R343): Closes the idempotent region. -/
  | ideme
  /-- TLBW (R367): Walker installs a leaf translation. -/
  | tlbw (a : BitVec 6) (l : BitVec 2)
  /-- TLBI_VA_CORE (R369): Invalidates one page's translations on this core. -/
  | tlbiVaCore (a : BitVec 6)
  /-- TLBI_VA_ALL (R369): Invalidates one page's translations on every core. -/
  | tlbiVaAll (a : BitVec 6)
  /-- TLBI_CTX_CORE (R369): Invalidates the context's translations on this core. -/
  | tlbiCtxCore
  /-- TLBI_CTX_ALL (R369): Invalidates the context's translations on every core. -/
  | tlbiCtxAll
  /-- LPI_CORE (R370): Empties last-page registers on this core. -/
  | lpiCore
  /-- LPI_ALL (R370): Empties last-page registers on every core. -/
  | lpiAll
  /-- WALKD (R368): Ends a walk and releases its waiting requests. -/
  | walkd
  /-- TRAP (R431): Raises cause TRAP with a code. -/
  | trap (c : BitVec 12)
  /-- RTT (R432): Returns from a trap handler. -/
  | rtt
  /-- SNAP (R433): Sends a software trigger to the snapshot unit. -/
  | snap (t : BitVec 12)
  /-- BRK (R431): Raises cause BREAK with a code. -/
  | brk (c : BitVec 12)
  /-- HINT_IMM (R78): Supplies high immediate bits to the target. -/
  | hintImm (i : BitVec 24)
  /-- HINT_PREF (R78): Names registers to prefetch. -/
  | hintPref (a : BitVec 6) (b : BitVec 6) (c : BitVec 6) (v : BitVec 3)
  /-- HINT_RND (R78): Overrides the target's rounding or saturation. -/
  | hintRnd (m : BitVec 3) (v : BitVec 1) (s : BitVec 1) (q : BitVec 1)
  /-- HINT_SCHED (R78): Stall, reuse and yield hints for the target. -/
  | hintSched (s : BitVec 4) (r : BitVec 3) (y : BitVec 1)
  /-- REP (R80): Repeats the target with stepped fields. -/
  | rep (n : BitVec 6) (d : BitVec 3) (a : BitVec 3) (b : BitVec 3) (o : BitVec 3)
  /-- LOAD_VALUE_ARRIVAL (R204): A load or atomic value arrives in its registers and ld counts it complete. -/
  | loadValueArrival (crew strand op : Nat)
  /-- STORE_ACKNOWLEDGE (R179): A store is acknowledged and st counts it complete. -/
  | storeAcknowledge (crew strand op : Nat)
  /-- COPY_COMPLETION (R221): A copy's last write is acknowledged; cp counts it and scoreboard entries free. -/
  | copyCompletion (crew strand op : Nat)
  /-- SWAGE_OPERATION_COMPLETION (R238): A Swage operation completes and mx counts it. -/
  | swageOperationCompletion (crew strand op : Nat)
  /-- FIELD_REQUEST_COMPLETION (R260): A field request completes and tr counts it. -/
  | fieldRequestCompletion (crew strand op : Nat)
  /-- TRAVERSAL_STOP (R277): A query reaches a candidate or its end and its status is written. -/
  | traversalStop (crew strand lane : Nat)
  /-- STREAM_OPERATION_COMPLETION (R295): A stream operation completes and sr counts it. -/
  | streamOperationCompletion (crew strand op : Nat)
  /-- RGROW_GRANT (R146): A waiting register growth request is granted from the pool or emergency group. -/
  | rgrowGrant (core : Nat)
  /-- STRAND_END (R161): A strand whose threads exited drains its counters and releases its blocks. -/
  | strandEnd (crew strand : Nat)
  /-- FAIRNESS_ROTATION (R136): The fairness timer reaches 256 and the strand rotates groups. -/
  | fairnessRotation (crew strand : Nat)
  /-- ACTIVE_SET_ROTATION (R137): A strand leaves the active set after 2048 cycles while another is ready. -/
  | activeSetRotation (crew strand : Nat)
  /-- SLEEP_EXPIRY (R160): A sleep interval ends and the threads run. -/
  | sleepExpiry (crew strand : Nat)
  /-- SLEEPU_EXPIRY (R302): The sleepu deadline is reached. -/
  | sleepuExpiry (crew strand : Nat)
  /-- WAITA_DEADLINE (R213): A waita deadline passes and the thread returns. -/
  | waitaDeadline (crew strand lane : Nat)
  /-- TRAP_ENTRY (R426): A handled trap drains loads and stores and enters the handler. -/
  | trapEntry (crew strand : Nat) (cause : BitVec 4) (mask : Mask) (va : VAddr)
  /-- DEFERRED_TRAP (R429): An uncorrectable error met by an async operation traps at the next boundary. -/
  | deferredTrap (crew strand : Nat)
  /-- WATCHDOG_EXPIRY (R442): A launch's allowance is used up; it completes FAULT. -/
  | watchdogExpiry (seq : Nat)
  /-- QUEUE_KICK (R309): A 64-bit write to a queue block advances WIDX after checks. -/
  | queueKick (queue off width : Nat) (value : DWord)
  /-- PACKET_PULL (R311): Bellows pulls a pending packet when the heap has room. -/
  | packetPull
  /-- DEPENDENCY_MET (R315): A held packet's dependency counter reaches DEPVAL. -/
  | dependencyMet (queue : Nat)
  /-- EARLIEST_REACHED (R322): A heap entry's earliest start is reached and it may become top. -/
  | earliestReached (seq : Nat)
  /-- HEAP_DEADLINE_EXPIRY (R318): A deadline passes before any crew is placed. -/
  | heapDeadlineExpiry (seq : Nat)
  /-- PLACE_UNIT (R324): Bellows places the top's next unit of crews. -/
  | placeUnit
  /-- LAUNCH_DEADLINE_CUT (R319): A CUT launch's deadline passes and its crews are cut. -/
  | launchDeadlineCut (seq : Nat)
  /-- TIME_SLICE_TICK (R337): Every 500 us, waiting gangs replace long-running gangs of their context. -/
  | timeSliceTick
  /-- GANG_QUENCH (R345): A gang in an idempotent region is discarded for restart. -/
  | gangQuench (seq gang : Nat)
  /-- GANG_SAVE (R347): A gang drains and is saved into its slots. -/
  | gangSave (seq gang : Nat)
  /-- RESTORE_ON_RELEASE (R339): Freed resources restore waiting gangs before placing the top. -/
  | restoreOnRelease
  /-- LAUNCH_COMPLETION (R320): The last crew ends; tails release, the record is written and COUNT raised. -/
  | launchCompletion (seq : Nat)
  /-- CXASSIST_WRITE (R23): Writes assist modes only while the context is idle. -/
  | cxassistWrite (ctx : Nat) (value : Word)
  /-- SAVE_AREA_WRITE (R334): Writes SLOTS or SAVEBASE under the idle rule. -/
  | saveAreaWrite (ctx off : Nat) (value : DWord)
  /-- TRANSLATION_REGISTER_WRITE (R359): Writes PTROOT, WALKPC, WALKARG or EVRING under the idle rule. -/
  | translationRegisterWrite (ctx off : Nat) (value : DWord)
  /-- CONTEXT_RESET (R441): CXSTATE RESET ends all of the context's work. -/
  | contextReset (ctx : Nat)
  /-- QUEUE_BINDING_WRITE (R379): Writes a queue binding entry when quiet. -/
  | queueBindingWrite (queue off : Nat) (value : DWord)
  /-- WALK_START (R363): A TLB miss starts a walk or writes a host miss record. -/
  | walkStart (core ctx : Nat) (va : VAddr) (kind : BitVec 5)
  /-- HOST_FILL (R365): FILLCTL GO installs a host-supplied leaf. -/
  | hostFill (ctx : Nat) (value : Word)
  /-- HOST_WALK_END (R365): FILLCTL END ends the named walk. -/
  | hostWalkEnd (ctx : Nat) (value : Word)
  /-- RESVA_WRITE (R372): Completes or refuses a residency request. -/
  | resvaWrite (ctx : Nat) (value : DWord)
  /-- PAGE_MIGRATION (R374): The copy engine moves a page to a pool page. -/
  | pageMigration (ctx : Nat) (va : VAddr)
  /-- HOST_WRITE (R380): A host write over CXL.mem is performed at its home slice. -/
  | hostWrite (pa : Nat) (data : List Byte) (atomic : Bool)
  /-- HOST_READ (R380): A host read returns the coherence-latest value. -/
  | hostRead (pa count : Nat)
  /-- WINDOW_REGISTER_WRITE (R381): Writes window registers while quiet; enabling marks all dirty. -/
  | windowRegisterWrite (ctx win off : Nat) (value : DWord)
  /-- PUBLICATION_SERVE (R383): The window unit writes the odd version and copies dirty pages. -/
  | publicationServe (ctx win : Nat)
  /-- PUBLICATION_COMPLETE (R383): Front writes done; even version written and cl counted. -/
  | publicationComplete (ctx win : Nat)
  /-- LOADER_GO (R388): Starts the Bellows image loader. -/
  | loaderGo (ctx : Nat)
  /-- LOADER_DONE (R388): Loading ends with a status. -/
  | loaderDone (ctx : Nat)
  /-- PORTCTL_WRITE (R389): Sets a port's mode and uses, refused while in use. -/
  | portctlWrite (port : Nat) (value : Word)
  /-- PTPCTL_WRITE (R393): Sets PTP mode, port and domain when no session is open. -/
  | ptpctlWrite (value : DWord)
  /-- SESSION_OPEN (R396): Opens a session from its descriptor. -/
  | sessionOpen (session : Nat) (value : Word)
  /-- SESSION_CLOSE (R396): Closes a session at once. -/
  | sessionClose (session : Nat)
  /-- ARP_REQUEST (R390): Answers an ARP request for the device's address. -/
  | arpRequest (lport : Nat) (target senderIp : Word) (senderMac : BitVec 48)
  /-- PTP_EVENT_MESSAGE (R391): A PTP message is stamped and fed to the follower servo. -/
  | ptpEventMessage (lport : Nat) (msg : PtpMsg)
  /-- PTP_MASTER_LOSS (R393): The master is lost and LOCK clears. -/
  | ptpMasterLoss
  /-- VIDEO_PACKET_RECEIVE (R291): A received ST 2110 packet is matched and its groups stored. -/
  | videoPacketReceive (lport : Nat) (pkt : VideoPacket)
  /-- OPAQUE_PACKET_RECEIVE (R399): An opaque session stores a packet record. -/
  | opaquePacketReceive (lport : Nat) (pkt : RtpPacket)
  /-- LINE_CLOSE (R291): A line's deadline is reached; missing groups are filled. -/
  | lineClose (session frame line : Nat)
  /-- PACKET_TRANSMIT (R398): A send packet leaves at its scheduled time. -/
  | packetTransmit (session : Nat)
  /-- OPAQUE_TRANSMIT (R399): An opaque record is sent at its mapped time. -/
  | opaqueTransmit (session : Nat)
  /-- PORT_LINK_CHANGE (R389): A logical port gains or loses link. -/
  | portLinkChange (lport : Nat) (up : Bool)
  /-- LLYNAD_REQ (R402): A row request is granted or queued. -/
  | llynadReq (lport : Nat) (hdr : LlyHeader)
  /-- LLYNAD_GRANT (R402): A grant lets the sender send DATA. -/
  | llynadGrant (lport : Nat) (hdr : LlyHeader)
  /-- LLYNAD_DATA (R400): Data flits land in a row. -/
  | llynadData (lport : Nat) (hdr : LlyHeader) (flits : List Byte)
  /-- LLYNAD_ACK (R401): A cumulative acknowledgement retires datagrams. -/
  | llynadAck (lport : Nat) (hdr : LlyHeader)
  /-- LLYNAD_SIG (R405): Raises a trigger counter of the peer context. -/
  | llynadSig (lport : Nat) (hdr : LlyHeader)
  /-- LLYNAD_ABT (R405): Ends the receiving program ABORTED. -/
  | llynadAbt (lport : Nat) (hdr : LlyHeader)
  /-- LLYNAD_ARRIVE (R416): The leader records a member's arrival. -/
  | llynadArrive (lport : Nat) (hdr : LlyHeader)
  /-- LLYNAD_COMMIT (R416): A member records the commit, or DISAGREE if late. -/
  | llynadCommit (lport : Nat) (hdr : LlyHeader)
  /-- LLYNAD_CACK (R416): The leader records a commit acknowledgement. -/
  | llynadCack (lport : Nat) (hdr : LlyHeader)
  /-- LLYNAD_RESEND (R401): Unacknowledged datagrams resend after 20 us; 8 failures fail the path. -/
  | llynadResend (peer lport rport : Nat)
  /-- LLYNAD_PATH_RETRY (R401): A failed path is tried every 10 ms. -/
  | llynadPathRetry (peer lport rport : Nat)
  /-- RELAY_WRITE (R407): The host picks a relay or ends the program. -/
  | relayWrite (ctx : Nat) (value : Word)
  /-- COLL_SEND (R405): Sends a chunk to peer P. -/
  | collSend (prog : Nat)
  /-- COLL_RECV (R405): Writes P's next message to a chunk. -/
  | collRecv (prog : Nat)
  /-- COLL_RRS (R405): Reduces a received message and forwards it. -/
  | collRrs (prog : Nat)
  /-- COLL_COPY (R405): Copies one chunk to another. -/
  | collCopy (prog : Nat)
  /-- COLL_WAIT (R405): Waits for all sent messages to be acknowledged. -/
  | collWait (prog : Nat)
  /-- COLL_LOOP (R405): Counts a loop and jumps. -/
  | collLoop (prog : Nat)
  /-- COLL_SIG (R405): Signals a peer trigger counter. -/
  | collSig (prog : Nat)
  /-- COLL_END (R405): Ends the program, writes STATUS and raises its counter. -/
  | collEnd (prog : Nat)
  /-- TRIGGER_COUNTER_WRITE (R408): The host sets a trigger counter. -/
  | triggerCounterWrite (ctx k : Nat) (value : DWord)
  /-- TRIGGER_ACTION_END (R410): A fired action ends and IINC is added. -/
  | triggerActionEnd (ctx slot : Nat)
  /-- GENLOCK_ARRIVE (R416): Once F is READY, ARRIVE is sent to the leader. -/
  | genlockArrive (group : Nat)
  /-- GENLOCK_COMMIT_INSTANT (R416): At T minus GUARD the leader sends COMMIT if all arrived. -/
  | genlockCommitInstant (group : Nat)
  /-- GENLOCK_DECISION (R416): At T minus GUARD/2 a member presents or substitutes. -/
  | genlockDecision (group : Nat)
  /-- GENLOCK_CACK_CHECK (R416): At T the leader counts missing CACKs. -/
  | genlockCackCheck (group : Nat)
  /-- PATCHGO (R446): Starts verification of the staged patch. -/
  | patchgo
  /-- PATCH_VERIFY_DONE (R448): Verification ends with PSTAT and state moves on. -/
  | patchVerifyDone
  /-- NOPATCH (R446): Continues with no patch. -/
  | nopatch
  /-- TIMEGO (R464): Sets the clock to TIMESET and leaves state TIME. -/
  | timego
  /-- SVNBURN (R449): Raises the fused minimum version. -/
  | svnburn
  /-- ATTGO (R452): Starts forming a signed attestation report. -/
  | attgo
  /-- ATTESTATION_DONE (R452): The report is written and ATTBUSY clears. -/
  | attestationDone
  /-- SOFTCORE_WRITE (R458): Host retires a core from service. -/
  | softcoreWrite (value : DWord)
  /-- CORE_RETIREMENT_DONE (R458): No crew remains; CAPCORE clears and MEAS3 updates. -/
  | coreRetirementDone (core : Nat)
  /-- SOFTCHAN_WRITE (R456): Retires a channel before MEMTRAIN. -/
  | softchanWrite (value : BitVec 16)
  /-- SOFTPORT_WRITE (R456): Retires a port before MEMTRAIN. -/
  | softportWrite (value : BitVec 4)
  /-- RCAND_READ (R454): Pops the oldest page retirement candidate. -/
  | rcandRead
  /-- RETW_WRITE (R455): Adds or removes a retired page. -/
  | retwWrite (value : DWord)
  /-- HEARTH_ROW_REPAIR (R453): A failing Hearth row is replaced by a spare. -/
  | hearthRowRepair (slice row : Nat)
  /-- UNCORRECTABLE_WRITEBACK (R436): A write-back with no consumer is dropped as a fatal event. -/
  | uncorrectableWriteback (pa : Nat)
  /-- CORE_PARITY_ERROR (R434): Core control parity error is fatal to its contexts and retires the core. -/
  | coreParityError (core : Nat)
  /-- DEVICE_PARITY_ERROR (R459): Device-wide control parity error enters FAILED. -/
  | deviceParityError (addr : DWord)
  /-- SNAPSHOT_REARM (R462): Clearing LATCHED re-arms the snapshot unit. -/
  | snapshotRearm
  /-- SNAPSHOT_TIME_TRIGGER (R462): SNAPTIME is reached and the snapshot latches. -/
  | snapshotTimeTrigger
  /-- SNAPSHOT_PIN_TRIGGER (R462): A rising edge at the trigger input latches. -/
  | snapshotPinTrigger
  /-- THROTTLE_TICK (R463): Every 100 us the throttle level moves. -/
  | throttleTick (power : BitVec 16) (temp : BitVec 8)
  /-- THERMAL_TRIP (R463): TEMP reaches 105 and the device fails. -/
  | thermalTrip
  /-- POWER_GOOD (R464): Power-good starts bring-up in state RESET. -/
  | powerGood
  /-- FUNCTION_LEVEL_RESET (R465): A PCIe FLR returns the device to RESET. -/
  | functionLevelReset
  /-- MODULE_RESET_PIN (R465): The reset pin returns the device to RESET. -/
  | moduleResetPin
  /-- RESET_STATE_DONE (R464): Clocks started and fuses read; enters ROMINIT. -/
  | resetStateDone
  /-- ROMINIT_DONE (R464): Self-test and key derivation end. -/
  | rominitDone (badCores : DWord)
  /-- HOST_LINK_TRAINED (R464): The host link trains; ROMINIT may end. -/
  | hostLinkTrained
  /-- MEMTRAIN_DONE (R464): Channels are trained and MEMSIZE set. -/
  | memtrainDone (badChans : BitVec 16)
  /-- PORTS_UP (R464): Ports are brought up; enters TIME. -/
  | portsUp (badPorts : BitVec 4)
  /-- REGISTER_WRITE (R7): A write to a register with no row of its own. -/
  | registerWrite (off width : Nat) (value : DWord)
  /-- POWER_DOWN (R20): Loss of module power discards all device state except fuses. -/
  | powerDown
  /-- DELAY_REQ_TRANSMIT (R391): The PTP follower sends a Delay_Req at the profile's message rate and stamps it at egress. -/
  | delayReqTransmit
  /-- PEER_MEMORY_ACCESS (R353): A peer's read, write or atomic to device memory over Llynad is performed at its home slice. -/
  | peerMemoryAccess (rank pa : Nat) (acc : PeerAccess)
  /-- SVN_BURN_DONE (R449): The fuse burn finishes, and MINSVN equals SVN with MEAS2 updated. -/
  | svnBurnDone
  /-- TRIGGER_OUTPUT_PULSE_END (R462): The snapshot trigger output pin falls 1 us after the latch. -/
  | triggerOutputPulseEnd
  deriving DecidableEq, Repr

end Sys2Proof
end

