-- ==== Sys2Proof/Machine/State.lean ====
section
/-! DEFINITION. The state of the YL-880: plain data, every piece of it named by spec/, and the value each piece has
right after reset. The groups follow spec/01_device_organisation.md R20: what lives for one instruction, for one
kernel, for launches and contexts, and for hours. INVENTORY.md lists each field with its rule and reset value. -/

namespace Sys2Proof.Machine

/-- Global and local storage: (address, byte) pairs in one canonical form, see `Machine/Ops.lean`. -/
abbrev Memory := List Host.Cell
/-- A sparse table keyed by number, in ascending order of keys. -/
abbrev SMap (α : Type) := List (Nat × α)

/-! ### Values -/

/-- An exact real, or an infinity or NaN (spec/02_number_formats.md R10, R26): `fin` is the sign, the numerator and
the denominator of the magnitude. -/
inductive Num where
  | nan (signalling : Bool)
  | inf (neg : Bool)
  | fin (neg : Bool) (num den : Nat)
  deriving DecidableEq, Repr

/-- Shape tags (R53). -/
inductive Tag where
  | uniform | affine | general
  deriving DecidableEq, Repr

/-- One vector register: its tag, the value of each lane, the physical location it maps to (R53, R56), and whether
that location holds an uncorrectable error (R68). -/
structure Reg where
  tag   : Tag
  lanes : L8 Word
  loc   : Nat
  bad   : Bool
  deriving DecidableEq, Repr

/-- A translation held by a TLB, a last-page register or a command in flight (R351, R361): context, first virtual
address and level of the leaf, and the leaf entry. -/
structure Trans where
  ctx   : Nat
  base  : VAddr
  level : Nat
  entry : DWord
  deriving DecidableEq, Repr

/-! ### Threads -/

/-- Thresholds of `wait` and `waitx` (R186, R223). -/
structure Thresholds where
  ld : Nat
  st : Nat
  cp : Nat
  mx : Nat
  tr : Nat
  sr : Nat
  cl : Nat
  deriving DecidableEq, Repr

/-- Where a `waita` stands, the address of its word and the translation it was found through (R213, R369). -/
structure WaitAt where
  pc : VAddr
  va : Nat
  tr : Option Trans
  deriving DecidableEq, Repr

/-- What a waiting thread waits for (R134). -/
inductive Wait where
  | bar (slot : Nat)
  | gbar
  | sbar
  | idem (closing : Bool)
  | counters (t : Thresholds)
  | waita (pa : Nat) (expected : Word) (deadline : DWord) (vd pd : Nat) (at_ : WaitAt)
  | sleep (endCycle : Nat)
  | sleepu (deadline : DWord)
  | rgrow
  deriving DecidableEq, Repr

/-- Thread states (R131). -/
inductive ThState where
  | running | parked | waiting (w : Wait) | exited
  deriving DecidableEq, Repr

/-- A buffered transactional store: word index, written bytes and their values (R192), whether the word was last written by an
`st.b64` (R377), and the translation used (R369). -/
structure TxWrite where
  word  : Nat
  bytes : BitVec 4
  value : Word
  wide  : Bool
  tr    : Option Trans
  deriving DecidableEq, Repr

/-- A word of a read set: its index, the value read (R192), its address and the translation used (R369, R436). -/
structure TxRead where
  word  : Nat
  value : Word
  va    : Nat
  tr    : Option Trans
  deriving DecidableEq, Repr

/-- A lane's transaction (R191 to R194). `state` is the code of R191; `begun` says that the lane's last `txb` has been
followed by neither `txc` nor `txa`, since a doom code outlasts both. -/
structure Tx where
  state : Nat
  begun : Bool
  fails : Nat
  prio  : Bool
  rset  : List TxRead
  wset  : List TxWrite
  deriving DecidableEq, Repr

/-- A committed or candidate hit, kept exactly (R277, R279). -/
structure Hit where
  t    : Num
  b1   : Num
  b2   : Num
  prim : Word
  geom : Word
  proc : Bool
  deriving DecidableEq, Repr

/-- Work a query has pending: a node, the rest of a triangle leaf, or a procedural leaf (R277). -/
inductive Todo where
  | node (ref : Nat)
  | tris (record left : Nat)
  | proc (ref : Word) (dist : Num)
  deriving DecidableEq, Repr

/-- A thread's ray query (R276, R277). `status` is the code of R276; 5 is NONE. `done` is the
address of a `trace` or `tcont` whose status the lane has while its group still stands there (R260, R282). -/
structure Query where
  status : Nat
  reason : Nat
  ray    : List Word
  nbase  : DWord
  tbase  : DWord
  limit  : Num
  todo   : List Todo
  hit    : Option Hit
  cand   : Option Hit
  done   : Option VAddr
  deriving DecidableEq, Repr

/-- One thread (R131) with what R42, R220, R253, R191, R276 and R362 hold per thread. `acts` is the address of a held `trace` or `tcont` that
the thread takes part in, since its guard is read at issue (R72). -/
structure Thread where
  pc       : VAddr
  meeting  : Word
  state    : ThState
  draws    : DWord
  copies   : Nat
  swDraws  : Nat
  tx       : Tx
  query    : Query
  lastPage : Option Trans
  acts     : Option VAddr
  deriving DecidableEq, Repr

/-! ### Operations in flight -/

/-- The seven strand counters (R185). -/
inductive Ctr where
  | ld | st | cp | mx | tr | sr | cl
  deriving DecidableEq, Repr

/-- Register types of loads (R200, R204). -/
inductive LoadTy where
  | b32 | b64 | f32 | f16 | bf16 | i32
  deriving DecidableEq, Repr

/-- One element of a lane access, translated (R198, R355): its lane, addresses, page format and block scale, which stands at the
virtual address `sva`, with the translations used; `sh` is where it stands in its lane's value once its operation has been split into accesses. -/
structure Elem where
  lane   : Nat
  va     : DWord
  pa     : Nat
  size   : Nat
  nib    : Bool
  fmt    : Nat
  geom   : Nat
  scale  : Option Nat
  sva    : Nat
  tr     : Option Trans
  str    : Option Trans
  absent : Bool
  rodl   : Bool
  sh     : Option Nat
  deriving DecidableEq, Repr

/-- What a load has gathered so far: each lane's value, flags, and the lanes absent or uncorrectable. -/
structure LoadAcc where
  vals  : SMap Nat
  flags : BitVec 5
  gone  : Mask
  bad   : Mask
  badVa : Option Nat
  deriving DecidableEq, Repr

/-- Local buffers (R171). -/
inductive Space where
  | wbuf | abuf | cbuf
  deriving DecidableEq, Repr

/-- One lane's share of a store, an atomic or a local access. -/
structure LaneAcc where
  lane   : Nat
  va     : Nat
  pa     : Nat
  a      : DWord
  b      : DWord
  absent : Bool
  deriving DecidableEq, Repr

/-- A copy command with its operands and held translations (R217 to R222). Local `dst` and `src` are addresses in the core's
buffer, and `base` is where the source's claim begins; `tabBad` lists the uncorrectable entries of the table with their
offsets. -/
structure CopyCmd where
  table   : Option (List Byte)
  tabBad  : List (Nat × Nat)
  entryW  : Nat
  base    : Nat
  dst     : DWord
  src     : DWord
  n       : Nat
  m       : Nat
  dstride : Int
  sstride : Int
  cw      : Word
  key     : DWord
  ctr0    : Nat
  seed    : DWord
  lane    : Nat
  trans   : List Trans
  ctx     : Nat
  deriving DecidableEq, Repr

/-- A field request (R257 to R274): which instruction. A request whose structure is absent has its `n` outputs, those of its entry, as
its inputs (R259). -/
inductive FieldKind where
  | hgf (o16 : Bool) | hgs (i16 : Bool) | hgfold | march | tex | given (n : Nat)
  deriving DecidableEq, Repr

/-- A field request with its operands and acting lanes. Its elements are performed one by one (R267, R269, R270): `got` holds the code of
each element that `hgf` has read already, and whether it was uncorrectable, `sent` the updates and folds already performed; the lanes
that met an absent page, the lanes and the lowest address that met an uncorrectable error, and whether a write was dropped go with it. -/
structure FieldCmd where
  kind    : FieldKind
  vd      : Nat
  mask    : Mask
  lane    : Nat
  header  : List Byte
  inputs  : List (L8 Word)
  trans   : List Trans
  key     : DWord
  seed    : DWord
  ctx     : Nat
  gone    : Mask
  bad     : Mask
  badVa   : Option Nat
  drop    : Bool
  got     : SMap (Nat × Bool)
  sent    : List Nat
  deriving DecidableEq, Repr

/-- The overrides of a `hint.rnd` (R78). -/
structure RndSt where
  mode : Option (BitVec 3)
  sat  : Option Bool
  deriving DecidableEq, Repr

/-- The key of a value-table entry (R61, R64). -/
structure VKey where
  word : Word
  imm  : Option (BitVec 24)
  rnd  : Option RndSt
  srcs : List Nat
  mask : Mask
  old  : List Nat
  xgen : Word
  load : List Nat
  deriving DecidableEq, Repr

/-- What an operation in flight does when it is performed or completed. -/
inductive OpKind where
  | load (ty : LoadTy) (vd : Nat) (els : List Elem) (uni : Bool) (key : Option VKey) (acc : LoadAcc)
  | store (n : Nat) (accs : List LaneAcc)
  | atom (op vd : Nat) (accs : List LaneAcc)
  | cas (wide : Bool) (vd : Nat) (accs : List LaneAcc)
  | ldb (sp : Space) (vd : Nat) (accs : List LaneAcc) (uni : Bool) (key : Option VKey)
  | stb (sp : Space) (accs : List LaneAcc)
  | copy (c : CopyCmd)
  | pgreq (vd : Nat) (mask : Mask) (pages : List (Nat × Nat)) (refused : List Nat)
  | pfetch (lines : List Nat) (l1 : Bool)
  | swage (absentLane : Option Nat) (signer : Bool) (cv : Option Nat) (stores : Bool)
  | mstat (vd : Nat) (mask : Mask) (value : Word) (before : List (Nat × Nat))
  | field (f : FieldCmd)
  | trace (vd : Nat) (mask : Mask) (before : List (Nat × Query))
  | srd (session frame line : Nat) (vd pd : Nat) (cv : Bool) (mask : Mask) (px : List Nat)
  | srdt (session frame : Nat) (tile pd : Nat) (mask : Mask) (x y ch : Nat)
  | swr (binding turn session frame line : Nat) (cv : Bool) (mask : Mask) (px : List Nat) (data : List (L8 Word))
  | sflush (binding turn session frame lines : Nat) (whole : Bool)
  | publish (ctx win lane : Nat)
  | cprog (slot lane : Nat)
  | tbar (group vd : Nat) (mask : Mask)
  deriving DecidableEq, Repr

/-- An operation in flight: its identity in the strand, its counter, the registers and predicate it will write, the
address of its instruction, and whether it is performed but not yet counted (R185 to R187). `srcs` are registers that it still reads
(R166), and `gone` the lanes whose bit of p7 is set when it is counted complete (R220, R244). -/
structure Pending where
  id   : Nat
  ctr  : Ctr
  dsts : List Nat
  pdst : Option Nat
  pc   : VAddr
  kind : OpKind
  done : Bool
  srcs : List Nat
  gone : Mask
  deriving DecidableEq, Repr

/-- A deferred ECC_UE trap (R429), of the operation `op` of the strand. -/
structure Deferred where
  op   : Nat
  mask : Mask
  va   : VAddr
  src  : VAddr
  deriving DecidableEq, Repr

/-- A `waita` whose other lanes trap once these have returned (R198, R213): where it stands, the lanes that wait, the faulting lanes
and the address that `ctl.trapva` will hold. -/
structure WaitaFault where
  pc    : VAddr
  lanes : Mask
  fault : Mask
  va    : Nat
  deriving DecidableEq, Repr

/-! ### Issue state of a strand -/

/-- `rep` in force: its count, steps and next iteration, and whether one has issued (R79, R80). -/
structure RepSt where
  n    : Nat
  sd   : Int
  sa   : Int
  sb   : Int
  soff : Int
  iter : Nat
  ran  : Bool
  deriving DecidableEq, Repr

/-- The issue unit being fetched (R76): how many words of it have issued and the prefixes they set. -/
structure UnitSt where
  words : Nat
  imm   : Option (BitVec 24)
  pref  : Bool
  rnd   : Option RndSt
  sched : Option Bool
  rep   : Option RepSt
  dup   : Bool
  deriving DecidableEq, Repr

/-- The trap record (R424). -/
structure TrapRec where
  code  : BitVec 12
  defer : Bool
  inh   : Bool
  part  : Bool
  next  : Bool
  cause : BitVec 4
  va    : VAddr
  mask  : Mask
  pc    : VAddr
  src   : Word
  deriving DecidableEq, Repr

/-- What a strand's outstanding misses were answered (R368): page number and the walk's result. -/
structure WalkAnswer where
  page  : Nat
  entry : Option Trans
  deriving DecidableEq, Repr

/-- One strand (R48, R140, R143). Register count and counters are views of `regs` and `inflight`. While the strand is in its
handler, the queries of the lanes `qstill` stand still (R281). `partMask` is the unit that a partial re-issue is for, and its lanes
(R432). `stale` lists the counters with completions that wrote global memory and that no wait has observed, and `acq` says that a wait has ended whose acquire is still to be made
(R223). `locked` lists the lanes whose next commit meets a word that another transaction holds locked (R194), as the agenda
says. `repHeld` is the next iteration and the count of a `rep` run that a save has interrupted (R81), and `outSince` the cycle
since which the strand has been ready outside the active set (R137). `growAge` is the age of the pending `rgrow` among the strands of its
launch (R146, R164), and `turnAt` is one more than the cycle of the strand's last turn (R16), 0 before the first. -/
structure Strand where
  idx      : Nat
  num      : Nat
  regs     : List Reg
  preds    : L8 Mask
  threads  : L8 Thread
  group    : Mask
  lastLow  : Nat
  timer    : Nat
  active   : Bool
  activeFor : Nat
  outSince : Option Nat
  readyAt  : Nat
  turnAt   : Nat
  unit     : UnitSt
  resume   : Bool
  repHeld  : Option (Nat × Nat)
  partMask : Option (VAddr × Mask)
  fflags   : BitVec 5
  repleft  : Word
  emerg    : Bool
  grow     : Option Nat
  growAge  : Nat
  fldev    : BitVec 3
  trap     : TrapRec
  handler  : Mask
  deferred : List Deferred
  inflight : List Pending
  nextOp   : Nat
  answers  : List WalkAnswer
  waita    : Option WaitaFault
  qstill   : Mask
  stale    : List Ctr
  acq      : Bool
  locked   : Mask
  ended    : Bool
  deriving DecidableEq, Repr

/-! ### Crews -/

/-- A stream register's binding (R283, R285, R301). -/
structure Binding where
  bound   : Bool
  dir     : Bool
  session : Nat
  frame   : Nat
  y       : Nat
  x       : Nat
  wrap    : Bool
  closed  : Bool
  lateInh : Bool
  flushed : Option Nat
  deriving DecidableEq, Repr

/-- A local-buffer claim: first byte in the core's buffer and length (R172). -/
structure Claim where
  base : Nat
  size : Nat
  deriving DecidableEq, Repr

/-- A barrier slot (R148). -/
structure BarSlot where
  count : Nat
  gen   : Bool
  deriving DecidableEq, Repr

/-- What the restart record holds of one strand (R349). -/
structure StrandRestart where
  pc       : L8 VAddr
  exited   : Mask
  meeting  : L8 Word
  regs     : List Reg
  draws    : L8 DWord
  copies   : L8 Nat
  swDraws  : L8 Nat
  fflags   : BitVec 5
  fldev    : BitVec 3
  regcount : Nat
  deriving DecidableEq, Repr

/-- A crew's restart record (R346, R348). -/
structure Restart where
  strands  : List StrandRestart
  sbars    : Nat
  binds    : List Binding
  xpat     : List Word
  xtab     : List Word
  progress : Bool
  held     : Bool
  deriving DecidableEq, Repr

/-! ### The Swage -/

/-- An accumulator bank (R225): mode, per-row events (bit 0 OV, bit 1 NV, bit 2 SA), and the accumulators that are
not zero, keyed by 64 × row + column. -/
structure Bank where
  int    : Bool
  events : SMap (BitVec 3)
  acc    : SMap (BitVec 80)
  deriving DecidableEq, Repr

/-- A tile: element storage (zero where not listed), scale store (0x7F where not listed) and shape register (R227,
R228). -/
structure Tile where
  data  : Memory
  scale : Memory
  shape : Word
  deriving DecidableEq, Repr

/-- A convergence register (R231, R240, R241). -/
structure Conv where
  decl    : Nat
  sigs    : Nat
  key     : Option (Nat × Option RndSt)
  signers : List (Nat × Nat × Nat)
  deriving DecidableEq, Repr

/-- The contents of a Swage (R225 to R231). -/
structure Swage where
  act   : Bool
  bank0 : Bank
  bank1 : Bank
  tiles : List Tile
  cvs   : List Conv
  deriving DecidableEq, Repr

/-- Where a crew stands (R328). -/
inductive CrewState where
  | resident | saved | pending | ended
  deriving DecidableEq, Repr

/-- One crew (R140 to R143) with its coordinates, what R51, R144, R190 and R285 hold per crew, and its strands. A
walker crew (R363) has `walker = true` and its strands take their context from the core's walks. `leaving` says that its strands have
stopped issuing, because its gang is being taken off its cores (R345, R347). -/
structure Crew where
  id       : Nat
  walker   : Bool
  ctx      : Nat
  seq      : Nat
  stage    : Nat
  gang     : Nat
  idx      : Nat
  gangSize : Nat
  gangFall : Bool
  core     : Nat
  state    : CrewState
  slot     : Nat
  order    : Nat
  naming   : Bool
  progress : Bool
  vnhits   : Word
  vndedup  : Word
  vncoll   : Word
  xgen     : Word
  xpat     : List Word
  xtab     : List Word
  nbars    : Nat
  bars     : List BarSlot
  sbars    : Nat
  baseRegs : Nat
  ceil     : Nat
  wclaim   : Claim
  aclaim   : Claim
  cclaim   : Claim
  binds    : List Binding
  region   : Bool
  idemAt   : Option VAddr
  restart  : Option Restart
  dispSlot : Nat
  entryPc  : VAddr
  seed     : DWord
  placedAt : DWord
  waitFrom : DWord
  swage    : Option Swage
  leaving  : Bool
  strands  : List Strand
  deriving DecidableEq, Repr

/-! ### Cores -/

/-- An L1 line: line number, 32 words, valid and owned bits (R177). -/
structure L1Line where
  line  : Nat
  words : List Word
  valid : Word
  owned : Word
  deriving DecidableEq, Repr

/-- A walk (R363 to R368): its context, missing address, access kind, the crews' strands that joined it, its result
so far, whether it must be translated again, and whether it is host-assisted. -/
structure Walk where
  num     : Nat
  ctx     : Nat
  va      : VAddr
  kind    : BitVec 5
  joined  : List (Nat × Nat)
  result  : Option Trans
  again   : Bool
  host    : Bool
  deriving DecidableEq, Repr

/-- A queued miss of a core (R363). -/
structure Miss where
  ctx    : Nat
  va     : VAddr
  kind   : BitVec 5
  joined : List (Nat × Nat)
  deriving DecidableEq, Repr

/-- A range scoreboard entry (R188). -/
structure SbEntry where
  crew   : Nat
  strand : Nat
  op     : Nat
  space  : Space
  first  : Nat
  last   : Nat
  writes : Bool
  deriving DecidableEq, Repr

/-- A physical location of the register die that at least one register maps to (R56, R60), and whether it holds an uncorrectable
error (R68). -/
structure Loc where
  id     : Nat
  tag    : Tag
  lanes  : L8 Word
  refs   : Nat
  shared : Bool
  bad    : Bool
  deriving DecidableEq, Repr

/-- A content-index entry (R59). -/
structure CEntry where
  hash : DWord
  loc  : Nat
  deriving DecidableEq, Repr

/-- A value-table entry (R61): key, result locations, sticky flags, and for `ldb.w` the WBUF range it read. -/
structure VEntry where
  key   : VKey
  res   : List Nat
  flags : BitVec 5
  range : Option (Nat × Nat)
  set   : Nat
  deriving DecidableEq, Repr

/-- Value naming of one core (R59 to R68, R123). -/
structure Naming where
  cindex  : SMap CEntry
  locs    : List Loc
  nextLoc : Nat
  vtable  : List VEntry
  gen     : Word
  deriving DecidableEq, Repr

/-- A line of an instruction cache (R70): the launch that fetched it, its line number (128 bytes), and its bytes. -/
structure ILine where
  seq   : Nat
  line  : Nat
  bytes : List Byte
  deriving DecidableEq, Repr

/-- One core (R16). -/
structure Core where
  enabled  : Bool
  icache   : List ILine
  l1       : List L1Line
  wbuf     : Memory
  abuf     : Memory
  cbuf     : Memory
  tlb      : List Trans
  walks    : List Walk
  misses   : List Miss
  holder   : Option Nat
  swage    : Swage
  sboard   : List SbEntry
  naming   : Naming
  emHolder : Option (Nat × Nat)
  emSize   : Nat
  emFree   : Nat
  deriving DecidableEq, Repr

/-! ### Queues, launches and Bellows -/

/-- A packet's fields (R312). -/
structure Packet where
  hadmit   : Bool
  persist  : Bool
  progress : Bool
  naming   : Bool
  save     : Bool
  cut      : Bool
  shed     : Nat
  kind     : Nat
  cost     : Nat
  deadline : DWord
  earliest : DWord
  depAddr  : DWord
  depVal   : DWord
  cplAddr  : DWord
  cplInc   : Word
  watchdog : Nat
  kernel   : DWord
  args     : DWord
  seed     : DWord
  alt      : DWord
  streams  : DWord
  crews    : Nat
  strands  : Nat
  gangP    : Nat
  gangF    : Nat
  stages   : Nat
  regs     : Nat
  ceil     : Nat
  bars     : Nat
  cbuf     : Nat
  abuf     : Nat
  wbuf     : Nat
  dispB    : Word
  dispC    : Word
  cores    : DWord
  reserved : Bool
  deriving DecidableEq, Repr

/-- Packet states (R327) of a pulled packet that has not completed. -/
inductive Phase where
  | waitDep | heap | placing | running | cutting
  deriving DecidableEq, Repr

/-- A range of the tile dispenser (R167). -/
structure DispRange where
  lo : Nat
  hi : Nat
  deriving DecidableEq, Repr

/-- A stream table entry as Bellows read it (R314). -/
structure StreamEnt where
  valid   : Bool
  dir     : Bool
  session : Nat
  start   : DWord
  deriving DecidableEq, Repr

/-- A pulled packet (R311 to R327). `depPa` is the translated address of its dependency while Bellows holds a translation of it (R315),
`alternate` says that it was read at another's ALT (R318), `cutAt` is the device time at which unplaced crews of it ended by a cut (R319,
R328), and `topSince` the wait start of its next unplaced crew (R336). -/
structure Launch where
  seq       : Nat
  ctx       : Nat
  queue     : Nat
  pkt       : Packet
  phase     : Phase
  metOrder  : Option Nat
  depPa     : Option Nat
  alternate : Bool
  cutAt     : Option DWord
  streams   : List StreamEnt
  used      : Nat
  firstAt   : Option DWord
  frozenFor : Nat
  crewsLeft : Nat
  gangs     : List (Nat × Bool)
  nextStage : Nat
  disp      : List DispRange
  topSince  : Option DWord
  deriving DecidableEq, Repr

/-- A slot of a context's device launch queue (R307, R331): 128 packet bytes and the launch that reserved it. -/
structure DlSlot where
  bytes    : List Byte
  reserved : Option Nat
  deriving DecidableEq, Repr

/-- A hardware queue: its binding (R379) and its block (R308). -/
structure Queue where
  en       : Bool
  ctx      : Nat
  rbase    : DWord
  k        : Nat
  gen      : BitVec 16
  kgen     : BitVec 16
  widx     : Word
  ridx     : Word
  width    : Bool
  range    : Bool
  genbad   : Bool
  lastKick : DWord
  deriving DecidableEq, Repr

/-- A unit of placement: the launch, gang, stage and size, with each crew's core. -/
structure Unit4 where
  gang  : Nat
  stage : Nat
  size  : Nat
  fall  : Bool
  cores : List Nat
  deriving DecidableEq, Repr

/-- Whom the room that leaving gangs make is for: nobody, a launch's next unit (planned on cores already, or when the room is there), or a
waiting gang. -/
inductive TakeFor where
  | room
  | unit (seq : Nat) (u : Option Unit4)
  | gang (seq gang stage : Nat)
  deriving DecidableEq, Repr

/-- Gangs chosen to leave their cores whose operations have not all completed yet (R338, R345, R347): launch, gang and stage of each,
whom the room is for, and whether they are saved even where they could be quenched (R458). -/
structure Taking where
  gangs : List (Nat × Nat × Nat)
  whom  : TakeFor
  save  : Bool
  deriving DecidableEq, Repr

/-- Bellows' own counters and pointers (R311, R324), and the gangs it is taking off. -/
structure Bellows where
  nextSeq  : Nat
  lastPull : Option Nat
  rr       : Nat
  nextCrew : Nat
  nextMet  : Nat
  tickDone : Nat
  taking   : List Taking
  deriving DecidableEq, Repr

/-! ### Contexts -/

/-- An output window (R381 to R383). -/
structure Window where
  wback  : DWord
  wfront : DWord
  wvera  : DWord
  wpages : Nat
  en     : Bool
  rej    : Bool
  wver   : DWord
  dirty  : List Nat
  queue  : List (Nat × Nat × Nat)
  busy   : Option (List Nat)
  drop   : Bool
  deriving DecidableEq, Repr

/-- The error record of a context (R437, R439). -/
structure ErrRec where
  valid   : Bool
  fatal   : Bool
  ovr    : Bool
  nested  : Bool
  cause   : Byte
  lanes   : Mask
  strand  : Nat
  core    : Nat
  seq     : DWord
  addr    : DWord
  pc      : DWord
  code    : BitVec 12
  eccCons : Word
  deriving DecidableEq, Repr

/-- The loader registers (R388). -/
structure Loader where
  imgAddr : DWord
  loadVa  : DWord
  busy    : Bool
  site    : BitVec 24
  sym     : BitVec 24
  status  : Byte
  deriving DecidableEq, Repr

/-- A trigger slot (R408 to R410): the descriptor while it is armed, its firing count, and the actions that have begun
and not ended, each under the count of its firing. -/
structure TrigSlot where
  desc    : Option (List Byte)
  actions : List (Nat × List Byte)
  fires   : Nat
  deriving DecidableEq, Repr

/-- A page being moved to the device (R374): its address, where its leaf stands and what the leaf held, and the page it goes to. -/
structure PageMove where
  va    : VAddr
  leaf  : Nat
  entry : DWord
  frame : Nat
  deriving DecidableEq, Repr

/-- One context (R332): its management block and what belongs to it. -/
structure Context where
  assist   : BitVec 5
  assistRej : Bool
  saveBase : DWord
  slots    : Nat
  slotsRej : Bool
  quenches : Word
  saves    : Word
  ptroot   : DWord
  walkPc   : DWord
  walkArg  : DWord
  migT     : BitVec 16
  evBase   : DWord
  evLog    : BitVec 4
  evHead   : Word
  evTail   : Word
  evWait   : List (List Byte)
  fillVa   : DWord
  fillEnt  : DWord
  fillCtl  : Word
  pool     : DWord
  trapPc   : DWord
  err      : ErrRec
  frozen   : Bool
  loader   : Loader
  windows  : List Window
  tcs      : List DWord
  trigs    : List TrigSlot
  relay    : Word
  dlq      : List DlSlot
  resReqs  : List Nat
  resWait  : List (Nat × Bool)
  migQueue : List VAddr
  moving   : Option PageMove
  deriving DecidableEq, Repr

/-! ### Sessions, ports and time -/

/-- A session's descriptor (R395). -/
structure SessDesc where
  send   : Bool
  fmt    : Nat
  full   : Bool
  nf     : Nat
  fillm  : Nat
  sndt   : Nat
  porta  : Nat
  portb  : Nat
  h      : Nat
  w      : Nat
  rnum   : Nat
  rden   : Nat
  budget : Nat
  od     : Nat
  pitch  : Nat
  ring   : DWord
  store  : DWord
  fillg  : List Byte
  srcIp  : Word
  dstIp  : Word
  dport  : BitVec 16
  sport  : BitVec 16
  pt     : BitVec 7
  ssrc   : Word
  maxPay : Nat
  nhMac  : BitVec 48
  trOff  : Nat
  ractD  : Nat
  ractN  : Nat
  pdiff  : Nat
  deriving DecidableEq, Repr

/-- One line of a frame slot (R291, R299): present and filled groups, closed, marked for sending, and how it was
sent (0 not, 2 sent, 3 sent from fill). -/
structure LineSt where
  present : List Nat
  filled  : List Nat
  closed  : Bool
  marked  : Bool
  sent    : Nat
  deriving DecidableEq, Repr

/-- A frame slot (R289, R290): the frame it holds, the state code of R290 and its lines. -/
structure FrameSlot where
  frame : Option Nat
  state : Nat
  lines : SMap LineSt
  subst : Bool
  deriving DecidableEq, Repr

/-- The frame a send session is transmitting (R398): frame, next packet, and the octets sent so far by line. -/
structure Sending where
  frame : Nat
  next  : Nat
  sent  : List (Nat × List Byte)
  deriving DecidableEq, Repr

/-- A session (R395 to R399). `turn` counts the `swr` and `sflush` it has accepted (R295, R298). -/
structure Session where
  desc    : DWord
  ctx     : Nat
  up      : Bool
  rej     : Bool
  why     : Nat
  merge   : Word
  d       : SessDesc
  slots   : List FrameSlot
  latest  : Option Nat
  late    : Word
  fills   : Word
  dups    : Word
  seen    : List (Word × DWord)
  times   : SMap (DWord × DWord)
  held    : List Nat
  sending : Option Sending
  lastOut : Option (List (Nat × List Byte))
  lastSent : Option Nat
  substQ  : List Nat
  packets : Nat
  txSeq   : Word
  turn    : Nat
  deriving DecidableEq, Repr

/-- A logical port's registers (R389), and the ingress stamps of packets for sessions that it has not handed over yet (R291, R392). -/
structure LPort where
  link    : Bool
  mac     : BitVec 48
  ip      : Word
  drop    : Word
  recv    : Word
  sent    : Word
  ingress : List DWord
  deriving DecidableEq, Repr

/-- A port (R389). -/
structure Port where
  enabled : Bool
  mode    : BitVec 2
  llyn    : Bool
  ptpEn   : Bool
  rej     : Bool
  lp0     : LPort
  lp1     : LPort
  deriving DecidableEq, Repr

/-- A master whose Announce messages have been heard (R391). -/
structure PtpMaster where
  source  : Nat
  quality : List Nat
  gm      : Nat
  steps   : Nat
  deriving DecidableEq, Repr

/-- The PTP follower (R391 to R393): PTPCTL, FADJ, the lengths of the runs of intervals that the lock counts, the stamps of the
exchange in progress, the path delay last measured, and whether the clock has been set since reset (R464). -/
structure Ptp where
  host    : Bool
  port    : BitVec 3
  domain  : Byte
  lock    : Bool
  offset  : Word
  fadj    : DWord
  good    : Nat
  bad     : Nat
  t1      : Option DWord
  t2      : Option DWord
  t3      : Option DWord
  t4      : Option DWord
  delay   : Option DWord
  stepped : Bool
  hushed  : Bool
  masters : List PtpMaster
  deriving DecidableEq, Repr

/-! ### Llynad, collective programs and genlock -/

/-- A datagram kept until it is acknowledged (R401); `moved` says that it has been sent again on another path since,
and `fixed` that its program's determinism mode keeps it to its path (R407). -/
structure Datagram where
  kind  : Nat
  hdr   : LlyHeader
  data  : List Byte
  sent  : DWord
  tries : Nat
  moved : Bool
  fixed : Bool
  deriving DecidableEq, Repr

/-- A path between a local and a remote logical port (R401). -/
structure LPath where
  peer    : Nat
  lport   : Nat
  rport   : Nat
  txSeq   : Word
  rxSeq   : Word
  unacked : List Datagram
  failed  : Bool
  retryAt : DWord
  deriving DecidableEq, Repr

/-- A peer table entry (R399's section). -/
structure Peer where
  ip   : Word
  port : BitVec 16
  mac  : BitVec 48
  mask : Byte
  deriving DecidableEq, Repr

/-- A landing row (R402): free, granted to the load of a message at an offset, or holding data. `told` says that its GRANT has gone. -/
structure Row where
  owner : Option (Nat × Word × Word)
  off   : Nat
  told  : Bool
  data  : Option (Nat × List Byte)
  deriving DecidableEq, Repr

/-- The Llynad complex. The rows of the first collective engine come first, 64 of each (R402); `reqs` are the requests not granted yet: the
cycle and the logical port of each. -/
structure Llynad where
  rank  : Nat
  port  : BitVec 16
  peers : List Peer
  paths : List LPath
  rows  : List Row
  reqs  : List (Nat × Nat × LlyHeader)
  deriving DecidableEq, Repr

/-- A message a program has captured and not finished sending (R402, R405). -/
structure OutMsg where
  peer   : Nat
  num    : Nat
  data   : List Byte
  sent   : Nat
  asked  : Bool
  deriving DecidableEq, Repr

/-- A running collective program (R403 to R407): the physical address of its header, its fields, loop counters, the
message numbers per peer, the port of each peer in determinism mode, the module that relays a peer's traffic where the host chose
one, messages captured and not yet sent, the part of the awaited message that has been written, the peer whose traffic the host has
yet to route, and how it ends. -/
structure CProg where
  ctx    : Nat
  hdr    : Option Nat
  steps  : DWord
  nsteps : Nat
  ty     : Nat
  rop    : Nat
  det    : Bool
  group  : Nat
  tag    : Word
  src    : DWord
  dst    : DWord
  scr    : DWord
  csize  : Nat
  nch    : Nat
  ctr    : Nat
  cinc   : Word
  pc     : Nat
  loops  : List Nat
  txNum  : SMap Nat
  rxNum  : SMap Nat
  detPort : SMap Nat
  routes  : SMap Nat
  out    : List OutMsg
  got    : List Byte
  held   : Option Nat
  owner  : Option (Nat × Nat × Nat)
  slotOf : Option (Nat × Nat)
  ending : Option Nat
  deriving DecidableEq, Repr

/-- One `tbar` accepted on a group (R416): its T, session, frame and owner, its destination register and lanes, whether ARRIVE has gone
out, whether the leader's commit instant, the decision and the leader's check at T are past, whether a COMMIT came late, and the members
whose CACK has come. -/
structure Genlock where
  target  : DWord
  session : Nat
  frame   : Nat
  ctx     : Nat
  owner   : Nat × Nat × Nat
  vd      : Nat
  mask    : Mask
  arrived : Bool
  instant : Bool
  decided : Bool
  late    : Bool
  checked : Bool
  cacks   : List Nat
  deriving DecidableEq, Repr

/-- A collective group block (R403, R415): `tbars` are those the device has accepted, `arrives` the ARRIVEs the leader has
received, `commits` the T of each COMMIT held. -/
structure Group where
  en      : Bool
  myIdx   : Nat
  size    : Nat
  guard   : Word
  bobj    : DWord
  ranks   : List Byte
  decided : DWord
  dcount  : Word
  tbars   : List Genlock
  arrives : List (Nat × DWord)
  commits : List DWord
  deriving DecidableEq, Repr

/-! ### The device -/

/-- The fuses (R20, R446, R449, R450, R456): all that survives loss of power. -/
structure Fuses where
  stepping : Byte
  minSvn   : Nat
  badCores : DWord
  badChans : BitVec 16
  badPorts : BitVec 4
  serial   : List Byte
  keyHash0 : List Byte
  keyHash1 : List Byte
  secret   : List Byte
  deriving DecidableEq, Repr

/-- The snapshot unit (R461, R462). `edge` is the arithmetic cycle of the latch. -/
structure Snap where
  latched  : Bool
  arm      : BitVec 4
  srcSet   : BitVec 4
  src      : BitVec 2
  swTag    : BitVec 12
  swStrand : Nat
  swCore   : Nat
  time     : DWord
  ltime    : DWord
  edge     : Nat
  areas    : Memory
  pulse    : Bool
  deriving DecidableEq, Repr

/-- The device error record (R459). -/
structure DevErr where
  valid : Bool
  fatal : Bool
  ovr  : Bool
  cause : Byte
  addr  : DWord
  time  : DWord
  deriving DecidableEq, Repr

/-- Device registers and firmware state (R443 to R465). `leaving` marks the cores that are being retired or have been (R458). -/
structure Device where
  power    : Bool
  stage    : Nat
  linkUp   : Bool
  romDone  : Bool
  romOnly  : Bool
  pstat    : Nat
  capCore  : DWord
  capPort  : BitVec 4
  capChan  : BitVec 16
  memSize  : DWord
  softCore : DWord
  leaving  : DWord
  softPort : BitVec 4
  softChan : BitVec 16
  rej      : Bool
  timeSet  : DWord
  svn      : Nat
  fuses    : Fuses
  staging  : Memory
  verify   : Bool
  overs    : List Word
  pwords   : List Byte
  edSeed   : List Byte
  mlSeed   : List Byte
  burning  : Bool
  meas     : List (List Byte)
  attBusy  : Bool
  attRej   : Bool
  nonce    : List Byte
  attBuf   : Memory
  ceMem    : Word
  ceHearth : Word
  ceBuf    : Word
  ceReg    : Word
  ceSwage  : Word
  cePar    : Word
  rowsFixed : Nat
  rowsOff  : Nat
  spares   : SMap Nat
  rowCe    : SMap Nat
  rowsDead : List Nat
  pageCe   : SMap Nat
  rcand    : List DWord
  rcOver   : BitVec 2
  retired  : List Nat
  err      : DevErr
  snap     : Snap
  pwr      : BitVec 16
  pwrLim   : BitVec 16
  thr      : Nat
  temp     : Byte
  deriving DecidableEq, Repr

/-- A page's atomic access counts in the migration table (R373): physical page, its context, local and remote. -/
structure MigEnt where
  page   : Nat
  ctx    : Nat
  local_ : Nat
  remote : Nat
  deriving DecidableEq, Repr

/-- What leaves the device (R376, R390, R396, R398, R400, R462): the record of its outputs, newest last. -/
inductive Out where
  | msix (vector : Nat)
  | arpReply (lport : Nat) (ip : Word) (mac : BitVec 48)
  | igmp (lport : Nat) (group source : Word) (join : Bool)
  | delayReq (lport : Nat) (stamp : DWord)
  | video (session lport : Nat) (stamp : DWord) (seq rtp : Word) (line first : Nat) (marker : Bool) (data : List Byte)
  | opaque (session lport : Nat) (stamp : DWord) (seq rtp : Word) (data : List Byte)
  | llynad (lport kind : Nat) (hdr : LlyHeader) (data : List Byte)
  | peer (rank : Nat) (data : List Byte)
  | pulse
  deriving DecidableEq, Repr

/-- One entry of the agenda: what happens next where the manual leaves the order or the moment open, or where the
outside world acts. `issue` lets a strand issue its next word; `event` is an event row of the table; `elapse` lets
arithmetic cycles and device nanoseconds pass; `evictL1`, `dropOwner`, `evictI` and `evictTlb` are the replacements of R177, R178,
R70 and R361; `parityIndex` and `parityValue` are parity errors of entries of a content index and a value table (R68), `parityLast` of a thread's
last-page register, and `migError` an uncorrectable error of an entry of the migration table (R434);
`upset` puts an uncorrectable error into a 32-byte unit of memory, `upsetReg` one into a register's location, and `soft`
is a corrected error of one of the counters of R435, in the given page when it is in device memory. `part` performs one access of a
load, store or field request in flight before the others (R179, R270), and `ingress` stamps a packet for a session at a port, which hands it
over later (R291). -/
inductive Move where
  | issue (crew strand : Nat)
  | event (i : Instr)
  | elapse (cycles ns : Nat)
  | evictL1 (core line : Nat)
  | dropOwner (line : Nat)
  | evictI (core seq line : Nat)
  | evictTlb (core ctx va : Nat)
  | parityIndex (core entry : Nat)
  | parityValue (core entry : Nat)
  | parityLast (crew strand lane : Nat)
  | migError (page : Nat)
  | upset (granule : Nat)
  | soft (counter page : Nat)
  | upsetReg (crew strand reg : Nat)
  | contend (crew strand : Nat) (lanes : Mask)
  | part (crew strand op i : Nat)
  | ingress (lport : Nat)
  deriving DecidableEq, Repr

/-- The strand that issues next: a crew and a strand index. -/
structure Cursor where
  crew   : Nat
  strand : Nat
  deriving DecidableEq, Repr

/-- The whole machine. -/
structure State where
  mem      : Memory
  owners   : SMap Nat
  ue       : List Nat
  lastCtx  : SMap Nat
  clock    : DWord
  cycle    : Nat
  cur      : Cursor
  agenda   : List Move
  crews    : List Crew
  cores    : List Core
  launches : List Launch
  queues   : List Queue
  bellows  : Bellows
  ctxs     : List Context
  sessions : List Session
  ports    : List Port
  ptp      : Ptp
  lly      : Llynad
  progs    : List (Option CProg)
  groups   : List Group
  mig      : List MigEnt
  dev      : Device
  hostRd   : List Byte
  out      : List Out
  deriving DecidableEq, Repr

/-- Why a step stops with a fault. -/
inductive Fault where
  /-- Raised by the meaning of an instruction word when no strand is issuing, so that no register, program counter or
  predicate exists for it to act on. Safe: the machine has no such step; `step` never asks for it. -/
  | noStrand
  deriving DecidableEq, Repr

/-- Why an instruction has no meaning here. -/
inductive Refusal where
  /-- Raised by an arm of `exec` whose instruction has no meaning yet. Safe: nothing happens. -/
  | notModelled (mnemonic : String)
  deriving DecidableEq, Repr

/-! ### Reset values -/

def Tx.none : Tx := { state := 0, begun := false, fails := 0, prio := false, rset := [], wset := [] }

def Query.none : Query :=
  { status := 5, reason := 0, ray := [], nbase := 0, tbase := 0, limit := .inf false, todo := [], hit := .none, cand := .none,
    done := .none }

def UnitSt.fresh : UnitSt :=
  { words := 0, imm := none, pref := false, rnd := none, sched := none, rep := none, dup := false }

def TrapRec.none : TrapRec :=
  { code := 0, defer := false, inh := false, part := false, next := false, cause := 0, va := 0, mask := 0, pc := 0, src := 0 }

def Bank.fresh (int : Bool) : Bank := { int := int, events := [], acc := [] }
def Tile.fresh : Tile := { data := [], scale := [], shape := 0 }
def Conv.fresh : Conv := { decl := 0, sigs := 0, key := none, signers := [] }

/-- The Swage as taking a reservation leaves it (R232). -/
def Swage.fresh : Swage :=
  { act := false, bank0 := .fresh false, bank1 := .fresh false, tiles := List.replicate 16 .fresh, cvs := List.replicate 8 .fresh }

def Naming.fresh : Naming := { cindex := [], locs := [], nextLoc := 0, vtable := [], gen := 1 }

def Core.fresh : Core :=
  { enabled := true, icache := [], l1 := [], wbuf := [], abuf := [], cbuf := [], tlb := [], walks := [], misses := [], holder := none,
    swage := .fresh, sboard := [], naming := .fresh, emHolder := none, emSize := 0, emFree := 0 }

def Queue.fresh : Queue :=
  { en := false, ctx := 0, rbase := 0, k := 0, gen := 0, kgen := 0, widx := 0, ridx := 0, width := false, range := false,
    genbad := false, lastKick := 0 }

def Bellows.fresh : Bellows := { nextSeq := 1, lastPull := none, rr := 0, nextCrew := 0, nextMet := 0, tickDone := 0, taking := [] }

def Window.fresh : Window :=
  { wback := 0, wfront := 0, wvera := 0, wpages := 0, en := false, rej := false, wver := 0, dirty := [], queue := [],
    busy := none, drop := false }

def ErrRec.fresh : ErrRec :=
  { valid := false, fatal := false, ovr := false, nested := false, cause := 0, lanes := 0, strand := 0, core := 0, seq := 0,
    addr := 0, pc := 0, code := 0, eccCons := 0 }

def Loader.fresh : Loader := { imgAddr := 0, loadVa := 0, busy := false, site := 0, sym := 0, status := 0 }

def TrigSlot.fresh : TrigSlot := { desc := none, actions := [], fires := 0 }

def Context.fresh : Context :=
  { assist := 0, assistRej := false, saveBase := 0, slots := 0, slotsRej := false, quenches := 0, saves := 0, ptroot := 0,
    walkPc := 0, walkArg := 0, migT := 0, evBase := 0, evLog := 0, evHead := 0, evTail := 0, evWait := [], fillVa := 0,
    fillEnt := 0, fillCtl := 0, pool := 0, trapPc := 0, err := .fresh, frozen := false, loader := .fresh,
    windows := List.replicate 8 .fresh, tcs := List.replicate 8 0, trigs := List.replicate 32 .fresh, relay := 0, dlq := [],
    resReqs := [], resWait := [], migQueue := [], moving := none }

def SessDesc.fresh : SessDesc :=
  { send := false, fmt := 0, full := false, nf := 2, fillm := 0, sndt := 0, porta := 0, portb := 15, h := 1, w := 1, rnum := 1,
    rden := 1, budget := 0, od := 0, pitch := 0, ring := 0, store := 0, fillg := [], srcIp := 0, dstIp := 0, dport := 0,
    sport := 0, pt := 0, ssrc := 0, maxPay := 0, nhMac := 0, trOff := 0, ractD := 1, ractN := 1, pdiff := 0 }

def Session.fresh : Session :=
  { desc := 0, ctx := 0, up := false, rej := false, why := 0, merge := 0, d := .fresh, slots := [], latest := none, late := 0,
    fills := 0, dups := 0, seen := [], times := [], held := [], sending := none, lastOut := none, lastSent := none, substQ := [], packets := 0, txSeq := 0, turn := 0 }

def LPort.fresh : LPort := { link := false, mac := 0, ip := 0, drop := 0, recv := 0, sent := 0, ingress := [] }
def Port.fresh : Port :=
  { enabled := true, mode := 0, llyn := false, ptpEn := false, rej := false, lp0 := .fresh, lp1 := .fresh }

def Ptp.fresh : Ptp :=
  { host := false, port := 0, domain := 127, lock := false, offset := 0, fadj := 0, good := 0, bad := 0, t1 := none, t2 := none,
    t3 := none, t4 := none, delay := none, stepped := false, hushed := false, masters := [] }

def Peer.fresh : Peer := { ip := 0, port := 0, mac := 0, mask := 0 }
def Row.fresh : Row := { owner := none, off := 0, told := false, data := none }
def Llynad.fresh : Llynad :=
  { rank := 0, port := 0, peers := List.replicate 64 .fresh, paths := [], rows := List.replicate 128 .fresh, reqs := [] }

def Group.fresh : Group :=
  { en := false, myIdx := 0, size := 0, guard := 200, bobj := 0, ranks := List.replicate 64 0, decided := 0, dcount := 0,
    tbars := [], arrives := [], commits := [] }

def Fuses.fresh : Fuses :=
  { stepping := 0, minSvn := 0, badCores := 0, badChans := 0, badPorts := 0, serial := List.replicate 16 0,
    keyHash0 := List.replicate 48 0, keyHash1 := List.replicate 48 0, secret := List.replicate 32 0 }

def Snap.fresh : Snap :=
  { latched := false, arm := 0, srcSet := 0, src := 0, swTag := 0, swStrand := 0, swCore := 0, time := 0, ltime := 0, edge := 0,
    areas := [], pulse := false }

def DevErr.fresh : DevErr := { valid := false, fatal := false, ovr := false, cause := 0, addr := 0, time := 0 }

/-- The device at the start of bring-up, with its fuses (R443, R464). -/
def Device.fresh (f : Fuses) : Device :=
  { power := true, stage := 0, linkUp := false, romDone := false, romOnly := false, pstat := 0, capCore := ~~~ f.badCores,
    capPort := ~~~ f.badPorts, capChan := ~~~ f.badChans, memSize := 0, softCore := 0, leaving := 0, softPort := 0, softChan := 0,
    rej := false, timeSet := 0, svn := 0, fuses := f, staging := [], verify := false, overs := [], pwords := [], edSeed := [], mlSeed := [],
    burning := false, meas := List.replicate 4 (List.replicate 48 0), attBusy := false, attRej := false,
    nonce := List.replicate 32 0, attBuf := [], ceMem := 0, ceHearth := 0, ceBuf := 0, ceReg := 0, ceSwage := 0, cePar := 0,
    rowsFixed := 0, rowsOff := 0, spares := [], rowCe := [], rowsDead := [], pageCe := [], rcand := [], rcOver := 0, retired := [], err := .fresh, snap := .fresh,
    pwr := 0, pwrLim := 5120, thr := 0, temp := 0 }

/-- The machine at the start of bring-up state RESET (R464, R465), with the given fuses and host memory. -/
def State.boot (f : Fuses) : State :=
  { mem := [], owners := [], ue := [], lastCtx := [], clock := 0, cycle := 0, cur := { crew := 0, strand := 0 }, agenda := [],
    crews := [], cores := List.replicate 64 .fresh, launches := [], queues := List.replicate 1024 .fresh, bellows := .fresh,
    ctxs := List.replicate 64 .fresh, sessions := List.replicate 64 .fresh, ports := List.replicate 4 .fresh, ptp := .fresh,
    lly := .fresh, progs := List.replicate 32 none, groups := List.replicate 16 .fresh, mig := [], dev := .fresh f, hostRd := [],
    out := [] }

/-- The machine right after reset (R464, R465). -/
def State.reset : State := State.boot .fresh

end Sys2Proof.Machine
end

