-- ==== Sys2Proof/Machine/Bits.lean ====
section
/-! DEFINITION. Helpers of the manual's pseudocode (spec/00_scope.md R10, R11) and of the containers: lanes, masks,
lists, sparse tables, and byte strings in little-endian order (R6). -/

namespace Sys2Proof

def L8.get {α : Type} (x : L8 α) (l : Nat) : α :=
  match l with
  | 0 => x.l0
  | 1 => x.l1
  | 2 => x.l2
  | 3 => x.l3
  | 4 => x.l4
  | 5 => x.l5
  | 6 => x.l6
  | _ => x.l7

def L8.ofFn {α : Type} (f : Nat → α) : L8 α :=
  { l0 := f 0, l1 := f 1, l2 := f 2, l3 := f 3, l4 := f 4, l5 := f 5, l6 := f 6, l7 := f 7 }

def L8.all {α : Type} (x : α) : L8 α := L8.ofFn (fun _ => x)

def L8.mapi {α β : Type} (x : L8 α) (f : Nat → α → β) : L8 β := L8.ofFn (fun l => f l (x.get l))

def L8.set {α : Type} (x : L8 α) (l : Nat) (v : α) : L8 α := x.mapi (fun k o => if k = l then v else o)

def L8.toList {α : Type} (x : L8 α) : List α := [x.l0, x.l1, x.l2, x.l3, x.l4, x.l5, x.l6, x.l7]

namespace Machine

/-- The eight lanes of a strand (R140). -/
def laneIds : List Nat := [0, 1, 2, 3, 4, 5, 6, 7]

/-- Bit l of a mask or predicate belongs to lane l (R50). -/
def laneOn (m : Mask) (l : Nat) : Bool := m.getLsbD l

/-- The lanes of a mask, lowest first. -/
def lanesOf (m : Mask) : List Nat := laneIds.filter (laneOn m)

/-- The mask of the lanes that satisfy `p`. -/
def maskOf (p : Nat → Bool) : Mask :=
  BitVec.ofNat 8 (laneIds.foldl (fun a l => if p l then a + 2 ^ l else a) 0)

/-- The lowest lane of a mask; 0 when it is empty. -/
def lowLane (m : Mask) : Nat := (lanesOf m).headD 0

/-- The number of lanes in a mask. -/
def laneCount (m : Mask) : Nat := (lanesOf m).length

/-- Bits [lo+n−1:lo] of a natural number (`bits` of R11). -/
def bitsOf (x lo n : Nat) : Nat := x / 2 ^ lo % 2 ^ n

/-- `sext` of R11: x taken as an n-bit two's-complement integer. -/
def sextInt (x n : Nat) : Int :=
  let y := x % 2 ^ n
  if 2 * y < 2 ^ n then (y : Int) else (y : Int) - 2 ^ n

/-- Bits [n−1:0] of an integer's two's-complement form. -/
def wrapNat (x : Int) (n : Nat) : Nat := (x % (2 ^ n : Int)).toNat

/-- `sat_s` of R11. -/
def satS (x : Int) (w : Nat) : Int := max (-(2 ^ (w - 1) : Int)) (min x (2 ^ (w - 1) - 1))

/-- `sat_u` of R11. -/
def satU (x : Int) (w : Nat) : Int := max 0 (min x (2 ^ w - 1))

/-- The least number of `n`-byte units that hold `x` bytes. -/
def ceilDiv (x n : Nat) : Nat := (x + n - 1) / n

/-- `x` rounded up to a multiple of `n`. -/
def roundUp (x n : Nat) : Nat := ceilDiv x n * n

/-- Element `i` of a list replaced; nothing when the list is shorter. -/
def setAt {α : Type} (xs : List α) (i : Nat) (v : α) : List α := xs.set i v

/-- Element `i` of a list changed by `f`; nothing when the list is shorter. -/
def modAt {α : Type} (xs : List α) (i : Nat) (f : α → α) : List α :=
  match xs[i]? with
  | some v => xs.set i (f v)
  | none => xs

/-- The elements changed by `f` where `p` holds. -/
def modWhere {α : Type} (xs : List α) (p : α → Bool) (f : α → α) : List α := xs.map (fun x => if p x then f x else x)

/-- A number put into an ascending list that does not hold it. -/
def insertNat (x : Nat) (xs : List Nat) : List Nat :=
  match xs with
  | [] => [x]
  | y :: r => if x < y then x :: y :: r else if x = y then y :: r else y :: insertNat x r

/-- The number written by a list of bytes, first byte least significant (R6). -/
def leNat : List Byte → Nat
  | [] => 0
  | b :: bs => b.toNat + 256 * leNat bs

/-- The `n` bytes of a number, least significant first (R6). -/
def leBytes (n x : Nat) : List Byte :=
  match n with
  | 0 => []
  | k + 1 => BitVec.ofNat 8 x :: leBytes k (x / 256)

/-- The number written by a list of bytes, first byte most significant (network headers, R6). -/
def beNat (bs : List Byte) : Nat := leNat bs.reverse

/-- `n` bytes of a byte string from offset `off`, as a little-endian number; bytes past its end are zero. -/
def leAt (bs : List Byte) (off n : Nat) : Nat := leNat ((bs.drop off).take n)

/-! ### Sparse tables -/

/-- The value under a key. -/
def smapGet {α : Type} (m : SMap α) (k : Nat) : Option α :=
  match m with
  | [] => none
  | (k', v) :: r => if k' = k then some v else smapGet r k

/-- The table without a key. -/
def smapErase {α : Type} (m : SMap α) (k : Nat) : SMap α := m.filter (fun p => p.1 ≠ k)

/-- The table with a key set, keys ascending. -/
def smapSet {α : Type} (m : SMap α) (k : Nat) (v : α) : SMap α :=
  match m with
  | [] => [(k, v)]
  | (k', v') :: r =>
    if k < k' then (k, v) :: (k', v') :: r
    else if k = k' then (k, v) :: r
    else (k', v') :: smapSet r k v

/-! ### Byte storage in canonical form -/

/-- What an unlisted address reads as: zero (R460 for device memory, R174 for local buffers; a DESIGN CHOICE for host
and peer memory, assumption 3). -/
def Memory.unlisted : Byte := 0

/-- The canonical form: addresses strictly rising, no entry equal to what an unlisted address reads as. -/
def Memory.wf (m : Memory) : Bool :=
  match m with
  | [] => true
  | [(_, b)] => b != Memory.unlisted
  | (a, b) :: (a', b') :: r => b != Memory.unlisted && decide (a < a') && Memory.wf ((a', b') :: r)

/-- The byte at an address. -/
def Memory.readByte (m : Memory) (a : Nat) : Byte :=
  match m with
  | [] => Memory.unlisted
  | (k, b) :: r => if a < k then Memory.unlisted else if a = k then b else Memory.readByte r a

/-- The memory with one byte written, in canonical form. -/
def Memory.writeByte (m : Memory) (a : Nat) (v : Byte) : Memory :=
  match m with
  | [] => if v = Memory.unlisted then [] else [(a, v)]
  | (k, b) :: r =>
    if a < k then (if v = Memory.unlisted then (k, b) :: r else (a, v) :: (k, b) :: r)
    else if a = k then (if v = Memory.unlisted then r else (a, v) :: r)
    else (k, b) :: Memory.writeByte r a v

/-- `n` bytes from an address. -/
def Memory.readBytes (m : Memory) (a n : Nat) : List Byte := (List.range n).map (fun i => Memory.readByte m (a + i))

/-- The memory with a byte string written at an address. -/
def Memory.writeBytes (m : Memory) (a : Nat) (bs : List Byte) : Memory :=
  match bs with
  | [] => m
  | b :: r => Memory.writeBytes (Memory.writeByte m a b) (a + 1) r

/-- `n` bytes from an address as a little-endian number (R6). -/
def Memory.readNat (m : Memory) (a n : Nat) : Nat := leNat (Memory.readBytes m a n)

/-- The memory with every byte of [a, a+n) back to zero. -/
def Memory.clear (m : Memory) (a n : Nat) : Memory := m.filter (fun c => c.1 < a || a + n ≤ c.1)

/-- The part of a memory in [a, a+n), moved down to start at 0. -/
def Memory.slice (m : Memory) (a n : Nat) : Memory :=
  (m.filter (fun c => a ≤ c.1 && c.1 < a + n)).map (fun c => (c.1 - a, c.2))

/-- The memory with [a, a+n) replaced by an image that starts at 0. -/
def Memory.splice (m : Memory) (a n : Nat) (img : Memory) : Memory :=
  (m.filter (fun c => c.1 < a)) ++ (img.filter (fun c => c.1 < n)).map (fun c => (c.1 + a, c.2))
    ++ (m.filter (fun c => a + n ≤ c.1))

end Machine
end Sys2Proof
end

