-- ==== Sys2Proof/WellFormed.lean ====
section
/-! DEFINITION. Well-formed instructions: what spec/04_encoding_and_assembly.md R74 lets a word hold once its opcode, fn and
sub values are known, as far as the word alone decides it. Register counts, tags, modes and shapes, which depend on
the machine, are checked where an instruction issues (`Machine/Operands.lean`). Event rows have operands of the model;
theirs are well-formed when they name units the device has. -/

namespace Sys2Proof

/-- A register number that may start a pair (R49). -/
def even (r : BitVec 6) : Bool := !r.getLsbD 0

/-- Three pair operands of a 64-bit form (R49, R90). -/
def pair3 (wide : Bool) (d a b : BitVec 6) : Bool := !wide || (even d && even a && even b)

/-- Every check on the word itself (R49, R74, and the entry of each instruction). -/
def Instr.wellFormed (i : Instr) : Bool :=
  match i with
  | .add d a b f _ => pair3 (f.getLsbD 1) d a b
  | .sub d a b f _ => pair3 (f.getLsbD 1) d a b
  | .mul d a b f _ => pair3 (f.getLsbD 1) d a b
  | .mulhi d a b f _ => pair3 (f.getLsbD 1) d a b
  | .mad _ _ _ _ => true
  | .min d a b f _ => pair3 (f.getLsbD 1) d a b
  | .max d a b f _ => pair3 (f.getLsbD 1) d a b
  | .lea _ _ _ _ _ => true
  | .abs _ _ _ => true
  | .neg _ _ _ => true
  | .not _ _ _ => true
  | .clz _ _ _ => true
  | .popc _ _ _ => true
  | .brev _ _ _ => true
  | .and d a b w _ => pair3 (w = 1) d a b
  | .or d a b w _ => pair3 (w = 1) d a b
  | .xor d a b w _ => pair3 (w = 1) d a b
  | .andn d a b w _ => pair3 (w = 1) d a b
  | .shl _ _ _ _ => true
  | .shr _ _ _ _ => true
  | .sar _ _ _ _ => true
  | .rot _ _ _ _ => true
  | .bfe _ _ _ _ _ => true
  | .bfi _ _ _ _ => true
  | .icmp w _ _ a b c _ => c.toNat < 6 && (w = 0 || (even a && even b))
  | .sel _ _ _ _ => true
  | .mov d a w _ => w = 0 || (even d && even a)
  | .movi _ _ => true
  | .movhi _ _ => true
  | .iota _ _ _ => true
  | .addImm _ _ _ _ => true
  | .mulImm _ _ _ _ => true
  | .andImm _ _ _ _ => true
  | .orImm _ _ _ _ => true
  | .xorImm _ _ _ _ => true
  | .shlImm _ _ _ _ => true
  | .shrImm _ _ _ _ => true
  | .sarImm _ _ _ _ => true
  | .rotImm _ _ _ _ => true
  | .minImm _ _ _ _ => true
  | .maxImm _ _ _ _ => true
  | .leaImm _ _ _ _ => true
  | .fadd _ _ _ f _ => f.toNat / 2 ≠ 3
  | .fsub _ _ _ f _ => f.toNat / 2 ≠ 3
  | .fmul _ _ _ f _ => f.toNat / 2 ≠ 3
  | .fma _ _ _ f _ => f.toNat / 2 ≠ 3
  | .fmin _ _ _ t _ => t ≠ 3
  | .fmax _ _ _ t _ => t ≠ 3
  | .fabs _ _ t _ => t ≠ 3
  | .fneg _ _ t _ => t ≠ 3
  | .fcmp t _ _ _ _ _ => t ≠ 3
  | .fclass _ _ t _ => t ≠ 3
  | .fdiv _ _ _ f _ => f.toNat / 2 ≠ 3
  | .fscale _ _ _ f _ => f.toNat / 2 ≠ 3
  | .fsqrt _ _ f _ => f.toNat / 2 ≠ 3
  | .frcp _ _ f _ => f.toNat / 2 ≠ 3
  | .frsqrt _ _ f _ => f.toNat / 2 ≠ 3
  | .fexp2 _ _ f _ => f.toNat / 2 ≠ 3
  | .flog2 _ _ f _ => f.toNat / 2 ≠ 3
  | .fsin _ _ f _ => f.toNat / 2 ≠ 3
  | .fcos _ _ f _ => f.toNat / 2 ≠ 3
  | .ffract _ _ t _ => t ≠ 3
  | .fround _ _ t _ => t ≠ 3
  | .fdot2 _ _ _ t _ _ => t = 1 || t = 2
  | .cvt _ _ t s u _ _ => t ≠ s && (u = 0 || t = 7 || s = 7)
  | .packB16 _ _ _ _ => true
  | .packB8Lo _ _ _ _ => true
  | .packB8Hi _ _ _ _ => true
  | .packB4Q0 _ _ _ _ => true
  | .packB4Q1 _ _ _ _ => true
  | .packB4Q2 _ _ _ _ => true
  | .packB4Q3 _ _ _ _ => true
  | .unpack _ _ k _ w _ => (w = 0 && k.toNat ≤ 1) || (w = 1 && k.toNat ≤ 3) || w = 2
  | .pand _ _ _ _ => true
  | .por _ _ _ _ => true
  | .pxor _ _ _ _ => true
  | .pnot _ _ _ => true
  | .pmov _ _ _ => true
  | .pcnt _ _ => true
  | .pfirst _ _ _ => true
  | .xperm _ _ _ _ => true
  | .xtab _ _ _ _ => true
  | .xbcast _ _ _ _ => true
  | .xshflIdx _ _ _ _ => true
  | .xshflXor _ _ _ _ => true
  | .xshflUp _ _ _ _ => true
  | .xshflDown _ _ _ _ => true
  | .xred _ _ _ _ => true
  | .xscan _ _ _ _ => true
  | .xmaxi d _ _ f _ => f.toNat ≤ 4 && even d
  | .voteAny _ _ _ => true
  | .voteAll _ _ _ => true
  | .voteBallot _ _ _ => true
  | .movcRead _ _ => true
  | .movcWrite _ _ => true
  | .vshape _ _ _ => true
  | .bra _ _ => true
  | .brx a _ => even a
  | .callDirect _ _ => true
  | .callIndirect _ a => even a
  | .ret a _ => even a
  | .meet _ _ => true
  | .yield => true
  | .exit _ => true
  | .nop => true
  | .sleep _ => true
  | .bar _ => true
  | .gbar => true
  | .sbar => true
  | .rgrow n => n ≠ 0
  | .rgrowTry _ n => n ≠ 0
  | .rshrink n => n ≠ 0
  | .disp _ _ _ => true
  | .ldB32 _ a _ _ => even a
  | .ldB64 d a _ _ => even d && even a
  | .ldF32 _ a _ _ => even a
  | .ldF16 _ a _ _ => even a
  | .ldBf16 _ a _ _ => even a
  | .ldI32 _ a _ _ => even a
  | .stB8 _ a _ _ => even a
  | .stB16 _ a _ _ => even a
  | .stB32 _ a _ _ => even a
  | .stB64 d a _ _ => even d && even a
  | .ldbW _ _ _ _ => true
  | .ldbA _ _ _ _ => true
  | .ldbC _ _ _ _ => true
  | .stbA _ _ _ _ => true
  | .stbC _ _ _ _ => true
  | .atom d a b f _ => even a && (!(f = 1 || f = 7) || (even d && even b))
  | .atomAcq d a b f _ => even a && (!(f = 1 || f = 7) || (even d && even b))
  | .atomRel d a b f _ => even a && (!(f = 1 || f = 7) || (even d && even b))
  | .atomAcqRel d a b f _ => even a && (!(f = 1 || f = 7) || (even d && even b))
  | .cas d a b _ w _ => even a && (w = 0 || (even d && even b))
  | .acq => true
  | .rel => true
  | .fence => true
  | .waita _ a b _ _ => even a && even b
  | .txb _ => true
  | .txc _ _ => true
  | .txa _ => true
  | .cp d a _ _ => even d && even a
  | .cp2 d a b c => even d && even a && even b && even c
  | .cptab d a _ c => even d && even a && even c
  | .wait _ _ _ _ => true
  | .waitx _ _ _ => true
  | .pgreq _ a _ => even a
  | .pfetch a _ _ _ => even a
  | .mres _ => true
  | .mrel => true
  | .cdecl _ n => 1 ≤ n.toNat && n.toNat ≤ 512
  | .tld _ _ _ c q s e _ => (q = 1 || c = 0) && (e = 0 || s = 0)
  | .tst _ _ _ c q s _ => (q = 1 || c = 0) && s ≠ 1
  | .tzero _ c q _ => q = 1 || c = 0
  | .tmeta _ _ _ c q _ _ => q = 1 || c = 0
  | .mma _ _ c q _ => q = 1 || c = 0
  | .mmas _ _ _ c q _ => q = 1 || c = 0
  | .mswap c q _ => q = 1 || c = 0
  | .mdrain _ _ _ c q t x _ => (q = 1 || c = 0) && t.toNat ≤ 4 && x ≠ 3
  | .mclr _ c q _ _ => q = 1 || c = 0
  | .mstat _ => true
  | .hgf _ _ b _ _ => even b
  | .hgs _ _ b _ _ => even b
  | .hgfold _ a b _ => even a && even b
  | .march _ _ b _ => even b
  | .tex _ _ b _ => even b
  | .trace _ _ b _ => even b
  | .tcontReject _ _ _ => true
  | .tcontAccept _ _ _ => true
  | .tcontTerminate _ _ _ => true
  | .thit _ _ _ => true
  | .tabort _ => true
  | .srd _ _ _ _ _ _ => true
  | .srdt _ _ b _ _ => even b
  | .swr _ _ _ _ _ => true
  | .sinh _ _ _ => true
  | .sinhOffset d _ _ _ => even d
  | .sts d _ f _ => even d && f.toNat ≤ 3
  | .sstat _ _ f _ => f.toNat ≤ 3
  | .sflushLine _ _ => true
  | .sflushFrame _ _ => true
  | .time d => even d
  | .sleepu a => even a
  | .launch _ a _ => even a
  | .launchTail _ a _ => even a
  | .publish _ => true
  | .cprog _ a _ => even a
  | .ctrigArm _ a _ _ => even a
  | .ctrigDisarm _ _ _ => true
  | .cctrAdd d a _ _ => even d && even a
  | .cctrSet d a _ _ => even d && even a
  | .cctrRead d _ _ => even d
  | .tbar _ a _ _ _ => even a
  | .idemb => true
  | .ideme => true
  | .tlbw a l => even a && l ≠ 0
  | .tlbiVaCore a => even a
  | .tlbiVaAll a => even a
  | .tlbiCtxCore => true
  | .tlbiCtxAll => true
  | .lpiCore => true
  | .lpiAll => true
  | .walkd => true
  | .trap _ => true
  | .rtt => true
  | .snap _ => true
  | .brk _ => true
  | .hintImm _ => true
  | .hintPref a b c v => (v.getLsbD 2 || a = 0) && (v.getLsbD 1 || b = 0) && (v.getLsbD 0 || c = 0)
  | .hintRnd m v s q => (v = 1 || m = 0) && (s = 1 || q = 0) && m.toNat ≤ 5
  | .hintSched _ _ _ => true
  | .rep _ _ _ _ _ => true
  | .loadValueArrival _ _ _ => true
  | .storeAcknowledge _ _ _ => true
  | .copyCompletion _ _ _ => true
  | .swageOperationCompletion _ _ _ => true
  | .fieldRequestCompletion _ _ _ => true
  | .traversalStop _ _ lane => lane < 8
  | .streamOperationCompletion _ _ _ => true
  | .rgrowGrant core => core < 64
  | .strandEnd _ _ => true
  | .fairnessRotation _ _ => true
  | .activeSetRotation _ _ => true
  | .sleepExpiry _ _ => true
  | .sleepuExpiry _ _ => true
  | .waitaDeadline _ _ lane => lane < 8
  | .trapEntry _ _ _ _ _ => true
  | .deferredTrap _ _ => true
  | .watchdogExpiry _ => true
  | .queueKick queue _ _ _ => queue < 1024
  | .packetPull => true
  | .dependencyMet queue => queue < 1024
  | .earliestReached _ => true
  | .heapDeadlineExpiry _ => true
  | .placeUnit => true
  | .launchDeadlineCut _ => true
  | .timeSliceTick => true
  | .gangQuench _ _ => true
  | .gangSave _ _ => true
  | .restoreOnRelease => true
  | .launchCompletion _ => true
  | .cxassistWrite ctx _ => ctx < 64
  | .saveAreaWrite ctx _ _ => ctx < 64
  | .translationRegisterWrite ctx _ _ => ctx < 64
  | .contextReset ctx => ctx < 64
  | .queueBindingWrite queue _ _ => queue < 1024
  | .walkStart core ctx _ _ => core < 64 && ctx < 64
  | .hostFill ctx _ => ctx < 64
  | .hostWalkEnd ctx _ => ctx < 64
  | .resvaWrite ctx _ => ctx < 64
  | .pageMigration ctx _ => ctx < 64
  | .hostWrite _ _ _ => true
  | .hostRead _ _ => true
  | .windowRegisterWrite ctx win _ _ => ctx < 64 && win < 8
  | .publicationServe ctx win => ctx < 64 && win < 8
  | .publicationComplete ctx win => ctx < 64 && win < 8
  | .loaderGo ctx => ctx < 64
  | .loaderDone ctx => ctx < 64
  | .portctlWrite port _ => port < 4
  | .ptpctlWrite _ => true
  | .sessionOpen session _ => session < 64
  | .sessionClose session => session < 64
  | .arpRequest lport _ _ _ => lport < 8
  | .ptpEventMessage lport _ => lport < 8
  | .ptpMasterLoss => true
  | .videoPacketReceive lport _ => lport < 8
  | .opaquePacketReceive lport _ => lport < 8
  | .lineClose session _ _ => session < 64
  | .packetTransmit session => session < 64
  | .opaqueTransmit session => session < 64
  | .portLinkChange lport _ => lport < 8
  | .llynadReq lport _ => lport < 8
  | .llynadGrant lport _ => lport < 8
  | .llynadData lport _ _ => lport < 8
  | .llynadAck lport _ => lport < 8
  | .llynadSig lport _ => lport < 8
  | .llynadAbt lport _ => lport < 8
  | .llynadArrive lport _ => lport < 8
  | .llynadCommit lport _ => lport < 8
  | .llynadCack lport _ => lport < 8
  | .llynadResend peer lport rport => peer < 64 && lport < 8 && rport < 8
  | .llynadPathRetry peer lport rport => peer < 64 && lport < 8 && rport < 8
  | .relayWrite ctx _ => ctx < 64
  | .collSend prog => prog < 32
  | .collRecv prog => prog < 32
  | .collRrs prog => prog < 32
  | .collCopy prog => prog < 32
  | .collWait prog => prog < 32
  | .collLoop prog => prog < 32
  | .collSig prog => prog < 32
  | .collEnd prog => prog < 32
  | .triggerCounterWrite ctx k _ => ctx < 64 && k < 8
  | .triggerActionEnd ctx slot => ctx < 64 && slot < 32
  | .genlockArrive group => group < 16
  | .genlockCommitInstant group => group < 16
  | .genlockDecision group => group < 16
  | .genlockCackCheck group => group < 16
  | .patchgo => true
  | .patchVerifyDone => true
  | .nopatch => true
  | .timego => true
  | .svnburn => true
  | .attgo => true
  | .attestationDone => true
  | .softcoreWrite _ => true
  | .coreRetirementDone core => core < 64
  | .softchanWrite _ => true
  | .softportWrite _ => true
  | .rcandRead => true
  | .retwWrite _ => true
  | .hearthRowRepair _ _ => true
  | .uncorrectableWriteback _ => true
  | .coreParityError core => core < 64
  | .deviceParityError _ => true
  | .snapshotRearm => true
  | .snapshotTimeTrigger => true
  | .snapshotPinTrigger => true
  | .throttleTick _ _ => true
  | .thermalTrip => true
  | .powerGood => true
  | .functionLevelReset => true
  | .moduleResetPin => true
  | .resetStateDone => true
  | .rominitDone _ => true
  | .hostLinkTrained => true
  | .memtrainDone _ => true
  | .portsUp _ => true
  | .registerWrite _ _ _ => true
  | .powerDown => true
  | .delayReqTransmit => true
  | .peerMemoryAccess rank _ _ => rank < 64
  | .svnBurnDone => true
  | .triggerOutputPulseEnd => true

end Sys2Proof
end

