-- ==== Sys2Proof/Decode.lean ====
section
/-! DEFINITION. Decoding and encoding instruction words (spec/04_encoding_and_assembly.md R69, R71, R73 and the encoding
tables of the chapters). A word is 32 bits; bit ranges are those of the manual. A word that no row of the opcode table
describes is refused by name; the values a row's fields may not hold are `Instr.wellFormed`. -/

namespace Sys2Proof

/-- Bits [lo+n−1:lo] of a word. -/
def fld (w lo n : Nat) : Nat := w / 2 ^ lo % 2 ^ n

/-- Why bytes are no instruction word. -/
inductive DecodeError where
  /-- Fewer than four bytes. -/
  | truncated
  /-- An opcode that the map of R73 leaves blank. -/
  | unassignedOpcode (op : Nat)
  /-- An assigned opcode with a reserved bit set or an fn or sub value that its entry does not assign (R74). -/
  | reservedField (op : Nat)
  deriving DecidableEq, Repr

/-- Class 0x0: integer register words. -/
def decodeClass0 (op w : Nat) : Option Instr :=
  if op = 0x01 then
    some (.add (BitVec.ofNat 6 (w / 2 ^ 18)) (BitVec.ofNat 6 (w / 2 ^ 12)) (BitVec.ofNat 6 (w / 2 ^ 6)) (BitVec.ofNat 3 (w / 2 ^ 3)) (BitVec.ofNat 3 w))
  else
  if op = 0x02 then
    some (.sub (BitVec.ofNat 6 (w / 2 ^ 18)) (BitVec.ofNat 6 (w / 2 ^ 12)) (BitVec.ofNat 6 (w / 2 ^ 6)) (BitVec.ofNat 3 (w / 2 ^ 3)) (BitVec.ofNat 3 w))
  else
  if op = 0x03 then
    some (.mul (BitVec.ofNat 6 (w / 2 ^ 18)) (BitVec.ofNat 6 (w / 2 ^ 12)) (BitVec.ofNat 6 (w / 2 ^ 6)) (BitVec.ofNat 3 (w / 2 ^ 3)) (BitVec.ofNat 3 w))
  else
  if op = 0x04 then
    if fld w 5 1 = 0 then some (.mulhi (BitVec.ofNat 6 (w / 2 ^ 18)) (BitVec.ofNat 6 (w / 2 ^ 12)) (BitVec.ofNat 6 (w / 2 ^ 6)) (BitVec.ofNat 2 (w / 2 ^ 3)) (BitVec.ofNat 3 w)) else
    none
  else
  if op = 0x05 then
    some (.mad (BitVec.ofNat 6 (w / 2 ^ 18)) (BitVec.ofNat 6 (w / 2 ^ 12)) (BitVec.ofNat 6 (w / 2 ^ 6)) (BitVec.ofNat 6 w))
  else
  if op = 0x06 then
    if fld w 5 1 = 0 then some (.min (BitVec.ofNat 6 (w / 2 ^ 18)) (BitVec.ofNat 6 (w / 2 ^ 12)) (BitVec.ofNat 6 (w / 2 ^ 6)) (BitVec.ofNat 2 (w / 2 ^ 3)) (BitVec.ofNat 3 w)) else
    if fld w 5 1 = 1 then some (.max (BitVec.ofNat 6 (w / 2 ^ 18)) (BitVec.ofNat 6 (w / 2 ^ 12)) (BitVec.ofNat 6 (w / 2 ^ 6)) (BitVec.ofNat 2 (w / 2 ^ 3)) (BitVec.ofNat 3 w)) else
    none
  else
  if op = 0x07 then
    some (.lea (BitVec.ofNat 6 (w / 2 ^ 18)) (BitVec.ofNat 6 (w / 2 ^ 12)) (BitVec.ofNat 6 (w / 2 ^ 6)) (BitVec.ofNat 3 (w / 2 ^ 3)) (BitVec.ofNat 3 w))
  else
  if op = 0x08 then
    if fld w 3 9 = 0 then some (.abs (BitVec.ofNat 6 (w / 2 ^ 18)) (BitVec.ofNat 6 (w / 2 ^ 12)) (BitVec.ofNat 3 w)) else
    if fld w 3 9 = 1 then some (.neg (BitVec.ofNat 6 (w / 2 ^ 18)) (BitVec.ofNat 6 (w / 2 ^ 12)) (BitVec.ofNat 3 w)) else
    if fld w 3 9 = 2 then some (.not (BitVec.ofNat 6 (w / 2 ^ 18)) (BitVec.ofNat 6 (w / 2 ^ 12)) (BitVec.ofNat 3 w)) else
    if fld w 3 9 = 3 then some (.clz (BitVec.ofNat 6 (w / 2 ^ 18)) (BitVec.ofNat 6 (w / 2 ^ 12)) (BitVec.ofNat 3 w)) else
    if fld w 3 9 = 4 then some (.popc (BitVec.ofNat 6 (w / 2 ^ 18)) (BitVec.ofNat 6 (w / 2 ^ 12)) (BitVec.ofNat 3 w)) else
    if fld w 3 9 = 5 then some (.brev (BitVec.ofNat 6 (w / 2 ^ 18)) (BitVec.ofNat 6 (w / 2 ^ 12)) (BitVec.ofNat 3 w)) else
    none
  else
  if op = 0x09 then
    if fld w 4 2 = 0 then some (.and (BitVec.ofNat 6 (w / 2 ^ 18)) (BitVec.ofNat 6 (w / 2 ^ 12)) (BitVec.ofNat 6 (w / 2 ^ 6)) (BitVec.ofNat 1 (w / 2 ^ 3)) (BitVec.ofNat 3 w)) else
    if fld w 4 2 = 1 then some (.or (BitVec.ofNat 6 (w / 2 ^ 18)) (BitVec.ofNat 6 (w / 2 ^ 12)) (BitVec.ofNat 6 (w / 2 ^ 6)) (BitVec.ofNat 1 (w / 2 ^ 3)) (BitVec.ofNat 3 w)) else
    if fld w 4 2 = 2 then some (.xor (BitVec.ofNat 6 (w / 2 ^ 18)) (BitVec.ofNat 6 (w / 2 ^ 12)) (BitVec.ofNat 6 (w / 2 ^ 6)) (BitVec.ofNat 1 (w / 2 ^ 3)) (BitVec.ofNat 3 w)) else
    if fld w 4 2 = 3 then some (.andn (BitVec.ofNat 6 (w / 2 ^ 18)) (BitVec.ofNat 6 (w / 2 ^ 12)) (BitVec.ofNat 6 (w / 2 ^ 6)) (BitVec.ofNat 1 (w / 2 ^ 3)) (BitVec.ofNat 3 w)) else
    none
  else
  if op = 0x0A then
    if fld w 3 3 = 0 then some (.shl (BitVec.ofNat 6 (w / 2 ^ 18)) (BitVec.ofNat 6 (w / 2 ^ 12)) (BitVec.ofNat 6 (w / 2 ^ 6)) (BitVec.ofNat 3 w)) else
    if fld w 3 3 = 2 then some (.shr (BitVec.ofNat 6 (w / 2 ^ 18)) (BitVec.ofNat 6 (w / 2 ^ 12)) (BitVec.ofNat 6 (w / 2 ^ 6)) (BitVec.ofNat 3 w)) else
    if fld w 3 3 = 4 then some (.sar (BitVec.ofNat 6 (w / 2 ^ 18)) (BitVec.ofNat 6 (w / 2 ^ 12)) (BitVec.ofNat 6 (w / 2 ^ 6)) (BitVec.ofNat 3 w)) else
    if fld w 3 3 = 6 then some (.rot (BitVec.ofNat 6 (w / 2 ^ 18)) (BitVec.ofNat 6 (w / 2 ^ 12)) (BitVec.ofNat 6 (w / 2 ^ 6)) (BitVec.ofNat 3 w)) else
    none
  else
  if op = 0x0B then
    if fld w 4 2 = 0 then some (.bfe (BitVec.ofNat 6 (w / 2 ^ 18)) (BitVec.ofNat 6 (w / 2 ^ 12)) (BitVec.ofNat 6 (w / 2 ^ 6)) (BitVec.ofNat 1 (w / 2 ^ 3)) (BitVec.ofNat 3 w)) else
    none
  else
  if op = 0x0C then
    some (.bfi (BitVec.ofNat 6 (w / 2 ^ 18)) (BitVec.ofNat 6 (w / 2 ^ 12)) (BitVec.ofNat 6 (w / 2 ^ 6)) (BitVec.ofNat 6 w))
  else
  if op = 0x0D then
    if fld w 23 1 = 0 then some (.icmp (BitVec.ofNat 1 (w / 2 ^ 22)) (BitVec.ofNat 1 (w / 2 ^ 21)) (BitVec.ofNat 3 (w / 2 ^ 18)) (BitVec.ofNat 6 (w / 2 ^ 12)) (BitVec.ofNat 6 (w / 2 ^ 6)) (BitVec.ofNat 3 (w / 2 ^ 3)) (BitVec.ofNat 3 w)) else
    none
  else
  if op = 0x0E then
    some (.sel (BitVec.ofNat 6 (w / 2 ^ 18)) (BitVec.ofNat 6 (w / 2 ^ 12)) (BitVec.ofNat 6 (w / 2 ^ 6)) (BitVec.ofNat 6 w))
  else
  if op = 0x0F then
    if fld w 4 8 = 0 then some (.mov (BitVec.ofNat 6 (w / 2 ^ 18)) (BitVec.ofNat 6 (w / 2 ^ 12)) (BitVec.ofNat 1 (w / 2 ^ 3)) (BitVec.ofNat 3 w)) else
    none
  else
  none

/-- Class 0x1: integer immediate words. -/
def decodeClass1 (op w : Nat) : Option Instr :=
  if op = 0x11 then
    some (.movi (BitVec.ofNat 6 (w / 2 ^ 18)) (BitVec.ofNat 18 w))
  else
  if op = 0x12 then
    if fld w 14 4 = 0 then some (.movhi (BitVec.ofNat 6 (w / 2 ^ 18)) (BitVec.ofNat 14 w)) else
    none
  else
  if op = 0x13 then
    some (.iota (BitVec.ofNat 6 (w / 2 ^ 18)) (BitVec.ofNat 9 (w / 2 ^ 9)) (BitVec.ofNat 9 w))
  else
  if op = 0x14 then
    some (.addImm (BitVec.ofNat 6 (w / 2 ^ 18)) (BitVec.ofNat 6 (w / 2 ^ 12)) (BitVec.ofNat 9 (w / 2 ^ 3)) (BitVec.ofNat 3 w))
  else
  if op = 0x15 then
    some (.mulImm (BitVec.ofNat 6 (w / 2 ^ 18)) (BitVec.ofNat 6 (w / 2 ^ 12)) (BitVec.ofNat 9 (w / 2 ^ 3)) (BitVec.ofNat 3 w))
  else
  if op = 0x16 then
    some (.andImm (BitVec.ofNat 6 (w / 2 ^ 18)) (BitVec.ofNat 6 (w / 2 ^ 12)) (BitVec.ofNat 9 (w / 2 ^ 3)) (BitVec.ofNat 3 w))
  else
  if op = 0x17 then
    some (.orImm (BitVec.ofNat 6 (w / 2 ^ 18)) (BitVec.ofNat 6 (w / 2 ^ 12)) (BitVec.ofNat 9 (w / 2 ^ 3)) (BitVec.ofNat 3 w))
  else
  if op = 0x18 then
    some (.xorImm (BitVec.ofNat 6 (w / 2 ^ 18)) (BitVec.ofNat 6 (w / 2 ^ 12)) (BitVec.ofNat 9 (w / 2 ^ 3)) (BitVec.ofNat 3 w))
  else
  if op = 0x19 then
    if fld w 8 4 = 0 then some (.shlImm (BitVec.ofNat 6 (w / 2 ^ 18)) (BitVec.ofNat 6 (w / 2 ^ 12)) (BitVec.ofNat 5 (w / 2 ^ 3)) (BitVec.ofNat 3 w)) else
    none
  else
  if op = 0x1A then
    if fld w 8 4 = 0 then some (.shrImm (BitVec.ofNat 6 (w / 2 ^ 18)) (BitVec.ofNat 6 (w / 2 ^ 12)) (BitVec.ofNat 5 (w / 2 ^ 3)) (BitVec.ofNat 3 w)) else
    none
  else
  if op = 0x1B then
    if fld w 8 4 = 0 then some (.sarImm (BitVec.ofNat 6 (w / 2 ^ 18)) (BitVec.ofNat 6 (w / 2 ^ 12)) (BitVec.ofNat 5 (w / 2 ^ 3)) (BitVec.ofNat 3 w)) else
    none
  else
  if op = 0x1C then
    if fld w 8 4 = 0 then some (.rotImm (BitVec.ofNat 6 (w / 2 ^ 18)) (BitVec.ofNat 6 (w / 2 ^ 12)) (BitVec.ofNat 5 (w / 2 ^ 3)) (BitVec.ofNat 3 w)) else
    none
  else
  if op = 0x1D then
    some (.minImm (BitVec.ofNat 6 (w / 2 ^ 18)) (BitVec.ofNat 6 (w / 2 ^ 12)) (BitVec.ofNat 9 (w / 2 ^ 3)) (BitVec.ofNat 3 w))
  else
  if op = 0x1E then
    some (.maxImm (BitVec.ofNat 6 (w / 2 ^ 18)) (BitVec.ofNat 6 (w / 2 ^ 12)) (BitVec.ofNat 9 (w / 2 ^ 3)) (BitVec.ofNat 3 w))
  else
  if op = 0x1F then
    some (.leaImm (BitVec.ofNat 6 (w / 2 ^ 18)) (BitVec.ofNat 6 (w / 2 ^ 12)) (BitVec.ofNat 9 (w / 2 ^ 3)) (BitVec.ofNat 3 w))
  else
  none

/-- Class 0x2: floating-point words. -/
def decodeClass2 (op w : Nat) : Option Instr :=
  if op = 0x21 then
    some (.fadd (BitVec.ofNat 6 (w / 2 ^ 18)) (BitVec.ofNat 6 (w / 2 ^ 12)) (BitVec.ofNat 6 (w / 2 ^ 6)) (BitVec.ofNat 3 (w / 2 ^ 3)) (BitVec.ofNat 3 w))
  else
  if op = 0x22 then
    some (.fsub (BitVec.ofNat 6 (w / 2 ^ 18)) (BitVec.ofNat 6 (w / 2 ^ 12)) (BitVec.ofNat 6 (w / 2 ^ 6)) (BitVec.ofNat 3 (w / 2 ^ 3)) (BitVec.ofNat 3 w))
  else
  if op = 0x23 then
    some (.fmul (BitVec.ofNat 6 (w / 2 ^ 18)) (BitVec.ofNat 6 (w / 2 ^ 12)) (BitVec.ofNat 6 (w / 2 ^ 6)) (BitVec.ofNat 3 (w / 2 ^ 3)) (BitVec.ofNat 3 w))
  else
  if op = 0x24 then
    some (.fma (BitVec.ofNat 6 (w / 2 ^ 18)) (BitVec.ofNat 6 (w / 2 ^ 12)) (BitVec.ofNat 6 (w / 2 ^ 6)) (BitVec.ofNat 3 (w / 2 ^ 3)) (BitVec.ofNat 3 w))
  else
  if op = 0x25 then
    if fld w 3 1 = 0 then some (.fmin (BitVec.ofNat 6 (w / 2 ^ 18)) (BitVec.ofNat 6 (w / 2 ^ 12)) (BitVec.ofNat 6 (w / 2 ^ 6)) (BitVec.ofNat 2 (w / 2 ^ 4)) (BitVec.ofNat 3 w)) else
    none
  else
  if op = 0x26 then
    if fld w 3 1 = 0 then some (.fmax (BitVec.ofNat 6 (w / 2 ^ 18)) (BitVec.ofNat 6 (w / 2 ^ 12)) (BitVec.ofNat 6 (w / 2 ^ 6)) (BitVec.ofNat 2 (w / 2 ^ 4)) (BitVec.ofNat 3 w)) else
    none
  else
  if op = 0x27 then
    if fld w 3 1 = 0 ∧ fld w 6 6 = 0 then some (.fabs (BitVec.ofNat 6 (w / 2 ^ 18)) (BitVec.ofNat 6 (w / 2 ^ 12)) (BitVec.ofNat 2 (w / 2 ^ 4)) (BitVec.ofNat 3 w)) else
    if fld w 3 1 = 1 ∧ fld w 6 6 = 0 then some (.fneg (BitVec.ofNat 6 (w / 2 ^ 18)) (BitVec.ofNat 6 (w / 2 ^ 12)) (BitVec.ofNat 2 (w / 2 ^ 4)) (BitVec.ofNat 3 w)) else
    none
  else
  if op = 0x28 then
    if fld w 23 1 = 0 then some (.fcmp (BitVec.ofNat 2 (w / 2 ^ 21)) (BitVec.ofNat 3 (w / 2 ^ 18)) (BitVec.ofNat 6 (w / 2 ^ 12)) (BitVec.ofNat 6 (w / 2 ^ 6)) (BitVec.ofNat 3 (w / 2 ^ 3)) (BitVec.ofNat 3 w)) else
    none
  else
  if op = 0x29 then
    if fld w 3 1 = 0 ∧ fld w 6 6 = 0 then some (.fclass (BitVec.ofNat 6 (w / 2 ^ 18)) (BitVec.ofNat 6 (w / 2 ^ 12)) (BitVec.ofNat 2 (w / 2 ^ 4)) (BitVec.ofNat 3 w)) else
    none
  else
  if op = 0x2A then
    some (.fdiv (BitVec.ofNat 6 (w / 2 ^ 18)) (BitVec.ofNat 6 (w / 2 ^ 12)) (BitVec.ofNat 6 (w / 2 ^ 6)) (BitVec.ofNat 3 (w / 2 ^ 3)) (BitVec.ofNat 3 w))
  else
  if op = 0x2B then
    some (.fscale (BitVec.ofNat 6 (w / 2 ^ 18)) (BitVec.ofNat 6 (w / 2 ^ 12)) (BitVec.ofNat 6 (w / 2 ^ 6)) (BitVec.ofNat 3 (w / 2 ^ 3)) (BitVec.ofNat 3 w))
  else
  if op = 0x2C then
    if fld w 6 6 = 0 then some (.fsqrt (BitVec.ofNat 6 (w / 2 ^ 18)) (BitVec.ofNat 6 (w / 2 ^ 12)) (BitVec.ofNat 3 (w / 2 ^ 3)) (BitVec.ofNat 3 w)) else
    if fld w 6 6 = 1 then some (.frcp (BitVec.ofNat 6 (w / 2 ^ 18)) (BitVec.ofNat 6 (w / 2 ^ 12)) (BitVec.ofNat 3 (w / 2 ^ 3)) (BitVec.ofNat 3 w)) else
    if fld w 6 6 = 2 then some (.frsqrt (BitVec.ofNat 6 (w / 2 ^ 18)) (BitVec.ofNat 6 (w / 2 ^ 12)) (BitVec.ofNat 3 (w / 2 ^ 3)) (BitVec.ofNat 3 w)) else
    none
  else
  if op = 0x2D then
    if fld w 6 6 = 0 then some (.fexp2 (BitVec.ofNat 6 (w / 2 ^ 18)) (BitVec.ofNat 6 (w / 2 ^ 12)) (BitVec.ofNat 3 (w / 2 ^ 3)) (BitVec.ofNat 3 w)) else
    if fld w 6 6 = 1 then some (.flog2 (BitVec.ofNat 6 (w / 2 ^ 18)) (BitVec.ofNat 6 (w / 2 ^ 12)) (BitVec.ofNat 3 (w / 2 ^ 3)) (BitVec.ofNat 3 w)) else
    if fld w 6 6 = 2 then some (.fsin (BitVec.ofNat 6 (w / 2 ^ 18)) (BitVec.ofNat 6 (w / 2 ^ 12)) (BitVec.ofNat 3 (w / 2 ^ 3)) (BitVec.ofNat 3 w)) else
    if fld w 6 6 = 3 then some (.fcos (BitVec.ofNat 6 (w / 2 ^ 18)) (BitVec.ofNat 6 (w / 2 ^ 12)) (BitVec.ofNat 3 (w / 2 ^ 3)) (BitVec.ofNat 3 w)) else
    none
  else
  if op = 0x2E then
    if fld w 3 1 = 0 ∧ fld w 6 6 = 0 then some (.ffract (BitVec.ofNat 6 (w / 2 ^ 18)) (BitVec.ofNat 6 (w / 2 ^ 12)) (BitVec.ofNat 2 (w / 2 ^ 4)) (BitVec.ofNat 3 w)) else
    if fld w 3 1 = 0 ∧ fld w 6 6 = 1 then some (.fround (BitVec.ofNat 6 (w / 2 ^ 18)) (BitVec.ofNat 6 (w / 2 ^ 12)) (BitVec.ofNat 2 (w / 2 ^ 4)) (BitVec.ofNat 3 w)) else
    none
  else
  if op = 0x2F then
    some (.fdot2 (BitVec.ofNat 6 (w / 2 ^ 18)) (BitVec.ofNat 6 (w / 2 ^ 12)) (BitVec.ofNat 6 (w / 2 ^ 6)) (BitVec.ofNat 2 (w / 2 ^ 4)) (BitVec.ofNat 1 (w / 2 ^ 3)) (BitVec.ofNat 3 w))
  else
  none

/-- Class 0x3: conversion words. -/
def decodeClass3 (op w : Nat) : Option Instr :=
  if op = 0x31 then
    if fld w 5 1 = 0 then some (.cvt (BitVec.ofNat 6 (w / 2 ^ 18)) (BitVec.ofNat 6 (w / 2 ^ 12)) (BitVec.ofNat 3 (w / 2 ^ 9)) (BitVec.ofNat 3 (w / 2 ^ 6)) (BitVec.ofNat 1 (w / 2 ^ 4)) (BitVec.ofNat 1 (w / 2 ^ 3)) (BitVec.ofNat 3 w)) else
    none
  else
  if op = 0x32 then
    if fld w 3 3 = 0 then some (.packB16 (BitVec.ofNat 6 (w / 2 ^ 18)) (BitVec.ofNat 6 (w / 2 ^ 12)) (BitVec.ofNat 6 (w / 2 ^ 6)) (BitVec.ofNat 3 w)) else
    if fld w 3 3 = 1 then some (.packB8Lo (BitVec.ofNat 6 (w / 2 ^ 18)) (BitVec.ofNat 6 (w / 2 ^ 12)) (BitVec.ofNat 6 (w / 2 ^ 6)) (BitVec.ofNat 3 w)) else
    if fld w 3 3 = 2 then some (.packB8Hi (BitVec.ofNat 6 (w / 2 ^ 18)) (BitVec.ofNat 6 (w / 2 ^ 12)) (BitVec.ofNat 6 (w / 2 ^ 6)) (BitVec.ofNat 3 w)) else
    if fld w 3 3 = 3 then some (.packB4Q0 (BitVec.ofNat 6 (w / 2 ^ 18)) (BitVec.ofNat 6 (w / 2 ^ 12)) (BitVec.ofNat 6 (w / 2 ^ 6)) (BitVec.ofNat 3 w)) else
    if fld w 3 3 = 4 then some (.packB4Q1 (BitVec.ofNat 6 (w / 2 ^ 18)) (BitVec.ofNat 6 (w / 2 ^ 12)) (BitVec.ofNat 6 (w / 2 ^ 6)) (BitVec.ofNat 3 w)) else
    if fld w 3 3 = 5 then some (.packB4Q2 (BitVec.ofNat 6 (w / 2 ^ 18)) (BitVec.ofNat 6 (w / 2 ^ 12)) (BitVec.ofNat 6 (w / 2 ^ 6)) (BitVec.ofNat 3 w)) else
    if fld w 3 3 = 6 then some (.packB4Q3 (BitVec.ofNat 6 (w / 2 ^ 18)) (BitVec.ofNat 6 (w / 2 ^ 12)) (BitVec.ofNat 6 (w / 2 ^ 6)) (BitVec.ofNat 3 w)) else
    none
  else
  if op = 0x33 then
    if fld w 9 3 = 0 then some (.unpack (BitVec.ofNat 6 (w / 2 ^ 18)) (BitVec.ofNat 6 (w / 2 ^ 12)) (BitVec.ofNat 3 (w / 2 ^ 6)) (BitVec.ofNat 1 (w / 2 ^ 5)) (BitVec.ofNat 2 (w / 2 ^ 3)) (BitVec.ofNat 3 w)) else
    none
  else
  none

/-- Class 0x4: predicate and cross-lane words. -/
def decodeClass4 (op w : Nat) : Option Instr :=
  if op = 0x41 then
    if fld w 3 3 = 0 ∧ fld w 9 3 = 0 ∧ fld w 15 3 = 0 ∧ fld w 21 3 = 0 then some (.pand (BitVec.ofNat 3 (w / 2 ^ 18)) (BitVec.ofNat 3 (w / 2 ^ 12)) (BitVec.ofNat 3 (w / 2 ^ 6)) (BitVec.ofNat 3 w)) else
    if fld w 3 3 = 1 ∧ fld w 9 3 = 0 ∧ fld w 15 3 = 0 ∧ fld w 21 3 = 0 then some (.por (BitVec.ofNat 3 (w / 2 ^ 18)) (BitVec.ofNat 3 (w / 2 ^ 12)) (BitVec.ofNat 3 (w / 2 ^ 6)) (BitVec.ofNat 3 w)) else
    if fld w 3 3 = 2 ∧ fld w 9 3 = 0 ∧ fld w 15 3 = 0 ∧ fld w 21 3 = 0 then some (.pxor (BitVec.ofNat 3 (w / 2 ^ 18)) (BitVec.ofNat 3 (w / 2 ^ 12)) (BitVec.ofNat 3 (w / 2 ^ 6)) (BitVec.ofNat 3 w)) else
    none
  else
  if op = 0x42 then
    if fld w 3 9 = 0 ∧ fld w 15 3 = 0 ∧ fld w 21 3 = 0 then some (.pnot (BitVec.ofNat 3 (w / 2 ^ 18)) (BitVec.ofNat 3 (w / 2 ^ 12)) (BitVec.ofNat 3 w)) else
    if fld w 3 9 = 1 ∧ fld w 15 3 = 0 ∧ fld w 21 3 = 0 then some (.pmov (BitVec.ofNat 3 (w / 2 ^ 18)) (BitVec.ofNat 3 (w / 2 ^ 12)) (BitVec.ofNat 3 w)) else
    none
  else
  if op = 0x43 then
    if fld w 3 15 = 0 then some (.pcnt (BitVec.ofNat 6 (w / 2 ^ 18)) (BitVec.ofNat 3 w)) else
    none
  else
  if op = 0x44 then
    if fld w 3 9 = 0 ∧ fld w 15 3 = 0 ∧ fld w 21 3 = 0 then some (.pfirst (BitVec.ofNat 3 (w / 2 ^ 18)) (BitVec.ofNat 3 (w / 2 ^ 12)) (BitVec.ofNat 3 w)) else
    none
  else
  if op = 0x45 then
    if fld w 3 3 = 0 ∧ fld w 10 2 = 0 then some (.xperm (BitVec.ofNat 6 (w / 2 ^ 18)) (BitVec.ofNat 6 (w / 2 ^ 12)) (BitVec.ofNat 4 (w / 2 ^ 6)) (BitVec.ofNat 3 w)) else
    none
  else
  if op = 0x46 then
    if fld w 4 8 = 0 then some (.xtab (BitVec.ofNat 6 (w / 2 ^ 18)) (BitVec.ofNat 6 (w / 2 ^ 12)) (BitVec.ofNat 1 (w / 2 ^ 3)) (BitVec.ofNat 3 w)) else
    none
  else
  if op = 0x47 then
    if fld w 6 6 = 0 then some (.xbcast (BitVec.ofNat 6 (w / 2 ^ 18)) (BitVec.ofNat 6 (w / 2 ^ 12)) (BitVec.ofNat 3 (w / 2 ^ 3)) (BitVec.ofNat 3 w)) else
    none
  else
  if op = 0x48 then
    if fld w 3 3 = 0 then some (.xshflIdx (BitVec.ofNat 6 (w / 2 ^ 18)) (BitVec.ofNat 6 (w / 2 ^ 12)) (BitVec.ofNat 6 (w / 2 ^ 6)) (BitVec.ofNat 3 w)) else
    if fld w 3 3 = 1 then some (.xshflXor (BitVec.ofNat 6 (w / 2 ^ 18)) (BitVec.ofNat 6 (w / 2 ^ 12)) (BitVec.ofNat 6 (w / 2 ^ 6)) (BitVec.ofNat 3 w)) else
    if fld w 3 3 = 2 then some (.xshflUp (BitVec.ofNat 6 (w / 2 ^ 18)) (BitVec.ofNat 6 (w / 2 ^ 12)) (BitVec.ofNat 6 (w / 2 ^ 6)) (BitVec.ofNat 3 w)) else
    if fld w 3 3 = 3 then some (.xshflDown (BitVec.ofNat 6 (w / 2 ^ 18)) (BitVec.ofNat 6 (w / 2 ^ 12)) (BitVec.ofNat 6 (w / 2 ^ 6)) (BitVec.ofNat 3 w)) else
    none
  else
  if op = 0x49 then
    if fld w 6 6 = 0 then some (.xred (BitVec.ofNat 6 (w / 2 ^ 18)) (BitVec.ofNat 6 (w / 2 ^ 12)) (BitVec.ofNat 3 (w / 2 ^ 3)) (BitVec.ofNat 3 w)) else
    none
  else
  if op = 0x4A then
    if fld w 6 6 = 0 then some (.xscan (BitVec.ofNat 6 (w / 2 ^ 18)) (BitVec.ofNat 6 (w / 2 ^ 12)) (BitVec.ofNat 3 (w / 2 ^ 3)) (BitVec.ofNat 3 w)) else
    none
  else
  if op = 0x4B then
    some (.xmaxi (BitVec.ofNat 6 (w / 2 ^ 18)) (BitVec.ofNat 6 (w / 2 ^ 12)) (BitVec.ofNat 6 (w / 2 ^ 6)) (BitVec.ofNat 3 (w / 2 ^ 3)) (BitVec.ofNat 3 w))
  else
  if op = 0x4C then
    if fld w 3 9 = 0 then some (.voteAny (BitVec.ofNat 6 (w / 2 ^ 18)) (BitVec.ofNat 6 (w / 2 ^ 12)) (BitVec.ofNat 3 w)) else
    if fld w 3 9 = 1 then some (.voteAll (BitVec.ofNat 6 (w / 2 ^ 18)) (BitVec.ofNat 6 (w / 2 ^ 12)) (BitVec.ofNat 3 w)) else
    if fld w 3 9 = 2 then some (.voteBallot (BitVec.ofNat 6 (w / 2 ^ 18)) (BitVec.ofNat 6 (w / 2 ^ 12)) (BitVec.ofNat 3 w)) else
    none
  else
  if op = 0x4D then
    if fld w 18 6 = 0 then some (.movcRead (BitVec.ofNat 6 (w / 2 ^ 12)) (BitVec.ofNat 12 w)) else
    if fld w 18 6 = 1 then some (.movcWrite (BitVec.ofNat 6 (w / 2 ^ 12)) (BitVec.ofNat 12 w)) else
    none
  else
  if op = 0x4E then
    if fld w 3 9 = 0 then some (.vshape (BitVec.ofNat 6 (w / 2 ^ 18)) (BitVec.ofNat 6 (w / 2 ^ 12)) (BitVec.ofNat 3 w)) else
    none
  else
  none

/-- Class 0x5: flow words. -/
def decodeClass5 (op w : Nat) : Option Instr :=
  if op = 0x51 then
    some (.bra (BitVec.ofNat 21 (w / 2 ^ 3)) (BitVec.ofNat 3 w))
  else
  if op = 0x52 then
    if fld w 3 9 = 0 ∧ fld w 18 6 = 0 then some (.brx (BitVec.ofNat 6 (w / 2 ^ 12)) (BitVec.ofNat 3 w)) else
    none
  else
  if op = 0x53 then
    if fld w 18 1 = 0 then some (.callDirect (BitVec.ofNat 5 (w / 2 ^ 19)) (BitVec.ofNat 18 w)) else
    if fld w 0 12 = 0 ∧ fld w 18 1 = 1 then some (.callIndirect (BitVec.ofNat 5 (w / 2 ^ 19)) (BitVec.ofNat 6 (w / 2 ^ 12))) else
    none
  else
  if op = 0x54 then
    if fld w 3 9 = 0 ∧ fld w 18 6 = 0 then some (.ret (BitVec.ofNat 6 (w / 2 ^ 12)) (BitVec.ofNat 3 w)) else
    none
  else
  if op = 0x55 then
    some (.meet (BitVec.ofNat 21 (w / 2 ^ 3)) (BitVec.ofNat 3 w))
  else
  if op = 0x56 then
    if fld w 0 24 = 0 then some (.yield) else
    none
  else
  if op = 0x57 then
    if fld w 3 21 = 0 then some (.exit (BitVec.ofNat 3 w)) else
    none
  else
  if op = 0x58 then
    if fld w 0 24 = 0 then some (.nop) else
    none
  else
  if op = 0x59 then
    if fld w 12 12 = 0 then some (.sleep (BitVec.ofNat 12 w)) else
    none
  else
  if op = 0x5A then
    if fld w 4 20 = 0 then some (.bar (BitVec.ofNat 4 w)) else
    none
  else
  if op = 0x5B then
    if fld w 0 24 = 0 then some (.gbar) else
    none
  else
  if op = 0x5C then
    if fld w 0 24 = 0 then some (.sbar) else
    none
  else
  if op = 0x5D then
    if fld w 3 21 = 0 then some (.rgrow (BitVec.ofNat 3 w)) else
    if fld w 3 9 = 0 ∧ fld w 15 9 = 8 then some (.rgrowTry (BitVec.ofNat 3 (w / 2 ^ 12)) (BitVec.ofNat 3 w)) else
    none
  else
  if op = 0x5E then
    if fld w 3 21 = 0 then some (.rshrink (BitVec.ofNat 3 w)) else
    none
  else
  if op = 0x5F then
    if fld w 3 9 = 0 ∧ fld w 15 3 = 0 then some (.disp (BitVec.ofNat 6 (w / 2 ^ 18)) (BitVec.ofNat 3 (w / 2 ^ 12)) (BitVec.ofNat 3 w)) else
    none
  else
  none

/-- Class 0x6: load and store words. -/
def decodeClass6 (op w : Nat) : Option Instr :=
  if op = 0x61 then
    some (.ldB32 (BitVec.ofNat 6 (w / 2 ^ 18)) (BitVec.ofNat 6 (w / 2 ^ 12)) (BitVec.ofNat 9 (w / 2 ^ 3)) (BitVec.ofNat 3 w))
  else
  if op = 0x62 then
    some (.ldB64 (BitVec.ofNat 6 (w / 2 ^ 18)) (BitVec.ofNat 6 (w / 2 ^ 12)) (BitVec.ofNat 9 (w / 2 ^ 3)) (BitVec.ofNat 3 w))
  else
  if op = 0x63 then
    some (.ldF32 (BitVec.ofNat 6 (w / 2 ^ 18)) (BitVec.ofNat 6 (w / 2 ^ 12)) (BitVec.ofNat 9 (w / 2 ^ 3)) (BitVec.ofNat 3 w))
  else
  if op = 0x64 then
    some (.ldF16 (BitVec.ofNat 6 (w / 2 ^ 18)) (BitVec.ofNat 6 (w / 2 ^ 12)) (BitVec.ofNat 9 (w / 2 ^ 3)) (BitVec.ofNat 3 w))
  else
  if op = 0x65 then
    some (.ldBf16 (BitVec.ofNat 6 (w / 2 ^ 18)) (BitVec.ofNat 6 (w / 2 ^ 12)) (BitVec.ofNat 9 (w / 2 ^ 3)) (BitVec.ofNat 3 w))
  else
  if op = 0x66 then
    some (.ldI32 (BitVec.ofNat 6 (w / 2 ^ 18)) (BitVec.ofNat 6 (w / 2 ^ 12)) (BitVec.ofNat 9 (w / 2 ^ 3)) (BitVec.ofNat 3 w))
  else
  if op = 0x67 then
    some (.stB8 (BitVec.ofNat 6 (w / 2 ^ 18)) (BitVec.ofNat 6 (w / 2 ^ 12)) (BitVec.ofNat 9 (w / 2 ^ 3)) (BitVec.ofNat 3 w))
  else
  if op = 0x68 then
    some (.stB16 (BitVec.ofNat 6 (w / 2 ^ 18)) (BitVec.ofNat 6 (w / 2 ^ 12)) (BitVec.ofNat 9 (w / 2 ^ 3)) (BitVec.ofNat 3 w))
  else
  if op = 0x69 then
    some (.stB32 (BitVec.ofNat 6 (w / 2 ^ 18)) (BitVec.ofNat 6 (w / 2 ^ 12)) (BitVec.ofNat 9 (w / 2 ^ 3)) (BitVec.ofNat 3 w))
  else
  if op = 0x6A then
    some (.stB64 (BitVec.ofNat 6 (w / 2 ^ 18)) (BitVec.ofNat 6 (w / 2 ^ 12)) (BitVec.ofNat 9 (w / 2 ^ 3)) (BitVec.ofNat 3 w))
  else
  if op = 0x6B then
    some (.ldbW (BitVec.ofNat 6 (w / 2 ^ 18)) (BitVec.ofNat 6 (w / 2 ^ 12)) (BitVec.ofNat 9 (w / 2 ^ 3)) (BitVec.ofNat 3 w))
  else
  if op = 0x6C then
    some (.ldbA (BitVec.ofNat 6 (w / 2 ^ 18)) (BitVec.ofNat 6 (w / 2 ^ 12)) (BitVec.ofNat 9 (w / 2 ^ 3)) (BitVec.ofNat 3 w))
  else
  if op = 0x6D then
    some (.ldbC (BitVec.ofNat 6 (w / 2 ^ 18)) (BitVec.ofNat 6 (w / 2 ^ 12)) (BitVec.ofNat 9 (w / 2 ^ 3)) (BitVec.ofNat 3 w))
  else
  if op = 0x6E then
    some (.stbA (BitVec.ofNat 6 (w / 2 ^ 18)) (BitVec.ofNat 6 (w / 2 ^ 12)) (BitVec.ofNat 9 (w / 2 ^ 3)) (BitVec.ofNat 3 w))
  else
  if op = 0x6F then
    some (.stbC (BitVec.ofNat 6 (w / 2 ^ 18)) (BitVec.ofNat 6 (w / 2 ^ 12)) (BitVec.ofNat 9 (w / 2 ^ 3)) (BitVec.ofNat 3 w))
  else
  none

/-- Class 0x7: atomic and ordering words. -/
def decodeClass7 (op w : Nat) : Option Instr :=
  if op = 0x71 then
    some (.atom (BitVec.ofNat 6 (w / 2 ^ 18)) (BitVec.ofNat 6 (w / 2 ^ 12)) (BitVec.ofNat 6 (w / 2 ^ 6)) (BitVec.ofNat 3 (w / 2 ^ 3)) (BitVec.ofNat 3 w))
  else
  if op = 0x72 then
    some (.atomAcq (BitVec.ofNat 6 (w / 2 ^ 18)) (BitVec.ofNat 6 (w / 2 ^ 12)) (BitVec.ofNat 6 (w / 2 ^ 6)) (BitVec.ofNat 3 (w / 2 ^ 3)) (BitVec.ofNat 3 w))
  else
  if op = 0x73 then
    some (.atomRel (BitVec.ofNat 6 (w / 2 ^ 18)) (BitVec.ofNat 6 (w / 2 ^ 12)) (BitVec.ofNat 6 (w / 2 ^ 6)) (BitVec.ofNat 3 (w / 2 ^ 3)) (BitVec.ofNat 3 w))
  else
  if op = 0x74 then
    some (.atomAcqRel (BitVec.ofNat 6 (w / 2 ^ 18)) (BitVec.ofNat 6 (w / 2 ^ 12)) (BitVec.ofNat 6 (w / 2 ^ 6)) (BitVec.ofNat 3 (w / 2 ^ 3)) (BitVec.ofNat 3 w))
  else
  if op = 0x75 then
    some (.cas (BitVec.ofNat 6 (w / 2 ^ 18)) (BitVec.ofNat 6 (w / 2 ^ 12)) (BitVec.ofNat 6 (w / 2 ^ 6)) (BitVec.ofNat 2 (w / 2 ^ 4)) (BitVec.ofNat 1 (w / 2 ^ 3)) (BitVec.ofNat 3 w))
  else
  if op = 0x76 then
    if fld w 0 24 = 0 then some (.acq) else
    none
  else
  if op = 0x77 then
    if fld w 0 24 = 0 then some (.rel) else
    none
  else
  if op = 0x78 then
    if fld w 0 24 = 0 then some (.fence) else
    none
  else
  if op = 0x79 then
    some (.waita (BitVec.ofNat 6 (w / 2 ^ 18)) (BitVec.ofNat 6 (w / 2 ^ 12)) (BitVec.ofNat 6 (w / 2 ^ 6)) (BitVec.ofNat 3 (w / 2 ^ 3)) (BitVec.ofNat 3 w))
  else
  if op = 0x7A then
    if fld w 3 21 = 0 then some (.txb (BitVec.ofNat 3 w)) else
    none
  else
  if op = 0x7B then
    if fld w 3 15 = 0 ∧ fld w 21 3 = 0 then some (.txc (BitVec.ofNat 3 (w / 2 ^ 18)) (BitVec.ofNat 3 w)) else
    none
  else
  if op = 0x7C then
    if fld w 3 21 = 0 then some (.txa (BitVec.ofNat 3 w)) else
    none
  else
  none

/-- Class 0x8: copy and wait words. -/
def decodeClass8 (op w : Nat) : Option Instr :=
  if op = 0x81 then
    some (.cp (BitVec.ofNat 6 (w / 2 ^ 18)) (BitVec.ofNat 6 (w / 2 ^ 12)) (BitVec.ofNat 6 (w / 2 ^ 6)) (BitVec.ofNat 6 w))
  else
  if op = 0x82 then
    some (.cp2 (BitVec.ofNat 6 (w / 2 ^ 18)) (BitVec.ofNat 6 (w / 2 ^ 12)) (BitVec.ofNat 6 (w / 2 ^ 6)) (BitVec.ofNat 6 w))
  else
  if op = 0x83 then
    some (.cptab (BitVec.ofNat 6 (w / 2 ^ 18)) (BitVec.ofNat 6 (w / 2 ^ 12)) (BitVec.ofNat 6 (w / 2 ^ 6)) (BitVec.ofNat 6 w))
  else
  if op = 0x84 then
    some (.wait (BitVec.ofNat 6 (w / 2 ^ 18)) (BitVec.ofNat 6 (w / 2 ^ 12)) (BitVec.ofNat 6 (w / 2 ^ 6)) (BitVec.ofNat 6 w))
  else
  if op = 0x85 then
    if fld w 0 6 = 0 then some (.waitx (BitVec.ofNat 6 (w / 2 ^ 18)) (BitVec.ofNat 6 (w / 2 ^ 12)) (BitVec.ofNat 6 (w / 2 ^ 6))) else
    none
  else
  if op = 0x86 then
    if fld w 3 9 = 0 then some (.pgreq (BitVec.ofNat 6 (w / 2 ^ 18)) (BitVec.ofNat 6 (w / 2 ^ 12)) (BitVec.ofNat 3 w)) else
    none
  else
  if op = 0x87 then
    if fld w 18 6 = 0 then some (.pfetch (BitVec.ofNat 6 (w / 2 ^ 12)) (BitVec.ofNat 1 (w / 2 ^ 11)) (BitVec.ofNat 8 (w / 2 ^ 3)) (BitVec.ofNat 3 w)) else
    none
  else
  none

/-- Class 0x9: Swage words. -/
def decodeClass9 (op w : Nat) : Option Instr :=
  if op = 0x91 then
    if fld w 0 12 = 0 ∧ fld w 15 9 = 0 then some (.mres (BitVec.ofNat 3 (w / 2 ^ 12))) else
    none
  else
  if op = 0x92 then
    if fld w 0 24 = 0 then some (.mrel) else
    none
  else
  if op = 0x93 then
    if fld w 15 9 = 0 then some (.cdecl (BitVec.ofNat 3 (w / 2 ^ 12)) (BitVec.ofNat 12 w)) else
    none
  else
  if op = 0x94 then
    if fld w 3 2 = 0 then some (.tld (BitVec.ofNat 4 (w / 2 ^ 20)) (BitVec.ofNat 4 (w / 2 ^ 16)) (BitVec.ofNat 4 (w / 2 ^ 12)) (BitVec.ofNat 3 (w / 2 ^ 9)) (BitVec.ofNat 1 (w / 2 ^ 8)) (BitVec.ofNat 2 (w / 2 ^ 6)) (BitVec.ofNat 1 (w / 2 ^ 5)) (BitVec.ofNat 3 w)) else
    none
  else
  if op = 0x95 then
    if fld w 3 3 = 0 then some (.tst (BitVec.ofNat 4 (w / 2 ^ 20)) (BitVec.ofNat 4 (w / 2 ^ 16)) (BitVec.ofNat 4 (w / 2 ^ 12)) (BitVec.ofNat 3 (w / 2 ^ 9)) (BitVec.ofNat 1 (w / 2 ^ 8)) (BitVec.ofNat 2 (w / 2 ^ 6)) (BitVec.ofNat 3 w)) else
    none
  else
  if op = 0x96 then
    if fld w 3 5 = 0 ∧ fld w 12 8 = 0 then some (.tzero (BitVec.ofNat 4 (w / 2 ^ 20)) (BitVec.ofNat 3 (w / 2 ^ 9)) (BitVec.ofNat 1 (w / 2 ^ 8)) (BitVec.ofNat 3 w)) else
    none
  else
  if op = 0x97 then
    if fld w 3 3 = 0 then some (.tmeta (BitVec.ofNat 4 (w / 2 ^ 20)) (BitVec.ofNat 4 (w / 2 ^ 16)) (BitVec.ofNat 4 (w / 2 ^ 12)) (BitVec.ofNat 3 (w / 2 ^ 9)) (BitVec.ofNat 1 (w / 2 ^ 8)) (BitVec.ofNat 2 (w / 2 ^ 6)) (BitVec.ofNat 3 w)) else
    none
  else
  if op = 0x98 then
    if fld w 3 5 = 0 ∧ fld w 20 4 = 0 then some (.mma (BitVec.ofNat 4 (w / 2 ^ 16)) (BitVec.ofNat 4 (w / 2 ^ 12)) (BitVec.ofNat 3 (w / 2 ^ 9)) (BitVec.ofNat 1 (w / 2 ^ 8)) (BitVec.ofNat 3 w)) else
    none
  else
  if op = 0x99 then
    if fld w 3 5 = 0 then some (.mmas (BitVec.ofNat 4 (w / 2 ^ 20)) (BitVec.ofNat 4 (w / 2 ^ 16)) (BitVec.ofNat 4 (w / 2 ^ 12)) (BitVec.ofNat 3 (w / 2 ^ 9)) (BitVec.ofNat 1 (w / 2 ^ 8)) (BitVec.ofNat 3 w)) else
    none
  else
  if op = 0x9A then
    if fld w 3 5 = 0 ∧ fld w 12 12 = 0 then some (.mswap (BitVec.ofNat 3 (w / 2 ^ 9)) (BitVec.ofNat 1 (w / 2 ^ 8)) (BitVec.ofNat 3 w)) else
    none
  else
  if op = 0x9B then
    if fld w 21 3 = 0 then some (.mdrain (BitVec.ofNat 1 (w / 2 ^ 20)) (BitVec.ofNat 4 (w / 2 ^ 16)) (BitVec.ofNat 4 (w / 2 ^ 12)) (BitVec.ofNat 3 (w / 2 ^ 9)) (BitVec.ofNat 1 (w / 2 ^ 8)) (BitVec.ofNat 3 (w / 2 ^ 5)) (BitVec.ofNat 2 (w / 2 ^ 3)) (BitVec.ofNat 3 w)) else
    none
  else
  if op = 0x9C then
    if fld w 4 4 = 0 ∧ fld w 12 8 = 0 ∧ fld w 21 3 = 0 then some (.mclr (BitVec.ofNat 1 (w / 2 ^ 20)) (BitVec.ofNat 3 (w / 2 ^ 9)) (BitVec.ofNat 1 (w / 2 ^ 8)) (BitVec.ofNat 1 (w / 2 ^ 3)) (BitVec.ofNat 3 w)) else
    none
  else
  if op = 0x9D then
    if fld w 0 12 = 0 ∧ fld w 18 6 = 0 then some (.mstat (BitVec.ofNat 6 (w / 2 ^ 12))) else
    none
  else
  none

/-- Class 0xA: field and ray words. -/
def decodeClassA (op w : Nat) : Option Instr :=
  if op = 0xA1 then
    if fld w 3 2 = 0 then some (.hgf (BitVec.ofNat 6 (w / 2 ^ 18)) (BitVec.ofNat 6 (w / 2 ^ 12)) (BitVec.ofNat 6 (w / 2 ^ 6)) (BitVec.ofNat 1 (w / 2 ^ 5)) (BitVec.ofNat 3 w)) else
    none
  else
  if op = 0xA2 then
    if fld w 3 2 = 0 then some (.hgs (BitVec.ofNat 6 (w / 2 ^ 18)) (BitVec.ofNat 6 (w / 2 ^ 12)) (BitVec.ofNat 6 (w / 2 ^ 6)) (BitVec.ofNat 1 (w / 2 ^ 5)) (BitVec.ofNat 3 w)) else
    none
  else
  if op = 0xA3 then
    some (.hgfold (BitVec.ofNat 6 (w / 2 ^ 18)) (BitVec.ofNat 6 (w / 2 ^ 12)) (BitVec.ofNat 6 (w / 2 ^ 6)) (BitVec.ofNat 6 w))
  else
  if op = 0xA4 then
    if fld w 3 3 = 0 then some (.march (BitVec.ofNat 6 (w / 2 ^ 18)) (BitVec.ofNat 6 (w / 2 ^ 12)) (BitVec.ofNat 6 (w / 2 ^ 6)) (BitVec.ofNat 3 w)) else
    none
  else
  if op = 0xA5 then
    if fld w 3 3 = 0 then some (.tex (BitVec.ofNat 6 (w / 2 ^ 18)) (BitVec.ofNat 6 (w / 2 ^ 12)) (BitVec.ofNat 6 (w / 2 ^ 6)) (BitVec.ofNat 3 w)) else
    none
  else
  if op = 0xA6 then
    if fld w 3 3 = 0 then some (.trace (BitVec.ofNat 6 (w / 2 ^ 18)) (BitVec.ofNat 6 (w / 2 ^ 12)) (BitVec.ofNat 6 (w / 2 ^ 6)) (BitVec.ofNat 3 w)) else
    none
  else
  if op = 0xA7 then
    if fld w 3 9 = 0 then some (.tcontReject (BitVec.ofNat 6 (w / 2 ^ 18)) (BitVec.ofNat 6 (w / 2 ^ 12)) (BitVec.ofNat 3 w)) else
    if fld w 3 9 = 1 then some (.tcontAccept (BitVec.ofNat 6 (w / 2 ^ 18)) (BitVec.ofNat 6 (w / 2 ^ 12)) (BitVec.ofNat 3 w)) else
    if fld w 3 9 = 2 then some (.tcontTerminate (BitVec.ofNat 6 (w / 2 ^ 18)) (BitVec.ofNat 6 (w / 2 ^ 12)) (BitVec.ofNat 3 w)) else
    none
  else
  if op = 0xA8 then
    if fld w 4 14 = 0 then some (.thit (BitVec.ofNat 6 (w / 2 ^ 18)) (BitVec.ofNat 1 (w / 2 ^ 3)) (BitVec.ofNat 3 w)) else
    none
  else
  if op = 0xA9 then
    if fld w 3 21 = 0 then some (.tabort (BitVec.ofNat 3 w)) else
    none
  else
  none

/-- Class 0xB: stream and time words. -/
def decodeClassB (op w : Nat) : Option Instr :=
  if op = 0xB1 then
    if fld w 17 1 = 0 then some (.srd (BitVec.ofNat 6 (w / 2 ^ 18)) (BitVec.ofNat 1 (w / 2 ^ 16)) (BitVec.ofNat 4 (w / 2 ^ 12)) (BitVec.ofNat 6 (w / 2 ^ 6)) (BitVec.ofNat 3 (w / 2 ^ 3)) (BitVec.ofNat 3 w)) else
    none
  else
  if op = 0xB2 then
    if fld w 16 2 = 0 ∧ fld w 22 2 = 0 then some (.srdt (BitVec.ofNat 4 (w / 2 ^ 18)) (BitVec.ofNat 4 (w / 2 ^ 12)) (BitVec.ofNat 6 (w / 2 ^ 6)) (BitVec.ofNat 3 (w / 2 ^ 3)) (BitVec.ofNat 3 w)) else
    none
  else
  if op = 0xB3 then
    if fld w 3 3 = 0 ∧ fld w 17 1 = 0 then some (.swr (BitVec.ofNat 6 (w / 2 ^ 18)) (BitVec.ofNat 1 (w / 2 ^ 16)) (BitVec.ofNat 4 (w / 2 ^ 12)) (BitVec.ofNat 6 (w / 2 ^ 6)) (BitVec.ofNat 3 w)) else
    none
  else
  if op = 0xB4 then
    if fld w 3 3 = 0 ∧ fld w 10 2 = 0 ∧ fld w 16 8 = 0 then some (.sinh (BitVec.ofNat 4 (w / 2 ^ 12)) (BitVec.ofNat 4 (w / 2 ^ 6)) (BitVec.ofNat 3 w)) else
    if fld w 3 3 = 1 ∧ fld w 10 2 = 0 ∧ fld w 16 2 = 0 then some (.sinhOffset (BitVec.ofNat 6 (w / 2 ^ 18)) (BitVec.ofNat 4 (w / 2 ^ 12)) (BitVec.ofNat 4 (w / 2 ^ 6)) (BitVec.ofNat 3 w)) else
    none
  else
  if op = 0xB5 then
    if fld w 6 6 = 0 ∧ fld w 16 2 = 0 then some (.sts (BitVec.ofNat 6 (w / 2 ^ 18)) (BitVec.ofNat 4 (w / 2 ^ 12)) (BitVec.ofNat 3 (w / 2 ^ 3)) (BitVec.ofNat 3 w)) else
    none
  else
  if op = 0xB6 then
    if fld w 6 6 = 0 ∧ fld w 16 2 = 0 then some (.sstat (BitVec.ofNat 6 (w / 2 ^ 18)) (BitVec.ofNat 4 (w / 2 ^ 12)) (BitVec.ofNat 3 (w / 2 ^ 3)) (BitVec.ofNat 3 w)) else
    none
  else
  if op = 0xB7 then
    if fld w 3 9 = 0 ∧ fld w 16 8 = 0 then some (.sflushLine (BitVec.ofNat 4 (w / 2 ^ 12)) (BitVec.ofNat 3 w)) else
    if fld w 3 9 = 1 ∧ fld w 16 8 = 0 then some (.sflushFrame (BitVec.ofNat 4 (w / 2 ^ 12)) (BitVec.ofNat 3 w)) else
    none
  else
  if op = 0xB8 then
    if fld w 0 12 = 0 ∧ fld w 18 6 = 0 then some (.time (BitVec.ofNat 6 (w / 2 ^ 12))) else
    none
  else
  if op = 0xB9 then
    if fld w 0 12 = 0 ∧ fld w 18 6 = 0 then some (.sleepu (BitVec.ofNat 6 (w / 2 ^ 12))) else
    none
  else
  none

/-- Class 0xC: launch and collective words. -/
def decodeClassC (op w : Nat) : Option Instr :=
  if op = 0xC1 then
    if fld w 3 9 = 0 ∧ fld w 21 3 = 0 then some (.launch (BitVec.ofNat 3 (w / 2 ^ 18)) (BitVec.ofNat 6 (w / 2 ^ 12)) (BitVec.ofNat 3 w)) else
    if fld w 3 9 = 1 ∧ fld w 21 3 = 0 then some (.launchTail (BitVec.ofNat 3 (w / 2 ^ 18)) (BitVec.ofNat 6 (w / 2 ^ 12)) (BitVec.ofNat 3 w)) else
    none
  else
  if op = 0xC2 then
    if fld w 3 21 = 0 then some (.publish (BitVec.ofNat 3 w)) else
    none
  else
  if op = 0xC3 then
    if fld w 3 9 = 0 ∧ fld w 21 3 = 0 then some (.cprog (BitVec.ofNat 3 (w / 2 ^ 18)) (BitVec.ofNat 6 (w / 2 ^ 12)) (BitVec.ofNat 3 w)) else
    none
  else
  if op = 0xC4 then
    if fld w 3 3 = 0 ∧ fld w 11 1 = 0 ∧ fld w 21 3 = 0 then some (.ctrigArm (BitVec.ofNat 3 (w / 2 ^ 18)) (BitVec.ofNat 6 (w / 2 ^ 12)) (BitVec.ofNat 5 (w / 2 ^ 6)) (BitVec.ofNat 3 w)) else
    if fld w 3 3 = 1 ∧ fld w 11 7 = 0 ∧ fld w 21 3 = 0 then some (.ctrigDisarm (BitVec.ofNat 3 (w / 2 ^ 18)) (BitVec.ofNat 5 (w / 2 ^ 6)) (BitVec.ofNat 3 w)) else
    none
  else
  if op = 0xC5 then
    if fld w 3 3 = 0 ∧ fld w 9 3 = 0 then some (.cctrAdd (BitVec.ofNat 6 (w / 2 ^ 18)) (BitVec.ofNat 6 (w / 2 ^ 12)) (BitVec.ofNat 3 (w / 2 ^ 6)) (BitVec.ofNat 3 w)) else
    if fld w 3 3 = 1 ∧ fld w 9 3 = 0 then some (.cctrSet (BitVec.ofNat 6 (w / 2 ^ 18)) (BitVec.ofNat 6 (w / 2 ^ 12)) (BitVec.ofNat 3 (w / 2 ^ 6)) (BitVec.ofNat 3 w)) else
    if fld w 3 3 = 2 ∧ fld w 9 9 = 0 then some (.cctrRead (BitVec.ofNat 6 (w / 2 ^ 18)) (BitVec.ofNat 3 (w / 2 ^ 6)) (BitVec.ofNat 3 w)) else
    none
  else
  if op = 0xC6 then
    if fld w 10 2 = 0 then some (.tbar (BitVec.ofNat 6 (w / 2 ^ 18)) (BitVec.ofNat 6 (w / 2 ^ 12)) (BitVec.ofNat 4 (w / 2 ^ 6)) (BitVec.ofNat 3 (w / 2 ^ 3)) (BitVec.ofNat 3 w)) else
    none
  else
  none

/-- Class 0xD: system words. -/
def decodeClassD (op w : Nat) : Option Instr :=
  if op = 0xD1 then
    if fld w 0 24 = 0 then some (.idemb) else
    none
  else
  if op = 0xD2 then
    if fld w 0 24 = 0 then some (.ideme) else
    none
  else
  if op = 0xD3 then
    if fld w 2 10 = 0 ∧ fld w 18 6 = 0 then some (.tlbw (BitVec.ofNat 6 (w / 2 ^ 12)) (BitVec.ofNat 2 w)) else
    none
  else
  if op = 0xD4 then
    if fld w 0 12 = 0 ∧ fld w 18 6 = 0 then some (.tlbiVaCore (BitVec.ofNat 6 (w / 2 ^ 12))) else
    if fld w 0 12 = 0 ∧ fld w 18 6 = 1 then some (.tlbiVaAll (BitVec.ofNat 6 (w / 2 ^ 12))) else
    if fld w 0 24 = 524288 then some (.tlbiCtxCore) else
    if fld w 0 24 = 786432 then some (.tlbiCtxAll) else
    none
  else
  if op = 0xD5 then
    if fld w 0 24 = 0 then some (.lpiCore) else
    if fld w 0 24 = 262144 then some (.lpiAll) else
    none
  else
  if op = 0xD6 then
    if fld w 0 24 = 0 then some (.walkd) else
    none
  else
  if op = 0xD7 then
    if fld w 12 12 = 0 then some (.trap (BitVec.ofNat 12 w)) else
    none
  else
  if op = 0xD8 then
    if fld w 0 24 = 0 then some (.rtt) else
    none
  else
  if op = 0xD9 then
    if fld w 12 12 = 0 then some (.snap (BitVec.ofNat 12 w)) else
    none
  else
  if op = 0xDA then
    if fld w 12 12 = 0 then some (.brk (BitVec.ofNat 12 w)) else
    none
  else
  none

/-- Class 0xE: prefix words. -/
def decodeClassE (op w : Nat) : Option Instr :=
  if op = 0xE1 then
    some (.hintImm (BitVec.ofNat 24 w))
  else
  if op = 0xE2 then
    if fld w 0 3 = 0 then some (.hintPref (BitVec.ofNat 6 (w / 2 ^ 18)) (BitVec.ofNat 6 (w / 2 ^ 12)) (BitVec.ofNat 6 (w / 2 ^ 6)) (BitVec.ofNat 3 (w / 2 ^ 3))) else
    none
  else
  if op = 0xE3 then
    if fld w 6 18 = 0 then some (.hintRnd (BitVec.ofNat 3 (w / 2 ^ 3)) (BitVec.ofNat 1 (w / 2 ^ 2)) (BitVec.ofNat 1 (w / 2 ^ 1)) (BitVec.ofNat 1 w)) else
    none
  else
  if op = 0xE4 then
    if fld w 0 16 = 0 then some (.hintSched (BitVec.ofNat 4 (w / 2 ^ 20)) (BitVec.ofNat 3 (w / 2 ^ 17)) (BitVec.ofNat 1 (w / 2 ^ 16))) else
    none
  else
  if op = 0xE5 then
    if fld w 0 6 = 0 then some (.rep (BitVec.ofNat 6 (w / 2 ^ 18)) (BitVec.ofNat 3 (w / 2 ^ 15)) (BitVec.ofNat 3 (w / 2 ^ 12)) (BitVec.ofNat 3 (w / 2 ^ 9)) (BitVec.ofNat 3 (w / 2 ^ 6))) else
    none
  else
  none

/-- The instruction a word holds. -/
def decodeWord (w : Nat) : Option Instr :=
  let op := fld w 24 8
  if op / 16 = 0 then decodeClass0 op w else
  if op / 16 = 1 then decodeClass1 op w else
  if op / 16 = 2 then decodeClass2 op w else
  if op / 16 = 3 then decodeClass3 op w else
  if op / 16 = 4 then decodeClass4 op w else
  if op / 16 = 5 then decodeClass5 op w else
  if op / 16 = 6 then decodeClass6 op w else
  if op / 16 = 7 then decodeClass7 op w else
  if op / 16 = 8 then decodeClass8 op w else
  if op / 16 = 9 then decodeClass9 op w else
  if op / 16 = 10 then decodeClassA op w else
  if op / 16 = 11 then decodeClassB op w else
  if op / 16 = 12 then decodeClassC op w else
  if op / 16 = 13 then decodeClassD op w else
  if op / 16 = 14 then decodeClassE op w else
  none

/-- Whether the map of R73 assigns an opcode: in class C the low nibbles 1 to a last one. -/
def opAssigned (op : Nat) : Bool :=
  let last : List Nat := [15, 15, 15, 3, 14, 15, 15, 12, 7, 13, 9, 9, 6, 10, 5, 0]
  1 ≤ op % 16 && op % 16 ≤ last.getD (op / 16) 0

/-- The instruction at the head of a byte string (R69): the word is stored little-endian. -/
def decode (bs : List Byte) : Except DecodeError Instr :=
  match bs with
  | b0 :: b1 :: b2 :: b3 :: _ =>
    let w := Machine.leNat [b0, b1, b2, b3]
    match decodeWord w with
    | some i => .ok i
    | none => if opAssigned (fld w 24 8) then .error (.reservedField (fld w 24 8)) else .error (.unassignedOpcode (fld w 24 8))
  | _ => .error .truncated

/-- The instruction the decoder reads from a word whose bits are `w`, numbered as the opcode table numbers them. -/
def decodeTableWord (nbits w : Nat) : Option Instr :=
  match decode (Machine.leBytes 4 (w % 2 ^ nbits)) with
  | .ok i => some i
  | .error _ => none

/-! ### Encoding -/

/-- A field's value standing at bit `lo`. -/
def put {n : Nat} (lo : Nat) (x : BitVec n) : Nat := x.toNat * 2 ^ lo

/-- A word: its fixed bits and its fields. -/
def word (fixed : Nat) (fields : List Nat) : Nat := fields.foldl (fun a x => a + x) fixed

/-- The word of an instruction as a number; an event row has none. -/
def encodeNat (i : Instr) : Option Nat :=
  match i with
  | .add d a b f g => some (word 0x01000000 [put 18 d, put 12 a, put 6 b, put 3 f, put 0 g])
  | .sub d a b f g => some (word 0x02000000 [put 18 d, put 12 a, put 6 b, put 3 f, put 0 g])
  | .mul d a b f g => some (word 0x03000000 [put 18 d, put 12 a, put 6 b, put 3 f, put 0 g])
  | .mulhi d a b f g => some (word 0x04000000 [put 18 d, put 12 a, put 6 b, put 3 f, put 0 g])
  | .mad d a b c => some (word 0x05000000 [put 18 d, put 12 a, put 6 b, put 0 c])
  | .min d a b f g => some (word 0x06000000 [put 18 d, put 12 a, put 6 b, put 3 f, put 0 g])
  | .max d a b f g => some (word 0x06000020 [put 18 d, put 12 a, put 6 b, put 3 f, put 0 g])
  | .lea d a b s g => some (word 0x07000000 [put 18 d, put 12 a, put 6 b, put 3 s, put 0 g])
  | .abs d a g => some (word 0x08000000 [put 18 d, put 12 a, put 0 g])
  | .neg d a g => some (word 0x08000008 [put 18 d, put 12 a, put 0 g])
  | .not d a g => some (word 0x08000010 [put 18 d, put 12 a, put 0 g])
  | .clz d a g => some (word 0x08000018 [put 18 d, put 12 a, put 0 g])
  | .popc d a g => some (word 0x08000020 [put 18 d, put 12 a, put 0 g])
  | .brev d a g => some (word 0x08000028 [put 18 d, put 12 a, put 0 g])
  | .and d a b w g => some (word 0x09000000 [put 18 d, put 12 a, put 6 b, put 3 w, put 0 g])
  | .or d a b w g => some (word 0x09000010 [put 18 d, put 12 a, put 6 b, put 3 w, put 0 g])
  | .xor d a b w g => some (word 0x09000020 [put 18 d, put 12 a, put 6 b, put 3 w, put 0 g])
  | .andn d a b w g => some (word 0x09000030 [put 18 d, put 12 a, put 6 b, put 3 w, put 0 g])
  | .shl d a b g => some (word 0x0A000000 [put 18 d, put 12 a, put 6 b, put 0 g])
  | .shr d a b g => some (word 0x0A000010 [put 18 d, put 12 a, put 6 b, put 0 g])
  | .sar d a b g => some (word 0x0A000020 [put 18 d, put 12 a, put 6 b, put 0 g])
  | .rot d a b g => some (word 0x0A000030 [put 18 d, put 12 a, put 6 b, put 0 g])
  | .bfe d a b s g => some (word 0x0B000000 [put 18 d, put 12 a, put 6 b, put 3 s, put 0 g])
  | .bfi d a b c => some (word 0x0C000000 [put 18 d, put 12 a, put 6 b, put 0 c])
  | .icmp w u p a b c g => some (word 0x0D000000 [put 22 w, put 21 u, put 18 p, put 12 a, put 6 b, put 3 c, put 0 g])
  | .sel d a b c => some (word 0x0E000000 [put 18 d, put 12 a, put 6 b, put 0 c])
  | .mov d a w g => some (word 0x0F000000 [put 18 d, put 12 a, put 3 w, put 0 g])
  | .movi d i => some (word 0x11000000 [put 18 d, put 0 i])
  | .movhi d i => some (word 0x12000000 [put 18 d, put 0 i])
  | .iota d b s => some (word 0x13000000 [put 18 d, put 9 b, put 0 s])
  | .addImm d a i g => some (word 0x14000000 [put 18 d, put 12 a, put 3 i, put 0 g])
  | .mulImm d a i g => some (word 0x15000000 [put 18 d, put 12 a, put 3 i, put 0 g])
  | .andImm d a i g => some (word 0x16000000 [put 18 d, put 12 a, put 3 i, put 0 g])
  | .orImm d a i g => some (word 0x17000000 [put 18 d, put 12 a, put 3 i, put 0 g])
  | .xorImm d a i g => some (word 0x18000000 [put 18 d, put 12 a, put 3 i, put 0 g])
  | .shlImm d a n g => some (word 0x19000000 [put 18 d, put 12 a, put 3 n, put 0 g])
  | .shrImm d a n g => some (word 0x1A000000 [put 18 d, put 12 a, put 3 n, put 0 g])
  | .sarImm d a n g => some (word 0x1B000000 [put 18 d, put 12 a, put 3 n, put 0 g])
  | .rotImm d a n g => some (word 0x1C000000 [put 18 d, put 12 a, put 3 n, put 0 g])
  | .minImm d a i g => some (word 0x1D000000 [put 18 d, put 12 a, put 3 i, put 0 g])
  | .maxImm d a i g => some (word 0x1E000000 [put 18 d, put 12 a, put 3 i, put 0 g])
  | .leaImm d a i g => some (word 0x1F000000 [put 18 d, put 12 a, put 3 i, put 0 g])
  | .fadd d a b f g => some (word 0x21000000 [put 18 d, put 12 a, put 6 b, put 3 f, put 0 g])
  | .fsub d a b f g => some (word 0x22000000 [put 18 d, put 12 a, put 6 b, put 3 f, put 0 g])
  | .fmul d a b f g => some (word 0x23000000 [put 18 d, put 12 a, put 6 b, put 3 f, put 0 g])
  | .fma d a b f g => some (word 0x24000000 [put 18 d, put 12 a, put 6 b, put 3 f, put 0 g])
  | .fmin d a b t g => some (word 0x25000000 [put 18 d, put 12 a, put 6 b, put 4 t, put 0 g])
  | .fmax d a b t g => some (word 0x26000000 [put 18 d, put 12 a, put 6 b, put 4 t, put 0 g])
  | .fabs d a t g => some (word 0x27000000 [put 18 d, put 12 a, put 4 t, put 0 g])
  | .fneg d a t g => some (word 0x27000008 [put 18 d, put 12 a, put 4 t, put 0 g])
  | .fcmp t p a b c g => some (word 0x28000000 [put 21 t, put 18 p, put 12 a, put 6 b, put 3 c, put 0 g])
  | .fclass d a t g => some (word 0x29000000 [put 18 d, put 12 a, put 4 t, put 0 g])
  | .fdiv d a b f g => some (word 0x2A000000 [put 18 d, put 12 a, put 6 b, put 3 f, put 0 g])
  | .fscale d a b f g => some (word 0x2B000000 [put 18 d, put 12 a, put 6 b, put 3 f, put 0 g])
  | .fsqrt d a f g => some (word 0x2C000000 [put 18 d, put 12 a, put 3 f, put 0 g])
  | .frcp d a f g => some (word 0x2C000040 [put 18 d, put 12 a, put 3 f, put 0 g])
  | .frsqrt d a f g => some (word 0x2C000080 [put 18 d, put 12 a, put 3 f, put 0 g])
  | .fexp2 d a f g => some (word 0x2D000000 [put 18 d, put 12 a, put 3 f, put 0 g])
  | .flog2 d a f g => some (word 0x2D000040 [put 18 d, put 12 a, put 3 f, put 0 g])
  | .fsin d a f g => some (word 0x2D000080 [put 18 d, put 12 a, put 3 f, put 0 g])
  | .fcos d a f g => some (word 0x2D0000C0 [put 18 d, put 12 a, put 3 f, put 0 g])
  | .ffract d a t g => some (word 0x2E000000 [put 18 d, put 12 a, put 4 t, put 0 g])
  | .fround d a t g => some (word 0x2E000040 [put 18 d, put 12 a, put 4 t, put 0 g])
  | .fdot2 d a b t s g => some (word 0x2F000000 [put 18 d, put 12 a, put 6 b, put 4 t, put 3 s, put 0 g])
  | .cvt d a t s u q g => some (word 0x31000000 [put 18 d, put 12 a, put 9 t, put 6 s, put 4 u, put 3 q, put 0 g])
  | .packB16 d a b g => some (word 0x32000000 [put 18 d, put 12 a, put 6 b, put 0 g])
  | .packB8Lo d a b g => some (word 0x32000008 [put 18 d, put 12 a, put 6 b, put 0 g])
  | .packB8Hi d a b g => some (word 0x32000010 [put 18 d, put 12 a, put 6 b, put 0 g])
  | .packB4Q0 d a b g => some (word 0x32000018 [put 18 d, put 12 a, put 6 b, put 0 g])
  | .packB4Q1 d a b g => some (word 0x32000020 [put 18 d, put 12 a, put 6 b, put 0 g])
  | .packB4Q2 d a b g => some (word 0x32000028 [put 18 d, put 12 a, put 6 b, put 0 g])
  | .packB4Q3 d a b g => some (word 0x32000030 [put 18 d, put 12 a, put 6 b, put 0 g])
  | .unpack d a k s w g => some (word 0x33000000 [put 18 d, put 12 a, put 6 k, put 5 s, put 3 w, put 0 g])
  | .pand d a b g => some (word 0x41000000 [put 18 d, put 12 a, put 6 b, put 0 g])
  | .por d a b g => some (word 0x41000008 [put 18 d, put 12 a, put 6 b, put 0 g])
  | .pxor d a b g => some (word 0x41000010 [put 18 d, put 12 a, put 6 b, put 0 g])
  | .pnot d a g => some (word 0x42000000 [put 18 d, put 12 a, put 0 g])
  | .pmov d a g => some (word 0x42000008 [put 18 d, put 12 a, put 0 g])
  | .pcnt d g => some (word 0x43000000 [put 18 d, put 0 g])
  | .pfirst d a g => some (word 0x44000000 [put 18 d, put 12 a, put 0 g])
  | .xperm d a k g => some (word 0x45000000 [put 18 d, put 12 a, put 6 k, put 0 g])
  | .xtab d a t g => some (word 0x46000000 [put 18 d, put 12 a, put 3 t, put 0 g])
  | .xbcast d a m g => some (word 0x47000000 [put 18 d, put 12 a, put 3 m, put 0 g])
  | .xshflIdx d a b g => some (word 0x48000000 [put 18 d, put 12 a, put 6 b, put 0 g])
  | .xshflXor d a b g => some (word 0x48000008 [put 18 d, put 12 a, put 6 b, put 0 g])
  | .xshflUp d a b g => some (word 0x48000010 [put 18 d, put 12 a, put 6 b, put 0 g])
  | .xshflDown d a b g => some (word 0x48000018 [put 18 d, put 12 a, put 6 b, put 0 g])
  | .xred d a f g => some (word 0x49000000 [put 18 d, put 12 a, put 3 f, put 0 g])
  | .xscan d a f g => some (word 0x4A000000 [put 18 d, put 12 a, put 3 f, put 0 g])
  | .xmaxi d a b f g => some (word 0x4B000000 [put 18 d, put 12 a, put 6 b, put 3 f, put 0 g])
  | .voteAny d a g => some (word 0x4C000000 [put 18 d, put 12 a, put 0 g])
  | .voteAll d a g => some (word 0x4C000008 [put 18 d, put 12 a, put 0 g])
  | .voteBallot d a g => some (word 0x4C000010 [put 18 d, put 12 a, put 0 g])
  | .movcRead d n => some (word 0x4D000000 [put 12 d, put 0 n])
  | .movcWrite a n => some (word 0x4D040000 [put 12 a, put 0 n])
  | .vshape d a g => some (word 0x4E000000 [put 18 d, put 12 a, put 0 g])
  | .bra o g => some (word 0x51000000 [put 3 o, put 0 g])
  | .brx a g => some (word 0x52000000 [put 12 a, put 0 g])
  | .callDirect d i => some (word 0x53000000 [put 19 d, put 0 i])
  | .callIndirect d a => some (word 0x53040000 [put 19 d, put 12 a])
  | .ret a g => some (word 0x54000000 [put 12 a, put 0 g])
  | .meet o g => some (word 0x55000000 [put 3 o, put 0 g])
  | .yield => some (word 0x56000000 [])
  | .exit g => some (word 0x57000000 [put 0 g])
  | .nop => some (word 0x58000000 [])
  | .sleep n => some (word 0x59000000 [put 0 n])
  | .bar b => some (word 0x5A000000 [put 0 b])
  | .gbar => some (word 0x5B000000 [])
  | .sbar => some (word 0x5C000000 [])
  | .rgrow n => some (word 0x5D000000 [put 0 n])
  | .rgrowTry p n => some (word 0x5D040000 [put 12 p, put 0 n])
  | .rshrink n => some (word 0x5E000000 [put 0 n])
  | .disp d p g => some (word 0x5F000000 [put 18 d, put 12 p, put 0 g])
  | .ldB32 d a i g => some (word 0x61000000 [put 18 d, put 12 a, put 3 i, put 0 g])
  | .ldB64 d a i g => some (word 0x62000000 [put 18 d, put 12 a, put 3 i, put 0 g])
  | .ldF32 d a i g => some (word 0x63000000 [put 18 d, put 12 a, put 3 i, put 0 g])
  | .ldF16 d a i g => some (word 0x64000000 [put 18 d, put 12 a, put 3 i, put 0 g])
  | .ldBf16 d a i g => some (word 0x65000000 [put 18 d, put 12 a, put 3 i, put 0 g])
  | .ldI32 d a i g => some (word 0x66000000 [put 18 d, put 12 a, put 3 i, put 0 g])
  | .stB8 d a i g => some (word 0x67000000 [put 18 d, put 12 a, put 3 i, put 0 g])
  | .stB16 d a i g => some (word 0x68000000 [put 18 d, put 12 a, put 3 i, put 0 g])
  | .stB32 d a i g => some (word 0x69000000 [put 18 d, put 12 a, put 3 i, put 0 g])
  | .stB64 d a i g => some (word 0x6A000000 [put 18 d, put 12 a, put 3 i, put 0 g])
  | .ldbW d a i g => some (word 0x6B000000 [put 18 d, put 12 a, put 3 i, put 0 g])
  | .ldbA d a i g => some (word 0x6C000000 [put 18 d, put 12 a, put 3 i, put 0 g])
  | .ldbC d a i g => some (word 0x6D000000 [put 18 d, put 12 a, put 3 i, put 0 g])
  | .stbA d a i g => some (word 0x6E000000 [put 18 d, put 12 a, put 3 i, put 0 g])
  | .stbC d a i g => some (word 0x6F000000 [put 18 d, put 12 a, put 3 i, put 0 g])
  | .atom d a b f g => some (word 0x71000000 [put 18 d, put 12 a, put 6 b, put 3 f, put 0 g])
  | .atomAcq d a b f g => some (word 0x72000000 [put 18 d, put 12 a, put 6 b, put 3 f, put 0 g])
  | .atomRel d a b f g => some (word 0x73000000 [put 18 d, put 12 a, put 6 b, put 3 f, put 0 g])
  | .atomAcqRel d a b f g => some (word 0x74000000 [put 18 d, put 12 a, put 6 b, put 3 f, put 0 g])
  | .cas d a b o w g => some (word 0x75000000 [put 18 d, put 12 a, put 6 b, put 4 o, put 3 w, put 0 g])
  | .acq => some (word 0x76000000 [])
  | .rel => some (word 0x77000000 [])
  | .fence => some (word 0x78000000 [])
  | .waita d a b p g => some (word 0x79000000 [put 18 d, put 12 a, put 6 b, put 3 p, put 0 g])
  | .txb g => some (word 0x7A000000 [put 0 g])
  | .txc p g => some (word 0x7B000000 [put 18 p, put 0 g])
  | .txa g => some (word 0x7C000000 [put 0 g])
  | .cp d a b c => some (word 0x81000000 [put 18 d, put 12 a, put 6 b, put 0 c])
  | .cp2 d a b c => some (word 0x82000000 [put 18 d, put 12 a, put 6 b, put 0 c])
  | .cptab d a b c => some (word 0x83000000 [put 18 d, put 12 a, put 6 b, put 0 c])
  | .wait l s c m => some (word 0x84000000 [put 18 l, put 12 s, put 6 c, put 0 m])
  | .waitx t s c => some (word 0x85000000 [put 18 t, put 12 s, put 6 c])
  | .pgreq d a g => some (word 0x86000000 [put 18 d, put 12 a, put 0 g])
  | .pfetch a l n g => some (word 0x87000000 [put 12 a, put 11 l, put 3 n, put 0 g])
  | .mres p => some (word 0x91000000 [put 12 p])
  | .mrel => some (word 0x92000000 [])
  | .cdecl c n => some (word 0x93000000 [put 12 c, put 0 n])
  | .tld t a b c q s e g => some (word 0x94000000 [put 20 t, put 16 a, put 12 b, put 9 c, put 8 q, put 6 s, put 5 e, put 0 g])
  | .tst t a b c q s g => some (word 0x95000000 [put 20 t, put 16 a, put 12 b, put 9 c, put 8 q, put 6 s, put 0 g])
  | .tzero t c q g => some (word 0x96000000 [put 20 t, put 9 c, put 8 q, put 0 g])
  | .tmeta t a b c q s g => some (word 0x97000000 [put 20 t, put 16 a, put 12 b, put 9 c, put 8 q, put 6 s, put 0 g])
  | .mma a b c q g => some (word 0x98000000 [put 16 a, put 12 b, put 9 c, put 8 q, put 0 g])
  | .mmas t a b c q g => some (word 0x99000000 [put 20 t, put 16 a, put 12 b, put 9 c, put 8 q, put 0 g])
  | .mswap c q g => some (word 0x9A000000 [put 9 c, put 8 q, put 0 g])
  | .mdrain k a b c q t x g => some (word 0x9B000000 [put 20 k, put 16 a, put 12 b, put 9 c, put 8 q, put 5 t, put 3 x, put 0 g])
  | .mclr k c q m g => some (word 0x9C000000 [put 20 k, put 9 c, put 8 q, put 3 m, put 0 g])
  | .mstat d => some (word 0x9D000000 [put 12 d])
  | .hgf d a b o g => some (word 0xA1000000 [put 18 d, put 12 a, put 6 b, put 5 o, put 0 g])
  | .hgs d a b i g => some (word 0xA2000000 [put 18 d, put 12 a, put 6 b, put 5 i, put 0 g])
  | .hgfold d a b c => some (word 0xA3000000 [put 18 d, put 12 a, put 6 b, put 0 c])
  | .march d a b g => some (word 0xA4000000 [put 18 d, put 12 a, put 6 b, put 0 g])
  | .tex d a b g => some (word 0xA5000000 [put 18 d, put 12 a, put 6 b, put 0 g])
  | .trace d a b g => some (word 0xA6000000 [put 18 d, put 12 a, put 6 b, put 0 g])
  | .tcontReject d a g => some (word 0xA7000000 [put 18 d, put 12 a, put 0 g])
  | .tcontAccept d a g => some (word 0xA7000008 [put 18 d, put 12 a, put 0 g])
  | .tcontTerminate d a g => some (word 0xA7000010 [put 18 d, put 12 a, put 0 g])
  | .thit d s g => some (word 0xA8000000 [put 18 d, put 3 s, put 0 g])
  | .tabort g => some (word 0xA9000000 [put 0 g])
  | .srd d v s b p g => some (word 0xB1000000 [put 18 d, put 16 v, put 12 s, put 6 b, put 3 p, put 0 g])
  | .srdt t s b p g => some (word 0xB2000000 [put 18 t, put 12 s, put 6 b, put 3 p, put 0 g])
  | .swr d v s b g => some (word 0xB3000000 [put 18 d, put 16 v, put 12 s, put 6 b, put 0 g])
  | .sinh s m g => some (word 0xB4000000 [put 12 s, put 6 m, put 0 g])
  | .sinhOffset d s m g => some (word 0xB4000008 [put 18 d, put 12 s, put 6 m, put 0 g])
  | .sts d s f g => some (word 0xB5000000 [put 18 d, put 12 s, put 3 f, put 0 g])
  | .sstat d s f g => some (word 0xB6000000 [put 18 d, put 12 s, put 3 f, put 0 g])
  | .sflushLine s g => some (word 0xB7000000 [put 12 s, put 0 g])
  | .sflushFrame s g => some (word 0xB7000008 [put 12 s, put 0 g])
  | .time d => some (word 0xB8000000 [put 12 d])
  | .sleepu a => some (word 0xB9000000 [put 12 a])
  | .launch p a g => some (word 0xC1000000 [put 18 p, put 12 a, put 0 g])
  | .launchTail p a g => some (word 0xC1000008 [put 18 p, put 12 a, put 0 g])
  | .publish w => some (word 0xC2000000 [put 0 w])
  | .cprog p a g => some (word 0xC3000000 [put 18 p, put 12 a, put 0 g])
  | .ctrigArm p a s g => some (word 0xC4000000 [put 18 p, put 12 a, put 6 s, put 0 g])
  | .ctrigDisarm p s g => some (word 0xC4000008 [put 18 p, put 6 s, put 0 g])
  | .cctrAdd d a k g => some (word 0xC5000000 [put 18 d, put 12 a, put 6 k, put 0 g])
  | .cctrSet d a k g => some (word 0xC5000008 [put 18 d, put 12 a, put 6 k, put 0 g])
  | .cctrRead d k g => some (word 0xC5000010 [put 18 d, put 6 k, put 0 g])
  | .tbar d a s x g => some (word 0xC6000000 [put 18 d, put 12 a, put 6 s, put 3 x, put 0 g])
  | .idemb => some (word 0xD1000000 [])
  | .ideme => some (word 0xD2000000 [])
  | .tlbw a l => some (word 0xD3000000 [put 12 a, put 0 l])
  | .tlbiVaCore a => some (word 0xD4000000 [put 12 a])
  | .tlbiVaAll a => some (word 0xD4040000 [put 12 a])
  | .tlbiCtxCore => some (word 0xD4080000 [])
  | .tlbiCtxAll => some (word 0xD40C0000 [])
  | .lpiCore => some (word 0xD5000000 [])
  | .lpiAll => some (word 0xD5040000 [])
  | .walkd => some (word 0xD6000000 [])
  | .trap c => some (word 0xD7000000 [put 0 c])
  | .rtt => some (word 0xD8000000 [])
  | .snap t => some (word 0xD9000000 [put 0 t])
  | .brk c => some (word 0xDA000000 [put 0 c])
  | .hintImm i => some (word 0xE1000000 [put 0 i])
  | .hintPref a b c v => some (word 0xE2000000 [put 18 a, put 12 b, put 6 c, put 3 v])
  | .hintRnd m v s q => some (word 0xE3000000 [put 3 m, put 2 v, put 1 s, put 0 q])
  | .hintSched s r y => some (word 0xE4000000 [put 20 s, put 17 r, put 16 y])
  | .rep n d a b o => some (word 0xE5000000 [put 18 n, put 15 d, put 12 a, put 9 b, put 6 o])
  | .loadValueArrival _ _ _ => none
  | .storeAcknowledge _ _ _ => none
  | .copyCompletion _ _ _ => none
  | .swageOperationCompletion _ _ _ => none
  | .fieldRequestCompletion _ _ _ => none
  | .traversalStop _ _ _ => none
  | .streamOperationCompletion _ _ _ => none
  | .rgrowGrant _ => none
  | .strandEnd _ _ => none
  | .fairnessRotation _ _ => none
  | .activeSetRotation _ _ => none
  | .sleepExpiry _ _ => none
  | .sleepuExpiry _ _ => none
  | .waitaDeadline _ _ _ => none
  | .trapEntry _ _ _ _ _ => none
  | .deferredTrap _ _ => none
  | .watchdogExpiry _ => none
  | .queueKick _ _ _ _ => none
  | .packetPull => none
  | .dependencyMet _ => none
  | .earliestReached _ => none
  | .heapDeadlineExpiry _ => none
  | .placeUnit => none
  | .launchDeadlineCut _ => none
  | .timeSliceTick => none
  | .gangQuench _ _ => none
  | .gangSave _ _ => none
  | .restoreOnRelease => none
  | .launchCompletion _ => none
  | .cxassistWrite _ _ => none
  | .saveAreaWrite _ _ _ => none
  | .translationRegisterWrite _ _ _ => none
  | .contextReset _ => none
  | .queueBindingWrite _ _ _ => none
  | .walkStart _ _ _ _ => none
  | .hostFill _ _ => none
  | .hostWalkEnd _ _ => none
  | .resvaWrite _ _ => none
  | .pageMigration _ _ => none
  | .hostWrite _ _ _ => none
  | .hostRead _ _ => none
  | .windowRegisterWrite _ _ _ _ => none
  | .publicationServe _ _ => none
  | .publicationComplete _ _ => none
  | .loaderGo _ => none
  | .loaderDone _ => none
  | .portctlWrite _ _ => none
  | .ptpctlWrite _ => none
  | .sessionOpen _ _ => none
  | .sessionClose _ => none
  | .arpRequest _ _ _ _ => none
  | .ptpEventMessage _ _ => none
  | .ptpMasterLoss => none
  | .videoPacketReceive _ _ => none
  | .opaquePacketReceive _ _ => none
  | .lineClose _ _ _ => none
  | .packetTransmit _ => none
  | .opaqueTransmit _ => none
  | .portLinkChange _ _ => none
  | .llynadReq _ _ => none
  | .llynadGrant _ _ => none
  | .llynadData _ _ _ => none
  | .llynadAck _ _ => none
  | .llynadSig _ _ => none
  | .llynadAbt _ _ => none
  | .llynadArrive _ _ => none
  | .llynadCommit _ _ => none
  | .llynadCack _ _ => none
  | .llynadResend _ _ _ => none
  | .llynadPathRetry _ _ _ => none
  | .relayWrite _ _ => none
  | .collSend _ => none
  | .collRecv _ => none
  | .collRrs _ => none
  | .collCopy _ => none
  | .collWait _ => none
  | .collLoop _ => none
  | .collSig _ => none
  | .collEnd _ => none
  | .triggerCounterWrite _ _ _ => none
  | .triggerActionEnd _ _ => none
  | .genlockArrive _ => none
  | .genlockCommitInstant _ => none
  | .genlockDecision _ => none
  | .genlockCackCheck _ => none
  | .patchgo => none
  | .patchVerifyDone => none
  | .nopatch => none
  | .timego => none
  | .svnburn => none
  | .attgo => none
  | .attestationDone => none
  | .softcoreWrite _ => none
  | .coreRetirementDone _ => none
  | .softchanWrite _ => none
  | .softportWrite _ => none
  | .rcandRead => none
  | .retwWrite _ => none
  | .hearthRowRepair _ _ => none
  | .uncorrectableWriteback _ => none
  | .coreParityError _ => none
  | .deviceParityError _ => none
  | .snapshotRearm => none
  | .snapshotTimeTrigger => none
  | .snapshotPinTrigger => none
  | .throttleTick _ _ => none
  | .thermalTrip => none
  | .powerGood => none
  | .functionLevelReset => none
  | .moduleResetPin => none
  | .resetStateDone => none
  | .rominitDone _ => none
  | .hostLinkTrained => none
  | .memtrainDone _ => none
  | .portsUp _ => none
  | .registerWrite _ _ _ => none
  | .powerDown => none
  | .delayReqTransmit => none
  | .peerMemoryAccess _ _ _ => none
  | .svnBurnDone => none
  | .triggerOutputPulseEnd => none

/-- The word of an instruction. -/
def encode (i : Instr) : Option Word := (encodeNat i).map (BitVec.ofNat 32)

/-- The bytes of an instruction's word, first byte at the lowest address (R69). -/
def encodeBytes (i : Instr) : List Byte :=
  match encodeNat i with
  | some w => Machine.leBytes 4 w
  | none => []

end Sys2Proof
end

