-- ==== Sys2Proof/Config.lean ====
section
/-! DEFINITION. What an implementation fixes and the manual does not: constants and functions without a body, so that
no proof can rest on a value of theirs. Each is named in a log entry of notes/assumptions. -/

namespace Sys2Proof.Config

open Sys2Proof.Machine

/-- Which of the value table's 512 sets a key falls into (R61 gives the sets and no index function; assumption 10).
It decides only which entry is replaced when a set is full. -/
opaque vtSet : VKey → Nat

/-- Which of a TLB's 128 sets a translation falls into (R361 gives the sets and no index function; assumption 74). It decides only which
entry is replaced when a set is full. -/
opaque tlbSet : Trans → Nat

/-- Which of a slice's 2048 registry sets a line falls into (R178; assumption 74). -/
opaque ownSet : Nat → Nat

/-- The virtual address a migration advice names for a physical page that no TLB entry of its context maps (R360, R373
give none; assumption 11). -/
opaque unmappedVa : Nat → VAddr

/-- The extended sequence number of the first packet that a session sends after an open (R398 gives none; assumption 84). -/
opaque rtpStart : Nat → DWord → Word

/-- The event register at 0x01_0810 + 8 × i, whose layout the manual does not give: it depends on the stamps of the exchange in progress
(R393; assumption 85). -/
opaque ptpStampReg : Nat → List (Option DWord) → DWord

/-- Whether a member has a healthy path to another at a time: this module knows only its own paths (R407; assumption 86). -/
opaque relayReaches : Nat → Nat → DWord → Bool

/-- A byte of the front frame of a window whose frames overlap: the manual leaves it undefined (R381; assumption 21). It depends on
the version before the publication and on the byte's offset. -/
opaque overlapByte : DWord → Nat → Byte

/-- A byte of the older contents that memory keeps when a write-back is dropped: the manual does not say how old (R436;
assumption 22). It depends on the device time and the address. -/
opaque olderByte : DWord → Nat → Byte

/-- The control store's ROM: 4096 words, which the manual does not give (R444, R450; assumption 12). -/
opaque controlStore : Nat → BitVec 128

/-- The 32 octets of randomness of an ML-DSA-65 signature made at a time, which the standard leaves to the signer (R452; assumption 12). -/
opaque signRandom : DWord → BitVec 256

/-- The lines that a row of a Hearth slice holds at a time, and whether a line of the Hearth is dirty then: the manual does not say where a
line is kept (R453; assumption 22). -/
opaque hearthLines : Nat → Nat → DWord → List Nat
opaque hearthDirty : Nat → DWord → Bool

end Sys2Proof.Config
end

