-- ==== Sys2Proof/Machine/Access.lean ====
section
/-! DEFINITION. Reading and writing the parts of the state: crews, strands, cores, contexts, queues, launches, sessions
and registers. Every other file goes through these accessors. -/

namespace Sys2Proof.Machine

/-! ### Whole units -/

def State.crew? (s : State) (id : Nat) : Option Crew := s.crews.find? (fun c => c.id = id)

def State.setCrew (s : State) (c : Crew) : State := { s with crews := s.crews.map (fun x => if x.id = c.id then c else x) }

def Crew.strand? (c : Crew) (i : Nat) : Option Strand := c.strands.find? (fun t => t.idx = i)

def Crew.setStrand (c : Crew) (t : Strand) : Crew := { c with strands := c.strands.map (fun x => if x.idx = t.idx then t else x) }

def State.core (s : State) (k : Nat) : Core := s.cores.getD k .fresh
def State.setCore (s : State) (k : Nat) (c : Core) : State := { s with cores := s.cores.set k c }
def State.modCore (s : State) (k : Nat) (f : Core → Core) : State := s.setCore k (f (s.core k))
def State.modCores (s : State) (f : Core → Core) : State := { s with cores := s.cores.map f }

def State.ctx (s : State) (x : Nat) : Context := s.ctxs.getD x .fresh
def State.setCtx (s : State) (x : Nat) (c : Context) : State := { s with ctxs := s.ctxs.set x c }
def State.modCtx (s : State) (x : Nat) (f : Context → Context) : State := s.setCtx x (f (s.ctx x))

def State.queue (s : State) (q : Nat) : Queue := s.queues.getD q .fresh
def State.modQueue (s : State) (q : Nat) (f : Queue → Queue) : State := { s with queues := s.queues.set q (f (s.queue q)) }

def State.session (s : State) (k : Nat) : Session := s.sessions.getD k .fresh
def State.modSession (s : State) (k : Nat) (f : Session → Session) : State :=
  { s with sessions := s.sessions.set k (f (s.session k)) }

def State.launch? (s : State) (seq : Nat) : Option Launch := s.launches.find? (fun l => l.seq = seq)
def State.modLaunch (s : State) (seq : Nat) (f : Launch → Launch) : State :=
  { s with launches := s.launches.map (fun l => if l.seq = seq then f l else l) }

def State.group (s : State) (g : Nat) : Group := s.groups.getD g .fresh
def State.modGroup (s : State) (g : Nat) (f : Group → Group) : State := { s with groups := s.groups.set g (f (s.group g)) }

def State.prog? (s : State) (p : Nat) : Option CProg := s.progs.getD p none
def State.setProg (s : State) (p : Nat) (v : Option CProg) : State := { s with progs := s.progs.set p v }

def State.port (s : State) (p : Nat) : Port := s.ports.getD p .fresh
def State.modPort (s : State) (p : Nat) (f : Port → Port) : State := { s with ports := s.ports.set p (f (s.port p)) }

/-- Logical port 2p or 2p+1 is the first or second half of port p (R389). -/
def State.lport (s : State) (lp : Nat) : LPort := if lp % 2 = 0 then (s.port (lp / 2)).lp0 else (s.port (lp / 2)).lp1
def State.modLport (s : State) (lp : Nat) (f : LPort → LPort) : State :=
  s.modPort (lp / 2) (fun p => if lp % 2 = 0 then { p with lp0 := f p.lp0 } else { p with lp1 := f p.lp1 })

def State.emit (s : State) (o : Out) : State := { s with out := s.out ++ [o] }

def State.modDev (s : State) (f : Device → Device) : State := { s with dev := f s.dev }

/-- The crews resident on a core. -/
def State.residentOn (s : State) (core : Nat) : List Crew := s.crews.filter (fun c => c.core = core && c.state = .resident)

/-- A crew changed in place. -/
def State.modCrew (s : State) (id : Nat) (f : Crew → Crew) : State :=
  { s with crews := s.crews.map (fun c => if c.id = id then f c else c) }

/-- A strand of a crew changed in place. -/
def State.modStrand (s : State) (id i : Nat) (f : Strand → Strand) : State :=
  s.modCrew id (fun c => { c with strands := c.strands.map (fun t => if t.idx = i then f t else t) })

/-! ### Registers and predicates -/

/-- A register that holds uniform zero (R143, R146). -/
def Reg.zero : Reg := { tag := .uniform, lanes := L8.all 0, loc := 0, bad := false }

def Strand.reg (t : Strand) (v : Nat) : Reg := t.regs.getD v .zero
/-- Lane l of vector register v. -/
def Strand.lane (t : Strand) (v l : Nat) : Word := (t.reg v).lanes.get l
/-- Lane l of the pair v:v+1: the even register holds bits [31:0] (R6). -/
def Strand.lane64 (t : Strand) (v l : Nat) : DWord := BitVec.ofNat 64 ((t.lane v l).toNat + 2 ^ 32 * (t.lane (v + 1) l).toNat)
/-- `opnd` of R88 as an unsigned number: 32 bits, or the 64 bits of a pair. -/
def Strand.opnd (t : Strand) (wide : Bool) (v l : Nat) : Nat := if wide then (t.lane64 v l).toNat else (t.lane v l).toNat

/-- A predicate: p0 reads as all ones (R50). -/
def Strand.pred (t : Strand) (p : Nat) : Mask := if p = 0 then 0xFF else t.preds.get p
/-- A write to p0 is discarded (R50). -/
def Strand.setPred (t : Strand) (p : Nat) (m : Mask) : Strand := if p = 0 then t else { t with preds := t.preds.set p m }
/-- Bits of `which` take the bits of `val`, the others keep theirs (R119). -/
def Strand.mergePred (t : Strand) (p : Nat) (which val : Mask) : Strand :=
  t.setPred p ((t.pred p &&& ~~~which) ||| (val &&& which))

def Strand.thread (t : Strand) (l : Nat) : Thread := t.threads.get l
def Strand.modThread (t : Strand) (l : Nat) (f : Thread → Thread) : Strand :=
  { t with threads := t.threads.mapi (fun k x => if k = l then f x else x) }
def Strand.modThreads (t : Strand) (m : Mask) (f : Nat → Thread → Thread) : Strand :=
  { t with threads := t.threads.mapi (fun k x => if laneOn m k then f k x else x) }

/-- The lanes whose threads satisfy `p`. -/
def Strand.lanesWhere (t : Strand) (p : Thread → Bool) : Mask := maskOf (fun l => p (t.thread l))

def Thread.isRunning (x : Thread) : Bool := x.state = .running
def Thread.isExited (x : Thread) : Bool := x.state = .exited
def Thread.isParked (x : Thread) : Bool := x.state = .parked

/-- INH: the strand is in its trap handler (R424, R427). -/
def Strand.inHandler (t : Strand) : Bool := t.trap.inh

/-- The strand's count of a counter: its operations in flight, saturating at 62 (R48, R185). -/
def Strand.count (t : Strand) (k : Ctr) : Nat := min 62 (t.inflight.filter (fun p => p.ctr = k)).length

end Sys2Proof.Machine
end

