-- ==== Sys2Proof/Machine/Naming.lean ====
section
/-! DEFINITION. Value naming (spec/03_registers_and_value_naming.md R58 to R68): the content index, the value table,
and the one operation through which every vector register is written. -/

namespace Sys2Proof.Machine

/-- The stored form of a register's contents (R53). -/
def storedForm (tag : Tag) (w : L8 Word) : List Word :=
  match tag with
  | .uniform => [w.l0]
  | .affine => [w.l0, w.l1 - w.l0]
  | .general => w.toList

/-- The shape code of R53. -/
def Tag.code : Tag → Nat
  | .uniform => 0
  | .affine => 1
  | .general => 2

/-- `content_hash` (R59). -/
def contentHash (tag : Tag) (w : L8 Word) : DWord :=
  (storedForm tag w).foldl (fun (h : DWord) x =>
      let h := (h ^^^ BitVec.ofNat 64 x.toNat) * 0xD6E8FEB86659FD93
      h ^^^ (h >>> 29))
    (BitVec.ofNat 64 (Tag.code tag + 1) * 0xA24B1F6DC3E58097)

def Naming.loc? (n : Naming) (id : Nat) : Option Loc := n.locs.find? (fun l => l.id = id)
def Naming.refs (n : Naming) (id : Nat) : Nat := match n.loc? id with | some l => l.refs | none => 0

/-- Whether a location holds an uncorrectable error (R68). -/
def Naming.locBad (n : Naming) (id : Nat) : Bool := match n.loc? id with | some l => l.bad | none => false

/-- One more or one fewer register maps to a location. -/
def Naming.addRef (n : Naming) (id : Nat) : Naming :=
  { n with locs := modWhere n.locs (fun l => l.id = id) (fun l => { l with refs := l.refs + 1 }) }

/-- Whether a value-table entry names a location, as key or as result (R60). -/
def VEntry.names (e : VEntry) (id : Nat) : Bool := e.key.srcs.contains id || e.key.old.contains id || e.res.contains id

/-- A register stops mapping to a location: at zero the location is freed, its content-index entry is cleared, and every
value-table entry that names it is killed (R60). -/
def Naming.dropRef (n : Naming) (id : Nat) : Naming :=
  if 1 < n.refs id then
    { n with locs := modWhere n.locs (fun l => l.id = id) (fun l => { l with refs := l.refs - 1 }) }
  else
    { n with locs := n.locs.filter (fun l => l.id ≠ id),
             cindex := n.cindex.filter (fun p => p.2.loc ≠ id),
             vtable := n.vtable.filter (fun e => !(e.names id)) }

/-- The probe chain of a hash (R59). -/
def probeChain (h : DWord) : List Nat := [0, 1, 2, 3].map (fun i => (h.toNat % 8192 + i) % 8192)

/-- What placing a result did: the tables, the location, and whether it was deduplicated or collided. -/
structure Placed where
  nm    : Naming
  loc   : Nat
  dedup : Bool
  coll  : Bool
  deriving DecidableEq, Repr

/-- `name_result` without the release of the old location (R60). -/
def Naming.place (n : Naming) (tag : Tag) (w : L8 Word) : Placed :=
  let h := contentHash tag w
  let chain := probeChain h
  let found := chain.filterMap (fun i => smapGet n.cindex i) |>.find? (fun e => e.hash = h)
  let fresh : Nat := n.nextLoc + 1
  let same (e : CEntry) : Bool :=
    match n.loc? e.loc with
    | some l => l.tag = tag && decide (storedForm tag l.lanes = storedForm tag w)
    | none => false
  let newLoc : Loc := { id := fresh, tag := tag, lanes := w, refs := 1, shared := found.isNone, bad := false }
  match found with
  | some e =>
    if same e && n.refs e.loc < 255 then { nm := n.addRef e.loc, loc := e.loc, dedup := true, coll := false }
    else { nm := { n with locs := n.locs ++ [newLoc], nextLoc := fresh }, loc := fresh, dedup := false, coll := !(same e) }
  | none =>
    let ci := match chain.find? (fun i => (smapGet n.cindex i).isNone) with
      | some i => smapSet n.cindex i { hash := h, loc := fresh }
      | none => n.cindex
    { nm := { n with locs := n.locs ++ [newLoc], nextLoc := fresh, cindex := ci }, loc := fresh, dedup := false, coll := false }

/-- The set that a new key takes (R61). DESIGN CHOICE (assumption 91): R61 gives no index, and R304's final state has no key lost to another
set's; a key takes the first set with room, and with all 2048 entries in use the one that `Config.vtSet` names. -/
def Naming.setFor (n : Naming) (key : VKey) : Nat :=
  ((List.range 512).find? (fun k => decide ((n.vtable.filter (fun x => x.set = k)).length < 4))).getD (Config.vtSet key % 512)

/-- An entry kept under its key, most recently used first; a full set of four loses its least recently used entry
(R61). -/
def Naming.insert (n0 : Naming) (e0 : VEntry) : Naming :=
  let n := { n0 with vtable := n0.vtable.filter (fun x => x.key ≠ e0.key) }
  let e := { e0 with set := n.setFor e0.key }
  match (n.vtable.filter (fun x => x.set = e.set))[3]? with
  | none => { n with vtable := e :: n.vtable }
  | some old => { n with vtable := e :: n.vtable.filter (fun x => x ≠ old) }

/-- An entry found becomes the most recently used, unless the write of its hit has killed it (R60). -/
def Naming.touch (n : Naming) (e : VEntry) : Naming :=
  if n.vtable.contains e then { n with vtable := e :: n.vtable.filter (fun x => x ≠ e) } else n

/-- Every entry that a load made, killed (R64). -/
def Naming.killLoads (n : Naming) : Naming := { n with vtable := n.vtable.filter (fun e => e.key.load.isEmpty) }

/-- Entries of `ldb.w` whose range overlaps [a, b) of WBUF, killed (R64). -/
def Naming.killRange (n : Naming) (a b : Nat) : Naming :=
  { n with vtable := n.vtable.filter (fun e => match e.range with | some (x, y) => b ≤ x || y ≤ a | none => true) }

/-- Load entries of a launch, killed at its end (R64): the key's second load item is the launch. -/
def Naming.killLaunch (n : Naming) (seq : Nat) : Naming :=
  { n with vtable := n.vtable.filter (fun e => e.key.load.getD 1 0 ≠ seq || e.key.load.isEmpty) }

/-- Entries of `xperm` and `xtab`, killed when the generation counter wraps (R123): their opcodes are 0x45 and 0x46. -/
def Naming.killTables (n : Naming) : Naming :=
  { n with vtable := n.vtable.filter (fun e => let op := e.key.word.toNat / 2 ^ 24; op ≠ 0x45 && op ≠ 0x46) }

/-- The generation that a table write takes, and the counter advanced (R123). -/
def Naming.takeGen (n : Naming) : Naming × Word :=
  if n.gen = 0xFFFFFFFF then ({ n.killTables with gen := 1 }, n.gen) else ({ n with gen := n.gen + 1 }, n.gen)

/-! ### The issuing strand's view -/

/-- What an instruction acts on: the machine, with the issuing crew and strand taken out. `c` and `t` are the current
ones; `commit` puts them back. -/
structure Env where
  s : State
  c : Crew
  t : Strand
  deriving DecidableEq, Repr

def Env.commit (e : Env) : State := e.s.setCrew (e.c.setStrand e.t)

/-- The same strand's view of a changed machine. -/
def Env.reload (e : Env) (s : State) : Env :=
  match s.crew? e.c.id with
  | some c => match c.strand? e.t.idx with
    | some t => { s := s, c := c, t := t }
    | none => { s := s, c := c, t := e.t }
  | none => { s := s, c := e.c, t := e.t }

/-- A change to the machine at large, made with the strand put back. -/
def Env.via (e : Env) (f : State → State) : Env := e.reload (f e.commit)

/-- One result: a destination register with its tag and all eight lane values. -/
structure Put where
  d    : Nat
  tag  : Tag
  vals : L8 Word
  deriving DecidableEq, Repr

/-- The registers with one result stored. -/
def Strand.setReg (t : Strand) (d : Nat) (r : Reg) : Strand := { t with regs := t.regs.set d r }

/-- A result placed by `name_result`; with naming off it takes a location that is never shared, which nothing can name
(R60, R66). `counted` is false for the placements that raise no naming counter. -/
def Env.put1 (e : Env) (counted : Bool) (p : Put) : Env :=
  if e.c.naming then
    let co := e.s.core e.c.core
    let pl := co.naming.place p.tag p.vals
    let nm := pl.nm.dropRef (e.t.reg p.d).loc
    let c := if counted then
        { e.c with vndedup := if pl.dedup then e.c.vndedup + 1 else e.c.vndedup,
                   vncoll := if pl.coll then e.c.vncoll + 1 else e.c.vncoll }
      else e.c
    { s := e.s.setCore e.c.core { co with naming := nm }, c := c,
      t := e.t.setReg p.d { tag := p.tag, lanes := p.vals, loc := pl.loc, bad := pl.nm.locBad pl.loc } }
  else { e with t := e.t.setReg p.d { tag := p.tag, lanes := p.vals, loc := 0, bad := false } }

def Env.puts (e : Env) (counted : Bool) (ps : List Put) : Env := ps.foldl (fun e p => e.put1 counted p) e

/-- A value-table hit: each half is mapped to the entry's location (R62). The counts of the entry's locations rise before
any old one falls. -/
def Env.mapHit (e : Env) (ent : VEntry) (ps : List Put) : Env :=
  let co := e.s.core e.c.core
  let up := ent.res.foldl (fun n l => n.addRef l) co.naming
  let nm := (ps.foldl (fun n p => n.dropRef (e.t.reg p.d).loc) up).touch ent
  let t := ps.zipIdx.foldl (fun (t : Strand) x =>
    t.setReg x.1.d { tag := x.1.tag, lanes := x.1.vals, loc := ent.res.getD x.2 0, bad := up.locBad (ent.res.getD x.2 0) }) e.t
  { s := e.s.setCore e.c.core { co with naming := nm }, c := { e.c with vnhits := e.c.vnhits + 1 }, t := t }

/-- The entry that a lookup hits (R62): its key, and room for another reference to each of its locations. -/
def Naming.hit (nm : Naming) (key : VKey) : Option VEntry :=
  nm.vtable.find? (fun x => x.key = key && x.res.all (fun l => nm.refs l + x.res.count l ≤ 255))

/-- Results of an instruction that has missed: placed, and an entry inserted unless its key names a location that the
write has freed (R61). -/
def Env.putMissed (e : Env) (key : VKey) (flags : BitVec 5) (range : Option (Nat × Nat)) (ps : List Put) : Env :=
  let e' := e.puts true ps
  let nm' := (e'.s.core e.c.core).naming
  let live := (key.srcs ++ key.old).all (fun l => (nm'.loc? l).isSome)
  if live then
    let ent : VEntry := { key := key, res := ps.map (fun p => (e'.t.reg p.d).loc), flags := flags, range := range, set := 0 }
    { e' with s := e'.s.setCore e.c.core { (e'.s.core e.c.core) with naming := nm'.insert ent } }
  else e'

/-- Results written with a value-table lookup under `key` (R61, R62). The values are what executing gives; a hit maps
the registers to the entry's locations, which hold those values (R58). -/
def Env.putKeyed (e : Env) (key : VKey) (flags : BitVec 5) (ps : List Put) : Env :=
  match (e.s.core e.c.core).naming.hit key with
  | some ent => e.mapHit ent ps
  | none => e.putMissed key flags none ps

/-- What a location holds, as a result for register d. -/
def Naming.putOf (n : Naming) (d id : Nat) : Put :=
  match n.loc? id with
  | some l => { d := d, tag := l.tag, vals := l.lanes }
  | none => { d := d, tag := .uniform, vals := L8.all 0 }

/-- A load whose key is in the value table: it retires with the entry's result and flags (R62). Where software has changed a page that is
read-only during the launch, this gives the old contents and a miss reads the new ones, as R65 lets each load do; the key holds the
context, so no other context's load is affected. -/
def Env.reuse? (e : Env) (key : VKey) (ds : List Nat) : Option Env :=
  let nm := (e.s.core e.c.core).naming
  match nm.hit key with
  | none => none
  | some ent =>
    let e1 := e.mapHit ent ((ds.zip ent.res).map (fun x => nm.putOf x.1 x.2))
    some { e1 with t := { e1.t with fflags := e1.t.fflags ||| ent.flags } }

/-- A lookup by an instruction whose lane mask is empty: it writes nothing (R88), so a hit only counts, and on a miss the
entry's result is what the registers hold (R61, R62). -/
def Env.lookEmpty (e : Env) (key : VKey) (ds : List Nat) : Env :=
  let nm := (e.s.core e.c.core).naming
  match nm.hit key with
  | some ent =>
    { e with s := e.s.modCore e.c.core (fun co => { co with naming := co.naming.touch ent }), c := { e.c with vnhits := e.c.vnhits + 1 } }
  | none =>
    let ent : VEntry := { key := key, res := ds.map (fun d => (e.t.reg d).loc), flags := 0, range := none, set := 0 }
    { e with s := e.s.modCore e.c.core (fun co => { co with naming := co.naming.insert ent }) }

/-- The locations of a strand's registers from `first` up, released (R60, R68). -/
def releaseRegs (nm : Naming) (rs : List Reg) : Naming := rs.foldl (fun n r => if r.loc = 0 then n else n.dropRef r.loc) nm

/-- Entry, restart, restore and granted registers placed in ascending order, raising no counter (R60). -/
def placeRegs (naming : Bool) (nm : Naming) (rs : List Reg) : Naming × List Reg :=
  if naming then
    rs.foldl (fun (acc : Naming × List Reg) r =>
      let pl := acc.1.place r.tag r.lanes
      (pl.nm, acc.2 ++ [{ r with loc := pl.loc, bad := pl.nm.locBad pl.loc }])) (nm, [])
  else (nm, rs.map (fun r => { r with loc := 0, bad := false }))

end Sys2Proof.Machine
end

