-- ==== Sys2Proof/Machine/Num.lean ====
section
/-! DEFINITION. Number formats and exact arithmetic (spec/02_number_formats.md): decoding, rounding with every mode of
R36, saturation, the narrow rule of R40, DL8, MXFP4 blocks, the stochastic source and the packed keys of `maxi`. -/

namespace Sys2Proof.Machine

/-! ### Exact values -/

/-- m × 2^k with a sign. -/
def Num.scaled (neg : Bool) (m : Nat) (k : Int) : Num :=
  if 0 ≤ k then .fin neg (m * 2 ^ k.toNat) 1 else .fin neg m (2 ^ (-k).toNat)

def Num.zero (neg : Bool) : Num := .fin neg 0 1

/-- An integer as an exact value. -/
def Num.ofInt (x : Int) : Num := .fin (decide (x < 0)) x.natAbs 1

def Num.isNan : Num → Bool
  | .nan _ => true
  | _ => false

def Num.isSnan : Num → Bool
  | .nan s => s
  | _ => false

def Num.isInf : Num → Bool
  | .inf _ => true
  | _ => false

def Num.isZero : Num → Bool
  | .fin _ n _ => n = 0
  | _ => false

def Num.isNeg : Num → Bool
  | .nan _ => false
  | .inf s => s
  | .fin s _ _ => s

def Num.flip : Num → Num
  | .nan s => .nan s
  | .inf s => .inf (!s)
  | .fin s n d => .fin (!s) n d

def Num.mag : Num → Num
  | .nan s => .nan s
  | .inf _ => .inf false
  | .fin _ n d => .fin false n d

/-- a ≤ b on numbers (no NaN), zeros equal. -/
def Num.le (a b : Num) : Bool :=
  match a, b with
  | .inf true, _ => true
  | _, .inf false => true
  | .inf false, _ => false
  | _, .inf true => false
  | .fin s n d, .fin s' n' d' =>
    let x : Int := if s then -(n * d' : Nat) else (n * d' : Nat)
    let y : Int := if s' then -(n' * d : Nat) else (n' * d : Nat)
    decide (x ≤ y)
  | _, _ => false

/-- a = b on numbers, zeros equal; false with a NaN. -/
def Num.eqv (a b : Num) : Bool := Num.le a b && Num.le b a

/-- a < b on numbers. -/
def Num.lt (a b : Num) : Bool := Num.le a b && !(Num.le b a)

/-- The value in lowest terms, so that long computations stay small. -/
def Num.reduce : Num → Num
  | .fin s n d => let g := Nat.gcd n d; if g = 0 then .fin s n d else .fin s (n / g) (d / g)
  | x => x

/-- Rounding codes of R36. -/
def rne : Nat := 0
def rz : Nat := 1
def rdn : Nat := 2
def rup : Nat := 3
def rodd : Nat := 4
def rsto : Nat := 5

/-! ### Sticky flags (R39) -/

def flagNX : BitVec 5 := 1
def flagUF : BitVec 5 := 2
def flagOF : BitVec 5 := 4
def flagDZ : BitVec 5 := 8
def flagNV : BitVec 5 := 16
def noFlags : BitVec 5 := 0

/-- An exact result with the flags that forming it raised. -/
structure Exact where
  val   : Num
  flags : BitVec 5
  deriving DecidableEq, Repr

/-- NV for a signalling NaN among the operands (R27). -/
def snanFlag (xs : List Num) : BitVec 5 := if xs.any Num.isSnan then flagNV else noFlags

/-- The NaN result, with NV when the operation is invalid on its operands (R27). -/
def Exact.nan (nv : Bool) (xs : List Num) : Exact :=
  { val := .nan false, flags := (if nv then flagNV else noFlags) ||| snanFlag xs }

/-- a + b exactly; the sign of an exact zero sum follows the mode (R108). -/
def numAdd (mode : Nat) (a b : Num) : Exact :=
  match a, b with
  | .nan _, _ => Exact.nan false [a, b]
  | _, .nan _ => Exact.nan false [a, b]
  | .inf s, .inf s' => if s = s' then { val := .inf s, flags := 0 } else Exact.nan true []
  | .inf s, _ => { val := .inf s, flags := 0 }
  | _, .inf s => { val := .inf s, flags := 0 }
  | .fin s n d, .fin s' n' d' =>
    let x : Int := if s then -(n * d' : Nat) else (n * d' : Nat)
    let y : Int := if s' then -(n' * d : Nat) else (n' * d : Nat)
    let z := x + y
    if z = 0 then
      { val := Num.zero (if s = s' then s else mode == rdn), flags := 0 }
    else { val := .fin (decide (z < 0)) z.natAbs (d * d'), flags := 0 }

/-- a × b exactly. -/
def numMul (a b : Num) : Exact :=
  match a, b with
  | .nan _, _ => Exact.nan false [a, b]
  | _, .nan _ => Exact.nan false [a, b]
  | .inf s, .inf s' => { val := .inf (s != s'), flags := 0 }
  | .inf s, .fin s' n _ => if n = 0 then Exact.nan true [] else { val := .inf (s != s'), flags := 0 }
  | .fin s n _, .inf s' => if n = 0 then Exact.nan true [] else { val := .inf (s != s'), flags := 0 }
  | .fin s n d, .fin s' n' d' => { val := .fin (s != s') (n * n') (d * d'), flags := 0 }

/-- a / b exactly (R108). -/
def numDiv (a b : Num) : Exact :=
  match a, b with
  | .nan _, _ => Exact.nan false [a, b]
  | _, .nan _ => Exact.nan false [a, b]
  | .inf _, .inf _ => Exact.nan true []
  | .inf s, .fin s' _ _ => { val := .inf (s != s'), flags := 0 }
  | .fin s _ _, .inf s' => { val := Num.zero (s != s'), flags := 0 }
  | .fin s n d, .fin s' n' d' =>
    if n' = 0 then
      if n = 0 then Exact.nan true [] else { val := .inf (s != s'), flags := flagDZ }
    else { val := .fin (s != s') (n * d') (d * n'), flags := 0 }

/-- a × b + c exactly: 0 × Inf in the product is invalid whatever c holds (R27, R108). -/
def numFma (mode : Nat) (a b c : Num) : Exact :=
  let p := numMul a b
  if p.flags.getLsbD 4 && !(a.isNan || b.isNan) then Exact.nan true [c]
  else
    let r := numAdd mode p.val c
    { val := r.val, flags := r.flags ||| snanFlag [a, b, c] }

/-- a × 2^n. -/
def numScale (a : Num) (n : Int) : Exact :=
  match a with
  | .nan _ => Exact.nan false [a]
  | .inf s => { val := .inf s, flags := 0 }
  | .fin s m d =>
    if m = 0 then { val := .fin s 0 1, flags := 0 }
    else if 0 ≤ n then { val := .fin s (m * 2 ^ n.toNat) d, flags := 0 }
    else { val := .fin s m (d * 2 ^ (-n).toNat), flags := 0 }

/-! ### Binary formats -/

/-- A binary floating-point format of R25: widths of exponent and fraction, bias, the greatest finite code, the code of
+Inf if there is one, and the canonical NaN if there is one. -/
structure Fmt where
  ew     : Nat
  fw     : Nat
  bias   : Nat
  maxFin : Nat
  infC   : Option Nat
  nanC   : Option Nat
  narrow : Bool
  deriving DecidableEq, Repr

def fmtFp32 : Fmt := { ew := 8, fw := 23, bias := 127, maxFin := 0x7F7FFFFF, infC := some 0x7F800000, nanC := some 0x7FC00000, narrow := false }
def fmtBf16 : Fmt := { ew := 8, fw := 7, bias := 127, maxFin := 0x7F7F, infC := some 0x7F80, nanC := some 0x7FC0, narrow := false }
def fmtFp16 : Fmt := { ew := 5, fw := 10, bias := 15, maxFin := 0x7BFF, infC := some 0x7C00, nanC := some 0x7E00, narrow := false }
def fmtE5m2 : Fmt := { ew := 5, fw := 2, bias := 15, maxFin := 0x7B, infC := some 0x7C, nanC := some 0x7E, narrow := true }
def fmtE4m3 : Fmt := { ew := 4, fw := 3, bias := 7, maxFin := 0x7E, infC := none, nanC := some 0x7F, narrow := true }
def fmtE2m1 : Fmt := { ew := 2, fw := 1, bias := 1, maxFin := 0x7, infC := none, nanC := none, narrow := true }
/-- The 12-bit significand to which DL8 decodes are rounded (R32). -/
def fmtDec12 : Fmt := { ew := 8, fw := 11, bias := 127, maxFin := 0x7F7FF, infC := none, nanC := none, narrow := false }

/-- The sign bit's weight. -/
def Fmt.signBit (f : Fmt) : Nat := 2 ^ (f.ew + f.fw)

/-- The exact value of a code (R26). A NaN is signalling when its top fraction bit is 0; E4M3's NaN is quiet
(assumption 16). -/
def decodeFmt (f : Fmt) (code : Nat) : Num :=
  let mag := code % f.signBit
  let neg := code / f.signBit % 2 = 1
  if f.maxFin < mag then
    if f.infC = some mag then .inf neg
    else .nan (f.infC != none && mag / 2 ^ (f.fw - 1) % 2 = 0)
  else
    let e := mag / 2 ^ f.fw
    let m := mag % 2 ^ f.fw
    if e = 0 then Num.scaled neg m (1 - (f.bias : Int) - f.fw)
    else Num.scaled neg (2 ^ f.fw + m) ((e : Int) - f.bias - f.fw)

/-- A rounded code with its flags. -/
structure Rounded where
  code  : Nat
  flags : BitVec 5
  deriving DecidableEq, Repr

/-- Whether the magnitude n + r/d (in units, 0 < r < d) rounds up to n + 1 under a mode of R36. Under `.rsto` the upper
of the two signed neighbours is taken when the draw is below floor(p × 2^32) (R41). -/
def roundsUp (mode : Nat) (neg : Bool) (odd : Bool) (r d : Nat) (draw : Nat) : Bool :=
  if mode = rz then false
  else if mode = rdn then neg
  else if mode = rup then !neg
  else if mode = rodd then !odd
  else if mode = rsto then
    if neg then !(decide (draw < (d - r) * 2 ^ 32 / d)) else decide (draw < r * 2 ^ 32 / d)
  else if 2 * r < d then false
  else if d < 2 * r then true
  else odd

/-- floor(log2(n/d)) for n, d > 0. -/
def floorLog2 (n d : Nat) : Int :=
  let l : Int := (Nat.log2 n : Int) - Nat.log2 d
  let ge := if 0 ≤ l then d * 2 ^ l.toNat ≤ n else d ≤ n * 2 ^ (-l).toNat
  if ge then l else l - 1

/-- The code an overflow gives without saturation (R36, R37), and its flags beyond OF and NX. -/
def overflowCode (f : Fmt) (mode : Nat) (neg : Bool) : Rounded :=
  let toInf := mode = rne || mode = rsto || (mode = rdn && neg) || (mode = rup && !neg)
  if mode = rodd then { code := if f.maxFin % 2 = 1 then f.maxFin else f.maxFin - 1, flags := 0 }
  else if toInf then
    match f.infC, f.nanC with
    | some c, _ => { code := c, flags := 0 }
    | none, some c => { code := c, flags := flagNV }
    | none, none => { code := f.maxFin, flags := 0 }
  else { code := f.maxFin, flags := 0 }

/-- Whether a code carries a sign: every code but a NaN (canonical NaNs are written as they stand, R27). -/
def withSign (f : Fmt) (neg : Bool) (c : Nat) : Nat :=
  if some c = f.nanC then c else if neg then c + f.signBit else c

/-- `round_mode` of R91: an exact value brought into a format under a mode and a saturation choice, with one draw for
the formats and modes that take one (R36 to R40). UF is for a rounded result that is not zero and is below the smallest normal magnitude;
only E2M1 judges the exact result (R39; DEDUCED, assumption 89). -/
def roundFmt (f : Fmt) (mode : Nat) (sat : Bool) (draw : Nat) (x : Num) : Rounded :=
  match x with
  | .nan s =>
    match f.nanC with
    | some c => { code := c, flags := if s then flagNV else 0 }
    | none => { code := 0, flags := flagNV }
  | .inf neg =>
    if sat then { code := withSign f neg f.maxFin, flags := 0 }
    else match f.infC, f.nanC with
      | some c, _ => { code := withSign f neg c, flags := 0 }
      | none, some c => { code := c, flags := flagNV }
      | none, none => { code := withSign f neg f.maxFin, flags := 0 }
  | .fin neg n d =>
    if n = 0 then { code := withSign f neg 0, flags := 0 }
    else
      let qmin : Int := 1 - (f.bias : Int) - f.fw
      let lg := floorLog2 n d
      if f.narrow && decide (lg < qmin) then
        -- below the smallest magnitude m = 2^qmin: m with probability |x|/m (R40)
        let p := if 0 ≤ qmin then n * 2 ^ 32 / (d * 2 ^ qmin.toNat) else n * 2 ^ (-qmin).toNat * 2 ^ 32 / d
        { code := withSign f neg (if draw < p then 1 else 0), flags := flagNX ||| (if draw < p || f.ew = 2 then flagUF else 0) }
      else
        let q : Int := max qmin (lg - f.fw)
        let n' := if q < 0 then n * 2 ^ (-q).toNat else n
        let d' := if q < 0 then d else d * 2 ^ q.toNat
        let m := n' / d'
        let r := n' % d'
        let m' := if r != 0 && roundsUp mode neg (m % 2 = 1) r d' draw then m + 1 else m
        let code := (q - qmin).toNat * 2 ^ f.fw + m'
        if f.maxFin < code then
          let o := if sat && mode != rodd then { code := f.maxFin, flags := 0 } else overflowCode f mode neg
          { code := withSign f neg o.code, flags := o.flags ||| flagOF ||| flagNX }
        else
          let nx := if r = 0 then noFlags else flagNX
          let tiny := decide (code < 2 ^ f.fw) && code != 0 && r != 0 && !(f.ew = 2)
          { code := withSign f neg code, flags := nx ||| (if tiny then flagUF else 0) }

/-- An exact value rounded to an integer under a mode of R36, and whether it was inexact. -/
def roundInt (mode : Nat) (draw : Nat) (neg : Bool) (n d : Nat) : Int × Bool :=
  let m := n / d
  let r := n % d
  let m' := if r != 0 && roundsUp mode neg (m % 2 = 1) r d draw then m + 1 else m
  (if neg then -(m' : Int) else (m' : Int), r != 0)

/-- floor of an exact finite value. -/
def floorNum (neg : Bool) (n d : Nat) : Int := (roundInt rdn 0 neg n d).1

/-! ### FP32 shorthands used by the engines -/

def decF32 (w : Word) : Num := decodeFmt fmtFp32 w.toNat
/-- `round_rne` to FP32, the code alone. -/
def rneF32 (x : Num) : Word := BitVec.ofNat 32 (roundFmt fmtFp32 rne false 0 x).code

/-! ### DL8 (R30 to R33) -/

/-- The marker position's z, and the widths ew and fw of the rest (R30), for bits [6:0] at least 2. -/
def dl8Shape (m : Nat) : Nat × Nat × Nat :=
  if 0x40 ≤ m then (0, 1, 5)
  else if 0x20 ≤ m then (1, 2, 3)
  else if 0x10 ≤ m then (2, 2, 2)
  else if 0x08 ≤ m then (3, 2, 1)
  else if 0x04 ≤ m then (4, 2, 0)
  else (5, 1, 0)

/-- The decade of (z, e) in the table of R30, plus 10. -/
def dl8Decade (z e : Nat) : Nat :=
  match z, e with
  | 0, 0 => 10
  | 0, _ => 9
  | 1, 0 => 11
  | 1, 1 => 8
  | 1, 2 => 12
  | 1, _ => 7
  | 2, 0 => 13
  | 2, 1 => 6
  | 2, 2 => 14
  | 2, _ => 5
  | 3, 0 => 15
  | 3, 1 => 4
  | 3, 2 => 16
  | 3, _ => 3
  | 4, 0 => 17
  | 4, 1 => 2
  | 4, 2 => 18
  | 4, _ => 1
  | _, 0 => 19
  | _, _ => 0

/-- The magnitude of a finite DL8 code in units of 10^−10 / 32. -/
def dl8Units (m : Nat) : Nat :=
  let (z, ew, fw) := dl8Shape m
  let rest := m % 2 ^ (ew + fw)
  let e := rest / 2 ^ fw
  let f := rest % 2 ^ fw
  (2 ^ fw + 9 * f) * 2 ^ (5 - fw) * 10 ^ dl8Decade z e

/-- Whether a DL8 code counts as even: its fraction LSB is 0, or it has no fraction (R33). -/
def dl8Even (m : Nat) : Bool := m < 0x08 || m % 2 = 0

/-- `decode_dl8` (R32): an FP32 code. -/
def decodeDl8 (c : Nat) : Word :=
  let m := c % 128
  let neg := c / 128 % 2 = 1
  if m = 0 then (if neg then 0x7FC00000 else 0)
  else if m = 1 then (if neg then 0xFF800000 else 0x7F800000)
  else
    let r := roundFmt fmtDec12 rne false 0 (.fin false (dl8Units m) (32 * 10 ^ 10))
    BitVec.ofNat 32 (r.code * 2 ^ 12 + (if neg then 2 ^ 31 else 0))

/-- The finite non-zero codes 2 to 127. -/
def dl8Codes : List Nat := (List.range 126).map (· + 2)

/-- The greatest code magnitude not above X/d units, as (units, code). -/
def dl8Below (x d : Nat) : Nat × Nat :=
  dl8Codes.foldl (fun best m => let v := dl8Units m; if v * d ≤ x && best.1 < v then (v, m) else best) (0, 0)

/-- The least code magnitude not below x/d units, as (units, code); (0, 0) when there is none. -/
def dl8Above (x d : Nat) : Nat × Nat :=
  dl8Codes.foldl (fun best m => let v := dl8Units m; if x ≤ v * d && (best.1 = 0 || v < best.1) then (v, m) else best) (0, 0)

/-- `encode_dl8` (R33, R40). -/
def encodeDl8 (mode : Nat) (sat : Bool) (draw : Nat) (x : Num) : Rounded :=
  let signed (neg : Bool) (c : Nat) : Nat := if neg then c + 0x80 else c
  match x with
  | .nan s => { code := 0x80, flags := if s then flagNV else 0 }
  | .inf neg => { code := signed neg (if sat then 0x02 else 0x01), flags := 0 }
  | .fin neg n d =>
    if n = 0 then { code := 0, flags := 0 }
    else
      let u := n * (32 * 10 ^ 10)       -- the magnitude is u/d units
      if u < 32 * d then
        -- below 10^−10: code 0x03 with probability |x| / 10^−10
        { code := if draw < u * 2 ^ 32 / (32 * d) then signed neg 0x03 else 0, flags := flagNX ||| flagUF }
      else
        let top := 32 * 10 ^ 19          -- 10^9 in units
        let ovr : Rounded :=
          let toInf := mode = rne || mode = rsto || (mode = rdn && neg) || (mode = rup && !neg)
          { code := signed neg (if toInf && !sat then 0x01 else 0x02), flags := flagOF ||| flagNX }
        if top * d < u then
          if 10 * top * d ≤ u then ovr
          else
            let r := u - top * d
            let s := 9 * top * d
            -- both neighbours count as even, so a tie takes the larger magnitude
            if roundsUp mode neg true r s draw then ovr else { code := signed neg 0x02, flags := flagNX }
        else
          let lo := dl8Below u d
          let hi := dl8Above u d
          if lo.1 * d = u then { code := signed neg lo.2, flags := 0 }
          else
            let r := u - lo.1 * d
            let s := (hi.1 - lo.1) * d
            let up := roundsUp mode neg (!(dl8Even lo.2) || dl8Even hi.2) r s draw
            { code := signed neg (if up then hi.2 else lo.2), flags := flagNX }

/-! ### MXFP4 (R28, R29) -/

/-- The value of an E8M0 scale code. -/
def decodeE8m0 (k : Nat) : Num := if k = 255 then .nan false else Num.scaled false 1 ((k : Int) - 127)

/-- An MXFP4 element under its scale. -/
def decodeMx4 (el k : Nat) : Num :=
  match decodeE8m0 k with
  | .nan _ => .nan false
  | sc => (numMul (decodeFmt fmtE2m1 el) sc).val

/-- The block scale of R29 steps 1 to 3; `none` for a block with a NaN or an infinity. -/
def mx4Scale (xs : List Num) : Option Nat :=
  if xs.any (fun x => x.isNan || x.isInf) then none
  else
    let e := xs.foldl (fun (best : Option Int) x =>
      match x with
      | .fin _ n d => if n = 0 then best else
          let l := floorLog2 n d
          match best with
          | none => some l
          | some b => some (max b l)
      | _ => best) none
    match e with
    | none => some 0
    | some l => some ((max (-127) (min 127 (l - 2))) + 127).toNat

/-- `encode_mx4_block` (R29): the scale code and the element codes, with one draw for each element. -/
def encodeMx4 (mode : Nat) (draws : List Nat) (xs : List Num) : Nat × List Nat :=
  match mx4Scale xs with
  | none => (255, xs.map (fun _ => 0))
  | some k =>
    (k, (xs.zip draws).map (fun p => (roundFmt fmtE2m1 mode true p.2 (numScale p.1 (127 - (k : Int))).val).code))

/-! ### The stochastic source (R41) -/

def m64 : Nat := 2 ^ 64

def srDraw (seed key ctr : Nat) : Nat :=
  let x := (seed % m64) ^^^ (key * 0xC6E15A932D7BF08D % m64) ^^^ (ctr * 0x8F3D91B4E7260A5B % m64)
  let x := x ^^^ (x >>> 29)
  let x := x * 0xD3A71C5B6E08F4A3 % m64
  let x := x ^^^ (x >>> 32)
  let x := x * 0x9B1D4E63A5C27F19 % m64
  let x := x ^^^ (x >>> 31)
  x % 2 ^ 32

/-- The key of an engine's draws: 2^63 plus the operation identity (R43). -/
def engineKey (opId : Nat) : Nat := (2 ^ 63 + opId) % m64

/-! ### Maximum with index (R46, R47) -/

/-- The element types of `xmaxi` and `atom.maxi`. -/
inductive MaxiTy where
  | float | signed | unsigned
  deriving DecidableEq, Repr

def maxiKey (ty : MaxiTy) (x : Nat) : Nat :=
  match ty with
  | .float =>
    if (decodeFmt fmtFp32 x).isNan then 0
    else if x / 2 ^ 31 % 2 = 1 then x ^^^ 0xFFFFFFFF else x ^^^ 0x80000000
  | .signed => x ^^^ 0x80000000
  | .unsigned => x

def maxiPack (ty : MaxiTy) (x i : Nat) : Nat := maxiKey ty x * 2 ^ 32 + (0xFFFFFFFF - i)

/-- The value and the index of a packed key. -/
def maxiUnpack (ty : MaxiTy) (p : Nat) : Nat × Nat :=
  let k := p / 2 ^ 32 % 2 ^ 32
  let i := 0xFFFFFFFF - p % 2 ^ 32
  match ty with
  | .float =>
    (if k = 0 then 0x7FC00000 else if k / 2 ^ 31 % 2 = 1 then k ^^^ 0x80000000 else k ^^^ 0xFFFFFFFF, i)
  | .signed => (k ^^^ 0x80000000, i)
  | .unsigned => (k, i)

end Sys2Proof.Machine
end

