-- ==== Sys2Proof/Machine/Threads.lean ====
section
/-! DEFINITION. Threads and PC groups (spec/06_threads_strands_crews.md R131 to R139): parking and release, the current
group and its selection, waiting and waking. -/

namespace Sys2Proof.Machine

/-- A meeting register that means no meeting (R132). -/
def noMeeting : Word := 1

/-- The threads that may issue: running ones, and in handler mode only those of the handler group (R131, R427). -/
def Strand.runnable (t : Strand) : Mask :=
  let r := t.lanesWhere Thread.isRunning
  if t.inHandler then r &&& t.handler else r

/-- The runnable threads whose program counter equals lane l's (R131). -/
def Strand.groupOf (t : Strand) (l : Nat) : Mask :=
  maskOf (fun k => laneOn t.runnable k && (t.thread k).pc = (t.thread l).pc)

/-- The lowest lanes of the PC groups. -/
def Strand.groupLows (t : Strand) : List Nat := (lanesOf t.runnable).filter (fun l => lowLane (t.groupOf l) = l)

/-- The next runnable group after one whose lowest lane was `prev` (R135): the smallest lowest lane above it, else the
smallest of all. 0 when no thread is runnable. -/
def Strand.nextGroup (t : Strand) (prev : Nat) : Mask :=
  let lows := t.groupLows
  match lows.find? (fun l => prev < l) with
  | some l => t.groupOf l
  | none => match lows with
    | l :: _ => t.groupOf l
    | [] => 0

/-- A selection event: the next runnable group becomes current and the fairness timer restarts (R135, R136). -/
def Strand.selectNext (t : Strand) : Strand :=
  let g := t.nextGroup t.lastLow
  { t with group := g, lastLow := if g = 0 then t.lastLow else lowLane g, timer := 0 }

/-- Threads of `m` whose program counter has come to equal their meeting register park, unless the strand is in its
handler (R133, R427). -/
def Strand.parkLanes (t : Strand) (m : Mask) : Strand :=
  if t.inHandler then t
  else t.modThreads m (fun _ x =>
    if x.state = .running && x.meeting ≠ noMeeting && BitVec.truncate 32 x.pc = x.meeting then { x with state := .parked } else x)

/-- Whether every sibling of lane l is parked or exited (R132, R133). -/
def Strand.meetingMet (t : Strand) (l : Nat) : Bool :=
  laneIds.all (fun k => (t.thread k).meeting ≠ (t.thread l).meeting || (t.thread k).isParked || (t.thread k).isExited)

/-- MEETING_RELEASE: parked threads all of whose siblings are parked or exited become running together (R133). While the
strand is in its handler nothing is released (R426). -/
def Strand.releaseMet (t : Strand) : Strand :=
  if t.inHandler then t
  else { t with threads := t.threads.mapi (fun l x => if x.isParked && t.meetingMet l then { x with state := .running } else x) }

/-- Whether an issue unit is between two of its words, or between two iterations of a run that a save has interrupted, when no
selection takes place (R76, R81). -/
def Strand.midUnit (t : Strand) : Bool := t.unit.words ≠ 0 || t.repHeld.isSome

/-- The current group after threads have become running at a unit boundary: with no current group the next runnable one
is chosen; a group that has merged with the current one joins it (R131, R135). -/
def Strand.regroup (t : Strand) : Strand :=
  if t.midUnit then t
  else
    let g := t.group &&& t.runnable
    if g = 0 then t.selectNext
    else
      let g' := t.groupOf (lowLane g)
      if g' = t.group then t
      else { t with group := g', lastLow := lowLane g', timer := if g' = g then t.timer else 0 }

/-- A thread has become running: a strand with no current group chooses one (R135). A group that it joins is joined when
the strand next issues. -/
def Strand.regroupIdle (t : Strand) : Strand := if t.midUnit || t.group &&& t.runnable ≠ 0 then t else t.selectNext

/-- The selection at the end of an issue unit (R135), after the threads of the old current group `old` have their new
program counters and states, `kept` being those still to issue (running and not just parked). A group that split keeps
the part holding its lowest lane, and the timer goes on; a merge, or a group that parked, waits or exited whole, is a
selection event that restarts it. -/
def Strand.afterUnit (t : Strand) (old kept : Mask) : Strand :=
  let keep := kept &&& t.runnable
  if keep = 0 then
    let t := { t with lastLow := lowLane old }
    let g := t.nextGroup t.lastLow
    { t with group := g, lastLow := if g = 0 then t.lastLow else lowLane g, timer := 0 }
  else
    let g := t.groupOf (lowLane keep)
    { t with group := g, lastLow := lowLane g, timer := if (g &&& ~~~old) = 0 then t.timer else 0 }

/-- Parking, release and selection at the end of a unit issued by `old`. -/
def Strand.settle (t : Strand) (old : Mask) : Strand :=
  let t1 := t.parkLanes old
  let kept := maskOf (fun l => laneOn old l && (t1.thread l).isRunning)
  let t2 := t1.releaseMet
  t2.afterUnit old kept

/-- The threads of `m` become running (R134); one whose program counter already equals its meeting register parks
instead, as R133 has it before it executes the word there. A thread held by a handler becomes runnable only at `rtt`
(R426): until then it waits on an interval that has ended. -/
def Strand.wakeLanes (t : Strand) (m : Mask) : Strand :=
  let held := if t.inHandler then m &&& ~~~t.handler else 0
  let now := m &&& ~~~held
  let t0 := t.modThreads held (fun _ x => { x with state := .waiting (.sleep 0) })
  let t1 := t0.modThreads now (fun _ x => { x with state := .running })
  ((t1.parkLanes now).releaseMet).regroupIdle

/-- The threads of `m` begin to wait (R134). -/
def Strand.waitLanes (t : Strand) (m : Mask) (w : Wait) : Strand :=
  t.modThreads m (fun _ x => { x with state := .waiting w })

/-- A strand with a runnable thread is ready (R137). -/
def Strand.ready (t : Strand) : Bool := t.runnable ≠ 0 && !t.ended

/-- Program counters of `m` moved on by `n` words. -/
def Strand.advance (t : Strand) (m : Mask) (n : Nat) : Strand :=
  t.modThreads m (fun _ x => { x with pc := x.pc + BitVec.ofNat 57 (4 * n) })

end Sys2Proof.Machine
end

