-- ==== Sys2Proof/Machine/Vm.lean ====
section
/-! DEFINITION. Address translation (spec/16_translation_and_residency.md R350 to R370): page table entries, page
formats and block scales, the TLB and last-page registers, misses and walks. -/

namespace Sys2Proof.Machine

/-! ### Entries (R351, R352) -/

def pteBit (e : DWord) (i : Nat) : Bool := e.getLsbD i
def pteV (e : DWord) : Bool := pteBit e 0
def pteP (e : DWord) : Bool := pteBit e 1
def pteL (e : DWord) : Bool := pteBit e 2
def pteR (e : DWord) : Bool := pteBit e 3
/-- Write permission: a translation with RODL = 1 is refused as if W were 0 (R357). -/
def pteW (e : DWord) : Bool := pteBit e 4 && !pteBit e 9
def pteX (e : DWord) : Bool := pteBit e 5
def pteA (e : DWord) : Bool := pteBit e 6
def pteHome (e : DWord) : Nat := bitsOf e.toNat 7 2
def pteRodl (e : DWord) : Bool := pteBit e 9
def pteFmt (e : DWord) : Nat := bitsOf e.toNat 10 6
def pteGeom (e : DWord) : Nat := bitsOf e.toNat 16 4
def pteSoff (e : DWord) : Nat := bitsOf e.toNat 20 12
def ptePpn (e : DWord) : Nat := bitsOf e.toNat 32 32

/-- Element size of a page format in bits (R354); untyped counts as 32. -/
def fmtBits (fmt : Nat) : Nat :=
  match fmt with
  | 2 | 3 | 10 | 11 => 16
  | 4 | 5 | 7 | 8 | 9 | 18 => 8
  | 6 | 14 | 16 | 17 => 4
  | _ => 32

def fmtScaled (fmt : Nat) : Bool := fmt = 16 || fmt = 17 || fmt = 18
def fmtReserved (fmt : Nat) : Bool := fmt = 15 || 19 ≤ fmt

/-- Elements per block and bytes per scale of a GEOM code (R355). -/
def geomLen (g : Nat) : Nat := match g % 4 with | 0 => 32 | 1 => 16 | 2 => 64 | _ => 128
def geomScaleSize (g : Nat) : Nat := if g / 4 = 0 then 1 else 2

/-- Whether GEOM and SOFF suit FMT (R355). -/
def geomOk (fmt geom soff : Nat) : Bool :=
  if fmtScaled fmt then
    geom / 4 < 2 && soff ≠ 0 && (fmt ≠ 16 || geom = 0)
      && decide (16384 * 8 / fmtBits fmt / geomLen geom * geomScaleSize geom ≤ 1024)
  else geom = 0 && soff = 0

/-- Whether an entry read at a level is a valid leaf (R352). -/
def validLeaf (level : Nat) (e : DWord) : Bool :=
  pteV e && pteL e && 1 ≤ level && level ≤ 3 && pteHome e ≠ 3 && !fmtReserved (pteFmt e)
    && geomOk (pteFmt e) (pteGeom e) (pteSoff e)
    && (level = 3 || (level = 2 && ptePpn e % 2 ^ 11 = 0) || (level = 1 && ptePpn e % 2 ^ 22 = 0))

/-- log2 of the page size of a leaf at a level (R350). -/
def pageShift (level : Nat) : Nat := match level with | 1 => 36 | 2 => 25 | _ => 14

/-- The page number of an address: its bits [56:14] (R350). -/
def pageNo (va : Nat) : Nat := va / 2 ^ 14 % 2 ^ 43

def Trans.covers (tr : Trans) (ctx va : Nat) : Bool :=
  tr.ctx = ctx && tr.base.toNat / 2 ^ pageShift tr.level = va / 2 ^ pageShift tr.level

/-- The translation that a leaf gives the page of an address. -/
def Trans.ofLeaf (ctx va level : Nat) (e : DWord) : Trans :=
  { ctx := ctx, base := BitVec.ofNat 57 (va / 2 ^ pageShift level * 2 ^ pageShift level), level := level, entry := e }

/-- Two translations whose pages overlap. -/
def Trans.overlaps (a b : Trans) : Bool :=
  let k := max (pageShift a.level) (pageShift b.level)
  a.base.toNat / 2 ^ k = b.base.toNat / 2 ^ k

/-- Where host memory and a peer's memory lie among the keys of the one global memory (R353). -/
def hostBase : Nat := 2 ^ 64
def peerBase (rank : Nat) : Nat := 2 ^ 65 + rank * 2 ^ 40

/-- The physical address of a virtual one (R353). -/
def Trans.pa (tr : Trans) (va : Nat) : Nat :=
  let ppn := ptePpn tr.entry
  let off := va % 2 ^ pageShift tr.level
  match pteHome tr.entry with
  | 1 => hostBase + ppn * 2 ^ 14 + off
  | 2 => peerBase (ppn / 2 ^ 26) + ppn % 2 ^ 26 * 2 ^ 14 + off
  | _ => ppn * 2 ^ 14 + off

/-- An address is misaligned when bits [63:57] are set (R197). -/
def vaBad (va : Nat) : Bool := va / 2 ^ 57 ≠ 0

/-! ### Page formats -/

/-- The exact value of an element's bits in an unscaled format (R26, R201, R32). -/
def fmtValue (fmt bits : Nat) : Num :=
  match fmt with
  | 2 => decodeFmt fmtFp16 bits
  | 3 => decodeFmt fmtBf16 bits
  | 4 => decodeFmt fmtE4m3 bits
  | 5 => decodeFmt fmtE5m2 bits
  | 6 | 16 => decodeFmt fmtE2m1 bits
  | 7 => decF32 (decodeDl8 bits)
  | 8 | 18 => Num.ofInt (sextInt bits 8)
  | 9 => Num.ofInt (bits % 256)
  | 10 => Num.ofInt (sextInt bits 16)
  | 11 => Num.ofInt (bits % 65536)
  | 12 => Num.ofInt (sextInt bits 32)
  | 13 => Num.ofInt (bits % 2 ^ 32)
  | 14 | 17 => Num.ofInt (sextInt bits 4)
  | _ => decodeFmt fmtFp32 bits

/-- The value of a block scale (R28, R355): a NaN or infinite FP16 scale makes every element NaN. -/
def scaleValue (geom bits : Nat) : Num :=
  if geom / 4 = 0 then decodeE8m0 bits
  else match decodeFmt fmtFp16 bits with
    | .inf _ => .nan false
    | .nan _ => .nan false
    | x => x

/-- An element under its block scale: a zero element keeps the product's sign (assumption 14). -/
def scaledValue (fmt geom bits scale : Nat) : Num :=
  match scaleValue geom scale with
  | .nan _ => .nan false
  | sc => (numMul (fmtValue fmt bits) sc).val

/-- The address of the scale of an element on a scaled page (R355). -/
def scaleAddr (e : DWord) (va : Nat) : Nat :=
  let o := va % 2 ^ 14
  let blk := o * 8 / (fmtBits (pteFmt e) * geomLen (pteGeom e))
  let n : Int := pageNo va
  let spage := (n - n % 16 + sextInt (pteSoff e) 12)
  (wrapNat (spage * 2 ^ 14 + 1024 * (n % 16)) 57 + blk * geomScaleSize (pteGeom e)) % 2 ^ 57

/-! ### Looking up a translation -/

/-- What is known of an address: a valid translation, none, or nothing yet. -/
inductive Lookup where
  | found (tr : Trans)
  | invalid
  | miss
  deriving DecidableEq, Repr

/-- Access kinds (R364). -/
def kindRead : BitVec 5 := 1
def kindWrite : BitVec 5 := 2
def kindExec : BitVec 5 := 4
def kindAtomic : BitVec 5 := 8
def kindEngine : BitVec 5 := 16

/-- The kinds of an engine's reads and writes: bit 4 with bit 0 or bit 1 (R364). -/
def kindEngineRead : BitVec 5 := kindEngine ||| kindRead
def kindEngineWrite : BitVec 5 := kindEngine ||| kindWrite

/-- Translation for a strand on a core: the answers of its walks (R368), a last-page register, then the TLB (R361, R362). A walk that
gave none leaves its elements with no valid translation, whatever it installed (R365). -/
def lookupTrans (co : Core) (answers : List WalkAnswer) (last : Option Trans) (ctx va : Nat) : Lookup :=
  match answers.find? (fun a => a.page = pageNo va) with
  | some a => match a.entry with
    | some tr => if tr.covers ctx va then .found tr else .invalid
    | none => .invalid
  | none => match last with
    | some tr => if tr.covers ctx va then .found tr else lookupCore
    | none => lookupCore
where
  lookupCore : Lookup :=
    match co.tlb.find? (fun tr => tr.covers ctx va) with
    | some tr => .found tr
    | none => .miss

/-- The walker crew's identity on a core (R363). -/
def walkerId (core : Nat) : Nat := 2 ^ 32 + core

/-- The lowest strand numbers free on a core (R137). -/
def State.numsUsed (s : State) (core : Nat) : List Nat :=
  (s.crews.filter (fun c => c.core = core && c.state = .resident)).flatMap
    (fun c => (c.strands.filter (fun t => c.walker || !t.ended)).map Strand.num)

def freeNums (used : List Nat) (n : Nat) : List Nat := ((List.range 512).filter (fun k => !used.contains k)).take n

def uniformReg (w : Word) : Reg := { tag := .uniform, lanes := L8.all w, loc := 0, bad := false }
def affineReg (base stride : Nat) : Reg :=
  { tag := .affine, lanes := L8.ofFn (fun l => BitVec.ofNat 32 (base + stride * l)), loc := 0, bad := false }

/-- The two halves of a 64-bit value as uniform registers. -/
def uniformPair (x : DWord) : List Reg := [uniformReg (BitVec.truncate 32 x), uniformReg (BitVec.truncate 32 (x >>> 32))]

def Thread.entry (pc : VAddr) : Thread :=
  { pc := pc, meeting := noMeeting, state := .running, draws := 0, copies := 0, swDraws := 0, tx := .none, query := .none,
    lastPage := none, acts := none }

/-- A strand at entry (R143): all eight threads running in one PC group. -/
def Strand.entry (idx num : Nat) (regs : List Reg) (pc : VAddr) : Strand :=
  { idx := idx, num := num, regs := regs, preds := (L8.all 0).set 0 0xFF, threads := L8.all (Thread.entry pc),
    group := 0xFF, lastLow := 0, timer := 0, active := false, activeFor := 0, outSince := none, readyAt := 0, turnAt := 0, unit := .fresh, resume := false, repHeld := none,
    partMask := none, fflags := 0, repleft := 0, emerg := false, grow := none, growAge := 0, fldev := 0, trap := .none,
    handler := 0, deferred := [], inflight := [], nextOp := 0, answers := [], waita := none, qstill := 0, stale := [], acq := false, locked := 0, ended := false }

/-- A walker strand with no walk (R363): it keeps its number and its sixteen registers. -/
def idleWalker (idx num : Nat) : Strand :=
  { Strand.entry idx num (List.replicate 16 (uniformReg 0)) 0 with ended := true, group := 0 }

/-- The strand that runs walk `k` (R364). Its program counter is a physical address. -/
def walkerStrand (s : State) (k num : Nat) (w : Walk) : Strand :=
  let x := s.ctx w.ctx
  let z := uniformReg 0
  let regs := [affineReg 0 1, z, z, z] ++ uniformPair (BitVec.ofNat 64 w.va.toNat) ++ uniformPair x.ptroot ++ uniformPair x.walkArg
    ++ [uniformReg (BitVec.ofNat 32 w.kind.toNat), uniformReg (BitVec.ofNat 32 w.ctx), uniformReg (BitVec.ofNat 32 k), z, z, z]
  Strand.entry k num regs (BitVec.truncate 57 x.walkPc)

/-! ### Event records (R360) -/

def evRingSize (x : Context) : Nat := 2 ^ (x.evLog.toNat + 4)
def evFull (x : Context) : Bool := (x.evHead - x.evTail).toNat = evRingSize x

/-- The 32 bytes of a record. -/
def evRecord (type core walk a b c : Nat) : List Byte :=
  leBytes 4 (type + core * 2 ^ 8 + walk * 2 ^ 16) ++ leBytes 4 0 ++ leBytes 8 a ++ leBytes 8 b ++ leBytes 8 c

/-- A record put into the ring of a context that has room; the context's vector is raised (R376). -/
def State.writeEvent (s : State) (x : Nat) (rec : List Byte) : State :=
  let cx := s.ctx x
  let pa := hostBase + cx.evBase.toNat + 32 * (cx.evHead.toNat % evRingSize cx)
  (({ s with mem := Memory.writeBytes s.mem pa rec }).setCtx x { cx with evHead := cx.evHead + 1 }).emit (.msix x)

/-- A record of type 1 to 4 waits for room (R360): it queues behind the records that wait already. -/
def State.postEvent (s : State) (x : Nat) (rec : List Byte) : State :=
  let cx := s.ctx x
  if evFull cx || !cx.evWait.isEmpty then s.setCtx x { cx with evWait := cx.evWait ++ [rec] } else s.writeEvent x rec

/-- A record of type 5 or 6 is lost when the ring is full (R360). -/
def State.tryEvent (s : State) (x : Nat) (rec : List Byte) : State :=
  if evFull (s.ctx x) then s else s.writeEvent x rec

/-- Records that waited and now have room, in order. -/
def State.flushEvents (s : State) (x : Nat) (fuel : Nat) : State :=
  match fuel with
  | 0 => s
  | n + 1 =>
    match (s.ctx x).evWait with
    | [] => s
    | rec :: rest =>
      if evFull (s.ctx x) then s
      else ((s.modCtx x (fun c => { c with evWait := rest })).writeEvent x rec).flushEvents x n

/-! ### Walks (R363 to R369) -/

/-- A queued miss starts its walk while the core has one free (R363): in hardware mode in the walker crew's strand of the
same number, in host-assisted mode with a record of type 1 (R365). -/
def State.serveMisses (s : State) (core : Nat) (fuel : Nat) : State :=
  match fuel with
  | 0 => s
  | n + 1 =>
    let co := s.core core
    match co.misses, [0, 1, 2, 3].find? (fun k => co.walks.all (fun w => w.num ≠ k)) with
    | m :: rest, some k =>
      let host := (s.ctx m.ctx).assist.getLsbD 0
      let w : Walk := { num := k, ctx := m.ctx, va := m.va, kind := m.kind, joined := m.joined, result := none, again := false, host := host }
      let s1 := s.setCore core { co with misses := rest, walks := co.walks ++ [w] }
      let s2 :=
        if host then s1.postEvent m.ctx (evRecord 1 core k m.va.toNat 0 0)
        else
          -- a walker starts with progress on (R364; the four share the crew's `ctl.progress`, assumption 75)
          (s1.modCrew (walkerId core) (fun c => { c with progress := true })).modStrand (walkerId core) k (fun t => walkerStrand s1 k t.num w)
      s2.serveMisses core n
    | _, _ => s

/-- A miss of a strand: it joins a walk or a queued miss on the same page, else it queues (R363). -/
def State.missOn (s : State) (core ctx : Nat) (va : Nat) (kind : BitVec 5) (who : Nat × Nat) : State :=
  let co := s.core core
  let same (x : Nat) (v : VAddr) : Bool := x = ctx && pageNo v.toNat = pageNo va
  let add (j : List (Nat × Nat)) : List (Nat × Nat) := if j.contains who then j else j ++ [who]
  if co.walks.any (fun w => same w.ctx w.va && !w.again) then
    s.setCore core { co with walks := co.walks.map (fun w => if same w.ctx w.va && !w.again then { w with joined := add w.joined } else w) }
  else if co.misses.any (fun m => same m.ctx m.va) then
    s.setCore core { co with misses := co.misses.map (fun m => if same m.ctx m.va then { m with joined := add m.joined } else m) }
  else
    (s.setCore core { co with misses := co.misses ++ [{ ctx := ctx, va := BitVec.ofNat 57 va, kind := kind, joined := [who] }] }).serveMisses core 4

/-- Whether a core keeps a walker crew (R363): a crew of a hardware-walking context is resident, or a hardware walk is open. -/
def State.keepsWalker (s : State) (core : Nat) : Bool :=
  (s.residentOn core).any (fun c => !c.walker && !((s.ctx c.ctx).assist.getLsbD 0)) || (s.core core).walks.any (fun w => !w.host)

/-- A walker crew that is no longer called for is removed (R363). -/
def State.trimWalker (s : State) (core : Nat) : State :=
  if s.keepsWalker core then s else { s with crews := s.crews.filter (fun c => c.id ≠ walkerId core) }

/-- A walk ends: the strands that joined it get its result, unless it must be translated again (R368); the walk's strand
is freed and queued misses are served. -/
def State.endWalk (s : State) (core num : Nat) : State :=
  let co := s.core core
  match co.walks.find? (fun w => w.num = num) with
  | none => s
  | some w =>
    let ans : WalkAnswer := { page := pageNo w.va.toNat, entry := w.result }
    let s1 := s.setCore core { co with walks := co.walks.filter (fun x => x.num ≠ num) }
    let s2 := if w.again then s1
      else w.joined.foldl (fun st j => st.modStrand j.1 j.2 (fun t => { t with answers := ans :: t.answers.filter (fun a => a.page ≠ ans.page) })) s1
    let s3 := if w.host then s2
      else s2.modStrand (walkerId core) num (fun t => idleWalker t.idx t.num)
    (s3.serveMisses core 4).trimWalker core

/-- Last-page registers of a context emptied where `p` holds, on one core (R369, R370). -/
def State.emptyLast (s : State) (core ctx : Nat) (p : Trans → Bool) : State :=
  { s with crews := s.crews.map (fun c =>
      if c.core = core && c.ctx = ctx && c.state = .resident then
        { c with strands := c.strands.map (fun t =>
            { t with threads := t.threads.mapi (fun _ x => { x with lastPage := match x.lastPage with
              | some tr => if p tr then none else some tr
              | none => none }) }) }
      else c) }

/-- A translation put into a TLB of 128 sets of 8 (R361): a full set loses its oldest entry. DESIGN CHOICE (assumption 74): the set of
an entry is open, and so is the entry replaced; the agenda's `evictTlb` removes any other. -/
def tlbInsert (tlb : List Trans) (tr : Trans) : List Trans :=
  if tlb.length < 8 then tr :: tlb
  else
    let same := tlb.filter (fun o => Config.tlbSet o % 128 = Config.tlbSet tr % 128)
    match same[7]? with
    | none => tr :: tlb
    | some old => tr :: tlb.filter (fun o => o ≠ old)

/-- `tlbw` (R367): a valid leaf installed on a core for a context, replacing what it overlaps; the walk's result when the
page covers the walk's address. A walk that an invalidation has reached installs nothing, since what it has read may be old (R368,
R370). -/
def State.installLeaf (s : State) (core ctx : Nat) (walk : Option Nat) (va level : Nat) (e : DWord) : State :=
  if !validLeaf level e || (s.core core).walks.any (fun w => some w.num = walk && w.again) then s
  else
    let tr := Trans.ofLeaf ctx va level e
    let co := s.core core
    let walks := co.walks.map (fun w => if some w.num = walk && tr.covers w.ctx w.va.toNat then { w with result := some tr } else w)
    let s1 := s.setCore core { co with tlb := tlbInsert (co.tlb.filter (fun o => o.ctx ≠ ctx || !(tr.overlaps o))) tr, walks := walks }
    s1.emptyLast core ctx (fun o => tr.overlaps o)

/-- Steps 2 to 5 of R369 on one core: `p` says which translations of the context go. -/
def State.invalidateCore (s : State) (core ctx : Nat) (tlb : Bool) (p : Trans → Bool) : State :=
  let co := s.core core
  let co1 := { co with
    tlb := if tlb then co.tlb.filter (fun o => o.ctx ≠ ctx || !(p o)) else co.tlb,
    naming := co.naming.killLoads,
    walks := if tlb then co.walks.map (fun w => if w.ctx = ctx then { w with again := true } else w) else co.walks }
  (s.setCore core co1).emptyLast core ctx p

/-- Invalidation on one core or on every enabled core. -/
def State.invalidate (s : State) (cores : List Nat) (ctx : Nat) (tlb : Bool) (p : Trans → Bool) : State :=
  let s1 := cores.foldl (fun st k => st.invalidateCore k ctx tlb p) s
  -- answers not yet used by a strand of the context are translated again
  if tlb then { s1 with crews := s1.crews.map (fun c => if c.ctx = ctx && cores.contains c.core then
      { c with strands := c.strands.map (fun t => { t with answers := [] }) } else c) } else s1

def State.enabledCores (s : State) : List Nat := (List.range 64).filter (fun k => (s.core k).enabled)

end Sys2Proof.Machine
end

