-- ==== Sys2Proof/Machine/Mem.lean ====
section
/-! DEFINITION. Global memory and the local buffers (spec/08_memory_model.md R171 to R182): home slices, word ownership,
L1, the kick space, waking `waita`, window dirty marks, and uncorrectable errors. -/

namespace Sys2Proof.Machine

/-! ### Where memory is -/

/-- The kick window (R377). -/
def kickBase : Nat := 0x3FFFFFC00000
def kickEnd : Nat := 0x3FFFFFC40000
def inKick (pa : Nat) : Bool := kickBase ≤ pa && pa < kickEnd

/-- Whether there is memory at a physical address (R455, R460); host and peer memory always answers. -/
def State.hasMemory (s : State) (pa : Nat) : Bool :=
  hostBase ≤ pa || (pa < s.dev.memSize.toNat && !s.dev.retired.contains (pa / 2 ^ 14))

/-- The coherence-latest bytes at a physical address. -/
def State.peekBytes (s : State) (pa n : Nat) : List Byte :=
  if s.hasMemory pa then Memory.readBytes s.mem pa n else List.replicate n 0

def State.peek (s : State) (pa n : Nat) : Nat := leNat (s.peekBytes pa n)

/-- The memory channel that a device address lies on (R460): address a lies on the enabled channel of rank floor(a / 256) mod n. -/
def Device.channelOf (d : Device) (pa : Nat) : Option Nat :=
  let on := (List.range 16).filter (fun c => d.capChan.getLsbD c && !d.softChan.getLsbD c)
  on[pa / 256 % on.length]?

/-- Whether a read of a range meets an uncorrectable error of a protected 32-byte unit (R434): a retired page is never read (R455). -/
def State.bad (s : State) (pa n : Nat) : Bool :=
  s.hasMemory pa && s.ue.any (fun g => pa / 32 ≤ g && g ≤ (pa + (n - 1)) / 32)

/-- `home_slice` (R176). -/
def homeSlice (pa : Nat) : Nat :=
  bitsOf pa 7 7 ^^^ bitsOf pa 14 7 ^^^ bitsOf pa 21 7 ^^^ bitsOf pa 28 7 ^^^ bitsOf pa 35 7 ^^^ bitsOf pa 42 7

/-! ### Queue blocks seen as memory (R308, R309, R377) -/

/-- The 64-bit word of queue q's block that holds a byte offset. -/
def queueBlockWord (qu : Queue) (off : Nat) : Nat :=
  match off / 8 with
  | 0 => qu.widx.toNat + qu.kgen.toNat * 2 ^ 32
  | 1 => qu.ridx.toNat + 2 ^ 32 * ((if qu.genbad then 1 else 0) + (if qu.range then 2 else 0) + (if qu.width then 4 else 0))
  | 2 => qu.lastKick.toNat
  | _ => 0

/-- A kick (R309), checked against the state the kicks before it left. -/
def State.kick (s : State) (q : Nat) (value : DWord) : State :=
  s.modQueue q (fun qu =>
    if !qu.en || bitsOf value.toNat 32 16 ≠ qu.gen.toNat then { qu with genbad := true }
    else
      let w : Word := BitVec.truncate 32 value
      let d := (w - qu.ridx).toNat
      if 2 ^ qu.k < d || d < (qu.widx - qu.ridx).toNat then { qu with range := true }
      else { qu with widx := w, kgen := qu.gen, lastKick := s.clock })

/-- A write to the kick space by a strand (R377): an aligned 64-bit write to offset 0 of a block is a kick, any other
is dropped and sets WIDTH. -/
def State.kickStore (s : State) (pa n : Nat) (v : DWord) : State :=
  let q := (pa - kickBase) / 256
  let off := (pa - kickBase) % 256
  if n = 8 && off = 0 then s.kick q v else s.modQueue q (fun qu => { qu with width := true })

/-- A read of the kick space returns the block registers. -/
def State.kickLoad (s : State) (pa n : Nat) : Nat :=
  let q := (pa - kickBase) / 256
  let off := (pa - kickBase) % 256
  bitsOf (queueBlockWord (s.queue q) off) (off % 8 * 8) (8 * n)

/-! ### Errors -/

/-- A page becomes a retirement candidate (R454), with an uncorrectable cause or after its eighth corrected error. -/
def State.addCandidate (s : State) (page : Nat) (uncorrectable : Bool) : State :=
  let d := s.dev
  if d.retired.contains page || d.rcand.any (fun c => c.toNat / 2 ^ 14 = page) then s
  else if 64 ≤ d.rcand.length then { s with dev := { d with rcOver := d.rcOver ||| 1 } }
  else
    let entry : DWord := BitVec.ofNat 64 (page * 2 ^ 14 + (if uncorrectable then 2 else 0) + 1)
    ({ s with dev := { d with rcand := d.rcand ++ [entry] } }).emit (.msix 64)

/-- An uncorrectable error met in device memory makes its page a candidate (R454). -/
def State.uncorrectable (s : State) (pa : Nat) : State := if pa < 2 ^ 46 then s.addCandidate (pa / 2 ^ 14) true else s

/-- ECCCONS of a context rises by one (R437). -/
def State.countUe (s : State) (ctx : Nat) : State :=
  s.modCtx ctx (fun x => { x with err := { x.err with
    eccCons := if x.err.eccCons = 0xFFFFFFFF then x.err.eccCons else x.err.eccCons + 1 } })

/-- An uncorrectable error consumed on behalf of a context (R436, R437). -/
def State.consumeUe (s : State) (ctx pa : Nat) : State := (s.countUe ctx).uncorrectable pa

/-- Uncorrectable errors met by one operation or one trapping access, at `pas`: every page becomes a candidate, and ECCCONS rises by
one for the trap that they cause, unless the operation has been counted already. DESIGN CHOICE (assumption 93): one trap counts once,
however many bad units it stands for. -/
def State.consumeUes (s : State) (ctx : Nat) (counted : Bool) (pas : List Nat) : State :=
  if pas.isEmpty then s else pas.foldl State.uncorrectable (if counted then s else s.countUe ctx)

/-- Rows of a Hearth slice: its 1.5 MiB in rows of 8 lines (R16, R453). -/
def hearthRows : Nat := 1536

/-! ### Local buffers (R171 to R174) -/

def Core.buf (co : Core) : Space → Memory
  | .wbuf => co.wbuf
  | .abuf => co.abuf
  | .cbuf => co.cbuf

def Core.setBuf (co : Core) (sp : Space) (m : Memory) : Core :=
  match sp with
  | .wbuf => { co with wbuf := m }
  | .abuf => { co with abuf := m }
  | .cbuf => { co with cbuf := m }

def Crew.claim (c : Crew) : Space → Claim
  | .wbuf => c.wclaim
  | .abuf => c.aclaim
  | .cbuf => c.cclaim

/-- Bytes of a buffer in each space (R171). -/
def bufSize : Space → Nat
  | .cbuf => 256 * 1024
  | _ => 512 * 1024

/-- `ctl.l1size` (R174): 64 KiB and every 32 KiB unit of a buffer that no resident crew's claim touches. Before the device runs it has
its reset value of 65,536 (R190; DEDUCED, assumption 76: lending begins in state RUN). -/
def State.l1Size (s : State) (core : Nat) : Nat :=
  if s.dev.stage < 6 then 65536 else
  let cs := s.crews.filter (fun c => c.core = core && c.state = .resident)
  let lent (sp : Space) : Nat := ((List.range (bufSize sp / 32768)).filter (fun u =>
    cs.all (fun c => let cl := c.claim sp; cl.size = 0 || (u + 1) * 32768 ≤ cl.base || cl.base + cl.size ≤ u * 32768))).length
  65536 + 32768 * (lent .wbuf + lent .abuf + lent .cbuf)

/-! ### L1 and ownership (R177, R178) -/

def l1Line (co : Core) (line : Nat) : Option L1Line := co.l1.find? (fun x => x.line = line)

/-- The lines an L1 keeps, the newest first, within the room that it has (R16, R174): its own 512 lines and those of the lent units. DESIGN
CHOICE (assumption 74): the line that was fetched first makes room, and the agenda's `evictL1` replaces any other. -/
def Core.fitL1 (co : Core) (bytes : Nat) : Core := { co with l1 := co.l1.take (bytes / 128) }

/-- Units of a buffer that are claimed again take their lines from L1 (R174). -/
def State.trimL1 (s : State) (core : Nat) : State :=
  if (s.core core).l1.length ≤ 512 then s else s.modCore core (fun co => co.fitL1 (s.l1Size core))

/-- The reply of a home slice to a miss: the line's words with the owned bits the registry gives; words of a unit with
an uncorrectable error are not delivered (R434). -/
def State.fillLine (s : State) (core line : Nat) : State :=
  let pa := line * 128
  let words := (List.range 32).map (fun i => BitVec.ofNat 32 (s.peek (pa + 4 * i) 4))
  let mask (p : Nat → Bool) : Word := BitVec.ofNat 32 ((List.range 32).foldl (fun a i => if p i then a + 2 ^ i else a) 0)
  let ln : L1Line := { line := line, words := words, valid := mask (fun i => !s.bad (pa + 4 * i) 4),
                       owned := mask (fun i => smapGet s.owners (line * 32 + i) = some core) }
  (s.modCore core (fun co => { co with l1 := ln :: co.l1.filter (fun x => x.line ≠ line) })).trimL1 core

/-- `n` bytes within one word, read through L1 (R177): the value when it can be delivered, and the machine with the line
filled on a miss. -/
def State.loadPart (s : State) (core pa n : Nat) : Option Nat × State :=
  let line := pa / 128
  let i := pa / 4 % 32
  let pick (w : Word) : Nat := bitsOf w.toNat (pa % 4 * 8) (8 * n)
  let hit := match l1Line (s.core core) line with
    | some ln => if ln.valid.getLsbD i then some (ln.words.getD i 0) else none
    | none => none
  match hit with
  | some w => (some (pick w), s)
  | none =>
    if !s.hasMemory pa then (some 0, s)
    else
      let s1 := s.fillLine core line
      if s.bad pa n then (none, s1) else (some (bitsOf (s.peek (pa / 4 * 4) 4) (pa % 4 * 8) (8 * n)), s1)

/-- `n` bytes read through L1; an 8-byte read is two 4-byte reads (R179). The kick space never enters L1 (R377). -/
def State.loadVal (s : State) (core pa n : Nat) : Option Nat × State :=
  if inKick pa then (some (s.kickLoad pa n), s)
  else if n = 8 then
    let (a, s1) := s.loadPart core pa 4
    let (b, s2) := s1.loadPart core (pa + 4) 4
    match a, b with
    | some x, some y => (some (x + y * 2 ^ 32), s2)
    | _, _ => (none, s2)
  else s.loadPart core pa n

/-- The acquire half: every valid non-owned word of a core's L1 is invalidated (R180). -/
def State.acquireL1 (s : State) (core : Nat) : State :=
  s.modCore core (fun co => { co with l1 := co.l1.map (fun ln => { ln with valid := ln.valid &&& ln.owned }) })

/-- The words of a line a mask names: revoked, or invalidated. -/
def maskBit (i : Nat) : Word := BitVec.ofNat 32 (2 ^ i)

def Core.revoke (co : Core) (word : Nat) : Core :=
  { co with l1 := co.l1.map (fun ln => if ln.line = word / 32 then { ln with owned := ln.owned &&& ~~~maskBit (word % 32) } else ln) }

def Core.dropWord (co : Core) (word : Nat) : Core :=
  { co with l1 := co.l1.map (fun ln => if ln.line = word / 32 then { ln with valid := ln.valid &&& ~~~maskBit (word % 32) } else ln) }

/-- A lane store updates a line that is present, leaving its owned bits (R177). -/
def Core.storeL1 (co : Core) (pa : Nat) (bs : List Byte) : Core :=
  { co with l1 := co.l1.map (fun ln =>
      if pa / 128 ≤ ln.line && ln.line ≤ (pa + bs.length - 1) / 128 then
        { ln with words := ln.words.mapIdx (fun i w =>
            BitVec.ofNat 32 (leNat ((List.range 4).map (fun k =>
              let a := ln.line * 128 + 4 * i + k
              if pa ≤ a && a < pa + bs.length then bs.getD (a - pa) 0 else BitVec.ofNat 8 (w.toNat / 2 ^ (8 * k)))))) }
      else ln) }

/-- The registry drops the owners of a line's words, revoking each (R178, R434). -/
def State.dropOwner (s : State) (line : Nat) : State :=
  (List.range 32).foldl (fun st i =>
    let w := line * 32 + i
    match smapGet st.owners w with
    | some k => ({ st with owners := smapErase st.owners w }).modCore k (fun co => co.revoke w)
    | none => st) s

/-- Who performs a write at a home slice (R178). -/
inductive Writer where
  | core (k : Nat)
  | engine
  | host
  | peer
  deriving DecidableEq, Repr

/-- The registry of line `line`'s home slice with room for it: 16,384 entries in sets of 8, where a full set replaces an entry and
revokes every owner it records (R178). DESIGN CHOICE (assumption 74): the set of a line is open, and so is the entry replaced; the
agenda's `dropOwner` replaces any other. -/
def State.ownRoom (s : State) (line : Nat) : State :=
  if s.owners.length < 8 || s.owners.any (fun o => o.1 / 32 = line) then s
  else
    let inSet (l : Nat) : Bool := homeSlice (l * 128) = homeSlice (line * 128) && Config.ownSet l % 2048 = Config.ownSet line % 2048
    let lines := s.owners.foldl (fun ls o => if inSet (o.1 / 32) then insertNat (o.1 / 32) ls else ls) []
    match lines[7]?, lines.head? with
    | some _, some old => s.dropOwner old
    | _, _ => s

/-- The ownership of one word after a write, with the revoke to its previous owner (R178). -/
def State.takeWord (s : State) (w : Writer) (word : Nat) : State :=
  let prev := smapGet s.owners word
  let me : Option Nat := match w with | .core k => some k | _ => none
  let s1 := match prev with
    | some p => if some p = me then s else s.modCore p (fun co => co.revoke word)
    | none => s
  match me with
  | some k => let s2 := s1.ownRoom (word / 32); { s2 with owners := smapSet s2.owners word k }
  | none => { s1 with owners := smapErase s1.owners word }

/-- WINDOW_DIRTY_MARK: pages of enabled windows whose back frame a write touches (R382). -/
def Window.mark (w : Window) (pa n : Nat) : Window :=
  let b := w.wback.toNat
  if w.en && b < pa + n && pa < b + w.wpages * 2 ^ 14 then
    let first := (pa - b) / 2 ^ 14
    let last := min (w.wpages - 1) ((pa + n - 1 - b) / 2 ^ 14)
    let new := ((List.range (last + 1)).filter (fun i => first ≤ i && !w.dirty.contains i))
    if new.isEmpty then w else { w with dirty := new.foldl (fun d i => insertNat i d) w.dirty }
  else w

def State.markDirty (s : State) (pa n : Nat) : State :=
  if s.ctxs.any (fun x => x.windows.any (fun w => w.en)) then
    { s with ctxs := s.ctxs.map (fun x => { x with windows := x.windows.map (fun w => w.mark pa n) }) }
  else s

/-- The words a byte range touches. -/
def wordsOf (pa n : Nat) : List Nat := (List.range ((pa + n - 1) / 4 - pa / 4 + 1)).map (fun i => pa / 4 + i)

/-- A write performed at its home slice at one instant (R179), without the waking of waiting threads: memory, ownership,
the context that last wrote the line (R436), dirty marks, and fresh check bits for every protected unit written whole. -/
def State.performWrite (s : State) (w : Writer) (ctx : Option Nat) (pa : Nat) (bs : List Byte) : State :=
  if bs.isEmpty || !s.hasMemory pa then s
  else
    let n := bs.length
    let s1 := { s with mem := Memory.writeBytes s.mem pa bs }
    let s2 := (wordsOf pa n).foldl (fun st x => st.takeWord w x) s1
    let lines := (List.range ((pa + n - 1) / 128 - pa / 128 + 1)).map (fun i => pa / 128 + i)
    let lc := lines.foldl (fun m l => match ctx with | some x => smapSet m l x | none => smapErase m l) s2.lastCtx
    let ue := s2.ue.filter (fun g => !(pa ≤ g * 32 && g * 32 + 32 ≤ pa + n))
    ({ s2 with lastCtx := lc, ue := ue }).markDirty pa n

/-! ### Waking `waita` (R213) -/

/-- A thread asleep in `waita` issues the instruction again (R213, R369). -/
def Thread.rewait (x : Thread) : Thread :=
  match x.state with
  | .waiting (.waita _ _ _ _ _ w) => { x with pc := w.pc, state := .running }
  | _ => x

/-- The threads of a strand that sleep in `waita` and satisfy `which` issue it again, each as a group that merges again under R131. -/
def Strand.rewait (t : Strand) (which : Nat → Thread → Bool) : Strand :=
  let ts := t.threads.mapi (fun l x => if which l x then x.rewait else x)
  { t with threads := ts, group := t.group &&& ~~~(maskOf (fun l => t.thread l ≠ ts.get l)) }

/-- A waiting thread returns with the word read: `vd`, `pd`, and the thread runs; the acquire that follows is made before the strand
issues again (R213). -/
def State.returnWaita (s : State) (crew strand lane : Nat) (vd pd : Nat) (x : Word) (hit : Bool) : State :=
  match s.crew? crew with
  | none => s
  | some c => match c.strand? strand with
    | none => s
    | some t =>
      let e : Env := { s := s, c := c, t := t }
      let e1 := e.put1 true { d := vd, tag := .general, vals := (t.reg vd).lanes.set lane x }
      let t1 := e1.t.mergePred pd (maskOf (fun l => l = lane)) (if hit then 0xFF else 0)
      ({ e1 with t := { t1.wakeLanes (maskOf (fun l => l = lane)) with acq := true } } : Env).commit

/-- Threads of resident crews that wait on a word of the range, as (crew, strand, lane, pa, expected, vd, pd). -/
def State.waiters (s : State) (pa n : Nat) : List (Nat × Nat × Nat × Nat × Word × Nat × Nat) :=
  s.crews.flatMap (fun c => if c.state ≠ .resident then [] else c.strands.flatMap (fun t => laneIds.filterMap (fun l =>
    match (t.thread l).state with
    | .waiting (.waita a x _ vd pd _) => if pa < a + 4 && a < pa + n then some (c.id, t.idx, l, a, x, vd, pd) else none
    | _ => none)))

/-- A thread asleep in `waita` reads its word at the home slice. An uncorrectable word is met by the instruction issued again, which traps
(R436). -/
def State.rereadWaita (s : State) (crew strand lane pa : Nat) (f : Word → State) : State :=
  if !inKick pa && s.bad pa 4 then s.modStrand crew strand (fun t => t.rewait (fun l _ => l = lane))
  else f (BitVec.ofNat 32 (if inKick pa then s.kickLoad pa 4 else s.peek pa 4))

/-- WAITA_WAKE: threads whose word the write left different from what they expect return (R213). -/
def State.wakeWaita (s : State) (pa n : Nat) : State :=
  (s.waiters pa n).foldl (fun st w =>
    let (c, t, l, a, x, vd, pd) := w
    st.rereadWaita c t l a (fun v => if v = x then st else st.returnWaita c t l vd pd v true)) s

/-! ### The context's table, and dependencies (R315, R352) -/

/-- A walk of the table at PTROOT (R350, R352) from a level: the valid leaf that maps an address. It gives the
translation that Bellows and the engines use for a context (assumption 15). -/
def State.walkFrom (s : State) (ctx va level table fuel : Nat) : Option Trans :=
  match fuel with
  | 0 => none
  | n + 1 =>
    let shift := 14 + 11 * (3 - level)
    let idx := va / 2 ^ shift % (if level = 0 then 1024 else 2048)
    let e : DWord := BitVec.ofNat 64 (s.peek (table + 8 * idx) 8)
    if !pteV e then none
    else if pteL e then (if validLeaf level e then some (Trans.ofLeaf ctx va level e) else none)
    else if level = 3 then none
    else s.walkFrom ctx va (level + 1) (ptePpn e * 2 ^ 14) n

def State.walkTable (s : State) (ctx va : Nat) : Option Trans :=
  if vaBad va then none else s.walkFrom ctx va 0 (s.ctx ctx).ptroot.toNat 4

/-- The physical address of a resident page with the permission `p`, through the context's table. -/
def State.tablePa (s : State) (ctx va : Nat) (p : DWord → Bool) : Option Nat :=
  match s.walkTable ctx va with
  | some tr => if p tr.entry && pteP tr.entry then some (tr.pa va) else none
  | none => none

/-- Whether a held packet's dependency reads as met now, through the translation that Bellows holds (R315). -/
def State.depMet (s : State) (l : Launch) : Bool :=
  match l.depPa with
  | some pa => l.pkt.depVal.toNat ≤ s.peek pa 8
  | none => false

/-- The address of a dependency's word: DEPADDR translated (R315). -/
def State.depWord (s : State) (ctx : Nat) (p : Packet) : Option Nat := s.tablePa ctx p.depAddr.toNat pteR

/-- A held packet whose dependency is met now and was not before. -/
def State.depFresh (s : State) (l : Launch) : Bool := l.phase = .waitDep && l.metOrder = none && s.depMet l

/-- A dependency that is met stays met (R315): the order of meeting is latched, one place for all that one event meets. -/
def State.latchDeps (s : State) : State :=
  if s.launches.any s.depFresh then
    { s with
      launches := s.launches.map (fun l => if s.depFresh l then { l with metOrder := some s.bellows.nextMet } else l)
      bellows := { s.bellows with nextMet := s.bellows.nextMet + 1 } }
  else s

/-- A context's held dependencies translated and read again after an invalidation (R315). -/
def State.retranslateDeps (s : State) (ctx : Nat) : State :=
  ({ s with launches := s.launches.map (fun l =>
      if l.phase = .waitDep && l.ctx = ctx then { l with depPa := s.depWord ctx l.pkt } else l) } : State).latchDeps

/-- A write to the kick space that is no kick: dropped, and WIDTH is set in each block it touches (R377). -/
def State.kickRefused (s : State) (pa n : Nat) : State :=
  let first := (pa - kickBase) / 256
  let last := (min (pa + n) kickEnd - 1 - kickBase) / 256
  (List.range (last - first + 1)).foldl (fun st i => st.modQueue (first + i) (fun qu => { qu with width := true })) s

/-- A write performed at its home slice, with the dependencies it meets and the threads it wakes. A write to the kick space by anything
but an `st.b64` is dropped there (R377). -/
def State.homeWrite (s : State) (w : Writer) (ctx : Option Nat) (pa : Nat) (bs : List Byte) : State :=
  if inKick pa then s.kickRefused pa bs.length else ((s.performWrite w ctx pa bs).latchDeps).wakeWaita pa bs.length

/-! ### Migration counts (R373) -/

/-- A virtual address under which a context maps a physical page, where a TLB knows one. -/
def State.vaOfPage (s : State) (ctx page : Nat) : VAddr :=
  match (s.cores.flatMap Core.tlb).find? (fun tr => tr.ctx = ctx && tr.pa tr.base.toNat / 2 ^ 14 ≤ page
      && page < (tr.pa tr.base.toNat + 2 ^ pageShift tr.level) / 2 ^ 14) with
  | some tr => tr.base + BitVec.ofNat 57 ((page - tr.pa tr.base.toNat / 2 ^ 14) * 2 ^ 14)
  | none => Config.unmappedVa page

/-- MIGRATION_CONSIDER: one atomic counted on its page; when a count leads by MIGT the page is advised to the host or
queued to be moved (R373). -/
def State.countAtomic (s : State) (ctx pa : Nat) (va : Option Nat) (isLocal : Bool) : State :=
  let page := pa / 2 ^ 14
  let old := (s.mig.find? (fun m => m.page = page)).getD { page := page, ctx := ctx, local_ := 0, remote := 0 }
  let new : MigEnt := if isLocal then { old with local_ := min 65535 (old.local_ + 1) } else { old with remote := min 65535 (old.remote + 1) }
  let rest := s.mig.filter (fun m => m.page ≠ page)
  let x := s.ctx new.ctx
  let t := x.migT.toNat
  let toDevice := new.remote + t ≤ new.local_
  let away := new.local_ + t ≤ new.remote
  if t ≠ 0 && (toDevice || away) then
    let s1 := { s with mig := ({ new with local_ := 0, remote := 0 } :: rest).take 8192 }
    -- the address is one of the entry's own context
    let v : VAddr := match (if new.ctx = ctx then va else none) with
      | some a => BitVec.ofNat 57 (a / 2 ^ 14 * 2 ^ 14)
      | none => s1.vaOfPage new.ctx page
    let ppn := page % 2 ^ 32
    if toDevice && !x.assist.getLsbD 1 then s1.modCtx new.ctx (fun c => { c with migQueue := c.migQueue ++ [v] })
    else s1.postEvent new.ctx (evRecord 4 0 0 v.toNat ppn 0)
  else { s with mig := (new :: rest).take 8192 }

end Sys2Proof.Machine
end

