-- ==== Sys2Proof/Machine/Async.lean ====
section
/-! DEFINITION. Operations in flight that touch memory from the lanes (spec/08_memory_model.md R179 to R192,
spec/09_memory_and_copy_instructions.md R200 to R211): performing loads, stores, atomics and local-buffer accesses,
counting operations complete, and draining them. -/

namespace Sys2Proof.Machine

def State.env? (s : State) (crew strand : Nat) : Option Env :=
  match s.crew? crew with
  | none => none
  | some c => match c.strand? strand with
    | none => none
    | some t => some { s := s, c := c, t := t }

/-! ### Counting (R185, R186) -/

/-- Operations counted complete: within each counter, those not preceded by one that is not performed (R186). -/
def trimDone (ps : List Pending) (blocked : List Ctr) : List Pending :=
  match ps with
  | [] => []
  | p :: r =>
    if p.done && !blocked.contains p.ctr then trimDone r blocked
    else p :: trimDone r (p.ctr :: blocked)

/-- Completions that end a wait with an acquire: those that wrote global memory (R223). -/
def Pending.staleMaker (p : Pending) : Bool :=
  match p.kind with
  | .copy _ => true
  | .swr .. => true
  | .publish .. => true
  | .cprog .. => true
  | .tbar .. => true
  | .swage _ _ _ stores => stores
  | .field c => match c.kind with
    | .hgs _ => true
    | .hgfold => true
    | _ => false
  | _ => false

/-- The threshold of a counter. -/
def Thresholds.of (x : Thresholds) (k : Ctr) : Nat :=
  match k with
  | .ld => x.ld
  | .st => x.st
  | .cp => x.cp
  | .mx => x.mx
  | .tr => x.tr
  | .sr => x.sr
  | .cl => x.cl

def allCtrs : List Ctr := [.ld, .st, .cp, .mx, .tr, .sr, .cl]

/-- The counters a wait names: those whose field is below 63. -/
def Thresholds.names (x : Thresholds) : List Ctr := allCtrs.filter (fun k => decide (x.of k < 63))

/-- Whether every named counter is at or below its threshold (R186). -/
def Strand.thresholdsMet (t : Strand) (x : Thresholds) : Bool := x.names.all (fun k => decide (t.count k ≤ x.of k))

/-- Whether a wait has observed completions that wrote global memory (R223). -/
def Strand.observesStale (t : Strand) (x : Thresholds) : Bool := x.names.any (fun k => t.stale.contains k)

/-- A wait that has ended has observed them. -/
def Strand.observed (t : Strand) (x : Thresholds) : Strand := { t with stale := t.stale.filter (fun k => !x.names.contains k) }

/-- WAIT_END: threads whose `wait` or `waitx` is met run again (R186, R223). -/
def Strand.endWaits (t : Strand) : Strand :=
  let met (x : Thread) : Bool := match x.state with | .waiting (.counters th) => t.thresholdsMet th | _ => false
  let m := t.lanesWhere met
  if m = 0 then t
  else
    let seen (t : Strand) (l : Nat) : Strand := match (t.thread l).state with
      | .waiting (.counters th) => { t.observed th with acq := t.acq || t.observesStale th }
      | _ => t
    ((lanesOf m).foldl seen t).wakeLanes m

/-- Lanes set in the absence predicate p7 (R50). -/
def Strand.markAbsent (t : Strand) (m : Mask) : Strand := t.mergePred 7 m 0xFF

/-- Deferred traps in the order in which their operations are counted complete (R428): those counted before, those of the operations
counted now, and those of operations that stand. -/
def Strand.orderDeferred (t : Strand) (counted rest : List Pending) : List Deferred :=
  t.deferred.filter (fun d => t.inflight.all (fun p => p.id ≠ d.op)) ++ counted.flatMap (fun p => t.deferred.filter (fun d => d.op = p.id))
    ++ t.deferred.filter (fun d => rest.any (fun p => p.id = d.op))

/-- The operations that have become countable are counted complete, with the bits of p7 that they set then, and the waits they end
are over. -/
def Strand.countDone (t : Strand) : Strand :=
  let rest := trimDone t.inflight []
  let out := t.inflight.filter (fun p => p.done && !rest.contains p)
  let gone := out.filter Pending.staleMaker
  let t1 := t.markAbsent (out.foldl (fun m p => m ||| p.gone) 0)
  ({ t1 with inflight := rest, deferred := t.orderDeferred out rest, stale := gone.foldl (fun ks (p : Pending) => if ks.contains p.ctr then ks else p.ctr :: ks) t1.stale }).endWaits

/-- An operation is performed, in lanes `gone` with an absent page; it is counted when every older one of its counter is (R186). -/
def Strand.finishAbsent (t : Strand) (id : Nat) (gone : Mask) : Strand :=
  ({ t with inflight := modWhere t.inflight (fun p => p.id = id) (fun p => { p with done := true, gone := gone }) }).countDone

def Strand.finishOp (t : Strand) (id : Nat) : Strand := t.finishAbsent id 0

/-- An operation issues: it is counted, its destinations are pending (R185, R187), and it reads `srcs` until it is performed. -/
def Strand.addOp (t : Strand) (ctr : Ctr) (dsts : List Nat) (pdst : Option Nat) (pc : VAddr) (kind : OpKind) (srcs : List Nat := []) : Strand :=
  { t with inflight := t.inflight ++ [{ id := t.nextOp, ctr := ctr, dsts := dsts, pdst := pdst, pc := pc, kind := kind, done := false,
                                        srcs := srcs, gone := 0 }],
           nextOp := t.nextOp + 1 }

/-- An uncorrectable error met by an asynchronous operation is trapped later, once it is counted complete (R428, R429). -/
def Strand.defer (t : Strand) (op : Nat) (mask : Mask) (va : Nat) (src : VAddr) : Strand :=
  { t with deferred := t.deferred ++ [{ op := op, mask := mask, va := BitVec.ofNat 57 va, src := src }] }

/-! ### Transactional reads and writes (R192) -/

/-- A lane's transaction is doomed: R191's states 2, 3, 7 and 9. -/
def Tx.doomed (x : Tx) : Bool := x.begun && (x.state = 2 || x.state = 3 || x.state = 7 || x.state = 9)
def Tx.active (x : Tx) : Bool := x.begun && x.state = 1
def Tx.open (x : Tx) : Bool := x.active || x.doomed

def txWrite? (x : Tx) (word : Nat) : Option TxWrite := x.wset.find? (fun w => w.word = word)

/-- The bytes of a word with those a buffered store wrote taken from it. -/
def overlay (w : TxWrite) (v : Nat) : Nat :=
  leNat ((List.range 4).map (fun k => BitVec.ofNat 8 ((if w.bytes.getLsbD k then w.value.toNat else v) / 2 ^ (8 * k))))

/-- A word read enters the read set once; a 33rd distinct word dooms the lane (R191, R192). -/
def Tx.record (x : Tx) (r : TxRead) : Tx :=
  if x.rset.any (fun y => y.word = r.word) then x
  else if 32 ≤ x.rset.length then { x with state := 2 }
  else { x with rset := x.rset ++ [r] }

/-- A buffered store of bytes within one word; a 17th distinct word dooms the lane (R192). -/
def Tx.buffer (x : Tx) (pa : Nat) (bs : List Byte) (wide : Bool) (tr : Option Trans) : Tx :=
  let word := pa / 4
  let lo := pa % 4
  let bytes : BitVec 4 := BitVec.ofNat 4 ((List.range bs.length).foldl (fun a i => a + 2 ^ (lo + i)) 0)
  let v := leNat bs * 2 ^ (8 * lo)
  match txWrite? x word with
  | some w =>
    let now : TxWrite := { word := word, bytes := bytes, value := BitVec.ofNat 32 v, wide := wide, tr := tr }
    let merged : Word := BitVec.ofNat 32 (overlay now w.value.toNat)
    { x with wset := x.wset.map (fun y => if y.word = word then { now with bytes := y.bytes ||| bytes, value := merged } else y) }
  | .none =>
    if 16 ≤ x.wset.length then { x with state := 3 }
    else { x with wset := x.wset ++ [{ word := word, bytes := bytes, value := BitVec.ofNat 32 v, wide := wide, tr := tr }] }

/-- Whether buffered stores have written every one of n bytes of a word from `pa`. -/
def TxWrite.holds (w : TxWrite) (pa n : Nat) : Bool := (List.range n).all (fun k => w.bytes.getLsbD (pa % 4 + k))

/-- Bytes within one word read by a lane at a virtual address: through its transaction when it is ACTIVE (R192), else through L1 (R177).
Bytes that the lane has buffered are not read from memory. -/
def Env.readPart (e : Env) (lane va : Nat) (tr : Option Trans) (pa n : Nat) : Option Nat × Env :=
  let x := (e.t.thread lane).tx
  let word := pa / 4
  let held : Option TxWrite := match txWrite? x word with | some w => if w.holds pa n then some w else .none | .none => .none
  if x.active && held.isSome then (held.map (fun w => bitsOf w.value.toNat (pa % 4 * 8) (8 * n)), e)
  else if x.active then
    let (v, s1) := e.s.loadPart e.c.core (word * 4) 4
    match v with
    | none => (none, { e with s := s1 })
    | some v =>
      match txWrite? x word with
      | some w => (some (bitsOf (overlay w v) (pa % 4 * 8) (8 * n)), { e with s := s1 })
      | none =>
        let r : TxRead := { word := word, value := BitVec.ofNat 32 v, va := va, tr := tr }
        (some (bitsOf v (pa % 4 * 8) (8 * n)), { e with s := s1, t := e.t.modThread lane (fun th => { th with tx := th.tx.record r }) })
  else
    let (v, s1) := e.s.loadPart e.c.core pa n
    (v, { e with s := s1 })

/-- `n` bytes read by a lane; each word of an 8-byte access counts separately (R192). -/
def Env.readLane (e : Env) (lane va : Nat) (tr : Option Trans) (pa n : Nat) : Option Nat × Env :=
  if inKick pa then (some (e.s.kickLoad pa n), e)
  else if n = 8 then
    let (a, e1) := e.readPart lane va tr pa 4
    let (b, e2) := e1.readPart lane (va + 4) tr (pa + 4) 4
    match a, b with
    | some x, some y => (some (x + y * 2 ^ 32), e2)
    | _, _ => (none, e2)
  else e.readPart lane va tr pa n

/-! ### Bringing a loaded element into a register type (R201, R203) -/

/-- A typed value: its bits in the register type and the flags it raises. -/
def typedValue (ty : LoadTy) (fmt : Nat) (geom bits : Nat) (scale : Option Nat) : Rounded :=
  let x : Num := match scale with
    | some sc => scaledValue fmt geom bits sc
    | none => fmtValue fmt bits
  let toFmt (f : Fmt) (own : Nat) : Rounded :=
    if fmt = 0 || fmt = own then { code := bits, flags := 0 } else roundFmt f rne false 0 x
  match ty with
  | .f32 => toFmt fmtFp32 1
  | .f16 => toFmt fmtFp16 2
  | .bf16 => toFmt fmtBf16 3
  | .i32 =>
    if fmt = 0 || fmt = 12 then { code := bits, flags := 0 }
    else match x with
      | .nan _ => { code := 0, flags := flagNV }
      | .inf neg => { code := if neg then 0x80000000 else 0x7FFFFFFF, flags := flagNV }
      | .fin neg n d =>
        let (y, inexact) := roundInt rne 0 neg n d
        let r := satS y 32
        { code := wrapNat r 32, flags := if r ≠ y then flagNV else if inexact then flagNX else 0 }
  | _ => { code := bits, flags := 0 }

/-- What reading an element gives: its bits in the register type, or the addresses, virtual and physical, of what is uncorrectable. -/
inductive ElemRead where
  | value (v : Rounded)
  | bad (at_ : List (Nat × Nat))
  deriving DecidableEq, Repr

/-- One element read, with its block scale, and the reader (R200 to R203). -/
def Env.readElem (e : Env) (ty : LoadTy) (x : Elem) : ElemRead × Env :=
  if x.absent then (.value { code := 0, flags := 0 }, e)
  else
    let (v, e1) := e.readLane x.lane x.va.toNat x.tr x.pa x.size
    let v := v.map (fun y => if x.fmt ≠ 0 && fmtBits x.fmt = 4 && ty ≠ .b32 && ty ≠ .b64 then (if x.nib then y / 16 % 16 else y % 16) else y)
    match x.scale with
    | none =>
      (match v with | some y => .value (typedValue ty x.fmt x.geom y none) | none => .bad [(x.va.toNat, x.pa)], e1)
    | some spa =>
      let (sc, e2) := e1.readLane x.lane x.sva x.str spa (geomScaleSize x.geom)
      (match v, sc with
        | some y, some k => .value (typedValue ty x.fmt x.geom y (some k))
        | some _, none => .bad [(x.sva, spa)]
        | none, some _ => .bad [(x.va.toNat, x.pa)]
        | none, none => .bad [(x.va.toNat, x.pa), (x.sva, spa)], e2)

def laneBit (l : Nat) : Mask := maskOf (fun k => k = l)

/-- The lowest address of a list. -/
def lowest (xs : List Nat) : Nat := match xs with | v :: rest => rest.foldl min v | [] => 0

/-- The lower of two addresses, where there is one. -/
def minVa (a : Option Nat) (b : Nat) : Option Nat := match a with | some x => some (min x b) | none => some b

/-- The accesses of a load (R179, R200): an 8-byte element is two of 4 bytes, and a later element of a lane stands in the upper half. -/
def splitEls (els : List Elem) : List Elem :=
  (els.foldl (fun (acc : List Elem × Mask) x =>
      match x.sh with
      | some _ => (acc.1 ++ [x], acc.2)
      | none =>
        let m := acc.2 ||| laneBit x.lane
        if x.size = 8 && !inKick x.pa then
          (acc.1 ++ [{ x with size := 4, sh := some 0 }, { x with va := x.va + 4, pa := x.pa + 4, size := 4, sh := some 32 }], m)
        else (acc.1 ++ [{ x with sh := some (if laneOn acc.2 x.lane then 16 else 0) }], m)) ([], 0)).1

/-- Each access in turn. -/
def loadElems (e : Env) (ty : LoadTy) (els : List Elem) (acc : LoadAcc) : LoadAcc × Env :=
  match els with
  | [] => (acc, e)
  | x :: rest =>
    let (r, e1) := e.readElem ty x
    match r with
    | .bad at_ => loadElems (e1.via (fun s => s.consumeUes e1.c.ctx acc.badVa.isSome (at_.map Prod.snd))) ty rest
                { acc with bad := acc.bad ||| laneBit x.lane, badVa := (at_.map Prod.fst).foldl minVa acc.badVa }
    | .value v =>
      let val := (smapGet acc.vals x.lane).getD 0 + v.code * 2 ^ (x.sh.getD 0)
      loadElems e1 ty rest { acc with vals := smapSet acc.vals x.lane val, flags := acc.flags ||| v.flags,
                                      gone := if x.absent then acc.gone ||| laneBit x.lane else acc.gone }

/-- A register's lanes with the gathered values, shifted down by `sh` bits, in the lanes that have one. -/
def gathered (old : L8 Word) (vals : SMap Nat) (bad : Mask) (sh : Nat) : L8 Word :=
  old.mapi (fun l o => if laneOn bad l then o else match smapGet vals l with
    | some v => BitVec.ofNat 32 (v / 2 ^ sh)
    | none => o)

/-- Values arrive in a destination register or pair, with p7, flags and deferred errors (R204, R209, R429). One access serves all lanes
of a load from a uniform address (R204 lets two lanes read the same word each from L1 or from the slice), so that they read one value.
DESIGN CHOICE (assumption 92): where buffered stores of lanes in transactions (R192) make the values differ even so, the result is
general, because a tag never changes the value that a lane reads (R53). -/
def Env.arrive (e : Env) (id vd : Nat) (wide uni : Bool) (pc : VAddr) (key : Option VKey) (range : Option (Nat × Nat)) (acc : LoadAcc) : Env :=
  let got := maskOf (fun l => (smapGet acc.vals l).isSome && !laneOn acc.bad l)
  let tag : Tag := if uni && got = 0xFF && laneIds.all (fun l => smapGet acc.vals l = smapGet acc.vals 0) then .uniform else .general
  let lo : Put := { d := vd, tag := tag, vals := gathered (e.t.reg vd).lanes acc.vals acc.bad 0 }
  let hi : Put := { d := vd + 1, tag := tag, vals := gathered (e.t.reg (vd + 1)).lanes acc.vals acc.bad 32 }
  let ps := if got = 0 then [] else if wide then [lo, hi] else [lo]
  let e1 := match key with
    | some k => if acc.gone = 0 && acc.bad = 0 then e.putMissed k acc.flags range ps else e.puts true ps
    | none => e.puts true ps
  let t1 := { e1.t with fflags := e1.t.fflags ||| acc.flags }
  let t2 := t1.markAbsent (acc.gone &&& ~~~acc.bad)
  let t3 := match acc.badVa with | some va => t2.defer id acc.bad va pc | none => t2
  { e1 with t := t3.finishOp id }

def LoadAcc.empty : LoadAcc := { vals := [], flags := 0, gone := 0, bad := 0, badVa := none }

/-! ### Performing each kind -/

/-- A store's accesses in ascending lane order (R205); one of 8 bytes is two of 4 (R179). -/
def storeAccs (s : State) (core ctx n : Nat) (accs : List LaneAcc) : State :=
  match accs with
  | [] => s
  | a :: rest =>
    if a.absent then storeAccs s core ctx n rest
    else if inKick a.pa then storeAccs (s.kickStore a.pa n a.a) core ctx n rest
    else
      let put (s : State) (pa : Nat) (bs : List Byte) : State :=
        (s.modCore core (fun co => co.storeL1 pa bs)).homeWrite (.core core) (some ctx) pa bs
      let bs := leBytes n a.a.toNat
      storeAccs (if n = 8 then put (put s a.pa (bs.take 4)) (a.pa + 4) (bs.drop 4) else put s a.pa bs) core ctx n rest

/-- The new value of a word under an atomic operation (R208); b and b1 are vb and vb+1. -/
def atomNew (op : Nat) (old b : Nat) : Nat :=
  let m32 := 2 ^ 32
  match op with
  | 0 => (old + b) % m32
  | 1 => (old + b) % 2 ^ 64
  | 2 => (rneF32 (numAdd rne (decodeFmt fmtFp32 old) (decodeFmt fmtFp32 b)).val).toNat
  | 3 => b % m32
  | 4 => if sextInt old 32 < sextInt b 32 then b % m32 else old
  | 5 => if sextInt b 32 < sextInt old 32 then b % m32 else old
  | 6 => old ||| (b % m32)
  | _ => max old (maxiPack .float (b % m32) (b / m32))

/-- What an atomic returns to its registers: the old word, unpacked for `maxi` (R208). -/
def atomResult (op old : Nat) : Nat :=
  if op = 7 then let (x, i) := maxiUnpack .float old; x + i * 2 ^ 32 else old

def atomWide (op : Nat) : Bool := op = 1 || op = 7

def Writer.isCore (w : Writer) : Bool := match w with | .core _ => true | _ => false

/-- One read-modify-write at a home slice: the old word, or none when it is uncorrectable. An atomic that leaves the word as it is does
not write (R178, R208); an engine's update is a write in any case (R260). -/
def State.rmw (s : State) (w : Writer) (core : Option Nat) (ctx : Option Nat) (pa n : Nat) (f : Nat → Nat) : Option Nat × State :=
  if s.bad pa n then (none, s)
  else
    let old := s.peek pa n
    let new := f old
    let s1 := match core with
      | some k => (wordsOf pa n).foldl (fun st wd => st.modCore k (fun co => co.dropWord wd)) s
      | none => s
    (some old, if new = old && w.isCore then s1 else s1.homeWrite w ctx pa (leBytes n new))

/-- The lanes of an atomic in ascending order (R209): each returned value enters `acc`. -/
def atomAccs (e : Env) (n : Nat) (f : LaneAcc → Nat → Nat) (g : Nat → Nat) (accs : List LaneAcc) (acc : LoadAcc) : LoadAcc × Env :=
  match accs with
  | [] => (acc, e)
  | a :: rest =>
    if a.absent then
      atomAccs e n f g rest { acc with vals := smapSet acc.vals a.lane 0, gone := acc.gone ||| laneBit a.lane }
    else if inKick a.pa then
      atomAccs (e.via (fun s => s.modQueue ((a.pa - kickBase) / 256) (fun q => { q with width := true }))) n f g rest
        { acc with vals := smapSet acc.vals a.lane 0 }
    else
      let s0 := e.commit
      let (old, s1) := s0.rmw (.core e.c.core) (some e.c.core) (some e.c.ctx) a.pa n (f a)
      match old with
      | none => atomAccs (e.reload (s1.consumeUes e.c.ctx acc.badVa.isSome [a.pa])) n f g rest
                  { acc with bad := acc.bad ||| laneBit a.lane, badVa := minVa acc.badVa a.va }
      | some v =>
        let s2 := if hostBase ≤ a.pa then s1.countAtomic e.c.ctx a.pa (some a.va) true else s1
        atomAccs (e.reload s2) n f g rest { acc with vals := smapSet acc.vals a.lane (g v) }

/-- A protected unit of a local buffer, as `ue` names it. -/
def bufUnit (core : Nat) (sp : Space) (a : Nat) : Nat :=
  2 ^ 80 + core * 2 ^ 24 + (match sp with | .wbuf => 0 | .abuf => 1 | .cbuf => 2) * 2 ^ 20 + a / 32

/-- A load, atomic, store or local access performed and its values delivered (R179, R204 to R211). Other kinds of
operation are performed by their engines. -/
def Env.performMem (e : Env) (p : Pending) : Env :=
  match p.kind with
  | .load ty vd els uni key acc0 =>
    let (acc, e1) := loadElems e ty (splitEls els) acc0
    e1.arrive p.id vd (ty = .b64) uni p.pc key none acc
  | .store n accs =>
    let e1 := e.via (fun s => storeAccs s e.c.core e.c.ctx n accs)
    let gone := maskOf (fun l => accs.any (fun a => a.lane = l && a.absent))
    { e1 with t := (e1.t.markAbsent gone).finishOp p.id }
  | .atom op vd accs =>
    let (acc, e1) := atomAccs e (if atomWide op then 8 else 4) (fun a old => atomNew op old a.a.toNat) (atomResult op) accs .empty
    e1.arrive p.id vd (atomWide op) false p.pc none none acc
  | .cas wide vd accs =>
    let (acc, e1) := atomAccs e (if wide then 8 else 4) (fun a old => if old = a.b.toNat then a.a.toNat else old) (fun v => v) accs .empty
    e1.arrive p.id vd wide false p.pc none none acc
  | .ldb sp vd accs uni key =>
    -- the words were read at the buffer when the instruction issued (R173); here they arrive
    let acc : LoadAcc := accs.foldl (fun acc a =>
        if a.absent then { acc with bad := acc.bad ||| laneBit a.lane, badVa := minVa acc.badVa a.va }
        else { acc with vals := smapSet acc.vals a.lane a.a.toNat }) .empty
    let range := match sp, accs with
      | .wbuf, a :: rest => some (rest.foldl (fun m x => min m x.pa) a.pa, rest.foldl (fun m x => max m (x.pa + 4)) (a.pa + 4))
      | _, _ => none
    let e1 := if acc.bad = 0 then e else e.via (fun s => s.countUe e.c.ctx)
    e1.arrive p.id vd false uni p.pc key range acc
  | .stb _ _ => { e with t := e.t.finishOp p.id }
  | _ => e

/-! ### Draining -/

/-- An operation of the lanes on memory or a local buffer. -/
def Pending.isMem (p : Pending) : Bool :=
  match p.kind with
  | .load .. => true
  | .store .. => true
  | .atom .. => true
  | .cas .. => true
  | .ldb .. => true
  | .stb .. => true
  | _ => false

/-- The words an element's reading touches, its block scale's among them (R201). -/
def Elem.touches (x : Elem) : List Nat :=
  if x.absent then [] else wordsOf x.pa x.size ++ (match x.scale with | some spa => wordsOf spa (geomScaleSize x.geom) | none => [])

/-- The words an operation touches. -/
def Pending.touches (p : Pending) : List Nat :=
  match p.kind with
  | .load _ _ els _ _ _ => els.flatMap Elem.touches
  | .store n accs => accs.flatMap (fun a => wordsOf a.pa n)
  | .atom _ _ accs => accs.flatMap (fun a => wordsOf a.pa 8)
  | .cas _ _ accs => accs.flatMap (fun a => wordsOf a.pa 8)
  | _ => []

/-- Of the older operations, youngest first, those that must be performed before one that touches `words`: the accesses
to one word keep program order (R179). The answer is oldest first. -/
def conflicting (older : List Pending) (words : List Nat) : List Pending :=
  match older with
  | [] => []
  | p :: rest =>
    if p.isMem && !p.done && p.touches.any (fun w => words.contains w) then
      conflicting rest (words ++ p.touches) ++ [p]
    else conflicting rest words

/-- The operations of a list performed in order. -/
def Env.performAll (e : Env) (ps : List Pending) : Env := ps.foldl (fun e p => e.performMem p) e

/-- One operation of the lanes performed, with the older ones its words make come first. -/
def Env.performOp (e : Env) (id : Nat) : Env :=
  match e.t.inflight.find? (fun p => p.id = id && p.isMem && !p.done) with
  | none => e
  | some p =>
    let older := (e.t.inflight.filter (fun q => q.id < id)).reverse
    (e.performAll (conflicting older p.touches)).performMem p

/-- Every operation of the strand that satisfies `want` performed in issue order, with the older ones that their words make come first. -/
def Env.drain (e : Env) (want : Pending → Bool) : Env :=
  (e.t.inflight.filter (fun p => p.isMem && !p.done && want p)).foldl (fun e p => e.performOp p.id) e

/-- Step 3 of R426, `rel` and the ends that wait for the lanes' memory operations: all of them. -/
def Env.drainMem (e : Env) : Env := e.drain (fun _ => true)

/-- One access of a load or store in flight performed before the rest of its instruction (R179): the accesses of other lanes, other
elements and the two halves of 8 bytes are separate, but for a load from a uniform address, where one access serves all lanes. Of a
store, only an access whose bytes no earlier lane of it stores goes first (R205). -/
def Env.partOp (e0 : Env) (id i : Nat) : Env :=
  match e0.t.inflight.find? (fun p => p.id = id && !p.done) with
  | none => e0
  | some p =>
    let older := (e0.t.inflight.filter (fun q => q.id < id)).reverse
    let keep (e : Env) (k : OpKind) : Env :=
      { e with t := { e.t with inflight := modWhere e.t.inflight (fun q => q.id = id) (fun q => { q with kind := k }) } }
    match p.kind with
    | .load ty vd els uni key acc =>
      let xs := splitEls els
      match xs[i]? with
      | none => e0
      | some x =>
        let e := e0.performAll (conflicting older x.touches)
        let same (y : Elem) : Bool := y.pa = x.pa && y.nib = x.nib && y.sh = x.sh
        let now := if uni then xs.filter same else [x]
        let (acc1, e1) := loadElems e ty now acc
        keep e1 (.load ty vd (if uni then xs.filter (fun y => !same y) else xs.eraseIdx i) uni key acc1)
    | .store n accs =>
      let halves (a : LaneAcc) : List LaneAcc :=
        [{ a with a := BitVec.ofNat 64 (a.a.toNat % 2 ^ 32) }, { a with va := a.va + 4, pa := a.pa + 4, a := a.a >>> 32 }]
      let split := n = 8 && accs.all (fun a => !inKick a.pa)
      let m := if split then 4 else n
      let xs := if split then accs.flatMap halves else accs
      match xs[i]? with
      | none => e0
      | some x =>
        if x.absent || (n = 8 && !split) || (xs.take i).any (fun y => !y.absent && (wordsOf y.pa m).any (fun w => (wordsOf x.pa m).contains w)) then e0
        else
          let e := e0.performAll (conflicting older (wordsOf x.pa m))
          keep (e.via (fun s => storeAccs s e.c.core e.c.ctx m [x])) (.store m (xs.eraseIdx i))
    | _ => e0

/-- `rel` (R180): earlier lane stores and earlier atomics performed and acknowledged. DESIGN CHOICE (assumption 77): earlier loads are
performed here too, which R180 does not ask and R179 allows. -/
def Env.release (e : Env) : Env := e.drainMem

/-- `acq` (R180): every earlier load performed, then every valid non-owned word of the core's L1 invalidated. DESIGN CHOICE (assumption
77): earlier stores and atomics of the strand are performed here too, for `acq`, `txb` and an atomic with `.acq`; R180 leaves their
order open. -/
def Env.acquire (e : Env) : Env :=
  let e1 := e.drainMem
  { e1 with s := e1.s.acquireL1 e.c.core }

end Sys2Proof.Machine
end

