-- ==== Sys2Proof/Machine/SlotImage.lean ====
section
/-! DEFINITION. The records of a save slot (spec/15_contexts_and_preemption.md R348, R349): the crew header and restart record, the
strand headers, the register map and data, the traversal queries and the strands' restart records. The manual lists what a header holds
and gives its place and size; the order and widths inside it are a DESIGN CHOICE (assumption 49). What a restore reads is what the slot
holds (R334): a record that still is what was written gives back exactly what it was written from. -/

namespace Sys2Proof.Machine

/-! ### Places (R333, R348) -/

def slotBase (s : State) (c : Crew) : Nat := (s.ctx c.ctx).saveBase.toNat + c.slot * 2 ^ 21
def strandRec (s : State) (c : Crew) (i : Nat) : Nat := slotBase s c + 0x1000 + i * 0x2000

/-- Bytes that the device itself writes at a physical address, page by page: a page with no memory, a retired one among them, takes
nothing (R455, R460), and every writer marks pages dirty (R382). -/
def State.device (s : State) (pa : Nat) (bs : List Byte) : State :=
  let first := pa / 2 ^ 14
  (List.range ((pa + bs.length) / 2 ^ 14 - first + 1)).foldl (fun st i =>
    let lo := max pa ((first + i) * 2 ^ 14)
    let part := (bs.drop (lo - pa)).take ((first + i + 1) * 2 ^ 14 - lo)
    if part.isEmpty || !st.hasMemory lo then st
    else ({ st with mem := Memory.writeBytes st.mem lo part } : State).markDirty lo part.length) s

/-- A record: fields with their widths in bytes, one after another. -/
def packed (fs : List (Nat × Nat)) : List Byte := fs.flatMap (fun f => leBytes f.1 f.2)

/-- Eight lanes' fields of one width. -/
def lanePack {α : Type} (w : Nat) (x : L8 α) (f : α → Nat) : List (Nat × Nat) := x.toList.map (fun v => (w, f v))

/-! ### Registers (R349) -/

/-- `save_reg`: the map byte and the bytes of a register (R349). -/
def saveReg (r : Reg) : Nat × List Byte :=
  match r.tag with
  | .uniform => (0, leBytes 4 r.lanes.l0.toNat)
  | .affine => (1, leBytes 4 r.lanes.l0.toNat ++ leBytes 4 (r.lanes.l1 - r.lanes.l0).toNat)
  | .general =>
    let base := r.lanes.l0
    let ds := r.lanes.toList.map (fun x => sextInt (x - base).toNat 32)
    if ds.all (fun d => decide (-128 ≤ d) && decide (d ≤ 127)) then
      (6, leBytes 4 base.toNat ++ ds.flatMap (fun d => leBytes 1 (wrapNat d 8)))
    else if ds.all (fun d => decide (-32768 ≤ d) && decide (d ≤ 32767)) then
      (10, leBytes 4 base.toNat ++ ds.flatMap (fun d => leBytes 2 (wrapNat d 16)))
    else (14, r.lanes.toList.flatMap (fun x => leBytes 4 x.toNat))

/-- A stored register and the bytes it took. -/
def loadReg (map : Nat) (bs : List Byte) : Reg × Nat :=
  let mk (tag : Tag) (f : Nat → Nat) : Reg := { tag := tag, lanes := L8.ofFn (fun l => BitVec.ofNat 32 (f l)), loc := 0, bad := false }
  let base := leAt bs 0 4
  match map % 4, map / 4 % 4 with
  | 0, _ => (mk .uniform (fun _ => base), 4)
  | 1, _ => (mk .affine (fun l => base + leAt bs 4 4 * l), 8)
  | _, 1 => (mk .general (fun l => wrapNat (base + sextInt (leAt bs (4 + l) 1) 8) 32), 12)
  | _, 2 => (mk .general (fun l => wrapNat (base + sextInt (leAt bs (4 + 2 * l) 2) 16) 32), 20)
  | _, _ => (mk .general (fun l => leAt bs (4 * l) 4), 32)

/-- A list of registers: their map bytes and their packed data. -/
def regMap (rs : List Reg) : List Byte := rs.map (fun r => BitVec.ofNat 8 (saveReg r).1)
def regData (rs : List Reg) : List Byte := rs.flatMap (fun r => (saveReg r).2)

/-- Registers read back from their map bytes and data. -/
def unpackRegs (maps data : List Byte) : List Reg :=
  (maps.foldl (fun acc b =>
    let (r, k) := loadReg b.toNat (data.drop acc.2)
    (acc.1 ++ [r], acc.2 + k)) (([] : List Reg), 0)).1

/-- `n` registers read back from a strand's record. -/
def loadRegs (m : Memory) (rec n : Nat) : List Reg :=
  unpackRegs (Memory.readBytes m (rec + 0x400) n) (Memory.readBytes m (rec + 0x440) 2048)

/-! ### A strand's header -/

/-- The thresholds of a `wait` or `waitx` in eight bytes. -/
def Thresholds.pack (x : Thresholds) : Nat :=
  leNat ([x.ld, x.st, x.cp, x.mx, x.tr, x.sr, x.cl].map (BitVec.ofNat 8))
def Thresholds.unpack (n : Nat) : Thresholds :=
  let f (i : Nat) : Nat := n / 2 ^ (8 * i) % 64
  { ld := f 0, st := f 1, cp := f 2, mx := f 3, tr := f 4, sr := f 5, cl := f 6 }

/-- A thread state as its code and its wait data (the end of a `sleep`, the deadline of a `waita` or `sleepu`, a slot, thresholds). -/
def ThState.code : ThState → Nat × Nat
  | .running => (0, 0)
  | .parked => (1, 0)
  | .waiting (.bar b) => (2, b)
  | .waiting .gbar => (3, 0)
  | .waiting .sbar => (4, 0)
  | .waiting (.idem closing) => (if closing then 6 else 5, 0)
  | .waiting (.counters x) => (7, x.pack)
  | .waiting (.waita _ _ d _ _ _) => (8, d.toNat)
  | .waiting (.sleep n) => (9, n)
  | .waiting (.sleepu d) => (10, d.toNat)
  | .waiting .rgrow => (11, 0)
  | .exited => (255, 0)

/-- The state that a code names; one that needs more than the record holds leaves the state as it is. -/
def ThState.ofCode (now : ThState) (code data : Nat) : ThState :=
  match code with
  | 0 => .running
  | 1 => .parked
  | 2 => .waiting (.bar data)
  | 3 => .waiting .gbar
  | 4 => .waiting .sbar
  | 5 => .waiting (.idem false)
  | 6 => .waiting (.idem true)
  | 7 => .waiting (.counters (Thresholds.unpack data))
  | 8 => match now with
    | .waiting (.waita pa x _ vd pd w) => .waiting (.waita pa x (BitVec.ofNat 64 data) vd pd w)
    | st => st
  | 9 => .waiting (.sleep data)
  | 10 => .waiting (.sleepu (BitVec.ofNat 64 data))
  | 11 => .waiting .rgrow
  | 255 => .exited
  | _ => now

def TrapRec.pack (r : TrapRec) : List (Nat × Nat) :=
  let flag (b : Bool) (i : Nat) : Nat := if b then 2 ^ i else 0
  [(2, r.code.toNat), (1, flag r.defer 0 + flag r.inh 1 + flag r.part 2 + flag r.next 3), (1, r.cause.toNat), (4, r.mask.toNat), (8, r.va.toNat),
   (8, r.pc.toNat), (4, r.src.toNat)]

def TrapRec.unpack (b : List Byte) : TrapRec :=
  let fl := leAt b 2 1
  { code := BitVec.ofNat 12 (leAt b 0 2), defer := fl.testBit 0, inh := fl.testBit 1, part := fl.testBit 2, next := fl.testBit 3,
    cause := BitVec.ofNat 4 (leAt b 3 1), mask := BitVec.ofNat 8 (leAt b 4 4), va := BitVec.ofNat 57 (leAt b 8 8),
    pc := BitVec.ofNat 57 (leAt b 16 8), src := BitVec.ofNat 32 (leAt b 24 4) }

/-- The header of a strand record. -/
def Strand.header (t : Strand) : List Byte :=
  let th := t.threads
  let flag (b : Bool) : Nat := if b then 1 else 0
  packed (lanePack 8 th (fun x => x.pc.toNat) ++ lanePack 4 th (fun x => x.meeting.toNat)
    ++ lanePack 1 th (fun x => x.state.code.1) ++ lanePack 8 th (fun x => x.state.code.2)
    ++ lanePack 8 th (fun x => x.draws.toNat) ++ lanePack 4 th (fun x => x.copies) ++ lanePack 4 th (fun x => x.swDraws)
    ++ (t.preds.toList.drop 1).map (fun p => (1, p.toNat)) ++ [(1, 0)]
    ++ [(4, t.count .ld + 256 * t.count .st + 65536 * t.count .cp + 2 ^ 24 * t.count .mx), (4, t.count .tr + 256 * t.count .sr + 65536 * t.count .cl)]
    ++ [(4, t.fflags.toNat), (4, t.repleft.toNat), (4, t.regs.length), (1, flag t.emerg), (1, flag t.resume),
        (2, match t.repHeld with | some r => r.1 | none => 0), (4, t.timer), (4, t.fldev.toNat)]
    ++ lanePack 1 th (fun x => x.tx.state) ++ lanePack 4 th (fun x => x.tx.fails)
    ++ lanePack 1 th (fun x => x.query.status) ++ lanePack 1 th (fun x => x.query.reason)
    ++ [(4, t.grow.getD 0), (4, t.growAge)] ++ t.trap.pack)

/-- A strand with what its header holds. A header that is as it was written gives the strand back, but without the emergency group, which
was refilled when the strand was saved (R147). -/
def Strand.ofHeader (t : Strand) (b : List Byte) : Strand :=
  if b = t.header then { t with emerg := false }
  else
    let threads := t.threads.mapi (fun l x =>
      { x with
        pc := BitVec.ofNat 57 (leAt b (8 * l) 8), meeting := BitVec.ofNat 32 (leAt b (0x40 + 4 * l) 4)
        state := x.state.ofCode (leAt b (0x60 + l) 1) (leAt b (0x68 + 8 * l) 8)
        draws := BitVec.ofNat 64 (leAt b (0xA8 + 8 * l) 8), copies := leAt b (0xE8 + 4 * l) 4, swDraws := leAt b (0x108 + 4 * l) 4
        tx := { x.tx with state := leAt b (0x150 + l) 1, fails := leAt b (0x158 + 4 * l) 4 }
        query := { x.query with status := leAt b (0x178 + l) 1, reason := leAt b (0x180 + l) 1 } })
    { t with
      threads := threads
      preds := t.preds.mapi (fun p x => if p = 0 then x else BitVec.ofNat 8 (leAt b (0x127 + p) 1))
      fflags := BitVec.ofNat 5 (leAt b 0x138 4), repleft := BitVec.ofNat 32 (leAt b 0x13C 4), emerg := leAt b 0x144 1 = 1
      resume := leAt b 0x145 1 = 1
      repHeld := if leAt b 0x146 2 = 0 then none else some (leAt b 0x146 2, (t.repHeld.map Prod.snd).getD (leAt b 0x146 2 + leAt b 0x13C 4))
      grow := if leAt b 0x188 4 = 0 then none else some (leAt b 0x188 4), growAge := leAt b 0x18C 4
      timer := leAt b 0x148 4, fldev := BitVec.ofNat 3 (leAt b 0x14C 4), trap := TrapRec.unpack (b.drop 0x190) }

/-! ### Traversal queries -/

/-- A hit's image: prim, geom, its flags, and t, b1 and b2 as FP32. -/
def hitPack (h : Option Hit) : List (Nat × Nat) :=
  match h with
  | .some h => [(4, h.prim.toNat), (4, h.geom.toNat), (1, if h.proc then 3 else 1), (4, (rneF32 h.t).toNat), (4, (rneF32 h.b1).toNat), (4, (rneF32 h.b2).toNat)]
  | .none => [(4, 0), (4, 0), (1, 0), (4, 0), (4, 0), (4, 0)]

def hitUnpack (b : List Byte) : Option Hit :=
  let f (o : Nat) : Num := decodeFmt fmtFp32 (leAt b o 4)
  if leAt b 8 1 = 0 then .none
  else .some { t := f 9, b1 := f 13, b2 := f 17, prim := BitVec.ofNat 32 (leAt b 0 4), geom := BitVec.ofNat 32 (leAt b 4 4), proc := (leAt b 8 1).testBit 1 }

/-- An entry of a query's stack: its kind, the records that a leaf has left, its reference, and a procedural leaf's distance as FP32. -/
def todoPack (x : Todo) : List (Nat × Nat) :=
  match x with
  | .node r => [(1, 1), (4, r), (4, 0)]
  | .tris r n => [(1, 2 + 4 * n), (4, r), (4, 0)]
  | .proc r d => [(1, 3), (4, r.toNat), (4, (rneF32 d).toNat)]

def todoUnpack (b : List Byte) : Option Todo :=
  match leAt b 0 1 % 4 with
  | 1 => .some (.node (leAt b 1 4))
  | 2 => .some (.tris (leAt b 1 4) (leAt b 0 1 / 4))
  | 3 => .some (.proc (BitVec.ofNat 32 (leAt b 1 4)) (decodeFmt fmtFp32 (leAt b 5 4)))
  | _ => .none

/-- A lane's query: its ray, its committed hit and candidate, its done bit, and its stack as far as it fits, nearest first. -/
def Query.image (q : Query) : List Byte :=
  packed ((List.range 10).map (fun i => (4, (q.ray.getD i 0).toNat)) ++ hitPack q.hit ++ hitPack q.cand ++ [(1, if q.done.isSome then 1 else 0)]
    ++ (q.todo.take 33).flatMap todoPack ++ List.replicate (9 * (33 - q.todo.length)) (1, 0))

/-- A query with what its image holds; an image as it was written changes nothing. A done bit that software has set stands for the
instruction at `pc`. -/
def Query.ofImage (q : Query) (pc : VAddr) (b : List Byte) : Query :=
  if b = q.image then q
  else
    let hit := hitUnpack (b.drop 40)
    let ray := (List.range 10).map (fun i => BitVec.ofNat 32 (leAt b (4 * i) 4))
    { q with
      ray := ray, hit := hit, cand := hitUnpack (b.drop 61), done := if leAt b 82 1 = 0 then .none else .some (q.done.getD pc)
      limit := match hit with | .some h => h.t | .none => decodeFmt fmtFp32 (ray.getD 7 0).toNat
      todo := (List.range 33).filterMap (fun i => todoUnpack (b.drop (83 + 9 * i))) ++ q.todo.drop 33 }

/-! ### The crew header -/

def Binding.pack (b : Binding) : List (Nat × Nat) :=
  let flag (x : Bool) (i : Nat) : Nat := if x then 2 ^ i else 0
  [(8, b.frame), (8, match b.flushed with | some f => f + 1 | none => 0), (4, b.y), (4, b.x),
   (1, flag b.bound 0 + flag b.dir 1 + flag b.wrap 2 + flag b.closed 3 + flag b.lateInh 4), (1, b.session), (6, 0)]

def Binding.unpack (b : List Byte) : Binding :=
  let fl := leAt b 24 1
  { bound := fl.testBit 0, dir := fl.testBit 1, wrap := fl.testBit 2, closed := fl.testBit 3, lateInh := fl.testBit 4,
    session := leAt b 25 1 % 64, frame := leAt b 0 8, flushed := if leAt b 8 8 = 0 then none else some (leAt b 8 8 - 1),
    y := leAt b 16 4, x := leAt b 20 4 }

/-- Sixteen bindings, of which a crew without streams has none. -/
def bindsPack (bs : List Binding) : List (Nat × Nat) :=
  bs.flatMap Binding.pack ++ List.replicate (512 - 32 * bs.length) (1, 0)

def bindsUnpack (n : Nat) (b : List Byte) : List Binding := (List.range n).map (fun i => Binding.unpack (b.drop (32 * i)))

def tablesPack (xpat xtab : List Word) : List (Nat × Nat) := (xpat ++ xtab).map (fun w => (4, w.toNat))
def wordsAt (b : List Byte) (off n : Nat) : List Word := (List.range n).map (fun i => BitVec.ofNat 32 (leAt b (off + 4 * i) 4))

/-- A prefix that a convergence register has recorded. -/
def rndPack (r : Option RndSt) : Nat :=
  match r with
  | none => 0
  | some x => 1 + 2 * (match x.mode with | some m => 1 + m.toNat | none => 0) + 32 * (match x.sat with | some y => 1 + (if y then 1 else 0) | none => 0)

def rndUnpack (n : Nat) : Option RndSt :=
  if n = 0 then none
  else some { mode := if n / 2 % 16 = 0 then none else some (BitVec.ofNat 3 (n / 2 % 16 - 1)), sat := if n / 32 % 4 = 0 then none else some (decide (n / 32 % 4 = 2)) }

/-- A bank's row events, one byte each, read back. -/
def eventsUnpack (b : List Byte) : SMap (BitVec 3) :=
  (List.range 64).filterMap (fun r => if leAt b r 1 = 0 then none else some (r, BitVec.ofNat 3 (leAt b r 1)))

/-- A convergence register with what its 20 bytes hold. -/
def Conv.unpack (c : Conv) (b : List Byte) : Conv :=
  { c with decl := leAt b 0 4, sigs := leAt b 4 4, key := if leAt b 8 8 = 0 then none else some (leAt b 8 8 - 1, rndUnpack (leAt b 16 4)) }

/-- The Swage's part of a crew header: HELD, ACT, modes, shape registers, row events and convergence registers. -/
def Swage.pack (w : Swage) : List (Nat × Nat) :=
  let flag (b : Bool) : Nat := if b then 1 else 0
  let events (b : Bank) : List (Nat × Nat) := (List.range 64).map (fun r => (1, ((smapGet b.events r).getD 0).toNat))
  [(1, 1), (1, flag w.act), (1, flag w.bank0.int), (1, flag w.bank1.int)] ++ w.tiles.map (fun t => (4, t.shape.toNat))
    ++ events w.bank0 ++ events w.bank1
    ++ w.cvs.flatMap (fun c => [(4, c.decl), (4, c.sigs), (8, match c.key with | some k => k.1 + 1 | none => 0),
        (4, match c.key with | some k => rndPack k.2 | none => 0)])

/-- A Swage with what that part holds. -/
def Swage.unpack (w : Swage) (b : List Byte) : Swage :=
  let bank (x : Bank) (mode : Nat) (at_ : Nat) : Bank := { x with int := leAt b mode 1 = 1, events := eventsUnpack (b.drop at_) }
  { act := leAt b 1 1 = 1, bank0 := bank w.bank0 2 68, bank1 := bank w.bank1 3 132
    tiles := w.tiles.zipIdx.map (fun p => { p.1 with shape := BitVec.ofNat 32 (leAt b (4 + 4 * p.2) 4) })
    cvs := w.cvs.zipIdx.map (fun p => p.1.unpack (b.drop (196 + 20 * p.2))) }

/-- The gang barrier state of a crew: how many of its threads wait in `gbar` (R149). -/
def Crew.gbarWaits (c : Crew) : Nat :=
  c.strands.foldl (fun n t => n + (lanesOf (t.lanesWhere (fun x => x.state = .waiting .gbar))).length) 0

/-- The crew header. -/
def Crew.header (c : Crew) : List Byte :=
  let flag (b : Bool) : Nat := if b then 1 else 0
  packed ([(8, c.seq), (4, c.idx), (4, c.gang), (4, c.stage), (4, c.strands.length), (4, c.gangSize), (1, flag c.gangFall), (1, flag c.progress), (2, c.gbarWaits),
      (4, c.vnhits.toNat), (4, c.vndedup.toNat), (4, c.vncoll.toNat), (4, c.sbars)]
    ++ tablesPack c.xpat c.xtab ++ [(4, c.wclaim.size), (4, c.aclaim.size), (4, c.cclaim.size)]
    ++ (c.bars.map (fun b => (4, b.count + 65536 * flag b.gen)) ++ List.replicate (16 - c.bars.length) (4, 0))
    ++ bindsPack c.binds
    ++ (match c.swage with | some w => w.pack | none => [(4, 0)]))

/-- A crew with what its header holds; a header as it was written changes nothing. -/
def Crew.ofHeader (c : Crew) (b : List Byte) : Crew :=
  if b = c.header then c
  else
    { c with
      gangSize := leAt b 0x18 4, gangFall := leAt b 0x1C 1 = 1, progress := leAt b 0x1D 1 = 1
      vnhits := BitVec.ofNat 32 (leAt b 0x20 4), vndedup := BitVec.ofNat 32 (leAt b 0x24 4)
      vncoll := BitVec.ofNat 32 (leAt b 0x28 4), sbars := leAt b 0x2C 4, xpat := wordsAt b 0x30 16, xtab := wordsAt b 0x70 8
      bars := c.bars.zipIdx.map (fun p => ⟨leAt b (0x9C + 4 * p.2) 2, leAt b (0x9E + 4 * p.2) 1 = 1⟩)
      binds := bindsUnpack c.binds.length (b.drop 0xDC)
      swage := c.swage.map (fun w => w.unpack (b.drop 0x2DC)) }

/-! ### Restart records (R342, R346) -/

/-- The crew's part. -/
def Restart.crewImage (r : Restart) : List Byte :=
  packed ([(4, r.sbars), (1, if r.progress then 1 else 0), (1, if r.held then 1 else 0), (2, 0)] ++ tablesPack r.xpat r.xtab ++ bindsPack r.binds)

/-- A strand's part. -/
def StrandRestart.image (r : StrandRestart) : List Byte :=
  packed (lanePack 8 r.pc (fun x => x.toNat) ++ [(4, r.exited.toNat)] ++ lanePack 4 r.meeting (fun x => x.toNat)
      ++ lanePack 8 r.draws (fun x => x.toNat) ++ lanePack 4 r.copies id ++ lanePack 4 r.swDraws id
      ++ [(4, r.fflags.toNat), (4, r.fldev.toNat), (4, r.regcount)])
    ++ (regMap r.regs ++ List.replicate (8 - r.regs.length) 0) ++ regData r.regs

def StrandRestart.ofImage (r : StrandRestart) (b : List Byte) : StrandRestart :=
  if b = r.image then r
  else
    { pc := L8.ofFn (fun l => BitVec.ofNat 57 (leAt b (8 * l) 8)), exited := BitVec.ofNat 8 (leAt b 0x40 4),
      meeting := L8.ofFn (fun l => BitVec.ofNat 32 (leAt b (0x44 + 4 * l) 4)), draws := L8.ofFn (fun l => BitVec.ofNat 64 (leAt b (0x64 + 8 * l) 8)),
      copies := L8.ofFn (fun l => leAt b (0xA4 + 4 * l) 4), swDraws := L8.ofFn (fun l => leAt b (0xC4 + 4 * l) 4),
      fflags := BitVec.ofNat 5 (leAt b 0xE4 4), fldev := BitVec.ofNat 3 (leAt b 0xE8 4), regcount := leAt b 0xEC 4,
      regs := unpackRegs ((b.drop 0xF0).take r.regs.length) (b.drop 0xF8) }

/-- A restart record as the slot holds it now. -/
def Restart.read (r : Restart) (m : Memory) (crewAt : Nat) (strandAt : Nat → Nat) : Restart :=
  let b := Memory.readBytes m crewAt r.crewImage.length
  let r1 : Restart := { r with strands := r.strands.zipIdx.map (fun p => p.1.ofImage (Memory.readBytes m (strandAt p.2) p.1.image.length)) }
  if b = r.crewImage then r1
  else
    { r1 with
      sbars := leAt b 0 4, progress := leAt b 4 1 = 1, held := leAt b 5 1 = 1, xpat := wordsAt b 8 16, xtab := wordsAt b 0x48 8
      binds := bindsUnpack r.binds.length (b.drop 0x68) }

/-! ### A strand's record -/

/-- Header, register map and data, and the queries of the lanes. -/
def State.writeStrandRec (s : State) (rec : Nat) (t : Strand) : State :=
  let s1 := ((s.device rec t.header).device (rec + 0x400) (regMap t.regs)).device (rec + 0x440) (regData t.regs)
  t.threads.toList.zipIdx.foldl (fun st p => st.device (rec + 0x1000 + 0x180 * p.2) p.1.query.image) s1

/-- A strand as its record gives it back, its registers as many as the header says. -/
def Strand.readRec (t : Strand) (m : Memory) (rec : Nat) : Strand :=
  let b := Memory.readBytes m rec t.header.length
  let t1 := t.ofHeader b
  let n := if b = t.header then t.regs.length else min 64 (leAt b 0x140 4)
  { t1 with
    regs := loadRegs m rec n
    threads := t1.threads.mapi (fun l x => { x with query := x.query.ofImage x.pc (Memory.readBytes m (rec + 0x1000 + 0x180 * l) x.query.image.length) }) }

end Sys2Proof.Machine
end

