-- ==== Sys2Proof/Machine/Snapshot.lean ====
section
/-! DEFINITION. The snapshot unit and the device error record (spec/21_bellows_repair_and_bring_up.md R459, R461, R462), the
deadline heap's top (spec/14_queues_deadlines_and_dispatch.md R322) and comparisons of device times. -/

namespace Sys2Proof.Machine

/-! ### Device times and the heap's top (R322) -/

def State.reached (s : State) (t : DWord) : Bool := t ≤ s.clock
def State.passed (s : State) (t : DWord) : Bool := t < s.clock

/-- Comparison of lists of keys, smaller first. -/
def lexLe : List Nat → List Nat → Bool
  | [], _ => true
  | _ :: _, [] => false
  | a :: r, b :: q => a < b || (a = b && lexLe r q)

/-- An entry of the heap: admitted, not all of its crews placed. -/
def Launch.inHeap (l : Launch) : Bool := l.phase = .heap || l.phase = .placing

def State.top (s : State) : Option Launch :=
  (s.launches.filter (fun l => l.inHeap && s.reached l.pkt.earliest && !(s.ctx l.ctx).frozen)).foldl (fun best l =>
    match best with
    | none => some l
    | some b => if lexLe [b.pkt.deadline.toNat, b.seq] [l.pkt.deadline.toNat, l.seq] then some b else some l) none

/-! ### What the snapshot areas hold (R461) -/

/-- The strand's state code: 0 free, 1 running, 2 waiting, 3 in handler. -/
def Strand.snapState (t : Strand) : Nat :=
  if t.ended then 0 else if t.inHandler then 3
  else if t.lanesWhere Thread.isRunning ≠ 0 then 1 else 2

/-- `ctl.cnt0` (R185). -/
def Strand.cnt0 (t : Strand) : Nat := t.count .ld + 2 ^ 6 * t.count .st + 2 ^ 12 * t.count .cp + 2 ^ 18 * t.count .mx

/-- The eight bytes of one strand: the lowest running thread's program counter, `ctl.cnt0` and the state. -/
def Strand.snapBytes (t : Strand) : List Byte :=
  let run := t.lanesWhere Thread.isRunning
  leBytes 4 (if run = 0 then 0 else (t.thread (lowLane run)).pc.toNat) ++ leBytes 4 (t.cnt0 + 2 ^ 24 * t.snapState)

/-- A core's area, by strand number. -/
def State.snapCores (s : State) : List (Nat × List Byte) :=
  (s.crews.filter (fun c => c.state = .resident)).flatMap (fun c =>
    (c.strands.filter (fun t => t.snapState ≠ 0)).map (fun t => (0x180000 + 0x1000 * c.core + 8 * t.num, t.snapBytes)))

/-- A slice's area. Requests are performed one at a time and commits in one step, so the first two words are zero. -/
def State.snapSlices (s : State) : List (Nat × List Byte) :=
  (s.mig.map (fun g => homeSlice (g.page * 2 ^ 14))).eraseDups.map (fun h =>
    (0x1C0000 + 256 * h + 8, leBytes 4 ((s.mig.filter (fun g => homeSlice (g.page * 2 ^ 14) = h)).length)))

/-- LIVE of a context (R333). -/
def State.liveCount (s : State) (x : Nat) : Nat := (s.crews.filter (fun c => c.ctx = x && !c.walker && c.state ≠ .ended)).length

/-- Bellows' area. -/
def State.snapBellows (s : State) : List (Nat × List Byte) :=
  let (q, d) := match s.top with | some l => (l.seq, l.pkt.deadline.toNat) | none => (0, 0)
  [(0x1C8000, leBytes 8 ((s.launches.filter Launch.inHeap).length) ++ leBytes 8 q ++ leBytes 8 d
    ++ leBytes 8 (s.bellows.lastPull.getD 0) ++ (List.range 64).flatMap (fun x => leBytes 4 (s.liveCount x)))]

/-- PORTCTL (R389). -/
def Port.ctl (p : Port) : Nat :=
  p.mode.toNat + (if p.llyn then 4 else 0) + (if p.ptpEn then 8 else 0) + (if p.lp0.link then 2 ^ 10 else 0)
    + (if p.lp1.link then 2 ^ 11 else 0) + (if p.rej then 2 ^ 31 else 0)

def State.snapPorts (s : State) : List (Nat × List Byte) :=
  (List.range 4).map (fun p =>
    let x := s.port p
    let lp (l : LPort) : List Byte := leBytes 4 l.recv.toNat ++ leBytes 4 l.drop.toNat ++ leBytes 4 l.sent.toNat
    (0x1C9000 + 0x400 * p, if x.enabled then leBytes 4 x.ctl ++ lp x.lp0 ++ lp x.lp1 else []))

/-- The collective engines' area. -/
def State.snapProgs (s : State) : List (Nat × List Byte) :=
  let free := (s.lly.rows.filter (fun r => r.owner.isNone)).length
  let progs := (List.range 32).flatMap (fun k => match s.prog? k with
    | some p => leBytes 4 (k + 2 ^ 31) ++ leBytes 4 p.pc ++ (List.range 4).flatMap (fun i => leBytes 4 (p.loops.getD i 0))
    | none => [])
  [(0x1CA000, leBytes 4 free ++ leBytes 4 ((List.range 32).filter (fun k => (s.prog? k).isSome)).length ++ progs)]

/-- SNAPCTL and SNAPSRC (R462). -/
def Snap.ctl (x : Snap) : Nat := x.arm.toNat + (if x.latched then 2 ^ 31 else 0)
def Snap.srcWord (x : Snap) : Nat := x.swTag.toNat + 2 ^ 26 * x.src.toNat + 2 ^ 28 * x.srcSet.toNat

def Snap.area (x : Snap) : Nat × List Byte :=
  (0x1CB000, leBytes 4 x.ctl ++ leBytes 4 x.srcWord ++ leBytes 8 x.time.toNat ++ leBytes 8 x.ltime.toNat)

/-! ### Triggers (R462) -/

/-- A source at the latch edge: SRCSET, SRC and, for `snap`, its tag, strand number and core. Of several `snap` the one of the lowest
core, and there of the lowest strand number, is described. -/
def Snap.fire (x : Snap) (src : Nat) (sw : BitVec 12 × Nat × Nat) : Snap :=
  let srcs := x.srcSet ||| BitVec.ofNat 4 (2 ^ src)
  let low := BitVec.ofNat 2 (((List.range 4).find? (fun i => srcs.getLsbD i)).getD 0)
  if src = 0 && (!x.srcSet.getLsbD 0 || lexLe [sw.2.2, sw.2.1] [x.swCore, x.swStrand]) then
    { x with srcSet := srcs, src := low, swTag := sw.1, swStrand := sw.2.1, swCore := sw.2.2 }
  else { x with srcSet := srcs, src := low }

/-- A latch at one edge, with nothing fired yet. -/
def Snap.latch (x : Snap) (now : DWord) (cycle : Nat) : Snap :=
  { x with latched := true, srcSet := 0, swTag := 0, swStrand := 0, swCore := 0, ltime := now, edge := cycle, pulse := true }

/-- A trigger from one source (0 `snap`, 1 pin, 2 time, 3 error): it latches every area when it is armed and nothing is
latched, and joins the latch of the same edge. DESIGN CHOICE (assumption 53): two triggers with no time between them reach the same
edge. `sw` describes the `snap`: its tag, strand number and core. -/
def State.snapTrigger (s : State) (src : Nat) (sw : BitVec 12 × Nat × Nat) : State :=
  let x := s.dev.snap
  if !x.arm.getLsbD src then s
  else if x.latched then
    if x.ltime = s.clock && x.edge = s.cycle then
      let y := x.fire src sw
      { s with dev := { s.dev with snap := { y with areas := Memory.writeBytes y.areas y.area.1 y.area.2 } } }
    else s
  else
    let y := (x.latch s.clock s.cycle).fire src sw
    let parts := s.snapCores ++ s.snapSlices ++ s.snapBellows ++ s.snapPorts ++ s.snapProgs ++ [y.area]
    let areas := parts.foldl (fun m p => Memory.writeBytes m p.1 p.2) ([] : Memory)
    ({ s with dev := { s.dev with snap := { y with areas := areas } } }).emit .pulse

/-! ### The device error record (R459) -/

/-- MSI-X (R376, R464): before state RUN only the device vector is raised. -/
def State.raise (s : State) (v : Nat) : State := if v = 64 || s.dev.stage = 6 then s.emit (.msix v) else s

/-- The next state of bring-up. It raises the device vector, once the host link is trained (R376). DESIGN CHOICE (assumption 88): the
manual says that bring-up raises the vector and not when, so each change of state does. -/
def State.setStage (s : State) (n : Nat) : State :=
  let s1 := s.modDev (fun d => { d with stage := n })
  if 2 ≤ n then s1.raise 64 else s1

/-- A device-wide event, under the writing rules of R439; a record written raises the device vector. -/
def State.deviceError (s : State) (cause addr : Nat) (fatal : Bool) : State :=
  let r := s.dev.err
  if !r.valid || (fatal && !r.fatal) then
    let r' : DevErr := { r with
      valid := true, fatal := fatal, cause := BitVec.ofNat 8 cause, addr := BitVec.ofNat 64 addr, time := s.clock }
    (((s.modDev (fun d => { d with err := r' })).raise 64)).snapTrigger 3 (0, 0, 0)
  else s.modDev (fun d => { d with err := { r with ovr := true } })

end Sys2Proof.Machine
end

