-- ==== Sys2Proof/Machine/Launches.lean ====
section
/-! DEFINITION. Launches and crews across their life (spec/14_queues_deadlines_and_dispatch.md R319 to R331,
spec/06_threads_strands_crews.md R145 to R152): register blocks, the ends of strands and crews, completion records,
barriers, and the error record of a context (spec/20_traps_errors_and_watchdog.md R437 to R439). -/

namespace Sys2Proof.Machine

/-! ### The error record (R437 to R439) -/

/-- What an error record holds beyond its flags. -/
structure ErrInfo where
  cause  : Nat
  fatal  : Bool
  nested : Bool
  lanes  : Mask
  strand : Nat
  core   : Nat
  seq    : Nat
  addr   : Nat
  pc     : Nat
  code   : BitVec 12
  deriving DecidableEq, Repr

def ErrInfo.plain (cause : Nat) (fatal : Bool) (seq addr : Nat) : ErrInfo :=
  { cause := cause, fatal := fatal, nested := false, lanes := 0, strand := 0, core := 0, seq := seq, addr := addr, pc := 0, code := 0 }

/-- A record is written when none is held, or when it is fatal and the held one is not; otherwise OVER is set (R439).
A written record raises the context's vector (R376), and a fatal
one triggers a snapshot (R462). -/
def State.recordError (s : State) (x : Nat) (i : ErrInfo) : State :=
  let r := (s.ctx x).err
  if !r.valid || (i.fatal && !r.fatal) then
    let r' : ErrRec := { r with
      valid := true, fatal := i.fatal, nested := i.nested, cause := BitVec.ofNat 8 i.cause, lanes := i.lanes, strand := i.strand
      core := i.core, seq := BitVec.ofNat 64 i.seq, addr := BitVec.ofNat 64 i.addr, pc := BitVec.ofNat 64 i.pc, code := i.code }
    let s1 := (s.modCtx x (fun c => { c with err := r' })).raise x
    if i.fatal then s1.snapTrigger 3 (0, 0, 0) else s1
  else s.modCtx x (fun c => { c with err := { r with ovr := true } })

/-! ### Register blocks (R145 to R147) -/

/-- Blocks of 8 registers in a core's register die (R56). -/
def coreBlocks : Nat := 4096

/-- Blocks held by the strands of a core's resident crews, grown ones included. -/
def State.blocksHeld (s : State) (core : Nat) : Nat :=
  (s.residentOn core).foldl (fun n c =>
    c.strands.foldl (fun n t => if t.ended && !c.walker then n else n + t.regs.length / 8) n) 0

/-- E: the largest growth limit of any launch with a resident crew (R145). -/
def State.emTarget (s : State) (core : Nat) : Nat :=
  (s.residentOn core).foldl (fun m c => max m ((c.ceil - c.baseRegs) / 8)) 0

/-- Blocks of the free pool: every other slot (R145). -/
def State.poolFree (s : State) (core : Nat) : Nat := coreBlocks - s.blocksHeld core - (s.core core).emFree

/-- The group's size follows E; once it holds E free blocks it is full, and its holder's `ctl.emerg` becomes 0 (R147). -/
def State.fitEmergency (s : State) (core : Nat) : State :=
  let e := s.emTarget core
  let co := s.core core
  let free := if co.emSize < e then co.emFree + (e - co.emSize) else min co.emFree e
  match co.emHolder with
  | none => s.setCore core { co with emSize := e, emFree := free }
  | some (c, t) =>
    if free = e then
      (s.setCore core { co with emSize := e, emFree := free, emHolder := none }).modStrand c t (fun x => { x with emerg := false })
    else s.setCore core { co with emSize := e, emFree := free }

/-- Blocks that a strand gives back: the emergency group first, when it holds it (R147). -/
def State.giveBack (s : State) (core : Nat) (who : Nat × Nat) (blocks : Nat) : State :=
  let co := s.core core
  if co.emHolder = some who then
    let f := min co.emSize (co.emFree + blocks)
    let full := f = co.emSize
    let s1 := s.setCore core { co with emFree := f, emHolder := if full then none else co.emHolder }
    if full then s1.modStrand who.1 who.2 (fun t => { t with emerg := false }) else s1
  else s

/-- Age of a request (R146): launch sequence, order of dispatch, strand index. -/
def olderReq (a b : Nat × Nat × Nat) : Bool :=
  a.1 < b.1 || (a.1 = b.1 && (a.2.1 < b.2.1 || (a.2.1 = b.2.1 && a.2.2 < b.2.2)))

/-- The waiting growth requests of a core: age, crew, strand, blocks. -/
def State.growReqs (s : State) (core : Nat) : List ((Nat × Nat × Nat) × Nat × Nat × Nat) :=
  (s.residentOn core).flatMap (fun c => c.strands.filterMap (fun t =>
    match t.grow with
    | some n => some ((c.seq, t.growAge, t.idx), c.id, t.idx, n)
    | none => none))

def oldestReq (rs : List ((Nat × Nat × Nat) × Nat × Nat × Nat)) : Option ((Nat × Nat × Nat) × Nat × Nat × Nat) :=
  rs.foldl (fun best r => match best with
    | none => some r
    | some b => if olderReq r.1 b.1 then some r else some b) none

/-- Registers added to a strand: uniform zero, placed as R60 lays down (R146). -/
def Env.addBlocks (e : Env) (n : Nat) : Env :=
  let co := e.s.core e.c.core
  let (nm, rs) := placeRegs e.c.naming co.naming (List.replicate (8 * n) .zero)
  { e with s := e.s.setCore e.c.core { co with naming := nm }, t := { e.t with regs := e.t.regs ++ rs } }

/-- Whether a thread waits in `rgrow`. -/
def inGrow (x : Thread) : Bool := x.state = .waiting .rgrow

/-- A request granted: the count rises and the threads that wait for it run (R164). -/
def State.grantTo (s : State) (crew strand n : Nat) : State :=
  match s.env? crew strand with
  | none => s
  | some e =>
    let e1 := e.addBlocks n
    let t := { e1.t with grow := none }
    ({ e1 with t := t.wakeLanes (t.lanesWhere inGrow) }).commit

/-- Requests served by age from the free pool, and the emergency group passed to the oldest that the pool cannot meet
(R146, R147). -/
def State.serveGrowth (s : State) (core : Nat) (fuel : Nat) : State :=
  match fuel with
  | 0 => s
  | k + 1 =>
    match oldestReq (s.growReqs core) with
    | none => s
    | some (_, c, t, n) =>
      if n ≤ s.poolFree core then (s.grantTo c t n).serveGrowth core k
      else
        let co := s.core core
        if co.emHolder = none && co.emFree = co.emSize && n ≤ co.emFree then
          let s1 := s.setCore core { co with emHolder := some (c, t), emFree := co.emFree - n }
          ((s1.modStrand c t (fun x => { x with emerg := true })).grantTo c t n).serveGrowth core k
        else s

/-! ### Barriers (R149, R150, R163) -/

/-- Threads of a crew satisfying `p`, in every strand. -/
def Crew.allThreads (c : Crew) (p : Thread → Bool) : Bool := c.strands.all (fun t => laneIds.all (fun l => p (t.thread l)))

def atBar (b : Nat) (x : Thread) : Bool := x.isExited || x.state = .waiting (.bar b)
def atGbar (x : Thread) : Bool := x.isExited || x.state = .waiting .gbar
def atSbar (x : Thread) : Bool := x.isExited || x.state = .waiting .sbar
def atIdem (closing : Bool) (x : Thread) : Bool := x.isExited || x.state = .waiting (.idem closing)

def isAt (w : Wait) (x : Thread) : Bool := x.state = .waiting w

/-- What a barrier's release and acquire perform first (R150, R180): stores, and loads. An atomic that has not returned is not waited
for (R304). -/
def Pending.atBarrier (p : Pending) : Bool :=
  match p.kind with
  | .load .. => true
  | .store .. => true
  | .ldb .. => true
  | .stb .. => true
  | _ => false

/-- The earlier stores and loads of a crew's strands performed (R150). -/
def State.drainEarlier (s : State) (crew : Nat) : State :=
  match s.crew? crew with
  | none => s
  | some c => c.strands.foldl (fun st t => match st.env? crew t.idx with
      | some e => (e.drain Pending.atBarrier).commit
      | none => st) s

/-- A barrier completes for its crews (R150): the earlier stores and loads of all of them are performed, then each of their cores makes
its acquire, and every waiter runs. -/
def State.releaseAll (s : State) (crews : List Nat) (w : Wait) : State :=
  let s1 := crews.foldl State.drainEarlier s
  let s2 := crews.foldl (fun st k => match st.crew? k with | some c => st.acquireL1 c.core | none => st) s1
  crews.foldl (fun st k => st.modCrew k (fun c =>
    { c with strands := c.strands.map (fun t => t.wakeLanes (t.lanesWhere (isAt w))) })) s2

def State.releaseWaiters (s : State) (crew : Nat) (w : Wait) : State := s.releaseAll [crew] w

/-- The crew of the stage before with equal crew and gang indices (R149). -/
def State.stagePeer (s : State) (c : Crew) : Option Crew :=
  s.crews.find? (fun p => !p.walker && p.seq = c.seq && p.gang = c.gang && p.idx = c.idx && p.stage + 1 = c.stage)

/-- Whether an `sbar` of a crew may complete (R149, R163). -/
def State.sbarMet (s : State) (c : Crew) : Bool :=
  c.allThreads atSbar && !c.allThreads Thread.isExited &&
    (c.stage = 0 || match s.stagePeer c with
      | some p => p.state = .ended || c.sbars < p.sbars
      | none => true)

/-- Which gang of its launch a crew belongs to: the crews of a persistent launch, whose gang indices are all 0, are gangs of their own
(R326), told apart by their dispenser slots; those of every other launch have slot 0. -/
def Crew.gangNo (c : Crew) : Nat := c.gang + c.dispSlot

/-- The crews of a gang at one stage. -/
def State.gangOf (s : State) (c : Crew) : List Crew :=
  s.crews.filter (fun p => !p.walker && p.seq = c.seq && p.gangNo = c.gangNo && p.stage = c.stage && p.state ≠ .ended)

/-- What the restart record keeps of one strand (R346, R349): its threads stand at the word after `idemb`. -/
def Strand.restartRec (t : Strand) : StrandRestart :=
  { pc := t.threads.mapi (fun _ x => x.pc), exited := t.lanesWhere Thread.isExited, meeting := t.threads.mapi (fun _ x => x.meeting),
    regs := (t.regs.take 6).map (fun r => { r with loc := 0 }), draws := t.threads.mapi (fun _ x => x.draws),
    copies := t.threads.mapi (fun _ x => x.copies), swDraws := t.threads.mapi (fun _ x => x.swDraws), fflags := t.fflags,
    fldev := t.fldev, regcount := t.regs.length }

/-- A crew's restart record (R342, R348); `held` says that it holds its core's Swage. -/
def Crew.restartRec (c : Crew) (held : Bool) : Restart :=
  { strands := c.strands.map Strand.restartRec, sbars := c.sbars, binds := c.binds, xpat := c.xpat, xtab := c.xtab,
    progress := c.progress, held := held }

/-- Whether a round of `idemb` or `ideme` is complete: every thread of the crew has arrived or exited (R341). -/
def Crew.idemMet (c : Crew) (closing : Bool) : Bool :=
  c.allThreads (atIdem closing) && !c.allThreads Thread.isExited

/-- A crew's restart record written into its save slot (R342). -/
def State.writeRestart (s : State) (crew : Nat) : State :=
  match s.crew? crew with
  | none => s
  | some c => match c.restart with
    | none => s
    | some r =>
      let s1 := s.device (slotBase s c + 0x800) r.crewImage
      r.strands.zipIdx.foldl (fun st p => st.device (strandRec s c p.2 + 0x1C00) p.1.image) s1

/-- A round complete: the region opens with its restart record, or closes (R342, R343). -/
def State.completeIdem (s : State) (crew : Nat) (closing : Bool) : State :=
  let s1 := s.releaseWaiters crew (.idem closing)
  match s1.crew? crew with
  | none => s1
  | some c =>
    let held := (s1.core c.core).holder = some crew
    let s2 := s1.modCrew crew (fun c =>
      { c with region := !closing, idemAt := none, restart := if closing then none else some (c.restartRec held) })
    if closing then s2 else s2.writeRestart crew

/-- BARRIER_COMPLETION for the barriers that a change in one crew may complete: its slots, its round of `idemb` or
`ideme`, its gang's barrier, its `sbar` and those of later stages (R149, R341). -/
def State.completeBarriers (s : State) (crew : Nat) (fuel : Nat) : State :=
  match fuel with
  | 0 => s
  | k + 1 =>
    match s.crew? crew with
    | none => s
    | some c =>
      if c.state ≠ .resident then s
      else
        let slots := (List.range c.nbars).filter (fun b => c.allThreads (atBar b) && c.strands.any (fun t => laneIds.any (fun l => isAt (.bar b) (t.thread l))))
        let s1 := slots.foldl (fun st b =>
          (st.releaseWaiters crew (.bar b)).modCrew crew (fun c => { c with bars := modAt c.bars b (fun x => { count := 0, gen := !x.gen }) })) s
        let s1 := [false, true].foldl (fun st w => match st.crew? crew with
          | some x => if x.idemMet w then st.completeIdem crew w else st
          | none => st) s1
        let gang := s1.gangOf c
        let gmet := gang.all (fun p => p.allThreads atGbar) && gang.any (fun p => p.strands.any (fun t => laneIds.any (fun l => isAt .gbar (t.thread l))))
        let s2 := if gmet then s1.releaseAll (gang.map Crew.id) .gbar else s1
        let s3 := match s2.crew? crew with
          | some c2 => if s2.sbarMet c2 then
              let s' := (s2.releaseWaiters crew .sbar).modCrew crew (fun c => { c with sbars := c.sbars + 1 })
              match s'.crews.find? (fun p => !p.walker && p.seq = c.seq && p.gang = c.gang && p.idx = c.idx && p.stage = c.stage + 1) with
              | some nxt => s'.completeBarriers nxt.id k
              | none => s'
            else s2
          | none => s2
        s3

/-! ### The ends of strands and crews (R161, R233) -/

/-- A crew's registers, blocks, emergency group, Swage reservation and walks' claims given back to its core. -/
def State.releaseCrew (s : State) (crew : Nat) : State :=
  match s.crew? crew with
  | none => s
  | some c =>
    let s0 := c.strands.foldl (fun st t => st.giveBack c.core (c.id, t.idx) (if t.ended then 0 else (t.regs.length - c.baseRegs) / 8)) s
    s0.modCore c.core (fun co =>
      { co with naming := c.strands.foldl (fun n t => releaseRegs n t.regs) co.naming,
                holder := if co.holder = some c.id then none else co.holder,
                sboard := co.sboard.filter (fun b => b.crew ≠ c.id),
                emHolder := match co.emHolder with | some (x, y) => if x = c.id then none else some (x, y) | none => none,
                emFree := match co.emHolder with | some (x, _) => if x = c.id then co.emSize else co.emFree | none => co.emFree })

/-- After a crew has left a core: the walker crew leaves with the last crew of a hardware-walking context (R363), the
emergency group follows E (R147) and waiting requests are served. -/
def State.afterLeave (s : State) (core : Nat) : State :=
  let stays := (s.residentOn core).any (fun c => !c.walker && !(s.ctx c.ctx).assist.getLsbD 0) || (s.core core).walks.any (fun w => !w.host)
  let s1 := if stays then s else { s with crews := s.crews.filter (fun c => c.id ≠ walkerId core) }
  (s1.fitEmergency core).serveGrowth core 512

/-- A crew becomes ENDED (R328): its resources are released; its sbar count stays for its successor (R163), and
`waitFrom` holds the time of its end (R319). -/
def State.endCrew (s : State) (crew : Nat) : State :=
  match s.crew? crew with
  | none => s
  | some c =>
    let s1 := if c.state = .resident then s.releaseCrew crew else s
    let s2 := s1.modCrew crew (fun c => { c with state := .ended, strands := [], swage := none, restart := none, waitFrom := s.clock })
    let s3 := if c.state = .resident then s2.afterLeave c.core else s2
    match s3.crews.find? (fun p => !p.walker && p.seq = c.seq && p.gang = c.gang && p.idx = c.idx && p.stage = c.stage + 1) with
    | some nxt => s3.completeBarriers nxt.id 8
    | none => s3

/-! ### Completion (R319, R320, R331) -/

/-- A completion record written through the context's table: bytes 0x08 to 0x1F, then CPLINC added to COUNT (R320). -/
def State.writeCompletion (s : State) (ctx : Nat) (addr : DWord) (inc : Word) (status seq : Nat) : State :=
  if addr = 0 then s
  else match s.tablePa ctx addr.toNat (fun e => pteW e && pteA e) with
    | none => s
    | some pa =>
      let s1 := s.homeWrite .engine (some ctx) (pa + 8) (leBytes 4 status ++ leBytes 4 0 ++ leBytes 8 s.clock.toNat ++ leBytes 8 seq)
      s1.homeWrite .engine (some ctx) pa (leBytes 8 (s1.peek pa 8 + inc.toNat))

/-- Tails reserved by a launch become pending in the order of their reservations, or are freed when it faulted
(R331). -/
def State.releaseTails (s : State) (ctx seq : Nat) (fault : Bool) : State :=
  let keep (q : List DlSlot) : List DlSlot :=
    if fault then q.filter (fun d => d.reserved ≠ some seq)
    else
      let (tails, rest) := q.partition (fun d => d.reserved = some seq)
      let (pending, held) := rest.partition (fun d => d.reserved = none)
      pending ++ tails.map (fun d => { d with reserved := none }) ++ held
  s.modCtx ctx (fun x => { x with dlq := keep x.dlq })

/-- A packet completes with a status: tails, record, and the end of what the launch held (R64, R320, R327). -/
def State.complete (s : State) (seq status : Nat) : State :=
  match s.launch? seq with
  | none => s
  | some l =>
    let s1 := s.releaseTails l.ctx seq (status = 6)
    let s2 := s1.writeCompletion l.ctx l.pkt.cplAddr l.pkt.cplInc status seq
    let s3 := s2.modCores (fun co =>
      { co with naming := co.naming.killLaunch seq, icache := co.icache.filter (fun x => x.seq ≠ seq) })
    { s3 with
      launches := s3.launches.filter (fun x => x.seq ≠ seq)
      crews := s3.crews.filter (fun c => c.walker || c.seq ≠ seq || c.state ≠ .ended) }

/-- How a packet completes (R320). -/
inductive CplStatus where
  | done
  | missed
  | shed
  | expired
  | degraded
  | substituted
  | fault
  | badPkt
  deriving DecidableEq, Repr

/-- The statuses in the order of their codes. -/
def CplStatus.inOrder : List CplStatus := [.done, .missed, .shed, .expired, .degraded, .substituted, .fault, .badPkt]

/-- The code of a status in bits [7:0] of STATUS. -/
def CplStatus.code (x : CplStatus) : Nat := CplStatus.inOrder.findIdx (fun y => y = x)

end Sys2Proof.Machine
end

