-- ==== Sys2Proof/Machine/CopyEngine.lean ====
section
/-! DEFINITION. The copy engine (spec/09_memory_and_copy_instructions.md R217 to R222, spec/16_translation_and_residency.md
R358): what a started copy reads, converts and writes. The checks before a copy starts stand with its instructions. -/

namespace Sys2Proof.Machine

/-! ### Fields of a control word (R218, R222) -/

def cwDT (cw : Word) : Nat := bitsOf cw.toNat 0 4
def cwST (cw : Word) : Nat := bitsOf cw.toNat 4 4
def cwDS (cw : Word) : Nat := bitsOf cw.toNat 8 2
def cwSS (cw : Word) : Nat := bitsOf cw.toNat 10 2
def cwRM (cw : Word) : Nat := bitsOf cw.toNat 12 3
def cwSat (cw : Word) : Bool := cw.getLsbD 15

/-- The page format number of a copy format code (R218, R354). -/
def copyFmt (code : Nat) : Nat := if code = 13 then 14 else code

/-- Element size in bits of a copy format code; raw elements are bytes. -/
def copyBits (code : Nat) : Nat := if code = 0 then 8 else fmtBits (copyFmt code)

def spaceOf (code : Nat) : Option Space :=
  match code with
  | 1 => some .wbuf
  | 2 => some .abuf
  | 3 => some .cbuf
  | _ => none

/-- A page's format as a copy reads it under code 15: untyped counts as FP32 (R354). -/
def pageCopyFmt (e : DWord) : Nat := if pteFmt e = 0 then 1 else pteFmt e

/-! ### Rounding into an element format (R116, R220) -/

/-- Width in bits and signedness of an integer format (R354). -/
def intFmt (fmt : Nat) : Option (Nat × Bool) :=
  match fmt with
  | 8 => some (8, true)
  | 9 => some (8, false)
  | 10 => some (16, true)
  | 11 => some (16, false)
  | 12 => some (32, true)
  | 13 => some (32, false)
  | 14 => some (4, true)
  | _ => none

/-- The integer path of R116: rounded under the mode, always saturating; a NaN gives 0. -/
def toIntFmt (w : Nat) (signed : Bool) (mode draw : Nat) (x : Num) : Rounded :=
  let sat (y : Int) : Int := if signed then satS y w else satU y w
  match x with
  | .nan _ => { code := 0, flags := flagNV }
  | .inf neg => { code := wrapNat (sat (if neg then -(2 ^ 80) else 2 ^ 80)) w, flags := flagNV }
  | .fin neg n d =>
    let (y, inexact) := roundInt mode draw neg n d
    let r := sat y
    { code := wrapNat r w, flags := if r ≠ y then flagNV else if inexact then flagNX else 0 }

/-- A value rounded into an unscaled element format (R220). -/
def encodeElem (fmt mode : Nat) (sat : Bool) (draw : Nat) (x : Num) : Rounded :=
  match intFmt fmt with
  | some (w, sg) => toIntFmt w sg mode draw x
  | none =>
    match fmt with
    | 2 => roundFmt fmtFp16 mode sat draw x
    | 3 => roundFmt fmtBf16 mode sat draw x
    | 4 => roundFmt fmtE4m3 mode sat draw x
    | 5 => roundFmt fmtE5m2 mode sat draw x
    | 6 => roundFmt fmtE2m1 mode true draw x
    | 7 => encodeDl8 mode sat draw x
    | _ => roundFmt fmtFp32 mode sat draw x

/-! ### Scaled blocks (R358) -/

/-- The least k with m ≤ q × 2^k, for an exact magnitude m = n/d > 0: ceil(log2(m/q)). -/
def ceilLog2Over (n d q : Nat) : Int :=
  let l := floorLog2 n (d * q)
  let exact := if 0 ≤ l then n = d * q * 2 ^ l.toNat else n * 2 ^ (-l).toNat = d * q
  if exact then l else l + 1

/-- The largest magnitude of a block of finite values. -/
def maxMag (xs : List Num) : Num := xs.foldl (fun m x => if Num.lt m x.mag then x.mag else m) (.fin false 0 1)

/-- A scaled-integer block: its scale code and element codes (R358). -/
def encodeScaledInt (fmt geom mode : Nat) (draws : List Nat) (xs : List Num) : Nat × List Nat :=
  let e8 := geom / 4 = 0
  let w := if fmt = 17 then 4 else 8
  let q := if fmt = 17 then 7 else 127
  if xs.any (fun x => x.isNan || x.isInf) then (if e8 then 0xFF else 0x7E00, xs.map (fun _ => 0))
  else
    let k : Option Int := match maxMag xs with
      | .fin _ n d => if n = 0 then none else some (ceilLog2Over n d q)
      | _ => none
    match k with
    | none => (0, xs.map (fun _ => 0))
    | some k =>
      let k := if e8 then max (-127) (min 127 k) else max (-24) (min 15 k)
      let code := if e8 then (k + 127).toNat else (roundFmt fmtFp16 rne false 0 (Num.scaled false 1 k)).code
      (code, (xs.zip draws).map (fun p => (toIntFmt w true mode p.2 (numScale p.1 (-k)).val).code))

/-- A block of any scaled format. -/
def encodeBlock (fmt geom mode : Nat) (draws : List Nat) (xs : List Num) : Nat × List Nat :=
  if fmt = 16 then encodeMx4 mode draws xs else encodeScaledInt fmt geom mode draws xs

/-! ### Elements -/

/-- The translation a command holds for an address (R219). -/
def heldTrans (trs : List Trans) (ctx va : Nat) : Option Trans := trs.find? (fun t => t.covers ctx va)

/-- What reading an element gives: its bits, its value, its format (0 when not a page's), and what went wrong. -/
structure SrcElem where
  bits   : Nat
  val    : Num
  fmt    : Nat
  absent : Bool
  bad    : Option Nat
  deriving DecidableEq, Repr

def SrcElem.zero : SrcElem := { bits := 0, val := Num.zero false, fmt := 0, absent := true, bad := none }

/-- Bits of an element: `bits` wide at a byte address, the high nibble when `nib`. -/
def cutElem (raw bits : Nat) (nib : Bool) : Nat := if bits = 4 then (if nib then raw / 16 % 16 else raw % 16) else raw

/-- An element on a global page in format `fmt` (a page format number), block scale included (R201, R355). -/
def State.readGlobal (s : State) (trs : List Trans) (ctx va : Nat) (nib : Bool) (fmt bits : Nat) (byPage : Bool) : SrcElem :=
  match heldTrans trs ctx va with
  | none => .zero
  | some tr =>
    if !pteP tr.entry then .zero
    else
      let pa := tr.pa va
      let n := max 1 (bits / 8)
      let raw := cutElem (s.peek pa n) bits nib
      let bad := if s.bad pa n then some va else none
      if byPage && fmtScaled fmt then
        let sva := scaleAddr tr.entry va
        match heldTrans trs ctx sva with
        | none => .zero
        | some st =>
          if !pteP st.entry then .zero
          else
            let spa := st.pa sva
            let sn := geomScaleSize (pteGeom tr.entry)
            { bits := raw, val := scaledValue fmt (pteGeom tr.entry) raw (s.peek spa sn), fmt := fmt, absent := false,
              bad := if s.bad spa sn then some va else bad }
      else { bits := raw, val := fmtValue fmt raw, fmt := fmt, absent := false, bad := bad }

/-- An element in a local buffer. -/
def State.readLocal (s : State) (core : Nat) (sp : Space) (a : Nat) (nib : Bool) (fmt bits : Nat) : SrcElem :=
  let n := max 1 (bits / 8)
  let raw := cutElem (Memory.readNat ((s.core core).buf sp) a n) bits nib
  let bad := s.ue.any (fun g => bufUnit core sp a ≤ g && g ≤ bufUnit core sp (a + n - 1))
  { bits := raw, val := fmtValue fmt raw, fmt := fmt, absent := false, bad := if bad then some a else none }

/-- An element bound for a scaled page: its place, its index in the copy, and its source. -/
structure BlkElem where
  va  : Nat
  nib : Bool
  k   : Nat
  x   : SrcElem
  deriving DecidableEq, Repr

/-- What a copy has met so far, with the elements that scaled blocks are still to be encoded from. -/
structure CopyAcc where
  absent : Bool
  bad    : Option Nat
  blks   : List BlkElem
  deriving DecidableEq, Repr

/-- A byte range of a local buffer written by an engine. -/
def State.writeLocal (s : State) (core : Nat) (sp : Space) (a : Nat) (bs : List Byte) : State :=
  let s1 := s.modCore core (fun co => co.setBuf sp (Memory.writeBytes (co.buf sp) a bs))
  if s.ue.isEmpty then s1
  else { s1 with ue := s1.ue.filter (fun g => !((List.range bs.length).any (fun i => (a + i) % 32 = 0 && i + 32 ≤ bs.length && g = bufUnit core sp (a + i)))) }

/-- One destination byte or nibble at a location. -/
structure Cellw where
  addr : Nat
  byte : Nat
  nib  : Option Bool
  deriving DecidableEq, Repr

/-- Whole bytes at consecutive addresses joined into one write, so that a write of a whole protected unit counts as one
(R436). -/
def joinRuns (cells : List Cellw) (cur : Option (Nat × List Byte)) : List (Nat × List Byte ⊕ Cellw) :=
  match cells with
  | [] => match cur with | some (a, bs) => [.inl (a, bs.reverse)] | none => []
  | c :: rest =>
    let out := match cur with | some (a, bs) => [Sum.inl (a, bs.reverse)] | none => []
    match c.nib with
    | some _ => out ++ [.inr c] ++ joinRuns rest none
    | none =>
      match cur with
      | some (a, bs) =>
        if c.addr = a + bs.length then joinRuns rest (some (a, BitVec.ofNat 8 c.byte :: bs))
        else out ++ joinRuns rest (some (c.addr, [BitVec.ofNat 8 c.byte]))
      | none => joinRuns rest (some (c.addr, [BitVec.ofNat 8 c.byte]))

/-- A nibble put into a byte. -/
def putNib (old v : Nat) (hi : Bool) : Nat := if hi then old % 16 + 16 * v else old / 16 * 16 + v % 16

/-- Global writes of an engine at their home slices, in order (R221). -/
def State.writeCells (s : State) (ctx : Nat) (cells : List Cellw) : State :=
  (joinRuns cells none).foldl (fun st r => match r with
    | .inl (a, bs) => st.homeWrite .engine (some ctx) a bs
    | .inr c => st.homeWrite .engine (some ctx) c.addr (leBytes 1 (putNib (st.peek c.addr 1) c.byte (c.nib = some true)))) s

/-- Local writes of an engine, in order. -/
def State.writeLocalCells (s : State) (core : Nat) (sp : Space) (cells : List Cellw) : State :=
  (joinRuns cells none).foldl (fun st r => match r with
    | .inl (a, bs) => st.writeLocal core sp a bs
    | .inr c => st.writeLocal core sp c.addr (leBytes 1 (putNib (Memory.readByte ((st.core core).buf sp) c.addr).toNat c.byte (c.nib = some true)))) s

/-- The cells of one element's code. -/
def elemCells (addr bits code : Nat) (nib : Bool) : List Cellw :=
  if bits = 4 then [{ addr := addr, byte := code % 16, nib := some nib }]
  else (leBytes (bits / 8) code).mapIdx (fun i b => { addr := addr + i, byte := b.toNat, nib := none })

/-- Where element e of a row lies: byte address and nibble. -/
def elemAt (row e bits : Nat) : Nat × Bool := if bits = 4 then (row + e / 2, e % 2 = 1) else (row + e * (bits / 8), false)

/-- The element size in bits of a row on a global side under code 15: that of the page that holds element 0 (R218). -/
def rowBits (trs : List Trans) (ctx row : Nat) : Nat :=
  match heldTrans trs ctx row with
  | some tr => fmtBits (pageCopyFmt tr.entry)
  | none => 32

def mod57 (x : Int) : Nat := wrapNat x 64

/-- The draws of a copy: key and counter of R43. -/
def CopyCmd.draw (c : CopyCmd) (k : Nat) : Nat := srDraw c.seed.toNat c.key.toNat (c.ctr0 + k)

/-- The source elements of row r. -/
def State.copyRowSrc (s : State) (core : Nat) (c : CopyCmd) (r : Nat) : List SrcElem :=
  let row := mod57 (c.src.toNat + r * c.sstride)
  let st := if c.table.isSome then 0 else cwST c.cw
  match spaceOf (cwSS c.cw) with
  | some sp =>
    let bits := copyBits st
    (List.range c.n).map (fun e =>
      let (a, nib) := elemAt row e bits
      let x := s.readLocal core sp a nib (if st = 0 then 0 else copyFmt st) bits
      { x with bad := x.bad.map (fun b => b - c.base) })
  | none =>
    let byPage := st = 15
    let bits := if byPage then rowBits c.trans c.ctx row else copyBits st
    (List.range c.n).map (fun e =>
      let (a, nib) := elemAt row e bits
      let fmt := if byPage then (match heldTrans c.trans c.ctx a with | some tr => pageCopyFmt tr.entry | none => 1)
        else if st = 0 then 0 else copyFmt st
      s.readGlobal c.trans c.ctx a nib fmt bits byPage)

/-- What one element becomes in an unscaled destination format: its code (R220, R222). -/
def copyElem (c : CopyCmd) (x : SrcElem) (dfmt k : Nat) : Nat :=
  match c.table with
  | some tab => leAt tab (x.bits % 256 * c.entryW) c.entryW
  | none =>
    let st := cwST c.cw
    let dt := cwDT c.cw
    if (st = dt && dt ≠ 15) || (st = 15 && dt = 15 && x.fmt = dfmt && !fmtScaled dfmt && !x.absent) then x.bits
    else (encodeElem dfmt (cwRM c.cw) (cwSat c.cw) (c.draw k) x.val).code

/-- The cells of a row on a global side whose page decides the format, with the elements of scaled pages set aside: their
blocks are encoded whole (R358). -/
def pageCells (c : CopyCmd) (row bits r : Nat) (xs : List SrcElem) : List Cellw × Bool × List BlkElem :=
  xs.zipIdx.foldl (fun acc p =>
    let (cells, ab, blks) := acc
    let (a, nib) := elemAt row p.2 bits
    let k := r * c.n + p.2
    match heldTrans c.trans c.ctx a with
    | none => acc
    | some tr =>
      let fmt := pageCopyFmt tr.entry
      if fmtScaled fmt then (cells, ab, { va := a, nib := nib, k := k, x := p.1 } :: blks)
      else if !pteP tr.entry then (cells, true, blks)
      else if p.1.bad.isSome then acc
      else (cells ++ elemCells (tr.pa a) bits (copyElem c p.1 fmt k) nib, ab, blks)) ([], false, [])

/-- A scaled block as a copy tells it from others: its page and the address of its scale. -/
def blockKey (e : DWord) (va : Nat) : Nat × Nat := (va / 2 ^ 14, scaleAddr e va)

/-- The blocks that elements set aside belong to, in the order they were first met. -/
def blockScales (c : CopyCmd) (xs : List BlkElem) : List (Nat × Nat) :=
  xs.foldr (fun x ks => match heldTrans c.trans c.ctx x.va with
    | some tr => let k := blockKey tr.entry x.va; if ks.contains k then ks else ks ++ [k]
    | none => ks) []

/-- The number of an element in its block (R355). -/
def blockPos (e : DWord) (va : Nat) (nib : Bool) : Nat :=
  (va % 2 ^ 14 * 8 + (if nib then 4 else 0)) / fmtBits (pteFmt e) % geomLen (pteGeom e)

/-- One scaled block encoded from its elements, the last written to each place, and written with its scale (R358). Nothing
is written to an absent page, nor in the place of an uncorrectable element. -/
def writeBlock (s : State) (c : CopyCmd) (xs : List BlkElem) (key : Nat × Nat) : State × Bool :=
  let sva := key.2
  let mine := xs.filter (fun x => match heldTrans c.trans c.ctx x.va with | some tr => blockKey tr.entry x.va = key | none => false)
  match mine with
  | [] => (s, false)
  | x0 :: _ =>
    match heldTrans c.trans c.ctx x0.va, heldTrans c.trans c.ctx sva with
    | some tr, some st =>
      if !pteP tr.entry || !pteP st.entry then (s, true)
      else
        let geom := pteGeom tr.entry
        let bits := fmtBits (pteFmt tr.entry)
        -- `mine` is youngest first
        let els := (List.range (geomLen geom)).map (fun i => mine.find? (fun x => blockPos tr.entry x.va x.nib = i))
        let val (x : Option BlkElem) : Num := match x with | some b => if b.x.bad.isSome then Num.zero false else b.x.val | none => Num.zero false
        let draw (x : Option BlkElem) : Nat := match x with | some b => c.draw b.k | none => 0
        let (sc, codes) := encodeBlock (pteFmt tr.entry) geom (cwRM c.cw) (els.map draw) (els.map val)
        let cells := (codes.zip els).flatMap (fun p => match p.2 with
          | some b => if b.x.bad.isSome then [] else elemCells (tr.pa b.va) bits p.1 b.nib
          | none => [])
        let scells := (leBytes (geomScaleSize geom) sc).mapIdx (fun i b => { addr := st.pa sva + i, byte := b.toNat, nib := none : Cellw })
        (s.writeCells c.ctx (scells ++ cells), false)
    | _, _ => (s, true)

/-- One row written. -/
def State.copyRow (s : State) (core : Nat) (c : CopyCmd) (r : Nat) (acc : CopyAcc) : State × CopyAcc :=
  let tabBad (x : SrcElem) : SrcElem := match c.tabBad.find? (fun t => t.1 = x.bits % 256) with
    | some t => { x with bad := minVa x.bad t.2 }
    | none => x
  let xs := (s.copyRowSrc core c r).map (fun x => if c.table.isSome then tabBad x else x)
  let row := mod57 (c.dst.toNat + r * c.dstride)
  let dt := cwDT c.cw
  let acc1 : CopyAcc := { acc with absent := acc.absent || xs.any SrcElem.absent
                                   bad := xs.foldl (fun m x => match x.bad with | some a => minVa m a | none => m) acc.bad }
  let bits := if c.table.isSome then 8 * c.entryW else copyBits dt
  let dfmt := if c.table.isSome || dt = 0 then 0 else copyFmt dt
  match spaceOf (cwDS c.cw) with
  | some sp =>
    let cells := xs.zipIdx.flatMap (fun p =>
      let (a, nib) := elemAt row p.2 bits
      if p.1.bad.isSome then [] else elemCells a bits (copyElem c p.1 dfmt (r * c.n + p.2)) nib)
    (s.writeLocalCells core sp cells, acc1)
  | none =>
    if c.table.isNone && dt = 15 then
      let (cells, ab, blks) := pageCells c row (rowBits c.trans c.ctx row) r xs
      (s.writeCells c.ctx cells, { acc1 with absent := acc1.absent || ab, blks := blks ++ acc1.blks })
    else
      let parts := xs.zipIdx.map (fun p =>
        let (a, nib) := elemAt row p.2 bits
        match heldTrans c.trans c.ctx a with
        | none => (([] : List Cellw), false)
        | some tr =>
          if !pteP tr.entry then ([], true)
          else if p.1.bad.isSome then ([], false)
          else (elemCells (tr.pa a) bits (copyElem c p.1 dfmt (r * c.n + p.2)) nib, false))
      (s.writeCells c.ctx (parts.flatMap Prod.fst), { acc1 with absent := acc1.absent || parts.any Prod.snd })

/-- The physical address of a source element with an uncorrectable error; a local buffer has none among memory's. -/
def CopyCmd.badPa (c : CopyCmd) (va : Nat) : Nat :=
  if cwSS c.cw ≠ 0 then 2 ^ 90 else match c.trans.find? (fun tr => tr.covers c.ctx va) with
    | some tr => tr.pa va
    | none => 2 ^ 90

/-- A copy performed whole (R220): every row in order, then the scaled blocks. DESIGN CHOICE (assumption 30): which words of a copy in
flight an unordered access finds old and which new is open word by word (R189, R221), and here all are old or all are new. -/
def State.runCopy (s : State) (core : Nat) (c : CopyCmd) : State × CopyAcc :=
  let start : CopyAcc := { absent := false, bad := none, blks := [] }
  if c.n = 0 then (s, start)
  else
    let (s1, acc) := (List.range c.m).foldl (fun p r => p.1.copyRow core c r p.2) (s, start)
    (blockScales c acc.blks).foldl (fun p k =>
      let (st, ab) := writeBlock p.1 c acc.blks k
      (st, { p.2 with absent := p.2.absent || ab })) (s1, acc)

/-- A copy in flight performed: a deferred trap for an uncorrectable element (R429). Once it is counted complete, the bit of p7 for an
absent page is set and its scoreboard entries are free (R188, R220). -/
def Env.performCopy (e : Env) (p : Pending) : Env :=
  match p.kind with
  | .copy c =>
    let (s1, acc) := e.commit.runCopy e.c.core c
    let s2 := match acc.bad with | some va => s1.consumeUe e.c.ctx (c.badPa va) | none => s1
    let e1 := e.reload s2
    let t1 := match acc.bad with | some va => e1.t.defer p.id (laneBit c.lane) va p.pc | none => e1.t
    { e1 with t := t1.finishAbsent p.id (if acc.absent then laneBit c.lane else 0) }
  | _ => e

end Sys2Proof.Machine
end

