-- ==== Sys2Proof/Machine/Links.lean ====
section
/-! DEFINITION. Llynad, collective programs and trigger counters (spec/18_ports_collectives_and_genlock.md R400 to R410),
and the closing of sessions (R396): the operations that instructions, events and a context reset share. -/

namespace Sys2Proof.Machine

/-! ### Paths and datagrams (R400, R401) -/

def kREQ : Nat := 1
def kGRANT : Nat := 2
def kDATA : Nat := 3
def kACK : Nat := 4
def kSIG : Nat := 5
def kARRIVE : Nat := 6
def kCOMMIT : Nat := 7
def kCACK : Nat := 8
def kABT : Nat := 9

def LPath.fresh (peer lport rport : Nat) : LPath :=
  { peer := peer, lport := lport, rport := rport, txSeq := 0, rxSeq := 0, unacked := [], failed := false, retryAt := 0 }

def LPath.is (p : LPath) (peer lport rport : Nat) : Bool := p.peer = peer && p.lport = lport && p.rport = rport

def State.path (s : State) (peer lport rport : Nat) : LPath :=
  (s.lly.paths.find? (fun p => p.is peer lport rport)).getD (.fresh peer lport rport)

def State.setPath (s : State) (p : LPath) : State :=
  let paths := if s.lly.paths.any (fun q => q.is p.peer p.lport p.rport) then modWhere s.lly.paths (fun q => q.is p.peer p.lport p.rport) (fun _ => p)
    else s.lly.paths ++ [p]
  { s with lly := { s.lly with paths := paths } }

/-- The remote logical port of the path on which a local port sends to a peer. DESIGN CHOICE (assumption 86): the peer table gives a peer
one address and not the number of its port, which is 0 until the peer's first datagram names it. -/
def State.remotePort (s : State) (peer lport : Nat) : Nat :=
  let ps := s.lly.paths.filter (fun p => p.peer = peer && p.lport = lport)
  match ps.find? (fun p => p.txSeq ≠ 0) with
  | some p => p.rport
  | none => (ps.head?.map LPath.rport).getD 0

def State.sendPath (s : State) (peer lport : Nat) : LPath := s.path peer lport (s.remotePort peer lport)

/-- A peer's port number learnt from its first datagram on a local port. -/
def State.learnPort (s : State) (peer lport rport : Nat) : State :=
  if s.lly.paths.any (fun p => p.is peer lport rport) then s
  else { s with lly := { s.lly with paths := modWhere s.lly.paths (fun p => p.is peer lport 0 && p.rxSeq = 0) (fun p => { p with rport := rport }) } }

/-- The local logical ports by which a peer may be reached and whose path is healthy, ascending (R401, R407). -/
def State.healthyPorts (s : State) (peer : Nat) : List Nat :=
  let e := s.lly.peers.getD peer .fresh
  (List.range 8).filter (fun l => e.mask.getLsbD l && (s.port (l / 2)).llyn && !(s.sendPath peer l).failed)

def State.countSent (s : State) (l : Nat) : State := s.modLport l (fun x => { x with sent := x.sent + 1 })

/-- A datagram sent on a path: it takes the path's next sequence number, carries its cumulative acknowledgement, and is
kept until acknowledged (R401). A `fixed` one, of a program in determinism mode, takes no other path (R407). -/
def State.sendOn (s : State) (lport peer kind : Nat) (h : LlyHeader) (data : List Byte) (fixed : Bool := false) : State :=
  let p := s.sendPath peer lport
  let hdr : LlyHeader := { h with seq := p.txSeq + 1, ackSeq := p.rxSeq, rport := lport, via := s.lly.rank, sumOk := true }
  let d : Datagram := { kind := kind, hdr := hdr, data := data, sent := s.clock, tries := 0, moved := false, fixed := fixed }
  ((s.setPath { p with txSeq := p.txSeq + 1, unacked := p.unacked ++ [d] }).emit (.llynad lport kind hdr data)).countSent lport

/-- The header of a datagram from this module to a rank. -/
def State.llyHeader (s : State) (dst : Nat) (tag msg : Word) (row nflit : Nat) (param : DWord) : LlyHeader :=
  { src := s.lly.rank, dst := dst, tag := tag, seq := 0, ackSeq := 0, msg := msg, row := row, nflit := nflit, param := param, rport := 0, via := s.lly.rank,
    sumOk := true }

/-- The ranks of a group's members, by index. -/
def Group.members (x : Group) : List Nat := (x.ranks.take x.size).map BitVec.toNat

/-- The running program of a tag: members' programs meet by TAG (R403). -/
def State.programOf (s : State) (tag : Word) : Option Nat :=
  (List.range 32).find? (fun k => match s.prog? k with | some p => p.tag = tag && p.ending.isNone && p.hdr.isSome | none => false)

/-- The group whose members may relay a datagram (R407): that of its program, or its genlock group. -/
def State.relayMembers (s : State) (kind : Nat) (tag : Word) : List Nat :=
  if kind = kARRIVE || kind = kCOMMIT || kind = kCACK then (s.group (tag.toNat % 8)).members
  else match s.programOf tag with
    | some k => match s.prog? k with
      | some pr => (s.group pr.group).members
      | none => []
    | none => []

/-- The lowest-numbered of some members that has healthy paths to this module and to a peer (R407). -/
def State.relayRank (s : State) (ranks : List Nat) (peer : Nat) : Option Nat :=
  ranks.find? (fun v => v ≠ s.lly.rank && v ≠ peer && !(s.healthyPorts v).isEmpty && Config.relayReaches v peer s.clock)

/-- A datagram sent to a peer on its lowest healthy path, through another module when it has none; with no way, it is not sent. -/
def State.sendLly (s : State) (peer kind : Nat) (h : LlyHeader) (data : List Byte) : State :=
  match s.healthyPorts peer with
  | l :: _ => s.sendOn l peer kind h data
  | [] => match s.relayRank (s.relayMembers kind h.tag) peer with
    | some v => match s.healthyPorts v with
      | l :: _ => s.sendOn l v kind h data
      | [] => s
    | none => s

/-! ### Landing rows (R402) -/

/-- How a program's datagram goes to a peer (R407): on a local logical port to a module, the peer or one that relays, or not at all. -/
inductive Route where
  | by (lport via : Nat)
  | held
  | failed
  | away
  deriving DecidableEq, Repr

/-- The way of a program's datagram: in determinism mode the path kept for the peer and no other; else one of the healthy paths, in
turn, or through a relay when there is none, which the host names when the context asks to re-plan (R407). -/
def State.progRoute (s : State) (pr : CProg) (peer n : Nat) : Route :=
  if pr.det then
    match smapGet pr.detPort peer with
    | some l => if (s.sendPath peer l).failed then .failed else .by l peer
    | none => .failed
  else match s.healthyPorts peer with
    | l :: ls => .by ((l :: ls).getD (n % (l :: ls).length) l) peer
    | [] =>
      let replan := (s.ctx pr.ctx).assist.getLsbD 3
      let via := match smapGet pr.routes peer with
        | some v => some v
        | none => if replan then none else s.relayRank (s.group pr.group).members peer
      match via with
      | none => if replan then .held else .away
      | some v => match s.healthyPorts v with
        | l :: _ => .by l v
        | [] => .away

/-- A record of type 5 (R360): a path failed, or traffic held for the host. -/
def linkRecord (pr : CProg) (peer lport rport : Nat) (held : Bool) : List Byte :=
  evRecord 5 0 0 (pr.tag.toNat + pr.group % 16 * 2 ^ 32) peer (lport + rport * 2 ^ 8 + (if held then 2 ^ 16 else 0))

/-- Traffic to a peer held until the host routes it; a second peer's waits until the first is routed. -/
def State.holdTraffic (s : State) (k peer : Nat) : State :=
  match s.prog? k with
  | none => s
  | some pr =>
    if pr.held.isSome then s
    else
      let l := ((List.range 8).find? (fun l => (s.lly.peers.getD peer .fresh).mask.getLsbD l)).getD 0
      (s.setProg k (some { pr with held := some peer })).tryEvent pr.ctx (linkRecord pr peer l 0 true)

/-- GRANT sent for a row, the way of the program that receives the message; where it cannot go now, it goes with a later one. -/
def State.tellGrant (s : State) (row : Nat) : State :=
  let r := s.lly.rows.getD row .fresh
  match r.owner with
  | none => s
  | some (src, tag, msg) =>
    let h := s.llyHeader src tag msg row 0 0
    match (s.programOf tag).bind (fun k => (s.prog? k).map (fun pr => (k, pr))) with
    | none => s
    | some (k, pr) => match s.progRoute pr src (msg.toNat + r.off / 8192) with
      | .by l v =>
        ({ s with lly := { s.lly with rows := modAt s.lly.rows row (fun r => { r with told := true }) } }).sendOn l v kGRANT h [] pr.det
      | .held => s.holdTraffic k src
      | _ => s

/-- A request granted: the row is kept for the load that it asks for, and GRANT names it. -/
def State.grantRow (s : State) (row : Nat) (h : LlyHeader) : State :=
  let r : Row := { owner := some (h.src, h.tag, h.msg), off := h.param.toNat, told := false, data := none }
  ({ s with lly := { s.lly with rows := s.lly.rows.set row r } }).tellGrant row

/-- The engine that runs a program slot: DESIGN CHOICE (assumption 87), the first sixteen slots are the first engine's. -/
def engineOf (slot : Nat) : Nat := slot / 16

/-- A free landing row of the engine that runs a message's program (R402). -/
def State.freeRow (s : State) (h : LlyHeader) : Option Nat :=
  (s.programOf h.tag).bind (fun k =>
    ((List.range 64).map (fun i => 64 * engineOf k + i)).find? (fun r => (s.lly.rows.getD r .fresh).owner.isNone))

/-- Requests are ordered by the cycle of their arrival, then by lower logical port, then by lower source rank (R402). -/
def reqBefore (a b : Nat × Nat × LlyHeader) : Bool :=
  decide (a.1 < b.1) || (a.1 = b.1 && (decide (a.2.1 < b.2.1) || (a.2.1 = b.2.1 && decide (a.2.2.src ≤ b.2.2.src))))

/-- A request waits behind those that come before it. -/
def State.queueReq (s : State) (q : Nat × Nat × LlyHeader) : State :=
  let (front, back) := s.lly.reqs.span (fun x => reqBefore x q)
  { s with lly := { s.lly with reqs := front ++ [q] ++ back } }

/-- Queued requests take free rows in their order (R402), once the cycle of their arrival is over. -/
def State.serveRows (s : State) (fuel : Nat) : State :=
  match fuel with
  | 0 => s
  | n + 1 =>
    match s.lly.reqs.find? (fun q => decide (q.1 < s.cycle) && (s.freeRow q.2.2).isSome) with
    | none => s
    | some q =>
      (({ s with lly := { s.lly with reqs := s.lly.reqs.erase q } }).grantRow ((s.freeRow q.2.2).getD 0) q.2.2).serveRows n

/-- Rows released after their contents are written, or with the program they belong to. -/
def State.releaseRows (s : State) (p : Row → Bool) : State :=
  ({ s with lly := { s.lly with rows := s.lly.rows.map (fun r => if p r then .fresh else r) } }).serveRows 128

/-! ### Uncorrectable errors met by a program or a publication (R429, R436) -/

/-- The protected units with an uncorrectable error in a range that a context reads: where each is met, as a virtual and a physical address. -/
def State.badRange (s : State) (ctx va n : Nat) : List (Nat × Nat) :=
  if n = 0 then []
  else (List.range ((va + n - 1) / 32 - va / 32 + 1)).filterMap (fun i =>
    let v := max va (32 * (va / 32 + i))
    match s.tablePa ctx v pteR with
    | some pa => if s.bad pa 1 then some (v, pa) else none
    | none => none)

/-- The strand of a publication or of a collective program that met uncorrectable errors traps later, once for the operation. -/
def State.deferFor (s : State) (o : Nat × Nat × Nat) (ctx : Nat) (bad : List (Nat × Nat)) : State :=
  let va := lowest (bad.map Prod.fst)
  let owed : Bool := match s.env? o.1 o.2.1 with
    | some e => e.t.deferred.any (fun d => d.op = o.2.2)
    | none => false
  if bad.isEmpty then s
  else (s.consumeUes ctx owed (bad.map Prod.snd)).modStrand o.1 o.2.1 (fun t =>
    if owed then { t with deferred := modWhere t.deferred (fun d => d.op = o.2.2) (fun d => { d with va := BitVec.ofNat 57 (min d.va.toNat va) }) }
    else match t.inflight.find? (fun p => p.id = o.2.2) with
      | some p => match p.kind with
        | .publish _ _ l => t.defer p.id (laneBit l) va p.pc
        | .cprog _ l => t.defer p.id (laneBit l) va p.pc
        | _ => t
      | none => t)

/-- Uncorrectable errors in a range that a program reads: its strand traps later, or only ECCCONS counts them (R436). -/
def State.noteBad (s : State) (pr : CProg) (va n : Nat) : State :=
  let bad := s.badRange pr.ctx va n
  match pr.owner with
  | some o => s.deferFor o pr.ctx bad
  | none => s.consumeUes pr.ctx false (bad.map Prod.snd)

/-! ### Program headers and steps (R403, R404) -/

/-- Status codes of R403. -/
def psDone : Nat := 0
def psLinkFail : Nat := 1
def psBadProg : Nat := 2
def psAborted : Nat := 3
def psPage : Nat := 4

/-- Whether the 64 bytes of a header keep the limits of R403. -/
def headerOk (b : List Byte) : Bool :=
  let w0 := leAt b 0 4
  let n := bitsOf w0 0 16
  1 ≤ n && n ≤ 4096 && bitsOf w0 16 3 ≤ 4 && bitsOf w0 19 2 ≠ 3 && bitsOf w0 22 2 = 0 && bitsOf w0 28 4 = 0
    && leAt b 0x20 4 % 256 = 0 && leAt b 0x20 4 ≤ 2 ^ 24 && 1 ≤ leAt b 0x24 2 && leAt b 0x26 2 = 0
    && leAt b 0x28 8 % 8 = 0 && leAt b 0x30 4 < 8 && leAt b 0x39 3 = 0

/-- The program a header describes, standing at its first step. -/
def CProg.ofHeader (ctx : Nat) (hdr : Option Nat) (b : List Byte) (owner : Option (Nat × Nat × Nat)) (slotOf : Option (Nat × Nat)) (ending : Option Nat) : CProg :=
  let w0 := leAt b 0 4
  { ctx := ctx, hdr := hdr, steps := BitVec.ofNat 64 (leAt b 0x28 8), nsteps := bitsOf w0 0 16, ty := bitsOf w0 16 3,
    rop := bitsOf w0 19 2, det := w0.testBit 21, group := bitsOf w0 24 4, tag := BitVec.ofNat 32 (leAt b 4 4),
    src := BitVec.ofNat 64 (leAt b 8 8), dst := BitVec.ofNat 64 (leAt b 0x10 8), scr := BitVec.ofNat 64 (leAt b 0x18 8),
    csize := leAt b 0x20 4, nch := leAt b 0x24 2, ctr := leAt b 0x30 4 % 8, cinc := BitVec.ofNat 32 (leAt b 0x34 4), pc := 0,
    loops := [0, 0, 0, 0], txNum := [], rxNum := [], detPort := [], routes := [], out := [], got := [], held := none, owner := owner, slotOf := slotOf,
    ending := ending }

/-- In determinism mode each peer keeps the lowest healthy port it has when the program starts (R407). -/
def State.detPorts (s : State) : SMap Nat :=
  (List.range 64).filterMap (fun r => match s.healthyPorts r with | l :: _ => some (r, l) | [] => none)

/-- The step word that a program goes on to is read: an uncorrectable error in it counts (R436). -/
def State.fetchStep (s : State) (k : Nat) : State :=
  match s.prog? k with
  | some pr => if pr.ending.isNone then s.noteBad pr (pr.steps.toNat + 8 * pr.pc) 8 else s
  | none => s

/-- A program handed to an engine (R412): a free slot takes it, STATUS becomes 0xFF, and a header that is malformed,
misaligned or absent makes it end at once. None when no slot is free. STATUS stands at 0x38 of the header, a misaligned one's too. -/
def State.startProg (s : State) (ctx : Nat) (va : Nat) (owner : Option (Nat × Nat × Nat)) (slotOf : Option (Nat × Nat)) : Option State :=
  match s.progs.findIdx? (fun p => p.isNone) with
  | none => none
  | some k =>
    let bad (st : Nat) : CProg := CProg.ofHeader ctx none [] owner slotOf (some st)
    if vaBad va then some (s.setProg k (some (bad psBadProg)))
    else match s.tablePa ctx va pteR, s.tablePa ctx ((va + 0x38) % 2 ^ 64) pteR with
      | some pa, some sa =>
        let pr :=
          if va % 64 ≠ 0 then CProg.ofHeader ctx (some (sa - 0x38)) [] owner slotOf (some psBadProg)
          else
            let b := s.peekBytes pa 64
            CProg.ofHeader ctx (some pa) b owner slotOf (if headerOk b then none else some psBadProg)
        let pr := if pr.det then { pr with detPort := s.detPorts } else pr
        let s1 := if va % 64 = 0 then s.noteBad pr va 64 else s
        some (((s1.setProg k (some pr)).homeWrite .engine (some ctx) sa (leBytes 4 0xFF)).fetchStep k)
      | _, _ => some (s.setProg k (some (bad psPage)))

/-! ### Trigger counters and slots (R408 to R410) -/

/-- Whether the 64 bytes of a trigger descriptor are well formed (R409). -/
def trigOk (b : List Byte) : Bool :=
  let w0 := leAt b 0 4
  (w0 % 4 = 1 || w0 % 4 = 2) && w0 / 32 = 0 && (leAt b 8 8) % (if w0 % 4 = 1 then 32 else 64) = 0
    && [0, 1, 2, 3, 4].all (fun j => bitsOf (leAt b (0x18 + 8 * j) 8) 48 11 = 0)

/-- The predicate of a descriptor over the counters (R409). -/
def trigHolds (b : List Byte) (tcs : List DWord) : Bool :=
  let terms := [0, 1, 2, 3, 4].map (fun j => leAt b (0x18 + 8 * j) 8)
  let grp (g : Nat) : Bool :=
    let ts := terms.filter (fun t => t.testBit 63 && bitsOf t 62 1 = g)
    !ts.isEmpty && ts.all (fun t => bitsOf t 0 48 ≤ (tcs.getD (bitsOf t 59 3) 0).toNat)
  grp 0 || grp 1

/-- A fired slot: it is disarmed and counted, and its action begins; a program action takes a program slot now when one
is free. -/
def State.fireSlot (s : State) (ctx t : Nat) (b : List Byte) : State :=
  let f := ((s.ctx ctx).trigs.getD t .fresh).fires
  let s1 := s.modCtx ctx (fun x => { x with trigs := modAt x.trigs t (fun sl =>
    { desc := none, actions := sl.actions ++ [(f, b)], fires := f + 1 }) })
  if leAt b 0 4 % 4 = 2 then (s1.startProg ctx (leAt b 8 8) none (some (t, f))).getD s1 else s1

/-- Every armed slot of a context evaluated, in slot order (R410). -/
def State.evalTriggers (s : State) (ctx : Nat) : State :=
  (List.range 32).foldl (fun st t =>
    match ((st.ctx ctx).trigs.getD t .fresh).desc with
    | some b => if trigHolds b (st.ctx ctx).tcs then st.fireSlot ctx t b else st
    | none => st) s

def State.tc (s : State) (ctx k : Nat) : DWord := (s.ctx ctx).tcs.getD k 0

/-- A counter set, with the triggers evaluated after the change (R408, R410). -/
def State.setTc (s : State) (ctx k : Nat) (v : DWord) : State :=
  (s.modCtx ctx (fun x => { x with tcs := x.tcs.set k v })).evalTriggers ctx

def State.addTc (s : State) (ctx k : Nat) (v : DWord) : State := s.setTc ctx k (s.tc ctx k + v)

/-- The action of a slot's firing `f` ends: IINC is added to ICTR, unless it failed its checks (R410). -/
def State.endAction (s : State) (ctx t f : Nat) (counts : Bool) : State :=
  match (((s.ctx ctx).trigs.getD t .fresh).actions.find? (fun a => a.1 = f)) with
  | none => s
  | some (_, b) =>
    let s1 := s.modCtx ctx (fun x => { x with trigs := modAt x.trigs t (fun sl => { sl with actions := sl.actions.filter (fun a => a.1 ≠ f) }) })
    if counts then s1.addTc ctx (bitsOf (leAt b 0 4) 2 3) (BitVec.ofNat 64 (leAt b 4 4)) else s1

/-! ### The end of a program (R405) -/

/-- An operation of a crew's strand performed: it is counted now, or on restore when the crew is saved (R295, R383, R411). -/
def Crew.endOp (c : Crew) (t : Strand) (id : Nat) : Strand :=
  if c.state = .resident then t.finishOp id
  else { t with inflight := modWhere t.inflight (fun p => p.id = id) (fun p => { p with done := true }) }

def State.finishFor (s : State) (o : Nat × Nat × Nat) : State :=
  match s.crew? o.1 with
  | none => s
  | some c => s.modStrand o.1 o.2.1 (fun t => c.endOp t o.2.2)

/-- A datagram of a message that a program of this module has sent (R402). -/
def Datagram.carries (d : Datagram) (rank : Nat) (tag : Word) : Bool :=
  d.hdr.src = rank && d.hdr.tag = tag && !d.moved && (d.kind = kDATA || d.kind = kREQ)

/-- Whether a message of a program to a rank is not acknowledged. -/
def State.unackedTo (s : State) (tag : Word) (r : Nat) : Bool :=
  s.lly.paths.any (fun p => p.unacked.any (fun d => d.carries s.lly.rank tag && d.hdr.dst = r))

/-- Members of the program's group; none while the group is disabled. -/
def State.groupSize (s : State) (pr : CProg) : Nat := let g := s.group pr.group; if g.en then min 64 g.size else 0

/-- The member that a peer field names; out of range when it is not below N. -/
def peerIndex (mode off m n : Nat) : Nat :=
  match mode with
  | 0 => off
  | 1 => if n = 0 then 64 else (m + off) % n
  | 2 => if n = 0 then 64 else (((m : Int) - off) % (n : Int)).toNat
  | _ => m ^^^ off

/-- The rank that a peer field names (R404). -/
def State.peerRank (s : State) (pr : CProg) (mode off : Nat) : Nat :=
  let g := s.group pr.group
  (g.ranks.getD (peerIndex mode off g.myIdx (s.groupSize pr)) 0).toNat

/-- The member whose message the current step of a program, a RECV or an RRS, awaits. -/
def State.awaits (s : State) (pr : CProg) : Option Nat :=
  match s.tablePa pr.ctx (pr.steps.toNat + 8 * pr.pc) pteR with
  | none => none
  | some pa =>
    let w := s.peek pa 8
    if bitsOf w 60 4 = 2 || bitsOf w 60 4 = 3 then some (s.peerRank pr (bitsOf w 58 2) (bitsOf w 52 6)) else none

/-- Ranks with which a program still has messages outstanding (R405): messages it has not finished sending or that are
not acknowledged, one it has received in part, and one that its step awaits. -/
def State.outstanding (s : State) (pr : CProg) : List Nat :=
  let g := s.group pr.group
  let ranks := (g.ranks.take g.size).map BitVec.toNat
  ranks.eraseDups.filter (fun r => r ≠ s.lly.rank &&
    (pr.out.any (fun m => m.peer = r) || (pr.ending.isNone && s.awaits pr = some r) || s.unackedTo pr.tag r
      || s.lly.rows.any (fun w => match w.owner with | some (x, t, _) => x = r && t = pr.tag | none => false)))

/-- ABT to a member, the way of the program that ends; with no way it is not sent (R405, R407). -/
def State.sendAbt (s : State) (pr : CProg) (r : Nat) : State :=
  match s.progRoute pr r 0 with
  | .by l v => s.sendOn l v kABT (s.llyHeader r pr.tag 0 0 0 0) [] pr.det
  | _ => s

/-- A program ends with a status: STATUS, then CINC to its counter, then its `cprog` is counted or its trigger's action
ends; any status but DONE sends ABT (R405). `counts` is false in a context reset, whose counters are cleared. -/
def State.endProg (s : State) (k status : Nat) (counts : Bool) : State :=
  match s.prog? k with
  | none => s
  | some pr =>
    let s1 := if status = psDone then s else (s.outstanding pr).foldl (fun st r => st.sendAbt pr r) s
    let s2 := (s1.setProg k none).releaseRows (fun w => match w.owner with | some (_, t, _) => t = pr.tag | none => false)
    let s3 := match pr.hdr with
      | some pa => s2.homeWrite .engine (some pr.ctx) (pa + 0x38) (leBytes 4 status)
      | none => s2
    let s4 := if counts && pr.hdr.isSome then s3.addTc pr.ctx pr.ctr (BitVec.ofNat 64 pr.cinc.toNat) else s3
    let s5 := match pr.owner with | some o => s4.finishFor o | none => s4
    match pr.slotOf with
    | some (t, f) => s5.endAction pr.ctx t f counts
    | none => s5

/-! ### Sessions (R396) -/

/-- IGMP traffic is for multicast destinations, 224.0.0.0/4. -/
def isMulticast (ip : Word) : Bool := ip.toNat / 2 ^ 28 = 14

/-- The logical ports a session names. -/
def SessDesc.ports (d : SessDesc) : List Nat := if d.portb = 15 then [d.porta] else [d.porta, d.portb]

/-- The session an operation of the stream unit acts on. -/
def OpKind.session? : OpKind → Option Nat
  | .srd k .. => some k
  | .srdt k .. => some k
  | .swr _ _ k .. => some k
  | .sflush _ _ k .. => some k
  | _ => none

/-- The timed barriers of a session that are not decided, each by its owner (R416). -/
def State.sessionTbars (s : State) (k : Nat) : List (Nat × Nat × Nat) :=
  s.groups.flatMap (fun g => (g.tbars.filter (fun b => b.session = k && !b.decided)).map Genlock.owner)

/-- CLOSE: traffic stops, IGMPv3 leaves are sent, and operations in flight complete with nothing performed, a `tbar` that waits for its
decision too (R396). -/
def State.closeSession (s : State) (k : Nat) : State :=
  let x := s.session k
  if !x.up then s
  else
    let s1 := if !x.d.send && isMulticast x.d.dstIp then x.d.ports.foldl (fun st l => st.emit (.igmp l x.d.dstIp x.d.srcIp false)) s else s
    let s2 := s1.modSession k (fun x => { x with up := false, sending := none, held := [], substQ := [] })
    let waiting := s.sessionTbars k
    { s2 with
      crews := s2.crews.map (fun c =>
        { c with
          binds := modWhere c.binds (fun b => b.bound && b.session = k) (fun b => { b with closed := true })
          strands := c.strands.map (fun t =>
            (t.inflight.filter (fun p => p.kind.session? = some k || waiting.contains (c.id, t.idx, p.id))).foldl (fun t p => c.endOp t p.id) t) })
      groups := s2.groups.map (fun g => { g with tbars := g.tbars.filter (fun b => !(b.session = k && !b.decided)) }) }

end Sys2Proof.Machine
end

