-- ==== Sys2Proof/Machine/Scan.lean ====
section
/-! DEFINITION. Finding and classing the elements that the lanes of an instruction touch
(spec/09_memory_and_copy_instructions.md R198, spec/11_fields_rays_and_samples.md R259): misaligned, refused, absent or
good. -/

namespace Sys2Proof.Machine

/-- The class of one element (R198), or that its translation is not known yet. -/
inductive ECls where
  | need
  | misaligned
  | refused
  | absent (tr : Trans)
  | good (tr : Trans)
  deriving DecidableEq, Repr

/-- What an access needs: its permission, and the condition on the page's format and the address that R199, R202 and
the format rules of the engines set. -/
structure Want where
  perm : DWord → Bool
  fits : DWord → Nat → Bool

/-- Classing one element. The page's format is known only from its translation. -/
def classify (look : Nat → Lookup) (w : Want) (va : Nat) : ECls :=
  if vaBad va then .misaligned
  else match look va with
    | .miss => .need
    | .invalid => .refused
    | .found tr =>
      if !w.fits tr.entry va then .misaligned
      else if !w.perm tr.entry then .refused
      else if !pteP tr.entry then .absent tr
      else .good tr

/-- What the elements of an instruction came to: addresses to translate, lanes misaligned and refused, the first refused
address of the lowest faulting lane, and the translations used. -/
structure Scan where
  needs   : List Nat
  align   : Mask
  fault   : Mask
  faultVa : Nat
  trans   : List Trans
  deriving DecidableEq, Repr

def Scan.empty : Scan := { needs := [], align := 0, fault := 0, faultVa := 0, trans := [] }

/-- One more element of a lane; lanes are scanned in ascending order. -/
def Scan.add (s : Scan) (lane va : Nat) (c : ECls) : Scan :=
  match c with
  | .need => if s.needs.any (fun x => pageNo x = pageNo va) then s else { s with needs := s.needs ++ [va] }
  | .misaligned => { s with align := s.align ||| laneBit lane }
  | .refused => { s with fault := s.fault ||| laneBit lane, faultVa := if s.fault = 0 then va else s.faultVa }
  | .absent tr => if s.trans.contains tr then s else { s with trans := s.trans ++ [tr] }
  | .good tr => if s.trans.contains tr then s else { s with trans := s.trans ++ [tr] }

/-- The elements of one lane. -/
def Scan.lane (s : Scan) (lane : Nat) (vas : List Nat) (cls : Nat → ECls) : Scan :=
  vas.foldl (fun s va => s.add lane va (cls va)) s

/-- Translation as a lane of the issuing strand sees it (R361, R362). -/
def Env.look (e : Env) (lane va : Nat) : Lookup :=
  lookupTrans (e.s.core e.c.core) e.t.answers (e.t.thread lane).lastPage e.c.ctx va

/-! ### How an instruction's body ends -/

/-- A trap an instruction raises: its cause, the lanes and the address it records, and CODE (R423, R424). -/
structure TrapInfo where
  cause : Nat
  mask  : Mask
  va    : Nat
  code  : BitVec 12
  deriving DecidableEq, Repr

def cILLEGAL : Nat := 1
def cSHAPE : Nat := 2
def cCONV : Nat := 3
def cALIGN : Nat := 4
def cPERM : Nat := 5
def cECC : Nat := 6
def cTRAP : Nat := 7
def cBREAK : Nat := 8
def cSESSION : Nat := 9

def TrapInfo.plain (cause : Nat) (mask : Mask) : TrapInfo := { cause := cause, mask := mask, va := 0, code := 0 }
def TrapInfo.at (cause : Nat) (mask : Mask) (va : Nat) : TrapInfo := { cause := cause, mask := mask, va := va, code := 0 }

/-- What executing an instruction's target word came to: it completed its issue; it completed and set the program
counters itself (`moved`), or the whole of where the strand stands next (`ovr`); it holds its group, to be issued
again; it trapped, with what it performed first (`part`: lanes outside the mask performed). -/
inductive Res where
  | done (e : Env)
  | moved (e : Env)
  | ovr (e : Env)
  | hold (e : Env)
  | trap (e : Env) (t : TrapInfo) (part : Bool)
  deriving DecidableEq, Repr

/-- Translations that an instruction misses are asked for, and its group holds (R187, R363). -/
def Env.missAll (e : Env) (kind : BitVec 5) (vas : List Nat) : Res :=
  .hold (e.via (fun s => vas.foldl (fun s va => s.missOn e.c.core e.c.ctx va kind (e.c.id, e.t.idx)) s))

end Sys2Proof.Machine
end

