-- ==== Sys2Proof/Machine/FieldEngine.lean ====
section
/-! DEFINITION. The field unit (spec/11_fields_rays_and_samples.md R262 to R274): field headers, positions, hashing and
interpolation, the shadow table, folding, marching and texture sampling. The issue checks stand with the instructions. -/

namespace Sys2Proof.Machine

/-! ### Structures -/

/-- A field header (R262). -/
structure Field where
  tbase : Nat
  sbase : Nat
  smode : Bool
  lev   : Nat
  feat  : Nat
  dim   : Nat
  log2t : Nat
  scale : Nat
  res   : List Nat
  deriving DecidableEq, Repr

/-- A header's fields. -/
def parseField (b : List Byte) : Field :=
  let w := leAt b 0x10 4
  { tbase := leAt b 0 8, sbase := leAt b 8 8, smode := w.testBit 16, lev := bitsOf w 12 4 + 1, feat := if w.testBit 9 then 4 else 2,
    dim := if w.testBit 8 then 3 else 2, log2t := bitsOf w 0 5, scale := bitsOf (leAt b 0x14 4) 0 8,
    res := (List.range 16).map (fun n => if n = 0 then bitsOf (leAt b 0x18 4) 0 16 else leAt b (0x20 + 2 * n) 2) }

/-- LOG2T, SCALE, BASE and every used RES within their ranges (R262). -/
def Field.inRange (f : Field) : Bool :=
  4 ≤ f.log2t && f.log2t ≤ 24 && f.scale ≤ 62 && (f.res.take f.lev).all (fun n => decide (2 ≤ n))

/-- Whether the bases keep the alignment the table requires (R259, R262). -/
def Field.aligned (f : Field) : Bool := f.tbase % 64 = 0 && f.sbase % 8 = 0

def Field.entries (f : Field) : Nat := 2 ^ f.log2t

/-! ### FP32 arithmetic of the unit -/

def r32 (x : Num) : Num := decF32 (rneF32 x)
def one : Num := .fin false 1 1
def fzero : Num := .fin false 0 1
def mulN (a b : Num) : Num := (numMul a b).val
def addN (a b : Num) : Num := (numAdd rne a b).val
def subN (a b : Num) : Num := addN a b.flip

/-- The integer part of a finite number, rounded down. -/
def floorN (x : Num) : Int :=
  match x with
  | .fin s n d => floorNum s n d
  | _ => 0

/-! ### Positions, corners and entries (R264) -/

def fieldPos (xa : Num) (n : Nat) : Nat × Num :=
  let x := if xa.isNan then fzero else xa
  let x := if Num.le x fzero then fzero else if Num.le one x then one else x
  let q := r32 (mulN x (Num.ofInt (n - 1 : Nat)))
  let i := min (floorN q).toNat (n - 2)
  (i, subN q (Num.ofInt i))

def hashField (f : Field) (n i j k : Nat) : Nat :=
  let r := f.res.getD n 2
  if r ^ f.dim ≤ f.entries then i + r * j + r * r * k
  else (i ^^^ (j * 0x9C3B5F1D % 2 ^ 32) ^^^ (k * 0xE4A1D2C7 % 2 ^ 32)) % f.entries

/-- A lane's place in one level: the entry and the weight of every corner, corners ascending (R45, R264). -/
def corners (f : Field) (n : Nat) (co : List Num) : List (Nat × Num) :=
  let r := f.res.getD n 2
  let (i, fx) := fieldPos (co.getD 0 fzero) r
  let (j, fy) := fieldPos (co.getD 1 fzero) r
  let (k, fz) := if f.dim = 3 then fieldPos (co.getD 2 fzero) r else (0, fzero)
  let side (bit : Bool) (w : Num) : Num := if bit then w else r32 (subN one w)
  (List.range (2 ^ f.dim)).map (fun c =>
    let w := r32 (mulN (side (c.testBit 0) fx) (side (c.testBit 1) fy))
    let w := if f.dim = 3 then r32 (mulN w (side (c.testBit 2) fz)) else w
    (hashField f n (i + c % 2) (j + c / 2 % 2) (if f.dim = 3 then k + c / 4 % 2 else 0), w))

/-- R45's accumulation over corners in order. -/
def interp (fs : List (Num × Num)) : Num := fs.foldl (fun acc p => r32 (addN acc (mulN p.1 p.2))) fzero

/-! ### Table elements (R263) -/

/-- Formats a parameter table may carry; an untyped page reads as FP32. -/
def tableFmtOk (e : DWord) : Bool := [0, 1, 2, 3, 4, 5, 7].contains (pteFmt e)
def tableFmt (e : DWord) : Nat := if pteFmt e = 0 then 1 else pteFmt e
def elemBytes (e : DWord) : Nat := fmtBits (tableFmt e) / 8

/-- The element size of a level: that of the page that holds its first entry. The place of that entry depends on the
size itself; the size of the page at the table's base is tried first, then 4, 2 and 1 (assumption 20). -/
def levelSize (look : Nat → Lookup) (f : Field) (n : Nat) : Except Nat Nat :=
  let sizeAt (va : Nat) : Except Nat (Option Nat) :=
    if vaBad va then .ok none else match look va with
      | .miss => .error va
      | .invalid => .ok none
      | .found tr => .ok (some (elemBytes tr.entry))
  match sizeAt f.tbase with
  | .error va => .error va
  | .ok base =>
    let first := n * f.entries * f.feat
    let rec go (cs : List Nat) : Except Nat Nat :=
      match cs with
      | [] => .ok (base.getD 4)
      | c :: rest => match sizeAt ((f.tbase + first * c) % 2 ^ 64) with
        | .error va => .error va
        | .ok r => if r = some c then .ok c else go rest
    go (match base with | some b => [b, 4, 2, 1] | none => [4, 2, 1])

def paramVa (f : Field) (size x h : Nat) : Nat := (f.tbase + (x * f.feat + h) * size) % 2 ^ 64
def shadowVa (f : Field) (x h : Nat) : Nat := (f.sbase + (x * f.feat + h) * (if f.smode then 8 else 4)) % 2 ^ 64

def paramWant (size : Nat) (perm : DWord → Bool) : Want :=
  { perm := perm, fits := fun e va => tableFmtOk e && elemBytes e = size && va % size = 0 }

def shadowWant (f : Field) (perm : DWord → Bool) : Want :=
  { perm := perm, fits := fun _ va => va % (if f.smode then 8 else 4) = 0 }

/-- What an engine reads at a held translation: the exact value, whether it was absent, and whether it was uncorrectable. -/
structure Got where
  val    : Num
  absent : Bool
  bad    : Bool
  deriving DecidableEq, Repr

/-- An element's code at its home slice and whether it is uncorrectable (R260); none for an absent one. -/
def State.paramCode (s : State) (trs : List Trans) (ctx va : Nat) : Option (Nat × Nat × Bool) :=
  match heldTrans trs ctx va with
  | none => none
  | some tr =>
    if !pteP tr.entry then none
    else
      let n := elemBytes tr.entry
      some (tableFmt tr.entry, s.peek (tr.pa va) n, s.bad (tr.pa va) n)

/-- A table element (R263): the code read earlier where there is one, else what its home slice holds now. -/
def State.readParam (s : State) (trs : List Trans) (ctx va : Nat) (held : Option (Nat × Bool)) : Got :=
  match s.paramCode trs ctx va with
  | none => { val := fzero, absent := true, bad := false }
  | some (fmt, now) =>
    let r := held.getD now
    { val := fmtValue fmt r.1, absent := false, bad := r.2 }

/-! ### hgf (R265) -/

/-- The outputs of one lane, feature by feature within level, with what its reads met. -/
structure LaneOut where
  outs   : List Num
  absent : Bool
  bad    : Option Nat
  deriving DecidableEq, Repr

/-- The level sizes under the translations a command holds. -/
def heldSize (c : FieldCmd) (f : Field) (n : Nat) : Nat :=
  match levelSize (fun va => match heldTrans c.trans c.ctx va with | some tr => .found tr | none => .invalid) f n with
  | .ok s => s
  | .error _ => 4

def coords (f : Field) (inputs : List (L8 Word)) (l : Nat) : List Num :=
  (inputs.take f.dim).map (fun r => decF32 (r.get l))

/-- The name of an element that `hgf` reads: lane, level, feature and corner. -/
def hgfKey (l n h c : Nat) : Nat := ((l * 16 + n) * 4 + h) * 8 + c

/-- The address of that element. -/
def hgfVa (c : FieldCmd) (f : Field) (key : Nat) : Option Nat :=
  let l := key / 512
  let n := key / 32 % 16
  let h := key / 8 % 4
  if laneOn c.mask l && decide (l < 8) && decide (n < f.lev) && decide (h < f.feat) then
    ((corners f n (coords f c.inputs l))[key % 8]?).map (fun p => paramVa f (heldSize c f n) (n * f.entries + p.1) h)
  else none

def State.evalField (s : State) (c : FieldCmd) (f : Field) (l : Nat) : LaneOut :=
  (List.range f.lev).foldl (fun acc n =>
    let cs := corners f n (coords f c.inputs l)
    let size := heldSize c f n
    (List.range f.feat).foldl (fun acc h =>
      let rs := cs.zipIdx.map (fun p =>
        let va := paramVa f size (n * f.entries + p.1.1) h
        (p.1.2, s.readParam c.trans c.ctx va (smapGet c.got (hgfKey l n h p.2)), va))
      let v := interp (rs.map (fun r => (r.1, r32 r.2.1.val)))
      { outs := acc.outs ++ [v], absent := acc.absent || rs.any (fun r => r.2.1.absent),
        bad := rs.foldl (fun m r => if r.2.1.bad then minVa m r.2.2 else m) acc.bad }) acc) { outs := [], absent := false, bad := none }

/-- Output words of a lane: FP32 each, or FP16 pairs (R265). -/
def outWords (o16 : Bool) (outs : List Num) : List Word :=
  if o16 then
    let h (x : Num) : Nat := (roundFmt fmtFp16 rne false 0 x).code
    (List.range (outs.length / 2)).map (fun i => BitVec.ofNat 32 (h (outs.getD (2 * i) fzero) + 2 ^ 16 * h (outs.getD (2 * i + 1) fzero)))
  else outs.map rneF32

/-- A run of registers written in some lanes: the tag is general (R258). -/
def Env.putRun (e : Env) (vd n : Nat) (lanes : Mask) (val : Nat → Nat → Word) : Env :=
  if lanes = 0 then e
  else e.puts true ((List.range n).map (fun i =>
    { d := vd + i, tag := .general, vals := (e.t.reg (vd + i)).lanes.mapi (fun l o => if laneOn lanes l then val i l else o) }))

/-- Lanes and the addresses at which each first met an uncorrectable error, as one deferred trap with the lowest (R429, R454). -/
def Env.deferLanes (e : Env) (p : Pending) (c : FieldCmd) (lanes : Mask) (vas : List Nat) : Env :=
  if lanes = 0 then e
  else
    let pas := vas.filterMap (fun va => (heldTrans c.trans c.ctx va).map (fun tr => tr.pa va))
    let e1 := e.via (fun s => pas.foldl State.uncorrectable (s.countUe e.c.ctx))
    { e1 with t := e1.t.defer p.id lanes (lowest vas) p.pc }

/-- Outputs of every lane written, with p7 and deferred errors. A lane that met both an absent and an uncorrectable element sets its
bit of p7 too, as the rest of a request proceeds beside what is uncorrectable (R429; DEDUCED, assumption 95). -/
def Env.fieldOutputs (e : Env) (p : Pending) (c : FieldCmd) (n : Nat) (rs : List (Nat × List Word × Bool × Option Nat)) : Env :=
  let bad := maskOf (fun l => rs.any (fun r => r.1 = l && r.2.2.2.isSome))
  let gone := maskOf (fun l => rs.any (fun r => r.1 = l && r.2.2.1))
  let e1 := e.putRun c.vd n (c.mask &&& ~~~bad) (fun i l => match rs.find? (fun r => r.1 = l) with | some r => r.2.1.getD i 0 | none => 0)
  let e2 := { e1 with t := e1.t.markAbsent gone }
  let e3 := e2.deferLanes p c bad (rs.filterMap (fun r => r.2.2.2))
  { e3 with t := e3.t.finishOp p.id }

def Env.performHgf (e : Env) (p : Pending) (c : FieldCmd) (o16 : Bool) : Env :=
  let f := parseField c.header
  let n := if o16 then f.lev * f.feat / 2 else f.lev * f.feat
  e.fieldOutputs p c n ((lanesOf c.mask).map (fun l =>
    let o := e.s.evalField c f l
    (l, outWords o16 o.outs, o.absent, o.bad)))

/-! ### hgs (R266, R267) -/

/-- `to_fixed`: the word, and whether it was a NaN or clamped. -/
def toFixed (scale : Nat) (x : Num) : Nat × Bool × Bool :=
  match x with
  | .nan _ => (0, true, false)
  | .inf s => (wrapNat (if s then -(2 ^ 63) else 2 ^ 63 - 1) 64, false, true)
  | .fin s n d =>
    let y := (roundInt rne 0 s (n * 2 ^ scale) d).1
    let z := satS y 64
    (wrapNat z 64, false, z ≠ y)

/-- Combined updates: keyed by flat index × F + feature, each a sum (an FP32 code or a 64-bit word) with the lanes that
contributed; and the events met. -/
structure Updates where
  sums  : SMap (Nat × Mask)
  fnan  : Bool
  fsat  : Bool
  deriving DecidableEq, Repr

/-- The gradient of output o in a lane: FP32 registers, or FP16 elements. -/
def gradient (i16 : Bool) (regs : List (L8 Word)) (o l : Nat) : Num :=
  if i16 then
    let w := ((regs.getD (o / 2) (L8.all 0)).get l).toNat
    decodeFmt fmtFp16 (bitsOf w (16 * (o % 2)) 16)
  else decF32 ((regs.getD o (L8.all 0)).get l)

/-- One contribution added to the map in its order. -/
def Updates.add (u : Updates) (f : Field) (key lane : Nat) (x : Num) : Updates :=
  if f.smode then
    let (v, isNan, clamped) := toFixed f.scale x
    let old := (smapGet u.sums key).getD (0, 0)
    { sums := smapSet u.sums key ((old.1 + v) % 2 ^ 64, old.2 ||| laneBit lane), fnan := u.fnan || isNan, fsat := u.fsat || clamped }
  else
    match smapGet u.sums key with
    | none => { u with sums := smapSet u.sums key ((rneF32 x).toNat, laneBit lane) }
    | some (o, m) => { u with sums := smapSet u.sums key ((rneF32 (addN (decF32 (BitVec.ofNat 32 o)) x)).toNat, m ||| laneBit lane) }

/-- The contributions of the lanes in the order of R266. -/
def fieldUpdates (f : Field) (i16 : Bool) (mask : Mask) (inputs : List (L8 Word)) : Updates :=
  (lanesOf mask).foldl (fun u l =>
    (List.range f.lev).foldl (fun u n =>
      (corners f n (coords f inputs l)).foldl (fun u p =>
        (List.range f.feat).foldl (fun u h =>
          let g := gradient i16 (inputs.drop f.dim) (n * f.feat + h) l
          u.add f ((n * f.entries + p.1) * f.feat + h) l (r32 (mulN p.2 g))) u) u) u)
    { sums := [], fnan := false, fsat := false }

/-- One combined update performed at its home slice (R267). -/
def shadowAdd (f : Field) (u old : Nat) : Nat :=
  if f.smode then (old + u) % 2 ^ 64
  else (rneF32 (addN (decF32 (BitVec.ofNat 32 old)) (decF32 (BitVec.ofNat 32 u)))).toNat

/-- The combined updates of an `hgs` that are not performed yet: key, sum and the lanes that contributed. -/
def FieldCmd.unsent (c : FieldCmd) (f : Field) (i16 : Bool) : List (Nat × Nat × Mask) :=
  (fieldUpdates f i16 c.mask c.inputs).sums.filter (fun x => !c.sent.contains x.1)

/-- The address of an update's shadow word. -/
def updateVa (f : Field) (key : Nat) : Nat := shadowVa f (key / f.feat) (key % f.feat)

/-- One update performed, and what it met. -/
def State.sendUpdate (s : State) (c : FieldCmd) (f : Field) (x : Nat × Nat × Mask) : State × FieldCmd :=
  let va := updateVa f x.1
  let c := { c with sent := x.1 :: c.sent }
  match heldTrans c.trans c.ctx va with
  | none => (s, { c with gone := c.gone ||| x.2.2 })
  | some tr =>
    if !pteP tr.entry then (s, { c with gone := c.gone ||| x.2.2 })
    else match s.rmw .engine none (some c.ctx) (tr.pa va) (if f.smode then 8 else 4) (shadowAdd f x.2.1) with
      | (none, s1) => (s1, { c with bad := c.bad ||| x.2.2, badVa := minVa c.badVa va })
      | (some _, s1) => (s1, c)

/-- A request's end: p7, the lanes with an uncorrectable error, and the count. -/
def Env.endField (e : Env) (p : Pending) (c : FieldCmd) : Env :=
  let e1 := { e with t := e.t.markAbsent c.gone }
  let e2 := e1.deferLanes p c c.bad c.badVa.toList
  { e2 with t := e2.t.finishOp p.id }

def Env.performHgs (e : Env) (p : Pending) (c : FieldCmd) (i16 : Bool) : Env :=
  let f := parseField c.header
  let u := fieldUpdates f i16 c.mask c.inputs
  let (s1, c1) := (c.unsent f i16).foldl (fun a x => a.1.sendUpdate a.2 f x) (e.commit, c)
  let e1 := e.reload s1
  let dev : BitVec 3 := (if c1.gone ≠ 0 then 4 else 0) ||| (if u.fnan then 2 else 0) ||| (if u.fsat then 1 else 0)
  { e1 with t := { e1.t with fldev := e1.t.fldev ||| dev } } |>.endField p c1

/-- The shadow words an undone `hgs` has still to update. -/
def Pending.shadowWords (p : Pending) : List Nat :=
  match p.kind with
  | .field c => match c.kind with
    | .hgs i16 =>
      let f := parseField c.header
      (c.unsent f i16).filterMap (fun x => (heldTrans c.trans c.ctx (updateVa f x.1)).map (fun tr => tr.pa (updateVa f x.1)))
    | _ => []
  | _ => []

/-- Of the older operations, youngest first, the `hgs` that must go before one with updates of `words`: the updates of one strand to one
word are accepted in issue order (R267). The answer is oldest first. -/
def updatesBefore (older : List Pending) (words : List Nat) : List Pending :=
  match older with
  | [] => []
  | p :: rest =>
    let own := p.shadowWords
    if !p.done && own.any (fun w => words.contains w) then updatesBefore rest (words ++ own) ++ [p] else updatesBefore rest words

/-! ### hgfold (R268, R269) -/

def foldClr (cw : Word) : Bool := cw.getLsbD 4
def foldSat (cw : Word) : Bool := cw.getLsbD 3
def foldRm (cw : Word) : Nat := bitsOf cw.toNat 0 3

/-- The first word of each of a command's operands, held as uniform inputs. -/
def FieldCmd.arg (c : FieldCmd) (i : Nat) : Word := (c.inputs.getD i (L8.all 0)).get 0

/-- The k-th feature of the range folded, and what it met (R269). -/
def State.foldOne (s : State) (c : FieldCmd) (f : Field) (k : Nat) : State × FieldCmd :=
  let x := (c.arg 1).toNat + k / f.feat
  let h := k % f.feat
  let c := { c with sent := k :: c.sent }
  let missing : FieldCmd := { c with gone := c.gone ||| laneBit c.lane }
  let cw := c.arg 3
  let eta := decF32 (c.arg 0)
  let n := if f.smode then 8 else 4
  let sva := shadowVa f x h
  let size := heldSize c f (x / f.entries)
  let pva := paramVa f size x h
  -- the shadow word, read and perhaps cleared in one step
  let (word, s1, c1) : Option Nat × State × FieldCmd :=
    match heldTrans c.trans c.ctx sva with
    | none => (some 0, s, missing)
    | some tr =>
      if !pteP tr.entry then (some 0, s, missing)
      else if s.bad (tr.pa sva) n then (none, s, { c with bad := laneBit c.lane, badVa := minVa c.badVa sva })
      else
        let old := s.peek (tr.pa sva) n
        (some old, if foldClr cw then s.homeWrite .engine (some c.ctx) (tr.pa sva) (leBytes n 0) else s, c)
  match word with
  | none => (s1, c1)
  | some w =>
    let v : Num := if f.smode then (numScale (Num.ofInt (sextInt w 64)) (-(f.scale : Int))).val else decF32 (BitVec.ofNat 32 w)
    match heldTrans c.trans c.ctx pva with
    | none => (s1, { c1 with gone := c1.gone ||| laneBit c.lane, drop := true })
    | some tr =>
      if !pteP tr.entry then (s1, { c1 with gone := c1.gone ||| laneBit c.lane, drop := true })
      else
        let fmt := tableFmt tr.entry
        let pa := tr.pa pva
        if s1.bad pa size then (s1, { c1 with bad := laneBit c.lane, badVa := minVa c1.badVa pva })
        else
          let y := (numAdd (foldRm cw) (fmtValue fmt (s1.peek pa size)) (mulN eta v).flip).val
          let draw := srDraw c.seed.toNat c.key.toNat (2 ^ 32 + k)
          let code := (encodeElem fmt (foldRm cw) (foldSat cw) draw y).code
          (s1.homeWrite .engine (some c.ctx) pa (leBytes size code), c1)

def Env.performHgfold (e : Env) (p : Pending) (c : FieldCmd) : Env :=
  let f := parseField c.header
  let n := (c.arg 2).toNat * f.feat
  let (s1, c1) := ((List.range n).drop c.sent.length).foldl (fun a i => a.1.foldOne a.2 f i) (e.commit, c)
  let e1 := e.reload s1
  let e2 := if c1.drop then { e1 with t := { e1.t with fldev := e1.t.fldev ||| 4 } } else e1
  e2.endField p c1

/-! ### tex (R273, R274) -/

/-- A texture descriptor (R273). -/
structure Texture where
  base  : Nat
  h     : Nat
  w     : Nat
  pitch : Nat
  wrap  : Bool
  bilin : Bool
  chs   : Nat
  deriving DecidableEq, Repr

def parseTexture (b : List Byte) : Texture :=
  let f := leAt b 0x10 4
  { base := leAt b 0 8, h := leAt b 0xA 2, w := leAt b 8 2, pitch := leAt b 0xC 4, wrap := f.testBit 3, bilin := f.testBit 2,
    chs := bitsOf f 0 2 }

def Texture.inRange (t : Texture) : Bool := 1 ≤ t.h && 1 ≤ t.w && t.chs ≠ 3
def Texture.channels (t : Texture) : Nat := 2 ^ t.chs

/-- Formats a texel page may carry (R273). -/
def texFmtOk (e : DWord) : Bool := [0, 1, 2, 3, 4, 5, 7, 8, 9, 10, 11].contains (pteFmt e)

def texIndex (wrap : Bool) (a : Int) (w : Nat) : Nat :=
  if wrap then (a % w).toNat else (max 0 (min a (w - 1))).toNat

/-- The texels of a lane with their weights' fractions: nearest has one corner. -/
def texCorners (t : Texture) (uw vw : Word) : List (Nat × Nat) × Num × Num :=
  let lim : Num := .fin false (2 ^ 24) 1
  let clean (x : Num) : Num := let x := if x.isNan then fzero else x
    if Num.le x lim.flip then lim.flip else if Num.le lim x then lim else x
  let x := mulN (clean (decF32 uw)) (Num.ofInt t.w)
  let y := mulN (clean (decF32 vw)) (Num.ofInt t.h)
  let half : Num := .fin false 1 2
  if t.bilin then
    let x := subN x half
    let y := subN y half
    let i := floorN x
    let j := floorN y
    ((List.range 4).map (fun c => (texIndex t.wrap (i + (c % 2 : Nat)) t.w, texIndex t.wrap (j + (c / 2 : Nat)) t.h)),
      r32 (subN x (Num.ofInt i)), r32 (subN y (Num.ofInt j)))
  else ([(texIndex t.wrap (floorN x) t.w, texIndex t.wrap (floorN y) t.h)], fzero, fzero)

def texVa (t : Texture) (size a b h : Nat) : Nat := (t.base + b * t.pitch + (a * t.channels + h) * size) % 2 ^ 64

/-- Element size of the page that holds texel (0, 0). -/
def texSize (look : Nat → Lookup) (t : Texture) : Except Nat Nat :=
  if vaBad t.base then .ok 4 else match look t.base with
    | .miss => .error t.base
    | .invalid => .ok 4
    | .found tr => .ok (elemBytes tr.entry)

def texWant (size : Nat) : Want :=
  { perm := pteR, fits := fun e va => texFmtOk e && elemBytes e = size && va % size = 0 }

def Env.performTex (e : Env) (p : Pending) (c : FieldCmd) : Env :=
  let t := parseTexture c.header
  let size := match texSize (fun va => match heldTrans c.trans c.ctx va with | some tr => .found tr | none => .invalid) t with
    | .ok s => s
    | .error _ => 4
  e.fieldOutputs p c t.channels ((lanesOf c.mask).map (fun l =>
    let (cs, fx, fy) := texCorners t ((c.inputs.getD 0 (L8.all 0)).get l) ((c.inputs.getD 1 (L8.all 0)).get l)
    let chan (h : Nat) : List (Got × Nat) := cs.map (fun ab => let va := texVa t size ab.1 ab.2 h; (e.s.readParam c.trans c.ctx va none, va))
    let all := (List.range t.channels).map chan
    let side (bit : Bool) (w : Num) : Num := if bit then w else r32 (subN one w)
    let outs := all.map (fun gs =>
      if t.bilin then interp (gs.zipIdx.map (fun g => (r32 (mulN (side (g.2 % 2 = 1) fx) (side (g.2 / 2 = 1) fy)), r32 g.1.1.val)))
      else r32 ((gs.headD ({ val := fzero, absent := false, bad := false }, 0)).1.val))
    let flat := all.flatten
    (l, outs.map rneF32, flat.any (fun g => g.1.absent), flat.foldl (fun m g => if g.1.bad then minVa m g.2 else m) none)))

/-! ### march (R271, R272) -/

/-- Exact rationals of the marching unit. -/
structure Rat2 where
  n : Int
  d : Nat
  deriving DecidableEq, Repr

def Rat2.ofNum (x : Num) : Rat2 :=
  match x with
  | .fin s n d => let g := max 1 (Nat.gcd n d); { n := if s then -(n / g : Nat) else (n / g : Nat), d := d / g }
  | _ => { n := 0, d := 1 }

def Rat2.ofInt (x : Int) : Rat2 := { n := x, d := 1 }
def Rat2.norm (a : Rat2) : Rat2 := let g := max 1 (Nat.gcd a.n.natAbs a.d); { n := a.n / (g : Int), d := a.d / g }
def Rat2.add (a b : Rat2) : Rat2 := Rat2.norm { n := a.n * b.d + b.n * a.d, d := a.d * b.d }
def Rat2.neg (a : Rat2) : Rat2 := { n := -a.n, d := a.d }
def Rat2.sub (a b : Rat2) : Rat2 := a.add b.neg
def Rat2.mul (a b : Rat2) : Rat2 := Rat2.norm { n := a.n * b.n, d := a.d * b.d }
def Rat2.div (a b : Rat2) : Rat2 := Rat2.norm { n := a.n * b.d * (if b.n < 0 then -1 else 1), d := a.d * b.n.natAbs }
def Rat2.le (a b : Rat2) : Bool := decide (a.n * b.d ≤ b.n * a.d)
def Rat2.lt (a b : Rat2) : Bool := decide (a.n * b.d < b.n * a.d)
def Rat2.isZero (a : Rat2) : Bool := a.n = 0
def Rat2.floor (a : Rat2) : Int := a.n / (a.d : Int)
def Rat2.ceil (a : Rat2) : Int := -((-a.n) / (a.d : Int))
def Rat2.toNum (a : Rat2) : Num := .fin (decide (a.n < 0)) a.n.natAbs a.d

/-- A grid descriptor (R271). -/
structure Grid where
  base : Nat
  org  : List Num
  s    : Num
  dt   : Num
  lv   : Nat
  deriving DecidableEq, Repr

def parseGrid (b : List Byte) : Grid :=
  let f (o : Nat) : Num := decodeFmt fmtFp32 (leAt b o 4)
  { base := leAt b 0 8, org := [f 8, f 0xC, f 0x10], s := f 0x14, dt := f 0x18, lv := bitsOf (leAt b 0x1C 4) 0 3 }

def Num.finite (x : Num) : Bool := !x.isNan && !x.isInf
def Grid.inRange (g : Grid) (dtCode : Nat) : Bool :=
  g.org.all Num.finite && g.s.finite && !g.s.isNeg && !g.s.isZero && g.dt.finite && !g.dt.isNeg && 0x00800000 ≤ dtCode

def gridOff (k : Nat) : Nat := [0x0, 0x40000, 0x48000, 0x49000, 0x49200, 0x49240, 0x49248, 0x49249].getD k 0

/-- One axis of the ray in grid cells: position at m is a + m × b. -/
structure Axis where
  a : Rat2
  b : Rat2
  deriving DecidableEq, Repr

def Axis.at (x : Axis) (m : Int) : Rat2 := x.a.add (x.b.mul (.ofInt m))

/-- The integers m with lo ≤ a + m × b < hi: first and last, or none on a resting axis outside. -/
def Axis.span (x : Axis) (lo hi : Int) (mmax : Int) : Int × Int :=
  if x.b.isZero then (if Rat2.le (.ofInt lo) x.a && Rat2.lt x.a (.ofInt hi) then (0, mmax) else (1, 0))
  else
    let q (v : Int) : Rat2 := ((Rat2.ofInt v).sub x.a).div x.b
    if 0 < x.b.n then ((q lo).ceil, (q hi).ceil - 1) else ((q hi).floor + 1, (q lo).floor)

/-- The smallest m' > m at which the axis has left [lo, hi), if it ever does. -/
def Axis.leaves (x : Axis) (lo hi : Int) : Option Int :=
  if x.b.isZero then none
  else
    let q (v : Int) : Rat2 := ((Rat2.ofInt v).sub x.a).div x.b
    if 0 < x.b.n then some (q hi).ceil else some ((q lo).floor + 1)

/-- Where a lane's march stands. -/
structure MarchSt where
  m    : Option Int
  outs : List Word
  gone : Bool
  bad  : Option Nat
  deriving DecidableEq, Repr

/-- What stops a march before it is done: a page to translate, or a refused one. -/
inductive MarchStop where
  | need (va : Nat)
  | refused (va : Nat)
  | misaligned (va : Nat)
  deriving DecidableEq, Repr

/-- An occupancy bit (R271): an absent page reads as occupied. -/
def State.gridBit (s : State) (look : Nat → ECls) (g : Grid) (k : Nat) (a b c : Nat) : Except MarchStop (Bool × Bool × Option Nat) :=
  let w := 128 / 2 ^ k
  let i := a + w * (b + w * c)
  let va := (g.base + gridOff k + i / 8) % 2 ^ 64
  match look va with
  | .need => .error (.need va)
  | .misaligned => .error (.misaligned va)
  | .refused => .error (.refused va)
  | .absent _ => .ok (true, true, none)
  | .good tr => .ok ((s.peek (tr.pa va) 1).testBit (i % 8), false, if s.bad (tr.pa va) 1 then some va else none)

/-- The largest level up to LV at which the cells holding P are all empty; none when the level-0 cell is occupied. -/
def State.emptyLevel (s : State) (look : Nat → ECls) (g : Grid) (p : List Int) (k fuel : Nat) (st : MarchSt) (best : Option Nat) :
    Except MarchStop (Option Nat × MarchSt) :=
  match fuel with
  | 0 => .ok (best, st)
  | n + 1 =>
    if g.lv < k then .ok (best, st)
    else
      let c (i : Nat) : Nat := (p.getD i 0).toNat / 2 ^ k
      match s.gridBit look g k (c 0) (c 1) (c 2) with
      | .error x => .error x
      | .ok (occ, gone, bad) =>
        let st := { st with gone := st.gone || gone, bad := match bad with | some a => minVa st.bad a | none => st.bad }
        if occ then .ok (best, st) else s.emptyLevel look g p (k + 1) n st (some k)

/-- The loop of R272. -/
def State.marchLoop (s : State) (look : Nat → ECls) (g : Grid) (axes : List Axis) (dt : Rat2) (mmax : Int) (fuel : Nat) (st : MarchSt) :
    Except MarchStop MarchSt :=
  match fuel with
  | 0 => .ok st
  | n + 1 =>
    match st.m with
    | none => .ok st
    | some m =>
      if 8 ≤ st.outs.length then .ok st
      else if mmax < m then .ok { st with m := none }
      else
        let p := axes.map (fun x => (x.at m).floor)
        let ax (i : Nat) : Axis := axes.getD i { a := .ofInt 0, b := .ofInt 0 }
        if !(p.all (fun v => 0 ≤ v && v < 128)) then
          let spans := axes.map (fun x => x.span 0 128 mmax)
          let lo := spans.foldl (fun a x => max a x.1) (m + 1)
          let hi := spans.foldl (fun a x => min a x.2) mmax
          s.marchLoop look g axes dt mmax n { st with m := if lo ≤ hi then some lo else none }
        else
          match s.emptyLevel look g p 0 8 st none with
          | .error x => .error x
          | .ok (none, st) => s.marchLoop look g axes dt mmax n { st with outs := st.outs ++ [rneF32 ((dt.mul (.ofInt m)).toNum)], m := some (m + 1) }
          | .ok (some k, st) =>
            let cell (i : Nat) : Int := (p.getD i 0) / 2 ^ k * 2 ^ k
            let outs := (List.range 3).filterMap (fun i => (ax i).leaves (cell i) (cell i + 2 ^ k))
            let next := outs.foldl (fun (a : Option Int) x => match a with | some y => some (min x y) | none => some x) none
            s.marchLoop look g axes dt mmax n { st with m := match next with | some x => if x ≤ mmax then some x else none | none => none }

/-- One lane's march: its ten output words, and what it met. -/
def State.marchLane (s : State) (look : Nat → ECls) (g : Grid) (ray : List Num) : Except MarchStop (List Word × Bool × Option Nat) :=
  let inf : Word := 0x7F800000
  let t0 := ray.getD 6 fzero
  let tmax := ray.getD 7 fzero
  let dt := Rat2.ofNum g.dt
  let finish (st : MarchSt) : List Word × Bool × Option Nat :=
    let n := st.outs.length
    (st.outs ++ List.replicate (8 - n) inf ++ [BitVec.ofNat 32 n, match st.m with | some m => rneF32 ((dt.mul (.ofInt m)).toNum) | none => inf],
      st.gone, st.bad)
  let none' : MarchSt := { m := none, outs := [], gone := false, bad := none }
  if (ray.take 6).any (fun x => !x.finite) || t0.isNan || tmax.isNan then .ok (finish none')
  else
    let cap : Int := 2 ^ 23
    let mmax : Int := match tmax with
      | .inf true => -1
      | .fin .. => min cap ((Rat2.ofNum tmax).div dt).floor
      | _ => cap
    let m0 : Int := match t0 with
      | .inf true => 0
      | .fin .. => max 0 ((((Rat2.ofNum t0).div dt).add { n := 1, d := 2 }).floor)
      | _ => cap + 1
    let r (i : Nat) : Rat2 := Rat2.ofNum (ray.getD i fzero)
    let sc := Rat2.ofNum g.s
    let axes := (List.range 3).map (fun i =>
      ({ a := ((r i).sub (Rat2.ofNum (g.org.getD i fzero))).mul sc, b := (dt.mul (r (3 + i))).mul sc } : Axis))
    match s.marchLoop look g axes dt mmax 256 { none' with m := some m0 } with
    | .error x => .error x
    | .ok st => .ok (finish st)

/-- How a grid byte is classed when the instruction is checked (R259), and under the translations a command holds (R260). -/
def gridClass (look : Nat → Lookup) (va : Nat) : ECls := classify look { perm := pteR, fits := fun _ _ => true } va

/-- DESIGN CHOICE (assumption 30): a page that the check at issue did not reach, and that had no valid translation with read permission
then, reads as absent. -/
def FieldCmd.gridHeld (c : FieldCmd) (va : Nat) : ECls :=
  match heldTrans c.trans c.ctx va with
  | some tr => if pteP tr.entry && pteR tr.entry then .good tr else .absent tr
  | none => .absent { ctx := c.ctx, base := 0, level := 0, entry := 0 }

/-- The grid is read when the march is performed (R260). -/
def Env.performMarch (e : Env) (p : Pending) (c : FieldCmd) : Env :=
  let g := parseGrid c.header
  e.fieldOutputs p c 10 ((lanesOf c.mask).map (fun l =>
    match e.s.marchLane c.gridHeld g (c.inputs.map (fun r => decF32 (r.get l))) with
    | .ok (outs, gone, bad) => (l, outs, gone, bad)
    | .error _ => (l, [], false, none)))

/-- The outputs of a request whose structure is absent (R259). -/
def Env.performGiven (e : Env) (p : Pending) (c : FieldCmd) (n : Nat) : Env :=
  (e.putRun c.vd n c.mask (fun i l => (c.inputs.getD i (L8.all 0)).get l)).endField p c

/-- A field request performed and counted (R260). -/
def Env.performField (e : Env) (p : Pending) : Env :=
  match p.kind with
  | .field c =>
    match c.kind with
    | .hgf o16 => e.performHgf p c o16
    | .hgs i16 =>
      let older := (e.t.inflight.filter (fun q => q.id < p.id)).reverse
      let e1 := (updatesBefore older p.shadowWords).foldl (fun e q => match q.kind with
        | .field b => match b.kind with | .hgs j => e.performHgs q b j | _ => e
        | _ => e) e
      e1.performHgs p c i16
    | .hgfold => e.performHgfold p c
    | .march => e.performMarch p c
    | .tex => e.performTex p c
    | .given n => e.performGiven p c n
  | _ => e

/-- One element of a field request performed before the rest of it (R267, R269, R270): an element that `hgf` reads, an update of `hgs`
none older of the strand has to precede, or the next feature of a fold. -/
def Env.partField (e : Env) (id i : Nat) : Env :=
  match e.t.inflight.find? (fun p => p.id = id && !p.done) with
  | none => e
  | some p =>
    let keep (e : Env) (c : FieldCmd) : Env :=
      { e with t := { e.t with inflight := modWhere e.t.inflight (fun q => q.id = id) (fun q => { q with kind := .field c }) } }
    match p.kind with
    | .field c =>
      let f := parseField c.header
      match c.kind with
      | .hgf _ => match (hgfVa c f i).bind (fun va => e.s.paramCode c.trans c.ctx va) with
        | some (_, r) => if (smapGet c.got i).isSome then e else keep e { c with got := smapSet c.got i r }
        | none => e
      | .hgs i16 => match (c.unsent f i16)[i]? with
        | none => e
        | some x =>
          let word := (heldTrans c.trans c.ctx (updateVa f x.1)).map (fun tr => tr.pa (updateVa f x.1))
          if e.t.inflight.any (fun q => q.id < id && !q.done && q.shadowWords.any (fun w => some w = word)) then e
          else
            let (s1, c1) := e.commit.sendUpdate c f x
            keep (e.reload s1) c1
      | .hgfold =>
        if c.sent.length < (c.arg 2).toNat * f.feat then
          let (s1, c1) := e.commit.foldOne c f c.sent.length
          keep (e.reload s1) c1
        else e
      | _ => e
    | _ => e

end Sys2Proof.Machine
end

