-- ==== Sys2Proof/Machine/Rays.lean ====
section
/-! DEFINITION. The traversal unit (spec/11_fields_rays_and_samples.md R275 to R282): nodes, triangle records, and the run
of a query to its next stop. -/

namespace Sys2Proof.Machine

/-! ### Query status and reasons (R276) -/

def qMiss : Nat := 0
def qHit : Nat := 1
def qTriCand : Nat := 2
def qProcCand : Nat := 3
def qAborted : Nat := 4
def qNone : Nat := 5
def qRunning : Nat := 6

def Query.stopped (q : Query) : Bool := q.status = qTriCand || q.status = qProcCand

/-- A query ended with an abort reason. -/
def Query.abort (q : Query) (reason : Nat) : Query := { q with status := qAborted, reason := reason, todo := [], cand := .none }

/-! ### The ray -/

/-- The ray as exact numbers; `ok` when its origin and direction are finite. -/
structure Ray where
  o    : List Rat2
  d    : List Rat2
  tmin : Num
  ok   : Bool
  deriving DecidableEq, Repr

def Query.theRay (q : Query) : Ray :=
  let x (i : Nat) : Num := decF32 (q.ray.getD i 0)
  { o := [0, 1, 2].map (fun i => Rat2.ofNum (x i)), d := [3, 4, 5].map (fun i => Rat2.ofNum (x i)), tmin := x 6,
    ok := (List.range 6).all (fun i => (x i).finite) && !(x 6).isNan && !(x 7).isNan }

def r2 (xs : List Rat2) (i : Nat) : Rat2 := xs.getD i { n := 0, d := 1 }

/-- The greater of two numbers that are not NaN. -/
def maxN (a b : Num) : Num := if Num.le a b then b else a
def minN (a b : Num) : Num := if Num.le a b then a else b

/-! ### Nodes (R275, R277) -/

/-- A child of a node: kind, record count, box corners and reference. -/
structure Child where
  kind  : Nat
  count : Nat
  lo    : List Rat2
  hi    : List Rat2
  ref   : Nat
  deriving DecidableEq, Repr

/-- The children of a node in child order; none for a format error. -/
def parseNode (b : List Byte) : Option (List Child) :=
  let org := [0, 4, 8].map (fun o => decodeFmt fmtFp32 (leAt b o 4))
  let es := [0xC, 0xD, 0xE].map (fun o => leAt b o 1)
  let kinds := (List.range 4).map (fun c => leAt b (0x28 + c) 1)
  let kindOk (k : Nat) : Bool := if k % 4 = 2 then k / 4 ≠ 0 else k / 4 = 0
  if es.any (fun e => e = 0xFF) || !(kinds.all kindOk) then none
  else
    let scale (i : Nat) : Rat2 := Rat2.ofNum (Num.scaled false 1 ((es.getD i 0 : Int) - 127))
    let corner (c off : Nat) : List Rat2 := (List.range 3).map (fun i =>
      (Rat2.ofNum (org.getD i fzero)).add ((Rat2.ofInt (leAt b (0x10 + 6 * c + off + i) 1)).mul (scale i)))
    let fin := org.all Num.finite
    some ((List.range 4).map (fun c =>
      { kind := if fin then kinds.getD c 0 % 4 else 0, count := kinds.getD c 0 / 4, lo := corner c 0, hi := corner c 3, ref := leAt b (0x30 + 4 * c) 4 }))

/-- The box test: the entry distance when the slab intervals, intersected with [tmin, tl], are not empty. -/
def boxEntry (r : Ray) (tl : Num) (c : Child) : Option Num :=
  if !r.ok || (List.range 3).any (fun i => Rat2.lt (r2 c.hi i) (r2 c.lo i)) then none
  else
    let slab (i : Nat) : Option (Num × Num) :=
      let o := r2 r.o i
      let d := r2 r.d i
      if d.isZero then (if Rat2.le (r2 c.lo i) o && Rat2.le o (r2 c.hi i) then some (.inf true, .inf false) else none)
      else
        let a := ((r2 c.lo i).sub o).div d
        let b := ((r2 c.hi i).sub o).div d
        if Rat2.le a b then some (a.toNum, b.toNum) else some (b.toNum, a.toNum)
    match slab 0, slab 1, slab 2 with
    | some x, some y, some z =>
      let lo := maxN (maxN (maxN r.tmin x.1) y.1) z.1
      let hi := minN (minN (minN tl x.2) y.2) z.2
      if Num.le lo hi then some lo else none
    | _, _, _ => none

/-- A child put into a list ordered by entry distance, behind those at the same distance. -/
def insertChild (x : Num × Child) (xs : List (Num × Child)) : List (Num × Child) :=
  match xs with
  | [] => [x]
  | y :: rest => if Num.lt x.1 y.1 then x :: y :: rest else y :: insertChild x rest

/-- The work that entering a node adds, nearest first. -/
def childTodo (x : Num × Child) : Todo :=
  match x.2.kind with
  | 1 => .node x.2.ref
  | 2 => .tris x.2.ref x.2.count
  | _ => .proc (BitVec.ofNat 32 x.2.ref) x.1

def Todo.isNode : Todo → Bool
  | .node _ => true
  | _ => false

/-- Pending nodes: those on the list but for one taken at once (R277). -/
def pendingNodes (t : List Todo) : Nat :=
  match t with
  | .node _ :: rest => (rest.filter Todo.isNode).length
  | _ => (t.filter Todo.isNode).length

/-! ### Triangles (R275, R277) -/

def cross (a b : List Rat2) : List Rat2 :=
  let m (i j : Nat) : Rat2 := ((r2 a i).mul (r2 b j)).sub ((r2 a j).mul (r2 b i))
  [m 1 2, m 2 0, m 0 1]

def dot (a b : List Rat2) : Rat2 := (((r2 a 0).mul (r2 b 0)).add ((r2 a 1).mul (r2 b 1))).add ((r2 a 2).mul (r2 b 2))
def vsub (a b : List Rat2) : List Rat2 := (List.range 3).map (fun i => (r2 a i).sub (r2 b i))

/-- The exact hit of a record, if it hits, and its TEST bit. -/
def triHit (r : Ray) (tl : Num) (strict : Bool) (b : List Byte) : Option (Hit × Bool) :=
  let vals (o : Nat) : List Num := (List.range 3).map (fun i => decodeFmt fmtFp32 (leAt b (o + 4 * i) 4))
  let all := vals 0 ++ vals 0xC ++ vals 0x18
  if !r.ok || all.any (fun x => !x.finite) then none
  else
    let p0 := (vals 0).map Rat2.ofNum
    let e1 := vsub ((vals 0xC).map Rat2.ofNum) p0
    let e2 := vsub ((vals 0x18).map Rat2.ofNum) p0
    let h := cross r.d e2
    let det := dot e1 h
    if det.isZero then none
    else
      let sv := vsub r.o p0
      let q := cross sv e1
      let b1 := (dot sv h).div det
      let b2 := (dot r.d q).div det
      let t := ((dot e2 q).div det)
      let zero : Rat2 := .ofInt 0
      let tn := t.toNum
      if Rat2.le zero b1 && Rat2.le zero b2 && Rat2.le (b1.add b2) (.ofInt 1) && Num.le r.tmin tn
          && (if strict then Num.lt tn tl else Num.le tn tl) then
        some ({ t := tn, b1 := b1.toNum, b2 := b2.toNum, prim := BitVec.ofNat 32 (leAt b 0x24 4), geom := BitVec.ofNat 32 (leAt b 0x28 4), proc := false },
          (leAt b 0x2C 4).testBit 0)
      else none

/-! ### Running a query -/

/-- Bytes of a node or record: read, or the abort reason, or a page to translate. -/
inductive RayRead where
  | bytes (b : List Byte)
  | need (va : Nat)
  | abort (reason : Nat)
  | bad (pa : Nat)
  deriving DecidableEq, Repr

/-- A structure of `n` bytes read by pages (R280). DESIGN CHOICE (assumption 94): an address with any of bits [63:57] set, to which the
manual gives no outcome here, ends the query as a refused page does. -/
def State.rayRead (s : State) (look : Nat → Lookup) (va n : Nat) : RayRead :=
  let va := va % 2 ^ 64
  let part (a m : Nat) : RayRead :=
    match classify look { perm := pteR, fits := fun _ _ => true } a with
    | .need => .need a
    | .misaligned => .abort 2
    | .refused => .abort 2
    | .absent _ => .abort 4
    | .good tr => if s.bad (tr.pa a) m then .bad (tr.pa a) else .bytes (s.peekBytes (tr.pa a) m)
  let room := 2 ^ 14 - va % 2 ^ 14
  if n ≤ room then part va n
  else match part va room, part ((va + room) % 2 ^ 64) (n - room) with
    | .bytes a, .bytes b => .bytes (a ++ b)
    | .need a, _ => .need a
    | .abort x, _ => .abort x
    | .bad pa, _ => .bad pa
    | _, x => x

/-- How far a query ran: to a stop or its end, to a page that must be translated first, or to an uncorrectable error, which ends it. -/
structure RayRun where
  q    : Query
  need : Option Nat
  bad  : Option Nat := none
  deriving DecidableEq, Repr

/-- Traversal from where a query stands (R277). `fuel` bounds the nodes and records of one step. DESIGN CHOICE (assumption 94): a node's
children are box-tested when the node is read, against the limit as it stands then, and not again when they are taken. -/
def State.runQuery (s : State) (look : Nat → Lookup) (q : Query) (fuel : Nat) : RayRun :=
  match fuel with
  | 0 => { q := q, need := none }
  | n + 1 =>
    match q.todo with
    | [] => { q := { q with status := if q.hit.isSome then qHit else qMiss }, need := none }
    | .node ref :: rest =>
      match s.rayRead look (q.nbase.toNat + 64 * ref) 64 with
      | .need va => { q := q, need := some va }
      | .abort r => { q := q.abort r, need := none }
      | .bad pa => { q := q.abort 5, need := none, bad := some pa }
      | .bytes b =>
        match parseNode b with
        | none => { q := q.abort 3, need := none }
        | some cs =>
          let ray := q.theRay
          let entered := cs.foldl (fun acc c => if c.kind = 0 then acc else match boxEntry ray q.limit c with
            | some d => insertChild (d, c) acc
            | none => acc) []
          let todo := entered.map childTodo ++ rest
          if 32 < pendingNodes todo then { q := q.abort 1, need := none }
          else s.runQuery look { q with todo := todo } n
    | .tris _ 0 :: rest => s.runQuery look { q with todo := rest } n
    | .tris rec (k + 1) :: rest =>
      match s.rayRead look (q.tbase.toNat + 48 * rec) 48 with
      | .need va => { q := q, need := some va }
      | .abort r => { q := q.abort r, need := none }
      | .bad pa => { q := q.abort 5, need := none, bad := some pa }
      | .bytes b =>
        let rest' := .tris (rec + 1) k :: rest
        match triHit q.theRay q.limit q.hit.isSome b with
        | none => s.runQuery look { q with todo := rest' } n
        | some (h, test) =>
          if test then { q := { q with todo := rest', cand := some h, status := qTriCand }, need := none }
          else s.runQuery look { q with todo := rest', hit := some h, limit := h.t } n
    | .proc ref dist :: rest =>
      { q := { q with
                 todo := rest, status := qProcCand, cand := some { t := dist, b1 := fzero, b2 := fzero, prim := ref, geom := 0xFFFFFFFF, proc := true } }, need := none }

/-- A new query (R277). -/
def Query.start (desc : List Byte) (ray : List Word) : Query :=
  { status := qRunning, reason := 0, ray := ray, nbase := BitVec.ofNat 64 (leAt desc 0 8), tbase := BitVec.ofNat 64 (leAt desc 8 8),
    limit := decF32 (ray.getD 7 0),
    todo := [.node (leAt desc 0x10 4)], hit := .none, cand := .none, done := .none }

/-- `tcont` on a stopped query (R278): 0 reject, 1 accept, 2 terminate. -/
def Query.continue (q : Query) (action : Nat) (dist : Word) : Query :=
  match q.cand with
  | .none => q
  | .some c =>
    let t := if c.proc then decF32 dist else c.t
    let ok := !c.proc || (!t.isNan && Num.le (decF32 (q.ray.getD 6 0)) t && Num.lt t q.limit)
    let commit := action ≠ 0 && ok
    let q1 := { q with cand := .none, hit := if commit then some { c with t := t } else q.hit, limit := if commit then t else q.limit }
    if action = 2 then { q1 with status := if commit then qHit else qMiss, todo := [] }
    else { q1 with status := qRunning }

/-- The register of a lane's status code (R276). -/
def Strand.trstat (t : Strand) : Word :=
  BitVec.ofNat 32 (laneIds.foldl (fun a l => a + (t.thread l).query.status * 16 ^ l) 0)
def Strand.trreason (t : Strand) : Word :=
  BitVec.ofNat 32 (laneIds.foldl (fun a l => a + (t.thread l).query.reason * 16 ^ l) 0)

/-- The youngest `trace` or `tcont` in flight that a lane takes part in: a new one discards the query before it (R277). -/
def Strand.traceOf (t : Strand) (lane : Nat) : Option Pending :=
  t.inflight.reverse.find? (fun p => match p.kind with | .trace _ m _ => laneOn m lane | _ => false)

/-- A query that stands still until `rtt`: the strand is in the handler of a PERM or ALIGN trap that found it (R281). -/
def Strand.queryHeld (t : Strand) (lane : Nat) : Bool := t.inHandler && laneOn t.qstill lane

/-- TRAVERSAL_STOP: one lane's query runs to its next stop or end, and its status is written to the `trace` or `tcont`
that waits for it (R277, R278, R280). -/
def Env.traverse (e : Env) (lane : Nat) : Env :=
  let q := (e.t.thread lane).query
  let op := e.t.traceOf lane
  if q.status ≠ qRunning || e.t.queryHeld lane then e
  else
    let run := e.s.runQuery (e.look lane) q 4096
    let e1 := { e with t := e.t.modThread lane (fun x => { x with query := run.q }) }
    match run.need with
    | some va => e1.via (fun s => s.missOn e.c.core e.c.ctx va (kindRead ||| kindEngine) (e.c.id, e.t.idx))
    | none =>
      if run.q.status = qRunning then e1
      else
        let aborted := run.q.status = qAborted
        let t1 := if aborted && run.q.reason = 4 then e1.t.markAbsent (laneBit lane) else e1.t
        let e2 := { e1 with t := t1 }
        let e3 := match run.bad with | some pa => e2.via (fun s => s.consumeUe e.c.ctx pa) | none => e2
        match op with
        | some p => match p.kind with
          | .trace vd _ _ =>
            let e4 := e3.putRun vd 1 (laneBit lane) (fun _ _ => BitVec.ofNat 32 run.q.status)
            { e4 with t := e4.t.modThread lane (fun x => { x with query := { x.query with done := some p.pc } }) }
          | _ => e3
        | none => e3

/-- A `trace` or `tcont` whose lanes all have a status is counted (R260). -/
def Env.settleTrace (e : Env) (p : Pending) : Env :=
  match p.kind with
  | .trace _ m _ =>
    if (lanesOf m).all (fun l => (e.t.thread l).query.status ≠ qRunning) then { e with t := e.t.finishOp p.id } else e
  | _ => e

end Sys2Proof.Machine
end

