-- ==== Sys2Proof/Machine/SwageEngine.lean ====
section
/-! DEFINITION. The Swage (spec/10_swage_matrix_engine.md): accumulators (spec/02_number_formats.md R34, R35), tiles and
their shapes, the arithmetic of multiplies and drains, and the convergence registers. -/

namespace Sys2Proof.Machine

/-! ### Accumulators (R34, R35) -/

/-- The exact value of an accumulator. -/
def decodeAcc (int : Bool) (x : BitVec 80) : Num :=
  let v := x.toNat
  if int then Num.ofInt (sextInt v 80)
  else
    let neg := v.testBit 79
    let e := bitsOf v 64 15
    let m := v % 2 ^ 64
    if e = 0 then Num.scaled neg m (-16382 - 63)
    else if e = 0x7FFF then (if m = 2 ^ 63 then .inf neg else .nan false)
    else if m < 2 ^ 63 then .nan false
    else Num.scaled neg m ((e : Int) - 16383 - 63)

def accNan : BitVec 80 := 0x7FFFC000000000000000

/-- `round_rne` into the accumulator format, and whether a finite value became infinite. -/
def encodeAcc (x : Num) : BitVec 80 × Bool :=
  match x with
  | .nan _ => (accNan, false)
  | .inf s => (BitVec.ofNat 80 (0x7FFF * 2 ^ 64 + 2 ^ 63 + (if s then 2 ^ 79 else 0)), false)
  | .fin s n d =>
    let sg := if s then 2 ^ 79 else 0
    if n = 0 then (BitVec.ofNat 80 sg, false)
    else
      let qmin : Int := -16382 - 63
      let q : Int := max qmin (floorLog2 n d - 63)
      let n' := if q < 0 then n * 2 ^ (-q).toNat else n
      let d' := if q < 0 then d else d * 2 ^ q.toNat
      let m := n' / d'
      let r := n' % d'
      let m := if r != 0 && roundsUp rne s (m % 2 = 1) r d' 0 then m + 1 else m
      let (m, q) := if m = 2 ^ 64 then (2 ^ 63, q + 1) else (m, q)
      let e : Nat := if m < 2 ^ 63 then 0 else (q - qmin + 1).toNat
      if 0x7FFF ≤ e then (BitVec.ofNat 80 (0x7FFF * 2 ^ 64 + 2 ^ 63 + sg), true)
      else (BitVec.ofNat 80 (e * 2 ^ 64 + m + sg), false)

def evOV : BitVec 3 := 1
def evNV : BitVec 3 := 2
def evSA : BitVec 3 := 4

/-- An accumulator after one slice, with the events of R35. -/
def accumulate (int : Bool) (old : BitVec 80) (prods : List Exact) : BitVec 80 × BitVec 3 :=
  if int then
    let sum := prods.foldl (fun (a : Int) p => match p.val with | .fin s n _ => if s then a - n else a + n | _ => a) (sextInt old.toNat 80)
    let r := satS sum 80
    (BitVec.ofInt 80 r, if r ≠ sum then evSA else 0)
  else
    let a := decodeAcc false old
    let terms := a :: prods.map Exact.val
    let zeroInf := prods.any (fun p => p.flags.getLsbD 4 && p.val.isNan)
    let mixed := terms.any (fun x => x = .inf false) && terms.any (fun x => x = .inf true)
    if zeroInf || mixed then (accNan, evNV)
    else if terms.any Num.isNan then (accNan, 0)
    else if terms.any (fun x => x = .inf false) then ((encodeAcc (.inf false)).1, 0)
    else if terms.any (fun x => x = .inf true) then ((encodeAcc (.inf true)).1, 0)
    else
      let sum := (prods.map Exact.val).foldl (fun s x => Num.reduce (numAdd rne s x).val) (.fin true 0 1)
      let sum := if sum.isZero then Num.zero (prods.all (fun p => p.val.isZero && p.val.isNeg)) else sum
      let (c, ovr) := encodeAcc (numAdd rne a sum).val
      (c, if ovr then evOV else 0)

/-! ### Banks -/

def Bank.get (b : Bank) (i j : Nat) : BitVec 80 := (smapGet b.acc (64 * i + j)).getD 0
def Bank.set (b : Bank) (i j : Nat) (v : BitVec 80) : Bank :=
  { b with acc := if v = 0 then smapErase b.acc (64 * i + j) else smapSet b.acc (64 * i + j) v }
def Bank.event (b : Bank) (i : Nat) : BitVec 3 := (smapGet b.events i).getD 0
def Bank.raise (b : Bank) (i : Nat) (e : BitVec 3) : Bank := if e = 0 then b else { b with events := smapSet b.events i (b.event i ||| e) }
/-- A bank's events (R226). -/
def Bank.allEvents (b : Bank) : BitVec 3 := b.events.foldl (fun a p => a ||| p.2) 0

def Swage.bank (w : Swage) (one : Bool) : Bank := if one then w.bank1 else w.bank0
def Swage.setBank (w : Swage) (one : Bool) (b : Bank) : Swage := if one then { w with bank1 := b } else { w with bank0 := b }

/-- `ctl.accst` of the holder (R231). -/
def Swage.accst (w : Swage) : Word :=
  BitVec.ofNat 32 ((if w.act then 1 else 0) + (if w.bank0.int then 2 else 0) + (if w.bank1.int then 4 else 0)
    + 2 ^ 4 * w.bank0.allEvents.toNat + 2 ^ 8 * w.bank1.allEvents.toNat + 2 ^ 16)

/-! ### Tiles (R227 to R229) -/

def shRows (s : Word) : Nat := bitsOf s.toNat 0 7
def shCols (s : Word) : Nat := bitsOf s.toNat 8 9
def shFmt (s : Word) : Nat := bitsOf s.toNat 20 4

/-- Element width of a tile format. -/
def tileBits (fmt : Nat) : Nat :=
  match fmt with
  | 0 | 1 => 16
  | 2 | 3 | 4 | 5 => 8
  | 10 => 2
  | _ => 4

def tileInt (fmt : Nat) : Bool := fmt = 4 || fmt = 5 || fmt = 7 || fmt = 8
def tileFloat (fmt : Nat) : Bool := fmt ≤ 3 || fmt = 6 || fmt = 9
def fmtMeta : Nat := 10
def fmtMx4 : Nat := 9

/-- The page format a tile format equals (R354); n4 has none. -/
def tilePageFmt (fmt : Nat) : Option Nat :=
  match fmt with
  | 0 => some 2
  | 1 => some 3
  | 2 => some 4
  | 3 => some 5
  | 4 => some 8
  | 5 => some 9
  | 6 => some 6
  | 7 => some 14
  | 9 => some 16
  | _ => none

/-- Why a value may not be written to a shape register (R229): the trap cause, if any. DESIGN CHOICE (assumption 29): a reserved FMT traps
ILLEGAL whatever else is wrong. -/
def shapeRefused (v : Word) : Option Nat :=
  let fmt := shFmt v
  let rows := shRows v
  let cols := shCols v
  if 11 ≤ fmt then some cILLEGAL
  else if 64 < rows || 256 < cols || (rows = 0 && (cols ≠ 0 || fmt ≠ 0)) || (rows ≠ 0 && cols = 0)
      || cols * tileBits fmt % 8 ≠ 0 || 128 < cols * tileBits fmt / 8 || (fmt = fmtMx4 && cols % 32 ≠ 0) then some cSHAPE
  else none

/-- The bits of a shape register that are not reserved. -/
def shapeMask : Word := 0x00F1FF7F

def Swage.tile (w : Swage) (t : Nat) : Tile := w.tiles.getD t .fresh
def Swage.setTile (w : Swage) (t : Nat) (x : Tile) : Swage := { w with tiles := w.tiles.set t x }
def Tile.rows (t : Tile) : Nat := shRows t.shape
def Tile.cols (t : Tile) : Nat := shCols t.shape
def Tile.fmt (t : Tile) : Nat := shFmt t.shape
/-- Row bytes of a shaped tile (R229). -/
def Tile.rowBytes (t : Tile) : Nat := t.cols * tileBits t.fmt / 8

/-- Element bits at row i, column j (R227). -/
def Tile.bits (t : Tile) (i j : Nat) : Nat :=
  let w := tileBits t.fmt
  let off := 1024 * i + w * j
  bitsOf (Memory.readNat t.data (off / 8) (if w = 16 then 2 else 1)) (off % 8) w

def Tile.setBits (t : Tile) (i j v : Nat) : Tile :=
  let w := tileBits t.fmt
  let off := 1024 * i + w * j
  if w = 16 then { t with data := Memory.writeBytes t.data (off / 8) (leBytes 2 v) }
  else
    let old := (Memory.readByte t.data (off / 8)).toNat
    let sh := 2 ^ (off % 8)
    { t with data := Memory.writeByte t.data (off / 8) (BitVec.ofNat 8 (old - bitsOf old (off % 8) w * sh + v % 2 ^ w * sh)) }

/-- Scale bytes rest at 0x7F and are stored against it. -/
def Tile.scaleAt (t : Tile) (i blk : Nat) : Nat := (Memory.readByte t.scale (8 * i + blk) ^^^ 0x7F).toNat
def Tile.setScale (t : Tile) (i blk v : Nat) : Tile := { t with scale := Memory.writeByte t.scale (8 * i + blk) (BitVec.ofNat 8 v ^^^ 0x7F) }

/-- The exact value of element (i, j) (R247). -/
def Tile.val (t : Tile) (i j : Nat) : Num :=
  let b := t.bits i j
  match t.fmt with
  | 0 => decodeFmt fmtFp16 b
  | 1 => decodeFmt fmtBf16 b
  | 2 => decodeFmt fmtE4m3 b
  | 3 => decodeFmt fmtE5m2 b
  | 4 => Num.ofInt (sextInt b 8)
  | 5 => Num.ofInt b
  | 6 => decodeFmt fmtE2m1 b
  | 7 => Num.ofInt (sextInt b 4)
  | 9 => decodeMx4 b (t.scaleAt i (j / 32))
  | _ => Num.ofInt b

/-- An exact value brought into a tile format as a copy does with RM 0 and SAT 0 (R220, R243). -/
def encodeTile (fmt draw : Nat) (x : Num) : Nat :=
  if fmt = 8 then (toIntFmt 4 false rne draw x).code
  else (encodeElem ((tilePageFmt fmt).getD 0) rne false draw x).code

/-- `tzero` (R246). -/
def Tile.zero (t : Tile) : Tile :=
  let t1 := (List.range t.rows).foldl (fun t i => (List.range t.cols).foldl (fun t j => t.setBits i j 0) t) t
  if t.fmt = fmtMx4 then (List.range t.rows).foldl (fun t i => (List.range (t.cols / 32)).foldl (fun t k => t.setScale i k 0x7F) t) t1 else t1

/-! ### Multiplies (R247, R248) -/

/-- Elements a cell takes per slice: by the wider of two formats. -/
def sliceLen (a b : Tile) : Nat :=
  match max (tileBits a.fmt) (tileBits b.fmt) with
  | 16 => 1
  | 8 => 2
  | _ => 4

/-- Pairs (column of A, column of B) of one cell's products in order. -/
def mmaPairs (a : Tile) : List (Nat × Nat) := (List.range a.cols).map (fun k => (k, k))
def mmasPairs (tm a : Tile) (i : Nat) : List (Nat × Nat) := (List.range a.cols).map (fun q => (q, 4 * (q / 2) + tm.bits i q))

/-- A product of a slice. 0 × Inf is the one product that is invalid: a NaN element, signalling or not, raises nothing (R35). -/
def sliceProd (a b : Num) : Exact := if a.isNan || b.isNan then { val := .nan false, flags := 0 } else numMul a b

/-- One cell: the slices in ascending order. -/
def cellSlices (int : Bool) (a b : Tile) (i j e : Nat) (pairs : List (Nat × Nat)) (fuel : Nat) (acc : BitVec 80) (ev : BitVec 3) : BitVec 80 × BitVec 3 :=
  match fuel with
  | 0 => (acc, ev)
  | n + 1 =>
    match pairs with
    | [] => (acc, ev)
    | _ =>
      let prods := (pairs.take e).map (fun p => sliceProd (a.val i p.1) (b.val j p.2))
      let (acc, x) := accumulate int acc prods
      cellSlices int a b i j e (pairs.drop e) n acc (ev ||| x)

/-- A product accumulated into a bank, but for the accumulators that `skip` names. -/
def Bank.multiply (bk : Bank) (a b : Tile) (pairs : Nat → List (Nat × Nat)) (skip : Nat → Nat → Bool) : Bank :=
  let e := sliceLen a b
  (List.range a.rows).foldl (fun bk i => (List.range b.rows).foldl (fun bk j =>
    if skip i j then bk
    else
      let (v, ev) := cellSlices bk.int a b i j e (pairs i) 256 (bk.get i j) 0
      (bk.set i j v).raise i ev) bk) bk

/-! ### Drains (R251) -/

/-- Size of a drained element by DT code: FP32, BF16, FP16, DL8, i32. -/
def drainSize (dt : Nat) : Nat :=
  match dt with
  | 0 | 4 => 4
  | 3 => 1
  | _ => 2

/-- One drained element: its code and the event bits it adds (0x08, 0x10). -/
def drainElem (dt actv mode : Nat) (sat : Bool) (draw : Nat) (a scale : Num) : Nat × Nat :=
  let y := (numMul a scale).val
  let y := if actv = 1 && !y.isNan && y.isNeg then fzero else y
  let y := if actv = 2 && !y.isNan then (if Num.le y fzero then fzero else if Num.le one y then one else y) else y
  let z : Rounded := match dt with
    | 4 => toIntFmt 32 true mode draw y
    | 3 => encodeDl8 mode sat draw y
    | 2 => roundFmt fmtFp16 mode sat draw y
    | 1 => roundFmt fmtBf16 mode sat draw y
    | _ => roundFmt fmtFp32 mode sat draw y
  let ovr := if dt = 4 then z.flags.getLsbD 4 && !y.isNan else z.flags.getLsbD 2
  let nanOut := match dt with
    | 4 => y.isNan
    | 3 => y.isNan && !a.isNan
    | _ => y.isNan && !a.isNan
  (z.code, (if ovr then 0x08 else 0) + (if nanOut then 0x10 else 0))

/-- The bytes of one drained row, event byte last; none for those of the columns that `skip` names. -/
def Bank.drainRow (bk : Bank) (row col0 nc dt actv mode : Nat) (sat : Bool) (scale : Num) (draw : Nat → Nat) (skip : Nat → Bool) :
    List (Option Byte) :=
  let els := (List.range nc).map (fun j =>
    if skip j then none else some (drainElem dt actv mode sat (draw j) (decodeAcc bk.int (bk.get row (col0 + j))) scale))
  let ev := els.foldl (fun e x => e ||| (match x with | some y => y.2 | none => 0)) (bk.event row).toNat
  els.flatMap (fun x => match x with
    | some y => (leBytes (drainSize dt) y.1).map some
    | none => List.replicate (drainSize dt) none) ++ (leBytes 1 ev).map some

/-! ### The crew's Swage -/

/-- Whether the issuing crew holds the reservation (R232). -/
def Env.holdsSwage (e : Env) : Bool := (e.s.core e.c.core).holder = some e.c.id

def Env.swage (e : Env) : Swage := (e.s.core e.c.core).swage
def Env.setSwage (e : Env) (w : Swage) : Env := { e with s := e.s.modCore e.c.core (fun co => { co with swage := w }) }

/-- Protected units of a Swage, as `ue` names them (R256). DESIGN CHOICE (assumption 81): the manual gives no size, and a unit is 32 bytes
of a tile's storage, of its scales or of a bank, as it is of memory. -/
def swageUnit (core u : Nat) : Nat := 2 ^ 82 + core * 2 ^ 16 + u
/-- The unit of byte k of row i of a tile, of the scales of row i, and those of an accumulator, whose ten bytes may lie in two. -/
def tileUnit (tn i k : Nat) : Nat := 512 * tn + 4 * i + k / 32
def scaleUnit (tn i : Nat) : Nat := 512 * tn + 256 + i / 4
def accUnits (one : Bool) (i j : Nat) : List Nat :=
  let a := 640 * i + 10 * j
  let b := 8192 + (if one then 2048 else 0)
  [b + a / 32, b + (a + 9) / 32]

/-- Whether one of the units has an uncorrectable error, and whether no unit of the core's Swage has one. -/
def Env.swBad (e : Env) (us : List Nat) : Bool := us.any (fun u => e.s.ue.contains (swageUnit e.c.core u))
def Env.swSound (e : Env) : Bool := e.s.ue.all (fun g => g / 2 ^ 16 ≠ swageUnit e.c.core 0 / 2 ^ 16)

/-- The unit of raw byte k of row i of a tile: its data and then its scales (R243). -/
def Tile.rawUnit (t : Tile) (tn i k : Nat) : Nat := if k < t.rowBytes then tileUnit tn i k else scaleUnit tn i
/-- Whether element (i, j) of a tile, or its scale, is uncorrectable. -/
def Env.elemBad (e : Env) (tn i j : Nat) : Bool :=
  let t := e.swage.tile tn
  e.swBad (tileUnit tn i (j * tileBits t.fmt / 8) :: (if t.fmt = fmtMx4 then [scaleUnit tn i] else []))

/-- Units that have been written whole have no uncorrectable error any more (R436). -/
def Env.swFresh (e : Env) (whole : Nat → Bool) : Env :=
  if e.swSound then e
  else { e with s := { e.s with ue := e.s.ue.filter (fun g => g / 2 ^ 16 ≠ swageUnit e.c.core 0 / 2 ^ 16 || !whole (g % 2 ^ 16)) } }

/-- Whether unit `u` is written whole by a write of a tile's shaped elements, where the raw bytes `missing` stay as they were. -/
def Tile.covers (t : Tile) (tn : Nat) (missing : List (Nat × Nat)) (u : Nat) : Bool :=
  let v := u % 512
  let got (i lo n : Nat) : Bool := (List.range n).all (fun k => !missing.contains (i, lo + k))
  u / 512 = tn && (if v < 256 then decide (v / 4 < t.rows ∧ 32 * (v % 4 + 1) ≤ t.rowBytes) && got (v / 4) (32 * (v % 4)) 32
    else t.fmt = fmtMx4 && t.cols = 256 && decide (4 * (v - 256) + 4 ≤ t.rows)
      && (List.range 4).all (fun i => got (4 * (v - 256) + i) t.rowBytes 8))

/-- A tile whose shaped elements have been written, but for the raw bytes `missing` (row and place in it). -/
def Env.swWritten (e : Env) (tn : Nat) (missing : List (Nat × Nat)) : Env := e.swFresh ((e.swage.tile tn).covers tn missing)

/-- The global thread index of a lane (R42). -/
def globalThread (c : Crew) (t : Strand) (lane : Nat) : Nat := c.stage * 2 ^ 48 + c.gang * 2 ^ 16 + c.idx * 2 ^ 12 + (8 * t.idx + lane)

/-- The key of a stochastic Swage operation, and the thread's Swage draw count advanced (R253). -/
def Env.swKey (e : Env) (lane : Nat) : Nat × Env :=
  let n := (e.t.thread lane).swDraws
  (engineKey (n % 2 ^ 11 * 2 ^ 52 + 2 ^ 51 + globalThread e.c e.t lane), { e with t := e.t.modThread lane (fun x => { x with swDraws := n + 1 }) })

/-- The signers of an operation that has been accepted: their shares complete with it (R241). -/
def State.readySigners (s : State) (ss : List (Nat × Nat × Nat)) : State :=
  ss.foldl (fun st o => st.modStrand o.1 o.2.1 (fun t =>
    { t with
      inflight := modWhere t.inflight (fun p => p.id = o.2.2) (fun p => { p with kind := match p.kind with | .swage _ _ _ st => .swage none false none st | k => k }) })) s

/-- Whether an accepted Swage operation may be counted complete: not while it is an open signature (R241). -/
def Pending.swReady (p : Pending) : Bool :=
  match p.kind with
  | .swage _ signer _ _ => !signer
  | .mstat .. => true
  | _ => false

/-- An accepted operation is performed; its bit m of p7 for an absent page comes when it is counted complete (R238, R244); `mstat`'s value
arrives. -/
def Env.performShare (e : Env) (p : Pending) : Env :=
  match p.kind with
  | .swage absent signer _ _ =>
    if signer then e
    else
      { e with t := e.t.finishAbsent p.id (match absent with | some l => laneBit l | none => 0) }
  | .mstat vd mask v _ =>
    let tag : Tag := if mask = 0xFF then .uniform else .general
    let e1 := e.puts true [{ d := vd, tag := tag, vals := (e.t.reg vd).lanes.mapi (fun l o => if laneOn mask l then v else o) }]
    { e1 with t := e1.t.finishOp p.id }
  | _ => e

/-- SWAGE_OPERATION_COMPLETION. An `mstat` completes once the crew's operations accepted before it have (R252). -/
def Env.performSwage (e : Env) (p : Pending) : Env :=
  match p.kind with
  | .mstat _ _ _ before =>
    (e.via (fun s => before.foldl (fun st o => match st.env? e.c.id o.1 with
      | some x => match x.t.inflight.find? (fun q => q.id = o.2 && !q.done) with
        | some q => (x.performShare q).commit
        | none => st
      | none => st) s)).performShare p
  | _ => e.performShare p

end Sys2Proof.Machine
end

