-- ==== Sys2Proof/Machine/StreamEngine.lean ====
section
/-! DEFINITION. The stream complex (spec/12_stream_registers.md): pixel groups and their normalisation, frames in time,
frame slots and their objects, line states, and the operations `srd`, `srdt`, `swr` and `sflush` once accepted. -/

namespace Sys2Proof.Machine

/-! ### Pixel groups (R286) -/

def isRgb (fmt : Nat) : Bool := fmt = 2 || fmt = 3
def groupPixels (fmt : Nat) : Nat := if fmt = 2 then 4 else 2
def groupOctets (fmt : Nat) : Nat :=
  match fmt with
  | 0 => 5
  | 1 => 6
  | 2 => 15
  | _ => 9
def fmtDepth (fmt : Nat) : Nat := if fmt % 2 = 0 then 10 else 12
def groupSamples (fmt : Nat) : Nat := if isRgb fmt then 3 * groupPixels fmt else 4

/-- Where channel `ch` of pixel `p` of a group stands among its samples (R286, R287). -/
def sampleAt (fmt p ch : Nat) : Nat :=
  if isRgb fmt then 3 * p + ch
  else match ch with
    | 0 => 1 + 2 * p
    | 1 => 0
    | _ => 2

/-- The samples of a group, most significant bit first across its octets (R286). -/
def unpackGroup (fmt : Nat) (bs : List Byte) : List Nat :=
  let n := groupSamples fmt
  let b := fmtDepth fmt
  (List.range n).map (fun i => bitsOf (beNat bs) (b * (n - 1 - i)) b)

def packGroup (fmt : Nat) (xs : List Nat) : List Byte :=
  let x := xs.foldl (fun a v => a * 2 ^ fmtDepth fmt + v % 2 ^ fmtDepth fmt) 0
  (leBytes (groupOctets fmt) x).reverse

/-- A session of opaque RTP packets (R399). -/
def SessDesc.opaque_ (d : SessDesc) : Bool := d.fmt = 7

def SessDesc.groups (d : SessDesc) : Nat := ceilDiv d.w (groupPixels d.fmt)
def SessDesc.lineOctets (d : SessDesc) : Nat := d.groups * groupOctets d.fmt

/-! ### Normalisation (R287) -/

/-- Offset and divisor of a channel's normalised value. -/
def normTerms (d : SessDesc) (ch : Nat) : Nat × Nat :=
  let b := fmtDepth d.fmt
  let k := 2 ^ (b - 8)
  let chroma := !isRgb d.fmt && ch ≠ 0
  if d.full then (if chroma then 2 ^ (b - 1) else 0, 2 ^ b - 1)
  else if chroma then (128 * k, 224 * k)
  else (16 * k, 219 * k)

/-- The exact normalised value of a code. -/
def normExact (d : SessDesc) (ch c : Nat) : Num :=
  let (o, n) := normTerms d ch
  if c < o then .fin true (o - c) n else .fin false (c - o) n

/-- `norm`, and its BF16 form for `srdt` (R297). -/
def normIn (f : Fmt) (d : SessDesc) (ch c : Nat) : Nat := (roundFmt f rne false 0 (normExact d ch c)).code

/-- `denorm` of FP16 bits. -/
def denorm (d : SessDesc) (ch v : Nat) : Nat :=
  let (o, n) := normTerms d ch
  let top := 2 ^ fmtDepth d.fmt - 1
  match decodeFmt fmtFp16 v with
  | .nan _ => o
  | .inf neg => if neg then 0 else top
  | .fin neg a b =>
    let inv := numAdd rne (.fin neg (a * n) b) (Num.ofInt o)
    match inv.val with
    | .fin s x y => (satU (roundInt rne 0 s x y).1 (fmtDepth d.fmt)).toNat
    | _ => o

/-- The black code of a channel, for padding pixels (R286). -/
def blackCode (d : SessDesc) (ch : Nat) : Nat := (normTerms d ch).1

/-! ### Frames in time (R288) -/

/-- Nanoseconds from the epoch to frame s, and F(s), a PT64 (R12). -/
def SessDesc.frameNs (d : SessDesc) (s : Nat) : Nat := ceilDiv (s * d.rden * 10 ^ 9) (max 1 d.rnum)
def SessDesc.frameTime (d : SessDesc) (s : Nat) : Nat := d.frameNs s % 2 ^ 64
def SessDesc.period (d : SessDesc) (s : Nat) : Nat := d.frameNs (s + 1) - d.frameNs s
/-- D(s, y). -/
def SessDesc.deadline (d : SessDesc) (s y : Nat) : Nat := (d.frameTime s + y * d.period s / max 1 d.h + d.budget) % 2 ^ 64
/-- The smallest s with F(s) ≥ t (R283). -/
def SessDesc.frameFrom (d : SessDesc) (t : Nat) : Nat := if t = 0 then 0 else (t - 1) * d.rnum / max 1 (d.rden * 10 ^ 9) + 1

/-- CAPTURE and PRESENT of a frame (R288, R300). -/
def Session.timesOf (x : Session) (s : Nat) : DWord × DWord :=
  (smapGet x.times s).getD (BitVec.ofNat 64 (x.d.frameTime s), BitVec.ofNat 64 (x.d.frameTime s + x.d.od))

/-- Packets of a send frame: groups per packet, packets per line and per frame (R398). -/
def SessDesc.perPacket (d : SessDesc) : Nat := max 1 (d.maxPay / groupOctets d.fmt)
def SessDesc.perLine (d : SessDesc) : Nat := ceilDiv d.groups d.perPacket
def SessDesc.framePackets (d : SessDesc) : Nat := d.h * d.perLine

/-- t_j of a frame (R398). -/
def Session.packetTime (x : Session) (s j : Nat) : Nat :=
  let d := x.d
  let (ra, rd) := if d.sndt = 1 then (1, 1) else (d.ractN, max 1 d.ractD)
  ((x.timesOf s).2.toNat + d.trOff + j * d.period s * ra / (max 1 d.framePackets * rd)) % 2 ^ 64

/-! ### Frame slots (R289, R290) -/

def LineSt.fresh : LineSt := { present := [], filled := [], closed := false, marked := false, sent := 0 }
def FrameSlot.fresh : FrameSlot := { frame := none, state := 0, lines := [], subst := false }

def Session.slotNo (x : Session) (s : Nat) : Nat := s % max 1 x.d.nf
def Session.slot (x : Session) (s : Nat) : FrameSlot := x.slots.getD (x.slotNo s) .fresh
/-- Whether frame s holds its slot, or a later frame does. -/
def Session.claimed (x : Session) (s : Nat) : Bool := (x.slot s).frame = some s
def Session.passedBy (x : Session) (s : Nat) : Bool := match (x.slot s).frame with | some f => decide (s < f) | none => false

def FrameSlot.line (f : FrameSlot) (y : Nat) : LineSt := (smapGet f.lines y).getD .fresh
def FrameSlot.modLine (f : FrameSlot) (y : Nat) (g : LineSt → LineSt) : FrameSlot := { f with lines := smapSet f.lines y (g (f.line y)) }

def Session.storeAt (x : Session) (s y : Nat) : Nat := x.d.store.toNat + x.slotNo s * (x.d.pitch * x.d.h) + y * x.d.pitch
def Session.objAt (x : Session) (s : Nat) : Nat := x.d.ring.toNat + 64 * x.slotNo s

def State.modSlot (s : State) (k f : Nat) (g : FrameSlot → FrameSlot) : State :=
  s.modSession k (fun x => { x with slots := modAt x.slots (x.slotNo f) g })

def State.engineWrite (s : State) (ctx pa : Nat) (bs : List Byte) : State := s.homeWrite .engine (some ctx) pa bs

/-- FILLED: the lines closed with fill, or sent from fill (R290, R417). -/
def FrameSlot.filledLines (sl : FrameSlot) (d : SessDesc) : Nat :=
  if sl.subst then d.h
  else if d.send then (sl.lines.filter (fun l => l.2.sent = 3)).length
  else (sl.lines.filter (fun l => !l.2.filled.isEmpty)).length

/-- FILLED of a frame's object brought up to date. -/
def State.writeFilled (s : State) (k f : Nat) : State :=
  let x := s.session k
  s.engineWrite x.ctx (x.objAt f + 0xC) (leBytes 4 ((x.slot f).filledLines x.d))

/-- CAPTURE and PRESENT of a send frame written, and in its object when the frame has its slot (R290, R300, R416). -/
def State.setTimes (s : State) (k f : Nat) (cap pres : DWord) : State :=
  let s1 := s.modSession k (fun x => { x with times := smapSet x.times f (cap, pres) })
  let x := s1.session k
  if x.claimed f then s1.engineWrite x.ctx (x.objAt f + 0x20) (leBytes 8 cap.toNat ++ leBytes 8 pres.toNat) else s1

/-- Bytes 4 to 63 of a frame object, then bytes 0 to 3 with STATE (R290). -/
def State.writeObject (s : State) (k f t : Nat) : State :=
  let x := s.session k
  let d := x.d
  let sl := x.slot f
  let (cap, pres) := x.timesOf f
  let filled := sl.filledLines d
  let pa := x.objAt f
  let rest := leBytes 4 (d.w + d.h * 2 ^ 16) ++ leBytes 4 d.pitch ++ leBytes 4 filled ++ leBytes 8 (x.storeAt f 0) ++ leBytes 8 f
    ++ leBytes 8 cap.toNat ++ leBytes 8 pres.toNat ++ leBytes 8 t ++ leBytes 8 0
  let s1 := s.engineWrite x.ctx (pa + 4) rest
  s1.engineWrite x.ctx pa (leBytes 4 (sl.state + d.fmt * 2 ^ 8 + (if d.full then 2 ^ 16 else 0)))

/-- A frame's state changes at a time (R290). -/
def State.setFrameState (s : State) (k f st t : Nat) : State :=
  if ((s.session k).slot f).state = st then s
  else (s.modSlot k f (fun sl => { sl with state := st })).writeObject k f t

/-- A slot claimed for a frame (R289). -/
def State.claimSlot (s : State) (k f t : Nat) : State :=
  let s1 := s.modSlot k f (fun _ => { frame := some f, state := 0, lines := [], subst := false })
  (s1.modSession k (fun x => { x with latest := some f })).writeObject k f t

/-- Whether the send path may claim frame f's slot now: its frame before is PRESENTED or SUBSTITUTED, and while a frame
waits for a decision the slot of the frame last sent is kept (R289, R417). -/
def Session.mayClaim (x : Session) (f : Nat) : Bool :=
  match (x.slot f).frame with
  | none => true
  | some g =>
    decide (g < f) && decide (3 ≤ (x.slot f).state) && !(!x.held.isEmpty && x.lastSent = some g)

/-- The slot claimed by a send operation on frame f, when it is not yet and may be. -/
def State.sendClaim (s : State) (k f : Nat) : State :=
  if !(s.session k).claimed f && (s.session k).mayClaim f then s.claimSlot k f s.clock.toNat else s

/-! ### Received lines (R291) -/

def SessDesc.lineComplete (d : SessDesc) (l : LineSt) : Bool := decide (d.groups ≤ l.present.length)
/-- Line state codes of R301. -/
def Session.lineCode (x : Session) (f y : Nat) : Nat :=
  if !x.claimed f then 0
  else
    let l := (x.slot f).line y
    if x.d.send then (if l.sent ≠ 0 then l.sent else if l.marked then 1 else 0)
    else if l.closed then 3
    else if x.d.lineComplete l then 2
    else if l.present.isEmpty then 0 else 1

/-- Whether a group of a received line may be read: it is present, or its line is CLOSED (R296). -/
def Session.groupReady (x : Session) (f y g : Nat) : Bool :=
  let l := (x.slot f).line y
  x.claimed f && (l.closed || l.present.contains g)

def Session.groupAt (x : Session) (f y g : Nat) : Nat := x.storeAt f y + g * groupOctets x.d.fmt

/-- The samples of a group in the frame store; none when a byte of it holds an uncorrectable error. -/
def State.readGroup (s : State) (k f y g : Nat) : Option (List Nat) :=
  let x := s.session k
  let pa := x.groupAt f y g
  let n := groupOctets x.d.fmt
  if s.bad pa n then none else some (unpackGroup x.d.fmt (s.peekBytes pa n))

/-! ### The operations (R295 to R299) -/

/-- A result written to a strand wherever its crew stands: by value naming while it is resident, into the saved state
otherwise (R295). -/
def Env.deliver (e : Env) (ps : List Put) : Env :=
  if e.c.state = .resident then e.puts true ps
  else { e with t := ps.foldl (fun t p => t.setReg p.d { tag := p.tag, lanes := p.vals, loc := 0, bad := false }) e.t }

/-- Lanes that met uncorrectable groups of a frame store trap later, with the lowest address (R429). -/
def Env.deferGroups (e : Env) (p : Pending) (lanes : Mask) (pas : List Nat) : Env :=
  if pas.isEmpty then e
  else
    let e1 := e.via (fun s => s.consumeUes e.c.ctx false pas)
    { e1 with t := e1.t.defer p.id lanes (lowest pas) p.pc }

/-- An operation performed: it is counted now, or on restore (R295). -/
def Env.finish (e : Env) (id : Nat) : Env :=
  if e.c.state = .resident then { e with t := e.t.finishOp id }
  else { e with t := { e.t with inflight := modWhere e.t.inflight (fun p => p.id = id) (fun p => { p with done := true }) } }

/-- `srd`: each lane's values are delivered as soon as its group is present or the line CLOSED, and the operation is complete with its
last lane (R296). The lanes of uncorrectable groups keep their values and trap then (R429). -/
def Env.performSrd (e : Env) (p : Pending) (k f y vd pd : Nat) (cv : Bool) (mask : Mask) (px : List Nat) : Env :=
  let x := e.s.session k
  let d := x.d
  let gp := groupPixels d.fmt
  let here (l : Nat) : Bool := decide (d.w ≤ px.getD l 0) || x.groupReady f y (px.getD l 0 / gp)
  let val (ch l : Nat) : Option Nat :=
    let q := px.getD l 0
    if d.w ≤ q then some 0
    else (e.s.readGroup k f y (q / gp)).map (fun xs =>
      let c := xs.getD (sampleAt d.fmt (q % gp) ch) 0
      if cv then c else normIn fmtFp16 d ch c)
  let now := maskOf (fun l => laneOn mask l && here l && (val 0 l).isSome)
  let last := (lanesOf mask).all here
  if x.passedBy f || !x.up then e.finish p.id
  else if !last && now = 0 then e
  else
    let put (ch : Nat) : Put :=
      { d := vd + ch, tag := .general,
        vals := (e.t.reg (vd + ch)).lanes.mapi (fun l o => if laneOn now l then (match val ch l with | some v => BitVec.ofNat 32 v | none => o) else o) }
    let filled := maskOf (fun l => decide (px.getD l 0 < d.w) && ((x.slot f).line y).filled.contains (px.getD l 0 / gp))
    let e1 := e.deliver [put 0, put 1, put 2]
    let e2 := { e1 with t := e1.t.mergePred pd now filled }
    let rest := mask &&& ~~~now
    if !last then
      let kind : OpKind := .srd k f y vd pd cv rest px
      { e2 with t := { e2.t with inflight := modWhere e2.t.inflight (fun q => q.id = p.id) (fun q => { q with kind := kind }) } }
    else
      (e2.deferGroups p rest ((lanesOf rest).map (fun l => x.groupAt f y (px.getD l 0 / gp)))).finish p.id

/-- The Swage contents of a crew, on its core or in its saved state. -/
def Env.crewSwage (e : Env) : Option Swage :=
  if e.c.state = .resident then (if e.holdsSwage then some e.swage else none) else e.c.swage
def Env.setCrewSwage (e : Env) (w : Swage) : Env :=
  if e.c.state = .resident then e.setSwage w else { e with c := { e.c with swage := some w } }

/-- `srdt` when every line it reads allows it (R297). -/
def Env.performSrdt (e : Env) (p : Pending) (k f tile pd : Nat) (mask : Mask) (x0 y0 ch : Nat) : Env :=
  let x := e.s.session k
  let d := x.d
  let gp := groupPixels d.fmt
  match e.crewSwage with
  | none => e.finish p.id
  | some w =>
    let td := w.tile tile
    let rows := (List.range td.rows).filter (fun i => decide (y0 + i < d.h))
    let cols := (List.range td.cols).filter (fun j => decide (x0 + j < d.w))
    let grps := (cols.map (fun j => (x0 + j) / gp)).eraseDups
    let ready (y : Nat) : Bool := grps.isEmpty || x.claimed f && (((x.slot f).line y).closed || d.lineComplete ((x.slot f).line y) || grps.all (fun g => x.groupReady f y g))
    if (x.passedBy f && !rows.isEmpty && !grps.isEmpty) || !x.up then e.finish p.id
    else if !rows.all (fun i => ready (y0 + i)) then e
    else
      let fm := if td.fmt = 1 then fmtBf16 else fmtFp16
      let cells := (List.range td.rows).flatMap (fun i => (List.range td.cols).map (fun j => (i, j)))
      let inside (c : Nat × Nat) : Bool := decide (x0 + c.2 < d.w) && decide (y0 + c.1 < d.h)
      -- an element whose group is uncorrectable keeps its old value (R429)
      let td' := cells.foldl (fun t c =>
        if inside c then
          match e.s.readGroup k f (y0 + c.1) ((x0 + c.2) / gp) with
          | some xs => t.setBits c.1 c.2 (normIn fm d ch (xs.getD (sampleAt d.fmt ((x0 + c.2) % gp) ch) 0))
          | none => t
        else t.setBits c.1 c.2 0) td
      let bad := rows.flatMap (fun i => (grps.filter (fun g => (e.s.readGroup k f (y0 + i) g).isNone)).map (fun g => x.groupAt f (y0 + i) g))
      let filled := rows.any (fun i => grps.any (fun g => ((x.slot f).line (y0 + i)).filled.contains g))
      let e1 := e.setCrewSwage (w.setTile tile td')
      let e2 := { e1 with t := e1.t.mergePred pd mask (if filled then 0xFF else 0) }
      let lost := (cells.filter (fun c => inside c && (e.s.readGroup k f (y0 + c.1) ((x0 + c.2) / gp)).isNone)).map (fun c => (c.1, 2 * c.2))
      let e3 := if e.c.state = .resident then e2.swWritten tile lost else e2
      (e3.deferGroups p (laneBit (lowLane mask)) bad).finish p.id

/-- The groups that a `swr` writes, each read, modified and written whole (R298), and the lanes whose group is uncorrectable, with
where: it is not written (R429). -/
def State.writePixels (s : State) (k f y : Nat) (cv : Bool) (mask : Mask) (px : List Nat) (data : List (L8 Word)) : State × Mask × List Nat :=
  let x := s.session k
  let d := x.d
  let gp := groupPixels d.fmt
  let lanes := (lanesOf mask).filter (fun l => decide (px.getD l 0 < d.w))
  let grps := (lanes.map (fun l => px.getD l 0 / gp)).eraseDups
  let code (ch l : Nat) : Nat :=
    let v := ((data.getD ch (L8.all 0)).get l).toNat
    if cv then min v (2 ^ fmtDepth d.fmt - 1) else denorm d ch (v % 65536)
  grps.foldl (fun (st, bad, pas) g =>
    let ls := lanes.filter (fun l => px.getD l 0 / gp = g)
    let old := unpackGroup d.fmt (st.peekBytes (x.groupAt f y g) (groupOctets d.fmt))
    let luma := ls.foldl (fun xs l =>
      let q := px.getD l 0 % gp
      let xs := xs.set (sampleAt d.fmt q 0) (code 0 l)
      if isRgb d.fmt then (xs.set (sampleAt d.fmt q 1) (code 1 l)).set (sampleAt d.fmt q 2) (code 2 l) else xs) old
    let full := if isRgb d.fmt then luma
      else match ls with
        | l :: _ => (luma.set 0 (code 1 l)).set 2 (code 2 l)
        | [] => luma
    let padded := (List.range gp).foldl (fun xs q =>
      if d.w ≤ g * gp + q then
        (if isRgb d.fmt then [0, 1, 2] else [0]).foldl (fun xs ch => xs.set (sampleAt d.fmt q ch) (blackCode d ch)) xs
      else xs) full
    if st.bad (x.groupAt f y g) (groupOctets d.fmt) then
      (st, ls.foldl (fun m l => m ||| laneBit l) bad, x.groupAt f y g :: pas)
    else (st.engineWrite x.ctx (x.groupAt f y g) (packGroup d.fmt padded), bad, pas)) (s, 0, [])

/-- `swr` once frame f has its slot (R289, R298). -/
def Env.performSwr (e : Env) (p : Pending) (k f y : Nat) (cv : Bool) (mask : Mask) (px : List Nat) (data : List (L8 Word)) : Env :=
  let x0 := e.s.session k
  if x0.passedBy f || !x0.up then e.finish p.id
  else
    let s1 := e.commit.sendClaim k f
    if !(s1.session k).claimed f then e
    else
      let (s2, bad, pas) := s1.writePixels k f y cv mask px data
      let s3 := if ((s2.session k).slot f).state = 0 then s2.setFrameState k f 1 s2.clock.toNat else s2
      ((e.reload s3).deferGroups p bad pas).finish p.id

/-- The undone `swr` of the crews that a condition names, in acceptance order: their turns, and where they are. -/
def State.swrs (s : State) (want : Nat → Pending → Bool) : List (Nat × Nat × Nat × Pending) :=
  (s.crews.flatMap (fun c => c.strands.flatMap (fun t => t.inflight.filterMap (fun p => match p.kind with
    | .swr _ n .. => if want c.id p && !p.done then some (n, c.id, t.idx, p) else none
    | _ => none)))).mergeSort (fun a b => decide (a.1 ≤ b.1))

/-- The `swr` accepted before an `sflush` on its binding (R295). -/
def Pending.swrFlushed (p q : Pending) : Bool :=
  match p.kind, q.kind with
  | .sflush b n .., .swr b' n' .. => b' = b && decide (n' < n)
  | _, _ => false

/-- The groups of a line that a `swr` may write: those of its lanes' pixels, whatever the format. -/
def swrPixels (mask : Mask) (px : List Nat) : List Nat := (lanesOf mask).map (fun l => px.getD l 0)

/-- The `swr` accepted before another that writes a group it writes too (R298): the groups of every format lie within four pixels. -/
def Pending.swrSharing (p q : Pending) : Bool :=
  match p.kind, q.kind with
  | .swr _ n k f y _ m px _, .swr _ n' k' f' y' _ m' px' _ =>
    k' = k && f' = f && y' = y && decide (n' < n) && (swrPixels m px).any (fun a => (swrPixels m' px').any (fun b => a / 4 = b / 4))
  | _, _ => false

/-- `sflush` once every `swr` accepted before it is complete (R295, R299): the lines are marked; a whole frame becomes
READY, and is the binding's last flushed one (R416). -/
def Env.performFlush (e : Env) (p : Pending) (b k f lines : Nat) (whole : Bool) : Env :=
  let x0 := e.s.session k
  if x0.passedBy f || !x0.up then e.finish p.id
  else
    let s1 := e.commit.sendClaim k f
    if !(s1.session k).claimed f || !(s1.swrs (fun crew q => crew = e.c.id && p.swrFlushed q)).isEmpty then e.reload s1
    else
      let ys := if whole then List.range (s1.session k).d.h else List.range lines
      let s2 := s1.modSlot k f (fun sl => ys.foldl (fun sl y => sl.modLine y (fun l => { l with marked := true })) sl)
      let s3 := if whole && ((s2.session k).slot f).state < 2 then s2.setFrameState k f 2 s2.clock.toNat else s2
      let s4 := if whole then s3.modCrew e.c.id (fun c => { c with binds := modAt c.binds b (fun bd => { bd with flushed := some f }) }) else s3
      (e.reload s4).finish p.id

/-- A stream operation performed, when it can be. -/
def Env.performStream (e : Env) (p : Pending) : Env :=
  match p.kind with
  | .srd k f y vd pd cv mask px => e.performSrd p k f y vd pd cv mask px
  | .srdt k f tile pd mask x y ch => e.performSrdt p k f tile pd mask x y ch
  | .swr _ _ k f y cv mask px data => e.performSwr p k f y cv mask px data
  | .sflush b _ k f lines whole => e.performFlush p b k f lines whole
  | _ => e

/-- Those `swr` performed in that order where they can be. -/
def State.performSwrs (s : State) (xs : List (Nat × Nat × Nat × Pending)) : State :=
  xs.foldl (fun st o => match st.env? o.2.1 o.2.2.1 with
    | none => st
    | some e => match e.t.inflight.find? (fun p => p.id = o.2.2.2.id && !p.done) with
      | some p => (e.performStream p).commit
      | none => st) s

/-- The `swr` that must be performed before another (R298): of any crew, accepted before it, and sharing a group with it or with one of
these. -/
def State.swrBefore (s : State) (p : Pending) : List (Nat × Nat × Nat × Pending) :=
  ((s.swrs (fun _ _ => true)).reverse.foldl (fun (found : List (Nat × Nat × Nat × Pending)) o =>
    if p.swrSharing o.2.2.2 || found.any (fun q => q.2.2.2.swrSharing o.2.2.2) then o :: found else found) [])

end Sys2Proof.Machine
end

