-- ==== Sys2Proof/Machine/Engines.lean ====
section
/-! DEFINITION. Any operation in flight performed by the unit that has it (spec/08_memory_model.md R185 to R187), and the
ways a strand's operations are brought to an end: by a wait, a trap entry, or the strand's own end. -/

namespace Sys2Proof.Machine

/-- Whether a page has an open residency request, or is being moved (R372, R374). -/
def Context.awaited (x : Context) (page : Nat) : Bool :=
  x.resReqs.contains page || (match x.moving with | some p => decide (pageNo p.va.toNat = page) | none => false)

/-- `pgreq` once none of its pages has an open request: 0 for a resident page, 1 for a refused one (R215, R372). -/
def Env.performPgreq (e : Env) (p : Pending) (vd : Nat) (mask : Mask) (pages : List (Nat × Nat)) (refused : List Nat) : Env :=
  if pages.any (fun x => (e.s.ctx e.c.ctx).awaited x.2) then e
  else
    let val (l : Nat) : Word := match pages.find? (fun x => x.1 = l) with
      | some (_, pg) => if refused.contains pg then 1 else 0
      | none => 0
    let e1 := e.puts true [{ d := vd, tag := .general, vals := (e.t.reg vd).lanes.mapi (fun l o => if laneOn mask l then val l else o) }]
    { e1 with t := e1.t.finishOp p.id }

/-- `pfetch`: lines come into the Hearth, and into L1 when asked (R216). The Hearth is the home slices' own store, so a
fill there changes nothing that is read. -/
def Env.performPfetch (e : Env) (p : Pending) (lines : List Nat) (l1 : Bool) : Env :=
  let want := lines.filter (fun ln => !inKick (ln * 128) && e.s.hasMemory (ln * 128) && (l1Line (e.s.core e.c.core) ln).isNone)
  let s1 := if l1 then want.foldl (fun s ln => s.fillLine e.c.core ln) e.s else e.s
  { e with s := s1, t := e.t.finishOp p.id }

/-- `trace` and `tcont`: every running query of the operation goes on as far as it can (R277); one that a trap entry holds
stands still until `rtt` (R281). -/
def Env.performTrace (e : Env) (p : Pending) : Env :=
  match p.kind with
  | .trace _ m _ =>
    let e1 := (lanesOf m).foldl (fun e l => e.traverse l) e
    e1.settleTrace p
  | _ => e

/-- Tile writes of `srdt` that the Swage unit has not accepted yet (R237). -/
def Pending.isSrdt (p : Pending) : Bool := match p.kind with | .srdt .. => true | _ => false

/-- One operation performed by its unit. Programs, publications and timed barriers end by events of their own. -/
def Env.performAny (e : Env) (p : Pending) : Env :=
  if p.done then e
  else match p.kind with
  | .copy _ => e.performCopy p
  | .pgreq vd m pages refused => e.performPgreq p vd m pages refused
  | .pfetch lines l1 => e.performPfetch p lines l1
  | .swage .. => e.performSwage p
  | .mstat .. => e.performSwage p
  | .field _ => e.performField p
  | .trace .. => e.performTrace p
  | .srd .. => e.performStream p
  | .srdt .. =>
    -- the tile writes of a strand are accepted in program order (R297)
    let e1 := (e.t.inflight.filter (fun q => q.id < p.id && q.isSrdt && !q.done)).foldl Env.performStream e
    if e1.t.inflight.any (fun q => q.id < p.id && q.isSrdt && !q.done) then e1 else e1.performStream p
  | .swr .. =>
    let e1 := e.via (fun s => s.performSwrs (s.swrBefore p))
    if (e1.commit.swrBefore p).isEmpty then e1.performStream p else e1
  | .sflush .. =>
    -- the `swr` accepted before the flush on its binding, each after those that it must follow itself
    let mine (s : State) : List (Nat × Nat × Nat × Pending) := s.swrs (fun crew q => crew = e.c.id && p.swrFlushed q)
    (e.via (fun s => (mine s).foldl (fun st o => st.performSwrs (st.swrBefore o.2.2.2 ++ [o])) s)).performStream p
  | .publish .. => e
  | .cprog .. => e
  | .tbar .. => e
  | _ => e.performOp p.id

/-- One access or element of an operation in flight performed before the rest of it (R179, R270). -/
def State.partAccess (s : State) (crew strand op i : Nat) : State :=
  match s.env? crew strand with
  | some e => ((e.partOp op i).partField op i).commit
  | none => s

/-- The operations of the strand that satisfy `want` performed in issue order, as far as they can be. -/
def Env.settle (e : Env) (want : Pending → Bool) : Env :=
  (e.t.inflight.filter (fun p => !p.done && want p)).foldl (fun e q =>
    match e.t.inflight.find? (fun p => p.id = q.id) with
    | some p => e.performAny p
    | none => e) e

/-- Operations that write global memory or frame stores, which a quench or a reset lets be performed (R345, R441). -/
def Pending.writesGlobal (p : Pending) : Bool :=
  match p.kind with
  | .store .. => true
  | .atom .. => true
  | .cas .. => true
  | .copy _ => true
  | .swr .. => true
  | .sflush .. => true
  | .field c => match c.kind with
    | .hgs _ => true
    | .hgfold => true
    | _ => false
  | .swage _ signer _ _ => !signer
  | _ => false

/-- Operations that a save waits for (R347): those on ld, st, cp and mx that are not open signatures, field requests,
`swr` and `sflush`. -/
def Pending.holdsSave (p : Pending) : Bool :=
  match p.kind with
  | .srd .. => false
  | .srdt .. => false
  | .trace .. => false
  | .publish .. => false
  | .cprog .. => false
  | .tbar .. => false
  | .swage _ signer _ _ => !signer
  | _ => true

/-- A strand's own operations of one kind performed from outside it. -/
def State.settleStrand (s : State) (crew strand : Nat) (want : Pending → Bool) : State :=
  match s.env? crew strand with
  | some e => (e.settle want).commit
  | none => s

/-- The same for every strand of a crew. -/
def State.settleCrew (s : State) (crew : Nat) (want : Pending → Bool) : State :=
  match s.crew? crew with
  | none => s
  | some c => c.strands.foldl (fun st t => st.settleStrand crew t.idx want) s

/-! ### Translations that go (R369, R372) -/

/-- Every access of a context's crews on some cores that holds a translation performed (R369). -/
def State.settleAccesses (s : State) (cores : List Nat) (ctx : Nat) : State :=
  (s.crews.filter (fun c => c.ctx = ctx && !c.walker && c.state = .resident && cores.contains c.core)).foldl
    (fun st c => st.settleCrew c.id Pending.holdsSave) s

/-- Threads of a context asleep in `waita` whose word was found through a removed translation issue the instruction again, which reads
the word through a new one (R213, R369; DEDUCED, assumption 80). -/
def State.reissueWaita (s : State) (cores : List Nat) (ctx : Nat) (p : Trans → Bool) : State :=
  let gone (x : Thread) : Bool := match x.state with
    | .waiting (.waita _ _ _ _ _ w) => w.tr.any (fun tr => tr.ctx = ctx && p tr)
    | _ => false
  let mine (c : Crew) : Bool := c.ctx = ctx && c.state = .resident && cores.contains c.core
  { s with crews := s.crews.map (fun c => if mine c then { c with strands := c.strands.map (fun t => t.rewait (fun _ x => gone x)) } else c) }

/-- Whether a lane's ACTIVE transaction holds a word that it read or will write through a translation to be removed: the accesses of its
commit are not performed yet (R194, R369). -/
def Tx.through (x : Tx) (p : Trans → Bool) : Bool := x.active && (x.wset.any (fun w => w.tr.any p) || x.rset.any (fun r => r.tr.any p))

/-- Whether a transaction of a resident crew, but for those of the strand `own`, still needs a translation to be removed (R369). DESIGN
CHOICE (assumption 80): a strand that removes a translation which its own lanes' transactions used goes on, since they cannot commit
before it does; they keep the words that they found. -/
def State.bufferedThrough (s : State) (own : Option (Nat × Nat)) (cores : List Nat) (ctx : Nat) (p : Trans → Bool) : Bool :=
  s.crews.any (fun c => c.ctx = ctx && c.state = .resident && cores.contains c.core && c.strands.any (fun t =>
    own ≠ some (c.id, t.idx) && laneIds.any (fun l => (t.thread l).tx.through (fun tr => tr.ctx = ctx && p tr))))

/-- `tlbi.va.all` made by the device: the accesses that use the translation are performed first (R369). -/
def State.invalidatePage (s : State) (ctx va : Nat) : State :=
  let p (tr : Trans) : Bool := tr.covers ctx va
  (((s.settleAccesses s.enabledCores ctx).invalidate s.enabledCores ctx true p).retranslateDeps ctx).reissueWaita s.enabledCores ctx p

/-- The waiting `pgreq`s of a context learn that a page was refused. -/
def State.refusePage (s : State) (ctx page : Nat) : State :=
  { s with crews := s.crews.map (fun c => if c.ctx ≠ ctx then c else
      { c with strands := c.strands.map (fun t =>
          { t with inflight := t.inflight.map (fun p => match p.kind with
            | .pgreq vd m pages refused => if pages.any (fun x => x.2 = page) then { p with kind := .pgreq vd m pages (page :: refused) } else p
            | _ => p) }) }) }

def Pending.isPgreq (p : Pending) : Bool := match p.kind with | .pgreq .. => true | _ => false

/-- The `pgreq`s of a context that no longer wait for a page are performed. -/
def State.settlePgreqs (s : State) (ctx : Nat) : State :=
  (s.crews.filter (fun c => c.ctx = ctx && c.state = .resident)).foldl (fun st c => st.settleCrew c.id Pending.isPgreq) s

/-- RESVA writes whose `tlbi.va.all` no transaction's buffered stores hold back any more take effect (R369, R372). -/
def State.serveResidency (s : State) (ctx : Nat) : State :=
  (s.ctx ctx).resWait.foldl (fun s w =>
    if s.bufferedThrough none s.enabledCores ctx (fun tr => tr.covers ctx (w.1 * 2 ^ 14)) then s
    else
      let s1 := s.invalidatePage ctx (w.1 * 2 ^ 14)
      let s2 := if w.2 then s1.refusePage ctx w.1 else s1
      (s2.modCtx ctx (fun x => { x with resReqs := x.resReqs.filter (fun p => p ≠ w.1), resWait := x.resWait.filter (fun y => y ≠ w) })).settlePgreqs
        ctx) s

/-- The contexts with such writes. -/
def State.serveAllResidency (s : State) : State :=
  if s.ctxs.all (fun x => x.resWait.isEmpty) then s else (List.range 64).foldl State.serveResidency s

end Sys2Proof.Machine
end

