-- ==== Sys2Proof/Machine/Placing.lean ====
section
/-! DEFINITION. Placing crews on cores (spec/14_queues_deadlines_and_dispatch.md R323 to R326,
spec/06_threads_strands_crews.md R143 to R148): what fits, entry state, and the walker crew (R363). -/

namespace Sys2Proof.Machine

/-- What a crew needs of a core (R323). -/
structure Need where
  blocks  : Nat
  strands : Nat
  grow    : Nat
  wbuf    : Nat
  abuf    : Nat
  cbuf    : Nat
  bars    : Nat
  walks   : Bool
  swage   : Bool
  deriving DecidableEq, Repr

def Need.buf (n : Need) : Space → Nat
  | .wbuf => n.wbuf
  | .abuf => n.abuf
  | .cbuf => n.cbuf

/-- The lowest offset at which a claim of `size` bytes fits among the resident claims of a core, in 1 KiB units (R323). -/
def State.freeClaim (s : State) (core : Nat) (sp : Space) (size : Nat) : Option Nat :=
  let cls := ((s.residentOn core).map (fun c => c.claim sp)).filter (fun c => c.size ≠ 0)
  let clear (a : Nat) : Bool := decide (a + size ≤ bufSize sp) && cls.all (fun c => a + size ≤ c.base || c.base + c.size ≤ a)
  if size = 0 then some 0
  else (0 :: cls.map (fun c => c.base + c.size)).foldl (fun best a =>
    if !clear a then best else match best with
      | none => some a
      | some b => some (min a b)) none

/-- Whether a core already has its walker crew. -/
def State.hasWalker (s : State) (core : Nat) : Bool := (s.crew? (walkerId core)).isSome

/-- The core is being retired: no crew is placed on it (R458). -/
def State.retiring (s : State) (core : Nat) : Bool := s.dev.leaving.getLsbD core

/-- Whether a crew fits a core now (R145, R323); one that held the Swage needs it free (R347, R255). -/
def State.fits (s : State) (core : Nat) (n : Need) : Bool :=
  let co := s.core core
  let walker := n.walks && !s.hasWalker core
  let blocks := n.blocks + (if walker then 8 else 0)
  let strands := n.strands + (if walker then 4 else 0)
  let live := (s.numsUsed core).length
  let rise := max (s.emTarget core) n.grow - co.emSize
  co.enabled && !s.retiring core && decide (s.blocksHeld core + blocks + co.emFree + rise ≤ coreBlocks) && decide (live + strands ≤ 512)
    && [Space.wbuf, .abuf, .cbuf].all (fun sp => (s.freeClaim core sp (n.buf sp)).isSome)
    && decide ((s.residentOn core).foldl (fun a c => a + c.nbars) 0 + n.bars ≤ 256)
    && (!n.swage || co.holder.isNone)

/-! ### Crews of a launch -/

def Packet.need (p : Packet) (walks : Bool) : Need :=
  { blocks := p.strands * (p.regs / 8), strands := p.strands, grow := (p.ceil - p.regs) / 8, wbuf := p.wbuf * 1024,
    abuf := p.abuf * 1024, cbuf := p.cbuf * 1024, bars := p.bars, walks := walks, swage := false }

/-- What an existing crew that returns to a core needs: its strands that have not ended, with their own counts. -/
def Crew.need (c : Crew) (walks : Bool) : Need :=
  let live := c.strands.filter (fun t => !t.ended)
  { blocks := live.foldl (fun n t => n + t.regs.length / 8) 0, strands := live.length, grow := (c.ceil - c.baseRegs) / 8,
    wbuf := c.wclaim.size, abuf := c.aclaim.size, cbuf := c.cclaim.size, bars := c.nbars, walks := walks,
    swage := match c.state with
      | .pending => match c.restart with | some r => r.held | none => false
      | _ => c.swage.isSome }

/-- A context that walks in hardware (R22, R363). -/
def State.walksInHardware (s : State) (ctx : Nat) : Bool := !(s.ctx ctx).assist.getLsbD 0

/-- The crews of a context that own a save slot (R333, R334). -/
def Crew.live (c : Crew) : Bool := !c.walker && c.state ≠ .ended
def State.liveCrews (s : State) (ctx : Nat) : List Crew := s.crews.filter (fun c => c.ctx = ctx && c.live)

def State.freeSlot (s : State) (ctx : Nat) : Nat :=
  let used := (s.liveCrews ctx).map Crew.slot
  ((List.range (used.length + 1)).find? (fun k => !used.contains k)).getD 0

/-- `ctl.xpat` and the byte tables at reset (R122). -/
def xpatReset : List Word := List.replicate 16 0x00FAC688
def xtabReset : List Word := List.replicate 8 0

/-- The bindings that a launch's stream table gives (R283, R314). DESIGN CHOICE (assumption 59): a session that was closed after the packet
was pulled and before the crew enters, of which R284 says nothing, is bound as it stands: its operations are accepted and complete with
nothing performed. -/
def State.bindings (s : State) (es : List StreamEnt) : List Binding :=
  es.map (fun e =>
    let f := if e.start = 0 then (s.session e.session).d.frameFrom s.clock.toNat else e.start.toNat
    { bound := e.valid, dir := e.dir, session := e.session, frame := if e.valid then f else 0, y := 0, x := 0, wrap := false,
      closed := false, lateInh := false, flushed := none })

/-- The walker crew of a core, with its four strands idle (R363, R364). -/
def State.walkerCrew (s : State) (core : Nat) : Crew :=
  let strands := (freeNums (s.numsUsed core) 4).zipIdx.map (fun p => idleWalker p.2 p.1)
  { id := walkerId core, walker := true, ctx := 0, seq := 0, stage := 0, gang := 0, idx := 0, gangSize := 1, gangFall := false,
    core := core, state := .resident, slot := 0, order := 0, naming := false, progress := true, vnhits := 0, vndedup := 0,
    vncoll := 0, xgen := 0, xpat := xpatReset, xtab := xtabReset, nbars := 0, bars := [], sbars := 0, baseRegs := 16, ceil := 16,
    wclaim := ⟨0, 0⟩, aclaim := ⟨0, 0⟩, cclaim := ⟨0, 0⟩, binds := [], region := false, idemAt := none, restart := none,
    dispSlot := 0, entryPc := 0, seed := 0, placedAt := 0, waitFrom := 0, swage := none, leaving := false, strands := strands }

/-- The walker crew comes with the first crew of a hardware-walking context (R363). -/
def State.bringWalker (s : State) (core ctx : Nat) : State :=
  if s.walksInHardware ctx && !s.hasWalker core then { s with crews := s.crews ++ [s.walkerCrew core] } else s

/-- A core's claim cleared to zero, with fresh check bits (R172, R175). -/
def State.clearClaim (s : State) (core : Nat) (sp : Space) (cl : Claim) : State :=
  let units := (List.range (cl.size / 32)).map (fun i => bufUnit core sp (cl.base + 32 * i))
  let s1 := s.modCore core (fun co => co.setBuf sp (Memory.clear (co.buf sp) cl.base cl.size))
  if s1.ue.isEmpty then s1 else { s1 with ue := s1.ue.filter (fun g => !units.contains g) }

/-- The claims a crew takes on a core, and the state with their bytes zero. -/
def State.takeClaims (s : State) (core w a c : Nat) : Claim × Claim × Claim × State :=
  let cl (sp : Space) (n : Nat) : Claim := { base := (s.freeClaim core sp n).getD 0, size := n }
  let x := cl .wbuf w
  let y := cl .abuf a
  let z := cl .cbuf c
  (x, y, z, ((s.clearClaim core .wbuf x).clearClaim core .abuf y).clearClaim core .cbuf z)

/-- Registers of a list of strands placed by value naming, in ascending strand and register order (R60). -/
def placeStrands (naming : Bool) (nm : Naming) (ts : List Strand) : Naming × List Strand :=
  ts.foldl (fun acc t =>
    let (nm, rs) := placeRegs naming acc.1 t.regs
    (nm, acc.2 ++ [{ t with regs := rs }])) (nm, [])

/-- What follows any arrival of a crew on a core: the emergency group follows E (R147), the walker crew is there, the
core performs an acquire (R321), growth requests are looked at again, and L1 keeps within what its claims leave it (R174). -/
def State.afterArrive (s : State) (core ctx : Nat) : State :=
  ((((s.trimL1 core).fitEmergency core).bringWalker core ctx).acquireL1 core).serveGrowth core 512

/-- The tag and lanes of v0 for strand k (R143). -/
def entryRegs (k gang idx stage : Nat) (args : DWord) (regs : Nat) : List Reg :=
  let fixed := [affineReg (8 * k) 1, uniformReg (BitVec.ofNat 32 idx), uniformReg (BitVec.ofNat 32 gang), uniformReg (BitVec.ofNat 32 stage)]
    ++ uniformPair args
  fixed ++ List.replicate (regs - 6) (uniformReg 0)

/-- One crew of a launch enters a core (R143, R324). -/
def State.enterCrew (s : State) (l : Launch) (gang idx gangSize : Nat) (fall : Bool) (stage core dispSlot : Nat) : State :=
  let p := l.pkt
  let (w, a, c, s1) := s.takeClaims core (p.wbuf * 1024) (p.abuf * 1024) (p.cbuf * 1024)
  let nums := freeNums (s1.numsUsed core) p.strands
  let pc : VAddr := BitVec.truncate 57 p.kernel
  let raw := nums.zipIdx.map (fun x => Strand.entry x.2 x.1 (entryRegs x.2 gang idx stage p.args p.regs) pc)
  let (nm, strands) := placeStrands p.naming (s1.core core).naming raw
  let id := s1.bellows.nextCrew
  let crew : Crew :=
    { id := id, walker := false, ctx := l.ctx, seq := l.seq, stage := stage, gang := gang, idx := idx, gangSize := gangSize,
      gangFall := fall, core := core, state := .resident, slot := s1.freeSlot l.ctx, order := id, naming := p.naming,
      progress := p.progress, vnhits := 0, vndedup := 0, vncoll := 0, xgen := 0, xpat := xpatReset, xtab := xtabReset,
      nbars := p.bars, bars := List.replicate p.bars ⟨0, false⟩, sbars := 0, baseRegs := p.regs, ceil := p.ceil, wclaim := w,
      aclaim := a, cclaim := c, binds := s1.bindings l.streams, region := false, idemAt := none, restart := none,
      dispSlot := dispSlot, entryPc := pc, seed := p.seed, placedAt := s1.clock, waitFrom := 0, swage := none, leaving := false,
      strands := strands }
  let s2 := s1.modCore core (fun co => { co with naming := nm })
  let s3 := { s2 with crews := s2.crews ++ [crew], bellows := { s2.bellows with nextCrew := id + 1 } }
  s3.afterArrive core l.ctx

/-! ### Planning a unit (R324 to R326) -/

/-- The cores in order from the round-robin pointer. -/
def State.fromPointer (s : State) : List Nat :=
  let en := s.enabledCores
  en.filter (fun k => s.bellows.rr ≤ k) ++ en.filter (fun k => k < s.bellows.rr)

/-- The core of a crew's peer of the stage before, while that crew is known (R324, R142). -/
def State.peerCore (s : State) (seq gang idx stage : Nat) : List Nat :=
  if stage = 0 then []
  else match s.crews.find? (fun c => !c.walker && c.seq = seq && c.gang = gang && c.idx = idx && c.stage + 1 = stage) with
    | some c => if (s.core c.core).enabled then [c.core] else []
    | none => []

/-- A gang's cores, crew by crew, each the first that fits and holds no other crew of the unit (R324). -/
def State.planGang (s : State) (l : Launch) (gang stage size : Nat) : Option (List Nat) :=
  let need := l.pkt.need (s.walksInHardware l.ctx)
  (List.range size).foldl (fun acc i =>
    match acc with
    | none => none
    | some used =>
      match (s.peerCore l.seq gang i stage ++ s.fromPointer).find? (fun k => !used.contains k && s.fits k need) with
      | some k => some (used ++ [k])
      | none => none) (some [])

/-- The selected cores of a persistent launch (R326). -/
def State.selectedCores (s : State) (p : Packet) : List Nat := s.enabledCores.filter (fun k => p.cores.getLsbD k)

/-- The next unit of a launch's placement: its gang and stage, with the sizes to try in order. -/
def Launch.nextUnit (l : Launch) : Nat × Nat × List (Nat × Bool) :=
  if l.nextStage = 0 then
    let r := l.crewsLeft
    let p := min l.pkt.gangP r
    let f := min l.pkt.gangF r
    (l.gangs.length, 0, if p = f then [(p, false)] else [(p, false), (f, true)])
  else
    let g := l.gangs.length - 1
    let (size, fall) := l.gangs.getD g (1, false)
    (g, l.nextStage, [(size, fall)])

/-- Whether the context's LIVE count leaves room for `n` more crews (R334). -/
def State.slotsFor (s : State) (ctx n : Nat) : Bool := decide ((s.liveCrews ctx).length + n ≤ (s.ctx ctx).slots)

/-- The unit that can be placed now without taking anything off. -/
def State.planUnit (s : State) (l : Launch) : Option Unit4 :=
  if l.pkt.persist then
    let cs := s.selectedCores l.pkt
    let need := l.pkt.need (s.walksInHardware l.ctx)
    if s.slotsFor l.ctx cs.length && cs.all (fun k => s.fits k need) then
      some { gang := 0, stage := 0, size := 1, fall := false, cores := cs }
    else none
  else
    let (g, st, sizes) := l.nextUnit
    sizes.foldl (fun acc z => match acc with
      | some u => some u
      | none => if s.slotsFor l.ctx z.1 then
          (match s.planGang l g st z.1 with
           | some cs => some { gang := g, stage := st, size := z.1, fall := z.2, cores := cs }
           | none => none)
        else none) none

/-- Whether every crew of a launch has been placed. -/
def Launch.allPlaced (l : Launch) : Bool := l.crewsLeft = 0 && l.nextStage = 0

/-- What placing a unit does to its launch (R325, R327). -/
def Launch.afterUnit (l : Launch) (u : Unit4) (now : DWord) : Launch :=
  let l1 :=
    if l.pkt.persist then { l with crewsLeft := 0, nextStage := 0, gangs := [(1, false)] }
    else
      let gangs := if u.stage = 0 then l.gangs ++ [(u.size, u.fall)] else l.gangs
      let left := if u.stage = 0 then l.crewsLeft - u.size else l.crewsLeft
      { l with gangs := gangs, crewsLeft := left, nextStage := if u.stage + 1 < l.pkt.stages then u.stage + 1 else 0 }
  { l1 with firstAt := match l1.firstAt with | some t => some t | none => some now, topSince := none,
            phase := if l1.allPlaced then .running else .placing }

/-- The ranges of a persistent launch's dispenser (R167). -/
def dispRanges (b c n : Nat) : List DispRange :=
  (List.range n).map (fun j => { lo := b + j * c / n, hi := b + (j + 1) * c / n })

/-- A planned unit placed: its crews enter, the pointer moves past the core of its last crew (R324, R326). -/
def State.placeUnitAt (s : State) (l : Launch) (u : Unit4) : State :=
  let s1 :=
    if l.pkt.persist then
      u.cores.zipIdx.foldl (fun st p => st.enterCrew l 0 0 1 false 0 p.1 p.2) s
    else u.cores.zipIdx.foldl (fun st p => st.enterCrew l u.gang p.2 u.size u.fall u.stage p.1 0) s
  let l1 := l.afterUnit u s.clock
  let l2 := if l.pkt.persist then { l1 with disp := dispRanges l.pkt.dispB.toNat l.pkt.dispC.toNat u.cores.length } else l1
  let s2 := s1.modLaunch l.seq (fun _ => l2)
  if l.pkt.persist then s2
  else
    let last := u.cores.getLastD 0
    let next := (s2.enabledCores.find? (fun k => last < k)).getD (s2.enabledCores.headD 0)
    { s2 with bellows := { s2.bellows with rr := next } }

end Sys2Proof.Machine
end

