-- ==== Sys2Proof/Machine/Preempt.lean ====
section
/-! DEFINITION. Taking crews off their cores and bringing them back (spec/15_contexts_and_preemption.md R335 to R349): the
save slot's images, saving, quenching, restoring and restarting, and the ends of strands and crews. -/

namespace Sys2Proof.Machine

/-! ### Images in the save slot (R348) -/

/-- Offsets of the images of R348. -/
def imgBuf : Space → Nat
  | .wbuf => 0x81000
  | .abuf => 0x101000
  | .cbuf => 0x181000
def imgTiles : Nat := 0x1C1000
def imgScales : Nat := 0x1E1000
def imgBanks : Nat := 0x1E3000

/-- A tile's shaped rows and scales, as a save transfers them (R347). -/
def saveTile (m : Memory) (base : Nat) (t : Nat) (x : Tile) : Memory :=
  let m1 := Memory.splice m (base + imgTiles + t * 8192) (x.rows * 128) (Memory.slice x.data 0 (x.rows * 128))
  if x.fmt = fmtMx4 then
    (List.range x.rows).foldl (fun m i => (List.range (x.cols / 32)).foldl (fun m k =>
      Memory.writeByte m (base + imgScales + t * 512 + 8 * i + k) (BitVec.ofNat 8 (x.scaleAt i k))) m) m1
  else m1

def loadTile (m : Memory) (base : Nat) (t : Nat) (x : Tile) : Tile :=
  let x1 := { x with data := Memory.splice x.data 0 (x.rows * 128) (Memory.slice m (base + imgTiles + t * 8192) (x.rows * 128)) }
  if x.fmt = fmtMx4 then
    (List.range x.rows).foldl (fun t' i => (List.range (x.cols / 32)).foldl (fun t' k =>
      t'.setScale i k (Memory.readByte m (base + imgScales + t * 512 + 8 * i + k)).toNat) t') x1
  else x1

/-- A bank's 4096 accumulators, 10 bytes each. -/
def saveBank (m : Memory) (a : Nat) (b : Bank) : Memory :=
  b.acc.foldl (fun m p => Memory.writeBytes m (a + 10 * p.1) (leBytes 10 p.2.toNat)) (Memory.clear m a 40960)

def loadBank (m : Memory) (a : Nat) (b : Bank) : Bank :=
  let img := Memory.slice m a 40960
  let keys := (img.map (fun c => c.1 / 10)).eraseDups
  { b with acc := keys.filterMap (fun k =>
      let v : BitVec 80 := BitVec.ofNat 80 (Memory.readNat img (10 * k) 10)
      if v = 0 then none else some (k, v)) }

def saveSwage (m : Memory) (base : Nat) (w : Swage) : Memory :=
  let m1 := w.tiles.zipIdx.foldl (fun m p => saveTile m base p.2 p.1) m
  saveBank (saveBank m1 (base + imgBanks) w.bank0) (base + imgBanks + 40960) w.bank1

def loadSwage (m : Memory) (base : Nat) (w : Swage) : Swage :=
  { w with
    tiles := w.tiles.zipIdx.map (fun p => loadTile m base p.2 p.1)
    bank0 := loadBank m (base + imgBanks) w.bank0
    bank1 := loadBank m (base + imgBanks + 40960) w.bank1 }

/-- The ranges that an image of a Swage takes: shaped rows of tiles, scales of MXFP4 tiles, and both banks. -/
def swageRanges (base : Nat) (w : Swage) : List (Nat × Nat) :=
  w.tiles.zipIdx.map (fun p => (base + imgTiles + p.2 * 8192, p.1.rows * 128))
    ++ (w.tiles.zipIdx.filter (fun p => p.1.fmt = fmtMx4)).map (fun p => (base + imgScales + p.2 * 512, 512))
    ++ [(base + imgBanks, 81920)]

/-- A save's image put into memory: `m` holds it, in the ranges `rs`. A page that has no memory keeps what it held (R455, R460), and every
page written is marked dirty (R382). -/
def State.putImage (s : State) (m : Memory) (rs : List (Nat × Nat)) : State :=
  let pages := rs.flatMap (fun r => (List.range ((r.1 + r.2) / 2 ^ 14 - r.1 / 2 ^ 14 + 1)).map (fun i => (r.1 / 2 ^ 14 + i) * 2 ^ 14))
  let lost := pages.filter (fun a => !s.hasMemory a)
  let m1 := lost.foldl (fun m a => Memory.splice m a (2 ^ 14) (Memory.slice s.mem a (2 ^ 14))) m
  rs.foldl (fun st r => st.markDirty r.1 r.2) { s with mem := m1 }

/-- A Swage written into a slot. -/
def State.writeSwage (s : State) (base : Nat) (w : Swage) : State := s.putImage (saveSwage s.mem base w) (swageRanges base w)

/-- A claim's bytes written into a slot. -/
def State.writeClaim (s : State) (c : Crew) (sp : Space) : State :=
  let cl := c.claim sp
  let a := slotBase s c + imgBuf sp
  s.putImage (Memory.splice s.mem a cl.size (Memory.slice ((s.core c.core).buf sp) cl.base cl.size)) [(a, cl.size)]

/-- The records of R348 and R349 written into a crew's slot. `c.swage` holds the Swage that it keeps. -/
def State.saveImage (s : State) (c : Crew) : State :=
  let s1 := s.device (slotBase s c) c.header
  let s2 := c.strands.foldl (fun st t => st.writeStrandRec (strandRec s c t.idx) t) s1
  let s3 := [Space.wbuf, .abuf, .cbuf].foldl (fun st sp => st.writeClaim c sp) s2
  match c.swage with
  | some w => s3.writeSwage (slotBase s c) w
  | none => s3

/-- What reaches a saved crew is in its slot: the crew header, the strand's record and the Swage are written again (R295). -/
def State.resave (s : State) (crew strand : Nat) : State :=
  match s.env? crew strand with
  | some e =>
    if e.c.state = .saved then
      let s1 := (s.device (slotBase s e.c) e.c.header).writeStrandRec (strandRec s e.c strand) e.t
      match e.c.swage with
      | some w => s1.writeSwage (slotBase s e.c) w
      | none => s1
    else s
  | none => s

/-! ### Stopping a strand -/

/-- An issue unit given up at its last boundary: its words will issue again. A `rep` run that has issued an iteration keeps its
position, and is still the unit that the strand is in (R76, R81). -/
def Strand.unwind (t : Strand) : Strand :=
  match t.unit.rep with
  | some r => if r.ran then { t with unit := .fresh, repHeld := some (r.iter, r.n) } else { t with unit := .fresh }
  | none => { t with unit := .fresh }

/-- ACTIVE lanes become INTR and their write sets are discarded (R193). -/
def Strand.interruptTx (t : Strand) : Strand :=
  { t with threads := t.threads.mapi (fun _ x => if x.tx.active then { x with tx := { x.tx with state := 7, wset := [] } } else x) }

/-- Pending lanes of a `trace` or `tcont` return to their state at its issue; the others keep their status and are done
(R282). -/
def Strand.rollTrace (t : Strand) : Strand :=
  t.inflight.foldl (fun t p =>
    match p.kind with
    | .trace _ m before =>
      let t1 := t.modThreads m (fun l x =>
        if x.query.status = qRunning then
          { x with query := match before.find? (fun b => b.1 = l) with | some b => { b.2 with done := none } | none => x.query }
        else { x with query := { x.query with done := some p.pc } })
      { t1 with inflight := t1.inflight.filter (fun q => q.id ≠ p.id) }
    | _ => t) t

/-! ### Saving and quenching (R340, R345, R347) -/

/-- Device time a crew has been resident charged to its launch (R316). -/
def State.chargeCrew (s : State) (c : Crew) : State :=
  if c.state = .resident then s.modLaunch c.seq (fun l => { l with used := l.used + (s.clock - c.placedAt).toNat }) else s

/-- A crew that leaves its core joins no walk and no queued miss of it any more: what comes back translates again (R363). -/
def State.forgetWalks (s : State) (id : Nat) : State :=
  match s.crew? id with
  | none => s
  | some c =>
    let others (j : List (Nat × Nat)) : List (Nat × Nat) := j.filter (fun x => x.1 ≠ id)
    s.modCore c.core (fun co => { co with
      walks := co.walks.map (fun w => { w with joined := others w.joined })
      misses := co.misses.map (fun m => { m with joined := others m.joined }) })

/-- The rest of a save once its operations are complete. -/
def State.saveCrew (s : State) (id : Nat) : State :=
  match s.crew? id with
  | none => s
  | some c0 =>
    let stop (t : Strand) : Strand := { (t.unwind.interruptTx).rollTrace with answers := [], active := false, activeFor := 0, outSince := none }
    let co := s.core c0.core
    let w := if co.holder = some id then some co.swage else none
    let s0 := s.modCrew id (fun c => { c with swage := w, leaving := false, strands := c.strands.map stop })
    let c := (s0.crew? id).getD c0
    let s1 := (s0.saveImage c).chargeCrew c
    let s2 := (s1.releaseCrew id).forgetWalks id
    let held (i : Nat) : Bool := (c.strand? i).any Strand.emerg
    let s3 := s2.modCrew id (fun c =>
      { c with
        state := .saved, waitFrom := s.clock
        strands := c.strands.map (fun t =>
          { t with
            emerg := held t.idx, answers := []
            regs := t.regs.map (fun r => { r with loc := 0 })
            threads := t.threads.mapi (fun _ x => { x with lastPage := none }) }) })
    (s3.modCtx c.ctx (fun x => { x with saves := x.saves + 1 })).afterLeave c.core

/-- What a crew asked of the windows, the collective engines and the genlock goes on without it: its operations are discarded (R345). No
strand has the index 64. -/
def State.disown (s : State) (crew : Nat) : State :=
  let nobody (o : Nat × Nat × Nat) : Nat × Nat × Nat := if o.1 = crew then (o.1, 64, o.2.2) else o
  { s with
    ctxs := s.ctxs.map (fun x => { x with windows := x.windows.map (fun w => { w with queue := w.queue.map nobody }) })
    progs := s.progs.map (fun p => p.map (fun q => { q with owner := q.owner.map nobody }))
    groups := s.groups.map (fun g => { g with tbars := g.tbars.map (fun t => { t with owner := nobody t.owner }) }) }

/-- The rest of a quench: the crew is PENDING and keeps its restart record and its slot, and its `sbar` count is again what it was at
`idemb` (R163). -/
def State.quenchCrew (s : State) (id : Nat) : State :=
  match s.crew? id with
  | none => s
  | some c =>
    let s1 := (((s.chargeCrew c).releaseCrew id).disown id).forgetWalks id
    let s2 := s1.modCrew id (fun c =>
      { c with
        state := .pending, waitFrom := s.clock, strands := [], swage := none, leaving := false
        sbars := match c.restart with | some r => r.sbars | none => c.sbars })
    (s2.modCtx c.ctx (fun x => { x with quenches := x.quenches + 1 })).afterLeave c.core

/-- The crews of a gang that are alive, in crew order. -/
def State.gangCrews (s : State) (seq gang stage : Nat) : List Crew :=
  s.crews.filter (fun c => c.live && c.seq = seq && c.gangNo = gang && c.stage = stage)

/-- Whether R340 has a gang quenched: every crew in a region, no strand in its handler. -/
def quenchable (cs : List Crew) : Bool := cs.all (fun c => c.region && c.restart.isSome && c.strands.all (fun t => !t.inHandler))

/-- A resident gang taken off its cores; none while operations that must complete first cannot yet, or its context is frozen (R440). A
gang cut in the meantime ends by itself (R319). With `save` it is saved even where it could be quenched (R458). -/
def State.takeOff (s : State) (save : Bool) (seq gang stage : Nat) : Option State :=
  let l := s.launch? seq
  let cs := if l.any (fun l => l.phase = .cutting) then [] else (s.gangCrews seq gang stage).filter (fun c => c.state = .resident)
  let q := !save && quenchable cs
  let want := if q then Pending.writesGlobal else Pending.holdsSave
  let s1 := cs.foldl (fun st c => st.settleCrew c.id want) s
  let left := cs.any (fun c => match s1.crew? c.id with
    | some c' => c'.strands.any (fun t => t.inflight.any (fun p => !p.done && want p))
    | none => false)
  if left || l.any (fun l => (s.ctx l.ctx).frozen) then none
  else some (cs.foldl (fun st c => if q then st.quenchCrew c.id else st.saveCrew c.id) s1)

/-! ### Coming back (R346, R347) -/

/-- A crew's generation after its tables return (R123). -/
def State.freshGen (s : State) (core : Nat) (xpat xtab : List Word) : Word × State :=
  if xpat = xpatReset && xtab = xtabReset then (0, s)
  else
    let (nm, g) := (s.core core).naming.takeGen
    (g, s.modCore core (fun co => { co with naming := nm }))

/-- A binding's CLOSED flag stays once its session has closed (R284). -/
def keepClosed (now : List Binding) (old : List Binding) : List Binding :=
  old.zipIdx.map (fun p => match now[p.2]? with
    | some b => { p.1 with closed := p.1.closed || b.closed }
    | none => p.1)

/-- A strand rebuilt from its restart record (R346). -/
def StrandRestart.strand (r : StrandRestart) (idx num : Nat) : Strand :=
  let regs := r.regs ++ List.replicate (r.regcount - r.regs.length) (uniformReg 0)
  let t := Strand.entry idx num regs 0
  let threads := t.threads.mapi (fun l x =>
    { x with
      pc := r.pc.get l, meeting := r.meeting.get l, state := if laneOn r.exited l then .exited else .running
      draws := r.draws.get l, copies := r.copies.get l, swDraws := r.swDraws.get l })
  let run := ~~~r.exited
  { t with
    threads := threads, group := run, lastLow := lowLane run, fflags := r.fflags, fldev := r.fldev
    regs := if run = 0 then [] else regs, ended := run = 0 }

/-- The tiles and banks of a core are written whole: no uncorrectable error is left in them (R436). -/
def State.swageWritten (s : State) (core : Nat) : State :=
  if s.ue.isEmpty then s else { s with ue := s.ue.filter (fun g => g / 2 ^ 16 ≠ swageUnit core 0 / 2 ^ 16) }

/-- Memory as a restore of a crew reads its slot: nothing stands in a page that has no memory (R455, R460). -/
def State.slotMem (s : State) (c : Crew) : Memory :=
  let pages := (List.range 128).map (fun i => slotBase s c + i * 2 ^ 14)
  if pages.all s.hasMemory then s.mem else (pages.filter (fun a => !s.hasMemory a)).foldl (fun m a => Memory.clear m a (2 ^ 14)) s.mem

/-- A quenched crew restarted on a core. -/
def State.restartCrew (s : State) (id core : Nat) : State :=
  match s.crew? id with
  | none => s
  | some c => match c.restart with
    | none => s
    | some r0 =>
      let r := r0.read (s.slotMem c) (slotBase s c + 0x800) (fun i => strandRec s c i + 0x1C00)
      let (w, a, cb, s1) := s.takeClaims core c.wclaim.size c.aclaim.size c.cclaim.size
      let live := (r.strands.filter (fun x => x.exited ≠ 0xFF)).length
      let nums := freeNums (s1.numsUsed core) live
      let raw := (r.strands.zipIdx.foldl (fun acc p =>
        if p.1.exited = 0xFF then (acc.1 ++ [p.1.strand p.2 0], acc.2)
        else (acc.1 ++ [p.1.strand p.2 (acc.2.headD 0)], acc.2.drop 1)) (([] : List Strand), nums)).1
      let (nm, strands) := placeStrands c.naming (s1.core core).naming raw
      let s2 := s1.modCore core (fun co => { co with naming := nm })
      let (g, s3) := s2.freshGen core r.xpat r.xtab
      let s4 := if r.held then (s3.swageWritten core).modCore core (fun co => { co with holder := some id, swage := .fresh }) else s3
      let s5 := s4.modCrew id (fun c =>
        { c with
          core := core, state := .resident, wclaim := w, aclaim := a, cclaim := cb, strands := strands, progress := r.progress
          vnhits := 0, vndedup := 0, vncoll := 0, xgen := g, xpat := r.xpat, xtab := r.xtab
          bars := List.replicate c.nbars ⟨0, false⟩, sbars := r.sbars, binds := keepClosed c.binds r.binds, region := true
          idemAt := none, placedAt := s.clock })
      s5.afterArrive core c.ctx

/-- A word that a restored crew's thread waits on in `waita`, found through the context's table again (R213, R369); none where the thread
must issue the instruction again. -/
def State.waitaAgain (s : State) (ctx : Nat) (w : WaitAt) : Option (Nat × Trans) :=
  match s.walkTable ctx w.va with
  | some tr => if pteR tr.entry && pteP tr.entry then some (tr.pa w.va, tr) else none
  | none => none

/-- Waits of a restored crew whose condition has been met are over, and the words of `waita` are read again (R134, R160,
R213, R302). -/
def State.recheckWaits (s : State) (id : Nat) : State :=
  match s.crew? id with
  | none => s
  | some c =>
    let s1 := s.modCrew id (fun c => { c with strands := c.strands.map (fun t =>
      t.wakeLanes (t.lanesWhere (fun x => match x.state with
        | .waiting (.sleep n) => decide (n ≤ s.cycle)
        | .waiting (.sleepu d) => s.reached d
        | _ => false))) })
    (c.strands.foldl (fun st t => laneIds.foldl (fun st l =>
      match (t.thread l).state with
      | .waiting (.waita _ x d vd pd w) =>
        match st.waitaAgain c.ctx w with
        | none => st.modStrand id t.idx (fun t => t.rewait (fun k _ => k = l))
        | some (pa, tr) =>
          st.rereadWaita id t.idx l pa (fun v =>
            if v ≠ x then st.returnWaita id t.idx l vd pd v true
            else if st.passed d then st.returnWaita id t.idx l vd pd v false
            else st.modStrand id t.idx (fun t => t.modThread l (fun th =>
              { th with state := .waiting (.waita pa x d vd pd { w with tr := some tr }) })))
      | _ => st) st) s1).completeBarriers id 8

/-- A saved crew restored on a core: what its slot holds of registers, buffers and Swage is read from there. -/
def State.restoreCrew (s : State) (id core : Nat) : State :=
  match s.crew? id with
  | none => s
  | some c0 =>
    let m := s.slotMem c0
    let c := c0.ofHeader (Memory.readBytes m (slotBase s c0) c0.header.length)
    let b := slotBase s c
    let (w, a, cb, s1) := s.takeClaims core c.wclaim.size c.aclaim.size c.cclaim.size
    let put (st : State) (sp : Space) (cl : Claim) : State := st.modCore core (fun co =>
      co.setBuf sp (Memory.splice (co.buf sp) cl.base cl.size (Memory.slice m (b + imgBuf sp) cl.size)))
    let s2 := ((put s1 .wbuf w |> fun st => put st .abuf a) |> fun st => put st .cbuf cb)
    let nums := freeNums (s2.numsUsed core) (c.strands.filter (fun t => !t.ended)).length
    let raw := (c.strands.foldl (fun acc t =>
      if t.ended then (acc.1 ++ [t], acc.2)
      else
        let t' := ({ t.readRec m (strandRec s c t.idx) with num := acc.2.headD 0 } : Strand).countDone
        (acc.1 ++ [t'], acc.2.drop 1)) (([] : List Strand), nums)).1
    let (nm, strands) := placeStrands c.naming (s2.core core).naming raw
    let s3 := s2.modCore core (fun co => { co with naming := nm })
    let (g, s4) := s3.freshGen core c.xpat c.xtab
    let s5 := match c.swage with
      | some sw => (s4.swageWritten core).modCore core (fun co => { co with holder := some id, swage := loadSwage m b sw })
      | none => s4
    let s6 := s5.modCrew id (fun _ =>
      { c with
        core := core, state := .resident, binds := keepClosed c0.binds c.binds, wclaim := w, aclaim := a, cclaim := cb, strands := strands, xgen := g, swage := none
        placedAt := s.clock })
    s6.afterArrive core c.ctx

/-- The cores a waiting gang would return to: each crew the first from the pointer that fits it and holds no other of
the gang (R323, R347). -/
def State.planReturn (s : State) (cs : List Crew) : Option (List Nat) :=
  cs.foldl (fun acc c =>
    match acc with
    | none => none
    | some used =>
      match s.fromPointer.find? (fun k => !used.contains k && s.fits k
          (match c.restart, c.state with
           | some r, .pending =>
             { (c.need (s.walksInHardware c.ctx)) with
               blocks := (r.strands.filter (fun x => x.exited ≠ 0xFF)).foldl (fun n x => n + x.regcount / 8) 0,
               strands := (r.strands.filter (fun x => x.exited ≠ 0xFF)).length }
           | _, _ => c.need (s.walksInHardware c.ctx))) with
      | some k => some (used ++ [k])
      | none => none) (some [])

/-- A waiting gang brought back to the given cores. -/
def State.returnGang (s : State) (cs : List Crew) (cores : List Nat) : State :=
  let s1 := (cs.zip cores).foldl (fun st p => if p.1.state = .saved then st.restoreCrew p.1.id p.2 else st.restartCrew p.1.id p.2) s
  cs.foldl (fun st c => st.recheckWaits c.id) s1

/-! ### Waiting gangs and victims (R336 to R339) -/

/-- A gang: launch, gang index, stage, and its crews. -/
structure Gang where
  seq   : Nat
  gang  : Nat
  stage : Nat
  crews : List Crew
  deriving DecidableEq, Repr

/-- The gangs that have a crew satisfying `p`, in ascending order of launch and gang. -/
def State.gangs (s : State) (p : Crew → Bool) : List Gang :=
  ((s.crews.filter (fun c => !c.walker && p c)).map (fun c => (c.seq, c.gangNo, c.stage))).eraseDups.map (fun k =>
    { seq := k.1, gang := k.2.1, stage := k.2.2, crews := s.gangCrews k.1 k.2.1 k.2.2 })

def Gang.deadline (s : State) (g : Gang) : Nat := match s.launch? g.seq with | some l => l.pkt.deadline.toNat | none => 2 ^ 64 - 1
def Gang.waitFrom (g : Gang) : Nat := g.crews.foldl (fun m c => min m c.waitFrom.toNat) (2 ^ 64)
def Gang.ctx (g : Gang) : Nat := (g.crews.head?.map Crew.ctx).getD 0
def Gang.runTime (s : State) (g : Gang) : Nat := (g.crews.head?.map (fun c => (s.clock - c.placedAt).toNat)).getD 0

/-- Saved and quenched gangs of contexts that are not frozen (R336, R440). -/
def State.waitingGangs (s : State) : List Gang :=
  (s.gangs (fun c => c.state = .saved || c.state = .pending)).filter (fun g =>
    !(s.ctx g.ctx).frozen && (match s.launch? g.seq with | some l => l.phase ≠ .cutting | none => true))

/-- Resident gangs of save-class launches in contexts that are not frozen (R335). -/
def State.saveGangs (s : State) : List Gang :=
  (s.gangs (fun c => c.state = .resident && !c.leaving)).filter (fun g =>
    !(s.ctx g.ctx).frozen && (match s.launch? g.seq with | some l => l.pkt.save && l.phase ≠ .cutting | none => false))

/-- A list put in order: `before a b` says that a comes first. -/
def insertBy {α : Type} (before : α → α → Bool) (x : α) : List α → List α
  | [] => [x]
  | y :: r => if before y x then y :: insertBy before x r else x :: y :: r
def sortBy {α : Type} (before : α → α → Bool) (xs : List α) : List α := xs.foldr (insertBy before) []

/-- A gang imagined off its cores, to see what then fits. -/
def State.vacate (s : State) (g : Gang) : State :=
  g.crews.foldl (fun st c =>
    if c.state = .resident then ((st.releaseCrew c.id).modCrew c.id (fun c => { c with state := .saved })).fitEmergency c.core else st) s

/-- The shortest prefix of `vs` whose leaving makes `ok` hold. -/
def State.shortestPrefix (s : State) (ok : State → Bool) (vs : List Gang) (taken : List Gang) : Option (List Gang) :=
  if ok s then some taken
  else match vs with
    | [] => none
    | v :: rest => (s.vacate v).shortestPrefix ok rest (taken ++ [v])

/-- Gangs really taken off, one after another; none when one of them cannot leave yet. -/
def State.takeAll (s : State) (save : Bool) (gs : List (Nat × Nat × Nat)) : Option State :=
  gs.foldl (fun acc g => match acc with | some st => st.takeOff save g.1 g.2.1 g.2.2 | none => none) (some s)

/-- Whether a planned unit is still the launch's next one and fits its cores. -/
def State.unitFits (s : State) (l : Launch) (u : Unit4) : Bool :=
  let (g, st, sizes) := l.nextUnit
  (if l.pkt.persist then u.cores = s.selectedCores l.pkt else u.gang = g && u.stage = st && sizes.contains (u.size, u.fall))
    && s.slotsFor l.ctx u.cores.length && u.cores.all (fun k => s.fits k (l.pkt.need (s.walksInHardware l.ctx)))

/-- The context that the room of a removal is for. -/
def TakeFor.ctx? (w : TakeFor) (s : State) : Option Nat :=
  match w with
  | .room => none
  | .unit seq _ => (s.launch? seq).map Launch.ctx
  | .gang seq _ _ => (s.launch? seq).map Launch.ctx

/-- Whether room is being made for a unit or a gang: nothing else is planned until it has it. -/
def State.makingRoom (s : State) : Bool := s.bellows.taking.any (fun k => (k.whom.ctx? s).isSome)

/-- Whether crews of a launch may be placed now (R322, R327, R440): it has some left to place and is not cut, its EARLIEST has been
reached, and its context is not frozen. -/
def State.placeable (s : State) (l : Launch) : Bool :=
  l.inHeap && l.pkt.kind = 1 && s.reached l.pkt.earliest && !(s.ctx l.ctx).frozen

/-- Whom the room is for gets it, where it fits. -/
def State.serveTaking (s : State) (w : TakeFor) : State :=
  match w with
  | .room => s
  | .unit seq u => match s.launch? seq with
    | some l =>
      if !s.placeable l then s
      else match (match u with | some v => if s.unitFits l v then some v else s.planUnit l | none => s.planUnit l) with
        | some v => s.placeUnitAt l v
        | none => s
    | none => s
  | .gang seq gang stage => match s.waitingGangs.find? (fun g => g.seq = seq && g.gang = gang && g.stage = stage) with
    | some g => match s.planReturn g.crews with
      | some cs => s.returnGang g.crews cs
      | none => s
    | none => s

/-- One removal goes on: once every operation that its gangs wait for is complete, they leave and the room is used (R338 step 4, R345,
R347). -/
def State.tryTaking (s : State) (k : Taking) : State :=
  match s.takeAll k.save k.gangs with
  | some st => ({ st with bellows := { st.bellows with taking := st.bellows.taking.filter (fun x => x ≠ k) } } : State).serveTaking k.whom
  | none => s

/-- Every removal begun goes on. -/
def State.goOnTaking (s : State) : State := s.bellows.taking.foldl (fun st k => st.tryTaking k) s

/-- A removal begins: the strands of the gangs stop issuing, and it goes on at once (R345 step 1, R347 step 1). -/
def State.startTaking (s : State) (gs : List Gang) (w : TakeFor) (save : Bool := false) : State :=
  let k : Taking := { gangs := gs.map (fun g => (g.seq, g.gang, g.stage)), whom := w, save := save }
  let mine (c : Crew) : Bool := !c.walker && c.state = .resident && k.gangs.contains (c.seq, c.gangNo, c.stage)
  ({ s with
    crews := s.crews.map (fun c => if mine c then { c with leaving := true } else c)
    bellows := { s.bellows with taking := s.bellows.taking ++ [k] } } : State).tryTaking k

/-- R339: waiting gangs that come before the top, or all of them when there is none, each restored where it fits, in order of deadline and
wait start. -/
def State.restoreWaiting (s : State) : State :=
  let lim := match s.top with | some l => l.pkt.deadline.toNat | none => 2 ^ 64
  let key (g : Gang) : List Nat := [g.deadline s, g.waitFrom, g.seq, g.gang]
  let gs := sortBy (fun a b => lexLe (key a) (key b)) (s.waitingGangs.filter (fun g => decide (g.deadline s ≤ lim)))
  gs.foldl (fun st g => match st.planReturn g.crews with
    | some cs => st.returnGang g.crews cs
    | none => st) s

/-- Waiting gangs come back at once when resources free (R339), unless room is being made for a unit or a gang. -/
def State.bringBack (s : State) : State :=
  if s.crews.any (fun c => c.state = .saved || c.state = .pending) && !s.makingRoom then s.restoreWaiting else s

/-- The wait start of the top's next unplaced crew, for R336: it waits while the context's LIVE count is below SLOTS. What made it wait
happened at `since`, or when its EARLIEST was reached. -/
def State.markTopFrom (s : State) (since : DWord) : State :=
  match s.top with
  | none => if s.launches.any (fun l => l.topSince.isSome) then { s with launches := s.launches.map (fun l => { l with topSince := none }) } else s
  | some t =>
    let from_ (l : Launch) : DWord := if since.toNat < l.pkt.earliest.toNat then l.pkt.earliest else since
    { s with launches := s.launches.map (fun l =>
        { l with topSince := if l.seq = t.seq && s.slotsFor l.ctx 1 then some (l.topSince.getD (from_ l)) else none }) }

/-- What began to wait began now. -/
def State.markTop (s : State) : State := s.markTopFrom s.clock

/-! ### The ends of strands and crews (R161) -/

/-- A strand all of whose threads have exited ends once its operations are complete; the last one ends its crew. -/
def State.endStrand (s : State) (crew strand : Nat) : State :=
  let s1 := s.settleStrand crew strand (fun _ => true)
  match s1.env? crew strand with
  | none => s
  | some e =>
    if e.t.ended || e.c.walker || !(laneIds.all (fun l => (e.t.thread l).isExited)) then s
    else if !e.t.inflight.isEmpty then s1
    else
      let nm := releaseRegs (s1.core e.c.core).naming e.t.regs
      let s2 := if e.c.state = .resident then
          (s1.giveBack e.c.core (crew, strand) ((e.t.regs.length - e.c.baseRegs) / 8)).modCore e.c.core (fun co =>
            { co with
              naming := nm
              emFree := if co.emHolder = some (crew, strand) then co.emSize else co.emFree
              emHolder := if co.emHolder = some (crew, strand) then none else co.emHolder })
        else s1
      let s3 := s2.modStrand crew strand (fun t => { t with ended := true, regs := [], group := 0, grow := none, emerg := false })
      let last := match s3.crew? crew with | some c => c.strands.all Strand.ended | none => false
      if last then (s3.chargeCrew e.c).endCrew crew else s3.serveGrowth e.c.core 512

/-- A crew cut at its deadline (R319): its strands issue no more and end as after an exit, saved ones too; a handler is abandoned. A
pending crew is never placed. -/
def State.cutCrew (s : State) (id : Nat) : State :=
  match s.crew? id with
  | none => s
  | some c =>
    match c.state with
    | .ended => s
    | .pending => s.endCrew id
    | _ =>
      let s1 := s.modCrew id (fun c => { c with strands := c.strands.map (fun t =>
        { t with
          threads := t.threads.mapi (fun _ x => { x with state := .exited }), group := 0, grow := none, unit := .fresh
          trap := .none, handler := 0, deferred := [] }) })
      (c.strands.foldl (fun st t => st.endStrand id t.idx) s1).completeBarriers id 8

end Sys2Proof.Machine
end

