-- ==== Sys2Proof/Machine/Recovery.lean ====
section
/-! DEFINITION. Idle contexts (spec/01_device_organisation.md R23), completion by FAULT of everything a context has
(spec/14_queues_deadlines_and_dispatch.md R320), context reset, and fatal events
(spec/20_traps_errors_and_watchdog.md R437 to R441). -/

namespace Sys2Proof.Machine

/-- Whether a publication of the window is in progress or queued (R383). -/
def Window.quiet (w : Window) : Bool := w.busy.isNone && w.queue.isEmpty

/-- A context is idle (R23). -/
def State.idle (s : State) (x : Nat) : Bool :=
  s.launches.all (fun l => l.ctx ≠ x) && (s.liveCrews x).isEmpty && s.cores.all (fun co => co.walks.all (fun w => w.ctx ≠ x))
    && s.progs.all (fun p => match p with | some p => p.ctx ≠ x | none => true)
    && (s.ctx x).windows.all Window.quiet

/-- The address of a packet slot of a queue's ring (R307). -/
def Queue.slotVa (q : Queue) (i : Word) : Nat := (q.rbase.toNat + 128 * (i.toNat % 2 ^ q.k)) % 2 ^ 64

/-- The 128 bytes of a slot through the context's translation, when its page is readable and resident (R311). -/
def State.readSlot (s : State) (ctx va n : Nat) : Option (List Byte) :=
  (s.tablePa ctx va pteR).map (fun pa => s.peekBytes pa n)

/-- Whether a completion record address passes the last check of R313. -/
def State.cplOk (s : State) (ctx : Nat) (addr : DWord) : Bool :=
  addr = 0 || (addr.toNat % 32 = 0 && (s.tablePa ctx addr.toNat (fun e => pteW e && pteA e)).isSome)

def State.takeSeq (s : State) : Nat × State :=
  (s.bellows.nextSeq, { s with bellows := { s.bellows with nextSeq := s.bellows.nextSeq + 1 } })

/-- A packet that was never pulled completes FAULT at a reset (R320). -/
def State.faultBytes (s : State) (ctx : Nat) (b : Option (List Byte)) : State :=
  let (seq, s1) := s.takeSeq
  match b with
  | none => s1
  | some b =>
    let addr : DWord := BitVec.ofNat 64 (leAt b 0x28 8)
    if s1.cplOk ctx addr then s1.writeCompletion ctx addr (BitVec.ofNat 32 (leAt b 0x30 4)) CplStatus.fault.code seq else s1

/-- The pending packets of one ring complete FAULT, and RIDX becomes WIDX (R320, R441). -/
def State.faultRing (s : State) (q fuel : Nat) : State :=
  match fuel with
  | 0 => s
  | n + 1 =>
    let qu := s.queue q
    if qu.ridx = qu.widx then s
    else
      let s1 := s.faultBytes qu.ctx (s.readSlot qu.ctx (qu.slotVa qu.ridx) 128)
      (s1.modQueue q (fun qu => { qu with ridx := qu.ridx + 1 })).faultRing q n

/-- Everything a context has pulled or has pending completes FAULT (R441 step 5). -/
def State.faultPackets (s : State) (x : Nat) : State :=
  let s1 := (s.launches.filter (fun l => l.ctx = x)).foldl (fun st l => st.complete l.seq CplStatus.fault.code) s
  let qs := (List.range 1024).filter (fun q => (s1.queue q).en && (s1.queue q).ctx = x)
  let s2 := qs.foldl (fun st q => st.faultRing q (2 ^ (st.queue q).k)) s1
  let s3 := ((s2.ctx x).dlq.filter (fun d => d.reserved.isNone)).foldl (fun st d => st.faultBytes x (some d.bytes)) s2
  s3.modCtx x (fun c => { c with dlq := [] })

/-- Windows at a reset (R383). -/
def Window.reset (w : Window) : Window :=
  match w.busy with
  | some _ => { w with queue := w.queue.take 1, drop := true }
  | none => { w with queue := [], en := false }

/-- Walks and translations of a context ended on one core (R441 step 3). -/
def State.dropWalks (s : State) (core x : Nat) : State :=
  let co := s.core core
  let mine := (co.walks.filter (fun w => w.ctx = x)).map Walk.num
  let s1 := s.setCore core { co with
    misses := co.misses.filter (fun m => m.ctx ≠ x)
    tlb := co.tlb.filter (fun t => t.ctx ≠ x)
    naming := { co.naming with vtable := co.naming.vtable.filter (fun e => e.key.load.isEmpty || e.key.load.headD 0 ≠ x) }
    walks := co.walks.map (fun w => if w.ctx = x then { w with result := none, again := false } else w) }
  (mine.foldl (fun st k => st.endWalk core k) s1).emptyLast core x (fun _ => true)

/-- A group without the timed barriers of a context and without the arrivals made for them (R416). -/
def Group.withdraw (rank x : Nat) (g : Group) : Group :=
  let gone := g.tbars.filter (fun t => t.ctx = x && !t.decided)
  { g with
    tbars := g.tbars.filter (fun t => t.ctx ≠ x)
    arrives := g.arrives.filter (fun a => a.1 ≠ rank || !gone.any (fun t => t.target = a.2)) }

/-- A context reset (R441). -/
def State.contextReset (s : State) (x : Nat) : State :=
  let mine := s.crews.filter (fun c => c.live && c.ctx = x)
  let s1 := (mine.filter (fun c => c.state = .resident)).foldl (fun st c => st.settleCrew c.id Pending.writesGlobal) s
  let s2 := (List.range 64).foldl (fun st k => st.dropWalks k x) s1
  let s3 := mine.foldl (fun st c => st.endCrew c.id) s2
  let progs := (List.range 32).filter (fun k => match s3.prog? k with | some p => p.ctx = x | none => false)
  let s4 := progs.foldl (fun st k => st.endProg k psAborted false) s3
  let s5 := s4.modCtx x (fun c => { c with
    tcs := List.replicate 8 0, trigs := List.replicate 32 .fresh, windows := c.windows.map Window.reset })
  let s6 := { s5 with groups := s5.groups.map (Group.withdraw s5.lly.rank x) }
  let s7 := (List.range 64).foldl (fun st k => if (st.session k).ctx = x then st.closeSession k else st) s6
  let s8 := s7.faultPackets x
  let s9 := { s8 with crews := s8.crews.filter (fun c => c.walker || c.ctx ≠ x) }
  (s9.modCtx x (fun c => { c with frozen := false })).markTop

/-- A fatal event of a context (R438 to R440): the record, then a reset or the frozen state. In a context that is frozen
already only the record changes. -/
def State.fatalEvent (s : State) (x : Nat) (i : ErrInfo) : State :=
  let s1 := s.recordError x { i with fatal := true }
  if (s1.ctx x).frozen then s1
  else if (s1.ctx x).assist.getLsbD 4 then (s1.modCtx x (fun c => { c with frozen := true })).markTop
  else s1.contextReset x

/-- The contexts that have a crew on a core. -/
def State.contextsOn (s : State) (core : Nat) : List Nat :=
  (((s.residentOn core).filter (fun c => !c.walker)).map Crew.ctx).eraseDups

end Sys2Proof.Machine
end

