-- ==== Sys2Proof/Machine/Ops.lean ====
section
/-! DEFINITION. Taking a trap and returning from one (spec/20_traps_errors_and_watchdog.md R423 to R432), and the end of
an issue unit (spec/04_encoding_and_assembly.md R76 to R81). The named operations over registers are in `Access.lean`,
over memory in `Bits.lean` and `Mem.lean`. -/

namespace Sys2Proof.Machine

/-! ### Where a strand stands -/

/-- The address of the first word of the issue unit that the current group is at (R76, R424): its program counter. -/
def Strand.unitPc (t : Strand) : VAddr := (t.thread (lowLane t.group)).pc

/-- The address of the word the strand issues next. -/
def Strand.fetchPc (t : Strand) : VAddr := t.unitPc + BitVec.ofNat 57 (4 * t.unit.words)

/-! ### Taking a trap -/

/-- Whether a trap of the strand is handled (R425). -/
def Env.handled (e : Env) : Bool :=
  let p := (e.s.ctx e.c.ctx).trapPc.toNat
  p ≠ 0 && p % 4 = 0 && p / 2 ^ 57 = 0 && decide (p / 2 ^ 32 = e.c.entryPc.toNat / 2 ^ 32) && !e.t.inHandler

/-- `ctl.repleft` as a trap leaves it (R80): the iterations still to run when a `rep` is in force. DEDUCED (assumption 73): this
holds of a trap before any iteration has issued too, where the target is refused or cannot be fetched; R80 gives n − i there with i
the iteration that would have been first. -/
def Strand.repleftAt (t : Strand) : Word :=
  match t.unit.rep with
  | some r => BitVec.ofNat 32 (r.n - r.iter)
  | none => match t.repHeld with
    | some (i, n) => BitVec.ofNat 32 (n - i)
    | none => t.repleft

/-- The issue unit given up by a trap: the resume flag and the partial mask are spent (R81, R432). A deferred trap comes before the
unit, whose partial re-issue is still to come. -/
def Strand.giveUp (t : Strand) (deferred : Bool) : Strand :=
  { t with
    repleft := t.repleftAt, unit := .fresh, resume := false, repHeld := none, partMask := if deferred then t.partMask else none
    answers := [] }

/-- At the entry of a PERM or ALIGN trap, stopped queries of the faulting lanes end ABORTED with reason 2 (R281). -/
def Strand.abortQueries (t : Strand) (cause : Nat) (mask : Mask) : Strand :=
  if cause = cPERM || cause = cALIGN then
    t.modThreads mask (fun _ x => if x.query.stopped then { x with query := x.query.abort 2 } else x)
  else t

/-- The lanes that hold a query that has not ended: running, or stopped at a candidate. -/
def Strand.live (t : Strand) : Mask := t.lanesWhere (fun x => x.query.status = qRunning || x.query.stopped)

/-- A walker strand's trap ends its walk with no translation, and WALKFAULT is recorded with the walk's address
(R365, R438). -/
def Env.walkFault (e : Env) : State :=
  let s := e.commit
  match (s.core e.c.core).walks.find? (fun w => w.num = e.t.idx) with
  | none => s
  | some w =>
    let s1 := s.modCore e.c.core (fun co => { co with walks := co.walks.map (fun x => if x.num = w.num then { x with result := none } else x) })
    (s1.endWalk e.c.core w.num).recordError w.ctx
      { cause := 18, fatal := false, nested := false, lanes := 0, strand := e.t.num, core := e.c.core, seq := 0,
        addr := w.va.toNat, pc := 0, code := 0 }

/-- The record of a trap (R424, R426 step 5): `src` is the consuming instruction of a deferred trap. -/
def trapRecord (ti : TrapInfo) (part : Bool) (pc : VAddr) (src : Option VAddr) : TrapRec :=
  { code := ti.code, defer := src.isSome, inh := true, part := part, next := decide (ti.cause = cTRAP),
    cause := BitVec.ofNat 4 ti.cause, va := BitVec.ofNat 57 ti.va, mask := ti.mask, pc := pc,
    src := match src with | some a => BitVec.truncate 32 a | none => 0 }

/-- Steps 5 and 6 of R426: the record is written, and the threads of the trapping group take TRAPPC and become the
handler group. A PERM or ALIGN trap holds the strand's queries where they stand (R281). -/
def Strand.enterHandler (t : Strand) (rec : TrapRec) (trapPc : VAddr) : Strand :=
  let t1 := t.modThreads t.group (fun _ x => { x with pc := trapPc })
  { t1 with trap := rec, handler := t.group, qstill := if rec.cause = BitVec.ofNat 4 cPERM || rec.cause = BitVec.ofNat 4 cALIGN then t.live else 0 }

/-- Entering the handler (R426): the strand's memory operations complete, ACTIVE lanes become INTR, and the record and
the handler group are made. -/
def Env.enterTrap (e : Env) (ti : TrapInfo) (part : Bool) (src : Option VAddr) : Env :=
  let pc := e.t.unitPc
  let e1 := e.drainMem
  let t := (e1.t.interruptTx).abortQueries ti.cause ti.mask
  { e1 with t := t.enterHandler (trapRecord ti part pc src) (BitVec.truncate 57 (e.s.ctx e.c.ctx).trapPc) }

/-- What the error record of an unhandled or nested trap holds (R437, R438). -/
def Env.trapError (e : Env) (ti : TrapInfo) : ErrInfo :=
  { cause := ti.cause, fatal := true, nested := e.t.inHandler, lanes := ti.mask, strand := e.t.num, core := e.c.core, seq := e.c.seq,
    addr := ti.va, pc := e.t.unitPc.toNat, code := ti.code }

/-- TAKING A TRAP (R423 to R426): the one operation that every trap of every instruction takes. A walker's trap ends its
walk; an unhandled or nested one is a fatal event; a handled one enters the handler. -/
def Env.takeTrap (e : Env) (ti : TrapInfo) (part : Bool) (src : Option VAddr) : State :=
  let e1 := { e with t := e.t.giveUp src.isSome }
  if e.c.walker then e1.walkFault
  else if e.handled then (e1.enterTrap ti part src).commit
  else e1.commit.fatalEvent e.c.ctx (e.trapError ti)

/-- The oldest deferred trap, taken at a boundary (R428, R429). -/
def Env.takeDeferred (e : Env) : State :=
  match e.t.deferred with
  | [] => e.commit
  | d :: rest =>
    let e1 := { e with t := { e.t with deferred := rest } }
    e1.takeTrap { cause := cECC, mask := d.mask, va := d.va.toNat, code := 0 } false (some d.src)

/-! ### Returning from the handler (R432) -/

/-- How many words the issue unit at an address has: its prefixes and their target. None when a translation on the way
is not known yet. A word that cannot be fetched counts as the target. -/
def Env.unitWords (e : Env) (pc : Nat) (fuel : Nat) : Except Nat Nat :=
  match fuel with
  | 0 => .ok 1
  | k + 1 =>
    match e.look 0 pc with
    | .miss => .error pc
    | .invalid => .ok 1
    | .found tr =>
      if pteX tr.entry && pteP tr.entry then
        if e.s.peek (tr.pa pc) 4 / 2 ^ 28 = 0xE then
          match e.unitWords (pc + 4) k with
          | .ok n => .ok (n + 1)
          | .error a => .error a
        else .ok 1
      else .ok 1

/-- The record as `rtt` leaves it: `ctl.trapcause` is zero (R432), the other registers stand. -/
def TrapRec.cleared (r : TrapRec) : TrapRec :=
  { r with code := 0, defer := false, inh := false, part := false, next := false, cause := 0 }

/-- `rtt` (R432): the handler group moves to the trap PC, or past the unit of `words` words there; the held groups are
released; with NEXT = 0 the resume flag is set, and with PART = 1 the re-issue is partial. A group that returns to a unit
it has begun does not park there; one that moves on to its meeting address does (R133). -/
def Strand.rtt (t : Strand) (words : Nat) : Strand :=
  let r := t.trap
  let pc := if r.next then r.pc + BitVec.ofNat 57 (4 * words) else r.pc
  let g := t.handler
  -- a status that a traversal gave, and the lanes it acts for, stand only while the group returns to the instruction
  let back (x : Thread) : Thread :=
    { (if x.query.done = some pc then x else { x with query := { x.query with done := none } } : Thread) with
      acts := if x.acts = some pc then x.acts else none }
  let t1 := t.modThreads g (fun _ x => { back x with pc := pc })
  let t2 := { t1 with
    trap := r.cleared, handler := 0, unit := .fresh, resume := !r.next, answers := []
    partMask := if r.part && !r.next then some (pc, r.mask) else if r.defer then t.partMask else none
    qstill := 0 }
  let held := t2.lanesWhere (fun x => x.state = .waiting (.sleep 0))
  let t3 := t2.modThreads held (fun _ x => { x with state := .running })
  let t4 := (t3.parkLanes (if r.next then held ||| g else held)).releaseMet
  { t4 with group := g }.regroup

/-! ### The end of an issue unit -/

/-- Whether another iteration of a `rep` follows the one just done (R80). -/
def Strand.moreReps (t : Strand) : Bool :=
  match t.unit.rep with
  | some r => decide (r.iter + 1 < r.n)
  | none => false

/-- The partial re-issue still to come once the unit at the group's address has issued: that unit's own is over (R432). -/
def Strand.partLeft (t : Strand) : Option (VAddr × Mask) :=
  match t.partMask with
  | some (pc, m) => if pc = t.unitPc && !t.inHandler then none else some (pc, m)
  | none => none

/-- The strand at its next iteration: the partial mask was for the first one only (R80, R432). -/
def Strand.nextRep (t : Strand) : Strand :=
  { t with unit := { t.unit with rep := t.unit.rep.map (fun r => { r with iter := r.iter + 1, ran := true }) }, partMask := t.partLeft, answers := [] }

/-- The unit is over: `rep` leaves `ctl.repleft` 0, and the resume flag is spent (R80, R81). -/
def Strand.closeUnit (t : Strand) : Strand :=
  { t with
    unit := .fresh, resume := false, repHeld := none, partMask := t.partLeft, answers := []
    repleft := if t.unit.rep.isSome then 0 else t.repleft }

/-- `yield` (R135, R160): a selection event, except in the handler and with progress off. -/
def Env.yieldGroup (e : Env) : Env :=
  if e.c.progress && !e.t.inHandler then { e with t := e.t.selectNext } else e

/-- The yield of a `hint.sched` or a `yield` at the end of a unit issued by `old`: a group that has itself parked, begun to
wait or exited has given way already (R78, R135). -/
def Env.yieldAfter (e : Env) (old : Mask) : Env := if e.t.group &&& old = 0 then e else e.yieldGroup

/-- An instruction has completed its issue for the current group: the next iteration, or the end of the unit with parking,
release and selection (R76, R133, R135). `moved` says that the program counters are set already. -/
def Env.endUnit (e : Env) (moved : Bool) : Env :=
  if e.t.moreReps then { e with t := e.t.nextRep }
  else
    let g := e.t.group
    let yld := e.t.unit.sched = some true
    let t1 := e.t.closeUnit
    let t2 := if moved then t1 else t1.advance g (e.t.unit.words + 1)
    let e1 := { e with t := t2.settle g }
    if yld then e1.yieldAfter g else e1

/-- A prefix word has issued: the unit goes on with its next word (R76, R77). -/
def Env.endPrefix (e : Env) (u : UnitSt) : Env := { e with t := { e.t with unit := { u with words := u.words + 1 } } }

end Sys2Proof.Machine
end

