-- ==== Sys2Proof/Machine/Flags.lean ====
section
/-! DEFINITION. The rounding mode and saturation in force, the sticky flags, and stochastic draws of the lane
instructions (spec/02_number_formats.md R36 to R44, spec/05_lane_instructions.md R89 to R92). -/

namespace Sys2Proof.Machine

/-- The rounding mode in force: that of a `hint.rnd` with MV = 1, else `.rne` (R36, R78). -/
def UnitSt.mode (u : UnitSt) : Nat :=
  match u.rnd with
  | some r => match r.mode with | some m => m.toNat | none => rne
  | none => rne

/-- Saturation in force: that of a `hint.rnd` with SV = 1, else the instruction's own (R38, R78). -/
def UnitSt.sat (u : UnitSt) (own : Bool) : Bool :=
  match u.rnd with
  | some r => r.sat.getD own
  | none => own

/-- Whether saturation comes from a `hint.rnd` with SV = 1 (R54 case 4). -/
def UnitSt.satHint (u : UnitSt) : Bool :=
  match u.rnd with
  | some r => r.sat.isSome
  | none => false

def UnitSt.modeHint (u : UnitSt) : Bool :=
  match u.rnd with
  | some r => r.mode.isSome
  | none => false

/-- Every mode, and the modes that integer and DL8 destinations accept (R37). -/
def allModes : List Nat := [rne, rz, rdn, rup, rodd, rsto]
def intModes : List Nat := [rne, rz, rdn, rup]
def dl8Modes : List Nat := [rne, rz, rdn, rup, rsto]
/-- `xred` and `xscan` refuse `.rodd` and `.rsto` (R125). -/
def redModes : List Nat := [rne, rz, rdn, rup]

/-- Flags an instruction raises are ORed into `ctl.fflags` (R39, R89). -/
def Env.orFlags (e : Env) (f : BitVec 5) : Env := { e with t := { e.t with fflags := e.t.fflags ||| f } }

/-- An immediate of `w` bits, widened by a `hint.imm` (R78). -/
def UnitSt.immediate (u : UnitSt) (w field : Nat) : Int :=
  match u.imm with
  | some hi => sextInt (hi.toNat * 2 ^ w + field) (24 + w)
  | none => sextInt field w

/-- A draw of lane l: key is the thread's global index, ctr its draw counter (R41, R42). `k` is how many draws the
instruction took in the lane before. -/
def Env.draw (e : Env) (l k : Nat) : Nat :=
  srDraw e.c.seed.toNat (globalThread e.c e.t l) ((e.t.thread l).draws.toNat + k)

/-- The draw counters of the acting lanes, advanced by `n` (R40, R42). -/
def Env.tookDraws (e : Env) (m : Mask) (n : Nat) : Env :=
  if n = 0 then e else { e with t := e.t.modThreads m (fun _ x => { x with draws := x.draws + BitVec.ofNat 64 n }) }

/-! ### Types of the float field FT (R91) -/

/-- The element format of a type code, and how many elements a register holds. -/
def ftFmt (code : Nat) : Fmt := match code with | 1 => fmtFp16 | 2 => fmtBf16 | _ => fmtFp32
def ftCount (code : Nat) : Nat := if code = 0 then 1 else 2
/-- Element h of a lane value. -/
def ftBits (code : Nat) (w : Word) (h : Nat) : Nat := if code = 0 then w.toNat else bitsOf w.toNat (16 * h) 16
/-- A lane value from its elements. -/
def ftJoin (code : Nat) (xs : List Nat) : Word :=
  if code = 0 then BitVec.ofNat 32 (xs.getD 0 0) else BitVec.ofNat 32 (xs.getD 0 0 + 2 ^ 16 * xs.getD 1 0)

end Sys2Proof.Machine
end

