-- ==== Sys2Proof/Machine/Operands.lean ====
section
/-! DEFINITION. What every instruction word shares: the issuing strand, the checks made when it issues, the registers it
waits for, its effective lane mask, its operand forms, and how its results are written (spec/04_encoding_and_assembly.md
R71 to R81, spec/05_lane_instructions.md R88 to R93, spec/03_registers_and_value_naming.md R49 to R63,
spec/08_memory_model.md R186, R187). -/

namespace Sys2Proof.Machine

/-! ### What an instruction declares -/

/-- How `rep` may step an instruction (R79, R80): not at all, all three register fields, all but vb, or those and imm9. -/
inductive RepKind where
  | no | rr | ri | mem
  deriving DecidableEq, Repr

/-- What an instruction declares of itself. `modes` lists the rounding modes it accepts, and is empty when it names no
rounding mode; `sat` says that it names saturation; `imm` that `hint.imm` applies to it; `off` is the offset field of a MEM word; `lazy` that it
reads no operand when its effective lane mask is empty (R237, R258); `names` lists the registers that it names and that are read or
written only later, if at all (R49); `bitM` says that its ILLEGAL names its lowest acting lane (R244). The last four say where it may
issue: a walker strand (R364), a trap handler (R427), a lane with an open transaction (R192), an idempotent region
(R344). -/
structure Req where
  instr   : Instr
  pg      : Nat := 0
  reads   : List Nat := []
  writes  : List Nat := []
  preads  : List Nat := []
  pwrites : List Nat := []
  imm     : Bool := false
  modes   : List Nat := []
  sat     : Bool := false
  rep     : RepKind := .no
  off     : Option (BitVec 9) := none
  lazy    : Bool := false
  names   : List Nat := []
  bitM    : Bool := false
  walker  : Bool := false
  handler : Bool := true
  tx      : Bool := true
  idem    : Bool := true
  deriving DecidableEq, Repr

/-! ### The issuing strand -/

/-- Whether a frozen context keeps a strand from starting an issue unit (R440). -/
def Env.frozenOut (e : Env) : Bool := !e.c.walker && (e.s.ctx e.c.ctx).frozen && !e.t.midUnit

/-- The context of a walker strand is that of its walk (R363). -/
def Env.ofWalk (e : Env) : Env :=
  if e.c.walker then
    match (e.s.core e.c.core).walks.find? (fun w => w.num = e.t.idx) with
    | some w => { e with c := { e.c with ctx := w.ctx } }
    | none => e
  else e

/-- Whether a strand may issue a word now (R135, R328, R440). -/
def Env.mayIssue (e : Env) : Bool :=
  e.c.state = .resident && !e.c.leaving && !e.t.ended && !e.frozenOut && decide (e.t.group &&& e.t.runnable ≠ 0)

/-- The strand that issues, seen as an instruction acts on it. -/
def State.issuer (s : State) : Option Env :=
  match s.env? s.cur.crew s.cur.strand with
  | some e => if e.mayIssue then some e.ofWalk else none
  | none => none

/-! ### The effective lane mask (R54, R72, R432) -/

/-- The guard's lanes: every lane when pg is 0. -/
def Strand.guard (t : Strand) (pg : Nat) : Mask := if pg = 0 then 0xFF else t.pred pg

/-- The lanes that a partial re-issue leaves to the unit at the group's address; all of them otherwise, and in a handler. -/
def Strand.partLanes (t : Strand) : Mask :=
  match t.partMask with
  | some (pc, m) => if pc = t.unitPc && !t.inHandler then m else 0xFF
  | none => 0xFF

/-- The guard, the current PC group, and in a partial re-issue the faulting lanes. -/
def Req.mask (r : Req) (t : Strand) : Mask := t.guard r.pg &&& t.group &&& t.partLanes

/-! ### Issue checks (R49, R74, R78, R80, R192, R344, R364, R427) -/

/-- What the word alone makes illegal (R49, R74). -/
def staticIllegal (i : Instr) : Bool := !i.wellFormed

/-- The opcode class of an instruction word: its top four bits (R71). -/
def Instr.opClass (i : Instr) : Nat := (encodeNat i).getD 0 / 2 ^ 28 % 16

/-- A `hint.rnd` applies to no instruction of classes 0x5 to 0xD that names no rounding mode, whatever the prefix overrides (R154,
R237, R258, R294, R366). -/
def Req.rndRefused (r : Req) (u : UnitSt) : Bool := u.rnd.isSome && r.modes.isEmpty && decide (5 ≤ Instr.opClass r.instr)

/-- A prefix that cannot apply to the target, or a second one of its kind (R76, R78, R80). -/
def Req.prefixBad (r : Req) (u : UnitSt) : Bool :=
  u.dup || (u.imm.isSome && !r.imm) || r.rndRefused u
    || (match r.modes with | [] => u.modeHint | ms => !ms.contains u.mode)
    || (u.satHint && !r.sat)
    || (match u.rep with
        | none => false
        | some p => match r.rep with
          | .no => true
          | .rr => p.soff ≠ 0
          | .ri => p.soff ≠ 0 || p.sb ≠ 0
          | .mem => p.sb ≠ 0)

/-- A lane of the mask with a transaction begun and not ended (R192). -/
def Strand.txOpen (t : Strand) (m : Mask) : Bool := (lanesOf m).any (fun l => (t.thread l).tx.open)

/-- The offset of a MEM word in units (R197), with a `rep`'s step (R80); none when it leaves its range. -/
def memOff (u : UnitSt) (imm9 : BitVec 9) : Option Int :=
  let base := u.immediate 9 imm9.toNat
  let off := match u.rep with | some r => base + r.iter * r.soff | none => base
  let lim : Int := match u.imm with | some _ => 2 ^ 32 | none => 256
  if -lim ≤ off && off < lim then some off else none

/-- A MEM word whose stepped offset leaves its range (R80). -/
def Req.offBad (r : Req) (u : UnitSt) : Bool := match r.off with | some i => (memOff u i).isNone | none => false

/-- Every ILLEGAL check that does not depend on the instruction's own entry. -/
def Req.illegal (r : Req) (e : Env) : Bool :=
  staticIllegal r.instr || (r.names ++ r.reads ++ r.writes).any (fun v => decide (e.t.regs.length ≤ v)) || r.prefixBad e.t.unit || r.offBad e.t.unit
    || (e.t.inHandler && !r.handler) || (!r.tx && e.t.txOpen (r.mask e.t)) || (e.c.region && !r.idem) || (e.c.walker && !r.walker)

/-! ### Waiting for results in flight (R187, R294) -/

/-- An operation in flight that writes the guard. -/
def Req.guardedBy (r : Req) (p : Pending) : Bool := r.pg ≠ 0 && p.pdst = some r.pg

/-- An operation in flight whose registers or predicate the instruction touches. -/
def Req.needs (r : Req) (p : Pending) : Bool :=
  p.dsts.any (fun v => r.reads.contains v || r.writes.contains v) || r.guardedBy p
    || (match p.pdst with
        | some k => r.preads.contains k || r.pwrites.contains k
        | none => false)

/-- Whether any such operation has not delivered yet. -/
def Req.blocked (r : Req) (t : Strand) : Bool := t.inflight.any (fun p => !p.done && r.needs p)

/-- The operations waited for, performed as far as they can be. -/
def Req.ready (r : Req) (e : Env) : Env := if r.blocked e.t then e.settle r.needs else e

/-- A source register whose location holds an uncorrectable error (R68). -/
def Req.sourceBad (r : Req) (t : Strand) : Bool := r.reads.any (fun v => (t.reg v).bad)

/-! ### Issuing -/

/-- The ILLEGAL trap of the current group (R74). -/
def Env.illegal (e : Env) : Res := .trap e (.plain cILLEGAL e.t.group) false

/-- The lanes that an instruction's ILLEGAL names at issue: the current group, or its lowest acting lane (R244). -/
def Req.illegalMask (r : Req) (t : Strand) : Mask :=
  if r.bitM && r.mask t ≠ 0 then laneBit (lowLane (r.mask t)) else t.group

/-- The ILLEGAL trap of an instruction at issue (R74). -/
def Req.refuse (r : Req) (e : Env) : Res := .trap e (.plain cILLEGAL (r.illegalMask e.t)) false

/-- Whether an operation in flight is still to write the guard. -/
def Req.guardPending (r : Req) (t : Strand) : Bool := t.inflight.any (fun p => !p.done && r.guardedBy p)

/-- The guard as it is read at issue: an instruction whose guard an operation in flight will write waits for it (R72, R294). -/
def Req.guardReady (r : Req) (e : Env) : Env := if r.guardPending e.t then e.settle r.guardedBy else e

def Req.awaitGuard (r : Req) (e : Env) (go : Env → Res) : Res :=
  if r.guardPending (r.guardReady e).t then .hold (r.guardReady e) else go (r.guardReady e)

/-- An instruction that reads no operand, because no lane acts (R237, R258). -/
def Req.idle (r : Req) (e : Env) : Bool := r.lazy && decide (r.mask e.t = 0)

/-- The strand with an instruction's operands there: the results in flight that it waits for have arrived (R187) and its source registers
are sound (R68); else what its issue comes to. -/
def Req.gather (r : Req) (e : Env) : Except Res Env :=
  let e1 := r.ready e
  if r.blocked e1.t then .error (.hold e1)
  else if r.sourceBad e1.t then .error (.trap (e1.via (fun s => s.consumeUe e.c.ctx (2 ^ 90))) (.plain cECC e.t.group) false)
  else .ok e1

/-- One issue of a word: its guard, its checks, the results it waits for, and then its body under the effective lane mask. -/
def Req.run (r : Req) (e : Env) (body : Env → Mask → Res) : Res :=
  r.awaitGuard e (fun e =>
    if r.illegal e then r.refuse e
    else if r.idle e then body e 0
    else match r.gather e with
      | .error x => x
      | .ok e1 => body e1 (r.mask e1.t))

/-- The machine after an issue. -/
def Res.finish (x : Res) : State :=
  match x with
  | .done e => (e.endUnit false).commit
  | .moved e => (e.endUnit true).commit
  | .ovr e => e.commit
  | .hold e => e.commit
  | .trap e t part => e.takeTrap t part none

/-- The machine after an issue that `after` follows; nothing follows a hold or a trap. -/
def Res.finishThen (x : Res) (after : State → State) : State :=
  match x with
  | .done e => after (Res.done e).finish
  | .moved e => after (Res.moved e).finish
  | .ovr e => after (Res.ovr e).finish
  | .hold e => (Res.hold e).finish
  | .trap e t part => (Res.trap e t part).finish

/-- The meaning of a word whose issue is followed by `after`, told the issuing crew. -/
def issueThen (r : Req) (after : Nat → State → State) (body : Env → Mask → Res) (s : State) : Host.Outcome State Fault Refusal :=
  match s.issuer with
  | none => .fault .noStrand
  | some e => .next ((r.run e body).finishThen (after e.c.id))

/-- The meaning of a word. -/
def issue (r : Req) (body : Env → Mask → Res) (s : State) : Host.Outcome State Fault Refusal :=
  issueThen r (fun _ s => s) body s

/-! ### Writing results (R54, R60 to R63, R88) -/

/-- Result tags of R54 case 3: uniform when every vector source is. -/
def tag3 (ts : List Tag) : Tag := if ts.all (fun t => t = .uniform) then .uniform else .general

/-- Case 4 for sums: affine when every source is affine or uniform (case 3 is taken first). -/
def tag4 (ts : List Tag) : Tag :=
  if ts.all (fun t => t = .uniform) then .uniform
  else if ts.all (fun t => t ≠ .general) then .affine
  else .general

/-- Case 4 for products and shifts: affine by uniform. -/
def tagScale (a b : Tag) : Tag :=
  if a = .uniform && b = .uniform then .uniform
  else if (a = .uniform && b = .affine) || (a = .affine && b = .uniform) then .affine
  else .general

/-- A result register: the lanes of the mask take `f`, the others keep theirs; a mask that is not full makes it general
(R54 case 1, R88). -/
def Strand.result (t : Strand) (m : Mask) (tag : Tag) (d : Nat) (f : Nat → Word) : Put :=
  { d := d, tag := if m = 0xFF then tag else .general,
    vals := (t.reg d).lanes.mapi (fun l o => if laneOn m l then f l else o) }

/-- A 64-bit result: even half first (R60). -/
def Strand.result64 (t : Strand) (m : Mask) (lo hi : Tag) (d : Nat) (f : Nat → Nat) : List Put :=
  [t.result m lo d (fun l => BitVec.ofNat 32 (f l)), t.result m hi (d + 1) (fun l => BitVec.ofNat 32 (f l / 2 ^ 32))]

/-- Every encoding bit but vd (R61). -/
def keyWord (i : Instr) : Word :=
  let w := ((encodeNat i).getD 0) % 2 ^ 32
  BitVec.ofNat 32 (w - w / 2 ^ 18 % 64 * 2 ^ 18)

/-- The `hint.rnd` override in force, if any. -/
def UnitSt.override (u : UnitSt) : Option RndSt :=
  match u.rnd with
  | some r => if r.mode.isNone && r.sat.isNone then none else some r
  | none => none

/-- The key of an instruction's value-table entry (R61, R64). -/
def Req.key (r : Req) (e : Env) (m : Mask) (xgen : Word) (load : List Nat) : VKey :=
  { word := keyWord r.instr, imm := e.t.unit.imm, rnd := e.t.unit.override, srcs := r.reads.map (fun v => (e.t.reg v).loc), mask := m,
    old := if m = 0xFF then [] else r.writes.map (fun v => (e.t.reg v).loc), xgen := xgen, load := load }

/-- Results of an instruction, with its flags, looked up and inserted when it is eligible (R62, R88, R89). -/
def Req.give (r : Req) (e : Env) (m : Mask) (eligible : Bool) (xgen : Word) (flags : BitVec 5) (ps : List Put) : Res :=
  let keyed := eligible && e.c.naming
  if m = 0 then .done (if keyed then e.lookEmpty (r.key e m xgen []) r.writes else e)
  else
    let e1 := e.orFlags flags
    .done (if keyed then e1.putKeyed (r.key e m xgen []) flags ps else e1.puts true ps)

/-- An eligible instruction's results without flags. -/
def Req.put (r : Req) (e : Env) (m : Mask) (ps : List Put) : Res := r.give e m true 0 0 ps

/-- Bits of a predicate in the lanes of the mask (R119). -/
def Env.putPred (e : Env) (m : Mask) (p : Nat) (f : Nat → Bool) : Env := { e with t := e.t.mergePred p m (maskOf f) }

/-! ### Operand forms -/

/-- A register field, or the pair it names (R49). -/
def regs1 (v : BitVec 6) : List Nat := [v.toNat]
def regs2 (v : BitVec 6) : List Nat := [v.toNat, v.toNat + 1]
def regsW (wide : Bool) (v : BitVec 6) : List Nat := if wide then regs2 v else regs1 v
/-- The predicate that an operation writes when it completes: a pd of p0 is discarded (R50, R294). -/
def predDst (p : BitVec 3) : Option Nat := if p = 0 then none else some p.toNat

/-- A run of `n` registers (R257). -/
def regsRun (v : BitVec 6) (n : Nat) : List Nat := (List.range n).map (fun k => v.toNat + k)

/-- An integer operand under U (R88). -/
def opndInt (t : Strand) (wide unsigned : Bool) (v l : Nat) : Int :=
  let x := t.opnd wide v l
  if unsigned then (x : Int) else sextInt x (if wide then 64 else 32)

/-- The address of lane l of a global access (R197). -/
def Strand.ea (t : Strand) (a : Nat) (off : Int) (unit l : Nat) : Nat := wrapNat ((t.lane64 a l).toNat + off * unit) 64

/-- The local-buffer address of lane l (R197). -/
def Strand.eaLocal (t : Strand) (a : Nat) (off : Int) (l : Nat) : Nat := wrapNat ((t.lane a l).toNat + off * 4) 32

/-! ### Counters (R185, R186) -/

/-- Whether one more operation of a counter would raise it to 63. -/
def Strand.full (t : Strand) (k : Ctr) : Bool := decide (62 ≤ (t.inflight.filter (fun p => p.ctr = k)).length)

/-- Room made in a counter by performing its oldest operations; the issue holds when there is still none (R186). -/
def Env.makeRoom (e : Env) (k : Ctr) : Env :=
  if e.t.full k then
    match e.t.inflight.find? (fun p => p.ctr = k) with
    | some q => e.settle (fun p => p.id = q.id)
    | none => e
  else e

/-- An operation issues on a counter that has room, else its group holds. -/
def Env.start (e : Env) (k : Ctr) (dsts : List Nat) (pdst : Option Nat) (kind : OpKind) (srcs : List Nat := []) : Res :=
  let e1 := e.makeRoom k
  if e1.t.full k then .hold e1
  else .done { e1 with t := e1.t.addOp k dsts pdst e1.t.unitPc kind srcs }

end Sys2Proof.Machine
end

