-- ==== Sys2Proof/Machine/Integer.lean ====
section
/-! DEFINITION. Class 0x0, the integer register instructions (spec/05_lane_instructions.md R94 to R104). -/

namespace Sys2Proof.Machine

/-! ### Shared forms -/

/-- A 32-bit word from an exact integer: its low bits (R88). -/
def word32 (x : Int) : Word := BitVec.ofNat 32 (wrapNat x 32)

/-- An exact result brought to w bits: saturated or wrapped (R90, R95). -/
def narrow (sat unsigned wide : Bool) (x : Int) : Nat :=
  let w := if wide then 64 else 32
  wrapNat (if sat then (if unsigned then satU x w else satS x w) else x) w

/-- Tags of the registers an instruction names. -/
def Strand.tags (t : Strand) (vs : List Nat) : List Tag := vs.map (fun v => (t.reg v).tag)

/-- The result of a 32- or 64-bit form (R88): `tag` is that of a 32-bit result; the halves of a 64-bit one are uniform
when every source is, else general (R93). -/
def Req.giveInt (r : Req) (e : Env) (m : Mask) (wide : Bool) (tag : Tag) (d : Nat) (f : Nat → Nat) : Res :=
  let t3 := tag3 (e.t.tags r.reads)
  r.put e m (if wide then e.t.result64 m t3 t3 d f else [e.t.result m tag d (fun l => BitVec.ofNat 32 (f l))])

/-- `add`, `sub` and `mul` (R95): the exact operation, saturated or wrapped. `wrapTag` is the tag of a wrapping 32-bit form
(R54 case 4). -/
def intArith (i : Instr) (d a b : BitVec 6) (f g : BitVec 3) (op : Int → Int → Int) (wrapTag : Tag → Tag → Tag) (s : State) :
    Host.Outcome State Fault Refusal :=
  let wide := f.getLsbD 1
  let uns := f.getLsbD 0
  let r : Req := { instr := i, pg := g.toNat, reads := regsW wide a ++ regsW wide b, writes := regsW wide d, sat := true, rep := .rr,
                   walker := true }
  issue r (fun e m =>
    let sat := e.t.unit.sat (f.getLsbD 2)
    let tag := if sat then tag3 (e.t.tags r.reads) else wrapTag (e.t.reg a.toNat).tag (e.t.reg b.toNat).tag
    r.giveInt e m wide tag d.toNat (fun l =>
      narrow sat uns wide (op (opndInt e.t wide uns a.toNat l) (opndInt e.t wide uns b.toNat l)))) s

/-- Two-operand forms of 32 or 64 bits that neither saturate nor keep an affine tag: `f` gives the result's bits. -/
def intBinary (i : Instr) (d a b : BitVec 6) (wide : Bool) (g : BitVec 3) (f : Strand → Nat → Nat) (s : State) :
    Host.Outcome State Fault Refusal :=
  let r : Req := { instr := i, pg := g.toNat, reads := regsW wide a ++ regsW wide b, writes := regsW wide d, rep := .rr, walker := true }
  issue r (fun e m => r.giveInt e m wide (tag3 (e.t.tags r.reads)) d.toNat (f e.t)) s

/-- One-operand 32-bit forms: `sat` says that the form names saturation, `aff` that a wrapping form keeps an affine tag
(R54 case 4), and `f` gives the result from whether saturation is in force. -/
def intUnary (i : Instr) (d a : BitVec 6) (g : BitVec 3) (sat aff : Bool) (f : Bool → Word → Word) (s : State) :
    Host.Outcome State Fault Refusal :=
  let r : Req := { instr := i, pg := g.toNat, reads := regs1 a, writes := regs1 d, sat := sat, rep := .rr, walker := true }
  issue r (fun e m =>
    let sv := sat && e.t.unit.sat false
    let tag := if aff && !sv then (e.t.reg a.toNat).tag else tag3 (e.t.tags r.reads)
    r.put e m [e.t.result m tag d.toNat (fun l => f sv (e.t.lane a.toNat l))]) s

/-- The unguarded three-operand forms (RQ). -/
def intTernary (i : Instr) (d a b c : BitVec 6) (sat : Bool) (f : Bool → Word → Word → Word → Word) (s : State) :
    Host.Outcome State Fault Refusal :=
  let r : Req := { instr := i, reads := regs1 a ++ regs1 b ++ regs1 c, writes := regs1 d, sat := sat, rep := .rr, walker := true }
  issue r (fun e m =>
    let sv := sat && e.t.unit.sat false
    r.put e m [e.t.result m (tag3 (e.t.tags r.reads)) d.toNat
      (fun l => f sv (e.t.lane a.toNat l) (e.t.lane b.toNat l) (e.t.lane c.toNat l))]) s

/-! ### Values -/

/-- A word as a signed integer. -/
def sgn (x : Word) : Int := sextInt x.toNat 32

/-- Shifts and the rotate by an amount n (R101). -/
def shlWord (x : Word) (n : Nat) : Word := if 32 ≤ n then 0 else x <<< n
def shrWord (x : Word) (n : Nat) : Word := if 32 ≤ n then 0 else x >>> n
def sarWord (x : Word) (n : Nat) : Word := x.sshiftRight (min n 31)
def rotWord (x : Word) (n : Nat) : Word := x.rotateLeft (n % 32)

/-- |a| and −a, clamped when saturation is in force (R99). -/
def absWord (sat : Bool) (x : Word) : Word := word32 (if sat then satS (sgn x).natAbs 32 else (sgn x).natAbs)
def negWord (sat : Bool) (x : Word) : Word := word32 (if sat then satS (-(sgn x)) 32 else -(sgn x))

/-- Leading zero bits (R99). -/
def clzWord (x : Word) : Word := if x = 0 then 32 else BitVec.ofNat 32 (31 - Nat.log2 x.toNat)

/-- One bits (R99). -/
def popcWord (x : Word) : Word := BitVec.ofNat 32 ((List.range 32).filter (fun i => x.getLsbD i)).length

/-- Bits in reverse order (R99). -/
def brevWord (x : Word) : Word :=
  BitVec.ofNat 32 ((List.range 32).foldl (fun a i => if x.getLsbD (31 - i) then a + 2 ^ i else a) 0)

/-- The field descriptor's position and length (R102). -/
def fieldPosn (desc : Word) : Nat := bitsOf desc.toNat 0 5
def fieldLen (desc : Word) : Nat := min (bitsOf desc.toNat 8 6) (32 - fieldPosn desc)

/-- `bfe` (R102). -/
def bfeWord (signed : Bool) (x desc : Word) : Word :=
  let n := fieldLen desc
  let v := bitsOf x.toNat (fieldPosn desc) n
  if n = 0 then 0 else if signed then word32 (sextInt v n) else BitVec.ofNat 32 v

/-- `bfi` (R102): the base with bits [pos+n−1:pos] replaced by the low bits of x. -/
def bfiWord (x base desc : Word) : Word :=
  let mask : Word := BitVec.ofNat 32 ((2 ^ fieldLen desc - 1) * 2 ^ fieldPosn desc)
  (base &&& ~~~mask) ||| ((x <<< fieldPosn desc) &&& mask)

/-- The condition codes of `icmp` (R103). -/
def icmpHolds (c : Nat) (x y : Int) : Bool :=
  match c with
  | 0 => x = y
  | 1 => x ≠ y
  | 2 => x < y
  | 3 => x ≤ y
  | 4 => y < x
  | _ => y ≤ x

/-! ### Meanings -/

def execAdd (d a b : BitVec 6) (f g : BitVec 3) (s : State) : Host.Outcome State Fault Refusal :=
  intArith (.add d a b f g) d a b f g (fun x y => x + y) (fun x y => tag4 [x, y]) s

def execSub (d a b : BitVec 6) (f g : BitVec 3) (s : State) : Host.Outcome State Fault Refusal :=
  intArith (.sub d a b f g) d a b f g (fun x y => x - y) (fun x y => tag4 [x, y]) s

def execMul (d a b : BitVec 6) (f g : BitVec 3) (s : State) : Host.Outcome State Fault Refusal :=
  intArith (.mul d a b f g) d a b f g (fun x y => x * y) tagScale s

/-- The high half of the exact product (R95); f is (W, U). -/
def execMulhi (d a b : BitVec 6) (f : BitVec 2) (g : BitVec 3) (s : State) : Host.Outcome State Fault Refusal :=
  let wide := f.getLsbD 1
  let uns := f.getLsbD 0
  intBinary (.mulhi d a b f g) d a b wide g (fun t l =>
    let w := if wide then 64 else 32
    wrapNat ((opndInt t wide uns a.toNat l * opndInt t wide uns b.toNat l) / 2 ^ w) w) s

def execMad (d a b c : BitVec 6) (s : State) : Host.Outcome State Fault Refusal :=
  intTernary (.mad d a b c) d a b c true (fun sat x y z =>
    let v := sgn x * sgn y + sgn z
    word32 (if sat then satS v 32 else v)) s

/-- The smaller of the operands (R97); f is (W, U). -/
def execMin (d a b : BitVec 6) (f : BitVec 2) (g : BitVec 3) (s : State) : Host.Outcome State Fault Refusal :=
  let wide := f.getLsbD 1
  let uns := f.getLsbD 0
  intBinary (.min d a b f g) d a b wide g (fun t l =>
    wrapNat (min (opndInt t wide uns a.toNat l) (opndInt t wide uns b.toNat l)) (if wide then 64 else 32)) s

def execMax (d a b : BitVec 6) (f : BitVec 2) (g : BitVec 3) (s : State) : Host.Outcome State Fault Refusal :=
  let wide := f.getLsbD 1
  let uns := f.getLsbD 0
  intBinary (.max d a b f g) d a b wide g (fun t l =>
    wrapNat (max (opndInt t wide uns a.toNat l) (opndInt t wide uns b.toNat l)) (if wide then 64 else 32)) s

/-- `lea` (R98); its tag is R54's case 4 for an affine and a uniform source. -/
def execLea (d a b : BitVec 6) (sh g : BitVec 3) (s : State) : Host.Outcome State Fault Refusal :=
  let r : Req := { instr := .lea d a b sh g, pg := g.toNat, reads := regs1 a ++ regs1 b, writes := regs1 d, rep := .rr, walker := true }
  issue r (fun e m =>
    r.put e m [e.t.result m (tagScale (e.t.reg a.toNat).tag (e.t.reg b.toNat).tag) d.toNat
      (fun l => BitVec.ofNat 32 ((e.t.lane a.toNat l).toNat + (e.t.lane b.toNat l).toNat * 2 ^ sh.toNat))]) s

def execAbs (d a : BitVec 6) (g : BitVec 3) (s : State) : Host.Outcome State Fault Refusal :=
  intUnary (.abs d a g) d a g true false absWord s

def execNeg (d a : BitVec 6) (g : BitVec 3) (s : State) : Host.Outcome State Fault Refusal :=
  intUnary (.neg d a g) d a g true true negWord s

def execNot (d a : BitVec 6) (g : BitVec 3) (s : State) : Host.Outcome State Fault Refusal :=
  intUnary (.not d a g) d a g false false (fun _ x => ~~~x) s

def execClz (d a : BitVec 6) (g : BitVec 3) (s : State) : Host.Outcome State Fault Refusal :=
  intUnary (.clz d a g) d a g false false (fun _ x => clzWord x) s

def execPopc (d a : BitVec 6) (g : BitVec 3) (s : State) : Host.Outcome State Fault Refusal :=
  intUnary (.popc d a g) d a g false false (fun _ x => popcWord x) s

def execBrev (d a : BitVec 6) (g : BitVec 3) (s : State) : Host.Outcome State Fault Refusal :=
  intUnary (.brev d a g) d a g false false (fun _ x => brevWord x) s

/-- A bitwise operation of 32 or 64 bits (R100). -/
def logicForm (i : Instr) (d a b : BitVec 6) (w : BitVec 1) (g : BitVec 3) (f : Nat → Nat → Nat) (s : State) :
    Host.Outcome State Fault Refusal :=
  intBinary i d a b (w = 1) g (fun t l => f (t.opnd (w = 1) a.toNat l) (t.opnd (w = 1) b.toNat l)) s

def execAnd (d a b : BitVec 6) (w : BitVec 1) (g : BitVec 3) (s : State) : Host.Outcome State Fault Refusal :=
  logicForm (.and d a b w g) d a b w g (fun x y => x &&& y) s

def execOr (d a b : BitVec 6) (w : BitVec 1) (g : BitVec 3) (s : State) : Host.Outcome State Fault Refusal :=
  logicForm (.or d a b w g) d a b w g (fun x y => x ||| y) s

def execXor (d a b : BitVec 6) (w : BitVec 1) (g : BitVec 3) (s : State) : Host.Outcome State Fault Refusal :=
  logicForm (.xor d a b w g) d a b w g (fun x y => x ^^^ y) s

def execAndn (d a b : BitVec 6) (w : BitVec 1) (g : BitVec 3) (s : State) : Host.Outcome State Fault Refusal :=
  logicForm (.andn d a b w g) d a b w g (fun x y => x &&& (x ^^^ y)) s

/-- Shifts by a register amount (R101). `aff` is `shl`, which keeps an affine tag under a uniform amount. -/
def shiftForm (i : Instr) (d a b : BitVec 6) (g : BitVec 3) (aff : Bool) (f : Word → Nat → Word) (s : State) :
    Host.Outcome State Fault Refusal :=
  let r : Req := { instr := i, pg := g.toNat, reads := regs1 a ++ regs1 b, writes := regs1 d, rep := .rr, walker := true }
  issue r (fun e m =>
    let tag := if aff && (e.t.reg b.toNat).tag = .uniform then (e.t.reg a.toNat).tag else tag3 (e.t.tags r.reads)
    r.put e m [e.t.result m tag d.toNat (fun l => f (e.t.lane a.toNat l) (e.t.lane b.toNat l).toNat)]) s

def execShl (d a b : BitVec 6) (g : BitVec 3) (s : State) : Host.Outcome State Fault Refusal :=
  shiftForm (.shl d a b g) d a b g true shlWord s

def execShr (d a b : BitVec 6) (g : BitVec 3) (s : State) : Host.Outcome State Fault Refusal :=
  shiftForm (.shr d a b g) d a b g false shrWord s

def execSar (d a b : BitVec 6) (g : BitVec 3) (s : State) : Host.Outcome State Fault Refusal :=
  shiftForm (.sar d a b g) d a b g false sarWord s

def execRot (d a b : BitVec 6) (g : BitVec 3) (s : State) : Host.Outcome State Fault Refusal :=
  shiftForm (.rot d a b g) d a b g false rotWord s

def execBfe (d a b : BitVec 6) (sx : BitVec 1) (g : BitVec 3) (s : State) : Host.Outcome State Fault Refusal :=
  intBinary (.bfe d a b sx g) d a b false g (fun t l => (bfeWord (sx = 1) (t.lane a.toNat l) (t.lane b.toNat l)).toNat) s

def execBfi (d a b c : BitVec 6) (s : State) : Host.Outcome State Fault Refusal :=
  intTernary (.bfi d a b c) d a b c false (fun _ x y z => bfiWord x y z) s

/-- `icmp` (R103): W, U, pd and the condition. -/
def execIcmp (w u : BitVec 1) (p : BitVec 3) (a b : BitVec 6) (c g : BitVec 3) (s : State) : Host.Outcome State Fault Refusal :=
  let wide := w = 1
  let r : Req := { instr := .icmp w u p a b c g, pg := g.toNat, reads := regsW wide a ++ regsW wide b, pwrites := [p.toNat], rep := .rr,
                   walker := true }
  issue r (fun e m => .done (e.putPred m p.toNat (fun l =>
    icmpHolds c.toNat (opndInt e.t wide (u = 1) a.toNat l) (opndInt e.t wide (u = 1) b.toNat l)))) s

def execSel (d a b c : BitVec 6) (s : State) : Host.Outcome State Fault Refusal :=
  intTernary (.sel d a b c) d a b c false (fun _ x y z => if z ≠ 0 then x else y) s

/-- `mov` (R104): each half keeps its source's tag (R93). -/
def execMov (d a : BitVec 6) (w : BitVec 1) (g : BitVec 3) (s : State) : Host.Outcome State Fault Refusal :=
  let wide := w = 1
  let r : Req := { instr := .mov d a w g, pg := g.toNat, reads := regsW wide a, writes := regsW wide d, rep := .rr, walker := true }
  issue r (fun e m =>
    let half (k : Nat) : Put := e.t.result m (e.t.reg (a.toNat + k)).tag (d.toNat + k) (fun l => e.t.lane (a.toNat + k) l)
    r.put e m (if wide then [half 0, half 1] else [half 0])) s

end Sys2Proof.Machine
end

