-- ==== Sys2Proof/Machine/Transcend.lean ====
section
/-! DEFINITION. The functions of spec/05_lane_instructions.md R112 with values as exact as any rounding can tell. An
irrational value v is given as the number half way between floor(v × 2^k) and the next multiple of 2^−k: no bound of any
rounding of R36, and no threshold of a draw (R41), lies strictly between those two, so rounding the one is rounding the
other. The floor is taken from series worked out to 128 bits more (assumption 13). -/

namespace Sys2Proof.Machine

/-- Bits after the point of a result, and of the working precision. -/
def txK : Nat := 512
def txP : Nat := 640
def txOne : Nat := 2 ^ txP

/-- The number that stands for an irrational magnitude whose floor in units of 2^−k is `fl`. -/
def stickyNum (neg : Bool) (fl k : Nat) : Num := .fin neg (2 * fl + 1) (2 ^ (k + 1))

/-- floor(√x), one bit at a time from bit `n` − 1. -/
def isqrtAux (x : Nat) (n : Nat) (r : Nat) : Nat :=
  match n with
  | 0 => r
  | k + 1 => let c := r + 2 ^ k; isqrtAux x k (if c * c ≤ x then c else r)

def isqrt (x : Nat) : Nat := isqrtAux x (Nat.log2 x / 2 + 1) 0

/-- √(n/d) for a positive fraction. -/
def sqrtNum (n d : Nat) : Num :=
  let k := 256
  let s := isqrt (n * 4 ^ k / d)
  if s * s * d = n * 4 ^ k then .fin false s (2 ^ k) else stickyNum false s k

/-! ### Fixed-point series, in units of 2^−`txP` or of 1/`one` -/

/-- Σ z^(2i+1)/(2i+1), with signs alternating for the arctangent: `z` and its powers in units of 1/one. -/
def oddSeries (one z : Nat) (alternate : Bool) (terms : Nat) : Int :=
  let z2 := z * z / one
  ((List.range terms).foldl (fun (acc : Int × Nat) (i : Nat) =>
    let t : Int := ((acc.2 / (2 * i + 1) : Nat) : Int)
    (if alternate && i % 2 = 1 then acc.1 - t else acc.1 + t, acc.2 * z2 / one)) ((0 : Int), z)).1

/-- π in units of 1/one (Machin's formula). -/
def piFixed (one : Nat) : Nat :=
  (16 * oddSeries one (one / 5) true 180 - 4 * oddSeries one (one / 239) true 60).toNat

/-- ln 2 in units of 2^−txP. -/
def ln2Fixed : Nat := (2 * oddSeries txOne (txOne / 3) false 210).toNat

/-- e^y for 0 ≤ y < 1. -/
def expFixed (y : Nat) : Nat :=
  ((List.range 150).foldl (fun (acc : Nat × Nat) i => (acc.1 + acc.2, acc.2 * y / txOne / (i + 1))) (0, txOne)).1

/-- sin y and cos y for 0 ≤ y ≤ π/2. -/
def sinFixed (y : Nat) : Int :=
  let y2 := y * y / txOne
  ((List.range 80).foldl (fun (acc : Int × Nat) (i : Nat) =>
    (if i % 2 = 1 then acc.1 - (acc.2 : Int) else acc.1 + (acc.2 : Int), acc.2 * y2 / txOne / ((2 * i + 2) * (2 * i + 3)))) ((0 : Int), y)).1

def cosFixed (y : Nat) : Int :=
  let y2 := y * y / txOne
  ((List.range 80).foldl (fun (acc : Int × Nat) (i : Nat) =>
    (if i % 2 = 1 then acc.1 - (acc.2 : Int) else acc.1 + (acc.2 : Int), acc.2 * y2 / txOne / ((2 * i + 1) * (2 * i + 2)))) ((0 : Int), txOne)).1

/-- A fixed-point value cut to its floor in units of 2^−txK. -/
def cutFixed (x : Int) : Nat := (x / (2 ^ (txP - txK) : Nat)).toNat

/-! ### The functions on finite operands -/

/-- 2^x for a finite x. -/
def exp2Num (neg : Bool) (n d : Nat) : Num :=
  let fl := floorNum neg n d
  let sh : Int := max (-4096) (min 4096 fl)
  if n % d = 0 then Num.scaled false 1 sh
  else
    -- the fraction of x, exactly: its denominator is a power of two
    let x : Int := if neg then -(n : Int) else n
    let fr : Nat := (x - fl * d).toNat
    let r := fr * txOne / d
    let v := cutFixed (expFixed (r * ln2Fixed / txOne))
    match Num.scaled false 1 sh with
    | .fin _ a b => .fin false ((2 * v + 1) * a) (2 ^ (txK + 1) * b)
    | y => y

/-- log2(x) for a finite x > 0. -/
def log2Num (n d : Nat) : Num :=
  -- log2 of a fraction of at least 1; below 1 it is that of its inverse, negated
  let big := d ≤ n
  let a := if big then n else d
  let b := if big then d else n
  let e := (floorLog2 a b).toNat
  let m := b * 2 ^ e
  if a = m then .fin (!big && e ≠ 0) e 1
  else
    let z := (a - m) * txOne / (a + m)
    let lnm := (2 * oddSeries txOne z false 210).toNat
    let v : Int := e * txOne + lnm * txOne / ln2Fixed
    stickyNum (!big) (cutFixed v) txK

/-- sin x or cos x for a finite non-zero x = n/d. -/
def sinCosNum (cosine neg : Bool) (n d : Nat) : Num :=
  let wide := txOne * 2 ^ 160
  let pi := piFixed wide
  let half := pi / 2
  -- x and π/2 in units of 1/wide; FP operands are exact there
  let x := n * wide / d
  let q := x / half
  let y := (x % half) / 2 ^ 160
  let k := if cosine then q % 4 + 1 else q % 4
  let v := if k % 2 = 0 then sinFixed y else cosFixed y
  let minus := (k / 2) % 2 = 1
  stickyNum (if cosine then minus else minus != neg) (cutFixed v) txK

/-! ### With the special operands of R112 -/

def fnSqrt (x : Num) : Exact :=
  match x with
  | .nan _ => Exact.nan false [x]
  | .inf neg => if neg then Exact.nan true [] else { val := .inf false, flags := 0 }
  | .fin neg n d => if n = 0 then { val := Num.zero neg, flags := 0 } else if neg then Exact.nan true [] else { val := sqrtNum n d, flags := 0 }

def fnRcp (x : Num) : Exact :=
  match x with
  | .nan _ => Exact.nan false [x]
  | .inf neg => { val := Num.zero neg, flags := 0 }
  | .fin neg n d => if n = 0 then { val := .inf neg, flags := flagDZ } else { val := .fin neg d n, flags := 0 }

def fnRsqrt (x : Num) : Exact :=
  match x with
  | .nan _ => Exact.nan false [x]
  | .inf neg => if neg then Exact.nan true [] else { val := Num.zero false, flags := 0 }
  | .fin neg n d => if n = 0 then { val := .inf neg, flags := flagDZ } else if neg then Exact.nan true [] else { val := sqrtNum d n, flags := 0 }

def fnExp2 (x : Num) : Exact :=
  match x with
  | .nan _ => Exact.nan false [x]
  | .inf neg => { val := if neg then Num.zero false else .inf false, flags := 0 }
  | .fin neg n d => { val := exp2Num neg n d, flags := 0 }

def fnLog2 (x : Num) : Exact :=
  match x with
  | .nan _ => Exact.nan false [x]
  | .inf neg => if neg then Exact.nan true [] else { val := .inf false, flags := 0 }
  | .fin neg n d => if n = 0 then { val := .inf true, flags := flagDZ } else if neg then Exact.nan true [] else { val := log2Num n d, flags := 0 }

def fnSin (x : Num) : Exact :=
  match x with
  | .nan _ => Exact.nan false [x]
  | .inf _ => Exact.nan true []
  | .fin neg n d => if n = 0 then { val := Num.zero neg, flags := 0 } else { val := sinCosNum false neg n d, flags := 0 }

def fnCos (x : Num) : Exact :=
  match x with
  | .nan _ => Exact.nan false [x]
  | .inf _ => Exact.nan true []
  | .fin neg n d => if n = 0 then { val := .fin false 1 1, flags := 0 } else { val := sinCosNum true neg n d, flags := 0 }

end Sys2Proof.Machine
end

