-- ==== Sys2Proof/Machine/Float.lean ====
section
/-! DEFINITION. Class 0x2, the floating-point instructions (spec/05_lane_instructions.md R107 to R114). -/

namespace Sys2Proof.Machine

/-! ### Shared forms -/

/-- What a rounding instruction does to one register of elements: `cnt` elements a lane, joined by `join`; `elem` gives
element h of lane l from the mode and saturation in force and the element's draw; `stoch` says in which modes it is a
stochastic operation (R40, R89, R91, R93). -/
def roundForm (r : Req) (d : BitVec 6) (cnt : Nat) (join : List Nat → Word) (own : Bool) (stoch : Nat → Bool)
    (elem : Strand → Nat → Bool → Nat → Nat → Nat → Rounded) (s : State) : Host.Outcome State Fault Refusal :=
  issue r (fun e m =>
    let mode := e.t.unit.mode
    let sat := e.t.unit.sat own
    let st := stoch mode
    let out (l : Nat) : List Rounded := (List.range cnt).map (fun h => elem e.t mode sat l h (if st then e.draw l h else 0))
    let flags := (lanesOf m).foldl (fun a l => (out l).foldl (fun a x => a ||| x.flags) a) noFlags
    let tag := if st then .general else tag3 (e.t.tags r.reads)
    r.give (e.tookDraws m (if st then cnt else 0)) m (!st) 0 flags
      [e.t.result m tag d.toNat (fun l => join ((out l).map Rounded.code))]) s

/-- A mode that draws in an instruction whose formats are wide: `.rsto` (R40). -/
def isRsto (mode : Nat) : Bool := mode = rsto

/-- Element h of a register as an exact value. -/
def Strand.elem (t : Strand) (ty v l h : Nat) : Num := decodeFmt (ftFmt ty) (ftBits ty (t.lane v l) h)

/-- An exact result rounded to its format, with the flags of forming it (R89, R91). -/
def Exact.round (x : Exact) (f : Fmt) (mode : Nat) (sat : Bool) (draw : Nat) : Rounded :=
  let y := roundFmt f mode sat draw x.val
  { y with flags := y.flags ||| x.flags }

/-- Two- and three-operand arithmetic (R108): `op` is the exact operation on elements of va, vb and the old vd. -/
def floatArith (i : Instr) (d a b : BitVec 6) (f : BitVec 3) (g : BitVec 3) (old : Bool) (op : Nat → Num → Num → Num → Exact)
    (s : State) : Host.Outcome State Fault Refusal :=
  let ty := f.toNat / 2
  let r : Req := { instr := i, pg := g.toNat, reads := regs1 a ++ regs1 b ++ (if old then regs1 d else []), writes := regs1 d,
                   modes := allModes, sat := true, rep := .rr, walker := true }
  roundForm r d (ftCount ty) (ftJoin ty) (f.getLsbD 0) isRsto (fun t mode sat l h draw =>
    (op mode (t.elem ty a.toNat l h) (t.elem ty b.toNat l h) (t.elem ty d.toNat l h)).round (ftFmt ty) mode sat draw) s

/-- The single-operand functions (R112). -/
def floatFn (i : Instr) (d a : BitVec 6) (f g : BitVec 3) (op : Num → Exact) (s : State) : Host.Outcome State Fault Refusal :=
  let ty := f.toNat / 2
  let r : Req := { instr := i, pg := g.toNat, reads := regs1 a, writes := regs1 d, modes := allModes, sat := true, rep := .rr, walker := true }
  roundForm r d (ftCount ty) (ftJoin ty) (f.getLsbD 0) isRsto (fun t mode sat l h draw =>
    (op (t.elem ty a.toNat l h)).round (ftFmt ty) mode sat draw) s

/-- Forms that name neither rounding nor saturation: `elem` works on the bits of the elements (R109, R111). -/
def floatBits (i : Instr) (d a : BitVec 6) (b : Option (BitVec 6)) (ty : Nat) (g : BitVec 3) (elem : Nat → Nat → Rounded) (s : State) :
    Host.Outcome State Fault Refusal :=
  let r : Req := { instr := i, pg := g.toNat, reads := regs1 a ++ (match b with | some b => regs1 b | none => []), writes := regs1 d,
                   rep := .rr, walker := true }
  roundForm r d (ftCount ty) (ftJoin ty) false (fun _ => false) (fun t _ _ l h _ =>
    elem (ftBits ty (t.lane a.toNat l) h) (match b with | some b => ftBits ty (t.lane b.toNat l) h | none => 0)) s

/-! ### Elements -/

/-- The canonical NaN of a lane type (R27). -/
def nanCode (f : Fmt) : Nat := f.nanC.getD 0

/-- `fmin` and `fmax` on codes (R109): the operand that wins, whole. -/
def minMaxCode (isMax : Bool) (f : Fmt) (a b : Nat) : Rounded :=
  let x := decodeFmt f a
  let y := decodeFmt f b
  let fl := snanFlag [x, y]
  if x.isNan && y.isNan then { code := nanCode f, flags := fl }
  else if x.isNan then { code := b, flags := fl }
  else if y.isNan then { code := a, flags := fl }
  else
    -- −0 ranks below +0
    let le := if x.isZero && y.isZero then x.isNeg || !y.isNeg else Num.le x y
    { code := if le != isMax then a else b, flags := fl }

/-- The class mask of a code (R111). -/
def classCode (f : Fmt) (c : Nat) : Nat :=
  let x := decodeFmt f c
  let sub := decide (c % f.signBit < 2 ^ f.fw)
  match x with
  | .nan s => if s then 2 ^ 8 else 2 ^ 9
  | .inf neg => if neg then 2 ^ 0 else 2 ^ 7
  | .fin neg n _ =>
    if n = 0 then (if neg then 2 ^ 3 else 2 ^ 4)
    else if sub then (if neg then 2 ^ 2 else 2 ^ 5)
    else (if neg then 2 ^ 1 else 2 ^ 6)

/-- The conditions of `fcmp` (R110) and the flag they raise. -/
def fcmpHolds (c : Nat) (x y : Num) : Bool × BitVec 5 :=
  let un := x.isNan || y.isNan
  let quiet := snanFlag [x, y]
  let loud := if un then flagNV else noFlags
  match c with
  | 0 => (!un && Num.eqv x y, quiet)
  | 1 => (un || !(Num.eqv x y), quiet)
  | 2 => (!un && Num.lt x y, loud)
  | 3 => (!un && Num.le x y, loud)
  | 4 => (!un && Num.lt y x, loud)
  | 5 => (!un && Num.le y x, loud)
  | 6 => (un, quiet)
  | _ => (!un, quiet)

/-- `ffract` (R113): a − floor(a), and the largest value below 1.0 where that would round to 1.0. -/
def fractCode (f : Fmt) (mode draw : Nat) (x : Num) : Rounded :=
  match x with
  | .nan s => { code := nanCode f, flags := if s then flagNV else 0 }
  | .inf _ => { code := nanCode f, flags := flagNV }
  | .fin neg n d =>
    let fl := floorNum neg n d
    let fr : Nat := ((if neg then -(n : Int) else n) - fl * d).toNat
    let r := roundFmt f mode false draw (.fin false fr d)
    let one := f.bias * 2 ^ f.fw
    if r.code = one then { code := one - 1, flags := r.flags ||| flagNX } else r

/-- `fround` (R113): the adjacent integers are the neighbours; the sign is kept, and NX and OF are never set. -/
def roundCode (f : Fmt) (mode draw : Nat) (x : Num) : Rounded :=
  match x with
  | .nan s => { code := nanCode f, flags := if s then flagNV else 0 }
  | .inf neg => { code := (roundFmt f rne false 0 (.inf neg)).code, flags := 0 }
  | .fin neg n d =>
    let k := (roundInt mode draw neg n d).1
    { code := (roundFmt f rne false 0 (.fin neg k.natAbs 1)).code, flags := 0 }

/-- a × 2^n with n clamped: beyond ±4096 every operand overflows, or lies below every smallest magnitude by more than a
draw resolves, as at the clamp. -/
def scaleNum (a : Num) (n : Int) : Exact := numScale a (max (-4096) (min 4096 n))

/-- The exact sum of `fdot2` (R114). -/
def dot2 (mode : Nat) (a0 b0 a1 b1 : Num) : Exact :=
  let p := numMul a0 b0
  let q := numMul a1 b1
  let x := numAdd mode p.val q.val
  { val := x.val, flags := p.flags ||| q.flags ||| x.flags }

/-! ### Meanings -/

def execFadd (d a b : BitVec 6) (f g : BitVec 3) (s : State) : Host.Outcome State Fault Refusal :=
  floatArith (.fadd d a b f g) d a b f g false (fun mode x y _ => numAdd mode x y) s

def execFsub (d a b : BitVec 6) (f g : BitVec 3) (s : State) : Host.Outcome State Fault Refusal :=
  floatArith (.fsub d a b f g) d a b f g false (fun mode x y _ => numAdd mode x y.flip) s

def execFmul (d a b : BitVec 6) (f g : BitVec 3) (s : State) : Host.Outcome State Fault Refusal :=
  floatArith (.fmul d a b f g) d a b f g false (fun _ x y _ => numMul x y) s

/-- `fma` reads the old vd (R93, R108). -/
def execFma (d a b : BitVec 6) (f g : BitVec 3) (s : State) : Host.Outcome State Fault Refusal :=
  floatArith (.fma d a b f g) d a b f g true (fun mode x y z => numFma mode x y z) s

def execFdiv (d a b : BitVec 6) (f g : BitVec 3) (s : State) : Host.Outcome State Fault Refusal :=
  floatArith (.fdiv d a b f g) d a b f g false (fun _ x y _ => numDiv x y) s

/-- `fscale` takes vb's element as a signed integer (R108). -/
def execFscale (d a b : BitVec 6) (f g : BitVec 3) (s : State) : Host.Outcome State Fault Refusal :=
  let ty := f.toNat / 2
  let r : Req := { instr := .fscale d a b f g, pg := g.toNat, reads := regs1 a ++ regs1 b, writes := regs1 d, modes := allModes,
                   sat := true, rep := .rr, walker := true }
  roundForm r d (ftCount ty) (ftJoin ty) (f.getLsbD 0) isRsto (fun t mode sat l h draw =>
    (scaleNum (t.elem ty a.toNat l h) (sextInt (ftBits ty (t.lane b.toNat l) h) (if ty = 0 then 32 else 16))).round (ftFmt ty) mode sat draw) s

def execFmin (d a b : BitVec 6) (t : BitVec 2) (g : BitVec 3) (s : State) : Host.Outcome State Fault Refusal :=
  floatBits (.fmin d a b t g) d a (some b) t.toNat g (minMaxCode false (ftFmt t.toNat)) s

def execFmax (d a b : BitVec 6) (t : BitVec 2) (g : BitVec 3) (s : State) : Host.Outcome State Fault Refusal :=
  floatBits (.fmax d a b t g) d a (some b) t.toNat g (minMaxCode true (ftFmt t.toNat)) s

def execFabs (d a : BitVec 6) (t : BitVec 2) (g : BitVec 3) (s : State) : Host.Outcome State Fault Refusal :=
  floatBits (.fabs d a t g) d a none t.toNat g (fun x _ => { code := x % (ftFmt t.toNat).signBit, flags := 0 }) s

def execFneg (d a : BitVec 6) (t : BitVec 2) (g : BitVec 3) (s : State) : Host.Outcome State Fault Refusal :=
  floatBits (.fneg d a t g) d a none t.toNat g (fun x _ =>
    let sb := (ftFmt t.toNat).signBit
    { code := if x < sb then x + sb else x - sb, flags := 0 }) s

/-- `fcmp` (R110): element 0 of each lane. -/
def execFcmp (t : BitVec 2) (p : BitVec 3) (a b : BitVec 6) (c g : BitVec 3) (s : State) : Host.Outcome State Fault Refusal :=
  let r : Req := { instr := .fcmp t p a b c g, pg := g.toNat, reads := regs1 a ++ regs1 b, pwrites := [p.toNat], rep := .rr, walker := true }
  issue r (fun e m =>
    let out (l : Nat) : Bool × BitVec 5 := fcmpHolds c.toNat (e.t.elem t.toNat a.toNat l 0) (e.t.elem t.toNat b.toNat l 0)
    .done ((e.putPred m p.toNat (fun l => (out l).1)).orFlags ((lanesOf m).foldl (fun x l => x ||| (out l).2) 0))) s

def execFclass (d a : BitVec 6) (t : BitVec 2) (g : BitVec 3) (s : State) : Host.Outcome State Fault Refusal :=
  floatBits (.fclass d a t g) d a none t.toNat g (fun x _ => { code := classCode (ftFmt t.toNat) x, flags := 0 }) s

def execFsqrt (d a : BitVec 6) (f g : BitVec 3) (s : State) : Host.Outcome State Fault Refusal :=
  floatFn (.fsqrt d a f g) d a f g fnSqrt s

def execFrcp (d a : BitVec 6) (f g : BitVec 3) (s : State) : Host.Outcome State Fault Refusal :=
  floatFn (.frcp d a f g) d a f g fnRcp s

def execFrsqrt (d a : BitVec 6) (f g : BitVec 3) (s : State) : Host.Outcome State Fault Refusal :=
  floatFn (.frsqrt d a f g) d a f g fnRsqrt s

def execFexp2 (d a : BitVec 6) (f g : BitVec 3) (s : State) : Host.Outcome State Fault Refusal :=
  floatFn (.fexp2 d a f g) d a f g fnExp2 s

def execFlog2 (d a : BitVec 6) (f g : BitVec 3) (s : State) : Host.Outcome State Fault Refusal :=
  floatFn (.flog2 d a f g) d a f g fnLog2 s

def execFsin (d a : BitVec 6) (f g : BitVec 3) (s : State) : Host.Outcome State Fault Refusal :=
  floatFn (.fsin d a f g) d a f g fnSin s

def execFcos (d a : BitVec 6) (f g : BitVec 3) (s : State) : Host.Outcome State Fault Refusal :=
  floatFn (.fcos d a f g) d a f g fnCos s

/-- `ffract` and `fround` name rounding and not saturation (R107, R113). -/
def fractForm (i : Instr) (d a : BitVec 6) (t : BitVec 2) (g : BitVec 3) (op : Fmt → Nat → Nat → Num → Rounded) (s : State) :
    Host.Outcome State Fault Refusal :=
  let ty := t.toNat
  let r : Req := { instr := i, pg := g.toNat, reads := regs1 a, writes := regs1 d, modes := allModes, rep := .rr, walker := true }
  roundForm r d (ftCount ty) (ftJoin ty) false isRsto (fun x mode _ l h draw => op (ftFmt ty) mode draw (x.elem ty a.toNat l h)) s

def execFfract (d a : BitVec 6) (t : BitVec 2) (g : BitVec 3) (s : State) : Host.Outcome State Fault Refusal :=
  fractForm (.ffract d a t g) d a t g fractCode s

def execFround (d a : BitVec 6) (t : BitVec 2) (g : BitVec 3) (s : State) : Host.Outcome State Fault Refusal :=
  fractForm (.fround d a t g) d a t g roundCode s

/-- `fdot2` (R114): two 16-bit elements a lane, one FP32 result. -/
def execFdot2 (d a b : BitVec 6) (t : BitVec 2) (sb : BitVec 1) (g : BitVec 3) (s : State) : Host.Outcome State Fault Refusal :=
  let ty := t.toNat
  let r : Req := { instr := .fdot2 d a b t sb g, pg := g.toNat, reads := regs1 a ++ regs1 b, writes := regs1 d, modes := allModes,
                   sat := true, rep := .rr, walker := true }
  roundForm r d 1 (fun xs => BitVec.ofNat 32 (xs.getD 0 0)) (sb = 1) isRsto (fun x mode sat l _ draw =>
    (dot2 mode (x.elem ty a.toNat l 0) (x.elem ty b.toNat l 0) (x.elem ty a.toNat l 1) (x.elem ty b.toNat l 1)).round fmtFp32 mode sat draw) s

end Sys2Proof.Machine
end

