-- ==== Sys2Proof/Machine/Cross.lean ====
section
/-! DEFINITION. The predicate and cross-lane instructions of class 0x4 (spec/05_lane_instructions.md R119 to R127, and
R130). -/

namespace Sys2Proof.Machine

/-! ### Predicate instructions (R119, R120) -/

/-- A predicate result from predicate sources: `f` of the source masks and the effective lane mask. -/
def predForm (i : Instr) (d : BitVec 3) (srcs : List (BitVec 3)) (g : BitVec 3) (f : Strand → Mask → Mask) (s : State) :
    Host.Outcome State Fault Refusal :=
  let r : Req := { instr := i, pg := g.toNat, preads := srcs.map BitVec.toNat, pwrites := [d.toNat], rep := .rr, walker := true }
  issue r (fun e m => .done { e with t := e.t.mergePred d.toNat m (f e.t m) }) s

def execPand (d a b g : BitVec 3) (s : State) : Host.Outcome State Fault Refusal :=
  predForm (.pand d a b g) d [a, b] g (fun t _ => t.pred a.toNat &&& t.pred b.toNat) s

def execPor (d a b g : BitVec 3) (s : State) : Host.Outcome State Fault Refusal :=
  predForm (.por d a b g) d [a, b] g (fun t _ => t.pred a.toNat ||| t.pred b.toNat) s

def execPxor (d a b g : BitVec 3) (s : State) : Host.Outcome State Fault Refusal :=
  predForm (.pxor d a b g) d [a, b] g (fun t _ => t.pred a.toNat ^^^ t.pred b.toNat) s

def execPnot (d a g : BitVec 3) (s : State) : Host.Outcome State Fault Refusal :=
  predForm (.pnot d a g) d [a] g (fun t _ => ~~~(t.pred a.toNat)) s

def execPmov (d a g : BitVec 3) (s : State) : Host.Outcome State Fault Refusal :=
  predForm (.pmov d a g) d [a] g (fun t _ => t.pred a.toNat) s

/-- The lowest lane of a mask, alone; the empty mask stays empty. -/
def firstLane (m : Mask) : Mask := if m = 0 then 0 else laneBit (lowLane m)

/-- The lowest acting lane of pa (R119). -/
def execPfirst (d a g : BitVec 3) (s : State) : Host.Outcome State Fault Refusal :=
  predForm (.pfirst d a g) d [a] g (fun t m => firstLane (t.pred a.toNat &&& m)) s

/-- The number of acting lanes (R120). -/
def execPcnt (d : BitVec 6) (g : BitVec 3) (s : State) : Host.Outcome State Fault Refusal :=
  let r : Req := { instr := .pcnt d g, pg := g.toNat, writes := regs1 d, rep := .rr, walker := true }
  issue r (fun e m => r.put e m [e.t.result m .uniform d.toNat (fun _ => BitVec.ofNat 32 (laneCount m))]) s

/-! ### Permutes and lookups (R121 to R124) -/

/-- `xperm`, `xtab` and `xshfl`: a result that is uniform when va is (R93). `gen` says that the crew's table generation is
part of the key (R123). -/
def permForm (r : Req) (d a : BitVec 6) (gen : Bool) (f : Env → Nat → Word) (s : State) : Host.Outcome State Fault Refusal :=
  issue r (fun e m =>
    let tag : Tag := if (e.t.reg a.toNat).tag = .uniform then .uniform else .general
    r.give e m true (if gen then e.c.xgen else 0) 0 [e.t.result m tag d.toNat (f e)]) s

/-- The source lane of lane l under a pattern register (R122). -/
def patLane (pat : Word) (l : Nat) : Nat := bitsOf pat.toNat (3 * l) 3

def execXperm (d a : BitVec 6) (k : BitVec 4) (g : BitVec 3) (s : State) : Host.Outcome State Fault Refusal :=
  let r : Req := { instr := .xperm d a k g, pg := g.toNat, reads := regs1 a, writes := regs1 d, rep := .rr, walker := true }
  permForm r d a true (fun e l => e.t.lane a.toNat (patLane (e.c.xpat.getD k.toNat 0) l)) s

/-- Entry b of byte table t (R122); 0 when b is 16 or more (R124). -/
def tabByte (xtab : List Word) (t b : Nat) : Nat := if 16 ≤ b then 0 else bitsOf (xtab.getD (4 * t + b / 4) 0).toNat (8 * (b % 4)) 8

def execXtab (d a : BitVec 6) (t : BitVec 1) (g : BitVec 3) (s : State) : Host.Outcome State Fault Refusal :=
  let r : Req := { instr := .xtab d a t g, pg := g.toNat, reads := regs1 a, writes := regs1 d, rep := .rr, walker := true }
  permForm r d a true (fun e l =>
    let w := (e.t.lane a.toNat l).toNat
    BitVec.ofNat 32 (leNat ([0, 1, 2, 3].map (fun b => BitVec.ofNat 8 (tabByte e.c.xtab t.toNat (bitsOf w (8 * b) 8)))))) s

def execXbcast (d a : BitVec 6) (k g : BitVec 3) (s : State) : Host.Outcome State Fault Refusal :=
  let r : Req := { instr := .xbcast d a k g, pg := g.toNat, reads := regs1 a, writes := regs1 d, rep := .ri, walker := true }
  issue r (fun e m => r.put e m [e.t.result m .uniform d.toNat (fun _ => e.t.lane a.toNat k.toNat)]) s

/-- `xshfl`: `src` gives the source lane from the lane and the low three bits of vb. -/
def shuffle (i : Instr) (d a b : BitVec 6) (g : BitVec 3) (src : Nat → Nat → Nat) (s : State) : Host.Outcome State Fault Refusal :=
  let r : Req := { instr := i, pg := g.toNat, reads := regs1 a ++ regs1 b, writes := regs1 d, rep := .rr, walker := true }
  permForm r d a false (fun e l => e.t.lane a.toNat (src l (bitsOf (e.t.lane b.toNat l).toNat 0 3))) s

def execXshflIdx (d a b : BitVec 6) (g : BitVec 3) (s : State) : Host.Outcome State Fault Refusal :=
  shuffle (.xshflIdx d a b g) d a b g (fun _ k => k) s

def execXshflXor (d a b : BitVec 6) (g : BitVec 3) (s : State) : Host.Outcome State Fault Refusal :=
  shuffle (.xshflXor d a b g) d a b g (fun l k => l ^^^ k) s

def execXshflUp (d a b : BitVec 6) (g : BitVec 3) (s : State) : Host.Outcome State Fault Refusal :=
  shuffle (.xshflUp d a b g) d a b g (fun l k => if l < k then l else l - k) s

def execXshflDown (d a b : BitVec 6) (g : BitVec 3) (s : State) : Host.Outcome State Fault Refusal :=
  shuffle (.xshflDown d a b g) d a b g (fun l k => if 7 < l + k then l else l + k) s

/-! ### Reductions (R44, R125) -/

/-- The value that an excluded lane takes. -/
def redIdentity (op : Nat) : Nat :=
  match op with
  | 0 => 0x80000000
  | 1 => 0
  | 2 => 0xFF800000
  | 3 => 0x7F800000
  | 4 => 0x80000000
  | 5 => 0x7FFFFFFF
  | 6 => 0
  | _ => 0xFFFFFFFF

/-- Two values combined. -/
def redCombine (op mode : Nat) (a b : Nat) : Rounded :=
  match op with
  | 0 => (numAdd mode (decodeFmt fmtFp32 a) (decodeFmt fmtFp32 b)).round fmtFp32 mode false 0
  | 1 => { code := (a + b) % 2 ^ 32, flags := 0 }
  | 2 => minMaxCode true fmtFp32 a b
  | 3 => minMaxCode false fmtFp32 a b
  | 4 => { code := if sextInt a 32 < sextInt b 32 then b else a, flags := 0 }
  | 5 => { code := if sextInt b 32 < sextInt a 32 then b else a, flags := 0 }
  | 6 => { code := max a b, flags := 0 }
  | _ => { code := min a b, flags := 0 }

/-- One level of the tree of R44: neighbours paired. -/
def redPairs (op mode : Nat) (xs : List Nat) : List Nat × BitVec 5 :=
  match xs with
  | a :: b :: rest =>
    let r := redCombine op mode a b
    let (ys, fl) := redPairs op mode rest
    (r.code :: ys, r.flags ||| fl)
  | _ => (xs, 0)

/-- The tree over eight lanes. -/
def redTree (op mode : Nat) (xs : List Nat) : Nat × BitVec 5 :=
  let (a, f1) := redPairs op mode xs
  let (b, f2) := redPairs op mode a
  let (c, f3) := redPairs op mode b
  (c.getD 0 0, f1 ||| f2 ||| f3)

/-- The float operations of a reduction. -/
def redFloat (op : Nat) : Bool := op = 0 || op = 2 || op = 3

/-- Lane 0's result, which no combining forms: the canonical NaN where it is one, with NV for a signalling one (R27). -/
def scanFirst (op x : Nat) : Rounded :=
  let v := decodeFmt fmtFp32 x
  if redFloat op && v.isNan then { code := 0x7FC00000, flags := snanFlag [v] } else { code := x, flags := 0 }

/-- One step of the scan: lane l ≥ k takes s[l−k] combined with s[l]. The flags beside a value are those of all that formed it. -/
def scanStep (op mode k : Nat) (xs : List Rounded) : List Rounded :=
  let at_ (l : Nat) : Rounded := xs.getD l { code := 0, flags := 0 }
  laneIds.map (fun l =>
    if l < k then at_ l
    else
      let r := redCombine op mode (at_ (l - k)).code (at_ l).code
      { r with flags := r.flags ||| (at_ (l - k)).flags ||| (at_ l).flags })

/-- The inclusive scan with distances 1, 2 and 4, and the flags of the combinings that form the results of some lanes (R39, R125; assumption
65). -/
def redScan (op mode : Nat) (m : Mask) (xs : List Nat) : List Nat × BitVec 5 :=
  let ys := scanStep op mode 4 (scanStep op mode 2 (scanStep op mode 1 (xs.map (fun x => { code := x, flags := 0 }))))
  let zs := ys.mapIdx (fun l y => if l = 0 then scanFirst op (xs.headD 0) else y)
  (zs.map Rounded.code, (lanesOf m).foldl (fun a l => a ||| (zs.getD l { code := 0, flags := 0 }).flags) 0)

/-- The values of the acting lanes, the identity in the others. -/
def redInputs (t : Strand) (m : Mask) (op v : Nat) : List Nat := laneIds.map (fun l => if laneOn m l then (t.lane v l).toNat else redIdentity op)

def execXred (d a : BitVec 6) (f g : BitVec 3) (s : State) : Host.Outcome State Fault Refusal :=
  let r : Req := { instr := .xred d a f g, pg := g.toNat, reads := regs1 a, writes := regs1 d, modes := redModes, rep := .rr, walker := true }
  issue r (fun e m =>
    let x := redTree f.toNat e.t.unit.mode (redInputs e.t m f.toNat a.toNat)
    r.give e m true 0 x.2 [e.t.result m .uniform d.toNat (fun _ => BitVec.ofNat 32 x.1)]) s

def execXscan (d a : BitVec 6) (f g : BitVec 3) (s : State) : Host.Outcome State Fault Refusal :=
  let r : Req := { instr := .xscan d a f g, pg := g.toNat, reads := regs1 a, writes := regs1 d, modes := redModes, rep := .rr, walker := true }
  issue r (fun e m =>
    let x := redScan f.toNat e.t.unit.mode m (redInputs e.t m f.toNat a.toNat)
    r.give e m true 0 x.2 [e.t.result m .general d.toNat (fun l => BitVec.ofNat 32 (x.1.getD l 0))]) s

/-! ### xmaxi and vote (R126, R127, R130) -/

/-- The element of `xmaxi` brought to its key's form: the 16-bit floats are widened exactly (R46). -/
def maxiElem (ty : Nat) (w : Word) : MaxiTy × Nat :=
  match ty with
  | 0 => (.float, w.toNat)
  | 1 => (.float, (rneF32 (decodeFmt fmtFp16 (bitsOf w.toNat 0 16))).toNat)
  | 2 => (.float, (rneF32 (decodeFmt fmtBf16 (bitsOf w.toNat 0 16))).toNat)
  | 3 => (.signed, w.toNat)
  | _ => (.unsigned, w.toNat)

def execXmaxi (d a b : BitVec 6) (f g : BitVec 3) (s : State) : Host.Outcome State Fault Refusal :=
  let r : Req := { instr := .xmaxi d a b f g, pg := g.toNat, reads := regs1 a ++ regs1 b, writes := regs2 d, rep := .rr, walker := true }
  issue r (fun e m =>
    let ty := (maxiElem f.toNat 0).1
    let best := (lanesOf m).foldl (fun acc l => max acc (maxiPack ty (maxiElem f.toNat (e.t.lane a.toNat l)).2 (e.t.lane b.toNat l).toNat)) 0
    let x := maxiUnpack ty best
    r.put e m [e.t.result m .uniform d.toNat (fun _ => BitVec.ofNat 32 x.1), e.t.result m .uniform (d.toNat + 1) (fun _ => BitVec.ofNat 32 x.2)]) s

/-- `vote`: `f` of the effective lane mask and the acting lanes whose va is not 0. -/
def voteForm (i : Instr) (d a : BitVec 6) (g : BitVec 3) (f : Mask → Mask → Word) (s : State) : Host.Outcome State Fault Refusal :=
  let r : Req := { instr := i, pg := g.toNat, reads := regs1 a, writes := regs1 d, rep := .rr, walker := true }
  issue r (fun e m =>
    let nz := maskOf (fun l => laneOn m l && e.t.lane a.toNat l ≠ 0)
    r.put e m [e.t.result m .uniform d.toNat (fun _ => f m nz)]) s

def execVoteAny (d a : BitVec 6) (g : BitVec 3) (s : State) : Host.Outcome State Fault Refusal :=
  voteForm (.voteAny d a g) d a g (fun _ nz => if nz = 0 then 0 else 1) s

def execVoteAll (d a : BitVec 6) (g : BitVec 3) (s : State) : Host.Outcome State Fault Refusal :=
  voteForm (.voteAll d a g) d a g (fun m nz => if nz = m then 1 else 0) s

def execVoteBallot (d a : BitVec 6) (g : BitVec 3) (s : State) : Host.Outcome State Fault Refusal :=
  voteForm (.voteBallot d a g) d a g (fun _ nz => BitVec.zeroExtend 32 nz) s

/-- The shape code of va (R53, R130). -/
def execVshape (d a : BitVec 6) (g : BitVec 3) (s : State) : Host.Outcome State Fault Refusal :=
  let r : Req := { instr := .vshape d a g, pg := g.toNat, reads := regs1 a, writes := regs1 d, rep := .rr, walker := true }
  issue r (fun e m => r.put e m [e.t.result m .uniform d.toNat (fun _ => BitVec.ofNat 32 (e.t.reg a.toNat).tag.code)]) s

end Sys2Proof.Machine
end

