-- ==== Sys2Proof/Machine/Control.lean ====
section
/-! DEFINITION. `movc` and the control registers (spec/05_lane_instructions.md R128, R129; spec/03_registers_and_value_naming.md
R51, R52, and the register tables of the chapters that R51 names). -/

namespace Sys2Proof.Machine

/-! ### What the registers hold -/

/-- Eight 4-bit lane fields (R190). -/
def nibbles (f : Nat → Nat) : Word := BitVec.ofNat 32 (laneIds.foldl (fun a l => a + f l % 16 * 16 ^ l) 0)

/-- `ctl.trapcause` (R424). -/
def TrapRec.causeWord (r : TrapRec) : Word :=
  BitVec.ofNat 32 (r.cause.toNat + (if r.next then 2 ^ 8 else 0) + (if r.part then 2 ^ 9 else 0) + (if r.inh then 2 ^ 10 else 0)
    + (if r.defer then 2 ^ 11 else 0) + r.code.toNat * 2 ^ 16)

/-- `ctl.scurN` and `ctl.sbindN` (R285). -/
def Binding.curWord (b : Binding) : Word := if b.bound then BitVec.ofNat 32 (b.x + 2 ^ 16 * b.y) else 0
def Binding.bindWord (b : Binding) : Word :=
  BitVec.ofNat 32 (b.session % 64 + (if b.dir then 2 ^ 6 else 0) + (if b.bound then 2 ^ 7 else 0) + (if b.closed then 2 ^ 8 else 0))

/-- An unbound stream register. -/
def Binding.unbound : Binding :=
  { bound := false, dir := false, session := 0, frame := 0, y := 0, x := 0, wrap := false, closed := false, lateInh := false, flushed := none }

def Crew.bind (c : Crew) (k : Nat) : Binding := c.binds.getD k .unbound

/-- `ctl.cvN` (R231). -/
def Conv.word (v : Conv) : Word := BitVec.ofNat 32 (v.decl + 2 ^ 10 * v.sigs)

/-- Control registers held per strand. -/
def strandReg (t : Strand) (n : Nat) : Option Word :=
  match n with
  | 0x000 => some (BitVec.zeroExtend 32 t.fflags)
  | 0x001 => some t.repleft
  | 0x044 => some (BitVec.ofNat 32 t.idx)
  | 0x047 => some (BitVec.ofNat 32 t.regs.length)
  | 0x048 => some (if t.emerg then 1 else 0)
  | 0x080 => some (nibbles (fun l => (t.thread l).tx.state))
  | 0x081 => some (nibbles (fun l => (t.thread l).tx.fails))
  | 0x085 => some (BitVec.ofNat 32 (t.count .ld + 2 ^ 6 * t.count .st + 2 ^ 12 * t.count .cp + 2 ^ 18 * t.count .mx))
  | 0x086 => some (BitVec.ofNat 32 (t.count .tr + 2 ^ 6 * t.count .sr + 2 ^ 12 * t.count .cl))
  | 0x100 => some (BitVec.zeroExtend 32 t.fldev)
  | 0x101 => some t.trstat
  | 0x102 => some t.trreason
  | 0x180 => some t.trap.causeWord
  | 0x181 => some (BitVec.truncate 32 t.trap.va)
  | 0x182 => some (BitVec.truncate 32 (t.trap.va >>> 32))
  | 0x183 => some (BitVec.zeroExtend 32 t.trap.mask)
  | 0x184 => some (BitVec.truncate 32 t.trap.pc)
  | 0x185 => some (BitVec.truncate 32 (t.trap.pc >>> 32))
  | 0x186 => some t.trap.src
  | _ => none

/-- Control registers held per crew. -/
def crewReg (c : Crew) (n : Nat) : Option Word :=
  match n with
  | 0x002 => some (if c.naming then 1 else 0)
  | 0x003 => some c.vnhits
  | 0x004 => some c.vndedup
  | 0x005 => some c.vncoll
  | 0x006 => some c.xgen
  | 0x040 => some (if c.progress then 1 else 0)
  | 0x041 => some (BitVec.ofNat 32 c.strands.length)
  | 0x042 => some (BitVec.ofNat 32 c.gangSize)
  | 0x043 => some (if c.gangFall then 1 else 0)
  | 0x045 => some (BitVec.ofNat 32 c.core)
  | 0x046 => some (BitVec.ofNat 32 c.seq)
  | 0x049 => some (BitVec.ofNat 32 c.nbars)
  | 0x082 => some (BitVec.ofNat 32 c.wclaim.size)
  | 0x083 => some (BitVec.ofNat 32 c.aclaim.size)
  | 0x084 => some (BitVec.ofNat 32 c.cclaim.size)
  | _ =>
    if 0x010 ≤ n && n ≤ 0x01F then some (c.xpat.getD (n - 0x010) 0)
    else if 0x020 ≤ n && n ≤ 0x027 then some (c.xtab.getD (n - 0x020) 0)
    else if 0x140 ≤ n && n ≤ 0x14F then some (c.bind (n - 0x140)).curWord
    else if 0x150 ≤ n && n ≤ 0x15F then some 0
    else if 0x160 ≤ n && n ≤ 0x16F then some (c.bind (n - 0x160)).bindWord
    else none

/-- The Swage's control registers: 0 in a crew without the reservation (R230, R231). -/
def swageReg (held : Bool) (w : Swage) (n : Nat) : Option Word :=
  let v : Option Word :=
    if n = 0x0C0 then some w.accst
    else if 0x0C1 ≤ n && n ≤ 0x0C8 then some ((w.cvs.getD (n - 0x0C1) .fresh).word)
    else if 0x0D0 ≤ n && n ≤ 0x0DF then some (w.tile (n - 0x0D0)).shape
    else none
  v.map (fun x => if held then x else 0)

/-- A control register as the strand reads it; none for a reserved number (R51, R52). -/
def Env.control (e : Env) (n : Nat) : Option Word :=
  if n = 0x087 then some (BitVec.ofNat 32 (e.s.l1Size e.c.core))
  else match strandReg e.t n with
    | some w => some w
    | none => match crewReg e.c n with
      | some w => some w
      | none => swageReg e.holdsSwage e.swage n

/-- Numbers of RW and WO registers: the ones a write may name (R51, R122, R144, R231, R261, R285, R424). -/
def writable (n : Nat) : Bool :=
  n = 0x000 || n = 0x001 || n = 0x040 || n = 0x100 || (0x010 ≤ n && n ≤ 0x01F) || (0x020 ≤ n && n ≤ 0x027) || (0x0D0 ≤ n && n ≤ 0x0DF)
    || (0x140 ≤ n && n ≤ 0x15F) || (0x180 ≤ n && n ≤ 0x185)

/-! ### Writes -/

/-- A trap register written in handler mode (R424). -/
def TrapRec.write (r : TrapRec) (n : Nat) (v : Word) : TrapRec :=
  let lo (x : VAddr) : VAddr := BitVec.ofNat 57 (x.toNat / 2 ^ 32 * 2 ^ 32 + v.toNat)
  let hi (x : VAddr) : VAddr := BitVec.ofNat 57 (v.toNat % 2 ^ 25 * 2 ^ 32 + x.toNat % 2 ^ 32)
  match n with
  | 0x180 => { r with next := v.getLsbD 8, part := v.getLsbD 9 }
  | 0x181 => { r with va := lo r.va }
  | 0x182 => { r with va := hi r.va }
  | 0x183 => { r with mask := BitVec.truncate 8 v }
  | 0x184 => { r with pc := lo r.pc }
  | _ => { r with pc := hi r.pc }

/-- A pattern or byte-table register written: the crew takes the core's generation, which advances (R122, R123). -/
def Env.writeTable (e : Env) (n : Nat) (v : Word) : Env :=
  let co := e.s.core e.c.core
  let (nm, gen) := co.naming.takeGen
  let c := if n < 0x020 then { e.c with xpat := e.c.xpat.set (n - 0x010) (v &&& 0x00FFFFFF) } else { e.c with xtab := e.c.xtab.set (n - 0x020) v }
  { e with s := e.s.setCore e.c.core { co with naming := nm }, c := { c with xgen := gen } }

/-- `ctl.scurN` and `ctl.sfrmN` written (R284, R285). -/
def Env.writeStream (e : Env) (n : Nat) (v : Word) : Res :=
  let k := n % 16
  let b := e.c.bind k
  let set (b' : Binding) : Res := .done { e with c := { e.c with binds := e.c.binds.set k b' } }
  let refuse : Res := .trap e (.plain cSESSION e.t.group) false
  if !b.bound || b.closed then refuse
  else if n < 0x150 then
    let d := (e.s.session b.session).d
    let x := bitsOf v.toNat 0 16
    let y := bitsOf v.toNat 16 16
    if d.w ≤ x || d.h ≤ y then refuse else set { b with x := x, y := y }
  else set { b with frame := wrapNat ((b.frame : Int) + sextInt v.toNat 32) 64, x := 0, y := 0, wrap := false }

/-- Whether a tile write of `srdt` is still to be performed: the unit accepted it when it issued, before any operation that the crew
gives it now (R237; DESIGN CHOICE, assumption 59). -/
def Env.srdtOpen (e : Env) : Bool := (e.c.setStrand e.t).strands.any (fun t => t.inflight.any (fun p => p.isSrdt && !p.done))

/-- Those writes performed as far as they can be. -/
def Env.awaitSrdt (e : Env) : Env := if e.srdtOpen then e.via (fun s => s.settleCrew e.c.id Pending.isSrdt) else e

/-- A tile shape register written, as an operation of the Swage unit (R229, R230). DESIGN CHOICE (assumption 28): its traps name the whole
group, as R229 gives no lanes. -/
def Env.writeShape (e : Env) (n : Nat) (v : Word) : Res :=
  if !e.holdsSwage then e.illegal
  else match shapeRefused v with
    | some cause => .trap e (.plain cause e.t.group) false
    | none =>
      let w := e.swage
      .done (e.setSwage (w.setTile (n - 0x0D0) { w.tile (n - 0x0D0) with shape := v &&& shapeMask }))

/-- A control register written (R52, R128, R129). Reserved bits of the value are ignored (R8). DESIGN CHOICE (assumption 79): a per-crew
register shows its new value to every strand of the crew at once, where R129 leaves old or new to each instruction of another strand until
the next common crew barrier. -/
def Env.writeControl (e : Env) (n : Nat) (v : Word) : Res :=
  if !writable n then e.illegal
  else if 0x180 ≤ n then
    if e.t.inHandler then .done { e with t := { e.t with trap := e.t.trap.write n v } } else e.illegal
  else if 0x140 ≤ n then e.writeStream n v
  else if n = 0x100 then .done { e with t := { e.t with fldev := BitVec.truncate 3 v } }
  else if 0x0D0 ≤ n then e.writeShape n v
  else if n = 0x040 then .done { e with c := { e.c with progress := v.getLsbD 0 } }
  else if 0x010 ≤ n then .done (e.writeTable n v)
  else if n = 0x001 then .done { e with t := { e.t with repleft := v } }
  else .done { e with t := { e.t with fflags := BitVec.truncate 5 v } }

/-! ### Meanings -/

/-- The flags of every earlier instruction are in `ctl.fflags` before it is read or written (R129): the loads in flight
are performed. -/
def Env.flagsReady (e : Env) (n : Nat) : Env := if n = 0 then e.settle (fun p => p.ctr = .ld) else e

/-- The crew's earlier tile writes of `srdt` stand before its write of a shape register (R230, R237). -/
def isShape (n : Nat) : Bool := decide (0x0D0 ≤ n) && decide (n ≤ 0x0DF)
def Env.shapeReady (e : Env) (n : Nat) : Env := if isShape n && e.holdsSwage then e.awaitSrdt else e
def Env.shapeWaits (e : Env) (n : Nat) : Bool := isShape n && e.holdsSwage && e.srdtOpen

/-- A load that has not delivered its flags yet. -/
def Strand.flagsPending (t : Strand) (n : Nat) : Bool := n = 0 && t.inflight.any (fun p => p.ctr = .ld && !p.done)

def execMovcRead (d : BitVec 6) (n : BitVec 12) (s : State) : Host.Outcome State Fault Refusal :=
  let r : Req := { instr := .movcRead d n, writes := regs1 d, walker := true }
  issue r (fun e m =>
    let e1 := e.flagsReady n.toNat
    if e1.t.flagsPending n.toNat then .hold e1
    else match e1.control n.toNat with
      | none => e.illegal
      | some v => r.give e1 m false 0 0 [e1.t.result m .uniform d.toNat (fun _ => v)]) s

/-- The value comes from the lowest lane of the current group (R128). DESIGN CHOICE (assumption 72): the number is judged once the value
is there, so an uncorrectable error in va traps before a number that may not be written (R52, R230); the manual orders only the checks of
R74. -/
def execMovcWrite (a : BitVec 6) (n : BitVec 12) (s : State) : Host.Outcome State Fault Refusal :=
  let r : Req := { instr := .movcWrite a n, reads := regs1 a, walker := true }
  issue r (fun e _ =>
    let e1 := (e.flagsReady n.toNat).shapeReady n.toNat
    if e1.t.flagsPending n.toNat || e1.shapeWaits n.toNat then .hold e1 else e1.writeControl n.toNat (e1.t.lane a.toNat (lowLane e1.t.group))) s

end Sys2Proof.Machine
end

