-- ==== Sys2Proof/Machine/Flow.lean ====
section
/-! DEFINITION. Class 0x5: branches and calls, meetings, `yield`, `sleep` and `exit`, the barriers, register blocks and the
tile dispenser (spec/07_flow_and_barrier_instructions.md R153 to R170). -/

namespace Sys2Proof.Machine

/-! ### Branches (R155 to R158) -/

/-- The start of the code region that branch targets must lie in (R132, R155); a walker's is that of WALKPC (R364). -/
def Env.codeHigh (e : Env) : Nat :=
  (if e.c.walker then (e.s.ctx e.c.ctx).walkPc.toNat % 2 ^ 57 else e.c.entryPc.toNat) / 2 ^ 32

/-- Whether a target may not be branched to (R155). -/
def Env.badTarget (e : Env) (target : Nat) : Bool := target % 4 ≠ 0 || target / 2 ^ 57 ≠ 0 || target / 2 ^ 32 ≠ e.codeHigh

/-- The target of a direct form from its w-bit field (R155). -/
def Env.directTarget (e : Env) (w field : Nat) : Nat := wrapNat ((e.t.fetchPc.toNat : Int) + 4 * e.t.unit.immediate w field) 57

/-- A branch: acting lanes take their targets, the rest of the group the next word; one bad target and nothing moves
(R155). `first` is what a call writes before it branches. -/
def Env.branch (e : Env) (m : Mask) (target : Nat → Nat) (first : Env → Env) : Res :=
  let bad := maskOf (fun l => laneOn m l && e.badTarget (target l))
  if bad ≠ 0 then .trap e (.plain cALIGN bad) false
  else
    let next := e.t.fetchPc + 4
    let e1 := first e
    .moved { e1 with t := e1.t.modThreads e1.t.group (fun l x => { x with pc := if laneOn m l then BitVec.ofNat 57 (target l) else next }) }

def execBra (o : BitVec 21) (g : BitVec 3) (s : State) : Host.Outcome State Fault Refusal :=
  let r : Req := { instr := .bra o g, pg := g.toNat, imm := true, walker := true }
  issue r (fun e m => e.branch m (fun _ => e.directTarget 21 o.toNat) id) s

/-- `brx` and `ret` (R157). -/
def indirect (i : Instr) (a : BitVec 6) (g : BitVec 3) (s : State) : Host.Outcome State Fault Refusal :=
  let r : Req := { instr := i, pg := g.toNat, reads := regs2 a, walker := true }
  issue r (fun e m => e.branch m (fun l => (e.t.lane64 a.toNat l).toNat) id) s

def execBrx (a : BitVec 6) (g : BitVec 3) (s : State) : Host.Outcome State Fault Refusal := indirect (.brx a g) a g s
def execRet (a : BitVec 6) (g : BitVec 3) (s : State) : Host.Outcome State Fault Refusal := indirect (.ret a g) a g s

/-- The return address written by a call (R158): uniform halves in the direct form, general in the indirect one
(R154). -/
def Env.putReturn (e : Env) (m : Mask) (tag : Tag) (pair : Nat) : Env :=
  let ra := (e.t.fetchPc + 4).toNat
  e.puts true (e.t.result64 m tag tag pair (fun _ => ra))

def execCallDirect (d : BitVec 5) (i : BitVec 18) (s : State) : Host.Outcome State Fault Refusal :=
  let pair := 2 * d.toNat
  let r : Req := { instr := .callDirect d i, writes := [pair, pair + 1], imm := true, walker := true }
  issue r (fun e m => e.branch m (fun _ => e.directTarget 18 i.toNat) (fun e => e.putReturn m .uniform pair)) s

def execCallIndirect (d : BitVec 5) (a : BitVec 6) (s : State) : Host.Outcome State Fault Refusal :=
  let pair := 2 * d.toNat
  let r : Req := { instr := .callIndirect d a, reads := regs2 a, writes := [pair, pair + 1], walker := true }
  issue r (fun e m => e.branch m (fun l => (e.t.lane64 a.toNat l).toNat) (fun e => e.putReturn m .general pair)) s

/-! ### Meeting, yielding and ending (R159 to R161) -/

def execMeet (o : BitVec 21) (g : BitVec 3) (s : State) : Host.Outcome State Fault Refusal :=
  let r : Req := { instr := .meet o g, pg := g.toNat, imm := true, walker := true, handler := false }
  issue r (fun e m =>
    let v : Word := if o = 0 && e.t.unit.imm.isNone then noMeeting else BitVec.ofNat 32 (e.directTarget 21 o.toNat)
    .done { e with t := e.t.modThreads m (fun _ x => { x with meeting := v }) }) s

/-- `yield` (R160): the unit ends with the selection that a `hint.sched` with YLD = 1 would make. -/
def execYield (s : State) : Host.Outcome State Fault Refusal :=
  let r : Req := { instr := .yield, walker := true }
  issue r (fun e _ => .done { e with t := { e.t with unit := { e.t.unit with sched := some true } } }) s

def execNop (s : State) : Host.Outcome State Fault Refusal :=
  let r : Req := { instr := .nop, walker := true }
  issue r (fun e _ => .done e) s

/-- The current group has issued and begins to wait (R134). -/
def Env.waitNext (e : Env) (w : Wait) : Res :=
  let g := e.t.group
  .moved { e with t := (e.t.advance g (e.t.unit.words + 1)).waitLanes g w }

def execSleep (n : BitVec 12) (s : State) : Host.Outcome State Fault Refusal :=
  let r : Req := { instr := .sleep n, handler := false }
  issue r (fun e _ => if n = 0 then .done e else e.waitNext (.sleep (e.s.cycle + 64 * n.toNat))) s

/-- A walk ended by `walkd`, or by a walker's `exit` (R364, R368). -/
def Env.endOwnWalk (e : Env) : Res := .ovr (e.via (fun s => s.endWalk e.c.core e.t.idx))

/-- The acting threads exit (R161); whatever barriers that completes follow (R149). -/
def execExit (g : BitVec 3) (s : State) : Host.Outcome State Fault Refusal :=
  let r : Req := { instr := .exit g, pg := g.toNat, walker := true }
  issueThen r (fun crew s => s.completeBarriers crew 8) (fun e m =>
    if m = 0 then .done e
    else if e.c.walker then e.endOwnWalk
    else
      let t1 := e.t.advance (e.t.group &&& ~~~m) (e.t.unit.words + 1)
      .moved { e with t := t1.modThreads m (fun _ x => { x with state := .exited }) }) s

/-! ### Barriers (R162, R163) -/

/-- The current group arrives, and the barrier completes if that was all it waited for (R149). -/
def arrive (i : Instr) (w : Wait) (refused : Env → Bool) (count : Env → Env) (s : State) : Host.Outcome State Fault Refusal :=
  let r : Req := { instr := i, handler := false, tx := false }
  issueThen r (fun crew s => s.completeBarriers crew 8) (fun e _ => if refused e then e.illegal else (count e).waitNext w) s

/-- A slot at or above `.bars` traps (R148); the slot counts the threads that arrive. -/
def execBar (b : BitVec 4) (s : State) : Host.Outcome State Fault Refusal :=
  arrive (.bar b) (.bar b.toNat) (fun e => decide (e.c.nbars ≤ b.toNat)) (fun e =>
    { e with c := { e.c with bars := modAt e.c.bars b.toNat (fun x => { x with count := x.count + laneCount e.t.group }) } }) s

def execGbar (s : State) : Host.Outcome State Fault Refusal := arrive .gbar .gbar (fun _ => false) id s
def execSbar (s : State) : Host.Outcome State Fault Refusal := arrive .sbar .sbar (fun _ => false) id s

/-! ### Register blocks (R164 to R166) -/

/-- Growth requests of the issuing crew's core served (R146). -/
def State.serveCrewCore (s : State) (crew : Nat) : State :=
  match s.crew? crew with
  | some c => s.serveGrowth c.core 512
  | none => s

/-- Whether n more blocks pass the strand's ceiling (R164). -/
def Env.overCeiling (e : Env) (n : Nat) : Bool := decide (e.c.ceil < e.t.regs.length + 8 * n)

/-- The group waits where it stands for the strand's earlier request (R164). -/
def Env.waitEarlier (e : Env) : Res :=
  let g := e.t.group
  .ovr { e with t := (e.t.closeUnit.waitLanes g .rgrow).settle g }

def execRgrow (n : BitVec 3) (s : State) : Host.Outcome State Fault Refusal :=
  let r : Req := { instr := .rgrow n, handler := false }
  issueThen r (fun crew s => s.serveCrewCore crew) (fun e _ =>
    if e.overCeiling n.toNat then e.illegal
    else if e.t.grow.isSome then e.waitEarlier
    else ({ e with t := { e.t with grow := some n.toNat, growAge := e.c.order } }).waitNext .rgrow) s

/-- Whether an older request waits on the core (R146). -/
def Env.olderWaits (e : Env) : Bool := (e.commit.growReqs e.c.core).any (fun q => olderReq q.1 (e.c.seq, e.c.order, e.t.idx))

def execRgrowTry (p n : BitVec 3) (s : State) : Host.Outcome State Fault Refusal :=
  let r : Req := { instr := .rgrowTry p n, pwrites := [p.toNat], handler := false }
  issue r (fun e m =>
    if e.overCeiling n.toNat then e.illegal
    else
      let take := e.t.grow.isNone && !e.olderWaits && decide (n.toNat ≤ e.commit.poolFree e.c.core)
      .done ((if take then e.addBlocks n.toNat else e).putPred m p.toNat (fun _ => take))) s

/-- The top registers released (R60) and their blocks given back (R147). -/
def Env.dropBlocks (e : Env) (keep n : Nat) : Env :=
  let s1 := e.s.modCore e.c.core (fun co => { co with naming := releaseRegs co.naming (e.t.regs.drop keep) })
  ({ e with s := s1, t := { e.t with regs := e.t.regs.take keep } } : Env).via (fun s => s.giveBack e.c.core (e.c.id, e.t.idx) n)

def execRshrink (n : BitVec 3) (s : State) : Host.Outcome State Fault Refusal :=
  let r : Req := { instr := .rshrink n, handler := false }
  issueThen r (fun crew s => s.serveCrewCore crew) (fun e _ =>
    if e.t.regs.length < e.c.baseRegs + 8 * n.toNat then e.illegal
    else
      let keep := e.t.regs.length - 8 * n.toNat
      let high (p : Pending) : Bool := (p.dsts ++ p.srcs).any (fun v => decide (keep ≤ v))
      let e1 := e.settle high
      if e1.t.inflight.any (fun p => !p.done && high p) then .hold e1 else .done (e1.dropBlocks keep n.toNat)) s

/-! ### The tile dispenser (R167 to R169) -/

def DispRange.len (r : DispRange) : Nat := r.hi - r.lo

/-- The slot with the longest range; ties go to the lowest. -/
def longest (rs : List DispRange) : Nat :=
  (List.range rs.length).foldl (fun best j =>
    if (rs.getD best { lo := 0, hi := 0 }).len < (rs.getD j { lo := 0, hi := 0 }).len then j else best) 0

/-- One request of slot j: the index taken, if any, and the ranges after it. Requests are served one at a time, so a steal
is first in the queue when it joins. -/
def dispense (rs : List DispRange) (j : Nat) : Option Nat × List DispRange :=
  let own := rs.getD j { lo := 0, hi := 0 }
  if own.len = 0 then
    let v := longest rs
    let far := rs.getD v { lo := 0, hi := 0 }
    if far.len = 0 then (none, rs)
    else
      let m := ceilDiv far.len 2
      let rs1 := rs.set v { far with hi := far.hi - m }
      (some (far.hi - m), rs1.set j { lo := far.hi - m + 1, hi := far.hi })
  else (some own.lo, rs.set j { own with lo := own.lo + 1 })

/-- `disp` (R168): illegal where the launch is not persistent. -/
def execDisp (d : BitVec 6) (p g : BitVec 3) (s : State) : Host.Outcome State Fault Refusal :=
  let r : Req := { instr := .disp d p g, pg := g.toNat, writes := regs1 d, pwrites := [p.toNat], handler := false, idem := false }
  issue r (fun e m =>
    match e.s.launch? e.c.seq with
    | none => e.illegal
    | some l =>
      if !l.pkt.persist then e.illegal
      else if m = 0 then .done e
      else
        let (x, rs) := dispense l.disp e.c.dispSlot
        let e1 : Env := { e with s := e.s.modLaunch e.c.seq (fun l => { l with disp := rs }) }
        let v : Word := match x with | some k => BitVec.ofNat 32 k | none => 0xFFFFFFFF
        .done ((e1.puts true [e1.t.result m .uniform d.toNat (fun _ => v)]).putPred m p.toNat (fun _ => x.isSome))) s

end Sys2Proof.Machine
end

