-- ==== Sys2Proof/Machine/LoadStore.lean ====
section
/-! DEFINITION. Class 0x6: loads and stores of global memory and of the local buffers
(spec/09_memory_and_copy_instructions.md R196 to R207, spec/08_memory_model.md R171 to R173, R188, R192). -/

namespace Sys2Proof.Machine

/-! ### Elements of a lane access (R198 to R202) -/

/-- An element as a lane finds it: its address, the address whose translation it wants when that is not known, its
class, size and nibble, the physical and virtual address of its block scale with the translation used, and whether that scale's page is read-only during the
launch. -/
structure LaneEl where
  va    : Nat
  want  : Nat
  cls   : ECls
  size  : Nat
  nib   : Bool
  scale : Option Nat
  sva   : Nat
  str   : Option Trans
  rodl  : Bool
  deriving DecidableEq, Repr

/-- A raw access of n bytes (R199). -/
def rawEl (look : Nat → Lookup) (perm : DWord → Bool) (n va : Nat) : LaneEl :=
  -- alignment is judged on the address alone, whatever its page is (R199)
  let cls := match classify look { perm := perm, fits := fun _ a => a % n = 0 } va with
    | .refused => if va % n = 0 then .refused else .misaligned
    | c => c
  { va := va, want := va, cls := cls, size := n, nib := false,
    scale := none, sva := 0, str := none, rodl := true }

/-- Bits of a typed element: those of its page's format, or of the load's type on an untyped page (R201). -/
def typedBits (pair : Bool) (e : DWord) : Nat := if pteFmt e = 0 then (if pair then 16 else 32) else fmtBits (pteFmt e)

/-- Bytes of storage that hold an element. -/
def storeBytes (bits : Nat) : Nat := if bits = 4 then 1 else bits / 8

/-- The block scale of an element on a scaled page: its own translation applies (R355, R198). -/
def LaneEl.withScale (look : Nat → Lookup) (perm : DWord → Bool) (x : LaneEl) (e : DWord) : LaneEl :=
  if !fmtScaled (pteFmt e) then x
  else
    let sa := scaleAddr e x.va
    match look sa with
    | .miss => { x with want := sa, cls := .need }
    | .invalid => { x with cls := .refused }
    | .found st =>
      if !perm st.entry then { x with cls := .refused }
      else
        let y := { x with scale := some (st.pa sa), sva := sa, str := some st, rodl := pteRodl st.entry }
        if pteP st.entry then y
        else match x.cls with
          | .good tr => { y with cls := .absent tr }
          | _ => y

/-- One element of a typed load at an address (R200 to R202). -/
def typedEl (look : Nat → Lookup) (pair nib : Bool) (va : Nat) : LaneEl :=
  let fits (e : DWord) (a : Nat) : Bool := (pair || typedBits pair e ≠ 4) && a % storeBytes (typedBits pair e) = 0
  let cls := classify look { perm := pteR, fits := fits } va
  let size := match cls with
    | .good tr => storeBytes (typedBits pair tr.entry)
    | .absent tr => storeBytes (typedBits pair tr.entry)
    | _ => 1
  let x : LaneEl := { va := va, want := va, cls := cls, size := size, nib := nib, scale := none, sva := 0, str := none, rodl := true }
  match cls with
  | .good tr => x.withScale look pteR tr.entry
  | .absent tr => x.withScale look pteR tr.entry
  | _ => x

/-- The elements of one lane of a typed load (R200): element 1 lies directly after element 0, in the high nibble of its
byte when element 0 is 4 bits wide. -/
def typedEls (look : Nat → Lookup) (pair : Bool) (va : Nat) : List LaneEl :=
  let x := typedEl look pair false va
  if !pair || vaBad va then [x]
  else match look va with
    | .found tr =>
      let bits := typedBits true tr.entry
      [x, if bits = 4 then typedEl look true true va else typedEl look true false (va + storeBytes bits)]
    | _ => [x]

/-- What an element and its lane's page give the operation in flight. -/
def LaneEl.elem (x : LaneEl) (lane : Nat) (typed : Bool) : Elem :=
  let mk (tr : Trans) (gone : Bool) : Elem :=
    { lane := lane, va := BitVec.ofNat 64 x.va, pa := tr.pa x.va, size := x.size, nib := x.nib,
      fmt := if typed then pteFmt tr.entry else 0, geom := pteGeom tr.entry, scale := if typed then x.scale else none, sva := x.sva,
      tr := some tr, str := x.str, absent := gone,
      rodl := pteRodl tr.entry && x.rodl && !inKick (tr.pa x.va), sh := none }
  match x.cls with
  | .good tr => mk tr false
  | .absent tr => mk tr true
  | _ => mk { ctx := 0, base := 0, level := 3, entry := 0 } true

/-- The translation an element used. -/
def LaneEl.trans (x : LaneEl) : Option Trans :=
  match x.cls with
  | .good tr => some tr
  | .absent tr => some tr
  | _ => none

/-! ### The order of faults (R198) -/

/-- The elements of the acting lanes, scanned in ascending lane order. -/
def scanLanes (xs : List (Nat × List LaneEl)) : Scan :=
  xs.foldl (fun s x => x.2.foldl (fun s el => match el.cls with
    | .need => s.add x.1 el.want .need
    | c => s.add x.1 el.va c) s) .empty

/-- A lane's last-page register takes the translation its element 0 used (R362). -/
def Env.keepLast (e : Env) (xs : List (Nat × List LaneEl)) : Env :=
  { e with t := xs.foldl (fun t x => match x.2 with
      | el :: _ => match el.trans with
        | some tr => t.modThread x.1 (fun th => { th with lastPage := some tr })
        | none => t
      | [] => t) e.t }

/-- A global lane access in the order of R198: translation, alignment, classification, performing by `go` for the lanes
that are not faulting, and the PERM trap once they have performed. -/
def Env.access (e : Env) (kind : BitVec 5) (m : Mask) (els : Nat → List LaneEl) (go : Env → Mask → List (Nat × List LaneEl) → Res) : Res :=
  let xs := (lanesOf m).map (fun l => (l, els l))
  let sc := scanLanes xs
  if !sc.needs.isEmpty then e.missAll kind sc.needs
  else if sc.align ≠ 0 then .trap e (.plain cALIGN sc.align) false
  else
    let perf := m &&& ~~~sc.fault
    let ys := xs.filter (fun x => laneOn perf x.1)
    match go (e.keepLast ys) perf ys with
    | .done e1 => if sc.fault = 0 then .done e1 else .trap e1 (.at cPERM sc.fault sc.faultVa) (perf ≠ 0)
    | x => x

/-! ### Loads (R204, R206) -/

/-- The key of a load (R61, R64, R80): its word and `hint.imm` bits as its stepped offset gives them. -/
def Req.loadKey (r : Req) (e : Env) (m : Mask) (off : Int) (load : List Nat) : VKey :=
  let k := r.key e m 0 load
  let w := k.word.toNat
  { k with word := BitVec.ofNat 32 (w - bitsOf w 3 9 * 8 + wrapNat off 9 * 8), imm := k.imm.map (fun _ => BitVec.ofInt 24 (off / 512)) }

/-- Whether a lane of the mask has a transaction open, so that a load names nothing (R206). -/
def Env.namesLoads (e : Env) (m : Mask) : Bool := e.c.naming && !e.t.txOpen m

/-- An operation issued; in a strand with an ACTIVE lane it is performed at once (R192). -/
def Env.startMem (e : Env) (k : Ctr) (dsts : List Nat) (kind : OpKind) (now : Bool) (srcs : List Nat := []) : Res :=
  match e.start k dsts none kind srcs with
  | .done e1 => .done (if now then e1.performOp (e1.t.nextOp - 1) else e1)
  | x => x

/-- Whether a strand has an ACTIVE lane. -/
def Strand.txActive (t : Strand) : Bool := laneIds.any (fun l => (t.thread l).tx.active)

/-- A read from a page that is not resident dooms an ACTIVE lane (R191, R192). -/
def Strand.doomAbsent (t : Strand) (m : Mask) : Strand :=
  t.modThreads m (fun _ x => if x.tx.active then { x with tx := { x.tx with state := 9 } } else x)

/-- Lanes with an absent element. -/
def absentLanes (ys : List (Nat × List LaneEl)) : Mask :=
  maskOf (fun l => ys.any (fun y => y.1 = l && y.2.any (fun el => match el.cls with | .absent _ => true | _ => false)))

/-- A load in a walker strand (R364): raw and physical, at the home slice. Its tag follows R54 and R206. -/
def Env.walkerLoad (e : Env) (m : Mask) (n d : Nat) (tag : Tag) (addr : Nat → Nat) : Res :=
  let bad := maskOf (fun l => laneOn m l && (vaBad (addr l) || addr l % n ≠ 0))
  if bad ≠ 0 then .trap e (.plain cALIGN bad) false
  else
    let errs := (lanesOf m).filter (fun l => e.s.bad (addr l) n)
    match errs.map addr with
    | a :: as => .trap (e.via (fun s => s.consumeUes e.c.ctx false (a :: as))) (.at cECC (maskOf (fun l => errs.contains l)) (as.foldl min a)) false
    | [] =>
    let val (l : Nat) : Nat := e.s.peek (addr l) n
    .done (e.puts true (if n = 8 then e.t.result64 m tag tag d val else [e.t.result m tag d (fun l => BitVec.ofNat 32 (val l))]))

/-- `ld`: `ty` is the register type and `unit` the bytes that scale the offset. DESIGN CHOICE (assumption 78): with an empty effective
lane mask it raises no counter, where R204 and R205 say that the instruction raises one and nothing of an empty mask; the other
memory instructions of classes 0x6 to 0x8 do the same. -/
def loadForm (i : Instr) (ty : LoadTy) (unit : Nat) (d a : BitVec 6) (imm9 : BitVec 9) (g : BitVec 3) (s : State) :
    Host.Outcome State Fault Refusal :=
  let wide := ty = .b64
  let raw := ty = .b32 || ty = .b64
  let r : Req := { instr := i, pg := g.toNat, reads := regs2 a, writes := regsW wide d, imm := true, rep := .mem, off := some imm9, walker := raw }
  issue r (fun e m =>
    match memOff e.t.unit imm9 with
    | none => e.illegal
    | some off =>
      if m = 0 then .done e
      else
        let addr (l : Nat) : Nat := e.t.ea a.toNat off unit l
        let tag : Tag := if (e.t.reg a.toNat).tag = .uniform && (e.t.reg (a.toNat + 1)).tag = .uniform then .uniform else .general
        if e.c.walker then e.walkerLoad m unit d.toNat tag addr
        else
          let key := r.loadKey e m off [e.c.ctx, e.c.seq]
          let names := e.namesLoads m
          match (if names then e.reuse? key r.writes else none) with
          | some e1 => .done e1
          | none =>
            let look (l : Nat) : Nat → Lookup := e.look l
            e.access kindRead m
              (fun l => if raw then [rawEl (look l) pteR unit (addr l)] else typedEls (look l) (ty = .f16 || ty = .bf16) (addr l))
              (fun e perf ys =>
                if perf = 0 then .done e
                else
                  let els := ys.flatMap (fun y => y.2.map (fun x => x.elem y.1 (!raw)))
                  let uni := (e.t.reg a.toNat).tag = .uniform && (e.t.reg (a.toNat + 1)).tag = .uniform
                  let eligible := names && perf = m && els.all (fun x => x.rodl && !x.absent)
                  let now := e.t.txActive
                  match e.startMem .ld r.writes (.load ty d.toNat els uni (if eligible then some key else none) .empty) now with
                  | .done e1 => .done { e1 with t := e1.t.doomAbsent (absentLanes ys) }
                  | x => x)) s

def execLdB32 (d a : BitVec 6) (i : BitVec 9) (g : BitVec 3) (s : State) : Host.Outcome State Fault Refusal :=
  loadForm (.ldB32 d a i g) .b32 4 d a i g s
def execLdB64 (d a : BitVec 6) (i : BitVec 9) (g : BitVec 3) (s : State) : Host.Outcome State Fault Refusal :=
  loadForm (.ldB64 d a i g) .b64 8 d a i g s
def execLdF32 (d a : BitVec 6) (i : BitVec 9) (g : BitVec 3) (s : State) : Host.Outcome State Fault Refusal :=
  loadForm (.ldF32 d a i g) .f32 1 d a i g s
def execLdF16 (d a : BitVec 6) (i : BitVec 9) (g : BitVec 3) (s : State) : Host.Outcome State Fault Refusal :=
  loadForm (.ldF16 d a i g) .f16 1 d a i g s
def execLdBf16 (d a : BitVec 6) (i : BitVec 9) (g : BitVec 3) (s : State) : Host.Outcome State Fault Refusal :=
  loadForm (.ldBf16 d a i g) .bf16 1 d a i g s
def execLdI32 (d a : BitVec 6) (i : BitVec 9) (g : BitVec 3) (s : State) : Host.Outcome State Fault Refusal :=
  loadForm (.ldI32 d a i g) .i32 1 d a i g s

/-! ### Stores (R205) -/

/-- A lane's share of a store or an atomic. -/
def LaneEl.acc (x : LaneEl) (lane : Nat) (a b : DWord) : LaneAcc :=
  match x.cls with
  | .good tr => { lane := lane, va := x.va, pa := tr.pa x.va, a := a, b := b, absent := false }
  | _ => { lane := lane, va := x.va, pa := 0, a := a, b := b, absent := true }

/-- A transactional lane's store (R192): buffered word by word while the lane is ACTIVE. DESIGN CHOICE (assumption 31): the store of a
doomed lane, one that is INTR in its handler among them, is dropped and performs nothing; R192 says only that it is not buffered. -/
def Env.bufferStore (e : Env) (n : Nat) (tr : Option Trans) (a : LaneAcc) : Env :=
  if a.absent then e
  else
    let bs := leBytes n a.a.toNat
    let put (x : Tx) (pa : Nat) (bs : List Byte) : Tx := if x.active then x.buffer pa bs (n = 8) tr else x
    let all (x : Tx) : Tx := if n = 8 then put (put x a.pa (bs.take 4)) (a.pa + 4) (bs.drop 4) else put x a.pa bs
    { e with t := e.t.modThread a.lane (fun th => { th with tx := all th.tx }) }

/-- The stores of the lanes that are not faulting: those of a transaction are buffered, and the others are in flight. The instruction
is counted on st in any case (R205). `trs` gives the translations the lanes used. -/
def Env.storeLanes (e : Env) (n : Nat) (srcs : List Nat) (trs : Nat → Option Trans) (accs : List LaneAcc) : Res :=
  let inTx (x : LaneAcc) : Bool := (e.t.thread x.lane).tx.open
  let plain := accs.filter (fun x => !inTx x)
  let e1 := (accs.filter inTx).foldl (fun e x => e.bufferStore n (trs x.lane) x) e
  let e2 : Env := { e1 with t := e1.t.markAbsent (maskOf (fun l => accs.any (fun x => x.lane = l && x.absent && inTx x))) }
  -- a store that cannot be counted yet leaves the transactions as they were
  match e2.startMem .st [] (.store n plain) e.t.txActive srcs with
  | .hold e3 => .hold { e3 with t := { e3.t with threads := e.t.threads, preds := e.t.preds } }
  | x => x

/-- `st` of n bytes. -/
def storeForm (i : Instr) (n : Nat) (d a : BitVec 6) (imm9 : BitVec 9) (g : BitVec 3) (s : State) : Host.Outcome State Fault Refusal :=
  let wide := n = 8
  let r : Req := { instr := i, pg := g.toNat, reads := regsW wide d ++ regs2 a, imm := true, rep := .mem, off := some imm9 }
  issue r (fun e m =>
    match memOff e.t.unit imm9 with
    | none => e.illegal
    | some off =>
      if m = 0 then .done e
      else e.access kindWrite m (fun l => [rawEl (e.look l) pteW n (e.t.ea a.toNat off n l)])
        (fun e perf ys =>
          if perf = 0 then .done e
          else
            e.storeLanes n (regsW wide d) (fun l => (ys.find? (fun y => y.1 = l)).bind (fun y => y.2.head?.bind LaneEl.trans))
              (ys.flatMap (fun y => y.2.map (fun x => x.acc y.1 (BitVec.ofNat 64 (e.t.opnd wide d.toNat y.1)) 0))))) s

def execStB8 (d a : BitVec 6) (i : BitVec 9) (g : BitVec 3) (s : State) : Host.Outcome State Fault Refusal :=
  storeForm (.stB8 d a i g) 1 d a i g s
def execStB16 (d a : BitVec 6) (i : BitVec 9) (g : BitVec 3) (s : State) : Host.Outcome State Fault Refusal :=
  storeForm (.stB16 d a i g) 2 d a i g s
def execStB32 (d a : BitVec 6) (i : BitVec 9) (g : BitVec 3) (s : State) : Host.Outcome State Fault Refusal :=
  storeForm (.stB32 d a i g) 4 d a i g s
def execStB64 (d a : BitVec 6) (i : BitVec 9) (g : BitVec 3) (s : State) : Host.Outcome State Fault Refusal :=
  storeForm (.stB64 d a i g) 8 d a i g s

/-! ### The local buffers (R207) -/

/-- Whether a scoreboard entry holds a lane access to bytes [a, a + 4) of a buffer (R188): `ldb` waits for written ranges,
`stb` for any. -/
def SbEntry.blocks (b : SbEntry) (sp : Space) (a : Nat) (store : Bool) : Bool :=
  b.space = sp && (b.writes || store) && decide (b.first ≤ a + 3 ∧ a ≤ b.last)

/-- The scoreboard's entries that are held: a copy holds its entries until it is counted complete (R188). -/
def State.board (s : State) (core : Nat) : List SbEntry :=
  (s.core core).sboard.filter (fun b => match s.env? b.crew b.strand with
    | some e => e.t.inflight.any (fun p => p.id = b.op)
    | none => false)

/-- The copies that hold an access, performed as far as they can be. -/
def Env.clearBoard (e : Env) (sp : Space) (addrs : List Nat) (store : Bool) : Env :=
  let hits := (e.s.board e.c.core).filter (fun b => addrs.any (fun a => b.blocks sp a store))
  hits.foldl (fun e b => e.via (fun s => s.settleStrand b.crew b.strand (fun p => p.id = b.op))) e

/-- A local access (R207): alignment, the claim, the scoreboard, and then `go` with each lane's address in the core's
buffer. Neither trap performs anything. -/
def Env.localAccess (e : Env) (sp : Space) (m : Mask) (addr : Nat → Nat) (store : Bool) (go : Env → (Nat → Nat) → Res) : Res :=
  let cl := e.c.claim sp
  let mis := maskOf (fun l => laneOn m l && addr l % 4 ≠ 0)
  let out := maskOf (fun l => laneOn m l && decide (cl.size < addr l + 4))
  if mis ≠ 0 then .trap e (.plain cALIGN mis) false
  else if out ≠ 0 then .trap e (.plain cPERM out) false
  else
    let at_ (l : Nat) : Nat := cl.base + addr l
    let addrs := (lanesOf m).map at_
    let e1 := e.clearBoard sp addrs store
    if (e1.s.board e.c.core).any (fun b => addrs.any (fun a => b.blocks sp a store)) then .hold e1 else go e1 at_

/-- `ldb`. -/
def loadLocal (i : Instr) (sp : Space) (d a : BitVec 6) (imm9 : BitVec 9) (g : BitVec 3) (s : State) : Host.Outcome State Fault Refusal :=
  let r : Req := { instr := i, pg := g.toNat, reads := regs1 a, writes := regs1 d, imm := true, rep := .mem, off := some imm9 }
  issue r (fun e m =>
    match memOff e.t.unit imm9 with
    | none => e.illegal
    | some off =>
      if m = 0 then .done e
      else
        let key := r.loadKey e m off [e.c.ctx, e.c.seq, e.c.wclaim.base, e.c.wclaim.size]
        let names := e.c.naming && sp = .wbuf
        match (if names then e.reuse? key r.writes else none) with
        | some e1 => .done e1
        | none =>
          e.localAccess sp m (fun l => e.t.eaLocal a.toNat off l) false (fun e at_ =>
            let co := e.s.core e.c.core
            let accs : List LaneAcc := (lanesOf m).map (fun l =>
              { lane := l, va := at_ l - (e.c.claim sp).base, pa := at_ l, a := BitVec.ofNat 64 (Memory.readNat (co.buf sp) (at_ l) 4), b := 0,
                absent := e.s.ue.contains (bufUnit e.c.core sp (at_ l)) })
            e.start .ld r.writes none (.ldb sp d.toNat accs ((e.t.reg a.toNat).tag = .uniform) (if names then some key else none)))) s

def execLdbW (d a : BitVec 6) (i : BitVec 9) (g : BitVec 3) (s : State) : Host.Outcome State Fault Refusal :=
  loadLocal (.ldbW d a i g) .wbuf d a i g s
def execLdbA (d a : BitVec 6) (i : BitVec 9) (g : BitVec 3) (s : State) : Host.Outcome State Fault Refusal :=
  loadLocal (.ldbA d a i g) .abuf d a i g s
def execLdbC (d a : BitVec 6) (i : BitVec 9) (g : BitVec 3) (s : State) : Host.Outcome State Fault Refusal :=
  loadLocal (.ldbC d a i g) .cbuf d a i g s

/-- `stb`: lanes in ascending order, performed at the buffer (R173). -/
def storeLocal (i : Instr) (sp : Space) (d a : BitVec 6) (imm9 : BitVec 9) (g : BitVec 3) (s : State) : Host.Outcome State Fault Refusal :=
  let r : Req := { instr := i, pg := g.toNat, reads := regs1 d ++ regs1 a, imm := true, rep := .mem, off := some imm9 }
  issue r (fun e m =>
    match memOff e.t.unit imm9 with
    | none => e.illegal
    | some off =>
      if m = 0 then .done e
      else e.localAccess sp m (fun l => e.t.eaLocal a.toNat off l) true (fun e at_ =>
        match e.start .st [] none (.stb sp []) (regs1 d) with
        | .done e1 => .done { e1 with s := (lanesOf m).foldl (fun s l =>
            s.writeLocal e.c.core sp (at_ l) (leBytes 4 (e.t.lane d.toNat l).toNat)) e1.s }
        | x => x)) s

def execStbA (d a : BitVec 6) (i : BitVec 9) (g : BitVec 3) (s : State) : Host.Outcome State Fault Refusal :=
  storeLocal (.stbA d a i g) .abuf d a i g s
def execStbC (d a : BitVec 6) (i : BitVec 9) (g : BitVec 3) (s : State) : Host.Outcome State Fault Refusal :=
  storeLocal (.stbC d a i g) .cbuf d a i g s

end Sys2Proof.Machine
end

