-- ==== Sys2Proof/Machine/Atomic.lean ====
section
/-! DEFINITION. Class 0x7: atomics, the ordering instructions, `waita`, and transactions
(spec/09_memory_and_copy_instructions.md R208 to R214, spec/08_memory_model.md R180, R191 to R195). -/

namespace Sys2Proof.Machine

/-! ### Atomics (R208 to R211) -/

/-- The permission of an atomic (R198). -/
def pteRWA (e : DWord) : Bool := pteR e && pteW e && pteA e

/-- An atomic access of n bytes: the release half first, the lanes' operations, and the acquire half once they have been
performed (R209). `srcs` are the registers of the lanes' data (R166). -/
def Env.atomic (e : Env) (m : Mask) (n a : Nat) (acq rel : Bool) (dsts : List Nat) (lane : LaneEl → Nat → LaneAcc)
    (srcs : List Nat) (kind : List LaneAcc → OpKind) : Res :=
  if m = 0 then .done e
  else e.access kindAtomic m (fun l => [rawEl (e.look l) pteRWA n (e.t.lane64 a l).toNat])
    (fun e perf ys =>
      if perf = 0 then .done e
      else
        let accs := ys.flatMap (fun y => y.2.map (fun x => lane x y.1))
        let e1 := if rel then e.release else e
        match e1.startMem .ld dsts (kind accs) acq srcs with
        | .done e2 => .done (if acq then e2.acquire else e2)
        | x => x)

/-- Whether an `atom` operation is 64 bits wide (R208). -/
def atomForm (i : Instr) (acq rel : Bool) (d a b : BitVec 6) (f g : BitVec 3) (s : State) : Host.Outcome State Fault Refusal :=
  let wide := atomWide f.toNat
  let r : Req := { instr := i, pg := g.toNat, reads := regs2 a ++ regsW wide b, writes := regsW wide d, tx := false }
  issue r (fun e m =>
    e.atomic m (if wide then 8 else 4) a.toNat acq rel r.writes
      (fun x l => x.acc l (BitVec.ofNat 64 (e.t.opnd wide b.toNat l)) 0) (regsW wide b)
      (fun accs => .atom f.toNat d.toNat accs)) s

def execAtom (d a b : BitVec 6) (f g : BitVec 3) (s : State) : Host.Outcome State Fault Refusal :=
  atomForm (.atom d a b f g) false false d a b f g s
def execAtomAcq (d a b : BitVec 6) (f g : BitVec 3) (s : State) : Host.Outcome State Fault Refusal :=
  atomForm (.atomAcq d a b f g) true false d a b f g s
def execAtomRel (d a b : BitVec 6) (f g : BitVec 3) (s : State) : Host.Outcome State Fault Refusal :=
  atomForm (.atomRel d a b f g) false true d a b f g s
def execAtomAcqRel (d a b : BitVec 6) (f g : BitVec 3) (s : State) : Host.Outcome State Fault Refusal :=
  atomForm (.atomAcqRel d a b f g) true true d a b f g s

/-- `cas` (R211): vd holds the new value and vb the comparand; the ordering bits are `.acq` and `.rel`. -/
def execCas (d a b : BitVec 6) (o : BitVec 2) (w : BitVec 1) (g : BitVec 3) (s : State) : Host.Outcome State Fault Refusal :=
  let wide := w = 1
  let r : Req := { instr := .cas d a b o w g, pg := g.toNat, reads := regsW wide d ++ regs2 a ++ regsW wide b, writes := regsW wide d,
                   tx := false }
  issue r (fun e m =>
    e.atomic m (if wide then 8 else 4) a.toNat (o.getLsbD 0) (o.getLsbD 1) r.writes
      (fun x l => x.acc l (BitVec.ofNat 64 (e.t.opnd wide d.toNat l)) (BitVec.ofNat 64 (e.t.opnd wide b.toNat l)))
      (regsW wide d ++ regsW wide b) (fun accs => .cas wide d.toNat accs)) s

/-! ### Ordering instructions (R180, R212) -/

/-- `fence` is `rel` and then `acq` (R180). -/
def Env.fence (e : Env) : Env := e.release.acquire

def execAcq (s : State) : Host.Outcome State Fault Refusal :=
  let r : Req := { instr := .acq, tx := false }
  issue r (fun e _ => .done e.acquire) s

def execRel (s : State) : Host.Outcome State Fault Refusal :=
  let r : Req := { instr := .rel, tx := false }
  issue r (fun e _ => .done e.release) s

def execFence (s : State) : Host.Outcome State Fault Refusal :=
  let r : Req := { instr := .fence, tx := false }
  issue r (fun e _ => .done e.fence) s

/-! ### waita (R213) -/

/-- What a lane of a `waita` reads: its word at its home slice, none when the word is uncorrectable, 0 when absent. -/
def Env.waitaRead (e : Env) (x : LaneEl) : Option Word :=
  match x.cls with
  | .good tr =>
    let pa := tr.pa x.va
    if inKick pa then some (BitVec.ofNat 32 (e.s.kickLoad pa 4))
    else if e.s.bad pa 4 then none
    else some (BitVec.ofNat 32 (e.s.peek pa 4))
  | _ => some 0

/-- A lane of a `waita` as it finds its word. -/
structure WaitaLane where
  lane : Nat
  va   : Nat
  pa   : Nat
  exp  : Word
  time : DWord
  read : Option Word
  gone : Bool
  tr   : Option Trans
  deriving DecidableEq, Repr

/-- Whether the lane returns at once: it is absent, its word differs, or its deadline has passed. -/
def WaitaLane.returns (w : WaitaLane) (clock : DWord) : Bool :=
  w.gone || w.read ≠ some w.exp || decide (w.time.toNat < clock.toNat)

/-- The lanes that return have their results, and the others wait; an acquire follows for those that return. The lanes of `past` go on
to the next word. -/
def Env.waitaIssue (e : Env) (ws : List WaitaLane) (vd pd : Nat) (past : Mask) : Env :=
  let now := ws.filter (fun w => w.returns e.s.clock)
  let later := ws.filter (fun w => !w.returns e.s.clock)
  let back := maskOf (fun l => now.any (fun w => w.lane = l))
  let val (l : Nat) : Word := match now.find? (fun w => w.lane = l) with | some w => w.read.getD 0 | none => 0
  let hit (l : Nat) : Bool := now.any (fun w => w.lane = l && !w.gone && w.read ≠ some w.exp)
  let gone := maskOf (fun l => now.any (fun w => w.lane = l && w.gone))
  let e1 := if back = 0 then e else e.puts true [e.t.result back .general vd val]
  let e2 := if back = 0 then e1 else (e1.putPred back pd hit).acquire
  let t1 := (e2.t.markAbsent gone).advance past (e.t.unit.words + 1)
  { e2 with t := later.foldl (fun t w => t.modThread w.lane (fun x =>
      { x with state := .waiting (.waita w.pa w.exp w.time vd pd { pc := (e.t.thread w.lane).pc, va := w.va, tr := w.tr }) })) t1 }

/-- Whether some lanes of a strand still wait in `waita`. -/
def Strand.stillWaits (t : Strand) (m : Mask) : Bool :=
  (lanesOf m).any (fun l => match (t.thread l).state with | .waiting (.waita ..) => true | _ => false)

/-- The rest of a `waita` whose other lanes have gone on: it holds until the last of them has returned, and then traps (R198). -/
def Env.waitaFault (e : Env) (w : WaitaFault) : Res :=
  if e.t.stillWaits w.lanes then .hold e
  else .trap { e with t := { e.t with waita := none } } (.at cPERM w.fault w.va) true

/-- `waita`: when a lane faults, the trap comes once every other lane has returned (R198). Those return separately (R213), so they go on
without the faulting lanes, which hold at the word until then (DEDUCED, assumption 66). -/
def execWaita (d a b : BitVec 6) (p g : BitVec 3) (s : State) : Host.Outcome State Fault Refusal :=
  let r : Req := { instr := .waita d a b p g, pg := g.toNat, reads := regs1 d ++ regs2 a ++ regs2 b, writes := regs1 d, pwrites := [p.toNat],
                   handler := false, tx := false }
  issue r (fun e m =>
    if m = 0 then .done e
    else
      let els (l : Nat) : List LaneEl := [rawEl (e.look l) pteR 4 (e.t.lane64 a.toNat l).toNat]
      let faults := (lanesOf m).filter (fun l => (els l).any (fun x => x.cls = .refused))
      let held := match e.t.waita with | some w => if w.pc = e.t.fetchPc then some w else none | none => none
      match held with
      | some w => e.waitaFault w
      | none =>
      e.access kindRead m els (fun e0 perf ys =>
        -- the strand's own earlier accesses to the words come first (R179)
        let words := ys.flatMap (fun y => y.2.flatMap (fun x => match x.cls with | .good tr => wordsOf (tr.pa x.va) 4 | _ => []))
        let e1 := e0.performAll (conflicting e0.t.inflight.reverse words)
        let ws : List WaitaLane := ys.flatMap (fun y => y.2.map (fun x =>
          { lane := y.1, va := x.va, pa := (match x.cls with | .good tr => tr.pa x.va | _ => 0), exp := e.t.lane d.toNat y.1, time := e.t.lane64 b.toNat y.1,
            read := e1.waitaRead x, gone := (match x.cls with | .good _ => false | _ => true), tr := x.trans }))
        let bad := ws.filter (fun w => w.read.isNone)
        if perf = 0 then .done e1
        else match bad with
          | w :: _ =>
            let va := (e.t.lane64 a.toNat w.lane).toNat
            .trap (e1.via (fun s => s.consumeUe e.c.ctx w.pa)) (.at cECC (maskOf (fun l => bad.any (fun y => y.lane = l))) va) false
          | [] =>
            match faults with
            | [] => .moved (e1.waitaIssue ws d.toNat p.toNat e.t.group)
            | l :: _ =>
              let e2 := e1.waitaIssue ws d.toNat p.toNat perf
              let w : WaitaFault := { pc := e.t.fetchPc, lanes := perf, fault := maskOf (fun k => faults.contains k), va := (e.t.lane64 a.toNat l).toNat }
              .moved { e2 with t := { e2.t with waita := some w } })) s

/-! ### Transactions (R191 to R195, R214) -/

/-- Consecutive aborts, up to 15 (R190). -/
def Tx.failed (x : Tx) : Nat := min 15 (x.fails + 1)

/-- `txb` in a lane (R193). -/
def Tx.beginTx (x : Tx) : Tx := { state := 1, begun := true, fails := x.fails, prio := decide (8 ≤ x.fails), rset := [], wset := [] }

/-- A transaction ended without a commit, showing `code` (R191, R193). -/
def Tx.endWith (x : Tx) (code : Nat) : Tx := { state := code, begun := false, fails := x.failed, prio := false, rset := [], wset := [] }

/-- A transaction committed (R194). -/
def Tx.committed : Tx := Tx.none

/-- `txa` in a lane (R193). -/
def Tx.abandon (x : Tx) : Tx := if x.active then x.endWith 8 else if x.doomed then x.endWith x.state else x

def execTxb (g : BitVec 3) (s : State) : Host.Outcome State Fault Refusal :=
  let r : Req := { instr := .txb g, pg := g.toNat, handler := false, tx := false }
  issue r (fun e m =>
    let e1 := e.acquire
    .done { e1 with t := e1.t.modThreads m (fun _ x => { x with tx := x.tx.beginTx }) }) s

def execTxa (g : BitVec 3) (s : State) : Host.Outcome State Fault Refusal :=
  let r : Req := { instr := .txa g, pg := g.toNat }
  issue r (fun e m => .done { e with t := e.t.modThreads m (fun _ x => { x with tx := x.tx.abandon }) }) s

/-- The words of a lane's write set. -/
def Tx.writes (x : Tx) : List Nat := x.wset.map TxWrite.word

/-- The words of a lane's read set. -/
def Tx.reads (x : Tx) : List Nat := x.rset.map TxRead.word

def meets (a b : List Nat) : Bool := a.any (fun w => b.contains w)

/-- Whether two committing lanes conflict (R194). -/
def Tx.conflicts (a b : Tx) : Bool := meets a.writes b.reads || meets a.writes b.writes || meets b.writes a.reads

/-- Whether every word read still holds its recorded value (R194). -/
def State.validates (s : State) (x : Tx) : Bool := x.rset.all (fun r => s.peek (4 * r.word) 4 = r.value.toNat)

/-- The words that a commit reads and finds uncorrectable (R436). -/
def State.badReads (s : State) (x : Tx) : List TxRead := x.rset.filter (fun r => s.bad (4 * r.word) 4)

/-- The writes of a commit performed at their home slices (R195). -/
def State.commitWrites (s : State) (core ctx : Nat) (ws : List TxWrite) : State :=
  ws.foldl (fun s w =>
    let pa := 4 * w.word
    if inKick pa then
      -- an `st.b64` to offset 0 of a block is a kick here too (R309, R377)
      let half (k : Nat) : Option TxWrite := ws.find? (fun y => y.word = k && y.wide && y.bytes = 0xF)
      match half (w.word / 64 * 64), half (w.word / 64 * 64 + 1) with
      | some x, some y =>
        if w.word = x.word then s.kickStore pa 8 (BitVec.ofNat 64 (x.value.toNat + 2 ^ 32 * y.value.toNat))
        else if w.word = y.word then s
        else s.kickStore pa 4 (w.value.setWidth 64)
      | _, _ => s.kickStore pa 4 (w.value.setWidth 64)
    else
      let v := overlay w (s.peek pa 4)
      let s1 := (List.range 4).foldl (fun s k =>
        if w.bytes.getLsbD k then s.modCore core (fun co => co.storeL1 (pa + k) [BitVec.ofNat 8 (w.value.toNat / 2 ^ (8 * k))]) else s) s
      s1.homeWrite (.core core) (some ctx) pa (leBytes 4 v)) s

/-- The outcome of an acting lane that is ACTIVE (R194): `locked` says that a word of it is locked by a transaction of
another strand. A lane that holds priority waits for the lock instead. A lane that reads an uncorrectable word is left as it is: the
instruction traps for it. -/
def Env.commitLane (e : Env) (lower : List Tx) (locked : Bool) (lane : Nat) : Env :=
  let x := (e.t.thread lane).tx
  let set (e : Env) (y : Tx) : Env := { e with t := e.t.modThread lane (fun th => { th with tx := y }) }
  if lower.any (fun a => a.conflicts x) then set e (x.endWith 4)
  else if locked && !x.prio && !(x.rset.isEmpty && x.wset.isEmpty) then set e (x.endWith 6)
  else if !(e.s.badReads x).isEmpty then e
  else if e.s.validates x then set (e.via (fun s => s.commitWrites e.c.core e.c.ctx x.wset)) Tx.committed
  else set e (x.endWith 5)

/-- `txc` (R194, R214): doomed lanes take their codes, the others commit or abort in ascending order, and a fence follows.
A pair conflict aborts the higher lane whatever becomes of the lower one. A lane that reads an uncorrectable word traps once the others
have their outcomes (R198, R436; DEDUCED, assumption 31), and the entry makes it INTR (R193). -/
def execTxc (p g : BitVec 3) (s : State) : Host.Outcome State Fault Refusal :=
  let r : Req := { instr := .txc p g, pg := g.toNat, pwrites := [p.toNat] }
  issue r (fun e m =>
    let e0 := e.drainMem
    let at_ (l : Nat) : Tx := (e0.t.thread l).tx
    let live := (lanesOf m).filter (fun l => (at_ l).active)
    let e1 : Env := { e0 with t := e0.t.modThreads m (fun _ x => if x.tx.doomed then { x with tx := x.tx.endWith x.tx.state } else x) }
    let e2 := live.foldl (fun e l => e.commitLane ((live.filter (fun k => decide (k < l))).map at_) (laneOn e0.t.locked l) l) e1
    let ok (l : Nat) : Bool := live.contains l && (e2.t.thread l).tx.state = 0
    let stuck := live.filter (fun l => (e2.t.thread l).tx.active)
    let out := m &&& ~~~maskOf (fun l => stuck.contains l)
    let e3 : Env := ({ e2.putPred out p.toNat ok with t := { (e2.putPred out p.toNat ok).t with locked := e0.t.locked &&& ~~~out } }).fence
    match stuck.flatMap (fun l => e2.s.badReads (e2.t.thread l).tx) with
    | [] => .done e3
    | r :: rs =>
      .trap (e3.via (fun s => s.consumeUes e.c.ctx false ((r :: rs).map (fun r => 4 * r.word))))
        (.at cECC (m &&& ~~~out) (rs.foldl (fun a r => min a r.va) r.va)) (out ≠ 0)) s

end Sys2Proof.Machine
end

