-- ==== Sys2Proof/Machine/Fetch.lean ====
section
/-! DEFINITION. How a strand comes to issue a word: the active set and the fairness timer (R136, R137), the fetch (R69,
R70), a `rep`'s stepped fields (R80), and the machine's own moves of the agenda, which are time, replacement and upsets. -/

namespace Sys2Proof.Machine

/-! ### The active set and the fairness timer -/

/-- A strand in the active set: one with no runnable thread has left it (R137). -/
def Strand.inSet (t : Strand) : Bool := t.active && t.ready

/-- What a strand's readiness makes of its place (R137): without a runnable thread it has none; outside the set it has been ready
since the cycle at which it became so. -/
def Strand.note (t : Strand) (now : Nat) : Strand :=
  if !t.ready then (if t.active || t.outSince.isSome then { t with active := false, activeFor := 0, outSince := none } else t)
  else if t.active || t.outSince.isSome then t
  else { t with outSince := some now }

/-- A strand ready outside the set: since when, its number, and where it is. -/
def Crew.candidates (c : Crew) : List (Nat × Nat × Nat × Nat) :=
  c.strands.filterMap (fun t => if t.active then none else t.outSince.map (fun n => (n, t.num, c.id, t.idx)))

/-- The candidate that has been ready for longest; ties go to the lower strand number (R137). -/
def longestReady (xs : List (Nat × Nat × Nat × Nat)) : Option (Nat × Nat × Nat × Nat) :=
  xs.foldl (fun best x => match best with
    | none => some x
    | some b => if x.1 < b.1 || (x.1 = b.1 && x.2.1 < b.2.1) then some x else best) none

/-- Vacant places of a core's active set filled (R137). -/
def State.fillSet (s : State) (core fuel : Nat) : State :=
  match fuel with
  | 0 => s
  | n + 1 =>
    let cs := s.residentOn core
    let held := cs.foldl (fun n c => n + (c.strands.filter (fun t => t.active)).length) 0
    match longestReady (cs.flatMap Crew.candidates) with
    | none => s
    | some (_, _, crew, strand) =>
      if 64 ≤ held then s
      else (s.modStrand crew strand (fun t => { t with active := true, activeFor := 0, outSince := none })).fillSet core n

/-- The cores with a ready strand outside their active sets. -/
def State.waitingCores (s : State) : List Nat :=
  s.crews.foldl (fun ks c => if c.state = .resident && !c.candidates.isEmpty then insertNat c.core ks else ks) []

/-- A strand that has had its time gives up its place, and waits outside from now on (R137; DEDUCED, assumption 73: the time it has been
ready counts from here, else it would take its own place again). -/
def Strand.leaveSet (t : Strand) (now : Nat) : Strand := { t with active := false, activeFor := 0, outSince := some now }

/-- The strands of a core that have spent 2048 cycles in its active set while a ready strand was outside leave it, and the vacant places
are filled (R137). -/
def State.rotateSet (s : State) (core : Nat) : State :=
  let due (t : Strand) : Bool := t.inSet && decide (2048 ≤ t.activeFor)
  if (s.residentOn core).any (fun c => c.strands.any due) then
    ({ s with crews := s.crews.map (fun c =>
        if c.core = core && c.state = .resident then { c with strands := c.strands.map (fun t => if due t then t.leaveSet s.cycle else t) } else c) } :
      State).fillSet core 64
  else s

/-- The active sets brought up to date (R137): strands that are no longer ready have left them, vacant places are filled, and strands
whose time is over make way. -/
def State.arrangeSets (s : State) : State :=
  let note (c : Crew) : Crew :=
    if c.state = .resident then { c with strands := c.strands.map (fun t => t.note s.cycle) } else c
  let s1 : State := { s with crews := s.crews.map note }
  let s2 := s1.waitingCores.foldl (fun st k => st.fillSet k 64) s1
  s2.waitingCores.foldl State.rotateSet s2

/-- What is settled before anything happens: landing rows are granted to the requests of earlier cycles (R402), gangs that are being
taken off leave once they can (R345, R347), RESVA writes held back by buffered stores take effect (R369, R372), waiting gangs come back
where they fit (R339), the top's wait begins (R336), and the active sets are brought up to date (R137). -/
def State.arrange (s : State) : State := (((s.serveRows 128).goOnTaking).serveAllResidency).bringBack.markTop.arrangeSets

/-- A ready strand of the core that is outside its active set. -/
def State.readyOutside (s : State) (core crew strand : Nat) : Bool :=
  (s.residentOn core).any (fun c => c.strands.any (fun t => t.ready && !t.active && !(decide (c.id = crew) && decide (t.idx = strand))))

/-- Whether a strand has had its time in the active set while another waits outside (R137). -/
def Env.setRotationDue (e : Env) : Bool :=
  e.t.inSet && decide (2048 ≤ e.t.activeFor) && e.s.readyOutside e.c.core e.c.id e.t.idx

/-- ACTIVE_SET_ROTATION of a strand (R137). -/
def Env.leaveSet (e : Env) : Env := { e with t := e.t.leaveSet e.s.cycle }

/-- Whether the fairness timer calls for a rotation at this boundary (R136, R427). -/
def Env.rotationDue (e : Env) : Bool := decide (256 ≤ e.t.timer) && e.c.progress && !e.t.inHandler && !e.t.midUnit

/-- FAIRNESS_ROTATION (R135, R136). -/
def Env.rotate (e : Env) : Env := { e with t := e.t.selectNext }

/-- Whether the operation of the first deferred trap has been counted complete (R428). -/
def Strand.deferredCounted (t : Strand) : Bool :=
  match t.deferred with
  | d :: _ => t.inflight.all (fun p => p.id ≠ d.op)
  | [] => false

/-- A deferred trap is taken at a boundary, and not while the strand is in its handler (R428, R429). -/
def Env.deferredDue (e : Env) : Bool := e.t.deferredCounted && !e.t.midUnit && !e.t.inHandler

/-- Whether a strand may issue now: it may issue at all, no `hint.sched` stall holds it (R78), and it is in the active set (R137). -/
def Env.canIssue (e : Env) : Bool := e.mayIssue && decide (e.t.readyAt ≤ e.s.cycle) && e.t.active

/-! ### Fetch (R69, R70) -/

/-- The line of a core's instruction cache that holds a physical address for a launch (R70). -/
def Core.iline? (co : Core) (seq pa : Nat) : Option ILine := co.icache.find? (fun x => x.seq = seq && x.line = pa / 128)

/-- A line put into an instruction cache of 64 sets of 8: a full set loses its oldest line. DESIGN CHOICE (assumption 74): R70 gives
neither the set of a line nor the line that is replaced; the agenda's `evictI` removes any other. -/
def Core.putIline (co : Core) (x : ILine) : Core :=
  let same := co.icache.filter (fun y => y.line % 64 = x.line % 64)
  match same[7]? with
  | none => { co with icache := x :: co.icache }
  | some old => { co with icache := x :: co.icache.filter (fun y => y ≠ old) }

/-- Where a strand's next word lies, when its translation is known and lets it execute; none for a walker, whose fetches are physical
and of no launch (R364; assumption 74). -/
def Env.codePa (e : Env) : Option Nat :=
  let pc := e.t.fetchPc.toNat
  if e.c.walker then none
  else match lookupTrans (e.s.core e.c.core) e.t.answers none e.c.ctx pc with
    | .found tr => if pteX tr.entry && pteP tr.entry then some (tr.pa pc) else none
    | _ => none

/-- The line of the strand's next word fetched into the instruction cache, unless it is there or an uncorrectable error keeps it from
being delivered (R70, R434). -/
def Env.fillCode (e : Env) : Env :=
  match e.codePa with
  | none => e
  | some pa =>
    if ((e.s.core e.c.core).iline? e.c.seq pa).isSome || e.s.bad (pa / 128 * 128) 128 then e
    else
      let x : ILine := { seq := e.c.seq, line := pa / 128, bytes := e.s.peekBytes (pa / 128 * 128) 128 }
      { e with s := e.s.modCore e.c.core (fun co => co.putIline x) }

/-- What a fetch comes to: a word, a walk to wait for, a page that refuses, or an uncorrectable error in the word. -/
inductive Fetched where
  | word (w : Nat)
  | wait (s : State)
  | refused (va : Nat)
  | bad (va pa : Nat)
  deriving DecidableEq, Repr

/-- The word at the strand's next address (R69): a page that is not resident, or has no execute permission, refuses. A line of the
launch in the instruction cache gives its word, which a later write to memory does not change (R70). A walker strand fetches at
physical addresses (R364). -/
def Env.fetch (e : Env) : Fetched :=
  let pc := e.t.fetchPc.toNat
  let at_ (pa : Nat) : Fetched :=
    match (if e.c.walker then none else (e.s.core e.c.core).iline? e.c.seq pa) with
    | some x => .word (leAt x.bytes (pa % 128) 4)
    | none => if e.s.bad pa 4 then .bad pc pa else .word (e.s.peek pa 4)
  if e.c.walker then at_ pc
  else match lookupTrans (e.s.core e.c.core) e.t.answers none e.c.ctx pc with
    | .miss => .wait (e.commit.missOn e.c.core e.c.ctx pc kindExec (e.c.id, e.t.idx))
    | .invalid => .refused pc
    | .found tr => if pteX tr.entry && pteP tr.entry then at_ (tr.pa pc) else .refused pc

/-- A register field of `n` bits stepped `i` times, exactly; none outside its registers (R80). -/
def stepField (w lo n i : Nat) (k : Int) : Option Int :=
  let v : Int := bitsOf w lo n + i * k
  if 0 ≤ v && v < 2 ^ n then some (v - bitsOf w lo n) else none

/-- Bits of the vd field that name the destination: three for the predicate of `icmp` (0x0D) and `fcmp` (0x28), whose other bits are
U, W and the type (R103, R110). -/
def destBits (w : Nat) : Nat := if w / 2 ^ 24 = 0x0D || w / 2 ^ 24 = 0x28 then 3 else 6

/-- A target word with its register fields stepped for the current iteration (R80). The offset of a MEM word is stepped
where its address is formed. -/
def stepWord (u : UnitSt) (w : Nat) : Option Nat :=
  match u.rep with
  | none => some w
  | some r =>
    if w / 2 ^ 28 % 16 = 0xE then some w
    else match stepField w 18 (destBits w) r.iter r.sd, stepField w 12 6 r.iter r.sa, stepField w 6 6 r.iter r.sb with
      | some d, some a, some b => some ((w : Int) + d * 2 ^ 18 + a * 2 ^ 12 + b * 2 ^ 6).toNat
      | _, _, _ => none

/-- The instruction of a fetched word, as the current iteration has it; none for a word that R74 makes ILLEGAL. -/
def instrOf (u : UnitSt) (w : Nat) : Option Instr :=
  match stepWord u w with
  | some w' => decodeWord w'
  | none => none

/-- What a strand's turn comes to: an instruction to execute, or a machine that has already moved. -/
inductive Turn where
  | run (i : Instr)
  | moved (s : State)
  deriving DecidableEq, Repr

/-- What a word that no instruction has makes of its issue: a tile move with a reserved field names its lowest acting lane, any other
word the group (R74, R244). -/
def unassigned (w : Nat) : Req :=
  let op := w / 2 ^ 24
  if op = 0x94 || op = 0x95 || op = 0x97 then { instr := .nop, pg := w % 8, bitM := true } else { instr := .nop }

/-- A strand's turn: a deferred trap that is due, else its next word. -/
def Env.turn (e : Env) : Turn :=
  if e.deferredDue then .moved e.takeDeferred
  else match e.fetch with
    | .wait s => .moved s
    | .refused va => .moved (e.takeTrap (.at cPERM e.t.group va) false none)
    | .bad va pa => .moved ((e.via (fun s => s.consumeUe e.c.ctx pa)).takeTrap (.at cECC e.t.group va) false none)
    | .word w => match instrOf e.t.unit w with
      | some i => .run i
      | none => .moved ((unassigned w).awaitGuard e (unassigned w).refuse).finish

/-- The acquire of a wait or a `waita` that ended while its group did not stand at it (R213, R223). -/
def Env.acquireDue (e : Env) : Env :=
  if e.t.acq then
    let e1 := e.acquire
    { e1 with t := { e1.t with acq := false } }
  else e

/-- A rotation that is due comes before the next issue unit (R136); a deferred trap is taken first. -/
def Env.rotateDue (e : Env) : Env := if e.rotationDue && !e.deferredDue then e.rotate else e

/-- The machine with a strand about to take its turn: it is the one that issues, groups that came to hold equal program counters are
one (R131), a rotation that is due has been made (R136), and the line of its next word is in the instruction cache (R70). -/
def State.select (s : State) (crew strand : Nat) : State :=
  let s1 := { s with cur := { crew := crew, strand := strand } }
  match s1.env? crew strand with
  | some e => ({ e with t := { e.t.regroup with turnAt := s.cycle + 1 } } : Env).acquireDue.rotateDue.fillCode.commit
  | none => s1

/-! ### Who issues when the agenda is silent -/

/-- The strands that can issue now, crew by crew. -/
def State.canIssue (s : State) (crew strand : Nat) : Bool :=
  match s.env? crew strand with
  | some e => e.canIssue
  | none => false

/-- The strands that can issue now: when the last turn of each was, and where it is. -/
def State.issuers (s : State) : List (Nat × Nat × Nat) :=
  s.crews.flatMap (fun c => c.strands.filterMap (fun t => if s.canIssue c.id t.idx then some (t.turnAt, c.id, t.idx) else none))

/-- The one whose last turn is longest ago; the first of several. -/
def earliestTurn (xs : List (Nat × Nat × Nat)) : Option (Nat × Nat × Nat) :=
  xs.foldl (fun best x => match best with
    | none => some x
    | some b => if x.1 < b.1 then some x else some b) none

/-- The strand that issues next: the one that can and whose last turn is longest ago (DESIGN CHOICE: the order among ready strands is
open, and the agenda can give any other; assumption 1). -/
def State.pick (s : State) : Option (Nat × Nat) := (earliestTurn s.issuers).map Prod.snd

/-- Whether a strand may still issue in this arithmetic cycle: it has not yet, and fewer than 16 of its core have (R16). -/
def State.inCycle (s : State) (crew strand : Nat) : Bool :=
  match s.env? crew strand with
  | some e => decide (e.t.turnAt ≤ s.cycle)
      && decide ((s.residentOn e.c.core).foldl (fun n c => n + (c.strands.filter (fun t => t.turnAt = s.cycle + 1)).length) 0 < 16)
  | none => false

/-- Cycles until a strand that only waits for a place in its core's active set gets one (R137), when no strand can issue. -/
def State.placeEnd (s : State) : Option Nat :=
  let waits (k : Nat) : Bool := (s.residentOn k).any (fun c => c.strands.any (fun t => !t.active && (match s.env? c.id t.idx with
    | some e => e.mayIssue
    | none => false)))
  let left (k : Nat) : List Nat := (s.residentOn k).flatMap (fun c => (c.strands.filter Strand.inSet).map (fun t => s.cycle + (2048 - t.activeFor)))
  ((s.waitingCores.filter waits).flatMap left).foldl (fun m n => match m with | some k => some (min k n) | none => some n) none

/-- Cycles until the first stalled strand may issue, when only stalls stand in the way (R78). -/
def State.stallEnd (s : State) : Option Nat :=
  (s.crews.flatMap (fun c => c.strands.filterMap (fun t =>
    match s.env? c.id t.idx with
    | some e => if e.mayIssue && e.t.active && decide (s.cycle < t.readyAt) then some t.readyAt else none
    | none => none))).foldl (fun m n => match m with | some k => some (min k n) | none => some n) none

/-! ### The machine's own moves -/

/-- Arithmetic cycles pass (R136, R137): the fairness timer counts in the active set while two groups are runnable,
progress is on and the strand is not in its handler; the time in the set counts while a ready strand is outside it. -/
def Crew.tick (c : Crew) (outside : Bool) (n : Nat) : Crew :=
  { c with strands := c.strands.map (fun t =>
      if t.inSet then
        { t with
          timer := if c.progress && !t.inHandler && decide (2 ≤ t.groupLows.length) then t.timer + n else t.timer
          activeFor := if outside then t.activeFor + n else t.activeFor }
      else t) }

/-- Whether some ready strand of a core is outside its active set. -/
def State.crowded (s : State) (core : Nat) : Bool := (s.residentOn core).any (fun c => c.strands.any (fun t => t.ready && !t.active))

/-- Arithmetic cycles and device nanoseconds pass. A frozen context's launches do not age (R440). A launch that becomes the top because
its EARLIEST has been reached waits from that instant (R336). -/
def State.elapse (s : State) (cycles ns : Nat) : State :=
  ({ s with
    cycle := s.cycle + cycles, clock := s.clock + BitVec.ofNat 64 ns
    crews := s.crews.map (fun c => if c.state = .resident then c.tick (s.crowded c.core) cycles else c)
    launches := s.launches.map (fun l => if (s.ctx l.ctx).frozen then { l with frozenFor := l.frozenFor + ns } else l) } : State).markTopFrom s.clock

/-- A line leaves a core's L1 (R177). -/
def State.evictL1 (s : State) (core line : Nat) : State :=
  s.modCore core (fun co => { co with l1 := co.l1.filter (fun x => x.line ≠ line) })

def satUp (w : Word) : Word := if w = 0xFFFFFFFF then w else w + 1

/-- A corrected error of the Hearth counted (R435): one of row r of slice s, with s + 128 r as its place, towards the row's repair (R453);
one of the registry or of the migration table has a place past the rows. -/
def Device.hearthCe (d : Device) (place : Nat) : Device :=
  let d1 : Device := { d with ceHearth := satUp d.ceHearth }
  if 128 * hearthRows ≤ place || d.rowsDead.contains place then d1
  else { d1 with rowCe := smapSet d.rowCe place ((smapGet d.rowCe place).getD 0 + 1) }

/-- A corrected error counted (R435), and on a page of device memory counted towards its retirement (R454). A retired page is never read
(R455), and gives none. -/
def State.softError (s : State) (counter page : Nat) : State :=
  let d := s.dev
  match counter with
  | 0 =>
    if 2 ^ 32 ≤ page || !s.hasMemory (page * 2 ^ 14) then s
    else
    let n := (smapGet d.pageCe page).getD 0 + 1
    let s1 := { s with dev := { d with ceMem := satUp d.ceMem, pageCe := smapSet d.pageCe page n } }
    if n = 8 then s1.addCandidate page false else s1
  | 1 => { s with dev := d.hearthCe page }
  | 2 => { s with dev := { d with ceBuf := satUp d.ceBuf } }
  | 3 => { s with dev := { d with ceReg := satUp d.ceReg } }
  | 4 => { s with dev := { d with ceSwage := satUp d.ceSwage } }
  | _ => { s with dev := { d with cePar := satUp d.cePar } }

/-- A parity error of a content-index entry or a value-table entry: the entry is cleared and counted (R68, R435). -/
def State.parityIndex (s : State) (core entry : Nat) : State :=
  (s.modCore core (fun co => { co with naming := { co.naming with cindex := smapErase co.naming.cindex entry } })).softError 5 0

def State.parityValue (s : State) (core entry : Nat) : State :=
  (s.modCore core (fun co => { co with naming := { co.naming with vtable := co.naming.vtable.eraseIdx entry } })).softError 5 0

/-- A parity error of a thread's last-page register: it is emptied and counted (R434, R435). -/
def State.parityLast (s : State) (crew strand lane : Nat) : State :=
  (s.modStrand crew strand (fun t => t.modThread lane (fun th => { th with lastPage := none }))).softError 5 0

/-- An uncorrectable error of an entry of the migration table clears it (R434). -/
def State.migError (s : State) (page : Nat) : State := { s with mig := s.mig.filter (fun g => g.page ≠ page) }

/-- A line leaves a core's instruction cache (R70), and a translation its TLB (R361). -/
def State.evictI (s : State) (core seq line : Nat) : State :=
  s.modCore core (fun co => { co with icache := co.icache.filter (fun x => x.seq ≠ seq || x.line ≠ line) })

def State.evictTlb (s : State) (core ctx va : Nat) : State :=
  s.modCore core (fun co => { co with tlb := co.tlb.filter (fun tr => !(tr.covers ctx va)) })

/-- An uncorrectable error in the location that a register maps to: every register of the core that maps there has it, and every one
that comes to map there (R68). -/
def State.upsetReg (s : State) (crew strand reg : Nat) : State :=
  match s.env? crew strand with
  | none => s
  | some e =>
    let loc := (e.t.reg reg).loc
    let hit (c : Crew) (t : Strand) (v : Nat) (r : Reg) : Bool :=
      (decide (c.id = crew) && decide (t.idx = strand) && decide (v = reg))
        || (loc ≠ 0 && decide (c.core = e.c.core) && c.state = .resident && decide (r.loc = loc))
    let s1 := s.modCore e.c.core (fun co => { co with naming := { co.naming with
      locs := modWhere co.naming.locs (fun l => loc ≠ 0 && l.id = loc) (fun l => { l with bad := true }) } })
    { s1 with crews := s1.crews.map (fun c => { c with strands := c.strands.map (fun t =>
        { t with regs := t.regs.mapIdx (fun v r => if hit c t v r then { r with bad := true } else r) }) }) }

/-- The next commit of the lanes finds a word locked by another transaction (R194). -/
def State.contend (s : State) (crew strand : Nat) (lanes : Mask) : State :=
  s.modStrand crew strand (fun t => { t with locked := t.locked ||| lanes })

/-- A move that is not an instruction row: time, a replacement, an upset, or another transaction's locks. -/
def State.ownMove (s : State) (m : Move) : State :=
  match m with
  | .elapse c n => s.elapse c n
  | .evictL1 k l => s.evictL1 k l
  | .dropOwner l => s.dropOwner l
  | .evictI k q l => s.evictI k q l
  | .evictTlb k x a => s.evictTlb k x a
  | .parityIndex k n => s.parityIndex k n
  | .parityValue k n => s.parityValue k n
  | .parityLast c t l => s.parityLast c t l
  | .migError p => s.migError p
  | .upset g => if s.ue.contains g then s else { s with ue := g :: s.ue }
  | .soft k p => s.softError k p
  | .upsetReg c t v => s.upsetReg c t v
  | .contend c t m => s.contend c t m
  | .part c t o i => s.partAccess c t o i
  | .ingress l => s.modLport l (fun x => { x with ingress := x.ingress ++ [s.clock] })
  | .issue _ _ => s
  | .event _ => s

end Sys2Proof.Machine
end

