-- ==== Sys2Proof/Machine/Prefix.lean ====
section
/-! DEFINITION. Class 0xE: the prefixes (spec/04_encoding_and_assembly.md R76 to R81). Each issues by itself and leaves its
mark on the issue unit, which the target reads. -/

namespace Sys2Proof.Machine

/-- The issue of a prefix: a set reserved field or reserved code traps; `f` marks the unit, `bad` is a further refusal. -/
def prefixForm (i : Instr) (bad : Env → Bool) (f : Env → UnitSt → UnitSt) (s : State) : Host.Outcome State Fault Refusal :=
  match s.issuer with
  | none => .fault .noStrand
  | some e => .next (if staticIllegal i || bad e then e.illegal.finish else (e.endPrefix (f e e.t.unit)).commit)

/-- A second prefix of a kind already in the run is refused at the target (R76). -/
def UnitSt.again (u : UnitSt) (had : Bool) : UnitSt := { u with dup := u.dup || had }

def execHintImm (i : BitVec 24) (s : State) : Host.Outcome State Fault Refusal :=
  prefixForm (.hintImm i) (fun _ => false) (fun _ u => { u.again u.imm.isSome with imm := some i }) s

def execHintPref (a b c : BitVec 6) (v : BitVec 3) (s : State) : Host.Outcome State Fault Refusal :=
  prefixForm (.hintPref a b c v) (fun _ => false) (fun _ u => { u.again u.pref with pref := true }) s

def execHintRnd (m : BitVec 3) (v t q : BitVec 1) (s : State) : Host.Outcome State Fault Refusal :=
  prefixForm (.hintRnd m v t q) (fun _ => false)
    (fun _ u => { u.again u.rnd.isSome with rnd := some { mode := if v = 1 then some m else none, sat := if t = 1 then some (q = 1) else none } }) s

/-- The target issues no earlier than STALL cycles after the strand's previous unit; the count begins here, where that unit
has already ended. -/
def execHintSched (n : BitVec 4) (r : BitVec 3) (y : BitVec 1) (s : State) : Host.Outcome State Fault Refusal :=
  match s.issuer with
  | none => .fault .noStrand
  | some e =>
    let e1 : Env := { e with t := { e.t with readyAt := e.s.cycle + n.toNat } }
    .next (if staticIllegal (.hintSched n r y) then e.illegal.finish
      else (e1.endPrefix { e.t.unit.again e.t.unit.sched.isSome with sched := some (y = 1) }).commit)

/-- Whether the resume flag is set, for a run that no save has interrupted, and `ctl.repleft` is not a position of a run of n iterations (R80). -/
def Strand.badResume (t : Strand) (n : Nat) : Bool := t.resume && t.repHeld.isNone && (t.repleft = 0 || decide (n < t.repleft.toNat))

/-- A step field, signed (R79). -/
def repStep (x : BitVec 3) : Int := sextInt x.toNat 3

def execRep (n : BitVec 6) (d a b o : BitVec 3) (s : State) : Host.Outcome State Fault Refusal :=
  let k := n.toNat + 1
  prefixForm (.rep n d a b o) (fun e => e.t.badResume k)
    (fun e u =>
      let first := match e.t.repHeld with
        | some (i, _) => i
        | none => if e.t.resume then k - e.t.repleft.toNat else 0
      let r : RepSt := { n := k, sd := repStep d, sa := repStep a, sb := repStep b, soff := repStep o, iter := first, ran := false }
      { u.again u.rep.isSome with rep := some r }) s

end Sys2Proof.Machine
end

