-- ==== Sys2Proof/Machine/Copy.lean ====
section
/-! DEFINITION. Class 0x8: copies, the waits for counters, and residency requests and prefetch
(spec/09_memory_and_copy_instructions.md R215 to R223, spec/08_memory_model.md R186, R188). -/

namespace Sys2Proof.Machine

/-! ### The checks of a copy (R219) -/

/-- What a rounding mode code may not be for a copy's destination format code or page format (R37): `fmt` is a page format
number, 0 for raw bytes. -/
def modeRefused (fmt mode : Nat) : Bool :=
  if fmt = 7 then mode = 4
  else if (intFmt fmt).isSome || fmt = 17 || fmt = 18 then 4 ≤ mode
  else false

/-- Step 1 of R219 for `cp` and `cp2`; `claim` gives the bytes of a claim. -/
def copyIllegal (cw : Word) (claim : Space → Nat) : Bool :=
  let st := cwST cw
  let dt := cwDT cw
  cw.toNat / 2 ^ 16 ≠ 0 || st = 14 || dt = 14 || 5 < cwRM cw || ((st = 0) != (dt = 0))
    || (st = 15 && cwSS cw ≠ 0) || (dt = 15 && cwDS cw ≠ 0) || cwSS cw = 1
    || (st = dt && st ≠ 0 && st ≠ 15 && (cwRM cw ≠ 0 || cwSat cw))
    || (st ≠ dt && dt ≠ 15 && modeRefused (copyFmt dt) (cwRM cw))
    || (match spaceOf (cwDS cw) with | some sp => claim sp = 0 | none => false)

/-- Step 1 of R219 for `cptab` (R222). -/
def tableIllegal (cw : Word) (claim : Space → Nat) : Bool :=
  cw.toNat / 2 ^ 14 ≠ 0 || bitsOf cw.toNat 2 6 ≠ 0 || bitsOf cw.toNat 0 2 = 3 || bitsOf cw.toNat 12 2 ≤ 1 || cwSS cw = 1
    || (match spaceOf (cwDS cw) with | some sp => claim sp = 0 | none => false)
    || (match spaceOf (bitsOf cw.toNat 12 2) with | some sp => claim sp = 0 | none => false)

/-- One side of a copy: its space (none for global), the first row, the stride, rows and elements per row, the element
width in bits (none when each row's page gives it, code 15), the permission a global page must give, and whether
scaled blocks must be whole. -/
structure Side where
  space  : Option Space
  base   : Nat
  stride : Int
  m      : Nat
  n      : Nat
  bits   : Option Nat
  perm   : DWord → Bool
  whole  : Bool

/-- Where a row begins, exactly. -/
def Side.row (x : Side) (r : Nat) : Int := x.base + r * x.stride

/-- Bytes of a row of elements. -/
def rowBytes (n bits : Nat) : Nat := ceilDiv (n * bits) 8

/-- What the pages of a side came to: addresses to translate, a misaligned element, the refused addresses, translations,
page formats, and on scaled pages the bits of each stretch that a row covers. -/
structure SideScan where
  needs   : List Nat
  align   : Bool
  refused : List Nat
  trans   : List Trans
  fmts    : List Nat
  runs    : List (Nat × Nat × Nat)
  deriving DecidableEq, Repr

def SideScan.empty : SideScan := { needs := [], align := false, refused := [], trans := [], fmts := [], runs := [] }

def SideScan.hold (s : SideScan) (tr : Trans) : SideScan := if s.trans.contains tr then s else { s with trans := s.trans ++ [tr] }

/-- One 16 KiB page of a row on a global side: `lo` and `hi` are the bits of the row that lie on it. -/
def SideScan.page (s : SideScan) (look : Nat → Lookup) (x : Side) (bits lo hi : Nat) : SideScan :=
  let va := lo / 8
  match look va with
  | .miss => { s with needs := s.needs ++ [va] }
  | .invalid => { s with refused := s.refused ++ [va] }
  | .found tr =>
    let s1 := s.hold tr
    let s2 := if x.perm tr.entry then s1 else { s1 with refused := s1.refused ++ [va] }
    match x.bits with
    | some _ => s2
    | none =>
      let fmt := pageCopyFmt tr.entry
      let s3 := { s2 with fmts := if s2.fmts.contains fmt then s2.fmts else fmt :: s2.fmts
                          align := s2.align || fmtBits fmt ≠ bits }
      if !fmtScaled fmt then s3
      else
        let sva := scaleAddr tr.entry va
        let s4 := { s3 with runs := (geomLen (pteGeom tr.entry) * fmtBits fmt, lo, hi) :: s3.runs }
        match look sva with
        | .miss => { s4 with needs := s4.needs ++ [sva] }
        | .invalid => { s4 with refused := s4.refused ++ [va] }
        | .found st => let s5 := s4.hold st; if x.perm st.entry then s5 else { s5 with refused := s5.refused ++ [va] }

/-- One row of a global side. -/
def SideScan.row (s : SideScan) (look : Nat → Lookup) (x : Side) (r : Nat) : SideScan :=
  let a := x.row r
  if x.n = 0 then s
  else if a < 0 || 2 ^ 57 ≤ a then { s with align := true }
  else
    let va := a.toNat
    let own : Option Nat := match x.bits with
      | some b => some b
      | none => match look va with | .found tr => some (fmtBits (pageCopyFmt tr.entry)) | _ => none
    match own with
    -- without its first page a row has no element size: the page is asked for, or refused (R218, R219 step 3)
    | none => match look va with
      | .miss => { s with needs := s.needs ++ [va] }
      | _ => { s with refused := s.refused ++ [va] }
    | some bits =>
      let last := va + rowBytes x.n bits - 1
      let s1 := { s with align := s.align || va % storeBytes bits ≠ 0 || decide (2 ^ 57 ≤ last) }
      if 2 ^ 57 ≤ last then s1
      else
        let first := va / 2 ^ 14
        (List.range (last / 2 ^ 14 - first + 1)).foldl (fun s i =>
          s.page look x bits (max (8 * va) ((first + i) * 2 ^ 17)) (min (8 * va + x.n * bits) ((first + i + 1) * 2 ^ 17))) s1

/-- Whether the stretches of a scaled destination cover every block that they touch (R219): each end of a stretch that is
not on a block boundary has the rest of its block covered by others. -/
def wholeBlocks (runs : List (Nat × Nat × Nat)) : Bool :=
  let inside (b : Nat) : Bool := runs.any (fun r => decide (r.2.1 ≤ b ∧ b < r.2.2))
  let block (w b : Nat) : Bool := (List.range (w / 4)).all (fun i => inside (b / w * w + 4 * i))
  runs.all (fun r => block r.1 r.2.1 && block r.1 (r.2.2 - 1))

/-- A side scanned. A global side is scanned page by page; a local one gives only its alignment. A scaled destination must cover whole
blocks (R219). -/
def Side.scan (x : Side) (look : Nat → Lookup) : SideScan :=
  match x.space with
  | some _ =>
    let size := storeBytes (x.bits.getD 8)
    { SideScan.empty with align := decide (x.n ≠ 0) && (List.range x.m).any (fun r => x.row r % size ≠ 0) }
  | none =>
    let s := (List.range x.m).foldl (fun (s : SideScan) r => s.row look x r) SideScan.empty
    { s with align := s.align || vaBad x.base || (x.whole && !wholeBlocks s.runs) }

/-- The lowest and the highest byte a side touches, when it touches any. -/
def Side.span (x : Side) : Option (Int × Int) :=
  if x.n = 0 || x.m = 0 then none
  else
    let len := rowBytes x.n (x.bits.getD 8)
    (List.range x.m).foldl (fun acc r =>
      let a := x.row r
      match acc with
      | some (lo, hi) => some (min lo a, max hi (a + len - 1))
      | none => some (a, a + len - 1)) none

/-- The lowest offset at which a local side leaves a claim of `size` bytes. -/
def Side.leaves (x : Side) (size : Nat) : Option Nat :=
  match x.span with
  | some (lo, hi) => if lo < 0 then some (wrapNat lo 57) else if size ≤ hi then some (max lo size).toNat else none
  | none => none

/-! ### Issuing a copy (R217, R219, R221) -/

/-- A copy command that has passed step 1: both sides, and a table's place with its entry width. -/
structure CopyPlan where
  dst   : Side
  src   : Side
  table : Option (Space × Nat × Nat)

/-- The ranges of local buffers that a copy reads and writes (R221), as offsets. -/
def CopyPlan.ranges (p : CopyPlan) : List (Space × Nat × Nat × Bool) :=
  let side (x : Side) (w : Bool) : List (Space × Nat × Nat × Bool) := match x.space, x.span with
    | some sp, some (lo, hi) => [(sp, lo.toNat, hi.toNat, w)]
    | _, _ => []
  side p.src false ++ side p.dst true ++ (match p.table with | some (sp, off, w) => [(sp, off, off + 256 * w - 1, false)] | none => [])

/-- Room for `n` entries in the core's scoreboard, made by performing copies that hold it (R188). -/
def Env.boardRoom (e : Env) (n : Nat) : Env :=
  let board := e.s.board e.c.core
  if board.length + n ≤ 32 then e
  else board.foldl (fun e b => e.via (fun s => s.settleStrand b.crew b.strand (fun p => p.id = b.op))) e

/-- The bytes of a copy's table, read at issue, and its uncorrectable entries with their offsets. -/
def Env.readTable (e : Env) (t : Option (Space × Nat × Nat)) : Option (List Byte) × List (Nat × Nat) :=
  match t with
  | none => (none, [])
  | some (sp, off, w) =>
    let a := (e.c.claim sp).base + off
    (some (Memory.readBytes ((e.s.core e.c.core).buf sp) a (256 * w)),
      (List.range 256).filterMap (fun i => if e.s.ue.contains (bufUnit e.c.core sp (a + i * w)) then some (i, off + i * w) else none))

/-- An `ldb.w` in flight that reads bytes `a` to `b` loses its key: no value-table entry is made from data that a copy is
changing (R64). -/
def Pending.unkey (a b : Nat) (p : Pending) : Pending :=
  match p.kind with
  | .ldb .wbuf vd accs uni (some _) =>
    if accs.any (fun x => decide (x.pa < b) && decide (a < x.pa + 4)) then { p with kind := .ldb .wbuf vd accs uni none } else p
  | _ => p

def Strand.unkey (t : Strand) (a b : Nat) : Strand := { t with inflight := t.inflight.map (fun p => p.unkey a b) }
def Crew.unkey (c : Crew) (a b : Nat) : Crew := { c with strands := c.strands.map (fun t => t.unkey a b) }

/-- The loads in flight of the core's crews over a WBUF range lose their keys: those of the other crews, of the issuing crew's other
strands, and of the strand itself. -/
def Env.unkeyLoads (e : Env) (a b : Nat) : Env :=
  { s := { e.s with crews := e.s.crews.map (fun c => if c.core = e.c.core then c.unkey a b else c) }, c := e.c.unkey a b, t := e.t.unkey a b }

/-- A copy started (R220, R221): its draws' key, its command, the scoreboard's entries, and the kill of value-table entries
over a WBUF destination. -/
def Env.launchCopy (e : Env) (p : CopyPlan) (cw : Word) (lane : Nat) (trs : List Trans) : Res :=
  let rs := p.ranges
  let e1 := e.boardRoom rs.length
  if 32 < (e1.s.board e1.c.core).length + rs.length then .hold e1
  else
    let base (x : Side) : Nat := match x.space with | some sp => (e1.c.claim sp).base | none => 0
    let th := e1.t.thread lane
    let (tab, tabBad) := e1.readTable p.table
    let seed := e1.c.seed
    let cmd : CopyCmd :=
      { table := tab, tabBad := tabBad, entryW := (match p.table with | some (_, _, w) => w | none => 0), base := base p.src,
        dst := BitVec.ofNat 64 (base p.dst + p.dst.base), src := BitVec.ofNat 64 (base p.src + p.src.base), n := p.dst.n, m := p.dst.m,
        dstride := p.dst.stride, sstride := p.src.stride, cw := cw,
        key := BitVec.ofNat 64 (engineKey (th.copies % 2 ^ 11 * 2 ^ 52 + globalThread e1.c e1.t lane)), ctr0 := 0, seed := seed,
        lane := lane, trans := trs, ctx := e1.c.ctx }
    match e1.start .cp [] none (.copy cmd) with
    | .done e2 =>
      let entry (r : Space × Nat × Nat × Bool) : SbEntry :=
        { crew := e2.c.id, strand := e2.t.idx, op := e2.t.nextOp - 1, space := r.1, first := (e2.c.claim r.1).base + r.2.1,
          last := (e2.c.claim r.1).base + r.2.2.1, writes := r.2.2.2 }
      let kills := rs.filter (fun r => r.1 = .wbuf && r.2.2.2)
      let s1 := e2.s.modCore e2.c.core (fun co => { co with
        sboard := e1.s.board e1.c.core ++ rs.map entry
        naming := kills.foldl (fun n r => n.killRange ((e2.c.claim .wbuf).base + r.2.1) ((e2.c.claim .wbuf).base + r.2.2.1 + 1)) co.naming })
      let e3 : Env := { e2 with s := s1, t := e2.t.modThread lane (fun x => { x with copies := x.copies + 1 }) }
      .done (kills.foldl (fun e r => e.unkeyLoads ((e2.c.claim .wbuf).base + r.2.1) ((e2.c.claim .wbuf).base + r.2.2.1 + 1)) e3)
    | x => x

/-- Steps 2 to 4 of R219 and the start. Translations that code 15 needs are taken before the alignment is judged. -/
def Env.checkCopy (e : Env) (p : CopyPlan) (cw : Word) (lane : Nat) : Res :=
  let m := laneBit lane
  let look := e.look lane
  let a := p.src.scan look
  let b := p.dst.scan look
  let byPage (x : Side) (s : SideScan) : List Nat := if x.bits.isNone then s.needs else []
  let early := byPage p.src a ++ byPage p.dst b
  let tabMis := match p.table with | some (_, off, w) => off % w ≠ 0 | none => false
  let size (x : Side) : Option Nat := match x.space with | some sp => x.leaves (e.c.claim sp).size | none => none
  let tabOut : Option Nat := match p.table with
    | some (sp, off, w) => if (e.c.claim sp).size < off + 256 * w then some (max off (e.c.claim sp).size) else none
    | none => none
  let refused := a.refused ++ b.refused ++ (size p.src).toList ++ (size p.dst).toList ++ tabOut.toList
  -- a walk takes the kind of the side that asked first
  let miss (xs ys : List Nat) : Res := e.missAll (if xs.isEmpty then kindEngineWrite else kindEngineRead) (if xs.isEmpty then ys else xs)
  if !early.isEmpty then miss (byPage p.src a) (byPage p.dst b)
  else if a.align || b.align || tabMis then .trap e (.plain cALIGN m) false
  else if !(a.needs ++ b.needs).isEmpty then miss a.needs b.needs
  else match refused with
    | v :: rest => .trap e (.at cPERM m (rest.foldl min v)) false
    | [] =>
      if b.fmts.any (fun f => modeRefused f (cwRM cw)) then .trap e (.plain cILLEGAL m) false
      else e.launchCopy p cw lane (a.trans ++ b.trans.filter (fun t => !a.trans.contains t))

/-- The address or offset that a pair of lane m names: for a local space the odd register is ignored (R217). -/
def Strand.copyAddr (t : Strand) (sp : Option Space) (v lane : Nat) : Nat :=
  if sp.isSome then (t.lane v lane).toNat else (t.lane64 v lane).toNat

/-- The element width of a format code; none for code 15. -/
def sideBits (code : Nat) : Option Nat := if code = 15 then none else some (copyBits code)

/-- The odd registers of a copy's address pairs, which a local space ignores (R217). -/
def pairReads (d a : BitVec 6) (cw : Word) : List Nat :=
  (if spaceOf (cwDS cw) = none then [d.toNat + 1] else []) ++ (if spaceOf (cwSS cw) = none then [a.toNat + 1] else [])

/-- A copy goes on once the odd registers of its global addresses are there and sound (R68, R187). -/
def Env.copyPairs (e : Env) (d a : BitVec 6) (cw : Word) (go : Env → Res) : Res :=
  match ({ instr := .nop, reads := pairReads d a cw } : Req).gather e with
  | .error x => x
  | .ok e1 => go e1

/-- `cp` and `cp2` with their counts and strides. -/
def Env.convertCopy (e : Env) (d a : BitVec 6) (cw : Word) (n m : Nat) (dstride sstride : Int) : Res :=
  let l := lowLane e.t.group
  if copyIllegal cw (fun sp => (e.c.claim sp).size) then .trap e (.plain cILLEGAL (laneBit l)) false
  else
    let ds := spaceOf (cwDS cw)
    let ss := spaceOf (cwSS cw)
    let dst : Side := { space := ds, base := e.t.copyAddr ds d.toNat l, stride := dstride, m := m, n := n, bits := sideBits (cwDT cw), perm := pteW,
                         whole := true }
    let src : Side := { space := ss, base := e.t.copyAddr ss a.toNat l, stride := sstride, m := m, n := n, bits := sideBits (cwST cw), perm := pteR,
                         whole := false }
    e.checkCopy { dst := dst, src := src, table := none } cw l

def execCp (d a b c : BitVec 6) (s : State) : Host.Outcome State Fault Refusal :=
  let r : Req := { instr := .cp d a b c, reads := regs1 d ++ regs1 a ++ regs1 b ++ regs1 c, names := regs2 d ++ regs2 a }
  issue r (fun e _ =>
    let l := lowLane e.t.group
    let cw := e.t.lane c.toNat l
    e.copyPairs d a cw (fun e => e.convertCopy d a cw (e.t.lane b.toNat l).toNat 1 0 0)) s

def execCp2 (d a b c : BitVec 6) (s : State) : Host.Outcome State Fault Refusal :=
  let r : Req := { instr := .cp2 d a b c, reads := regs1 d ++ regs1 a ++ regs2 b ++ regs2 c, names := regs2 d ++ regs2 a }
  issue r (fun e _ =>
    let l := lowLane e.t.group
    let nm := (e.t.lane b.toNat l).toNat
    let cw := e.t.lane c.toNat l
    e.copyPairs d a cw (fun e =>
      e.convertCopy d a cw (nm % 2 ^ 16) (nm / 2 ^ 16) (e.t.lane (b.toNat + 1) l).toInt (e.t.lane (c.toNat + 1) l).toInt)) s

/-- `cptab` (R222): bytes through a table of 256 entries. -/
def execCptab (d a b c : BitVec 6) (s : State) : Host.Outcome State Fault Refusal :=
  let r : Req := { instr := .cptab d a b c, reads := regs1 d ++ regs1 a ++ regs1 b ++ regs2 c, names := regs2 d ++ regs2 a }
  issue r (fun e _ =>
    let l := lowLane e.t.group
    let cw := e.t.lane c.toNat l
    if tableIllegal cw (fun sp => (e.c.claim sp).size) then .trap e (.plain cILLEGAL (laneBit l)) false
    else e.copyPairs d a cw (fun e =>
      let n := (e.t.lane b.toNat l).toNat
      let w := 2 ^ bitsOf cw.toNat 0 2
      let ds := spaceOf (cwDS cw)
      let ss := spaceOf (cwSS cw)
      let dst : Side := { space := ds, base := e.t.copyAddr ds d.toNat l, stride := 0, m := 1, n := n, bits := some (8 * w), perm := pteW,
                           whole := true }
      let src : Side := { space := ss, base := e.t.copyAddr ss a.toNat l, stride := 0, m := 1, n := n, bits := some 8, perm := pteR,
                           whole := false }
      let table := (spaceOf (bitsOf cw.toNat 12 2)).map (fun sp => (sp, (e.t.lane (c.toNat + 1) l).toNat, w))
      -- the engine finds the spaces and no rounding in the control word
      e.checkCopy { dst := dst, src := src, table := table } (cw &&& 0xF00) l)) s

/-! ### Waiting for counters (R186, R223) -/

/-- `wait` and `waitx`: operations are performed as far as they can be until every threshold is met; else the group waits.
A wait that observes writes to global memory ends with an acquire. -/
def waitFor (i : Instr) (walker : Bool) (x : Thresholds) (s : State) : Host.Outcome State Fault Refusal :=
  let r : Req := { instr := i, walker := walker }
  issue r (fun e _ =>
    let e1 := if e.t.thresholdsMet x then e else e.settle (fun p => x.names.contains p.ctr)
    if e1.t.thresholdsMet x then
      let e2 := if e1.t.observesStale x then e1.acquire else e1
      .done { e2 with t := e2.t.observed x }
    else e1.waitNext (.counters x)) s

def execWait (l st c m : BitVec 6) (s : State) : Host.Outcome State Fault Refusal :=
  waitFor (.wait l st c m) true { ld := l.toNat, st := st.toNat, cp := c.toNat, mx := m.toNat, tr := 63, sr := 63, cl := 63 } s
def execWaitx (t sr c : BitVec 6) (s : State) : Host.Outcome State Fault Refusal :=
  waitFor (.waitx t sr c) false { ld := 63, st := 63, cp := 63, mx := 63, tr := t.toNat, sr := sr.toNat, cl := c.toNat } s

/-! ### Residency requests and prefetch (R215, R216) -/

/-- Residency requests for pages that are not resident; a page already requested joins its open request (R372), and one that is being
moved waits for the move's end (R374). -/
def State.requestPages (s : State) (ctx : Nat) (pages : List Nat) : State :=
  pages.foldl (fun s p =>
    if (s.ctx ctx).awaited p then s
    else (s.modCtx ctx (fun x => { x with resReqs := x.resReqs ++ [p] })).postEvent ctx (evRecord 2 0 0 (p * 2 ^ 14) 0 0)) s

/-- `pgreq`: each distinct page once; a page without a valid translation is refused, a resident one is answered at once. -/
def execPgreq (d a : BitVec 6) (g : BitVec 3) (s : State) : Host.Outcome State Fault Refusal :=
  let r : Req := { instr := .pgreq d a g, pg := g.toNat, reads := regs2 a, writes := regs1 d }
  issue r (fun e m =>
    if m = 0 then .done e
    else
      let va (l : Nat) : Nat := (e.t.lane64 a.toNat l).toNat
      let mis := maskOf (fun l => laneOn m l && vaBad (va l))
      let needs := (lanesOf m).filter (fun l => e.look l (va l) = .miss)
      if mis ≠ 0 then .trap e (.plain cALIGN mis) false
      else if !needs.isEmpty then e.missAll kindRead (needs.map va)
      else
        let state (l : Nat) : Nat × Nat × Bool := match e.look l (va l) with
          | .found tr => (0, tr.base.toNat / 2 ^ 14, pteP tr.entry)
          | _ => (1, pageNo (va l), true)
        let xs := (lanesOf m).map (fun l => (l, state l))
        let pages := xs.map (fun x => (x.1, x.2.2.1))
        let refused := (xs.filter (fun x => x.2.1 = 1)).map (fun x => x.2.2.1)
        let wanted := (xs.filter (fun x => !x.2.2.2)).map (fun x => x.2.2.1)
        match e.start .cp (regs1 d) none (.pgreq d.toNat m pages refused) with
        | .done e1 => .done (e1.via (fun s => s.requestPages e.c.ctx wanted))
        | x => x) s

/-- `pfetch`: lines on pages that are absent or may not be read are skipped. -/
def execPfetch (a : BitVec 6) (l : BitVec 1) (n : BitVec 8) (g : BitVec 3) (s : State) : Host.Outcome State Fault Refusal :=
  let r : Req := { instr := .pfetch a l n g, pg := g.toNat, reads := regs2 a }
  issue r (fun e m =>
    if m = 0 then .done e
    else
      let lines (k : Nat) : List Nat := (List.range (n.toNat + 1)).map (fun i => ((e.t.lane64 a.toNat k).toNat / 128 + i) * 128)
      let vas := (lanesOf m).flatMap (fun k => (lines k).filterMap (fun v => if vaBad v then none else some (k, v)))
      let needs := vas.filter (fun x => e.look x.1 x.2 = .miss)
      if !needs.isEmpty then e.missAll kindRead (needs.map Prod.snd)
      else
        let pas := vas.filterMap (fun x => match e.look x.1 x.2 with
          | .found tr => if pteR tr.entry && pteP tr.entry then some (tr.pa x.2 / 128) else none
          | _ => none)
        e.start .cp [] none (.pfetch pas (l = 1))) s

end Sys2Proof.Machine
end

