-- ==== Sys2Proof/Machine/Swage.lean ====
section
/-! DEFINITION. Class 0x9: the Swage's reservation, convergence registers, tile moves, multiplies, banks and drains
(spec/10_swage_matrix_engine.md R232 to R256). An accepted operation is performed when it is accepted; its completion on mx
comes later. -/

namespace Sys2Proof.Machine

/-! ### Acceptance (R237, R238, R241) -/

/-- What the unit made of an operation: performed, with an absent page, the lowest uncorrectable address it met and the physical
addresses of those in memory, or stopped before it was accepted. -/
structure SwDone where
  e      : Env
  absent : Bool
  bad    : Option Nat
  pas    : List Nat := []
  deriving DecidableEq, Repr

inductive SwRes where
  | ok (d : SwDone)
  | stop (r : Res)
  deriving DecidableEq, Repr

def SwRes.plain (e : Env) : SwRes := .ok { e := e, absent := false, bad := none }

/-- A trap at acceptance, by lane m's operands (R244). -/
def swTrap (e : Env) (cause lane : Nat) : SwRes := .stop (.trap e (.plain cause (laneBit lane)) false)

/-- A PERM trap at acceptance: `ctl.trapva` holds the lowest refused address (R244). -/
def swPerm (e : Env) (lane va : Nat) : SwRes := .stop (.trap e (.at cPERM (laneBit lane) va) false)

/-- An uncorrectable error met by an operation is trapped later (R256, R429). -/
def SwDone.deferred (d : SwDone) (lane : Nat) : Env :=
  match d.bad with
  | some va =>
    let e1 := d.e.via (fun s => d.pas.foldl State.uncorrectable (s.countUe d.e.c.ctx))
    { e1 with t := e1.t.defer e1.t.nextOp (laneBit lane) va e1.t.unitPc }
  | none => d.e

/-- An unsigned operation: room on mx, acceptance, and mx raised. -/
def Env.swUnsigned (e : Env) (lane : Nat) (stores : Bool) (accept : Env → Nat → SwRes) : Res :=
  let e0 := e.makeRoom .mx
  if e0.t.full .mx then .hold e0
  else match accept e0 lane with
    | .stop r => r
    | .ok d => (d.deferred lane).start .mx [] none (.swage (if d.absent then some lane else none) false none stores)

/-- A signed one (R241): the last signer has the operation accepted with its lane m's operands. A wrong signature traps CONV in every
lane that gives it, and `cdecl` and `mrel`, which no lane's operand decides, in the whole group (DESIGN CHOICE, assumption 28). -/
def Env.swSigned (e : Env) (m : Mask) (cv key : Nat) (stores : Bool) (accept : Env → Nat → SwRes) : Res :=
  let lane := lowLane m
  let k := laneCount m
  let e0 := e.makeRoom .mx
  let cvOf (e : Env) : Conv := e.swage.cvs.getD cv { decl := 0, sigs := 0, key := none, signers := [] }
  let setCv (e : Env) (c : Conv) : Env := e.setSwage { e.swage with cvs := e.swage.cvs.set cv c }
  let c := cvOf e0
  let own := some (key, e0.t.unit.override)
  let wrong := c.decl = 0 || (decide (0 < c.sigs) && c.key ≠ own) || decide (c.decl < c.sigs + k)
  if wrong then .trap e0 (.plain cCONV m) false
  else if e0.t.full .mx then .hold e0
  else if c.sigs + k < c.decl then
    match e0.start .mx [] none (.swage none true (some cv) stores) with
    | .done e1 => .done (setCv e1 { c with sigs := c.sigs + k, key := own, signers := c.signers ++ [(e1.c.id, e1.t.idx, e1.t.nextOp - 1)] })
    | x => x
  else match accept e0 lane with
    | .stop r => r
    | .ok d =>
      let e1 := d.deferred lane
      let e2 := (setCv e1 { cvOf e1 with sigs := 0, key := none, signers := [] }).via (fun s => s.readySigners c.signers)
      e2.start .mx [] none (.swage (if d.absent then some lane else none) false none stores)

/-- The issue of a class 0x9 instruction: the reservation (R234), and the tile writes of `srdt` that the unit has accepted before it
(R237). DESIGN CHOICE (assumption 72): the reservation is judged once the instruction's operands are there and sound. -/
def swIssue (r : Req) (held : Bool) (body : Env → Mask → Res) (s : State) : Host.Outcome State Fault Refusal :=
  issue r (fun e m =>
    if held && !e.holdsSwage then e.illegal
    else if r.idle e then body e m
    else if e.awaitSrdt.srdtOpen then .hold e.awaitSrdt
    else body e.awaitSrdt m) s

/-- A signed operation names its registers, and its last signer reads them (R241). -/
def Req.signed (r : Req) (sg : BitVec 1) : Req := if sg = 1 then { r with reads := [], names := r.reads } else r

/-- A TL operation, signed or not; with an empty mask nothing is accepted or signed, and `refuse` is the cause for which R74 still refuses
an unsigned one (R237, R241). -/
def tileOp (r : Req) (cv : BitVec 3) (sg : BitVec 1) (stores : Bool) (accept : Env → Nat → SwRes) (refuse : Env → Option Nat) (s : State) :
    Host.Outcome State Fault Refusal :=
  swIssue (r.signed sg) true (fun e m =>
    if m = 0 then
      (match (if sg = 1 then none else refuse e) with
        | some cause => .trap e (.plain cause e.t.group) false
        | none => .done e)
    else if sg = 1 then
      e.swSigned m cv.toNat (((encodeNat r.instr).getD 0) / 8) stores (fun e lane => match r.gather e with
        | .error x => .stop x
        | .ok e1 => accept e1 lane)
    else e.swUnsigned (lowLane m) stores accept) s

/-- A tile that is not shaped, or tiles that do not fit, trap SHAPE even with an empty mask (R74, R242, R247, R248). -/
def shapeOnly (ok : Bool) : Option Nat := if ok then none else some cSHAPE

/-! ### Reservation and convergence registers (R232, R233, R240, R252) -/

/-- The crew takes the Swage, in the state of R232. -/
def Env.takeSwage (e : Env) : Env :=
  { e with s := { (e.s.modCore e.c.core (fun co => { co with holder := some e.c.id, swage := .fresh })) with
      ue := e.s.ue.filter (fun g => g / 2 ^ 16 ≠ swageUnit e.c.core 0 / 2 ^ 16) } }

def execMres (p : BitVec 3) (s : State) : Host.Outcome State Fault Refusal :=
  let r : Req := { instr := .mres p, pwrites := [p.toNat] }
  issue r (fun e m =>
    let free := (e.s.core e.c.core).holder.isNone
    .done ((if free then e.takeSwage else e).putPred m p.toNat (fun _ => free || e.holdsSwage))) s

/-- Operations that the unit has accepted, or is still to accept, for a crew. -/
def Pending.isSwage (p : Pending) : Bool :=
  match p.kind with
  | .swage .. => true
  | .mstat .. => true
  | .srdt .. => true
  | _ => false

/-- `mrel`: nothing without the reservation; CONV with an open signature; else the crew's operations complete first. -/
def execMrel (s : State) : Host.Outcome State Fault Refusal :=
  let r : Req := { instr := .mrel }
  swIssue r false (fun e _ =>
    if !e.holdsSwage then .done e
    else if e.swage.cvs.any (fun c => decide (0 < c.sigs)) then .trap e (.plain cCONV e.t.group) false
    else
      let e1 := e.via (fun s => s.settleCrew e.c.id Pending.isSwage)
      let open_ := (match e1.commit.crew? e1.c.id with | some c => c.strands | none => []).any (fun t =>
        t.inflight.any (fun p => p.isSwage && !p.done))
      if open_ then .hold e1
      else .done { e1 with s := e1.s.modCore e1.c.core (fun co => { co with holder := none, swage := .fresh }) }) s

def execCdecl (c : BitVec 3) (n : BitVec 12) (s : State) : Host.Outcome State Fault Refusal :=
  let r : Req := { instr := .cdecl c n }
  swIssue r true (fun e _ =>
    let w := e.swage
    match w.cvs[c.toNat]? with
    | none => .done e
    | some v =>
      if 0 < v.sigs then .trap e (.plain cCONV e.t.group) false
      else .done (e.setSwage { w with cvs := w.cvs.set c.toNat { decl := n.toNat, sigs := 0, key := none, signers := [] } })) s

/-- The operations of a crew that its Swage has accepted and not completed, by strand: open signatures are not accepted yet. -/
def Env.acceptedBefore (e : Env) : List (Nat × Nat) :=
  (e.c.setStrand e.t).strands.flatMap (fun t => (t.inflight.filter (fun p => p.swReady && !p.done)).map (fun p => (t.idx, p.id)))

/-- `mstat` (R252). -/
def execMstat (d : BitVec 6) (s : State) : Host.Outcome State Fault Refusal :=
  let r : Req := { instr := .mstat d, writes := regs1 d }
  swIssue r true (fun e m => e.start .mx (regs1 d) none (.mstat d.toNat m e.swage.accst e.acceptedBefore)) s

/-! ### Raw transfers (R242 to R245) -/

/-- The even register that a TL field names (R235). -/
def tlReg (f : BitVec 4) : Nat := 2 * f.toNat

/-- The registers that a tile move reads: the address pair of a global move, the offset of a local one, and the stride. -/
def moveReads (sp : BitVec 2) (a b : BitVec 4) : List Nat :=
  (if sp = 0 then [tlReg a, tlReg a + 1] else [tlReg a]) ++ [tlReg b]

/-- Bytes of a row in memory: the tile's row, and the scales of an MXFP4 row (R243). -/
def Tile.memRow (t : Tile) : Nat := t.rowBytes + (if t.fmt = fmtMx4 then t.cols / 32 else 0)

/-- Row i of a tile as raw bytes. -/
def Tile.rawRow (t : Tile) (i : Nat) : List Byte :=
  Memory.readBytes t.data (128 * i) t.rowBytes
    ++ (List.range (t.memRow - t.rowBytes)).map (fun k => BitVec.ofNat 8 (t.scaleAt i k))

/-- One raw byte of row i. -/
def Tile.setRaw (t : Tile) (i k : Nat) (b : Byte) : Tile :=
  if k < t.rowBytes then { t with data := Memory.writeByte t.data (128 * i + k) b } else t.setScale i (k - t.rowBytes) b.toNat

/-- Row i from raw bytes that begin at byte k of it; none where the byte was uncorrectable. -/
def Tile.setRow (t : Tile) (i k : Nat) (bs : List (Option Byte)) : Tile :=
  (bs.zipIdx k).foldl (fun t p => match p.1 with | some b => t.setRaw i p.2 b | none => t) t

/-- A stretch of a row on one 16 KiB page. -/
structure Piece where
  row : Nat
  off : Nat
  va  : Nat
  len : Nat
  cls : ECls
  deriving DecidableEq, Repr

/-- The stretches of one row of n bytes at `va`. -/
def rowPieces (look : Nat → Lookup) (perm : DWord → Bool) (row va n : Nat) : List Piece :=
  let first := va / 2 ^ 14
  (List.range ((va + n - 1) / 2 ^ 14 - first + 1)).map (fun i =>
    let lo := max va ((first + i) * 2 ^ 14)
    let hi := min (va + n) ((first + i + 1) * 2 ^ 14)
    { row := row, off := lo - va, va := lo, len := hi - lo, cls := classify look { perm := perm, fits := fun _ _ => true } lo })

/-- A global move: its rows' stretches, translated and classed. -/
def Env.globalRows (e : Env) (lane : Nat) (kind : BitVec 5) (perm : DWord → Bool) (rows : List Int) (n : Nat) (go : List Piece → SwRes) :
    SwRes :=
  if rows.any (fun a => decide (a < 0 ∨ 2 ^ 57 < a + n)) then swTrap e cALIGN lane
  else
    let ps := rows.zipIdx.flatMap (fun r => rowPieces (e.look lane) perm r.2 r.1.toNat n)
    let needs := ps.filter (fun p => p.cls = .need)
    let refused := ps.filter (fun p => p.cls = .refused)
    if !needs.isEmpty then .stop (e.missAll kind (needs.map Piece.va))
    else if !refused.isEmpty then swPerm e lane (lowest (refused.map Piece.va))
    else go ps

/-- Bytes of a range with those of uncorrectable units missing, and the lowest missing one. -/
def State.soundBytes (s : State) (pa n : Nat) : List (Option Byte) :=
  if s.bad pa n then (s.peekBytes pa n).mapIdx (fun i b => if s.bad (pa + i) 1 then none else some b)
  else (s.peekBytes pa n).map some

/-- The same in a local buffer of the issuing core. -/
def Env.localBytes (e : Env) (sp : Space) (a n : Nat) : List (Option Byte) :=
  (Memory.readBytes ((e.s.core e.c.core).buf sp) a n).mapIdx (fun i b => if e.s.ue.contains (bufUnit e.c.core sp (a + i)) then none else some b)

/-- The places of the missing bytes. -/
def missingAt (bs : List (Option Byte)) : List Nat := bs.zipIdx.filterMap (fun p => if p.1.isNone then some p.2 else none)

/-- Raw rows loaded into a tile from global memory (R243, R244): an absent page gives zeros. -/
def Env.loadGlobal (e : Env) (tn : Nat) (ps : List Piece) : SwRes :=
  let t0 := e.swage.tile tn
  let bytes (p : Piece) : List (Option Byte) :=
    match p.cls with
    | .good tr => e.s.soundBytes (tr.pa p.va) p.len
    | _ => List.replicate p.len (some 0)
  let t := ps.foldl (fun t p => t.setRow p.row p.off (bytes p)) t0
  let lost := ps.flatMap (fun p => (missingAt (bytes p)).map (fun k => (p, k)))
  .ok { e := (e.setSwage (e.swage.setTile tn t)).swWritten tn (lost.map (fun x => (x.1.row, x.1.off + x.2)))
        absent := ps.any (fun p => match p.cls with | .good _ => false | _ => true)
        bad := lost.foldl (fun m x => minVa m (x.1.va + x.2)) none
        pas := lost.filterMap (fun x => match x.1.cls with | .good tr => some (tr.pa (x.1.va + x.2)) | _ => none) }

/-- Raw rows loaded from a local buffer, each at an address in the core's buffer; `base` is where the claim begins. -/
def Env.loadLocalRows (e : Env) (tn : Nat) (sp : Space) (base n : Nat) (rows : List Nat) : SwRes :=
  let t0 := e.swage.tile tn
  let t := rows.zipIdx.foldl (fun t r => t.setRow r.2 0 (e.localBytes sp r.1 n)) t0
  let lost := rows.zipIdx.flatMap (fun r => (missingAt (e.localBytes sp r.1 n)).map (fun k => (r, k)))
  .ok { e := (e.setSwage (e.swage.setTile tn t)).swWritten tn (lost.map (fun x => (x.1.2, x.2)))
        absent := false
        bad := lost.foldl (fun m x => minVa m (x.1.1 - base + x.2)) none }

/-- Row i of a tile as it is stored: none for its uncorrectable bytes (R256, R429). -/
def Env.soundRow (e : Env) (tn i : Nat) : List (Option Byte) :=
  let t := e.swage.tile tn
  let row := t.rawRow i
  if e.swSound then row.map some else row.mapIdx (fun k b => if e.swBad [t.rawUnit tn i k] then none else some b)

/-- Bytes written to global memory, and to a local buffer, but for those that are missing. -/
def State.writeSome (s : State) (write : State → Nat → List Byte → State) (a : Nat) (bs : List (Option Byte)) : State :=
  if bs.all Option.isSome then write s a (bs.filterMap id)
  else bs.zipIdx.foldl (fun s p => match p.1 with | some b => write s (a + p.2) [b] | none => s) s

/-- A tile or bank with something uncorrectable in it has no address to give (DESIGN CHOICE, assumption 83). -/
def noAddress (lost : Bool) : Option Nat := if lost then some 0 else none

/-- Rows of a tile stored to global memory, in ascending order; writes to an absent page are dropped (R244, R245). -/
def Env.storeGlobal (e : Env) (tn : Nat) (ps : List Piece) : SwRes :=
  let part (p : Piece) : List (Option Byte) := ((e.soundRow tn p.row).drop p.off).take p.len
  let e1 := e.via (fun s => ps.foldl (fun s p => match p.cls with
    | .good tr => s.writeSome (fun s a bs => s.homeWrite .engine (some e.c.ctx) a bs) (tr.pa p.va) (part p)
    | _ => s) s)
  .ok { e := e1, absent := ps.any (fun p => match p.cls with | .good _ => false | _ => true)
        bad := noAddress (ps.any (fun p => (part p).any Option.isNone)) }

def Env.storeLocalRows (e : Env) (tn : Nat) (sp : Space) (rows : List Nat) : SwRes :=
  .ok { e := { e with s := rows.zipIdx.foldl (fun s r => s.writeSome (fun s a bs => s.writeLocal e.c.core sp a bs) r.1 (e.soundRow tn r.2)) e.s }
        absent := false, bad := noAddress (rows.zipIdx.any (fun r => (e.soundRow tn r.2).any Option.isNone)) }

/-- A local move's rows: their exact offsets must lie within the claim. -/
def Env.localRows (e : Env) (lane : Nat) (sp : Space) (rows : List Int) (n : Nat) (go : List Nat → SwRes) : SwRes :=
  let cl := e.c.claim sp
  let out := rows.filter (fun a => decide (a < 0 ∨ (cl.size : Int) < a + n))
  let past (a : Int) : Nat := if a < 0 then wrapNat a 57 else max a.toNat cl.size
  if out.any (fun a => a < 0) then swPerm e lane (lowest ((out.filter (fun a => a < 0)).map past))
  else if !out.isEmpty then swPerm e lane (lowest (out.map past))
  else go (rows.map (fun a => cl.base + a.toNat))

/-- The operands of a tile move from lane m: the address or offset, and the stride (R242). -/
def Env.moveBase (e : Env) (sp : BitVec 2) (a : BitVec 4) (lane : Nat) : Nat :=
  if sp = 0 then (e.t.lane64 (tlReg a) lane).toNat else (e.t.lane (tlReg a) lane).toNat

def Env.moveStride (e : Env) (b : BitVec 4) (lane : Nat) : Int := (e.t.lane (tlReg b) lane).toInt

/-- Where each row of a tile begins in memory, exactly. -/
def rowStarts (t : Tile) (base : Nat) (stride : Int) : List Int := (List.range t.rows).map (fun (i : Nat) => (base : Int) + (i : Int) * stride)

/-- The checks that tile moves share, in the order of R244: ILLEGAL by the tile's format, SHAPE, and ALIGN. -/
def Env.checkMove (e : Env) (tn lane : Nat) (isMeta : Bool) (sp : BitVec 2) (base : Nat) (stride : Int) (go : Tile → SwRes) : SwRes :=
  let t := e.swage.tile tn
  if (t.fmt = fmtMeta) != isMeta then swTrap e cILLEGAL lane
  else if t.rows = 0 then swTrap e cSHAPE lane
  else if (sp = 0 && vaBad base) || (tileBits t.fmt = 16 && (base % 2 ≠ 0 || stride % 2 ≠ 0)) then swTrap e cALIGN lane
  else go t

/-- A raw load of a tile or an index tile. -/
def Env.rawLoad (e : Env) (tn lane : Nat) (isMeta : Bool) (sp : BitVec 2) (a b : BitVec 4) : SwRes :=
  let base := e.moveBase sp a lane
  let stride := e.moveStride b lane
  e.checkMove tn lane isMeta sp base stride (fun t =>
    let rows := rowStarts t base stride
    match spaceOf sp.toNat with
    | none => e.globalRows lane kindEngineRead pteR rows t.memRow (fun ps => e.loadGlobal tn ps)
    | some s => e.localRows lane s rows t.memRow (fun rs => e.loadLocalRows tn s (e.c.claim s).base t.memRow rs))

/-! ### `tld.page` (R243) -/

/-- An element of a page-mode load: its address, its page's translation, and the address and translation of its scale. -/
structure PgEl where
  va    : Nat
  nib   : Bool
  tr    : Trans
  scale : Option (Nat × Trans)
  deriving DecidableEq, Repr

/-- What the elements of a page-mode load came to. -/
structure PgScan where
  needs   : List Nat
  align   : Bool
  refused : List Nat
  rows    : List (List PgEl)
  deriving DecidableEq, Repr

/-- Element bits of a page as a tile of element width w sees it (R243, R354). -/
def pageBits (w : Nat) (e : DWord) : Nat := if pteFmt e = 0 then w else fmtBits (pteFmt e)

/-- One element at bit address `bo` of a row with element size `sb`; `sva` is where the raw layout puts an MXFP4 scale. -/
def PgScan.elem (s : PgScan) (look : Nat → Lookup) (t : Tile) (sb bo sva : Nat) (row : List PgEl) : PgScan × List PgEl :=
  let va := bo / 8
  let w := tileBits t.fmt
  if vaBad va then ({ s with align := true }, row)
  else match look va with
    | .miss => ({ s with needs := s.needs ++ [va] }, row)
    | .invalid => ({ s with refused := s.refused ++ [va] }, row)
    | .found tr =>
      let b := pageBits w tr.entry
      let s1 := { s with align := s.align || b ≠ sb || va % storeBytes b ≠ 0
                         refused := if pteR tr.entry then s.refused else s.refused ++ [va] }
      let x : PgEl := { va := va, nib := sb = 4 && bo % 8 = 4, tr := tr, scale := none }
      let own := t.fmt = fmtMx4 && pteFmt tr.entry = 0
      if !own && !fmtScaled (pteFmt tr.entry) then (s1, x :: row)
      else
        let sa := if own then sva else scaleAddr tr.entry va
        if vaBad sa then ({ s1 with align := true }, row)
        else match look sa with
          | .miss => ({ s1 with needs := s1.needs ++ [sa] }, row)
          | .invalid => ({ s1 with refused := s1.refused ++ [if own then sa else va] }, row)
          | .found st =>
            ({ s1 with refused := if pteR st.entry then s1.refused else s1.refused ++ [if own then sa else va] },
              { x with scale := some (sa, st) } :: row)

/-- One row: its element size is that of the page of element 0. -/
def PgScan.row (s : PgScan) (look : Nat → Lookup) (t : Tile) (a : Int) : PgScan :=
  if a < 0 || 2 ^ 57 ≤ a then { s with align := true }
  else
    let va := a.toNat
    match look va with
    | .miss => { s with needs := s.needs ++ [va] }
    | .invalid => { s with refused := s.refused ++ [va] }
    | .found tr =>
      let sb := pageBits (tileBits t.fmt) tr.entry
      let (s1, row) := (List.range t.cols).foldl (fun (p : PgScan × List PgEl) j =>
        p.1.elem look t sb (8 * va + j * sb) (va + t.cols / 2 + j / 32) p.2) (s, [])
      { s1 with rows := s1.rows ++ [row.reverse] }

/-- An element as it was read: its code, exact value, whether its bits pass unchanged, its page format and scale; `bad` lists where it
met an uncorrectable error, by address and physical address, and `lost` says that its scale did. -/
structure PgVal where
  code  : Nat
  val   : Num
  pass  : Bool
  fmt   : Nat
  scale : Nat
  gone  : Bool
  bad   : List (Nat × Nat)
  lost  : Bool
  deriving DecidableEq, Repr

def State.pageVal (s : State) (tfmt : Nat) (x : PgEl) : PgVal :=
  let fmt := pteFmt x.tr.entry
  let geom := pteGeom x.tr.entry
  let gone := !pteP x.tr.entry || (match x.scale with | some (_, st) => !pteP st.entry | none => false)
  if gone then { code := 0, val := Num.zero false, pass := false, fmt := fmt, scale := 0, gone := true, bad := [], lost := false }
  else
    let bits := pageBits (tileBits tfmt) x.tr.entry
    let pa := x.tr.pa x.va
    let code := cutElem (s.peek pa (storeBytes bits)) bits x.nib
    let sn := if fmt = 0 then 1 else geomScaleSize geom
    let sc := match x.scale with | some (sa, st) => s.peek (st.pa sa) sn | none => 0
    let scaleBad := match x.scale with | some (sa, st) => if s.bad (st.pa sa) sn then [(sa, st.pa sa)] else [] | none => []
    let bad := (if s.bad pa (storeBytes bits) then [(x.va, pa)] else []) ++ scaleBad
    let val := if fmt = 0 then (if tfmt = fmtMx4 then decodeMx4 code sc else Num.zero false)
      else if fmtScaled fmt then scaledValue fmt geom code sc else fmtValue fmt code
    { code := code, val := val, pass := fmt = 0 || tilePageFmt tfmt = some fmt, fmt := fmt, scale := sc, gone := false, bad := bad
      lost := !scaleBad.isEmpty }

/-- Whether rounding into a tile format is stochastic: a float format of 8 or 4 bits (R40, R243). -/
def tileNarrow (fmt : Nat) : Bool := fmt = 2 || fmt = 3 || fmt = 6 || fmt = fmtMx4

/-- Whether the scale of a block is not written: the one that passes is uncorrectable, or every element is. -/
def keepsScale (same : Bool) (xs : List PgVal) : Bool :=
  xs.all (fun x => !x.bad.isEmpty) || (same && (match xs with | x :: _ => x.lost | [] => false))

/-- Whether the elements of a block lie on pages of one kind, and pass as they are. -/
def passes (xs : List PgVal) : Bool := xs.all (fun x => x.pass) && (xs.all (fun x => x.fmt = 0) || xs.all (fun x => x.fmt ≠ 0))

/-- One 32-element block of an MXFP4 row: passed whole when all its elements lie on pages of one kind, else encoded. DESIGN CHOICE
(assumption 82): where its elements lie in two blocks of an MXFP4 page, whose scales may differ, the scale that passes is that of its
first element's block. An element that met an uncorrectable error stays as it was, and so does the scale where it is that which passes,
or where no element has come (R429). -/
def Tile.setBlock (t : Tile) (i j : Nat) (xs : List PgVal) (draw : Nat → Nat) : Tile :=
  let same := passes xs
  let (sc, codes) :=
    if same then ((match xs with | x :: _ => x.scale | [] => 0), xs.map PgVal.code)
    else encodeMx4 rne ((List.range xs.length).map (fun k => draw (j + k))) (xs.map (fun x => if x.bad.isEmpty then x.val else Num.zero false))
  let t1 := (codes.zip xs).zipIdx.foldl (fun t p => if p.1.2.bad.isEmpty then t.setBits i (j + p.2) p.1.1 else t) t
  if keepsScale same xs then t1 else t1.setScale i (j / 32) sc

/-- One row of a page-mode load. -/
def Tile.setPageRow (t : Tile) (i : Nat) (xs : List PgVal) (draw : Nat → Nat) : Tile :=
  if t.fmt = fmtMx4 then
    (List.range (t.cols / 32)).foldl (fun t k => t.setBlock i (32 * k) ((xs.drop (32 * k)).take 32) draw) t
  else
    xs.zipIdx.foldl (fun t p =>
      if p.1.bad.isEmpty then t.setBits i p.2 (if p.1.pass then p.1.code else encodeTile t.fmt (draw p.2) p.1.val) else t) t

/-- The raw bytes of row i that a page-mode load leaves as they were. -/
def Tile.pageLost (t : Tile) (i : Nat) (xs : List PgVal) : List (Nat × Nat) :=
  (xs.zipIdx.filterMap (fun p => if p.1.bad.isEmpty then none else some (i, p.2 * tileBits t.fmt / 8)))
    ++ (if t.fmt = fmtMx4 then (List.range (t.cols / 32)).filterMap (fun k =>
        let b := (xs.drop (32 * k)).take 32
        if keepsScale (passes b) b then some (i, t.rowBytes + k) else none) else [])

/-- `tld.page`. -/
def Env.pageLoad (e : Env) (tn lane : Nat) (a b : BitVec 4) : SwRes :=
  let base := e.moveBase 0 a lane
  let stride := e.moveStride b lane
  e.checkMove tn lane false 0 base stride (fun t =>
    let sc := (rowStarts t base stride).foldl (fun (s : PgScan) r => s.row (e.look lane) t r) { needs := [], align := false, refused := [], rows := [] }
    if !sc.needs.isEmpty then .stop (e.missAll kindEngineRead sc.needs)
    else if sc.align then swTrap e cALIGN lane
    else if !sc.refused.isEmpty then swPerm e lane (lowest sc.refused)
    else
      let (key, e1) := if tileNarrow t.fmt then e.swKey lane else (0, e)
      let rows := sc.rows.map (fun r => r.map (fun x => e.s.pageVal t.fmt x))
      let t1 := rows.zipIdx.foldl (fun t r => t.setPageRow r.2 r.1 (fun j => srDraw e.c.seed.toNat key (r.2 * t.cols + j))) t
      let all := rows.flatten
      let lost := all.flatMap PgVal.bad
      .ok { e := (e1.setSwage (e1.swage.setTile tn t1)).swWritten tn (rows.zipIdx.flatMap (fun r => t.pageLost r.2 r.1))
            absent := all.any PgVal.gone
            bad := lost.foldl (fun m x => minVa m x.1) none, pas := lost.map Prod.snd })

/-! ### Tile instructions -/

def execTld (t a b : BitVec 4) (c : BitVec 3) (q : BitVec 1) (sp : BitVec 2) (pg : BitVec 1) (g : BitVec 3) (s : State) :
    Host.Outcome State Fault Refusal :=
  let r : Req := { instr := .tld t a b c q sp pg g, pg := g.toNat, reads := moveReads sp a b, lazy := true, bitM := true }
  tileOp r c q false (fun e lane => if pg = 1 then e.pageLoad t.toNat lane a b else e.rawLoad t.toNat lane false sp a b)
    (fun e => shapeOnly ((e.swage.tile t.toNat).rows ≠ 0)) s

def execTmeta (t a b : BitVec 4) (c : BitVec 3) (q : BitVec 1) (sp : BitVec 2) (g : BitVec 3) (s : State) : Host.Outcome State Fault Refusal :=
  let r : Req := { instr := .tmeta t a b c q sp g, pg := g.toNat, reads := moveReads sp a b, lazy := true, bitM := true }
  tileOp r c q false (fun e lane => e.rawLoad t.toNat lane true sp a b) (fun e => shapeOnly ((e.swage.tile t.toNat).rows ≠ 0)) s

/-- `tst`: uncorrectable bytes of the tile leave memory as it was (R256, R429). -/
def execTst (t a b : BitVec 4) (c : BitVec 3) (q : BitVec 1) (sp : BitVec 2) (g : BitVec 3) (s : State) : Host.Outcome State Fault Refusal :=
  let r : Req := { instr := .tst t a b c q sp g, pg := g.toNat, reads := moveReads sp a b, lazy := true, bitM := true }
  tileOp r c q true (fun e lane =>
    let base := e.moveBase sp a lane
    let stride := e.moveStride b lane
    e.checkMove t.toNat lane false sp base stride (fun tl =>
      let rows := rowStarts tl base stride
      match spaceOf sp.toNat with
      | none => e.globalRows lane kindEngineWrite pteW rows tl.memRow (fun ps => e.storeGlobal t.toNat ps)
      | some x => e.localRows lane x rows tl.memRow (fun rs => e.storeLocalRows t.toNat x rs)))
    (fun e => shapeOnly ((e.swage.tile t.toNat).rows ≠ 0)) s

def execTzero (t : BitVec 4) (c : BitVec 3) (q : BitVec 1) (g : BitVec 3) (s : State) : Host.Outcome State Fault Refusal :=
  let r : Req := { instr := .tzero t c q g, pg := g.toNat, lazy := true }
  tileOp r c q false (fun e _ => .plain ((e.setSwage (e.swage.setTile t.toNat (e.swage.tile t.toNat).zero)).swWritten t.toNat [])) (fun _ => none) s

/-! ### Multiplies (R247, R248) -/

/-- What the operands of a multiply must be: shapes, and then formats. -/
def Swage.mulRefused (w : Swage) (a b : Tile) (shapes : Bool) (isMeta : Option Tile) : Option Nat :=
  let int := (w.bank w.act).int
  if a.rows = 0 || b.rows = 0 || !shapes then some cSHAPE
  else if (match isMeta with | some m => m.fmt ≠ fmtMeta | none => false) || a.fmt = fmtMeta || b.fmt = fmtMeta
      || (int && (tileFloat a.fmt || tileFloat b.fmt)) then some cILLEGAL
  else none

/-- Whether an accumulator's multiply reads something uncorrectable: an element of A or B, an index, or the accumulator itself. -/
def Env.cellBad (e : Env) (an bn : Nat) (index : Option Nat) (pairs : Nat → List (Nat × Nat)) (i j : Nat) : Bool :=
  !e.swSound && ((pairs i).any (fun p => e.elemBad an i p.1 || e.elemBad bn j p.2)
    || (match index with | some tn => (List.range (pairs i).length).any (fun q => e.elemBad tn i q) | none => false)
    || e.swBad (accUnits e.swage.act i j))

/-- A multiply into the active bank; an accumulator for which something is uncorrectable stays as it was (R256, R429), and the deferred
ECC_UE, which has no address, records 0 in `ctl.trapva` (DESIGN CHOICE, assumption 83). -/
def Env.multiply (e : Env) (lane : Nat) (an bn : Nat) (index : Option Nat) (refused : Option Nat) (pairs : Nat → List (Nat × Nat)) : SwRes :=
  match refused with
  | some cause => swTrap e cause lane
  | none =>
    let w := e.swage
    let a := w.tile an
    let b := w.tile bn
    let skip := e.cellBad an bn index pairs
    .ok { e := e.setSwage (w.setBank w.act ((w.bank w.act).multiply a b pairs skip))
          absent := false
          bad := noAddress (!e.swSound && (List.range a.rows).any (fun i => (List.range b.rows).any (fun j => skip i j))) }

def execMma (a b : BitVec 4) (c : BitVec 3) (q : BitVec 1) (g : BitVec 3) (s : State) : Host.Outcome State Fault Refusal :=
  let r : Req := { instr := .mma a b c q g, pg := g.toNat, lazy := true }
  tileOp r c q false (fun e lane =>
    let w := e.swage
    let x := w.tile a.toNat
    let y := w.tile b.toNat
    e.multiply lane a.toNat b.toNat none (w.mulRefused x y (y.cols = x.cols) none) (fun _ => mmaPairs x))
    (fun e => shapeOnly ((e.swage.tile a.toNat).rows ≠ 0 && (e.swage.tile b.toNat).rows ≠ 0 && (e.swage.tile b.toNat).cols = (e.swage.tile a.toNat).cols)) s

/-- The shapes that `mmas` asks for (R248). -/
def mmasFits (z x y : Tile) : Bool := y.cols % 4 = 0 && x.cols = y.cols / 2 && z.rows = x.rows && z.cols = y.cols / 2

def execMmas (t a b : BitVec 4) (c : BitVec 3) (q : BitVec 1) (g : BitVec 3) (s : State) : Host.Outcome State Fault Refusal :=
  let r : Req := { instr := .mmas t a b c q g, pg := g.toNat, lazy := true }
  tileOp r c q false (fun e lane =>
    let w := e.swage
    let x := w.tile a.toNat
    let y := w.tile b.toNat
    let z := w.tile t.toNat
    e.multiply lane a.toNat b.toNat (some t.toNat) (w.mulRefused x y (mmasFits z x y) (some z)) (fun i => mmasPairs z x i))
    (fun e =>
      let w := e.swage
      shapeOnly ((w.tile a.toNat).rows ≠ 0 && (w.tile b.toNat).rows ≠ 0 && mmasFits (w.tile t.toNat) (w.tile a.toNat) (w.tile b.toNat))) s

/-! ### Banks and drains (R250, R251) -/

def execMswap (c : BitVec 3) (q : BitVec 1) (g : BitVec 3) (s : State) : Host.Outcome State Fault Refusal :=
  let r : Req := { instr := .mswap c q g, pg := g.toNat, lazy := true }
  tileOp r c q false (fun e _ => .plain (e.setSwage { e.swage with act := !e.swage.act })) (fun _ => none) s

/-- The bank that a BANK field selects: the inactive one, or with 1 the active one (R235). -/
def Swage.selected (w : Swage) (k : BitVec 1) : Bool := if k = 1 then w.act else !w.act

def execMclr (k : BitVec 1) (c : BitVec 3) (q : BitVec 1) (md : BitVec 1) (g : BitVec 3) (s : State) : Host.Outcome State Fault Refusal :=
  let r : Req := { instr := .mclr k c q md g, pg := g.toNat, lazy := true }
  tileOp r c q false (fun e _ =>
    let w := e.swage
    let one := w.selected k
    .plain ((e.setSwage (w.setBank one (.fresh (md = 1)))).swFresh (fun u => u / 2048 = if one then 5 else 4))) (fun _ => none) s

/-- The region of a drain (R251). -/
structure Region where
  nr   : Nat
  nc   : Nat
  row0 : Nat
  col0 : Nat
  deriving DecidableEq, Repr

def regionOf (v : Word) : Region := { nr := bitsOf v.toNat 0 7, nc := bitsOf v.toNat 8 7, row0 := bitsOf v.toNat 16 6, col0 := bitsOf v.toNat 24 6 }

/-- Reserved bits of a region. -/
def regionReserved (v : Word) : Bool := v &&& 0xC0C08080 ≠ 0

def Region.bad (x : Region) : Bool := x.nr = 0 || x.nc = 0 || 64 < x.nr || 64 < x.nc || 64 < x.row0 + x.nr || 64 < x.col0 + x.nc

/-- A mode that R37 refuses for a drain's format. -/
def drainMode (dt mode : Nat) : Bool := if dt = 4 then decide (4 ≤ mode) else if dt = 3 then mode = 4 else false

/-- The lowest offset of a drain outside the CBUF claim. -/
def drainPast (claim dt : Nat) (region : Word) (off stride : Nat) : Nat :=
  let x := regionOf region
  let at_ (i : Nat) : Nat := off + i * stride
  let out := (List.range x.nr).filter (fun i => claim < at_ i + x.nc * drainSize dt + 1)
  lowest (out.map (fun i => max (at_ i) claim))

/-- The checks of a drain: ILLEGAL, SHAPE, ALIGN, PERM. -/
def drainRefused (claim : Nat) (dt mode : Nat) (region : Word) (off stride : Nat) : Option Nat :=
  let x := regionOf region
  let size := drainSize dt
  if regionReserved region || drainMode dt mode || claim = 0 then some cILLEGAL
  else if x.bad then some cSHAPE
  else if off % size ≠ 0 || stride % size ≠ 0 then some cALIGN
  else if claim < off + (x.nr - 1) * stride + x.nc * size + 1 then some cPERM
  else none

/-- `mdrain`: rows in ascending order into CBUF; an uncorrectable accumulator leaves its bytes there as they were (R256, R429). -/
def execMdrain (k : BitVec 1) (a b : BitVec 4) (c : BitVec 3) (q : BitVec 1) (dt : BitVec 3) (actv : BitVec 2) (g : BitVec 3) (s : State) :
    Host.Outcome State Fault Refusal :=
  let r : Req := { instr := .mdrain k a b c q dt actv g, pg := g.toNat, reads := [tlReg a, tlReg a + 1, tlReg b, tlReg b + 1],
                   modes := allModes, sat := true, lazy := true }
  tileOp r c q false (fun e lane =>
    let u := e.t.unit
    let off := (e.t.lane (tlReg a) lane).toNat
    let stride := (e.t.lane (tlReg a + 1) lane).toNat
    let scale := decodeFmt fmtFp32 (e.t.lane (tlReg b) lane).toNat
    let region := e.t.lane (tlReg b + 1) lane
    let cl := e.c.claim .cbuf
    match drainRefused cl.size dt.toNat u.mode region off stride with
    | some cause =>
      if cause = cPERM then swPerm e lane (drainPast cl.size dt.toNat region off stride) else swTrap e cause lane
    | none =>
      let w := e.swage
      let one := w.selected k
      let x := regionOf region
      let (key, e1) := if dt = 3 || u.mode = rsto then e.swKey lane else (0, e)
      let lost (i j : Nat) : Bool := !e.swSound && e.swBad (accUnits one (x.row0 + i) (x.col0 + j))
      let row (i : Nat) : List (Option Byte) :=
        (w.bank one).drainRow (x.row0 + i) x.col0 x.nc dt.toNat actv.toNat u.mode (u.sat false) scale
          (fun j => srDraw e.c.seed.toNat key (i * x.nc + j)) (lost i)
      let put (s : State) (i : Nat) : State :=
        s.writeSome (fun s a bs => s.writeLocal e.c.core .cbuf a bs) (cl.base + off + i * stride) (row i)
      .ok { e := { e1 with s := (List.range x.nr).foldl put e1.s }
            absent := false
            bad := noAddress ((List.range x.nr).any (fun i => (List.range x.nc).any (lost i))) })
    (fun e => if drainMode dt.toNat e.t.unit.mode then some cILLEGAL else none) s

end Sys2Proof.Machine
end

