-- ==== Sys2Proof/Machine/Field.lean ====
section
/-! DEFINITION. Class 0xA, fields and samples: `hgf`, `hgs`, `hgfold`, `march` and `tex`
(spec/11_fields_rays_and_samples.md R257 to R274). The unit's arithmetic stands in `FieldEngine.lean`. -/

namespace Sys2Proof.Machine

/-! ### Structures (R258, R259) -/

/-- The access kinds of the field unit's misses (R364): a structure or an element that is read; a shadow word that `hgs` updates; the
table and shadow words of `hgfold`. -/
def kindField : BitVec 5 := kindEngineRead
def kindShadow : BitVec 5 := kindEngineWrite ||| kindAtomic
def kindFold : BitVec 5 := kindEngineRead ||| kindEngineWrite ||| kindAtomic

/-- What reading a header or descriptor comes to. -/
inductive Struct where
  | bytes (b : List Byte)
  | absent
  | stop (r : Res)
  deriving DecidableEq, Repr

/-- Step 2 of R259: a structure of n bytes, aligned on n, read raw through lane m's translation. -/
def Env.readStruct (e : Env) (lane va n : Nat) : Struct :=
  let m := laneBit lane
  if vaBad va || va % n ≠ 0 then .stop (.trap e (.at cALIGN m (va % 2 ^ 57)) false)
  else match e.look lane va with
    | .miss => .stop (e.missAll kindField [va])
    | .invalid => .stop (.trap e (.at cPERM m va) false)
    | .found tr =>
      if !pteR tr.entry then .stop (.trap e (.at cPERM m va) false)
      else if !pteP tr.entry then .absent
      else if e.s.bad (tr.pa va) n then .stop (.trap (e.via (fun s => s.consumeUe e.c.ctx (tr.pa va))) (.at cECC m va) false)
      else .bytes (e.s.peekBytes (tr.pa va) n)

/-- Registers that only a header names: their count is checked, and the results in flight on them are waited for (R49,
R187, R257). -/
def Env.withRuns (e : Env) (lane : Nat) (reads writes : List Nat) (go : Env → Res) : Res :=
  if (reads ++ writes).any (fun v => decide (e.t.regs.length ≤ v)) then .trap e (.plain cILLEGAL (laneBit lane)) false
  else
    let r : Req := { instr := .nop, reads := reads, writes := writes }
    let e1 := r.ready e
    if r.blocked e1.t then .hold e1
    else if r.sourceBad e1.t then .trap (e1.via (fun s => s.consumeUe e.c.ctx (2 ^ 90))) (.plain cECC (laneBit lane)) false
    else go e1

/-- A field request issued on tr (R260). When lanes fault, it is performed before the trap is taken (R259). -/
def Env.startField (e : Env) (dsts : List Nat) (c : FieldCmd) (sc : Scan) : Res :=
  match e.start .tr dsts none (.field c) with
  | .done e1 =>
    if sc.fault = 0 then .done e1
    else
      let e2 := e1.settle (fun p => p.id = e1.t.nextOp - 1)
      .trap e2 (.at cPERM sc.fault sc.faultVa) (c.mask ≠ 0)
  | x => x

/-- Steps 3 to 5 of R259 for the elements of the lanes. -/
def Env.fieldLanes (e : Env) (kind : BitVec 5) (m : Mask) (sc : Scan) (go : Env → Mask → Res) : Res :=
  if !sc.needs.isEmpty then e.missAll kind sc.needs
  else if sc.align ≠ 0 then .trap e (.plain cALIGN sc.align) false
  else
    let perf := m &&& ~~~sc.fault
    if perf = 0 then .trap e (.at cPERM sc.fault sc.faultVa) false else go e perf

/-- A command of the field unit; `inputs` are the registers it read when it issued. -/
def Env.fieldCmd (e : Env) (kind : FieldKind) (vd lane : Nat) (m : Mask) (header : List Byte) (inputs : List (L8 Word)) (trans : List Trans) : FieldCmd :=
  { kind := kind, vd := vd, mask := m, lane := lane, header := header, inputs := inputs, trans := trans, key := 0, seed := e.c.seed,
    ctx := e.c.ctx, gone := 0, bad := 0, badVa := none, drop := false, got := [], sent := [] }

def Strand.run (t : Strand) (v n : Nat) : List (L8 Word) := (List.range n).map (fun i => (t.reg (v + i)).lanes)

/-- A header with its base addresses and ranges checked (R259, R262). -/
def Env.withField (e : Env) (lane va : Nat) (absent : Env → Res) (go : Field → List Byte → Res) : Res :=
  match e.readStruct lane va 64 with
  | .stop r => r
  | .absent => absent e
  | .bytes b =>
    let f := parseField b
    if !f.aligned then .trap e (.at cALIGN (laneBit lane) va) false
    else if !f.inRange then .trap e (.plain cILLEGAL (laneBit lane)) false
    else go f b

/-! ### Addresses of a field's elements -/

/-- Addresses whose pages decide the element size of a level (R263, assumption 20). -/
def sizeVas (f : Field) (n : Nat) : List Nat :=
  (f.tbase :: [4, 2, 1].map (fun c => (f.tbase + n * f.entries * f.feat * c) % 2 ^ 64)).filter (fun va => !vaBad va)

/-- The translations of those pages that are known. -/
def Env.sizeTrans (e : Env) (lane : Nat) (f : Field) (ns : List Nat) : List Trans :=
  ((ns.flatMap (sizeVas f)).filterMap (fun va => match e.look lane va with | .found tr => some tr | _ => none)).eraseDups

/-- The element sizes of levels, or an address to translate first. -/
def levelSizes (look : Nat → Lookup) (f : Field) (ns : List Nat) : Except Nat (List Nat) :=
  ns.foldr (fun n acc => match levelSize look f n, acc with
    | .error va, _ => .error va
    | _, .error va => .error va
    | .ok s, .ok xs => .ok (s :: xs)) (.ok [])

/-- Addresses of one level's elements that a lane reads: every corner and feature. -/
def laneParams (f : Field) (co : List Num) (n size : Nat) : List Nat :=
  (corners f n co).flatMap (fun p => (List.range f.feat).map (fun h => paramVa f size (n * f.entries + p.1) h))

def laneShadows (f : Field) (co : List Num) (n : Nat) : List Nat :=
  (corners f n co).flatMap (fun p => (List.range f.feat).map (fun h => shadowVa f (n * f.entries + p.1) h))

/-- Registers of an output or gradient run. -/
def fieldRun (f : Field) (half : Bool) : Nat := if half then f.lev * f.feat / 2 else f.lev * f.feat

/-! ### hgf (R265) -/

/-- An absent header reads as zero: one level of two features, whose outputs are +0. -/
def absentField : Field := parseField (List.replicate 64 0)

def execHgf (d a b : BitVec 6) (o : BitVec 1) (g : BitVec 3) (s : State) : Host.Outcome State Fault Refusal :=
  let half := o = 1
  let r : Req := { instr := .hgf d a b o g, pg := g.toNat, reads := regs2 b, names := regs1 d ++ regs1 a, lazy := true }
  issue r (fun e m =>
    if m = 0 then .done e
    else
      let lane := lowLane m
      let va := (e.t.lane64 b.toNat lane).toNat
      e.withField lane va
        (fun e => e.withRuns lane [] (regsRun d (fieldRun absentField half)) (fun e =>
          let n := fieldRun absentField half
          e.startField (regsRun d n) { e.fieldCmd (.given n) d.toNat lane m [] (List.replicate n (L8.all 0)) [] with gone := m } .empty))
        (fun f hd =>
          let n := fieldRun f half
          e.withRuns lane (regsRun a f.dim) (regsRun d n) (fun e =>
            let levels := List.range f.lev
            match levelSizes (e.look lane) f levels with
            | .error v => e.missAll kindField [v]
            | .ok sizes =>
              let inputs := e.t.run a.toNat f.dim
              let sc := (lanesOf m).foldl (fun (sc : Scan) l => (levels.zip sizes).foldl (fun sc p =>
                sc.lane l (laneParams f (coords f inputs l) p.1 p.2) (classify (e.look l) (paramWant p.2 pteR))) sc) .empty
              e.fieldLanes kindField m sc (fun e perf =>
                let c := e.fieldCmd (.hgf half) d.toNat lane perf hd inputs (sc.trans ++ e.sizeTrans lane f levels)
                e.startField (regsRun d n) c sc)))) s

/-! ### hgs (R266, R267) -/

def pteWA (e : DWord) : Bool := pteW e && pteA e

def execHgs (d a b : BitVec 6) (i : BitVec 1) (g : BitVec 3) (s : State) : Host.Outcome State Fault Refusal :=
  let half := i = 1
  let r : Req := { instr := .hgs d a b i g, pg := g.toNat, reads := regs2 b, names := regs1 d ++ regs1 a, idem := false, lazy := true }
  issue r (fun e m =>
    if m = 0 then .done e
    else
      let lane := lowLane m
      let va := (e.t.lane64 b.toNat lane).toNat
      e.withField lane va
        (fun e => e.startField [] { e.fieldCmd (.given 0) d.toNat lane m [] [] [] with gone := m } .empty)
        (fun f hd =>
          let n := fieldRun f half
          e.withRuns lane (regsRun a f.dim ++ regsRun d n) [] (fun e =>
            let inputs := e.t.run a.toNat f.dim ++ e.t.run d.toNat n
            let sc := (lanesOf m).foldl (fun (sc : Scan) l => (List.range f.lev).foldl (fun sc k =>
              sc.lane l (laneShadows f (coords f inputs l) k) (classify (e.look l) (shadowWant f pteWA))) sc) .empty
            e.fieldLanes kindShadow m sc (fun e perf =>
              e.startField [] (e.fieldCmd (.hgs half) d.toNat lane perf hd inputs sc.trans) sc)))) s

/-! ### hgfold (R268, R269) -/

/-- The 16 KiB pages of a byte range. -/
def rangePages (lo n : Nat) : List Nat :=
  if n = 0 then [] else (List.range ((lo + n - 1) / 2 ^ 14 - lo / 2 ^ 14 + 1)).map (fun i => max lo ((lo / 2 ^ 14 + i) * 2 ^ 14))

/-- The flat indices of level n in [x0, x0 + k): first and count. -/
def levelPart (f : Field) (x0 k n : Nat) : Nat × Nat :=
  let lo := max x0 (n * f.entries)
  let hi := min (x0 + k) ((n + 1) * f.entries)
  (lo, hi - lo)

def pteRWAny (e : DWord) : Bool := pteR e && pteWA e

/-- Whether a table format draws when it is folded into (R269). -/
def foldNarrow (fmt : Nat) : Bool := fmt = 4 || fmt = 5 || fmt = 7

/-- `hgfold`: the checks of R268 and R259 in the order of a copy's, and the command. -/
def Env.fold (e : Env) (lane : Nat) (f : Field) (hd : List Byte) (eta x0 k cw : Word) : Res :=
  let m := laneBit lane
  let rm := foldRm cw
  let illegal : Res := .trap e (.plain cILLEGAL m) false
  if cw.toNat / 32 ≠ 0 || 5 < rm || f.lev * f.entries < x0.toNat + k.toNat then illegal
  else
    let look := e.look lane
    let levels := (List.range f.lev).filter (fun n => (levelPart f x0.toNat k.toNat n).2 ≠ 0)
    match levelSizes look f levels with
    | .error v => e.missAll kindFold [v]
    | .ok sizes =>
      let sc1 := (levels.zip sizes).foldl (fun (sc : Scan) p =>
        let (lo, n) := levelPart f x0.toNat k.toNat p.1
        sc.lane lane (rangePages (paramVa f p.2 lo 0) (n * f.feat * p.2)) (classify look (paramWant p.2 pteW))) .empty
      let shadows := rangePages (shadowVa f x0.toNat 0) (k.toNat * f.feat * (if f.smode then 8 else 4))
      let sc := sc1.lane lane shadows (classify look (shadowWant f pteRWAny))
      let refusedBy (vas : List Nat) (w : Want) : List Nat := vas.filter (fun v => classify look w v = .refused)
      let refused := (levels.zip sizes).flatMap (fun p =>
          let (lo, n) := levelPart f x0.toNat k.toNat p.1
          refusedBy (rangePages (paramVa f p.2 lo 0) (n * f.feat * p.2)) (paramWant p.2 pteW))
        ++ refusedBy shadows (shadowWant f pteRWAny)
      if !sc.needs.isEmpty then e.missAll kindFold sc.needs
      else if sc.align ≠ 0 then .trap e (.plain cALIGN m) false
      else if !refused.isEmpty then .trap e (.at cPERM m (lowest refused)) false
      else
        let fmts := (levels.zip sizes).flatMap (fun p =>
          let (lo, n) := levelPart f x0.toNat k.toNat p.1
          (rangePages (paramVa f p.2 lo 0) (n * f.feat * p.2)).filterMap (fun v => match look v with | .found tr => some (tableFmt tr.entry) | _ => none))
        if rm = 4 && fmts.contains 7 then illegal
        else
          let th := e.t.thread lane
          let draws := rm = rsto || fmts.any foldNarrow
          let key := engineKey (th.copies % 2 ^ 11 * 2 ^ 52 + globalThread e.c e.t lane)
          let c := { e.fieldCmd .hgfold 0 lane m hd [L8.all eta, L8.all x0, L8.all k, L8.all cw] (sc.trans ++ e.sizeTrans lane f levels) with
            key := BitVec.ofNat 64 key }
          match e.startField [] c .empty with
          | .done e1 => .done (if draws then { e1 with t := e1.t.modThread lane (fun x => { x with copies := x.copies + 1 }) } else e1)
          | x => x

def execHgfold (d a b c : BitVec 6) (s : State) : Host.Outcome State Fault Refusal :=
  let r : Req := { instr := .hgfold d a b c, reads := regs1 d ++ regs2 a ++ regs2 b ++ regs1 c, idem := false, lazy := true }
  issue r (fun e m =>
    let lane := lowLane m
    e.withField lane (e.t.lane64 a.toNat lane).toNat
      (fun e => e.startField [] { e.fieldCmd (.given 0) 0 lane m [] [] [] with gone := m } .empty)
      (fun f hd => e.fold lane f hd (e.t.lane d.toNat lane) (e.t.lane b.toNat lane) (e.t.lane (b.toNat + 1) lane) (e.t.lane c.toNat lane))) s

/-! ### march (R271, R272) -/

/-- The ten output words of a lane whose descriptor is absent. -/
def noSamples : List Word := List.replicate 8 0x7F800000 ++ [0, 0x7F800000]

/-- The lanes of a march worked out with the grid as it is at issue, which says the bytes that are checked. -/
def Env.marchAll (e : Env) (m : Mask) (g : Grid) (a : Nat) : List (Nat × Except MarchStop (List Word × Bool × Option Nat)) :=
  (lanesOf m).map (fun l => (l, e.s.marchLane (gridClass (e.look l)) g ((List.range 8).map (fun i => decF32 (e.t.lane (a + i) l)))))

/-- The translations with read permission of a grid's pages that are known when the march issues: the command holds them (R219). -/
def Env.gridTrans (e : Env) (lane : Nat) (g : Grid) : List Trans :=
  ((rangePages g.base 0x4924A).filterMap (fun va => match e.look lane va with | .found tr => if pteR tr.entry then some tr else none | _ => none)).eraseDups

/-- What the lanes' grid reads came to. -/
def marchScan (rs : List (Nat × Except MarchStop (List Word × Bool × Option Nat))) : Scan :=
  rs.foldl (fun (sc : Scan) r => match r.2 with
    | .error (.need va) => sc.add r.1 va .need
    | .error (.refused va) => sc.add r.1 va .refused
    | .error (.misaligned va) => sc.add r.1 va .misaligned
    | .ok _ => sc) .empty

def execMarch (d a b : BitVec 6) (g : BitVec 3) (s : State) : Host.Outcome State Fault Refusal :=
  let r : Req := { instr := .march d a b g, pg := g.toNat, reads := regsRun a 8 ++ regs2 b, writes := regsRun d 10, lazy := true }
  issue r (fun e m =>
    if m = 0 then .done e
    else
      let lane := lowLane m
      let va := (e.t.lane64 b.toNat lane).toNat
      match e.readStruct lane va 64 with
      | .stop x => x
      | .absent =>
        let c := { e.fieldCmd (.given 10) d.toNat lane m [] (noSamples.map L8.all) [] with gone := m }
        e.startField r.writes c .empty
      | .bytes hd =>
        let gr := parseGrid hd
        if gr.base % 64 ≠ 0 then .trap e (.at cALIGN (laneBit lane) va) false
        else if !gr.inRange (leAt hd 0x18 4) then .trap e (.plain cILLEGAL (laneBit lane)) false
        else
          let sc := marchScan (e.marchAll m gr a.toNat)
          e.fieldLanes kindField m sc (fun e perf =>
            e.startField r.writes (e.fieldCmd .march d.toNat lane perf hd (e.t.run a.toNat 8) (e.gridTrans lane gr)) sc)) s

/-! ### tex (R273, R274) -/

def execTex (d a b : BitVec 6) (g : BitVec 3) (s : State) : Host.Outcome State Fault Refusal :=
  let r : Req := { instr := .tex d a b g, pg := g.toNat, reads := regsRun a 2 ++ regs2 b, names := regs1 d, lazy := true }
  issue r (fun e m =>
    if m = 0 then .done e
    else
      let lane := lowLane m
      let va := (e.t.lane64 b.toNat lane).toNat
      match e.readStruct lane va 32 with
      | .stop x => x
      | .absent =>
        -- the descriptor reads as zero: one channel, whose output is +0
        e.withRuns lane [] (regsRun d 1) (fun e =>
          e.startField (regsRun d 1) { e.fieldCmd (.given 1) d.toNat lane m [] [L8.all 0] [] with gone := m } .empty)
      | .bytes hd =>
        let t := parseTexture hd
        if !t.inRange then .trap e (.plain cILLEGAL (laneBit lane)) false
        else
          let n := t.channels
          e.withRuns lane [] (regsRun d n) (fun e =>
            match texSize (e.look lane) t with
            | .error v => e.missAll kindField [v]
            | .ok size =>
              let inputs := e.t.run a.toNat 2
              let vas (l : Nat) : List Nat := (texCorners t (e.t.lane a.toNat l) (e.t.lane (a.toNat + 1) l)).1.flatMap (fun ab =>
                (List.range n).map (fun h => texVa t size ab.1 ab.2 h))
              let sc := (lanesOf m).foldl (fun (sc : Scan) l => sc.lane l (vas l) (classify (e.look l) (texWant size))) .empty
              let own := match e.look lane t.base with | .found tr => [tr] | _ => []
              e.fieldLanes kindField m sc (fun e perf => e.startField (regsRun d n) (e.fieldCmd .tex d.toNat lane perf hd inputs (sc.trans ++ own)) sc))) s

end Sys2Proof.Machine
end

