-- ==== Sys2Proof/Machine/Trace.lean ====
section
/-! DEFINITION. Class 0xA, ray traversal: `trace`, `tcont`, `thit` and `tabort` (spec/11_fields_rays_and_samples.md R275 to
R282). A group stays at a `trace` or `tcont` until every acting lane has its status (R260). -/

namespace Sys2Proof.Machine

/-- Whether a lane has the status that the instruction at the group's address gives it. -/
def Strand.traced (t : Strand) (l : Nat) : Bool := (t.thread l).query.done = some t.unitPc

/-- Whether a lane's traversal was started by the instruction at the group's address, and goes on. -/
def Strand.tracing (t : Strand) (l : Nat) : Bool :=
  match t.traceOf l with
  | some p => !p.done && p.pc = t.unitPc && (t.thread l).query.status = qRunning
  | none => false

/-- The lanes that the instruction is still to start. -/
def Strand.toTrace (t : Strand) (m : Mask) : Mask := maskOf (fun l => laneOn m l && !t.traced l && !t.tracing l)

/-- The lanes that act in a `trace` or `tcont`: those that its guard gave when it issued, however long the group has held at it
since (R72). -/
def Strand.acting (t : Strand) (m : Mask) : Mask :=
  let kept := maskOf (fun l => laneOn t.group l && (t.thread l).acts = some t.unitPc)
  if kept = 0 then m else kept

/-- The group passes when every acting lane has its status; else it holds. -/
def Env.passTrace (e : Env) (m : Mask) : Res :=
  if (lanesOf m).all e.t.traced then
    .done { e with t := e.t.modThreads m (fun _ x => { x with query := { x.query with done := none }, acts := none }) }
  else .hold { e with t := e.t.modThreads m (fun _ x => { x with acts := some e.t.unitPc }) }

/-- Queries of the lanes `m` set by `f`, counted on tr, and run as far as they go. A lane that `f` gives no query writes its current
status and changes nothing else. -/
def Env.startTrace (e : Env) (vd : Nat) (m : Mask) (f : Nat → Query → Option Query) : Res :=
  let go := maskOf (fun l => laneOn m l && (f l (e.t.thread l).query).isSome)
  let before := (lanesOf go).map (fun l => (l, (e.t.thread l).query))
  match e.start .tr [vd] none (.trace vd go before) with
  | .done e1 =>
    let pc := e1.t.unitPc
    let t1 := e1.t.modThreads m (fun l x =>
      { x with query := match f l x.query with
          | some q => if q.status = qRunning then q else { q with done := some pc }
          | none => { x.query with done := some pc } })
    -- lanes that need no traversal have their status at once
    let fin := maskOf (fun l => laneOn m l && (t1.thread l).query.done.isSome)
    let e2 := ({ e1 with t := t1 } : Env).putRun vd 1 fin (fun _ l => BitVec.ofNat 32 (t1.thread l).query.status)
    .done (e2.settle (fun p => p.id = e1.t.nextOp - 1))
  | x => x

/-- The lanes still to start are started, and the group passes or holds. -/
def Env.traceLanes (e : Env) (vd : Nat) (m : Mask) (f : Nat → Query → Option Query) : Res :=
  let todo := e.t.toTrace m
  if todo = 0 then e.passTrace m
  else match e.startTrace vd todo f with
    | .done e1 => e1.passTrace m
    | x => x

/-- `trace` (R277): the descriptor is read once; an absent one ends every query with reason 4 (R259, R280). -/
def execTrace (d a b : BitVec 6) (g : BitVec 3) (s : State) : Host.Outcome State Fault Refusal :=
  let r : Req := { instr := .trace d a b g, pg := g.toNat, reads := regsRun a 8 ++ regs2 b, writes := regs1 d, lazy := true }
  issue r (fun e m0 =>
    let m := e.t.acting m0
    if m = 0 then .done e
    else if e.t.toTrace m = 0 then e.passTrace m
    else
      let lane := lowLane m
      let va := (e.t.lane64 b.toNat lane).toNat
      match e.readStruct lane va 32 with
      | .stop x => x
      | .absent =>
        let e1 := { e with t := { e.t.markAbsent (e.t.toTrace m) with qstill := e.t.qstill &&& ~~~m } }
        e1.traceLanes d.toNat m (fun _ _ => some ((Query.start [] []).abort 4))
      | .bytes hd =>
        if leAt hd 0 8 % 64 ≠ 0 || leAt hd 8 8 % 16 ≠ 0 then .trap e (.at cALIGN (laneBit lane) va) false
        else ({ e with t := { e.t with qstill := e.t.qstill &&& ~~~m } } : Env).traceLanes d.toNat m (fun l _ =>
          some (Query.start hd ((List.range 8).map (fun i => e.t.lane (a.toNat + i) l))))) s

/-- `tcont` (R278): a lane whose query is not stopped writes its status and changes nothing else. DESIGN CHOICE (assumption 94): so
does one whose query a PERM or ALIGN trap holds until `rtt` (R281). -/
def continueForm (i : Instr) (action : Nat) (d a : BitVec 6) (g : BitVec 3) (s : State) : Host.Outcome State Fault Refusal :=
  let r : Req := { instr := i, pg := g.toNat, reads := regs1 a, writes := regs1 d, lazy := true }
  issue r (fun e m0 =>
    let m := e.t.acting m0
    if m = 0 then .done e
    else e.traceLanes d.toNat m (fun l q =>
      if q.stopped && !e.t.queryHeld l then some (q.continue action (e.t.lane a.toNat l)) else none)) s

def execTcontReject (d a : BitVec 6) (g : BitVec 3) (s : State) : Host.Outcome State Fault Refusal :=
  continueForm (.tcontReject d a g) 0 d a g s
def execTcontAccept (d a : BitVec 6) (g : BitVec 3) (s : State) : Host.Outcome State Fault Refusal :=
  continueForm (.tcontAccept d a g) 1 d a g s
def execTcontTerminate (d a : BitVec 6) (g : BitVec 3) (s : State) : Host.Outcome State Fault Refusal :=
  continueForm (.tcontTerminate d a g) 2 d a g s

/-- The five words of a hit (R279). -/
def hitWords (h : Option Hit) : List Word :=
  match h with
  | some x => [rneF32 x.t, rneF32 x.b1, rneF32 x.b2, x.prim, x.geom]
  | none => [0x7F800000, 0, 0, 0xFFFFFFFF, 0xFFFFFFFF]

def execThit (d : BitVec 6) (c : BitVec 1) (g : BitVec 3) (s : State) : Host.Outcome State Fault Refusal :=
  let r : Req := { instr := .thit d c g, pg := g.toNat, writes := regsRun d 5, lazy := true }
  issue r (fun e m =>
    .done (e.putRun d.toNat 5 m (fun i l =>
      let q := (e.t.thread l).query
      (hitWords (if c = 1 then q.cand else q.hit)).getD i 0))) s

def execTabort (g : BitVec 3) (s : State) : Host.Outcome State Fault Refusal :=
  let r : Req := { instr := .tabort g, pg := g.toNat, lazy := true }
  issue r (fun e m => .done { e with t := e.t.modThreads m (fun _ x => { x with query := .none }) }) s

end Sys2Proof.Machine
end

