-- ==== Sys2Proof/Machine/Stream.lean ====
section
/-! DEFINITION. Class 0xB: stream registers and presentation time (spec/12_stream_registers.md R283 to R302). Operations are
accepted when they issue; the stream complex performs them as `StreamEngine.lean` says. -/

namespace Sys2Proof.Machine

/-! ### Bindings (R284, R289) -/

/-- The SESSION trap of the acting lanes. -/
def Env.sessionTrap (e : Env) (m : Mask) : Res := .trap e (.plain cSESSION m) false

/-- Whether a stream register may not be used in a direction (R284); either direction when `dir` is none. -/
def Binding.refuses (b : Binding) (dir : Option Bool) : Bool :=
  !b.bound || b.closed || (match dir with | some d => b.dir != d | none => false)

/-- A binding that may be used and whose frame no later one has displaced (R289). -/
def Env.withBinding (e : Env) (m : Mask) (k : Nat) (dir : Option Bool) (frame : Binding → Nat) (go : Binding → Session → Res) : Res :=
  let b := e.c.bind k
  if b.refuses dir then e.sessionTrap m
  else
    let x := e.s.session b.session
    if x.passedBy (frame b) then e.sessionTrap m else go b x

def Env.setBind (e : Env) (k : Nat) (b : Binding) : Env := { e with c := { e.c with binds := e.c.binds.set k b } }

/-- One more `swr` or `sflush` of a session has been accepted (R295, R298). -/
def Env.accept (e : Env) (session : Nat) : Env :=
  { e with s := e.s.modSession session (fun x => { x with turn := x.turn + 1 }) }

/-- The cursor after eight pixels (R296); `wrap` becomes true when it goes from the last line into the next frame. -/
def Binding.step (b : Binding) (d : SessDesc) : Binding :=
  let x := b.x + 8
  if x < d.w then { b with x := x, wrap := false }
  else if b.y + 1 < d.h then { b with x := 0, y := b.y + 1, wrap := false }
  else { b with x := 0, y := 0, frame := b.frame + 1, wrap := true }

/-- The pixel each lane names: the cursor and the low bits of its offset. -/
def Env.pixels (e : Env) (x b : Nat) : List Nat := laneIds.map (fun l => x + (e.t.lane b l).toNat % 8)

/-! ### srd, srdt and swr (R296 to R298) -/

def execSrd (d : BitVec 6) (v : BitVec 1) (k : BitVec 4) (b : BitVec 6) (p g : BitVec 3) (s : State) : Host.Outcome State Fault Refusal :=
  let r : Req := { instr := .srd d v k b p g, pg := g.toNat, reads := regs1 b, writes := regsRun d 3, pwrites := (predDst p).toList }
  issue r (fun e m =>
    if m = 0 then .done e
    else e.withBinding m k.toNat (some false) Binding.frame (fun bd x =>
      match e.start .sr r.writes (predDst p)
          (.srd bd.session bd.frame bd.y d.toNat p.toNat (v = 1) m (e.pixels bd.x b.toNat)) with
      | .done e1 => .done (e1.setBind k.toNat { bd.step x.d with wrap := bd.wrap })
      | y => y)) s

/-- The tile writes of `srdt` that other strands of the crew have in flight: the unit accepted them first (R237; DESIGN CHOICE,
assumption 59). -/
def Env.srdtElsewhere (e : Env) : Bool :=
  e.c.strands.any (fun t => t.idx ≠ e.t.idx && t.inflight.any (fun p => p.isSrdt && !p.done))

/-- `srdt`: the operands are those of lane m, and the tile is the Swage's (R297). The tile write is accepted now, against the shapes that
the operations before it have left, and every later operation of the crew comes after it (R237). -/
def execSrdt (t k : BitVec 4) (b : BitVec 6) (p g : BitVec 3) (s : State) : Host.Outcome State Fault Refusal :=
  let r : Req := { instr := .srdt t k b p g, pg := g.toNat, reads := regs2 b, pwrites := (predDst p).toList }
  issue r (fun e0 m =>
    let e := if e0.srdtElsewhere then e0.awaitSrdt else e0
    if m = 0 then .done e0
    else if e.srdtElsewhere then .hold e
    else
      let lane := lowLane m
      let pos := (e.t.lane b.toNat lane).toNat
      let ch := (e.t.lane (b.toNat + 1) lane).toNat
      let td := e.swage.tile t.toNat
      if !e.holdsSwage || 3 ≤ ch || 2 ≤ td.fmt then .trap e (.plain cILLEGAL (laneBit lane)) false
      else if td.rows = 0 then .trap e (.plain cSHAPE (laneBit lane)) false
      else e.withBinding m k.toNat (some false) Binding.frame (fun bd _ =>
        e.start .sr [] (predDst p) (.srdt bd.session bd.frame t.toNat p.toNat m (pos % 2 ^ 16) (pos / 2 ^ 16) ch))) s

def execSwr (d : BitVec 6) (v : BitVec 1) (k : BitVec 4) (b : BitVec 6) (g : BitVec 3) (s : State) : Host.Outcome State Fault Refusal :=
  let r : Req := { instr := .swr d v k b g, pg := g.toNat, reads := regsRun d 3 ++ regs1 b }
  issue r (fun e m =>
    if m = 0 then .done e
    else e.withBinding m k.toNat (some true) Binding.frame (fun bd x =>
      match e.start .sr [] none
          (.swr k.toNat x.turn bd.session bd.frame bd.y (v = 1) m (e.pixels bd.x b.toNat) (e.t.run d.toNat 3)) (regsRun d 3) with
      | .done e1 => .done ((e1.accept bd.session).setBind k.toNat (bd.step x.d))
      | y => y)) s

/-! ### sflush (R299) -/

/-- The frame that a flush acts on. -/
def Binding.flushFrame (b : Binding) : Nat := if b.wrap then b.frame - 1 else b.frame

def flushForm (i : Instr) (whole : Bool) (k : BitVec 4) (g : BitVec 3) (s : State) : Host.Outcome State Fault Refusal :=
  let r : Req := { instr := i, pg := g.toNat, idem := false }
  issue r (fun e m =>
    if m = 0 then .done e
    else e.withBinding m k.toNat (some true) Binding.flushFrame (fun bd x =>
      let f := bd.flushFrame
      match e.start .sr [] none (.sflush k.toNat x.turn bd.session f (if bd.wrap then x.d.h else bd.y) whole) with
      | .done e1 => .done ((e1.accept bd.session).setBind k.toNat (if whole then { bd with frame := f + 1, x := 0, y := 0, wrap := false } else { bd with wrap := false }))
      | y => y)) s

def execSflushLine (k : BitVec 4) (g : BitVec 3) (s : State) : Host.Outcome State Fault Refusal := flushForm (.sflushLine k g) false k g s
def execSflushFrame (k : BitVec 4) (g : BitVec 3) (s : State) : Host.Outcome State Fault Refusal := flushForm (.sflushFrame k g) true k g s

/-! ### sinh (R300) -/

/-- Whether a send frame's first packet has gone out. -/
def Session.begun (x : Session) (f : Nat) : Bool :=
  (x.claimed f && (decide (3 ≤ (x.slot f).state) || (x.slot f).lines.any (fun l => l.2.sent ≠ 0)))
    || (match x.sending with | some sd => decide (sd.frame = f ∧ 0 < sd.next) | none => false)

/-- `sinh`: the group holds until the receive frame has its slot; both bindings are checked first. -/
def inherit (r : Req) (k m : BitVec 4) (off : Env → Nat → DWord) (s : State) : Host.Outcome State Fault Refusal :=
  issue r (fun e am =>
    if am = 0 then .done e
    else e.withBinding am k.toNat (some true) Binding.frame (fun sb sx =>
      e.withBinding am m.toNat (some false) Binding.frame (fun rb rx =>
        if !rx.claimed rb.frame then .hold e
        else
          let late := sx.begun sb.frame
          let e1 := e.setBind k.toNat { sb with lateInh := late }
          if late then .done e1
          else
            let (cap, pres) := rx.timesOf rb.frame
            .done (e1.via (fun s => s.setTimes sb.session sb.frame cap (pres + off e (lowLane am))))))) s

def execSinh (k m : BitVec 4) (g : BitVec 3) (s : State) : Host.Outcome State Fault Refusal :=
  inherit { instr := .sinh k m g, pg := g.toNat, idem := false } k m (fun _ _ => 0) s

def execSinhOffset (d : BitVec 6) (k m : BitVec 4) (g : BitVec 3) (s : State) : Host.Outcome State Fault Refusal :=
  inherit { instr := .sinhOffset d k m g, pg := g.toNat, reads := regs2 d, idem := false } k m (fun e l => e.t.lane64 d.toNat l) s

/-! ### sts and sstat (R301) -/

/-- The operations of a binding accepted earlier whose effects are not yet in the session. -/
def Pending.writesBinding (p : Pending) (k : Nat) : Bool :=
  match p.kind with
  | .swr b .. => b = k
  | .sflush b .. => b = k
  | _ => false

/-- The state that every earlier operation of the binding left, or a hold until they are done. -/
def Env.afterStream (e : Env) (k : Nat) (go : Env → Res) : Res :=
  let e1 := e.via (fun s => s.settleCrew e.c.id (fun p => p.writesBinding k))
  let open_ := (match e1.commit.crew? e1.c.id with | some c => c.strands | none => []).any (fun t => t.inflight.any (fun p => p.writesBinding k && !p.done))
  if open_ then .hold e1 else go e1

/-- The send time of a line: t_j of its first packet (R398). -/
def Session.lineTime (x : Session) (f y : Nat) : Nat := x.packetTime f (y * x.d.perLine)

/-- The value of an `sts` selector. -/
def stsValue (b : Binding) (x : Session) (sel : Nat) : Nat :=
  match sel with
  | 0 => (x.timesOf b.frame).1.toNat
  | 1 => (x.timesOf b.frame).2.toNat
  | 2 => if b.dir then x.lineTime b.frame b.y else x.d.deadline b.frame b.y
  | _ => b.frame

def execSts (d : BitVec 6) (k : BitVec 4) (f g : BitVec 3) (s : State) : Host.Outcome State Fault Refusal :=
  let r : Req := { instr := .sts d k f g, pg := g.toNat, writes := regs2 d }
  issue r (fun e m =>
    if m = 0 then .done e
    else e.withBinding m k.toNat none Binding.frame (fun bd _ =>
      e.afterStream k.toNat (fun e =>
        let v := stsValue bd (e.s.session bd.session) f.toNat
        .done (e.puts true (e.t.result64 m .uniform .uniform d.toNat (fun _ => v)))))) s

/-- The `sstat` status word. -/
def statusWord (b : Binding) (x : Session) : Word :=
  let frame := if x.claimed b.frame then (x.slot b.frame).state else 0
  BitVec.ofNat 32 (frame + 2 ^ 3 * x.lineCode b.frame b.y + (if b.dir then 2 ^ 6 else 0) + (if b.lateInh then 2 ^ 7 else 0) + (if x.up then 2 ^ 8 else 0))

def sstatValue (b : Binding) (x : Session) (sel : Nat) : Word :=
  match sel with
  | 0 => statusWord b x
  | 1 => x.late
  | 2 => x.fills
  | _ => x.dups

def execSstat (d : BitVec 6) (k : BitVec 4) (f g : BitVec 3) (s : State) : Host.Outcome State Fault Refusal :=
  let r : Req := { instr := .sstat d k f g, pg := g.toNat, writes := regs1 d }
  issue r (fun e m =>
    if m = 0 then .done e
    else e.withBinding m k.toNat none Binding.frame (fun bd _ =>
      e.afterStream k.toNat (fun e =>
        let v := sstatValue bd (e.s.session bd.session) f.toNat
        .done (e.puts true [e.t.result m .uniform d.toNat (fun _ => v)])))) s

/-! ### time and sleepu (R302) -/

def execTime (d : BitVec 6) (s : State) : Host.Outcome State Fault Refusal :=
  let r : Req := { instr := .time d, writes := regs2 d }
  issue r (fun e m => .done (e.puts true (e.t.result64 m .uniform .uniform d.toNat (fun _ => e.s.clock.toNat)))) s

def execSleepu (a : BitVec 6) (s : State) : Host.Outcome State Fault Refusal :=
  let r : Req := { instr := .sleepu a, reads := regs2 a, handler := false }
  issue r (fun e _ =>
    let t := e.t.lane64 a.toNat (lowLane e.t.group)
    if t.toNat ≤ e.s.clock.toNat then .done e else e.waitNext (.sleepu t)) s

end Sys2Proof.Machine
end

