-- ==== Sys2Proof/Machine/Requests.lean ====
section
/-! DEFINITION. Class 0xC: what a strand asks of Bellows, the window unit, the collective engines and the genlock
(spec/14_queues_deadlines_and_dispatch.md R329 to R331, spec/17_host_publication_and_images.md R383,
spec/18_ports_collectives_and_genlock.md R411 to R416). -/

namespace Sys2Proof.Machine

/-! ### Objects named by the lowest acting lane (R329, R411) -/

/-- What the object at a lane's address comes to: a trap or a wait for its translation, absent, or its translation. -/
inductive Named where
  | stop (r : Res)
  | absent
  | at (tr : Trans)
  deriving DecidableEq, Repr

/-- An object at `va`, wherever it lies in its page: bits [63:57] and `low` refuse the address, and its page must be
readable. -/
def Env.named (e : Env) (lane va : Nat) (low : Bool) : Named :=
  if vaBad va || low then .stop (.trap e (.plain cALIGN (laneBit lane)) false)
  else match e.look lane va with
    | .miss => .stop (e.missAll kindRead [va])
    | .invalid => .stop (.trap e (.at cPERM (laneBit lane) va) false)
    | .found tr =>
      if !pteR tr.entry then .stop (.trap e (.at cPERM (laneBit lane) va) false)
      else if !pteP tr.entry then .absent
      else .at tr

/-- The bytes of an object read at their home slices; none when one is uncorrectable. -/
def State.object (s : State) (pa n : Nat) : Option (List Byte) := if s.bad pa n then none else some (s.peekBytes pa n)

/-- An uncorrectable object stops its reader (R429's cause, taken at once). -/
def Env.objectBad (e : Env) (lane va pa : Nat) : Res :=
  .trap (e.via (fun s => s.consumeUe e.c.ctx pa)) (.at cECC (laneBit lane) va) false

/-! ### launch (R329 to R331) -/

/-- A packet offered to the device launch queue of a context, which has 256 slots (R307). -/
def State.offer (s : State) (ctx : Nat) (b : List Byte) (reserved : Option Nat) : Bool × State :=
  if (s.ctx ctx).dlq.length < 256 then (true, s.modCtx ctx (fun x => { x with dlq := x.dlq ++ [{ bytes := b, reserved := reserved }] }))
  else (false, s)

def launchForm (i : Instr) (tail : Bool) (p : BitVec 3) (a : BitVec 6) (g : BitVec 3) (s : State) : Host.Outcome State Fault Refusal :=
  let r : Req := { instr := i, pg := g.toNat, reads := regs2 a, pwrites := [p.toNat], handler := false, idem := false }
  issue r (fun e0 m =>
    if m = 0 then .done e0
    else
      let e := e0.release
      let lane := lowLane m
      let va := (e.t.lane64 a.toNat lane).toNat
      match e.named lane va (va % 128 ≠ 0) with
      | .stop x => x
      | .absent =>
        -- bit m of p7 comes first, so that a pd of p7 ends with ok = 0 in every acting lane
        .done (Env.putPred { e with t := e.t.markAbsent (laneBit lane) } m p.toNat (fun _ => false))
      | .at tr =>
        match e.s.object (tr.pa va) 128 with
        | none => e.objectBad lane va (tr.pa va)
        | some b =>
          let ok := decide ((e.s.ctx e.c.ctx).dlq.length < 256)
          .done ((e.via (fun s => (s.offer e.c.ctx b (if tail then some e.c.seq else none)).2)).putPred m p.toNat (fun _ => ok))) s

def execLaunch (p : BitVec 3) (a : BitVec 6) (g : BitVec 3) (s : State) : Host.Outcome State Fault Refusal :=
  launchForm (.launch p a g) false p a g s
def execLaunchTail (p : BitVec 3) (a : BitVec 6) (g : BitVec 3) (s : State) : Host.Outcome State Fault Refusal :=
  launchForm (.launchTail p a g) true p a g s

/-! ### publish (R383) -/

def execPublish (w : BitVec 3) (s : State) : Host.Outcome State Fault Refusal :=
  let r : Req := { instr := .publish w }
  issue r (fun e _ =>
    if !((e.s.ctx e.c.ctx).windows.getD w.toNat .fresh).en then e.illegal
    else
      match e.release.start .cl [] none (.publish e.c.ctx w.toNat (lowLane e.t.group)) with
      | .done e1 =>
        .done (e1.via (fun s => s.modCtx e.c.ctx (fun x => { x with windows := modAt x.windows w.toNat (fun n =>
          { n with queue := n.queue ++ [(e1.c.id, e1.t.idx, e1.t.nextOp - 1)] }) })))
      | x => x) s

/-! ### cprog (R412) -/

/-- A program ended at once by its header (R412). -/
def State.endIfBad (s : State) (k : Nat) : State :=
  match s.prog? k with
  | some pr => match pr.ending with
    | some st => s.endProg k st true
    | none => s
  | none => s

def execCprog (p : BitVec 3) (a : BitVec 6) (g : BitVec 3) (s : State) : Host.Outcome State Fault Refusal :=
  let r : Req := { instr := .cprog p a g, pg := g.toNat, reads := regs2 a, pwrites := [p.toNat], idem := false }
  issue r (fun e0 m =>
    if m = 0 then .done e0
    else
      let e := e0.release
      let lane := lowLane m
      let va := (e.t.lane64 a.toNat lane).toNat
      match e.named lane va false with
      | .stop x => x
      | _ =>
        match e.s.progs.findIdx? (fun x => x.isNone) with
        | none => .done (e.putPred m p.toNat (fun _ => false))
        | some k =>
          match e.start .cl [] none (.cprog k lane) with
          | .done e1 =>
            let e2 := e1.putPred m p.toNat (fun _ => true)
            .done (e2.via (fun s =>
              ((s.startProg e.c.ctx va (some (e1.c.id, e1.t.idx, e1.t.nextOp - 1)) none).getD s).endIfBad k))
          | x => x) s

/-! ### Trigger slots and counters (R413, R414) -/

/-- A slot armed with a descriptor, and evaluated (R410, R413). -/
def State.armSlot (s : State) (ctx t : Nat) (b : List Byte) : State :=
  (s.modCtx ctx (fun x => { x with trigs := modAt x.trigs t (fun sl => { sl with desc := some b }) })).evalTriggers ctx

/-- A descriptor that is misaligned, or reads as zero on an absent page, is malformed (R371, R409). -/
def execCtrigArm (p : BitVec 3) (a : BitVec 6) (t : BitVec 5) (g : BitVec 3) (s : State) : Host.Outcome State Fault Refusal :=
  let r : Req := { instr := .ctrigArm p a t g, pg := g.toNat, reads := regs2 a, pwrites := [p.toNat], idem := false }
  issue r (fun e0 m =>
    if m = 0 then .done e0
    else
      let e := e0.release
      let lane := lowLane m
      let va := (e.t.lane64 a.toNat lane).toNat
      match e.named lane va false with
      | .stop x => x
      | .absent =>
        let e1 := e.putPred m p.toNat (fun _ => false)
        .done { e1 with t := e1.t.markAbsent (laneBit lane) }
      | .at tr =>
        if va % 64 ≠ 0 then .done (e.putPred m p.toNat (fun _ => false))
        else match e.s.object (tr.pa va) 64 with
          | none => e.objectBad lane va (tr.pa va)
          | some b =>
            let ok := ((e.s.ctx e.c.ctx).trigs.getD t.toNat .fresh).desc.isNone && trigOk b
            let e1 := e.putPred m p.toNat (fun _ => ok)
            .done (if ok then e1.via (fun s => s.armSlot e.c.ctx t.toNat b) else e1)) s

def execCtrigDisarm (p : BitVec 3) (t : BitVec 5) (g : BitVec 3) (s : State) : Host.Outcome State Fault Refusal :=
  let r : Req := { instr := .ctrigDisarm p t g, pg := g.toNat, pwrites := [p.toNat], idem := false }
  issue r (fun e m =>
    if m = 0 then .done e
    else
      let was := ((e.s.ctx e.c.ctx).trigs.getD t.toNat .fresh).desc.isSome
      let e1 := e.putPred m p.toNat (fun _ => was)
      .done (e1.via (fun s => s.modCtx e.c.ctx (fun x => { x with trigs := modAt x.trigs t.toNat (fun sl => { sl with desc := none }) })))) s

/-- `cctr.add` and `cctr.set`: the counter's former value is the result. -/
def counterForm (i : Instr) (d a : BitVec 6) (k g : BitVec 3) (f : DWord → DWord → DWord) (s : State) : Host.Outcome State Fault Refusal :=
  let r : Req := { instr := i, pg := g.toNat, reads := regs2 a, writes := regs2 d, idem := false }
  issue r (fun e0 m =>
    if m = 0 then .done e0
    else
      let e := e0.release
      let x := e.t.lane64 a.toNat (lowLane m)
      let old := e.s.tc e.c.ctx k.toNat
      let e1 := e.puts true (e.t.result64 m .general .general d.toNat (fun _ => old.toNat))
      .done (e1.via (fun s => s.setTc e.c.ctx k.toNat (f old x)))) s

def execCctrAdd (d a : BitVec 6) (k g : BitVec 3) (s : State) : Host.Outcome State Fault Refusal :=
  counterForm (.cctrAdd d a k g) d a k g (fun old x => old + x) s
def execCctrSet (d a : BitVec 6) (k g : BitVec 3) (s : State) : Host.Outcome State Fault Refusal :=
  counterForm (.cctrSet d a k g) d a k g (fun _ x => x) s

def execCctrRead (d : BitVec 6) (k g : BitVec 3) (s : State) : Host.Outcome State Fault Refusal :=
  let r : Req := { instr := .cctrRead d k g, pg := g.toNat, writes := regs2 d }
  issue r (fun e m =>
    if m = 0 then .done e
    else
      let v := (e.s.tc e.c.ctx k.toNat).toNat
      .done (e.puts true (e.t.result64 m .uniform .uniform d.toNat (fun _ => v))).acquire) s

/-! ### tbar (R415, R416) -/

/-- Whether a group is a genlock group of which the module of this rank is a member (R415). -/
def Group.genlock (x : Group) (rank : Nat) : Bool :=
  x.en && decide (x.size ≤ 32) && decide (20 ≤ x.guard.toNat) && x.members.contains rank

/-- T − GUARD/2 and T − GUARD as PT64 values (R12, R416). -/
def Group.decideAt (x : Group) (t : DWord) : Nat := (t - BitVec.ofNat 64 (x.guard.toNat * 500)).toNat
def Group.commitAt (x : Group) (t : DWord) : Nat := (t - BitVec.ofNat 64 (x.guard.toNat * 1000)).toNat

/-- Whether the first packet of a frame has been sent (R416). -/
def Session.firstSent (x : Session) (f : Nat) : Bool :=
  x.passedBy f || (x.claimed f && decide (3 ≤ (x.slot f).state)) ||
    (match x.sending with | some sd => sd.frame = f && decide (0 < sd.next) | none => false)

/-- The status delivered to a `tbar` at once. -/
def Env.tbarLate (e : Env) (m : Mask) (d : Nat) : Env :=
  let e1 := e.puts true [e.t.result m .general d (fun _ => 3)]
  { e1 with t := e1.t.finishOp (e.t.nextOp - 1) }

/-- The arrival of a `tbar`: PRESENT becomes T and the frame is held (R416 step 4). -/
def State.holdFrame (s : State) (k f : Nat) (t : DWord) : State :=
  (s.setTimes k f ((s.session k).timesOf f).1 t).modSession k (fun x => { x with held := x.held ++ [f] })

def execTbar (d a : BitVec 6) (k : BitVec 4) (x g : BitVec 3) (s : State) : Host.Outcome State Fault Refusal :=
  let r : Req := { instr := .tbar d a k x g, pg := g.toNat, reads := regs2 a, writes := regs1 d, idem := false }
  issue r (fun e m =>
    if m = 0 then .done e
    else
      let lane := lowLane m
      let grp := e.s.group x.toNat
      let b := e.c.bind k.toNat
      if !grp.genlock e.s.lly.rank then e.illegal
      else if b.refuses (some true) then e.sessionTrap m
      else match b.flushed with
        | none => e.illegal
        | some f =>
          let t := e.t.lane64 a.toNat lane
          match e.start .cl (regs1 d) none (.tbar x.toNat d.toNat m) with
          | .done e1 =>
            if decide (grp.decideAt t ≤ e.s.clock.toNat) || (e.s.session b.session).firstSent f then .done (e1.tbarLate m d.toNat)
            else
              let tb : Genlock :=
                { target := t, session := b.session, frame := f, ctx := e.c.ctx, owner := (e1.c.id, e1.t.idx, e1.t.nextOp - 1), vd := d.toNat, mask := m,
                  arrived := false, instant := false, decided := false, late := false, checked := false, cacks := [] }
              .done (e1.via (fun s => (s.holdFrame b.session f t).modGroup x.toNat (fun y => { y with tbars := y.tbars ++ [tb] })))
          | y => y) s

end Sys2Proof.Machine
end

