-- ==== Sys2Proof/Machine/System.lean ====
section
/-! DEFINITION. Class 0xD: idempotent regions, the translation instructions, and the trap instructions
(spec/15_contexts_and_preemption.md R341 to R344, spec/16_translation_and_residency.md R366 to R370,
spec/20_traps_errors_and_watchdog.md R430 to R433). -/

namespace Sys2Proof.Machine

/-! ### Idempotent regions -/

/-- Whether the round in progress began at another word (R341). -/
def Env.otherRound (e : Env) : Bool := match e.c.idemAt with | some a => a ≠ e.t.fetchPc | none => false

/-- The current group arrives at a round of `idemb` or `ideme`. -/
def Env.arriveRound (e : Env) (closing : Bool) : Res :=
  if e.otherRound then e.illegal
  else ({ e with c := { e.c with idemAt := some e.t.fetchPc } } : Env).waitNext (.idem closing)

/-- `idemb`: the strand arrives when it has nothing in flight (R342). -/
def execIdemb (s : State) : Host.Outcome State Fault Refusal :=
  let r : Req := { instr := .idemb, handler := false, tx := false, idem := false }
  issueThen r (fun crew s => s.completeBarriers crew 8) (fun e _ =>
    let e1 := e.settle (fun _ => true)
    if e1.t.inflight.isEmpty then e1.arriveRound false else .hold e1) s

def execIdeme (s : State) : Host.Outcome State Fault Refusal :=
  let r : Req := { instr := .ideme, handler := false }
  issueThen r (fun crew s => s.completeBarriers crew 8) (fun e _ => if e.c.region then e.arriveRound true else e.illegal) s

/-! ### Translation -/

/-- `tlbw` (R367). -/
def execTlbw (a : BitVec 6) (l : BitVec 2) (s : State) : Host.Outcome State Fault Refusal :=
  let r : Req := { instr := .tlbw a l, reads := regsRun a 4, walker := true }
  issue r (fun e _ =>
    let lane := lowLane e.t.group
    let va := (e.t.lane64 a.toNat lane).toNat
    if !e.c.walker || l = 0 || vaBad va then e.illegal
    else
      let leaf := e.t.lane64 (a.toNat + 2) lane
      .done (e.via (fun s => s.installLeaf e.c.core e.c.ctx (some e.t.idx) va l.toNat leaf))) s

/-- `tlbi` and `lpi`: the accesses are performed and then the translations go, on every reached core in one step. Dependencies are
judged again (R315). -/
def Env.sweep (e : Env) (everywhere tlb : Bool) (p : Trans → Bool) : Env :=
  e.via (fun s =>
    let cores := if everywhere then s.enabledCores else [e.c.core]
    let s1 := ((s.settleAccesses cores e.c.ctx).invalidate cores e.c.ctx tlb p).retranslateDeps e.c.ctx
    if tlb then s1.reissueWaita cores e.c.ctx p else s1)

/-- `tlbi`: the release comes first, and the group holds while another strand's transaction uses a translation that goes (R369). -/
def Env.tlbi (e : Env) (everywhere : Bool) (p : Trans → Bool) : Res :=
  let e1 := e.release
  if e1.commit.bufferedThrough (some (e1.c.id, e1.t.idx)) (if everywhere then e1.s.enabledCores else [e1.c.core]) e1.c.ctx p then .hold e1
  else .done (e1.sweep everywhere true p)

/-- `tlbi.va` (R369). -/
def tlbiVa (i : Instr) (everywhere : Bool) (a : BitVec 6) (s : State) : Host.Outcome State Fault Refusal :=
  let r : Req := { instr := i, reads := regs2 a, walker := true }
  issue r (fun e _ =>
    let lane := lowLane e.t.group
    let va := (e.t.lane64 a.toNat lane).toNat
    if vaBad va then .trap e (.plain cALIGN (laneBit lane)) false
    else e.tlbi everywhere (fun tr => tr.covers e.c.ctx va)) s

def execTlbiVaCore (a : BitVec 6) (s : State) : Host.Outcome State Fault Refusal := tlbiVa (.tlbiVaCore a) false a s
def execTlbiVaAll (a : BitVec 6) (s : State) : Host.Outcome State Fault Refusal := tlbiVa (.tlbiVaAll a) true a s

/-- `tlbi.ctx` (R369). -/
def tlbiCtx (i : Instr) (everywhere : Bool) (s : State) : Host.Outcome State Fault Refusal :=
  let r : Req := { instr := i, walker := true }
  issue r (fun e _ => e.tlbi everywhere (fun _ => true)) s

def execTlbiCtxCore (s : State) : Host.Outcome State Fault Refusal := tlbiCtx .tlbiCtxCore false s
def execTlbiCtxAll (s : State) : Host.Outcome State Fault Refusal := tlbiCtx .tlbiCtxAll true s

/-- `lpi` (R370). -/
def lpi (i : Instr) (everywhere : Bool) (s : State) : Host.Outcome State Fault Refusal :=
  let r : Req := { instr := i, walker := true }
  issue r (fun e _ => .done (e.sweep everywhere false (fun _ => true))) s

def execLpiCore (s : State) : Host.Outcome State Fault Refusal := lpi .lpiCore false s
def execLpiAll (s : State) : Host.Outcome State Fault Refusal := lpi .lpiAll true s

/-- `walkd` (R368). -/
def execWalkd (s : State) : Host.Outcome State Fault Refusal :=
  let r : Req := { instr := .walkd, walker := true }
  issue r (fun e _ => if e.c.walker then e.endOwnWalk else e.illegal) s

/-! ### Traps -/

def execTrap (c : BitVec 12) (s : State) : Host.Outcome State Fault Refusal :=
  let r : Req := { instr := .trap c }
  issue r (fun e _ => .trap e { cause := cTRAP, mask := e.t.group, va := 0, code := c } false) s

def execBrk (c : BitVec 12) (s : State) : Host.Outcome State Fault Refusal :=
  let r : Req := { instr := .brk c }
  issue r (fun e _ => .trap e { cause := cBREAK, mask := e.t.group, va := 0, code := c } false) s

/-- `rtt` (R432); a `hint.sched` on it yields once the handler has been left. -/
def execRtt (s : State) : Host.Outcome State Fault Refusal :=
  let r : Req := { instr := .rtt }
  issue r (fun e _ =>
    if !e.t.inHandler then e.illegal
    else
      let back (n : Nat) : Res :=
        let e1 : Env := { e with t := e.t.rtt n }
        .ovr (if e.t.unit.sched = some true then e1.yieldGroup else e1)
      if e.t.trap.next then
        match e.unitWords e.t.trap.pc.toNat 1024 with
        | .ok n => back n
        | .error va => e.missAll kindExec [va]
      else back 0) s

/-- `snap` (R433). -/
def execSnap (t : BitVec 12) (s : State) : Host.Outcome State Fault Refusal :=
  let r : Req := { instr := .snap t }
  issue r (fun e _ => .done (e.via (fun s => s.snapTrigger 0 (t, e.t.num, e.c.core)))) s

end Sys2Proof.Machine
end

