-- ==== Sys2Proof/Machine/StrandEvents.lean ====
section
/-! DEFINITION. The events of strands (spec/08_memory_model.md R179, R185, R186, spec/09_memory_and_copy_instructions.md R204,
R213, R221, spec/10_swage_matrix_engine.md R238, spec/11_fields_rays_and_samples.md R260, R277,
spec/12_stream_registers.md R295, R302, spec/06_threads_strands_crews.md R136, R137, R146,
spec/07_flow_and_barrier_instructions.md R160, R161, spec/20_traps_errors_and_watchdog.md R426, R429). An event whose condition
does not hold leaves the machine as it is. -/

namespace Sys2Proof.Machine

/-! ### Completions (R185, R186) -/

/-- Operations of a stream register's reads, which run on into a saved crew (R295). -/
def Pending.outlivesSave (p : Pending) : Bool := match p.kind with | .srd .. => true | .srdt .. => true | _ => false

/-- One operation in flight, of the counter the event names, performed by its unit. -/
def State.completeOp (s : State) (k : Ctr) (crew strand op : Nat) : State :=
  match s.env? crew strand with
  | none => s
  | some e =>
    match e.t.inflight.find? (fun p => p.id = op && p.ctr = k && !p.done) with
    | none => s
    | some p =>
      if e.c.state = .resident then (e.performAny p).commit
      else if p.outlivesSave && e.c.state = .saved then ((e.performAny p).commit).resave crew strand
      else s

def execLoadValueArrival (crew strand op : Nat) (s : State) : Host.Outcome State Fault Refusal := .next (s.completeOp .ld crew strand op)
def execStoreAcknowledge (crew strand op : Nat) (s : State) : Host.Outcome State Fault Refusal := .next (s.completeOp .st crew strand op)
def execCopyCompletion (crew strand op : Nat) (s : State) : Host.Outcome State Fault Refusal := .next (s.completeOp .cp crew strand op)
def execSwageOperationCompletion (crew strand op : Nat) (s : State) : Host.Outcome State Fault Refusal :=
  .next (s.completeOp .mx crew strand op)

/-- A field request; a `trace` or `tcont` is counted by its lanes' stops. -/
def execFieldRequestCompletion (crew strand op : Nat) (s : State) : Host.Outcome State Fault Refusal :=
  .next (match s.env? crew strand with
    | none => s
    | some e => match e.t.inflight.find? (fun p => p.id = op && p.ctr = .tr && !p.done) with
      | none => s
      | some p => match p.kind with
        | .trace .. => if e.c.state = .resident then (e.settleTrace p).commit else s
        | _ => s.completeOp .tr crew strand op)

def execStreamOperationCompletion (crew strand op : Nat) (s : State) : Host.Outcome State Fault Refusal :=
  .next (s.completeOp .sr crew strand op)

/-- A query of a resident strand goes on to its next stop (R277); its operation is counted when it was the last. -/
def execTraversalStop (crew strand lane : Nat) (s : State) : Host.Outcome State Fault Refusal :=
  .next (match s.env? crew strand with
    | none => s
    | some e =>
      if e.c.state ≠ .resident || 8 ≤ lane then s
      else
        let e1 := e.traverse lane
        match e.t.traceOf lane with
        | some p => (e1.settleTrace p).commit
        | none => e1.commit)

/-! ### Blocks, ends and rotations -/

def execRgrowGrant (core : Nat) (s : State) : Host.Outcome State Fault Refusal := .next (s.serveGrowth core 512)

def execStrandEnd (crew strand : Nat) (s : State) : Host.Outcome State Fault Refusal := .next (s.endStrand crew strand)

/-- An event of a strand that stands in a resident crew. -/
def State.onResident (s : State) (crew strand : Nat) (f : Env → State) : State :=
  match s.env? crew strand with
  | some e => if e.c.state = .resident && !e.t.ended then f e else s
  | none => s

/-- The fairness timer has reached 256 (R136). -/
def execFairnessRotation (crew strand : Nat) (s : State) : Host.Outcome State Fault Refusal :=
  .next (s.onResident crew strand (fun e => if e.rotationDue then e.rotate.commit else s))

/-- A strand gives up its place in the active set (R137). -/
def execActiveSetRotation (crew strand : Nat) (s : State) : Host.Outcome State Fault Refusal :=
  .next (s.onResident crew strand (fun e =>
    if e.setRotationDue then e.leaveSet.commit else s))

/-! ### Waits that end by time (R134) -/

def execSleepExpiry (crew strand : Nat) (s : State) : Host.Outcome State Fault Refusal :=
  .next (s.onResident crew strand (fun e =>
    let m := e.t.lanesWhere (fun x => match x.state with | .waiting (.sleep n) => decide (n ≤ s.cycle) | _ => false)
    if m = 0 then s else ({ e with t := e.t.wakeLanes m } : Env).commit))

def execSleepuExpiry (crew strand : Nat) (s : State) : Host.Outcome State Fault Refusal :=
  .next (s.onResident crew strand (fun e =>
    let m := e.t.lanesWhere (fun x => match x.state with | .waiting (.sleepu d) => s.reached d | _ => false)
    if m = 0 then s else ({ e with t := e.t.wakeLanes m } : Env).commit))

/-- The word is read once more as the thread returns (R213). -/
def execWaitaDeadline (crew strand lane : Nat) (s : State) : Host.Outcome State Fault Refusal :=
  .next (s.onResident crew strand (fun e =>
    match (e.t.thread lane).state with
    | .waiting (.waita pa x d vd pd _) =>
      if s.passed d && decide (lane < 8) then
        s.rereadWaita crew strand lane pa (fun v => s.returnWaita crew strand lane vd pd v (v ≠ x))
      else s
    | _ => s))

/-! ### Traps (R426, R429) -/

/-- The entry of a handled trap at an issue-unit boundary. The traps of instructions and of fetches enter through the same
operation in the step that raises them; this row lets the agenda make the entry by itself. -/
def execTrapEntry (crew strand : Nat) (cause : BitVec 4) (mask : Mask) (va : VAddr) (s : State) : Host.Outcome State Fault Refusal :=
  .next (s.onResident crew strand (fun e =>
    if e.handled && e.mayIssue && !e.c.walker && !e.t.midUnit && decide (1 ≤ cause.toNat) && decide (cause.toNat ≤ 9)
        && mask ≠ 0 && mask &&& ~~~e.t.group = 0 then
      e.takeTrap { cause := cause.toNat, mask := mask, va := va.toNat, code := 0 } false none
    else s))

def execDeferredTrap (crew strand : Nat) (s : State) : Host.Outcome State Fault Refusal :=
  .next (s.onResident crew strand (fun e =>
    let e1 : Env := { e with t := e.t.regroup }
    if e1.deferredDue && e1.mayIssue then e1.takeDeferred else s))

end Sys2Proof.Machine
end

