-- ==== Sys2Proof/Machine/QueueEvents.lean ====
section
/-! DEFINITION. Queues and packets (spec/14_queues_deadlines_and_dispatch.md R307 to R328): kicks, pulling, the checks of a
packet, dependencies, admission, shedding, the heap's deadlines, and completion. -/

namespace Sys2Proof.Machine

/-! ### Kicks (R308, R309) -/

/-- A host write of `width` bytes at an offset of a queue's block. -/
def State.hostKick (s : State) (q off width : Nat) (value : DWord) : State :=
  if off < 8 then
    if off = 0 && width = 8 then s.kick q value else s.modQueue q (fun x => { x with width := true })
  else
    let flags : Nat := if off = 0xC then value.toNat % 2 ^ (8 * width) else if off = 8 && width = 8 then value.toNat / 2 ^ 32 else 0
    s.modQueue q (fun x =>
      { x with genbad := x.genbad && !flags.testBit 0, range := x.range && !flags.testBit 1, width := x.width && !flags.testBit 2 })

/-- A kick before state RUN is ignored and sets a refusal bit of its queue (R464): WIDTH for a write that is no kick, RANGE for another
(DESIGN CHOICE, assumption 97: the block has no bit named REJ). A device that has failed takes none (R459). -/
def State.refuseKick (s : State) (q off width : Nat) : State :=
  if s.dev.stage = 7 then s
  else s.modQueue q (fun x => if off = 0 && width = 8 then { x with range := true } else { x with width := true })

def execQueueKick (queue off width : Nat) (value : DWord) (s : State) : Host.Outcome State Fault Refusal :=
  .next (if 1024 ≤ queue then s
    else if s.dev.stage = 6 || 8 ≤ off then s.hostKick queue off width value
    else s.refuseKick queue off width)

/-! ### The packet (R312) -/

/-- The fields of 128 bytes; `reserved` says that a reserved field is not zero. -/
def Packet.ofBytes (b : List Byte) : Packet :=
  let w0 := leAt b 0 4
  let claims := leAt b 0x6C 4
  let kind := bitsOf w0 0 8
  { hadmit := w0.testBit 15, persist := w0.testBit 14, progress := w0.testBit 13, naming := w0.testBit 12, save := w0.testBit 11,
    cut := w0.testBit 10, shed := bitsOf w0 8 2, kind := kind, cost := leAt b 4 4, deadline := BitVec.ofNat 64 (leAt b 8 8),
    earliest := BitVec.ofNat 64 (leAt b 0x10 8), depAddr := BitVec.ofNat 64 (leAt b 0x18 8), depVal := BitVec.ofNat 64 (leAt b 0x20 8),
    cplAddr := BitVec.ofNat 64 (leAt b 0x28 8), cplInc := BitVec.ofNat 32 (leAt b 0x30 4), watchdog := leAt b 0x34 4,
    kernel := BitVec.ofNat 64 (leAt b 0x38 8), args := BitVec.ofNat 64 (leAt b 0x40 8), seed := BitVec.ofNat 64 (leAt b 0x48 8),
    alt := BitVec.ofNat 64 (leAt b 0x50 8), streams := BitVec.ofNat 64 (leAt b 0x58 8), crews := leAt b 0x60 4, strands := leAt b 0x64 1,
    gangP := leAt b 0x65 1, gangF := leAt b 0x66 1, stages := leAt b 0x67 1, regs := leAt b 0x68 1, ceil := leAt b 0x69 1,
    bars := leAt b 0x6A 1, cbuf := bitsOf claims 20 9, abuf := bitsOf claims 10 10, wbuf := bitsOf claims 0 10,
    dispB := BitVec.ofNat 32 (leAt b 0x70 4), dispC := BitVec.ofNat 32 (leAt b 0x74 4), cores := BitVec.ofNat 64 (leAt b 0x78 8),
    reserved := bitsOf w0 16 16 ≠ 0 || (kind = 1 && (leAt b 0x6B 1 ≠ 0 || bitsOf claims 29 3 ≠ 0)) }

/-- The limits of the fields that only a LAUNCH uses. -/
def Packet.launchOk (p : Packet) (cores : Nat) : Bool :=
  (p.watchdog ≠ 0 || p.save) && p.kernel.toNat % 4 = 0 && p.streams.toNat % 16 = 0 && (p.persist || p.crews ≠ 0)
    && decide (1 ≤ p.strands) && decide (p.strands ≤ 64)
    && decide (1 ≤ p.gangP) && decide (p.gangP ≤ 16) && decide (p.gangP ≤ cores) && decide (1 ≤ p.gangF) && decide (p.gangF ≤ p.gangP)
    && decide (1 ≤ p.stages) && decide (p.stages ≤ 8)
    && decide (8 ≤ p.regs) && decide (p.regs ≤ 64) && p.regs % 8 = 0 && decide (p.regs ≤ p.ceil) && decide (p.ceil ≤ 64) && p.ceil % 8 = 0
    && decide (p.bars ≤ 16) && decide (p.cbuf ≤ 256) && decide (p.abuf ≤ 512) && decide (p.wbuf ≤ 512)

/-- The limits of every packet; an alternate's dependency and ALT are not checked (R318). -/
def Packet.wellFormed (p : Packet) (alternate : Bool) (cores : Nat) : Bool :=
  !p.reserved && decide (p.shed ≤ 2) && (p.kind = 1 || p.kind = 2) && (alternate || p.depAddr.toNat % 8 = 0) && p.cplAddr.toNat % 32 = 0
    && (alternate || p.shed ≠ 1 || p.alt.toNat % 128 = 0) && (p.kind = 2 || p.launchOk cores)

/-! ### The stream table (R314) -/

def StreamEnt.none : StreamEnt := { valid := false, dir := false, session := 0, start := 0 }

/-- One entry; none when it breaks the table's rules: a session that is open, of the packet's context, of the entry's direction and not
opaque (R314, R399). Reserved bytes are ignored (R9). -/
def State.streamEnt (s : State) (ctx : Nat) (b : List Byte) : Option StreamEnt :=
  let b0 := leAt b 0 1
  let k := b0 % 64
  let x := s.session k
  let valid := b0.testBit 7
  let dir := b0.testBit 6
  if valid && !(x.up && x.ctx = ctx && x.d.send = dir && !x.d.opaque_) then none
  else some { valid := valid, dir := dir, session := k, start := BitVec.ofNat 64 (leAt b 8 8) }

/-- The sixteen entries of a packet's table. -/
def State.streamTable (s : State) (ctx : Nat) (p : Packet) : Option (List StreamEnt) :=
  if p.kind = 2 || p.streams = 0 then some (List.replicate 16 .none)
  else (List.range 16).foldl (fun acc i => match acc with
    | none => none
    | some es => match s.readSlot ctx (p.streams.toNat + 16 * i) 16 with
      | some b => (s.streamEnt ctx b).map (fun e => es ++ [e])
      | none => none) (some [])

/-! ### The checks of R313 -/

/-- Whether a page that a packet names is readable and resident. -/
def State.readable (s : State) (ctx : Nat) (addr : DWord) : Bool := (s.tablePa ctx addr.toNat pteR).isSome

/-- What R313 and R334 ask of a packet beyond its stream table. -/
def State.packetOk (s : State) (ctx : Nat) (p : Packet) (alternate : Bool) : Bool :=
  let slots := (s.ctx ctx).slots
  let chosen := (s.selectedCores p).length
  p.wellFormed alternate s.enabledCores.length && slots ≠ 0 && s.cplOk ctx p.cplAddr
    && (alternate || p.depAddr = 0 || s.readable ctx p.depAddr)
    && (alternate || p.shed ≠ 1 || s.readable ctx p.alt)
    && (p.kind = 2
      || (decide (p.gangP ≤ slots)
        && (if p.persist then p.gangP = 1 && chosen ≠ 0 && decide (chosen ≤ slots) else p.dispC = 0)))

/-- The stream entries of a packet that passes every check; none where it completes BADPKT. -/
def State.judge (s : State) (ctx : Nat) (p : Packet) (alternate : Bool) : Option (List StreamEnt) :=
  if s.packetOk ctx p alternate then s.streamTable ctx p else none

/-- A BADPKT completion: the record when CPLADDR passes its check, and the context's error record in any case. -/
def State.badPacket (s : State) (ctx seq addr : Nat) (p : Packet) : State :=
  let s1 := if s.cplOk ctx p.cplAddr then s.writeCompletion ctx p.cplAddr p.cplInc CplStatus.badPkt.code seq else s
  s1.recordError ctx (.plain 20 false seq addr)

/-! ### Admission (R316, R317) -/

/-- Resident time of a launch's crews, in ns (R316). -/
def State.residentTime (s : State) (l : Launch) : Nat :=
  l.used + (s.crews.filter (fun c => !c.walker && c.seq = l.seq && c.state = .resident)).foldl (fun n c => n + (s.clock - c.placedAt).toNat) 0

/-- q_j: the cost less resident core time, in whole units of 1/256 core-µs. -/
def State.charge (s : State) (l : Launch) : Nat := l.pkt.cost - s.residentTime l * 256 / 1000

def noDeadline : DWord := 0xFFFFFFFFFFFFFFFF

/-- The members of P other than the new packet: deadline and charge. -/
def State.members (s : State) (except_ : Nat) : List (Nat × Nat) :=
  (s.launches.filter (fun l => l.seq ≠ except_ && l.pkt.deadline ≠ noDeadline && !(s.ctx l.ctx).frozen
    && (l.phase = .heap || l.phase = .placing || l.phase = .running))).map (fun l => (l.pkt.deadline.toNat, s.charge l))

/-- The test of R316 over all deadlines; another member's that has passed is not tested. -/
def State.admissible (s : State) (seq : Nat) (p : Packet) : Bool :=
  let now := s.clock.toNat
  let ps := (p.deadline.toNat, p.cost) :: s.members seq
  let c := s.enabledCores.length
  let holds (d : Nat) : Bool :=
    let sum : Nat := (ps.filter (fun m => m.1 ≤ d)).foldl (fun n m => n + m.2) 0
    decide ((1000 : Int) * sum ≤ 256 * c * ((d : Int) - now))
  ps.all (fun m => (m.1 ≠ p.deadline.toNat && m.1 < now) || holds m.1)

def State.admits (s : State) (ctx seq : Nat) (p : Packet) : Bool :=
  if (s.ctx ctx).assist.getLsbD 2 then p.hadmit
  else p.deadline = noDeadline || s.admissible seq p

/-! ### Entering the heap and shedding (R318) -/

/-- A pulled packet as a launch in a phase. -/
def Launch.ofPacket (ctx q seq : Nat) (p : Packet) (es : List StreamEnt) (ph : Phase) : Launch :=
  { seq := seq, ctx := ctx, queue := q, pkt := p, phase := ph, metOrder := none, streams := es, used := 0, firstAt := none,
    depPa := none, alternate := false, cutAt := none, frozenFor := 0, crewsLeft := if p.persist then 1 else p.crews, gangs := [], nextStage := 0, disp := [], topSince := none }

def State.addLaunch (s : State) (l : Launch) : State := { s with launches := s.launches ++ [l] }

/-- The frame due of each send binding goes out by late-frame substitution (R318, R417). -/
def State.substituteDue (s : State) (es : List StreamEnt) : State :=
  es.foldl (fun st e =>
    if e.valid && e.dir && (st.session e.session).up then
      let x := st.session e.session
      let f := if e.start = 0 then x.d.frameFrom st.clock.toNat else e.start.toNat
      st.modSession e.session (fun x => { x with substQ := x.substQ ++ [f] })
    else st) s

/-- A launch handled by REJECT or SUBSTITUTE; an alternate by REJECT, whatever its own SHED field. -/
def State.reject (s : State) (l : Launch) (expired : Bool) : State :=
  if l.pkt.shed = 2 && !l.alternate then (s.substituteDue (if l.pkt.kind = 2 then [] else l.streams)).complete l.seq CplStatus.substituted.code
  else s.complete l.seq (if expired then CplStatus.expired.code else CplStatus.shed.code)

/-- The alternate of a degraded packet: read at ALT, judged, and tested for admission in its place. -/
def State.tryAlternate (s : State) (l : Launch) : State :=
  match s.readSlot l.ctx l.pkt.alt.toNat 128 with
  | none => s.recordError l.ctx (.plain 20 false l.seq l.pkt.alt.toNat)
  | some b =>
    let p := Packet.ofBytes b
    match s.judge l.ctx p true with
    | none => s.badPacket l.ctx l.seq l.pkt.alt.toNat p
    | some es =>
      let a := { Launch.ofPacket l.ctx l.queue l.seq p es .heap with alternate := true }
      let s1 := s.addLaunch a
      if s1.admits l.ctx l.seq p then s1 else s1.reject a false

/-- A launch that is shed, or whose deadline has passed in the heap (R318). -/
def State.shed (s : State) (l : Launch) (expired : Bool) : State :=
  if l.pkt.shed = 1 && !l.alternate then (s.complete l.seq CplStatus.degraded.code).tryAlternate l else s.reject l expired

/-- A launch whose dependency is met is tested: it enters the heap or is shed. -/
def State.test (s : State) (l : Launch) : State :=
  if s.admits l.ctx l.seq l.pkt then s.modLaunch l.seq (fun l => { l with phase := .heap }) else s.shed l false

def State.heapFree (s : State) : Bool := decide ((s.launches.filter Launch.inHeap).length < 256)

/-! ### Pulling (R311) -/

/-- Packets held for their dependencies that have met them and wait for a heap entry, earliest first (R315). -/
def State.metHeld (s : State) : List Launch :=
  sortBy (fun a b => lexLe [a.metOrder.getD 0, a.queue] [b.metOrder.getD 0, b.queue])
    (s.launches.filter (fun l => l.phase = .waitDep && l.metOrder.isSome && !(s.ctx l.ctx).frozen))

/-- Whether queue q (1024 + x is the device launch queue of context x) has a packet that may be pulled. -/
def State.pullable (s : State) (q : Nat) : Bool :=
  let free := s.launches.all (fun l => l.phase ≠ .waitDep || l.queue ≠ q)
  if q < 1024 then
    let x := s.queue q
    free && x.en && x.ridx ≠ x.widx && !(s.ctx x.ctx).frozen
  else free && (s.ctx (q - 1024)).dlq.any (fun d => d.reserved.isNone) && !(s.ctx (q - 1024)).frozen

/-- The next queue to visit: the first after the last one pulled from, wrapping round. -/
def State.nextQueue (s : State) : Option Nat :=
  let all := List.range 1088
  match s.bellows.lastPull with
  | none => all.find? s.pullable
  | some k => (all.filter (fun q => k < q) ++ all.filter (fun q => q ≤ k)).find? s.pullable

/-- The head packet of a queue: its context, its address (0 in a device launch queue), its bytes where they can be read,
and the queue without it. -/
def State.takeHead (s : State) (q : Nat) : Nat × Nat × Option (List Byte) × State :=
  if q < 1024 then
    let x := s.queue q
    let va := x.slotVa x.ridx
    (x.ctx, va, s.readSlot x.ctx va 128, s.modQueue q (fun x => { x with ridx := x.ridx + 1 }))
  else
    let c := q - 1024
    let dlq := (s.ctx c).dlq
    (c, 0, (dlq.find? (fun d => d.reserved.isNone)).map DlSlot.bytes,
      s.modCtx c (fun x => { x with dlq := dlq.eraseIdx (dlq.findIdx (fun d => d.reserved.isNone)) }))

/-- One packet pulled and judged. -/
def State.pullFrom (s : State) (q : Nat) : State :=
  let (ctx, va, bytes, s1) := s.takeHead q
  let (seq, s2) := s1.takeSeq
  let s3 := { s2 with bellows := { s2.bellows with lastPull := some q } }
  match bytes with
  | none => s3.recordError ctx (.plain 20 false seq va)
  | some b =>
    let p := Packet.ofBytes b
    match s3.judge ctx p false with
    | none => s3.badPacket ctx seq va p
    | some es =>
      let l := { Launch.ofPacket ctx q seq p es .waitDep with depPa := s3.depWord ctx p }
      let s4 := s3.addLaunch l
      if p.depAddr = 0 || s4.depMet l then s4.test l else s4

/-- A packet is pulled while the heap has a free entry and no held packet is to be tested first. -/
def execPacketPull (s : State) : Host.Outcome State Fault Refusal :=
  .next (if s.dev.stage ≠ 6 || !s.heapFree || !s.metHeld.isEmpty then s
    else match s.nextQueue with
      | some q => (s.pullFrom q).markTop
      | none => s)

/-- The held packet of a queue is tested, when it is the earliest to have met its dependency (R315). -/
def execDependencyMet (queue : Nat) (s : State) : Host.Outcome State Fault Refusal :=
  let s1 := s.latchDeps
  .next (match s1.metHeld with
    | l :: _ => if l.queue = queue && s1.heapFree then (s1.test l).markTop else s1
    | [] => s1)

/-! ### The heap (R318, R322) -/

/-- A MARKER completes DONE on becoming the top. -/
def State.completeMarker (s : State) : State :=
  match s.top with
  | some l => if l.pkt.kind = 2 then (s.complete l.seq CplStatus.done.code).markTop else s
  | none => s

def execEarliestReached (seq : Nat) (s : State) : Host.Outcome State Fault Refusal :=
  .next (match s.launch? seq with
    | some l =>
      if l.inHeap && s.reached l.pkt.earliest then
        let s1 := s.markTop
        if (s1.top.map Launch.seq) = some seq then s1.completeMarker else s1
      else s
    | none => s)

def execHeapDeadlineExpiry (seq : Nat) (s : State) : Host.Outcome State Fault Refusal :=
  .next (match s.launch? seq with
    | some l =>
      if l.phase = .heap && s.passed l.pkt.deadline && !(s.ctx l.ctx).frozen then (s.shed l true).markTop else s
    | none => s)

/-! ### Cut, completion and the watchdog (R319, R320, R442) -/

/-- Crews never placed end now (R328), and the others are cut. A frozen context's strands stay resident (R440). -/
def execLaunchDeadlineCut (seq : Nat) (s : State) : Host.Outcome State Fault Refusal :=
  .next (match s.launch? seq with
    | some l =>
      if (l.phase = .placing || l.phase = .running) && l.pkt.cut && s.passed l.pkt.deadline && !(s.ctx l.ctx).frozen then
        let s1 := s.modLaunch seq (fun l =>
          { l with phase := .cutting, crewsLeft := 0, nextStage := 0, cutAt := if l.allPlaced then none else some s.clock })
        let mine := (s1.crews.filter (fun c => c.live && c.seq = seq)).map Crew.id
        (mine.foldl (fun st c => st.cutCrew c) s1).markTop
      else s
    | none => s)

/-- The device time at which the last crew of a launch ended, those that a cut left unplaced among them (R319, R328). -/
def State.lastEnd (s : State) (seq : Nat) : Nat :=
  (s.crews.filter (fun c => !c.walker && c.seq = seq)).foldl (fun n c => max n c.waitFrom.toNat)
    (match s.launch? seq with | some l => (l.cutAt.getD 0).toNat | none => 0)

def execLaunchCompletion (seq : Nat) (s : State) : Host.Outcome State Fault Refusal :=
  .next (match s.launch? seq with
    | some l =>
      if (l.phase = .running || l.phase = .cutting) && s.crews.all (fun c => c.walker || c.seq ≠ seq || c.state = .ended) then
        (s.complete seq (if s.lastEnd seq ≤ l.pkt.deadline.toNat then CplStatus.done.code else CplStatus.missed.code)).markTop
      else s
    | none => s)

/-- What a launch's crews have stored is performed (R321). -/
def State.settleLaunch (s : State) (seq : Nat) : State :=
  (s.crews.filter (fun c => !c.walker && c.seq = seq && c.live)).foldl (fun st c => st.settleCrew c.id Pending.writesGlobal) s

/-- The allowance is used up: the packet completes FAULT once its crews' stores are performed, and the context takes a fatal event. -/
def execWatchdogExpiry (seq : Nat) (s : State) : Host.Outcome State Fault Refusal :=
  .next (match s.launch? seq with
    | some l => match l.firstAt with
      | some t =>
        if l.pkt.watchdog ≠ 0 && !(s.ctx l.ctx).frozen && decide (l.pkt.watchdog * 1000 + l.frozenFor ≤ (s.clock - t).toNat) then
          (((s.settleLaunch seq).complete seq CplStatus.fault.code).fatalEvent l.ctx (.plain 16 true seq 0)).markTop
        else s
      | none => s
    | none => s)

end Sys2Proof.Machine
end

