-- ==== Sys2Proof/Machine/PlaceEvents.lean ====
section
/-! DEFINITION. Placing, time slicing, deadline pre-emption and restoring (spec/14_queues_deadlines_and_dispatch.md R322 to R326,
spec/15_contexts_and_preemption.md R336 to R340). -/

namespace Sys2Proof.Machine

/-! ### Deadline pre-emption (R338) -/

/-- A unit planned so far: the machine imagined without its victims, the cores, and the victims chosen. -/
structure Plan where
  st     : State
  cores  : List Nat
  taken  : List Gang
  deriving DecidableEq, Repr

/-- Victims for a launch: gangs of later deadlines, latest first, then higher sequence number, then higher gang index. -/
def State.victims (s : State) (l : Launch) (taken : List Gang) : List Gang :=
  let key (g : Gang) : List Nat := [g.deadline s, g.seq, g.gang]
  sortBy (fun a b => lexLe (key b) (key a))
    (s.saveGangs.filter (fun g => decide (l.pkt.deadline.toNat < g.deadline s)
      && taken.all (fun t => !(t.seq = g.seq && t.gang = g.gang && t.stage = g.stage))))

/-- One crew planned on a core that it fits, or on the first permitted core that a prefix of the victims frees. -/
def State.planCrew (s : State) (l : Launch) (first permitted : List Nat) (p : Plan) : Option Plan :=
  let need := l.pkt.need (s.walksInHardware l.ctx)
  let ok (k : Nat) : Bool := !p.cores.contains k
  match first.find? (fun k => ok k && p.st.fits k need) with
  | some k => some { p with cores := p.cores ++ [k] }
  | none =>
    let vs := s.victims l p.taken
    (permitted.filter ok).foldl (fun acc k => match acc with
      | some q => some q
      | none => (p.st.shortestPrefix (fun st => st.fits k need) vs []).map (fun gs =>
          { st := gs.foldl (fun st g => st.vacate g) p.st, cores := p.cores ++ [k], taken := p.taken ++ gs })) none

/-- A gang's unit of a given size planned with victims. -/
def State.planForced (s : State) (l : Launch) (gang stage size : Nat) : Option Plan :=
  (List.range size).foldl (fun acc i => match acc with
    | some p => s.planCrew l (s.peerCore l.seq gang i stage ++ s.fromPointer) s.enabledCores p
    | none => none) (some { st := s, cores := [], taken := [] })

/-- A persistent launch planned with victims: each crew may go to its selected core only. -/
def State.planPersist (s : State) (l : Launch) : Option Plan :=
  (s.selectedCores l.pkt).foldl (fun acc k => match acc with
    | some p => s.planCrew l [k] [k] p
    | none => none) (some { st := s, cores := [], taken := [] })

/-- The top's next unit planned with victims, at the preferred and then the fallback size. -/
def State.planVictims (s : State) (l : Launch) : Option (Unit4 × List Gang) :=
  if l.pkt.persist then
    if s.slotsFor l.ctx (s.selectedCores l.pkt).length then
      (s.planPersist l).map (fun p => ({ gang := 0, stage := 0, size := 1, fall := false, cores := p.cores }, p.taken))
    else none
  else
    let (g, st, sizes) := l.nextUnit
    sizes.foldl (fun acc z => match acc with
      | some u => some u
      | none => if s.slotsFor l.ctx z.1 then
          (s.planForced l g st z.1).map (fun p => ({ gang := g, stage := st, size := z.1, fall := z.2, cores := p.cores }, p.taken))
        else none) none

/-! ### Placing (R322, R324) -/

/-- A quenched gang of a launch that is pending again (R328). -/
def State.pendingGang (s : State) (seq : Nat) : Option Gang := s.waitingGangs.find? (fun g => g.seq = seq && g.crews.any (fun c => c.state = .pending))

/-- The top's next unit placed, by pre-emption when it fits nowhere (R338). The gangs that come before it, its own quenched ones among
them, are restored first (R328, R339). -/
def State.placeTop (s0 : State) (l0 : Launch) : State :=
  let s := s0.restoreWaiting
  let l := (s.launch? l0.seq).getD l0
  if (s.pendingGang l.seq).isSome || s.makingRoom then s
  else match s.planUnit l with
    | some u => s.placeUnitAt l u
    | none => match s.planVictims l with
      | some (u, gs) => s.startTaking gs (.unit l.seq (some u))
      | none => s

def execPlaceUnit (s : State) : Host.Outcome State Fault Refusal :=
  .next (match s.top with
    | some l => if l.pkt.kind = 2 then s.completeMarker else (s.placeTop l).markTop
    | none => s)

/-! ### The time slice (R336, R337) -/

/-- What waits in a context: a gang taken off, or the top's next unit. -/
inductive Waiter where
  | gang (g : Gang)
  | unit (l : Launch)
  deriving DecidableEq, Repr

/-- Wait start, launch sequence number and gang index of a waiter. -/
def Waiter.key : Waiter → List Nat
  | .gang g => [g.waitFrom, g.seq, g.gang]
  | .unit l => [(l.topSince.getD 0xFFFFFFFFFFFFFFFF).toNat, l.seq, l.nextUnit.1]

/-- The waiter of a context with the earliest wait start. A launch's quenched gangs come before its unplaced crews (R328). -/
def State.firstWaiter (s : State) (x : Nat) : Option Waiter :=
  let gs := (s.waitingGangs.filter (fun g => g.ctx = x)).map Waiter.gang
  let us := match s.top with
    | some l => if l.ctx = x && l.pkt.kind = 1 && s.slotsFor x 1 && (s.pendingGang l.seq).isNone then [Waiter.unit l] else []
    | none => []
  (gs ++ us).foldl (fun best w => match best with
    | none => some w
    | some b => if lexLe b.key w.key then some b else some w) none

/-- Gangs that a tick may take off: of the context, run for 500,000 ns or more, longest first. -/
def State.sliceVictims (s : State) (x : Nat) : List Gang :=
  let key (g : Gang) : List Nat := [g.runTime s, g.seq, g.gang]
  sortBy (fun a b => lexLe (key b) (key a)) (s.saveGangs.filter (fun g => g.ctx = x && decide (500000 ≤ g.runTime s)))

def Waiter.fits (w : Waiter) (s : State) : Bool :=
  match w with
  | .gang g => (s.planReturn g.crews).isSome
  | .unit l => (s.planUnit l).isSome

/-- The waiter as one that room is made for. -/
def Waiter.takeFor : Waiter → TakeFor
  | .gang g => .gang g.seq g.gang g.stage
  | .unit l => .unit l.seq none

/-- One context at a tick. A context for which room is still being made has had its turn. -/
def State.sliceContext (s : State) (x : Nat) : State :=
  if (s.ctx x).frozen || s.bellows.taking.any (fun k => k.whom.ctx? s = some x) then s
  else match s.firstWaiter x with
    | none => s
    | some w => match s.shortestPrefix w.fits (s.sliceVictims x) [] with
      | none => s
      | some gs => s.startTaking gs w.takeFor

/-- Save-class gangs with a crew on a core that the host retires are saved at the tick; a persistent launch keeps its crews (R458). -/
def State.leaveRetiring (s : State) : State :=
  let stays (g : Gang) : Bool := (s.launch? g.seq).any (fun l => l.pkt.persist)
  (s.saveGangs.filter (fun g => !stays g && g.crews.any (fun c => s.retiring c.core))).foldl (fun st g => st.startTaking [g] .room true) s

/-- The tick of each multiple of 500,000 ns, once. -/
def execTimeSliceTick (s : State) : Host.Outcome State Fault Refusal :=
  let k := s.clock.toNat / 500000
  .next (if s.bellows.tickDone < k && s.dev.stage = 6 then
      let s1 := ({ s with bellows := { s.bellows with tickDone := k } } : State).markTop
      ((List.range 64).foldl (fun st x => st.sliceContext x) s1.leaveRetiring).markTop
    else s)

/-! ### Taking gangs off and bringing them back (R339, R340) -/

/-- Every resident gang of an index, stage by stage, taken off as `quench` says. The time slice and deadline pre-emption take
gangs off within their own steps; these rows let the agenda do it by itself. -/
def State.takeGang (s : State) (seq gang : Nat) (quench : Bool) : State :=
  (s.saveGangs.filter (fun g => g.seq = seq && g.gang = gang)).foldl (fun st g =>
    if quenchable (st.gangCrews g.seq g.gang g.stage) = quench then st.startTaking [g] .room else st) s

def execGangQuench (seq gang : Nat) (s : State) : Host.Outcome State Fault Refusal := .next (s.takeGang seq gang true)
def execGangSave (seq gang : Nat) (s : State) : Host.Outcome State Fault Refusal := .next (s.takeGang seq gang false)

/-- Resources have freed on a core (R339). -/
def execRestoreOnRelease (s : State) : Host.Outcome State Fault Refusal := .next s.restoreWaiting.markTop

end Sys2Proof.Machine
end

