-- ==== Sys2Proof/Machine/ContextEvents.lean ====
section
/-! DEFINITION. The management block of a context (spec/01_device_organisation.md R22, R23,
spec/15_contexts_and_preemption.md R333, R334, spec/16_translation_and_residency.md R359 to R374,
spec/17_host_publication_and_images.md R378, R379): its guarded registers, its reset, the binding of queues, walks and fills,
residency and migration. Before state RUN every such write is ignored, and sets the REJ bit of its register where there is one
(R464). -/

namespace Sys2Proof.Machine

/-- Management blocks accept writes from state RUN on (R464). -/
def State.managed (s : State) (x : Nat) : Bool := decide (6 ≤ s.dev.stage) && decide (x < 64)

/-! ### Guarded registers (R22, R23, R334, R359) -/

/-- CXASSIST: a write that would change a mode needs an idle context; an accepted one with bit 31 clears REJ. -/
def execCxassistWrite (ctx : Nat) (value : Word) (s : State) : Host.Outcome State Fault Refusal :=
  let v : BitVec 5 := BitVec.truncate 5 value
  .next (s.modCtx ctx (fun x =>
    if !s.managed ctx || (v ≠ x.assist && !s.idle ctx) then { x with assistRej := true }
    else { x with assist := v, assistRej := x.assistRej && !value.getLsbD 31 }))

/-- SAVEBASE and SLOTS. -/
def execSaveAreaWrite (ctx off : Nat) (value : DWord) (s : State) : Host.Outcome State Fault Refusal :=
  let refuse (x : Context) : Context := { x with slotsRej := true }
  .next (s.modCtx ctx (fun x =>
    if off = 8 then
      if !s.managed ctx || (value ≠ x.saveBase && !s.idle ctx) then refuse x else { x with saveBase := value }
    else if off = 0x10 then
      let n := bitsOf value.toNat 0 13
      if !s.managed ctx || (n ≠ x.slots && !s.idle ctx) || (1 ≤ n && n ≤ 15) || 4096 < n then refuse x
      else { x with slots := n, slotsRej := x.slotsRej && !value.getLsbD 31 }
    else x))

/-- The context with a translation register written: PTROOT, WALKPC, WALKARG or EVRING. -/
def Context.setTranslation (x : Context) (off : Nat) (v : DWord) : Context :=
  match off with
  | 0x20 => { x with ptroot := v }
  | 0x28 => { x with walkPc := v }
  | 0x30 => { x with walkArg := v }
  | 0x48 => { x with evBase := v &&& ~~~0xFFF, evLog := BitVec.truncate 4 v }
  | _ => x

def execTranslationRegisterWrite (ctx off : Nat) (value : DWord) (s : State) : Host.Outcome State Fault Refusal :=
  .next (s.modCtx ctx (fun x =>
    let y := x.setTranslation off value
    if !s.managed ctx || (y ≠ x && !s.idle ctx) then { x with assistRej := true } else y))

/-- A write of RESET to CXSTATE: the record, then the reset (R378, R438, R441). -/
def execContextReset (ctx : Nat) (s : State) : Host.Outcome State Fault Refusal :=
  .next (if s.managed ctx then (s.recordError ctx (.plain 21 false 0 0)).contextReset ctx else s)

/-! ### Queue bindings (R379) -/

/-- The binding of a queue with a register of its entry written. -/
def Queue.setEntry (q : Queue) (off : Nat) (v : DWord) : Queue :=
  match off with
  | 0 => { q with rbase := v }
  | 8 => { q with en := v.getLsbD 21, k := bitsOf v.toNat 16 5, ctx := bitsOf v.toNat 0 6 }
  | 0xC => { q with gen := BitVec.truncate 16 v }
  | _ => q

/-- A bound queue has a ring within the limits. -/
def Queue.entryOk (q : Queue) : Bool := !q.en || (decide (1 ≤ q.k) && decide (q.k ≤ 16) && q.rbase.toNat % 128 = 0)

def Queue.quiet (q : Queue) : Bool := q.ridx = q.widx

/-- A write to the binding table: it takes effect while the queue is empty and its context idle, and clears the indices. -/
def execQueueBindingWrite (queue off : Nat) (value : DWord) (s : State) : Host.Outcome State Fault Refusal :=
  .next (if 0x10 ≤ off || off % 4 ≠ 0 then s
    else s.modQueue queue (fun q =>
      let e := q.setEntry off value
      let quiet := q.quiet && s.idle q.ctx
      if s.dev.stage < 6 then { q with range := true }
      else if e ≠ q && !quiet || !e.entryOk then { q with range := true }
      else if quiet then { e with widx := 0, ridx := 0 }
      else q))

/-! ### Walks and host fills (R363, R365) -/

/-- A translation miss of an engine's access on a core where the context has a crew. The misses of strands start their walks in
the step that meets them. -/
def execWalkStart (core ctx : Nat) (va : VAddr) (kind : BitVec 5) (s : State) : Host.Outcome State Fault Refusal :=
  let co := s.core core
  .next (if (s.residentOn core).any (fun c => !c.walker && c.ctx = ctx) && co.tlb.all (fun t => !t.covers ctx va.toNat)
      && co.walks.all (fun w => w.ctx ≠ ctx || pageNo w.va.toNat ≠ pageNo va.toNat)
      && co.misses.all (fun m => m.ctx ≠ ctx || pageNo m.va.toNat ≠ pageNo va.toNat) then
      (s.setCore core { co with misses := co.misses ++ [{ ctx := ctx, va := va, kind := kind, joined := [] }] }).serveMisses core 4
    else s)

/-- FILLCTL (R359, R365): GO acts as `tlbw` with FILLVA and FILLENT, END then as `walkd` for an open walk of the context that the
host serves. -/
def State.fillControl (s : State) (ctx : Nat) (v : Word) : State :=
  let n := v.toNat
  let core := bitsOf n 18 6
  let level := bitsOf n 16 2
  let walk := bitsOf n 0 2
  let s1 := s.modCtx ctx (fun x => { x with fillCtl := v &&& 0x00FF0003 })
  let x := s1.ctx ctx
  let s2 := if v.getLsbD 31 && level ≠ 0 && !vaBad x.fillVa.toNat then
      s1.installLeaf core ctx (some walk) x.fillVa.toNat level x.fillEnt
    else s1
  if v.getLsbD 30 && (s2.core core).walks.any (fun w => w.num = walk && w.ctx = ctx && w.host) then s2.endWalk core walk else s2

def execHostFill (ctx : Nat) (value : Word) (s : State) : Host.Outcome State Fault Refusal :=
  .next (if s.managed ctx && value.getLsbD 31 then s.fillControl ctx value else s)

def execHostWalkEnd (ctx : Nat) (value : Word) (s : State) : Host.Outcome State Fault Refusal :=
  .next (if s.managed ctx && value.getLsbD 30 then s.fillControl ctx value else s)

/-! ### Residency (R372) -/

/-- A RESVA write is held while another transaction's buffered stores need the translation that its `tlbi.va.all` removes (R369). -/
def execResvaWrite (ctx : Nat) (value : DWord) (s : State) : Host.Outcome State Fault Refusal :=
  let page := value.toNat / 2 ^ 14
  .next (if s.managed ctx && (s.ctx ctx).resReqs.contains page && (s.ctx ctx).resWait.all (fun w => w.1 ≠ page) then
      (s.modCtx ctx (fun x => { x with resWait := x.resWait ++ [(page, value.getLsbD 0)] })).serveResidency ctx
    else s)

/-! ### Migration (R374) -/

/-- The physical address and level of the leaf that maps an address in the context's table. -/
def State.leafFrom (s : State) (va level table fuel : Nat) : Option (Nat × Nat) :=
  match fuel with
  | 0 => none
  | n + 1 =>
    let a := table + 8 * (va / 2 ^ (14 + 11 * (3 - level)) % (if level = 0 then 1024 else 2048))
    let e : DWord := BitVec.ofNat 64 (s.peek a 8)
    if !pteV e then none
    else if pteL e then (if validLeaf level e then some (a, level) else none)
    else if level = 3 then none
    else s.leafFrom va (level + 1) (ptePpn e * 2 ^ 14) n

/-- A page copied in protected units; one with an uncorrectable error has no consumer, and its copy is discarded (R436); its page
becomes a candidate (R454). -/
def State.copyPage (s : State) (ctx src dst : Nat) : State :=
  (List.range 512).foldl (fun st i =>
    if st.bad (src + 32 * i) 32 then st.uncorrectable (src + 32 * i) else st.engineWrite ctx (dst + 32 * i) (st.peekBytes (src + 32 * i) 32)) s

/-- Step 1 of a move: the page is not resident from here on. A page that the context no longer maps, that is not resident, or that
stands on the device already, is dropped from the queue. -/
def State.beginMove (s : State) (ctx : Nat) (va : VAddr) : State :=
  match s.leafFrom va.toNat 0 (s.ctx ctx).ptroot.toNat 4 with
  | none => s
  | some (a, level) =>
    let e : DWord := BitVec.ofNat 64 (s.peek a 8)
    let f := (s.ctx ctx).pool.toNat / 2 ^ 14
    if pteHome e = 0 || !pteP e then s
    else if level ≠ 3 || f = 0 then s.postEvent ctx (evRecord 4 0 0 va.toNat (ptePpn e) 0)
    else
      ((s.engineWrite ctx a (leBytes 8 (e &&& ~~~2).toNat)).invalidatePage ctx va.toNat).modCtx ctx (fun x =>
        { x with moving := some { va := va, leaf := a, entry := e, frame := f } })

/-- The leaf after a move: PPN the new page, HOME 0, P 1. -/
def PageMove.newLeaf (p : PageMove) : DWord := BitVec.ofNat 64 ((p.entry &&& 0xFFFFFE7D).toNat + 2 + p.frame * 2 ^ 32)

/-- Steps 2 and 3 of a move: the page is copied, its leaf names the new page, POOL advances and the record is written; the
`pgreq`s on the page complete with 0. -/
def State.finishMove (s : State) (ctx : Nat) (p : PageMove) : State :=
  let old := (Trans.ofLeaf ctx p.va.toNat 3 p.entry).pa (p.va.toNat / 2 ^ 14 * 2 ^ 14)
  let next : DWord := BitVec.ofNat 64 (s.peek (p.frame * 2 ^ 14) 8)
  let s1 := s.copyPage ctx old (p.frame * 2 ^ 14)
  let s2 := (s1.engineWrite ctx p.leaf (leBytes 8 p.newLeaf.toNat)).invalidatePage ctx p.va.toNat
  let s3 := s2.modCtx ctx (fun x => { x with pool := next &&& ~~~0x3FFF, moving := none })
  (s3.postEvent ctx (evRecord 3 0 0 p.va.toNat (ptePpn p.entry) p.frame)).settlePgreqs ctx

/-- A context moves one page at a time: a queued page's move begins, and the next event of the page ends it. Neither happens while a
transaction's buffered stores need the translation that goes (R369). -/
def execPageMigration (ctx : Nat) (va : VAddr) (s : State) : Host.Outcome State Fault Refusal :=
  .next (if s.bufferedThrough none s.enabledCores ctx (fun tr => tr.covers ctx va.toNat) then s
    else match (s.ctx ctx).moving with
    | some p => if p.va = va then s.finishMove ctx p else s
    | none =>
      if (s.ctx ctx).migQueue.contains va then
        (s.modCtx ctx (fun x => { x with migQueue := x.migQueue.filter (fun v => v ≠ va) })).beginMove ctx va
      else s)

end Sys2Proof.Machine
end

