-- ==== Sys2Proof/Machine/HostEvents.lean ====
section
/-! DEFINITION. The host's accesses to memory, windows and publication (spec/17_host_publication_and_images.md R376, R380 to
R385). Host memory itself is the host's: its bytes are kept beside the device's under keys of their own (R353). -/

namespace Sys2Proof.Machine

/-! ### Host accesses (R380, R382) -/

/-- Whether a byte of device memory lies in the front frame of an enabled window, where a host write is dropped (R382). -/
def Window.inFront (w : Window) (pa : Nat) : Bool :=
  w.en && decide (w.wfront.toNat ≤ pa) && decide (pa < w.wfront.toNat + w.wpages * 2 ^ 14)

def State.inFront (s : State) (pa : Nat) : Bool := s.ctxs.any (fun x => x.windows.any (fun w => w.inFront pa))

/-- What the host reaches: device memory over CXL.mem, and its own memory. -/
def hostReaches (pa n : Nat) : Bool := decide (pa + n ≤ 2 ^ 46) || (decide (hostBase ≤ pa) && decide (pa + n ≤ 2 ^ 65))

/-- A write of the host or of a peer, without the bytes that lie in a front frame. -/
def State.outsideWrite (s : State) (w : Writer) (pa : Nat) (data : List Byte) : State :=
  let clear := w ≠ .host || (List.range data.length).all (fun i => !s.inFront (pa + i))
  if clear then s.homeWrite w none pa data
  else data.zipIdx.foldl (fun st p => if s.inFront (pa + p.2) then st else st.homeWrite w none (pa + p.2) [p.1]) s

/-- The context of a page that the migration table does not know (R373; DESIGN CHOICE, assumption 11): the one that last wrote the line, else
one whose translation of the page a TLB holds, else context 0. -/
def State.pageCtx (s : State) (pa : Nat) : Nat :=
  match smapGet s.lastCtx (pa / 128) with
  | some x => x
  | none =>
    match (s.cores.flatMap Core.tlb).find? (fun tr => tr.pa tr.base.toNat ≤ pa && pa < tr.pa tr.base.toNat + 2 ^ pageShift tr.level) with
    | some tr => tr.ctx
    | none => 0

/-- An atomic of the host or of a peer on a device page is a remote access, of the context that the page was of before it (R373). -/
def State.countRemote (s : State) (ctx pa : Nat) : State :=
  if s.hasMemory pa && decide (pa < 2 ^ 46) then s.countAtomic ctx pa none false else s

def execHostWrite (pa : Nat) (data : List Byte) (atomic : Bool) (s : State) : Host.Outcome State Fault Refusal :=
  .next (if !hostReaches pa data.length then s
    else
      let s1 := s.outsideWrite .host pa data
      if atomic then s1.countRemote (s.pageCtx pa) pa else s1)

/-! ### Window registers (R381) -/

def Context.window (x : Context) (w : Nat) : Window := x.windows.getD w .fresh

def State.modWindow (s : State) (ctx win : Nat) (f : Window → Window) : State :=
  s.modCtx ctx (fun x => { x with windows := modAt x.windows win f })

/-- Every page of the window dirty. -/
def Window.allDirty (w : Window) : Window := { w with dirty := List.range w.wpages }

/-- A window with one of its guarded registers written. -/
def Window.setReg (w : Window) (off : Nat) (v : DWord) : Window :=
  match off with
  | 0x00 => { w with wback := v }
  | 0x08 => { w with wfront := v }
  | 0x10 => { w with wvera := v }
  | 0x18 => { w with wpages := bitsOf v.toNat 0 17 }
  | _ => w

/-- EN and REJ: setting EN marks every page dirty. -/
def Window.control (w : Window) (v : DWord) : Window :=
  let en := v.getLsbD 31
  let w1 : Window := { w with en := en, rej := w.rej && !v.getLsbD 30 }
  if en && !w.en then w1.allDirty else w1

def Window.write (w : Window) (off : Nat) (v : DWord) : Window :=
  if off = 0x1C then w.control v
  else
    let y := w.setReg off v
    if y ≠ w && (w.en || !w.quiet) then { w with rej := true } else y

def execWindowRegisterWrite (ctx win off : Nat) (value : DWord) (s : State) : Host.Outcome State Fault Refusal :=
  .next (s.modWindow ctx win (fun w => if s.managed ctx then w.write off value else { w with rej := true }))

/-! ### Publication (R383) -/

/-- Instant S: the odd version is written and the dirty pages are taken. -/
def execPublicationServe (ctx win : Nat) (s : State) : Host.Outcome State Fault Refusal :=
  let w := (s.ctx ctx).window win
  .next (if win < 8 && w.busy.isNone && !w.queue.isEmpty then
      let s1 := s.homeWrite .engine (some ctx) (hostBase + w.wvera.toNat) (leBytes 8 (w.wver + 1).toNat)
      s1.modWindow ctx win (fun w => { w with busy := some w.dirty, dirty := [] })
    else s)

/-- The frames overlap: what the front frame then holds is undefined (R381). -/
def Window.overlaps (w : Window) : Bool :=
  let n := w.wpages * 2 ^ 14
  decide (w.wback.toNat < w.wfront.toNat + n) && decide (w.wfront.toNat < w.wback.toNat + n)

/-- The byte that a publication puts into a front frame. -/
def State.frontByte (s : State) (w : Window) (i : Nat) : Byte :=
  if w.overlaps then Config.overlapByte w.wver i else (s.peekBytes (w.wback.toNat + i) 1).headD 0

/-- One protected unit copied from the back to the front frame; one with an uncorrectable error is left unwritten (R429). -/
def State.publishUnit (s : State) (ctx : Nat) (w : Window) (i : Nat) : State :=
  if s.bad (w.wback.toNat + i) 32 then s
  else s.homeWrite .engine (some ctx) (w.wfront.toNat + i) ((List.range 32).map (fun k => s.frontByte w (i + k)))

/-- Offsets of the units of a publication, ascending. -/
def publishUnits (pages : List Nat) : List Nat := pages.flatMap (fun p => (List.range 512).map (fun i => p * 2 ^ 14 + 32 * i))

/-- The copy of the pages, the even version, and the end of the publication. -/
def execPublicationComplete (ctx win : Nat) (s : State) : Host.Outcome State Fault Refusal :=
  let w := (s.ctx ctx).window win
  .next (match w.busy, w.queue with
    | some pages, o :: _ =>
      let us := publishUnits pages
      let v := w.wver + 2
      let bad := (us.map (fun i => w.wback.toNat + i)).filter (fun a => s.bad a 32)
      let s0 := s.deferFor o ctx (bad.map (fun a => (a, a)))
      let s1 := us.foldl (fun st i => st.publishUnit ctx w i) s0
      let s2 := s1.modWindow ctx win (fun w =>
        { w with wver := v, busy := none, queue := w.queue.tail, en := w.en && !w.drop, drop := false })
      (s2.homeWrite .engine (some ctx) (hostBase + w.wvera.toNat) (leBytes 8 v.toNat)).finishFor o
    | _, _ => s)

end Sys2Proof.Machine
end

