-- ==== Sys2Proof/Machine/Loader.lean ====
section
/-! DEFINITION. The Bellows loader and the Ergor image (spec/17_host_publication_and_images.md R386 to R388). -/

namespace Sys2Proof.Machine

/-! ### The image file (R386) -/

/-- A section entry. -/
structure ImgSect where
  name  : Nat
  flags : Nat
  addr  : Nat
  align : Nat
  off   : Nat
  fsize : Nat
  msize : Nat
  deriving DecidableEq, Repr

/-- A symbol entry; `tmpl` is the image address of a kernel's launch template. -/
structure ImgSym where
  name  : Nat
  kind  : Nat
  flags : Nat
  sect  : Nat
  value : Nat
  tmpl  : Nat
  deriving DecidableEq, Repr

/-- A relocation entry; its bytes 12 to 15 are reserved, and ignored (R9, R387). -/
structure ImgReloc where
  site : Nat
  type : Nat
  sym  : Nat
  add  : Int
  deriving DecidableEq, Repr

/-- An image: its header's bytes and its tables. -/
structure Image where
  head   : List Byte
  sects  : List ImgSect
  syms   : List ImgSym
  relocs : List ImgReloc
  deriving DecidableEq, Repr

def ImgSect.ofBytes (b : List Byte) : ImgSect :=
  { name := leAt b 0 4, flags := leAt b 4 4, addr := leAt b 8 8, align := leAt b 0x10 4, off := leAt b 0x14 4, fsize := leAt b 0x18 4,
    msize := leAt b 0x1C 4 }

def ImgSym.ofBytes (b : List Byte) : ImgSym :=
  { name := leAt b 0 4, kind := leAt b 4 1, flags := leAt b 5 1, sect := leAt b 6 2, value := leAt b 8 8, tmpl := leAt b 16 8 }

def ImgReloc.ofBytes (b : List Byte) : ImgReloc :=
  { site := leAt b 0 8, type := leAt b 8 1, sym := leAt b 9 3, add := sextInt (leAt b 16 8) 64 }

/-- `n` entries of `size` bytes each of a table of the file at a physical address. -/
def State.tableOf {α : Type} (s : State) (at_ n size : Nat) (f : List Byte → α) : List α :=
  (List.range n).map (fun i => f (s.peekBytes (at_ + size * i) size))

/-- The image at a physical address. -/
def State.image (s : State) (pa : Nat) : Image :=
  let h := s.peekBytes pa 64
  { head := h, sects := s.tableOf (pa + leAt h 0x14 4) (leAt h 8 4) 32 ImgSect.ofBytes
    syms := s.tableOf (pa + leAt h 0x18 4) (leAt h 0xC 4) 24 ImgSym.ofBytes
    relocs := s.tableOf (pa + leAt h 0x1C 4) (leAt h 0x10 4) 24 ImgReloc.ofBytes }

/-- Image span: the highest section end, in image addresses. -/
def Image.span (x : Image) : Nat := leAt x.head 0x28 8
def Image.strings (x : Image) : Nat := leAt x.head 0x24 4

def ImgSect.ending (x : ImgSect) : Nat := x.addr + x.msize

/-- The parts of the file after its header, in the order that R386 gives them: offset and size of each. -/
def Image.parts (x : Image) : List (Nat × Nat) :=
  [(leAt x.head 0x14 4, 32 * x.sects.length), (leAt x.head 0x18 4, 24 * x.syms.length), (leAt x.head 0x1C 4, 24 * x.relocs.length),
    (leAt x.head 0x20 4, x.strings)]

/-- Parts that follow one another from an offset on, and the offset after them; an empty part stands nowhere. -/
def partsEnd (start : Nat) : List (Nat × Nat) → Option Nat
  | [] => some start
  | (off, n) :: rest => if n = 0 then partsEnd start rest else if start ≤ off then partsEnd (off + n) rest else none

/-- Header, tables, strings and section contents stand in their order (R386). -/
def Image.ordered (x : Image) : Bool :=
  match partsEnd 64 x.parts with
  | some e => x.sects.all (fun t => t.fsize = 0 || decide (e ≤ t.off))
  | none => false

/-- A name is an offset into the string table. -/
def Image.nameOk (x : Image) (name : Nat) : Bool := decide (name < max 1 x.strings)

def Image.sectOk (x : Image) (t : ImgSect) : Bool :=
  x.nameOk t.name && decide (t.flags < 8) && decide (t.align ≤ 12) && t.addr % 2 ^ t.align = 0 && decide (t.fsize ≤ t.msize)

/-- Whether bytes of the image lie inside one section. -/
def Image.inside (x : Image) (addr n : Nat) : Bool := x.sects.any (fun t => decide (t.addr ≤ addr) && decide (addr + n ≤ t.ending))

/-- A symbol's name, kind and section are in range, and a kernel's 32-byte template lies in the image. Its flags beyond bit 0 are
reserved, and ignored (R9). -/
def Image.symOk (x : Image) (y : ImgSym) : Bool :=
  x.nameOk y.name && decide (y.kind ≤ 3) && (y.sect = 0xFFFF || decide (y.sect < x.sects.length)) && (y.kind ≠ 3 || x.inside y.tmpl 32)

/-- Bytes of the word or field that a relocation writes. -/
def relocWidth (type : Nat) : Nat := if type = 1 then 8 else 4

/-- The access size of a memory word (R71, R87), by which MEM9 scales; none where the site holds no such word. -/
def memUnitOf (w : Nat) : Option Nat :=
  match decodeWord w with
  | some i => match i with
    | .ldB32 .. => some 4
    | .ldB64 .. => some 8
    | .ldF32 .. => some 1
    | .ldF16 .. => some 1
    | .ldBf16 .. => some 1
    | .ldI32 .. => some 1
    | .stB8 .. => some 1
    | .stB16 .. => some 2
    | .stB32 .. => some 4
    | .stB64 .. => some 8
    | .ldbW .. => some 4
    | .ldbA .. => some 4
    | .ldbC .. => some 4
    | .stbA .. => some 4
    | .stbC .. => some 4
    | _ => none
  | none => none

/-- The image as it stands at its image addresses before relocation. -/
def State.layOut (s : State) (pa : Nat) (x : Image) : Memory :=
  x.sects.foldl (fun m t => Memory.writeBytes (Memory.clear m t.addr t.msize) t.addr (s.peekBytes (pa + t.off) t.fsize)) ([] : Memory)

/-- A kernel's launch template, in the image as laid out: the values of R86, which software puts into launch packets. -/
def ImgSym.template (y : ImgSym) (m : Memory) : List Byte := m.readBytes y.tmpl 32

/-- A relocation names a site inside one section, a symbol of the table and an assigned type; a MEM9 site holds a memory word. -/
def Image.relocOk (x : Image) (m : Memory) (r : ImgReloc) : Bool :=
  decide (1 ≤ r.type) && decide (r.type ≤ 9) && decide (r.sym < x.syms.length) && x.inside r.site (relocWidth r.type)
    && (r.type ≠ 9 || (memUnitOf (m.readNat r.site 4)).isSome)

/-- BADIMAGE: a header or table out of rule; B is a multiple of 4096 (R387). -/
def Image.wellFormed (x : Image) (m : Memory) (b : Nat) : Bool :=
  leAt x.head 0 4 = 0x314D4945 && leAt x.head 4 2 = 1 && leAt x.head 6 2 = 0 && leAt x.head 0x30 16 = 0
    && x.ordered && x.sects.all x.sectOk && x.syms.all x.symOk && x.span = x.sects.foldl (fun n t => max n t.ending) 0
    && x.relocs.all (x.relocOk m) && b % 4096 = 0

/-! ### Relocation (R387) -/

/-- A symbol's address; a constant is its value. -/
def ImgSym.address (y : ImgSym) (b : Nat) : Int := if y.kind = 2 then (y.value : Int) else ((b + y.value : Nat) : Int)

/-- Bits [lo+n−1:lo] of a word replaced. -/
def putField (w lo n v : Nat) : Nat := w - bitsOf w lo n * 2 ^ lo + v % 2 ^ n * 2 ^ lo

/-- The new bytes of a site that holds the word `w`, for the value S + A; none where the relocation is refused. -/
def relocBytes (type w p : Nat) (v : Int) : Option (List Byte) :=
  let word (lo n : Nat) (x : Nat) : Option (List Byte) := some (leBytes 4 (putField w lo n x))
  let branch (lo n : Nat) : Option (List Byte) :=
    let d : Int := v - (p : Int)
    let q := d / 4
    if d % 4 = 0 && decide (-(2 ^ (n - 1) : Int) ≤ q) && decide (q < (2 ^ (n - 1) : Int)) then word lo n (wrapNat q n) else none
  match type with
  | 1 => some (leBytes 8 (wrapNat v 64))
  | 2 => if decide (-(2 ^ 31 : Int) ≤ v) && decide (v < (2 ^ 32 : Int)) then some (leBytes 4 (wrapNat v 32)) else none
  | 3 => word 0 18 (wrapNat v 18)
  | 4 => word 0 14 (wrapNat (v / 2 ^ 18) 14)
  | 5 => word 0 18 (wrapNat (v / 2 ^ 32) 18)
  | 6 => word 0 14 (wrapNat (v / 2 ^ 50) 14)
  | 7 => branch 3 21
  | 8 => branch 0 18
  | 9 =>
    let u : Int := ((memUnitOf w).getD 1 : Nat)
    let q := v / u
    if v % u = 0 && decide ((-256 : Int) ≤ q) && decide (q ≤ 255) then word 3 9 (wrapNat q 9) else none
  | _ => none

/-- Relocations applied in table order: the image with them, or the index and symbol of the first refused one. -/
def Image.relocate (x : Image) (b : Nat) (rs : List ImgReloc) (i : Nat) (m : Memory) : Memory ⊕ (Nat × Nat) :=
  match rs with
  | [] => .inl m
  | r :: rest =>
    let y := x.syms.getD r.sym { name := 0, kind := 0, flags := 0, sect := 0, value := 0, tmpl := 0 }
    match relocBytes r.type (m.readNat r.site 4) (b + r.site) (y.address b + r.add) with
    | some bs => x.relocate b rest (i + 1) (Memory.writeBytes m r.site bs)
    | none => .inr (i, r.sym)

/-! ### The last checks and the load (R388) -/

/-- The executable sections lie in one aligned 4 GiB region (R132). -/
def Image.codeOk (x : Image) (b : Nat) : Bool :=
  let code := x.sects.filter (fun t => t.flags.testBit 2 && decide (0 < t.msize))
  let regions := code.flatMap (fun t => [(b + t.addr) / 2 ^ 32, (b + t.ending - 1) / 2 ^ 32])
  regions.all (fun r => r = regions.headD 0)

/-- Whether every page from an address on is mapped writable and resident. -/
def State.pagesReady (s : State) (ctx page n : Nat) : Bool :=
  match n with
  | 0 => true
  | k + 1 => (s.tablePa ctx (page * 2 ^ 14) pteW).isSome && s.pagesReady ctx (page + 1) k

/-- Bytes written at a virtual address, page by page. -/
def State.writeVirtual (s : State) (ctx va : Nat) (bs : List Byte) (fuel : Nat) : State :=
  match fuel with
  | 0 => s
  | k + 1 =>
    if bs.isEmpty then s
    else
      let n := 2 ^ 14 - va % 2 ^ 14
      let s1 := match s.tablePa ctx va pteW with
        | some pa => s.engineWrite ctx pa (bs.take n)
        | none => s
      s1.writeVirtual ctx (va + n) (bs.drop n) k

/-- Every section written at its place. -/
def State.writeImage (s : State) (ctx b : Nat) (x : Image) (m : Memory) : State :=
  x.sects.foldl (fun st t => st.writeVirtual ctx (b + t.addr) (m.readBytes t.addr t.msize) (t.msize / 2 ^ 14 + 2)) s

/-- The result of a load: the machine, the status code, and the refused relocation with its symbol. -/
def State.load (s : State) (ctx : Nat) : State × Nat × Nat × Nat :=
  let ld := (s.ctx ctx).loader
  let pa := ld.imgAddr.toNat
  let b := ld.loadVa.toNat
  let x := s.image pa
  let m := s.layOut pa x
  let first := b / 2 ^ 14
  if !x.wellFormed m b then (s, 1, 0, 0)
  else if x.syms.any (fun y => y.kind = 0) then (s, 2, 0, 0)
  else match x.relocate b x.relocs 0 m with
    | .inr (i, y) => (s, 3, i, y)
    | .inl m1 =>
      if !x.codeOk b then (s, 4, 0, 0)
      else if x.span ≠ 0 && !s.pagesReady ctx first ((b + x.span - 1) / 2 ^ 14 - first + 1) then (s, 5, 0, 0)
      else (s.writeImage ctx b x m1, 0, 0, 0)

def execLoaderGo (ctx : Nat) (s : State) : Host.Outcome State Fault Refusal :=
  .next (if s.managed ctx then s.modCtx ctx (fun x => { x with loader := { x.loader with busy := true } }) else s)

def execLoaderDone (ctx : Nat) (s : State) : Host.Outcome State Fault Refusal :=
  .next (if (s.ctx ctx).loader.busy then
      let (s1, st, site, sym) := s.load ctx
      s1.modCtx ctx (fun x =>
        { x with loader := { x.loader with busy := false, status := BitVec.ofNat 8 st, site := BitVec.ofNat 24 site, sym := BitVec.ofNat 24 sym } })
    else s)

end Sys2Proof.Machine
end

