-- ==== Sys2Proof/Machine/PortEvents.lean ====
section
/-! DEFINITION. Ports, the PTP follower and ARP (spec/18_ports_collectives_and_genlock.md R389 to R393): the registers that
choose a port's mode, the messages that discipline the clock, and the links' state. The servo's slew is how much device time
passes while the agenda lets time pass: the model bounds it nowhere. -/

namespace Sys2Proof.Machine

/-! ### Logical ports (R389) -/

/-- Whether a port's mode provides a logical port. -/
def State.lportPresent (s : State) (l : Nat) : Bool :=
  let p := s.port (l / 2)
  decide (l < 8) && p.enabled && (if l % 2 = 0 then p.mode = 1 || p.mode = 2 else p.mode = 2)

/-- Whether a logical port carries traffic. -/
def State.lportUp (s : State) (l : Nat) : Bool := s.lportPresent l && (s.lport l).link

def State.countRecv (s : State) (l : Nat) : State := s.modLport l (fun x => { x with recv := x.recv + 1 })
def State.countDrop (s : State) (l : Nat) : State := s.modLport l (fun x => { x with drop := x.drop + 1 })

/-- Whether an open session, a Llynad path or the PTP follower uses a port. -/
def State.portInUse (s : State) (p : Nat) : Bool :=
  s.sessions.any (fun x => x.up && x.d.ports.any (fun l => l / 2 = p))
    || ((s.port p).llyn && s.lly.peers.any (fun e => e.ip ≠ 0 && (e.mask.getLsbD (2 * p) || e.mask.getLsbD (2 * p + 1))))
    || (decide (5 ≤ s.dev.stage) && (s.port p).ptpEn && s.ptp.port.toNat / 2 = p)

/-- A port in a mode: a logical port that the mode does not provide has no link. -/
def Port.setMode (p : Port) (m : BitVec 2) : Port :=
  { p with
    mode := m, lp0 := { p.lp0 with link := p.lp0.link && (m = 1 || m = 2) }, lp1 := { p.lp1 with link := p.lp1.link && m = 2 } }

/-- PORTCTL: it accepts writes from state PATCH on. A refused MODE changes nothing and sets REJ. Mode 3 is reserved: the field holds it (R7),
and it provides no logical port. -/
def execPortctlWrite (port : Nat) (value : Word) (s : State) : Host.Outcome State Fault Refusal :=
  let m : BitVec 2 := BitVec.truncate 2 value
  .next (if s.dev.stage < 2 then s
    else s.modPort port (fun p =>
      if m ≠ p.mode && (!p.enabled || s.portInUse port) then { p with rej := true }
      else { p.setMode m with llyn := value.getLsbD 2, ptpEn := value.getLsbD 3, rej := p.rej && !value.getLsbD 31 }))

/-- A link comes up or goes down. DESIGN CHOICE (assumption 96): packets that the port has stamped and not handed over when its link goes
down are dropped with their stamps, so that they hold back no close (R291). -/
def execPortLinkChange (lport : Nat) (up : Bool) (s : State) : Host.Outcome State Fault Refusal :=
  .next (if s.lportPresent lport && decide (4 ≤ s.dev.stage) then s.modLport lport (fun x => { x with link := up, ingress := if up then x.ingress else [] }) else s)

/-- ARP requests for an address of the port are answered (R390). -/
def execArpRequest (lport : Nat) (target senderIp : Word) (senderMac : BitVec 48) (s : State) : Host.Outcome State Fault Refusal :=
  .next (if s.lportUp lport && target = (s.lport lport).ip && target ≠ 0 then s.emit (.arpReply lport senderIp senderMac) else s)

/-! ### The PTP follower (R391 to R393) -/

/-- Whether a genlock group is enabled (R415). -/
def State.genlockOn (s : State) : Bool := (s.groups.take 8).any (fun g => g.genlock s.lly.rank)

/-- The exchange in progress forgotten. -/
def Ptp.restart (p : Ptp) : Ptp := { p with t1 := none, t2 := none, t3 := none, t4 := none, delay := none, good := 0, bad := 0 }

/-- PTPCTL: HOST, PORT and DOMAIN change only while no session is open and no genlock group is enabled. The domains are 0 to 127
(R391), and DOMAIN holds what is written (R7): no master sends in another. -/
def execPtpctlWrite (value : DWord) (s : State) : Host.Outcome State Fault Refusal :=
  let p := s.ptp
  let q : Ptp := { p with host := value.getLsbD 0, port := BitVec.ofNat 3 (bitsOf value.toNat 10 3), domain := BitVec.ofNat 8 (bitsOf value.toNat 16 8) }
  .next (if s.dev.stage < 2 || s.sessions.any Session.up || s.genlockOn || q = p then s else { s with ptp := q.restart })

/-- Whether a logical port is the follower's and may carry PTP. -/
def State.follows (s : State) (l : Nat) : Bool :=
  decide (5 ≤ s.dev.stage) && l = s.ptp.port.toNat && (s.port (l / 2)).ptpEn && s.lportUp l

def signed64 (x : DWord) : Int := sextInt x.toNat 64

/-- One Sync interval measured: OFFSET, and the runs that set and clear LOCK. -/
def Ptp.interval (p : Ptp) (off : Int) : Ptp :=
  let good := if off.natAbs ≤ 200 then p.good + 1 else 0
  let bad := if 1000 < off.natAbs then p.bad + 1 else 0
  let lock := if 4 ≤ bad then false else p.lock || decide (16 ≤ good)
  { p with
    offset := if p.hushed && !lock then 0 else BitVec.ofNat 32 (wrapNat off 32), good := good, bad := bad
    lock := lock, hushed := p.hushed && !lock }

/-- The servo measures a Sync whose path delay it knows; state TIME ends when it locks (R464). -/
def State.measureSync (s : State) : State :=
  let p := s.ptp
  match p.host, p.t1, p.t2, p.delay with
  | false, some t1, some t2, some d =>
    let q := p.interval (signed64 (t2 - t1 - d))
    let s1 : State := { s with ptp := q }
    if q.lock && s.dev.stage = 5 then s1.setStage 6 else s1
  | _, _, _, _ => s

/-- A delay exchange is complete: the path delay is known. In state TIME the first one sets the clock, once. -/
def State.finishExchange (s : State) : State :=
  let p := s.ptp
  match p.t1, p.t2, p.t3, p.t4 with
  | some t1, some t2, some t3, some t4 =>
    let d : Int := (signed64 (t2 - t1) + signed64 (t4 - t3)) / 2
    let off : Int := (signed64 (t2 - t1) - signed64 (t4 - t3)) / 2
    let dw : DWord := BitVec.ofNat 64 (wrapNat d 64)
    let ow : DWord := BitVec.ofNat 64 (wrapNat off 64)
    if p.host then s
    else if s.dev.stage = 5 && !p.stepped then
      { s with clock := s.clock - ow, ptp := { p with stepped := true, delay := some dw, t1 := none, t2 := none, t3 := none, t4 := none } }
    else { s with ptp := { p with delay := some dw, offset := if p.hushed then 0 else BitVec.ofNat 32 (wrapNat off 32) } }
  | _, _, _, _ => s

/-- Whether one master is to be taken before another, by their data sets (R391's default algorithm; assumption 85): of one grandmaster the
one fewer steps away, else the better grandmaster. -/
def PtpMaster.better (a b : PtpMaster) : Bool :=
  if a.gm = b.gm then lexLe [a.steps, a.source] [b.steps, b.source] else lexLe (a.quality ++ [a.gm]) (b.quality ++ [b.gm])

/-- The master that is followed; none while no Announce has been heard. -/
def Ptp.master (p : Ptp) : Option PtpMaster :=
  p.masters.foldl (fun best m => match best with
    | none => some m
    | some b => if b.better m then some b else some m) none

/-- The masters with one more Announce heard; with another master than before, the exchange starts again. -/
def Ptp.hear (p : Ptp) (msg : PtpMsg) : Ptp :=
  let m : PtpMaster := { source := msg.source, quality := msg.quality, gm := msg.gm, steps := msg.steps }
  let q : Ptp := { p with masters := p.masters.filter (fun x => x.source ≠ m.source) ++ [m] }
  if (q.master.map PtpMaster.source) = (p.master.map PtpMaster.source) || p.masters.isEmpty then q else q.restart

/-- A message that the follower takes: of its domain, on its port and from its master. DESIGN CHOICE (assumption 85): any sender is the
master while no Announce has been heard. -/
def Ptp.heeds (p : Ptp) (msg : PtpMsg) : Bool := match p.master with | some m => m.source = msg.source | none => true

/-- What a message of its domain does to the follower. -/
def State.takePtp (s : State) (msg : PtpMsg) : State :=
  let p := s.ptp
  match msg.kind with
  | .announce => { s with ptp := p.hear msg }
  | .sync =>
    if p.heeds msg then
      let q : Ptp := { p with t2 := some msg.stamp, t1 := if msg.twoStep then none else some msg.origin }
      ({ s with ptp := q }).measureSync
    else s
  | .followUp => if p.t2.isSome && p.heeds msg then ({ s with ptp := { p with t1 := some msg.origin } }).measureSync else s
  | .delayResp => if p.t3.isSome && p.heeds msg then ({ s with ptp := { p with t4 := some msg.origin } }).finishExchange else s

/-- A received PTP message: one with a bad header checksum, on another port than the follower's or of another domain is dropped and
counted (R390), and goes unanswered (R391). -/
def execPtpEventMessage (lport : Nat) (msg : PtpMsg) (s : State) : Host.Outcome State Fault Refusal :=
  .next (if !s.lportUp lport then s
    else
      let s1 := s.countRecv lport
      if !msg.sumOk || !s.follows lport || msg.domain ≠ s.ptp.domain then s1.countDrop lport else s1.takePtp msg)

/-- A delay request leaves with its egress stamp. -/
def execDelayReqTransmit (s : State) : Host.Outcome State Fault Refusal :=
  let l := s.ptp.port.toNat
  .next (if s.follows l then ({ s with ptp := { s.ptp with t3 := some s.clock, t4 := none } }).emit (.delayReq l s.clock) else s)

/-- The master is lost: LOCK clears, and the next best master heard is followed. -/
def execPtpMasterLoss (s : State) : Host.Outcome State Fault Refusal :=
  let lost := s.ptp.master.map PtpMaster.source
  .next { s with ptp := { s.ptp.restart with lock := false, masters := s.ptp.masters.filter (fun m => some m.source ≠ lost) } }

end Sys2Proof.Machine
end

