-- ==== Sys2Proof/Machine/SessionEvents.lean ====
section
/-! DEFINITION. Sessions and their packets (spec/18_ports_collectives_and_genlock.md R394 to R399, R417,
spec/12_stream_registers.md R286 to R291, R299). -/

namespace Sys2Proof.Machine

/-! ### Opening a session (R395, R396) -/

/-- The fields of a descriptor. -/
def SessDesc.ofBytes (b : List Byte) : SessDesc :=
  let b0 := leAt b 0 1
  let b1 := leAt b 1 1
  let b2 := leAt b 2 1
  { send := b0.testBit 7, fmt := bitsOf b0 4 3, full := b0.testBit 3, nf := bitsOf b1 4 4 + 1, fillm := bitsOf b1 2 2, sndt := bitsOf b1 0 2,
    porta := bitsOf b2 0 4, portb := bitsOf b2 4 4, h := leAt b 6 2, w := leAt b 4 2, rnum := leAt b 8 4, rden := leAt b 0xC 4,
    budget := leAt b 0x10 4, od := leAt b 0x14 4, pitch := leAt b 0x18 4, ring := BitVec.ofNat 64 (leAt b 0x20 8),
    store := BitVec.ofNat 64 (leAt b 0x28 8), fillg := (b.drop 0x30).take 16, srcIp := BitVec.ofNat 32 (leAt b 0x40 4),
    dstIp := BitVec.ofNat 32 (leAt b 0x44 4), dport := BitVec.ofNat 16 (leAt b 0x4A 2), sport := BitVec.ofNat 16 (leAt b 0x48 2),
    pt := BitVec.ofNat 7 (leAt b 0x4C 1), ssrc := BitVec.ofNat 32 (leAt b 0x50 4), maxPay := leAt b 0x54 2,
    nhMac := BitVec.ofNat 48 (leAt b 0x58 6), trOff := leAt b 0x60 4, ractD := leAt b 0x66 2, ractN := leAt b 0x64 2,
    pdiff := leAt b 0x68 4 }

/-- The limits of R395. -/
def SessDesc.limitsOk (d : SessDesc) : Bool :=
  (decide (d.fmt ≤ 3) || d.opaque_) && decide (2 ≤ d.nf) && d.fillm ≠ 3
    && decide (1 ≤ d.h) && decide (d.h ≤ 4320) && decide (1 ≤ d.w) && decide (d.w ≤ 7680)
    && d.rnum ≠ 0 && d.rden ≠ 0 && decide (d.rnum ≤ 1000 * d.rden) && decide (d.rden ≤ d.rnum)
    && d.pitch % 4 = 0 && (d.opaque_ || decide (d.lineOctets ≤ d.pitch)) && d.ring.toNat % 64 = 0
    && (if d.send then d.sndt ≠ 3 && decide (256 ≤ d.maxPay) && decide (d.maxPay ≤ 8952) && (d.sndt = 1 || (d.ractD ≠ 0 && decide (d.ractN ≤ d.ractD)))
        else d.portb = 15 || decide (d.pdiff ≤ 10000000))

/-- A rate as numerator and denominator, bits per second. -/
def SessDesc.rate (d : SessDesc) : Nat × Nat := (8 * d.pitch * d.h * d.rnum, max 1 d.rden)

def addRate (a b : Nat × Nat) : Nat × Nat := (a.1 * b.2 + b.1 * a.2, a.2 * b.2)

/-- Whether a logical port has room for a session beside those open on it: 90 % of its rate. -/
def State.portFits (s : State) (d : SessDesc) (l : Nat) : Bool :=
  let open_ := s.sessions.filter (fun x => x.up && x.d.ports.contains l)
  let r := open_.foldl (fun a x => addRate a x.d.rate) d.rate
  let full := if (s.port (l / 2)).mode = 1 then 200000000000 else 100000000000
  decide (10 * r.1 ≤ 9 * full * r.2)

def SessDesc.sameTuple (d e : SessDesc) : Bool :=
  d.srcIp = e.srcIp && d.dstIp = e.dstIp && d.dport = e.dport && d.pt = e.pt && d.ssrc = e.ssrc

/-- WHY of a refused open, the lowest code that applies; 0 where it is accepted. -/
def State.openWhy (s : State) (desc : DWord) (ctx : Nat) (d : SessDesc) : Nat :=
  if desc.toNat % 128 ≠ 0 || !d.limitsOk then 1
  else if !d.ports.all s.lportUp then 2
  else if !d.ports.all (s.portFits d) then 3
  else if !d.send && s.sessions.any (fun x => x.up && !x.d.send && x.d.sameTuple d) then 4
  else if (s.ctx ctx).slots = 0 then 5
  else 0

/-- Every frame object of a session marked EMPTY, with nothing filled and its reserved words zero (R9, R290). -/
def State.emptyObjects (s : State) (k : Nat) : State :=
  let x := s.session k
  (List.range x.d.nf).foldl (fun st i =>
    let pa := x.d.ring.toNat + 64 * i
    ((st.engineWrite x.ctx (pa + 0x38) (leBytes 8 0)).engineWrite x.ctx (pa + 0xC) (leBytes 4 0)).engineWrite x.ctx pa
      (leBytes 4 (x.d.fmt * 2 ^ 8 + (if x.d.full then 2 ^ 16 else 0)))) s

/-- IGMPv3 reports for a multicast group that a session receives. -/
def State.joinGroup (s : State) (d : SessDesc) : State :=
  if !d.send && isMulticast d.dstIp then d.ports.foldl (fun st l => st.emit (.igmp l d.dstIp d.srcIp true)) s else s

/-- The control word with OPEN: an open session ignores OPEN, and before state RUN it sets REJ. -/
def execSessionOpen (session : Nat) (value : Word) (s : State) : Host.Outcome State Fault Refusal :=
  let x := s.session session
  let ctx := bitsOf value.toNat 0 6
  .next (if 64 ≤ session then s
    else if x.up then s.modSession session (fun x => { x with ctx := ctx, rej := x.rej && !value.getLsbD 28 })
    else if s.dev.stage ≠ 6 then s.modSession session (fun x => { x with rej := true })
    else
      let d := SessDesc.ofBytes (s.peekBytes x.desc.toNat 128)
      let why := s.openWhy x.desc ctx d
      if why ≠ 0 then s.modSession session (fun x => { x with ctx := ctx, rej := true, why := why })
      else
        let y : Session := { Session.fresh with
          desc := x.desc, ctx := ctx, up := true, d := d, slots := List.replicate d.nf .fresh, txSeq := Config.rtpStart session s.clock }
        ((s.modSession session (fun _ => y)).emptyObjects session).joinGroup d)

def execSessionClose (session : Nat) (s : State) : Host.Outcome State Fault Refusal := .next (s.closeSession session)

/-! ### Received packets (R390, R391, R394, R397) -/

/-- rtp90 of R394. -/
def rtp90 (t : Nat) : Word := BitVec.ofNat 32 (t * 9 / 100000)

/-- What a received packet is matched by. -/
def SessDesc.matches_ (d : SessDesc) (l : Nat) (src dst : Word) (dport : BitVec 16) (pt : BitVec 7) (ssrc : Word) : Bool :=
  !d.send && d.ports.contains l && d.dstIp = dst && d.dport = dport && (d.srcIp = 0 || d.srcIp = src) && d.pt = pt && d.ssrc = ssrc

/-- The open session that a packet matches. -/
def State.matchSession (s : State) (p : Session → Bool) : Option Nat :=
  (List.range 64).find? (fun k => (s.session k).up && p (s.session k))

/-- The frame period in whole nanoseconds, rounded up. -/
def SessDesc.periodNs (d : SessDesc) : Nat := ceilDiv (d.rden * 10 ^ 9) (max 1 d.rnum)

/-- The merge of two paths: whether the packet is a later copy, and the numbers then remembered. -/
def Session.merges (x : Session) (seq : Word) (stamp : DWord) : Bool × Session :=
  if x.d.portb = 15 then (false, x)
  else
    let keep := x.seen.filter (fun e => decide (stamp ≤ e.2 + BitVec.ofNat 64 (x.d.pdiff + x.d.periodNs)))
    if keep.any (fun e => e.1 = seq) then (true, { x with seen := keep, merge := x.merge + 1 })
    else (false, { x with seen := keep ++ [(seq, stamp)] })

/-- A segment lies within the frame and holds whole groups from the start of one. -/
def SessDesc.segOk (d : SessDesc) (g : Segment) : Bool :=
  decide (g.line < d.h) && g.first % groupPixels d.fmt = 0 && g.data.length % groupOctets d.fmt = 0
    && decide (g.first / groupPixels d.fmt + g.data.length / groupOctets d.fmt ≤ d.groups)

def natDist (a b : Nat) : Nat := (a - b) + (b - a)

/-- The frame of an RTP timestamp: of those with that media clock, the one nearest the ingress stamp, within NF/2 periods. -/
def SessDesc.frameOf (d : SessDesc) (rtp : Word) (stamp : Nat) : Option Nat :=
  let mid := d.frameFrom stamp
  let cands := (List.range (2 * d.nf + 3)).map (fun i => mid + i - d.nf - 1)
  let ok (f : Nat) : Bool := rtp90 (d.frameTime f) = rtp && decide (2 * natDist (d.frameTime f) stamp * d.rnum ≤ d.nf * d.rden * 10 ^ 9)
  (cands.filter ok).foldl (fun best f => match best with
    | none => some f
    | some b => if natDist (d.frameTime f) stamp < natDist (d.frameTime b) stamp then some f else some b) none

/-- The reads of a session's frames that a condition names completed as far as they can be, in saved crews too (R295, R296). -/
def State.settleReads (s : State) (k : Nat) (want : OpKind → Bool) : State :=
  let mine (p : Pending) : Bool := !p.done && p.kind.session? = some k && want p.kind
  s.crews.foldl (fun st c => c.strands.foldl (fun st t =>
    if t.inflight.any mine then (st.settleStrand c.id t.idx mine).resave c.id t.idx else st) st) s

/-- A receive slot claimed for a frame that does not hold it (R289); reads of the frame before that have all their groups end first. -/
def State.recvClaim (s : State) (k f t : Nat) : State :=
  if (s.session k).claimed f then s else (s.settleReads k (fun _ => true)).claimSlot k f t

/-- The frame's state after a line of it changed at a time (R290). -/
def State.settleFrame (s : State) (k f t : Nat) : State :=
  let s1 := if ((s.session k).slot f).state = 0 then s.setFrameState k f 1 t else s
  let x := s1.session k
  let sl := x.slot f
  if sl.state ≠ 1 then s1
  else
    let ovr (y : Nat) : Bool := (sl.line y).closed || x.d.lineComplete (sl.line y)
    if (List.range x.d.h).all ovr then s1.setFrameState k f (if sl.lines.any (fun l => l.2.closed) then 4 else 2) t else s1

/-- One group of an accepted packet (R291). -/
def State.storeGroup (s : State) (k f y g : Nat) (bs : List Byte) : State :=
  let x := s.session k
  if ((x.slot f).line y).present.contains g then s.modSession k (fun x => { x with dups := x.dups + 1 })
  else
    (s.engineWrite x.ctx (x.groupAt f y g) bs).modSlot k f (fun sl => sl.modLine y (fun l => { l with present := insertNat g l.present }))

/-- Whether a packet's segment is for a CLOSED line (R291): one stamped at or after the deadline of a line that was not COMPLETE by then,
whose close counts as taking place at the deadline. -/
def Session.lineLate (x : Session) (f y : Nat) (stamp : DWord) : Bool :=
  decide (x.d.deadline f y ≤ stamp.toNat) && (((x.slot f).line y).closed || !x.d.lineComplete ((x.slot f).line y))

/-- A segment's groups, when its line still takes them. A packet stamped before the deadline never meets a CLOSED line (R291): the port
has handed it over before the close, so nothing is stored or counted for one that an event names later. -/
def State.storeSegment (s : State) (k f : Nat) (stamp : DWord) (g : Segment) : State :=
  let d := (s.session k).d
  let n := groupOctets d.fmt
  if ((((s.session k).slot f).line g.line).closed) || (s.session k).lineLate f g.line stamp then s
  else
    (List.range (g.data.length / n)).foldl (fun st i =>
      st.storeGroup k f g.line (g.first / groupPixels d.fmt + i) ((g.data.drop (i * n)).take n)) s

/-- Whether a packet has a segment for a CLOSED line. -/
def Session.lateFor (x : Session) (f : Nat) (p : VideoPacket) : Bool := p.segs.any (fun g => x.lineLate f g.line p.stamp)

/-- A packet accepted by a session (R291, R394). -/
def State.takeVideo (s : State) (k : Nat) (p : VideoPacket) : State :=
  let late (s : State) : State := s.modSession k (fun x => { x with late := x.late + 1 })
  let x := s.session k
  match x.d.frameOf p.rtp p.stamp.toNat with
  | none => late s
  | some f =>
    if x.passedBy f then late s
    else
      let s1 := s.recvClaim k f s.clock.toNat
      let was := (s1.session k).lateFor f p
      let all_ := p.segs.all (fun g => (((s1.session k).slot f).line g.line).closed || (s1.session k).lineLate f g.line p.stamp)
      let s2 := p.segs.foldl (fun st g => st.storeSegment k f p.stamp g) s1
      let s3 := if all_ then s2 else s2.settleFrame k f s.clock.toNat
      if was then late s3 else s3

/-- A port hands a packet over: the stamp that it put on it no longer holds back a line's close (R291). -/
def State.handOver (s : State) (l : Nat) (stamp : DWord) : State := s.modLport l (fun x => { x with ingress := x.ingress.erase stamp })

def execVideoPacketReceive (lport : Nat) (pkt : VideoPacket) (s : State) : Host.Outcome State Fault Refusal :=
  .next (if !s.lportUp lport then s
    else
      let s1 := (s.handOver lport pkt.stamp).countRecv lport
      if !pkt.sumOk then s1.countDrop lport
      else match s1.matchSession (fun x => !x.d.opaque_ && x.d.matches_ lport pkt.srcIp pkt.dstIp pkt.dport pkt.pt pkt.ssrc) with
        | none => s1.countDrop lport
        | some k =>
          let (copy, x) := (s1.session k).merges pkt.seq pkt.stamp
          let s2 := s1.modSession k (fun _ => x)
          if copy then s2
          else if pkt.segs.isEmpty || 3 < pkt.segs.length || !pkt.segs.all x.d.segOk then s2.countDrop lport
          else s2.takeVideo k pkt)

/-- A packet of an opaque session stored as a record (R399). -/
def execOpaquePacketReceive (lport : Nat) (pkt : RtpPacket) (s : State) : Host.Outcome State Fault Refusal :=
  .next (if !s.lportUp lport then s
    else
      let s1 := (s.handOver lport pkt.stamp).countRecv lport
      if !pkt.sumOk then s1.countDrop lport
      else match s1.matchSession (fun x => x.d.opaque_ && x.d.matches_ lport pkt.srcIp pkt.dstIp pkt.dport pkt.pt pkt.ssrc) with
        | none => s1.countDrop lport
        | some k =>
          let (copy, x) := (s1.session k).merges pkt.seq pkt.stamp
          let s2 := s1.modSession k (fun _ => x)
          if copy then s2
          else if x.d.pitch < pkt.payload.length + 16 then s2.countDrop lport
          else
            let at_ := x.d.store.toNat + x.packets % (x.d.nf * x.d.h) * x.d.pitch
            let bs := leBytes 8 pkt.stamp.toNat ++ leBytes 4 pkt.payload.length ++ leBytes 4 pkt.rtp.toNat ++ pkt.payload
            (s2.engineWrite x.ctx at_ bs).modSession k (fun x => { x with packets := x.packets + 1 }))

/-! ### Closing lines (R291) -/

/-- The octets that fill a group of a received line. -/
def State.fillGroup (s : State) (k f y g : Nat) : List Byte :=
  let x := s.session k
  let n := groupOctets x.d.fmt
  let const_ := x.d.fillg.take n
  match x.d.fillm with
  | 0 => if y = 0 then const_ else s.peekBytes (x.groupAt f (y - 1) g) n
  | 1 => if f ≠ 0 && x.claimed (f - 1) then s.peekBytes (x.groupAt (f - 1) y g) n else const_
  | _ => const_

/-- Every missing group of a line filled. -/
def State.fillLineGroups (s : State) (k f y : Nat) : State :=
  let x := s.session k
  let l := (x.slot f).line y
  let miss := (List.range x.d.groups).filter (fun g => !l.present.contains g)
  let s1 := miss.foldl (fun st g => st.engineWrite x.ctx (x.groupAt f y g) (st.fillGroup k f y g)) s
  let s2 := s1.modSlot k f (fun sl => sl.modLine y (fun l => { l with filled := miss, closed := true }))
  (s2.modSession k (fun x => { x with fills := x.fills + BitVec.ofNat 32 miss.length })).writeFilled k f

/-- Whether a line may close: it is neither complete nor closed, and every line above it is. -/
def Session.mayClose (x : Session) (f y : Nat) : Bool :=
  let sl := x.slot f
  let ovr (y : Nat) : Bool := (sl.line y).closed || x.d.lineComplete (sl.line y)
  x.claimed f && decide (y < x.d.h) && !ovr y && (List.range y).all ovr

/-- Whether the receive path claims a slot at D(s, 0): the frame is not claimed, and its time is now. -/
def Session.dueNow (x : Session) (f now : Nat) : Bool :=
  !x.claimed f && !x.passedBy f && decide (x.d.deadline f 0 ≤ now) && decide (now < x.d.deadline (f + 1) 0)

/-- Whether the session's ports have handed over every packet that they stamped below a time (R291). -/
def State.handedOver (s : State) (x : Session) (t : Nat) : Bool :=
  x.d.ports.all (fun l => (s.lport l).ingress.all (fun i => decide (t ≤ i.toNat)))

/-- A line closed: its missing groups are filled, its frame's state follows, and every `srd` of the line completes (R291, R296). -/
def State.closeLine (s : State) (k f y : Nat) : State :=
  ((s.fillLineGroups k f y).settleFrame k f ((s.session k).d.deadline f y)).settleReads k (fun o => match o with
    | .srd _ f' y' .. => f' = f && y' = y
    | .srdt _ f' .. => f' = f
    | _ => false)

/-- A line closes at D(s, y), once the packets stamped below it are handed over. -/
def execLineClose (session frame line : Nat) (s : State) : Host.Outcome State Fault Refusal :=
  let x := s.session session
  let t := x.d.deadline frame line
  .next (if !x.up || x.d.send || x.d.opaque_ || s.clock.toNat < t || !s.handedOver x t then s
    else
      let s1 := if line = 0 && x.dueNow frame s.clock.toNat then s.recvClaim session frame (x.d.deadline frame 0) else s
      if (s1.session session).mayClose frame line then s1.closeLine session frame line else s1)

/-! ### Sending (R398, R299, R417) -/

/-- The octets of a line that is sent from fill: the line above as it was sent, the frame before, or the constant group. -/
def State.sendFill (s : State) (x : Session) (f y : Nat) (sent : List (Nat × List Byte)) : List Byte :=
  let n := x.d.lineOctets
  let const_ := (List.replicate x.d.groups (x.d.fillg.take (groupOctets x.d.fmt))).flatten
  match x.d.fillm with
  | 0 => if y = 0 then const_ else (smapGet sent (y - 1)).getD const_
  | 1 => if f ≠ 0 && x.claimed (f - 1) then s.peekBytes (x.storeAt (f - 1) y) n else const_
  | _ => const_

/-- The octets of a line of a substituted frame: those of the frame last sent, or fill groups. -/
def Session.substLine (x : Session) (y : Nat) : List Byte :=
  ((x.lastOut.bind (fun o => smapGet o y))).getD ((List.replicate x.d.groups (x.d.fillg.take (groupOctets x.d.fmt))).flatten)

/-- The frame a send session transmits next: of those claimed and not yet sent or held, the one whose first packet is due first. -/
def Session.nextSend (x : Session) : Option Nat :=
  let fs := x.slots.filterMap (fun sl => match sl.frame with
    | some f => if sl.state < 3 && !x.held.contains f then some f else none
    | none => none)
  fs.foldl (fun best f => match best with
    | none => some f
    | some b => if lexLe [x.packetTime b 0, b] [x.packetTime f 0, f] then some b else some f) none

/-- Late-frame substitution claims the slots it waits for (R417). -/
def State.claimSubst (s : State) (k : Nat) : State :=
  let x := s.session k
  match x.substQ with
  | [] => s
  | f :: rest =>
    let done (s : State) : State := s.modSession k (fun x => { x with substQ := rest })
    if x.passedBy f then done s
    else
      let s1 := s.sendClaim k f
      if (s1.session k).claimed f then
        (done s1).modSlot k f (fun sl => if 3 ≤ sl.state then sl else { sl with subst := true })
      else s

/-- The line of a packet readied at its send time: its octets, and how it is sent. -/
def State.beginLine (s : State) (k f y : Nat) (sd : Sending) : State × Sending :=
  let x := s.session k
  let sl := x.slot f
  let marked := (sl.line y).marked
  let bs := if sl.subst then x.substLine y else if marked then s.peekBytes (x.storeAt f y) x.d.lineOctets else s.sendFill x f y sd.sent
  let code := if sl.subst || marked then 2 else 3
  let s1 := s.modSlot k f (fun sl => sl.modLine y (fun l => { l with sent := code }))
  let s2 := if code = 3 then (s1.modSession k (fun x => { x with fills := x.fills + 1 })).writeFilled k f else s1
  (s2, { sd with sent := smapSet sd.sent y bs })

/-- The last packet of a frame has left. -/
def State.endFrame (s : State) (k f : Nat) (sd : Sending) : State :=
  let sl := (s.session k).slot f
  let code := if sl.subst || sl.lines.any (fun l => l.2.sent = 3) then 4 else 3
  (s.setFrameState k f code s.clock.toNat).modSession k (fun x => { x with sending := none, lastOut := some sd.sent, lastSent := some f })

/-- A packet's copies leave on every port that is up, with the session's extended sequence number (R397, R398). -/
def State.sendVideo (s : State) (k : Nat) (rtp : Word) (line first : Nat) (marker : Bool) (data : List Byte) : State :=
  let x := s.session k
  ((x.d.ports.filter s.lportUp).foldl (fun st l =>
    (st.emit (.video k l s.clock x.txSeq rtp line first marker data)).countSent l) s).modSession k (fun x => { x with txSeq := x.txSeq + 1 })

/-- The next packet of a send session, when its time has come. -/
def execPacketTransmit (session : Nat) (s : State) : Host.Outcome State Fault Refusal :=
  let s0 := s.claimSubst session
  let x := s0.session session
  let cur := match x.sending with
    | some sd => some sd
    | none => x.nextSend.map (fun f => ({ frame := f, next := 0, sent := [] } : Sending))
  .next (if !x.up || !x.d.send || x.d.opaque_ then s
    else match cur with
    | none => s0
    | some sd =>
      let f := sd.frame
      if s.clock.toNat < x.packetTime f sd.next then s0
      else
        let y := sd.next / x.d.perLine
        let i := sd.next % x.d.perLine
        let (s1, sd1) := if i = 0 then s0.beginLine session f y sd else (s0, sd)
        let n := groupOctets x.d.fmt
        let g := i * x.d.perPacket
        let data := (((smapGet sd1.sent y).getD []).drop (g * n)).take (x.d.perPacket * n)
        let last := sd.next + 1 = x.d.framePackets
        let s2 := s1.sendVideo session (rtp90 (x.timesOf f).1.toNat) y (g * groupPixels x.d.fmt) last data
        let sd2 : Sending := { sd1 with next := sd.next + 1 }
        if last then s2.endFrame session f sd2 else s2.modSession session (fun x => { x with sending := some sd2 }))

/-- SSTAT (R396): UP, DIR, the state of the frame claimed last, and that of its lowest line short of its last state. -/
def Session.sstat (x : Session) : Word :=
  let ended (c : Nat) : Bool := decide (2 ≤ c)
  let (frame, line) : Nat × Nat := match x.latest with
    | none => (0, 0)
    | some f =>
      let codes := (List.range x.d.h).map (x.lineCode f)
      ((x.slot f).state, (codes.find? (fun c => !ended c)).getD (codes.getLastD 0))
  BitVec.ofNat 32 (frame + 2 ^ 3 * line + (if x.d.send then 2 ^ 6 else 0) + (if x.up then 2 ^ 8 else 0))

/-- The next record of an opaque send session, when its RTP time is reached (R399). -/
def execOpaqueTransmit (session : Nat) (s : State) : Host.Outcome State Fault Refusal :=
  let x := s.session session
  let at_ := x.d.store.toNat + x.packets % (x.d.nf * x.d.h) * x.d.pitch
  let len := s.peek (at_ + 8) 4
  let rtp : Word := BitVec.ofNat 32 (s.peek (at_ + 12) 4)
  .next (if !x.up || !x.d.send || !x.d.opaque_ || len = 0 || decide (x.d.pitch < len + 16) || 2 ^ 31 ≤ (rtp90 s.clock.toNat - rtp).toNat then s
    else
      let data := s.peekBytes (at_ + 16) len
      let s1 := (x.d.ports.filter s.lportUp).foldl (fun st l => (st.emit (.opaque session l s.clock x.txSeq rtp data)).countSent l) s
      s1.modSession session (fun x => { x with packets := x.packets + 1, txSeq := x.txSeq + 1 }))

end Sys2Proof.Machine
end

