-- ==== Sys2Proof/Machine/LinkEvents.lean ====
section
/-! DEFINITION. Llynad datagrams and paths (spec/18_ports_collectives_and_genlock.md R400 to R402, R407): reception in order,
acknowledgement, resending, failure and relaying. What a path cannot deliver now waits in its sender. -/

namespace Sys2Proof.Machine

/-! ### A program's traffic (R402, R407) -/

/-- One datagram of a program to a peer: striped over the healthy paths, through a relay when there is none, or on the one path
that determinism mode keeps. The flag says whether it went out. -/
def State.progSend (s : State) (k peer kind : Nat) (h : LlyHeader) (data : List Byte) : Bool × State :=
  match s.prog? k with
  | none => (false, s)
  | some pr => match s.progRoute pr peer (h.msg.toNat + h.param.toNat / 8192) with
    | .by l v => (true, s.sendOn l v kind h data pr.det)
    | .held => (false, s.holdTraffic k peer)
    | .failed => (false, s.endProg k psLinkFail true)
    | .away => (false, s)

/-- The next row load of a captured message is asked for. -/
def State.askRow (s : State) (k : Nat) (m : OutMsg) : State :=
  match s.prog? k with
  | none => s
  | some pr =>
    let (ok, s1) := s.progSend k m.peer kREQ (s.llyHeader m.peer pr.tag (BitVec.ofNat 32 m.num) 0 0 (BitVec.ofNat 64 m.sent)) []
    if !ok then s1
    else match s1.prog? k with
      | none => s1
      | some p => s1.setProg k (some { p with out := modWhere p.out (fun x => x.peer = m.peer && x.num = m.num) (fun x => { x with asked := true }) })

/-- The first message of a program to each peer: the messages to one peer go out one after the other (assumption 87). -/
def CProg.nextOut (pr : CProg) : List OutMsg :=
  pr.out.filter (fun m => (pr.out.find? (fun x => x.peer = m.peer)).map OutMsg.num = some m.num)

/-- The next message of a program to each peer, when it has no request under way, asks for its next row. -/
def State.pump (s : State) (k : Nat) : State :=
  match s.prog? k with
  | none => s
  | some pr => (pr.nextOut.filter (fun m => !m.asked && m.peer ≠ s.lly.rank)).foldl (fun st m => st.askRow k m) s

/-- A GRANT that could not go before goes now; a program in determinism mode whose path has failed ends (R407). -/
def State.retryGrant (s : State) (row : Nat) : State :=
  let r := s.lly.rows.getD row .fresh
  match (if r.told then none else r.owner) with
  | none => s
  | some (src, tag, _) => match (s.programOf tag).bind (fun k => (s.prog? k).map (fun pr => (k, pr))) with
    | none => s
    | some (k, pr) => match s.progRoute pr src 0 with
      | .failed => s.endProg k psLinkFail true
      | _ => s.tellGrant row

/-- What programs can send now is sent: rows asked for, and GRANTs that waited. -/
def State.pumpAll (s : State) : State :=
  let s1 := (List.range 32).foldl (fun st k => match st.prog? k with
    | some pr => if pr.out.isEmpty then st else st.pump k
    | none => st) s
  (List.range 128).foldl State.retryGrant s1

/-! ### Reception (R390, R401) -/

/-- A datagram of a peer on a logical port that the peer table allows, with a right header checksum (R390). -/
def State.llyAccepts (s : State) (l : Nat) (h : LlyHeader) : Bool :=
  s.dev.stage = 6 && h.sumOk && s.lportUp l && (s.port (l / 2)).llyn && (s.lly.peers.getD h.via .fresh).mask.getLsbD l

/-- Sequence numbers compare modulo 2^32: a is after b. -/
def seqAfter (a b : Word) : Bool := a ≠ b && decide ((a - b).toNat < 2 ^ 31)

/-- A cumulative acknowledgement: progress clears the count of resends, and a failed path returns to service. -/
def LPath.acknowledge (p : LPath) (a : Word) : LPath :=
  let rest := p.unacked.filter (fun d => seqAfter d.hdr.seq a)
  let progress := rest.length < p.unacked.length
  { p with unacked := if progress then rest.map (fun d => { d with tries := 0 }) else rest, failed := false }

/-- An acknowledgement leaves at once; it takes no sequence number. -/
def State.sendAck (s : State) (l peer rport : Nat) : State :=
  let p := s.path peer l rport
  (s.emit (.llynad l kACK { s.llyHeader peer 0 0 0 0 0 with seq := p.txSeq, ackSeq := p.rxSeq, rport := l } [])).countSent l

/-- A datagram received: its acknowledgement is taken, and a new one that is next in its path's order is given to the engine, or
relayed to the module it is for; duplicates and gaps are only acknowledged. -/
def State.receiveLly (s : State) (l kind : Nat) (h : LlyHeader) (data : List Byte) (f : State → State) : State :=
  if !s.llyAccepts l h then (if s.lportUp l then (s.countRecv l).countDrop l else s)
  else
    let s1 := (s.countRecv l).learnPort h.via l h.rport
    let p := (s1.path h.via l h.rport).acknowledge h.ackSeq
    let s2 := s1.setPath p
    if kind = kACK then s2.pumpAll
    else if h.seq ≠ p.rxSeq + 1 then s2.sendAck l h.via h.rport
    else
      let s3 := (s2.setPath { p with rxSeq := h.seq }).sendAck l h.via h.rport
      (if h.dst = s.lly.rank then f s3 else s3.sendLly h.dst kind h data).pumpAll

/-! ### Kinds (R400, R402, R405) -/

/-- Whether a row is kept for a message. -/
def Row.isFor (r : Row) (h : LlyHeader) : Bool := r.owner = some (h.src, h.tag, h.msg)

/-- Whether two requests ask for the same row load. -/
def sameLoad (a b : LlyHeader) : Bool := a.src = b.src && a.tag = b.tag && a.msg = b.msg && a.param = b.param

/-- A request waits in the order of R402, to be granted a row of its program's engine. One already granted is answered again, and one
already waiting waits on. -/
def execLlynadReq (lport : Nat) (hdr : LlyHeader) (s : State) : Host.Outcome State Fault Refusal :=
  .next (s.receiveLly lport kREQ hdr [] (fun s =>
    match s.lly.rows.findIdx? (fun r => r.isFor hdr && r.off = hdr.param.toNat && r.data.isNone) with
    | some row => s.tellGrant row
    | none =>
      if s.lly.reqs.any (fun q => sameLoad q.2.2 hdr) then s
      else s.queueReq (s.cycle, lport, hdr)))

/-- The data of a message for a granted row: the next 8 KiB from what has been sent. -/
def execLlynadGrant (lport : Nat) (hdr : LlyHeader) (s : State) : Host.Outcome State Fault Refusal :=
  .next (s.receiveLly lport kGRANT hdr [] (fun s =>
    match s.programOf hdr.tag with
    | none => s
    | some k => match s.prog? k with
      | none => s
      | some pr => match pr.out.find? (fun m => m.peer = hdr.src && m.num = hdr.msg.toNat && m.asked) with
        | none => s
        | some m =>
          let part := (m.data.drop m.sent).take 8192
          let n := ceilDiv part.length 256
          let bytes := part ++ List.replicate (256 * n - part.length) 0
          let (ok, s1) := s.progSend k m.peer kDATA (s.llyHeader m.peer pr.tag hdr.msg hdr.row n (BitVec.ofNat 64 m.sent)) bytes
          if !ok then s1
          else match s1.prog? k with
            | none => s1
            | some p =>
              let sent := m.sent + part.length
              let same (x : OutMsg) : Bool := x.peer = m.peer && x.num = m.num
              let out := if m.data.length ≤ sent then p.out.filter (fun x => !same x) else modWhere p.out same (fun x => { x with sent := sent, asked := false })
              s1.setProg k (some { p with out := out })))

/-- Data lands in the row granted to its message; a message longer than a chunk ends the receiving program. -/
def execLlynadData (lport : Nat) (hdr : LlyHeader) (flits : List Byte) (s : State) : Host.Outcome State Fault Refusal :=
  .next (s.receiveLly lport kDATA hdr flits (fun s =>
    let off := hdr.param.toNat
    let long : Option Nat := match s.programOf hdr.tag with
      | some k => match s.prog? k with
        | some pr => if pr.csize < off + flits.length then some k else none
        | none => none
      | none => none
    match long with
    | some k => s.endProg k psBadProg true
    | none =>
      if flits.length ≠ 256 * hdr.nflit || 32 < hdr.nflit || !((s.lly.rows.getD hdr.row .fresh).isFor hdr) then s
      else { s with lly := { s.lly with rows := modAt s.lly.rows hdr.row (fun r => { r with data := some (off, flits) }) } }))

def execLlynadAck (lport : Nat) (hdr : LlyHeader) (s : State) : Host.Outcome State Fault Refusal :=
  .next (s.receiveLly lport kACK hdr [] id)

/-- SIG adds 1 to a counter of the context that runs the tag. -/
def execLlynadSig (lport : Nat) (hdr : LlyHeader) (s : State) : Host.Outcome State Fault Refusal :=
  .next (s.receiveLly lport kSIG hdr [] (fun s =>
    match s.programOf hdr.tag with
    | some k => match s.prog? k with
      | some pr => s.addTc pr.ctx (hdr.param.toNat % 8) 1
      | none => s
    | none => s))

def execLlynadAbt (lport : Nat) (hdr : LlyHeader) (s : State) : Host.Outcome State Fault Refusal :=
  .next (s.receiveLly lport kABT hdr [] (fun s =>
    match s.programOf hdr.tag with
    | some k => s.endProg k psAborted true
    | none => s))

/-! ### Resending and failure (R401, R407) -/

/-- Programs with a datagram on a path. -/
def State.progsOn (s : State) (p : LPath) : List Nat :=
  (List.range 32).filter (fun k => match s.prog? k with
    | some pr => p.unacked.any (fun d => !d.moved && d.hdr.src = s.lly.rank && d.hdr.tag = pr.tag)
    | none => false)

/-- One datagram of a failed path sent again another way; it stays on the path, marked, when it went. One that its program's determinism
mode keeps to its path takes no other, although the program has ended (R407). -/
def State.moveDatagram (s : State) (p : LPath) (d : Datagram) : State :=
  let (ok, s1) : Bool × State :=
    if d.fixed then (false, s)
    else match (if d.hdr.src = s.lly.rank then s.programOf d.hdr.tag else none) with
    | some k => s.progSend k d.hdr.dst d.kind d.hdr d.data
    | none => (!(s.healthyPorts d.hdr.dst).isEmpty || (s.relayRank (s.relayMembers d.kind d.hdr.tag) d.hdr.dst).isSome, s.sendLly d.hdr.dst d.kind d.hdr d.data)
  if !ok then s1
  else
    let q := s1.path p.peer p.lport p.rport
    s1.setPath { q with unacked := modWhere q.unacked (fun x => x.hdr.seq = d.hdr.seq) (fun x => { x with moved := true }) }

/-- A path fails: one record for each program with traffic on it, the end of those in determinism mode, and the rest sent
another way. -/
def State.failPath (s : State) (p : LPath) : State :=
  let ks := s.progsOn p
  let s1 := s.setPath { p with failed := true, retryAt := s.clock + 10000000 }
  let s2 := ks.foldl (fun st k => match st.prog? k with
    | some pr =>
      let st1 := st.tryEvent pr.ctx (linkRecord pr p.peer p.lport p.rport false)
      if pr.det then st1.endProg k psLinkFail true else st1
    | none => st) s1
  (p.unacked.filter (fun d => !d.moved)).foldl (fun st d => st.moveDatagram p d) s2

/-- The unacknowledged datagrams of a path that a condition names leave again. -/
def State.resendPath (s : State) (p : LPath) (due : Datagram → Bool) : State :=
  let s1 := s.setPath { p with unacked := modWhere p.unacked due (fun d => { d with sent := s.clock, tries := d.tries + 1 }) }
  (p.unacked.filter due).foldl (fun st d => (st.emit (.llynad p.lport d.kind { d.hdr with ackSeq := p.rxSeq } d.data)).countSent p.lport) s1

/-- Whether a datagram has been unacknowledged for 20 µs since it last left (R401). -/
def State.resendDue (s : State) (d : Datagram) : Bool := decide (d.sent + 20000 ≤ s.clock)

/-- Each datagram leaves again 20 µs after a send without acknowledgement; after eight resends without progress the path fails. -/
def execLlynadResend (peer lport rport : Nat) (s : State) : Host.Outcome State Fault Refusal :=
  let p := s.path peer lport rport
  .next (if p.failed || !p.unacked.any s.resendDue then s
    else if p.unacked.any (fun d => s.resendDue d && decide (8 ≤ d.tries)) then s.failPath p
    else s.resendPath p s.resendDue)

/-- A failed path is tried every 10 ms: what it still owes leaves again, or an acknowledgement when it owes nothing. -/
def execLlynadPathRetry (peer lport rport : Nat) (s : State) : Host.Outcome State Fault Refusal :=
  let p := s.path peer lport rport
  .next (if !p.failed || s.clock < p.retryAt then s
    else
      let q : LPath := { p with retryAt := s.clock + 10000000 }
      if q.unacked.isEmpty then (s.setPath q).sendAck lport peer rport else s.resendPath q (fun _ => true))

/-- The datagrams to a peer that wait on failed paths sent the way now known. -/
def State.rerouteTo (s : State) (peer : Nat) : State :=
  (s.lly.paths.filter (fun p => p.failed)).foldl (fun st p =>
    (p.unacked.filter (fun d => !d.moved && d.hdr.dst = peer)).foldl (fun st d => st.moveDatagram p d) st) s

/-- RELAY: the host routes the held traffic through a member, or ends the programs with LINKFAIL. -/
def execRelayWrite (ctx : Nat) (value : Word) (s : State) : Host.Outcome State Fault Refusal :=
  let v := value.toNat % 256
  .next (if !s.managed ctx then s
    else
      let s1 := s.modCtx ctx (fun x => { x with relay := value })
      let ks := (List.range 32).filter (fun k => match s1.prog? k with | some p => p.ctx = ctx && p.held.isSome | none => false)
      (ks.foldl (fun st k => match st.prog? k with
        | none => st
        | some pr =>
          if v = 0xFF then st.endProg k psLinkFail true
          else match (st.group pr.group).members[v]?, pr.held with
            | some r, some peer => (st.setProg k (some { pr with held := none, routes := smapSet pr.routes peer r })).rerouteTo peer
            | _, _ => st) s1).pumpAll)

end Sys2Proof.Machine
end

