-- ==== Sys2Proof/Machine/CollectiveEvents.lean ====
section
/-! DEFINITION. Collective programs (spec/18_ports_collectives_and_genlock.md R403 to R406) and trigger counters and actions
(R408 to R410). A step's event performs the program's current step when it is of that kind. -/

namespace Sys2Proof.Machine

/-! ### Step words (R404) -/

/-- A data step's fields. -/
structure CStep where
  op   : Nat
  pm   : Nat
  poff : Nat
  qm   : Nat
  qoff : Nat
  a    : Nat
  b    : Nat
  cb   : Int
  ls   : Nat
  lm   : Int
  rm   : Int
  low  : Nat
  deriving DecidableEq, Repr

def CStep.ofWord (w : Nat) : CStep :=
  { op := bitsOf w 60 4, pm := bitsOf w 58 2, poff := bitsOf w 52 6, qm := bitsOf w 50 2, qoff := bitsOf w 44 6, a := bitsOf w 42 2,
    b := bitsOf w 40 2, cb := sextInt (bitsOf w 28 12) 12, ls := bitsOf w 26 2, lm := sextInt (bitsOf w 22 4) 4,
    rm := sextInt (bitsOf w 18 4) 4, low := bitsOf w 0 18 }

/-- Whether a step word is well formed for a member of a group of N. -/
def stepWordOk (w m n nsteps ty : Nat) : Bool :=
  let x := CStep.ofWord w
  let p := decide (peerIndex x.pm x.poff m n < n)
  let q := decide (peerIndex x.qm x.qoff m n < n)
  let noQ := bitsOf w 44 8 = 0
  let noP := bitsOf w 52 8 = 0
  let chunk := x.low = 0
  match x.op with
  | 0 => w % 2 ^ 60 = 0
  | 1 => p && noQ && x.a ≠ 3 && x.b = 0 && chunk
  | 2 => p && noQ && x.a = 0 && x.b ≠ 3 && chunk
  | 3 => p && q && x.a ≠ 3 && x.b ≠ 3 && chunk && ty ≠ 0
  | 4 => noP && noQ && x.a ≠ 3 && x.b ≠ 3 && chunk
  | 5 => w % 2 ^ 60 = 0
  | 6 => bitsOf w 28 32 = 0 && bitsOf w 24 2 = 0 && bitsOf w 12 12 ≠ 0 && decide (bitsOf w 0 12 < nsteps)
  | 7 => p && bitsOf w 3 49 = 0
  | _ => false

/-! ### Buffers (R405) -/

def CProg.buffer (p : CProg) (x : Nat) : Nat := (match x with | 0 => p.src | 1 => p.dst | _ => p.scr).toNat

/-- The address of the chunk that a step names in a buffer. -/
def CProg.chunk (p : CProg) (m : Nat) (x : CStep) (buf : Nat) : Nat :=
  let i : Int := (x.cb + x.lm * ((p.loops.getD x.ls 0 : Nat) : Int) + x.rm * (m : Int)) % ((max 1 p.nch : Nat) : Int)
  p.buffer buf + i.toNat * p.csize

/-- Whether every page of a range has a permission and is resident. -/
def State.rangeOk (s : State) (ctx va n : Nat) (perm : DWord → Bool) : Bool :=
  n = 0 || (List.range ((va + n - 1) / 2 ^ 14 - va / 2 ^ 14 + 1)).all (fun i => (s.tablePa ctx ((va / 2 ^ 14 + i) * 2 ^ 14) perm).isSome)

/-- Bytes of a range, page by page; none when a page is absent or refused. -/
def State.readVirtual (s : State) (ctx va n : Nat) : Option (List Byte) :=
  if !s.rangeOk ctx va n pteR then none
  else some ((List.range (if n = 0 then 0 else (va + n - 1) / 2 ^ 14 - va / 2 ^ 14 + 1)).flatMap (fun i =>
    let lo := max va ((va / 2 ^ 14 + i) * 2 ^ 14)
    let hi := min (va + n) ((va / 2 ^ 14 + i + 1) * 2 ^ 14)
    match s.tablePa ctx lo pteR with
    | some pa => s.peekBytes pa (hi - lo)
    | none => []))

/-- A chunk read for a program; none ends it with PAGE. -/
def State.readChunk (s : State) (pr : CProg) (va n : Nat) : Option (List Byte × State) :=
  (s.readVirtual pr.ctx va n).map (fun bs => (bs, s.noteBad pr va n))

/-- Bytes written for a program; none ends it with PAGE. -/
def State.writeChunk (s : State) (pr : CProg) (va : Nat) (bs : List Byte) : Option State :=
  if s.rangeOk pr.ctx va bs.length pteW then some (s.writeVirtual pr.ctx va bs (bs.length / 2 ^ 14 + 2)) else none

/-! ### Reduction (R406) -/

/-- One element of two terms. -/
def reduceElem (ty rop a b : Nat) : Nat :=
  let float (f : Fmt) : Nat :=
    if rop = 0 then
      let x := numAdd rne (decodeFmt f a) (decodeFmt f b)
      (roundFmt f rne false 0 x.val).code
    else (minMaxCode (rop = 1) f a b).code
  match ty with
  | 1 => float fmtFp32
  | 2 => float fmtFp16
  | 3 => float fmtBf16
  | _ =>
    let x := sextInt a 32
    let y := sextInt b 32
    wrapNat (if rop = 0 then x + y else if rop = 1 then max x y else min x y) 32

/-- Bytes of an element of a type. -/
def reduceWidth (ty : Nat) : Nat := if ty = 2 || ty = 3 then 2 else 4

def reduceBytes (ty rop : Nat) (a b : List Byte) : List Byte :=
  let w := reduceWidth ty
  (List.range (b.length / w)).flatMap (fun i => leBytes w (reduceElem ty rop (leAt a (w * i) w) (leAt b (w * i) w)))

/-! ### Steps (R405) -/

/-- A step has ended. -/
def State.advance (s : State) (k : Nat) : State :=
  match s.prog? k with
  | none => s
  | some pr =>
    if pr.pc + 1 = pr.nsteps then s.endProg k psBadProg true else (s.setProg k (some { pr with pc := pr.pc + 1 })).fetchStep k

/-- The program's current step, when it is of a kind; a program that cannot go on ends. -/
def State.onStep (s : State) (k op : Nat) (f : CProg → Nat → CStep → State) : State :=
  match s.prog? k with
  | none => s
  | some pr => match pr.ending with
    | some st => s.endProg k st true
    | none => match s.tablePa pr.ctx (pr.steps.toNat + 8 * pr.pc) pteR with
      | none => s.endProg k psPage true
      | some pa =>
        let w := s.peek pa 8
        if !stepWordOk w (s.group pr.group).myIdx (s.groupSize pr) pr.nsteps pr.ty then s.endProg k psBadProg true
        else if bitsOf w 60 4 = op then f pr w (CStep.ofWord w) else s

/-- A message captured: it takes its number and asks for its first row. A chunk of no bytes has no loads to send. -/
def State.capture (s : State) (k peer : Nat) (data : List Byte) : State :=
  match s.prog? k with
  | none => s
  | some pr =>
    let n := (smapGet pr.txNum peer).getD 0
    let m : OutMsg := { peer := peer, num := n, data := data, sent := 0, asked := false }
    s.setProg k (some { pr with txNum := smapSet pr.txNum peer (n + 1), out := if data.isEmpty then pr.out else pr.out ++ [m] })

def execCollSend (prog : Nat) (s : State) : Host.Outcome State Fault Refusal :=
  .next (s.onStep prog 1 (fun pr _ x =>
    let va := pr.chunk (s.group pr.group).myIdx x x.a
    match s.readChunk pr va pr.csize with
    | none => s.endProg prog psPage true
    | some (bs, s1) => ((s1.capture prog (s1.peerRank pr x.pm x.poff) bs).advance prog).pump prog))

/-- The part of the awaited message that has landed next: its bytes and what is released with it. -/
def State.landed (s : State) (pr : CProg) (peer num : Nat) (got : Nat) : Option (List Byte × State) :=
  if peer = s.lly.rank then
    match pr.out.find? (fun m => m.peer = peer && m.num = num) with
    | some m => some (m.data.drop got, s)
    | none => none
  else
    let own : Option (Nat × Word × Word) := some (peer, pr.tag, BitVec.ofNat 32 num)
    let here (r : Row) : Bool := r.owner = own && (match r.data with | some (o, _) => o = got | none => false)
    match s.lly.rows.find? here with
    | some r => some ((r.data.map Prod.snd).getD [], s.releaseRows here)
    | none => none

/-- The awaited message has come whole: the step ends, and RRS sends what it formed. -/
def State.endReceive (s : State) (k peer num : Nat) (forward : Option Nat) : State :=
  match s.prog? k with
  | none => s
  | some pr =>
    let out := if peer = s.lly.rank then pr.out.filter (fun m => !(m.peer = peer && m.num = num)) else pr.out
    let s1 := s.setProg k (some { pr with rxNum := smapSet pr.rxNum peer (num + 1), got := [], out := out })
    let s2 := match forward with | some q => s1.capture k q pr.got | none => s1
    (s2.advance k).pump k

/-- A load of a later message has come and none of the awaited one is under way: the awaited message ended early (R405; assumption 87: the
messages to one peer go out one after the other). -/
def State.overtaken (s : State) (pr : CProg) (peer num : Nat) : Bool :=
  let loads := s.lly.rows.filterMap Row.owner ++ s.lly.reqs.map (fun q => (q.2.2.src, q.2.2.tag, q.2.2.msg))
  let mine := loads.filter (fun o => o.1 = peer && o.2.1 = pr.tag)
  !mine.isEmpty && mine.all (fun o => seqAfter o.2.2 (BitVec.ofNat 32 num))

/-- RECV and RRS: rows are written as they land, each released when its contents are written; `form` gives the bytes to write
from the landed ones and their place. -/
def State.receiveStep (s : State) (k peer : Nat) (forward : Option Nat) (dst : Nat)
    (form : CProg → State → Nat → List Byte → Option (List Byte × State)) (fuel : Nat) : State :=
  match fuel with
  | 0 => s
  | n + 1 => match s.prog? k with
    | none => s
    | some pr =>
      let num := (smapGet pr.rxNum peer).getD 0
      let off := pr.got.length
      if pr.csize ≤ off then s.endReceive k peer num forward
      else match s.landed pr peer num off with
        | none => if s.overtaken pr peer num then s.endProg k psBadProg true else s
        | some (bs, s1) =>
          -- a row load of less than 8 KiB is its message's last
          if bs.isEmpty || pr.csize < off + bs.length || (decide (bs.length < 8192) && decide (off + bs.length < pr.csize)) then
            s1.endProg k psBadProg true
          else match form pr s1 off bs with
            | none => s1.endProg k psPage true
            | some (ys, s2) => match s2.writeChunk pr (dst + off) ys with
              | none => s2.endProg k psPage true
              | some s3 => match s3.prog? k with
                | none => s3
                | some p => (s3.setProg k (some { p with got := p.got ++ ys })).receiveStep k peer forward dst form n

def execCollRecv (prog : Nat) (s : State) : Host.Outcome State Fault Refusal :=
  .next (s.onStep prog 2 (fun pr _ x =>
    s.receiveStep prog (s.peerRank pr x.pm x.poff) none (pr.chunk (s.group pr.group).myIdx x x.b) (fun _ st _ bs => some (bs, st))
      (pr.csize / 256 + 2)))

def execCollRrs (prog : Nat) (s : State) : Host.Outcome State Fault Refusal :=
  .next (s.onStep prog 3 (fun pr _ x =>
    let m := (s.group pr.group).myIdx
    let src := pr.chunk m x x.a
    s.receiveStep prog (s.peerRank pr x.pm x.poff) (some (s.peerRank pr x.qm x.qoff)) (pr.chunk m x x.b)
      (fun pr st off bs => (st.readChunk pr (src + off) bs.length).map (fun r => (reduceBytes pr.ty pr.rop r.1 bs, r.2)))
      (pr.csize / 256 + 2)))

def execCollCopy (prog : Nat) (s : State) : Host.Outcome State Fault Refusal :=
  .next (s.onStep prog 4 (fun pr _ x =>
    let m := (s.group pr.group).myIdx
    match s.readChunk pr (pr.chunk m x x.a) pr.csize with
    | none => s.endProg prog psPage true
    | some (bs, s1) => match s1.writeChunk pr (pr.chunk m x x.b) bs with
      | none => s1.endProg prog psPage true
      | some s2 => s2.advance prog))

/-- WAIT ends when every message of the program is acknowledged. -/
def State.allAcked (s : State) (pr : CProg) : Bool :=
  pr.out.isEmpty && s.lly.paths.all (fun p => p.unacked.all (fun d => !d.carries s.lly.rank pr.tag))

def execCollWait (prog : Nat) (s : State) : Host.Outcome State Fault Refusal :=
  .next (s.onStep prog 5 (fun pr _ _ => if s.allAcked pr then s.advance prog else s.pump prog))

def execCollLoop (prog : Nat) (s : State) : Host.Outcome State Fault Refusal :=
  .next (s.onStep prog 6 (fun pr w _ =>
    let k := bitsOf w 26 2
    let n := pr.loops.getD k 0 + 1
    if n < bitsOf w 12 12 then (s.setProg prog (some { pr with loops := pr.loops.set k n, pc := bitsOf w 0 12 })).fetchStep prog
    else (s.setProg prog (some { pr with loops := pr.loops.set k 0 })).advance prog))

def execCollSig (prog : Nat) (s : State) : Host.Outcome State Fault Refusal :=
  .next (s.onStep prog 7 (fun pr w x =>
    let r := s.peerRank pr x.pm x.poff
    let k := w % 8
    if r = s.lly.rank then (s.addTc pr.ctx k 1).advance prog
    else
      let (ok, s1) := s.progSend prog r kSIG (s.llyHeader r pr.tag 0 0 0 (BitVec.ofNat 64 k)) []
      if ok then s1.advance prog else s1))

/-- END, once every captured message has gone out; a program that its header has ended ends here too. -/
def execCollEnd (prog : Nat) (s : State) : Host.Outcome State Fault Refusal :=
  .next (s.onStep prog 0 (fun pr _ _ => if pr.out.isEmpty then s.endProg prog psDone true else s.pump prog))

/-! ### Trigger counters and actions (R408 to R410) -/

def execTriggerCounterWrite (ctx k : Nat) (value : DWord) (s : State) : Host.Outcome State Fault Refusal :=
  .next (if s.managed ctx && decide (k < 8) then s.setTc ctx k value else s)

/-- The command of a trigger's copy (R409): as `cp2`, in global memory only, with draws of its own; none when a check of R219
fails. -/
def State.triggerCopy (s : State) (ctx slot fires : Nat) (b : List Byte) : Option CopyCmd :=
  match s.readSlot ctx (leAt b 8 8) 32 with
  | none => none
  | some d =>
    let cw : Word := BitVec.ofNat 32 (leAt d 0x14 4)
    let n := leAt d 0x10 2
    let m := leAt d 0x12 2
    let look (va : Nat) : Lookup := match s.walkTable ctx va with | some tr => .found tr | none => .invalid
    let side (base : Nat) (stride : Int) (code : Nat) (perm : DWord → Bool) (whole : Bool) : Side :=
      { space := none, base := base, stride := stride, m := m, n := n, bits := sideBits code, perm := perm, whole := whole }
    let ds := sextInt (leAt d 0x18 4) 32
    let ss := sextInt (leAt d 0x1C 4) 32
    let dst := side (leAt d 0 8) ds (cwDT cw) pteW true
    let src := side (leAt d 8 8) ss (cwST cw) pteR false
    let x := src.scan look
    let y := dst.scan look
    if copyIllegal cw (fun _ => 0) || cwSS cw ≠ 0 || cwDS cw ≠ 0 || x.align || y.align || !x.refused.isEmpty || !y.refused.isEmpty
        || y.fmts.any (fun f => modeRefused f (cwRM cw)) then none
    else some
      { table := none, tabBad := [], entryW := 0, base := 0, dst := BitVec.ofNat 64 dst.base, src := BitVec.ofNat 64 src.base, n := n, m := m,
        dstride := ds, sstride := ss, cw := cw, key := BitVec.ofNat 64 (2 ^ 63 + fires % 2 ^ 11 * 2 ^ 52 + 32 * ctx + slot), ctr0 := 2 ^ 34,
        seed := BitVec.ofNat 64 (leAt b 0x10 8), lane := 0, trans := x.trans ++ y.trans.filter (fun t => !x.trans.contains t), ctx := ctx }

/-- A copy action performed whole; one that fails its checks only writes the error record. -/
def State.runTriggerCopy (s : State) (ctx slot f : Nat) (b : List Byte) : State :=
  match s.triggerCopy ctx slot f b with
  | none => (s.recordError ctx (.plain 19 false 0 (leAt b 8 8))).endAction ctx slot f false
  | some c =>
    let (s1, acc) := s.runCopy 0 c
    let s2 := match acc.bad with | some va => s1.consumeUe ctx (c.badPa va) | none => s1
    s2.endAction ctx slot f true

/-- Whether a slot's firing has its program running. -/
def State.actionRuns (s : State) (ctx slot f : Nat) : Bool :=
  s.progs.any (fun p => match p with | some p => p.ctx = ctx && p.slotOf = some (slot, f) | none => false)

/-- The oldest action of a slot that has not begun: a copy is performed, and a program takes a slot that is free. -/
def execTriggerActionEnd (ctx slot : Nat) (s : State) : Host.Outcome State Fault Refusal :=
  .next (match (((s.ctx ctx).trigs.getD slot .fresh).actions.find? (fun a => !s.actionRuns ctx slot a.1)) with
    | none => s
    | some (f, b) =>
      if leAt b 0 4 % 4 = 1 then s.runTriggerCopy ctx slot f b
      else (s.startProg ctx (leAt b 8 8) none (some (slot, f))).getD s)

end Sys2Proof.Machine
end

