-- ==== Sys2Proof/Machine/Convert.lean ====
section
/-! DEFINITION. Class 0x3, conversion and packing (spec/05_lane_instructions.md R115 to R118). -/

namespace Sys2Proof.Machine

/-! ### Types of cvt (R115) -/

/-- The page format that a type code of `cvt` stands for (R354's codes): U tells the signedness of code 7. -/
def cvtFmt (code : Nat) (unsigned : Bool) : Nat := if code = 7 then (if unsigned then 13 else 12) else code + 1

/-- The bits a type is read from. -/
def cvtBits (code : Nat) : Nat :=
  match code with
  | 1 | 2 => 16
  | 3 | 4 | 6 => 8
  | 5 => 4
  | _ => 32

/-- The modes that a destination accepts (R37). -/
def cvtModes (code : Nat) : List Nat := if code = 7 then intModes else if code = 6 then dl8Modes else allModes

/-- Destinations that draw in every mode (R40, R116). -/
def cvtDraws (code : Nat) : Bool := code = 3 || code = 4 || code = 5 || code = 6

/-- One conversion (R116). -/
def cvtElem (dt st : Nat) (unsigned : Bool) (mode : Nat) (sat : Bool) (draw : Nat) (x : Word) : Rounded :=
  encodeElem (cvtFmt dt unsigned) mode sat draw (fmtValue (cvtFmt st unsigned) (x.toNat % 2 ^ cvtBits st))

def execCvt (d a : BitVec 6) (t st : BitVec 3) (u q : BitVec 1) (g : BitVec 3) (s : State) : Host.Outcome State Fault Refusal :=
  let r : Req := { instr := .cvt d a t st u q g, pg := g.toNat, reads := regs1 a, writes := regs1 d, modes := cvtModes t.toNat,
                   sat := true, rep := .rr, walker := true }
  roundForm r d 1 (fun xs => BitVec.ofNat 32 (xs.getD 0 0)) (q = 1) (fun mode => cvtDraws t.toNat || isRsto mode)
    (fun x mode sat l _ draw => cvtElem t.toNat st.toNat (u = 1) mode sat draw (x.lane a.toNat l)) s

/-! ### pack and unpack -/

/-- The forms of `pack` (R117): `merge` says that the old vd is read. -/
def packForm (i : Instr) (d a b : BitVec 6) (g : BitVec 3) (merge : Bool) (f : Word → Word → Word → Word) (s : State) :
    Host.Outcome State Fault Refusal :=
  let r : Req := { instr := i, pg := g.toNat, reads := regs1 a ++ regs1 b ++ (if merge then regs1 d else []), writes := regs1 d,
                   rep := .rr, walker := true }
  issue r (fun e m => r.put e m [e.t.result m (tag3 (e.t.tags r.reads)) d.toNat (fun l =>
    f (e.t.lane a.toNat l) (e.t.lane b.toNat l) (e.t.lane d.toNat l))]) s

/-- Bits [lo+n−1:lo] of a word replaced by the low bits of a value. -/
def insertBits (old : Word) (lo n : Nat) (v : Word) : Word :=
  let mask : Word := BitVec.ofNat 32 ((2 ^ n - 1) * 2 ^ lo)
  (old &&& ~~~mask) ||| ((v <<< lo) &&& mask)

/-- Nibbles 2q and 2q + 1 from the operands' low nibbles. -/
def packNibbles (q : Nat) (x y old : Word) : Word := insertBits (insertBits old (8 * q) 4 x) (8 * q + 4) 4 y

def execPackB16 (d a b : BitVec 6) (g : BitVec 3) (s : State) : Host.Outcome State Fault Refusal :=
  packForm (.packB16 d a b g) d a b g false (fun x y _ => insertBits (insertBits 0 0 16 x) 16 16 y) s

def execPackB8Lo (d a b : BitVec 6) (g : BitVec 3) (s : State) : Host.Outcome State Fault Refusal :=
  packForm (.packB8Lo d a b g) d a b g true (fun x y o => insertBits (insertBits o 0 8 x) 8 8 y) s

def execPackB8Hi (d a b : BitVec 6) (g : BitVec 3) (s : State) : Host.Outcome State Fault Refusal :=
  packForm (.packB8Hi d a b g) d a b g true (fun x y o => insertBits (insertBits o 16 8 x) 24 8 y) s

def execPackB4Q0 (d a b : BitVec 6) (g : BitVec 3) (s : State) : Host.Outcome State Fault Refusal :=
  packForm (.packB4Q0 d a b g) d a b g true (packNibbles 0) s

def execPackB4Q1 (d a b : BitVec 6) (g : BitVec 3) (s : State) : Host.Outcome State Fault Refusal :=
  packForm (.packB4Q1 d a b g) d a b g true (packNibbles 1) s

def execPackB4Q2 (d a b : BitVec 6) (g : BitVec 3) (s : State) : Host.Outcome State Fault Refusal :=
  packForm (.packB4Q2 d a b g) d a b g true (packNibbles 2) s

def execPackB4Q3 (d a b : BitVec 6) (g : BitVec 3) (s : State) : Host.Outcome State Fault Refusal :=
  packForm (.packB4Q3 d a b g) d a b g true (packNibbles 3) s

/-- `unpack` (R118): field k of 16, 8 or 4 bits. -/
def execUnpack (d a : BitVec 6) (k : BitVec 3) (sx : BitVec 1) (w : BitVec 2) (g : BitVec 3) (s : State) : Host.Outcome State Fault Refusal :=
  let r : Req := { instr := .unpack d a k sx w g, pg := g.toNat, reads := regs1 a, writes := regs1 d, rep := .rr, walker := true }
  let n := 16 / 2 ^ w.toNat
  issue r (fun e m => r.put e m [e.t.result m (tag3 (e.t.tags r.reads)) d.toNat (fun l =>
    let v := bitsOf (e.t.lane a.toNat l).toNat (k.toNat * n) n
    if sx = 1 then word32 (sextInt v n) else BitVec.ofNat 32 v)]) s

end Sys2Proof.Machine
end

