-- ==== Sys2Proof/Machine/Crypto.lean ====
section
/-! DEFINITION. What the verify block computes (spec/21_bellows_repair_and_bring_up.md R446, R450 to R452). The manual names the standards and
not their text: SHA-384 and SHAKE (FIPS 180-4, FIPS 202), HKDF (RFC 5869), Ed25519 (RFC 8032) and ML-DSA-65 (FIPS 204) stand here as those
standards have them (PRESUMED, assumption 12). Octet strings are lists of bytes. -/

namespace Sys2Proof.Machine

/-! ### Octet strings and integers -/

def beBytes (n x : Nat) : List Byte := (leBytes n x).reverse

/-- A list cut into pieces of n, `fuel` pieces at most. -/
def chunks {α : Type} (n : Nat) (l : List α) (fuel : Nat) : List (List α) :=
  match fuel with
  | 0 => []
  | k + 1 => if l.isEmpty then [] else l.take n :: chunks n (l.drop n) k

def powMod (m b : Nat) (bits e : Nat) : Nat :=
  match bits with
  | 0 => 1 % m
  | k + 1 => let h := powMod m (b * b % m) k (e / 2)
             if e % 2 = 1 then h * b % m else h

/-! ### SHA-384 (FIPS 180-4) -/

abbrev W64 := BitVec 64

/-- The greatest r with r ^ k ≤ n, among those of a number of bits. -/
def rootNat (k n bits : Nat) : Nat :=
  ((List.range bits).reverse).foldl (fun r b => if (r + 2 ^ b) ^ k ≤ n then r + 2 ^ b else r) 0

def primesBelow (n : Nat) : List Nat := (List.range n).filter (fun p => 2 ≤ p && (List.range p).all (fun d => d < 2 || p % d ≠ 0))

/-- The first 64 bits of the fractional parts of the cube roots of the first 80 primes. -/
def shaK : List W64 := ((primesBelow 410).take 80).map (fun p => BitVec.ofNat 64 (rootNat 3 (p * 2 ^ 192) 68))
/-- The first 64 bits of the fractional parts of the square roots of the ninth to sixteenth primes. -/
def shaInit : List W64 := (((primesBelow 54).drop 8).take 8).map (fun p => BitVec.ofNat 64 (rootNat 2 (p * 2 ^ 128) 68))

def shaSchedule (w : List W64) (n : Nat) : List W64 :=
  match n with
  | 0 => w
  | k + 1 =>
    let at_ (i : Nat) : W64 := w.getD (w.length - i) 0
    let s0 := (at_ 15).rotateRight 1 ^^^ (at_ 15).rotateRight 8 ^^^ (at_ 15 >>> 7)
    let s1 := (at_ 2).rotateRight 19 ^^^ (at_ 2).rotateRight 61 ^^^ (at_ 2 >>> 6)
    shaSchedule (w ++ [at_ 16 + s0 + at_ 7 + s1]) k

def shaRound (v : List W64) (kw : W64 × W64) : List W64 :=
  match v with
  | [a, b, c, d, e, f, g, h] =>
    let s1 := e.rotateRight 14 ^^^ e.rotateRight 18 ^^^ e.rotateRight 41
    let t1 := h + s1 + ((e &&& f) ^^^ (~~~e &&& g)) + kw.1 + kw.2
    let s0 := a.rotateRight 28 ^^^ a.rotateRight 34 ^^^ a.rotateRight 39
    let t2 := s0 + ((a &&& b) ^^^ (a &&& c) ^^^ (b &&& c))
    [t1 + t2, a, b, c, d + t1, e, f, g]
  | _ => v

def shaBlock (h : List W64) (b : List Byte) : List W64 :=
  let w := shaSchedule ((chunks 8 b 16).map (fun x => BitVec.ofNat 64 (beNat x))) 64
  List.zipWith (· + ·) h ((shaK.zip w).foldl shaRound h)

/-- A message padded to whole blocks of 128 octets. -/
def shaPad (m : List Byte) : List Byte :=
  m ++ [0x80] ++ List.replicate ((239 - m.length % 128) % 128) 0 ++ beBytes 16 (8 * m.length)

/-- The 64 octets of a hash over the blocks of a message, from a state. -/
def sha2 (init : List W64) (m : List Byte) : List Byte :=
  let p := shaPad m
  ((chunks 128 p (p.length / 128)).foldl shaBlock init).flatMap (fun w => beBytes 8 w.toNat)

def sha384 (m : List Byte) : List Byte := (sha2 shaInit m).take 48

/-- SHA-512, the hash of Ed25519: its state starts from the square roots of the first eight primes. -/
def sha512 (m : List Byte) : List Byte :=
  sha2 (((primesBelow 54).take 8).map (fun p => BitVec.ofNat 64 (rootNat 2 (p * 2 ^ 128) 68))) m

/-! ### HKDF with SHA-384 (RFC 5869) -/

def hmac384 (key m : List Byte) : List Byte :=
  let k0 := if 128 < key.length then sha384 key else key
  let k := k0 ++ List.replicate (128 - k0.length) 0
  sha384 (k.map (· ^^^ 0x5C) ++ sha384 (k.map (· ^^^ 0x36) ++ m))

/-- The first 32 octets of HKDF's output with a zero salt. -/
def hkdf32 (secret info : List Byte) : List Byte :=
  (hmac384 (hmac384 (List.replicate 48 0) secret) (info ++ [1])).take 32

def asciiBytes (x : String) : List Byte := x.toList.map (fun c => BitVec.ofNat 8 c.toNat)

/-- The seeds of the two identity key pairs (R451). -/
def ed25519Seed (secret : List Byte) : List Byte := hkdf32 secret (asciiBytes "Yelend ID ed25519")
def mldsa65Seed (secret : List Byte) : List Byte := hkdf32 secret (asciiBytes "Yelend ID mldsa65")

/-! ### Ed25519 (RFC 8032) -/

def edP : Nat := 2 ^ 255 - 19
def edL : Nat := 2 ^ 252 + 27742317777372353535851937790883648493
def edInv (x : Nat) : Nat := powMod edP x 255 (edP - 2)
def edD : Nat := (edP - 121665) * edInv 121666 % edP

/-- A point of the curve in extended coordinates. -/
structure EdPoint where
  x : Nat
  y : Nat
  z : Nat
  t : Nat
  deriving DecidableEq, Repr

def EdPoint.zero : EdPoint := { x := 0, y := 1, z := 1, t := 0 }

def EdPoint.add (p q : EdPoint) : EdPoint :=
  let a := (p.y + edP - p.x) * (q.y + edP - q.x) % edP
  let b := (p.y + p.x) * (q.y + q.x) % edP
  let c := 2 * p.t * q.t * edD % edP
  let d := 2 * p.z * q.z % edP
  let e := b + edP - a
  let f := d + edP - c
  let g := d + c
  let h := b + a
  { x := e * f % edP, y := g * h % edP, z := f * g % edP, t := e * h % edP }

/-- n times a point, for an n of a number of bits. -/
def EdPoint.mul (p : EdPoint) (bits n : Nat) : EdPoint :=
  match bits with
  | 0 => .zero
  | k + 1 => let h := (p.add p).mul k (n / 2)
             if n % 2 = 1 then h.add p else h

def EdPoint.same (p q : EdPoint) : Bool := p.x * q.z % edP = q.x * p.z % edP && p.y * q.z % edP = q.y * p.z % edP

def EdPoint.encode (p : EdPoint) : List Byte :=
  let i := edInv p.z
  leBytes 32 (p.y * i % edP + (p.x * i % edP) % 2 * 2 ^ 255)

/-- The point that 32 octets encode, where they encode one. -/
def EdPoint.decode (b : List Byte) : Option EdPoint :=
  let n := leNat b
  let y := n % 2 ^ 255
  let odd := n / 2 ^ 255
  let u := (y * y + edP - 1) % edP
  let v := (edD * (y * y % edP) + 1) % edP
  let r := u * powMod edP v 3 3 * powMod edP (u * powMod edP v 3 7) 255 ((edP - 5) / 8) % edP
  let root : Option Nat :=
    if v * r % edP * r % edP = u then some r
    else if (v * r % edP * r + u) % edP = 0 then some (r * powMod edP 2 255 ((edP - 1) / 4) % edP)
    else none
  if edP ≤ y || b.length ≠ 32 then none
  else root.bind (fun x =>
    if x = 0 && odd = 1 then none
    else
      let x' := if x % 2 = odd then x else edP - x
      some { x := x' % edP, y := y, z := 1, t := x' * y % edP })

/-- The base point: y is 4/5 and x is even. -/
def edBase : EdPoint := (EdPoint.decode (leBytes 32 (4 * edInv 5 % edP))).getD .zero

/-- The scalar and the prefix of a seed. -/
def edExpand (seed : List Byte) : Nat × List Byte :=
  let h := sha512 seed
  (leNat (h.take 32) / 8 % 2 ^ 251 * 8 + 2 ^ 254, h.drop 32)

def edScalar (n : Nat) (p : EdPoint) : EdPoint := p.mul 256 n

def ed25519Key (seed : List Byte) : List Byte := (edScalar (edExpand seed).1 edBase).encode

def ed25519Sign (seed m : List Byte) : List Byte :=
  let (a, pre) := edExpand seed
  let r := leNat (sha512 (pre ++ m)) % edL
  let rb := (edScalar r edBase).encode
  let k := leNat (sha512 (rb ++ ed25519Key seed ++ m)) % edL
  rb ++ leBytes 32 ((r + k * a) % edL)

/-- Whether a signature holds: 8 S B = 8 R + 8 k A. -/
def ed25519Holds (key m sig : List Byte) : Bool :=
  let s := leNat (sig.drop 32)
  let k := leNat (sha512 (sig.take 32 ++ key ++ m)) % edL
  match EdPoint.decode key, EdPoint.decode (sig.take 32) with
  | some a, some r => sig.length = 64 && decide (s < edL) && (edScalar 8 (edScalar s edBase)).same ((edScalar 8 r).add (edScalar 8 (edScalar k a)))
  | _, _ => false

/-! ### SHAKE (FIPS 202) -/

/-- The 25 lanes of a Keccak state: lane (x, y) at x + 5 y. -/
def keccakLane (a : List W64) (x y : Nat) : W64 := a.getD (x % 5 + 5 * (y % 5)) 0
def keccakMap (f : Nat → Nat → W64) : List W64 := (List.range 25).map (fun i => f (i % 5) (i / 5))

/-- The rotation of lane (x, y): along the walk (1, 0), (y, 2x + 3y), … the t-th lane turns by (t + 1)(t + 2)/2. -/
def keccakRot (x y : Nat) : Nat :=
  ((List.range 24).foldl (fun (acc : Nat × Nat × Nat) t =>
    let (px, py, r) := acc
    (py, (2 * px + 3 * py) % 5, if px = x && py = y then (t + 1) * (t + 2) / 2 % 64 else r)) (1, 0, 0)).2.2

def keccakRots : List Nat := (List.range 25).map (fun i => keccakRot (i % 5) (i / 5))

/-- Bits of the round constants: the output of the register x^8 + x^6 + x^5 + x^4 + 1. -/
def keccakRcBits : List Bool :=
  ((List.range 255).foldl (fun (acc : Nat × List Bool) _ =>
    let r := acc.1
    let r2 := 2 * r
    (if 256 ≤ r2 then (r2 % 256) ^^^ 0x71 else r2, acc.2 ++ [decide (r % 2 = 1)])) (1, [])).2

def keccakRc (i : Nat) : W64 :=
  BitVec.ofNat 64 ((List.range 7).foldl (fun n j => if keccakRcBits.getD ((j + 7 * i) % 255) false then n + 2 ^ (2 ^ j - 1) else n) 0)

def keccakRcs : List W64 := (List.range 24).map keccakRc

def keccakRound (a : List W64) (rc : W64) : List W64 :=
  let c := (List.range 5).map (fun x => (List.range 5).foldl (fun v y => v ^^^ keccakLane a x y) (0 : W64))
  let d := (List.range 5).map (fun x => c.getD ((x + 4) % 5) 0 ^^^ (c.getD ((x + 1) % 5) 0).rotateLeft 1)
  let t := keccakMap (fun x y => (keccakLane a x y ^^^ d.getD x 0).rotateLeft (keccakRots.getD (x + 5 * y) 0))
  let p := keccakMap (fun x y => keccakLane t (x + 3 * y) x)
  let q := keccakMap (fun x y => keccakLane p x y ^^^ (~~~(keccakLane p (x + 1) y) &&& keccakLane p (x + 2) y))
  q.set 0 (q.getD 0 0 ^^^ rc)

def keccakF (a : List W64) : List W64 := keccakRcs.foldl keccakRound a

/-- Octets of the rate exclusive-or'ed into a state. -/
def keccakAbsorb (a : List W64) (b : List Byte) : List W64 :=
  let w := (chunks 8 b 25).map (fun x => BitVec.ofNat 64 (leNat x))
  keccakF ((List.range 25).map (fun i => a.getD i 0 ^^^ w.getD i 0))

def keccakSqueeze (rate : Nat) (a : List W64) (n : Nat) : List Byte :=
  match n with
  | 0 => []
  | k + 1 => (a.flatMap (fun w => leBytes 8 w.toNat)).take rate ++ keccakSqueeze rate (keccakF a) k

/-- `count` octets of SHAKE with a rate in octets. -/
def shake (rate : Nat) (m : List Byte) (count : Nat) : List Byte :=
  let fill := rate - 1 - m.length % rate
  let p := if fill = 0 then m ++ [0x9F] else m ++ [0x1F] ++ List.replicate (fill - 1) 0 ++ [0x80]
  let a := (chunks rate p (p.length / rate)).foldl keccakAbsorb (List.replicate 25 0)
  (keccakSqueeze rate a (ceilDiv count rate)).take count

def shake128 : List Byte → Nat → List Byte := shake 168
def shake256 : List Byte → Nat → List Byte := shake 136

/-! ### ML-DSA-65 (FIPS 204)

Coefficients are numbers below q; a polynomial is a list of 256 of them. The parameters: k 6, l 5, eta 4, tau 49, gamma1 2^19,
gamma2 (q − 1)/32, beta 196, omega 55, 48 octets of challenge. -/

def dsaQ : Nat := 8380417
def dsaG1 : Nat := 2 ^ 19
def dsaG2 : Nat := 261888

abbrev Poly := List Nat

def polyAdd (a b : Poly) : Poly := List.zipWith (fun x y => (x + y) % dsaQ) a b
def polySub (a b : Poly) : Poly := List.zipWith (fun x y => (x + dsaQ - y) % dsaQ) a b
def polyMul (a b : Poly) : Poly := List.zipWith (fun x y => x * y % dsaQ) a b
def polyZero : Poly := List.replicate 256 0

/-- A coefficient as a number of least magnitude. -/
def centred (x : Nat) : Int := if x ≤ dsaQ / 2 then (x : Int) else (x : Int) - dsaQ
def ofInt (x : Int) : Nat := (x % (dsaQ : Int)).toNat
def polyNorm (a : Poly) : Nat := a.foldl (fun n x => max n (centred x).natAbs) 0

def bitRev8 (i : Nat) : Nat := (List.range 8).foldl (fun n b => n + (i / 2 ^ b % 2) * 2 ^ (7 - b)) 0

/-- The 512 powers of zeta, 1753. -/
def dsaZetas : Array Nat := ((List.range 511).foldl (fun (a : Array Nat) _ => a.push (a.back! * 1753 % dsaQ)) #[1])

/-- The roots of X^256 + 1 in the order of the transform. -/
def dsaExps : List Nat := (List.range 256).map (fun i => 2 * bitRev8 i + 1)

/-- NTT: a polynomial's values at the roots. -/
def ntt (a : Poly) : Poly := dsaExps.map (fun e => a.foldr (fun c v => (c + dsaZetas.getD (e % 512) 0 * v) % dsaQ) 0)

/-- The polynomial with given values at the roots. -/
def nttInv (a : Poly) : Poly :=
  let inv := powMod dsaQ 256 23 (dsaQ - 2)
  (List.range 256).map (fun j =>
    ((a.zip dsaExps).foldl (fun s p => s + p.1 * dsaZetas.getD ((512 - p.2 * j % 512) % 512) 0) 0) % dsaQ * inv % dsaQ)

/-- Numbers of `bits` bits packed one after the other, least significant bit first, and their unpacking. -/
def packBits (bits : Nat) (xs : List Nat) : List Byte := leBytes (xs.length * bits / 8) (xs.foldr (fun x n => x % 2 ^ bits + 2 ^ bits * n) 0)
def unpackBits (bits count : Nat) (b : List Byte) : List Nat :=
  let n := leNat b
  (List.range count).map (fun i => n / 2 ^ (bits * i) % 2 ^ bits)

/-- Sampling uniformly below q. -/
def rejNtt (seed : List Byte) : Poly :=
  let ok := (chunks 3 (shake128 seed 1344) 448).filterMap (fun b =>
    let z := leNat b % 2 ^ 23
    if z < dsaQ then some z else none)
  ok.take 256

/-- Sampling in [−4, 4]. -/
def rejBounded (seed : List Byte) : Poly :=
  let ok := (shake256 seed 680).flatMap (fun b => [b.toNat % 16, b.toNat / 16].filterMap (fun (x : Nat) => if x < 9 then some (ofInt (4 - (x : Int))) else none))
  ok.take 256

/-- The matrix, in the transform's domain: 6 rows of 5. -/
def expandA (rho : List Byte) : List (List Poly) :=
  (List.range 6).map (fun r => (List.range 5).map (fun s => rejNtt (rho ++ [BitVec.ofNat 8 s, BitVec.ofNat 8 r])))

def expandMask (seed : List Byte) (k : Nat) : List Poly :=
  (List.range 5).map (fun r => (unpackBits 20 256 (shake256 (seed ++ leBytes 2 (k + r)) 640)).map (fun (x : Nat) => ofInt ((dsaG1 : Int) - (x : Int))))

/-- A challenge: 49 coefficients of −1 or 1. -/
def sampleInBall (seed : List Byte) : Poly :=
  let out := shake256 seed 1088
  let signs := leNat (out.take 8)
  ((List.range 49).foldl (fun (acc : Poly × List Byte) n =>
    let i := 207 + n
    let rest := acc.2.dropWhile (fun b => i < b.toNat)
    let j := (rest.headD 0).toNat
    ((acc.1.set i (acc.1.getD j 0)).set j (if signs.testBit n then dsaQ - 1 else 1), rest.tail)) (polyZero, out.drop 8)).1

/-- x as x1 · 2^13 + x0. -/
def power2Round (x : Nat) : Nat × Nat :=
  let r : Nat := x % 2 ^ 13
  let r0 : Int := if r ≤ 2 ^ 12 then (r : Int) else (r : Int) - 2 ^ 13
  (((x : Int) - r0).toNat / 2 ^ 13, ofInt r0)

/-- x as x1 · 2 gamma2 + x0, with x1 below 16. -/
def decompose (x : Nat) : Nat × Int :=
  let r : Nat := x % (2 * dsaG2)
  let r0 : Int := if r ≤ dsaG2 then (r : Int) else (r : Int) - 2 * (dsaG2 : Int)
  if (x : Int) - r0 = (dsaQ : Int) - 1 then (0, r0 - 1) else (((x : Int) - r0).toNat / (2 * dsaG2), r0)

def useHint (h : Bool) (x : Nat) : Nat :=
  let (r1, r0) := decompose x
  if !h then r1 else if 0 < r0 then (r1 + 1) % 16 else (r1 + 15) % 16

/-- A matrix in the transform's domain times a vector in it. -/
def matVec (a : List (List Poly)) (v : List Poly) : List Poly := a.map (fun row => (List.zipWith polyMul row v).foldl polyAdd polyZero)

def w1Encode (w : List Poly) : List Byte := w.flatMap (fun p => packBits 4 (p.map (fun x => (decompose x).1)))

structure DsaKey where
  rho : List Byte
  key : List Byte
  tr  : List Byte
  s1  : List Poly
  s2  : List Poly
  t0  : List Poly
  pk  : List Byte
  deriving DecidableEq, Repr

/-- The key pair of a seed ξ. -/
def dsaKeyGen (xi : List Byte) : DsaKey :=
  let b := shake256 (xi ++ [6, 5]) 128
  let rho := b.take 32
  let noise (i : Nat) : Poly := rejBounded ((b.drop 32).take 64 ++ leBytes 2 i)
  let s1 := (List.range 5).map noise
  let s2 := (List.range 6).map (fun i => noise (5 + i))
  let t := List.zipWith polyAdd ((matVec (expandA rho) (s1.map ntt)).map nttInv) s2
  let pk := rho ++ t.flatMap (fun p => packBits 10 (p.map (fun x => (power2Round x).1)))
  { rho := rho, key := b.drop 96, tr := shake256 pk 64, s1 := s1, s2 := s2, t0 := t.map (fun p => p.map (fun x => (power2Round x).2)), pk := pk }

def mldsa65Key (xi : List Byte) : List Byte := (dsaKeyGen xi).pk

/-- The representative of a message: pure, with an empty context string. -/
def dsaMu (tr m : List Byte) : List Byte := shake256 (tr ++ [0, 0] ++ m) 64

/-- The hint's octets: the places of its ones, then how many there are up to each polynomial. -/
def hintPack (h : List (List Bool)) : List Byte :=
  let places := h.map (fun p => p.zipIdx.filterMap (fun x => if x.1 then some (BitVec.ofNat 8 x.2) else none))
  let flat := places.flatten
  flat ++ List.replicate (55 - flat.length) 0
    ++ (List.range 6).map (fun i => BitVec.ofNat 8 ((places.take (i + 1)).foldl (fun n p => n + p.length) 0))

/-- The hint that 61 octets encode, where they encode one. -/
def hintUnpack (y : List Byte) : Option (List (List Nat)) :=
  let ends := (y.drop 55).map BitVec.toNat
  let starts := 0 :: ends
  let rises := (List.range 6).all (fun i => decide (starts.getD i 0 ≤ ends.getD i 0)) && ends.all (fun e => decide (e ≤ 55))
  let places := (List.range 6).map (fun i => ((y.take (ends.getD i 0)).drop (starts.getD i 0)).map BitVec.toNat)
  let sorted (l : List Nat) : Bool := (l.zip l.tail).all (fun p => decide (p.1 < p.2))
  if rises && places.all sorted && ((y.take 55).drop (ends.getD 5 0)).all (fun b => b = 0) then some places else none

/-- The signing loop, from a counter of masks. FIPS 204 lets it be bounded. -/
def dsaTry (sk : DsaKey) (a : List (List Poly)) (mu seed : List Byte) (k fuel : Nat) : List Byte :=
  match fuel with
  | 0 => List.replicate 3309 0
  | n + 1 =>
    let y := expandMask seed k
    let w := (matVec a (y.map ntt)).map nttInv
    let ch := shake256 (mu ++ w1Encode w) 48
    let c := ntt (sampleInBall ch)
    let times (v : List Poly) : List Poly := v.map (fun p => nttInv (polyMul c (ntt p)))
    let z := List.zipWith polyAdd y (times sk.s1)
    let low := List.zipWith polySub w (times sk.s2)
    let ct0 := times sk.t0
    let h := List.zipWith (fun p q => List.zipWith (fun x d => decide ((decompose x).1 ≠ (decompose ((x + d) % dsaQ)).1)) p q) low ct0
    if z.any (fun p => decide (dsaG1 - 196 ≤ polyNorm p))
        || low.any (fun p => p.any (fun x => decide (dsaG2 - 196 ≤ (decompose x).2.natAbs)))
        || ct0.any (fun p => decide (dsaG2 ≤ polyNorm p)) || decide (55 < (h.flatten.filter id).length) then
      dsaTry sk a mu seed (k + 5) n
    else ch ++ z.flatMap (fun p => packBits 20 (p.map (fun x => ((dsaG1 : Int) - centred x).toNat))) ++ hintPack h

/-- A signature of a message, from the seed ξ and 32 octets of randomness. -/
def mldsa65Sign (xi rnd m : List Byte) : List Byte :=
  let sk := dsaKeyGen xi
  let mu := dsaMu sk.tr m
  dsaTry sk (expandA sk.rho) mu (shake256 (sk.key ++ rnd ++ mu) 64) 0 1000

/-- Whether a signature of a message holds. -/
def mldsa65Holds (pk m sig : List Byte) : Bool :=
  let t1 := (chunks 320 (pk.drop 32) 6).map (unpackBits 10 256)
  let ch := sig.take 48
  let z := (chunks 640 ((sig.drop 48).take 3200) 5).map (fun b => (unpackBits 20 256 b).map (fun (x : Nat) => ofInt ((dsaG1 : Int) - (x : Int))))
  match hintUnpack (sig.drop 3248) with
  | none => false
  | some h =>
    let c := ntt (sampleInBall ch)
    let az := matVec (expandA (pk.take 32)) (z.map ntt)
    let w := List.zipWith (fun p t => nttInv (polySub p (polyMul c (ntt (t.map (fun x => x * 2 ^ 13)))))) az t1
    let w1 := List.zipWith (fun p hs => p.zipIdx.map (fun x => useHint (hs.contains x.2) x.1)) w h
    pk.length = 1952 && sig.length = 3309 && z.all (fun p => decide (polyNorm p < dsaG1 - 196))
      && ch = shake256 (dsaMu (shake256 pk 64) m ++ w1.flatMap (packBits 4)) 48

end Sys2Proof.Machine
end

