-- ==== Sys2Proof/Machine/GenlockEvents.lean ====
section
/-! DEFINITION. Genlock (spec/18_ports_collectives_and_genlock.md R415 to R418), its datagrams, and what a peer module asks of
device memory (R353, R380). -/

namespace Sys2Proof.Machine

/-- A timed barrier of a group changed in place. -/
def State.modTbar (s : State) (g : Nat) (p : Genlock → Bool) (f : Genlock → Genlock) : State :=
  s.modGroup g (fun x => { x with tbars := modWhere x.tbars p f })

/-- The leader: the member of the lowest rank (R415). -/
def Group.leader (x : Group) : Nat := (x.members.foldl (fun best r => match best with | none => some r | some b => some (min b r)) none).getD 0

/-- Whether this module leads the group. -/
def State.leads (s : State) (g : Nat) : Bool := (s.group g).genlock s.lly.rank && (s.group g).leader = s.lly.rank

/-- The header of a genlock datagram. -/
def State.genlockHeader (s : State) (dst g : Nat) (t : DWord) : LlyHeader := s.llyHeader dst (BitVec.ofNat 32 g) 0 0 0 t

/-- A record of type 6 (R360). -/
def disagreeRecord (t : DWord) (g side rank : Nat) : List Byte := evRecord 6 0 0 t.toNat (g + side * 2 ^ 8) rank

/-! ### The datagrams -/

/-- The group that a datagram names, when it is a genlock group of this module. -/
def State.genlockOf (s : State) (h : LlyHeader) : Option Nat :=
  let g := h.tag.toNat % 8
  if (s.group g).genlock s.lly.rank then some g else none

/-- The leader counts an ARRIVE that it has by T − GUARD (R416 step 5). -/
def State.takeArrive (s : State) (g rank : Nat) (t : DWord) : State :=
  if s.clock.toNat ≤ (s.group g).commitAt t then s.modGroup g (fun x => { x with arrives := x.arrives ++ [(rank, t)] }) else s

def execLlynadArrive (lport : Nat) (hdr : LlyHeader) (s : State) : Host.Outcome State Fault Refusal :=
  .next (s.receiveLly lport kARRIVE hdr [] (fun s => match s.genlockOf hdr with
    | some g => if s.leads g then s.takeArrive g hdr.src hdr.param else s
    | none => s))

/-- The status of a decided barrier becomes DISAGREE in place of SUBSTITUTED: in the lanes of the `tbar` whose destination still holds
SUBSTITUTED (R416 step 7; DESIGN CHOICE, assumption 46: a register written again since then keeps what it holds). -/
def State.disagree (s : State) (b : Genlock) : State :=
  match s.env? b.owner.1 b.owner.2.1 with
  | none => s
  | some e =>
    let m := maskOf (fun l => b.mask.getLsbD l && (e.t.lane b.vd l).toNat = 1)
    if e.c.state = .pending || m = 0 then s
    else ((e.deliver [e.t.result m .general b.vd (fun _ => 2)]).commit).resave b.owner.1 b.owner.2.1

/-- A COMMIT is held while it is in time. One that comes at T − GUARD/2 or later makes its barrier disagree, whether or not its decision
has been made, and the record is written (R416 step 7). -/
def State.takeCommit (s : State) (g : Nat) (t : DWord) : State :=
  if s.clock.toNat < (s.group g).decideAt t then s.modGroup g (fun x => { x with commits := x.commits ++ [t] })
  else
    let s1 := ((s.group g).tbars.filter (fun b => b.target = t && b.decided && !b.late && !(s.group g).commits.contains t)).foldl (fun st b =>
      (st.disagree b).tryEvent b.ctx (disagreeRecord t g 0 0xFF)) s
    s1.modTbar g (fun b => b.target = t) (fun b => { b with late := true })

def execLlynadCommit (lport : Nat) (hdr : LlyHeader) (s : State) : Host.Outcome State Fault Refusal :=
  .next (s.receiveLly lport kCOMMIT hdr [] (fun s => match s.genlockOf hdr with
    | some g => s.takeCommit g hdr.param
    | none => s))

def execLlynadCack (lport : Nat) (hdr : LlyHeader) (s : State) : Host.Outcome State Fault Refusal :=
  .next (s.receiveLly lport kCACK hdr [] (fun s => match s.genlockOf hdr with
    | some g => s.modTbar g (fun b => b.target = hdr.param) (fun b => { b with cacks := b.cacks ++ [hdr.src] })
    | none => s))

/-! ### The steps of a timed barrier (R416) -/

/-- ARRIVE goes to the leader once the frame is READY. -/
def execGenlockArrive (group : Nat) (s : State) : Host.Outcome State Fault Refusal :=
  let x := s.group group
  let ready (b : Genlock) : Bool :=
    !b.arrived && !b.decided && (s.session b.session).claimed b.frame && ((s.session b.session).slot b.frame).state = 2
  .next ((x.tbars.filter ready).foldl (fun st b =>
    let st1 := st.modTbar group (fun y => y.owner = b.owner) (fun y => { y with arrived := true })
    if x.leader = s.lly.rank then st1.takeArrive group s.lly.rank b.target
    else st1.sendLly x.leader kARRIVE (st1.genlockHeader x.leader group b.target) []) s)

/-- COMMIT for one barrier goes to every member when all have arrived. -/
def State.commitTo (s : State) (g : Nat) (t : DWord) : State :=
  let x := s.group g
  if !x.members.all (fun r => x.arrives.contains (r, t)) then s
  else x.members.foldl (fun st r =>
    if r = s.lly.rank then st.takeCommit g t else st.sendLly r kCOMMIT (st.genlockHeader r g t) []) s

/-- The leader's instant T − GUARD. -/
def execGenlockCommitInstant (group : Nat) (s : State) : Host.Outcome State Fault Refusal :=
  let x := s.group group
  .next (if !s.leads group then s
    else (x.tbars.filter (fun b => !b.instant && decide (x.commitAt b.target ≤ s.clock.toNat))).foldl (fun st b =>
      (st.modTbar group (fun y => y.owner = b.owner) (fun y => { y with instant := true })).commitTo group b.target) s)

/-- A barrier object written at a decision (R292): COMPLETE, then DONE, then GEN; its reserved bytes are zero (R9). -/
def State.writeBarrier (s : State) (ctx pa : Nat) (t : DWord) : State :=
  if pa = 0 then s
  else
    let s1 := s.engineWrite ctx (pa + 8) (leBytes 8 t.toNat ++ leBytes 8 s.clock.toNat ++ leBytes 8 0)
    let s2 := s1.engineWrite ctx pa (leBytes 4 1)
    s2.engineWrite ctx (pa + 4) (leBytes 4 (s2.peek (pa + 4) 4 + 1))

/-- The status of a `tbar` written to its strand, wherever its crew stands, and the operation performed. -/
def State.deliverStatus (s : State) (o : Nat × Nat × Nat) (status : Nat) : State :=
  match s.env? o.1 o.2.1 with
  | none => s
  | some e => match e.t.inflight.find? (fun p => p.id = o.2.2) with
    | some p => match p.kind with
      | .tbar _ vd m => ((((e.deliver [e.t.result m .general vd (fun _ => status)]).finish p.id).commit).resave o.1 o.2.1)
      | _ => s
    | none => s

/-- The decision for one barrier at T − GUARD/2: a member that holds COMMIT answers CACK and presents its frame at T; another
sends it by late-frame substitution. -/
def State.decideTbar (s : State) (g : Nat) (b : Genlock) : State :=
  let x := s.group g
  let held := x.commits.contains b.target
  let status := if held then 0 else if b.late then 2 else 1
  let s1 := s.modTbar g (fun y => y.owner = b.owner) (fun y => { y with decided := true })
  let s2 := s1.modGroup g (fun y => { y with decided := b.target })
  let s3 :=
    if !held then s2
    else if x.leader = s.lly.rank then s2.modTbar g (fun y => y.target = b.target) (fun y => { y with cacks := y.cacks ++ [s.lly.rank] })
    else s2.sendLly x.leader kCACK (s2.genlockHeader x.leader g b.target) []
  let s4 := s3.modSession b.session (fun y => { y with held := y.held.filter (fun f => f ≠ b.frame) })
  let s5 := if held || !(s4.session b.session).claimed b.frame then s4 else s4.modSlot b.session b.frame (fun sl => { sl with subst := true })
  let s6 := if status = 2 then s5.tryEvent b.ctx (disagreeRecord b.target g 0 0xFF) else s5
  (s6.writeBarrier b.ctx x.bobj.toNat b.target).deliverStatus b.owner status

def execGenlockDecision (group : Nat) (s : State) : Host.Outcome State Fault Refusal :=
  let x := s.group group
  .next ((x.tbars.filter (fun b => !b.decided && decide (x.decideAt b.target ≤ s.clock.toNat))).foldl (fun st b => st.decideTbar group b) s)

/-- At T a leader that sent COMMIT counts and records each member whose CACK it lacks. -/
def execGenlockCackCheck (group : Nat) (s : State) : Host.Outcome State Fault Refusal :=
  let x := s.group group
  .next (if !s.leads group then s
    else (x.tbars.filter (fun b => b.decided && !b.checked && decide (b.target ≤ s.clock))).foldl (fun st b =>
      let st1 := st.modTbar group (fun y => y.owner = b.owner) (fun y => { y with checked := true })
      if !x.commits.contains b.target then st1
      else (x.members.filter (fun r => !b.cacks.contains r)).foldl (fun st2 r =>
        (st2.modGroup group (fun y => { y with dcount := y.dcount + 1 })).tryEvent b.ctx (disagreeRecord b.target group 1 r)) st1) s)

/-! ### Peers (R353, R373, R380) -/

/-- A peer's access to this module's memory, serialised at its home slice. -/
def execPeerMemoryAccess (rank pa : Nat) (acc : PeerAccess) (s : State) : Host.Outcome State Fault Refusal :=
  .next (if 2 ^ 46 ≤ pa then s
    else match acc with
    | .read n => s.emit (.peer rank (s.peekBytes pa n))
    | .write bs => s.outsideWrite .peer pa bs
    | .atomicAdd wide x =>
      let n := if wide then 8 else 4
      let (old, s1) := s.rmw .peer none none pa n (fun v => (v + x.toNat) % 2 ^ (8 * n))
      (s1.emit (.peer rank (leBytes n (old.getD 0)))).countRemote (s.pageCtx pa) pa)

end Sys2Proof.Machine
end

