-- ==== Sys2Proof/Machine/DeviceEvents.lean ====
section
/-! DEFINITION. Bellows' firmware, attestation, repair, snapshots, power and bring-up
(spec/21_bellows_repair_and_bring_up.md R443 to R465, spec/20_traps_errors_and_watchdog.md R434, R436). -/

namespace Sys2Proof.Machine

/-! ### Words that the device reports (R443) -/

def b2n (b : Bool) (n : Nat) : Nat := if b then n else 0

def Device.idWord (d : Device) : Nat := 0x0880 * 2 ^ 16 + d.fuses.stepping.toNat * 2 ^ 8
def Device.stateWord (d : Device) : Nat := b2n d.romOnly (2 ^ 7) + d.pstat % 16 * 2 ^ 3 + d.stage
def Device.capWord (d : Device) : Nat := d.capChan.toNat + d.capPort.toNat * 2 ^ 16
def Device.svnWord (d : Device) : Nat := d.svn * 2 ^ 16 + d.fuses.minSvn

/-! ### The control store and its patch (R444) -/

/-- The microword that the sequencer fetches from an address of the control store, or of the patch store: a valid override entry puts a
word of the patch store in the place of one of the control store. -/
def Device.microword (d : Device) (patch : Bool) (a : Nat) : BitVec 128 :=
  let patched (n : Nat) : BitVec 128 := BitVec.ofNat 128 (leAt d.pwords (16 * n) 16)
  if patch then patched (a % 2048)
  else match d.overs.find? (fun w => w.getLsbD 31 && bitsOf w.toNat 16 12 = a) with
    | some w => patched (bitsOf w.toNat 0 11)
    | none => Config.controlStore (a % 4096)

/-- The octets of the control store ROM, in order and each word little-endian (R6). -/
def romBytes : List Byte := (List.range 4096).flatMap (fun a => leBytes 16 (Config.controlStore a).toNat)

/-! ### Measurements (R450) -/

/-- MEAS2: the fused key hashes, the minimum version, the fused masks and the serial number. -/
def Device.measure2 (d : Device) : List Byte :=
  let f := d.fuses
  (sha384 (f.keyHash0 ++ f.keyHash1 ++ leBytes 1 f.minSvn ++ leBytes 8 f.badCores.toNat ++ leBytes 2 f.badChans.toNat
    ++ leBytes 1 f.badPorts.toNat ++ f.serial))

/-- MEAS3: CAPCORE, the word at 0x0018 and MEMSIZE. -/
def Device.measure3 (d : Device) : List Byte :=
  (sha384 (leBytes 8 d.capCore.toNat ++ leBytes 4 d.capWord ++ leBytes 8 d.memSize.toNat))

/-- MEAS3 is computed again at a change of capability. -/
def Device.remeasure (d : Device) : Device := { d with meas := d.meas.set 3 d.measure3 }

/-- The measurements at the end of state PATCH; `msg` is the signed message of the image in force. -/
def Device.measureAll (d : Device) (msg : Option (List Byte)) : Device :=
  let m1 := match msg with | some b => sha384 b | none => List.replicate 48 0
  { d with meas := [sha384 romBytes, m1, d.measure2, d.measure3] }

/-! ### The patch image (R445, R446) -/

/-- The fields of the image in the staging area. -/
structure Patch where
  novr   : Nat
  svn    : Nat
  nwords : Nat
  overs  : List Word
  words  : List Byte
  edKey  : List Byte
  mlKey  : List Byte
  edSig  : List Byte
  mlSig  : List Byte
  msg    : List Byte
  deriving DecidableEq, Repr

def Patch.ofMemory (m : Memory) : Patch :=
  { novr := m.readNat 6 2, svn := m.readNat 8 4, nwords := m.readNat 0xC 4,
    overs := (List.range 256).map (fun i => BitVec.ofNat 32 (m.readNat (0x20 + 4 * i) 4)), words := m.readBytes 0x420 32768,
    edKey := m.readBytes 0x8420 32, mlKey := m.readBytes 0x8440 1952, edSig := m.readBytes 0x8BE0 64, mlSig := m.readBytes 0x8C20 3309,
    msg := m.readBytes 0 0x8BE0 }

/-- Check 1: magic, version, counts, and zero where R445 requires it. -/
def Patch.shapeOk (p : Patch) (m : Memory) : Bool :=
  m.readNat 0 4 = 0x31545042 && m.readNat 4 2 = 1 && decide (p.novr ≤ 256) && decide (p.nwords ≤ 2048)
    && (p.overs.drop p.novr).all (fun w => w = 0) && (p.words.drop (16 * p.nwords)).all (fun b => b = 0)

def overMatch (w : Word) : Nat := bitsOf w.toNat 16 12

/-- No two entries share MATCH. -/
def distinctNats : List Nat → Bool
  | [] => true
  | x :: r => !r.contains x && distinctNats r

/-- Check 2: each entry below NOVR is valid, keeps its reserved bits zero and names a patch word, and matches are distinct. -/
def Patch.entriesOk (p : Patch) : Bool :=
  let es := p.overs.take p.novr
  es.all (fun w => w.getLsbD 31 && bitsOf w.toNat 28 3 = 0 && bitsOf w.toNat 11 5 = 0 && decide (bitsOf w.toNat 0 11 < p.nwords))
    && distinctNats (es.map overMatch)

/-- PSTAT of a check: the first failure, or 15. -/
def Patch.status (p : Patch) (m : Memory) (f : Fuses) : Nat :=
  if !p.shapeOk m then 1
  else if !p.entriesOk then 2
  else if sha384 p.edKey ≠ f.keyHash0 || sha384 p.mlKey ≠ f.keyHash1 then 3
  else if !ed25519Holds p.edKey p.msg p.edSig then 4
  else if !mldsa65Holds p.mlKey p.msg p.mlSig then 5
  else if p.svn < f.minSvn then 6
  else 15

def State.refuseControl (s : State) : State := s.modDev (fun d => { d with rej := true })

/-- PATCHGO is accepted only in state PATCH, once. -/
def execPatchgo (s : State) : Host.Outcome State Fault Refusal :=
  .next (if s.dev.stage = 2 && !s.dev.verify then s.modDev (fun d => { d with verify := true }) else s.refuseControl)

/-- The device at the end of state PATCH with an image in force or without one (R446, R464). -/
def Device.leavePatch (d : Device) (pstat : Nat) (p : Option Patch) : Device :=
  let d1 : Device := match p with
    | some x => { d with romOnly := false, svn := x.svn, overs := x.overs.take x.novr, pwords := x.words.take (16 * x.nwords) }
    | none => { d with romOnly := true, svn := 0, overs := [], pwords := [] }
  { (d1.measureAll (p.map Patch.msg)) with verify := false, pstat := pstat, staging := [] }

def State.leavePatch (s : State) (pstat : Nat) (p : Option Patch) : State := (s.modDev (fun d => d.leavePatch pstat p)).setStage 3

def execPatchVerifyDone (s : State) : Host.Outcome State Fault Refusal :=
  .next (if s.dev.stage = 2 && s.dev.verify then
      let p := Patch.ofMemory s.dev.staging
      let st := p.status s.dev.staging s.dev.fuses
      if st = 15 then s.leavePatch 15 (some p) else (s.leavePatch st none).deviceError 5 0 false
    else s)

def execNopatch (s : State) : Host.Outcome State Fault Refusal :=
  .next (if s.dev.stage = 2 && !s.dev.verify then s.leavePatch 0 none else s.refuseControl)

/-- SVNBURN (R449). -/
def execSvnburn (s : State) : Host.Outcome State Fault Refusal :=
  .next (if s.dev.stage = 6 && !s.dev.romOnly && !s.dev.burning then s.modDev (fun d => { d with burning := true }) else s.refuseControl)

/-- The burn has ended: the minimum version is the patch's, never lower, and MEAS2 follows. -/
def execSvnBurnDone (s : State) : Host.Outcome State Fault Refusal :=
  .next (if s.dev.burning then s.modDev (fun d =>
      let d1 : Device := { d with burning := false, fuses := { d.fuses with minSvn := max d.fuses.minSvn d.svn } }
      { d1 with meas := d1.meas.set 2 d1.measure2 })
    else s)

/-! ### Attestation (R451, R452) -/

/-- The seeds of the identity key pairs, derived from the device secret in state ROMINIT and held in the verify block (R451). -/
def Device.deriveKeys (d : Device) : Device :=
  { d with edSeed := ed25519Seed d.fuses.secret, mlSeed := mldsa65Seed d.fuses.secret }

/-- ATTGO reads the nonce; while a report is formed, or before state MEMTRAIN, it is refused. -/
def execAttgo (s : State) : Host.Outcome State Fault Refusal :=
  .next (s.modDev (fun d =>
    if d.attBusy || d.stage < 3 then { d with attRej := true }
    else { d with attBusy := true, nonce := d.attBuf.readBytes 0x3F00 32 }))

/-- The report's bytes 0x0000 to 0x08FF. -/
def State.reportBody (s : State) : List Byte :=
  let d := s.dev
  leBytes 4 0x31525441 ++ leBytes 4 1 ++ leBytes 4 d.idWord ++ leBytes 4 d.stateWord ++ d.fuses.serial ++ d.nonce
    ++ leBytes 8 s.clock.toNat ++ leBytes 4 d.svnWord ++ leBytes 4 (b2n s.ptp.lock 1) ++ List.replicate 16 0 ++ d.meas.flatten
    ++ leBytes 8 d.capCore.toNat ++ leBytes 4 d.capWord ++ leBytes 8 d.memSize.toNat ++ List.replicate 12 0
    ++ ed25519Key d.edSeed ++ mldsa65Key d.mlSeed

/-- The report with both signatures of its body. -/
def State.report (s : State) : List Byte :=
  let b := s.reportBody
  b ++ ed25519Sign s.dev.edSeed b ++ mldsa65Sign s.dev.mlSeed (leBytes 32 (Config.signRandom s.clock).toNat) b

def execAttestationDone (s : State) : Host.Outcome State Fault Refusal :=
  .next (if s.dev.attBusy then
      let r := s.report
      s.modDev (fun d => { d with attBusy := false, attBuf := Memory.writeBytes d.attBuf 0 r })
    else s)

/-! ### Retirement (R454 to R458) -/

/-- A core out of service: its capability bit clears. -/
def State.disableCore (s : State) (k : Nat) : State :=
  (s.modCore k (fun c => { c with enabled := false })).modDev (fun d => { d with capCore := d.capCore &&& ~~~(BitVec.ofNat 64 (2 ^ k)) })

/-- SOFTCORE: from state PATCH on; before state RUN the cores are disabled at once. -/
def execSoftcoreWrite (value : DWord) (s : State) : Host.Outcome State Fault Refusal :=
  .next (if s.dev.stage < 2 then s
    else
      let s1 := s.modDev (fun d => { d with softCore := value, leaving := d.leaving ||| value })
      if 6 ≤ s.dev.stage then s1
      else (List.range 64).foldl (fun st k => if value.getLsbD k then st.disableCore k else st) s1)

/-- A core leaves service when no crew and no walker strand is left on it. -/
def execCoreRetirementDone (core : Nat) (s : State) : Host.Outcome State Fault Refusal :=
  .next (if s.retiring core && (s.core core).enabled && (s.residentOn core).isEmpty && decide (6 ≤ s.dev.stage) then
      ((s.disableCore core).modDev Device.remeasure).deviceError 3 core false
    else s)

def execSoftchanWrite (value : BitVec 16) (s : State) : Host.Outcome State Fault Refusal :=
  .next (if s.dev.stage ≤ 2 then s.modDev (fun d => { d with softChan := value }) else s.refuseControl)

def execSoftportWrite (value : BitVec 4) (s : State) : Host.Outcome State Fault Refusal :=
  .next (if s.dev.stage ≤ 2 then s.modDev (fun d => { d with softPort := value }) else s.refuseControl)

/-- RCAND returns the oldest candidate and removes it; 0 when there is none. -/
def execRcandRead (s : State) : Host.Outcome State Fault Refusal :=
  .next ({ s with hostRd := leBytes 8 (s.dev.rcand.headD 0).toNat }.modDev (fun d => { d with rcand := d.rcand.tail }))

/-- RETW adds a page to the retirement table or removes it. -/
def execRetwWrite (value : DWord) (s : State) : Host.Outcome State Fault Refusal :=
  let page := value.toNat / 2 ^ 14
  .next (s.modDev (fun d =>
    if !value.getLsbD 0 then { d with retired := d.retired.filter (fun p => p ≠ page) }
    else if d.retired.contains page then d
    else if 512 ≤ d.retired.length then { d with rcOver := d.rcOver ||| 2 }
    else { d with retired := d.retired ++ [page] }))

/-! ### Errors (R434, R436, R453, R459) -/

/-- A write-back of a line with an uncorrectable error is dropped: memory keeps older contents, and the context that last wrote
the line has a fatal event; the device record has it where the host or a peer wrote last (R436). -/
def State.dropWriteback (s : State) (pa : Nat) : State :=
  let line := pa / 128
  if 2 ^ 46 ≤ pa || !s.bad (line * 128) 128 then s
  else
    let old := (List.range 128).map (fun i => Config.olderByte s.clock (line * 128 + i))
    let mem := Memory.writeBytes s.mem (line * 128) old
    let s1 : State := { s with mem := mem, ue := s.ue.filter (fun g => g / 4 ≠ line) }
    match smapGet s.lastCtx line with
    | some x => s1.fatalEvent x (.plain 17 true 0 pa)
    | none => s1.deviceError 1 pa false

def execUncorrectableWriteback (pa : Nat) (s : State) : Host.Outcome State Fault Refusal := .next (s.dropWriteback pa)

/-- The lines that a row of a slice holds; each has the slice as its home (R176). -/
def State.rowLines (s : State) (slice row : Nat) : List Nat :=
  ((Config.hearthLines slice row s.clock).take 8).filter (fun l => homeSlice (128 * l) = slice)

/-- Whether a row is to be repaired: an uncorrectable error in it, or a fourth corrected error in this boot (R453). -/
def State.rowFails (s : State) (slice row : Nat) : Bool :=
  let place := slice + 128 * row
  decide (slice < 128) && decide (row < hearthRows) && !s.dev.rowsDead.contains place
    && (decide (4 ≤ (smapGet s.dev.rowCe place).getD 0) || (s.rowLines slice row).any (fun l => s.bad (128 * l) 128))

/-- A failing row takes a spare of its slice, whose errors count anew, or is disabled when none is left. -/
def Device.replaceRow (d : Device) (slice row : Nat) : Device :=
  let place := slice + 128 * row
  let used := (smapGet d.spares slice).getD 0
  let d1 : Device := { d with rowCe := smapErase d.rowCe place }
  if used < 8 then { d1 with rowsFixed := (d.rowsFixed + 1) % 2 ^ 16, spares := smapSet d.spares slice (used + 1) }
  else { d1 with rowsOff := (d.rowsOff + 1) % 2 ^ 16, rowsDead := d.rowsDead ++ [place] }

/-- The repair of a failing Hearth row: clean lines and the write-back of corrected ones leave memory as it reads, and dirty lines with an
uncorrectable error are dropped (R436). -/
def execHearthRowRepair (slice row : Nat) (s : State) : Host.Outcome State Fault Refusal :=
  .next (if !s.rowFails slice row then s
    else
      let lost := (s.rowLines slice row).filter (fun l => Config.hearthDirty l s.clock)
      (lost.foldl (fun st l => st.dropWriteback (128 * l)) s).modDev (fun d => d.replaceRow slice row))

/-- Parity in a core's control state: a fatal event of every context with a crew there, and the core is retired (R458). -/
def execCoreParityError (core : Nat) (s : State) : Host.Outcome State Fault Refusal :=
  let s1 := (s.contextsOn core).foldl (fun st x => st.fatalEvent x { ErrInfo.plain 17 true 0 0 with core := core }) s
  .next (if core < 64 then s1.modDev (fun d => { d with leaving := d.leaving ||| BitVec.ofNat 64 (2 ^ core) }) else s)

/-- State FAILED: the device record, a fatal event of every context and its reset, whatever its RECOV (R459, R463). -/
def State.failDevice (s : State) (cause addr : Nat) : State :=
  let s1 := s.deviceError cause addr true
  let s2 := (List.range 64).foldl (fun st x => (st.recordError x (.plain 17 true 0 0)).contextReset x) s1
  s2.modDev (fun d => { d with stage := 7 })

def execDeviceParityError (addr : DWord) (s : State) : Host.Outcome State Fault Refusal := .next (if s.dev.power then s.failDevice 2 addr.toNat else s)

/-! ### Snapshots (R462) -/

/-- Clearing LATCHED arms the unit again. -/
def execSnapshotRearm (s : State) : Host.Outcome State Fault Refusal :=
  .next (s.modDev (fun d => { d with snap := { d.snap with latched := false } }))

def execSnapshotTimeTrigger (s : State) : Host.Outcome State Fault Refusal :=
  .next (if s.reached s.dev.snap.time then s.snapTrigger 2 (0, 0, 0) else s)

def execSnapshotPinTrigger (s : State) : Host.Outcome State Fault Refusal := .next (s.snapTrigger 1 (0, 0, 0))

def execTriggerOutputPulseEnd (s : State) : Host.Outcome State Fault Refusal :=
  .next (s.modDev (fun d => { d with snap := { d.snap with pulse := false } }))

/-! ### Power and temperature (R463) -/

/-- Every 100 µs: the throttle level follows power and temperature. -/
def execThrottleTick (power : BitVec 16) (temp : BitVec 8) (s : State) : Host.Outcome State Fault Refusal :=
  .next (s.modDev (fun d =>
    let hot := decide (95 ≤ temp.toNat)
    let up := d.pwrLim < power || (hot && decide (d.thr < 32))
    let thr := if up then min 48 (d.thr + 1) else if hot then max 32 (d.thr - 1) else d.thr - 1
    { d with pwr := power, temp := temp, thr := thr }))

def execThermalTrip (s : State) : Host.Outcome State Fault Refusal :=
  .next (if 105 ≤ s.dev.temp.toNat then s.failDevice 4 0 else s)

/-! ### Bring-up (R464, R465) -/

/-- State RESET: everything but the fuses is lost; host memory, what has left the device and what comes next stay as they
are. -/
def State.restart (s : State) : State :=
  { State.boot s.dev.fuses with mem := s.mem.filter (fun c => decide (hostBase ≤ c.1)), agenda := s.agenda, out := s.out, hostRd := s.hostRd }

def execPowerGood (s : State) : Host.Outcome State Fault Refusal := .next (if s.dev.power then s else s.restart)
def execPowerDown (s : State) : Host.Outcome State Fault Refusal := .next (s.restart.modDev (fun d => { d with power := false }))
def execFunctionLevelReset (s : State) : Host.Outcome State Fault Refusal := .next (if s.dev.power then s.restart else s)
def execModuleResetPin (s : State) : Host.Outcome State Fault Refusal := .next (if s.dev.power then s.restart else s)

def execResetStateDone (s : State) : Host.Outcome State Fault Refusal := .next (if s.dev.power && s.dev.stage = 0 then s.setStage 1 else s)

/-- ROMINIT leaves for PATCH when its work is done and the host link is trained. -/
def State.leaveRominit (s : State) : State := if s.dev.stage = 1 && s.dev.romDone && s.dev.linkUp then s.setStage 2 else s

/-- The self-test has ended: the identity keys are derived, and fused and failing cores and fused ports are disabled. -/
def execRominitDone (badCores : DWord) (s : State) : Host.Outcome State Fault Refusal :=
  .next (if s.dev.power && s.dev.stage = 1 && !s.dev.romDone then
      let d := s.dev
      let cap := d.capCore &&& ~~~badCores
      let s1 : State := { s with
        cores := s.cores.mapIdx (fun k c => { c with enabled := cap.getLsbD k })
        ports := s.ports.mapIdx (fun p x => { x with enabled := d.capPort.getLsbD p })
        dev := { d.deriveKeys with romDone := true, capCore := cap } }
      s1.leaveRominit
    else s)

def execHostLinkTrained (s : State) : Host.Outcome State Fault Refusal :=
  .next (if s.dev.power then (s.modDev (fun d => { d with linkUp := true })).leaveRominit else s)

/-- Usable memory of n channels (R460). -/
def memSizeOf (n : Nat) : Nat := 2 ^ 25 * (n * 5625000000 / 2 ^ 25)

/-- The members of a mask, ascending. -/
def maskList (n x : Nat) : List Nat := (List.range n).filter (fun i => x.testBit i)

/-- Memory training has ended: retired and failing channels are disabled, and device memory is zero. -/
def execMemtrainDone (badChans : BitVec 16) (s : State) : Host.Outcome State Fault Refusal :=
  .next (if s.dev.stage = 3 then
      let live := s.dev.capChan &&& ~~~s.dev.softChan
      let cap := live &&& ~~~badChans
      let failed := maskList 16 (live &&& badChans).toNat
      let s1 : State := { s with mem := s.mem.filter (fun c => decide (hostBase ≤ c.1)), owners := [], ue := [], lastCtx := [] }
      let s2 := s1.modDev (fun d => { d with capChan := cap, memSize := BitVec.ofNat 64 (memSizeOf (maskList 16 cap.toNat).length) })
      failed.foldl (fun st c => st.deviceError 6 c false) ((s2.modDev Device.remeasure).setStage 4)
    else s)

/-- A port brought up: a mode still 0 becomes one 200GbE interface with PTP. -/
def Port.bringUp (p : Port) (on : Bool) : Port :=
  if !on then { p with enabled := false, mode := 0 }
  else if p.mode = 0 then { p with enabled := true, mode := 1, ptpEn := true } else { p with enabled := true }

def execPortsUp (badPorts : BitVec 4) (s : State) : Host.Outcome State Fault Refusal :=
  .next (if s.dev.stage = 4 then
      let live := s.dev.capPort &&& ~~~s.dev.softPort
      let cap := live &&& ~~~badPorts
      let failed := maskList 4 (live &&& badPorts).toNat
      let s1 : State := { s with ports := s.ports.mapIdx (fun p x => x.bringUp (cap.getLsbD p)) }
      let s2 := s1.modDev (fun d => { d with capPort := cap })
      failed.foldl (fun st p => st.deviceError 6 p false) ((s2.modDev Device.remeasure).setStage 5)
    else s)

/-- TIMEGO sets the clock, unless the follower has set it already, and ends state TIME. Before the servo has locked, OFFSET is 0 and stays so
in RUN until it locks (R393). -/
def execTimego (s : State) : Host.Outcome State Fault Refusal :=
  .next (if s.dev.stage = 5 then
      let s1 : State := if s.ptp.stepped then s else { s with clock := s.dev.timeSet, ptp := { s.ptp with stepped := true } }
      ({ s1 with ptp := { s1.ptp with offset := if s1.ptp.lock then s1.ptp.offset else 0, hushed := !s1.ptp.lock } }).setStage 6
    else s.refuseControl)

end Sys2Proof.Machine
end

