-- ==== Sys2Proof/Machine/Immediate.lean ====
section
/-! DEFINITION. Class 0x1, the integer immediate instructions (spec/05_lane_instructions.md R92, R105, R106). -/

namespace Sys2Proof.Machine

/-- The immediate of an RI word as 32 bits (R92). -/
def UnitSt.imm32 (u : UnitSt) (i : BitVec 9) : Word := word32 (u.immediate 9 i.toNat)

/-- A guarded immediate form: `tag` is the result's tag from va's, `f` the result from the unit, lane and immediate. -/
def immForm (i : Instr) (d a : BitVec 6) (imm : BitVec 9) (g : BitVec 3) (sat : Bool) (tag : Bool → Tag → Tag)
    (f : Bool → Word → Word → Word) (s : State) : Host.Outcome State Fault Refusal :=
  let r : Req := { instr := i, pg := g.toNat, reads := regs1 a, writes := regs1 d, imm := true, sat := sat, rep := .ri, walker := true }
  issue r (fun e m =>
    let sv := sat && e.t.unit.sat false
    r.put e m [e.t.result m (tag sv (e.t.reg a.toNat).tag) d.toNat (fun l => f sv (e.t.lane a.toNat l) (e.t.unit.imm32 imm))]) s

/-- A shift by an immediate amount, which takes no `hint.imm` (R105). -/
def immShift (i : Instr) (d a : BitVec 6) (n : BitVec 5) (g : BitVec 3) (aff : Bool) (f : Word → Nat → Word) (s : State) :
    Host.Outcome State Fault Refusal :=
  let r : Req := { instr := i, pg := g.toNat, reads := regs1 a, writes := regs1 d, rep := .ri, walker := true }
  issue r (fun e m =>
    let tag := if aff then (e.t.reg a.toNat).tag else tag3 (e.t.tags r.reads)
    r.put e m [e.t.result m tag d.toNat (fun l => f (e.t.lane a.toNat l) n.toNat)]) s

/-- Tags of R54: case 3 only, and case 4, in which an immediate counts as uniform. -/
def tagPlain (_ : Bool) (t : Tag) : Tag := tag3 [t]
def tagAff (sat : Bool) (t : Tag) : Tag := if sat then tag3 [t] else t

/-- `movi` (R106): the same value in every lane of the group. -/
def execMovi (d : BitVec 6) (i : BitVec 18) (s : State) : Host.Outcome State Fault Refusal :=
  let r : Req := { instr := .movi d i, writes := regs1 d, imm := true, walker := true }
  issue r (fun e m => r.put e m [e.t.result m .uniform d.toNat (fun _ => word32 (e.t.unit.immediate 18 i.toNat))]) s

/-- `movhi` (R106): the old destination must be uniform. -/
def execMovhi (d : BitVec 6) (i : BitVec 14) (s : State) : Host.Outcome State Fault Refusal :=
  let r : Req := { instr := .movhi d i, reads := regs1 d, writes := regs1 d, walker := true }
  issue r (fun e m =>
    if (e.t.reg d.toNat).tag ≠ .uniform then e.illegal
    else r.put e m [e.t.result m .uniform d.toNat (fun l =>
      BitVec.ofNat 32 ((e.t.lane d.toNat l).toNat % 2 ^ 18 + i.toNat * 2 ^ 18))]) s

/-- `iota` (R106): base plus stride times the lane number; `hint.imm` widens the base. -/
def execIota (d : BitVec 6) (b st : BitVec 9) (s : State) : Host.Outcome State Fault Refusal :=
  let r : Req := { instr := .iota d b st, writes := regs1 d, imm := true, walker := true }
  issue r (fun e m => r.put e m [e.t.result m .affine d.toNat (fun l =>
    word32 (e.t.unit.immediate 9 b.toNat + sextInt st.toNat 9 * l))]) s

def execAddImm (d a : BitVec 6) (i : BitVec 9) (g : BitVec 3) (s : State) : Host.Outcome State Fault Refusal :=
  immForm (.addImm d a i g) d a i g true tagAff (fun sat x y => word32 (if sat then satS (sgn x + sgn y) 32 else sgn x + sgn y)) s

def execMulImm (d a : BitVec 6) (i : BitVec 9) (g : BitVec 3) (s : State) : Host.Outcome State Fault Refusal :=
  immForm (.mulImm d a i g) d a i g false tagAff (fun _ x y => x * y) s

def execAndImm (d a : BitVec 6) (i : BitVec 9) (g : BitVec 3) (s : State) : Host.Outcome State Fault Refusal :=
  immForm (.andImm d a i g) d a i g false tagPlain (fun _ x y => x &&& y) s

def execOrImm (d a : BitVec 6) (i : BitVec 9) (g : BitVec 3) (s : State) : Host.Outcome State Fault Refusal :=
  immForm (.orImm d a i g) d a i g false tagPlain (fun _ x y => x ||| y) s

def execXorImm (d a : BitVec 6) (i : BitVec 9) (g : BitVec 3) (s : State) : Host.Outcome State Fault Refusal :=
  immForm (.xorImm d a i g) d a i g false tagPlain (fun _ x y => x ^^^ y) s

def execShlImm (d a : BitVec 6) (n : BitVec 5) (g : BitVec 3) (s : State) : Host.Outcome State Fault Refusal :=
  immShift (.shlImm d a n g) d a n g true shlWord s

def execShrImm (d a : BitVec 6) (n : BitVec 5) (g : BitVec 3) (s : State) : Host.Outcome State Fault Refusal :=
  immShift (.shrImm d a n g) d a n g false shrWord s

def execSarImm (d a : BitVec 6) (n : BitVec 5) (g : BitVec 3) (s : State) : Host.Outcome State Fault Refusal :=
  immShift (.sarImm d a n g) d a n g false sarWord s

def execRotImm (d a : BitVec 6) (n : BitVec 5) (g : BitVec 3) (s : State) : Host.Outcome State Fault Refusal :=
  immShift (.rotImm d a n g) d a n g false rotWord s

def execMinImm (d a : BitVec 6) (i : BitVec 9) (g : BitVec 3) (s : State) : Host.Outcome State Fault Refusal :=
  immForm (.minImm d a i g) d a i g false tagPlain (fun _ x y => word32 (min (sgn x) (sgn y))) s

def execMaxImm (d a : BitVec 6) (i : BitVec 9) (g : BitVec 3) (s : State) : Host.Outcome State Fault Refusal :=
  immForm (.maxImm d a i g) d a i g false tagPlain (fun _ x y => word32 (max (sgn x) (sgn y))) s

def execLeaImm (d a : BitVec 6) (i : BitVec 9) (g : BitVec 3) (s : State) : Host.Outcome State Fault Refusal :=
  immForm (.leaImm d a i g) d a i g false tagAff (fun _ x y => x + y * 4) s

end Sys2Proof.Machine
end

