-- ==== Sys2Proof/Machine/RegisterEvents.lean ====
section
/-! DEFINITION. What the host reads at the registers of BAR 0 and BAR 2, and its writes to the registers of BAR 0
that have no row of their own (R376, R378, R389, R393, R396, R399, R403, R359,
R437, R388, R435, R443, R447, R452, R454, R459, R462, R463). A register of 64 bits takes whole or half writes; a register that only the
device writes, and an offset that no table names, ignore them. Where the manual names a block's contents and not their offsets (the
addresses of a logical port, LLYNCTL and the peer table) assumption 23 lays them out. -/

namespace Sys2Proof.Machine

/-! ### Registers read (R7, R8, R376, R378)

A read returns the words that stand at its offset: write-only fields, reserved bits and offsets that no table names are zero. -/

/-- One 32-bit half of a 64-bit value. -/
def halfOf (x : DWord) (high : Bool) : Nat := if high then x.toNat / 2 ^ 32 else x.toNat % 2 ^ 32

/-- The device's own registers (R443, R435, R452 to R455, R459, R462, R463). -/
def Device.readWord (d : Device) (off : Nat) : Nat :=
  let half (x : DWord) : Nat := halfOf x (off % 8 = 4)
  match off / 8 * 8 with
  | 0x10 => half d.capCore
  | 0x20 => half d.memSize
  | 0x28 => half d.softCore
  | 0x40 => half d.timeSet
  | 0x208 => half d.err.addr
  | 0x210 => half d.err.time
  | 0x308 => half d.snap.time
  | 0x310 => half d.snap.ltime
  | _ => match off with
    | 0x00 => d.idWord
    | 0x08 => d.stateWord
    | 0x18 => d.capWord
    | 0x30 => d.softChan.toNat + d.softPort.toNat * 2 ^ 16
    | 0x38 => b2n d.rej (2 ^ 27)
    | 0x48 => d.svnWord
    | 0x50 => b2n d.attBusy (2 ^ 30) + b2n d.attRej (2 ^ 29)
    | 0x200 => d.err.cause.toNat + b2n d.err.ovr (2 ^ 29) + b2n (d.stage = 7) (2 ^ 30) + b2n d.err.valid (2 ^ 31)
    | 0x300 => d.snap.ctl
    | 0x304 => d.snap.srcWord
    | 0x318 => d.snap.swCore + d.snap.swStrand * 2 ^ 16
    | 0x380 => d.pwr.toNat
    | 0x384 => d.pwrLim.toNat
    | 0x388 => d.thr
    | 0x38C => d.temp.toNat
    | 0x400 => d.ceMem.toNat
    | 0x404 => d.ceHearth.toNat
    | 0x408 => d.ceBuf.toNat
    | 0x40C => d.ceReg.toNat
    | 0x410 => d.ceSwage.toNat
    | 0x414 => d.cePar.toNat
    | 0x500 => d.rowsFixed + d.rowsOff * 2 ^ 16
    | 0x510 => d.rcOver.toNat
    | _ => 0

/-- A logical port's registers (R389; assumption 23). -/
def LPort.readWord (x : LPort) (at_ : Nat) : Nat :=
  match at_ with
  | 0 => x.mac.toNat % 2 ^ 32
  | 4 => x.mac.toNat / 2 ^ 32
  | 8 => x.ip.toNat
  | 0xC => x.drop.toNat
  | _ => 0

/-- A port's block (R389). -/
def Port.readWord (p : Port) (at_ : Nat) : Nat :=
  if at_ = 0 then p.ctl
  else if 0x10 ≤ at_ && at_ < 0x20 then p.lp0.readWord (at_ - 0x10)
  else if 0x50 ≤ at_ && at_ < 0x60 then p.lp1.readWord (at_ - 0x50)
  else 0

/-- PTPCTL, FADJ and the event registers (R393); what the latter hold of the stamps is open (assumption 85). -/
def Ptp.readWord (p : Ptp) (at_ : Nat) : Nat :=
  match at_ with
  | 0x00 => b2n p.host 1 + p.port.toNat * 2 ^ 10 + p.domain.toNat * 2 ^ 16 + b2n p.lock (2 ^ 24)
  | 0x04 => p.offset.toNat
  | 0x08 => halfOf p.fadj false
  | 0x0C => halfOf p.fadj true
  | _ => if 0x10 ≤ at_ && at_ < 0x40 then halfOf (Config.ptpStampReg ((at_ - 0x10) / 8) [p.t1, p.t2, p.t3, p.t4]) (at_ % 8 = 4) else 0

/-- A session's block (R396). -/
def Session.readWord (x : Session) (at_ : Nat) : Nat :=
  match at_ with
  | 0x00 => halfOf x.desc false
  | 0x04 => halfOf x.desc true
  | 0x08 => x.ctx + x.why * 2 ^ 24 + b2n x.rej (2 ^ 28) + b2n x.up (2 ^ 29)
  | 0x0C => x.sstat.toNat
  | 0x10 => x.merge.toNat
  | _ => 0

/-- An entry of the peer table (assumption 23). -/
def Peer.readWord (x : Peer) (at_ : Nat) : Nat :=
  match at_ with
  | 0x00 => x.ip.toNat
  | 0x04 => x.port.toNat
  | 0x08 => x.mac.toNat % 2 ^ 32
  | 0x0C => x.mac.toNat / 2 ^ 32
  | 0x10 => x.mask.toNat
  | _ => 0

/-- A collective group's block (R403, R415). -/
def Group.readWord (g : Group) (at_ : Nat) : Nat :=
  match at_ with
  | 0x00 => g.size + g.myIdx * 2 ^ 16 + b2n g.en (2 ^ 31)
  | 0x04 => g.guard.toNat
  | 0x08 => halfOf g.bobj false
  | 0x0C => halfOf g.bobj true
  | 0x80 => halfOf g.decided false
  | 0x84 => halfOf g.decided true
  | 0x88 => g.dcount.toNat
  | _ => if 0x40 ≤ at_ && at_ < 0x80 then leNat ((g.ranks.drop (at_ - 0x40)).take 4) else 0

/-- A window's registers (R381); a publication is in progress from its enqueueing on (assumption 34). -/
def Window.readWord (w : Window) (at_ : Nat) : Nat :=
  let half (x : DWord) : Nat := halfOf x (at_ % 8 = 4)
  match at_ / 8 with
  | 0 => half w.wback
  | 1 => half w.wfront
  | 2 => half w.wvera
  | 3 => if at_ = 0x18 then w.wpages else b2n (!w.quiet) (2 ^ 29) + b2n w.rej (2 ^ 30) + b2n w.en (2 ^ 31)
  | 4 => half w.wver
  | _ => 0

/-- The error record's registers (R437). -/
def ErrRec.readWord (r : ErrRec) (frozen : Bool) (at_ : Nat) : Nat :=
  match at_ with
  | 0x88 => r.cause.toNat + b2n r.nested (2 ^ 27) + b2n frozen (2 ^ 28) + b2n r.ovr (2 ^ 29) + b2n r.fatal (2 ^ 30) + b2n r.valid (2 ^ 31)
  | 0x8C => r.core + r.strand * 2 ^ 6 + r.lanes.toNat * 2 ^ 16
  | 0x90 => halfOf r.seq false
  | 0x94 => halfOf r.seq true
  | 0x98 => halfOf r.addr false
  | 0x9C => halfOf r.addr true
  | 0xA0 => halfOf r.pc false
  | 0xA4 => halfOf r.pc true
  | 0xA8 => r.code.toNat
  | 0xAC => r.eccCons.toNat
  | _ => 0

/-- Crews of a context now saved (R333). -/
def State.savedCount (s : State) (x : Nat) : Nat := (s.crews.filter (fun c => c.ctx = x && !c.walker && c.state = .saved)).length

/-- A context's management block (R22, R333, R359, R378, R388, R407, R408, R437). -/
def State.readBlock (s : State) (ctx at_ : Nat) : Nat :=
  let x := s.ctx ctx
  let half (v : DWord) : Nat := halfOf v (at_ % 8 = 4)
  if 0x200 ≤ at_ && at_ < 0x400 then (x.window ((at_ - 0x200) / 64)).readWord ((at_ - 0x200) % 64)
  else if 0x400 ≤ at_ && at_ < 0x440 then half (x.tcs.getD ((at_ - 0x400) / 8) 0)
  else if 0x88 ≤ at_ && at_ < 0x100 then x.err.readWord x.frozen at_
  else match at_ / 8 * 8 with
    | 0x08 => half x.saveBase
    | 0x20 => half x.ptroot
    | 0x28 => half x.walkPc
    | 0x30 => half x.walkArg
    | 0x48 => half (x.evBase + BitVec.ofNat 64 x.evLog.toNat)
    | 0x58 => half x.fillVa
    | 0x60 => half x.fillEnt
    | 0x78 => half x.pool
    | 0x80 => half x.trapPc
    | 0x100 => half x.loader.imgAddr
    | 0x108 => half x.loader.loadVa
    | _ => match at_ with
      | 0x00 => b2n (s.idle ctx) 1
      | 0x10 => x.slots + b2n x.slotsRej (2 ^ 31)
      | 0x14 => s.liveCount ctx + s.savedCount ctx * 2 ^ 16
      | 0x18 => x.quenches.toNat
      | 0x1C => x.saves.toNat
      | 0x38 => x.migT.toNat
      | 0x40 => x.assist.toNat + b2n x.assistRej (2 ^ 31)
      | 0x50 => x.evHead.toNat
      | 0x54 => x.evTail.toNat
      | 0x68 => x.fillCtl.toNat
      | 0x110 => x.loader.site.toNat + b2n x.loader.busy (2 ^ 30)
      | 0x114 => x.loader.status.toNat + x.loader.sym.toNat * 2 ^ 8
      | 0x440 => x.relay.toNat
      | _ => 0

/-- An entry of the queue binding table (R379). -/
def Queue.readWord (q : Queue) (at_ : Nat) : Nat :=
  match at_ with
  | 0x00 => halfOf q.rbase false
  | 0x04 => halfOf q.rbase true
  | 0x08 => q.ctx + q.k * 2 ^ 16 + b2n q.en (2 ^ 21)
  | 0x0C => q.gen.toNat
  | _ => 0

/-- The 32-bit word at an offset of BAR 0 (R376). -/
def State.readWord (s : State) (off : Nat) : Nat :=
  if off < 0x10000 then
    if off / 8 * 8 = 0x508 then halfOf (s.dev.rcand.headD 0) (off % 8 = 4) else s.dev.readWord off
  else if off < 0x10400 then (s.port ((off - 0x10000) / 0x100)).readWord (off % 0x100)
  else if 0x10800 ≤ off && off < 0x10840 then s.ptp.readWord (off - 0x10800)
  else if 0x11000 ≤ off && off < 0x11800 then (s.session ((off - 0x11000) / 32)).readWord (off % 32)
  else if off = 0x12000 then s.lly.rank + s.lly.port.toNat * 2 ^ 16
  else if 0x12010 ≤ off && off < 0x12810 then (s.lly.peers.getD ((off - 0x12010) / 32) .fresh).readWord ((off - 0x12010) % 32)
  else if 0x13000 ≤ off && off < 0x14000 then (s.group ((off - 0x13000) / 0x100)).readWord (off % 0x100)
  else if 0x20000 ≤ off && off < 0x30000 then
    (if s.dev.stage ≤ 2 then s.dev.staging else s.dev.attBuf).readNat (off - 0x20000) 4
  else if 0x100000 ≤ off && off < 0x140000 then s.readBlock ((off - 0x100000) / 0x1000) (off % 0x1000)
  else if 0x140000 ≤ off && off < 0x148000 then (s.queue ((off - 0x140000) / 32)).readWord (off % 32)
  else if 0x180000 ≤ off && off < 0x1D0000 then s.dev.snap.areas.readNat off 4
  else 0

/-! ### Host reads (R376, R380) -/

/-- Where the model puts BAR 0 and BAR 2 among the addresses of a host read; the host places them where it likes (assumption 88). -/
def bar0Base : Nat := 2 ^ 66
def bar2Base : Nat := 2 ^ 66 + 2 ^ 32

/-- The bytes of a range of BAR 0 (2 MiB) or BAR 2 (256 KiB). -/
def State.barBytes (s : State) (addr count : Nat) : List Byte :=
  (List.range count).map (fun i =>
    let a := addr + i
    if a < bar2Base then BitVec.ofNat 8 (s.readWord ((a - bar0Base) / 4 * 4) / 2 ^ (8 * (a % 4)))
    else BitVec.ofNat 8 (s.kickLoad (kickBase + (a - bar2Base)) 1))

def inBars (addr count : Nat) : Bool :=
  (decide (bar0Base ≤ addr) && decide (addr + count ≤ bar0Base + 2 ^ 21)) || (decide (bar2Base ≤ addr) && decide (addr + count ≤ bar2Base + 2 ^ 18))

/-- Whether a read takes the candidate that RCAND holds (R454). -/
def takesCandidate (addr count : Nat) : Bool := decide (addr ≤ bar0Base + 0x508) && decide (bar0Base + 0x508 < addr + count)

/-- The bytes a host read returns: registers over a trained link, and of memory the coherence-latest value. -/
def execHostRead (pa count : Nat) (s : State) : Host.Outcome State Fault Refusal :=
  .next (if hostReaches pa count then { s with hostRd := s.peekBytes pa count }
    else if s.dev.linkUp && inBars pa count then
      let s1 : State := { s with hostRd := s.barBytes pa count }
      if takesCandidate pa count then s1.modDev (fun d => { d with rcand := d.rcand.tail }) else s1
    else s)

/-! ### Parts of a register -/

/-- One 32-bit half of a 64-bit register replaced. -/
def setHalf (x : DWord) (high : Bool) (v : Word) : DWord :=
  BitVec.ofNat 64 (if high then x.toNat % 2 ^ 32 + v.toNat * 2 ^ 32 else x.toNat / 2 ^ 32 * 2 ^ 32 + v.toNat)

/-- FADJ is clamped to ±200 ppm, in units of 2^−16 ppb (R393). -/
def clampAdj (x : DWord) : DWord :=
  let lim : Int := 200000 * 2 ^ 16
  BitVec.ofNat 64 (wrapNat (max (-lim) (min lim (signed64 x))) 64)

/-! ### Registers of 64 bits -/

/-- The 64-bit register at an offset that a host may write, as it stands. -/
def State.reg64 (s : State) (off : Nat) : Option DWord :=
  let blk := (off - 0x100000) / 0x1000
  let at_ := off % 0x1000
  if off = 0x40 then some s.dev.timeSet
  else if off = 0x308 then some s.dev.snap.time
  else if off = 0x10808 then some s.ptp.fadj
  else if 0x11000 ≤ off && off < 0x11800 then (if off % 32 = 0 then some (s.session ((off - 0x11000) / 32)).desc else none)
  else if 0x13000 ≤ off && off < 0x14000 then (if off % 0x100 = 8 then some (s.group ((off - 0x13000) / 0x100)).bobj else none)
  else if 0x100000 ≤ off && off < 0x140000 then
    let x := s.ctx blk
    match at_ with
    | 0x58 => some x.fillVa
    | 0x60 => some x.fillEnt
    | 0x78 => some x.pool
    | 0x80 => some x.trapPc
    | 0x100 => some x.loader.imgAddr
    | 0x108 => some x.loader.loadVa
    | _ => none
  else none

/-- That register written. -/
def State.putReg64 (s : State) (off : Nat) (v : DWord) : State :=
  let blk := (off - 0x100000) / 0x1000
  let at_ := off % 0x1000
  if off = 0x40 then s.modDev (fun d => { d with timeSet := v })
  else if off = 0x308 then s.modDev (fun d => { d with snap := { d.snap with time := v } })
  else if off = 0x10808 then { s with ptp := { s.ptp with fadj := clampAdj v } }
  else if off < 0x11800 then s.modSession ((off - 0x11000) / 32) (fun x => { x with desc := v })
  else if off < 0x14000 then s.modGroup ((off - 0x13000) / 0x100) (fun g => { g with bobj := v })
  else if !s.managed blk then s
  else s.modCtx blk (fun x => match at_ with
    | 0x58 => { x with fillVa := v }
    | 0x60 => { x with fillEnt := v }
    | 0x78 => { x with pool := v &&& ~~~0x3FFF }
    | 0x80 => { x with trapPc := v }
    | 0x100 => { x with loader := { x.loader with imgAddr := v } }
    | 0x108 => { x with loader := { x.loader with loadVa := v } }
    | _ => x)

/-! ### Registers of 32 bits -/

/-- The device's own registers (R435, R443, R452, R454, R459, R462, R463). -/
def Device.write32 (d : Device) (off : Nat) (v : Word) : Device :=
  let n := v.toNat
  match off with
  | 0x38 => { d with rej := d.rej && !v.getLsbD 27 }
  | 0x50 => { d with attRej := d.attRej && !v.getLsbD 29 }
  | 0x200 => { d with err := { d.err with valid := d.err.valid && !v.getLsbD 31, ovr := d.err.ovr && !v.getLsbD 29 } }
  | 0x300 => { d with snap := { d.snap with arm := BitVec.truncate 4 v, latched := d.snap.latched && !v.getLsbD 31 } }
  | 0x384 => { d with pwrLim := BitVec.ofNat 16 (max 2400 (min 5120 (n % 2 ^ 16))) }
  | 0x400 => { d with ceMem := v }
  | 0x404 => { d with ceHearth := v }
  | 0x408 => { d with ceBuf := v }
  | 0x40C => { d with ceReg := v }
  | 0x410 => { d with ceSwage := v }
  | 0x414 => { d with cePar := v }
  | 0x510 => { d with rcOver := d.rcOver &&& ~~~(BitVec.truncate 2 v) }
  | _ => d

/-- The addresses of a logical port (R389; assumption 23): MAC in the first 8 bytes, IPv4 address in the next 4. -/
def LPort.write32 (x : LPort) (at_ : Nat) (v : Word) : LPort :=
  match at_ with
  | 0 => { x with mac := BitVec.ofNat 48 (x.mac.toNat / 2 ^ 32 * 2 ^ 32 + v.toNat) }
  | 4 => { x with mac := BitVec.ofNat 48 (x.mac.toNat % 2 ^ 32 + v.toNat % 2 ^ 16 * 2 ^ 32) }
  | 8 => { x with ip := v }
  | _ => x

/-- An entry of the peer table (assumption 23): IPv4 address, UDP port, MAC and path mask. -/
def Peer.write32 (x : Peer) (at_ : Nat) (v : Word) : Peer :=
  match at_ with
  | 0x00 => { x with ip := v }
  | 0x04 => { x with port := BitVec.truncate 16 v }
  | 0x08 => { x with mac := BitVec.ofNat 48 (x.mac.toNat / 2 ^ 32 * 2 ^ 32 + v.toNat) }
  | 0x0C => { x with mac := BitVec.ofNat 48 (x.mac.toNat % 2 ^ 32 + v.toNat % 2 ^ 16 * 2 ^ 32) }
  | 0x10 => { x with mask := BitVec.truncate 8 v }
  | _ => x

/-- A collective group's registers (R403). -/
def Group.write32 (g : Group) (at_ : Nat) (v : Word) : Group :=
  let n := v.toNat
  if at_ = 0 then { g with en := v.getLsbD 31, myIdx := bitsOf n 16 6, size := bitsOf n 0 7 }
  else if at_ = 4 then { g with guard := v }
  else if 0x40 ≤ at_ && at_ < 0x80 then
    { g with ranks := (List.range 4).foldl (fun r i => r.set (at_ - 0x40 + i) (BitVec.ofNat 8 (n / 2 ^ (8 * i)))) g.ranks }
  else g

/-- The control word of a session without OPEN and CLOSE (R396). -/
def Session.write32 (x : Session) (at_ : Nat) (v : Word) : Session :=
  if at_ = 8 then { x with ctx := bitsOf v.toNat 0 6, rej := x.rej && !v.getLsbD 28 } else x

/-- A context's registers of 32 bits (R359, R437). -/
def Context.write32 (x : Context) (at_ : Nat) (v : Word) : Context :=
  match at_ with
  | 0x38 => { x with migT := BitVec.truncate 16 v }
  | 0x54 => { x with evTail := v }
  | 0x88 => { x with err := { x.err with valid := x.err.valid && !v.getLsbD 31, ovr := x.err.ovr && !v.getLsbD 29 } }
  | 0xAC => { x with err := { x.err with eccCons := v } }
  | _ => x

/-- A context's block: FILLCTL without GO and END only keeps its fields, and room in the event ring lets waiting records in. -/
def State.writeBlock32 (s : State) (x at_ : Nat) (v : Word) : State :=
  if !s.managed x then s
  else if at_ = 0x68 then s.fillControl x (v &&& 0x3FFFFFFF)
  else
    let s1 := s.modCtx x (fun c => c.write32 at_ v)
    if at_ = 0x54 then s1.flushEvents x (s1.ctx x).evWait.length else s1

/-- The staging area before state PATCH ends, and the nonce after it (R447, R448, R452). -/
def Device.writeStaging (d : Device) (at_ : Nat) (bs : List Byte) : Device :=
  if d.stage ≤ 2 then (if d.verify then d else { d with staging := Memory.writeBytes d.staging at_ bs })
  else if 0x3F00 ≤ at_ && at_ + bs.length ≤ 0x3F20 then { d with attBuf := Memory.writeBytes d.attBuf at_ bs }
  else d

def State.write32 (s : State) (off : Nat) (v : Word) : State :=
  if off < 0x10000 then s.modDev (fun d => d.write32 off v)
  else if off < 0x10400 then
    let p := (off - 0x10000) / 0x100
    let at_ := off % 0x100
    if 0x10 ≤ at_ && at_ < 0x1C then s.modPort p (fun x => { x with lp0 := x.lp0.write32 (at_ - 0x10) v })
    else if 0x50 ≤ at_ && at_ < 0x5C then s.modPort p (fun x => { x with lp1 := x.lp1.write32 (at_ - 0x50) v })
    else s
  else if 0x11000 ≤ off && off < 0x11800 then s.modSession ((off - 0x11000) / 32) (fun x => x.write32 (off % 32) v)
  else if off = 0x12000 then { s with lly := { s.lly with rank := bitsOf v.toNat 0 6, port := BitVec.ofNat 16 (bitsOf v.toNat 16 16) } }
  else if 0x12010 ≤ off && off < 0x12810 then
    { s with lly := { s.lly with peers := modAt s.lly.peers ((off - 0x12010) / 32) (fun e => e.write32 ((off - 0x12010) % 32) v) } }
  else if 0x13000 ≤ off && off < 0x14000 then s.modGroup ((off - 0x13000) / 0x100) (fun g => g.write32 (off % 0x100) v)
  else if 0x100000 ≤ off && off < 0x140000 then s.writeBlock32 ((off - 0x100000) / 0x1000) (off % 0x1000) v
  else s

/-- A 32-bit write: to a register of 32 bits, or to half of one of 64. -/
def State.writeHalf (s : State) (off : Nat) (v : Word) : State :=
  match s.reg64 (off / 8 * 8) with
  | some x => s.putReg64 (off / 8 * 8) (setHalf x (off % 8 = 4) v)
  | none => s.write32 off v

/-- An aligned write of 4 or 8 bytes over a trained link. -/
def execRegisterWrite (off width : Nat) (value : DWord) (s : State) : Host.Outcome State Fault Refusal :=
  let lo : Word := BitVec.truncate 32 value
  let hi : Word := BitVec.truncate 32 (value >>> 32)
  .next (if !s.dev.linkUp || (width ≠ 4 && width ≠ 8) || off % width ≠ 0 then s
    else if 0x20000 ≤ off && off < 0x30000 then s.modDev (fun d => d.writeStaging (off - 0x20000) (leBytes width value.toNat))
    else if width = 4 then s.writeHalf off lo
    else match s.reg64 off with
      | some _ => s.putReg64 off value
      | none => (s.write32 off lo).write32 (off + 4) hi)

end Sys2Proof.Machine
end

