-- ==== Sys2Proof/Machine/Dispatch.lean ====
section
/-! DEFINITION. The meaning of every instruction: one arm per constructor of `Instr`, each one call of its meaning. -/

namespace Sys2Proof.Machine

def exec (i : Instr) (s : State) : Host.Outcome State Fault Refusal :=
  match i with
  | .add d a b f g => Sys2Proof.Machine.execAdd d a b f g s
  | .sub d a b f g => Sys2Proof.Machine.execSub d a b f g s
  | .mul d a b f g => Sys2Proof.Machine.execMul d a b f g s
  | .mulhi d a b f g => Sys2Proof.Machine.execMulhi d a b f g s
  | .mad d a b c => Sys2Proof.Machine.execMad d a b c s
  | .min d a b f g => Sys2Proof.Machine.execMin d a b f g s
  | .max d a b f g => Sys2Proof.Machine.execMax d a b f g s
  | .lea d a b sx g => Sys2Proof.Machine.execLea d a b sx g s
  | .abs d a g => Sys2Proof.Machine.execAbs d a g s
  | .neg d a g => Sys2Proof.Machine.execNeg d a g s
  | .not d a g => Sys2Proof.Machine.execNot d a g s
  | .clz d a g => Sys2Proof.Machine.execClz d a g s
  | .popc d a g => Sys2Proof.Machine.execPopc d a g s
  | .brev d a g => Sys2Proof.Machine.execBrev d a g s
  | .and d a b w g => Sys2Proof.Machine.execAnd d a b w g s
  | .or d a b w g => Sys2Proof.Machine.execOr d a b w g s
  | .xor d a b w g => Sys2Proof.Machine.execXor d a b w g s
  | .andn d a b w g => Sys2Proof.Machine.execAndn d a b w g s
  | .shl d a b g => Sys2Proof.Machine.execShl d a b g s
  | .shr d a b g => Sys2Proof.Machine.execShr d a b g s
  | .sar d a b g => Sys2Proof.Machine.execSar d a b g s
  | .rot d a b g => Sys2Proof.Machine.execRot d a b g s
  | .bfe d a b sx g => Sys2Proof.Machine.execBfe d a b sx g s
  | .bfi d a b c => Sys2Proof.Machine.execBfi d a b c s
  | .icmp w u p a b c g => Sys2Proof.Machine.execIcmp w u p a b c g s
  | .sel d a b c => Sys2Proof.Machine.execSel d a b c s
  | .mov d a w g => Sys2Proof.Machine.execMov d a w g s
  | .movi d ix => Sys2Proof.Machine.execMovi d ix s
  | .movhi d ix => Sys2Proof.Machine.execMovhi d ix s
  | .iota d b sx => Sys2Proof.Machine.execIota d b sx s
  | .addImm d a ix g => Sys2Proof.Machine.execAddImm d a ix g s
  | .mulImm d a ix g => Sys2Proof.Machine.execMulImm d a ix g s
  | .andImm d a ix g => Sys2Proof.Machine.execAndImm d a ix g s
  | .orImm d a ix g => Sys2Proof.Machine.execOrImm d a ix g s
  | .xorImm d a ix g => Sys2Proof.Machine.execXorImm d a ix g s
  | .shlImm d a n g => Sys2Proof.Machine.execShlImm d a n g s
  | .shrImm d a n g => Sys2Proof.Machine.execShrImm d a n g s
  | .sarImm d a n g => Sys2Proof.Machine.execSarImm d a n g s
  | .rotImm d a n g => Sys2Proof.Machine.execRotImm d a n g s
  | .minImm d a ix g => Sys2Proof.Machine.execMinImm d a ix g s
  | .maxImm d a ix g => Sys2Proof.Machine.execMaxImm d a ix g s
  | .leaImm d a ix g => Sys2Proof.Machine.execLeaImm d a ix g s
  | .fadd d a b f g => Sys2Proof.Machine.execFadd d a b f g s
  | .fsub d a b f g => Sys2Proof.Machine.execFsub d a b f g s
  | .fmul d a b f g => Sys2Proof.Machine.execFmul d a b f g s
  | .fma d a b f g => Sys2Proof.Machine.execFma d a b f g s
  | .fmin d a b t g => Sys2Proof.Machine.execFmin d a b t g s
  | .fmax d a b t g => Sys2Proof.Machine.execFmax d a b t g s
  | .fabs d a t g => Sys2Proof.Machine.execFabs d a t g s
  | .fneg d a t g => Sys2Proof.Machine.execFneg d a t g s
  | .fcmp t p a b c g => Sys2Proof.Machine.execFcmp t p a b c g s
  | .fclass d a t g => Sys2Proof.Machine.execFclass d a t g s
  | .fdiv d a b f g => Sys2Proof.Machine.execFdiv d a b f g s
  | .fscale d a b f g => Sys2Proof.Machine.execFscale d a b f g s
  | .fsqrt d a f g => Sys2Proof.Machine.execFsqrt d a f g s
  | .frcp d a f g => Sys2Proof.Machine.execFrcp d a f g s
  | .frsqrt d a f g => Sys2Proof.Machine.execFrsqrt d a f g s
  | .fexp2 d a f g => Sys2Proof.Machine.execFexp2 d a f g s
  | .flog2 d a f g => Sys2Proof.Machine.execFlog2 d a f g s
  | .fsin d a f g => Sys2Proof.Machine.execFsin d a f g s
  | .fcos d a f g => Sys2Proof.Machine.execFcos d a f g s
  | .ffract d a t g => Sys2Proof.Machine.execFfract d a t g s
  | .fround d a t g => Sys2Proof.Machine.execFround d a t g s
  | .fdot2 d a b t sx g => Sys2Proof.Machine.execFdot2 d a b t sx g s
  | .cvt d a t sx u q g => Sys2Proof.Machine.execCvt d a t sx u q g s
  | .packB16 d a b g => Sys2Proof.Machine.execPackB16 d a b g s
  | .packB8Lo d a b g => Sys2Proof.Machine.execPackB8Lo d a b g s
  | .packB8Hi d a b g => Sys2Proof.Machine.execPackB8Hi d a b g s
  | .packB4Q0 d a b g => Sys2Proof.Machine.execPackB4Q0 d a b g s
  | .packB4Q1 d a b g => Sys2Proof.Machine.execPackB4Q1 d a b g s
  | .packB4Q2 d a b g => Sys2Proof.Machine.execPackB4Q2 d a b g s
  | .packB4Q3 d a b g => Sys2Proof.Machine.execPackB4Q3 d a b g s
  | .unpack d a k sx w g => Sys2Proof.Machine.execUnpack d a k sx w g s
  | .pand d a b g => Sys2Proof.Machine.execPand d a b g s
  | .por d a b g => Sys2Proof.Machine.execPor d a b g s
  | .pxor d a b g => Sys2Proof.Machine.execPxor d a b g s
  | .pnot d a g => Sys2Proof.Machine.execPnot d a g s
  | .pmov d a g => Sys2Proof.Machine.execPmov d a g s
  | .pcnt d g => Sys2Proof.Machine.execPcnt d g s
  | .pfirst d a g => Sys2Proof.Machine.execPfirst d a g s
  | .xperm d a k g => Sys2Proof.Machine.execXperm d a k g s
  | .xtab d a t g => Sys2Proof.Machine.execXtab d a t g s
  | .xbcast d a m g => Sys2Proof.Machine.execXbcast d a m g s
  | .xshflIdx d a b g => Sys2Proof.Machine.execXshflIdx d a b g s
  | .xshflXor d a b g => Sys2Proof.Machine.execXshflXor d a b g s
  | .xshflUp d a b g => Sys2Proof.Machine.execXshflUp d a b g s
  | .xshflDown d a b g => Sys2Proof.Machine.execXshflDown d a b g s
  | .xred d a f g => Sys2Proof.Machine.execXred d a f g s
  | .xscan d a f g => Sys2Proof.Machine.execXscan d a f g s
  | .xmaxi d a b f g => Sys2Proof.Machine.execXmaxi d a b f g s
  | .voteAny d a g => Sys2Proof.Machine.execVoteAny d a g s
  | .voteAll d a g => Sys2Proof.Machine.execVoteAll d a g s
  | .voteBallot d a g => Sys2Proof.Machine.execVoteBallot d a g s
  | .movcRead d n => Sys2Proof.Machine.execMovcRead d n s
  | .movcWrite a n => Sys2Proof.Machine.execMovcWrite a n s
  | .vshape d a g => Sys2Proof.Machine.execVshape d a g s
  | .bra o g => Sys2Proof.Machine.execBra o g s
  | .brx a g => Sys2Proof.Machine.execBrx a g s
  | .callDirect d ix => Sys2Proof.Machine.execCallDirect d ix s
  | .callIndirect d a => Sys2Proof.Machine.execCallIndirect d a s
  | .ret a g => Sys2Proof.Machine.execRet a g s
  | .meet o g => Sys2Proof.Machine.execMeet o g s
  | .yield => Sys2Proof.Machine.execYield s
  | .exit g => Sys2Proof.Machine.execExit g s
  | .nop => Sys2Proof.Machine.execNop s
  | .sleep n => Sys2Proof.Machine.execSleep n s
  | .bar b => Sys2Proof.Machine.execBar b s
  | .gbar => Sys2Proof.Machine.execGbar s
  | .sbar => Sys2Proof.Machine.execSbar s
  | .rgrow n => Sys2Proof.Machine.execRgrow n s
  | .rgrowTry p n => Sys2Proof.Machine.execRgrowTry p n s
  | .rshrink n => Sys2Proof.Machine.execRshrink n s
  | .disp d p g => Sys2Proof.Machine.execDisp d p g s
  | .ldB32 d a ix g => Sys2Proof.Machine.execLdB32 d a ix g s
  | .ldB64 d a ix g => Sys2Proof.Machine.execLdB64 d a ix g s
  | .ldF32 d a ix g => Sys2Proof.Machine.execLdF32 d a ix g s
  | .ldF16 d a ix g => Sys2Proof.Machine.execLdF16 d a ix g s
  | .ldBf16 d a ix g => Sys2Proof.Machine.execLdBf16 d a ix g s
  | .ldI32 d a ix g => Sys2Proof.Machine.execLdI32 d a ix g s
  | .stB8 d a ix g => Sys2Proof.Machine.execStB8 d a ix g s
  | .stB16 d a ix g => Sys2Proof.Machine.execStB16 d a ix g s
  | .stB32 d a ix g => Sys2Proof.Machine.execStB32 d a ix g s
  | .stB64 d a ix g => Sys2Proof.Machine.execStB64 d a ix g s
  | .ldbW d a ix g => Sys2Proof.Machine.execLdbW d a ix g s
  | .ldbA d a ix g => Sys2Proof.Machine.execLdbA d a ix g s
  | .ldbC d a ix g => Sys2Proof.Machine.execLdbC d a ix g s
  | .stbA d a ix g => Sys2Proof.Machine.execStbA d a ix g s
  | .stbC d a ix g => Sys2Proof.Machine.execStbC d a ix g s
  | .atom d a b f g => Sys2Proof.Machine.execAtom d a b f g s
  | .atomAcq d a b f g => Sys2Proof.Machine.execAtomAcq d a b f g s
  | .atomRel d a b f g => Sys2Proof.Machine.execAtomRel d a b f g s
  | .atomAcqRel d a b f g => Sys2Proof.Machine.execAtomAcqRel d a b f g s
  | .cas d a b o w g => Sys2Proof.Machine.execCas d a b o w g s
  | .acq => Sys2Proof.Machine.execAcq s
  | .rel => Sys2Proof.Machine.execRel s
  | .fence => Sys2Proof.Machine.execFence s
  | .waita d a b p g => Sys2Proof.Machine.execWaita d a b p g s
  | .txb g => Sys2Proof.Machine.execTxb g s
  | .txc p g => Sys2Proof.Machine.execTxc p g s
  | .txa g => Sys2Proof.Machine.execTxa g s
  | .cp d a b c => Sys2Proof.Machine.execCp d a b c s
  | .cp2 d a b c => Sys2Proof.Machine.execCp2 d a b c s
  | .cptab d a b c => Sys2Proof.Machine.execCptab d a b c s
  | .wait l sx c m => Sys2Proof.Machine.execWait l sx c m s
  | .waitx t sx c => Sys2Proof.Machine.execWaitx t sx c s
  | .pgreq d a g => Sys2Proof.Machine.execPgreq d a g s
  | .pfetch a l n g => Sys2Proof.Machine.execPfetch a l n g s
  | .mres p => Sys2Proof.Machine.execMres p s
  | .mrel => Sys2Proof.Machine.execMrel s
  | .cdecl c n => Sys2Proof.Machine.execCdecl c n s
  | .tld t a b c q sx e g => Sys2Proof.Machine.execTld t a b c q sx e g s
  | .tst t a b c q sx g => Sys2Proof.Machine.execTst t a b c q sx g s
  | .tzero t c q g => Sys2Proof.Machine.execTzero t c q g s
  | .tmeta t a b c q sx g => Sys2Proof.Machine.execTmeta t a b c q sx g s
  | .mma a b c q g => Sys2Proof.Machine.execMma a b c q g s
  | .mmas t a b c q g => Sys2Proof.Machine.execMmas t a b c q g s
  | .mswap c q g => Sys2Proof.Machine.execMswap c q g s
  | .mdrain k a b c q t x g => Sys2Proof.Machine.execMdrain k a b c q t x g s
  | .mclr k c q m g => Sys2Proof.Machine.execMclr k c q m g s
  | .mstat d => Sys2Proof.Machine.execMstat d s
  | .hgf d a b o g => Sys2Proof.Machine.execHgf d a b o g s
  | .hgs d a b ix g => Sys2Proof.Machine.execHgs d a b ix g s
  | .hgfold d a b c => Sys2Proof.Machine.execHgfold d a b c s
  | .march d a b g => Sys2Proof.Machine.execMarch d a b g s
  | .tex d a b g => Sys2Proof.Machine.execTex d a b g s
  | .trace d a b g => Sys2Proof.Machine.execTrace d a b g s
  | .tcontReject d a g => Sys2Proof.Machine.execTcontReject d a g s
  | .tcontAccept d a g => Sys2Proof.Machine.execTcontAccept d a g s
  | .tcontTerminate d a g => Sys2Proof.Machine.execTcontTerminate d a g s
  | .thit d sx g => Sys2Proof.Machine.execThit d sx g s
  | .tabort g => Sys2Proof.Machine.execTabort g s
  | .srd d v sx b p g => Sys2Proof.Machine.execSrd d v sx b p g s
  | .srdt t sx b p g => Sys2Proof.Machine.execSrdt t sx b p g s
  | .swr d v sx b g => Sys2Proof.Machine.execSwr d v sx b g s
  | .sinh sx m g => Sys2Proof.Machine.execSinh sx m g s
  | .sinhOffset d sx m g => Sys2Proof.Machine.execSinhOffset d sx m g s
  | .sts d sx f g => Sys2Proof.Machine.execSts d sx f g s
  | .sstat d sx f g => Sys2Proof.Machine.execSstat d sx f g s
  | .sflushLine sx g => Sys2Proof.Machine.execSflushLine sx g s
  | .sflushFrame sx g => Sys2Proof.Machine.execSflushFrame sx g s
  | .time d => Sys2Proof.Machine.execTime d s
  | .sleepu a => Sys2Proof.Machine.execSleepu a s
  | .launch p a g => Sys2Proof.Machine.execLaunch p a g s
  | .launchTail p a g => Sys2Proof.Machine.execLaunchTail p a g s
  | .publish w => Sys2Proof.Machine.execPublish w s
  | .cprog p a g => Sys2Proof.Machine.execCprog p a g s
  | .ctrigArm p a sx g => Sys2Proof.Machine.execCtrigArm p a sx g s
  | .ctrigDisarm p sx g => Sys2Proof.Machine.execCtrigDisarm p sx g s
  | .cctrAdd d a k g => Sys2Proof.Machine.execCctrAdd d a k g s
  | .cctrSet d a k g => Sys2Proof.Machine.execCctrSet d a k g s
  | .cctrRead d k g => Sys2Proof.Machine.execCctrRead d k g s
  | .tbar d a sx x g => Sys2Proof.Machine.execTbar d a sx x g s
  | .idemb => Sys2Proof.Machine.execIdemb s
  | .ideme => Sys2Proof.Machine.execIdeme s
  | .tlbw a l => Sys2Proof.Machine.execTlbw a l s
  | .tlbiVaCore a => Sys2Proof.Machine.execTlbiVaCore a s
  | .tlbiVaAll a => Sys2Proof.Machine.execTlbiVaAll a s
  | .tlbiCtxCore => Sys2Proof.Machine.execTlbiCtxCore s
  | .tlbiCtxAll => Sys2Proof.Machine.execTlbiCtxAll s
  | .lpiCore => Sys2Proof.Machine.execLpiCore s
  | .lpiAll => Sys2Proof.Machine.execLpiAll s
  | .walkd => Sys2Proof.Machine.execWalkd s
  | .trap c => Sys2Proof.Machine.execTrap c s
  | .rtt => Sys2Proof.Machine.execRtt s
  | .snap t => Sys2Proof.Machine.execSnap t s
  | .brk c => Sys2Proof.Machine.execBrk c s
  | .hintImm ix => Sys2Proof.Machine.execHintImm ix s
  | .hintPref a b c v => Sys2Proof.Machine.execHintPref a b c v s
  | .hintRnd m v sx q => Sys2Proof.Machine.execHintRnd m v sx q s
  | .hintSched sx r y => Sys2Proof.Machine.execHintSched sx r y s
  | .rep n d a b o => Sys2Proof.Machine.execRep n d a b o s
  | .loadValueArrival crew strand op => Sys2Proof.Machine.execLoadValueArrival crew strand op s
  | .storeAcknowledge crew strand op => Sys2Proof.Machine.execStoreAcknowledge crew strand op s
  | .copyCompletion crew strand op => Sys2Proof.Machine.execCopyCompletion crew strand op s
  | .swageOperationCompletion crew strand op => Sys2Proof.Machine.execSwageOperationCompletion crew strand op s
  | .fieldRequestCompletion crew strand op => Sys2Proof.Machine.execFieldRequestCompletion crew strand op s
  | .traversalStop crew strand lane => Sys2Proof.Machine.execTraversalStop crew strand lane s
  | .streamOperationCompletion crew strand op => Sys2Proof.Machine.execStreamOperationCompletion crew strand op s
  | .rgrowGrant core => Sys2Proof.Machine.execRgrowGrant core s
  | .strandEnd crew strand => Sys2Proof.Machine.execStrandEnd crew strand s
  | .fairnessRotation crew strand => Sys2Proof.Machine.execFairnessRotation crew strand s
  | .activeSetRotation crew strand => Sys2Proof.Machine.execActiveSetRotation crew strand s
  | .sleepExpiry crew strand => Sys2Proof.Machine.execSleepExpiry crew strand s
  | .sleepuExpiry crew strand => Sys2Proof.Machine.execSleepuExpiry crew strand s
  | .waitaDeadline crew strand lane => Sys2Proof.Machine.execWaitaDeadline crew strand lane s
  | .trapEntry crew strand cause mask va => Sys2Proof.Machine.execTrapEntry crew strand cause mask va s
  | .deferredTrap crew strand => Sys2Proof.Machine.execDeferredTrap crew strand s
  | .watchdogExpiry seq => Sys2Proof.Machine.execWatchdogExpiry seq s
  | .queueKick queue off width value => Sys2Proof.Machine.execQueueKick queue off width value s
  | .packetPull => Sys2Proof.Machine.execPacketPull s
  | .dependencyMet queue => Sys2Proof.Machine.execDependencyMet queue s
  | .earliestReached seq => Sys2Proof.Machine.execEarliestReached seq s
  | .heapDeadlineExpiry seq => Sys2Proof.Machine.execHeapDeadlineExpiry seq s
  | .placeUnit => Sys2Proof.Machine.execPlaceUnit s
  | .launchDeadlineCut seq => Sys2Proof.Machine.execLaunchDeadlineCut seq s
  | .timeSliceTick => Sys2Proof.Machine.execTimeSliceTick s
  | .gangQuench seq gang => Sys2Proof.Machine.execGangQuench seq gang s
  | .gangSave seq gang => Sys2Proof.Machine.execGangSave seq gang s
  | .restoreOnRelease => Sys2Proof.Machine.execRestoreOnRelease s
  | .launchCompletion seq => Sys2Proof.Machine.execLaunchCompletion seq s
  | .cxassistWrite ctx value => Sys2Proof.Machine.execCxassistWrite ctx value s
  | .saveAreaWrite ctx off value => Sys2Proof.Machine.execSaveAreaWrite ctx off value s
  | .translationRegisterWrite ctx off value => Sys2Proof.Machine.execTranslationRegisterWrite ctx off value s
  | .contextReset ctx => Sys2Proof.Machine.execContextReset ctx s
  | .queueBindingWrite queue off value => Sys2Proof.Machine.execQueueBindingWrite queue off value s
  | .walkStart core ctx va kind => Sys2Proof.Machine.execWalkStart core ctx va kind s
  | .hostFill ctx value => Sys2Proof.Machine.execHostFill ctx value s
  | .hostWalkEnd ctx value => Sys2Proof.Machine.execHostWalkEnd ctx value s
  | .resvaWrite ctx value => Sys2Proof.Machine.execResvaWrite ctx value s
  | .pageMigration ctx va => Sys2Proof.Machine.execPageMigration ctx va s
  | .hostWrite pa data atomic => Sys2Proof.Machine.execHostWrite pa data atomic s
  | .hostRead pa count => Sys2Proof.Machine.execHostRead pa count s
  | .windowRegisterWrite ctx win off value => Sys2Proof.Machine.execWindowRegisterWrite ctx win off value s
  | .publicationServe ctx win => Sys2Proof.Machine.execPublicationServe ctx win s
  | .publicationComplete ctx win => Sys2Proof.Machine.execPublicationComplete ctx win s
  | .loaderGo ctx => Sys2Proof.Machine.execLoaderGo ctx s
  | .loaderDone ctx => Sys2Proof.Machine.execLoaderDone ctx s
  | .portctlWrite port value => Sys2Proof.Machine.execPortctlWrite port value s
  | .ptpctlWrite value => Sys2Proof.Machine.execPtpctlWrite value s
  | .sessionOpen session value => Sys2Proof.Machine.execSessionOpen session value s
  | .sessionClose session => Sys2Proof.Machine.execSessionClose session s
  | .arpRequest lport target senderIp senderMac => Sys2Proof.Machine.execArpRequest lport target senderIp senderMac s
  | .ptpEventMessage lport msg => Sys2Proof.Machine.execPtpEventMessage lport msg s
  | .ptpMasterLoss => Sys2Proof.Machine.execPtpMasterLoss s
  | .videoPacketReceive lport pkt => Sys2Proof.Machine.execVideoPacketReceive lport pkt s
  | .opaquePacketReceive lport pkt => Sys2Proof.Machine.execOpaquePacketReceive lport pkt s
  | .lineClose session frame line => Sys2Proof.Machine.execLineClose session frame line s
  | .packetTransmit session => Sys2Proof.Machine.execPacketTransmit session s
  | .opaqueTransmit session => Sys2Proof.Machine.execOpaqueTransmit session s
  | .portLinkChange lport up => Sys2Proof.Machine.execPortLinkChange lport up s
  | .llynadReq lport hdr => Sys2Proof.Machine.execLlynadReq lport hdr s
  | .llynadGrant lport hdr => Sys2Proof.Machine.execLlynadGrant lport hdr s
  | .llynadData lport hdr flits => Sys2Proof.Machine.execLlynadData lport hdr flits s
  | .llynadAck lport hdr => Sys2Proof.Machine.execLlynadAck lport hdr s
  | .llynadSig lport hdr => Sys2Proof.Machine.execLlynadSig lport hdr s
  | .llynadAbt lport hdr => Sys2Proof.Machine.execLlynadAbt lport hdr s
  | .llynadArrive lport hdr => Sys2Proof.Machine.execLlynadArrive lport hdr s
  | .llynadCommit lport hdr => Sys2Proof.Machine.execLlynadCommit lport hdr s
  | .llynadCack lport hdr => Sys2Proof.Machine.execLlynadCack lport hdr s
  | .llynadResend peer lport rport => Sys2Proof.Machine.execLlynadResend peer lport rport s
  | .llynadPathRetry peer lport rport => Sys2Proof.Machine.execLlynadPathRetry peer lport rport s
  | .relayWrite ctx value => Sys2Proof.Machine.execRelayWrite ctx value s
  | .collSend prog => Sys2Proof.Machine.execCollSend prog s
  | .collRecv prog => Sys2Proof.Machine.execCollRecv prog s
  | .collRrs prog => Sys2Proof.Machine.execCollRrs prog s
  | .collCopy prog => Sys2Proof.Machine.execCollCopy prog s
  | .collWait prog => Sys2Proof.Machine.execCollWait prog s
  | .collLoop prog => Sys2Proof.Machine.execCollLoop prog s
  | .collSig prog => Sys2Proof.Machine.execCollSig prog s
  | .collEnd prog => Sys2Proof.Machine.execCollEnd prog s
  | .triggerCounterWrite ctx k value => Sys2Proof.Machine.execTriggerCounterWrite ctx k value s
  | .triggerActionEnd ctx slot => Sys2Proof.Machine.execTriggerActionEnd ctx slot s
  | .genlockArrive group => Sys2Proof.Machine.execGenlockArrive group s
  | .genlockCommitInstant group => Sys2Proof.Machine.execGenlockCommitInstant group s
  | .genlockDecision group => Sys2Proof.Machine.execGenlockDecision group s
  | .genlockCackCheck group => Sys2Proof.Machine.execGenlockCackCheck group s
  | .patchgo => Sys2Proof.Machine.execPatchgo s
  | .patchVerifyDone => Sys2Proof.Machine.execPatchVerifyDone s
  | .nopatch => Sys2Proof.Machine.execNopatch s
  | .timego => Sys2Proof.Machine.execTimego s
  | .svnburn => Sys2Proof.Machine.execSvnburn s
  | .attgo => Sys2Proof.Machine.execAttgo s
  | .attestationDone => Sys2Proof.Machine.execAttestationDone s
  | .softcoreWrite value => Sys2Proof.Machine.execSoftcoreWrite value s
  | .coreRetirementDone core => Sys2Proof.Machine.execCoreRetirementDone core s
  | .softchanWrite value => Sys2Proof.Machine.execSoftchanWrite value s
  | .softportWrite value => Sys2Proof.Machine.execSoftportWrite value s
  | .rcandRead => Sys2Proof.Machine.execRcandRead s
  | .retwWrite value => Sys2Proof.Machine.execRetwWrite value s
  | .hearthRowRepair slice row => Sys2Proof.Machine.execHearthRowRepair slice row s
  | .uncorrectableWriteback pa => Sys2Proof.Machine.execUncorrectableWriteback pa s
  | .coreParityError core => Sys2Proof.Machine.execCoreParityError core s
  | .deviceParityError addr => Sys2Proof.Machine.execDeviceParityError addr s
  | .snapshotRearm => Sys2Proof.Machine.execSnapshotRearm s
  | .snapshotTimeTrigger => Sys2Proof.Machine.execSnapshotTimeTrigger s
  | .snapshotPinTrigger => Sys2Proof.Machine.execSnapshotPinTrigger s
  | .throttleTick power temp => Sys2Proof.Machine.execThrottleTick power temp s
  | .thermalTrip => Sys2Proof.Machine.execThermalTrip s
  | .powerGood => Sys2Proof.Machine.execPowerGood s
  | .functionLevelReset => Sys2Proof.Machine.execFunctionLevelReset s
  | .moduleResetPin => Sys2Proof.Machine.execModuleResetPin s
  | .resetStateDone => Sys2Proof.Machine.execResetStateDone s
  | .rominitDone badCores => Sys2Proof.Machine.execRominitDone badCores s
  | .hostLinkTrained => Sys2Proof.Machine.execHostLinkTrained s
  | .memtrainDone badChans => Sys2Proof.Machine.execMemtrainDone badChans s
  | .portsUp badPorts => Sys2Proof.Machine.execPortsUp badPorts s
  | .registerWrite off width value => Sys2Proof.Machine.execRegisterWrite off width value s
  | .powerDown => Sys2Proof.Machine.execPowerDown s
  | .delayReqTransmit => Sys2Proof.Machine.execDelayReqTransmit s
  | .peerMemoryAccess rank pa acc => Sys2Proof.Machine.execPeerMemoryAccess rank pa acc s
  | .svnBurnDone => Sys2Proof.Machine.execSvnBurnDone s
  | .triggerOutputPulseEnd => Sys2Proof.Machine.execTriggerOutputPulseEnd s

end Sys2Proof.Machine
end

