-- ==== Sys2Proof/Machine/Step.lean ====
section
/-! DEFINITION. One step of the machine: the head of the agenda, or, when the agenda is silent, the turn of a strand that
can issue (spec/06_threads_strands_crews.md R135 to R137). And `withFetchWord`, which puts one instruction where the
next step fetches. -/

namespace Sys2Proof.Machine

/-- A strand's turn. -/
def State.turn (s : State) (crew strand : Nat) : Host.Outcome State Fault Refusal :=
  if s.canIssue crew strand then
    let s1 := s.select crew strand
    match s1.issuer with
    | none => .next s
    | some e =>
      match e.turn with
      | .run i => exec i s1
      | .moved s2 => .next s2
  else .next s

/-- The head of the agenda performed. An entry that names an instruction word is no event, and nothing happens. -/
def State.move (s : State) (m : Move) : Host.Outcome State Fault Refusal :=
  match m with
  | .issue crew strand => s.turn crew strand
  | .event i => if (encodeNat i).isNone then exec i s else .next s
  | m => .next (s.ownMove m)

/-- The machine in which a strand may take its turn: an arithmetic cycle passes first when the strand has had its turn in this one, or
its core has issued for 16 strands in it (R16), so that the timers of R136 and R137 count. -/
def State.cycleFor (s : State) (crew strand : Nat) : State := if s.inCycle crew strand then s else s.elapse 1 0

/-- What happens when the agenda is silent: the next strand takes its turn, once its cycle has come (assumption 1); with no strand that
can issue, cycles pass until a stall ends or a place in an active set becomes free, or nothing happens. -/
def State.onward (s : State) : Host.Outcome State Fault Refusal :=
  match s.pick with
  | some (crew, strand) => (s.cycleFor crew strand).turn crew strand
  | none =>
    match s.stallEnd, s.placeEnd with
    | some n, some m => .next (s.elapse (min n m - s.cycle) 0)
    | some n, none => .next (s.elapse (n - s.cycle) 0)
    | none, some m => .next (s.elapse (m - s.cycle) 0)
    | none, none => .next s

/-- One step: the active sets are brought up to date (R137), then the head of the agenda is performed. -/
def step (s : State) : Host.Outcome State Fault Refusal :=
  match s.agenda with
  | m :: rest => (({ s with agenda := rest } : State).arrange).move m
  | [] => s.arrange.onward

/-! ### Placing one instruction -/

/-- Where `withFetchWord` puts the word: the virtual and the physical address, and the leaf that maps it, readable,
writable, executable, atomic and resident in device memory. -/
def fetchVa : Nat := 2 ^ 14
def fetchPa : Nat := 2 ^ 14
def fetchLeaf : DWord := 0x10000007F

/-- A launch of one crew of one strand with 64 registers and no claims (R86, R312). -/
def fetchPacket : Packet :=
  { hadmit := false, persist := false, progress := true, naming := false, save := true, cut := false, shed := 0, kind := 1,
    cost := 0, deadline := 0xFFFFFFFFFFFFFFFF, earliest := 0, depAddr := 0, depVal := 0, cplAddr := 0, cplInc := 0, watchdog := 0,
    kernel := BitVec.ofNat 64 fetchVa, args := 0, seed := 0, alt := 0, streams := 0, crews := 1, strands := 1, gangP := 1, gangF := 1,
    stages := 1, regs := 64, ceil := 64, bars := 16, cbuf := 0, abuf := 0, wbuf := 0, dispB := 0, dispC := 0, cores := 0,
    reserved := false }

def fetchLaunch (s : State) : Launch :=
  { seq := s.bellows.nextSeq, ctx := 0, queue := 0, pkt := fetchPacket, phase := .running, metOrder := none, depPa := none, alternate := false, cutAt := none,
    streams := [], used := 0,
    firstAt := some s.clock, frozenFor := 0, crewsLeft := 0, gangs := [(1, false)], nextStage := 0, disp := [], topSince := none }

def fetchCrew (s : State) : Crew :=
  let regs := entryRegs 0 0 0 0 0 64
  { id := s.bellows.nextCrew, walker := false, ctx := 0, seq := s.bellows.nextSeq, stage := 0, gang := 0, idx := 0, gangSize := 1,
    gangFall := false, core := 0, state := .resident, slot := 0, order := s.bellows.nextCrew, naming := false, progress := true,
    vnhits := 0, vndedup := 0, vncoll := 0, xgen := 0, xpat := xpatReset, xtab := xtabReset, nbars := 16,
    bars := List.replicate 16 ⟨0, false⟩, sbars := 0, baseRegs := 64, ceil := 64, wclaim := ⟨0, 0⟩, aclaim := ⟨0, 0⟩, cclaim := ⟨0, 0⟩,
    binds := [], region := false, idemAt := none, restart := none, dispSlot := 0, entryPc := BitVec.ofNat 57 fetchVa, seed := 0,
    placedAt := s.clock, waitFrom := 0, swage := none, leaving := false,
    strands := [Strand.entry 0 0 regs (BitVec.ofNat 57 fetchVa)] }

/-- The machine with a launch of one strand placed on core 0 of a device in state RUN, whose first word is the given
instruction. It stands for what the host and Bellows do before a program's first word issues (assumption 2). -/
def State.withFetchWord (s : State) (nbits w : Nat) : State :=
  let tr := Trans.ofLeaf 0 fetchVa 3 fetchLeaf
  let s1 := s.modCore 0 (fun co => { co with enabled := true, tlb := tr :: co.tlb.filter (fun o => o.ctx ≠ 0 || !(tr.overlaps o)) })
  { s1 with
    mem := Memory.writeBytes s1.mem fetchPa (leBytes 4 (w % 2 ^ nbits))
    dev := { s1.dev with stage := 6, memSize := if s1.dev.memSize.toNat < 2 ^ 20 then BitVec.ofNat 64 (2 ^ 20) else s1.dev.memSize }
    ctxs := s1.ctxs.set 0 { (s1.ctx 0) with frozen := false }
    crews := s1.crews ++ [fetchCrew s], launches := s1.launches ++ [fetchLaunch s]
    bellows := { s1.bellows with nextSeq := s1.bellows.nextSeq + 1, nextCrew := s1.bellows.nextCrew + 1 }
    cur := { crew := s.bellows.nextCrew, strand := 0 }, agenda := [] }

end Sys2Proof.Machine
end

