-- ==== Sys2Proof/Machine/Needs.lean ====
section
/-! DEFINITION. What each instruction word demands of the strand that issues it, in one table: its guard, the registers and
predicates it reads and writes (R49, R187), the prefixes it accepts (R78, R79, R92), and where it may issue (R192, R344, R364,
R427). The meanings declare the same; `Laws/Issue.lean` shows that they do. -/

namespace Sys2Proof.Machine

/-- The demands of an instruction. The words that take no operand from the strand and name no exception to the rules are the
last case, with the prefixes and the event rows, which do not issue through these checks. -/
def reqOf (x : Instr) : Req :=
  match x with
  | i@(.add d a b f g) => { instr := i, pg := g.toNat, reads := regsW (f.getLsbD 1) a ++ regsW (f.getLsbD 1) b, writes := regsW (f.getLsbD 1) d, rep := .rr, walker := true, sat := true }
  | i@(.sub d a b f g) => { instr := i, pg := g.toNat, reads := regsW (f.getLsbD 1) a ++ regsW (f.getLsbD 1) b, writes := regsW (f.getLsbD 1) d, rep := .rr, walker := true, sat := true }
  | i@(.mul d a b f g) => { instr := i, pg := g.toNat, reads := regsW (f.getLsbD 1) a ++ regsW (f.getLsbD 1) b, writes := regsW (f.getLsbD 1) d, rep := .rr, walker := true, sat := true }
  | i@(.mulhi d a b f g) => { instr := i, pg := g.toNat, reads := regsW (f.getLsbD 1) a ++ regsW (f.getLsbD 1) b, writes := regsW (f.getLsbD 1) d, rep := .rr, walker := true }
  | i@(.min d a b f g) => { instr := i, pg := g.toNat, reads := regsW (f.getLsbD 1) a ++ regsW (f.getLsbD 1) b, writes := regsW (f.getLsbD 1) d, rep := .rr, walker := true }
  | i@(.max d a b f g) => { instr := i, pg := g.toNat, reads := regsW (f.getLsbD 1) a ++ regsW (f.getLsbD 1) b, writes := regsW (f.getLsbD 1) d, rep := .rr, walker := true }
  | i@(.mad d a b c) => { instr := i, reads := regs1 a ++ regs1 b ++ regs1 c, writes := regs1 d, rep := .rr, walker := true, sat := true }
  | i@(.lea d a b _ g) => { instr := i, pg := g.toNat, reads := regs1 a ++ regs1 b, writes := regs1 d, rep := .rr, walker := true }
  | i@(.abs d a g) => { instr := i, pg := g.toNat, reads := regs1 a, writes := regs1 d, rep := .rr, walker := true, sat := true }
  | i@(.neg d a g) => { instr := i, pg := g.toNat, reads := regs1 a, writes := regs1 d, rep := .rr, walker := true, sat := true }
  | i@(.not d a g) => { instr := i, pg := g.toNat, reads := regs1 a, writes := regs1 d, rep := .rr, walker := true }
  | i@(.clz d a g) => { instr := i, pg := g.toNat, reads := regs1 a, writes := regs1 d, rep := .rr, walker := true }
  | i@(.popc d a g) => { instr := i, pg := g.toNat, reads := regs1 a, writes := regs1 d, rep := .rr, walker := true }
  | i@(.brev d a g) => { instr := i, pg := g.toNat, reads := regs1 a, writes := regs1 d, rep := .rr, walker := true }
  | i@(.and d a b w g) => { instr := i, pg := g.toNat, reads := regsW (w = 1) a ++ regsW (w = 1) b, writes := regsW (w = 1) d, rep := .rr, walker := true }
  | i@(.or d a b w g) => { instr := i, pg := g.toNat, reads := regsW (w = 1) a ++ regsW (w = 1) b, writes := regsW (w = 1) d, rep := .rr, walker := true }
  | i@(.xor d a b w g) => { instr := i, pg := g.toNat, reads := regsW (w = 1) a ++ regsW (w = 1) b, writes := regsW (w = 1) d, rep := .rr, walker := true }
  | i@(.andn d a b w g) => { instr := i, pg := g.toNat, reads := regsW (w = 1) a ++ regsW (w = 1) b, writes := regsW (w = 1) d, rep := .rr, walker := true }
  | i@(.shl d a b g) => { instr := i, pg := g.toNat, reads := regs1 a ++ regs1 b, writes := regs1 d, rep := .rr, walker := true }
  | i@(.shr d a b g) => { instr := i, pg := g.toNat, reads := regs1 a ++ regs1 b, writes := regs1 d, rep := .rr, walker := true }
  | i@(.sar d a b g) => { instr := i, pg := g.toNat, reads := regs1 a ++ regs1 b, writes := regs1 d, rep := .rr, walker := true }
  | i@(.rot d a b g) => { instr := i, pg := g.toNat, reads := regs1 a ++ regs1 b, writes := regs1 d, rep := .rr, walker := true }
  | i@(.bfe d a b _ g) => { instr := i, pg := g.toNat, reads := regs1 a ++ regs1 b, writes := regs1 d, rep := .rr, walker := true }
  | i@(.bfi d a b c) => { instr := i, reads := regs1 a ++ regs1 b ++ regs1 c, writes := regs1 d, rep := .rr, walker := true }
  | i@(.sel d a b c) => { instr := i, reads := regs1 a ++ regs1 b ++ regs1 c, writes := regs1 d, rep := .rr, walker := true }
  | i@(.icmp w _ p a b _ g) => { instr := i, pg := g.toNat, reads := regsW (w = 1) a ++ regsW (w = 1) b, pwrites := [p.toNat], rep := .rr, walker := true }
  | i@(.mov d a w g) => { instr := i, pg := g.toNat, reads := regsW (w = 1) a, writes := regsW (w = 1) d, rep := .rr, walker := true }
  | i@(.movi d _) => { instr := i, writes := regs1 d, imm := true, walker := true }
  | i@(.movhi d _) => { instr := i, reads := regs1 d, writes := regs1 d, walker := true }
  | i@(.iota d _ _) => { instr := i, writes := regs1 d, imm := true, walker := true }
  | i@(.addImm d a _ g) => { instr := i, pg := g.toNat, reads := regs1 a, writes := regs1 d, imm := true, sat := true, rep := .ri, walker := true }
  | i@(.mulImm d a _ g) => { instr := i, pg := g.toNat, reads := regs1 a, writes := regs1 d, imm := true, rep := .ri, walker := true }
  | i@(.andImm d a _ g) => { instr := i, pg := g.toNat, reads := regs1 a, writes := regs1 d, imm := true, rep := .ri, walker := true }
  | i@(.orImm d a _ g) => { instr := i, pg := g.toNat, reads := regs1 a, writes := regs1 d, imm := true, rep := .ri, walker := true }
  | i@(.xorImm d a _ g) => { instr := i, pg := g.toNat, reads := regs1 a, writes := regs1 d, imm := true, rep := .ri, walker := true }
  | i@(.minImm d a _ g) => { instr := i, pg := g.toNat, reads := regs1 a, writes := regs1 d, imm := true, rep := .ri, walker := true }
  | i@(.maxImm d a _ g) => { instr := i, pg := g.toNat, reads := regs1 a, writes := regs1 d, imm := true, rep := .ri, walker := true }
  | i@(.leaImm d a _ g) => { instr := i, pg := g.toNat, reads := regs1 a, writes := regs1 d, imm := true, rep := .ri, walker := true }
  | i@(.shlImm d a _ g) => { instr := i, pg := g.toNat, reads := regs1 a, writes := regs1 d, rep := .ri, walker := true }
  | i@(.shrImm d a _ g) => { instr := i, pg := g.toNat, reads := regs1 a, writes := regs1 d, rep := .ri, walker := true }
  | i@(.sarImm d a _ g) => { instr := i, pg := g.toNat, reads := regs1 a, writes := regs1 d, rep := .ri, walker := true }
  | i@(.rotImm d a _ g) => { instr := i, pg := g.toNat, reads := regs1 a, writes := regs1 d, rep := .ri, walker := true }
  | i@(.fadd d a b _ g) => { instr := i, pg := g.toNat, reads := regs1 a ++ regs1 b ++ [], writes := regs1 d, rep := .rr, walker := true, modes := allModes, sat := true }
  | i@(.fsub d a b _ g) => { instr := i, pg := g.toNat, reads := regs1 a ++ regs1 b ++ [], writes := regs1 d, rep := .rr, walker := true, modes := allModes, sat := true }
  | i@(.fmul d a b _ g) => { instr := i, pg := g.toNat, reads := regs1 a ++ regs1 b ++ [], writes := regs1 d, rep := .rr, walker := true, modes := allModes, sat := true }
  | i@(.fdiv d a b _ g) => { instr := i, pg := g.toNat, reads := regs1 a ++ regs1 b ++ [], writes := regs1 d, rep := .rr, walker := true, modes := allModes, sat := true }
  | i@(.fma d a b _ g) => { instr := i, pg := g.toNat, reads := regs1 a ++ regs1 b ++ regs1 d, writes := regs1 d, rep := .rr, walker := true, modes := allModes, sat := true }
  | i@(.fscale d a b _ g) => { instr := i, pg := g.toNat, reads := regs1 a ++ regs1 b, writes := regs1 d, rep := .rr, walker := true, modes := allModes, sat := true }
  | i@(.fmin d a b _ g) => { instr := i, pg := g.toNat, reads := regs1 a ++ regs1 b, writes := regs1 d, rep := .rr, walker := true }
  | i@(.fmax d a b _ g) => { instr := i, pg := g.toNat, reads := regs1 a ++ regs1 b, writes := regs1 d, rep := .rr, walker := true }
  | i@(.fabs d a _ g) => { instr := i, pg := g.toNat, reads := regs1 a ++ [], writes := regs1 d, rep := .rr, walker := true }
  | i@(.fneg d a _ g) => { instr := i, pg := g.toNat, reads := regs1 a ++ [], writes := regs1 d, rep := .rr, walker := true }
  | i@(.fclass d a _ g) => { instr := i, pg := g.toNat, reads := regs1 a ++ [], writes := regs1 d, rep := .rr, walker := true }
  | i@(.fcmp _ p a b _ g) => { instr := i, pg := g.toNat, reads := regs1 a ++ regs1 b, pwrites := [p.toNat], rep := .rr, walker := true }
  | i@(.fsqrt d a _ g) => { instr := i, pg := g.toNat, reads := regs1 a, writes := regs1 d, rep := .rr, walker := true, modes := allModes, sat := true }
  | i@(.frcp d a _ g) => { instr := i, pg := g.toNat, reads := regs1 a, writes := regs1 d, rep := .rr, walker := true, modes := allModes, sat := true }
  | i@(.frsqrt d a _ g) => { instr := i, pg := g.toNat, reads := regs1 a, writes := regs1 d, rep := .rr, walker := true, modes := allModes, sat := true }
  | i@(.fexp2 d a _ g) => { instr := i, pg := g.toNat, reads := regs1 a, writes := regs1 d, rep := .rr, walker := true, modes := allModes, sat := true }
  | i@(.flog2 d a _ g) => { instr := i, pg := g.toNat, reads := regs1 a, writes := regs1 d, rep := .rr, walker := true, modes := allModes, sat := true }
  | i@(.fsin d a _ g) => { instr := i, pg := g.toNat, reads := regs1 a, writes := regs1 d, rep := .rr, walker := true, modes := allModes, sat := true }
  | i@(.fcos d a _ g) => { instr := i, pg := g.toNat, reads := regs1 a, writes := regs1 d, rep := .rr, walker := true, modes := allModes, sat := true }
  | i@(.ffract d a _ g) => { instr := i, pg := g.toNat, reads := regs1 a, writes := regs1 d, rep := .rr, walker := true, modes := allModes }
  | i@(.fround d a _ g) => { instr := i, pg := g.toNat, reads := regs1 a, writes := regs1 d, rep := .rr, walker := true, modes := allModes }
  | i@(.fdot2 d a b _ _ g) => { instr := i, pg := g.toNat, reads := regs1 a ++ regs1 b, writes := regs1 d, rep := .rr, walker := true, modes := allModes, sat := true }
  | i@(.cvt d a t _ _ _ g) => { instr := i, pg := g.toNat, reads := regs1 a, writes := regs1 d, rep := .rr, walker := true, modes := cvtModes t.toNat, sat := true }
  | i@(.packB16 d a b g) => { instr := i, pg := g.toNat, reads := regs1 a ++ regs1 b ++ [], writes := regs1 d, rep := .rr, walker := true }
  | i@(.packB8Lo d a b g) => { instr := i, pg := g.toNat, reads := regs1 a ++ regs1 b ++ regs1 d, writes := regs1 d, rep := .rr, walker := true }
  | i@(.packB8Hi d a b g) => { instr := i, pg := g.toNat, reads := regs1 a ++ regs1 b ++ regs1 d, writes := regs1 d, rep := .rr, walker := true }
  | i@(.packB4Q0 d a b g) => { instr := i, pg := g.toNat, reads := regs1 a ++ regs1 b ++ regs1 d, writes := regs1 d, rep := .rr, walker := true }
  | i@(.packB4Q1 d a b g) => { instr := i, pg := g.toNat, reads := regs1 a ++ regs1 b ++ regs1 d, writes := regs1 d, rep := .rr, walker := true }
  | i@(.packB4Q2 d a b g) => { instr := i, pg := g.toNat, reads := regs1 a ++ regs1 b ++ regs1 d, writes := regs1 d, rep := .rr, walker := true }
  | i@(.packB4Q3 d a b g) => { instr := i, pg := g.toNat, reads := regs1 a ++ regs1 b ++ regs1 d, writes := regs1 d, rep := .rr, walker := true }
  | i@(.unpack d a _ _ _ g) => { instr := i, pg := g.toNat, reads := regs1 a, writes := regs1 d, rep := .rr, walker := true }
  | i@(.pand d a b g) => { instr := i, pg := g.toNat, preads := [a.toNat, b.toNat], pwrites := [d.toNat], rep := .rr, walker := true }
  | i@(.por d a b g) => { instr := i, pg := g.toNat, preads := [a.toNat, b.toNat], pwrites := [d.toNat], rep := .rr, walker := true }
  | i@(.pxor d a b g) => { instr := i, pg := g.toNat, preads := [a.toNat, b.toNat], pwrites := [d.toNat], rep := .rr, walker := true }
  | i@(.pnot d a g) => { instr := i, pg := g.toNat, preads := [a.toNat], pwrites := [d.toNat], rep := .rr, walker := true }
  | i@(.pmov d a g) => { instr := i, pg := g.toNat, preads := [a.toNat], pwrites := [d.toNat], rep := .rr, walker := true }
  | i@(.pfirst d a g) => { instr := i, pg := g.toNat, preads := [a.toNat], pwrites := [d.toNat], rep := .rr, walker := true }
  | i@(.pcnt d g) => { instr := i, pg := g.toNat, writes := regs1 d, rep := .rr, walker := true }
  | i@(.xperm d a _ g) => { instr := i, pg := g.toNat, reads := regs1 a, writes := regs1 d, rep := .rr, walker := true }
  | i@(.xtab d a _ g) => { instr := i, pg := g.toNat, reads := regs1 a, writes := regs1 d, rep := .rr, walker := true }
  | i@(.xbcast d a _ g) => { instr := i, pg := g.toNat, reads := regs1 a, writes := regs1 d, rep := .ri, walker := true }
  | i@(.xshflIdx d a b g) => { instr := i, pg := g.toNat, reads := regs1 a ++ regs1 b, writes := regs1 d, rep := .rr, walker := true }
  | i@(.xshflXor d a b g) => { instr := i, pg := g.toNat, reads := regs1 a ++ regs1 b, writes := regs1 d, rep := .rr, walker := true }
  | i@(.xshflUp d a b g) => { instr := i, pg := g.toNat, reads := regs1 a ++ regs1 b, writes := regs1 d, rep := .rr, walker := true }
  | i@(.xshflDown d a b g) => { instr := i, pg := g.toNat, reads := regs1 a ++ regs1 b, writes := regs1 d, rep := .rr, walker := true }
  | i@(.xred d a _ g) => { instr := i, pg := g.toNat, reads := regs1 a, writes := regs1 d, rep := .rr, walker := true, modes := redModes }
  | i@(.xscan d a _ g) => { instr := i, pg := g.toNat, reads := regs1 a, writes := regs1 d, rep := .rr, walker := true, modes := redModes }
  | i@(.xmaxi d a b _ g) => { instr := i, pg := g.toNat, reads := regs1 a ++ regs1 b, writes := regs2 d, rep := .rr, walker := true }
  | i@(.voteAny d a g) => { instr := i, pg := g.toNat, reads := regs1 a, writes := regs1 d, rep := .rr, walker := true }
  | i@(.voteAll d a g) => { instr := i, pg := g.toNat, reads := regs1 a, writes := regs1 d, rep := .rr, walker := true }
  | i@(.voteBallot d a g) => { instr := i, pg := g.toNat, reads := regs1 a, writes := regs1 d, rep := .rr, walker := true }
  | i@(.vshape d a g) => { instr := i, pg := g.toNat, reads := regs1 a, writes := regs1 d, rep := .rr, walker := true }
  | i@(.movcRead d _) => { instr := i, writes := regs1 d, walker := true }
  | i@(.movcWrite a _) => { instr := i, reads := regs1 a, walker := true }
  | i@(.bra _ g) => { instr := i, pg := g.toNat, imm := true, walker := true }
  | i@(.brx a g) => { instr := i, pg := g.toNat, reads := regs2 a, walker := true }
  | i@(.ret a g) => { instr := i, pg := g.toNat, reads := regs2 a, walker := true }
  | i@(.callDirect d _) => { instr := i, writes := [2 * d.toNat, 2 * d.toNat + 1], imm := true, walker := true }
  | i@(.callIndirect d a) => { instr := i, reads := regs2 a, writes := [2 * d.toNat, 2 * d.toNat + 1], walker := true }
  | i@(.meet _ g) => { instr := i, pg := g.toNat, imm := true, walker := true, handler := false }
  | i@(.yield) => { instr := i, walker := true }
  | i@(.exit g) => { instr := i, pg := g.toNat, walker := true }
  | i@(.nop) => { instr := i, walker := true }
  | i@(.sleep _) => { instr := i, handler := false }
  | i@(.bar _) => { instr := i, handler := false, tx := false }
  | i@(.gbar) => { instr := i, handler := false, tx := false }
  | i@(.sbar) => { instr := i, handler := false, tx := false }
  | i@(.rgrow _) => { instr := i, handler := false }
  | i@(.rgrowTry p _) => { instr := i, pwrites := [p.toNat], handler := false }
  | i@(.rshrink _) => { instr := i, handler := false }
  | i@(.disp d p g) => { instr := i, pg := g.toNat, writes := regs1 d, pwrites := [p.toNat], handler := false, idem := false }
  | i@(.ldB32 d a o g) => { instr := i, pg := g.toNat, reads := regs2 a, writes := regs1 d, imm := true, rep := .mem, off := some o, walker := true }
  | i@(.ldB64 d a o g) => { instr := i, pg := g.toNat, reads := regs2 a, writes := regs2 d, imm := true, rep := .mem, off := some o, walker := true }
  | i@(.ldF32 d a o g) => { instr := i, pg := g.toNat, reads := regs2 a, writes := regs1 d, imm := true, rep := .mem, off := some o }
  | i@(.ldF16 d a o g) => { instr := i, pg := g.toNat, reads := regs2 a, writes := regs1 d, imm := true, rep := .mem, off := some o }
  | i@(.ldBf16 d a o g) => { instr := i, pg := g.toNat, reads := regs2 a, writes := regs1 d, imm := true, rep := .mem, off := some o }
  | i@(.ldI32 d a o g) => { instr := i, pg := g.toNat, reads := regs2 a, writes := regs1 d, imm := true, rep := .mem, off := some o }
  | i@(.stB8 d a o g) => { instr := i, pg := g.toNat, reads := regs1 d ++ regs2 a, imm := true, rep := .mem, off := some o }
  | i@(.stB16 d a o g) => { instr := i, pg := g.toNat, reads := regs1 d ++ regs2 a, imm := true, rep := .mem, off := some o }
  | i@(.stB32 d a o g) => { instr := i, pg := g.toNat, reads := regs1 d ++ regs2 a, imm := true, rep := .mem, off := some o }
  | i@(.stB64 d a o g) => { instr := i, pg := g.toNat, reads := regs2 d ++ regs2 a, imm := true, rep := .mem, off := some o }
  | i@(.ldbW d a o g) => { instr := i, pg := g.toNat, reads := regs1 a, writes := regs1 d, imm := true, rep := .mem, off := some o }
  | i@(.ldbA d a o g) => { instr := i, pg := g.toNat, reads := regs1 a, writes := regs1 d, imm := true, rep := .mem, off := some o }
  | i@(.ldbC d a o g) => { instr := i, pg := g.toNat, reads := regs1 a, writes := regs1 d, imm := true, rep := .mem, off := some o }
  | i@(.stbA d a o g) => { instr := i, pg := g.toNat, reads := regs1 d ++ regs1 a, imm := true, rep := .mem, off := some o }
  | i@(.stbC d a o g) => { instr := i, pg := g.toNat, reads := regs1 d ++ regs1 a, imm := true, rep := .mem, off := some o }
  | i@(.atom d a b f g) => { instr := i, pg := g.toNat, reads := regs2 a ++ regsW (atomWide f.toNat) b, writes := regsW (atomWide f.toNat) d, tx := false }
  | i@(.atomAcq d a b f g) => { instr := i, pg := g.toNat, reads := regs2 a ++ regsW (atomWide f.toNat) b, writes := regsW (atomWide f.toNat) d, tx := false }
  | i@(.atomRel d a b f g) => { instr := i, pg := g.toNat, reads := regs2 a ++ regsW (atomWide f.toNat) b, writes := regsW (atomWide f.toNat) d, tx := false }
  | i@(.atomAcqRel d a b f g) => { instr := i, pg := g.toNat, reads := regs2 a ++ regsW (atomWide f.toNat) b, writes := regsW (atomWide f.toNat) d, tx := false }
  | i@(.cas d a b _ w g) => { instr := i, pg := g.toNat, reads := regsW (w = 1) d ++ regs2 a ++ regsW (w = 1) b, writes := regsW (w = 1) d, tx := false }
  | i@(.acq) => { instr := i, tx := false }
  | i@(.rel) => { instr := i, tx := false }
  | i@(.fence) => { instr := i, tx := false }
  | i@(.waita d a b p g) => { instr := i, pg := g.toNat, reads := regs1 d ++ regs2 a ++ regs2 b, writes := regs1 d, pwrites := [p.toNat], handler := false, tx := false }
  | i@(.txb g) => { instr := i, pg := g.toNat, handler := false, tx := false }
  | i@(.txc p g) => { instr := i, pg := g.toNat, pwrites := [p.toNat] }
  | i@(.txa g) => { instr := i, pg := g.toNat }
  | i@(.cp d a b c) => { instr := i, reads := regs1 d ++ regs1 a ++ regs1 b ++ regs1 c, names := regs2 d ++ regs2 a }
  | i@(.cp2 d a b c) => { instr := i, reads := regs1 d ++ regs1 a ++ regs2 b ++ regs2 c, names := regs2 d ++ regs2 a }
  | i@(.cptab d a b c) => { instr := i, reads := regs1 d ++ regs1 a ++ regs1 b ++ regs2 c, names := regs2 d ++ regs2 a }
  | i@(.wait _ _ _ _) => { instr := i, walker := true }
  | i@(.pgreq d a g) => { instr := i, pg := g.toNat, reads := regs2 a, writes := regs1 d }
  | i@(.pfetch a _ _ g) => { instr := i, pg := g.toNat, reads := regs2 a }
  | i@(.mres p) => { instr := i, pwrites := [p.toNat] }
  | i@(.mstat d) => { instr := i, writes := regs1 d }
  | i@(.tld _ a b _ sg q _ g) => ({ instr := i, pg := g.toNat, reads := moveReads q a b, lazy := true, bitM := true } : Req).signed sg
  | i@(.tst _ a b _ sg q g) => ({ instr := i, pg := g.toNat, reads := moveReads q a b, lazy := true, bitM := true } : Req).signed sg
  | i@(.tmeta _ a b _ sg q g) => ({ instr := i, pg := g.toNat, reads := moveReads q a b, lazy := true, bitM := true } : Req).signed sg
  | i@(.tzero _ _ sg g) => ({ instr := i, pg := g.toNat, lazy := true } : Req).signed sg
  | i@(.mma _ _ _ sg g) => ({ instr := i, pg := g.toNat, lazy := true } : Req).signed sg
  | i@(.mmas _ _ _ _ sg g) => ({ instr := i, pg := g.toNat, lazy := true } : Req).signed sg
  | i@(.mswap _ sg g) => ({ instr := i, pg := g.toNat, lazy := true } : Req).signed sg
  | i@(.mclr _ _ sg _ g) => ({ instr := i, pg := g.toNat, lazy := true } : Req).signed sg
  | i@(.mdrain _ a b _ sg _ _ g) =>
    ({ instr := i, pg := g.toNat, reads := [tlReg a, tlReg a + 1, tlReg b, tlReg b + 1], modes := allModes, sat := true, lazy := true } : Req).signed sg
  | i@(.hgf d a b _ g) => { instr := i, pg := g.toNat, reads := regs2 b, names := regs1 d ++ regs1 a, lazy := true }
  | i@(.hgs d a b _ g) => { instr := i, pg := g.toNat, reads := regs2 b, names := regs1 d ++ regs1 a, idem := false, lazy := true }
  | i@(.hgfold d a b c) => { instr := i, reads := regs1 d ++ regs2 a ++ regs2 b ++ regs1 c, idem := false, lazy := true }
  | i@(.march d a b g) => { instr := i, pg := g.toNat, reads := regsRun a 8 ++ regs2 b, writes := regsRun d 10, lazy := true }
  | i@(.tex d a b g) => { instr := i, pg := g.toNat, reads := regsRun a 2 ++ regs2 b, names := regs1 d, lazy := true }
  | i@(.trace d a b g) => { instr := i, pg := g.toNat, reads := regsRun a 8 ++ regs2 b, writes := regs1 d, lazy := true }
  | i@(.tcontReject d a g) => { instr := i, pg := g.toNat, reads := regs1 a, writes := regs1 d, lazy := true }
  | i@(.tcontAccept d a g) => { instr := i, pg := g.toNat, reads := regs1 a, writes := regs1 d, lazy := true }
  | i@(.tcontTerminate d a g) => { instr := i, pg := g.toNat, reads := regs1 a, writes := regs1 d, lazy := true }
  | i@(.thit d _ g) => { instr := i, pg := g.toNat, writes := regsRun d 5, lazy := true }
  | i@(.tabort g) => { instr := i, pg := g.toNat, lazy := true }
  | i@(.srd d _ _ b p g) => { instr := i, pg := g.toNat, reads := regs1 b, writes := regsRun d 3, pwrites := (predDst p).toList }
  | i@(.srdt _ _ b p g) => { instr := i, pg := g.toNat, reads := regs2 b, pwrites := (predDst p).toList }
  | i@(.swr d _ _ b g) => { instr := i, pg := g.toNat, reads := regsRun d 3 ++ regs1 b }
  | i@(.sinh _ _ g) => { instr := i, pg := g.toNat, idem := false }
  | i@(.sinhOffset d _ _ g) => { instr := i, pg := g.toNat, reads := regs2 d, idem := false }
  | i@(.sts d _ _ g) => { instr := i, pg := g.toNat, writes := regs2 d }
  | i@(.sstat d _ _ g) => { instr := i, pg := g.toNat, writes := regs1 d }
  | i@(.sflushLine _ g) => { instr := i, pg := g.toNat, idem := false }
  | i@(.sflushFrame _ g) => { instr := i, pg := g.toNat, idem := false }
  | i@(.time d) => { instr := i, writes := regs2 d }
  | i@(.sleepu a) => { instr := i, reads := regs2 a, handler := false }
  | i@(.launch p a g) => { instr := i, pg := g.toNat, reads := regs2 a, pwrites := [p.toNat], handler := false, idem := false }
  | i@(.launchTail p a g) => { instr := i, pg := g.toNat, reads := regs2 a, pwrites := [p.toNat], handler := false, idem := false }
  | i@(.cprog p a g) => { instr := i, pg := g.toNat, reads := regs2 a, pwrites := [p.toNat], idem := false }
  | i@(.ctrigArm p a _ g) => { instr := i, pg := g.toNat, reads := regs2 a, pwrites := [p.toNat], idem := false }
  | i@(.ctrigDisarm p _ g) => { instr := i, pg := g.toNat, pwrites := [p.toNat], idem := false }
  | i@(.cctrAdd d a _ g) => { instr := i, pg := g.toNat, reads := regs2 a, writes := regs2 d, idem := false }
  | i@(.cctrSet d a _ g) => { instr := i, pg := g.toNat, reads := regs2 a, writes := regs2 d, idem := false }
  | i@(.cctrRead d _ g) => { instr := i, pg := g.toNat, writes := regs2 d }
  | i@(.tbar d a _ _ g) => { instr := i, pg := g.toNat, reads := regs2 a, writes := regs1 d, idem := false }
  | i@(.idemb) => { instr := i, handler := false, tx := false, idem := false }
  | i@(.ideme) => { instr := i, handler := false }
  | i@(.tlbw a _) => { instr := i, reads := regsRun a 4, walker := true }
  | i@(.tlbiVaCore a) => { instr := i, reads := regs2 a, walker := true }
  | i@(.tlbiVaAll a) => { instr := i, reads := regs2 a, walker := true }
  | i@(.tlbiCtxCore) => { instr := i, walker := true }
  | i@(.tlbiCtxAll) => { instr := i, walker := true }
  | i@(.lpiCore) => { instr := i, walker := true }
  | i@(.lpiAll) => { instr := i, walker := true }
  | i@(.walkd) => { instr := i, walker := true }
  | i => { instr := i }

/-- The prefixes of class 0xE, which issue by themselves (R76). -/
def isPrefix (x : Instr) : Bool :=
  match x with
  | .hintImm _ => true
  | .hintPref _ _ _ _ => true
  | .hintRnd _ _ _ _ => true
  | .hintSched _ _ _ => true
  | .rep _ _ _ _ _ => true
  | _ => false

/-- The instruction words: what an event row is not. -/
def isWord (x : Instr) : Bool := (encodeNat x).isSome

end Sys2Proof.Machine
end

