-- ==== Sys2Proof/Safety.lean ====
section
/-! DEFINITION. The terms in which claims about the machine are stated: an instruction word that starts, what an issue leaves
as it was, and the invariants that a safe run keeps. -/

namespace Sys2Proof.Machine

/-! ### The canonical form -/

/-- Every tile of a Swage stores its elements and its scales in canonical form. -/
def Swage.Canonical (w : Swage) : Prop := ∀ t ∈ w.tiles, t.data.wf = true ∧ t.scale.wf = true

/-- Every memory of the machine is in canonical form: equal memories are equal data. -/
structure State.Canonical (s : State) : Prop where
  mem     : s.mem.wf = true
  buffers : ∀ k ∈ s.cores, k.wbuf.wf = true ∧ k.abuf.wf = true ∧ k.cbuf.wf = true
  swages  : ∀ k ∈ s.cores, k.swage.Canonical
  saved   : ∀ c ∈ s.crews, ∀ w, c.swage = some w → w.Canonical
  device  : s.dev.staging.wf = true ∧ s.dev.attBuf.wf = true ∧ s.dev.snap.areas.wf = true

/-! ### An instruction word that starts -/

/-- The word `i` is issued by the strand that `e` shows, passes every check that R49, R74, R78, R192, R344, R364 and R427 make
before its own entry, waits for no result in flight (R187), and reads no register with an uncorrectable error (R68). -/
structure Starts (s : State) (e : Env) (i : Instr) : Prop where
  issuer : s.issuer = some e
  legal  : (reqOf i).illegal e = false
  ready  : (reqOf i).blocked e.t = false
  sound  : (reqOf i).sourceBad e.t = false

/-- The effective lane mask of `i` (R72). -/
def maskFor (i : Instr) (e : Env) : Mask := (reqOf i).mask e.t

/-- A strand as the machine holds it. -/
def State.strand? (s : State) (crew i : Nat) : Option Strand := (s.crew? crew).bind (fun c => c.strand? i)

/-! ### What an issue leaves as it was -/

/-- Parking and release (R133): a running thread may park, a parked one may run, and nothing else of a thread changes. -/
def Restated (x y : Thread) : Prop :=
  y = { x with state := y.state }
    ∧ (y.state = x.state ∨ (x.state = .running ∧ y.state = .parked) ∨ (x.state = .parked ∧ y.state = .running))

/-- Where a thread stands after a word that moves no program counter itself (R76, R80): the group's threads at the next word,
unless a `rep` has another iteration to run. -/
def Strand.pcAfter (t : Strand) (l : Nat) : VAddr :=
  if t.moreReps = false ∧ laneOn t.group l then (t.thread l).pc + BitVec.ofNat 57 (4 * (t.unit.words + 1)) else (t.thread l).pc

/-- Everything outside the issuing strand, after a word that only computes: memory, contexts, queues, sessions and the rest are
the same; of the cores only value naming's tables may differ (R60), and of the issuing crew only its naming counters (R67) and
the issuing strand. -/
structure OthersKept (s t : State) (e : Env) : Prop where
  rest   : t = { s with crews := t.crews, cores := t.cores }
  cores  : ∀ k, t.core k = { s.core k with naming := (t.core k).naming }
  crews  : ∀ id, id ≠ e.c.id → t.crew? id = s.crew? id
  crew   : ∃ c, t.crew? e.c.id = some c
              ∧ c = { e.c with vnhits := c.vnhits, vndedup := c.vndedup, vncoll := c.vncoll, strands := c.strands }
              ∧ ∀ j, j ≠ e.t.idx → c.strand? j = e.c.strand? j

/-- What a word that only computes leaves of its strand: all but registers, predicates, sticky flags, the issue unit, thread
program counters, states and draw counters, and which group is current. -/
def StrandKept (t u : Strand) : Prop :=
  u = { t with regs := u.regs, preds := u.preds, fflags := u.fflags, threads := u.threads, group := u.group, lastLow := u.lastLow,
               timer := u.timer, unit := u.unit, resume := u.resume, partMask := u.partMask, answers := u.answers, repleft := u.repleft, repHeld := u.repHeld }

/-- A thread after such a word: at its next word, perhaps with draws taken, perhaps parked or released. -/
def ThreadKept (t u : Strand) (l : Nat) : Prop :=
  ∃ n x y, x = { t.thread l with pc := t.pcAfter l, draws := n } ∧ Restated x y ∧ Restated y (u.thread l)

/-! ### What a word gives -/

/-- A result of 32 bits, or of the 64 bits of a pair whose first register holds the low half (R6, R49, R88). -/
def resultOf (wide : Bool) (d : Nat) (f : Nat → Nat) : List (Nat × (Nat → Word)) :=
  if wide then [(d, fun l => BitVec.ofNat 32 (f l)), (d + 1, fun l => BitVec.ofNat 32 (f l / 2 ^ 32))]
  else [(d, fun l => BitVec.ofNat 32 (f l))]

/-- Each acting lane has taken `k` draws, and no other lane any (R42). -/
def Drew (i : Instr) (e : Env) (u : Strand) (k : Nat) : Prop :=
  ∀ l, l < 8 → (u.thread l).draws = (e.t.thread l).draws + BitVec.ofNat 64 (if laneOn (maskFor i e) l then k else 0)

/-- The word `i` completes, and its whole effect is on registers: in each listed register the lanes of the effective lane mask
take the listed values and the others keep theirs; every other register, every predicate and everything else stays, the sticky
flags take `fl`, each acting lane takes `k` draws, and the group moves on. -/
def Gives (s : State) (e : Env) (i : Instr) (rs : List (Nat × (Nat → Word))) (fl : BitVec 5) (k : Nat) : Prop :=
  ∃ t u, exec i s = .next t ∧ t.strand? e.c.id e.t.idx = some u ∧ OthersKept s t e ∧ StrandKept e.t u
    ∧ (∀ l, l < 8 → ThreadKept e.t u l) ∧ Drew i e u k
    ∧ (∀ r ∈ rs, ∀ l, l < 8 → u.lane r.1 l = if laneOn (maskFor i e) l then r.2 l else e.t.lane r.1 l)
    ∧ (∀ v, v ∉ rs.map Prod.fst → u.reg v = e.t.reg v)
    ∧ u.preds = e.t.preds ∧ u.fflags = e.t.fflags ||| fl

/-- The elements that a rounding instruction works out in lane l: `elem` from the lane, the element and its draw, which is the
element's own in order after those the thread has taken (R41, R42, R91). -/
def outOf (e : Env) (cnt : Nat) (stoch : Bool) (elem : Nat → Nat → Nat → Rounded) (l : Nat) : List Rounded :=
  (List.range cnt).map (fun h => elem l h (if stoch then e.draw l h else 0))

/-- The flags of every element of every lane of a mask (R89). -/
def raisedBy (m : Mask) (out : Nat → List Rounded) : BitVec 5 :=
  (lanesOf m).foldl (fun a l => (out l).foldl (fun a x => a ||| x.flags) a) noFlags

/-- The word `i` writes `cnt` rounded elements a lane to vd, joined by `join`, raises their flags, and takes a draw for each
when it is stochastic. -/
def Rounds (s : State) (e : Env) (i : Instr) (d : BitVec 6) (cnt : Nat) (join : List Nat → Word) (stoch : Bool)
    (elem : Nat → Nat → Nat → Rounded) : Prop :=
  Gives s e i [(d.toNat, fun l => join ((outOf e cnt stoch elem l).map Rounded.code))]
    (raisedBy (maskFor i e) (outOf e cnt stoch elem)) (if stoch then cnt else 0)

/-- The word `i` completes, and its whole effect is on one predicate: its bits under the effective lane mask take those of
`val`, the others keep theirs, and a write to p0 is discarded (R50, R119). -/
def Sets (s : State) (e : Env) (i : Instr) (p : Nat) (val : Mask) (fl : BitVec 5) : Prop :=
  ∃ t u, exec i s = .next t ∧ t.strand? e.c.id e.t.idx = some u ∧ OthersKept s t e ∧ StrandKept e.t u
    ∧ (∀ l, l < 8 → ThreadKept e.t u l) ∧ Drew i e u 0 ∧ u.regs = e.t.regs
    ∧ (∀ q, q < 8 → u.pred q = if q = p ∧ q ≠ 0 then (e.t.pred q &&& ~~~(maskFor i e)) ||| (val &&& maskFor i e) else e.t.pred q)
    ∧ u.fflags = e.t.fflags ||| fl

/-! ### Exact next states -/

/-- The word completes: `e'` is the issuing strand, its crew and its machine as the word's own effect leaves them, and its unit
ends there: the group goes on to the next word, or a `rep` to its next iteration (R76, R80). -/
def Ends (s : State) (i : Instr) (e' : Env) : Prop := exec i s = .next (e'.endUnit false).commit

/-- The same for a word that sets the program counters of its group itself. -/
def Moves (s : State) (i : Instr) (e' : Env) : Prop := exec i s = .next (e'.endUnit true).commit

/-- The word completes, and `e'` is the whole of where its strand stands next. -/
def Becomes (s : State) (i : Instr) (e' : Env) : Prop := exec i s = .next e'.commit

/-- The word traps (R423 to R426). -/
def Traps (s : State) (i : Instr) (e' : Env) (ti : TrapInfo) (part : Bool) : Prop := exec i s = .next (e'.takeTrap ti part none)

/-- The view with another strand in it. -/
def Env.on (e : Env) (t : Strand) : Env := { e with t := t }

/-- An operation counted on a strand counter, in flight from the instruction that the strand is at (R185, R187). -/
def Env.inFlight (e : Env) (k : Ctr) (dsts : List Nat) (pdst : Option Nat) (kind : OpKind) (srcs : List Nat := []) : Env :=
  { e with t := { e.t with
      inflight := e.t.inflight ++ [{ id := e.t.nextOp, ctr := k, dsts := dsts, pdst := pdst, pc := e.t.unitPc, kind := kind,
                                     done := false, srcs := srcs, gone := 0 }]
      nextOp := e.t.nextOp + 1 } }

/-- Program counters given to the group by a branch: the target in the acting lanes, the next word in the others (R155). -/
def branchPc (i : Instr) (e : Env) (target : Nat → Nat) (l : Nat) : VAddr :=
  if laneOn e.t.group l then (if laneOn (maskFor i e) l then BitVec.ofNat 57 (target l) else e.t.fetchPc + 4) else (e.t.thread l).pc

/-- The word `i` completes as a branch: the threads of the group take the given program counters, where they may park (R133);
the listed registers take their values in the acting lanes; and nothing else changes. -/
def Branches (s : State) (e : Env) (i : Instr) (target : Nat → Nat) (rs : List (Nat × (Nat → Word))) : Prop :=
  ∃ t u, exec i s = .next t ∧ t.strand? e.c.id e.t.idx = some u ∧ OthersKept s t e ∧ StrandKept e.t u
    ∧ (∀ l, l < 8 → ∃ y, Restated { e.t.thread l with pc := branchPc i e target l } y ∧ Restated y (u.thread l))
    ∧ (∀ r ∈ rs, ∀ l, l < 8 → u.lane r.1 l = if laneOn (maskFor i e) l then r.2 l else e.t.lane r.1 l)
    ∧ (∀ v, v ∉ rs.map Prod.fst → u.reg v = e.t.reg v)
    ∧ u.preds = e.t.preds ∧ u.fflags = e.t.fflags

/-! ### Accesses to memory -/

/-- Every element that the acting lanes touch is translated, aligned and permitted (R198). -/
def Clear (m : Mask) (els : Nat → List LaneEl) : Prop :=
  ∀ l ∈ lanesOf m, ∀ x ∈ els l, ∃ tr, x.cls = .good tr ∨ x.cls = .absent tr

/-- The acting lanes with their elements. -/
def acting (m : Mask) (els : Nat → List LaneEl) : List (Nat × List LaneEl) := (lanesOf m).map (fun l => (l, els l))

/-- The elements of lane l of a load (R199 to R202): raw for the `.b` types. -/
def loadEls (e : Env) (ty : LoadTy) (unit : Nat) (a : BitVec 6) (off : Int) (l : Nat) : List LaneEl :=
  if ty = .b32 || ty = .b64 then [rawEl (e.look l) pteR unit (e.t.ea a.toNat off unit l)]
  else typedEls (e.look l) (ty = .f16 || ty = .bf16) (e.t.ea a.toNat off unit l)

/-- The acting lanes with an element of a class. -/
def lanesWith (m : Mask) (els : Nat → List LaneEl) (c : ECls) : Mask := maskOf (fun l => laneOn m l && (els l).any (fun x => x.cls = c))

/-- The address of the first refused element of the lowest faulting lane (R198). -/
def firstRefused (m : Mask) (els : Nat → List LaneEl) : Nat :=
  (((lanesOf m).flatMap (fun l => (els l).filter (fun x => x.cls = .refused))).map LaneEl.va).headD 0

/-- Where a global lane access whose elements are translated traps (R198): ALIGN in the lanes with a misaligned element, with nothing
performed; else PERM in the lanes with a refused element, when the other lanes have performed what `performed` says. -/
def AccessTraps (s : State) (e : Env) (i : Instr) (m : Mask) (els : Nat → List LaneEl) (room : Prop) (performed : Mask → Env) : Prop :=
  let mis := lanesWith m els .misaligned
  let refused := lanesWith m els .refused
  let rest := m &&& ~~~refused
  (∀ l ∈ lanesOf m, ∀ x ∈ els l, x.cls ≠ .need) →
    (mis ≠ 0 → Traps s i e (.plain cALIGN mis) false)
    ∧ (mis = 0 → refused ≠ 0 → room →
        Traps s i (if rest = 0 then e else performed rest) (.at cPERM refused (firstRefused m els)) (decide (rest ≠ 0)))

/-- A load of the lanes of a mask in flight. In a strand with an ACTIVE lane it is performed at once, and an ACTIVE lane that reads an absent
page is doomed (R192). -/
def Env.loads (e : Env) (m : Mask) (ty : LoadTy) (d a : BitVec 6) (els : Nat → List LaneEl) (key : Option VKey) : Env :=
  let ys := acting m els
  let raw := ty = .b32 || ty = .b64
  let e1 := (e.keepLast ys).inFlight .ld (regsW (ty = .b64) d) none
    (.load ty d.toNat (ys.flatMap (fun y => y.2.map (fun x => x.elem y.1 (!raw))))
      ((e.t.reg a.toNat).tag = .uniform && (e.t.reg (a.toNat + 1)).tag = .uniform) key .empty)
  let e2 := if e.t.txActive then e1.performOp e.t.nextOp else e1
  e2.on (e2.t.doomAbsent (absentLanes ys))

/-- R204, R206: a load of a strand that is no walker. A value-table hit gives its registers at once (R64). Else, with elements that are clear
and room on the counter, the load is in flight, and when naming is on it may enter the table; it traps where R198 says. -/
def LoadIssues (s : State) (e : Env) (i : Instr) (ty : LoadTy) (unit : Nat) (d a : BitVec 6) (imm9 : BitVec 9) : Prop :=
  ∀ off, Starts s e i → memOff e.t.unit imm9 = some off → maskFor i e ≠ 0 → e.c.walker = false →
    let m := maskFor i e
    let key := (reqOf i).loadKey e m off [e.c.ctx, e.c.seq]
    let els := loadEls e ty unit a off
    let named := e.namesLoads m && (acting m els).all (fun y => y.2.all (fun x =>
      (x.elem y.1 (!(ty = .b32 || ty = .b64))).rodl && !(x.elem y.1 (!(ty = .b32 || ty = .b64))).absent))
    (∀ e1, e.namesLoads m = true → e.reuse? key (reqOf i).writes = some e1 → Ends s i e1)
    ∧ ((e.namesLoads m = true → e.reuse? key (reqOf i).writes = none) →
        (Clear m els → e.t.full .ld = false → Ends s i (e.loads m ty d a els (if named then some key else none)))
        ∧ AccessTraps s e i m els (e.t.full .ld = false) (fun k => e.loads k ty d a els none))

/-- R364: a raw load in a walker strand: its addresses are physical, it reads at the home slice, and it completes as it issues. -/
def WalkerLoads (s : State) (e : Env) (i : Instr) (n : Nat) (d a : BitVec 6) (imm9 : BitVec 9) : Prop :=
  ∀ off, Starts s e i → memOff e.t.unit imm9 = some off → maskFor i e ≠ 0 → e.c.walker = true →
    let m := maskFor i e
    let addr (l : Nat) : Nat := e.t.ea a.toNat off n l
    let mis := maskOf (fun l => laneOn m l && (vaBad (addr l) || addr l % n ≠ 0))
    (mis ≠ 0 → Traps s i e (.plain cALIGN mis) false)
    ∧ (mis = 0 → (∀ l ∈ lanesOf m, s.bad (addr l) n = false) →
        Gives s e i (resultOf (n = 8) d.toNat (fun l => s.peek (addr l) n)) 0 0)

/-- What the acting lanes of a store or an atomic of n bytes do: their addresses, physical where their pages are resident, and
their values. -/
def laneAccs (e : Env) (m : Mask) (perm : DWord → Bool) (n : Nat) (addr : Nat → Nat) (a b : Nat → DWord) : List LaneAcc :=
  (lanesOf m).map (fun l => (rawEl (e.look l) perm n (addr l)).acc l (a l) (b l))

/-- A store of n bytes by the lanes of a mask: those with a transaction begun and not ended buffer theirs, which performs nothing (R192), and
an absent page of theirs shows in p7; the others' are in flight, and in a strand with an ACTIVE lane are performed at once. -/
def Env.stores (e : Env) (m : Mask) (n : Nat) (srcs : List Nat) (els : Nat → List LaneEl) (accs : List LaneAcc) : Env :=
  let inTx (x : LaneAcc) : Bool := (e.t.thread x.lane).tx.open
  let e1 := (accs.filter inTx).foldl (fun e x => e.bufferStore n ((els x.lane).head?.bind LaneEl.trans) x) (e.keepLast (acting m els))
  let e2 := (e1.on (e1.t.markAbsent (maskOf (fun l => accs.any (fun x => x.lane = l && x.absent && inTx x))))).inFlight .st [] none
    (.store n (accs.filter (fun x => !inTx x))) srcs
  if e.t.txActive then e2.performOp e.t.nextOp else e2

/-- R205: a store of n bytes is in flight with the addresses and the values of its lanes; nothing of memory changes before it is performed.
It traps where R198 says. -/
def StoreIssues (s : State) (e : Env) (i : Instr) (n : Nat) (d a : BitVec 6) (imm9 : BitVec 9) : Prop :=
  ∀ off, Starts s e i → memOff e.t.unit imm9 = some off → maskFor i e ≠ 0 →
    let m := maskFor i e
    let els (l : Nat) : List LaneEl := [rawEl (e.look l) pteW n (e.t.ea a.toNat off n l)]
    let accs (k : Mask) : List LaneAcc :=
      laneAccs e k pteW n (e.t.ea a.toNat off n) (fun l => BitVec.ofNat 64 (e.t.opnd (n = 8) d.toNat l)) (fun _ => 0)
    let stores (k : Mask) : Env := e.stores k n (regsW (n = 8) d) els (accs k)
    (Clear m els → e.t.full .st = false → (∀ l, l < 8 → (e.t.thread l).tx.open = false) →
      Ends s i ((e.keepLast (acting m els)).inFlight .st [] none (.store n (accs m)) (regsW (n = 8) d)))
    ∧ (Clear m els → e.t.full .st = false → Ends s i (stores m))
    ∧ AccessTraps s e i m els (e.t.full .st = false) stores

/-- R208, R209: the release half first, then the lanes' operations in flight, and with an acquire half they are performed before
it. It traps where R198 says. -/
def AtomicIssues (s : State) (e : Env) (i : Instr) (wide acq rel : Bool) (a : BitVec 6) (kind : List LaneAcc → OpKind)
    (x y : Nat → DWord) (dsts srcs : List Nat) : Prop :=
  Starts s e i → maskFor i e ≠ 0 →
    let m := maskFor i e
    let n := if wide then 8 else 4
    let els (l : Nat) : List LaneEl := [rawEl (e.look l) pteRWA n (e.t.lane64 a.toNat l).toNat]
    let e1 (k : Mask) : Env := if rel then (e.keepLast (acting k els)).release else e.keepLast (acting k els)
    let e2 (k : Mask) : Env := (e1 k).inFlight .ld dsts none (kind (laneAccs e k pteRWA n (fun l => (e.t.lane64 a.toNat l).toNat) x y)) srcs
    let acts (k : Mask) : Env := if acq then ((e2 k).performOp (e1 k).t.nextOp).acquire else e2 k
    (Clear m els → (e1 m).t.full .ld = false → Ends s i (acts m))
    ∧ AccessTraps s e i m els (∀ k, (e1 k).t.full .ld = false) acts

/-- A local access of the acting lanes is aligned, inside the claim, and held by no copy (R188, R207). -/
def LocalClear (e : Env) (sp : Space) (m : Mask) (addr : Nat → Nat) (store : Bool) : Prop :=
  (∀ l ∈ lanesOf m, addr l % 4 = 0 ∧ addr l + 4 ≤ (e.c.claim sp).size)
    ∧ ∀ b ∈ e.s.board e.c.core, ∀ l ∈ lanesOf m, b.blocks sp ((e.c.claim sp).base + addr l) store = false

/-- Where a local access traps (R172, R199, R207): ALIGN in the lanes whose address is no multiple of 4, else PERM in those that leave the
claim; neither performs anything. -/
def LocalTraps (s : State) (e : Env) (i : Instr) (sp : Space) (m : Mask) (addr : Nat → Nat) : Prop :=
  let mis := maskOf (fun l => laneOn m l && decide (addr l % 4 ≠ 0))
  let out := maskOf (fun l => laneOn m l && decide ((e.c.claim sp).size < addr l + 4))
  (mis ≠ 0 → Traps s i e (.plain cALIGN mis) false) ∧ (mis = 0 → out ≠ 0 → Traps s i e (.plain cPERM out) false)

/-- R207: a local load takes its values from the buffer when it issues, and delivers them later. -/
def LocalLoads (s : State) (e : Env) (i : Instr) (sp : Space) (d a : BitVec 6) (imm9 : BitVec 9) : Prop :=
  ∀ off, Starts s e i → memOff e.t.unit imm9 = some off → maskFor i e ≠ 0 →
    let m := maskFor i e
    let key := (reqOf i).loadKey e m off [e.c.ctx, e.c.seq, e.c.wclaim.base, e.c.wclaim.size]
    let names := e.c.naming && sp = .wbuf
    let at_ (l : Nat) : Nat := (e.c.claim sp).base + e.t.eaLocal a.toNat off l
    (∀ e1, names = true → e.reuse? key (reqOf i).writes = some e1 → Ends s i e1)
    ∧ ((names = true → e.reuse? key (reqOf i).writes = none) → LocalTraps s e i sp m (e.t.eaLocal a.toNat off))
    ∧ ((names = true → e.reuse? key (reqOf i).writes = none) → LocalClear e sp m (e.t.eaLocal a.toNat off) false →
        (∀ l ∈ lanesOf m, e.s.ue.contains (bufUnit e.c.core sp (at_ l)) = false) → e.t.full .ld = false →
        Ends s i (e.inFlight .ld [d.toNat] none (.ldb sp d.toNat
          ((lanesOf m).map (fun l => { lane := l, va := e.t.eaLocal a.toNat off l, pa := at_ l, b := 0, absent := false,
                                       a := BitVec.ofNat 64 (Memory.readNat ((e.s.core e.c.core).buf sp) (at_ l) 4) }))
          ((e.t.reg a.toNat).tag = .uniform) (if names then some key else none))))

/-- R173, R207: a local store writes the buffer when it issues, lanes in ascending order, and is counted on st. -/
def LocalStores (s : State) (e : Env) (i : Instr) (sp : Space) (d a : BitVec 6) (imm9 : BitVec 9) : Prop :=
  ∀ off, Starts s e i → memOff e.t.unit imm9 = some off → maskFor i e ≠ 0 →
    let m := maskFor i e
    let at_ (l : Nat) : Nat := (e.c.claim sp).base + e.t.eaLocal a.toNat off l
    LocalTraps s e i sp m (e.t.eaLocal a.toNat off) ∧
    (LocalClear e sp m (e.t.eaLocal a.toNat off) true → e.t.full .st = false →
    Ends s i { e.inFlight .st [] none (.stb sp []) (regs1 d) with
      s := (lanesOf m).foldl (fun s l => s.writeLocal e.c.core sp (at_ l) (leBytes 4 (e.t.lane d.toNat l).toNat)) e.s })

/-- Both sides of a copy are translated, aligned, permitted and inside their claims, no page format refuses the mode (R219), and
the scoreboard and the counter have room. -/
def CopyClear (e : Env) (p : CopyPlan) (cw : Word) (lane : Nat) : Prop :=
  let a := p.src.scan (e.look lane)
  let b := p.dst.scan (e.look lane)
  let inside (x : Side) : Prop := ∀ sp, x.space = some sp → x.leaves (e.c.claim sp).size = none
  a.needs = [] ∧ b.needs = [] ∧ a.align = false ∧ b.align = false ∧ a.refused = [] ∧ b.refused = [] ∧ inside p.src ∧ inside p.dst
  ∧ (∀ sp off w, p.table = some (sp, off, w) → off % w = 0 ∧ off + 256 * w ≤ (e.c.claim sp).size)
  ∧ (∀ f ∈ b.fmts, modeRefused f (cwRM cw) = false)
  ∧ e.c.core < e.s.cores.length ∧ (e.s.board e.c.core).length + p.ranges.length ≤ 32 ∧ e.t.full .cp = false

/-- An operation in flight after a copy has started: the same, or a local load that has lost its key (R64). -/
def Unkeyed (p q : Pending) : Prop :=
  q = p ∨ ∃ sp vd accs uni key, p.kind = .ldb sp vd accs uni (some key) ∧ q = { p with kind := .ldb sp vd accs uni none }

/-! ### Units beside the lanes -/

/-- An operation of the Swage with SG = 0 or 1 that its strand may issue: the crew holds the reservation, no tile write of `srdt` of the crew is
still to be performed, some lane acts, and mx has room (R234, R237). -/
structure TileReady (s : State) (e : Env) (i : Instr) : Prop where
  starts : Starts s e i
  held   : e.holdsSwage = true
  calm   : e.srdtOpen = false
  acts   : maskFor i e ≠ 0
  room   : e.t.full .mx = false

/-- An unsigned operation accepted: `e1` is what it leaves, its completion on mx is in flight, and it remembers an absent page. -/
def TileDone (s : State) (e : Env) (i : Instr) (gone : Bool) (e1 : Env) : Prop :=
  Ends s i (e1.inFlight .mx [] none (.swage (if gone then some (lowLane (maskFor i e)) else none) false none false))

/-- The same for one that stores to memory. -/
def TileStored (s : State) (e : Env) (i : Instr) (gone : Bool) (e1 : Env) : Prop :=
  Ends s i (e1.inFlight .mx [] none (.swage (if gone then some (lowLane (maskFor i e)) else none) false none true))

/-- Where the rows of a tile begin for a move, exactly (R242). -/
def Env.moveRows (e : Env) (tn lane : Nat) (sp : BitVec 2) (a b : BitVec 4) : List Int :=
  rowStarts (e.swage.tile tn) (e.moveBase sp a lane) (e.moveStride b lane)

/-- The stretches of a global move's rows on their pages. -/
def Env.movePieces (e : Env) (tn lane : Nat) (perm : DWord → Bool) (sp : BitVec 2) (a b : BitVec 4) : List Piece :=
  (e.moveRows tn lane sp a b).zipIdx.flatMap (fun r => rowPieces (e.look lane) perm r.2 r.1.toNat (e.swage.tile tn).memRow)

/-- A tile move passes every check of R244. -/
def MoveClear (e : Env) (tn lane : Nat) (isMeta : Bool) (perm : DWord → Bool) (sp : BitVec 2) (a b : BitVec 4) : Prop :=
  let t := e.swage.tile tn
  let base := e.moveBase sp a lane
  decide (t.fmt = fmtMeta) = isMeta ∧ t.rows ≠ 0 ∧ (sp = 0 → vaBad base = false)
  ∧ (tileBits t.fmt = 16 → base % 2 = 0 ∧ e.moveStride b lane % 2 = 0)
  ∧ (∀ r ∈ e.moveRows tn lane sp a b, 0 ≤ r ∧ (match spaceOf sp.toNat with
      | none => r + t.memRow ≤ 2 ^ 57
      | some x => r + t.memRow ≤ (e.c.claim x).size))
  ∧ (sp = 0 → ∀ p ∈ e.movePieces tn lane perm sp a b, ∃ tr, p.cls = .good tr ∨ p.cls = .absent tr)

/-- A move in global memory that meets an absent page. -/
def Env.moveAbsent (e : Env) (tn lane : Nat) (perm : DWord → Bool) (sp : BitVec 2) (a b : BitVec 4) : Bool :=
  sp = 0 && (e.movePieces tn lane perm sp a b).any (fun p => match p.cls with | .good _ => false | _ => true)

/-- The tile as a load leaves it: its rows from memory or a buffer, zeros from absent pages. -/
def Env.loadedTile (e : Env) (tn lane : Nat) (sp : BitVec 2) (a b : BitVec 4) : Tile :=
  let t := e.swage.tile tn
  match spaceOf sp.toNat with
  | none => (e.movePieces tn lane pteR sp a b).foldl (fun t p => t.setRow p.row p.off (match p.cls with
      | .good tr => (e.s.peekBytes (tr.pa p.va) p.len).map some
      | _ => List.replicate p.len (some 0))) t
  | some x => (e.moveRows tn lane sp a b).zipIdx.foldl (fun t r => t.setRow r.2 0
      ((Memory.readBytes ((e.s.core e.c.core).buf x) ((e.c.claim x).base + r.1.toNat) (e.swage.tile tn).memRow).map some)) t

/-- What a store of a tile leaves: its rows in memory, where writes to an absent page are dropped, or in a buffer. -/
def Env.storedRows (e : Env) (tn lane : Nat) (sp : BitVec 2) (a b : BitVec 4) : Env :=
  let t := e.swage.tile tn
  match spaceOf sp.toNat with
  | none => e.via (fun s => (e.movePieces tn lane pteW sp a b).foldl (fun s p => match p.cls with
      | .good tr => s.homeWrite .engine (some e.c.ctx) (tr.pa p.va) (((t.rawRow p.row).drop p.off).take p.len)
      | _ => s) s)
  | some x => { e with s := (e.moveRows tn lane sp a b).zipIdx.foldl (fun s r =>
      s.writeLocal e.c.core x ((e.c.claim x).base + r.1.toNat) (t.rawRow r.2)) e.s }

/-- A structure of n bytes that lane m may read: aligned, permitted, resident and sound (R259). -/
def StructAt (e : Env) (lane va n : Nat) (bytes : List Byte) : Prop :=
  vaBad va = false ∧ va % n = 0 ∧ ∃ tr, e.look lane va = .found tr ∧ pteR tr.entry = true ∧ pteP tr.entry = true
    ∧ e.s.bad (tr.pa va) n = false ∧ bytes = e.s.peekBytes (tr.pa va) n

/-- Every address is translated, aligned and permitted. -/
def AllClear (look : Nat → Lookup) (w : Want) (vas : List Nat) : Prop :=
  ∀ va ∈ vas, ∃ tr, classify look w va = .good tr ∨ classify look w va = .absent tr

/-- A stream register that may be used in a direction, or in either (R284, R289). -/
def BindingReady (e : Env) (k : Nat) (dir : Option Bool) (frame : Binding → Nat) : Prop :=
  let b := e.c.bind k
  b.bound = true ∧ b.closed = false ∧ (∀ d, dir = some d → b.dir = d) ∧ (e.s.session b.session).passedBy (frame b) = false

end Sys2Proof.Machine
end

