-- ==== Sys2Proof/Certificates/Slice0/Obligations.lean ====
section
/-! DEFINITION. The statements for the provers. A lane word is stated through `Gives` and `Sets` of `Safety.lean`: that it
completes, the values it writes lane by lane, and that nothing else changes. -/

open Sys2Proof Sys2Proof.Machine

/-! ### Lane words (spec/05_lane_instructions.md) -/

/-- R95 to R98: the sum, difference and product wrap or saturate as S, or a `hint.rnd`, says; `mulhi` is the high half; `min`, `max`,
`mad` and `lea`. Without saturation the 32-bit sum, difference and product are those of two's complement words, whichever signedness the
word names (R88). -/
def Obligations.IntegerArithmetic : Prop :=
  ∀ (s : State) (e : Env) (d a b c : BitVec 6) (f g sh : BitVec 3) (k : BitVec 2),
    (Starts s e (.add d a b f g) → Gives s e (.add d a b f g) (resultOf (f.getLsbD 1) d.toNat (fun l =>
      narrow (e.t.unit.sat (f.getLsbD 2)) (f.getLsbD 0) (f.getLsbD 1)
        (opndInt e.t (f.getLsbD 1) (f.getLsbD 0) a.toNat l + opndInt e.t (f.getLsbD 1) (f.getLsbD 0) b.toNat l))) 0 0)
    ∧ (Starts s e (.sub d a b f g) → Gives s e (.sub d a b f g) (resultOf (f.getLsbD 1) d.toNat (fun l =>
      narrow (e.t.unit.sat (f.getLsbD 2)) (f.getLsbD 0) (f.getLsbD 1)
        (opndInt e.t (f.getLsbD 1) (f.getLsbD 0) a.toNat l - opndInt e.t (f.getLsbD 1) (f.getLsbD 0) b.toNat l))) 0 0)
    ∧ (Starts s e (.mul d a b f g) → Gives s e (.mul d a b f g) (resultOf (f.getLsbD 1) d.toNat (fun l =>
      narrow (e.t.unit.sat (f.getLsbD 2)) (f.getLsbD 0) (f.getLsbD 1)
        (opndInt e.t (f.getLsbD 1) (f.getLsbD 0) a.toNat l * opndInt e.t (f.getLsbD 1) (f.getLsbD 0) b.toNat l))) 0 0)
    ∧ (f.getLsbD 1 = false → e.t.unit.sat (f.getLsbD 2) = false →
        (Starts s e (.add d a b f g) → Gives s e (.add d a b f g) [(d.toNat, fun l => e.t.lane a.toNat l + e.t.lane b.toNat l)] 0 0)
        ∧ (Starts s e (.sub d a b f g) → Gives s e (.sub d a b f g) [(d.toNat, fun l => e.t.lane a.toNat l - e.t.lane b.toNat l)] 0 0)
        ∧ (Starts s e (.mul d a b f g) → Gives s e (.mul d a b f g) [(d.toNat, fun l => e.t.lane a.toNat l * e.t.lane b.toNat l)] 0 0))
    ∧ (Starts s e (.mulhi d a b k g) → Gives s e (.mulhi d a b k g) (resultOf (k.getLsbD 1) d.toNat (fun l =>
      wrapNat ((opndInt e.t (k.getLsbD 1) (k.getLsbD 0) a.toNat l * opndInt e.t (k.getLsbD 1) (k.getLsbD 0) b.toNat l)
        / 2 ^ (if k.getLsbD 1 then 64 else 32)) (if k.getLsbD 1 then 64 else 32))) 0 0)
    ∧ (Starts s e (.min d a b k g) → Gives s e (.min d a b k g) (resultOf (k.getLsbD 1) d.toNat (fun l =>
      wrapNat (min (opndInt e.t (k.getLsbD 1) (k.getLsbD 0) a.toNat l) (opndInt e.t (k.getLsbD 1) (k.getLsbD 0) b.toNat l))
        (if k.getLsbD 1 then 64 else 32))) 0 0)
    ∧ (Starts s e (.max d a b k g) → Gives s e (.max d a b k g) (resultOf (k.getLsbD 1) d.toNat (fun l =>
      wrapNat (max (opndInt e.t (k.getLsbD 1) (k.getLsbD 0) a.toNat l) (opndInt e.t (k.getLsbD 1) (k.getLsbD 0) b.toNat l))
        (if k.getLsbD 1 then 64 else 32))) 0 0)
    ∧ (Starts s e (.mad d a b c) → Gives s e (.mad d a b c) [(d.toNat, fun l =>
      word32 (if e.t.unit.sat false then satS (sgn (e.t.lane a.toNat l) * sgn (e.t.lane b.toNat l) + sgn (e.t.lane c.toNat l)) 32
        else sgn (e.t.lane a.toNat l) * sgn (e.t.lane b.toNat l) + sgn (e.t.lane c.toNat l)))] 0 0)
    ∧ (Starts s e (.lea d a b sh g) → Gives s e (.lea d a b sh g) [(d.toNat, fun l =>
      e.t.lane a.toNat l + (e.t.lane b.toNat l <<< sh.toNat))] 0 0)

/-- R99 to R102 and R104: bitwise operations on 32 or 64 bits, shifts, bit fields, one-operand forms, `sel` and `mov`. -/
def Obligations.IntegerLogic : Prop :=
  ∀ (s : State) (e : Env) (d a b c : BitVec 6) (g : BitVec 3) (w : BitVec 1),
    (Starts s e (.and d a b w g) → Gives s e (.and d a b w g) (resultOf (w = 1) d.toNat (fun l =>
      e.t.opnd (w = 1) a.toNat l &&& e.t.opnd (w = 1) b.toNat l)) 0 0)
    ∧ (Starts s e (.or d a b w g) → Gives s e (.or d a b w g) (resultOf (w = 1) d.toNat (fun l =>
      e.t.opnd (w = 1) a.toNat l ||| e.t.opnd (w = 1) b.toNat l)) 0 0)
    ∧ (Starts s e (.xor d a b w g) → Gives s e (.xor d a b w g) (resultOf (w = 1) d.toNat (fun l =>
      e.t.opnd (w = 1) a.toNat l ^^^ e.t.opnd (w = 1) b.toNat l)) 0 0)
    ∧ (w = 0 → Starts s e (.andn d a b w g) → Gives s e (.andn d a b w g) [(d.toNat, fun l =>
      e.t.lane a.toNat l &&& ~~~(e.t.lane b.toNat l))] 0 0)
    ∧ (w = 1 → Starts s e (.andn d a b w g) → Gives s e (.andn d a b w g) [(d.toNat, fun l =>
      e.t.lane a.toNat l &&& ~~~(e.t.lane b.toNat l)), (d.toNat + 1, fun l =>
      e.t.lane (a.toNat + 1) l &&& ~~~(e.t.lane (b.toNat + 1) l))] 0 0)
    ∧ (Starts s e (.shl d a b g) → Gives s e (.shl d a b g) [(d.toNat, fun l => e.t.lane a.toNat l <<< (e.t.lane b.toNat l).toNat)] 0 0)
    ∧ (Starts s e (.shr d a b g) → Gives s e (.shr d a b g) [(d.toNat, fun l => e.t.lane a.toNat l >>> (e.t.lane b.toNat l).toNat)] 0 0)
    ∧ (Starts s e (.sar d a b g) → Gives s e (.sar d a b g) [(d.toNat, fun l =>
      (e.t.lane a.toNat l).sshiftRight (e.t.lane b.toNat l).toNat)] 0 0)
    ∧ (Starts s e (.rot d a b g) → Gives s e (.rot d a b g) [(d.toNat, fun l =>
      (e.t.lane a.toNat l).rotateLeft ((e.t.lane b.toNat l).toNat % 32))] 0 0)
    ∧ (Starts s e (.bfe d a b w g) → Gives s e (.bfe d a b w g) [(d.toNat, fun l =>
      bfeWord (w = 1) (e.t.lane a.toNat l) (e.t.lane b.toNat l))] 0 0)
    ∧ (Starts s e (.bfi d a b c) → Gives s e (.bfi d a b c) [(d.toNat, fun l =>
      bfiWord (e.t.lane a.toNat l) (e.t.lane b.toNat l) (e.t.lane c.toNat l))] 0 0)
    ∧ (Starts s e (.abs d a g) → Gives s e (.abs d a g) [(d.toNat, fun l => absWord (e.t.unit.sat false) (e.t.lane a.toNat l))] 0 0)
    ∧ (Starts s e (.neg d a g) → Gives s e (.neg d a g) [(d.toNat, fun l => negWord (e.t.unit.sat false) (e.t.lane a.toNat l))] 0 0)
    ∧ (Starts s e (.not d a g) → Gives s e (.not d a g) [(d.toNat, fun l => ~~~(e.t.lane a.toNat l))] 0 0)
    ∧ (Starts s e (.clz d a g) → Gives s e (.clz d a g) [(d.toNat, fun l => clzWord (e.t.lane a.toNat l))] 0 0)
    ∧ (Starts s e (.popc d a g) → Gives s e (.popc d a g) [(d.toNat, fun l => popcWord (e.t.lane a.toNat l))] 0 0)
    ∧ (Starts s e (.brev d a g) → Gives s e (.brev d a g) [(d.toNat, fun l => brevWord (e.t.lane a.toNat l))] 0 0)
    ∧ (Starts s e (.sel d a b c) → Gives s e (.sel d a b c) [(d.toNat, fun l =>
      if e.t.lane c.toNat l ≠ 0 then e.t.lane a.toNat l else e.t.lane b.toNat l)] 0 0)
    ∧ (w = 0 → Starts s e (.mov d a w g) → Gives s e (.mov d a w g) [(d.toNat, e.t.lane a.toNat)] 0 0)
    ∧ (w = 1 → Starts s e (.mov d a w g) → Gives s e (.mov d a w g)
        [(d.toNat, e.t.lane a.toNat), (d.toNat + 1, e.t.lane (a.toNat + 1))] 0 0)

/-- R105, R106: the immediate forms. The immediate is that of R92, which a `hint.imm` widens where R105 says so; `movhi` needs a
uniform old destination, and traps ILLEGAL without one. -/
def Obligations.IntegerImmediate : Prop :=
  ∀ (s : State) (e : Env) (d a : BitVec 6) (i st : BitVec 9) (j : BitVec 18) (k : BitVec 14) (n : BitVec 5) (g : BitVec 3),
    (Starts s e (.movi d j) → Gives s e (.movi d j) [(d.toNat, fun _ => word32 (e.t.unit.immediate 18 j.toNat))] 0 0)
    ∧ ((e.t.reg d.toNat).tag = .uniform → Starts s e (.movhi d k) → Gives s e (.movhi d k) [(d.toNat, fun l =>
      BitVec.ofNat 32 ((e.t.lane d.toNat l).toNat % 2 ^ 18 + k.toNat * 2 ^ 18))] 0 0)
    ∧ ((e.t.reg d.toNat).tag ≠ .uniform → Starts s e (.movhi d k) → Traps s (.movhi d k) e (.plain cILLEGAL e.t.group) false)
    ∧ (Starts s e (.iota d i st) → Gives s e (.iota d i st) [(d.toNat, fun l =>
      word32 (e.t.unit.immediate 9 i.toNat + sextInt st.toNat 9 * l))] 0 0)
    ∧ (Starts s e (.addImm d a i g) → Gives s e (.addImm d a i g) [(d.toNat, fun l =>
      if e.t.unit.sat false then word32 (satS (sgn (e.t.lane a.toNat l) + sgn (e.t.unit.imm32 i)) 32)
      else e.t.lane a.toNat l + e.t.unit.imm32 i)] 0 0)
    ∧ (Starts s e (.mulImm d a i g) → Gives s e (.mulImm d a i g) [(d.toNat, fun l => e.t.lane a.toNat l * e.t.unit.imm32 i)] 0 0)
    ∧ (Starts s e (.andImm d a i g) → Gives s e (.andImm d a i g) [(d.toNat, fun l => e.t.lane a.toNat l &&& e.t.unit.imm32 i)] 0 0)
    ∧ (Starts s e (.orImm d a i g) → Gives s e (.orImm d a i g) [(d.toNat, fun l => e.t.lane a.toNat l ||| e.t.unit.imm32 i)] 0 0)
    ∧ (Starts s e (.xorImm d a i g) → Gives s e (.xorImm d a i g) [(d.toNat, fun l => e.t.lane a.toNat l ^^^ e.t.unit.imm32 i)] 0 0)
    ∧ (Starts s e (.minImm d a i g) → Gives s e (.minImm d a i g) [(d.toNat, fun l =>
      if (e.t.lane a.toNat l).toInt ≤ (e.t.unit.imm32 i).toInt then e.t.lane a.toNat l else e.t.unit.imm32 i)] 0 0)
    ∧ (Starts s e (.maxImm d a i g) → Gives s e (.maxImm d a i g) [(d.toNat, fun l =>
      if (e.t.lane a.toNat l).toInt ≤ (e.t.unit.imm32 i).toInt then e.t.unit.imm32 i else e.t.lane a.toNat l)] 0 0)
    ∧ (Starts s e (.leaImm d a i g) → Gives s e (.leaImm d a i g) [(d.toNat, fun l => e.t.lane a.toNat l + e.t.unit.imm32 i * 4)] 0 0)
    ∧ (Starts s e (.shlImm d a n g) → Gives s e (.shlImm d a n g) [(d.toNat, fun l => e.t.lane a.toNat l <<< n.toNat)] 0 0)
    ∧ (Starts s e (.shrImm d a n g) → Gives s e (.shrImm d a n g) [(d.toNat, fun l => e.t.lane a.toNat l >>> n.toNat)] 0 0)
    ∧ (Starts s e (.sarImm d a n g) → Gives s e (.sarImm d a n g) [(d.toNat, fun l => (e.t.lane a.toNat l).sshiftRight n.toNat)] 0 0)
    ∧ (Starts s e (.rotImm d a n g) → Gives s e (.rotImm d a n g) [(d.toNat, fun l => (e.t.lane a.toNat l).rotateLeft n.toNat)] 0 0)

/-- R6, R176, R460: THE STEP INVARIANT. Whatever a step does, from any state whose memories are in canonical form, which every reachable
state is in: device and host memory, the local buffers, the tiles of the Swages, and the firmware's buffers stay in canonical form,
addresses rising and no entry equal to what an unlisted address reads as, so that equal memories are equal data. The form is the model's
own (assumption 3). -/
def Obligations.StepKeepsMemories : Prop := ∀ s t : State, s.Canonical → step s = .next t → t.Canonical

/-- R108, R112 to R114, R116: the rounding instructions. Each element is its exact value rounded once under the mode and the
saturation in force, with the element's draw when the mode or the destination is stochastic (R40), and the flags of every
element of every acting lane are ORed in (R89). The stand-in of 2^-512 through which roots and the functions of R114 are rounded, and a
tiny result's UF read by R39's own words, are the model's choices (assumptions 13 and 89). -/
def Obligations.FloatRounding : Prop :=
  ∀ (s : State) (e : Env) (d a b : BitVec 6) (f g : BitVec 3) (ty : BitVec 2) (dt st : BitVec 3) (u q : BitVec 1),
    let t := f.toNat / 2
    let mode := e.t.unit.mode
    let sto := decide (mode = rsto)
    let x (v l h : Nat) : Machine.Num := e.t.elem t v l h
    let z (v l h : Nat) : Machine.Num := e.t.elem ty.toNat v l h
    let rnd (v : Exact) (draw : Nat) : Rounded := v.round (ftFmt t) mode (e.t.unit.sat (f.getLsbD 0)) draw
    (Starts s e (.fadd d a b f g) → Rounds s e (.fadd d a b f g) d (ftCount t) (ftJoin t) sto (fun l h r => rnd (numAdd mode (x a.toNat l h) (x b.toNat l h)) r))
    ∧ (Starts s e (.fsub d a b f g) → Rounds s e (.fsub d a b f g) d (ftCount t) (ftJoin t) sto (fun l h r => rnd (numAdd mode (x a.toNat l h) (x b.toNat l h).flip) r))
    ∧ (Starts s e (.fmul d a b f g) → Rounds s e (.fmul d a b f g) d (ftCount t) (ftJoin t) sto (fun l h r => rnd (numMul (x a.toNat l h) (x b.toNat l h)) r))
    ∧ (Starts s e (.fma d a b f g) → Rounds s e (.fma d a b f g) d (ftCount t) (ftJoin t) sto (fun l h r => rnd (numFma mode (x a.toNat l h) (x b.toNat l h) (x d.toNat l h)) r))
    ∧ (Starts s e (.fdiv d a b f g) → Rounds s e (.fdiv d a b f g) d (ftCount t) (ftJoin t) sto (fun l h r => rnd (numDiv (x a.toNat l h) (x b.toNat l h)) r))
    ∧ (Starts s e (.fscale d a b f g) → Rounds s e (.fscale d a b f g) d (ftCount t) (ftJoin t) sto (fun l h r => rnd (scaleNum (x a.toNat l h) (sextInt (ftBits t (e.t.lane b.toNat l) h) (if t = 0 then 32 else 16))) r))
    ∧ (Starts s e (.fsqrt d a f g) → Rounds s e (.fsqrt d a f g) d (ftCount t) (ftJoin t) sto (fun l h r => rnd (fnSqrt (x a.toNat l h)) r))
    ∧ (Starts s e (.frcp d a f g) → Rounds s e (.frcp d a f g) d (ftCount t) (ftJoin t) sto (fun l h r => rnd (fnRcp (x a.toNat l h)) r))
    ∧ (Starts s e (.frsqrt d a f g) → Rounds s e (.frsqrt d a f g) d (ftCount t) (ftJoin t) sto (fun l h r => rnd (fnRsqrt (x a.toNat l h)) r))
    ∧ (Starts s e (.fexp2 d a f g) → Rounds s e (.fexp2 d a f g) d (ftCount t) (ftJoin t) sto (fun l h r => rnd (fnExp2 (x a.toNat l h)) r))
    ∧ (Starts s e (.flog2 d a f g) → Rounds s e (.flog2 d a f g) d (ftCount t) (ftJoin t) sto (fun l h r => rnd (fnLog2 (x a.toNat l h)) r))
    ∧ (Starts s e (.fsin d a f g) → Rounds s e (.fsin d a f g) d (ftCount t) (ftJoin t) sto (fun l h r => rnd (fnSin (x a.toNat l h)) r))
    ∧ (Starts s e (.fcos d a f g) → Rounds s e (.fcos d a f g) d (ftCount t) (ftJoin t) sto (fun l h r => rnd (fnCos (x a.toNat l h)) r))
    ∧ (Starts s e (.ffract d a ty g) → Rounds s e (.ffract d a ty g) d (ftCount ty.toNat) (ftJoin ty.toNat) sto (fun l h r => fractCode (ftFmt ty.toNat) mode r (z a.toNat l h)))
    ∧ (Starts s e (.fround d a ty g) → Rounds s e (.fround d a ty g) d (ftCount ty.toNat) (ftJoin ty.toNat) sto (fun l h r => roundCode (ftFmt ty.toNat) mode r (z a.toNat l h)))
    ∧ (Starts s e (.fdot2 d a b ty q g) → Rounds s e (.fdot2 d a b ty q g) d 1 (fun xs => BitVec.ofNat 32 (xs.getD 0 0)) sto (fun l _ r =>
        (dot2 mode (z a.toNat l 0) (z b.toNat l 0) (z a.toNat l 1) (z b.toNat l 1)).round fmtFp32 mode (e.t.unit.sat (q = 1)) r))
    ∧ (Starts s e (.cvt d a dt st u q g) → Rounds s e (.cvt d a dt st u q g) d 1 (fun xs => BitVec.ofNat 32 (xs.getD 0 0))
        (cvtDraws dt.toNat || sto) (fun l _ r =>
          encodeElem (cvtFmt dt.toNat (u = 1)) mode (e.t.unit.sat (q = 1)) r
            (fmtValue (cvtFmt st.toNat (u = 1)) ((e.t.lane a.toNat l).toNat % 2 ^ cvtBits st.toNat))))

/-- R109, R111: `fmin`, `fmax`, `fabs`, `fneg` and `fclass` work on the codes of the elements, round nothing and draw nothing. -/
def Obligations.FloatBits : Prop :=
  ∀ (s : State) (e : Env) (d a b : BitVec 6) (ty : BitVec 2) (g : BitVec 3),
    let t := ty.toNat
    let x (v l h : Nat) : Nat := ftBits t (e.t.lane v l) h
    (Starts s e (.fmin d a b ty g) → Rounds s e (.fmin d a b ty g) d (ftCount t) (ftJoin t) false (fun l h _ => minMaxCode false (ftFmt t) (x a.toNat l h) (x b.toNat l h)))
    ∧ (Starts s e (.fmax d a b ty g) → Rounds s e (.fmax d a b ty g) d (ftCount t) (ftJoin t) false (fun l h _ => minMaxCode true (ftFmt t) (x a.toNat l h) (x b.toNat l h)))
    ∧ (Starts s e (.fabs d a ty g) → Rounds s e (.fabs d a ty g) d (ftCount t) (ftJoin t) false (fun l h _ =>
        { code := x a.toNat l h % (ftFmt t).signBit, flags := 0 }))
    ∧ (Starts s e (.fneg d a ty g) → Rounds s e (.fneg d a ty g) d (ftCount t) (ftJoin t) false (fun l h _ =>
        { code := if x a.toNat l h < (ftFmt t).signBit then x a.toNat l h + (ftFmt t).signBit else x a.toNat l h - (ftFmt t).signBit, flags := 0 }))
    ∧ (Starts s e (.fclass d a ty g) → Rounds s e (.fclass d a ty g) d (ftCount t) (ftJoin t) false (fun l h _ =>
        { code := classCode (ftFmt t) (x a.toNat l h), flags := 0 }))

/-- R117, R118: `pack` merges bits of va and vb, with the old vd in every form but `.b16`; `unpack` widens one field. -/
def Obligations.PackUnpack : Prop :=
  ∀ (s : State) (e : Env) (d a b : BitVec 6) (k : BitVec 3) (sx : BitVec 1) (w : BitVec 2) (g : BitVec 3),
    let x (l : Nat) : Word := e.t.lane a.toNat l
    let y (l : Nat) : Word := e.t.lane b.toNat l
    let o (l : Nat) : Word := e.t.lane d.toNat l
    (Starts s e (.packB16 d a b g) → Gives s e (.packB16 d a b g) [(d.toNat, fun l => insertBits (insertBits 0 0 16 (x l)) 16 16 (y l))] 0 0)
    ∧ (Starts s e (.packB8Lo d a b g) → Gives s e (.packB8Lo d a b g) [(d.toNat, fun l =>
        insertBits (insertBits (o l) 0 8 (x l)) 8 8 (y l))] 0 0)
    ∧ (Starts s e (.packB8Hi d a b g) → Gives s e (.packB8Hi d a b g) [(d.toNat, fun l =>
        insertBits (insertBits (o l) 16 8 (x l)) 24 8 (y l))] 0 0)
    ∧ (Starts s e (.packB4Q0 d a b g) → Gives s e (.packB4Q0 d a b g) [(d.toNat, fun l => insertBits (insertBits (o l) 0 4 (x l)) 4 4 (y l))] 0 0)
    ∧ (Starts s e (.packB4Q1 d a b g) → Gives s e (.packB4Q1 d a b g) [(d.toNat, fun l => insertBits (insertBits (o l) 8 4 (x l)) 12 4 (y l))] 0 0)
    ∧ (Starts s e (.packB4Q2 d a b g) → Gives s e (.packB4Q2 d a b g) [(d.toNat, fun l => insertBits (insertBits (o l) 16 4 (x l)) 20 4 (y l))] 0 0)
    ∧ (Starts s e (.packB4Q3 d a b g) → Gives s e (.packB4Q3 d a b g) [(d.toNat, fun l => insertBits (insertBits (o l) 24 4 (x l)) 28 4 (y l))] 0 0)
    ∧ (Starts s e (.unpack d a k sx w g) → Gives s e (.unpack d a k sx w g) [(d.toNat, fun l =>
        if sx = 1 then word32 (sextInt (bitsOf (x l).toNat (k.toNat * (16 / 2 ^ w.toNat)) (16 / 2 ^ w.toNat)) (16 / 2 ^ w.toNat))
        else BitVec.ofNat 32 (bitsOf (x l).toNat (k.toNat * (16 / 2 ^ w.toNat)) (16 / 2 ^ w.toNat)))] 0 0)

/-- R103, R110, R119: comparisons and predicate instructions change one predicate in the acting lanes; a write to p0 is discarded
(R50); only `fcmp` raises a flag, NV. -/
def Obligations.PredicateResults : Prop :=
  ∀ (s : State) (e : Env) (w u : BitVec 1) (ty : BitVec 2) (p q r c g : BitVec 3) (a b : BitVec 6),
    (Starts s e (.icmp w u p a b c g) → Sets s e (.icmp w u p a b c g) p.toNat (maskOf (fun l =>
      icmpHolds c.toNat (opndInt e.t (w = 1) (u = 1) a.toNat l) (opndInt e.t (w = 1) (u = 1) b.toNat l))) 0)
    ∧ (Starts s e (.fcmp ty p a b c g) → Sets s e (.fcmp ty p a b c g) p.toNat
        (maskOf (fun l => (fcmpHolds c.toNat (e.t.elem ty.toNat a.toNat l 0) (e.t.elem ty.toNat b.toNat l 0)).1))
        ((lanesOf (maskFor (.fcmp ty p a b c g) e)).foldl (fun x l => x ||| (fcmpHolds c.toNat (e.t.elem ty.toNat a.toNat l 0) (e.t.elem ty.toNat b.toNat l 0)).2) 0))
    ∧ (Starts s e (.pand p q r g) → Sets s e (.pand p q r g) p.toNat (e.t.pred q.toNat &&& e.t.pred r.toNat) 0)
    ∧ (Starts s e (.por p q r g) → Sets s e (.por p q r g) p.toNat (e.t.pred q.toNat ||| e.t.pred r.toNat) 0)
    ∧ (Starts s e (.pxor p q r g) → Sets s e (.pxor p q r g) p.toNat (e.t.pred q.toNat ^^^ e.t.pred r.toNat) 0)
    ∧ (Starts s e (.pnot p q g) → Sets s e (.pnot p q g) p.toNat (~~~(e.t.pred q.toNat)) 0)
    ∧ (Starts s e (.pmov p q g) → Sets s e (.pmov p q g) p.toNat (e.t.pred q.toNat) 0)
    ∧ (Starts s e (.pfirst p q g) → Sets s e (.pfirst p q g) p.toNat (firstLane (e.t.pred q.toNat &&& maskFor (.pfirst p q g) e)) 0)

/-- R120 to R127 and R130: the cross-lane instructions. Only `xred`, `xscan`, `xmaxi` and `vote` limit the lanes they read to the
effective lane mask (R121); the tree and the scan are those of R44. Which combinings of a scan raise flags is the model's choice
(assumption 65). -/
def Obligations.CrossLane : Prop :=
  ∀ (s : State) (e : Env) (d a b : BitVec 6) (k : BitVec 4) (t : BitVec 1) (m f g : BitVec 3),
    let x (l : Nat) : Word := e.t.lane a.toNat l
    let by3 (l : Nat) : Nat := (e.t.lane b.toNat l).toNat % 8
    (Starts s e (.pcnt d g) → Gives s e (.pcnt d g) [(d.toNat, fun _ => BitVec.ofNat 32 (laneCount (maskFor (.pcnt d g) e)))] 0 0)
    ∧ (Starts s e (.xperm d a k g) → Gives s e (.xperm d a k g) [(d.toNat, fun l => x (bitsOf (e.c.xpat.getD k.toNat 0).toNat (3 * l) 3))] 0 0)
    ∧ (Starts s e (.xtab d a t g) → Gives s e (.xtab d a t g) [(d.toNat, fun l =>
        BitVec.ofNat 32 (leNat ([0, 1, 2, 3].map (fun j => BitVec.ofNat 8 (tabByte e.c.xtab t.toNat (bitsOf (x l).toNat (8 * j) 8))))))] 0 0)
    ∧ (Starts s e (.xbcast d a m g) → Gives s e (.xbcast d a m g) [(d.toNat, fun _ => x m.toNat)] 0 0)
    ∧ (Starts s e (.xshflIdx d a b g) → Gives s e (.xshflIdx d a b g) [(d.toNat, fun l => x (by3 l))] 0 0)
    ∧ (Starts s e (.xshflXor d a b g) → Gives s e (.xshflXor d a b g) [(d.toNat, fun l => x (l ^^^ by3 l))] 0 0)
    ∧ (Starts s e (.xshflUp d a b g) → Gives s e (.xshflUp d a b g) [(d.toNat, fun l => x (if l < by3 l then l else l - by3 l))] 0 0)
    ∧ (Starts s e (.xshflDown d a b g) → Gives s e (.xshflDown d a b g) [(d.toNat, fun l => x (if 7 < l + by3 l then l else l + by3 l))] 0 0)
    ∧ (Starts s e (.xred d a f g) → Gives s e (.xred d a f g)
        [(d.toNat, fun _ => BitVec.ofNat 32 (redTree f.toNat e.t.unit.mode (redInputs e.t (maskFor (.xred d a f g) e) f.toNat a.toNat)).1)]
        (if maskFor (.xred d a f g) e = 0 then 0 else (redTree f.toNat e.t.unit.mode (redInputs e.t (maskFor (.xred d a f g) e) f.toNat a.toNat)).2) 0)
    ∧ (Starts s e (.xscan d a f g) → Gives s e (.xscan d a f g)
        [(d.toNat, fun l => BitVec.ofNat 32 ((redScan f.toNat e.t.unit.mode (maskFor (.xscan d a f g) e) (redInputs e.t (maskFor (.xscan d a f g) e) f.toNat a.toNat)).1.getD l 0))]
        (if maskFor (.xscan d a f g) e = 0 then 0 else (redScan f.toNat e.t.unit.mode (maskFor (.xscan d a f g) e) (redInputs e.t (maskFor (.xscan d a f g) e) f.toNat a.toNat)).2) 0)
    ∧ (Starts s e (.xmaxi d a b f g) →
        let best := (lanesOf (maskFor (.xmaxi d a b f g) e)).foldl (fun acc l =>
          max acc (maxiPack (maxiElem f.toNat 0).1 (maxiElem f.toNat (x l)).2 (e.t.lane b.toNat l).toNat)) 0
        Gives s e (.xmaxi d a b f g) [(d.toNat, fun _ => BitVec.ofNat 32 (maxiUnpack (maxiElem f.toNat 0).1 best).1),
          (d.toNat + 1, fun _ => BitVec.ofNat 32 (maxiUnpack (maxiElem f.toNat 0).1 best).2)] 0 0)
    ∧ (Starts s e (.voteAny d a g) → Gives s e (.voteAny d a g) [(d.toNat, fun _ =>
        if (List.range 8).any (fun l => laneOn (maskFor (.voteAny d a g) e) l && x l ≠ 0) then 1 else 0)] 0 0)
    ∧ (Starts s e (.voteAll d a g) → Gives s e (.voteAll d a g) [(d.toNat, fun _ =>
        if (List.range 8).all (fun l => !laneOn (maskFor (.voteAll d a g) e) l || x l ≠ 0) then 1 else 0)] 0 0)
    ∧ (Starts s e (.voteBallot d a g) → Gives s e (.voteBallot d a g) [(d.toNat, fun _ =>
        (maskOf (fun l => laneOn (maskFor (.voteBallot d a g) e) l && x l ≠ 0)).zeroExtend 32)] 0 0)
    ∧ (Starts s e (.vshape d a g) → Gives s e (.vshape d a g) [(d.toNat, fun _ =>
        match (e.t.reg a.toNat).tag with | .uniform => 0 | .affine => 1 | .general => 2)] 0 0)

/-- R26, R36, R37 and R40: a value that a format represents is returned unchanged in every mode, with and without saturation and
whatever the draw, and raises no flag; the sign of a zero is kept. -/
def Obligations.RepresentableUnchanged : Prop :=
  ∀ (f : Fmt) (mode draw code : Nat) (sat : Bool), f ∈ [fmtFp32, fmtBf16, fmtFp16, fmtE5m2, fmtE4m3, fmtE2m1] → mode < 6 →
    code < 2 * f.signBit → code % f.signBit ≤ f.maxFin →
    roundFmt f mode sat draw (decodeFmt f code) = { code := code, flags := noFlags }

/-! ### Control flow (spec/07_flow_and_barrier_instructions.md) -/

/-- R155 to R158: with no bad target among the acting lanes, they take their targets and the rest of the group the next word;
a call also writes the return address. One bad target traps ALIGN with the lanes that have one. -/
def Obligations.Branching : Prop :=
  ∀ (s : State) (e : Env) (o : BitVec 21) (j : BitVec 18) (g : BitVec 3) (a : BitVec 6) (d : BitVec 5),
    let ra : Nat := (e.t.fetchPc + 4).toNat
    let direct (w field : Nat) : Nat → Nat := fun _ => e.directTarget w field
    let pairOf : Nat → Nat := fun l => (e.t.lane64 a.toNat l).toNat
    let good (i : Instr) (target : Nat → Nat) : Prop := ∀ l, l < 8 → laneOn (maskFor i e) l = true → e.badTarget (target l) = false
    let badMask (i : Instr) (target : Nat → Nat) : Mask := maskOf (fun l => laneOn (maskFor i e) l && e.badTarget (target l))
    (Starts s e (.bra o g) → good (.bra o g) (direct 21 o.toNat) → Branches s e (.bra o g) (direct 21 o.toNat) [])
    ∧ (Starts s e (.brx a g) → good (.brx a g) pairOf → Branches s e (.brx a g) pairOf [])
    ∧ (Starts s e (.ret a g) → good (.ret a g) pairOf → Branches s e (.ret a g) pairOf [])
    ∧ (Starts s e (.callDirect d j) → good (.callDirect d j) (direct 18 j.toNat) →
        Branches s e (.callDirect d j) (direct 18 j.toNat) (resultOf true (2 * d.toNat) (fun _ => ra)))
    ∧ (Starts s e (.callIndirect d a) → good (.callIndirect d a) pairOf →
        Branches s e (.callIndirect d a) pairOf (resultOf true (2 * d.toNat) (fun _ => ra)))
    ∧ (Starts s e (.bra o g) → badMask (.bra o g) (direct 21 o.toNat) ≠ 0 →
        Traps s (.bra o g) e (.plain cALIGN (badMask (.bra o g) (direct 21 o.toNat))) false)
    ∧ (Starts s e (.brx a g) → badMask (.brx a g) pairOf ≠ 0 → Traps s (.brx a g) e (.plain cALIGN (badMask (.brx a g) pairOf)) false)
    ∧ (Starts s e (.ret a g) → badMask (.ret a g) pairOf ≠ 0 → Traps s (.ret a g) e (.plain cALIGN (badMask (.ret a g) pairOf)) false)
    ∧ (Starts s e (.callDirect d j) → badMask (.callDirect d j) (direct 18 j.toNat) ≠ 0 →
        Traps s (.callDirect d j) e (.plain cALIGN (badMask (.callDirect d j) (direct 18 j.toNat))) false)
    ∧ (Starts s e (.callIndirect d a) → badMask (.callIndirect d a) pairOf ≠ 0 →
        Traps s (.callIndirect d a) e (.plain cALIGN (badMask (.callIndirect d a) pairOf)) false)

/-- R159 to R161: `meet` writes the meeting registers of the acting lanes; `nop` does nothing; `yield` ends its unit with the
selection that a YLD does; `sleep` makes the group wait for n × 64 cycles; `exit` ends the acting threads, whereupon barriers that
this completes complete, and in a walker strand it ends the walk (assumption 40). -/
def Obligations.MeetSleepExit : Prop :=
  ∀ (s : State) (e : Env) (o : BitVec 21) (g : BitVec 3) (n : BitVec 12),
    (Starts s e (.meet o g) → Ends s (.meet o g) (e.on (e.t.modThreads (maskFor (.meet o g) e) (fun _ x =>
      { x with meeting := if o = 0 ∧ e.t.unit.imm = none then 1 else BitVec.ofNat 32 (e.directTarget 21 o.toNat) }))))
    ∧ (Starts s e .nop → Ends s .nop e)
    ∧ (Starts s e .yield → Ends s .yield (e.on { e.t with unit := { e.t.unit with sched := some true } }))
    ∧ (Starts s e (.sleep 0) → Ends s (.sleep 0) e)
    ∧ (n ≠ 0 → Starts s e (.sleep n) → Moves s (.sleep n) (e.on
        ((e.t.advance e.t.group (e.t.unit.words + 1)).waitLanes e.t.group (.sleep (s.cycle + 64 * n.toNat)))))
    ∧ (Starts s e (.exit g) → maskFor (.exit g) e = 0 → exec (.exit g) s = .next ((e.endUnit false).commit.completeBarriers e.c.id 8))
    ∧ (Starts s e (.exit g) → maskFor (.exit g) e ≠ 0 → e.c.walker = false →
        exec (.exit g) s = .next (((e.on
          ((e.t.advance (e.t.group &&& ~~~(maskFor (.exit g) e)) (e.t.unit.words + 1)).modThreads (maskFor (.exit g) e)
            (fun _ x => { x with state := .exited }))).endUnit true).commit.completeBarriers e.c.id 8))
    ∧ (Starts s e (.exit g) → maskFor (.exit g) e ≠ 0 → e.c.walker = true →
        exec (.exit g) s = .next ((e.via (fun s => s.endWalk e.c.core e.t.idx)).commit.completeBarriers e.c.id 8))

/-- R148, R149, R162, R163: the threads of the current group begin to wait at the barrier and stand at the next word; a slot
counts them; barriers that this completes complete. `bar` at or above `.bars` traps ILLEGAL. -/
def Obligations.BarrierArrival : Prop :=
  ∀ (s : State) (e : Env) (b : BitVec 4),
    let waits (e : Env) (w : Wait) : State := ((e.on
      ((e.t.advance e.t.group (e.t.unit.words + 1)).waitLanes e.t.group w)).endUnit true).commit.completeBarriers e.c.id 8
    (Starts s e (.bar b) → b.toNat < e.c.nbars → exec (.bar b) s = .next (waits
      { e with c := { e.c with bars := modAt e.c.bars b.toNat (fun x => { x with count := x.count + laneCount e.t.group }) } } (.bar b.toNat)))
    ∧ (Starts s e (.bar b) → e.c.nbars ≤ b.toNat → Traps s (.bar b) e (.plain cILLEGAL e.t.group) false)
    ∧ (Starts s e .gbar → exec .gbar s = .next (waits e .gbar))
    ∧ (Starts s e .sbar → exec .sbar s = .next (waits e .sbar))

/-- R164 to R168: `rgrow` enqueues a request and its group waits, `rgrow.try` takes blocks or not and never waits, `rshrink` gives
back the top blocks, and `disp` takes one index for the group. -/
def Obligations.BlocksAndTiles : Prop :=
  ∀ (s : State) (e : Env) (n p g : BitVec 3) (d : BitVec 6) (l : Launch),
    (Starts s e (.rgrow n) → e.t.regs.length + 8 * n.toNat ≤ e.c.ceil → e.t.grow = none →
      exec (.rgrow n) s = .next (((e.on ((({ e.t with grow := some n.toNat } : Strand).advance e.t.group (e.t.unit.words + 1)).waitLanes
        e.t.group .rgrow)).endUnit true).commit.serveCrewCore e.c.id))
    ∧ (Starts s e (.rgrow n) → e.c.ceil < e.t.regs.length + 8 * n.toNat → Traps s (.rgrow n) e (.plain cILLEGAL e.t.group) false)
    ∧ (Starts s e (.rgrowTry p n) → e.t.regs.length + 8 * n.toNat ≤ e.c.ceil →
        (e.t.grow = none ∧ e.olderWaits = false ∧ n.toNat ≤ e.commit.poolFree e.c.core →
          Ends s (.rgrowTry p n) ((e.addBlocks n.toNat).putPred (maskFor (.rgrowTry p n) e) p.toNat (fun _ => true)))
        ∧ (¬(e.t.grow = none ∧ e.olderWaits = false ∧ n.toNat ≤ e.commit.poolFree e.c.core) →
          Ends s (.rgrowTry p n) (e.putPred (maskFor (.rgrowTry p n) e) p.toNat (fun _ => false))))
    ∧ (Starts s e (.rshrink n) → e.c.baseRegs + 8 * n.toNat ≤ e.t.regs.length →
        (∀ q ∈ e.t.inflight, ∀ v ∈ q.dsts ++ q.srcs, v < e.t.regs.length - 8 * n.toNat) →
        exec (.rshrink n) s = .next (((e.dropBlocks (e.t.regs.length - 8 * n.toNat) n.toNat).endUnit false).commit.serveCrewCore e.c.id))
    ∧ (Starts s e (.disp d p g) → s.launch? e.c.seq = some l → l.pkt.persist = true → maskFor (.disp d p g) e ≠ 0 →
        let r := dispense l.disp e.c.dispSlot
        let e1 : Env := { e with s := s.modLaunch e.c.seq (fun l => { l with disp := r.2 }) }
        Ends s (.disp d p g) ((e1.puts true [e.t.result (maskFor (.disp d p g) e) .uniform d.toNat (fun _ =>
          match r.1 with | some k => BitVec.ofNat 32 k | none => 0xFFFFFFFF)]).putPred (maskFor (.disp d p g) e) p.toNat (fun _ => r.1.isSome)))
    ∧ (Starts s e (.disp d p g) → s.launch? e.c.seq = some l → l.pkt.persist = false → Traps s (.disp d p g) e (.plain cILLEGAL e.t.group) false)

/-- R169: a request of the dispenser hands out one index that was in a range and keeps every other: nothing is lost or given
twice; and it answers none only when every range is empty. -/
def Obligations.DispenserKeepsIndices : Prop :=
  ∀ (rs : List DispRange) (j : Nat), j < rs.length → (∀ r ∈ rs, r.lo ≤ r.hi) →
    let indices (xs : List DispRange) : List Nat := xs.flatMap (fun r => (List.range (r.hi - r.lo)).map (fun k => r.lo + k))
    (∀ x, (dispense rs j).1 = some x → (indices rs).Perm (x :: indices (dispense rs j).2))
    ∧ ((dispense rs j).1 = none → indices rs = [] ∧ (dispense rs j).2 = rs)
    ∧ (∀ r ∈ (dispense rs j).2, r.lo ≤ r.hi)

/-! ### Memory (spec/08_memory_model.md, spec/09_memory_and_copy_instructions.md) -/

/-- R200, R204, R364: the six loads, in programs, in transactions and in walker strands. That a value-table hit comes before any translation
and its traps is the model's choice (assumption 65). -/
def Obligations.GlobalLoads : Prop :=
  ∀ (s : State) (e : Env) (d a : BitVec 6) (i : BitVec 9) (g : BitVec 3),
    LoadIssues s e (.ldB32 d a i g) .b32 4 d a i ∧ LoadIssues s e (.ldB64 d a i g) .b64 8 d a i
    ∧ LoadIssues s e (.ldF32 d a i g) .f32 1 d a i ∧ LoadIssues s e (.ldF16 d a i g) .f16 1 d a i
    ∧ LoadIssues s e (.ldBf16 d a i g) .bf16 1 d a i ∧ LoadIssues s e (.ldI32 d a i g) .i32 1 d a i
    ∧ WalkerLoads s e (.ldB32 d a i g) 4 d a i ∧ WalkerLoads s e (.ldB64 d a i g) 8 d a i

/-- R205, R207: the stores, global and local, and the local loads. A store in flight alone, when it is performed, changes no byte of
memory outside those of its lanes, and the highest lane's bytes are what it stores (R179). That a local access acts on its buffer as it
issues is the model's choice (assumption 30), and that the store of a doomed lane is dropped (assumption 31). -/
def Obligations.StoresAndLocalAccesses : Prop :=
  ∀ (s : State) (e : Env) (d a : BitVec 6) (i : BitVec 9) (g : BitVec 3),
    StoreIssues s e (.stB8 d a i g) 1 d a i ∧ StoreIssues s e (.stB16 d a i g) 2 d a i
    ∧ StoreIssues s e (.stB32 d a i g) 4 d a i ∧ StoreIssues s e (.stB64 d a i g) 8 d a i
    ∧ LocalLoads s e (.ldbW d a i g) .wbuf d a i ∧ LocalLoads s e (.ldbA d a i g) .abuf d a i ∧ LocalLoads s e (.ldbC d a i g) .cbuf d a i
    ∧ LocalStores s e (.stbA d a i g) .abuf d a i ∧ LocalStores s e (.stbC d a i g) .cbuf d a i
    ∧ (∀ (c n w : Nat) (p : Pending) (accs : List LaneAcc), s.env? c n = some e → e.c.state = .resident → e.t.inflight = [p] → p.ctr = .st →
        p.done = false → p.kind = .store w accs → s.mem.wf = true →
        ∃ t, exec (.storeAcknowledge c n p.id) s = .next t ∧ t.mem.wf = true
          ∧ (∀ b, (∀ x ∈ accs, x.absent = true ∨ inKick x.pa = true ∨ b < x.pa ∨ x.pa + w ≤ b) →
              Memory.readByte t.mem b = Memory.readByte s.mem b)
          ∧ (∀ rest x j, accs = rest ++ [x] → x.absent = false → inKick x.pa = false → s.hasMemory x.pa = true → j < w →
              Memory.readByte t.mem (x.pa + j) = (leBytes w x.a.toNat).getD j 0))

/-- R180, R208 to R212: the atomics with their ordering halves, and the ordering instructions. An atomic of one lane in flight alone,
when it is performed in device memory, leaves its new value in its word and every other byte as it was. That an acquire, a release or a
fence performs every earlier memory operation of the strand is the model's choice (assumption 77). -/
def Obligations.AtomicsAndOrdering : Prop :=
  ∀ (s : State) (e : Env) (d a b : BitVec 6) (f g : BitVec 3) (o : BitVec 2) (w : BitVec 1),
    let x (l : Nat) : DWord := BitVec.ofNat 64 (e.t.opnd (atomWide f.toNat) b.toNat l)
    let op (l : List LaneAcc) : OpKind := .atom f.toNat d.toNat l
    let ds := regsW (atomWide f.toNat) d
    AtomicIssues s e (.atom d a b f g) (atomWide f.toNat) false false a op x (fun _ => 0) ds (regsW (atomWide f.toNat) b)
    ∧ AtomicIssues s e (.atomAcq d a b f g) (atomWide f.toNat) true false a op x (fun _ => 0) ds (regsW (atomWide f.toNat) b)
    ∧ AtomicIssues s e (.atomRel d a b f g) (atomWide f.toNat) false true a op x (fun _ => 0) ds (regsW (atomWide f.toNat) b)
    ∧ AtomicIssues s e (.atomAcqRel d a b f g) (atomWide f.toNat) true true a op x (fun _ => 0) ds (regsW (atomWide f.toNat) b)
    ∧ AtomicIssues s e (.cas d a b o w g) (w = 1) (o.getLsbD 0) (o.getLsbD 1) a (.cas (w = 1) d.toNat)
        (fun l => BitVec.ofNat 64 (e.t.opnd (w = 1) d.toNat l)) (fun l => BitVec.ofNat 64 (e.t.opnd (w = 1) b.toNat l)) (regsW (w = 1) d)
        (regsW (w = 1) d ++ regsW (w = 1) b)
    ∧ (Starts s e .acq → Ends s .acq e.acquire)
    ∧ (Starts s e .rel → Ends s .rel e.release)
    ∧ (Starts s e .fence → Ends s .fence e.release.acquire)
    ∧ (∀ (c n k vd : Nat) (p : Pending) (y : LaneAcc), s.env? c n = some e → e.c.state = .resident → e.t.inflight = [p] → p.ctr = .ld →
        p.done = false → p.kind = .atom k vd [y] → s.mem.wf = true → y.absent = false → y.pa < kickBase → s.hasMemory y.pa = true →
        let n8 := if atomWide k then 8 else 4
        s.bad y.pa n8 = false →
        ∃ t, exec (.loadValueArrival c n p.id) s = .next t ∧ t.mem.wf = true
          ∧ (∀ b, b < y.pa ∨ y.pa + n8 ≤ b → Memory.readByte t.mem b = Memory.readByte s.mem b)
          ∧ (∀ j, j < n8 → Memory.readByte t.mem (y.pa + j) = (leBytes n8 (atomNew k (s.peek y.pa n8) y.a.toNat)).getD j 0))

/-! ### Transactions and waiting for a word (spec/08_memory_model.md R190 to R195, spec/09_memory_and_copy_instructions.md R213, R214) -/

/-- R190 to R194, R214: `txb` begins a transaction in each acting lane after an acquire, with priority after eight failures; `txa`
ends an ACTIVE one with code 8 and a doomed one with its own code. For one acting lane, `txc` ends a doomed transaction with its
code, one that meets a locked word without priority with 6, one with a changed word with 5, and else performs its writes; one that reads
an uncorrectable word traps ECC_UE for it. That `txb` and `txc` perform the strand's earlier memory operations, and how a commit meets an
uncorrectable word, are the model's choices (assumptions 77 and 31). -/
def Obligations.Transactions : Prop :=
  ∀ (s : State) (e : Env) (g p : BitVec 3) (l : Nat),
    let fails (x : Tx) : Nat := min 15 (x.fails + 1)
    let ended (x : Tx) (code : Nat) : Tx := { state := code, begun := false, fails := fails x, prio := false, rset := [], wset := [] }
    let put (e : Env) (y : Tx) : Env := e.on (e.t.modThread l (fun th => { th with tx := y }))
    let e0 := e.drainMem
    let x := (e0.t.thread l).tx
    let fin (e1 : Env) (ok : Bool) : Env :=
      let e2 := e1.putPred (laneBit l) p.toNat (fun k => decide (k = l) && ok)
      ((e2.on { e2.t with locked := e0.t.locked &&& ~~~(laneBit l) }).release).acquire
    let stopped : Prop := laneOn e0.t.locked l = true ∧ x.prio = false ∧ ¬(x.rset = [] ∧ x.wset = [])
    (Starts s e (.txb g) → Ends s (.txb g) (e.acquire.on (e.acquire.t.modThreads (maskFor (.txb g) e) (fun _ th =>
      { th with tx := { state := 1, begun := true, fails := th.tx.fails, prio := decide (8 ≤ th.tx.fails), rset := [], wset := [] } }))))
    ∧ (Starts s e (.txa g) → Ends s (.txa g) (e.on (e.t.modThreads (maskFor (.txa g) e) (fun _ th =>
      { th with tx := if th.tx.active then ended th.tx 8 else if th.tx.doomed then ended th.tx th.tx.state else th.tx }))))
    ∧ (l < 8 → Starts s e (.txc p g) → maskFor (.txc p g) e = laneBit l →
        (x.open = false → Ends s (.txc p g) (fin e0 false))
        ∧ (x.doomed = true → Ends s (.txc p g) (fin (put e0 (ended x x.state)) false))
        ∧ (x.active = true → stopped → Ends s (.txc p g) (fin (put e0 (ended x 6)) false))
        ∧ (x.active = true → ¬stopped → e0.s.badReads x ≠ [] → Traps s (.txc p g)
            (e0.fence.via (fun s => s.consumeUes e.c.ctx false ((e0.s.badReads x).map (fun r => 4 * r.word))))
            (.at cECC (laneBit l) (lowest ((e0.s.badReads x).map TxRead.va))) false)
        ∧ (x.active = true → ¬stopped → e0.s.badReads x = [] → e0.s.validates x = false → Ends s (.txc p g) (fin (put e0 (ended x 5)) false))
        ∧ (x.active = true → ¬stopped → e0.s.badReads x = [] → e0.s.validates x = true →
            Ends s (.txc p g) (fin (put (e0.via (fun s => s.commitWrites e0.c.core e0.c.ctx x.wset)) .none) true)))

/-- R194: of two lanes that commit together and conflict, the higher aborts with code 4, whatever becomes of the lower one, and
nothing that it wrote is performed: memory is as the write sets of the lanes that commit leave it, in ascending order, and as it was where
none commits. That `txc` performs the strand's earlier memory operations first is the model's choice (assumption 77). -/
def Obligations.CommitConflict : Prop :=
  ∀ (s : State) (e : Env) (p g : BitVec 3) (l k : Nat), l < k → k < 8 → Starts s e (.txc p g) →
    laneOn (maskFor (.txc p g) e) l = true → laneOn (maskFor (.txc p g) e) k = true →
    let x (n : Nat) : Tx := (e.drainMem.t.thread n).tx
    (x l).active = true → (x k).active = true → (x l).conflicts (x k) = true →
    let acts (n : Nat) : Bool := laneOn (maskFor (.txc p g) e) n && (x n).active
    (∀ n, n < 8 → acts n = true → e.drainMem.s.badReads (x n) = []) →
    ∃ e1 : Env, Ends s (.txc p g) e1.release.acquire ∧ (e1.t.thread k).tx.state = 4 ∧ (e1.t.thread k).tx.begun = false
      ∧ (p ≠ 0 → laneOn (e1.t.pred p.toNat) k = false)
      ∧ (let commits := (lanesOf (maskFor (.txc p g) e)).filter (fun n => acts n && (e1.t.thread n).tx.state = 0)
         k ∉ commits
         ∧ e1.s.mem = (commits.foldl (fun st n => st.commitWrites e.c.core e.c.ctx (x n).wset) e.drainMem.commit).mem
         ∧ (commits = [] → e1.s.mem = e.drainMem.s.mem)
         ∧ ∀ n ∈ commits, (e1.t.thread n).tx = .committed ∧ ∀ j, j < n → acts j = true → (x j).conflicts (x n) = false)

/-- R179, R213: the strand's own accesses in flight to the words come first; a lane whose word then differs from the expected one, whose
deadline has passed or whose page is absent returns at once; the others wait for their word. The next word is where every thread of the
group goes on. -/
def Obligations.WaitForWord : Prop :=
  ∀ (s : State) (e : Env) (d a b : BitVec 6) (p g : BitVec 3), Starts s e (.waita d a b p g) →
    let i : Instr := .waita d a b p g
    let m := maskFor i e
    let els (l : Nat) : List LaneEl := [rawEl (e.look l) pteR 4 (e.t.lane64 a.toNat l).toNat]
    let words := (acting m els).flatMap (fun y => y.2.flatMap (fun x => match x.cls with | .good tr => wordsOf (tr.pa x.va) 4 | _ => []))
    let e1 := (e.keepLast (acting m els)).performAll (conflicting e.t.inflight.reverse words)
    let ws : List WaitaLane := (acting m els).flatMap (fun y => y.2.map (fun x =>
      { lane := y.1, va := x.va, pa := (match x.cls with | .good tr => tr.pa x.va | _ => 0), exp := e.t.lane d.toNat y.1, time := e.t.lane64 b.toNat y.1,
        read := e1.waitaRead x, gone := (match x.cls with | .good _ => false | _ => true), tr := x.trans }))
    (∀ w, e.t.waita = some w → w.pc ≠ e.t.fetchPc) → m ≠ 0 → Clear m els → (∀ w ∈ ws, w.read.isSome = true) →
    Moves s i (e1.waitaIssue ws d.toNat p.toNat e.t.group)
    ∧ (e.t.inflight = [] → (∀ w ∈ ws, w.gone = false ∧ w.read = some w.exp ∧ e.s.clock.toNat ≤ w.time.toNat) →
        ∃ e2, Moves s i e2 ∧ e2.s = s ∧ e2.t.regs = e.t.regs ∧ ∀ l, l < 8 → laneOn m l = true → ∃ w ∈ ws, w.lane = l ∧
          (e2.t.thread l).state = .waiting (.waita w.pa w.exp w.time d.toNat p.toNat { pc := (e.t.thread l).pc, va := w.va, tr := w.tr }))

/-! ### Copies, waits and residency (spec/09_memory_and_copy_instructions.md R215 to R223) -/

/-- R217 to R222: a copy that passes the checks completes as an instruction: its operation is in flight on the counter cp with its whole
command, its lane's copy count is one more, its local ranges are in the scoreboard, and over a WBUF destination value-table entries and the
keys of loads in flight are lost (R64); everything else stays as it was. A refused control word traps ILLEGAL in the lane that commands it.
Of an address in a local space the odd register is neither waited for nor read. That `cptab` counts as a copy is the model's choice
(assumption 57). -/
def Obligations.Copies : Prop :=
  ∀ (s : State) (e : Env) (d a b c : BitVec 6),
    let l := lowLane e.t.group
    let cw := e.t.lane c.toNat l
    let nm := (e.t.lane b.toNat l).toNat
    let plan (n m : Nat) (x y : Int) : CopyPlan :=
      { dst := { space := spaceOf (cwDS cw), base := e.t.copyAddr (spaceOf (cwDS cw)) d.toNat l, stride := x, m := m, n := n,
                 bits := sideBits (cwDT cw), perm := pteW, whole := true }
        src := { space := spaceOf (cwSS cw), base := e.t.copyAddr (spaceOf (cwSS cw)) a.toNat l, stride := y, m := m, n := n,
                 bits := sideBits (cwST cw), perm := pteR, whole := false }
        table := none }
    let p1 := plan nm 1 0 0
    let p2 := plan (nm % 2 ^ 16) (nm / 2 ^ 16) (e.t.lane (b.toNat + 1) l).toInt (e.t.lane (c.toNat + 1) l).toInt
    let w := 2 ^ bitsOf cw.toNat 0 2
    let p3 : CopyPlan :=
      { dst := { space := spaceOf (cwDS cw), base := e.t.copyAddr (spaceOf (cwDS cw)) d.toNat l, stride := 0, m := 1, n := nm,
                 bits := some (8 * w), perm := pteW, whole := true }
        src := { space := spaceOf (cwSS cw), base := e.t.copyAddr (spaceOf (cwSS cw)) a.toNat l, stride := 0, m := 1, n := nm, bits := some 8,
                 perm := pteR, whole := false }
        table := (spaceOf (bitsOf cw.toNat 12 2)).map (fun sp => (sp, (e.t.lane (c.toNat + 1) l).toNat, w)) }
    let size (sp : Space) : Nat := (e.c.claim sp).size
    let base (x : Side) : Nat := match x.space with | some sp => (e.c.claim sp).base | none => 0
    let tableAt (sp : Space) (off : Nat) : Nat := (e.c.claim sp).base + off
    let cmd (p : CopyPlan) (cw : Word) : CopyCmd :=
      { table := p.table.map (fun t => Memory.readBytes ((e.s.core e.c.core).buf t.1) (tableAt t.1 t.2.1) (256 * t.2.2))
        tabBad := (match p.table with
          | some (sp, off, w) => (List.range 256).filterMap (fun i =>
              if e.s.ue.contains (bufUnit e.c.core sp (tableAt sp off + i * w)) then some (i, off + i * w) else none)
          | none => [])
        entryW := (match p.table with | some (_, _, w) => w | none => 0), base := base p.src
        dst := BitVec.ofNat 64 (base p.dst + p.dst.base), src := BitVec.ofNat 64 (base p.src + p.src.base), n := p.dst.n, m := p.dst.m
        dstride := p.dst.stride, sstride := p.src.stride, cw := cw
        key := BitVec.ofNat 64 (engineKey ((e.t.thread l).copies % 2 ^ 11 * 2 ^ 52 + globalThread e.c e.t l)), ctr0 := 0, seed := e.c.seed
        lane := l, ctx := e.c.ctx
        trans := (p.src.scan (e.look l)).trans
          ++ (p.dst.scan (e.look l)).trans.filter (fun t => !(p.src.scan (e.look l)).trans.contains t) }
    let held (r : Space × Nat × Nat × Bool) : SbEntry :=
      { crew := e.c.id, strand := e.t.idx, op := e.t.nextOp, space := r.1, first := (e.c.claim r.1).base + r.2.1,
        last := (e.c.claim r.1).base + r.2.2.1, writes := r.2.2.2 }
    let launched (p : CopyPlan) (cw : Word) : Env :=
      let kills := (p.ranges.filter (fun r => r.1 = .wbuf && r.2.2.2)).map (fun r => ((e.c.claim .wbuf).base + r.2.1, (e.c.claim .wbuf).base + r.2.2.1 + 1))
      let e1 : Env :=
        { s := e.s.modCore e.c.core (fun co => { co with
            sboard := e.s.board e.c.core ++ p.ranges.map held, naming := kills.foldl (fun n r => n.killRange r.1 r.2) co.naming })
          c := e.c
          t := (e.inFlight .cp [] none (.copy (cmd p cw))).t.modThread l (fun x => { x with copies := x.copies + 1 }) }
      kills.foldl (fun e r => e.unkeyLoads r.1 r.2) e1
    let paired : Prop := ∀ v ∈ pairReads d a cw, (∀ q ∈ e.t.inflight, q.done = true ∨ v ∉ q.dsts) ∧ (e.t.reg v).bad = false
    let lone (i : Instr) : Prop := Traps s i e (.plain cILLEGAL (laneBit l)) false
    (Starts s e (.cp d a b c) → paired → copyIllegal cw size = false → CopyClear e p1 cw l → l < 8 → Ends s (.cp d a b c) (launched p1 cw))
    ∧ (Starts s e (.cp2 d a b c) → paired → copyIllegal cw size = false → CopyClear e p2 cw l → l < 8 → Ends s (.cp2 d a b c) (launched p2 cw))
    ∧ (Starts s e (.cptab d a b c) → paired → tableIllegal cw size = false → CopyClear e p3 (cw &&& 0xF00) l → l < 8 →
        Ends s (.cptab d a b c) (launched p3 (cw &&& 0xF00)))
    ∧ (Starts s e (.cp d a b c) → paired → copyIllegal cw size = true → lone (.cp d a b c))
    ∧ (Starts s e (.cp2 d a b c) → paired → copyIllegal cw size = true → lone (.cp2 d a b c))
    ∧ (Starts s e (.cptab d a b c) → tableIllegal cw size = true → lone (.cptab d a b c))

/-- R186, R223: a wait whose thresholds are met ends at once, with an acquire when it observes writes to global memory; one that
nothing can end yet makes its group wait at the next word. That a wait itself performs the operations in flight that it waits for, where
none has been performed by then, is the model's choice (assumption 1). -/
def Obligations.CounterWaits : Prop :=
  ∀ (s : State) (e : Env) (i : Instr) (x : Thresholds) (a b c d : BitVec 6),
    (i = .wait a b c d ∧ x = { ld := a.toNat, st := b.toNat, cp := c.toNat, mx := d.toNat, tr := 63, sr := 63, cl := 63 }
      ∨ i = .waitx a b c ∧ x = { ld := 63, st := 63, cp := 63, mx := 63, tr := a.toNat, sr := b.toNat, cl := c.toNat }) →
    Starts s e i →
    let e1 := e.settle (fun p => x.names.contains p.ctr)
    (e.t.thresholdsMet x = true → e.t.observesStale x = false → Ends s i (e.on (e.t.observed x)))
    ∧ (e.t.thresholdsMet x = true → e.t.observesStale x = true → Ends s i (e.acquire.on (e.acquire.t.observed x)))
    ∧ (e.t.thresholdsMet x = false → e1.t.thresholdsMet x = true → e1.t.observesStale x = false → Ends s i (e1.on (e1.t.observed x)))
    ∧ (e.t.thresholdsMet x = false → e1.t.thresholdsMet x = true → e1.t.observesStale x = true →
        Ends s i (e1.acquire.on (e1.acquire.t.observed x)))
    ∧ (e.t.thresholdsMet x = false → e1.t.thresholdsMet x = false →
        Moves s i (e1.on ((e1.t.advance e1.t.group (e1.t.unit.words + 1)).waitLanes e1.t.group (.counters x))))

/-- R215, R216: `pgreq` and `pfetch` with known translations are in flight on cp, and the pages that are not resident are
requested. -/
def Obligations.Residency : Prop :=
  ∀ (s : State) (e : Env) (d a : BitVec 6) (o : BitVec 1) (n : BitVec 8) (g : BitVec 3),
    (Starts s e (.pgreq d a g) →
      let m := maskFor (.pgreq d a g) e
      let va (l : Nat) : Nat := (e.t.lane64 a.toNat l).toNat
      m ≠ 0 → (∀ l ∈ lanesOf m, vaBad (va l) = false ∧ ∃ tr, e.look l (va l) = .found tr) → e.t.full .cp = false →
      let page (l : Nat) : Nat := match e.look l (va l) with | .found tr => tr.base.toNat / 2 ^ 14 | _ => 0
      let gone (l : Nat) : Bool := match e.look l (va l) with | .found tr => !pteP tr.entry | _ => false
      Ends s (.pgreq d a g) ((e.inFlight .cp [d.toNat] none (.pgreq d.toNat m ((lanesOf m).map (fun l => (l, page l))) [])).via
        (fun s => s.requestPages e.c.ctx (((lanesOf m).filter gone).map page))))
    ∧ (Starts s e (.pgreq d a g) →
      let m := maskFor (.pgreq d a g) e
      let bad := maskOf (fun l => laneOn m l && vaBad (e.t.lane64 a.toNat l).toNat)
      bad ≠ 0 → Traps s (.pgreq d a g) e (.plain cALIGN bad) false)
    ∧ (Starts s e (.pfetch a o n g) →
      let m := maskFor (.pfetch a o n g) e
      let line (l j : Nat) : Nat := ((e.t.lane64 a.toNat l).toNat / 128 + j) * 128
      m ≠ 0 → (∀ l ∈ lanesOf m, ∀ j, j ≤ n.toNat → vaBad (line l j) = false → e.look l (line l j) ≠ .miss) → e.t.full .cp = false →
      ∃ lines, Ends s (.pfetch a o n g) (e.inFlight .cp [] none (.pfetch lines (decide (o = 1))))
        ∧ ∀ x, x ∈ lines ↔ ∃ l ∈ lanesOf m, ∃ j tr, j ≤ n.toNat ∧ vaBad (line l j) = false ∧ e.look l (line l j) = .found tr
            ∧ pteR tr.entry = true ∧ pteP tr.entry = true ∧ x = tr.pa (line l j) / 128)

/-! ### Regions, translation and traps (spec/15_contexts_and_preemption.md R341 to R344, spec/16_translation_and_residency.md
R364 to R370, spec/20_traps_errors_and_watchdog.md R423 to R433) -/

/-- R341 to R344: with nothing in flight the group arrives at the round of its region instruction, unless another round is in
progress; `ideme` outside a region and a second round trap ILLEGAL. -/
def Obligations.RegionRounds : Prop :=
  ∀ (s : State) (e : Env),
    let arrives (closing : Bool) : State := ((({ e with c := { e.c with idemAt := some e.t.fetchPc } } : Env).on
      ((e.t.advance e.t.group (e.t.unit.words + 1)).waitLanes e.t.group (.idem closing))).endUnit true).commit.completeBarriers e.c.id 8
    (Starts s e .idemb → e.t.inflight = [] → (e.c.idemAt = none ∨ e.c.idemAt = some e.t.fetchPc) → exec .idemb s = .next (arrives false))
    ∧ (Starts s e .ideme → e.c.region = true → (e.c.idemAt = none ∨ e.c.idemAt = some e.t.fetchPc) → exec .ideme s = .next (arrives true))
    ∧ (Starts s e .ideme → e.c.region = false → Traps s .ideme e (.plain cILLEGAL e.t.group) false)
    ∧ (∀ x, Starts s e .idemb → e.t.inflight = [] → e.c.idemAt = some x → x ≠ e.t.fetchPc → Traps s .idemb e (.plain cILLEGAL e.t.group) false)

/-- R366 to R370: a walker installs a leaf with `tlbw` and ends its walk with `walkd`; in a program both trap ILLEGAL. `tlbi` lets the
strand's memory operations complete, and once no transaction holds a buffered store through a translation that it names, it removes those
translations of the context, of the core or of every enabled core, after every access that used them; threads that wait for a word through
one issue again (assumption 80). `lpi` removes last pages. -/
def Obligations.TranslationControl : Prop :=
  ∀ (s : State) (e : Env) (a : BitVec 6) (l : BitVec 2),
    let lane := lowLane e.t.group
    let va := (e.t.lane64 a.toNat lane).toNat
    let removed (e : Env) (all tlb : Bool) (p : Trans → Bool) : Env :=
      let cores := if all then e.s.enabledCores else [e.c.core]
      e.via (fun s =>
        let s1 := ((s.settleAccesses cores e.c.ctx).invalidate cores e.c.ctx tlb p).retranslateDeps e.c.ctx
        if tlb then s1.reissueWaita cores e.c.ctx p else s1)
    let free (all : Bool) (p : Trans → Bool) : Prop :=
      let r := e.release
      r.commit.bufferedThrough (some (r.c.id, r.t.idx)) (if all then r.s.enabledCores else [r.c.core]) r.c.ctx p = false
    (Starts s e (.tlbw a l) → e.c.walker = true → l ≠ 0 → vaBad va = false →
      Ends s (.tlbw a l) (e.via (fun s => s.installLeaf e.c.core e.c.ctx (some e.t.idx) va l.toNat (e.t.lane64 (a.toNat + 2) lane))))
    ∧ (Starts s e (.tlbw a l) → e.c.walker = false → Traps s (.tlbw a l) e (.plain cILLEGAL e.t.group) false)
    ∧ (Starts s e .walkd → e.c.walker = true → Becomes s .walkd (e.via (fun s => s.endWalk e.c.core e.t.idx)))
    ∧ (Starts s e .walkd → e.c.walker = false → Traps s .walkd e (.plain cILLEGAL e.t.group) false)
    ∧ (Starts s e (.tlbiVaCore a) → vaBad va = false → free false (fun tr => tr.covers e.c.ctx va) →
      Ends s (.tlbiVaCore a) (removed e.release false true (fun tr => tr.covers e.c.ctx va)))
    ∧ (Starts s e (.tlbiVaAll a) → vaBad va = false → free true (fun tr => tr.covers e.c.ctx va) →
      Ends s (.tlbiVaAll a) (removed e.release true true (fun tr => tr.covers e.c.ctx va)))
    ∧ (Starts s e (.tlbiVaCore a) → vaBad va = true → Traps s (.tlbiVaCore a) e (.plain cALIGN (laneBit lane)) false)
    ∧ (Starts s e (.tlbiVaAll a) → vaBad va = true → Traps s (.tlbiVaAll a) e (.plain cALIGN (laneBit lane)) false)
    ∧ (Starts s e .tlbiCtxCore → free false (fun _ => true) → Ends s .tlbiCtxCore (removed e.release false true (fun _ => true)))
    ∧ (Starts s e .tlbiCtxAll → free true (fun _ => true) → Ends s .tlbiCtxAll (removed e.release true true (fun _ => true)))
    ∧ (Starts s e .lpiCore → Ends s .lpiCore (removed e false false (fun _ => true)))
    ∧ (Starts s e .lpiAll → Ends s .lpiAll (removed e true false (fun _ => true)))

/-- R430, R431, R432, R433: `trap` and `brk` trap with their code in every thread of the group; `rtt` returns from a handler, past the
trapping unit or to it; outside one it traps ILLEGAL; and `snap` is a snapshot trigger. -/
def Obligations.TrapInstructions : Prop :=
  ∀ (s : State) (e : Env) (c : BitVec 12),
    (Starts s e (.trap c) → Traps s (.trap c) e { cause := cTRAP, mask := e.t.group, va := 0, code := c } false)
    ∧ (Starts s e (.brk c) → Traps s (.brk c) e { cause := cBREAK, mask := e.t.group, va := 0, code := c } false)
    ∧ (Starts s e .rtt → e.t.inHandler = false → Traps s .rtt e (.plain cILLEGAL e.t.group) false)
    ∧ (Starts s e .rtt → e.t.inHandler = true → e.t.trap.next = false → e.t.unit.sched ≠ some true → Becomes s .rtt (e.on (e.t.rtt 0)))
    ∧ (∀ n, Starts s e .rtt → e.t.inHandler = true → e.t.trap.next = true → e.unitWords e.t.trap.pc.toNat 1024 = .ok n →
        e.t.unit.sched ≠ some true → Becomes s .rtt (e.on (e.t.rtt n)))
    ∧ (Starts s e (.snap c) → Ends s (.snap c) (e.via (fun s => s.snapTrigger 0 (c, e.t.num, e.c.core))))

/-- R424, R432: where `rtt` leaves the threads of the handler: at the trap PC, or past the unit there when NEXT is set; out of handler mode;
with the resume flag set exactly when the instruction is to be issued again, and in the faulting lanes only if it traps in part. After a
deferred trap a partial re-issue that the strand still owes stands. -/
def Obligations.ReturnFromTrap : Prop :=
  ∀ (t : Strand) (n : Nat),
    let u := t.rtt n
    u.trap.inh = false ∧ u.handler = 0 ∧ u.resume = !t.trap.next ∧ u.trap.pc = t.trap.pc ∧ u.trap.mask = t.trap.mask ∧ u.trap.va = t.trap.va
    ∧ u.partMask = (if t.trap.part = true ∧ t.trap.next = false then some (t.trap.pc, t.trap.mask)
        else if t.trap.defer = true then t.partMask else none)
    ∧ u.regs = t.regs ∧ u.preds = t.preds ∧ u.inflight = t.inflight
    ∧ ∀ l, l < 8 → (u.thread l).pc = if laneOn t.handler l then
        (if t.trap.next then t.trap.pc + BitVec.ofNat 57 (4 * n) else t.trap.pc) else (t.thread l).pc

/-! ### Prefixes and control registers (spec/04_encoding_and_assembly.md R76 to R81, spec/05_lane_instructions.md R128, R129) -/

/-- R77 to R80: a prefix issues by itself, leaves its mark on the issue unit and changes nothing else; a prefix with a reserved code
traps ILLEGAL, and so does a `rep` whose resume position is out of its run. That the stall of `hint.sched` counts from the prefix, and
that a reserved code of a prefix traps at the prefix itself, are the model's choices (assumptions 27 and 64). -/
def Obligations.Prefixes : Prop :=
  ∀ (s : State) (e : Env) (x : BitVec 24) (a b c n : BitVec 6) (m : BitVec 3) (v t q y : BitVec 1) (k : BitVec 4) (r d sa sb o : BitVec 3),
    s.issuer = some e →
    let mark (i : Instr) (e : Env) (u : UnitSt) : Prop := exec i s = .next (e.endPrefix u).commit
    let rep : Instr := .rep n d sa sb o
    let count : Nat := n.toNat + 1
    let first : Nat := match e.t.repHeld with
      | some h => h.1
      | none => if e.t.resume then count - e.t.repleft.toNat else 0
    let run : RepSt := { n := count, sd := sextInt d.toNat 3, sa := sextInt sa.toNat 3, sb := sextInt sb.toNat 3, soff := sextInt o.toNat 3,
                         iter := first, ran := false }
    let u := e.t.unit
    mark (.hintImm x) e { u with dup := u.dup || u.imm.isSome, imm := some x }
    ∧ (staticIllegal (.hintPref a b c m) = false → mark (.hintPref a b c m) e { u with dup := u.dup || u.pref, pref := true })
    ∧ (staticIllegal (.hintRnd m v t q) = false → mark (.hintRnd m v t q) e { u with
        dup := u.dup || u.rnd.isSome
        rnd := some { mode := if v = 1 then some m else none, sat := if t = 1 then some (q = 1) else none } })
    ∧ (staticIllegal (.hintSched k r y) = false → mark (.hintSched k r y) (e.on { e.t with readyAt := s.cycle + k.toNat })
        { u with dup := u.dup || u.sched.isSome, sched := some (y = 1) })
    ∧ (e.t.badResume count = false → mark rep e { u with
        dup := u.dup || u.rep.isSome
        rep := some run })
    ∧ (e.t.badResume count = true → Traps s rep e (.plain cILLEGAL e.t.group) false)
    ∧ (staticIllegal (.hintPref a b c m) = true → Traps s (.hintPref a b c m) e (.plain cILLEGAL e.t.group) false)
    ∧ (staticIllegal (.hintRnd m v t q) = true → Traps s (.hintRnd m v t q) e (.plain cILLEGAL e.t.group) false)

/-- R51, R52, R128, R129: `movc` gives every acting lane the register's value, and writes the lowest lane's value; a reserved number,
and a write of a read-only register, trap ILLEGAL. For `ctl.fflags` no load may be in flight, which would still raise flags,
and for a shape register no tile write of `srdt` that comes first (R237). That the number is judged once the value is there, that a
per-crew register shows its new value at once, and that a tile write of `srdt` comes before are the model's choices (assumptions 72, 79
and 59). -/
def Obligations.ControlRegisters : Prop :=
  ∀ (s : State) (e : Env) (d a : BitVec 6) (n : BitVec 12),
    let v := e.t.lane a.toNat (lowLane e.t.group)
    let quiet : Prop := n ≠ 0 ∨ ∀ p ∈ e.t.inflight, p.ctr ≠ .ld
    let calm : Prop := quiet ∧ (0x0D0 ≤ n.toNat ∧ n.toNat ≤ 0x0DF → e.holdsSwage = true → e.srdtOpen = false)
    (Starts s e (.movcRead d n) → quiet → ∀ w, e.control n.toNat = some w →
      Gives s e (.movcRead d n) [(d.toNat, fun _ => w)] 0 0)
    ∧ (Starts s e (.movcRead d n) → quiet → e.control n.toNat = none → Traps s (.movcRead d n) e (.plain cILLEGAL e.t.group) false)
    ∧ (Starts s e (.movcWrite a n) → calm → ∀ e', e.writeControl n.toNat v = .done e' → Ends s (.movcWrite a n) e')
    ∧ (Starts s e (.movcWrite a n) → calm → writable n.toNat = false → Traps s (.movcWrite a n) e (.plain cILLEGAL e.t.group) false)
    ∧ (Starts s e (.movcWrite a 0) → (∀ p ∈ e.t.inflight, p.ctr ≠ .ld) → Ends s (.movcWrite a 0) (e.on { e.t with fflags := BitVec.truncate 5 v }))
    ∧ (Starts s e (.movcWrite a 0x040) → Ends s (.movcWrite a 0x040) { e with c := { e.c with progress := v.getLsbD 0 } })
    ∧ (∀ k, 0x180 ≤ k → k < 0x186 → Starts s e (.movcWrite a (BitVec.ofNat 12 k)) →
        (e.t.inHandler = true → Ends s (.movcWrite a (BitVec.ofNat 12 k)) (e.on { e.t with trap := e.t.trap.write k v }))
        ∧ (e.t.inHandler = false → Traps s (.movcWrite a (BitVec.ofNat 12 k)) e (.plain cILLEGAL e.t.group) false))

/-! ### The Swage (spec/10_swage_matrix_engine.md) -/

/-- R232, R233, R240, R252: `mres` takes a free Swage in its fresh state and tells its predicate whether the crew holds it; `mrel`
gives it back once the crew's operations are done, without the reservation does nothing, and with an open signature traps CONV; `cdecl` declares a convergence register without
signatures; `mstat` delivers ACCST later, on mx. Words that need the reservation trap ILLEGAL without it. That CONV of `cdecl` and `mrel`
names the whole group, that `mrel` itself performs the crew's operations, and the size of a protected unit are the model's choices
(assumptions 28, 1 and 81). -/
def Obligations.SwageReservation : Prop :=
  ∀ (s : State) (e : Env) (p c : BitVec 3) (n : BitVec 12) (d : BitVec 6),
    let calm : Prop := e.srdtOpen = false
    let pred (e1 : Env) (b : Bool) : Env := e1.putPred (maskFor (.mres p) e) p.toNat (fun _ => b)
    let taken : State := e.s.modCore e.c.core (fun co => { co with holder := some e.c.id, swage := .fresh })
    let fresh : Env := { e with s := { taken with ue := e.s.ue.filter (fun g => g / 2 ^ 16 ≠ swageUnit e.c.core 0 / 2 ^ 16) } }
    let e1 := e.via (fun s => s.settleCrew e.c.id Pending.isSwage)
    let open_ : Prop := ∃ c, e1.commit.crew? e1.c.id = some c ∧ ∃ t ∈ c.strands, ∃ q ∈ t.inflight, q.isSwage = true ∧ q.done = false
    (Starts s e (.mres p) → (e.s.core e.c.core).holder = none → Ends s (.mres p) (pred fresh true))
    ∧ (Starts s e (.mres p) → (e.s.core e.c.core).holder ≠ none → Ends s (.mres p) (pred e e.holdsSwage))
    ∧ (Starts s e .mrel → calm → e.holdsSwage = false → Ends s .mrel e)
    ∧ (Starts s e .mrel → calm → e.holdsSwage = true → (∃ v ∈ e.swage.cvs, 0 < v.sigs) → Traps s .mrel e (.plain cCONV e.t.group) false)
    ∧ (Starts s e .mrel → calm → e.holdsSwage = true → (∀ v ∈ e.swage.cvs, v.sigs = 0) → ¬open_ →
        Ends s .mrel { e1 with s := e1.s.modCore e1.c.core (fun co => { co with holder := none, swage := .fresh }) })
    ∧ (Starts s e .mrel → calm → e.holdsSwage = true → (∀ v ∈ e.swage.cvs, v.sigs = 0) → open_ → Becomes s .mrel e1)
    ∧ (Starts s e (.cdecl c n) → calm → e.holdsSwage = true → ∀ v, e.swage.cvs[c.toNat]? = some v →
        (v.sigs = 0 → Ends s (.cdecl c n) (e.setSwage { e.swage with
          cvs := e.swage.cvs.set c.toNat { decl := n.toNat, sigs := 0, key := none, signers := [] } }))
        ∧ (0 < v.sigs → Traps s (.cdecl c n) e (.plain cCONV e.t.group) false))
    ∧ (Starts s e (.mstat d) → calm → e.holdsSwage = true → e.t.full .mx = false →
        Ends s (.mstat d) (e.inFlight .mx [d.toNat] none (.mstat d.toNat (maskFor (.mstat d) e) e.swage.accst e.acceptedBefore)))
    ∧ (Starts s e (.mstat d) → e.holdsSwage = false → Traps s (.mstat d) e (.plain cILLEGAL e.t.group) false)
    ∧ (Starts s e (.cdecl c n) → e.holdsSwage = false → Traps s (.cdecl c n) e (.plain cILLEGAL e.t.group) false)

/-- R246 to R251: unsigned operations on tiles and banks, performed when they are accepted: `tzero`, the multiplies into the active
bank, `mswap`, `mclr`, and the drain of a region into CBUF, where nothing of the core's Swage is uncorrectable. Refused shapes, formats and
regions trap in lane m. That SHAPE and a drain's traps name lane m alone, that SHAPE comes before ILLEGAL, and the size of a protected unit
are the model's choices (assumptions 28, 29 and 81). -/
def Obligations.TileArithmetic : Prop :=
  ∀ (s : State) (e : Env) (t a b : BitVec 4) (c g dt : BitVec 3) (k md : BitVec 1) (actv : BitVec 2),
    let w := e.swage
    let x := w.tile a.toNat
    let y := w.tile b.toNat
    let z := w.tile t.toNat
    let mma : Instr := .mma a b c 0 g
    let mmas : Instr := .mmas t a b c 0 g
    let drain : Instr := .mdrain k a b c 0 dt actv g
    let lane (i : Instr) : Nat := lowLane (maskFor i e)
    let one := w.selected k
    let fits := y.cols % 4 = 0 && x.cols = y.cols / 2 && z.rows = x.rows && z.cols = y.cols / 2
    let off := (e.t.lane (tlReg a) (lane drain)).toNat
    let stride := (e.t.lane (tlReg a + 1) (lane drain)).toNat
    let region := e.t.lane (tlReg b + 1) (lane drain)
    let scale := decodeFmt fmtFp32 (e.t.lane (tlReg b) (lane drain)).toNat
    let bank (b : Bool) (u : Nat) : Bool := u / 2048 = if b then 5 else 4
    (TileReady s e (.tzero t c 0 g) →
        TileDone s e (.tzero t c 0 g) false ((e.setSwage (w.setTile t.toNat z.zero)).swWritten t.toNat []))
    ∧ (TileReady s e (.mswap c 0 g) → TileDone s e (.mswap c 0 g) false (e.setSwage { w with act := !w.act }))
    ∧ (TileReady s e (.mclr k c 0 md g) →
        TileDone s e (.mclr k c 0 md g) false ((e.setSwage (w.setBank one (.fresh (md = 1)))).swFresh (bank one)))
    ∧ (TileReady s e mma → w.mulRefused x y (y.cols = x.cols) none = none → e.swSound = true →
        TileDone s e mma false (e.setSwage (w.setBank w.act ((w.bank w.act).multiply x y (fun _ => mmaPairs x) (fun _ _ => false)))))
    ∧ (∀ cause, TileReady s e mma → w.mulRefused x y (y.cols = x.cols) none = some cause →
        Traps s mma e (.plain cause (laneBit (lane mma))) false)
    ∧ (TileReady s e mmas → w.mulRefused x y fits (some z) = none → e.swSound = true →
        TileDone s e mmas false (e.setSwage (w.setBank w.act ((w.bank w.act).multiply x y (fun i => mmasPairs z x i) (fun _ _ => false)))))
    ∧ (∀ cause, TileReady s e mmas → w.mulRefused x y fits (some z) = some cause → Traps s mmas e (.plain cause (laneBit (lane mmas))) false)
    ∧ (TileReady s e drain → drainRefused e.c.cclaim.size dt.toNat e.t.unit.mode region off stride = none → e.swSound = true →
        let r := regionOf region
        let keyed : Nat × Env := if dt = 3 || e.t.unit.mode = rsto then e.swKey (lane drain) else (0, e)
        let row (i : Nat) : List Byte := ((w.bank one).drainRow (r.row0 + i) r.col0 r.nc dt.toNat actv.toNat e.t.unit.mode
          (e.t.unit.sat false) scale (fun j => srDraw e.c.seed.toNat keyed.1 (i * r.nc + j)) (fun _ => false)).filterMap id
        TileDone s e drain false { keyed.2 with s := (List.range r.nr).foldl (fun s i =>
          s.writeLocal e.c.core .cbuf (e.c.cclaim.base + off + i * stride) (row i)) keyed.2.s })
    ∧ (∀ cause, TileReady s e drain → drainRefused e.c.cclaim.size dt.toNat e.t.unit.mode region off stride = some cause →
        Traps s drain e (if cause = cPERM then .at cPERM (laneBit (lane drain)) (drainPast e.c.cclaim.size dt.toNat region off stride)
          else .plain cause (laneBit (lane drain))) false)

/-- R242 to R245: unsigned tile moves whose rows are aligned and permitted, with no uncorrectable error in the machine: a load fills
the tile from its rows, with zeros from absent pages, a store writes the tile's rows, and a page-mode load gives the tile its elements as
the pages' formats have them, with zeros from absent pages. A tile of the other kind, and one without rows, are refused. Which scale an
MXFP4 block of a page-mode load takes when its elements lie in two blocks of the page is the model's choice (assumption 82). -/
def Obligations.TileMoves : Prop :=
  ∀ (s : State) (e : Env) (t a b : BitVec 4) (c g : BitVec 3) (sp : BitVec 2),
    let w := e.swage
    let x := w.tile t.toNat
    let ld : Instr := .tld t a b c 0 sp 0 g
    let page : Instr := .tld t a b c 0 0 1 g
    let idx : Instr := .tmeta t a b c 0 sp g
    let st : Instr := .tst t a b c 0 sp g
    let loads (i : Instr) (isMeta : Bool) : Prop := TileReady s e i → s.ue = [] → MoveClear e t.toNat (lowLane (maskFor i e)) isMeta pteR sp a b →
      TileDone s e i (e.moveAbsent t.toNat (lowLane (maskFor i e)) pteR sp a b)
        (e.setSwage (w.setTile t.toNat (e.loadedTile t.toNat (lowLane (maskFor i e)) sp a b)))
    let refused (i : Instr) (isMeta : Bool) : Prop := TileReady s e i → decide (x.fmt = fmtMeta) ≠ isMeta →
      Traps s i e (.plain cILLEGAL (laneBit (lowLane (maskFor i e)))) false
    let shapeless (i : Instr) (isMeta : Bool) : Prop := TileReady s e i → decide (x.fmt = fmtMeta) = isMeta → x.rows = 0 →
      Traps s i e (.plain cSHAPE (laneBit (lowLane (maskFor i e)))) false
    loads ld false ∧ loads idx true
    ∧ (TileReady s e st → s.ue = [] → MoveClear e t.toNat (lowLane (maskFor st e)) false pteW sp a b →
        TileStored s e st (e.moveAbsent t.toNat (lowLane (maskFor st e)) pteW sp a b)
          (e.storedRows t.toNat (lowLane (maskFor st e)) sp a b))
    ∧ (TileReady s e page → s.ue = [] →
        let lane := lowLane (maskFor page e)
        let rows := rowStarts x (e.moveBase 0 a lane) (e.moveStride b lane)
        let sc := rows.foldl (fun (q : PgScan) r => q.row (e.look lane) x r) { needs := [], align := false, refused := [], rows := [] }
        x.fmt ≠ fmtMeta → x.rows ≠ 0 → vaBad (e.moveBase 0 a lane) = false →
        (tileBits x.fmt = 16 → e.moveBase 0 a lane % 2 = 0 ∧ e.moveStride b lane % 2 = 0) →
        sc.needs = [] → sc.align = false → sc.refused = [] →
        let keyed : Nat × Env := if tileNarrow x.fmt then e.swKey lane else (0, e)
        let vals := sc.rows.map (fun r => r.map (e.s.pageVal x.fmt))
        let y := vals.zipIdx.foldl (fun q r => q.setPageRow r.2 r.1 (fun j => srDraw e.c.seed.toNat keyed.1 (r.2 * x.cols + j))) x
        TileDone s e page (vals.flatten.any PgVal.gone) (keyed.2.setSwage (w.setTile t.toNat y)))
    ∧ refused ld false ∧ refused idx true ∧ refused st false ∧ refused page false
    ∧ shapeless ld false ∧ shapeless idx true ∧ shapeless st false ∧ shapeless page false

/-- R241: a signed tile word that is not the last signature of its register is counted on mx and joins the signers; a register that
is not declared, a different word, or too many signatures trap CONV. The last signature of `mswap`, `tzero` and `mclr` has the operation
performed, frees the register, and lets the signers' operations complete. That CONV names the signing lanes is the model's choice (assumption
28), as is the size of a protected unit (assumption 81). -/
def Obligations.Signatures : Prop :=
  ∀ (s : State) (e : Env) (i : Instr) (c : BitVec 3) (stores : Bool) (t a b : BitVec 4) (g dt : BitVec 3) (k md pg : BitVec 1) (sp actv : BitVec 2),
    (stores = false ∧ (i = .tzero t c 1 g ∨ i = .mswap c 1 g ∨ i = .mclr k c 1 md g ∨ i = .mma a b c 1 g ∨ i = .mmas t a b c 1 g
        ∨ i = .mdrain k a b c 1 dt actv g ∨ i = .tld t a b c 1 sp pg g ∨ i = .tmeta t a b c 1 sp g)
      ∨ stores = true ∧ i = .tst t a b c 1 sp g) →
    TileReady s e i →
    let v := e.swage.cvs.getD c.toNat { decl := 0, sigs := 0, key := none, signers := [] }
    let n := laneCount (maskFor i e)
    let own := some (((encodeNat i).getD 0) / 8, e.t.unit.override)
    (v.decl ≠ 0 → (0 < v.sigs → v.key = own) → v.sigs + n < v.decl →
      let e1 := e.inFlight .mx [] none (.swage none true (some c.toNat) stores)
      let v1 : Conv := { v with sigs := v.sigs + n, key := own, signers := v.signers ++ [(e.c.id, e.t.idx, e.t.nextOp)] }
      Ends s i (e1.setSwage { e.swage with cvs := e.swage.cvs.set c.toNat v1 }))
    ∧ (v.decl = 0 ∨ (0 < v.sigs ∧ v.key ≠ own) ∨ v.decl < v.sigs + n → Traps s i e (.plain cCONV (maskFor i e)) false)
    ∧ (v.decl ≠ 0 → (0 < v.sigs → v.key = own) → v.sigs + n = v.decl →
      let w := e.swage
      let one := w.selected k
      let last (e1 : Env) : Prop :=
        let u := e1.swage.cvs.getD c.toNat { decl := 0, sigs := 0, key := none, signers := [] }
        let e2 := e1.setSwage { e1.swage with cvs := e1.swage.cvs.set c.toNat { u with sigs := 0, key := none, signers := [] } }
        Ends s i ((e2.via (fun s => s.readySigners v.signers)).inFlight .mx [] none (.swage none false none false))
      (i = .mswap c 1 g → last (e.setSwage { w with act := !w.act }))
      ∧ (i = .tzero t c 1 g → last ((e.setSwage (w.setTile t.toNat (w.tile t.toNat).zero)).swWritten t.toNat []))
      ∧ (i = .mclr k c 1 md g → last ((e.setSwage (w.setBank one (.fresh (md = 1)))).swFresh (fun u => u / 2048 = if one then 5 else 4))))

/-! ### Fields, rays and samples (spec/11_fields_rays_and_samples.md) -/

/-- R257 to R274: a field request whose structure is readable, whose registers exist and whose elements are clear is in flight on tr
with what its lanes gave it; a misaligned element traps ALIGN in its lanes, and refused ones trap PERM in theirs once the other lanes'
request has been performed. A structure that may not be read traps PERM, an absent one gives zeros. `hgfold` takes a copy's number when it
draws, and traps as a copy does. -/
def Obligations.FieldRequests : Prop :=
  ∀ (s : State) (e : Env) (d a b c : BitVec 6) (o : BitVec 1) (g : BitVec 3) (hd : List Byte) (sizes : List Nat),
    let f := parseField hd
    let half := o = 1
    let n := fieldRun f (o = 1)
    let levels := List.range f.lev
    let lane (i : Instr) : Nat := lowLane (maskFor i e)
    let ready (i : Instr) : Prop := Starts s e i ∧ maskFor i e ≠ 0 ∧ e.t.inflight = []
    let holds (vs : List Nat) : Prop := ∀ v ∈ vs, v < e.t.regs.length ∧ (e.t.reg v).bad = false
    let starts (i : Instr) (kind : FieldKind) (vd : Nat) (dsts : List Nat) (inputs : List (L8 Word)) : Prop :=
      ∃ q : FieldCmd, Ends s i (e.inFlight .tr dsts none (.field q)) ∧ q.kind = kind ∧ q.vd = vd ∧ q.mask = maskFor i e ∧ q.lane = lane i
        ∧ q.header = hd ∧ q.inputs = inputs
    let header (i : Instr) (r : BitVec 6) (k : Nat) : Prop := StructAt e (lane i) (e.t.lane64 r.toNat (lane i)).toNat k hd
    let good : Prop := f.aligned = true ∧ f.inRange = true
    let page (i : Instr) (r : BitVec 6) (k : Nat) (readable : Bool) : Prop :=
      let va := (e.t.lane64 r.toNat (lane i)).toNat
      vaBad va = false ∧ va % k = 0 ∧ ∃ tr, e.look (lane i) va = .found tr ∧ pteR tr.entry = readable ∧ (readable = true → pteP tr.entry = false)
    let absent (i : Instr) (vd : Nat) (dsts : List Nat) : Prop :=
      ∃ q : FieldCmd, Ends s i (e.inFlight .tr dsts none (.field q)) ∧ q.kind = .given dsts.length ∧ q.vd = vd ∧ q.mask = maskFor i e
        ∧ q.gone = maskFor i e ∧ q.inputs = List.replicate dsts.length (L8.all 0)
    let stops (i : Instr) (dsts : List Nat) (sc : Scan) (cmd : Mask → FieldCmd) : Prop :=
      let rest := maskFor i e &&& ~~~sc.fault
      sc.needs = [] →
        (sc.align ≠ 0 → Traps s i e (.plain cALIGN sc.align) false)
        ∧ (sc.align = 0 → sc.fault ≠ 0 → rest = 0 → Traps s i e (.at cPERM sc.fault sc.faultVa) false)
        ∧ (sc.align = 0 → sc.fault ≠ 0 → rest ≠ 0 → Traps s i ((e.inFlight .tr dsts none (.field (cmd rest))).settle
            (fun p => p.id = e.t.nextOp)) (.at cPERM sc.fault sc.faultVa) true)
    let hgf : Instr := .hgf d a b o g
    let hgs : Instr := .hgs d a b o g
    let tex : Instr := .tex d a b g
    let tx := parseTexture hd
    let scan (i : Instr) (vas : Nat → List (List Nat × (Nat → ECls))) : Scan :=
      (lanesOf (maskFor i e)).foldl (fun sc l => (vas l).foldl (fun sc x => sc.lane l x.1 x.2) sc) .empty
    (ready hgf → header hgf b 64 → good → holds (regsRun a f.dim) → holds (regsRun d n) → levelSizes (e.look (lane hgf)) f levels = .ok sizes →
      (∀ l ∈ lanesOf (maskFor hgf e), ∀ p ∈ levels.zip sizes,
        AllClear (e.look l) (paramWant p.2 pteR) (laneParams f (coords f (e.t.run a.toNat f.dim) l) p.1 p.2)) →
      starts hgf (.hgf half) d.toNat (regsRun d n) (e.t.run a.toNat f.dim))
    ∧ (ready hgs → header hgs b 64 → good → holds (regsRun a f.dim) → holds (regsRun d n) →
      (∀ l ∈ lanesOf (maskFor hgs e), ∀ k ∈ levels,
        AllClear (e.look l) (shadowWant f pteWA) (laneShadows f (coords f (e.t.run a.toNat f.dim ++ e.t.run d.toNat n) l) k)) →
      starts hgs (.hgs half) d.toNat [] (e.t.run a.toNat f.dim ++ e.t.run d.toNat n))
    ∧ (ready tex → header tex b 32 → tx.inRange = true → holds (regsRun d tx.channels) → ∀ size, texSize (e.look (lane tex)) tx = .ok size →
      (∀ l ∈ lanesOf (maskFor tex e), AllClear (e.look l) (texWant size)
        ((texCorners tx (e.t.lane a.toNat l) (e.t.lane (a.toNat + 1) l)).1.flatMap (fun ab =>
          (List.range tx.channels).map (fun h => texVa tx size ab.1 ab.2 h)))) →
      starts tex .tex d.toNat (regsRun d tx.channels) (e.t.run a.toNat 2))
    ∧ (ready hgf → header hgf b 64 → good → holds (regsRun a f.dim) → holds (regsRun d n) → levelSizes (e.look (lane hgf)) f levels = .ok sizes →
      let sc := scan hgf (fun l => (levels.zip sizes).map (fun p =>
        (laneParams f (coords f (e.t.run a.toNat f.dim) l) p.1 p.2, classify (e.look l) (paramWant p.2 pteR))))
      stops hgf (regsRun d n) sc (fun k => e.fieldCmd (.hgf half) d.toNat (lane hgf) k hd (e.t.run a.toNat f.dim)
        (sc.trans ++ e.sizeTrans (lane hgf) f levels)))
    ∧ (ready hgs → header hgs b 64 → good → holds (regsRun a f.dim) → holds (regsRun d n) →
      let given := e.t.run a.toNat f.dim ++ e.t.run d.toNat n
      let sc := scan hgs (fun l => levels.map (fun k => (laneShadows f (coords f given l) k, classify (e.look l) (shadowWant f pteWA))))
      stops hgs [] sc (fun k => e.fieldCmd (.hgs half) d.toNat (lane hgs) k hd given sc.trans))
    ∧ (ready hgf → page hgf b 64 true → holds (regsRun d (fieldRun absentField half)) → absent hgf d.toNat (regsRun d (fieldRun absentField half)))
    ∧ (ready hgs → page hgs b 64 true → absent hgs d.toNat [])
    ∧ (ready tex → page tex b 32 true → holds (regsRun d 1) → absent tex d.toNat (regsRun d 1))
    ∧ (Starts s e hgf → maskFor hgf e ≠ 0 → page hgf b 64 false →
      Traps s hgf e (.at cPERM (laneBit (lane hgf)) (e.t.lane64 b.toNat (lane hgf)).toNat) false)
    ∧ (Starts s e hgs → maskFor hgs e ≠ 0 → page hgs b 64 false →
      Traps s hgs e (.at cPERM (laneBit (lane hgs)) (e.t.lane64 b.toNat (lane hgs)).toNat) false)
    ∧ (Starts s e tex → maskFor tex e ≠ 0 → page tex b 32 false →
      Traps s tex e (.at cPERM (laneBit (lane tex)) (e.t.lane64 b.toNat (lane tex)).toNat) false)
    ∧ (Starts s e tex → maskFor tex e ≠ 0 → header tex b 32 → tx.inRange = false →
      Traps s tex e (.plain cILLEGAL (laneBit (lane tex))) false)
    ∧ (Starts s e hgf → maskFor hgf e ≠ 0 → header hgf b 64 → f.aligned = true → f.inRange = false →
      Traps s hgf e (.plain cILLEGAL (laneBit (lane hgf))) false)
    ∧ (Starts s e (.hgfold d a b c) → header (.hgfold d a b c) a 64 → good → e.t.full .tr = false →
      let i : Instr := .hgfold d a b c
      let l := lane i
      let cw := e.t.lane c.toNat l
      let x0 := (e.t.lane b.toNat l).toNat
      let k := (e.t.lane (b.toNat + 1) l).toNat
      let part (n : Nat) : Nat × Nat := levelPart f x0 k n
      let touched := levels.filter (fun n => (part n).2 ≠ 0)
      let pages (p : Nat × Nat) : List Nat := rangePages (paramVa f p.2 (part p.1).1 0) ((part p.1).2 * f.feat * p.2)
      let shadows := rangePages (shadowVa f x0 0) (k * f.feat * (if f.smode then 8 else 4))
      let fmts := (touched.zip sizes).flatMap (fun p => (pages p).filterMap (fun v => match e.look l v with
        | .found tr => some (tableFmt tr.entry)
        | _ => none))
      let refused (vas : List Nat) (w : Want) : List Nat := vas.filter (fun v => classify (e.look l) w v = .refused)
      let out := (touched.zip sizes).flatMap (fun p => refused (pages p) (paramWant p.2 pteW)) ++ refused shadows (shadowWant f pteRWAny)
      let fits (vas : List Nat) (w : Want) : Prop := ∀ v ∈ vas, classify (e.look l) w v ≠ .need ∧ classify (e.look l) w v ≠ .misaligned
      (32 ≤ cw.toNat ∨ 5 < foldRm cw ∨ f.lev * f.entries < x0 + k → Traps s i e (.plain cILLEGAL (laneBit l)) false)
      ∧ (cw.toNat < 32 → foldRm cw ≤ 5 → x0 + k ≤ f.lev * f.entries → levelSizes (e.look l) f touched = .ok sizes →
        (∀ p ∈ touched.zip sizes, fits (pages p) (paramWant p.2 pteW)) → fits shadows (shadowWant f pteRWAny) →
        (out ≠ [] → Traps s i e (.at cPERM (laneBit l) (lowest out)) false)
        ∧ (out = [] → foldRm cw = 4 → 7 ∈ fmts → Traps s i e (.plain cILLEGAL (laneBit l)) false)
        ∧ (out = [] → (foldRm cw = 4 → 7 ∉ fmts) →
          let drawn (e1 : Env) : Env :=
            if foldRm cw = rsto || fmts.any foldNarrow then e1.on (e1.t.modThread l (fun x => { x with copies := x.copies + 1 })) else e1
          ∃ q : FieldCmd, Ends s i (drawn (e.inFlight .tr [] none (.field q))) ∧ q.kind = .hgfold ∧ q.mask = laneBit l ∧ q.header = hd
            ∧ q.key = BitVec.ofNat 64 (engineKey ((e.t.thread l).copies % 2 ^ 11 * 2 ^ 52 + globalThread e.c e.t l))
            ∧ q.inputs = [L8.all (e.t.lane d.toNat l), L8.all (e.t.lane b.toNat l), L8.all (e.t.lane (b.toNat + 1) l), L8.all cw])))
    ∧ (Starts s e (.hgfold d a b c) → e.t.full .tr = false → page (.hgfold d a b c) a 64 true →
      ∃ q : FieldCmd, Ends s (.hgfold d a b c) (e.inFlight .tr [] none (.field q)) ∧ q.kind = .given 0
        ∧ q.mask = maskFor (.hgfold d a b c) e ∧ q.gone = q.mask ∧ q.inputs = [])
    ∧ (Starts s e (.hgfold d a b c) → page (.hgfold d a b c) a 64 false →
      Traps s (.hgfold d a b c) e (.at cPERM (laneBit (lane (.hgfold d a b c))) (e.t.lane64 a.toNat (lane (.hgfold d a b c))).toNat) false)

/-- R259, R260, R271, R272: a march whose grid bytes are permitted is in flight on tr with its lanes' rays; with an absent descriptor each
lane has no samples and the absence predicate is set with the delivery. When it is performed it works out its lanes' samples under the
translations that it holds and gives them to its lanes' registers, and the other lanes keep theirs. That a page which the issue did not reach,
and whose translation was not known or gave no read permission then, reads as absent is the model's choice (assumption 30). -/
def Obligations.March : Prop :=
  ∀ (s : State) (e : Env) (d a b : BitVec 6) (g : BitVec 3) (hd : List Byte) (p : Pending) (q : FieldCmd) (out : Nat → List Word × Bool × Option Nat),
    let i : Instr := .march d a b g
    let m := maskFor i e
    let lane := lowLane m
    let va := (e.t.lane64 b.toNat lane).toNat
    let gr := parseGrid hd
    let ray (l : Nat) : List Machine.Num := (List.range 8).map (fun k => decF32 (e.t.lane (a.toNat + k) l))
    (Starts s e i → m ≠ 0 → e.t.full .tr = false → StructAt e lane va 64 hd → gr.base % 64 = 0 → gr.inRange (leAt hd 0x18 4) = true →
      (∀ l ∈ lanesOf m, ∃ x, e.s.marchLane (gridClass (e.look l)) gr (ray l) = .ok x) →
      ∃ q : FieldCmd, Ends s i (e.inFlight .tr (regsRun d 10) none (.field q)) ∧ q.kind = .march ∧ q.vd = d.toNat ∧ q.mask = m
        ∧ q.lane = lane ∧ q.header = hd ∧ q.inputs = e.t.run a.toNat 8)
    ∧ (Starts s e i → m ≠ 0 → e.t.full .tr = false → vaBad va = false → va % 64 = 0 →
      (∃ tr, e.look lane va = .found tr ∧ pteR tr.entry = true ∧ pteP tr.entry = false) →
      ∃ q : FieldCmd, Ends s i (e.inFlight .tr (regsRun d 10) none (.field q)) ∧ q.kind = .given 10 ∧ q.vd = d.toNat ∧ q.mask = m ∧ q.gone = m
        ∧ q.inputs = (List.replicate 8 (L8.all 0x7F800000) ++ [L8.all 0, L8.all 0x7F800000]))
    ∧ (p.kind = .field q → q.kind = .march → q.vd + 10 ≤ e.t.regs.length →
      (∀ l ∈ lanesOf q.mask, e.s.marchLane q.gridHeld (parseGrid q.header) (q.inputs.map (fun r => decF32 (r.get l))) = .ok (out l)
        ∧ (out l).2.2 = none) →
      ∀ k l, k < 10 → l < 8 →
        (e.performField p).t.lane (q.vd + k) l = if laneOn q.mask l then (out l).1.getD k 0 else e.t.lane (q.vd + k) l)

/-- R72, R260, R276 to R281: `trace` and `tcont` start or go on with the queries of their lanes, those that the guard gave when the
instruction issued, and their group passes once every acting lane has its status; a lane of `tcont` whose query is not stopped writes its
status and keeps it. An absent descriptor ends the queries with reason 4. `thit` gives the committed or the candidate hit, and `tabort`
drops the queries. That `tcont` leaves a query which a PERM or ALIGN trap holds as it is, and that operations are performed as soon as the
instruction waits for them, are the model's choices (assumptions 94 and 1). -/
def Obligations.RayQueries : Prop :=
  ∀ (s : State) (e : Env) (d a b : BitVec 6) (c : BitVec 1) (g : BitVec 3) (hd : List Byte),
    let trace : Instr := .trace d a b g
    let acts (i : Instr) : Mask := e.t.acting (maskFor i e)
    let lane := lowLane (acts trace)
    let va := (e.t.lane64 b.toNat lane).toNat
    let passed (e1 : Env) (m : Mask) : Env := e1.on (e1.t.modThreads m (fun _ x => { x with query := { x.query with done := none }, acts := none }))
    let waits (e1 : Env) (m : Mask) : Env := e1.on (e1.t.modThreads m (fun _ x => { x with acts := some e1.t.unitPc }))
    let goes (i : Instr) (e1 : Env) : Prop :=
      ((∀ l ∈ lanesOf (acts i), e1.t.traced l = true) → Ends s i (passed e1 (acts i)))
      ∧ (¬(∀ l ∈ lanesOf (acts i), e1.t.traced l = true) → Becomes s i (waits e1 (acts i)))
    let continues (i : Instr) (action : Nat) : Prop := Starts s e i → acts i ≠ 0 →
      (e.t.toTrace (acts i) = 0 → goes i e)
      ∧ (e.t.toTrace (acts i) ≠ 0 → e.t.full .tr = false → ∃ e1, goes i e1 ∧
          e.startTrace d.toNat (e.t.toTrace (acts i)) (fun l q =>
            if q.stopped && !e.t.queryHeld l then some (q.continue action (e.t.lane a.toNat l)) else none) = .done e1)
    let begun : Env := e.on { e.t with qstill := e.t.qstill &&& ~~~(acts trace) }
    let lost : Env := e.on { e.t.markAbsent (e.t.toTrace (acts trace)) with qstill := e.t.qstill &&& ~~~(acts trace) }
    let q (l : Nat) : Query := (e.t.thread l).query
    let hit (l : Nat) : Option Hit := if c = 1 then (q l).cand else (q l).hit
    let words (k l : Nat) : Word := match hit l with
      | some x => [rneF32 x.t, rneF32 x.b1, rneF32 x.b2, x.prim, x.geom].getD k 0
      | none => [0x7F800000, 0, 0, 0xFFFFFFFF, 0xFFFFFFFF].getD k 0
    (Starts s e trace → acts trace ≠ 0 → e.t.toTrace (acts trace) = 0 → goes trace e)
    ∧ (Starts s e trace → acts trace ≠ 0 → e.t.toTrace (acts trace) ≠ 0 → e.t.full .tr = false →
        StructAt e lane va 32 hd → leAt hd 0 8 % 64 = 0 → leAt hd 8 8 % 16 = 0 →
        ∃ e1, goes trace e1 ∧ begun.startTrace d.toNat (e.t.toTrace (acts trace))
          (fun l _ => some (Query.start hd ((List.range 8).map (fun k => e.t.lane (a.toNat + k) l)))) = .done e1)
    ∧ (Starts s e trace → acts trace ≠ 0 → e.t.toTrace (acts trace) ≠ 0 → e.t.full .tr = false → vaBad va = false → va % 32 = 0 →
        (∃ tr, e.look lane va = .found tr ∧ pteR tr.entry = true ∧ pteP tr.entry = false) →
        ∃ e1, goes trace e1 ∧ lost.startTrace d.toNat (e.t.toTrace (acts trace)) (fun _ _ => some ((Query.start [] []).abort 4)) = .done e1)
    ∧ (Starts s e trace → acts trace ≠ 0 → e.t.toTrace (acts trace) ≠ 0 → StructAt e lane va 32 hd →
        (leAt hd 0 8 % 64 ≠ 0 ∨ leAt hd 8 8 % 16 ≠ 0) → Traps s trace e (.at cALIGN (laneBit lane) va) false)
    ∧ continues (.tcontReject d a g) 0 ∧ continues (.tcontAccept d a g) 1 ∧ continues (.tcontTerminate d a g) 2
    ∧ (Starts s e (.thit d c g) → Gives s e (.thit d c g) ((List.range 5).map (fun k => (d.toNat + k, words k))) 0 0)
    ∧ (Starts s e (.tabort g) → Ends s (.tabort g) (e.on (e.t.modThreads (maskFor (.tabort g) e) (fun _ x => { x with query := .none }))))

/-! ### Stream registers (spec/12_stream_registers.md) -/

/-- R283 to R299: an operation on a binding that is in use, in its direction, whose frame no later one has displaced, is in flight on
sr with what the cursor names; reads and writes move the cursor by eight pixels, and a flush of the frame goes on to the next. A
binding that is refused, or whose frame a later one has displaced, traps SESSION in the acting lanes. That a tile write of `srdt` comes
before every later operation of the crew, and that its SHAPE names lane m, are the model's choices (assumptions 59 and 28). -/
def Obligations.StreamTransfers : Prop :=
  ∀ (s : State) (e : Env) (d b : BitVec 6) (v : BitVec 1) (k t : BitVec 4) (p g : BitVec 3),
    let bd := e.c.bind k.toNat
    let desc := (e.s.session bd.session).d
    let turn := (e.s.session bd.session).turn
    let px : List Nat := laneIds.map (fun l => bd.x + (e.t.lane b.toNat l).toNat % 8)
    let srd : Instr := .srd d v k b p g
    let srdt : Instr := .srdt t k b p g
    let swr : Instr := .swr d v k b g
    let ready (i : Instr) : Prop := Starts s e i ∧ maskFor i e ≠ 0 ∧ e.t.full .sr = false
    let lane := lowLane (maskFor srdt e)
    let pos := (e.t.lane b.toNat lane).toNat
    let ch := (e.t.lane (b.toNat + 1) lane).toNat
    let tile := e.swage.tile t.toNat
    let f := if bd.wrap then bd.frame - 1 else bd.frame
    let lines := if bd.wrap then desc.h else bd.y
    (ready srd → BindingReady e k.toNat (some false) Binding.frame →
      Ends s srd ((e.inFlight .sr (regsRun d 3) (predDst p)
        (.srd bd.session bd.frame bd.y d.toNat p.toNat (v = 1) (maskFor srd e) px)).setBind k.toNat { bd.step desc with wrap := bd.wrap }))
    ∧ (ready swr → BindingReady e k.toNat (some true) Binding.frame →
      Ends s swr (((e.inFlight .sr [] none (.swr k.toNat turn bd.session bd.frame bd.y (v = 1) (maskFor swr e) px (e.t.run d.toNat 3))
        (regsRun d 3)).accept bd.session).setBind k.toNat (bd.step desc)))
    ∧ (ready srdt → e.srdtElsewhere = false → e.holdsSwage = true → ch < 3 → tile.fmt < 2 → tile.rows ≠ 0 →
      BindingReady e k.toNat (some false) Binding.frame → Ends s srdt (e.inFlight .sr [] (predDst p)
        (.srdt bd.session bd.frame t.toNat p.toNat (maskFor srdt e) (pos % 2 ^ 16) (pos / 2 ^ 16) ch)))
    ∧ (ready (.sflushLine k g) → BindingReady e k.toNat (some true) Binding.flushFrame →
      Ends s (.sflushLine k g) (((e.inFlight .sr [] none (.sflush k.toNat turn bd.session f lines false)).accept bd.session).setBind k.toNat
        { bd with wrap := false }))
    ∧ (ready (.sflushFrame k g) → BindingReady e k.toNat (some true) Binding.flushFrame →
      Ends s (.sflushFrame k g) (((e.inFlight .sr [] none (.sflush k.toNat turn bd.session f lines true)).accept bd.session).setBind k.toNat
        { bd with frame := f + 1, x := 0, y := 0, wrap := false }))
    ∧ (Starts s e srd → maskFor srd e ≠ 0 → (bd.bound = false ∨ bd.closed = true ∨ bd.dir = true) → Traps s srd e (.plain cSESSION (maskFor srd e)) false)
    ∧ (Starts s e swr → maskFor swr e ≠ 0 → (bd.bound = false ∨ bd.closed = true ∨ bd.dir = false) → Traps s swr e (.plain cSESSION (maskFor swr e)) false)
    ∧ (∀ i dir, (i = srd ∧ dir = false ∨ i = swr ∧ dir = true) → Starts s e i → maskFor i e ≠ 0 → bd.refuses (some dir) = false →
        (e.s.session bd.session).passedBy bd.frame = true → Traps s i e (.plain cSESSION (maskFor i e)) false)
    ∧ (Starts s e srdt → maskFor srdt e ≠ 0 → e.srdtElsewhere = false → (e.holdsSwage = false ∨ 3 ≤ ch ∨ 2 ≤ tile.fmt) →
        Traps s srdt e (.plain cILLEGAL (laneBit lane)) false)
    ∧ (Starts s e srdt → maskFor srdt e ≠ 0 → e.srdtElsewhere = false → e.holdsSwage = true → ch < 3 → tile.fmt < 2 → tile.rows = 0 →
        Traps s srdt e (.plain cSHAPE (laneBit lane)) false)

/-- R300 to R302: `sinh` gives a send frame the times of a receive frame that has its slot, unless it has begun to go out; without the
slot its group holds; `sts` and `sstat` read times and states once the crew's earlier writes of the binding are in; `time` reads the
clock; `sleepu` waits for it. That `sts` and `sstat` themselves perform those writes, and the times that `sinh` gives, are the model's
choices (assumptions 1 and 59). -/
def Obligations.StreamTimes : Prop :=
  ∀ (s : State) (e : Env) (d : BitVec 6) (k m : BitVec 4) (f g : BitVec 3),
    let sb := e.c.bind k.toNat
    let rb := e.c.bind m.toNat
    let sx := e.s.session sb.session
    let rx := e.s.session rb.session
    let both : Prop := BindingReady e k.toNat (some true) Binding.frame ∧ BindingReady e m.toNat (some false) Binding.frame
    let times := rx.timesOf rb.frame
    let inherits (i : Instr) (off : DWord) : Prop := Starts s e i → maskFor i e ≠ 0 → both →
      (rx.claimed rb.frame = false → Becomes s i e)
      ∧ (rx.claimed rb.frame = true → sx.begun sb.frame = true → Ends s i (e.setBind k.toNat { sb with lateInh := true }))
      ∧ (rx.claimed rb.frame = true → sx.begun sb.frame = false →
          Ends s i ((e.setBind k.toNat { sb with lateInh := false }).via (fun s => s.setTimes sb.session sb.frame times.1 (times.2 + off))))
    let e1 := e.via (fun s => s.settleCrew e.c.id (fun p => p.writesBinding k.toNat))
    let busy : Prop := ∃ c, e1.commit.crew? e1.c.id = some c ∧ ∃ t ∈ c.strands, ∃ q ∈ t.inflight, q.writesBinding k.toNat = true ∧ q.done = false
    let x := e1.s.session sb.session
    let t := e.t.lane64 d.toNat (lowLane e.t.group)
    inherits (.sinh k m g) 0
    ∧ inherits (.sinhOffset d k m g) (e.t.lane64 d.toNat (lowLane (maskFor (.sinhOffset d k m g) e)))
    ∧ (Starts s e (.sts d k f g) → maskFor (.sts d k f g) e ≠ 0 → BindingReady e k.toNat none Binding.frame → ¬busy →
        Ends s (.sts d k f g) (e1.puts true (e1.t.result64 (maskFor (.sts d k f g) e) .uniform .uniform d.toNat (fun _ => stsValue sb x f.toNat))))
    ∧ (Starts s e (.sts d k f g) → maskFor (.sts d k f g) e ≠ 0 → BindingReady e k.toNat none Binding.frame → busy → Becomes s (.sts d k f g) e1)
    ∧ (Starts s e (.sstat d k f g) → maskFor (.sstat d k f g) e ≠ 0 → BindingReady e k.toNat none Binding.frame → ¬busy →
        Ends s (.sstat d k f g) (e1.puts true [e1.t.result (maskFor (.sstat d k f g) e) .uniform d.toNat (fun _ => sstatValue sb x f.toNat)]))
    ∧ (Starts s e (.sstat d k f g) → maskFor (.sstat d k f g) e ≠ 0 → BindingReady e k.toNat none Binding.frame → busy → Becomes s (.sstat d k f g) e1)
    ∧ (Starts s e (.time d) → Gives s e (.time d) (resultOf true d.toNat (fun _ => s.clock.toNat)) 0 0)
    ∧ (Starts s e (.sleepu d) → t.toNat ≤ s.clock.toNat → Ends s (.sleepu d) e)
    ∧ (Starts s e (.sleepu d) → s.clock.toNat < t.toNat → Moves s (.sleepu d) (e.on
        ((e.t.advance e.t.group (e.t.unit.words + 1)).waitLanes e.t.group (.sleepu t))))

/-! ### Requests to the machine (spec/14_queues_deadlines_and_dispatch.md R329 to R331, spec/17 R383, spec/18 R411 to R416) -/

/-- R307, R329 to R331: a `launch` offers its packet, read after a release, to the context's device launch queue, and its predicate says
whether a slot was free; an absent packet gives false and the absence predicate; a misaligned one traps ALIGN. -/
def Obligations.DeviceLaunch : Prop :=
  ∀ (s : State) (e : Env) (p g : BitVec 3) (a : BitVec 6) (i : Instr) (tail : Bool),
    (i = .launch p a g ∧ tail = false ∨ i = .launchTail p a g ∧ tail = true) → Starts s e i → maskFor i e ≠ 0 →
    let m := maskFor i e
    let e0 := e.release
    let lane := lowLane m
    let va := (e0.t.lane64 a.toNat lane).toNat
    let free := decide ((e0.s.ctx e0.c.ctx).dlq.length < 256)
    (∀ tr, vaBad va = false → va % 128 = 0 → e0.look lane va = .found tr → pteR tr.entry = true → pteP tr.entry = true →
        e0.s.bad (tr.pa va) 128 = false →
        Ends s i ((e0.via (fun s => (s.offer e0.c.ctx (e0.s.peekBytes (tr.pa va) 128) (if tail then some e0.c.seq else none)).2)).putPred
          m p.toNat (fun _ => free)))
    ∧ (∀ tr, vaBad va = false → va % 128 = 0 → e0.look lane va = .found tr → pteR tr.entry = true → pteP tr.entry = false →
        Ends s i ((e0.on (e0.t.markAbsent (laneBit lane))).putPred m p.toNat (fun _ => false)))
    ∧ (vaBad va = true ∨ va % 128 ≠ 0 → Traps s i e0 (.plain cALIGN (laneBit lane)) false)

/-- R383: `publish` of an enabled window is in flight on cl and joins the window's queue; of a disabled one it traps ILLEGAL. -/
def Obligations.Publication : Prop :=
  ∀ (s : State) (e : Env) (w : BitVec 3),
    let win := (e.s.ctx e.c.ctx).windows.getD w.toNat .fresh
    let e0 := e.release
    let e1 := e0.inFlight .cl [] none (.publish e.c.ctx w.toNat (lowLane e.t.group))
    (Starts s e (.publish w) → win.en = true → e0.t.full .cl = false →
      Ends s (.publish w) (e1.via (fun s => s.modCtx e.c.ctx (fun x => { x with windows := modAt x.windows w.toNat (fun n =>
        { n with queue := n.queue ++ [(e0.c.id, e0.t.idx, e0.t.nextOp)] }) }))))
    ∧ (Starts s e (.publish w) → win.en = false → Traps s (.publish w) e (.plain cILLEGAL e.t.group) false)

/-- R410 to R414: the collective requests of a strand, each after a release: a program takes a free slot and is in flight on cl, or is
refused when all are taken; a trigger slot is armed or disarmed; a counter is read, raised or set, and its former value is the
result. What a header or a descriptor that may not be read makes of the request is the model's choice (assumptions 44 and 45). -/
def Obligations.CollectiveRequests : Prop :=
  ∀ (s : State) (e : Env) (p k g : BitVec 3) (a d : BitVec 6) (t : BitVec 5),
    let e0 := e.release
    let lane (i : Instr) : Nat := lowLane (maskFor i e)
    let at_ (i : Instr) : Nat := (e0.t.lane64 a.toNat (lane i)).toNat
    let known (i : Instr) (tr : Trans) : Prop := vaBad (at_ i) = false ∧ e0.look (lane i) (at_ i) = .found tr ∧ pteR tr.entry = true
    let cprog : Instr := .cprog p a g
    let arm : Instr := .ctrigArm p a t g
    let disarm : Instr := .ctrigDisarm p t g
    let slot (e : Env) : TrigSlot := (e.s.ctx e.c.ctx).trigs.getD t.toNat .fresh
    let old := e0.s.tc e0.c.ctx k.toNat
    let counts (i : Instr) (v : DWord) : Prop := Starts s e i → maskFor i e ≠ 0 →
      Ends s i ((e0.puts true (e0.t.result64 (maskFor i e) .general .general d.toNat (fun _ => old.toNat))).via
        (fun s => s.setTc e0.c.ctx k.toNat v))
    let operand (i : Instr) : DWord := e0.t.lane64 a.toNat (lane i)
    (∀ tr, Starts s e cprog → maskFor cprog e ≠ 0 → known cprog tr → (∀ x ∈ e0.s.progs, x.isNone = false) →
      Ends s cprog (e0.putPred (maskFor cprog e) p.toNat (fun _ => false)))
    ∧ (∀ tr n, Starts s e cprog → maskFor cprog e ≠ 0 → known cprog tr → e0.s.progs.findIdx? (fun x => x.isNone) = some n → e0.t.full .cl = false →
      Ends s cprog (((e0.inFlight .cl [] none (.cprog n (lane cprog))).putPred (maskFor cprog e) p.toNat (fun _ => true)).via (fun s =>
        ((s.startProg e0.c.ctx (at_ cprog) (some (e0.c.id, e0.t.idx, e0.t.nextOp)) none).getD s).endIfBad n)))
    ∧ (∀ tr, Starts s e arm → maskFor arm e ≠ 0 → known arm tr → pteP tr.entry = true → at_ arm % 64 = 0 → e0.s.bad (tr.pa (at_ arm)) 64 = false →
      let desc := e0.s.peekBytes (tr.pa (at_ arm)) 64
      let ok := (slot e0).desc.isNone && trigOk desc
      let e1 := e0.putPred (maskFor arm e) p.toNat (fun _ => ok)
      Ends s arm (if ok then e1.via (fun s => s.armSlot e0.c.ctx t.toNat desc) else e1))
    ∧ (Starts s e disarm → maskFor disarm e ≠ 0 →
      Ends s disarm ((e.putPred (maskFor disarm e) p.toNat (fun _ => (slot e).desc.isSome)).via (fun s => s.modCtx e.c.ctx (fun x =>
        { x with trigs := modAt x.trigs t.toNat (fun sl => { sl with desc := none }) }))))
    ∧ counts (.cctrAdd d a k g) (old + operand (.cctrAdd d a k g)) ∧ counts (.cctrSet d a k g) (operand (.cctrSet d a k g))
    ∧ (Starts s e (.cctrRead d k g) → maskFor (.cctrRead d k g) e ≠ 0 →
      Ends s (.cctrRead d k g) (e.puts true (e.t.result64 (maskFor (.cctrRead d k g) e) .uniform .uniform d.toNat
        (fun _ => (e.s.tc e.c.ctx k.toNat).toNat))).acquire)

/-- R415, R416: a `tbar` on a genlock group of which the module is a member, for the frame that its binding flushed: in time it holds
that frame until T and joins the group; at or after T − GUARD/2, or once the frame has begun to go out, its status is late at once. That a
second barrier of a group does not wait for the first is the model's choice (assumption 46). -/
def Obligations.TimeBarrier : Prop :=
  ∀ (s : State) (e : Env) (d a : BitVec 6) (k : BitVec 4) (x g : BitVec 3) (f : Nat),
    let i : Instr := .tbar d a k x g
    let m := maskFor i e
    let grp := e.s.group x.toNat
    let b := e.c.bind k.toNat
    let target := e.t.lane64 a.toNat (lowLane m)
    let e1 := e.inFlight .cl [d.toNat] none (.tbar x.toNat d.toNat m)
    let tooLate : Prop := (target - BitVec.ofNat 64 (grp.guard.toNat * 500)).toNat ≤ e.s.clock.toNat ∨ (e.s.session b.session).firstSent f = true
    let tb : Genlock :=
      { target := target, session := b.session, frame := f, ctx := e.c.ctx, owner := (e.c.id, e.t.idx, e.t.nextOp),
        vd := d.toNat, mask := m, arrived := false, instant := false, decided := false, late := false, checked := false, cacks := [] }
    Starts s e i → m ≠ 0 →
    (grp.genlock e.s.lly.rank = false → Traps s i e (.plain cILLEGAL e.t.group) false)
    ∧ (grp.genlock e.s.lly.rank = true → b.refuses (some true) = true → Traps s i e (.plain cSESSION m) false)
    ∧ (grp.genlock e.s.lly.rank = true → b.refuses (some true) = false → b.flushed = none → Traps s i e (.plain cILLEGAL e.t.group) false)
    ∧ (grp.genlock e.s.lly.rank = true → b.refuses (some true) = false → b.flushed = some f → e.t.full .cl = false → ¬tooLate →
        Ends s i (e1.via (fun s => (s.holdFrame b.session f target).modGroup x.toNat (fun y => { y with tbars := y.tbars ++ [tb] }))))
    ∧ (grp.genlock e.s.lly.rank = true → b.refuses (some true) = false → b.flushed = some f → e.t.full .cl = false → tooLate →
        Ends s i (e1.tbarLate m d.toNat))

/-! ### Events (the rows of the opcode table with no word; spec/06 to spec/21) -/

/-- R134 to R137, R146, R161, R185, R186, R204, R213, R221, R238, R260, R277, R295, R302, R426, R429: the events of a strand. An
operation of the counter that the event names is performed; threads whose time has come run again; a strand at a boundary takes the
rotation, the active set's turn, or the trap that is due. When each comes is the model's choice (assumption 1). -/
def Obligations.StrandEvents : Prop :=
  ∀ (s : State) (e : Env) (c n op l : Nat) (p : Pending) (cause : BitVec 4) (mask : Mask) (va : VAddr) (d : DWord) (pa vd pd : Nat) (w : Word) (z : WaitAt),
    let go (i : Instr) (t : State) : Prop := exec i s = .next t
    let live : Prop := s.env? c n = some e ∧ e.c.state = .resident
    let pending (k : Ctr) : Prop := live ∧ e.t.inflight.find? (fun q => q.id = op && q.ctr = k && !q.done) = some p
    let wakes (due : Thread → Bool) (i : Instr) : Prop := live → e.t.ended = false → e.t.lanesWhere due ≠ 0 →
      go i (e.on (e.t.wakeLanes (e.t.lanesWhere due))).commit
    (pending .ld → go (.loadValueArrival c n op) (e.performAny p).commit)
    ∧ (pending .st → go (.storeAcknowledge c n op) (e.performAny p).commit)
    ∧ (pending .cp → go (.copyCompletion c n op) (e.performAny p).commit)
    ∧ (pending .mx → go (.swageOperationCompletion c n op) (e.performAny p).commit)
    ∧ (pending .sr → go (.streamOperationCompletion c n op) (e.performAny p).commit)
    ∧ (∀ f, pending .tr → p.kind = .field f → go (.fieldRequestCompletion c n op) (e.performAny p).commit)
    ∧ (live → l < 8 → e.t.traceOf l = none → go (.traversalStop c n l) (e.traverse l).commit)
    ∧ (live → l < 8 → e.t.traceOf l = some p → go (.traversalStop c n l) ((e.traverse l).settleTrace p).commit)
    ∧ (live → l < 8 → e.t.queryHeld l = true → (e.traverse l).commit = e.commit)
    ∧ go (.rgrowGrant l) (s.serveGrowth l 512) ∧ go (.strandEnd c n) (s.endStrand c n)
    ∧ (live → e.t.ended = false → e.rotationDue = true → go (.fairnessRotation c n) (e.on e.t.selectNext).commit)
    ∧ (live → e.t.ended = false → e.t.inSet = true → 2048 ≤ e.t.activeFor → s.readyOutside e.c.core c n = true →
        go (.activeSetRotation c n) (e.on { e.t with active := false, activeFor := 0, outSince := some s.cycle }).commit)
    ∧ wakes (fun t => match t.state with | .waiting (.sleep k) => decide (k ≤ s.cycle) | _ => false) (.sleepExpiry c n)
    ∧ wakes (fun t => match t.state with | .waiting (.sleepu d) => s.reached d | _ => false) (.sleepuExpiry c n)
    ∧ (live → e.t.ended = false → l < 8 → (e.t.thread l).state = .waiting (.waita pa w d vd pd z) → inKick pa = false → s.bad pa 4 = false →
        s.passed d = true → go (.waitaDeadline c n l) (s.returnWaita c n l vd pd (BitVec.ofNat 32 (s.peek pa 4)) (BitVec.ofNat 32 (s.peek pa 4) ≠ w)))
    ∧ (live → e.t.ended = false → e.handled = true → e.mayIssue = true → e.c.walker = false → e.t.midUnit = false →
        1 ≤ cause.toNat → cause.toNat ≤ 9 → mask ≠ 0 → mask &&& ~~~e.t.group = 0 →
        go (.trapEntry c n cause mask va) (e.takeTrap { cause := cause.toNat, mask := mask, va := va.toNat, code := 0 } false none))
    ∧ (live → e.t.ended = false → (e.on e.t.regroup).deferredDue = true → (e.on e.t.regroup).mayIssue = true →
        go (.deferredTrap c n) (e.on e.t.regroup).takeDeferred)

/-- R307 to R347, R442: the events of Bellows' queue, heap and placement, each when its condition holds. When each of them comes, the moment
at which a gang that is being taken off leaves among them (assumption 1), and that a watchdog completes FAULT before the fatal event (51)
are the model's choices. -/
def Obligations.LaunchEvents : Prop :=
  ∀ (s : State) (l : Launch) (q off w seq gang : Nat) (v start : DWord),
    let go (i : Instr) (t : State) : Prop := exec i s = .next t
    let found : Prop := s.launch? seq = some l
    let alive : Prop := (s.ctx l.ctx).frozen = false
    let held := s.latchDeps
    let cutOff := s.modLaunch seq (fun l => { l with
      phase := .cutting, crewsLeft := 0, nextStage := 0, cutAt := if l.allPlaced then none else some s.clock })
    let k := s.clock.toNat / 500000
    (s.dev.stage = 6 ∨ 8 ≤ off → q < 1024 → go (.queueKick q off w v) (s.hostKick q off w v))
    ∧ (s.dev.stage < 6 → q < 1024 → off < 8 → go (.queueKick q off w v) (s.modQueue q (fun x =>
        if off = 0 && w = 8 then { x with range := true } else { x with width := true })))
    ∧ (s.dev.stage = 7 → q < 1024 → off < 8 → go (.queueKick q off w v) s)
    ∧ (s.dev.stage = 6 → s.heapFree = true → s.metHeld = [] → s.nextQueue = some q → go .packetPull (s.pullFrom q).markTop)
    ∧ (held.metHeld.head? = some l → l.queue = q → held.heapFree = true → go (.dependencyMet q) (held.test l).markTop)
    ∧ (found → l.inHeap = true → s.reached l.pkt.earliest = true → s.markTop.top.map Launch.seq ≠ some seq → go (.earliestReached seq) s.markTop)
    ∧ (found → l.inHeap = true → s.reached l.pkt.earliest = true → s.markTop.top.map Launch.seq = some seq →
        go (.earliestReached seq) s.markTop.completeMarker)
    ∧ (found → l.phase = .heap → s.passed l.pkt.deadline = true → alive → go (.heapDeadlineExpiry seq) (s.shed l true).markTop)
    ∧ (s.top = some l → l.pkt.kind ≠ 2 → go .placeUnit (s.placeTop l).markTop)
    ∧ (s.top = some l → l.pkt.kind = 2 → go .placeUnit (s.complete l.seq CplStatus.done.code).markTop)
    ∧ (found → (l.phase = .placing ∨ l.phase = .running) → l.pkt.cut = true → s.passed l.pkt.deadline = true → alive →
        go (.launchDeadlineCut seq)
          (((cutOff.crews.filter (fun c => c.live && c.seq = seq)).map Crew.id).foldl (fun st c => st.cutCrew c) cutOff).markTop)
    ∧ (s.bellows.tickDone < k → s.dev.stage = 6 →
        let s1 := ({ s with bellows := { s.bellows with tickDone := k } } : State).markTop
        go .timeSliceTick ((List.range 64).foldl (fun st x => st.sliceContext x) s1.leaveRetiring).markTop)
    ∧ go (.gangQuench seq gang) (s.takeGang seq gang true) ∧ go (.gangSave seq gang) (s.takeGang seq gang false)
    ∧ (s.waitingGangs = [] → go .restoreOnRelease s.markTop)
    ∧ (∀ g, s.waitingGangs = [g] → (∀ t, s.top = some t → g.deadline s ≤ t.pkt.deadline.toNat) →
        (∀ cs, s.planReturn g.crews = some cs → go .restoreOnRelease (s.returnGang g.crews cs).markTop)
        ∧ (s.planReturn g.crews = none → go .restoreOnRelease s.markTop))
    ∧ (∀ g t, s.waitingGangs = [g] → s.top = some t → t.pkt.deadline.toNat < g.deadline s → go .restoreOnRelease s.markTop)
    ∧ (found → (l.phase = .running ∨ l.phase = .cutting) → (∀ c ∈ s.crews, c.walker = true ∨ c.seq ≠ seq ∨ c.state = .ended) →
        go (.launchCompletion seq) (s.complete seq (if s.lastEnd seq ≤ l.pkt.deadline.toNat then CplStatus.done.code else CplStatus.missed.code)).markTop)
    ∧ (found → l.firstAt = some start → l.pkt.watchdog ≠ 0 → alive → l.pkt.watchdog * 1000 + l.frozenFor ≤ (s.clock - start).toNat →
        go (.watchdogExpiry seq) (((s.settleLaunch seq).complete seq CplStatus.fault.code).fatalEvent l.ctx (.plain 16 true seq 0)).markTop)

/-- R22, R23, R334, R359, R363 to R365, R372 to R379, R407, R408, R441: the registers of a context that the host owns once the
device runs, and the translations and pages that are served through them. A guarded register takes a new value in an idle context; an
answer of RESVA and a step of a migration wait for a transaction whose buffered stores need the translation that they take away. That a
page moves in two events, one page at a time, and the moment of a walk's start are the model's choices (assumptions 35 and 1). -/
def Obligations.ContextEvents : Prop :=
  ∀ (s : State) (x q off core tc : Nat) (v : DWord) (w : Word) (va : VAddr) (kind : BitVec 5),
    let go (i : Instr) (t : State) : Prop := exec i s = .next t
    let owned : Prop := s.managed x = true
    let rest : Prop := s.idle x = true
    let page := v.toNat / 2 ^ 14
    let qu := s.queue q
    let co := s.core core
    let n := bitsOf v.toNat 0 13
    let unqueued := s.modCtx x (fun y => { y with migQueue := y.migQueue.filter (fun u => u ≠ va) })
    let frame := (unqueued.ctx x).pool.toNat / 2 ^ 14
    let bit := v.getLsbD 0
    let asked := s.modCtx x (fun y => { y with resWait := y.resWait ++ [(page, bit)] })
    let gone := asked.invalidatePage x (page * 2 ^ 14)
    let told := if bit then gone.refusePage x page else gone
    let answered := (told.modCtx x (fun y => { y with
      resReqs := y.resReqs.filter (fun p => p ≠ page), resWait := y.resWait.filter (fun z => z ≠ (page, bit)) })).settlePgreqs x
    let buffered (s : State) (a : Nat) : Bool := s.bufferedThrough none s.enabledCores x (fun tr => tr.covers x a)
    (owned → rest → go (.cxassistWrite x w) (s.modCtx x (fun y =>
      { y with assist := BitVec.truncate 5 w, assistRej := y.assistRej && !w.getLsbD 31 })))
    ∧ (owned → s.idle x = false → BitVec.truncate 5 w ≠ (s.ctx x).assist → go (.cxassistWrite x w) (s.modCtx x (fun y => { y with assistRej := true })))
    ∧ (owned → rest → go (.saveAreaWrite x 8 v) (s.modCtx x (fun y => { y with saveBase := v })))
    ∧ (owned → rest → (n = 0 ∨ 16 ≤ n) → n ≤ 4096 → go (.saveAreaWrite x 0x10 v) (s.modCtx x (fun y =>
      { y with slots := n, slotsRej := y.slotsRej && !v.getLsbD 31 })))
    ∧ (owned → rest → go (.translationRegisterWrite x 0x20 v) (s.modCtx x (fun y => { y with ptroot := v })))
    ∧ (owned → rest → go (.translationRegisterWrite x 0x28 v) (s.modCtx x (fun y => { y with walkPc := v })))
    ∧ (owned → rest → go (.translationRegisterWrite x 0x30 v) (s.modCtx x (fun y => { y with walkArg := v })))
    ∧ (owned → rest → go (.translationRegisterWrite x 0x48 v) (s.modCtx x (fun y => { y with evBase := v &&& ~~~0xFFF, evLog := BitVec.truncate 4 v })))
    ∧ (owned → go (.contextReset x) ((s.recordError x (.plain 21 false 0 0)).contextReset x))
    ∧ (6 ≤ s.dev.stage → qu.ridx = qu.widx → s.idle qu.ctx = true → off < 0x10 → off % 4 = 0 → (qu.setEntry off v).entryOk = true →
        go (.queueBindingWrite q off v) (s.modQueue q (fun y => { y.setEntry off v with widx := 0, ridx := 0 })))
    ∧ ((∃ c ∈ s.residentOn core, c.walker = false ∧ c.ctx = x) → (∀ t ∈ co.tlb, t.covers x va.toNat = false) →
        (∀ m ∈ co.walks, m.ctx ≠ x ∨ pageNo m.va.toNat ≠ pageNo va.toNat) → (∀ m ∈ co.misses, m.ctx ≠ x ∨ pageNo m.va.toNat ≠ pageNo va.toNat) →
        go (.walkStart core x va kind)
          ((s.setCore core { co with misses := co.misses ++ [{ ctx := x, va := va, kind := kind, joined := [] }] }).serveMisses core 4))
    ∧ (owned → w.getLsbD 31 = true → go (.hostFill x w) (s.fillControl x w))
    ∧ (owned → w.getLsbD 30 = true → go (.hostWalkEnd x w) (s.fillControl x w))
    ∧ (owned → page ∈ (s.ctx x).resReqs → (s.ctx x).resWait = [] →
        (buffered asked (page * 2 ^ 14) = false → go (.resvaWrite x v) answered)
        ∧ (buffered asked (page * 2 ^ 14) = true → go (.resvaWrite x v) asked))
    ∧ (buffered s va.toNat = true → go (.pageMigration x va) s)
    ∧ (∀ a, buffered s va.toNat = false → va ∈ (s.ctx x).migQueue → (s.ctx x).moving = none → unqueued.leafFrom va.toNat 0 (unqueued.ctx x).ptroot.toNat 4 = some (a, 3) →
        let e : DWord := BitVec.ofNat 64 (unqueued.peek a 8)
        pteHome e ≠ 0 → pteP e = true → frame ≠ 0 →
        go (.pageMigration x va) (((unqueued.engineWrite x a (leBytes 8 (e &&& ~~~2).toNat)).invalidatePage x va.toNat).modCtx x (fun y =>
          { y with moving := some { va := va, leaf := a, entry := e, frame := frame } })))
    ∧ (∀ m, buffered s va.toNat = false → (s.ctx x).moving = some m → m.va ≠ va → go (.pageMigration x va) s)
    ∧ (∀ m, buffered s va.toNat = false → (s.ctx x).moving = some m → m.va = va →
        let old := (Trans.ofLeaf x va.toNat 3 m.entry).pa (va.toNat / 2 ^ 14 * 2 ^ 14)
        let leaf : DWord := BitVec.ofNat 64 ((m.entry &&& 0xFFFFFE7D).toNat + 2 + m.frame * 2 ^ 32)
        let moved := (((s.copyPage x old (m.frame * 2 ^ 14)).engineWrite x m.leaf (leBytes 8 leaf.toNat)).invalidatePage x va.toNat).modCtx x
          (fun y => { y with pool := BitVec.ofNat 64 (s.peek (m.frame * 2 ^ 14) 8) &&& ~~~0x3FFF, moving := none })
        go (.pageMigration x va) ((moved.postEvent x (evRecord 3 0 0 va.toNat (ptePpn m.entry) m.frame)).settlePgreqs x))
    ∧ (owned → (∀ p ∈ s.progs, ∀ y, p = some y → y.ctx = x → y.held = none) →
        go (.relayWrite x w) (s.modCtx x (fun y => { y with relay := w })).pumpAll)
    ∧ (owned → tc < 8 → go (.triggerCounterWrite x tc v) (s.setTc x tc v))

/-- R8, R333, R353, R373, R376, R378, R380 to R388, R396: what the host and peers read and write at the home slices, what a host read of
a register gives, the windows and their publications, and the loader. A write of the host leaves the front frames of the windows as they
are, byte by byte. Where the register block stands among the host's addresses, and that a publication's copy is made at its completion,
are the model's choices (assumptions 88 and 34). -/
def Obligations.HostEvents : Prop :=
  ∀ (s : State) (x win pa n rank off : Nat) (v : DWord) (data : List Byte) (o : Nat × Nat × Nat) (rest : List (Nat × Nat × Nat)) (r : State × Nat × Nat × Nat),
    let go (i : Instr) (t : State) : Prop := exec i s = .next t
    let owned : Prop := s.managed x = true
    let w := (s.ctx x).window win
    let units := publishUnits (w.busy.getD [])
    let published := units.foldl (fun st i => st.publishUnit x w i) s
    let ended := published.modWindow x win (fun y =>
      { y with wver := w.wver + 2, busy := none, queue := y.queue.tail, en := y.en && !y.drop, drop := false })
    let spared := data.zipIdx.foldl (fun st p => if st.inFront (pa + p.2) then st else st.homeWrite .host none (pa + p.2) [p.1]) s
    (hostReaches pa data.length = true → (∀ i, i < data.length → s.inFront (pa + i) = false) →
        go (.hostWrite pa data false) (s.homeWrite .host none pa data)
        ∧ go (.hostWrite pa data true) ((s.homeWrite .host none pa data).countRemote (s.pageCtx pa) pa))
    ∧ (hostReaches pa data.length = true → (∃ i, i < data.length ∧ s.inFront (pa + i) = true) →
        go (.hostWrite pa data false) spared ∧ go (.hostWrite pa data true) (spared.countRemote (s.pageCtx pa) pa))
    ∧ (hostReaches pa n = true → go (.hostRead pa n) { s with hostRd := s.peekBytes pa n })
    ∧ (hostReaches pa n = false → s.dev.linkUp = true → inBars pa n = true →
        (takesCandidate pa n = false → go (.hostRead pa n) { s with hostRd := s.barBytes pa n })
        ∧ (takesCandidate pa n = true → go (.hostRead pa n)
            (({ s with hostRd := s.barBytes pa n } : State).modDev (fun d => { d with rcand := d.rcand.tail }))))
    ∧ (∀ i, i < 4 → win < 2 ^ 19 → pa = bar0Base + 4 * win → i < n →
        (s.barBytes pa n).getD i 0 = BitVec.ofNat 8 (s.readWord (4 * win) / 2 ^ (8 * i)))
    ∧ (x < 64 → s.readWord (0x100000 + x * 0x1000) = b2n (s.idle x) 1)
    ∧ (x < 64 → s.readWord (0x100000 + x * 0x1000 + 0x14) = s.liveCount x + s.savedCount x * 2 ^ 16)
    ∧ (rank < 64 → s.readWord (0x11000 + rank * 32 + 0x0C) = (s.session rank).sstat.toNat)
    ∧ (owned → w.en = false → w.quiet = true → off ≠ 0x1C → go (.windowRegisterWrite x win off v) (s.modWindow x win (fun y => y.setReg off v)))
    ∧ (owned → (w.en = true ∨ w.quiet = false) → off ≠ 0x1C → w.setReg off v ≠ w →
        go (.windowRegisterWrite x win off v) (s.modWindow x win (fun y => { y with rej := true })))
    ∧ (owned → w.en = false → v.getLsbD 31 = true → v.getLsbD 30 = false →
        go (.windowRegisterWrite x win 0x1C v) (s.modWindow x win (fun y => { y with en := true, dirty := List.range y.wpages })))
    ∧ (win < 8 → w.busy = none → w.queue ≠ [] →
        go (.publicationServe x win) ((s.homeWrite .engine (some x) (hostBase + w.wvera.toNat) (leBytes 8 (w.wver + 1).toNat)).modWindow x win
          (fun y => { y with busy := some y.dirty, dirty := [] })))
    ∧ (w.busy ≠ none → w.queue = o :: rest → (∀ i ∈ units, s.bad (w.wback.toNat + i) 32 = false) →
        go (.publicationComplete x win)
          ((ended.homeWrite .engine (some x) (hostBase + w.wvera.toNat) (leBytes 8 (w.wver + 2).toNat)).finishFor o))
    ∧ (owned → go (.loaderGo x) (s.modCtx x (fun y => { y with loader := { y.loader with busy := true } })))
    ∧ ((s.ctx x).loader.busy = true → s.load x = r →
        go (.loaderDone x) (r.1.modCtx x (fun y => { y with loader := { y.loader with
          busy := false, status := BitVec.ofNat 8 r.2.1, site := BitVec.ofNat 24 r.2.2.1, sym := BitVec.ofNat 24 r.2.2.2 } })))
    ∧ (pa < 2 ^ 46 → go (.peerMemoryAccess rank pa (.read n)) (s.emit (.peer rank (s.peekBytes pa n))))
    ∧ (pa < 2 ^ 46 → go (.peerMemoryAccess rank pa (.write data)) (s.outsideWrite .peer pa data))

/-- R389 to R399, R417: ports, the follower's messages, and the packets of sessions. The exchange that a new follower's port forgets
(assumption 37), what the follower heeds (85), the first sequence number of a session and what an open session takes (84), the order of a
packet's effects and its matching (41, 42), and the stamps of a port whose link goes down (96) are the model's choices. -/
def Obligations.PortsAndSessions : Prop :=
  ∀ (s : State) (p l k f y : Nat) (w target ip : Word) (mac : BitVec 48) (v : DWord) (up : Bool) (msg : PtpMsg) (vp : VideoPacket) (rp : RtpPacket),
    let go (i : Instr) (t : State) : Prop := exec i s = .next t
    let m : BitVec 2 := BitVec.truncate 2 w
    let port := s.port p
    let x := s.session k
    let ptp : Ptp := { s.ptp with
      host := v.getLsbD 0, port := BitVec.ofNat 3 (bitsOf v.toNat 10 3)
      domain := BitVec.ofNat 8 (bitsOf v.toNat 16 8) }
    let counted := s.countRecv l
    let own := s.ptp.port.toNat
    let ctx := bitsOf w.toNat 0 6
    let desc := SessDesc.ofBytes (s.peekBytes x.desc.toNat 128)
    let opened : Session := { Session.fresh with
      desc := x.desc, ctx := ctx, up := true, d := desc, slots := List.replicate desc.nf .fresh, txSeq := Config.rtpStart k s.clock }
    let video := (s.handOver l vp.stamp).countRecv l
    let rtp := (s.handOver l rp.stamp).countRecv l
    let lost := s.ptp.master.map PtpMaster.source
    let s0 := s.claimSubst k
    let z0 := s0.session k
    let sending (sd : Sending) : Prop := z0.up = true ∧ z0.d.send = true ∧ z0.d.opaque_ = false
      ∧ (z0.sending = some sd ∨ (∃ f, z0.sending = none ∧ z0.nextSend = some f ∧ sd = { frame := f, next := 0, sent := [] }))
    let videoFor (x : Session) : Bool := !x.d.opaque_ && x.d.matches_ l vp.srcIp vp.dstIp vp.dport vp.pt vp.ssrc
    let rtpFor (x : Session) : Bool := x.d.opaque_ && x.d.matches_ l rp.srcIp rp.dstIp rp.dport rp.pt rp.ssrc
    let at_ := x.d.store.toNat + x.packets % (x.d.nf * x.d.h) * x.d.pitch
    let len := s.peek (at_ + 8) 4
    (2 ≤ s.dev.stage → m = port.mode ∨ (port.enabled = true ∧ s.portInUse p = false) → go (.portctlWrite p w) (s.modPort p (fun z =>
        { z.setMode m with llyn := w.getLsbD 2, ptpEn := w.getLsbD 3, rej := z.rej && !w.getLsbD 31 })))
    ∧ (2 ≤ s.dev.stage → m ≠ port.mode → port.enabled = false ∨ s.portInUse p = true → go (.portctlWrite p w) (s.modPort p (fun z => { z with rej := true })))
    ∧ (s.lportPresent l = true → 4 ≤ s.dev.stage → go (.portLinkChange l up) (s.modLport l (fun z => { z with link := up, ingress := if up then z.ingress else [] })))
    ∧ (s.lportUp l = true → target = (s.lport l).ip → target ≠ 0 → go (.arpRequest l target ip mac) (s.emit (.arpReply l ip mac)))
    ∧ (2 ≤ s.dev.stage → (∀ z ∈ s.sessions, z.up = false) → s.genlockOn = false → ptp ≠ s.ptp →
        go (.ptpctlWrite v) { s with ptp := ptp.restart })
    ∧ (s.lportUp l = true → msg.sumOk = true → s.follows l = true → msg.domain = s.ptp.domain →
        (msg.kind = .sync → s.ptp.heeds msg = true → go (.ptpEventMessage l msg) ({ counted with ptp := { s.ptp with
          t2 := some msg.stamp, t1 := if msg.twoStep then none else some msg.origin } } : State).measureSync)
        ∧ (msg.kind ≠ .announce → s.ptp.heeds msg = false → go (.ptpEventMessage l msg) counted)
        ∧ (msg.kind = .announce → go (.ptpEventMessage l msg) { counted with ptp := s.ptp.hear msg }))
    ∧ (s.lportUp l = true → (msg.sumOk = false ∨ s.follows l = false ∨ msg.domain ≠ s.ptp.domain) →
        go (.ptpEventMessage l msg) (counted.countDrop l))
    ∧ (s.follows own = true → go .delayReqTransmit (({ s with ptp := { s.ptp with t3 := some s.clock, t4 := none } } : State).emit (.delayReq own s.clock)))
    ∧ go .ptpMasterLoss { s with ptp := { s.ptp.restart with
        lock := false, masters := s.ptp.masters.filter (fun m => some m.source ≠ lost) } }
    ∧ (k < 64 → x.up = false → s.dev.stage = 6 → s.openWhy x.desc ctx desc = 0 →
        go (.sessionOpen k w) (((s.modSession k (fun _ => opened)).emptyObjects k).joinGroup desc))
    ∧ (k < 64 → x.up = false → s.dev.stage = 6 → s.openWhy x.desc ctx desc ≠ 0 →
        go (.sessionOpen k w) (s.modSession k (fun z => { z with ctx := ctx, rej := true, why := s.openWhy x.desc ctx desc })))
    ∧ (k < 64 → x.up = true → go (.sessionOpen k w) (s.modSession k (fun z => { z with ctx := ctx, rej := z.rej && !w.getLsbD 28 })))
    ∧ (k < 64 → x.up = false → s.dev.stage ≠ 6 → go (.sessionOpen k w) (s.modSession k (fun z => { z with rej := true })))
    ∧ go (.sessionClose k) (s.closeSession k)
    ∧ (s.lportUp l = true → (vp.sumOk = false ∨ video.matchSession videoFor = none) → go (.videoPacketReceive l vp) (video.countDrop l))
    ∧ (s.lportUp l = true → vp.sumOk = true → video.matchSession videoFor = some k → (video.session k).d.portb = 15 → vp.segs ≠ [] →
        vp.segs.length ≤ 3 → vp.segs.all (video.session k).d.segOk = true →
        go (.videoPacketReceive l vp) ((video.modSession k (fun _ => video.session k)).takeVideo k vp))
    ∧ (s.lportUp l = true → (rp.sumOk = false ∨ rtp.matchSession rtpFor = none) → go (.opaquePacketReceive l rp) (rtp.countDrop l))
    ∧ (s.lportUp l = true → rp.sumOk = true → rtp.matchSession rtpFor = some k → (rtp.session k).d.portb = 15 →
        rp.payload.length + 16 ≤ (rtp.session k).d.pitch →
        let z := rtp.session k
        go (.opaquePacketReceive l rp) (((rtp.modSession k (fun _ => z)).engineWrite z.ctx
          (z.d.store.toNat + z.packets % (z.d.nf * z.d.h) * z.d.pitch)
          (leBytes 8 rp.stamp.toNat ++ leBytes 4 rp.payload.length ++ leBytes 4 rp.rtp.toNat ++ rp.payload)).modSession k
            (fun z => { z with packets := z.packets + 1 })))
    ∧ (x.up = true → x.d.send = false → x.d.opaque_ = false → x.d.deadline f y ≤ s.clock.toNat → s.handedOver x (x.d.deadline f y) = true → y ≠ 0 →
        x.mayClose f y = true → go (.lineClose k f y) (s.closeLine k f y))
    ∧ (x.d.deadline f y ≤ s.clock.toNat → s.handedOver x (x.d.deadline f y) = false → go (.lineClose k f y) s)
    ∧ (z0.up = true → z0.d.send = true → z0.d.opaque_ = false → z0.sending = none → z0.nextSend = none → go (.packetTransmit k) s0)
    ∧ (∀ sd, sending sd → s.clock.toNat < z0.packetTime sd.frame sd.next → go (.packetTransmit k) s0)
    ∧ (∀ sd, sending sd → z0.packetTime sd.frame sd.next ≤ s.clock.toNat →
        let line := sd.next / z0.d.perLine
        let i := sd.next % z0.d.perLine
        let b := if i = 0 then s0.beginLine k sd.frame line sd else (s0, sd)
        let n := groupOctets z0.d.fmt
        let data := (((smapGet b.2.sent line).getD []).drop (i * z0.d.perPacket * n)).take (z0.d.perPacket * n)
        let sent (marker : Bool) := b.1.sendVideo k (rtp90 (z0.timesOf sd.frame).1.toNat) line (i * z0.d.perPacket * groupPixels z0.d.fmt) marker data
        let sd2 : Sending := { b.2 with next := sd.next + 1 }
        (sd.next + 1 = z0.d.framePackets → go (.packetTransmit k) ((sent true).endFrame k sd.frame sd2))
        ∧ (sd.next + 1 ≠ z0.d.framePackets → go (.packetTransmit k) ((sent false).modSession k (fun y => { y with sending := some sd2 }))))
    ∧ (x.up = true → x.d.send = true → x.d.opaque_ = true → len ≠ 0 → len + 16 ≤ x.d.pitch →
        (rtp90 s.clock.toNat - BitVec.ofNat 32 (s.peek (at_ + 12) 4)).toNat < 2 ^ 31 →
        go (.opaqueTransmit k) (((x.d.ports.filter s.lportUp).foldl (fun st l =>
          (st.emit (.opaque k l s.clock x.txSeq (BitVec.ofNat 32 (s.peek (at_ + 12) 4)) (s.peekBytes (at_ + 16) len))).countSent l) s).modSession k
            (fun z => { z with packets := z.packets + 1, txSeq := z.txSeq + 1 })))

/-- R400 to R402, R405, R407: datagrams of Llynad on a logical port. Each is acknowledged in the order of its path; a repeated or early
one has no other effect, and one for another rank is sent on. A request that has been granted is granted again, and one that cannot be
granted waits in its place; a message longer than a chunk ends its receiver; a COMMIT after its decision makes the barrier disagree. That
acknowledgements leave at once, the order of waiting requests and of the messages to one peer, what a relay holds, and the lanes that a
late COMMIT changes, are the model's choices (assumptions 43, 86, 87 and 46). -/
def Obligations.LlynadDatagrams : Prop :=
  ∀ (s : State) (l peer r k : Nat) (h : LlyHeader) (flits : List Byte) (i : Instr) (kind : Nat),
    let go (i : Instr) (t : State) : Prop := exec i s = .next t
    let named : Prop := i = .llynadReq l h ∧ kind = kREQ ∧ flits = [] ∨ i = .llynadGrant l h ∧ kind = kGRANT ∧ flits = []
      ∨ i = .llynadData l h flits ∧ kind = kDATA ∨ i = .llynadSig l h ∧ kind = kSIG ∧ flits = [] ∨ i = .llynadAbt l h ∧ kind = kABT ∧ flits = []
      ∨ i = .llynadArrive l h ∧ kind = kARRIVE ∧ flits = [] ∨ i = .llynadCommit l h ∧ kind = kCOMMIT ∧ flits = []
      ∨ i = .llynadCack l h ∧ kind = kCACK ∧ flits = []
    let s1 := s.countRecv l
    let learnt := s1.learnPort h.via l h.rport
    let path := (learnt.path h.via l h.rport).acknowledge h.ackSeq
    let s2 := learnt.setPath path
    let taken := (s2.setPath { path with rxSeq := h.seq }).sendAck l h.via h.rport
    let next : Prop := s.llyAccepts l h = true ∧ h.seq = path.rxSeq + 1 ∧ h.dst = s.lly.rank
    let p := s.path peer l r
    let granted := taken.lly.rows.findIdx? (fun r => r.isFor h && r.off = h.param.toNat && r.data.isNone)
    let landed : State := { taken with lly := { taken.lly with
      rows := modAt taken.lly.rows h.row (fun r => { r with data := some (h.param.toNat, flits) }) } }
    let fits (z : State) : Prop := ∀ k pr, z.programOf h.tag = some k → z.prog? k = some pr → h.param.toNat + flits.length ≤ pr.csize
    (named → s.llyAccepts l h = false → s.lportUp l = true → go i (s1.countDrop l))
    ∧ (named → s.llyAccepts l h = true → h.seq ≠ path.rxSeq + 1 → go i (s2.sendAck l h.via h.rport))
    ∧ (named → s.llyAccepts l h = true → h.seq = path.rxSeq + 1 → h.dst ≠ s.lly.rank → go i (taken.sendLly h.dst kind h flits).pumpAll)
    ∧ (s.llyAccepts l h = true → go (.llynadAck l h) s2.pumpAll)
    ∧ (next → taken.programOf h.tag = some k →
        (∀ pr, taken.prog? k = some pr → go (.llynadSig l h) (taken.addTc pr.ctx (h.param.toNat % 8) 1).pumpAll)
        ∧ go (.llynadAbt l h) (taken.endProg k psAborted true).pumpAll)
    ∧ (next → granted = some r → go (.llynadReq l h) (taken.tellGrant r).pumpAll)
    ∧ (next → granted = none → taken.lly.reqs.any (fun q => sameLoad q.2.2 h) = true → go (.llynadReq l h) taken.pumpAll)
    ∧ (next → granted = none → taken.lly.reqs.any (fun q => sameLoad q.2.2 h) = false →
        go (.llynadReq l h) (taken.queueReq (s.cycle, l, h)).pumpAll)
    ∧ (next → taken.programOf h.tag = none → go (.llynadGrant l h) taken.pumpAll)
    ∧ (∀ pr m, next → taken.programOf h.tag = some k → taken.prog? k = some pr →
        pr.out.find? (fun m => m.peer = h.src && m.num = h.msg.toNat && m.asked) = some m →
        let part := (m.data.drop m.sent).take 8192
        let nf := ceilDiv part.length 256
        let u := taken.progSend k m.peer kDATA (taken.llyHeader m.peer pr.tag h.msg h.row nf (BitVec.ofNat 64 m.sent))
          (part ++ List.replicate (256 * nf - part.length) 0)
        let same (y : OutMsg) : Bool := y.peer = m.peer && y.num = m.num
        (u.1 = false → go (.llynadGrant l h) u.2.pumpAll)
        ∧ (∀ q, u.1 = true → u.2.prog? k = some q → go (.llynadGrant l h) (u.2.setProg k (some { q with
            out := if m.data.length ≤ m.sent + part.length then q.out.filter (fun y => !same y)
                   else modWhere q.out same (fun y => { y with sent := m.sent + part.length, asked := false }) })).pumpAll))
    ∧ (next → fits taken → flits.length = 256 * h.nflit → h.nflit ≤ 32 → (taken.lly.rows.getD h.row .fresh).isFor h = true →
        go (.llynadData l h flits) landed.pumpAll)
    ∧ (∀ pr, next → taken.programOf h.tag = some k → taken.prog? k = some pr → pr.csize < h.param.toNat + flits.length →
        go (.llynadData l h flits) (taken.endProg k psBadProg true).pumpAll)
    ∧ (∀ g, next → taken.genlockOf h = some g →
        (taken.leads g = true → taken.clock.toNat ≤ (taken.group g).commitAt h.param →
          go (.llynadArrive l h) (taken.modGroup g (fun x => { x with arrives := x.arrives ++ [(h.src, h.param)] })).pumpAll)
        ∧ (taken.leads g = true → (taken.group g).commitAt h.param < taken.clock.toNat → go (.llynadArrive l h) taken.pumpAll)
        ∧ (∀ b, (taken.group g).decideAt h.param ≤ taken.clock.toNat → h.param ∉ (taken.group g).commits →
            (taken.group g).tbars.filter (fun b => b.target = h.param && b.decided && !b.late) = [b] →
            go (.llynadCommit l h) (((taken.disagree b).tryEvent b.ctx (disagreeRecord h.param g 0 0xFF)).modTbar g (fun b => b.target = h.param)
              (fun b => { b with late := true })).pumpAll)
        ∧ (taken.clock.toNat < (taken.group g).decideAt h.param →
            go (.llynadCommit l h) (taken.modGroup g (fun x => { x with commits := x.commits ++ [h.param] })).pumpAll)
        ∧ go (.llynadCack l h) (taken.modTbar g (fun b => b.target = h.param) (fun b => { b with cacks := b.cacks ++ [h.src] })).pumpAll)
    ∧ (p.failed = false → p.unacked.any s.resendDue = true →
        ((∀ d ∈ p.unacked, s.resendDue d = true → d.tries < 8) → go (.llynadResend peer l r) (s.resendPath p s.resendDue))
        ∧ (∀ d ∈ p.unacked, s.resendDue d = true → 8 ≤ d.tries → go (.llynadResend peer l r) (s.failPath p)))
    ∧ (p.failed = false → p.unacked.any s.resendDue = false → go (.llynadResend peer l r) s)
    ∧ (p.failed = true → p.retryAt ≤ s.clock → p.unacked = [] →
        go (.llynadPathRetry peer l r) ((s.setPath { p with retryAt := s.clock + 10000000 }).sendAck l peer r))
    ∧ (p.failed = true → p.retryAt ≤ s.clock → p.unacked ≠ [] →
        go (.llynadPathRetry peer l r) (s.resendPath { p with retryAt := s.clock + 10000000 } (fun _ => true)))

/-- R403 to R410, R415, R416: the steps of a collective program, a trigger's action, and the instants of a timed barrier. A program
that its header has ended, and a step word that may not be read or breaks the rules, end the program. How a header and a step word are
translated and read (assumptions 15, 44), that `END` waits until nothing is left to send (44), that a trigger's copy is made whole at its
end (45), and the handling of a barrier's messages at their instants (46) are the model's choices. -/
def Obligations.CollectivesAndGenlock : Prop :=
  ∀ (s : State) (k x slot g pa f : Nat) (pr : CProg) (i : Instr) (b : List Byte),
    let go (i : Instr) (t : State) : Prop := exec i s = .next t
    let w := s.peek pa 8
    let st := CStep.ofWord w
    let me := (s.group pr.group).myIdx
    let at_ (op : Nat) : Prop := s.prog? k = some pr ∧ pr.ending = none ∧ s.tablePa pr.ctx (pr.steps.toNat + 8 * pr.pc) pteR = some pa
      ∧ stepWordOk w me (s.groupSize pr) pr.nsteps pr.ty = true ∧ bitsOf w 60 4 = op
    let aStep : Prop := i = .collSend k ∨ i = .collRecv k ∨ i = .collRrs k ∨ i = .collCopy k ∨ i = .collWait k ∨ i = .collLoop k
      ∨ i = .collSig k ∨ i = .collEnd k
    let due (p : Genlock → Bool) : List Genlock := (s.group g).tbars.filter p
    (aStep → s.prog? k = none → go i s)
    ∧ (∀ code, aStep → s.prog? k = some pr → pr.ending = some code → go i (s.endProg k code true))
    ∧ (aStep → s.prog? k = some pr → pr.ending = none → s.tablePa pr.ctx (pr.steps.toNat + 8 * pr.pc) pteR = none → go i (s.endProg k psPage true))
    ∧ (aStep → s.prog? k = some pr → pr.ending = none → s.tablePa pr.ctx (pr.steps.toNat + 8 * pr.pc) pteR = some pa →
        stepWordOk w me (s.groupSize pr) pr.nsteps pr.ty = false → go i (s.endProg k psBadProg true))
    ∧ (∀ bs s1, at_ 1 → s.readChunk pr (pr.chunk me st st.a) pr.csize = some (bs, s1) →
        go (.collSend k) (((s1.capture k (s1.peerRank pr st.pm st.poff) bs).advance k).pump k))
    ∧ (at_ 2 → go (.collRecv k) (s.receiveStep k (s.peerRank pr st.pm st.poff) none (pr.chunk me st st.b) (fun _ z _ bs => some (bs, z))
        (pr.csize / 256 + 2)))
    ∧ (at_ 3 → go (.collRrs k) (s.receiveStep k (s.peerRank pr st.pm st.poff) (some (s.peerRank pr st.qm st.qoff)) (pr.chunk me st st.b)
        (fun q z off bs => (z.readChunk q (pr.chunk me st st.a + off) bs.length).map (fun r => (reduceBytes q.ty q.rop r.1 bs, r.2)))
        (pr.csize / 256 + 2)))
    ∧ (∀ bs s1 s2, at_ 4 → s.readChunk pr (pr.chunk me st st.a) pr.csize = some (bs, s1) → s1.writeChunk pr (pr.chunk me st st.b) bs = some s2 →
        go (.collCopy k) (s2.advance k))
    ∧ (at_ 5 → s.allAcked pr = true → go (.collWait k) (s.advance k))
    ∧ (at_ 6 → pr.loops.getD (bitsOf w 26 2) 0 + 1 < bitsOf w 12 12 →
        go (.collLoop k) ((s.setProg k (some { pr with
          loops := pr.loops.set (bitsOf w 26 2) (pr.loops.getD (bitsOf w 26 2) 0 + 1), pc := bitsOf w 0 12 })).fetchStep k))
    ∧ (at_ 6 → bitsOf w 12 12 ≤ pr.loops.getD (bitsOf w 26 2) 0 + 1 →
        go (.collLoop k) ((s.setProg k (some { pr with loops := pr.loops.set (bitsOf w 26 2) 0 })).advance k))
    ∧ (at_ 7 → s.peerRank pr st.pm st.poff = s.lly.rank → go (.collSig k) ((s.addTc pr.ctx (w % 8) 1).advance k))
    ∧ (at_ 0 → pr.out = [] → go (.collEnd k) (s.endProg k psDone true))
    ∧ (((s.ctx x).trigs.getD slot .fresh).actions.find? (fun a => !s.actionRuns x slot a.1) = some (f, b) →
        (leAt b 0 4 % 4 = 1 → go (.triggerActionEnd x slot) (s.runTriggerCopy x slot f b))
        ∧ (leAt b 0 4 % 4 ≠ 1 → go (.triggerActionEnd x slot) ((s.startProg x (leAt b 8 8) none (some (slot, f))).getD s)))
    ∧ (∀ t, due (fun b => !b.arrived && !b.decided && (s.session b.session).claimed b.frame && ((s.session b.session).slot b.frame).state = 2) = [t] →
        let z := s.modTbar g (fun y => y.owner = t.owner) (fun y => { y with arrived := true })
        ((s.group g).leader ≠ s.lly.rank →
          go (.genlockArrive g) (z.sendLly (s.group g).leader kARRIVE (z.genlockHeader (s.group g).leader g t.target) []))
        ∧ ((s.group g).leader = s.lly.rank → z.clock.toNat ≤ (z.group g).commitAt t.target →
          go (.genlockArrive g) (z.modGroup g (fun x => { x with arrives := x.arrives ++ [(s.lly.rank, t.target)] }))))
    ∧ (∀ t, s.leads g = true → due (fun b => !b.instant && decide ((s.group g).commitAt b.target ≤ s.clock.toNat)) = [t] →
        go (.genlockCommitInstant g) ((s.modTbar g (fun y => y.owner = t.owner) (fun y => { y with instant := true })).commitTo g t.target))
    ∧ (∀ t, due (fun b => !b.decided && decide ((s.group g).decideAt b.target ≤ s.clock.toNat)) = [t] → go (.genlockDecision g) (s.decideTbar g t))
    ∧ (∀ t, s.leads g = true → due (fun b => b.decided && !b.checked && decide (b.target ≤ s.clock)) = [t] → t.target ∉ (s.group g).commits →
        go (.genlockCackCheck g) (s.modTbar g (fun y => y.owner = t.owner) (fun y => { y with checked := true })))

/-- R443 to R449, R460, R464, R465: bring-up from RESET to RUN, the patch, and every way back to RESET. A register written in a state
that does not accept it sets REJ. In ROMINIT the identity keys are derived; before the servo has locked TIMEGO leaves OFFSET 0. When the
device vector is raised (assumption 88), what a reset keeps (48) and what TIMEGO does to a clock already set (38) are the model's
choices. -/
def Obligations.BringUp : Prop :=
  ∀ (s : State) (cores : DWord) (chans : BitVec 16) (ports : BitVec 4),
    let go (i : Instr) (t : State) : Prop := exec i s = .next t
    let d := s.dev
    let patch := Patch.ofMemory d.staging
    let code := patch.status d.staging d.fuses
    let refused := s.modDev (fun d => { d with rej := true })
    let lost : State := { State.boot d.fuses with
      mem := s.mem.filter (fun c => decide (hostBase ≤ c.1)), agenda := s.agenda, out := s.out, hostRd := s.hostRd }
    let trained := s.modDev (fun d => { d with linkUp := true })
    let cap := d.capChan &&& ~~~d.softChan &&& ~~~chans
    let cleared : State := { s with mem := s.mem.filter (fun c => decide (hostBase ≤ c.1)), owners := [], ue := [], lastCtx := [] }
    let sized := cleared.modDev (fun d => { d with capChan := cap, memSize := BitVec.ofNat 64 (memSizeOf (maskList 16 cap.toNat).length) })
    let up := d.capPort &&& ~~~d.softPort &&& ~~~ports
    let linked := ({ s with ports := s.ports.mapIdx (fun p x => x.bringUp (up.getLsbD p)) } : State).modDev (fun d => { d with capPort := up })
    let quiet (p : Ptp) : Ptp := { p with offset := if p.lock then p.offset else 0, hushed := !p.lock }
    (d.power = false → go .powerGood lost) ∧ (d.power = true → go .functionLevelReset lost ∧ go .moduleResetPin lost)
    ∧ go .powerDown (lost.modDev (fun d => { d with power := false }))
    ∧ (d.power = true → d.stage = 0 → go .resetStateDone (s.setStage 1))
    ∧ (∀ n, (s.setStage n).dev.stage = n ∧ (s.setStage n).out = (if 2 ≤ n then s.out ++ [.msix 64] else s.out))
    ∧ (d.power = true → d.stage = 1 → d.romDone = false → d.linkUp = true →
        go .hostLinkTrained trained ∧ go (.rominitDone cores) (({ s with
          cores := s.cores.mapIdx (fun k c => { c with enabled := (d.capCore &&& ~~~cores).getLsbD k })
          ports := s.ports.mapIdx (fun p x => { x with enabled := d.capPort.getLsbD p })
          dev := { d.deriveKeys with romDone := true, capCore := d.capCore &&& ~~~cores } } : State).setStage 2))
    ∧ (d.stage = 2 → d.verify = false → go .patchgo (s.modDev (fun d => { d with verify := true })))
    ∧ (d.stage ≠ 2 ∨ d.verify = true → go .patchgo refused ∧ go .nopatch refused)
    ∧ (d.stage = 2 → d.verify = true → go .patchVerifyDone (if code = 15 then s.leavePatch 15 (some patch)
        else (s.leavePatch code none).deviceError 5 0 false))
    ∧ s.leavePatch code (some patch) = (s.modDev (fun d => d.leavePatch code (some patch))).setStage 3
    ∧ (d.stage = 2 → d.verify = false → go .nopatch (s.leavePatch 0 none))
    ∧ (d.stage = 3 → go (.memtrainDone chans) ((maskList 16 (d.capChan &&& ~~~d.softChan &&& chans).toNat).foldl
        (fun st c => st.deviceError 6 c false) ((sized.modDev Device.remeasure).setStage 4)))
    ∧ (d.stage = 4 → go (.portsUp ports) ((maskList 4 (d.capPort &&& ~~~d.softPort &&& ports).toNat).foldl
        (fun st p => st.deviceError 6 p false) ((linked.modDev Device.remeasure).setStage 5)))
    ∧ (d.stage = 5 → s.ptp.stepped = false →
        go .timego (({ s with clock := d.timeSet, ptp := quiet { s.ptp with stepped := true } } : State).setStage 6))
    ∧ (d.stage = 5 → s.ptp.stepped = true → go .timego (({ s with ptp := quiet s.ptp } : State).setStage 6))
    ∧ (d.stage ≠ 5 → go .timego refused)

/-- R434 to R436, R449 to R463: the device's own registers and errors: attestation, the version fuses, retirement, the row repairs,
snapshots, throttling, and the errors that end a context or the device. A failing row's dirty lines with an uncorrectable error are
dropped, and the row is replaced or disabled. What memory keeps of a dropped line, which lines a row holds and which are dirty (assumption
22), a mark for retirement (47), a snapshot's areas (53) and the layouts of attestation (12) are the model's choices. -/
def Obligations.DeviceEvents : Prop :=
  ∀ (s : State) (core slice row pa off : Nat) (v : DWord) (chans power : BitVec 16) (ports : BitVec 4) (temp : BitVec 8),
    let go (i : Instr) (t : State) : Prop := exec i s = .next t
    let d := s.dev
    let page := v.toNat / 2 ^ 14
    let line := pa / 128
    let lost := (s.rowLines slice row).filter (fun l => Config.hearthDirty l s.clock)
    let repaired := lost.foldl (fun st l => st.dropWriteback (128 * l)) s
    let used := (smapGet repaired.dev.spares slice).getD 0
    let place := slice + 128 * row
    let fails : Prop := slice < 128 ∧ row < hearthRows ∧ place ∉ d.rowsDead
      ∧ (4 ≤ (smapGet d.rowCe place).getD 0 ∨ ∃ l ∈ s.rowLines slice row, s.bad (128 * l) 128 = true)
    let cand := pa / 2 ^ 14
    let burnt : Device := { d with burning := false, fuses := { d.fuses with minSvn := max d.fuses.minSvn d.svn } }
    let old := (List.range 128).map (fun i => Config.olderByte s.clock (line * 128 + i))
    let failed (cause addr : Nat) : State := ((List.range 64).foldl (fun st x => (st.recordError x (.plain 17 true 0 0)).contextReset x)
      (s.deviceError cause addr true)).modDev (fun d => { d with stage := 7 })
    let throttled (n : Nat) : Prop :=
      go (.throttleTick power temp) (s.modDev (fun d => { d with pwr := power, temp := temp, thr := n }))
    (d.stage = 6 → d.romOnly = false → d.burning = false → go .svnburn (s.modDev (fun d => { d with burning := true })))
    ∧ (d.burning = true → go .svnBurnDone (s.modDev (fun _ => { burnt with meas := burnt.meas.set 2 burnt.measure2 })))
    ∧ (d.attBusy = false → 3 ≤ d.stage → go .attgo (s.modDev (fun d => { d with attBusy := true, nonce := d.attBuf.readBytes 0x3F00 32 })))
    ∧ (d.attBusy = true ∨ d.stage < 3 → go .attgo (s.modDev (fun d => { d with attRej := true })))
    ∧ (d.attBusy = true → go .attestationDone (s.modDev (fun d => { d with attBusy := false, attBuf := Memory.writeBytes d.attBuf 0 s.report })))
    ∧ (6 ≤ d.stage → go (.softcoreWrite v) (s.modDev (fun d => { d with softCore := v, leaving := d.leaving ||| v })))
    ∧ (s.retiring core = true → (s.core core).enabled = true → s.residentOn core = [] → 6 ≤ d.stage →
        go (.coreRetirementDone core) (((s.disableCore core).modDev Device.remeasure).deviceError 3 core false))
    ∧ (d.stage ≤ 2 → go (.softchanWrite chans) (s.modDev (fun d => { d with softChan := chans })))
    ∧ (d.stage ≤ 2 → go (.softportWrite ports) (s.modDev (fun d => { d with softPort := ports })))
    ∧ (2 < d.stage → go (.softchanWrite chans) (s.modDev (fun d => { d with rej := true })) ∧ go (.softportWrite ports) (s.modDev (fun d => { d with rej := true })))
    ∧ go .rcandRead (({ s with hostRd := leBytes 8 (d.rcand.headD 0).toNat } : State).modDev (fun d => { d with rcand := d.rcand.tail }))
    ∧ (v.getLsbD 0 = true → page ∉ d.retired → d.retired.length < 512 → go (.retwWrite v) (s.modDev (fun d => { d with retired := d.retired ++ [page] })))
    ∧ (v.getLsbD 0 = false → go (.retwWrite v) (s.modDev (fun d => { d with retired := d.retired.filter (fun p => p ≠ page) })))
    ∧ (v.getLsbD 0 = true → page ∉ d.retired → 512 ≤ d.retired.length → go (.retwWrite v) (s.modDev (fun d => { d with rcOver := d.rcOver ||| 2 })))
    ∧ (pa < 2 ^ 46 → cand ∉ d.retired → (∀ c ∈ d.rcand, c.toNat / 2 ^ 14 ≠ cand) →
        (64 ≤ d.rcand.length → s.uncorrectable pa = s.modDev (fun d => { d with rcOver := d.rcOver ||| 1 }))
        ∧ (d.rcand.length < 64 → s.uncorrectable pa =
            (s.modDev (fun d => { d with rcand := d.rcand ++ [BitVec.ofNat 64 (cand * 2 ^ 14 + 3)] })).emit (.msix 64)))
    ∧ (¬fails → go (.hearthRowRepair slice row) s)
    ∧ (fails → used < 8 → go (.hearthRowRepair slice row) (repaired.modDev (fun d => { d with
        rowCe := smapErase d.rowCe place, rowsFixed := (d.rowsFixed + 1) % 2 ^ 16, spares := smapSet d.spares slice (used + 1) })))
    ∧ (fails → 8 ≤ used → go (.hearthRowRepair slice row) (repaired.modDev (fun d => { d with
        rowCe := smapErase d.rowCe place, rowsOff := (d.rowsOff + 1) % 2 ^ 16, rowsDead := d.rowsDead ++ [place] })))
    ∧ (pa < 2 ^ 46 → s.bad (line * 128) 128 = true →
        let kept : State := { s with mem := Memory.writeBytes s.mem (line * 128) old, ue := s.ue.filter (fun g => g / 4 ≠ line) }
        (∀ x, smapGet s.lastCtx line = some x → go (.uncorrectableWriteback pa) (kept.fatalEvent x (.plain 17 true 0 pa)))
        ∧ (smapGet s.lastCtx line = none → go (.uncorrectableWriteback pa) (kept.deviceError 1 pa false)))
    ∧ (core < 64 → go (.coreParityError core) (((s.contextsOn core).foldl (fun st x => st.fatalEvent x { ErrInfo.plain 17 true 0 0 with core := core }) s).modDev
        (fun d => { d with leaving := d.leaving ||| BitVec.ofNat 64 (2 ^ core) })))
    ∧ (d.power = true → go (.deviceParityError v) (failed 2 v.toNat))
    ∧ (105 ≤ d.temp.toNat → go .thermalTrip (failed 4 0))
    ∧ go .snapshotRearm (s.modDev (fun d => { d with snap := { d.snap with latched := false } }))
    ∧ (s.reached d.snap.time = true → go .snapshotTimeTrigger (s.snapTrigger 2 (0, 0, 0))) ∧ go .snapshotPinTrigger (s.snapTrigger 1 (0, 0, 0))
    ∧ go .triggerOutputPulseEnd (s.modDev (fun d => { d with snap := { d.snap with pulse := false } }))
    ∧ (temp.toNat < 95 → power ≤ d.pwrLim → throttled (d.thr - 1))
    ∧ (d.pwrLim < power ∨ (95 ≤ temp.toNat ∧ d.thr < 32) → throttled (min 48 (d.thr + 1)))
    ∧ (power ≤ d.pwrLim → 95 ≤ temp.toNat → 32 ≤ d.thr → throttled (max 32 (d.thr - 1)))
    ∧ (d.linkUp = true → off % 4 = 0 → (off < 0x20000 ∨ 0x30000 ≤ off) →
        go (.registerWrite off 4 v) (s.writeHalf off (BitVec.truncate 32 v)))
    ∧ (d.linkUp = true → off % 4 = 0 → 0x20000 ≤ off → off < 0x30000 →
        go (.registerWrite off 4 v) (s.modDev (fun d => d.writeStaging (off - 0x20000) (leBytes 4 v.toNat))))

/-! ### The encoding, the step, reset, traps and memory -/

/-- R71, R73, R74: the word of every well-formed instruction decodes to that instruction, with every operand at every value. -/
def Obligations.WordsRoundTrip : Prop :=
  ∀ (i : Instr) (w : Nat), i.wellFormed = true → encodeNat i = some w → w < 2 ^ 32 ∧ decodeWord w = some i ∧ decode (encodeBytes i) = .ok i

/-- R69, R71, R73, R74: words written out from the encoding tables are read as the instructions they stand for, the first byte of a
word being its low byte; and the zero word, the word of ones, class 0xF and a blank cell of the opcode map are refused. -/
def Obligations.SampleWords : Prop :=
  decode [0x00, 0x40, 0x40, 0x61] = .ok (.ldB32 16 4 0 0) ∧ decode [0x40, 0x80, 0x0C, 0xE5] = .ok (.rep 3 1 0 0 1)
    ∧ decode [0x10, 0xA3, 0x38, 0x01] = .ok (.add 14 10 12 2 0) ∧ decode [0x00, 0x80, 0x30, 0x49] = .ok (.xred 12 8 0 0)
    ∧ decode [0xC8, 0xFF, 0xFF, 0x51] = .ok (.bra 0x1FFFF9 0) ∧ decode [0xC0, 0x83, 0x38, 0x71] = .ok (.atom 14 8 15 0 0)
    ∧ decode [0x8F, 0xA3, 0x30, 0x81] = .ok (.cp 12 10 14 15) ∧ decode [0x00, 0x10, 0x00, 0x98] = .ok (.mma 0 1 0 0 0)
    ∧ decode [0x80, 0x81, 0x40, 0xA1] = .ok (.hgf 16 8 6 0 0) ∧ decode [0x18, 0x20, 0x20, 0xB1] = .ok (.srd 8 0 2 0 3 0)
    ∧ decode [0x08, 0xA0, 0x04, 0xC1] = .ok (.launchTail 1 10 0) ∧ decode [0x2A, 0x00, 0x00, 0xD7] = .ok (.trap 0x2A)
    ∧ decode [0, 0, 0, 0] = .error (.unassignedOpcode 0) ∧ decode [0xFF, 0xFF, 0xFF, 0xFF] = .error (.unassignedOpcode 0xFF)
    ∧ (∀ w, 0xF0000000 ≤ w → w < 2 ^ 32 → decodeWord w = none) ∧ (∀ w, w < 0x01000000 → decodeWord w = none)
    ∧ decode [0, 0, 0] = .error .truncated

/-- R69, R70, R71: a strand that may issue, whose translation of its program counter is known, executable and resident, runs the
instruction that the four bytes there decode to, in the machine in which it is the one that issues; the move of the agenda that
lets it issue comes to the same. The four bytes are those of the launch's line in the core's instruction cache, which a strand about to
issue fetches from memory where it is not there; without a line they are memory's. Bytes that decode to nothing trap ILLEGAL (R74), a tile
move's in its lowest acting lane (R244). Which strand issues, and the cycle that passes then, and that a fetch fills a whole line, are the
model's choices (assumptions 1 and 74). -/
def Obligations.StepRunsDecoded : Prop :=
  ∀ (s : State) (c n : Nat) (rest : List Move) (e : Env) (tr : Trans) (i : Instr),
    let pc := e.t.fetchPc.toNat
    let pa := tr.pa pc
    let silent : Prop := s.agenda = [] ∧ s.arrange.pick = some (c, n)
    let line := (e.s.core e.c.core).iline? e.c.seq pa
    let fetched : List Byte := match line with
      | some x => (x.bytes.drop (pa % 128)).take 4
      | none => e.s.peekBytes pa 4
    let at_ (z : State) : Prop := z.canIssue c n = true ∧ (z.select c n).issuer = some e ∧ e.deferredDue = false ∧ e.c.walker = false ∧ lookupTrans (e.s.core e.c.core) e.t.answers none e.c.ctx pc = .found tr
      ∧ pteX tr.entry = true ∧ pteP tr.entry = true ∧ (line = none → e.s.bad pa 4 = false) ∧ e.t.unit.rep = none
      ∧ fetched.length = 4
    let z : State := s.arrange.cycleFor c n
    let r := unassigned (leNat fetched)
    let y : State := ({ s with agenda := rest } : State).arrange
    (silent → at_ z → decode fetched = .ok i → step s = exec i (z.select c n))
    ∧ (s.agenda = .issue c n :: rest → at_ y → decode fetched = .ok i → step s = exec i (y.select c n))
    ∧ (silent → at_ z → (∀ j, decode fetched ≠ .ok j) → r.guardPending e.t = false →
        step s = .next (e.takeTrap (.plain cILLEGAL (r.illegalMask e.t)) false none))
    ∧ (∀ t, r.illegalMask t = if r.bitM = true ∧ r.mask t ≠ 0 then laneBit (lowLane (r.mask t)) else t.group)
    ∧ (r.bitM = true ↔ leNat fetched / 2 ^ 24 = 0x94 ∨ leNat fetched / 2 ^ 24 = 0x95 ∨ leNat fetched / 2 ^ 24 = 0x97)
    ∧ (e.codePa = some pa → line = none → e.s.bad (pa / 128 * 128) 128 = false → e.c.core < e.s.cores.length →
        (e.fillCode.s.core e.c.core).iline? e.c.seq pa =
          some { seq := e.c.seq, line := pa / 128, bytes := e.s.peekBytes (pa / 128 * 128) 128 })

/-- R74, R426, R461: the machine never stops: from every state one step gives a next state. That a machine with nothing to do stays as
it is, is the model's choice (assumption 1). -/
def Obligations.StepAlwaysGoesOn : Prop := ∀ s : State, ∃ t : State, step s = .next t

/-- R424, R443, R464, R465: what reset leaves, where the manual gives a value; that its memory is in
canonical form, and reads 0 where nothing has written, is the model's choice for the host's and the peers' memory (assumption 3). -/
def Obligations.ResetState : Prop :=
  let s := State.reset
  s.dev.stage = 0 ∧ s.dev.memSize = 0 ∧ s.dev.softCore = 0 ∧ s.dev.softPort = 0 ∧ s.dev.softChan = 0 ∧ s.dev.rej = false
    ∧ s.dev.timeSet = 0 ∧ s.dev.svn = 0 ∧ s.dev.pstat = 0 ∧ s.dev.romOnly = false ∧ s.dev.retired = [] ∧ s.dev.rcand = []
    ∧ s.dev.pwords = [] ∧ s.clock = 0 ∧ s.crews = [] ∧ s.launches = [] ∧ s.cores.length = 64 ∧ s.queues.length = 1024 ∧ s.ctxs.length = 64
    ∧ (∀ x, x < 64 → (s.ctx x).trapPc = 0 ∧ (s.ctx x).frozen = false ∧ (s.ctx x).slots = 0 ∧ (s.ctx x).assist = 0)
    ∧ (∀ q, q < 1024 → (s.queue q).widx = 0 ∧ (s.queue q).ridx = 0 ∧ (s.queue q).en = false)
    ∧ s.Canonical ∧ s.mem.wf = true ∧ ∀ a, Memory.readByte s.mem a = 0

/-- R68, R72, R74, R187, R294: what stands before every instruction word's own effect. One whose guard an operation in flight will write
waits for it. A word that is not well-formed, or that breaks a check of the machine, traps ILLEGAL, in the current group or for a tile
move in its lowest acting lane; one whose operands a result in flight will change holds; one whose source register has an uncorrectable
error traps ECC_UE; and with no strand that issues a word has no meaning. The order of these checks, and that last fault, are the model's
reading (assumption 72). -/
def Obligations.IssueChecks : Prop :=
  ∀ (s : State) (e : Env) (i : Instr),
    let r := reqOf i
    let g := r.guardReady e
    let waited := r.ready g
    (isWord i = true → s.issuer = none → exec i s = .fault .noStrand)
    ∧ (isWord i = true → i.wellFormed = false → s.issuer = some e → r.guardPending g.t = false →
        exec i s = .next (g.takeTrap (.plain cILLEGAL (r.illegalMask g.t)) false none))
    ∧ (isWord i = true → isPrefix i = false → s.issuer = some e → r.guardPending g.t = true → exec i s = .next g.commit)
    ∧ (isWord i = true → isPrefix i = false → s.issuer = some e → r.guardPending g.t = false →
        (r.illegal g = true → exec i s = .next (g.takeTrap (.plain cILLEGAL (r.illegalMask g.t)) false none))
        ∧ (r.illegal g = false → r.idle g = false → r.blocked waited.t = true → exec i s = .next waited.commit)
        ∧ (r.illegal g = false → r.idle g = false → r.blocked waited.t = false → r.sourceBad waited.t = true →
            exec i s = .next ((waited.via (fun z => z.consumeUe g.c.ctx (2 ^ 90))).takeTrap (.plain cECC g.t.group) false none)))
    ∧ (r.bitM = false → ∀ t, r.illegalMask t = t.group)

/-- R424 to R426, R437, R438, R80: taking a trap. A handled one completes the strand's memory operations, interrupts its open
transactions, writes the trap record, and gives the threads of its group TRAPPC; they are the handler group; on PERM and ALIGN the queries
that have not ended stand still. An unhandled one is a
fatal event of the context, with what the error record holds. What ctl.repleft is before any iteration has issued (assumption 73), and that
stopped queries of a PERM or ALIGN trap's lanes end (67), are the model's choices. -/
def Obligations.TakingATrap : Prop :=
  ∀ (e : Env) (ti : TrapInfo) (part : Bool) (src : Option VAddr),
    let p := (e.s.ctx e.c.ctx).trapPc.toNat
    let handled : Prop := p ≠ 0 ∧ p % 4 = 0 ∧ p < 2 ^ 57 ∧ p / 2 ^ 32 = e.c.entryPc.toNat / 2 ^ 32 ∧ e.t.inHandler = false
    let given := e.t.giveUp src.isSome
    let e1 := (e.on given).drainMem
    let t := e1.t.interruptTx.abortQueries ti.cause ti.mask
    (e.c.walker = false → handled → ∃ u, e.takeTrap ti part src = (e1.on u).commit
      ∧ u = { t with threads := u.threads, trap := u.trap, handler := t.group, qstill := if ti.cause % 16 = cPERM ∨ ti.cause % 16 = cALIGN then t.live else 0 }
      ∧ u.trap = { code := ti.code, defer := src.isSome, inh := true, part := part, next := decide (ti.cause = cTRAP), cause := BitVec.ofNat 4 ti.cause,
                   va := BitVec.ofNat 57 ti.va, mask := ti.mask, pc := e.t.unitPc, src := (match src with | some a => BitVec.truncate 32 a | none => 0) }
      ∧ ∀ l, l < 8 → u.thread l = if laneOn t.group l then { t.thread l with pc := BitVec.ofNat 57 p } else t.thread l)
    ∧ (e.c.walker = false → ¬ handled → e.takeTrap ti part src = ((e.on given).commit).fatalEvent e.c.ctx
        { cause := ti.cause, fatal := true, nested := e.t.inHandler, lanes := ti.mask, strand := e.t.num, core := e.c.core, seq := e.c.seq,
          addr := ti.va, pc := e.t.unitPc.toNat, code := ti.code })
    ∧ given.repleft = (match e.t.unit.rep, e.t.repHeld with
        | some r, _ => BitVec.ofNat 32 (r.n - r.iter)
        | none, some (i, n) => BitVec.ofNat 32 (n - i)
        | none, none => e.t.repleft)
    ∧ (∀ l, l < 8 → (e1.t.interruptTx.thread l).tx.active = false)

/-- R176, R178, R179, R455: a write at a home slice. It changes exactly the bytes it stores, keeps the canonical form of memory, and
is dropped whole where there is no memory. Afterwards the writing core owns the words, or no core does after a write by anything
else. -/
def Obligations.HomeWrites : Prop :=
  ∀ (s : State) (w : Writer) (ctx : Option Nat) (pa a : Nat) (bs : List Byte),
    let t := s.homeWrite w ctx pa bs
    (s.mem.wf = true → t.mem.wf = true)
    ∧ (s.hasMemory pa = false → t.mem = s.mem)
    ∧ (s.mem.wf = true → s.hasMemory pa = true → pa ≤ a → a < pa + bs.length → Memory.readByte t.mem a = bs.getD (a - pa) 0)
    ∧ (s.mem.wf = true → a < pa ∨ pa + bs.length ≤ a → Memory.readByte t.mem a = Memory.readByte s.mem a)
    ∧ (s.hasMemory pa = true → bs ≠ [] → ∀ x ∈ wordsOf pa bs.length, smapGet t.owners x = (match w with | .core k => some k | _ => none))
    ∧ (s.hasMemory pa = true → ∀ g, pa ≤ g * 32 → g * 32 + 32 ≤ pa + bs.length → g ∉ t.ue)
end

