-- ==== Sys2Proof/Laws/Lanes.lean ====
section
/-! SUPPORT. Lanes, registers and threads: what reading one gives after each of the named updates. -/

namespace Sys2Proof

@[simp] theorem L8.get_ofFn {α : Type} (f : Nat → α) (l : Nat) (h : l < 8) : (L8.ofFn f).get l = f l := by
  iterate 8 (rcases l with _ | l; rfl)
  omega

@[simp] theorem L8.get_mapi {α β : Type} (x : L8 α) (f : Nat → α → β) (l : Nat) (h : l < 8) :
    (x.mapi f).get l = f l (x.get l) := L8.get_ofFn _ l h

@[simp] theorem L8.get_all {α : Type} (x : α) (l : Nat) (h : l < 8) : (L8.all x).get l = x := L8.get_ofFn _ l h

/-- Two eight-lane values with equal lanes are equal. -/
theorem L8.ext_get {α : Type} {x y : L8 α} (h : ∀ l, l < 8 → x.get l = y.get l) : x = y := by
  have whole (z : L8 α) : z = L8.ofFn z.get := rfl
  rw [whole x, whole y]
  unfold L8.ofFn
  congr 1 <;> exact h _ (by decide)

namespace Machine

@[simp] theorem laneOn_zero (l : Nat) : laneOn 0 l = false := by simp [laneOn]

@[simp] theorem lanesOf_zero : lanesOf 0 = [] := by decide

/-- Bit l of a mask made from a predicate. -/
@[simp] theorem laneOn_maskOf (p : Nat → Bool) (l : Nat) (h : l < 8) : laneOn (maskOf p) l = p l := by
  have key : ∀ a b c d e f g i : Bool, ∀ l, l < 8 → laneOn (BitVec.ofNat 8
      (([(0, a), (1, b), (2, c), (3, d), (4, e), (5, f), (6, g), (7, i)] : List (Nat × Bool)).foldl
        (fun s x => if x.2 then s + 2 ^ x.1 else s) 0)) l
      = (([a, b, c, d, e, f, g, i] : List Bool).getD l false) := by decide
  have := key (p 0) (p 1) (p 2) (p 3) (p 4) (p 5) (p 6) (p 7) l h
  iterate 8 (rcases l with _ | l; exact this)
  omega

/-- Masks with equal lanes are equal. -/
theorem mask_ext {a b : Mask} (h : ∀ l, l < 8 → laneOn a l = laneOn b l) : a = b := by
  apply BitVec.eq_of_getLsbD_eq
  intro i hi
  exact h i hi

theorem maskOf_eq_zero (p : Nat → Bool) : maskOf p = 0 ↔ (List.range 8).any p = false := by
  constructor
  · intro h
    rw [List.any_eq_false]
    intro l hl
    have hl := List.mem_range.mp hl
    rw [← laneOn_maskOf p l hl, h, laneOn_zero]
    exact Bool.false_ne_true
  · intro h
    apply mask_ext
    intro l hl
    rw [List.any_eq_false] at h
    rw [laneOn_maskOf p l hl, laneOn_zero]
    simpa using h l (List.mem_range.mpr hl)

/-! ### Registers -/

theorem Strand.reg_setReg (t : Strand) (d v : Nat) (r : Reg) (h : d < t.regs.length) :
    (t.setReg d r).reg v = if v = d then r else t.reg v := by
  simp only [Strand.reg, Strand.setReg, List.getD_eq_getElem?_getD]
  by_cases hv : v = d
  · subst hv; simp [h]
  · simp [hv, List.getElem?_set_ne (Ne.symm hv)]

@[simp] theorem Strand.setReg_length (t : Strand) (d : Nat) (r : Reg) : (t.setReg d r).regs.length = t.regs.length := by
  simp [Strand.setReg]

/-! ### Threads -/

@[simp] theorem Strand.thread_modThreads (t : Strand) (m : Mask) (f : Nat → Thread → Thread) (l : Nat) (h : l < 8) :
    (t.modThreads m f).thread l = if laneOn m l then f l (t.thread l) else t.thread l := by
  simp [Strand.modThreads, Strand.thread, h]

@[simp] theorem Strand.thread_modThread (t : Strand) (k : Nat) (f : Thread → Thread) (l : Nat) (h : l < 8) :
    (t.modThread k f).thread l = if l = k then f (t.thread l) else t.thread l := by
  simp [Strand.modThread, Strand.thread, h]

end Machine
end Sys2Proof
end

