-- ==== Sys2Proof/Laws/Unit.lean ====
section
/-! SUPPORT. What the end of an issue unit can do to a strand: parking, release and selection touch thread states and the
current group, closing touches the unit, and advancing touches program counters. And what putting a strand back gives. -/

namespace Sys2Proof.Machine

theorem Restated.refl (x : Thread) : Restated x x := ⟨rfl, .inl rfl⟩

/-- A strand whose threads have at most parked or been released, and whose current group may be another. -/
def Settled (t u : Strand) : Prop :=
  u = { t with threads := u.threads, group := u.group, lastLow := u.lastLow, timer := u.timer }
    ∧ ∀ l, l < 8 → ∃ y, Restated (t.thread l) y ∧ Restated y (u.thread l)

theorem Strand.parkLanes_frame (t : Strand) (m : Mask) : t.parkLanes m = { t with threads := (t.parkLanes m).threads } := by
  unfold Strand.parkLanes
  split <;> rfl

theorem Strand.parkLanes_thread (t : Strand) (m : Mask) (l : Nat) (h : l < 8) : Restated (t.thread l) ((t.parkLanes m).thread l) := by
  unfold Strand.parkLanes
  split
  · exact .refl _
  · rw [Strand.thread_modThreads _ _ _ _ h]
    split
    · split
      · rename_i hc
        simp only [Bool.and_eq_true, decide_eq_true_eq] at hc
        exact ⟨rfl, .inr (.inl ⟨hc.1.1, rfl⟩)⟩
      · exact .refl _
    · exact .refl _

theorem Strand.releaseMet_frame (t : Strand) : t.releaseMet = { t with threads := t.releaseMet.threads } := by
  unfold Strand.releaseMet
  split <;> rfl

theorem Strand.releaseMet_thread (t : Strand) (l : Nat) (h : l < 8) : Restated (t.thread l) (t.releaseMet.thread l) := by
  unfold Strand.releaseMet
  split
  · exact .refl _
  · simp only [Strand.thread, L8.get_mapi _ _ _ h]
    split
    · rename_i hc
      simp only [Bool.and_eq_true, Thread.isParked, decide_eq_true_eq] at hc
      exact ⟨rfl, .inr (.inr ⟨hc.1, rfl⟩)⟩
    · exact .refl _

theorem Strand.selectNext_frame (t : Strand) :
    t.selectNext = { t with group := t.selectNext.group, lastLow := t.selectNext.lastLow, timer := 0 } := rfl

theorem Strand.afterUnit_frame (t : Strand) (old kept : Mask) :
    t.afterUnit old kept = { t with group := (t.afterUnit old kept).group, lastLow := (t.afterUnit old kept).lastLow,
                                    timer := (t.afterUnit old kept).timer } := by
  unfold Strand.afterUnit
  dsimp only
  split <;> rfl

/-- Parking, release and selection at the end of a unit. -/
theorem Strand.settle_settled (t : Strand) (old : Mask) : Settled t (t.settle old) := by
  unfold Strand.settle
  dsimp only
  constructor
  · rw [Strand.afterUnit_frame, Strand.releaseMet_frame, Strand.parkLanes_frame]
  · intro l h
    refine ⟨_, t.parkLanes_thread old l h, ?_⟩
    have e : ((t.parkLanes old).releaseMet.afterUnit old (maskOf fun l => laneOn old l && ((t.parkLanes old).thread l).isRunning)).thread l
        = (t.parkLanes old).releaseMet.thread l := by rw [Strand.afterUnit_frame]; rfl
    rw [e]
    exact Strand.releaseMet_thread _ l h

/-- The end of a unit without a yield and without another iteration. -/
theorem Env.endUnit_other (e : Env) (moved : Bool) : (e.endUnit moved).s = e.s ∧ (e.endUnit moved).c = e.c := by
  unfold Env.endUnit Env.yieldAfter Env.yieldGroup
  dsimp only
  repeat' split
  all_goals exact ⟨rfl, rfl⟩

/-- What the end of a unit leaves of a strand: its registers, predicates, flags, operations and the rest. -/
def UnitEnded (t u : Strand) : Prop :=
  u = { t with threads := u.threads, group := u.group, lastLow := u.lastLow, timer := u.timer, unit := u.unit, resume := u.resume,
               partMask := u.partMask, answers := u.answers, repleft := u.repleft, repHeld := u.repHeld }

theorem Settled.ended {t u : Strand} (h : Settled t u) : UnitEnded t u := by
  rw [UnitEnded, h.1]

/-- A yield changes the current group and nothing else of the strand. -/
theorem Env.yieldAfter_frame (e : Env) (old : Mask) :
    (e.yieldAfter old).t = { e.t with group := (e.yieldAfter old).t.group, lastLow := (e.yieldAfter old).t.lastLow,
                                      timer := (e.yieldAfter old).t.timer } := by
  unfold Env.yieldAfter Env.yieldGroup
  split
  · rfl
  · split <;> rfl

theorem Env.endUnit_ended (e : Env) (moved : Bool) : UnitEnded e.t (e.endUnit moved).t := by
  unfold Env.endUnit
  split
  · rfl
  · dsimp only
    have key : ∀ t2 : Strand, UnitEnded e.t t2 → UnitEnded e.t (t2.settle e.t.group) := by
      intro t2 h2
      have h3 := (t2.settle_settled e.t.group).1
      rw [UnitEnded, h3, h2]
    have h2 : UnitEnded e.t (if moved = true then e.t.closeUnit else e.t.closeUnit.advance e.t.group (e.t.unit.words + 1)) := by
      split <;> rfl
    generalize (if moved = true then e.t.closeUnit else e.t.closeUnit.advance e.t.group (e.t.unit.words + 1)) = t2 at h2
    have h3 := key _ h2
    generalize t2.settle e.t.group = t3 at h3
    split
    · rw [UnitEnded, Env.yieldAfter_frame, h3]
    · exact h3

/-- How a thread's program counter moves at the end of a unit that moved none itself (R76, R80). -/
theorem Env.endUnit_thread (e : Env) (l : Nat) (h : l < 8) :
    ∃ z, Restated { e.t.thread l with pc := e.t.pcAfter l } z ∧ Restated z ((e.endUnit false).t.thread l) := by
  by_cases hm : e.t.moreReps = true
  · have hp : e.t.pcAfter l = (e.t.thread l).pc := by simp [Strand.pcAfter, hm]
    refine ⟨e.t.thread l, by rw [hp]; exact .refl _, ?_⟩
    simp only [Env.endUnit, hm, if_true]
    exact .refl _
  · have hm' : e.t.moreReps = false := by simpa using hm
    have h0 : (e.t.closeUnit.advance e.t.group (e.t.unit.words + 1)).thread l = { e.t.thread l with pc := e.t.pcAfter l } := by
      unfold Strand.advance
      rw [Strand.thread_modThreads _ _ _ _ h]
      simp only [Strand.pcAfter, hm', true_and]
      split <;> rfl
    obtain ⟨z, h1, h2⟩ := ((e.t.closeUnit.advance e.t.group (e.t.unit.words + 1)).settle_settled e.t.group).2 l h
    rw [h0] at h1
    refine ⟨z, h1, ?_⟩
    simp only [Env.endUnit, hm', Bool.false_eq_true, if_false]
    split
    · rw [Env.yieldAfter_frame]
      exact h2
    · exact h2

/-- The same for a word that set the program counters itself, and is repeated no more. -/
theorem Env.endUnit_moved (e : Env) (hm : e.t.moreReps = false) (l : Nat) (h : l < 8) :
    ∃ z, Restated (e.t.thread l) z ∧ Restated z ((e.endUnit true).t.thread l) := by
  obtain ⟨z, h1, h2⟩ := (e.t.closeUnit.settle_settled e.t.group).2 l h
  refine ⟨z, h1, ?_⟩
  simp only [Env.endUnit, hm, Bool.false_eq_true, if_false, if_true]
  split
  · rw [Env.yieldAfter_frame]
    exact h2
  · exact h2

end Sys2Proof.Machine
end

