-- ==== Sys2Proof/Laws/Issue.lean ====
section
/-! SUPPORT. What issuing an instruction word can do, said once. -/

namespace Sys2Proof.Machine

/-! ### The issuing strand in the machine -/

/-- A view whose crew and strand stand in its machine. -/
structure Env.Placed (e : Env) : Prop where
  crew   : (e.s.crew? e.c.id).isSome
  strand : (e.c.strand? e.t.idx).isSome

theorem State.crew?_id {s : State} {id : Nat} {c : Crew} (h : s.crew? id = some c) : c.id = id := by
  have := List.find?_some h
  simpa using this

theorem Crew.strand?_idx {c : Crew} {i : Nat} {t : Strand} (h : c.strand? i = some t) : t.idx = i := by
  have := List.find?_some h
  simpa using this

theorem State.env?_spec {s : State} {crew strand : Nat} {e : Env} (h : s.env? crew strand = some e) :
    e.s = s ∧ s.crew? e.c.id = some e.c ∧ e.c.strand? e.t.idx = some e.t := by
  unfold State.env? at h
  split at h
  · cases h
  · rename_i c hc
    split at h
    · cases h
    · rename_i t ht
      cases h
      have h1 := State.crew?_id hc
      have h2 := Crew.strand?_idx ht
      subst h1 h2
      exact ⟨rfl, hc, ht⟩

/-- The issuing strand: its machine, its place, and that it may issue. -/
theorem State.issuer_spec {s : State} {e : Env} (h : s.issuer = some e) :
    e.s = s ∧ e.Placed ∧ e.c.strand? e.t.idx = some e.t := by
  unfold State.issuer at h
  split at h
  · rename_i e0 h0
    split at h
    · obtain ⟨h1, h2, h3⟩ := State.env?_spec h0
      have key : e0.ofWalk.s = e0.s ∧ e0.ofWalk.t = e0.t ∧ e0.ofWalk.c.id = e0.c.id ∧ e0.ofWalk.c.strands = e0.c.strands := by
        unfold Env.ofWalk
        split
        · split <;> exact ⟨rfl, rfl, rfl, rfl⟩
        · exact ⟨rfl, rfl, rfl, rfl⟩
      injection h with h
      subst h
      obtain ⟨k1, k2, k3, k4⟩ := key
      have h3' : e0.ofWalk.c.strand? e0.t.idx = some e0.t := by rw [Crew.strand?, k4]; exact h3
      exact ⟨k1.trans h1, ⟨by rw [k1, k3, h1, h2]; rfl, by rw [k2, h3']; rfl⟩, by rw [k2]; exact h3'⟩
    · cases h
  · cases h

theorem List.find?_map_if {α : Type} (p : α → Bool) (q : α → Bool) (y : α) (xs : List α) (hy : p y = true) (hpq : ∀ x, p x = q x) :
    (xs.map (fun x => if q x then y else x)).find? p = (xs.find? p).map (fun _ => y) := by
  induction xs with
  | nil => rfl
  | cons x r ih =>
    by_cases hx : p x = true
    · have hq : q x = true := by rw [← hpq]; exact hx
      simp [hx, hq, hy]
    · have hx' : p x = false := by simpa using hx
      have hq : q x = false := by rw [← hpq]; exact hx'
      simp [hx', hq, ih]

theorem List.find?_map_other {α : Type} (p : α → Bool) (q : α → Bool) (y : α) (xs : List α) (hy : p y = false)
    (hpq : ∀ x, q x = true → p x = false) : (xs.map (fun x => if q x then y else x)).find? p = xs.find? p := by
  induction xs with
  | nil => rfl
  | cons x r ih =>
    by_cases hq : q x = true
    · simp [hq, hy, hpq x hq, ih]
    · simp only [Bool.not_eq_true] at hq
      by_cases hx : p x = true
      · simp [hq, hx]
      · simp only [Bool.not_eq_true] at hx
        simp [hq, hx, ih]

theorem State.crew?_setCrew (s : State) (c : Crew) (id : Nat) :
    (s.setCrew c).crew? id = if id = c.id then (s.crew? id).map (fun _ => c) else s.crew? id := by
  unfold State.setCrew State.crew?
  dsimp only
  split
  · rename_i h
    have := List.find?_map_if (fun x : Crew => decide (x.id = id)) (fun x => decide (x.id = c.id)) c s.crews (by simp [h]) (by simp [h])
    simpa using this
  · rename_i h
    have := List.find?_map_other (fun x : Crew => decide (x.id = id)) (fun x => decide (x.id = c.id)) c s.crews
      (by simpa using Ne.symm h) (by intro x hx; simp only [decide_eq_true_eq] at hx; simpa [hx] using Ne.symm h)
    simpa using this

theorem Crew.strand?_setStrand (c : Crew) (t : Strand) (i : Nat) :
    (c.setStrand t).strand? i = if i = t.idx then (c.strand? i).map (fun _ => t) else c.strand? i := by
  unfold Crew.setStrand Crew.strand?
  dsimp only
  split
  · rename_i h
    have := List.find?_map_if (fun x : Strand => decide (x.idx = i)) (fun x => decide (x.idx = t.idx)) t c.strands (by simp [h]) (by simp [h])
    simpa using this
  · rename_i h
    have := List.find?_map_other (fun x : Strand => decide (x.idx = i)) (fun x => decide (x.idx = t.idx)) t c.strands
      (by simpa using Ne.symm h) (by intro x hx; simp only [decide_eq_true_eq] at hx; simpa [hx] using Ne.symm h)
    simpa using this

/-- A strand put back is found again. -/
theorem Env.commit_crew? (e : Env) (h : (e.s.crew? e.c.id).isSome) : e.commit.crew? e.c.id = some (e.c.setStrand e.t) := by
  unfold Env.commit
  rw [State.crew?_setCrew]
  obtain ⟨c, hc⟩ := Option.isSome_iff_exists.mp h
  simp [Crew.setStrand, hc]

theorem Env.commit_strand? (e : Env) (h : e.Placed) : e.commit.strand? e.c.id e.t.idx = some e.t := by
  unfold State.strand?
  rw [Env.commit_crew? e h.crew]
  obtain ⟨t, ht⟩ := Option.isSome_iff_exists.mp h.strand
  simp [Crew.strand?_setStrand, ht]

/-! ### A word that only computes -/

/-- What a word that only computes does before its unit ends. -/
structure Computed (e e' : Env) : Prop where
  rest    : e'.s = { e.s with cores := e'.s.cores }
  cores   : ∀ k, e'.s.core k = { e.s.core k with naming := (e'.s.core k).naming }
  crew    : e'.c = { e.c with vnhits := e'.c.vnhits, vndedup := e'.c.vndedup, vncoll := e'.c.vncoll }
  strand  : e'.t = { e.t with regs := e'.t.regs, preds := e'.t.preds, fflags := e'.t.fflags, threads := e'.t.threads, unit := e'.t.unit }
  threads : ∀ l, l < 8 → ∃ n, e'.t.thread l = { e.t.thread l with draws := n }
  unit    : e'.t.unit.words = e.t.unit.words ∧ e'.t.unit.rep = e.t.unit.rep

theorem Computed.refl (e : Env) : Computed e e := ⟨rfl, fun _ => rfl, rfl, rfl, fun _ _ => ⟨_, rfl⟩, ⟨rfl, rfl⟩⟩

theorem Computed.trans {a b c : Env} (h : Computed a b) (k : Computed b c) : Computed a c where
  rest := by rw [k.rest, h.rest]
  cores n := by rw [k.cores, h.cores]
  crew := by rw [k.crew, h.crew]
  strand := by rw [k.strand, h.strand]
  threads l hl := by
    obtain ⟨n, hn⟩ := k.threads l hl
    obtain ⟨n', hn'⟩ := h.threads l hl
    exact ⟨n, by rw [hn, hn']⟩
  unit := ⟨k.unit.1.trans h.unit.1, k.unit.2.trans h.unit.2⟩

/-- What is kept of the machine, the crew and the strand by a word that changes registers, predicates, flags, threads and its
unit and nothing else. -/
structure Inner (e e' : Env) : Prop where
  rest    : e'.s = { e.s with cores := e'.s.cores }
  cores   : ∀ k, e'.s.core k = { e.s.core k with naming := (e'.s.core k).naming }
  crew    : e'.c = { e.c with vnhits := e'.c.vnhits, vndedup := e'.c.vndedup, vncoll := e'.c.vncoll }
  strand  : e'.t = { e.t with regs := e'.t.regs, preds := e'.t.preds, fflags := e'.t.fflags, threads := e'.t.threads, unit := e'.t.unit }

theorem Computed.inner {e e' : Env} (h : Computed e e') : Inner e e' := ⟨h.rest, h.cores, h.crew, h.strand⟩

/-- The machine after the unit of such a word has ended. -/
theorem Inner.ended {s : State} {e e' : Env} (hs : e.s = s) (hp : e.Placed) (h : Inner e e') (moved : Bool) :
    (e'.endUnit moved).commit.strand? e.c.id e.t.idx = some (e'.endUnit moved).t ∧ OthersKept s (e'.endUnit moved).commit e
      ∧ StrandKept e.t (e'.endUnit moved).t ∧ (e'.endUnit moved).t.regs = e'.t.regs ∧ (e'.endUnit moved).t.preds = e'.t.preds
      ∧ (e'.endUnit moved).t.fflags = e'.t.fflags := by
  subst hs
  obtain ⟨h1, h2⟩ := Env.endUnit_other e' moved
  have h3 := Env.endUnit_ended e' moved
  have hid : (e'.endUnit moved).c.id = e.c.id := by rw [h2, h.crew]
  have hix : (e'.endUnit moved).t.idx = e.t.idx := by rw [h3, h.strand]
  have hpl : (e'.endUnit moved).Placed := by
    constructor
    · rw [hid, h1]
      have : e'.s.crew? e.c.id = e.s.crew? e.c.id := by rw [State.crew?, h.rest]; rfl
      rw [this]; exact hp.crew
    · rw [hix, h2]
      have : e'.c.strand? e.t.idx = e.c.strand? e.t.idx := by rw [Crew.strand?, h.crew]; rfl
      rw [this]; exact hp.strand
  have hu := Env.commit_strand? _ hpl
  rw [hid, hix] at hu
  refine ⟨hu, ?_, ?_, ?_, ?_, ?_⟩
  · constructor
    · have hc : (e'.endUnit moved).commit.cores = e'.s.cores := by
        show (e'.endUnit moved).s.cores = _
        rw [h1]
      rw [hc]
      have hr : (e'.endUnit moved).commit = { (e'.endUnit moved).s with crews := (e'.endUnit moved).commit.crews } := rfl
      rw [h1] at hr
      generalize (e'.endUnit moved).commit = t at hr
      rw [hr, h.rest]
    · intro k
      have : (e'.endUnit moved).commit.core k = e'.s.core k := by
        unfold Env.commit State.setCrew State.core
        rw [h1]
      rw [this, h.cores]
    · intro id hne
      unfold Env.commit
      rw [State.crew?_setCrew, if_neg (by show ¬ id = ((e'.endUnit moved).c).id; rw [hid]; exact hne), h1, State.crew?, h.rest]
      rfl
    · refine ⟨(e'.endUnit moved).c.setStrand (e'.endUnit moved).t, ?_, ?_, ?_⟩
      · rw [← hid]; exact Env.commit_crew? _ hpl.crew
      · rw [h2]; unfold Crew.setStrand; rw [h.crew]
      · intro j hj
        rw [Crew.strand?_setStrand, if_neg (by rw [hix]; exact hj), h2, Crew.strand?, h.crew]
        rfl
  · rw [StrandKept, h3, h.strand]
  · rw [h3]
  · rw [h3]
  · rw [h3]

/-- The machine after a word that only computes: everything else is kept, and the strand has what was computed. -/
theorem Computed.kept {s : State} {e e' : Env} (hs : e.s = s) (hp : e.Placed) (h : Computed e e') :
    ∃ u, (Res.done e').finish.strand? e.c.id e.t.idx = some u ∧ OthersKept s (Res.done e').finish e ∧ StrandKept e.t u
      ∧ (∀ l, l < 8 → ThreadKept e.t u l) ∧ (∀ l, l < 8 → (u.thread l).draws = (e'.t.thread l).draws)
      ∧ u.regs = e'.t.regs ∧ u.preds = e'.t.preds ∧ u.fflags = e'.t.fflags := by
  obtain ⟨k1, k2, k3, k4, k5, k6⟩ := h.inner.ended hs hp false
  refine ⟨_, k1, k2, k3, ?_, ?_, k4, k5, k6⟩
  · intro l hl
    obtain ⟨n, hn⟩ := h.threads l hl
    obtain ⟨z, hz1, hz2⟩ := Env.endUnit_thread e' l hl
    refine ⟨n, _, z, rfl, ?_, hz2⟩
    have hg : e'.t.group = e.t.group := by rw [h.strand]
    have hr : e'.t.moreReps = e.t.moreReps := by simp only [Strand.moreReps, h.unit.2]
    have hpc : e'.t.pcAfter l = e.t.pcAfter l := by
      unfold Strand.pcAfter
      rw [hn, hg, hr, h.unit.1]
    rw [hpc, hn] at hz1
    exact hz1
  · intro l hl
    obtain ⟨z, hz1, hz2⟩ := Env.endUnit_thread e' l hl
    rw [hz2.1, hz1.1]

/-! ### Every word -/

/-- Every instruction word but a prefix is an issue under the demands of `reqOf`. -/
theorem exec_issues (i : Instr) (hw : isWord i = true) (hp : isPrefix i = false) :
    ∃ after body, ∀ s, exec i s = issueThen (reqOf i) after body s := by
  cases i
  all_goals first
    | exact absurd hw Bool.false_ne_true
    | exact Bool.noConfusion hp
    | (dsimp only [exec, issue, intArith, intBinary, intUnary, intTernary, logicForm, shiftForm, immForm, immShift, roundForm, floatArith, floatFn, floatBits, fractForm, packForm, predForm, permForm, shuffle, voteForm, indirect, arrive, loadForm, storeForm, loadLocal, storeLocal, atomForm, waitFor, swIssue, tileOp, continueForm, flushForm, inherit, launchForm, counterForm, tlbiVa, tlbiCtx, lpi, prefixForm, execAdd, execSub, execMul, execMulhi, execMad, execMin, execMax, execLea, execAbs, execNeg, execNot, execClz, execPopc, execBrev, execAnd, execOr, execXor, execAndn, execShl, execShr, execSar, execRot, execBfe, execBfi, execIcmp, execSel, execMov, execMovi, execMovhi, execIota, execAddImm, execMulImm, execAndImm, execOrImm, execXorImm, execShlImm, execShrImm, execSarImm, execRotImm, execMinImm, execMaxImm, execLeaImm, execFadd, execFsub, execFmul, execFma, execFdiv, execFscale, execFmin, execFmax, execFabs, execFneg, execFcmp, execFclass, execFsqrt, execFrcp, execFrsqrt, execFexp2, execFlog2, execFsin, execFcos, execFfract, execFround, execFdot2, execCvt, execPackB16, execPackB8Lo, execPackB8Hi, execPackB4Q0, execPackB4Q1, execPackB4Q2, execPackB4Q3, execUnpack, execPand, execPor, execPxor, execPnot, execPmov, execPfirst, execPcnt, execXperm, execXtab, execXbcast, execXshflIdx, execXshflXor, execXshflUp, execXshflDown, execXred, execXscan, execXmaxi, execVoteAny, execVoteAll, execVoteBallot, execVshape, execMovcRead, execMovcWrite, execBra, execBrx, execRet, execCallDirect, execCallIndirect, execMeet, execYield, execNop, execSleep, execExit, execBar, execGbar, execSbar, execRgrow, execRgrowTry, execRshrink, execDisp, execLdB32, execLdB64, execLdF32, execLdF16, execLdBf16, execLdI32, execStB8, execStB16, execStB32, execStB64, execLdbW, execLdbA, execLdbC, execStbA, execStbC, execAtom, execAtomAcq, execAtomRel, execAtomAcqRel, execCas, execAcq, execRel, execFence, execWaita, execTxb, execTxa, execTxc, execCp, execCp2, execCptab, execWait, execWaitx, execPgreq, execPfetch, execMres, execMrel, execCdecl, execMstat, execTld, execTmeta, execTst, execTzero, execMma, execMmas, execMswap, execMclr, execMdrain, execHgf, execHgs, execHgfold, execMarch, execTex, execTrace, execTcontReject, execTcontAccept, execTcontTerminate, execThit, execTabort, execSrd, execSrdt, execSwr, execSflushLine, execSflushFrame, execSinh, execSinhOffset, execSts, execSstat, execTime, execSleepu, execLaunch, execLaunchTail, execPublish, execCprog, execCtrigArm, execCtrigDisarm, execCctrAdd, execCctrSet, execCctrRead, execTbar, execIdemb, execIdeme, execTlbw, execTlbiVaCore, execTlbiVaAll, execTlbiCtxCore, execTlbiCtxAll, execLpiCore, execLpiAll, execWalkd, execTrap, execBrk, execRtt, execSnap, execHintImm, execHintPref, execHintRnd, execHintSched, execRep]; exact ⟨_, _, fun _ => rfl⟩)

/-- The machine after an issue that nothing follows. -/
theorem Res.finishThen_id (x : Res) : x.finishThen (fun s => s) = x.finish := by cases x <;> rfl

/-- With no acting lane the body has the empty mask either way. -/
theorem Req.idle_body (r : Req) (e : Env) (body : Env → Mask → Res) :
    (if r.idle e = true then body e 0 else body e (r.mask e.t)) = body e (r.mask e.t) := by
  split
  · rename_i h
    simp only [Req.idle, Bool.and_eq_true, decide_eq_true_eq] at h
    rw [h.2]
  · rfl

/-- An instruction that waits for no result in flight waits for none that writes its guard. -/
theorem Req.guardPending_ready {r : Req} {t : Strand} (h : r.blocked t = false) : r.guardPending t = false := by
  simp only [Req.guardPending, Req.blocked, List.any_eq_false, Bool.and_eq_true, Bool.not_eq_true', not_and, Bool.not_eq_true] at h ⊢
  intro p hp hd
  have := h p hp hd
  simp only [Req.needs, Bool.or_eq_false_iff] at this
  exact this.1.2

theorem Req.awaitGuard_ready {r : Req} {e : Env} (h : r.blocked e.t = false) (go : Env → Res) : r.awaitGuard e go = go e := by
  have hg := Req.guardPending_ready h
  have hr : r.guardReady e = e := by simp [Req.guardReady, hg]
  simp [Req.awaitGuard, hr, hg]

theorem Req.gather_ready {r : Req} {e : Env} (h : r.blocked e.t = false) (hb : r.sourceBad e.t = false) : r.gather e = .ok e := by
  have hr : r.ready e = e := by simp [Req.ready, h]
  simp [Req.gather, hr, h, hb]

/-- An instruction that passes its checks and has its operands runs its body under the effective lane mask. -/
theorem Req.run_ready {r : Req} {e : Env} (hl : r.illegal e = false) (h : r.blocked e.t = false) (hb : r.sourceBad e.t = false)
    (body : Env → Mask → Res) : r.run e body = body e (r.mask e.t) := by
  simp only [Req.run, Req.awaitGuard_ready h, hl, Req.gather_ready h hb, Bool.false_eq_true, if_false, Req.idle_body]

/-- A word that starts runs its body under the effective lane mask. -/
theorem issue_starts {s : State} {e : Env} {i : Instr} (h : Starts s e i) (body : Env → Mask → Res) :
    issue (reqOf i) body s = .next (body e (maskFor i e)).finish := by
  unfold issue issueThen
  rw [h.issuer]
  simp only [Res.finishThen_id, Req.run_ready h.legal h.ready h.sound, maskFor]

/-- The same for a word that something follows: it follows unless the body traps. -/
theorem issueThen_starts {s : State} {e : Env} {i : Instr} (h : Starts s e i) (after : Nat → State → State) (body : Env → Mask → Res) :
    issueThen (reqOf i) after body s = .next ((body e (maskFor i e)).finishThen (after e.c.id)) := by
  unfold issueThen
  rw [h.issuer]
  simp only [Req.run_ready h.legal h.ready h.sound, maskFor]

end Sys2Proof.Machine
end

