-- ==== Sys2Proof/Laws/Results.lean ====
section
/-! SUPPORT. How results are written: one register, several, through the value table, with flags and draws; and what an
instruction that gives them does in all. -/

namespace Sys2Proof.Machine

theorem State.core_setCore (s : State) (k j : Nat) (c : Core) :
    (s.setCore k c).core j = if j = k ∧ k < s.cores.length then c else s.core j := by
  unfold State.setCore State.core
  simp only [List.getD_eq_getElem?_getD]
  by_cases hj : j = k
  · subst hj
    by_cases hk : j < s.cores.length
    · simp [hk]
    · simp [hk]
  · simp [hj, List.getElem?_set_ne (Ne.symm hj)]

/-- A core whose naming tables are replaced. -/
theorem Computed.naming (e : Env) (nm : Naming) (a b c : Word) (k : Nat) :
    Computed e { s := e.s.setCore k { e.s.core k with naming := nm }, c := { e.c with vnhits := a, vndedup := b, vncoll := c }, t := e.t } where
  rest := rfl
  cores j := by
    dsimp only
    rw [State.core_setCore]
    split
    · rename_i h; rw [h.1]
    · rfl
  crew := rfl
  strand := rfl
  threads _ _ := ⟨_, rfl⟩
  unit := ⟨rfl, rfl⟩

/-- A register written. -/
theorem Computed.setReg (e : Env) (d : Nat) (r : Reg) : Computed e { e with t := e.t.setReg d r } where
  rest := rfl
  cores _ := rfl
  crew := rfl
  strand := rfl
  threads _ _ := ⟨_, rfl⟩
  unit := ⟨rfl, rfl⟩

theorem Env.put1_computed (e : Env) (counted : Bool) (p : Put) : Computed e (e.put1 counted p) := by
  unfold Env.put1
  split
  · dsimp only
    split
    · exact (Computed.naming e _ e.c.vnhits _ _ _).trans (Computed.setReg _ _ _)
    · exact (Computed.naming e _ e.c.vnhits e.c.vndedup e.c.vncoll _).trans (Computed.setReg _ _ _)
  · exact Computed.setReg _ _ _

theorem Env.put1_t (e : Env) (counted : Bool) (p : Put) :
    ∃ r, (e.put1 counted p).t = e.t.setReg p.d r ∧ r.lanes = p.vals := by
  unfold Env.put1
  split
  · exact ⟨_, rfl, rfl⟩
  · exact ⟨_, rfl, rfl⟩

/-- Registers hold the listed results, and no other register changes. -/
structure Written (t u : Strand) (ps : List Put) : Prop where
  count : u.regs.length = t.regs.length
  vals  : ∀ p ∈ ps, (u.reg p.d).lanes = p.vals
  other : ∀ v, v ∉ ps.map Put.d → u.reg v = t.reg v
  rest  : u = { t with regs := u.regs }

theorem Written.nil (t : Strand) : Written t t [] := ⟨rfl, by simp, fun _ _ => rfl, rfl⟩

/-- One more result, in a register that no later one writes. -/
theorem Written.cons {t t1 u : Strand} {p : Put} {ps : List Put} {r : Reg} (h1 : t1 = t.setReg p.d r) (hr : r.lanes = p.vals)
    (hd : p.d < t.regs.length) (hn : p.d ∉ ps.map Put.d) (h : Written t1 u ps) : Written t u (p :: ps) where
  count := by rw [h.count, h1, Strand.setReg_length]
  vals q hq := by
    rcases List.mem_cons.mp hq with rfl | hq
    · rw [h.other _ hn, h1, Strand.reg_setReg _ _ _ _ hd, if_pos rfl, hr]
    · exact h.vals q hq
  other v hv := by
    simp only [List.map_cons, List.mem_cons, not_or] at hv
    rw [h.other v hv.2, h1, Strand.reg_setReg _ _ _ _ hd, if_neg hv.1]
  rest := by rw [h.rest, h1]; rfl

theorem Env.puts_computed (e : Env) (counted : Bool) (ps : List Put) : Computed e (e.puts counted ps) := by
  induction ps generalizing e with
  | nil => exact .refl e
  | cons p r ih => exact (e.put1_computed counted p).trans (ih _)

theorem Env.puts_written (e : Env) (counted : Bool) (ps : List Put) (hd : ∀ p ∈ ps, p.d < e.t.regs.length)
    (hn : (ps.map Put.d).Nodup) : Written e.t (e.puts counted ps).t ps := by
  induction ps generalizing e with
  | nil => exact .nil _
  | cons p r ih =>
    obtain ⟨loc, h1, h0⟩ := e.put1_t counted p
    simp only [List.map_cons, List.nodup_cons] at hn
    refine Written.cons h1 h0 (hd p (by simp)) hn.1 (ih _ ?_ hn.2)
    intro q hq
    rw [h1, Strand.setReg_length]
    exact hd q (by simp [hq])

theorem Env.mapHit_t (ent : VEntry) (b : Nat → Bool) (ps : List Put) (t : Strand) (k : Nat) (hd : ∀ p ∈ ps, p.d < t.regs.length)
    (hn : (ps.map Put.d).Nodup) :
    Written t ((ps.zipIdx k).foldl (fun (t : Strand) x =>
      t.setReg x.1.d { tag := x.1.tag, lanes := x.1.vals, loc := ent.res.getD x.2 0, bad := b (ent.res.getD x.2 0) }) t) ps := by
  induction ps generalizing t k with
  | nil => exact .nil _
  | cons p r ih =>
    simp only [List.map_cons, List.nodup_cons] at hn
    simp only [List.zipIdx_cons, List.foldl_cons]
    refine Written.cons rfl rfl (hd p (by simp)) hn.1 (ih _ _ ?_ hn.2)
    intro q hq
    rw [Strand.setReg_length]
    exact hd q (by simp [hq])

/-- A strand whose registers alone differ. -/
theorem Computed.regs (e : Env) (t : Strand) (h : t = { e.t with regs := t.regs }) : Computed e { e with t := t } where
  rest := rfl
  cores _ := rfl
  crew := rfl
  strand := by dsimp only; rw [h]
  threads _ _ := ⟨_, by dsimp only; rw [h]; rfl⟩
  unit := by dsimp only; rw [h]; exact ⟨rfl, rfl⟩

theorem Env.putKeyed_spec (e : Env) (key : VKey) (flags : BitVec 5) (ps : List Put) (hd : ∀ p ∈ ps, p.d < e.t.regs.length)
    (hn : (ps.map Put.d).Nodup) : Computed e (e.putKeyed key flags ps) ∧ Written e.t (e.putKeyed key flags ps).t ps := by
  unfold Env.putKeyed
  split
  · rename_i ent _
    have hw := Env.mapHit_t ent (ent.res.foldl (fun n l => n.addRef l) (e.s.core e.c.core).naming).locBad ps e.t 0 hd hn
    exact ⟨(Computed.naming e _ _ e.c.vndedup e.c.vncoll _).trans (Computed.regs _ _ hw.rest), hw⟩
  · unfold Env.putMissed
    dsimp only
    have hc := e.puts_computed true ps
    have hw := e.puts_written true ps hd hn
    split
    · refine ⟨?_, hw⟩
      have hcore : (e.puts true ps).c.core = e.c.core := by rw [hc.crew]
      refine hc.trans ?_
      exact Computed.naming (e.puts true ps) _ (e.puts true ps).c.vnhits (e.puts true ps).c.vndedup (e.puts true ps).c.vncoll e.c.core
    · exact ⟨hc, hw⟩

theorem Env.orFlags_computed (e : Env) (f : BitVec 5) : Computed e (e.orFlags f) := ⟨rfl, fun _ => rfl, rfl, rfl, fun _ _ => ⟨_, rfl⟩, ⟨rfl, rfl⟩⟩

theorem Env.lookEmpty_computed (e : Env) (key : VKey) (ds : List Nat) : Computed e (e.lookEmpty key ds) := by
  unfold Env.lookEmpty
  dsimp only
  split
  · exact Computed.naming e _ _ e.c.vndedup e.c.vncoll _
  · exact Computed.naming e _ e.c.vnhits e.c.vndedup e.c.vncoll _

theorem Env.tookDraws_computed (e : Env) (m : Mask) (n : Nat) : Computed e (e.tookDraws m n) := by
  unfold Env.tookDraws
  split
  · exact .refl e
  · refine ⟨rfl, fun _ => rfl, rfl, rfl, fun l hl => ?_, ⟨rfl, rfl⟩⟩
    dsimp only
    rw [Strand.thread_modThreads _ _ _ _ hl]
    split
    · exact ⟨_, rfl⟩
    · exact ⟨_, rfl⟩

/-- What `give` does: nothing under an empty mask, else the results and the flags. -/
theorem Req.give_spec (r : Req) (e : Env) (m : Mask) (el : Bool) (xg : Word) (fl : BitVec 5) (ps : List Put)
    (hd : ∀ p ∈ ps, p.d < e.t.regs.length) (hn : (ps.map Put.d).Nodup) :
    ∃ e', r.give e m el xg fl ps = .done e' ∧ Computed e e' ∧ e'.t.preds = e.t.preds ∧ e'.t.threads = e.t.threads
      ∧ (m = 0 → e'.t.regs = e.t.regs ∧ e'.t.fflags = e.t.fflags)
      ∧ (m ≠ 0 → Written (e.orFlags fl).t e'.t ps) := by
  unfold Req.give
  dsimp only
  split
  · rename_i hm
    refine ⟨_, rfl, ?_, ?_, ?_, fun _ => ?_, fun h => absurd hm h⟩
    · split
      · exact Env.lookEmpty_computed _ _ _
      · exact .refl e
    · split
      · unfold Env.lookEmpty; dsimp only; split <;> rfl
      · rfl
    · split
      · unfold Env.lookEmpty; dsimp only; split <;> rfl
      · rfl
    · split
      · unfold Env.lookEmpty; dsimp only; split <;> exact ⟨rfl, rfl⟩
      · exact ⟨rfl, rfl⟩
  · rename_i hm
    have hd' : ∀ p ∈ ps, p.d < (e.orFlags fl).t.regs.length := hd
    split
    · obtain ⟨h1, h2⟩ := (e.orFlags fl).putKeyed_spec (r.key e m xg []) fl ps hd' hn
      exact ⟨_, rfl, (e.orFlags_computed fl).trans h1, by rw [h2.rest]; rfl, by rw [h2.rest]; rfl, fun h => absurd h hm, fun _ => h2⟩
    · have h1 := (e.orFlags fl).puts_computed true ps
      have h2 := (e.orFlags fl).puts_written true ps hd' hn
      exact ⟨_, rfl, (e.orFlags_computed fl).trans h1, by rw [h2.rest]; rfl, by rw [h2.rest]; rfl, fun h => absurd h hm, fun _ => h2⟩

/-- Flags count for nothing under an empty mask. -/
theorem Req.give_empty (r : Req) (e : Env) (m : Mask) (el : Bool) (xg : Word) (fl : BitVec 5) (ps : List Put) :
    r.give e m el xg fl ps = r.give e m el xg (if m = 0 then 0 else fl) ps := by
  by_cases h : m = 0
  · unfold Req.give; simp only [h, if_true]
  · rw [if_neg h]

/-! ### From the body of a meaning to what the word gives -/

/-- A register that an instruction names lies below the strand's count (R49). -/
theorem Starts.bound {s : State} {e : Env} {i : Instr} (h : Starts s e i) {v : Nat} (hv : v ∈ (reqOf i).reads ++ (reqOf i).writes) :
    v < e.t.regs.length := by
  have hl := h.legal
  unfold Req.illegal at hl
  simp only [Bool.or_eq_false_iff] at hl
  have h2 := hl.1.1.1.1.1.1.2
  rw [List.any_eq_false] at h2
  simpa using h2 v (by simp only [List.mem_append] at hv ⊢; exact hv.elim (fun h => .inl (.inr h)) .inr)

/-- A result register as the acting lanes leave it. -/
theorem Strand.result_get (t : Strand) (m : Mask) (tag : Tag) (d : Nat) (f : Nat → Word) (l : Nat) (hl : l < 8) :
    (t.result m tag d f).vals.get l = if laneOn m l then f l else t.lane d l := by
  unfold Strand.result
  rw [L8.get_mapi _ _ _ hl]
  rfl

/-- Results given under the effective lane mask are all that a word does. -/
theorem gives_of_give {s : State} {e e0 : Env} {i : Instr} (h : Starts s e i) {body : Env → Mask → Res}
    (hx : exec i s = issue (reqOf i) body s) (h0 : Computed e e0) (hr0 : e0.t.regs = e.t.regs) (hp0 : e0.t.preds = e.t.preds)
    (hf0 : e0.t.fflags = e.t.fflags) {k : Nat} (hk0 : Drew i e e0.t k) {el : Bool} {xg : Word} {fl : BitVec 5} {ps : List Put} {rs : List (Nat × (Nat → Word))}
    (hb : body e (maskFor i e) = (reqOf i).give e0 (maskFor i e) el xg fl ps) (hds : ps.map Put.d = rs.map Prod.fst)
    (hv : ∀ r ∈ rs, ∃ p ∈ ps, p.d = r.1 ∧ ∀ l, l < 8 → p.vals.get l = if laneOn (maskFor i e) l then r.2 l else e.t.lane r.1 l)
    (hw : ∀ r ∈ rs, r.1 ∈ (reqOf i).writes) (hn : (rs.map Prod.fst).Nodup) (hfl : maskFor i e = 0 → fl = 0) : Gives s e i rs fl k := by
  obtain ⟨hs, hp, _⟩ := State.issuer_spec h.issuer
  have hd : ∀ p ∈ ps, p.d < e0.t.regs.length := by
    intro p hpm
    have h1 : p.d ∈ rs.map Prod.fst := by rw [← hds]; exact List.mem_map_of_mem hpm
    obtain ⟨r, hr, hrd⟩ := List.mem_map.mp h1
    rw [hr0, ← hrd]
    exact h.bound (List.mem_append_right _ (hw r hr))
  obtain ⟨e', g1, g2, g3, gt, g4, g5⟩ := Req.give_spec (reqOf i) e0 (maskFor i e) el xg fl ps hd (by rw [hds]; exact hn)
  obtain ⟨u, k1, k2, k3, k4, kd, k5, k6, k7⟩ := (h0.trans g2).kept hs hp
  refine ⟨_, u, by rw [hx, issue_starts h, hb, g1], k1, k2, k3, k4, ?_, ?_, ?_, by rw [k6, g3, hp0], ?_⟩
  · intro l hl
    rw [kd l hl, Strand.thread, gt]
    exact hk0 l hl
  · intro r hr l hl
    by_cases hm : maskFor i e = 0
    · simp only [hm, laneOn_zero, Bool.false_eq_true, if_false, Strand.lane, Strand.reg, k5, (g4 hm).1, hr0]
    · obtain ⟨p, hpm, hpd, hpv⟩ := hv r hr
      have := (g5 hm).vals p hpm
      rw [← hpv l hl, ← this, hpd]
      simp only [Strand.lane, Strand.reg, k5]
  · intro v hvn
    by_cases hm : maskFor i e = 0
    · simp only [Strand.reg, k5, (g4 hm).1, hr0]
    · have := (g5 hm).other v (by rw [hds]; exact hvn)
      simp only [Strand.reg, Env.orFlags, hr0] at this
      simp only [Strand.reg, k5, this]
  · by_cases hm : maskFor i e = 0
    · rw [k7, (g4 hm).2, hf0, hfl hm]; simp
    · rw [k7, (g5 hm).rest]; simp [Env.orFlags, hf0]

theorem Drew.none (i : Instr) (e : Env) : Drew i e e.t 0 := by intro l _; simp

/-- What a result of 32 or 64 bits writes. -/
theorem Strand.result_vals (t : Strand) (m : Mask) (wide : Bool) (tag lo hi : Tag) (d : Nat) (f : Nat → Nat) :
    ((if wide then t.result64 m lo hi d f else [t.result m tag d (fun l => BitVec.ofNat 32 (f l))]).map Put.d
      = (resultOf wide d f).map Prod.fst)
    ∧ ∀ r ∈ resultOf wide d f, ∃ p ∈ (if wide then t.result64 m lo hi d f else [t.result m tag d (fun l => BitVec.ofNat 32 (f l))]),
        p.d = r.1 ∧ ∀ l, l < 8 → p.vals.get l = if laneOn m l then r.2 l else t.lane r.1 l := by
  cases wide
  · refine ⟨rfl, fun r hr => ?_⟩
    simp only [resultOf, Bool.false_eq_true, if_false, List.mem_singleton] at hr ⊢
    subst hr
    exact ⟨_, rfl, rfl, fun l hl => t.result_get _ _ _ _ l hl⟩
  · refine ⟨rfl, fun r hr => ?_⟩
    simp only [resultOf, if_true, List.mem_cons, List.not_mem_nil, or_false] at hr
    rcases hr with rfl | rfl
    · exact ⟨_, List.mem_cons_self, rfl, fun l hl => t.result_get _ _ _ _ l hl⟩
    · exact ⟨_, List.mem_cons_of_mem _ List.mem_cons_self, rfl, fun l hl => t.result_get _ _ _ _ l hl⟩

theorem resultOf_regs (wide : Bool) (d : BitVec 6) (f : Nat → Nat) : (resultOf wide d.toNat f).map Prod.fst = regsW wide d := by
  cases wide <;> rfl

theorem resultOf_nodup (wide : Bool) (d : Nat) (f : Nat → Nat) : ((resultOf wide d f).map Prod.fst).Nodup := by
  cases wide <;> simp [resultOf]

/-- A result of 32 or 64 bits given under the effective lane mask, with no draw. -/
theorem gives_wide {s : State} {e : Env} {i : Instr} (h : Starts s e i) {body : Env → Mask → Res} (hx : exec i s = issue (reqOf i) body s)
    {wide el : Bool} {xg : Word} {tag lo hi : Tag} {d : BitVec 6} {f : Nat → Nat}
    (hb : body e (maskFor i e) = (reqOf i).give e (maskFor i e) el xg 0
      (if wide then e.t.result64 (maskFor i e) lo hi d.toNat f else [e.t.result (maskFor i e) tag d.toNat (fun l => BitVec.ofNat 32 (f l))]))
    (hw : (reqOf i).writes = regsW wide d) : Gives s e i (resultOf wide d.toNat f) 0 0 := by
  obtain ⟨h1, h2⟩ := e.t.result_vals (maskFor i e) wide tag lo hi d.toNat f
  refine gives_of_give h hx (.refl e) rfl rfl rfl (.none i e) hb h1 h2 ?_ (resultOf_nodup _ _ _) (fun _ => rfl)
  intro r hr
  rw [hw, ← resultOf_regs wide d f]
  exact List.mem_map_of_mem hr

/-- An integer result (`Req.giveInt`). -/
theorem gives_int {s : State} {e : Env} {i : Instr} (h : Starts s e i) {body : Env → Mask → Res} (hx : exec i s = issue (reqOf i) body s)
    {wide : Bool} {tag : Tag} {d : BitVec 6} {f : Nat → Nat} (hb : body e (maskFor i e) = (reqOf i).giveInt e (maskFor i e) wide tag d.toNat f)
    (hw : (reqOf i).writes = regsW wide d) : Gives s e i (resultOf wide d.toNat f) 0 0 :=
  gives_wide h hx hb hw

/-- One 32-bit result. -/
theorem gives_one {s : State} {e : Env} {i : Instr} (h : Starts s e i) {body : Env → Mask → Res} (hx : exec i s = issue (reqOf i) body s)
    {el : Bool} {xg : Word} {tag : Tag} {d : Nat} {f : Nat → Word}
    (hb : body e (maskFor i e) = (reqOf i).give e (maskFor i e) el xg 0 [e.t.result (maskFor i e) tag d f])
    (hw : d ∈ (reqOf i).writes) : Gives s e i [(d, f)] 0 0 := by
  refine gives_of_give h hx (.refl e) rfl rfl rfl (.none i e) hb rfl ?_ ?_ (by simp) (fun _ => rfl)
  · intro r hr
    simp only [List.mem_singleton] at hr
    subst hr
    exact ⟨_, List.mem_singleton.mpr rfl, rfl, fun l hl => e.t.result_get _ _ _ _ l hl⟩
  · intro r hr
    simp only [List.mem_singleton] at hr
    subst hr
    exact hw

/-- One eligible 32-bit result (`Req.put`). -/
theorem gives_put {s : State} {e : Env} {i : Instr} (h : Starts s e i) {body : Env → Mask → Res} (hx : exec i s = issue (reqOf i) body s)
    {tag : Tag} {d : BitVec 6} {f : Nat → Word}
    (hb : body e (maskFor i e) = (reqOf i).put e (maskFor i e) [e.t.result (maskFor i e) tag d.toNat f])
    (hw : (reqOf i).writes = regs1 d) : Gives s e i [(d.toNat, f)] 0 0 :=
  gives_one h hx hb (by rw [hw]; exact List.mem_cons_self)

/-- One 32-bit result with flags. -/
theorem gives_flags {s : State} {e : Env} {i : Instr} (h : Starts s e i) {body : Env → Mask → Res} (hx : exec i s = issue (reqOf i) body s)
    {el : Bool} {xg : Word} {tag : Tag} {d : Nat} {f : Nat → Word} {fl : BitVec 5} {k : Nat}
    (hb : body e (maskFor i e) = (reqOf i).give (e.tookDraws (maskFor i e) k) (maskFor i e) el xg fl [e.t.result (maskFor i e) tag d f])
    (hw : d ∈ (reqOf i).writes) (hfl : maskFor i e = 0 → fl = 0) : Gives s e i [(d, f)] fl k := by
  have hreg : (e.tookDraws (maskFor i e) k).t.regs = e.t.regs := by unfold Env.tookDraws; split <;> rfl
  have hpre : (e.tookDraws (maskFor i e) k).t.preds = e.t.preds := by unfold Env.tookDraws; split <;> rfl
  have hff : (e.tookDraws (maskFor i e) k).t.fflags = e.t.fflags := by unfold Env.tookDraws; split <;> rfl
  refine gives_of_give h hx (e.tookDraws_computed _ _) hreg hpre hff ?_ hb rfl ?_ ?_ (by simp) hfl
  · intro l hl
    unfold Env.tookDraws
    split
    · rename_i hk; subst hk; simp
    · rw [Strand.thread_modThreads _ _ _ _ hl]
      split <;> simp
  · intro r hr
    simp only [List.mem_singleton] at hr
    subst hr
    exact ⟨_, List.mem_singleton.mpr rfl, rfl, fun l hl => e.t.result_get _ _ _ _ l hl⟩
  · intro r hr
    simp only [List.mem_singleton] at hr
    subst hr
    exact hw

/-- A rounding form. -/
theorem rounds_of_give {s : State} {e : Env} {i : Instr} (h : Starts s e i) {body : Env → Mask → Res} (hx : exec i s = issue (reqOf i) body s)
    {el : Bool} {xg : Word} {tag : Tag} {d : BitVec 6} {cnt : Nat} {join : List Nat → Word} {stoch : Bool} {elem : Nat → Nat → Nat → Rounded}
    (hb : body e (maskFor i e) = (reqOf i).give (e.tookDraws (maskFor i e) (if stoch then cnt else 0)) (maskFor i e) el xg
      (raisedBy (maskFor i e) (outOf e cnt stoch elem))
      [e.t.result (maskFor i e) tag d.toNat (fun l => join ((outOf e cnt stoch elem l).map Rounded.code))])
    (hw : (reqOf i).writes = regs1 d) : Rounds s e i d cnt join stoch elem := by
  refine gives_flags h hx hb (by rw [hw]; exact List.mem_cons_self) (fun hm => ?_)
  rw [hm, raisedBy, lanesOf_zero]
  rfl

/-- A list of results. -/
theorem gives_list {s : State} {e : Env} {i : Instr} (h : Starts s e i) {body : Env → Mask → Res} (hx : exec i s = issue (reqOf i) body s)
    {el : Bool} {xg : Word} {rs : List (Nat × Tag × (Nat → Word))}
    (hb : body e (maskFor i e) = (reqOf i).give e (maskFor i e) el xg 0 (rs.map (fun r => e.t.result (maskFor i e) r.2.1 r.1 r.2.2)))
    (hw : rs.map Prod.fst = (reqOf i).writes) (hn : (rs.map Prod.fst).Nodup) : Gives s e i (rs.map (fun r => (r.1, r.2.2))) 0 0 := by
  have he : (rs.map (fun r => (r.1, r.2.2))).map Prod.fst = rs.map Prod.fst := by simp
  refine gives_of_give h hx (.refl e) rfl rfl rfl (.none i e) hb ?_ ?_ ?_ (by rw [he]; exact hn) (fun _ => rfl)
  · rw [he, List.map_map]; rfl
  · intro r hr
    obtain ⟨x, hx1, rfl⟩ := List.mem_map.mp hr
    exact ⟨_, List.mem_map_of_mem hx1, rfl, fun l hl => e.t.result_get _ _ _ _ l hl⟩
  · intro r hr
    obtain ⟨x, hx1, rfl⟩ := List.mem_map.mp hr
    rw [← hw]
    exact List.mem_map_of_mem hx1

/-- A word whose body changes one predicate. -/
theorem sets_of_computed {s : State} {e e' : Env} {i : Instr} (h : Starts s e i) {body : Env → Mask → Res}
    (hx : exec i s = issue (reqOf i) body s) (hb : body e (maskFor i e) = .done e') (hc : Computed e e') (hr : e'.t.regs = e.t.regs)
    (ht : e'.t.threads = e.t.threads) {p : Nat} {val : Mask} {fl : BitVec 5} (hp : ∀ q, q < 8 → e'.t.pred q =
      if q = p ∧ q ≠ 0 then (e.t.pred q &&& ~~~(maskFor i e)) ||| (val &&& maskFor i e) else e.t.pred q)
    (hf : e'.t.fflags = e.t.fflags ||| fl) : Sets s e i p val fl := by
  obtain ⟨hs, hpl, _⟩ := State.issuer_spec h.issuer
  obtain ⟨u, k1, k2, k3, k4, kd, k5, k6, k7⟩ := hc.kept hs hpl
  refine ⟨_, u, by rw [hx, issue_starts h, hb], k1, k2, k3, k4, ?_, by rw [k5, hr], ?_, by rw [k7, hf]⟩
  · intro l hl
    rw [kd l hl, Strand.thread, ht]
    exact Drew.none i e l hl
  · intro q hq
    rw [← hp q hq]
    simp only [Strand.pred, k6]

/-- Bits of a predicate written under a mask. -/
theorem Strand.pred_mergePred (t : Strand) (p q : Nat) (m v : Mask) (hq : q < 8) :
    (t.mergePred p m v).pred q = if q = p ∧ q ≠ 0 then (t.pred q &&& ~~~m) ||| (v &&& m) else t.pred q := by
  unfold Strand.mergePred Strand.setPred
  by_cases hp : p = 0
  · subst hp
    simp only [if_true]
    rw [if_neg (fun h => h.2 h.1)]
  · simp only [hp, if_false]
    by_cases h0 : q = 0
    · subst h0; simp [Strand.pred]
    · simp only [Strand.pred, h0, if_false, L8.set, L8.get_mapi _ _ _ hq, hp]
      by_cases hqp : q = p
      · subst hqp; simp [h0]
      · simp [hqp]

/-- A word that merges one predicate. -/
theorem sets_merge {s : State} {e : Env} {i : Instr} (h : Starts s e i) {body : Env → Mask → Res} (hx : exec i s = issue (reqOf i) body s)
    {p : Nat} {val : Mask} {fl : BitVec 5}
    (hb : body e (maskFor i e) = .done { (e.orFlags fl) with t := (e.orFlags fl).t.mergePred p (maskFor i e) val }) : Sets s e i p val fl := by
  have hm : ∀ t : Strand, t.mergePred p (maskFor i e) val = { t with preds := (t.mergePred p (maskFor i e) val).preds } := by
    intro t; unfold Strand.mergePred Strand.setPred; split <;> rfl
  refine sets_of_computed h hx hb ?_ ?_ ?_ ?_ ?_
  · refine ⟨rfl, fun _ => rfl, rfl, ?_, fun l _ => ⟨(e.t.thread l).draws, ?_⟩, ?_⟩
    · dsimp only; rw [hm]; rfl
    · dsimp only; rw [hm]; rfl
    · dsimp only; rw [hm]; exact ⟨rfl, rfl⟩
  · dsimp only; rw [hm]; rfl
  · dsimp only; rw [hm]; rfl
  · intro q hq; dsimp only; rw [Strand.pred_mergePred _ _ _ _ _ hq]; rfl
  · dsimp only; rw [hm]; rfl

end Sys2Proof.Machine
end

