-- ==== Sys2Proof/Laws/Ends.lean ====
section
/-! SUPPORT. From the body of a meaning to the machine's next state: words that end their unit, that move their group, that
trap, and branches. -/

namespace Sys2Proof.Machine

theorem ends_of {s : State} {e e' : Env} {i : Instr} (h : Starts s e i) {body : Env → Mask → Res} (hx : exec i s = issue (reqOf i) body s)
    (hb : body e (maskFor i e) = .done e') : Ends s i e' := by
  unfold Ends
  rw [hx, issue_starts h, hb]
  rfl

theorem moves_of {s : State} {e e' : Env} {i : Instr} (h : Starts s e i) {body : Env → Mask → Res} (hx : exec i s = issue (reqOf i) body s)
    (hb : body e (maskFor i e) = .moved e') : Moves s i e' := by
  unfold Moves
  rw [hx, issue_starts h, hb]
  rfl

theorem becomes_of {s : State} {e e' : Env} {i : Instr} (h : Starts s e i) {body : Env → Mask → Res} (hx : exec i s = issue (reqOf i) body s)
    (hb : body e (maskFor i e) = .ovr e') : Becomes s i e' := by
  unfold Becomes
  rw [hx, issue_starts h, hb]
  rfl

/-- A word that waits for something: its strand is left as the body leaves it, and it issues again. -/
theorem holds_of {s : State} {e e' : Env} {i : Instr} (h : Starts s e i) {body : Env → Mask → Res} (hx : exec i s = issue (reqOf i) body s)
    (hb : body e (maskFor i e) = .hold e') : Becomes s i e' := by
  unfold Becomes
  rw [hx, issue_starts h, hb]
  rfl

theorem traps_of {s : State} {e e' : Env} {i : Instr} (h : Starts s e i) {body : Env → Mask → Res} (hx : exec i s = issue (reqOf i) body s)
    {ti : TrapInfo} {part : Bool} (hb : body e (maskFor i e) = .trap e' ti part) : Traps s i e' ti part := by
  unfold Traps
  rw [hx, issue_starts h, hb]
  rfl

/-! ### Words that something follows -/

theorem then_done_of {s : State} {e e' : Env} {i : Instr} (h : Starts s e i) {after : Nat → State → State} {body : Env → Mask → Res}
    (hx : exec i s = issueThen (reqOf i) after body s) (hb : body e (maskFor i e) = .done e') :
    exec i s = .next (after e.c.id (e'.endUnit false).commit) := by
  rw [hx, issueThen_starts h, hb]; rfl

theorem then_moved_of {s : State} {e e' : Env} {i : Instr} (h : Starts s e i) {after : Nat → State → State} {body : Env → Mask → Res}
    (hx : exec i s = issueThen (reqOf i) after body s) (hb : body e (maskFor i e) = .moved e') :
    exec i s = .next (after e.c.id (e'.endUnit true).commit) := by
  rw [hx, issueThen_starts h, hb]; rfl

theorem then_ovr_of {s : State} {e e' : Env} {i : Instr} (h : Starts s e i) {after : Nat → State → State} {body : Env → Mask → Res}
    (hx : exec i s = issueThen (reqOf i) after body s) (hb : body e (maskFor i e) = .ovr e') :
    exec i s = .next (after e.c.id e'.commit) := by
  rw [hx, issueThen_starts h, hb]; rfl

theorem then_trap_of {s : State} {e e' : Env} {i : Instr} (h : Starts s e i) {after : Nat → State → State} {body : Env → Mask → Res}
    (hx : exec i s = issueThen (reqOf i) after body s) {ti : TrapInfo} {part : Bool} (hb : body e (maskFor i e) = .trap e' ti part) :
    Traps s i e' ti part := by
  unfold Traps
  rw [hx, issueThen_starts h, hb]; rfl

/-- The issuer's machine is the machine. -/
theorem Starts.machine {s : State} {e : Env} {i : Instr} (h : Starts s e i) : e.s = s := (State.issuer_spec h.issuer).1

/-- A counter with room: the operation is in flight. -/
theorem Env.start_room (e : Env) (k : Ctr) (dsts : List Nat) (pdst : Option Nat) (kind : OpKind) (h : e.t.full k = false)
    (srcs : List Nat := []) : e.start k dsts pdst kind srcs = .done (e.inFlight k dsts pdst kind srcs) := by
  have hm : e.makeRoom k = e := by unfold Env.makeRoom; simp [h]
  unfold Env.start
  simp only [hm, h, Bool.false_eq_true, if_false]
  rfl

/-- Nothing is performed when nothing in flight is wanted. -/
theorem Env.settle_none (e : Env) (want : Pending → Bool) (h : ∀ p ∈ e.t.inflight, want p = false) : e.settle want = e := by
  have : e.t.inflight.filter (fun p => !p.done && want p) = [] := by
    rw [List.filter_eq_nil_iff]
    intro p hp
    simp [h p hp]
  unfold Env.settle
  rw [this]
  rfl

/-! ### Branches -/

/-- A word that `rep` may not repeat stands under none (R79, R80). -/
theorem Starts.noRep {s : State} {e : Env} {i : Instr} (h : Starts s e i) (hr : (reqOf i).rep = .no) : e.t.unit.rep = none := by
  have hl := h.legal
  unfold Req.illegal at hl
  simp only [Bool.or_eq_false_iff] at hl
  have h2 := hl.1.1.1.1.1.2
  unfold Req.prefixBad at h2
  rw [hr] at h2
  cases hp : e.t.unit.rep with
  | none => rfl
  | some p => simp [hp] at h2

/-- A branch with no bad target; `first` writes what a call writes. -/
theorem branches_of {s : State} {e : Env} {i : Instr} (h : Starts s e i) {body : Env → Mask → Res} (hx : exec i s = issue (reqOf i) body s)
    (hrep : (reqOf i).rep = .no) {target : Nat → Nat} {first : Env → Env} (hb : body e (maskFor i e) = e.branch (maskFor i e) target first)
    (hgood : ∀ l, l < 8 → laneOn (maskFor i e) l = true → e.badTarget (target l) = false) (hf : Inner e (first e))
    (ht : (first e).t.threads = e.t.threads) (hg : (first e).t.group = e.t.group) (hp : (first e).t.preds = e.t.preds)
    (hff : (first e).t.fflags = e.t.fflags) (hu : (first e).t.unit = e.t.unit) {rs : List (Nat × (Nat → Word))}
    (hv : ∀ r ∈ rs, ∀ l, l < 8 → (first e).t.lane r.1 l = if laneOn (maskFor i e) l then r.2 l else e.t.lane r.1 l)
    (ho : ∀ v, v ∉ rs.map Prod.fst → (first e).t.reg v = e.t.reg v) : Branches s e i target rs := by
  obtain ⟨hs, hpl, _⟩ := State.issuer_spec h.issuer
  have hz : maskOf (fun l => laneOn (maskFor i e) l && e.badTarget (target l)) = 0 := by
    rw [maskOf_eq_zero, List.any_eq_false]
    intro l hl
    have hl := List.mem_range.mp hl
    cases hm : laneOn (maskFor i e) l
    · simp
    · simp [hgood l hl hm]
  have hbr : e.branch (maskFor i e) target first = .moved ((first e).on ((first e).t.modThreads (first e).t.group (fun l x =>
      { x with pc := if laneOn (maskFor i e) l then BitVec.ofNat 57 (target l) else e.t.fetchPc + 4 }))) := by
    unfold Env.branch
    simp only [hz, ne_eq, not_true_eq_false, if_false]
    rfl
  have hin : Inner e ((first e).on ((first e).t.modThreads (first e).t.group (fun l x =>
      { x with pc := if laneOn (maskFor i e) l then BitVec.ofNat 57 (target l) else e.t.fetchPc + 4 }))) :=
    ⟨hf.rest, hf.cores, hf.crew, by dsimp only [Env.on, Strand.modThreads]; rw [hf.strand]⟩
  obtain ⟨k1, k2, k3, k4, k5, k6⟩ := hin.ended hs hpl true
  refine ⟨_, _, by rw [hx, issue_starts h, hb, hbr]; rfl, k1, k2, k3, ?_, ?_, ?_, by rw [k5]; exact hp, by rw [k6]; exact hff⟩
  · intro l hl
    have hm : ((first e).on ((first e).t.modThreads (first e).t.group (fun l x =>
      { x with pc := if laneOn (maskFor i e) l then BitVec.ofNat 57 (target l) else e.t.fetchPc + 4 }))).t.moreReps = false := by
      have : ∀ t : Strand, t.unit.rep = none → t.moreReps = false := by intro t ht; simp [Strand.moreReps, ht]
      apply this
      show (first e).t.unit.rep = none
      rw [hu]
      exact h.noRep hrep
    obtain ⟨z, z1, z2⟩ := Env.endUnit_moved _ hm l hl
    refine ⟨z, ?_, z2⟩
    have : ((first e).on ((first e).t.modThreads (first e).t.group (fun l x =>
      { x with pc := if laneOn (maskFor i e) l then BitVec.ofNat 57 (target l) else e.t.fetchPc + 4 }))).t.thread l
        = { e.t.thread l with pc := branchPc i e target l } := by
      have htl : (first e).t.thread l = e.t.thread l := by simp only [Strand.thread, ht]
      dsimp only [Env.on]
      rw [Strand.thread_modThreads _ _ _ _ hl, hg, htl, branchPc]
      split <;> rfl
    rw [this] at z1
    exact z1
  · intro r hr l hl
    rw [← hv r hr l hl]
    simp only [Strand.lane, Strand.reg, k4]
    rfl
  · intro v hvn
    rw [← ho v hvn]
    simp only [Strand.reg, k4]
    rfl

theorem Inner.refl (e : Env) : Inner e e := ⟨rfl, fun _ => rfl, rfl, rfl⟩

/-- A branch that writes nothing. -/
theorem branches_plain {s : State} {e : Env} {i : Instr} (h : Starts s e i) {body : Env → Mask → Res} (hx : exec i s = issue (reqOf i) body s)
    (hrep : (reqOf i).rep = .no) {target : Nat → Nat} (hb : body e (maskFor i e) = e.branch (maskFor i e) target id)
    (hgood : ∀ l, l < 8 → laneOn (maskFor i e) l = true → e.badTarget (target l) = false) : Branches s e i target [] :=
  branches_of h hx hrep hb hgood (.refl e) rfl rfl rfl rfl rfl (fun r hr => by cases hr) (fun _ _ => rfl)

/-- A call. -/
theorem branches_call {s : State} {e : Env} {i : Instr} (h : Starts s e i) {body : Env → Mask → Res} (hx : exec i s = issue (reqOf i) body s)
    (hrep : (reqOf i).rep = .no) {target : Nat → Nat} {tag : Tag} {d : Nat}
    (hb : body e (maskFor i e) = e.branch (maskFor i e) target (fun e1 => e1.putReturn (maskFor i e) tag d))
    (hgood : ∀ l, l < 8 → laneOn (maskFor i e) l = true → e.badTarget (target l) = false) (hw : (reqOf i).writes = [d, d + 1]) :
    Branches s e i target (resultOf true d (fun _ => (e.t.fetchPc + 4).toNat)) := by
  have hb1 : ∀ v ∈ [d, d + 1], v < e.t.regs.length := fun v hv => h.bound (List.mem_append_right _ (by rw [hw]; exact hv))
  have hd : ∀ p ∈ e.t.result64 (maskFor i e) tag tag d (fun _ => (e.t.fetchPc + 4).toNat), p.d < e.t.regs.length := by
    intro p hp
    simp only [Strand.result64, List.mem_cons, List.not_mem_nil, or_false] at hp
    rcases hp with rfl | rfl
    · exact hb1 d (by simp)
    · exact hb1 (d + 1) (by simp)
  have hc := e.puts_computed true (e.t.result64 (maskFor i e) tag tag d (fun _ => (e.t.fetchPc + 4).toNat))
  have hwr := e.puts_written true _ hd (by simp [Strand.result64, Strand.result])
  obtain ⟨h1, h2⟩ := e.t.result_vals (maskFor i e) true tag tag tag d (fun _ => (e.t.fetchPc + 4).toNat)
  refine branches_of h hx hrep hb hgood hc.inner (by dsimp only [Env.putReturn]; rw [hwr.rest]) (by dsimp only [Env.putReturn]; rw [hwr.rest])
    (by dsimp only [Env.putReturn]; rw [hwr.rest]) (by dsimp only [Env.putReturn]; rw [hwr.rest]) (by dsimp only [Env.putReturn]; rw [hwr.rest]) ?_ ?_
  · intro r hr l hl
    obtain ⟨p, hp, hpd, hpv⟩ := h2 r hr
    rw [← hpv l hl, ← hwr.vals p hp, hpd]
    rfl
  · intro v hv
    exact hwr.other v (by rw [show (e.t.result64 (maskFor i e) tag tag d (fun _ => (e.t.fetchPc + 4).toNat)).map Put.d
      = (resultOf true d (fun _ => (e.t.fetchPc + 4).toNat)).map Prod.fst from h1]; exact hv)

/-- A branch with a bad target. -/
theorem branch_traps {s : State} {e : Env} {i : Instr} (h : Starts s e i) {body : Env → Mask → Res} (hx : exec i s = issue (reqOf i) body s)
    {target : Nat → Nat} {first : Env → Env} (hb : body e (maskFor i e) = e.branch (maskFor i e) target first)
    (hbad : maskOf (fun l => laneOn (maskFor i e) l && e.badTarget (target l)) ≠ 0) :
    Traps s i e (.plain cALIGN (maskOf (fun l => laneOn (maskFor i e) l && e.badTarget (target l)))) false := by
  refine traps_of h hx ?_
  rw [hb]
  unfold Env.branch
  simp only [hbad, ne_eq, not_false_eq_true, if_true]

end Sys2Proof.Machine
end

