-- ==== Sys2Proof/Laws/Access.lean ====
section
/-! SUPPORT. Lane accesses whose elements are all clear: no fault, no miss, and the issuing strand keeps everything but its last
pages. -/

namespace Sys2Proof.Machine

/-- A scan that has met no element that faults or misses. -/
def Scan.Sound (sc : Scan) : Prop := sc.needs = [] ∧ sc.align = 0 ∧ sc.fault = 0

theorem Scan.Sound.add {sc : Scan} (h : sc.Sound) (lane va : Nat) {c : ECls} (hc : ∃ tr, c = .good tr ∨ c = .absent tr) :
    (sc.add lane va c).Sound := by
  obtain ⟨tr, rfl | rfl⟩ := hc <;> (unfold Scan.add; dsimp only; split <;> exact h)

theorem Scan.Sound.els {lane : Nat} (xs : List LaneEl) : ∀ {sc : Scan}, sc.Sound →
    (∀ x ∈ xs, ∃ tr, x.cls = .good tr ∨ x.cls = .absent tr) →
    (xs.foldl (fun s (el : LaneEl) => match el.cls with | .need => s.add lane el.want .need | c => s.add lane el.va c) sc).Sound := by
  induction xs with
  | nil => intro sc h _; exact h
  | cons x r ih =>
    intro sc h hx
    refine ih ?_ (fun y hy => hx y (List.mem_cons_of_mem _ hy))
    have := hx x (List.mem_cons_self ..)
    obtain ⟨tr, ht | ht⟩ := this
    · simp only [ht]; exact h.add _ _ ⟨tr, .inl rfl⟩
    · simp only [ht]; exact h.add _ _ ⟨tr, .inr rfl⟩

/-- Clear elements give no miss, no misalignment and no refusal (R198). -/
theorem scanLanes_clear (m : Mask) (els : Nat → List LaneEl) (h : Clear m els) : (scanLanes (acting m els)).Sound := by
  unfold scanLanes
  have key : ∀ (ls : List Nat), (∀ l ∈ ls, ∀ x ∈ els l, ∃ tr, x.cls = .good tr ∨ x.cls = .absent tr) → ∀ sc : Scan, sc.Sound →
      ((ls.map (fun l => (l, els l))).foldl (fun s (x : Nat × List LaneEl) => x.2.foldl (fun s (el : LaneEl) =>
        match el.cls with | .need => s.add x.1 el.want .need | c => s.add x.1 el.va c) s) sc).Sound := by
    intro ls
    induction ls with
    | nil => intro _ sc hs; exact hs
    | cons l r ih =>
      intro hl sc hs
      exact ih (fun k hk => hl k (List.mem_cons_of_mem _ hk)) _ (hs.els _ (hl l (List.mem_cons_self ..)))
  exact key _ h _ ⟨rfl, rfl, rfl⟩

theorem acting_filter (m : Mask) (els : Nat → List LaneEl) : (acting m els).filter (fun x => laneOn m x.1) = acting m els := by
  rw [List.filter_eq_self]
  intro x hx
  obtain ⟨l, hl, rfl⟩ := List.mem_map.mp hx
  exact (List.mem_filter.mp hl).2

/-- R198: an access whose elements are all clear is performed for every acting lane. -/
theorem Env.access_clear (e : Env) (kind : BitVec 5) (m : Mask) (els : Nat → List LaneEl)
    (go : Env → Mask → List (Nat × List LaneEl) → Res) (h : Clear m els) :
    e.access kind m els go = go (e.keepLast (acting m els)) m (acting m els) := by
  obtain ⟨h1, h2, h3⟩ := scanLanes_clear m els h
  unfold acting at h1 h2 h3
  have hm : m &&& ~~~(0 : Mask) = m := by
    apply mask_ext; intro l hl; simp only [laneOn, BitVec.getLsbD_and, BitVec.getLsbD_not, hl]; simp
  have hf := acting_filter m els
  unfold acting at hf
  unfold Env.access
  simp only [h1, h2, h3, List.isEmpty_nil, Bool.not_true, Bool.false_eq_true, if_false, ne_eq, not_true_eq_false, hm, hf, if_true]
  show (match go (e.keepLast (acting m els)) m (acting m els) with | .done e1 => Res.done e1 | x => x) = _
  cases go (e.keepLast (acting m els)) m (acting m els) <;> rfl

/-- What an access without an open transaction keeps: all but the threads, and of those all but the last page. -/
structure PagesOnly (t u : Strand) : Prop where
  rest    : u = { t with threads := u.threads }
  threads : ∀ l, l < 8 → ∃ p, u.thread l = { t.thread l with lastPage := p }

theorem PagesOnly.refl (t : Strand) : PagesOnly t t := ⟨rfl, fun _ _ => ⟨_, rfl⟩⟩

theorem PagesOnly.modThread {t u : Strand} (h : PagesOnly t u) (k : Nat) (p : Option Trans) :
    PagesOnly t (u.modThread k (fun th => { th with lastPage := p })) := by
  refine ⟨by rw [Strand.modThread, h.rest], fun l hl => ?_⟩
  rw [Strand.thread_modThread _ _ _ _ hl]
  obtain ⟨q, hq⟩ := h.threads l hl
  split
  · exact ⟨p, by rw [hq]⟩
  · exact ⟨q, hq⟩

theorem Env.keepLast_strand (e : Env) (xs : List (Nat × List LaneEl)) : PagesOnly e.t (e.keepLast xs).t := by
  have key : ∀ (t u : Strand), PagesOnly t u → PagesOnly t (xs.foldl (fun t (x : Nat × List LaneEl) => match x.2 with
      | el :: _ => match el.trans with
        | some tr => t.modThread x.1 (fun th => { th with lastPage := some tr })
        | none => t
      | [] => t) u) := by
    induction xs with
    | nil => intro t u h; exact h
    | cons x r ih =>
      intro t u h
      refine ih t _ ?_
      dsimp only
      split
      · split
        · exact h.modThread _ _
        · exact h
      · exact h
  exact key _ _ (.refl _)

@[simp] theorem Env.keepLast_s (e : Env) (xs : List (Nat × List LaneEl)) : (e.keepLast xs).s = e.s := rfl
@[simp] theorem Env.keepLast_c (e : Env) (xs : List (Nat × List LaneEl)) : (e.keepLast xs).c = e.c := rfl

theorem Env.keepLast_reg (e : Env) (xs : List (Nat × List LaneEl)) (v : Nat) : (e.keepLast xs).t.reg v = e.t.reg v := by
  rw [(e.keepLast_strand xs).rest]; rfl

theorem Env.keepLast_full (e : Env) (xs : List (Nat × List LaneEl)) (k : Ctr) : (e.keepLast xs).t.full k = e.t.full k := by
  rw [(e.keepLast_strand xs).rest]; rfl

theorem Strand.txActive_pages {t u : Strand} (h : PagesOnly t u) : u.txActive = t.txActive := by
  unfold Strand.txActive
  have : ∀ l, l < 8 → (u.thread l).tx = (t.thread l).tx := by
    intro l hl
    obtain ⟨p, hp⟩ := h.threads l hl
    rw [hp]
  rw [Bool.eq_iff_iff, List.any_eq_true, List.any_eq_true]
  constructor
  · rintro ⟨l, hl, hx⟩; exact ⟨l, hl, by rw [← this l (List.mem_range.mp hl)]; exact hx⟩
  · rintro ⟨l, hl, hx⟩; exact ⟨l, hl, by rw [this l (List.mem_range.mp hl)]; exact hx⟩

/-- With no ACTIVE lane an absent element dooms nothing. -/
theorem Strand.doomAbsent_none (t : Strand) (m : Mask) (h : t.txActive = false) : t.doomAbsent m = t := by
  have hth : (t.doomAbsent m).threads = t.threads := by
    apply L8.ext_get
    intro l hl
    have : (t.doomAbsent m).thread l = t.thread l := by
      unfold Strand.doomAbsent
      rw [Strand.thread_modThreads _ _ _ _ hl]
      have hx : (t.thread l).tx.active = false := by
        have := List.any_eq_false.mp h l (List.mem_range.mpr hl)
        simpa using this
      split <;> simp [hx]
    exact this
  have : t.doomAbsent m = { t with threads := (t.doomAbsent m).threads } := rfl
  rw [this, hth]

theorem Env.startMem_room (e : Env) (k : Ctr) (dsts : List Nat) (kind : OpKind) (now : Bool) (srcs : List Nat) (h : e.t.full k = false) :
    e.startMem k dsts kind now srcs
      = .done (if now then (e.inFlight k dsts none kind srcs).performOp e.t.nextOp else e.inFlight k dsts none kind srcs) := by
  unfold Env.startMem
  rw [e.start_room k dsts none kind h srcs]
  rfl

/-- The lanes' shares of a raw access. -/
theorem acting_accs (m : Mask) (els : Nat → LaneEl) (a b : Nat → DWord) :
    (acting m (fun l => [els l])).flatMap (fun y => y.2.map (fun x => x.acc y.1 (a y.1) (b y.1))) = (lanesOf m).map (fun l => (els l).acc l (a l) (b l)) := by
  unfold acting
  induction lanesOf m with
  | nil => rfl
  | cons l r ih => simp only [List.map_cons, List.flatMap_cons, List.map_nil, List.cons_append, List.nil_append, ih]

/-- A predicate written with what it holds is unchanged. -/
theorem Strand.markAbsent_zero (t : Strand) : t.markAbsent 0 = t := by
  have h : (t.pred 7 &&& ~~~(0 : Mask)) ||| (0xFF &&& 0) = t.preds.get 7 := by
    apply mask_ext; intro l hl
    simp only [laneOn, BitVec.getLsbD_or, BitVec.getLsbD_and, BitVec.getLsbD_not, hl, Strand.pred]
    simp
  unfold Strand.markAbsent Strand.mergePred Strand.setPred
  rw [h]
  cases t
  rfl

/-- R192, R205: the stores of lanes none of which has a transaction open are in flight together. -/
theorem Env.storeLanes_plain (e : Env) (n : Nat) (srcs : List Nat) (trs : Nat → Option Trans) (accs : List LaneAcc)
    (h : ∀ x ∈ accs, (e.t.thread x.lane).tx.open = false) (hf : e.t.full .st = false) (ht : e.t.txActive = false) :
    e.storeLanes n srcs trs accs = .done (e.inFlight .st [] none (.store n accs) srcs) := by
  have h1 : accs.filter (fun x => (e.t.thread x.lane).tx.open) = [] := by
    rw [List.filter_eq_nil_iff]; intro x hx; rw [h x hx]; exact Bool.false_ne_true
  have h2 : accs.filter (fun x => !(e.t.thread x.lane).tx.open) = accs := by
    rw [List.filter_eq_self]; intro x hx; rw [h x hx]; rfl
  have h3 : ∀ l, accs.any (fun x => x.lane = l && x.absent && (e.t.thread x.lane).tx.open) = false := by
    intro l; rw [List.any_eq_false]; intro x hx; rw [h x hx]; simp
  have h4 : maskOf (fun _ => false) = 0 := by decide
  unfold Env.storeLanes
  simp only [h1, h2, h3, h4, List.foldl_nil, Strand.markAbsent_zero, ht]
  rw [e.startMem_room _ _ _ _ _ hf]
  rfl

/-! ### Local accesses -/

/-- R188, R207: an aligned local access inside the claim that no copy holds goes on with its lanes' addresses. -/
theorem Env.localAccess_clear (e : Env) (sp : Space) (m : Mask) (addr : Nat → Nat) (store : Bool) (go : Env → (Nat → Nat) → Res)
    (h : LocalClear e sp m addr store) : e.localAccess sp m addr store go = go e (fun l => (e.c.claim sp).base + addr l) := by
  obtain ⟨h1, h2⟩ := h
  have mem : ∀ l, l ∈ List.range 8 → laneOn m l = true → l ∈ lanesOf m := fun l hl hm => List.mem_filter.mpr ⟨hl, hm⟩
  have ha : maskOf (fun l => laneOn m l && decide (addr l % 4 ≠ 0)) = 0 := by
    rw [maskOf_eq_zero, List.any_eq_false]
    intro l hl
    cases hm : laneOn m l
    · simp
    · simp [(h1 l (mem l hl hm)).1]
  have hb : maskOf (fun l => laneOn m l && decide ((e.c.claim sp).size < addr l + 4)) = 0 := by
    rw [maskOf_eq_zero, List.any_eq_false]
    intro l hl
    cases hm : laneOn m l
    · simp
    · have := (h1 l (mem l hl hm)).2
      simp; omega
  have hn : ∀ b ∈ e.s.board e.c.core,
      ((lanesOf m).map (fun l => (e.c.claim sp).base + addr l)).any (fun a => b.blocks sp a store) = false := by
    intro b hb'
    rw [List.any_eq_false]
    intro a ha'
    obtain ⟨l, hl, rfl⟩ := List.mem_map.mp ha'
    rw [h2 b hb' l hl]
    exact Bool.false_ne_true
  have hc : e.clearBoard sp ((lanesOf m).map (fun l => (e.c.claim sp).base + addr l)) store = e := by
    unfold Env.clearBoard
    rw [List.filter_eq_nil_iff.mpr (fun b hb' => by rw [hn b hb']; exact Bool.false_ne_true)]
    rfl
  have hs : (e.s.board e.c.core).any
      (fun b => ((lanesOf m).map (fun l => (e.c.claim sp).base + addr l)).any (fun a => b.blocks sp a store)) = false := by
    rw [List.any_eq_false]
    intro b hb'
    rw [hn b hb']
    exact Bool.false_ne_true
  unfold Env.localAccess
  simp only [ha, hb, hc, hs, ne_eq, not_true_eq_false, if_false, Bool.false_eq_true]

end Sys2Proof.Machine
end

