-- ==== Sys2Proof/Laws/Memory.lean ====
section
/-! SUPPORT. Laws of byte storage: a read after a write gives what was written, a write leaves every other address as it was,
and every operation keeps the canonical form. And what a write at a home slice does to memory. -/

namespace Sys2Proof.Machine

/-! ### The canonical form -/

theorem Memory.wf_iff (m : Memory) :
    m.wf = true ↔ m.Pairwise (fun x y => x.1 < y.1) ∧ ∀ c ∈ m, c.2 ≠ Memory.unlisted := by
  match m with
  | [] => simp [Memory.wf]
  | [(a, b)] => simp [Memory.wf]
  | (a, b) :: (a', b') :: r =>
    have ih := Memory.wf_iff ((a', b') :: r)
    simp only [Memory.wf, Bool.and_eq_true, decide_eq_true_eq, bne_iff_ne, ih]
    constructor
    · rintro ⟨⟨hb, hlt⟩, hp, hn⟩
      refine ⟨List.pairwise_cons.2 ⟨?_, hp⟩, ?_⟩
      · intro c hc
        rcases List.mem_cons.1 hc with rfl | hc
        · exact hlt
        · exact Nat.lt_trans hlt ((List.pairwise_cons.1 hp).1 c hc)
      · intro c hc
        rcases List.mem_cons.1 hc with rfl | hc
        · exact hb
        · exact hn c hc
    · rintro ⟨hp, hn⟩
      exact ⟨⟨hn (a, b) (by simp), (List.pairwise_cons.1 hp).1 (a', b') (by simp)⟩, (List.pairwise_cons.1 hp).2, fun c hc => hn c (List.mem_cons_of_mem _ hc)⟩

theorem Memory.wf_tail {k : Nat} {b : Byte} {r : Memory} (h : Memory.wf ((k, b) :: r) = true) :
    Memory.wf r = true ∧ b ≠ Memory.unlisted ∧ ∀ c ∈ r, k < c.1 := by
  rw [Memory.wf_iff] at h
  rw [Memory.wf_iff]
  exact ⟨⟨(List.pairwise_cons.1 h.1).2, fun c hc => h.2 c (List.mem_cons_of_mem _ hc)⟩, h.2 (k, b) (by simp), (List.pairwise_cons.1 h.1).1⟩

theorem Memory.wf_cons {k : Nat} {b : Byte} {r : Memory} (hr : Memory.wf r = true) (hb : b ≠ Memory.unlisted) (hk : ∀ c ∈ r, k < c.1) :
    Memory.wf ((k, b) :: r) = true := by
  rw [Memory.wf_iff] at hr ⊢
  refine ⟨List.pairwise_cons.2 ⟨hk, hr.1⟩, ?_⟩
  intro c hc
  rcases List.mem_cons.1 hc with rfl | hc
  · exact hb
  · exact hr.2 c hc

/-- Below every entry an address reads as an unlisted one. -/
theorem Memory.readByte_below {m : Memory} {a : Nat} (h : ∀ c ∈ m, a < c.1) : Memory.readByte m a = Memory.unlisted := by
  cases m with
  | nil => rfl
  | cons x r => obtain ⟨k, b⟩ := x; simp [Memory.readByte, h (k, b) (by simp)]

/-! ### One byte -/

theorem Memory.mem_writeByte {m : Memory} {a : Nat} {v : Byte} {c : Host.Cell} (h : c ∈ Memory.writeByte m a v) :
    c ∈ m ∨ (c = (a, v) ∧ v ≠ Memory.unlisted) := by
  induction m with
  | nil =>
    unfold Memory.writeByte at h
    split at h
    · cases h
    · exact .inr ⟨by simpa using h, ‹_›⟩
  | cons x r ih =>
    obtain ⟨k, b⟩ := x
    unfold Memory.writeByte at h
    split at h
    · split at h
      · exact .inl h
      · rcases List.mem_cons.1 h with rfl | h
        · exact .inr ⟨rfl, ‹_›⟩
        · exact .inl h
    · split at h
      · split at h
        · exact .inl (List.mem_cons_of_mem _ h)
        · rcases List.mem_cons.1 h with rfl | h
          · exact .inr ⟨rfl, ‹_›⟩
          · exact .inl (List.mem_cons_of_mem _ h)
      · rcases List.mem_cons.1 h with rfl | h
        · exact .inl (by simp)
        · rcases ih h with h | h
          · exact .inl (List.mem_cons_of_mem _ h)
          · exact .inr h

theorem Memory.writeByte_wf {m : Memory} (a : Nat) (v : Byte) (h : m.wf = true) : (Memory.writeByte m a v).wf = true := by
  induction m with
  | nil =>
    unfold Memory.writeByte
    split
    · rfl
    · rename_i hv; exact Memory.wf_cons rfl hv (by simp)
  | cons x r ih =>
    obtain ⟨k, b⟩ := x
    obtain ⟨hr, hb, hk⟩ := Memory.wf_tail h
    unfold Memory.writeByte
    split
    · split
      · exact h
      · rename_i hlt hv
        exact Memory.wf_cons h hv (by
          intro c hc
          rcases List.mem_cons.1 hc with rfl | hc
          · exact hlt
          · exact Nat.lt_trans hlt (hk c hc))
    · rename_i hlt
      split
      · rename_i he
        split
        · exact hr
        · rename_i hv; exact Memory.wf_cons hr hv (by intro c hc; rw [he]; exact hk c hc)
      · rename_i hne
        refine Memory.wf_cons (ih hr) hb ?_
        intro c hc
        rcases Memory.mem_writeByte hc with hc | ⟨rfl, -⟩
        · exact hk c hc
        · show k < a
          omega

theorem Memory.readByte_writeByte {m : Memory} (a a' : Nat) (v : Byte) (h : m.wf = true) :
    Memory.readByte (Memory.writeByte m a v) a' = if a' = a then v else Memory.readByte m a' := by
  induction m with
  | nil =>
    unfold Memory.writeByte
    split
    · rename_i hv; subst hv; simp [Memory.readByte]
    · by_cases hq : a' = a
      · simp [Memory.readByte, hq]
      · by_cases h2 : a' < a <;> simp [Memory.readByte, hq, h2]
  | cons x r ih =>
    obtain ⟨k, b⟩ := x
    obtain ⟨hr, hb, hk⟩ := Memory.wf_tail h
    unfold Memory.writeByte
    split
    · rename_i hlt
      split
      · rename_i hv; subst hv
        by_cases hq : a' = a
        · subst hq; simp [Memory.readByte, hlt]
        · simp [hq]
      · by_cases hq : a' = a
        · subst hq; simp [Memory.readByte]
        · by_cases h2 : a' < a
          · have h3 : a' < k := by omega
            simp [Memory.readByte, hq, h2, h3]
          · simp only [Memory.readByte, if_neg h2, if_neg hq]
    · rename_i hlt
      split
      · rename_i he; subst he
        split
        · rename_i hv; subst hv
          by_cases hq : a' = a
          · subst hq; simp [Memory.readByte_below hk]
          · by_cases h2 : a' < a
            · have h3 : ∀ c ∈ r, a' < c.1 := fun c hc => Nat.lt_trans h2 (hk c hc)
              simp [Memory.readByte, hq, h2, Memory.readByte_below h3]
            · simp [Memory.readByte, hq, h2]
        · by_cases hq : a' = a
          · subst hq; simp [Memory.readByte]
          · simp [Memory.readByte, hq]
      · rename_i hne
        have := ih hr
        by_cases hq : a' = a
        · subst hq; simp [Memory.readByte, hlt, hne, this]
        · by_cases h2 : a' < k
          · simp [Memory.readByte, hq, h2]
          · by_cases h3 : a' = k
            · simp [Memory.readByte, h3, Ne.symm hne]
            · simp [Memory.readByte, h2, h3, this, hq]

/-! ### Byte strings -/

theorem Memory.writeBytes_wf {m : Memory} (a : Nat) (bs : List Byte) (h : m.wf = true) : (Memory.writeBytes m a bs).wf = true := by
  induction bs generalizing m a with
  | nil => exact h
  | cons b r ih => exact ih (a + 1) (Memory.writeByte_wf a b h)

theorem Memory.readByte_writeBytes {m : Memory} (a a' : Nat) (bs : List Byte) (h : m.wf = true) :
    Memory.readByte (Memory.writeBytes m a bs) a' = if a ≤ a' ∧ a' < a + bs.length then bs.getD (a' - a) 0 else Memory.readByte m a' := by
  induction bs generalizing m a with
  | nil => simp only [Memory.writeBytes, List.length_nil, Nat.add_zero]; rw [if_neg (by omega)]
  | cons b r ih =>
    rw [Memory.writeBytes, ih (a + 1) (Memory.writeByte_wf a b h), Memory.readByte_writeByte a a' b h]
    simp only [List.length_cons]
    by_cases h1 : a' = a
    · subst h1
      have c1 : ¬ (a' + 1 ≤ a' ∧ a' < a' + 1 + r.length) := by omega
      rw [if_neg c1, if_pos (by omega)]
      simp
    · by_cases h2 : a + 1 ≤ a' ∧ a' < a + 1 + r.length
      · have c2 : a ≤ a' ∧ a' < a + (r.length + 1) := by omega
        have c3 : a' - a = (a' - (a + 1)) + 1 := by omega
        rw [if_pos h2, if_pos c2, c3]
        simp
      · have c2 : ¬ (a ≤ a' ∧ a' < a + (r.length + 1)) := by omega
        rw [if_neg h2, if_neg c2, if_neg h1]

/-! ### Ranges -/

theorem Memory.filter_wf {m : Memory} (p : Host.Cell → Bool) (h : m.wf = true) : Memory.wf (m.filter p) = true := by
  rw [Memory.wf_iff] at h ⊢
  exact ⟨h.1.filter p, fun c hc => h.2 c (List.mem_filter.1 hc).1⟩

theorem Memory.clear_wf {m : Memory} (a n : Nat) (h : m.wf = true) : (Memory.clear m a n).wf = true := Memory.filter_wf _ h

theorem Memory.slice_wf {m : Memory} (a n : Nat) (h : m.wf = true) : (Memory.slice m a n).wf = true := by
  have h := Memory.filter_wf (fun c => a ≤ c.1 && c.1 < a + n) h
  rw [Memory.wf_iff] at h
  unfold Memory.slice
  rw [Memory.wf_iff]
  refine ⟨?_, ?_⟩
  · rw [List.pairwise_map]
    refine (List.Pairwise.and_mem.1 h.1).imp ?_
    rintro x y ⟨hx, -, hlt⟩
    have := (List.mem_filter.1 hx).2
    simp only [Bool.and_eq_true, decide_eq_true_eq] at this
    show x.1 - a < y.1 - a
    omega
  · intro c hc
    obtain ⟨x, hx, rfl⟩ := List.mem_map.1 hc
    exact h.2 x hx

theorem Memory.splice_wf {m img : Memory} (a n : Nat) (h : m.wf = true) (hi : img.wf = true) : (Memory.splice m a n img).wf = true := by
  rw [Memory.wf_iff] at h hi
  unfold Memory.splice
  rw [Memory.wf_iff, List.pairwise_append, List.pairwise_append]
  refine ⟨⟨⟨h.1.filter _, ?_, ?_⟩, h.1.filter _, ?_⟩, ?_⟩
  · rw [List.pairwise_map]
    exact (hi.1.filter _).imp (fun hlt => Nat.add_lt_add_right hlt a)
  · intro x hx y hy
    obtain ⟨z, hz, rfl⟩ := List.mem_map.1 hy
    have := (List.mem_filter.1 hx).2
    simp only [decide_eq_true_eq] at this
    show x.1 < z.1 + a
    omega
  · intro x hx y hy
    have h2 := (List.mem_filter.1 hy).2
    simp only [decide_eq_true_eq] at h2
    rcases List.mem_append.1 hx with hx | hx
    · have h1 := (List.mem_filter.1 hx).2
      simp only [decide_eq_true_eq] at h1
      omega
    · obtain ⟨z, hz, rfl⟩ := List.mem_map.1 hx
      have h1 := (List.mem_filter.1 hz).2
      simp only [decide_eq_true_eq] at h1
      show z.1 + a < y.1
      omega
  · intro c hc
    rcases List.mem_append.1 hc with hc | hc
    · rcases List.mem_append.1 hc with hc | hc
      · exact h.2 c (List.mem_filter.1 hc).1
      · obtain ⟨z, hz, rfl⟩ := List.mem_map.1 hc
        exact hi.2 z (List.mem_filter.1 hz).1
    · exact h.2 c (List.mem_filter.1 hc).1

/-! ### A write at a home slice -/

/-- A fold keeps what every one of its steps keeps. -/
theorem foldl_keeps {α β γ : Type} (f : β → α → β) (g : β → γ) (h : ∀ b a, g (f b a) = g b) (xs : List α) (b : β) : g (xs.foldl f b) = g b := by
  induction xs generalizing b with
  | nil => rfl
  | cons x r ih => rw [List.foldl_cons, ih, h]

/-- What the waking of threads and the latching of dependencies leave as it is: memory, its errors and its owners. -/
def State.stored (s : State) : Memory × List Nat × SMap Nat × Device := (s.mem, s.ue, s.owners, s.dev)

/-- Dropping a line's owners leaves memory and its errors. -/
theorem State.dropOwner_stored (s : State) (line : Nat) : (s.dropOwner line).mem = s.mem ∧ (s.dropOwner line).ue = s.ue := by
  unfold State.dropOwner
  constructor
  · refine foldl_keeps _ State.mem (fun st i => ?_) _ _
    dsimp only
    split <;> rfl
  · refine foldl_keeps _ State.ue (fun st i => ?_) _ _
    dsimp only
    split <;> rfl

/-- Making room in the registry leaves memory and its errors. -/
theorem State.ownRoom_stored (s : State) (l : Nat) : (s.ownRoom l).mem = s.mem ∧ (s.ownRoom l).ue = s.ue := by
  unfold State.ownRoom
  dsimp only
  split
  · exact ⟨rfl, rfl⟩
  · split
    · exact State.dropOwner_stored s _
    · exact ⟨rfl, rfl⟩

theorem State.takeWord_stored (s : State) (w : Writer) (x : Nat) : (s.takeWord w x).mem = s.mem ∧ (s.takeWord w x).ue = s.ue := by
  unfold State.takeWord
  dsimp only
  repeat' split
  all_goals first
    | exact ⟨rfl, rfl⟩
    | exact State.ownRoom_stored _ _

theorem State.latchDeps_stored (s : State) : s.latchDeps.stored = s.stored := by
  unfold State.latchDeps
  split <;> rfl

theorem Env.put1_stored (e : Env) (b : Bool) (p : Put) : (e.put1 b p).s.stored = e.s.stored := by
  unfold Env.put1
  split <;> rfl

theorem State.returnWaita_stored (s : State) (c n l vd pd : Nat) (x : Word) (hit : Bool) : (s.returnWaita c n l vd pd x hit).stored = s.stored := by
  unfold State.returnWaita
  split
  · rfl
  · split
    · rfl
    · exact Env.put1_stored _ _ _

/-- A thread's word read again leaves what the use of its value leaves. -/
theorem State.rereadWaita_stored (s : State) (c n l pa : Nat) (f : Word → State) (h : ∀ v, (f v).stored = s.stored) :
    (s.rereadWaita c n l pa f).stored = s.stored := by
  unfold State.rereadWaita
  split
  · rfl
  · exact h _

theorem State.wakeWaita_stored (s : State) (pa n : Nat) : (s.wakeWaita pa n).stored = s.stored := by
  unfold State.wakeWaita
  refine foldl_keeps _ State.stored (fun st w => ?_) _ _
  refine State.rereadWaita_stored _ _ _ _ _ _ (fun v => ?_)
  split
  · rfl
  · exact State.returnWaita_stored ..

theorem State.markDirty_stored (s : State) (pa n : Nat) : (s.markDirty pa n).stored = s.stored := by
  unfold State.markDirty
  split <;> rfl

/-- What a write at a home slice makes of memory and of its errors is what performing it makes (R179). -/
theorem State.homeWrite_stored (s : State) (w : Writer) (ctx : Option Nat) (pa : Nat) (bs : List Byte) (hk : inKick pa = false) :
    (s.homeWrite w ctx pa bs).stored = (s.performWrite w ctx pa bs).stored := by
  unfold State.homeWrite
  rw [hk, if_neg Bool.false_ne_true, State.wakeWaita_stored, State.latchDeps_stored]

/-- A write to the kick space leaves memory and its errors (R377). -/
theorem State.kickRefused_stored (s : State) (pa n : Nat) : (s.kickRefused pa n).stored = s.stored := by
  unfold State.kickRefused
  dsimp only
  refine foldl_keeps _ State.stored (fun st i => ?_) _ _
  rfl

/-- Memory after a write performed at a home slice: the bytes stored, where there is memory (R455, R460). -/
theorem State.performWrite_mem (s : State) (w : Writer) (ctx : Option Nat) (pa : Nat) (bs : List Byte) :
    (s.performWrite w ctx pa bs).mem = if s.hasMemory pa = true then Memory.writeBytes s.mem pa bs else s.mem := by
  unfold State.performWrite
  cases hm : s.hasMemory pa
  · simp
  · cases bs with
    | nil => simp [Memory.writeBytes]
    | cons b r =>
      simp only [List.isEmpty_cons, Bool.false_or, Bool.not_true, if_false, if_true, Bool.false_eq_true]
      refine (congrArg Prod.fst (State.markDirty_stored ..)).trans ?_
      exact foldl_keeps _ State.mem (fun st x => (State.takeWord_stored st w x).1) _ _

/-- The same at a home slice, where a write to the kick space is none (R377). -/
theorem State.homeWrite_mem (s : State) (w : Writer) (ctx : Option Nat) (pa : Nat) (bs : List Byte) (hk : inKick pa = false) :
    (s.homeWrite w ctx pa bs).mem = if s.hasMemory pa = true then Memory.writeBytes s.mem pa bs else s.mem := by
  rw [← State.performWrite_mem s w ctx pa bs]
  exact congrArg Prod.fst (State.homeWrite_stored s w ctx pa bs hk)

end Sys2Proof.Machine
end

