-- ==== Sys2Proof/Laws/PerInstr.lean ====
section
/-! SUPPORT. One lemma per constructor of `Instr` for each family of LAWS.json. -/

namespace Sys2Proof.Laws.RoundTrip
set_option Elab.async false

/-- The word of a well-formed instruction decodes to it (R71, R73, R74). An event row has no word. -/
def Statement (i : Instr) : Prop := ∀ w, i.wellFormed = true → encodeNat i = some w → w < 2 ^ 32 ∧ decodeWord w = some i

/-! ### Words as their fields, lowest first -/

/-- The number that fields of given widths make. -/
def fields : List (Nat × Nat) → Nat
  | [] => 0
  | (n, v) :: r => fields r * 2 ^ n + v

/-- Every field fits its width. -/
def Fits : List (Nat × Nat) → Prop
  | [] => True
  | (n, v) :: r => v < 2 ^ n ∧ Fits r

/-- Bits below a field, and the field's width and value. -/
def below : List (Nat × Nat) → Nat → Nat
  | [], _ => 0
  | _ :: _, 0 => 0
  | (n, _) :: r, k + 1 => n + below r k

def widthAt : List (Nat × Nat) → Nat → Nat
  | [], _ => 0
  | (n, _) :: _, 0 => n
  | _ :: r, k + 1 => widthAt r k

def valueAt : List (Nat × Nat) → Nat → Nat
  | [], _ => 0
  | (_, v) :: _, 0 => v
  | _ :: r, k + 1 => valueAt r k

theorem fld_fields (fs : List (Nat × Nat)) (h : Fits fs) (k : Nat) : fld (fields fs) (below fs k) (widthAt fs k) = valueAt fs k := by
  unfold fld
  induction fs generalizing k with
  | nil => simp [fields, below, widthAt, valueAt]
  | cons x r ih =>
    obtain ⟨n, v⟩ := x
    have hp : 0 < 2 ^ n := Nat.pow_pos (by decide)
    cases k with
    | zero =>
      show fields ((n, v) :: r) / 2 ^ 0 % 2 ^ n = v
      rw [Nat.pow_zero, Nat.div_one, fields, Nat.mul_comm, Nat.mul_add_mod, Nat.mod_eq_of_lt h.1]
    | succ k =>
      show fields ((n, v) :: r) / 2 ^ (n + below r k) % 2 ^ widthAt r k = valueAt r k
      rw [Nat.pow_add, ← Nat.div_div_eq_div_mul, fields, Nat.mul_comm, Nat.mul_add_div hp, Nat.div_eq_of_lt h.1, Nat.add_zero]
      exact ih h.2 k

/-- All the bits of a list of fields. -/
def total : List (Nat × Nat) → Nat
  | [] => 0
  | (n, _) :: r => n + total r

theorem fields_lt (fs : List (Nat × Nat)) (h : Fits fs) : fields fs < 2 ^ total fs := by
  induction fs with
  | nil => exact Nat.one_pos
  | cons x r ih =>
    obtain ⟨n, v⟩ := x
    have h1 := ih h.2
    have h2 : v < 2 ^ n := h.1
    have h3 : (fields r + 1) * 2 ^ n ≤ 2 ^ total r * 2 ^ n := Nat.mul_le_mul_right _ h1
    rw [Nat.add_mul, Nat.one_mul] at h3
    show fields r * 2 ^ n + v < 2 ^ (n + total r)
    rw [Nat.pow_add, Nat.mul_comm (2 ^ n)]
    omega

theorem of_fld {n w lo : Nat} (q : Nat) {x : BitVec n} (h : fld w lo n = x.toNat) (hq : 2 ^ lo = q := by rfl) : BitVec.ofNat n (w / q) = x :=
  BitVec.eq_of_toNat_eq (by rw [BitVec.toNat_ofNat, ← hq]; exact h)

theorem of_low {n w : Nat} {x : BitVec n} (h : fld w 0 n = x.toNat) : BitVec.ofNat n w = x :=
  BitVec.eq_of_toNat_eq (by rw [BitVec.toNat_ofNat]; rw [fld, Nat.pow_zero, Nat.div_one] at h; exact h)

/-- An instruction whose word is made of fields decodes as those fields decode. -/
theorem of_fields {i : Instr} {n : Nat} {fs : List (Nat × Nat)} (he : encodeNat i = some n) (hf : Fits fs) (ht : total fs = 32) (hw : n = fields fs)
    (hd : decodeWord (fields fs) = some i) : Statement i := by
  intro w _ h
  have h1 : n = w := Option.some.inj (he.symm.trans h)
  have h2 := fields_lt fs hf
  rw [ht] at h2
  exact ⟨by rw [← h1, hw]; exact h2, by rw [← h1, hw]; exact hd⟩

theorem of_event {i : Instr} (he : encodeNat i = none) : Statement i := by
  intro w _ h
  rw [he] at h
  cases h

theorem add (d : BitVec 6) (a : BitVec 6) (b : BitVec 6) (f : BitVec 3) (g : BitVec 3) : Statement (.add d a b f g) := by
  have hf : Fits [(3, g.toNat), (3, f.toNat), (6, b.toNat), (6, a.toNat), (6, d.toNat), (8, 1)] := ⟨g.isLt, f.isLt, b.isLt, a.isLt, d.isLt, by decide, trivial⟩
  refine of_fields rfl hf rfl (by simp only [word, put, fields, List.foldl]; omega) ?_
  have c0 : fld _ 24 8 = 1 := fld_fields _ hf 5
  have e_g := of_low (x := g) (fld_fields _ hf 0)
  have e_f := of_fld 8 (lo := 3) (x := f) (fld_fields _ hf 1)
  have e_b := of_fld 64 (lo := 6) (x := b) (fld_fields _ hf 2)
  have e_a := of_fld 4096 (lo := 12) (x := a) (fld_fields _ hf 3)
  have e_d := of_fld 262144 (lo := 18) (x := d) (fld_fields _ hf 4)
  generalize fields [(3, g.toNat), (3, f.toNat), (6, b.toNat), (6, a.toNat), (6, d.toNat), (8, 1)] = enc at *
  simp [decodeWord, decodeClass0, c0, e_g, e_f, e_b, e_a, e_d]
theorem sub (d : BitVec 6) (a : BitVec 6) (b : BitVec 6) (f : BitVec 3) (g : BitVec 3) : Statement (.sub d a b f g) := by
  have hf : Fits [(3, g.toNat), (3, f.toNat), (6, b.toNat), (6, a.toNat), (6, d.toNat), (8, 2)] := ⟨g.isLt, f.isLt, b.isLt, a.isLt, d.isLt, by decide, trivial⟩
  refine of_fields rfl hf rfl (by simp only [word, put, fields, List.foldl]; omega) ?_
  have c0 : fld _ 24 8 = 2 := fld_fields _ hf 5
  have e_g := of_low (x := g) (fld_fields _ hf 0)
  have e_f := of_fld 8 (lo := 3) (x := f) (fld_fields _ hf 1)
  have e_b := of_fld 64 (lo := 6) (x := b) (fld_fields _ hf 2)
  have e_a := of_fld 4096 (lo := 12) (x := a) (fld_fields _ hf 3)
  have e_d := of_fld 262144 (lo := 18) (x := d) (fld_fields _ hf 4)
  generalize fields [(3, g.toNat), (3, f.toNat), (6, b.toNat), (6, a.toNat), (6, d.toNat), (8, 2)] = enc at *
  simp [decodeWord, decodeClass0, c0, e_g, e_f, e_b, e_a, e_d]
theorem mul (d : BitVec 6) (a : BitVec 6) (b : BitVec 6) (f : BitVec 3) (g : BitVec 3) : Statement (.mul d a b f g) := by
  have hf : Fits [(3, g.toNat), (3, f.toNat), (6, b.toNat), (6, a.toNat), (6, d.toNat), (8, 3)] := ⟨g.isLt, f.isLt, b.isLt, a.isLt, d.isLt, by decide, trivial⟩
  refine of_fields rfl hf rfl (by simp only [word, put, fields, List.foldl]; omega) ?_
  have c0 : fld _ 24 8 = 3 := fld_fields _ hf 5
  have e_g := of_low (x := g) (fld_fields _ hf 0)
  have e_f := of_fld 8 (lo := 3) (x := f) (fld_fields _ hf 1)
  have e_b := of_fld 64 (lo := 6) (x := b) (fld_fields _ hf 2)
  have e_a := of_fld 4096 (lo := 12) (x := a) (fld_fields _ hf 3)
  have e_d := of_fld 262144 (lo := 18) (x := d) (fld_fields _ hf 4)
  generalize fields [(3, g.toNat), (3, f.toNat), (6, b.toNat), (6, a.toNat), (6, d.toNat), (8, 3)] = enc at *
  simp [decodeWord, decodeClass0, c0, e_g, e_f, e_b, e_a, e_d]
theorem mulhi (d : BitVec 6) (a : BitVec 6) (b : BitVec 6) (f : BitVec 2) (g : BitVec 3) : Statement (.mulhi d a b f g) := by
  have hf : Fits [(3, g.toNat), (2, f.toNat), (1, 0), (6, b.toNat), (6, a.toNat), (6, d.toNat), (8, 4)] := ⟨g.isLt, f.isLt, by decide, b.isLt, a.isLt, d.isLt, by decide, trivial⟩
  refine of_fields rfl hf rfl (by simp only [word, put, fields, List.foldl]; omega) ?_
  have c0 : fld _ 24 8 = 4 := fld_fields _ hf 6
  have c1 : fld _ 5 1 = 0 := fld_fields _ hf 2
  have e_g := of_low (x := g) (fld_fields _ hf 0)
  have e_f := of_fld 8 (lo := 3) (x := f) (fld_fields _ hf 1)
  have e_b := of_fld 64 (lo := 6) (x := b) (fld_fields _ hf 3)
  have e_a := of_fld 4096 (lo := 12) (x := a) (fld_fields _ hf 4)
  have e_d := of_fld 262144 (lo := 18) (x := d) (fld_fields _ hf 5)
  generalize fields [(3, g.toNat), (2, f.toNat), (1, 0), (6, b.toNat), (6, a.toNat), (6, d.toNat), (8, 4)] = enc at *
  simp [decodeWord, decodeClass0, c0, c1, e_g, e_f, e_b, e_a, e_d]
theorem mad (d : BitVec 6) (a : BitVec 6) (b : BitVec 6) (c : BitVec 6) : Statement (.mad d a b c) := by
  have hf : Fits [(6, c.toNat), (6, b.toNat), (6, a.toNat), (6, d.toNat), (8, 5)] := ⟨c.isLt, b.isLt, a.isLt, d.isLt, by decide, trivial⟩
  refine of_fields rfl hf rfl (by simp only [word, put, fields, List.foldl]; omega) ?_
  have c0 : fld _ 24 8 = 5 := fld_fields _ hf 4
  have e_c := of_low (x := c) (fld_fields _ hf 0)
  have e_b := of_fld 64 (lo := 6) (x := b) (fld_fields _ hf 1)
  have e_a := of_fld 4096 (lo := 12) (x := a) (fld_fields _ hf 2)
  have e_d := of_fld 262144 (lo := 18) (x := d) (fld_fields _ hf 3)
  generalize fields [(6, c.toNat), (6, b.toNat), (6, a.toNat), (6, d.toNat), (8, 5)] = enc at *
  simp [decodeWord, decodeClass0, c0, e_c, e_b, e_a, e_d]
theorem min (d : BitVec 6) (a : BitVec 6) (b : BitVec 6) (f : BitVec 2) (g : BitVec 3) : Statement (.min d a b f g) := by
  have hf : Fits [(3, g.toNat), (2, f.toNat), (1, 0), (6, b.toNat), (6, a.toNat), (6, d.toNat), (8, 6)] := ⟨g.isLt, f.isLt, by decide, b.isLt, a.isLt, d.isLt, by decide, trivial⟩
  refine of_fields rfl hf rfl (by simp only [word, put, fields, List.foldl]; omega) ?_
  have c0 : fld _ 24 8 = 6 := fld_fields _ hf 6
  have c1 : fld _ 5 1 = 0 := fld_fields _ hf 2
  have e_g := of_low (x := g) (fld_fields _ hf 0)
  have e_f := of_fld 8 (lo := 3) (x := f) (fld_fields _ hf 1)
  have e_b := of_fld 64 (lo := 6) (x := b) (fld_fields _ hf 3)
  have e_a := of_fld 4096 (lo := 12) (x := a) (fld_fields _ hf 4)
  have e_d := of_fld 262144 (lo := 18) (x := d) (fld_fields _ hf 5)
  generalize fields [(3, g.toNat), (2, f.toNat), (1, 0), (6, b.toNat), (6, a.toNat), (6, d.toNat), (8, 6)] = enc at *
  simp [decodeWord, decodeClass0, c0, c1, e_g, e_f, e_b, e_a, e_d]
theorem max (d : BitVec 6) (a : BitVec 6) (b : BitVec 6) (f : BitVec 2) (g : BitVec 3) : Statement (.max d a b f g) := by
  have hf : Fits [(3, g.toNat), (2, f.toNat), (1, 1), (6, b.toNat), (6, a.toNat), (6, d.toNat), (8, 6)] := ⟨g.isLt, f.isLt, by decide, b.isLt, a.isLt, d.isLt, by decide, trivial⟩
  refine of_fields rfl hf rfl (by simp only [word, put, fields, List.foldl]; omega) ?_
  have c0 : fld _ 24 8 = 6 := fld_fields _ hf 6
  have c1 : fld _ 5 1 = 1 := fld_fields _ hf 2
  have e_g := of_low (x := g) (fld_fields _ hf 0)
  have e_f := of_fld 8 (lo := 3) (x := f) (fld_fields _ hf 1)
  have e_b := of_fld 64 (lo := 6) (x := b) (fld_fields _ hf 3)
  have e_a := of_fld 4096 (lo := 12) (x := a) (fld_fields _ hf 4)
  have e_d := of_fld 262144 (lo := 18) (x := d) (fld_fields _ hf 5)
  generalize fields [(3, g.toNat), (2, f.toNat), (1, 1), (6, b.toNat), (6, a.toNat), (6, d.toNat), (8, 6)] = enc at *
  simp [decodeWord, decodeClass0, c0, c1, e_g, e_f, e_b, e_a, e_d]
theorem lea (d : BitVec 6) (a : BitVec 6) (b : BitVec 6) (s : BitVec 3) (g : BitVec 3) : Statement (.lea d a b s g) := by
  have hf : Fits [(3, g.toNat), (3, s.toNat), (6, b.toNat), (6, a.toNat), (6, d.toNat), (8, 7)] := ⟨g.isLt, s.isLt, b.isLt, a.isLt, d.isLt, by decide, trivial⟩
  refine of_fields rfl hf rfl (by simp only [word, put, fields, List.foldl]; omega) ?_
  have c0 : fld _ 24 8 = 7 := fld_fields _ hf 5
  have e_g := of_low (x := g) (fld_fields _ hf 0)
  have e_s := of_fld 8 (lo := 3) (x := s) (fld_fields _ hf 1)
  have e_b := of_fld 64 (lo := 6) (x := b) (fld_fields _ hf 2)
  have e_a := of_fld 4096 (lo := 12) (x := a) (fld_fields _ hf 3)
  have e_d := of_fld 262144 (lo := 18) (x := d) (fld_fields _ hf 4)
  generalize fields [(3, g.toNat), (3, s.toNat), (6, b.toNat), (6, a.toNat), (6, d.toNat), (8, 7)] = enc at *
  simp [decodeWord, decodeClass0, c0, e_g, e_s, e_b, e_a, e_d]
theorem abs (d : BitVec 6) (a : BitVec 6) (g : BitVec 3) : Statement (.abs d a g) := by
  have hf : Fits [(3, g.toNat), (9, 0), (6, a.toNat), (6, d.toNat), (8, 8)] := ⟨g.isLt, by decide, a.isLt, d.isLt, by decide, trivial⟩
  refine of_fields rfl hf rfl (by simp only [word, put, fields, List.foldl]; omega) ?_
  have c0 : fld _ 24 8 = 8 := fld_fields _ hf 4
  have c1 : fld _ 3 9 = 0 := fld_fields _ hf 1
  have e_g := of_low (x := g) (fld_fields _ hf 0)
  have e_a := of_fld 4096 (lo := 12) (x := a) (fld_fields _ hf 2)
  have e_d := of_fld 262144 (lo := 18) (x := d) (fld_fields _ hf 3)
  generalize fields [(3, g.toNat), (9, 0), (6, a.toNat), (6, d.toNat), (8, 8)] = enc at *
  simp [decodeWord, decodeClass0, c0, c1, e_g, e_a, e_d]
theorem neg (d : BitVec 6) (a : BitVec 6) (g : BitVec 3) : Statement (.neg d a g) := by
  have hf : Fits [(3, g.toNat), (9, 1), (6, a.toNat), (6, d.toNat), (8, 8)] := ⟨g.isLt, by decide, a.isLt, d.isLt, by decide, trivial⟩
  refine of_fields rfl hf rfl (by simp only [word, put, fields, List.foldl]; omega) ?_
  have c0 : fld _ 24 8 = 8 := fld_fields _ hf 4
  have c1 : fld _ 3 9 = 1 := fld_fields _ hf 1
  have e_g := of_low (x := g) (fld_fields _ hf 0)
  have e_a := of_fld 4096 (lo := 12) (x := a) (fld_fields _ hf 2)
  have e_d := of_fld 262144 (lo := 18) (x := d) (fld_fields _ hf 3)
  generalize fields [(3, g.toNat), (9, 1), (6, a.toNat), (6, d.toNat), (8, 8)] = enc at *
  simp [decodeWord, decodeClass0, c0, c1, e_g, e_a, e_d]
theorem not (d : BitVec 6) (a : BitVec 6) (g : BitVec 3) : Statement (.not d a g) := by
  have hf : Fits [(3, g.toNat), (9, 2), (6, a.toNat), (6, d.toNat), (8, 8)] := ⟨g.isLt, by decide, a.isLt, d.isLt, by decide, trivial⟩
  refine of_fields rfl hf rfl (by simp only [word, put, fields, List.foldl]; omega) ?_
  have c0 : fld _ 24 8 = 8 := fld_fields _ hf 4
  have c1 : fld _ 3 9 = 2 := fld_fields _ hf 1
  have e_g := of_low (x := g) (fld_fields _ hf 0)
  have e_a := of_fld 4096 (lo := 12) (x := a) (fld_fields _ hf 2)
  have e_d := of_fld 262144 (lo := 18) (x := d) (fld_fields _ hf 3)
  generalize fields [(3, g.toNat), (9, 2), (6, a.toNat), (6, d.toNat), (8, 8)] = enc at *
  simp [decodeWord, decodeClass0, c0, c1, e_g, e_a, e_d]
theorem clz (d : BitVec 6) (a : BitVec 6) (g : BitVec 3) : Statement (.clz d a g) := by
  have hf : Fits [(3, g.toNat), (9, 3), (6, a.toNat), (6, d.toNat), (8, 8)] := ⟨g.isLt, by decide, a.isLt, d.isLt, by decide, trivial⟩
  refine of_fields rfl hf rfl (by simp only [word, put, fields, List.foldl]; omega) ?_
  have c0 : fld _ 24 8 = 8 := fld_fields _ hf 4
  have c1 : fld _ 3 9 = 3 := fld_fields _ hf 1
  have e_g := of_low (x := g) (fld_fields _ hf 0)
  have e_a := of_fld 4096 (lo := 12) (x := a) (fld_fields _ hf 2)
  have e_d := of_fld 262144 (lo := 18) (x := d) (fld_fields _ hf 3)
  generalize fields [(3, g.toNat), (9, 3), (6, a.toNat), (6, d.toNat), (8, 8)] = enc at *
  simp [decodeWord, decodeClass0, c0, c1, e_g, e_a, e_d]
theorem popc (d : BitVec 6) (a : BitVec 6) (g : BitVec 3) : Statement (.popc d a g) := by
  have hf : Fits [(3, g.toNat), (9, 4), (6, a.toNat), (6, d.toNat), (8, 8)] := ⟨g.isLt, by decide, a.isLt, d.isLt, by decide, trivial⟩
  refine of_fields rfl hf rfl (by simp only [word, put, fields, List.foldl]; omega) ?_
  have c0 : fld _ 24 8 = 8 := fld_fields _ hf 4
  have c1 : fld _ 3 9 = 4 := fld_fields _ hf 1
  have e_g := of_low (x := g) (fld_fields _ hf 0)
  have e_a := of_fld 4096 (lo := 12) (x := a) (fld_fields _ hf 2)
  have e_d := of_fld 262144 (lo := 18) (x := d) (fld_fields _ hf 3)
  generalize fields [(3, g.toNat), (9, 4), (6, a.toNat), (6, d.toNat), (8, 8)] = enc at *
  simp [decodeWord, decodeClass0, c0, c1, e_g, e_a, e_d]
theorem brev (d : BitVec 6) (a : BitVec 6) (g : BitVec 3) : Statement (.brev d a g) := by
  have hf : Fits [(3, g.toNat), (9, 5), (6, a.toNat), (6, d.toNat), (8, 8)] := ⟨g.isLt, by decide, a.isLt, d.isLt, by decide, trivial⟩
  refine of_fields rfl hf rfl (by simp only [word, put, fields, List.foldl]; omega) ?_
  have c0 : fld _ 24 8 = 8 := fld_fields _ hf 4
  have c1 : fld _ 3 9 = 5 := fld_fields _ hf 1
  have e_g := of_low (x := g) (fld_fields _ hf 0)
  have e_a := of_fld 4096 (lo := 12) (x := a) (fld_fields _ hf 2)
  have e_d := of_fld 262144 (lo := 18) (x := d) (fld_fields _ hf 3)
  generalize fields [(3, g.toNat), (9, 5), (6, a.toNat), (6, d.toNat), (8, 8)] = enc at *
  simp [decodeWord, decodeClass0, c0, c1, e_g, e_a, e_d]
theorem and (d : BitVec 6) (a : BitVec 6) (b : BitVec 6) (w : BitVec 1) (g : BitVec 3) : Statement (.and d a b w g) := by
  have hf : Fits [(3, g.toNat), (1, w.toNat), (2, 0), (6, b.toNat), (6, a.toNat), (6, d.toNat), (8, 9)] := ⟨g.isLt, w.isLt, by decide, b.isLt, a.isLt, d.isLt, by decide, trivial⟩
  refine of_fields rfl hf rfl (by simp only [word, put, fields, List.foldl]; omega) ?_
  have c0 : fld _ 24 8 = 9 := fld_fields _ hf 6
  have c1 : fld _ 4 2 = 0 := fld_fields _ hf 2
  have e_g := of_low (x := g) (fld_fields _ hf 0)
  have e_w := of_fld 8 (lo := 3) (x := w) (fld_fields _ hf 1)
  have e_b := of_fld 64 (lo := 6) (x := b) (fld_fields _ hf 3)
  have e_a := of_fld 4096 (lo := 12) (x := a) (fld_fields _ hf 4)
  have e_d := of_fld 262144 (lo := 18) (x := d) (fld_fields _ hf 5)
  generalize fields [(3, g.toNat), (1, w.toNat), (2, 0), (6, b.toNat), (6, a.toNat), (6, d.toNat), (8, 9)] = enc at *
  simp [decodeWord, decodeClass0, c0, c1, e_g, e_w, e_b, e_a, e_d]
theorem or (d : BitVec 6) (a : BitVec 6) (b : BitVec 6) (w : BitVec 1) (g : BitVec 3) : Statement (.or d a b w g) := by
  have hf : Fits [(3, g.toNat), (1, w.toNat), (2, 1), (6, b.toNat), (6, a.toNat), (6, d.toNat), (8, 9)] := ⟨g.isLt, w.isLt, by decide, b.isLt, a.isLt, d.isLt, by decide, trivial⟩
  refine of_fields rfl hf rfl (by simp only [word, put, fields, List.foldl]; omega) ?_
  have c0 : fld _ 24 8 = 9 := fld_fields _ hf 6
  have c1 : fld _ 4 2 = 1 := fld_fields _ hf 2
  have e_g := of_low (x := g) (fld_fields _ hf 0)
  have e_w := of_fld 8 (lo := 3) (x := w) (fld_fields _ hf 1)
  have e_b := of_fld 64 (lo := 6) (x := b) (fld_fields _ hf 3)
  have e_a := of_fld 4096 (lo := 12) (x := a) (fld_fields _ hf 4)
  have e_d := of_fld 262144 (lo := 18) (x := d) (fld_fields _ hf 5)
  generalize fields [(3, g.toNat), (1, w.toNat), (2, 1), (6, b.toNat), (6, a.toNat), (6, d.toNat), (8, 9)] = enc at *
  simp [decodeWord, decodeClass0, c0, c1, e_g, e_w, e_b, e_a, e_d]
theorem xor (d : BitVec 6) (a : BitVec 6) (b : BitVec 6) (w : BitVec 1) (g : BitVec 3) : Statement (.xor d a b w g) := by
  have hf : Fits [(3, g.toNat), (1, w.toNat), (2, 2), (6, b.toNat), (6, a.toNat), (6, d.toNat), (8, 9)] := ⟨g.isLt, w.isLt, by decide, b.isLt, a.isLt, d.isLt, by decide, trivial⟩
  refine of_fields rfl hf rfl (by simp only [word, put, fields, List.foldl]; omega) ?_
  have c0 : fld _ 24 8 = 9 := fld_fields _ hf 6
  have c1 : fld _ 4 2 = 2 := fld_fields _ hf 2
  have e_g := of_low (x := g) (fld_fields _ hf 0)
  have e_w := of_fld 8 (lo := 3) (x := w) (fld_fields _ hf 1)
  have e_b := of_fld 64 (lo := 6) (x := b) (fld_fields _ hf 3)
  have e_a := of_fld 4096 (lo := 12) (x := a) (fld_fields _ hf 4)
  have e_d := of_fld 262144 (lo := 18) (x := d) (fld_fields _ hf 5)
  generalize fields [(3, g.toNat), (1, w.toNat), (2, 2), (6, b.toNat), (6, a.toNat), (6, d.toNat), (8, 9)] = enc at *
  simp [decodeWord, decodeClass0, c0, c1, e_g, e_w, e_b, e_a, e_d]
theorem andn (d : BitVec 6) (a : BitVec 6) (b : BitVec 6) (w : BitVec 1) (g : BitVec 3) : Statement (.andn d a b w g) := by
  have hf : Fits [(3, g.toNat), (1, w.toNat), (2, 3), (6, b.toNat), (6, a.toNat), (6, d.toNat), (8, 9)] := ⟨g.isLt, w.isLt, by decide, b.isLt, a.isLt, d.isLt, by decide, trivial⟩
  refine of_fields rfl hf rfl (by simp only [word, put, fields, List.foldl]; omega) ?_
  have c0 : fld _ 24 8 = 9 := fld_fields _ hf 6
  have c1 : fld _ 4 2 = 3 := fld_fields _ hf 2
  have e_g := of_low (x := g) (fld_fields _ hf 0)
  have e_w := of_fld 8 (lo := 3) (x := w) (fld_fields _ hf 1)
  have e_b := of_fld 64 (lo := 6) (x := b) (fld_fields _ hf 3)
  have e_a := of_fld 4096 (lo := 12) (x := a) (fld_fields _ hf 4)
  have e_d := of_fld 262144 (lo := 18) (x := d) (fld_fields _ hf 5)
  generalize fields [(3, g.toNat), (1, w.toNat), (2, 3), (6, b.toNat), (6, a.toNat), (6, d.toNat), (8, 9)] = enc at *
  simp [decodeWord, decodeClass0, c0, c1, e_g, e_w, e_b, e_a, e_d]
theorem shl (d : BitVec 6) (a : BitVec 6) (b : BitVec 6) (g : BitVec 3) : Statement (.shl d a b g) := by
  have hf : Fits [(3, g.toNat), (3, 0), (6, b.toNat), (6, a.toNat), (6, d.toNat), (8, 10)] := ⟨g.isLt, by decide, b.isLt, a.isLt, d.isLt, by decide, trivial⟩
  refine of_fields rfl hf rfl (by simp only [word, put, fields, List.foldl]; omega) ?_
  have c0 : fld _ 24 8 = 10 := fld_fields _ hf 5
  have c1 : fld _ 3 3 = 0 := fld_fields _ hf 1
  have e_g := of_low (x := g) (fld_fields _ hf 0)
  have e_b := of_fld 64 (lo := 6) (x := b) (fld_fields _ hf 2)
  have e_a := of_fld 4096 (lo := 12) (x := a) (fld_fields _ hf 3)
  have e_d := of_fld 262144 (lo := 18) (x := d) (fld_fields _ hf 4)
  generalize fields [(3, g.toNat), (3, 0), (6, b.toNat), (6, a.toNat), (6, d.toNat), (8, 10)] = enc at *
  simp [decodeWord, decodeClass0, c0, c1, e_g, e_b, e_a, e_d]
theorem shr (d : BitVec 6) (a : BitVec 6) (b : BitVec 6) (g : BitVec 3) : Statement (.shr d a b g) := by
  have hf : Fits [(3, g.toNat), (3, 2), (6, b.toNat), (6, a.toNat), (6, d.toNat), (8, 10)] := ⟨g.isLt, by decide, b.isLt, a.isLt, d.isLt, by decide, trivial⟩
  refine of_fields rfl hf rfl (by simp only [word, put, fields, List.foldl]; omega) ?_
  have c0 : fld _ 24 8 = 10 := fld_fields _ hf 5
  have c1 : fld _ 3 3 = 2 := fld_fields _ hf 1
  have e_g := of_low (x := g) (fld_fields _ hf 0)
  have e_b := of_fld 64 (lo := 6) (x := b) (fld_fields _ hf 2)
  have e_a := of_fld 4096 (lo := 12) (x := a) (fld_fields _ hf 3)
  have e_d := of_fld 262144 (lo := 18) (x := d) (fld_fields _ hf 4)
  generalize fields [(3, g.toNat), (3, 2), (6, b.toNat), (6, a.toNat), (6, d.toNat), (8, 10)] = enc at *
  simp [decodeWord, decodeClass0, c0, c1, e_g, e_b, e_a, e_d]
theorem sar (d : BitVec 6) (a : BitVec 6) (b : BitVec 6) (g : BitVec 3) : Statement (.sar d a b g) := by
  have hf : Fits [(3, g.toNat), (3, 4), (6, b.toNat), (6, a.toNat), (6, d.toNat), (8, 10)] := ⟨g.isLt, by decide, b.isLt, a.isLt, d.isLt, by decide, trivial⟩
  refine of_fields rfl hf rfl (by simp only [word, put, fields, List.foldl]; omega) ?_
  have c0 : fld _ 24 8 = 10 := fld_fields _ hf 5
  have c1 : fld _ 3 3 = 4 := fld_fields _ hf 1
  have e_g := of_low (x := g) (fld_fields _ hf 0)
  have e_b := of_fld 64 (lo := 6) (x := b) (fld_fields _ hf 2)
  have e_a := of_fld 4096 (lo := 12) (x := a) (fld_fields _ hf 3)
  have e_d := of_fld 262144 (lo := 18) (x := d) (fld_fields _ hf 4)
  generalize fields [(3, g.toNat), (3, 4), (6, b.toNat), (6, a.toNat), (6, d.toNat), (8, 10)] = enc at *
  simp [decodeWord, decodeClass0, c0, c1, e_g, e_b, e_a, e_d]
theorem rot (d : BitVec 6) (a : BitVec 6) (b : BitVec 6) (g : BitVec 3) : Statement (.rot d a b g) := by
  have hf : Fits [(3, g.toNat), (3, 6), (6, b.toNat), (6, a.toNat), (6, d.toNat), (8, 10)] := ⟨g.isLt, by decide, b.isLt, a.isLt, d.isLt, by decide, trivial⟩
  refine of_fields rfl hf rfl (by simp only [word, put, fields, List.foldl]; omega) ?_
  have c0 : fld _ 24 8 = 10 := fld_fields _ hf 5
  have c1 : fld _ 3 3 = 6 := fld_fields _ hf 1
  have e_g := of_low (x := g) (fld_fields _ hf 0)
  have e_b := of_fld 64 (lo := 6) (x := b) (fld_fields _ hf 2)
  have e_a := of_fld 4096 (lo := 12) (x := a) (fld_fields _ hf 3)
  have e_d := of_fld 262144 (lo := 18) (x := d) (fld_fields _ hf 4)
  generalize fields [(3, g.toNat), (3, 6), (6, b.toNat), (6, a.toNat), (6, d.toNat), (8, 10)] = enc at *
  simp [decodeWord, decodeClass0, c0, c1, e_g, e_b, e_a, e_d]
theorem bfe (d : BitVec 6) (a : BitVec 6) (b : BitVec 6) (s : BitVec 1) (g : BitVec 3) : Statement (.bfe d a b s g) := by
  have hf : Fits [(3, g.toNat), (1, s.toNat), (2, 0), (6, b.toNat), (6, a.toNat), (6, d.toNat), (8, 11)] := ⟨g.isLt, s.isLt, by decide, b.isLt, a.isLt, d.isLt, by decide, trivial⟩
  refine of_fields rfl hf rfl (by simp only [word, put, fields, List.foldl]; omega) ?_
  have c0 : fld _ 24 8 = 11 := fld_fields _ hf 6
  have c1 : fld _ 4 2 = 0 := fld_fields _ hf 2
  have e_g := of_low (x := g) (fld_fields _ hf 0)
  have e_s := of_fld 8 (lo := 3) (x := s) (fld_fields _ hf 1)
  have e_b := of_fld 64 (lo := 6) (x := b) (fld_fields _ hf 3)
  have e_a := of_fld 4096 (lo := 12) (x := a) (fld_fields _ hf 4)
  have e_d := of_fld 262144 (lo := 18) (x := d) (fld_fields _ hf 5)
  generalize fields [(3, g.toNat), (1, s.toNat), (2, 0), (6, b.toNat), (6, a.toNat), (6, d.toNat), (8, 11)] = enc at *
  simp [decodeWord, decodeClass0, c0, c1, e_g, e_s, e_b, e_a, e_d]
theorem bfi (d : BitVec 6) (a : BitVec 6) (b : BitVec 6) (c : BitVec 6) : Statement (.bfi d a b c) := by
  have hf : Fits [(6, c.toNat), (6, b.toNat), (6, a.toNat), (6, d.toNat), (8, 12)] := ⟨c.isLt, b.isLt, a.isLt, d.isLt, by decide, trivial⟩
  refine of_fields rfl hf rfl (by simp only [word, put, fields, List.foldl]; omega) ?_
  have c0 : fld _ 24 8 = 12 := fld_fields _ hf 4
  have e_c := of_low (x := c) (fld_fields _ hf 0)
  have e_b := of_fld 64 (lo := 6) (x := b) (fld_fields _ hf 1)
  have e_a := of_fld 4096 (lo := 12) (x := a) (fld_fields _ hf 2)
  have e_d := of_fld 262144 (lo := 18) (x := d) (fld_fields _ hf 3)
  generalize fields [(6, c.toNat), (6, b.toNat), (6, a.toNat), (6, d.toNat), (8, 12)] = enc at *
  simp [decodeWord, decodeClass0, c0, e_c, e_b, e_a, e_d]
theorem icmp (w : BitVec 1) (u : BitVec 1) (p : BitVec 3) (a : BitVec 6) (b : BitVec 6) (c : BitVec 3) (g : BitVec 3) : Statement (.icmp w u p a b c g) := by
  have hf : Fits [(3, g.toNat), (3, c.toNat), (6, b.toNat), (6, a.toNat), (3, p.toNat), (1, u.toNat), (1, w.toNat), (1, 0), (8, 13)] := ⟨g.isLt, c.isLt, b.isLt, a.isLt, p.isLt, u.isLt, w.isLt, by decide, by decide, trivial⟩
  refine of_fields rfl hf rfl (by simp only [word, put, fields, List.foldl]; omega) ?_
  have c0 : fld _ 24 8 = 13 := fld_fields _ hf 8
  have c1 : fld _ 23 1 = 0 := fld_fields _ hf 7
  have e_g := of_low (x := g) (fld_fields _ hf 0)
  have e_c := of_fld 8 (lo := 3) (x := c) (fld_fields _ hf 1)
  have e_b := of_fld 64 (lo := 6) (x := b) (fld_fields _ hf 2)
  have e_a := of_fld 4096 (lo := 12) (x := a) (fld_fields _ hf 3)
  have e_p := of_fld 262144 (lo := 18) (x := p) (fld_fields _ hf 4)
  have e_u := of_fld 2097152 (lo := 21) (x := u) (fld_fields _ hf 5)
  have e_w := of_fld 4194304 (lo := 22) (x := w) (fld_fields _ hf 6)
  generalize fields [(3, g.toNat), (3, c.toNat), (6, b.toNat), (6, a.toNat), (3, p.toNat), (1, u.toNat), (1, w.toNat), (1, 0), (8, 13)] = enc at *
  simp [decodeWord, decodeClass0, c0, c1, e_g, e_c, e_b, e_a, e_p, e_u, e_w]
theorem sel (d : BitVec 6) (a : BitVec 6) (b : BitVec 6) (c : BitVec 6) : Statement (.sel d a b c) := by
  have hf : Fits [(6, c.toNat), (6, b.toNat), (6, a.toNat), (6, d.toNat), (8, 14)] := ⟨c.isLt, b.isLt, a.isLt, d.isLt, by decide, trivial⟩
  refine of_fields rfl hf rfl (by simp only [word, put, fields, List.foldl]; omega) ?_
  have c0 : fld _ 24 8 = 14 := fld_fields _ hf 4
  have e_c := of_low (x := c) (fld_fields _ hf 0)
  have e_b := of_fld 64 (lo := 6) (x := b) (fld_fields _ hf 1)
  have e_a := of_fld 4096 (lo := 12) (x := a) (fld_fields _ hf 2)
  have e_d := of_fld 262144 (lo := 18) (x := d) (fld_fields _ hf 3)
  generalize fields [(6, c.toNat), (6, b.toNat), (6, a.toNat), (6, d.toNat), (8, 14)] = enc at *
  simp [decodeWord, decodeClass0, c0, e_c, e_b, e_a, e_d]
theorem mov (d : BitVec 6) (a : BitVec 6) (w : BitVec 1) (g : BitVec 3) : Statement (.mov d a w g) := by
  have hf : Fits [(3, g.toNat), (1, w.toNat), (8, 0), (6, a.toNat), (6, d.toNat), (8, 15)] := ⟨g.isLt, w.isLt, by decide, a.isLt, d.isLt, by decide, trivial⟩
  refine of_fields rfl hf rfl (by simp only [word, put, fields, List.foldl]; omega) ?_
  have c0 : fld _ 24 8 = 15 := fld_fields _ hf 5
  have c1 : fld _ 4 8 = 0 := fld_fields _ hf 2
  have e_g := of_low (x := g) (fld_fields _ hf 0)
  have e_w := of_fld 8 (lo := 3) (x := w) (fld_fields _ hf 1)
  have e_a := of_fld 4096 (lo := 12) (x := a) (fld_fields _ hf 3)
  have e_d := of_fld 262144 (lo := 18) (x := d) (fld_fields _ hf 4)
  generalize fields [(3, g.toNat), (1, w.toNat), (8, 0), (6, a.toNat), (6, d.toNat), (8, 15)] = enc at *
  simp [decodeWord, decodeClass0, c0, c1, e_g, e_w, e_a, e_d]
theorem movi (d : BitVec 6) (i : BitVec 18) : Statement (.movi d i) := by
  have hf : Fits [(18, i.toNat), (6, d.toNat), (8, 17)] := ⟨i.isLt, d.isLt, by decide, trivial⟩
  refine of_fields rfl hf rfl (by simp only [word, put, fields, List.foldl]; omega) ?_
  have c0 : fld _ 24 8 = 17 := fld_fields _ hf 2
  have e_i := of_low (x := i) (fld_fields _ hf 0)
  have e_d := of_fld 262144 (lo := 18) (x := d) (fld_fields _ hf 1)
  generalize fields [(18, i.toNat), (6, d.toNat), (8, 17)] = enc at *
  simp [decodeWord, decodeClass1, c0, e_i, e_d]
theorem movhi (d : BitVec 6) (i : BitVec 14) : Statement (.movhi d i) := by
  have hf : Fits [(14, i.toNat), (4, 0), (6, d.toNat), (8, 18)] := ⟨i.isLt, by decide, d.isLt, by decide, trivial⟩
  refine of_fields rfl hf rfl (by simp only [word, put, fields, List.foldl]; omega) ?_
  have c0 : fld _ 24 8 = 18 := fld_fields _ hf 3
  have c1 : fld _ 14 4 = 0 := fld_fields _ hf 1
  have e_i := of_low (x := i) (fld_fields _ hf 0)
  have e_d := of_fld 262144 (lo := 18) (x := d) (fld_fields _ hf 2)
  generalize fields [(14, i.toNat), (4, 0), (6, d.toNat), (8, 18)] = enc at *
  simp [decodeWord, decodeClass1, c0, c1, e_i, e_d]
theorem iota (d : BitVec 6) (b : BitVec 9) (s : BitVec 9) : Statement (.iota d b s) := by
  have hf : Fits [(9, s.toNat), (9, b.toNat), (6, d.toNat), (8, 19)] := ⟨s.isLt, b.isLt, d.isLt, by decide, trivial⟩
  refine of_fields rfl hf rfl (by simp only [word, put, fields, List.foldl]; omega) ?_
  have c0 : fld _ 24 8 = 19 := fld_fields _ hf 3
  have e_s := of_low (x := s) (fld_fields _ hf 0)
  have e_b := of_fld 512 (lo := 9) (x := b) (fld_fields _ hf 1)
  have e_d := of_fld 262144 (lo := 18) (x := d) (fld_fields _ hf 2)
  generalize fields [(9, s.toNat), (9, b.toNat), (6, d.toNat), (8, 19)] = enc at *
  simp [decodeWord, decodeClass1, c0, e_s, e_b, e_d]
theorem addImm (d : BitVec 6) (a : BitVec 6) (i : BitVec 9) (g : BitVec 3) : Statement (.addImm d a i g) := by
  have hf : Fits [(3, g.toNat), (9, i.toNat), (6, a.toNat), (6, d.toNat), (8, 20)] := ⟨g.isLt, i.isLt, a.isLt, d.isLt, by decide, trivial⟩
  refine of_fields rfl hf rfl (by simp only [word, put, fields, List.foldl]; omega) ?_
  have c0 : fld _ 24 8 = 20 := fld_fields _ hf 4
  have e_g := of_low (x := g) (fld_fields _ hf 0)
  have e_i := of_fld 8 (lo := 3) (x := i) (fld_fields _ hf 1)
  have e_a := of_fld 4096 (lo := 12) (x := a) (fld_fields _ hf 2)
  have e_d := of_fld 262144 (lo := 18) (x := d) (fld_fields _ hf 3)
  generalize fields [(3, g.toNat), (9, i.toNat), (6, a.toNat), (6, d.toNat), (8, 20)] = enc at *
  simp [decodeWord, decodeClass1, c0, e_g, e_i, e_a, e_d]
theorem mulImm (d : BitVec 6) (a : BitVec 6) (i : BitVec 9) (g : BitVec 3) : Statement (.mulImm d a i g) := by
  have hf : Fits [(3, g.toNat), (9, i.toNat), (6, a.toNat), (6, d.toNat), (8, 21)] := ⟨g.isLt, i.isLt, a.isLt, d.isLt, by decide, trivial⟩
  refine of_fields rfl hf rfl (by simp only [word, put, fields, List.foldl]; omega) ?_
  have c0 : fld _ 24 8 = 21 := fld_fields _ hf 4
  have e_g := of_low (x := g) (fld_fields _ hf 0)
  have e_i := of_fld 8 (lo := 3) (x := i) (fld_fields _ hf 1)
  have e_a := of_fld 4096 (lo := 12) (x := a) (fld_fields _ hf 2)
  have e_d := of_fld 262144 (lo := 18) (x := d) (fld_fields _ hf 3)
  generalize fields [(3, g.toNat), (9, i.toNat), (6, a.toNat), (6, d.toNat), (8, 21)] = enc at *
  simp [decodeWord, decodeClass1, c0, e_g, e_i, e_a, e_d]
theorem andImm (d : BitVec 6) (a : BitVec 6) (i : BitVec 9) (g : BitVec 3) : Statement (.andImm d a i g) := by
  have hf : Fits [(3, g.toNat), (9, i.toNat), (6, a.toNat), (6, d.toNat), (8, 22)] := ⟨g.isLt, i.isLt, a.isLt, d.isLt, by decide, trivial⟩
  refine of_fields rfl hf rfl (by simp only [word, put, fields, List.foldl]; omega) ?_
  have c0 : fld _ 24 8 = 22 := fld_fields _ hf 4
  have e_g := of_low (x := g) (fld_fields _ hf 0)
  have e_i := of_fld 8 (lo := 3) (x := i) (fld_fields _ hf 1)
  have e_a := of_fld 4096 (lo := 12) (x := a) (fld_fields _ hf 2)
  have e_d := of_fld 262144 (lo := 18) (x := d) (fld_fields _ hf 3)
  generalize fields [(3, g.toNat), (9, i.toNat), (6, a.toNat), (6, d.toNat), (8, 22)] = enc at *
  simp [decodeWord, decodeClass1, c0, e_g, e_i, e_a, e_d]
theorem orImm (d : BitVec 6) (a : BitVec 6) (i : BitVec 9) (g : BitVec 3) : Statement (.orImm d a i g) := by
  have hf : Fits [(3, g.toNat), (9, i.toNat), (6, a.toNat), (6, d.toNat), (8, 23)] := ⟨g.isLt, i.isLt, a.isLt, d.isLt, by decide, trivial⟩
  refine of_fields rfl hf rfl (by simp only [word, put, fields, List.foldl]; omega) ?_
  have c0 : fld _ 24 8 = 23 := fld_fields _ hf 4
  have e_g := of_low (x := g) (fld_fields _ hf 0)
  have e_i := of_fld 8 (lo := 3) (x := i) (fld_fields _ hf 1)
  have e_a := of_fld 4096 (lo := 12) (x := a) (fld_fields _ hf 2)
  have e_d := of_fld 262144 (lo := 18) (x := d) (fld_fields _ hf 3)
  generalize fields [(3, g.toNat), (9, i.toNat), (6, a.toNat), (6, d.toNat), (8, 23)] = enc at *
  simp [decodeWord, decodeClass1, c0, e_g, e_i, e_a, e_d]
theorem xorImm (d : BitVec 6) (a : BitVec 6) (i : BitVec 9) (g : BitVec 3) : Statement (.xorImm d a i g) := by
  have hf : Fits [(3, g.toNat), (9, i.toNat), (6, a.toNat), (6, d.toNat), (8, 24)] := ⟨g.isLt, i.isLt, a.isLt, d.isLt, by decide, trivial⟩
  refine of_fields rfl hf rfl (by simp only [word, put, fields, List.foldl]; omega) ?_
  have c0 : fld _ 24 8 = 24 := fld_fields _ hf 4
  have e_g := of_low (x := g) (fld_fields _ hf 0)
  have e_i := of_fld 8 (lo := 3) (x := i) (fld_fields _ hf 1)
  have e_a := of_fld 4096 (lo := 12) (x := a) (fld_fields _ hf 2)
  have e_d := of_fld 262144 (lo := 18) (x := d) (fld_fields _ hf 3)
  generalize fields [(3, g.toNat), (9, i.toNat), (6, a.toNat), (6, d.toNat), (8, 24)] = enc at *
  simp [decodeWord, decodeClass1, c0, e_g, e_i, e_a, e_d]
theorem shlImm (d : BitVec 6) (a : BitVec 6) (n : BitVec 5) (g : BitVec 3) : Statement (.shlImm d a n g) := by
  have hf : Fits [(3, g.toNat), (5, n.toNat), (4, 0), (6, a.toNat), (6, d.toNat), (8, 25)] := ⟨g.isLt, n.isLt, by decide, a.isLt, d.isLt, by decide, trivial⟩
  refine of_fields rfl hf rfl (by simp only [word, put, fields, List.foldl]; omega) ?_
  have c0 : fld _ 24 8 = 25 := fld_fields _ hf 5
  have c1 : fld _ 8 4 = 0 := fld_fields _ hf 2
  have e_g := of_low (x := g) (fld_fields _ hf 0)
  have e_n := of_fld 8 (lo := 3) (x := n) (fld_fields _ hf 1)
  have e_a := of_fld 4096 (lo := 12) (x := a) (fld_fields _ hf 3)
  have e_d := of_fld 262144 (lo := 18) (x := d) (fld_fields _ hf 4)
  generalize fields [(3, g.toNat), (5, n.toNat), (4, 0), (6, a.toNat), (6, d.toNat), (8, 25)] = enc at *
  simp [decodeWord, decodeClass1, c0, c1, e_g, e_n, e_a, e_d]
theorem shrImm (d : BitVec 6) (a : BitVec 6) (n : BitVec 5) (g : BitVec 3) : Statement (.shrImm d a n g) := by
  have hf : Fits [(3, g.toNat), (5, n.toNat), (4, 0), (6, a.toNat), (6, d.toNat), (8, 26)] := ⟨g.isLt, n.isLt, by decide, a.isLt, d.isLt, by decide, trivial⟩
  refine of_fields rfl hf rfl (by simp only [word, put, fields, List.foldl]; omega) ?_
  have c0 : fld _ 24 8 = 26 := fld_fields _ hf 5
  have c1 : fld _ 8 4 = 0 := fld_fields _ hf 2
  have e_g := of_low (x := g) (fld_fields _ hf 0)
  have e_n := of_fld 8 (lo := 3) (x := n) (fld_fields _ hf 1)
  have e_a := of_fld 4096 (lo := 12) (x := a) (fld_fields _ hf 3)
  have e_d := of_fld 262144 (lo := 18) (x := d) (fld_fields _ hf 4)
  generalize fields [(3, g.toNat), (5, n.toNat), (4, 0), (6, a.toNat), (6, d.toNat), (8, 26)] = enc at *
  simp [decodeWord, decodeClass1, c0, c1, e_g, e_n, e_a, e_d]
theorem sarImm (d : BitVec 6) (a : BitVec 6) (n : BitVec 5) (g : BitVec 3) : Statement (.sarImm d a n g) := by
  have hf : Fits [(3, g.toNat), (5, n.toNat), (4, 0), (6, a.toNat), (6, d.toNat), (8, 27)] := ⟨g.isLt, n.isLt, by decide, a.isLt, d.isLt, by decide, trivial⟩
  refine of_fields rfl hf rfl (by simp only [word, put, fields, List.foldl]; omega) ?_
  have c0 : fld _ 24 8 = 27 := fld_fields _ hf 5
  have c1 : fld _ 8 4 = 0 := fld_fields _ hf 2
  have e_g := of_low (x := g) (fld_fields _ hf 0)
  have e_n := of_fld 8 (lo := 3) (x := n) (fld_fields _ hf 1)
  have e_a := of_fld 4096 (lo := 12) (x := a) (fld_fields _ hf 3)
  have e_d := of_fld 262144 (lo := 18) (x := d) (fld_fields _ hf 4)
  generalize fields [(3, g.toNat), (5, n.toNat), (4, 0), (6, a.toNat), (6, d.toNat), (8, 27)] = enc at *
  simp [decodeWord, decodeClass1, c0, c1, e_g, e_n, e_a, e_d]
theorem rotImm (d : BitVec 6) (a : BitVec 6) (n : BitVec 5) (g : BitVec 3) : Statement (.rotImm d a n g) := by
  have hf : Fits [(3, g.toNat), (5, n.toNat), (4, 0), (6, a.toNat), (6, d.toNat), (8, 28)] := ⟨g.isLt, n.isLt, by decide, a.isLt, d.isLt, by decide, trivial⟩
  refine of_fields rfl hf rfl (by simp only [word, put, fields, List.foldl]; omega) ?_
  have c0 : fld _ 24 8 = 28 := fld_fields _ hf 5
  have c1 : fld _ 8 4 = 0 := fld_fields _ hf 2
  have e_g := of_low (x := g) (fld_fields _ hf 0)
  have e_n := of_fld 8 (lo := 3) (x := n) (fld_fields _ hf 1)
  have e_a := of_fld 4096 (lo := 12) (x := a) (fld_fields _ hf 3)
  have e_d := of_fld 262144 (lo := 18) (x := d) (fld_fields _ hf 4)
  generalize fields [(3, g.toNat), (5, n.toNat), (4, 0), (6, a.toNat), (6, d.toNat), (8, 28)] = enc at *
  simp [decodeWord, decodeClass1, c0, c1, e_g, e_n, e_a, e_d]
theorem minImm (d : BitVec 6) (a : BitVec 6) (i : BitVec 9) (g : BitVec 3) : Statement (.minImm d a i g) := by
  have hf : Fits [(3, g.toNat), (9, i.toNat), (6, a.toNat), (6, d.toNat), (8, 29)] := ⟨g.isLt, i.isLt, a.isLt, d.isLt, by decide, trivial⟩
  refine of_fields rfl hf rfl (by simp only [word, put, fields, List.foldl]; omega) ?_
  have c0 : fld _ 24 8 = 29 := fld_fields _ hf 4
  have e_g := of_low (x := g) (fld_fields _ hf 0)
  have e_i := of_fld 8 (lo := 3) (x := i) (fld_fields _ hf 1)
  have e_a := of_fld 4096 (lo := 12) (x := a) (fld_fields _ hf 2)
  have e_d := of_fld 262144 (lo := 18) (x := d) (fld_fields _ hf 3)
  generalize fields [(3, g.toNat), (9, i.toNat), (6, a.toNat), (6, d.toNat), (8, 29)] = enc at *
  simp [decodeWord, decodeClass1, c0, e_g, e_i, e_a, e_d]
theorem maxImm (d : BitVec 6) (a : BitVec 6) (i : BitVec 9) (g : BitVec 3) : Statement (.maxImm d a i g) := by
  have hf : Fits [(3, g.toNat), (9, i.toNat), (6, a.toNat), (6, d.toNat), (8, 30)] := ⟨g.isLt, i.isLt, a.isLt, d.isLt, by decide, trivial⟩
  refine of_fields rfl hf rfl (by simp only [word, put, fields, List.foldl]; omega) ?_
  have c0 : fld _ 24 8 = 30 := fld_fields _ hf 4
  have e_g := of_low (x := g) (fld_fields _ hf 0)
  have e_i := of_fld 8 (lo := 3) (x := i) (fld_fields _ hf 1)
  have e_a := of_fld 4096 (lo := 12) (x := a) (fld_fields _ hf 2)
  have e_d := of_fld 262144 (lo := 18) (x := d) (fld_fields _ hf 3)
  generalize fields [(3, g.toNat), (9, i.toNat), (6, a.toNat), (6, d.toNat), (8, 30)] = enc at *
  simp [decodeWord, decodeClass1, c0, e_g, e_i, e_a, e_d]
theorem leaImm (d : BitVec 6) (a : BitVec 6) (i : BitVec 9) (g : BitVec 3) : Statement (.leaImm d a i g) := by
  have hf : Fits [(3, g.toNat), (9, i.toNat), (6, a.toNat), (6, d.toNat), (8, 31)] := ⟨g.isLt, i.isLt, a.isLt, d.isLt, by decide, trivial⟩
  refine of_fields rfl hf rfl (by simp only [word, put, fields, List.foldl]; omega) ?_
  have c0 : fld _ 24 8 = 31 := fld_fields _ hf 4
  have e_g := of_low (x := g) (fld_fields _ hf 0)
  have e_i := of_fld 8 (lo := 3) (x := i) (fld_fields _ hf 1)
  have e_a := of_fld 4096 (lo := 12) (x := a) (fld_fields _ hf 2)
  have e_d := of_fld 262144 (lo := 18) (x := d) (fld_fields _ hf 3)
  generalize fields [(3, g.toNat), (9, i.toNat), (6, a.toNat), (6, d.toNat), (8, 31)] = enc at *
  simp [decodeWord, decodeClass1, c0, e_g, e_i, e_a, e_d]
theorem fadd (d : BitVec 6) (a : BitVec 6) (b : BitVec 6) (f : BitVec 3) (g : BitVec 3) : Statement (.fadd d a b f g) := by
  have hf : Fits [(3, g.toNat), (3, f.toNat), (6, b.toNat), (6, a.toNat), (6, d.toNat), (8, 33)] := ⟨g.isLt, f.isLt, b.isLt, a.isLt, d.isLt, by decide, trivial⟩
  refine of_fields rfl hf rfl (by simp only [word, put, fields, List.foldl]; omega) ?_
  have c0 : fld _ 24 8 = 33 := fld_fields _ hf 5
  have e_g := of_low (x := g) (fld_fields _ hf 0)
  have e_f := of_fld 8 (lo := 3) (x := f) (fld_fields _ hf 1)
  have e_b := of_fld 64 (lo := 6) (x := b) (fld_fields _ hf 2)
  have e_a := of_fld 4096 (lo := 12) (x := a) (fld_fields _ hf 3)
  have e_d := of_fld 262144 (lo := 18) (x := d) (fld_fields _ hf 4)
  generalize fields [(3, g.toNat), (3, f.toNat), (6, b.toNat), (6, a.toNat), (6, d.toNat), (8, 33)] = enc at *
  simp [decodeWord, decodeClass2, c0, e_g, e_f, e_b, e_a, e_d]
theorem fsub (d : BitVec 6) (a : BitVec 6) (b : BitVec 6) (f : BitVec 3) (g : BitVec 3) : Statement (.fsub d a b f g) := by
  have hf : Fits [(3, g.toNat), (3, f.toNat), (6, b.toNat), (6, a.toNat), (6, d.toNat), (8, 34)] := ⟨g.isLt, f.isLt, b.isLt, a.isLt, d.isLt, by decide, trivial⟩
  refine of_fields rfl hf rfl (by simp only [word, put, fields, List.foldl]; omega) ?_
  have c0 : fld _ 24 8 = 34 := fld_fields _ hf 5
  have e_g := of_low (x := g) (fld_fields _ hf 0)
  have e_f := of_fld 8 (lo := 3) (x := f) (fld_fields _ hf 1)
  have e_b := of_fld 64 (lo := 6) (x := b) (fld_fields _ hf 2)
  have e_a := of_fld 4096 (lo := 12) (x := a) (fld_fields _ hf 3)
  have e_d := of_fld 262144 (lo := 18) (x := d) (fld_fields _ hf 4)
  generalize fields [(3, g.toNat), (3, f.toNat), (6, b.toNat), (6, a.toNat), (6, d.toNat), (8, 34)] = enc at *
  simp [decodeWord, decodeClass2, c0, e_g, e_f, e_b, e_a, e_d]
theorem fmul (d : BitVec 6) (a : BitVec 6) (b : BitVec 6) (f : BitVec 3) (g : BitVec 3) : Statement (.fmul d a b f g) := by
  have hf : Fits [(3, g.toNat), (3, f.toNat), (6, b.toNat), (6, a.toNat), (6, d.toNat), (8, 35)] := ⟨g.isLt, f.isLt, b.isLt, a.isLt, d.isLt, by decide, trivial⟩
  refine of_fields rfl hf rfl (by simp only [word, put, fields, List.foldl]; omega) ?_
  have c0 : fld _ 24 8 = 35 := fld_fields _ hf 5
  have e_g := of_low (x := g) (fld_fields _ hf 0)
  have e_f := of_fld 8 (lo := 3) (x := f) (fld_fields _ hf 1)
  have e_b := of_fld 64 (lo := 6) (x := b) (fld_fields _ hf 2)
  have e_a := of_fld 4096 (lo := 12) (x := a) (fld_fields _ hf 3)
  have e_d := of_fld 262144 (lo := 18) (x := d) (fld_fields _ hf 4)
  generalize fields [(3, g.toNat), (3, f.toNat), (6, b.toNat), (6, a.toNat), (6, d.toNat), (8, 35)] = enc at *
  simp [decodeWord, decodeClass2, c0, e_g, e_f, e_b, e_a, e_d]
theorem fma (d : BitVec 6) (a : BitVec 6) (b : BitVec 6) (f : BitVec 3) (g : BitVec 3) : Statement (.fma d a b f g) := by
  have hf : Fits [(3, g.toNat), (3, f.toNat), (6, b.toNat), (6, a.toNat), (6, d.toNat), (8, 36)] := ⟨g.isLt, f.isLt, b.isLt, a.isLt, d.isLt, by decide, trivial⟩
  refine of_fields rfl hf rfl (by simp only [word, put, fields, List.foldl]; omega) ?_
  have c0 : fld _ 24 8 = 36 := fld_fields _ hf 5
  have e_g := of_low (x := g) (fld_fields _ hf 0)
  have e_f := of_fld 8 (lo := 3) (x := f) (fld_fields _ hf 1)
  have e_b := of_fld 64 (lo := 6) (x := b) (fld_fields _ hf 2)
  have e_a := of_fld 4096 (lo := 12) (x := a) (fld_fields _ hf 3)
  have e_d := of_fld 262144 (lo := 18) (x := d) (fld_fields _ hf 4)
  generalize fields [(3, g.toNat), (3, f.toNat), (6, b.toNat), (6, a.toNat), (6, d.toNat), (8, 36)] = enc at *
  simp [decodeWord, decodeClass2, c0, e_g, e_f, e_b, e_a, e_d]
theorem fmin (d : BitVec 6) (a : BitVec 6) (b : BitVec 6) (t : BitVec 2) (g : BitVec 3) : Statement (.fmin d a b t g) := by
  have hf : Fits [(3, g.toNat), (1, 0), (2, t.toNat), (6, b.toNat), (6, a.toNat), (6, d.toNat), (8, 37)] := ⟨g.isLt, by decide, t.isLt, b.isLt, a.isLt, d.isLt, by decide, trivial⟩
  refine of_fields rfl hf rfl (by simp only [word, put, fields, List.foldl]; omega) ?_
  have c0 : fld _ 24 8 = 37 := fld_fields _ hf 6
  have c1 : fld _ 3 1 = 0 := fld_fields _ hf 1
  have e_g := of_low (x := g) (fld_fields _ hf 0)
  have e_t := of_fld 16 (lo := 4) (x := t) (fld_fields _ hf 2)
  have e_b := of_fld 64 (lo := 6) (x := b) (fld_fields _ hf 3)
  have e_a := of_fld 4096 (lo := 12) (x := a) (fld_fields _ hf 4)
  have e_d := of_fld 262144 (lo := 18) (x := d) (fld_fields _ hf 5)
  generalize fields [(3, g.toNat), (1, 0), (2, t.toNat), (6, b.toNat), (6, a.toNat), (6, d.toNat), (8, 37)] = enc at *
  simp [decodeWord, decodeClass2, c0, c1, e_g, e_t, e_b, e_a, e_d]
theorem fmax (d : BitVec 6) (a : BitVec 6) (b : BitVec 6) (t : BitVec 2) (g : BitVec 3) : Statement (.fmax d a b t g) := by
  have hf : Fits [(3, g.toNat), (1, 0), (2, t.toNat), (6, b.toNat), (6, a.toNat), (6, d.toNat), (8, 38)] := ⟨g.isLt, by decide, t.isLt, b.isLt, a.isLt, d.isLt, by decide, trivial⟩
  refine of_fields rfl hf rfl (by simp only [word, put, fields, List.foldl]; omega) ?_
  have c0 : fld _ 24 8 = 38 := fld_fields _ hf 6
  have c1 : fld _ 3 1 = 0 := fld_fields _ hf 1
  have e_g := of_low (x := g) (fld_fields _ hf 0)
  have e_t := of_fld 16 (lo := 4) (x := t) (fld_fields _ hf 2)
  have e_b := of_fld 64 (lo := 6) (x := b) (fld_fields _ hf 3)
  have e_a := of_fld 4096 (lo := 12) (x := a) (fld_fields _ hf 4)
  have e_d := of_fld 262144 (lo := 18) (x := d) (fld_fields _ hf 5)
  generalize fields [(3, g.toNat), (1, 0), (2, t.toNat), (6, b.toNat), (6, a.toNat), (6, d.toNat), (8, 38)] = enc at *
  simp [decodeWord, decodeClass2, c0, c1, e_g, e_t, e_b, e_a, e_d]
theorem fabs (d : BitVec 6) (a : BitVec 6) (t : BitVec 2) (g : BitVec 3) : Statement (.fabs d a t g) := by
  have hf : Fits [(3, g.toNat), (1, 0), (2, t.toNat), (6, 0), (6, a.toNat), (6, d.toNat), (8, 39)] := ⟨g.isLt, by decide, t.isLt, by decide, a.isLt, d.isLt, by decide, trivial⟩
  refine of_fields rfl hf rfl (by simp only [word, put, fields, List.foldl]; omega) ?_
  have c0 : fld _ 24 8 = 39 := fld_fields _ hf 6
  have c1 : fld _ 3 1 = 0 := fld_fields _ hf 1
  have c2 : fld _ 6 6 = 0 := fld_fields _ hf 3
  have e_g := of_low (x := g) (fld_fields _ hf 0)
  have e_t := of_fld 16 (lo := 4) (x := t) (fld_fields _ hf 2)
  have e_a := of_fld 4096 (lo := 12) (x := a) (fld_fields _ hf 4)
  have e_d := of_fld 262144 (lo := 18) (x := d) (fld_fields _ hf 5)
  generalize fields [(3, g.toNat), (1, 0), (2, t.toNat), (6, 0), (6, a.toNat), (6, d.toNat), (8, 39)] = enc at *
  simp [decodeWord, decodeClass2, c0, c1, c2, e_g, e_t, e_a, e_d]
theorem fneg (d : BitVec 6) (a : BitVec 6) (t : BitVec 2) (g : BitVec 3) : Statement (.fneg d a t g) := by
  have hf : Fits [(3, g.toNat), (1, 1), (2, t.toNat), (6, 0), (6, a.toNat), (6, d.toNat), (8, 39)] := ⟨g.isLt, by decide, t.isLt, by decide, a.isLt, d.isLt, by decide, trivial⟩
  refine of_fields rfl hf rfl (by simp only [word, put, fields, List.foldl]; omega) ?_
  have c0 : fld _ 24 8 = 39 := fld_fields _ hf 6
  have c1 : fld _ 3 1 = 1 := fld_fields _ hf 1
  have c2 : fld _ 6 6 = 0 := fld_fields _ hf 3
  have e_g := of_low (x := g) (fld_fields _ hf 0)
  have e_t := of_fld 16 (lo := 4) (x := t) (fld_fields _ hf 2)
  have e_a := of_fld 4096 (lo := 12) (x := a) (fld_fields _ hf 4)
  have e_d := of_fld 262144 (lo := 18) (x := d) (fld_fields _ hf 5)
  generalize fields [(3, g.toNat), (1, 1), (2, t.toNat), (6, 0), (6, a.toNat), (6, d.toNat), (8, 39)] = enc at *
  simp [decodeWord, decodeClass2, c0, c1, c2, e_g, e_t, e_a, e_d]
theorem fcmp (t : BitVec 2) (p : BitVec 3) (a : BitVec 6) (b : BitVec 6) (c : BitVec 3) (g : BitVec 3) : Statement (.fcmp t p a b c g) := by
  have hf : Fits [(3, g.toNat), (3, c.toNat), (6, b.toNat), (6, a.toNat), (3, p.toNat), (2, t.toNat), (1, 0), (8, 40)] := ⟨g.isLt, c.isLt, b.isLt, a.isLt, p.isLt, t.isLt, by decide, by decide, trivial⟩
  refine of_fields rfl hf rfl (by simp only [word, put, fields, List.foldl]; omega) ?_
  have c0 : fld _ 24 8 = 40 := fld_fields _ hf 7
  have c1 : fld _ 23 1 = 0 := fld_fields _ hf 6
  have e_g := of_low (x := g) (fld_fields _ hf 0)
  have e_c := of_fld 8 (lo := 3) (x := c) (fld_fields _ hf 1)
  have e_b := of_fld 64 (lo := 6) (x := b) (fld_fields _ hf 2)
  have e_a := of_fld 4096 (lo := 12) (x := a) (fld_fields _ hf 3)
  have e_p := of_fld 262144 (lo := 18) (x := p) (fld_fields _ hf 4)
  have e_t := of_fld 2097152 (lo := 21) (x := t) (fld_fields _ hf 5)
  generalize fields [(3, g.toNat), (3, c.toNat), (6, b.toNat), (6, a.toNat), (3, p.toNat), (2, t.toNat), (1, 0), (8, 40)] = enc at *
  simp [decodeWord, decodeClass2, c0, c1, e_g, e_c, e_b, e_a, e_p, e_t]
theorem fclass (d : BitVec 6) (a : BitVec 6) (t : BitVec 2) (g : BitVec 3) : Statement (.fclass d a t g) := by
  have hf : Fits [(3, g.toNat), (1, 0), (2, t.toNat), (6, 0), (6, a.toNat), (6, d.toNat), (8, 41)] := ⟨g.isLt, by decide, t.isLt, by decide, a.isLt, d.isLt, by decide, trivial⟩
  refine of_fields rfl hf rfl (by simp only [word, put, fields, List.foldl]; omega) ?_
  have c0 : fld _ 24 8 = 41 := fld_fields _ hf 6
  have c1 : fld _ 3 1 = 0 := fld_fields _ hf 1
  have c2 : fld _ 6 6 = 0 := fld_fields _ hf 3
  have e_g := of_low (x := g) (fld_fields _ hf 0)
  have e_t := of_fld 16 (lo := 4) (x := t) (fld_fields _ hf 2)
  have e_a := of_fld 4096 (lo := 12) (x := a) (fld_fields _ hf 4)
  have e_d := of_fld 262144 (lo := 18) (x := d) (fld_fields _ hf 5)
  generalize fields [(3, g.toNat), (1, 0), (2, t.toNat), (6, 0), (6, a.toNat), (6, d.toNat), (8, 41)] = enc at *
  simp [decodeWord, decodeClass2, c0, c1, c2, e_g, e_t, e_a, e_d]
theorem fdiv (d : BitVec 6) (a : BitVec 6) (b : BitVec 6) (f : BitVec 3) (g : BitVec 3) : Statement (.fdiv d a b f g) := by
  have hf : Fits [(3, g.toNat), (3, f.toNat), (6, b.toNat), (6, a.toNat), (6, d.toNat), (8, 42)] := ⟨g.isLt, f.isLt, b.isLt, a.isLt, d.isLt, by decide, trivial⟩
  refine of_fields rfl hf rfl (by simp only [word, put, fields, List.foldl]; omega) ?_
  have c0 : fld _ 24 8 = 42 := fld_fields _ hf 5
  have e_g := of_low (x := g) (fld_fields _ hf 0)
  have e_f := of_fld 8 (lo := 3) (x := f) (fld_fields _ hf 1)
  have e_b := of_fld 64 (lo := 6) (x := b) (fld_fields _ hf 2)
  have e_a := of_fld 4096 (lo := 12) (x := a) (fld_fields _ hf 3)
  have e_d := of_fld 262144 (lo := 18) (x := d) (fld_fields _ hf 4)
  generalize fields [(3, g.toNat), (3, f.toNat), (6, b.toNat), (6, a.toNat), (6, d.toNat), (8, 42)] = enc at *
  simp [decodeWord, decodeClass2, c0, e_g, e_f, e_b, e_a, e_d]
theorem fscale (d : BitVec 6) (a : BitVec 6) (b : BitVec 6) (f : BitVec 3) (g : BitVec 3) : Statement (.fscale d a b f g) := by
  have hf : Fits [(3, g.toNat), (3, f.toNat), (6, b.toNat), (6, a.toNat), (6, d.toNat), (8, 43)] := ⟨g.isLt, f.isLt, b.isLt, a.isLt, d.isLt, by decide, trivial⟩
  refine of_fields rfl hf rfl (by simp only [word, put, fields, List.foldl]; omega) ?_
  have c0 : fld _ 24 8 = 43 := fld_fields _ hf 5
  have e_g := of_low (x := g) (fld_fields _ hf 0)
  have e_f := of_fld 8 (lo := 3) (x := f) (fld_fields _ hf 1)
  have e_b := of_fld 64 (lo := 6) (x := b) (fld_fields _ hf 2)
  have e_a := of_fld 4096 (lo := 12) (x := a) (fld_fields _ hf 3)
  have e_d := of_fld 262144 (lo := 18) (x := d) (fld_fields _ hf 4)
  generalize fields [(3, g.toNat), (3, f.toNat), (6, b.toNat), (6, a.toNat), (6, d.toNat), (8, 43)] = enc at *
  simp [decodeWord, decodeClass2, c0, e_g, e_f, e_b, e_a, e_d]
theorem fsqrt (d : BitVec 6) (a : BitVec 6) (f : BitVec 3) (g : BitVec 3) : Statement (.fsqrt d a f g) := by
  have hf : Fits [(3, g.toNat), (3, f.toNat), (6, 0), (6, a.toNat), (6, d.toNat), (8, 44)] := ⟨g.isLt, f.isLt, by decide, a.isLt, d.isLt, by decide, trivial⟩
  refine of_fields rfl hf rfl (by simp only [word, put, fields, List.foldl]; omega) ?_
  have c0 : fld _ 24 8 = 44 := fld_fields _ hf 5
  have c1 : fld _ 6 6 = 0 := fld_fields _ hf 2
  have e_g := of_low (x := g) (fld_fields _ hf 0)
  have e_f := of_fld 8 (lo := 3) (x := f) (fld_fields _ hf 1)
  have e_a := of_fld 4096 (lo := 12) (x := a) (fld_fields _ hf 3)
  have e_d := of_fld 262144 (lo := 18) (x := d) (fld_fields _ hf 4)
  generalize fields [(3, g.toNat), (3, f.toNat), (6, 0), (6, a.toNat), (6, d.toNat), (8, 44)] = enc at *
  simp [decodeWord, decodeClass2, c0, c1, e_g, e_f, e_a, e_d]
theorem frcp (d : BitVec 6) (a : BitVec 6) (f : BitVec 3) (g : BitVec 3) : Statement (.frcp d a f g) := by
  have hf : Fits [(3, g.toNat), (3, f.toNat), (6, 1), (6, a.toNat), (6, d.toNat), (8, 44)] := ⟨g.isLt, f.isLt, by decide, a.isLt, d.isLt, by decide, trivial⟩
  refine of_fields rfl hf rfl (by simp only [word, put, fields, List.foldl]; omega) ?_
  have c0 : fld _ 24 8 = 44 := fld_fields _ hf 5
  have c1 : fld _ 6 6 = 1 := fld_fields _ hf 2
  have e_g := of_low (x := g) (fld_fields _ hf 0)
  have e_f := of_fld 8 (lo := 3) (x := f) (fld_fields _ hf 1)
  have e_a := of_fld 4096 (lo := 12) (x := a) (fld_fields _ hf 3)
  have e_d := of_fld 262144 (lo := 18) (x := d) (fld_fields _ hf 4)
  generalize fields [(3, g.toNat), (3, f.toNat), (6, 1), (6, a.toNat), (6, d.toNat), (8, 44)] = enc at *
  simp [decodeWord, decodeClass2, c0, c1, e_g, e_f, e_a, e_d]
theorem frsqrt (d : BitVec 6) (a : BitVec 6) (f : BitVec 3) (g : BitVec 3) : Statement (.frsqrt d a f g) := by
  have hf : Fits [(3, g.toNat), (3, f.toNat), (6, 2), (6, a.toNat), (6, d.toNat), (8, 44)] := ⟨g.isLt, f.isLt, by decide, a.isLt, d.isLt, by decide, trivial⟩
  refine of_fields rfl hf rfl (by simp only [word, put, fields, List.foldl]; omega) ?_
  have c0 : fld _ 24 8 = 44 := fld_fields _ hf 5
  have c1 : fld _ 6 6 = 2 := fld_fields _ hf 2
  have e_g := of_low (x := g) (fld_fields _ hf 0)
  have e_f := of_fld 8 (lo := 3) (x := f) (fld_fields _ hf 1)
  have e_a := of_fld 4096 (lo := 12) (x := a) (fld_fields _ hf 3)
  have e_d := of_fld 262144 (lo := 18) (x := d) (fld_fields _ hf 4)
  generalize fields [(3, g.toNat), (3, f.toNat), (6, 2), (6, a.toNat), (6, d.toNat), (8, 44)] = enc at *
  simp [decodeWord, decodeClass2, c0, c1, e_g, e_f, e_a, e_d]
theorem fexp2 (d : BitVec 6) (a : BitVec 6) (f : BitVec 3) (g : BitVec 3) : Statement (.fexp2 d a f g) := by
  have hf : Fits [(3, g.toNat), (3, f.toNat), (6, 0), (6, a.toNat), (6, d.toNat), (8, 45)] := ⟨g.isLt, f.isLt, by decide, a.isLt, d.isLt, by decide, trivial⟩
  refine of_fields rfl hf rfl (by simp only [word, put, fields, List.foldl]; omega) ?_
  have c0 : fld _ 24 8 = 45 := fld_fields _ hf 5
  have c1 : fld _ 6 6 = 0 := fld_fields _ hf 2
  have e_g := of_low (x := g) (fld_fields _ hf 0)
  have e_f := of_fld 8 (lo := 3) (x := f) (fld_fields _ hf 1)
  have e_a := of_fld 4096 (lo := 12) (x := a) (fld_fields _ hf 3)
  have e_d := of_fld 262144 (lo := 18) (x := d) (fld_fields _ hf 4)
  generalize fields [(3, g.toNat), (3, f.toNat), (6, 0), (6, a.toNat), (6, d.toNat), (8, 45)] = enc at *
  simp [decodeWord, decodeClass2, c0, c1, e_g, e_f, e_a, e_d]
theorem flog2 (d : BitVec 6) (a : BitVec 6) (f : BitVec 3) (g : BitVec 3) : Statement (.flog2 d a f g) := by
  have hf : Fits [(3, g.toNat), (3, f.toNat), (6, 1), (6, a.toNat), (6, d.toNat), (8, 45)] := ⟨g.isLt, f.isLt, by decide, a.isLt, d.isLt, by decide, trivial⟩
  refine of_fields rfl hf rfl (by simp only [word, put, fields, List.foldl]; omega) ?_
  have c0 : fld _ 24 8 = 45 := fld_fields _ hf 5
  have c1 : fld _ 6 6 = 1 := fld_fields _ hf 2
  have e_g := of_low (x := g) (fld_fields _ hf 0)
  have e_f := of_fld 8 (lo := 3) (x := f) (fld_fields _ hf 1)
  have e_a := of_fld 4096 (lo := 12) (x := a) (fld_fields _ hf 3)
  have e_d := of_fld 262144 (lo := 18) (x := d) (fld_fields _ hf 4)
  generalize fields [(3, g.toNat), (3, f.toNat), (6, 1), (6, a.toNat), (6, d.toNat), (8, 45)] = enc at *
  simp [decodeWord, decodeClass2, c0, c1, e_g, e_f, e_a, e_d]
theorem fsin (d : BitVec 6) (a : BitVec 6) (f : BitVec 3) (g : BitVec 3) : Statement (.fsin d a f g) := by
  have hf : Fits [(3, g.toNat), (3, f.toNat), (6, 2), (6, a.toNat), (6, d.toNat), (8, 45)] := ⟨g.isLt, f.isLt, by decide, a.isLt, d.isLt, by decide, trivial⟩
  refine of_fields rfl hf rfl (by simp only [word, put, fields, List.foldl]; omega) ?_
  have c0 : fld _ 24 8 = 45 := fld_fields _ hf 5
  have c1 : fld _ 6 6 = 2 := fld_fields _ hf 2
  have e_g := of_low (x := g) (fld_fields _ hf 0)
  have e_f := of_fld 8 (lo := 3) (x := f) (fld_fields _ hf 1)
  have e_a := of_fld 4096 (lo := 12) (x := a) (fld_fields _ hf 3)
  have e_d := of_fld 262144 (lo := 18) (x := d) (fld_fields _ hf 4)
  generalize fields [(3, g.toNat), (3, f.toNat), (6, 2), (6, a.toNat), (6, d.toNat), (8, 45)] = enc at *
  simp [decodeWord, decodeClass2, c0, c1, e_g, e_f, e_a, e_d]
theorem fcos (d : BitVec 6) (a : BitVec 6) (f : BitVec 3) (g : BitVec 3) : Statement (.fcos d a f g) := by
  have hf : Fits [(3, g.toNat), (3, f.toNat), (6, 3), (6, a.toNat), (6, d.toNat), (8, 45)] := ⟨g.isLt, f.isLt, by decide, a.isLt, d.isLt, by decide, trivial⟩
  refine of_fields rfl hf rfl (by simp only [word, put, fields, List.foldl]; omega) ?_
  have c0 : fld _ 24 8 = 45 := fld_fields _ hf 5
  have c1 : fld _ 6 6 = 3 := fld_fields _ hf 2
  have e_g := of_low (x := g) (fld_fields _ hf 0)
  have e_f := of_fld 8 (lo := 3) (x := f) (fld_fields _ hf 1)
  have e_a := of_fld 4096 (lo := 12) (x := a) (fld_fields _ hf 3)
  have e_d := of_fld 262144 (lo := 18) (x := d) (fld_fields _ hf 4)
  generalize fields [(3, g.toNat), (3, f.toNat), (6, 3), (6, a.toNat), (6, d.toNat), (8, 45)] = enc at *
  simp [decodeWord, decodeClass2, c0, c1, e_g, e_f, e_a, e_d]
theorem ffract (d : BitVec 6) (a : BitVec 6) (t : BitVec 2) (g : BitVec 3) : Statement (.ffract d a t g) := by
  have hf : Fits [(3, g.toNat), (1, 0), (2, t.toNat), (6, 0), (6, a.toNat), (6, d.toNat), (8, 46)] := ⟨g.isLt, by decide, t.isLt, by decide, a.isLt, d.isLt, by decide, trivial⟩
  refine of_fields rfl hf rfl (by simp only [word, put, fields, List.foldl]; omega) ?_
  have c0 : fld _ 24 8 = 46 := fld_fields _ hf 6
  have c1 : fld _ 3 1 = 0 := fld_fields _ hf 1
  have c2 : fld _ 6 6 = 0 := fld_fields _ hf 3
  have e_g := of_low (x := g) (fld_fields _ hf 0)
  have e_t := of_fld 16 (lo := 4) (x := t) (fld_fields _ hf 2)
  have e_a := of_fld 4096 (lo := 12) (x := a) (fld_fields _ hf 4)
  have e_d := of_fld 262144 (lo := 18) (x := d) (fld_fields _ hf 5)
  generalize fields [(3, g.toNat), (1, 0), (2, t.toNat), (6, 0), (6, a.toNat), (6, d.toNat), (8, 46)] = enc at *
  simp [decodeWord, decodeClass2, c0, c1, c2, e_g, e_t, e_a, e_d]
theorem fround (d : BitVec 6) (a : BitVec 6) (t : BitVec 2) (g : BitVec 3) : Statement (.fround d a t g) := by
  have hf : Fits [(3, g.toNat), (1, 0), (2, t.toNat), (6, 1), (6, a.toNat), (6, d.toNat), (8, 46)] := ⟨g.isLt, by decide, t.isLt, by decide, a.isLt, d.isLt, by decide, trivial⟩
  refine of_fields rfl hf rfl (by simp only [word, put, fields, List.foldl]; omega) ?_
  have c0 : fld _ 24 8 = 46 := fld_fields _ hf 6
  have c1 : fld _ 3 1 = 0 := fld_fields _ hf 1
  have c2 : fld _ 6 6 = 1 := fld_fields _ hf 3
  have e_g := of_low (x := g) (fld_fields _ hf 0)
  have e_t := of_fld 16 (lo := 4) (x := t) (fld_fields _ hf 2)
  have e_a := of_fld 4096 (lo := 12) (x := a) (fld_fields _ hf 4)
  have e_d := of_fld 262144 (lo := 18) (x := d) (fld_fields _ hf 5)
  generalize fields [(3, g.toNat), (1, 0), (2, t.toNat), (6, 1), (6, a.toNat), (6, d.toNat), (8, 46)] = enc at *
  simp [decodeWord, decodeClass2, c0, c1, c2, e_g, e_t, e_a, e_d]
theorem fdot2 (d : BitVec 6) (a : BitVec 6) (b : BitVec 6) (t : BitVec 2) (s : BitVec 1) (g : BitVec 3) : Statement (.fdot2 d a b t s g) := by
  have hf : Fits [(3, g.toNat), (1, s.toNat), (2, t.toNat), (6, b.toNat), (6, a.toNat), (6, d.toNat), (8, 47)] := ⟨g.isLt, s.isLt, t.isLt, b.isLt, a.isLt, d.isLt, by decide, trivial⟩
  refine of_fields rfl hf rfl (by simp only [word, put, fields, List.foldl]; omega) ?_
  have c0 : fld _ 24 8 = 47 := fld_fields _ hf 6
  have e_g := of_low (x := g) (fld_fields _ hf 0)
  have e_s := of_fld 8 (lo := 3) (x := s) (fld_fields _ hf 1)
  have e_t := of_fld 16 (lo := 4) (x := t) (fld_fields _ hf 2)
  have e_b := of_fld 64 (lo := 6) (x := b) (fld_fields _ hf 3)
  have e_a := of_fld 4096 (lo := 12) (x := a) (fld_fields _ hf 4)
  have e_d := of_fld 262144 (lo := 18) (x := d) (fld_fields _ hf 5)
  generalize fields [(3, g.toNat), (1, s.toNat), (2, t.toNat), (6, b.toNat), (6, a.toNat), (6, d.toNat), (8, 47)] = enc at *
  simp [decodeWord, decodeClass2, c0, e_g, e_s, e_t, e_b, e_a, e_d]
theorem cvt (d : BitVec 6) (a : BitVec 6) (t : BitVec 3) (s : BitVec 3) (u : BitVec 1) (q : BitVec 1) (g : BitVec 3) : Statement (.cvt d a t s u q g) := by
  have hf : Fits [(3, g.toNat), (1, q.toNat), (1, u.toNat), (1, 0), (3, s.toNat), (3, t.toNat), (6, a.toNat), (6, d.toNat), (8, 49)] := ⟨g.isLt, q.isLt, u.isLt, by decide, s.isLt, t.isLt, a.isLt, d.isLt, by decide, trivial⟩
  refine of_fields rfl hf rfl (by simp only [word, put, fields, List.foldl]; omega) ?_
  have c0 : fld _ 24 8 = 49 := fld_fields _ hf 8
  have c1 : fld _ 5 1 = 0 := fld_fields _ hf 3
  have e_g := of_low (x := g) (fld_fields _ hf 0)
  have e_q := of_fld 8 (lo := 3) (x := q) (fld_fields _ hf 1)
  have e_u := of_fld 16 (lo := 4) (x := u) (fld_fields _ hf 2)
  have e_s := of_fld 64 (lo := 6) (x := s) (fld_fields _ hf 4)
  have e_t := of_fld 512 (lo := 9) (x := t) (fld_fields _ hf 5)
  have e_a := of_fld 4096 (lo := 12) (x := a) (fld_fields _ hf 6)
  have e_d := of_fld 262144 (lo := 18) (x := d) (fld_fields _ hf 7)
  generalize fields [(3, g.toNat), (1, q.toNat), (1, u.toNat), (1, 0), (3, s.toNat), (3, t.toNat), (6, a.toNat), (6, d.toNat), (8, 49)] = enc at *
  simp [decodeWord, decodeClass3, c0, c1, e_g, e_q, e_u, e_s, e_t, e_a, e_d]
theorem packB16 (d : BitVec 6) (a : BitVec 6) (b : BitVec 6) (g : BitVec 3) : Statement (.packB16 d a b g) := by
  have hf : Fits [(3, g.toNat), (3, 0), (6, b.toNat), (6, a.toNat), (6, d.toNat), (8, 50)] := ⟨g.isLt, by decide, b.isLt, a.isLt, d.isLt, by decide, trivial⟩
  refine of_fields rfl hf rfl (by simp only [word, put, fields, List.foldl]; omega) ?_
  have c0 : fld _ 24 8 = 50 := fld_fields _ hf 5
  have c1 : fld _ 3 3 = 0 := fld_fields _ hf 1
  have e_g := of_low (x := g) (fld_fields _ hf 0)
  have e_b := of_fld 64 (lo := 6) (x := b) (fld_fields _ hf 2)
  have e_a := of_fld 4096 (lo := 12) (x := a) (fld_fields _ hf 3)
  have e_d := of_fld 262144 (lo := 18) (x := d) (fld_fields _ hf 4)
  generalize fields [(3, g.toNat), (3, 0), (6, b.toNat), (6, a.toNat), (6, d.toNat), (8, 50)] = enc at *
  simp [decodeWord, decodeClass3, c0, c1, e_g, e_b, e_a, e_d]
theorem packB8Lo (d : BitVec 6) (a : BitVec 6) (b : BitVec 6) (g : BitVec 3) : Statement (.packB8Lo d a b g) := by
  have hf : Fits [(3, g.toNat), (3, 1), (6, b.toNat), (6, a.toNat), (6, d.toNat), (8, 50)] := ⟨g.isLt, by decide, b.isLt, a.isLt, d.isLt, by decide, trivial⟩
  refine of_fields rfl hf rfl (by simp only [word, put, fields, List.foldl]; omega) ?_
  have c0 : fld _ 24 8 = 50 := fld_fields _ hf 5
  have c1 : fld _ 3 3 = 1 := fld_fields _ hf 1
  have e_g := of_low (x := g) (fld_fields _ hf 0)
  have e_b := of_fld 64 (lo := 6) (x := b) (fld_fields _ hf 2)
  have e_a := of_fld 4096 (lo := 12) (x := a) (fld_fields _ hf 3)
  have e_d := of_fld 262144 (lo := 18) (x := d) (fld_fields _ hf 4)
  generalize fields [(3, g.toNat), (3, 1), (6, b.toNat), (6, a.toNat), (6, d.toNat), (8, 50)] = enc at *
  simp [decodeWord, decodeClass3, c0, c1, e_g, e_b, e_a, e_d]
theorem packB8Hi (d : BitVec 6) (a : BitVec 6) (b : BitVec 6) (g : BitVec 3) : Statement (.packB8Hi d a b g) := by
  have hf : Fits [(3, g.toNat), (3, 2), (6, b.toNat), (6, a.toNat), (6, d.toNat), (8, 50)] := ⟨g.isLt, by decide, b.isLt, a.isLt, d.isLt, by decide, trivial⟩
  refine of_fields rfl hf rfl (by simp only [word, put, fields, List.foldl]; omega) ?_
  have c0 : fld _ 24 8 = 50 := fld_fields _ hf 5
  have c1 : fld _ 3 3 = 2 := fld_fields _ hf 1
  have e_g := of_low (x := g) (fld_fields _ hf 0)
  have e_b := of_fld 64 (lo := 6) (x := b) (fld_fields _ hf 2)
  have e_a := of_fld 4096 (lo := 12) (x := a) (fld_fields _ hf 3)
  have e_d := of_fld 262144 (lo := 18) (x := d) (fld_fields _ hf 4)
  generalize fields [(3, g.toNat), (3, 2), (6, b.toNat), (6, a.toNat), (6, d.toNat), (8, 50)] = enc at *
  simp [decodeWord, decodeClass3, c0, c1, e_g, e_b, e_a, e_d]
theorem packB4Q0 (d : BitVec 6) (a : BitVec 6) (b : BitVec 6) (g : BitVec 3) : Statement (.packB4Q0 d a b g) := by
  have hf : Fits [(3, g.toNat), (3, 3), (6, b.toNat), (6, a.toNat), (6, d.toNat), (8, 50)] := ⟨g.isLt, by decide, b.isLt, a.isLt, d.isLt, by decide, trivial⟩
  refine of_fields rfl hf rfl (by simp only [word, put, fields, List.foldl]; omega) ?_
  have c0 : fld _ 24 8 = 50 := fld_fields _ hf 5
  have c1 : fld _ 3 3 = 3 := fld_fields _ hf 1
  have e_g := of_low (x := g) (fld_fields _ hf 0)
  have e_b := of_fld 64 (lo := 6) (x := b) (fld_fields _ hf 2)
  have e_a := of_fld 4096 (lo := 12) (x := a) (fld_fields _ hf 3)
  have e_d := of_fld 262144 (lo := 18) (x := d) (fld_fields _ hf 4)
  generalize fields [(3, g.toNat), (3, 3), (6, b.toNat), (6, a.toNat), (6, d.toNat), (8, 50)] = enc at *
  simp [decodeWord, decodeClass3, c0, c1, e_g, e_b, e_a, e_d]
theorem packB4Q1 (d : BitVec 6) (a : BitVec 6) (b : BitVec 6) (g : BitVec 3) : Statement (.packB4Q1 d a b g) := by
  have hf : Fits [(3, g.toNat), (3, 4), (6, b.toNat), (6, a.toNat), (6, d.toNat), (8, 50)] := ⟨g.isLt, by decide, b.isLt, a.isLt, d.isLt, by decide, trivial⟩
  refine of_fields rfl hf rfl (by simp only [word, put, fields, List.foldl]; omega) ?_
  have c0 : fld _ 24 8 = 50 := fld_fields _ hf 5
  have c1 : fld _ 3 3 = 4 := fld_fields _ hf 1
  have e_g := of_low (x := g) (fld_fields _ hf 0)
  have e_b := of_fld 64 (lo := 6) (x := b) (fld_fields _ hf 2)
  have e_a := of_fld 4096 (lo := 12) (x := a) (fld_fields _ hf 3)
  have e_d := of_fld 262144 (lo := 18) (x := d) (fld_fields _ hf 4)
  generalize fields [(3, g.toNat), (3, 4), (6, b.toNat), (6, a.toNat), (6, d.toNat), (8, 50)] = enc at *
  simp [decodeWord, decodeClass3, c0, c1, e_g, e_b, e_a, e_d]
theorem packB4Q2 (d : BitVec 6) (a : BitVec 6) (b : BitVec 6) (g : BitVec 3) : Statement (.packB4Q2 d a b g) := by
  have hf : Fits [(3, g.toNat), (3, 5), (6, b.toNat), (6, a.toNat), (6, d.toNat), (8, 50)] := ⟨g.isLt, by decide, b.isLt, a.isLt, d.isLt, by decide, trivial⟩
  refine of_fields rfl hf rfl (by simp only [word, put, fields, List.foldl]; omega) ?_
  have c0 : fld _ 24 8 = 50 := fld_fields _ hf 5
  have c1 : fld _ 3 3 = 5 := fld_fields _ hf 1
  have e_g := of_low (x := g) (fld_fields _ hf 0)
  have e_b := of_fld 64 (lo := 6) (x := b) (fld_fields _ hf 2)
  have e_a := of_fld 4096 (lo := 12) (x := a) (fld_fields _ hf 3)
  have e_d := of_fld 262144 (lo := 18) (x := d) (fld_fields _ hf 4)
  generalize fields [(3, g.toNat), (3, 5), (6, b.toNat), (6, a.toNat), (6, d.toNat), (8, 50)] = enc at *
  simp [decodeWord, decodeClass3, c0, c1, e_g, e_b, e_a, e_d]
theorem packB4Q3 (d : BitVec 6) (a : BitVec 6) (b : BitVec 6) (g : BitVec 3) : Statement (.packB4Q3 d a b g) := by
  have hf : Fits [(3, g.toNat), (3, 6), (6, b.toNat), (6, a.toNat), (6, d.toNat), (8, 50)] := ⟨g.isLt, by decide, b.isLt, a.isLt, d.isLt, by decide, trivial⟩
  refine of_fields rfl hf rfl (by simp only [word, put, fields, List.foldl]; omega) ?_
  have c0 : fld _ 24 8 = 50 := fld_fields _ hf 5
  have c1 : fld _ 3 3 = 6 := fld_fields _ hf 1
  have e_g := of_low (x := g) (fld_fields _ hf 0)
  have e_b := of_fld 64 (lo := 6) (x := b) (fld_fields _ hf 2)
  have e_a := of_fld 4096 (lo := 12) (x := a) (fld_fields _ hf 3)
  have e_d := of_fld 262144 (lo := 18) (x := d) (fld_fields _ hf 4)
  generalize fields [(3, g.toNat), (3, 6), (6, b.toNat), (6, a.toNat), (6, d.toNat), (8, 50)] = enc at *
  simp [decodeWord, decodeClass3, c0, c1, e_g, e_b, e_a, e_d]
theorem unpack (d : BitVec 6) (a : BitVec 6) (k : BitVec 3) (s : BitVec 1) (w : BitVec 2) (g : BitVec 3) : Statement (.unpack d a k s w g) := by
  have hf : Fits [(3, g.toNat), (2, w.toNat), (1, s.toNat), (3, k.toNat), (3, 0), (6, a.toNat), (6, d.toNat), (8, 51)] := ⟨g.isLt, w.isLt, s.isLt, k.isLt, by decide, a.isLt, d.isLt, by decide, trivial⟩
  refine of_fields rfl hf rfl (by simp only [word, put, fields, List.foldl]; omega) ?_
  have c0 : fld _ 24 8 = 51 := fld_fields _ hf 7
  have c1 : fld _ 9 3 = 0 := fld_fields _ hf 4
  have e_g := of_low (x := g) (fld_fields _ hf 0)
  have e_w := of_fld 8 (lo := 3) (x := w) (fld_fields _ hf 1)
  have e_s := of_fld 32 (lo := 5) (x := s) (fld_fields _ hf 2)
  have e_k := of_fld 64 (lo := 6) (x := k) (fld_fields _ hf 3)
  have e_a := of_fld 4096 (lo := 12) (x := a) (fld_fields _ hf 5)
  have e_d := of_fld 262144 (lo := 18) (x := d) (fld_fields _ hf 6)
  generalize fields [(3, g.toNat), (2, w.toNat), (1, s.toNat), (3, k.toNat), (3, 0), (6, a.toNat), (6, d.toNat), (8, 51)] = enc at *
  simp [decodeWord, decodeClass3, c0, c1, e_g, e_w, e_s, e_k, e_a, e_d]
theorem pand (d : BitVec 3) (a : BitVec 3) (b : BitVec 3) (g : BitVec 3) : Statement (.pand d a b g) := by
  have hf : Fits [(3, g.toNat), (3, 0), (3, b.toNat), (3, 0), (3, a.toNat), (3, 0), (3, d.toNat), (3, 0), (8, 65)] := ⟨g.isLt, by decide, b.isLt, by decide, a.isLt, by decide, d.isLt, by decide, by decide, trivial⟩
  refine of_fields rfl hf rfl (by simp only [word, put, fields, List.foldl]; omega) ?_
  have c0 : fld _ 24 8 = 65 := fld_fields _ hf 8
  have c1 : fld _ 3 3 = 0 := fld_fields _ hf 1
  have c2 : fld _ 9 3 = 0 := fld_fields _ hf 3
  have c3 : fld _ 15 3 = 0 := fld_fields _ hf 5
  have c4 : fld _ 21 3 = 0 := fld_fields _ hf 7
  have e_g := of_low (x := g) (fld_fields _ hf 0)
  have e_b := of_fld 64 (lo := 6) (x := b) (fld_fields _ hf 2)
  have e_a := of_fld 4096 (lo := 12) (x := a) (fld_fields _ hf 4)
  have e_d := of_fld 262144 (lo := 18) (x := d) (fld_fields _ hf 6)
  generalize fields [(3, g.toNat), (3, 0), (3, b.toNat), (3, 0), (3, a.toNat), (3, 0), (3, d.toNat), (3, 0), (8, 65)] = enc at *
  simp [decodeWord, decodeClass4, c0, c1, c2, c3, c4, e_g, e_b, e_a, e_d]
theorem por (d : BitVec 3) (a : BitVec 3) (b : BitVec 3) (g : BitVec 3) : Statement (.por d a b g) := by
  have hf : Fits [(3, g.toNat), (3, 1), (3, b.toNat), (3, 0), (3, a.toNat), (3, 0), (3, d.toNat), (3, 0), (8, 65)] := ⟨g.isLt, by decide, b.isLt, by decide, a.isLt, by decide, d.isLt, by decide, by decide, trivial⟩
  refine of_fields rfl hf rfl (by simp only [word, put, fields, List.foldl]; omega) ?_
  have c0 : fld _ 24 8 = 65 := fld_fields _ hf 8
  have c1 : fld _ 3 3 = 1 := fld_fields _ hf 1
  have c2 : fld _ 9 3 = 0 := fld_fields _ hf 3
  have c3 : fld _ 15 3 = 0 := fld_fields _ hf 5
  have c4 : fld _ 21 3 = 0 := fld_fields _ hf 7
  have e_g := of_low (x := g) (fld_fields _ hf 0)
  have e_b := of_fld 64 (lo := 6) (x := b) (fld_fields _ hf 2)
  have e_a := of_fld 4096 (lo := 12) (x := a) (fld_fields _ hf 4)
  have e_d := of_fld 262144 (lo := 18) (x := d) (fld_fields _ hf 6)
  generalize fields [(3, g.toNat), (3, 1), (3, b.toNat), (3, 0), (3, a.toNat), (3, 0), (3, d.toNat), (3, 0), (8, 65)] = enc at *
  simp [decodeWord, decodeClass4, c0, c1, c2, c3, c4, e_g, e_b, e_a, e_d]
theorem pxor (d : BitVec 3) (a : BitVec 3) (b : BitVec 3) (g : BitVec 3) : Statement (.pxor d a b g) := by
  have hf : Fits [(3, g.toNat), (3, 2), (3, b.toNat), (3, 0), (3, a.toNat), (3, 0), (3, d.toNat), (3, 0), (8, 65)] := ⟨g.isLt, by decide, b.isLt, by decide, a.isLt, by decide, d.isLt, by decide, by decide, trivial⟩
  refine of_fields rfl hf rfl (by simp only [word, put, fields, List.foldl]; omega) ?_
  have c0 : fld _ 24 8 = 65 := fld_fields _ hf 8
  have c1 : fld _ 3 3 = 2 := fld_fields _ hf 1
  have c2 : fld _ 9 3 = 0 := fld_fields _ hf 3
  have c3 : fld _ 15 3 = 0 := fld_fields _ hf 5
  have c4 : fld _ 21 3 = 0 := fld_fields _ hf 7
  have e_g := of_low (x := g) (fld_fields _ hf 0)
  have e_b := of_fld 64 (lo := 6) (x := b) (fld_fields _ hf 2)
  have e_a := of_fld 4096 (lo := 12) (x := a) (fld_fields _ hf 4)
  have e_d := of_fld 262144 (lo := 18) (x := d) (fld_fields _ hf 6)
  generalize fields [(3, g.toNat), (3, 2), (3, b.toNat), (3, 0), (3, a.toNat), (3, 0), (3, d.toNat), (3, 0), (8, 65)] = enc at *
  simp [decodeWord, decodeClass4, c0, c1, c2, c3, c4, e_g, e_b, e_a, e_d]
theorem pnot (d : BitVec 3) (a : BitVec 3) (g : BitVec 3) : Statement (.pnot d a g) := by
  have hf : Fits [(3, g.toNat), (9, 0), (3, a.toNat), (3, 0), (3, d.toNat), (3, 0), (8, 66)] := ⟨g.isLt, by decide, a.isLt, by decide, d.isLt, by decide, by decide, trivial⟩
  refine of_fields rfl hf rfl (by simp only [word, put, fields, List.foldl]; omega) ?_
  have c0 : fld _ 24 8 = 66 := fld_fields _ hf 6
  have c1 : fld _ 3 9 = 0 := fld_fields _ hf 1
  have c2 : fld _ 15 3 = 0 := fld_fields _ hf 3
  have c3 : fld _ 21 3 = 0 := fld_fields _ hf 5
  have e_g := of_low (x := g) (fld_fields _ hf 0)
  have e_a := of_fld 4096 (lo := 12) (x := a) (fld_fields _ hf 2)
  have e_d := of_fld 262144 (lo := 18) (x := d) (fld_fields _ hf 4)
  generalize fields [(3, g.toNat), (9, 0), (3, a.toNat), (3, 0), (3, d.toNat), (3, 0), (8, 66)] = enc at *
  simp [decodeWord, decodeClass4, c0, c1, c2, c3, e_g, e_a, e_d]
theorem pmov (d : BitVec 3) (a : BitVec 3) (g : BitVec 3) : Statement (.pmov d a g) := by
  have hf : Fits [(3, g.toNat), (9, 1), (3, a.toNat), (3, 0), (3, d.toNat), (3, 0), (8, 66)] := ⟨g.isLt, by decide, a.isLt, by decide, d.isLt, by decide, by decide, trivial⟩
  refine of_fields rfl hf rfl (by simp only [word, put, fields, List.foldl]; omega) ?_
  have c0 : fld _ 24 8 = 66 := fld_fields _ hf 6
  have c1 : fld _ 3 9 = 1 := fld_fields _ hf 1
  have c2 : fld _ 15 3 = 0 := fld_fields _ hf 3
  have c3 : fld _ 21 3 = 0 := fld_fields _ hf 5
  have e_g := of_low (x := g) (fld_fields _ hf 0)
  have e_a := of_fld 4096 (lo := 12) (x := a) (fld_fields _ hf 2)
  have e_d := of_fld 262144 (lo := 18) (x := d) (fld_fields _ hf 4)
  generalize fields [(3, g.toNat), (9, 1), (3, a.toNat), (3, 0), (3, d.toNat), (3, 0), (8, 66)] = enc at *
  simp [decodeWord, decodeClass4, c0, c1, c2, c3, e_g, e_a, e_d]
theorem pcnt (d : BitVec 6) (g : BitVec 3) : Statement (.pcnt d g) := by
  have hf : Fits [(3, g.toNat), (15, 0), (6, d.toNat), (8, 67)] := ⟨g.isLt, by decide, d.isLt, by decide, trivial⟩
  refine of_fields rfl hf rfl (by simp only [word, put, fields, List.foldl]; omega) ?_
  have c0 : fld _ 24 8 = 67 := fld_fields _ hf 3
  have c1 : fld _ 3 15 = 0 := fld_fields _ hf 1
  have e_g := of_low (x := g) (fld_fields _ hf 0)
  have e_d := of_fld 262144 (lo := 18) (x := d) (fld_fields _ hf 2)
  generalize fields [(3, g.toNat), (15, 0), (6, d.toNat), (8, 67)] = enc at *
  simp [decodeWord, decodeClass4, c0, c1, e_g, e_d]
theorem pfirst (d : BitVec 3) (a : BitVec 3) (g : BitVec 3) : Statement (.pfirst d a g) := by
  have hf : Fits [(3, g.toNat), (9, 0), (3, a.toNat), (3, 0), (3, d.toNat), (3, 0), (8, 68)] := ⟨g.isLt, by decide, a.isLt, by decide, d.isLt, by decide, by decide, trivial⟩
  refine of_fields rfl hf rfl (by simp only [word, put, fields, List.foldl]; omega) ?_
  have c0 : fld _ 24 8 = 68 := fld_fields _ hf 6
  have c1 : fld _ 3 9 = 0 := fld_fields _ hf 1
  have c2 : fld _ 15 3 = 0 := fld_fields _ hf 3
  have c3 : fld _ 21 3 = 0 := fld_fields _ hf 5
  have e_g := of_low (x := g) (fld_fields _ hf 0)
  have e_a := of_fld 4096 (lo := 12) (x := a) (fld_fields _ hf 2)
  have e_d := of_fld 262144 (lo := 18) (x := d) (fld_fields _ hf 4)
  generalize fields [(3, g.toNat), (9, 0), (3, a.toNat), (3, 0), (3, d.toNat), (3, 0), (8, 68)] = enc at *
  simp [decodeWord, decodeClass4, c0, c1, c2, c3, e_g, e_a, e_d]
theorem xperm (d : BitVec 6) (a : BitVec 6) (k : BitVec 4) (g : BitVec 3) : Statement (.xperm d a k g) := by
  have hf : Fits [(3, g.toNat), (3, 0), (4, k.toNat), (2, 0), (6, a.toNat), (6, d.toNat), (8, 69)] := ⟨g.isLt, by decide, k.isLt, by decide, a.isLt, d.isLt, by decide, trivial⟩
  refine of_fields rfl hf rfl (by simp only [word, put, fields, List.foldl]; omega) ?_
  have c0 : fld _ 24 8 = 69 := fld_fields _ hf 6
  have c1 : fld _ 3 3 = 0 := fld_fields _ hf 1
  have c2 : fld _ 10 2 = 0 := fld_fields _ hf 3
  have e_g := of_low (x := g) (fld_fields _ hf 0)
  have e_k := of_fld 64 (lo := 6) (x := k) (fld_fields _ hf 2)
  have e_a := of_fld 4096 (lo := 12) (x := a) (fld_fields _ hf 4)
  have e_d := of_fld 262144 (lo := 18) (x := d) (fld_fields _ hf 5)
  generalize fields [(3, g.toNat), (3, 0), (4, k.toNat), (2, 0), (6, a.toNat), (6, d.toNat), (8, 69)] = enc at *
  simp [decodeWord, decodeClass4, c0, c1, c2, e_g, e_k, e_a, e_d]
theorem xtab (d : BitVec 6) (a : BitVec 6) (t : BitVec 1) (g : BitVec 3) : Statement (.xtab d a t g) := by
  have hf : Fits [(3, g.toNat), (1, t.toNat), (8, 0), (6, a.toNat), (6, d.toNat), (8, 70)] := ⟨g.isLt, t.isLt, by decide, a.isLt, d.isLt, by decide, trivial⟩
  refine of_fields rfl hf rfl (by simp only [word, put, fields, List.foldl]; omega) ?_
  have c0 : fld _ 24 8 = 70 := fld_fields _ hf 5
  have c1 : fld _ 4 8 = 0 := fld_fields _ hf 2
  have e_g := of_low (x := g) (fld_fields _ hf 0)
  have e_t := of_fld 8 (lo := 3) (x := t) (fld_fields _ hf 1)
  have e_a := of_fld 4096 (lo := 12) (x := a) (fld_fields _ hf 3)
  have e_d := of_fld 262144 (lo := 18) (x := d) (fld_fields _ hf 4)
  generalize fields [(3, g.toNat), (1, t.toNat), (8, 0), (6, a.toNat), (6, d.toNat), (8, 70)] = enc at *
  simp [decodeWord, decodeClass4, c0, c1, e_g, e_t, e_a, e_d]
theorem xbcast (d : BitVec 6) (a : BitVec 6) (m : BitVec 3) (g : BitVec 3) : Statement (.xbcast d a m g) := by
  have hf : Fits [(3, g.toNat), (3, m.toNat), (6, 0), (6, a.toNat), (6, d.toNat), (8, 71)] := ⟨g.isLt, m.isLt, by decide, a.isLt, d.isLt, by decide, trivial⟩
  refine of_fields rfl hf rfl (by simp only [word, put, fields, List.foldl]; omega) ?_
  have c0 : fld _ 24 8 = 71 := fld_fields _ hf 5
  have c1 : fld _ 6 6 = 0 := fld_fields _ hf 2
  have e_g := of_low (x := g) (fld_fields _ hf 0)
  have e_m := of_fld 8 (lo := 3) (x := m) (fld_fields _ hf 1)
  have e_a := of_fld 4096 (lo := 12) (x := a) (fld_fields _ hf 3)
  have e_d := of_fld 262144 (lo := 18) (x := d) (fld_fields _ hf 4)
  generalize fields [(3, g.toNat), (3, m.toNat), (6, 0), (6, a.toNat), (6, d.toNat), (8, 71)] = enc at *
  simp [decodeWord, decodeClass4, c0, c1, e_g, e_m, e_a, e_d]
theorem xshflIdx (d : BitVec 6) (a : BitVec 6) (b : BitVec 6) (g : BitVec 3) : Statement (.xshflIdx d a b g) := by
  have hf : Fits [(3, g.toNat), (3, 0), (6, b.toNat), (6, a.toNat), (6, d.toNat), (8, 72)] := ⟨g.isLt, by decide, b.isLt, a.isLt, d.isLt, by decide, trivial⟩
  refine of_fields rfl hf rfl (by simp only [word, put, fields, List.foldl]; omega) ?_
  have c0 : fld _ 24 8 = 72 := fld_fields _ hf 5
  have c1 : fld _ 3 3 = 0 := fld_fields _ hf 1
  have e_g := of_low (x := g) (fld_fields _ hf 0)
  have e_b := of_fld 64 (lo := 6) (x := b) (fld_fields _ hf 2)
  have e_a := of_fld 4096 (lo := 12) (x := a) (fld_fields _ hf 3)
  have e_d := of_fld 262144 (lo := 18) (x := d) (fld_fields _ hf 4)
  generalize fields [(3, g.toNat), (3, 0), (6, b.toNat), (6, a.toNat), (6, d.toNat), (8, 72)] = enc at *
  simp [decodeWord, decodeClass4, c0, c1, e_g, e_b, e_a, e_d]
theorem xshflXor (d : BitVec 6) (a : BitVec 6) (b : BitVec 6) (g : BitVec 3) : Statement (.xshflXor d a b g) := by
  have hf : Fits [(3, g.toNat), (3, 1), (6, b.toNat), (6, a.toNat), (6, d.toNat), (8, 72)] := ⟨g.isLt, by decide, b.isLt, a.isLt, d.isLt, by decide, trivial⟩
  refine of_fields rfl hf rfl (by simp only [word, put, fields, List.foldl]; omega) ?_
  have c0 : fld _ 24 8 = 72 := fld_fields _ hf 5
  have c1 : fld _ 3 3 = 1 := fld_fields _ hf 1
  have e_g := of_low (x := g) (fld_fields _ hf 0)
  have e_b := of_fld 64 (lo := 6) (x := b) (fld_fields _ hf 2)
  have e_a := of_fld 4096 (lo := 12) (x := a) (fld_fields _ hf 3)
  have e_d := of_fld 262144 (lo := 18) (x := d) (fld_fields _ hf 4)
  generalize fields [(3, g.toNat), (3, 1), (6, b.toNat), (6, a.toNat), (6, d.toNat), (8, 72)] = enc at *
  simp [decodeWord, decodeClass4, c0, c1, e_g, e_b, e_a, e_d]
theorem xshflUp (d : BitVec 6) (a : BitVec 6) (b : BitVec 6) (g : BitVec 3) : Statement (.xshflUp d a b g) := by
  have hf : Fits [(3, g.toNat), (3, 2), (6, b.toNat), (6, a.toNat), (6, d.toNat), (8, 72)] := ⟨g.isLt, by decide, b.isLt, a.isLt, d.isLt, by decide, trivial⟩
  refine of_fields rfl hf rfl (by simp only [word, put, fields, List.foldl]; omega) ?_
  have c0 : fld _ 24 8 = 72 := fld_fields _ hf 5
  have c1 : fld _ 3 3 = 2 := fld_fields _ hf 1
  have e_g := of_low (x := g) (fld_fields _ hf 0)
  have e_b := of_fld 64 (lo := 6) (x := b) (fld_fields _ hf 2)
  have e_a := of_fld 4096 (lo := 12) (x := a) (fld_fields _ hf 3)
  have e_d := of_fld 262144 (lo := 18) (x := d) (fld_fields _ hf 4)
  generalize fields [(3, g.toNat), (3, 2), (6, b.toNat), (6, a.toNat), (6, d.toNat), (8, 72)] = enc at *
  simp [decodeWord, decodeClass4, c0, c1, e_g, e_b, e_a, e_d]
theorem xshflDown (d : BitVec 6) (a : BitVec 6) (b : BitVec 6) (g : BitVec 3) : Statement (.xshflDown d a b g) := by
  have hf : Fits [(3, g.toNat), (3, 3), (6, b.toNat), (6, a.toNat), (6, d.toNat), (8, 72)] := ⟨g.isLt, by decide, b.isLt, a.isLt, d.isLt, by decide, trivial⟩
  refine of_fields rfl hf rfl (by simp only [word, put, fields, List.foldl]; omega) ?_
  have c0 : fld _ 24 8 = 72 := fld_fields _ hf 5
  have c1 : fld _ 3 3 = 3 := fld_fields _ hf 1
  have e_g := of_low (x := g) (fld_fields _ hf 0)
  have e_b := of_fld 64 (lo := 6) (x := b) (fld_fields _ hf 2)
  have e_a := of_fld 4096 (lo := 12) (x := a) (fld_fields _ hf 3)
  have e_d := of_fld 262144 (lo := 18) (x := d) (fld_fields _ hf 4)
  generalize fields [(3, g.toNat), (3, 3), (6, b.toNat), (6, a.toNat), (6, d.toNat), (8, 72)] = enc at *
  simp [decodeWord, decodeClass4, c0, c1, e_g, e_b, e_a, e_d]
theorem xred (d : BitVec 6) (a : BitVec 6) (f : BitVec 3) (g : BitVec 3) : Statement (.xred d a f g) := by
  have hf : Fits [(3, g.toNat), (3, f.toNat), (6, 0), (6, a.toNat), (6, d.toNat), (8, 73)] := ⟨g.isLt, f.isLt, by decide, a.isLt, d.isLt, by decide, trivial⟩
  refine of_fields rfl hf rfl (by simp only [word, put, fields, List.foldl]; omega) ?_
  have c0 : fld _ 24 8 = 73 := fld_fields _ hf 5
  have c1 : fld _ 6 6 = 0 := fld_fields _ hf 2
  have e_g := of_low (x := g) (fld_fields _ hf 0)
  have e_f := of_fld 8 (lo := 3) (x := f) (fld_fields _ hf 1)
  have e_a := of_fld 4096 (lo := 12) (x := a) (fld_fields _ hf 3)
  have e_d := of_fld 262144 (lo := 18) (x := d) (fld_fields _ hf 4)
  generalize fields [(3, g.toNat), (3, f.toNat), (6, 0), (6, a.toNat), (6, d.toNat), (8, 73)] = enc at *
  simp [decodeWord, decodeClass4, c0, c1, e_g, e_f, e_a, e_d]
theorem xscan (d : BitVec 6) (a : BitVec 6) (f : BitVec 3) (g : BitVec 3) : Statement (.xscan d a f g) := by
  have hf : Fits [(3, g.toNat), (3, f.toNat), (6, 0), (6, a.toNat), (6, d.toNat), (8, 74)] := ⟨g.isLt, f.isLt, by decide, a.isLt, d.isLt, by decide, trivial⟩
  refine of_fields rfl hf rfl (by simp only [word, put, fields, List.foldl]; omega) ?_
  have c0 : fld _ 24 8 = 74 := fld_fields _ hf 5
  have c1 : fld _ 6 6 = 0 := fld_fields _ hf 2
  have e_g := of_low (x := g) (fld_fields _ hf 0)
  have e_f := of_fld 8 (lo := 3) (x := f) (fld_fields _ hf 1)
  have e_a := of_fld 4096 (lo := 12) (x := a) (fld_fields _ hf 3)
  have e_d := of_fld 262144 (lo := 18) (x := d) (fld_fields _ hf 4)
  generalize fields [(3, g.toNat), (3, f.toNat), (6, 0), (6, a.toNat), (6, d.toNat), (8, 74)] = enc at *
  simp [decodeWord, decodeClass4, c0, c1, e_g, e_f, e_a, e_d]
theorem xmaxi (d : BitVec 6) (a : BitVec 6) (b : BitVec 6) (f : BitVec 3) (g : BitVec 3) : Statement (.xmaxi d a b f g) := by
  have hf : Fits [(3, g.toNat), (3, f.toNat), (6, b.toNat), (6, a.toNat), (6, d.toNat), (8, 75)] := ⟨g.isLt, f.isLt, b.isLt, a.isLt, d.isLt, by decide, trivial⟩
  refine of_fields rfl hf rfl (by simp only [word, put, fields, List.foldl]; omega) ?_
  have c0 : fld _ 24 8 = 75 := fld_fields _ hf 5
  have e_g := of_low (x := g) (fld_fields _ hf 0)
  have e_f := of_fld 8 (lo := 3) (x := f) (fld_fields _ hf 1)
  have e_b := of_fld 64 (lo := 6) (x := b) (fld_fields _ hf 2)
  have e_a := of_fld 4096 (lo := 12) (x := a) (fld_fields _ hf 3)
  have e_d := of_fld 262144 (lo := 18) (x := d) (fld_fields _ hf 4)
  generalize fields [(3, g.toNat), (3, f.toNat), (6, b.toNat), (6, a.toNat), (6, d.toNat), (8, 75)] = enc at *
  simp [decodeWord, decodeClass4, c0, e_g, e_f, e_b, e_a, e_d]
theorem voteAny (d : BitVec 6) (a : BitVec 6) (g : BitVec 3) : Statement (.voteAny d a g) := by
  have hf : Fits [(3, g.toNat), (9, 0), (6, a.toNat), (6, d.toNat), (8, 76)] := ⟨g.isLt, by decide, a.isLt, d.isLt, by decide, trivial⟩
  refine of_fields rfl hf rfl (by simp only [word, put, fields, List.foldl]; omega) ?_
  have c0 : fld _ 24 8 = 76 := fld_fields _ hf 4
  have c1 : fld _ 3 9 = 0 := fld_fields _ hf 1
  have e_g := of_low (x := g) (fld_fields _ hf 0)
  have e_a := of_fld 4096 (lo := 12) (x := a) (fld_fields _ hf 2)
  have e_d := of_fld 262144 (lo := 18) (x := d) (fld_fields _ hf 3)
  generalize fields [(3, g.toNat), (9, 0), (6, a.toNat), (6, d.toNat), (8, 76)] = enc at *
  simp [decodeWord, decodeClass4, c0, c1, e_g, e_a, e_d]
theorem voteAll (d : BitVec 6) (a : BitVec 6) (g : BitVec 3) : Statement (.voteAll d a g) := by
  have hf : Fits [(3, g.toNat), (9, 1), (6, a.toNat), (6, d.toNat), (8, 76)] := ⟨g.isLt, by decide, a.isLt, d.isLt, by decide, trivial⟩
  refine of_fields rfl hf rfl (by simp only [word, put, fields, List.foldl]; omega) ?_
  have c0 : fld _ 24 8 = 76 := fld_fields _ hf 4
  have c1 : fld _ 3 9 = 1 := fld_fields _ hf 1
  have e_g := of_low (x := g) (fld_fields _ hf 0)
  have e_a := of_fld 4096 (lo := 12) (x := a) (fld_fields _ hf 2)
  have e_d := of_fld 262144 (lo := 18) (x := d) (fld_fields _ hf 3)
  generalize fields [(3, g.toNat), (9, 1), (6, a.toNat), (6, d.toNat), (8, 76)] = enc at *
  simp [decodeWord, decodeClass4, c0, c1, e_g, e_a, e_d]
theorem voteBallot (d : BitVec 6) (a : BitVec 6) (g : BitVec 3) : Statement (.voteBallot d a g) := by
  have hf : Fits [(3, g.toNat), (9, 2), (6, a.toNat), (6, d.toNat), (8, 76)] := ⟨g.isLt, by decide, a.isLt, d.isLt, by decide, trivial⟩
  refine of_fields rfl hf rfl (by simp only [word, put, fields, List.foldl]; omega) ?_
  have c0 : fld _ 24 8 = 76 := fld_fields _ hf 4
  have c1 : fld _ 3 9 = 2 := fld_fields _ hf 1
  have e_g := of_low (x := g) (fld_fields _ hf 0)
  have e_a := of_fld 4096 (lo := 12) (x := a) (fld_fields _ hf 2)
  have e_d := of_fld 262144 (lo := 18) (x := d) (fld_fields _ hf 3)
  generalize fields [(3, g.toNat), (9, 2), (6, a.toNat), (6, d.toNat), (8, 76)] = enc at *
  simp [decodeWord, decodeClass4, c0, c1, e_g, e_a, e_d]
theorem movcRead (d : BitVec 6) (n : BitVec 12) : Statement (.movcRead d n) := by
  have hf : Fits [(12, n.toNat), (6, d.toNat), (6, 0), (8, 77)] := ⟨n.isLt, d.isLt, by decide, by decide, trivial⟩
  refine of_fields rfl hf rfl (by simp only [word, put, fields, List.foldl]; omega) ?_
  have c0 : fld _ 24 8 = 77 := fld_fields _ hf 3
  have c1 : fld _ 18 6 = 0 := fld_fields _ hf 2
  have e_n := of_low (x := n) (fld_fields _ hf 0)
  have e_d := of_fld 4096 (lo := 12) (x := d) (fld_fields _ hf 1)
  generalize fields [(12, n.toNat), (6, d.toNat), (6, 0), (8, 77)] = enc at *
  simp [decodeWord, decodeClass4, c0, c1, e_n, e_d]
theorem movcWrite (a : BitVec 6) (n : BitVec 12) : Statement (.movcWrite a n) := by
  have hf : Fits [(12, n.toNat), (6, a.toNat), (6, 1), (8, 77)] := ⟨n.isLt, a.isLt, by decide, by decide, trivial⟩
  refine of_fields rfl hf rfl (by simp only [word, put, fields, List.foldl]; omega) ?_
  have c0 : fld _ 24 8 = 77 := fld_fields _ hf 3
  have c1 : fld _ 18 6 = 1 := fld_fields _ hf 2
  have e_n := of_low (x := n) (fld_fields _ hf 0)
  have e_a := of_fld 4096 (lo := 12) (x := a) (fld_fields _ hf 1)
  generalize fields [(12, n.toNat), (6, a.toNat), (6, 1), (8, 77)] = enc at *
  simp [decodeWord, decodeClass4, c0, c1, e_n, e_a]
theorem vshape (d : BitVec 6) (a : BitVec 6) (g : BitVec 3) : Statement (.vshape d a g) := by
  have hf : Fits [(3, g.toNat), (9, 0), (6, a.toNat), (6, d.toNat), (8, 78)] := ⟨g.isLt, by decide, a.isLt, d.isLt, by decide, trivial⟩
  refine of_fields rfl hf rfl (by simp only [word, put, fields, List.foldl]; omega) ?_
  have c0 : fld _ 24 8 = 78 := fld_fields _ hf 4
  have c1 : fld _ 3 9 = 0 := fld_fields _ hf 1
  have e_g := of_low (x := g) (fld_fields _ hf 0)
  have e_a := of_fld 4096 (lo := 12) (x := a) (fld_fields _ hf 2)
  have e_d := of_fld 262144 (lo := 18) (x := d) (fld_fields _ hf 3)
  generalize fields [(3, g.toNat), (9, 0), (6, a.toNat), (6, d.toNat), (8, 78)] = enc at *
  simp [decodeWord, decodeClass4, c0, c1, e_g, e_a, e_d]
theorem bra (o : BitVec 21) (g : BitVec 3) : Statement (.bra o g) := by
  have hf : Fits [(3, g.toNat), (21, o.toNat), (8, 81)] := ⟨g.isLt, o.isLt, by decide, trivial⟩
  refine of_fields rfl hf rfl (by simp only [word, put, fields, List.foldl]; omega) ?_
  have c0 : fld _ 24 8 = 81 := fld_fields _ hf 2
  have e_g := of_low (x := g) (fld_fields _ hf 0)
  have e_o := of_fld 8 (lo := 3) (x := o) (fld_fields _ hf 1)
  generalize fields [(3, g.toNat), (21, o.toNat), (8, 81)] = enc at *
  simp [decodeWord, decodeClass5, c0, e_g, e_o]
theorem brx (a : BitVec 6) (g : BitVec 3) : Statement (.brx a g) := by
  have hf : Fits [(3, g.toNat), (9, 0), (6, a.toNat), (6, 0), (8, 82)] := ⟨g.isLt, by decide, a.isLt, by decide, by decide, trivial⟩
  refine of_fields rfl hf rfl (by simp only [word, put, fields, List.foldl]; omega) ?_
  have c0 : fld _ 24 8 = 82 := fld_fields _ hf 4
  have c1 : fld _ 3 9 = 0 := fld_fields _ hf 1
  have c2 : fld _ 18 6 = 0 := fld_fields _ hf 3
  have e_g := of_low (x := g) (fld_fields _ hf 0)
  have e_a := of_fld 4096 (lo := 12) (x := a) (fld_fields _ hf 2)
  generalize fields [(3, g.toNat), (9, 0), (6, a.toNat), (6, 0), (8, 82)] = enc at *
  simp [decodeWord, decodeClass5, c0, c1, c2, e_g, e_a]
theorem callDirect (d : BitVec 5) (i : BitVec 18) : Statement (.callDirect d i) := by
  have hf : Fits [(18, i.toNat), (1, 0), (5, d.toNat), (8, 83)] := ⟨i.isLt, by decide, d.isLt, by decide, trivial⟩
  refine of_fields rfl hf rfl (by simp only [word, put, fields, List.foldl]; omega) ?_
  have c0 : fld _ 24 8 = 83 := fld_fields _ hf 3
  have c1 : fld _ 18 1 = 0 := fld_fields _ hf 1
  have e_i := of_low (x := i) (fld_fields _ hf 0)
  have e_d := of_fld 524288 (lo := 19) (x := d) (fld_fields _ hf 2)
  generalize fields [(18, i.toNat), (1, 0), (5, d.toNat), (8, 83)] = enc at *
  simp [decodeWord, decodeClass5, c0, c1, e_i, e_d]
theorem callIndirect (d : BitVec 5) (a : BitVec 6) : Statement (.callIndirect d a) := by
  have hf : Fits [(12, 0), (6, a.toNat), (1, 1), (5, d.toNat), (8, 83)] := ⟨by decide, a.isLt, by decide, d.isLt, by decide, trivial⟩
  refine of_fields rfl hf rfl (by simp only [word, put, fields, List.foldl]; omega) ?_
  have c0 : fld _ 24 8 = 83 := fld_fields _ hf 4
  have c1 : fld _ 18 1 = 1 := fld_fields _ hf 2
  have c2 : fld _ 0 12 = 0 := fld_fields _ hf 0
  have e_a := of_fld 4096 (lo := 12) (x := a) (fld_fields _ hf 1)
  have e_d := of_fld 524288 (lo := 19) (x := d) (fld_fields _ hf 3)
  generalize fields [(12, 0), (6, a.toNat), (1, 1), (5, d.toNat), (8, 83)] = enc at *
  simp [decodeWord, decodeClass5, c0, c1, c2, e_a, e_d]
theorem ret (a : BitVec 6) (g : BitVec 3) : Statement (.ret a g) := by
  have hf : Fits [(3, g.toNat), (9, 0), (6, a.toNat), (6, 0), (8, 84)] := ⟨g.isLt, by decide, a.isLt, by decide, by decide, trivial⟩
  refine of_fields rfl hf rfl (by simp only [word, put, fields, List.foldl]; omega) ?_
  have c0 : fld _ 24 8 = 84 := fld_fields _ hf 4
  have c1 : fld _ 3 9 = 0 := fld_fields _ hf 1
  have c2 : fld _ 18 6 = 0 := fld_fields _ hf 3
  have e_g := of_low (x := g) (fld_fields _ hf 0)
  have e_a := of_fld 4096 (lo := 12) (x := a) (fld_fields _ hf 2)
  generalize fields [(3, g.toNat), (9, 0), (6, a.toNat), (6, 0), (8, 84)] = enc at *
  simp [decodeWord, decodeClass5, c0, c1, c2, e_g, e_a]
theorem meet (o : BitVec 21) (g : BitVec 3) : Statement (.meet o g) := by
  have hf : Fits [(3, g.toNat), (21, o.toNat), (8, 85)] := ⟨g.isLt, o.isLt, by decide, trivial⟩
  refine of_fields rfl hf rfl (by simp only [word, put, fields, List.foldl]; omega) ?_
  have c0 : fld _ 24 8 = 85 := fld_fields _ hf 2
  have e_g := of_low (x := g) (fld_fields _ hf 0)
  have e_o := of_fld 8 (lo := 3) (x := o) (fld_fields _ hf 1)
  generalize fields [(3, g.toNat), (21, o.toNat), (8, 85)] = enc at *
  simp [decodeWord, decodeClass5, c0, e_g, e_o]
theorem yield : Statement .yield := by
  have hf : Fits [(24, 0), (8, 86)] := ⟨by decide, by decide, trivial⟩
  refine of_fields rfl hf rfl rfl ?_
  have c0 : fld _ 24 8 = 86 := fld_fields _ hf 1
  have c1 : fld _ 0 24 = 0 := fld_fields _ hf 0
  generalize fields [(24, 0), (8, 86)] = enc at *
  simp [decodeWord, decodeClass5, c0, c1]
theorem exit (g : BitVec 3) : Statement (.exit g) := by
  have hf : Fits [(3, g.toNat), (21, 0), (8, 87)] := ⟨g.isLt, by decide, by decide, trivial⟩
  refine of_fields rfl hf rfl (by simp only [word, put, fields, List.foldl]; omega) ?_
  have c0 : fld _ 24 8 = 87 := fld_fields _ hf 2
  have c1 : fld _ 3 21 = 0 := fld_fields _ hf 1
  have e_g := of_low (x := g) (fld_fields _ hf 0)
  generalize fields [(3, g.toNat), (21, 0), (8, 87)] = enc at *
  simp [decodeWord, decodeClass5, c0, c1, e_g]
theorem nop : Statement .nop := by
  have hf : Fits [(24, 0), (8, 88)] := ⟨by decide, by decide, trivial⟩
  refine of_fields rfl hf rfl rfl ?_
  have c0 : fld _ 24 8 = 88 := fld_fields _ hf 1
  have c1 : fld _ 0 24 = 0 := fld_fields _ hf 0
  generalize fields [(24, 0), (8, 88)] = enc at *
  simp [decodeWord, decodeClass5, c0, c1]
theorem sleep (n : BitVec 12) : Statement (.sleep n) := by
  have hf : Fits [(12, n.toNat), (12, 0), (8, 89)] := ⟨n.isLt, by decide, by decide, trivial⟩
  refine of_fields rfl hf rfl (by simp only [word, put, fields, List.foldl]; omega) ?_
  have c0 : fld _ 24 8 = 89 := fld_fields _ hf 2
  have c1 : fld _ 12 12 = 0 := fld_fields _ hf 1
  have e_n := of_low (x := n) (fld_fields _ hf 0)
  generalize fields [(12, n.toNat), (12, 0), (8, 89)] = enc at *
  simp [decodeWord, decodeClass5, c0, c1, e_n]
theorem bar (b : BitVec 4) : Statement (.bar b) := by
  have hf : Fits [(4, b.toNat), (20, 0), (8, 90)] := ⟨b.isLt, by decide, by decide, trivial⟩
  refine of_fields rfl hf rfl (by simp only [word, put, fields, List.foldl]; omega) ?_
  have c0 : fld _ 24 8 = 90 := fld_fields _ hf 2
  have c1 : fld _ 4 20 = 0 := fld_fields _ hf 1
  have e_b := of_low (x := b) (fld_fields _ hf 0)
  generalize fields [(4, b.toNat), (20, 0), (8, 90)] = enc at *
  simp [decodeWord, decodeClass5, c0, c1, e_b]
theorem gbar : Statement .gbar := by
  have hf : Fits [(24, 0), (8, 91)] := ⟨by decide, by decide, trivial⟩
  refine of_fields rfl hf rfl rfl ?_
  have c0 : fld _ 24 8 = 91 := fld_fields _ hf 1
  have c1 : fld _ 0 24 = 0 := fld_fields _ hf 0
  generalize fields [(24, 0), (8, 91)] = enc at *
  simp [decodeWord, decodeClass5, c0, c1]
theorem sbar : Statement .sbar := by
  have hf : Fits [(24, 0), (8, 92)] := ⟨by decide, by decide, trivial⟩
  refine of_fields rfl hf rfl rfl ?_
  have c0 : fld _ 24 8 = 92 := fld_fields _ hf 1
  have c1 : fld _ 0 24 = 0 := fld_fields _ hf 0
  generalize fields [(24, 0), (8, 92)] = enc at *
  simp [decodeWord, decodeClass5, c0, c1]
theorem rgrow (n : BitVec 3) : Statement (.rgrow n) := by
  have hf : Fits [(3, n.toNat), (9, 0), (3, 0), (9, 0), (8, 93)] := ⟨n.isLt, by decide, by decide, by decide, by decide, trivial⟩
  refine of_fields rfl hf rfl (by simp only [word, put, fields, List.foldl]; omega) ?_
  have c0 : fld _ 24 8 = 93 := fld_fields _ hf 4
  have c1 : fld (fields [(3, n.toNat), (9, 0), (3, 0), (9, 0), (8, 93)]) 3 21 = 0 := by simp only [fld, fields]; omega
  have e_n := of_low (x := n) (fld_fields _ hf 0)
  generalize fields [(3, n.toNat), (9, 0), (3, 0), (9, 0), (8, 93)] = enc at *
  simp [decodeWord, decodeClass5, c0, c1, e_n]
theorem rgrowTry (p : BitVec 3) (n : BitVec 3) : Statement (.rgrowTry p n) := by
  have hf : Fits [(3, n.toNat), (9, 0), (3, p.toNat), (9, 8), (8, 93)] := ⟨n.isLt, by decide, p.isLt, by decide, by decide, trivial⟩
  refine of_fields rfl hf rfl (by simp only [word, put, fields, List.foldl]; omega) ?_
  have c0 : fld _ 24 8 = 93 := fld_fields _ hf 4
  have c1 : ¬ fld (fields [(3, n.toNat), (9, 0), (3, p.toNat), (9, 8), (8, 93)]) 3 21 = 0 := by simp only [fld, fields]; omega
  have c2 : fld _ 3 9 = 0 := fld_fields _ hf 1
  have c3 : fld _ 15 9 = 8 := fld_fields _ hf 3
  have e_n := of_low (x := n) (fld_fields _ hf 0)
  have e_p := of_fld 4096 (lo := 12) (x := p) (fld_fields _ hf 2)
  generalize fields [(3, n.toNat), (9, 0), (3, p.toNat), (9, 8), (8, 93)] = enc at *
  simp [decodeWord, decodeClass5, c0, c1, c2, c3, e_n, e_p]
theorem rshrink (n : BitVec 3) : Statement (.rshrink n) := by
  have hf : Fits [(3, n.toNat), (21, 0), (8, 94)] := ⟨n.isLt, by decide, by decide, trivial⟩
  refine of_fields rfl hf rfl (by simp only [word, put, fields, List.foldl]; omega) ?_
  have c0 : fld _ 24 8 = 94 := fld_fields _ hf 2
  have c1 : fld _ 3 21 = 0 := fld_fields _ hf 1
  have e_n := of_low (x := n) (fld_fields _ hf 0)
  generalize fields [(3, n.toNat), (21, 0), (8, 94)] = enc at *
  simp [decodeWord, decodeClass5, c0, c1, e_n]
theorem disp (d : BitVec 6) (p : BitVec 3) (g : BitVec 3) : Statement (.disp d p g) := by
  have hf : Fits [(3, g.toNat), (9, 0), (3, p.toNat), (3, 0), (6, d.toNat), (8, 95)] := ⟨g.isLt, by decide, p.isLt, by decide, d.isLt, by decide, trivial⟩
  refine of_fields rfl hf rfl (by simp only [word, put, fields, List.foldl]; omega) ?_
  have c0 : fld _ 24 8 = 95 := fld_fields _ hf 5
  have c1 : fld _ 3 9 = 0 := fld_fields _ hf 1
  have c2 : fld _ 15 3 = 0 := fld_fields _ hf 3
  have e_g := of_low (x := g) (fld_fields _ hf 0)
  have e_p := of_fld 4096 (lo := 12) (x := p) (fld_fields _ hf 2)
  have e_d := of_fld 262144 (lo := 18) (x := d) (fld_fields _ hf 4)
  generalize fields [(3, g.toNat), (9, 0), (3, p.toNat), (3, 0), (6, d.toNat), (8, 95)] = enc at *
  simp [decodeWord, decodeClass5, c0, c1, c2, e_g, e_p, e_d]
theorem ldB32 (d : BitVec 6) (a : BitVec 6) (i : BitVec 9) (g : BitVec 3) : Statement (.ldB32 d a i g) := by
  have hf : Fits [(3, g.toNat), (9, i.toNat), (6, a.toNat), (6, d.toNat), (8, 97)] := ⟨g.isLt, i.isLt, a.isLt, d.isLt, by decide, trivial⟩
  refine of_fields rfl hf rfl (by simp only [word, put, fields, List.foldl]; omega) ?_
  have c0 : fld _ 24 8 = 97 := fld_fields _ hf 4
  have e_g := of_low (x := g) (fld_fields _ hf 0)
  have e_i := of_fld 8 (lo := 3) (x := i) (fld_fields _ hf 1)
  have e_a := of_fld 4096 (lo := 12) (x := a) (fld_fields _ hf 2)
  have e_d := of_fld 262144 (lo := 18) (x := d) (fld_fields _ hf 3)
  generalize fields [(3, g.toNat), (9, i.toNat), (6, a.toNat), (6, d.toNat), (8, 97)] = enc at *
  simp [decodeWord, decodeClass6, c0, e_g, e_i, e_a, e_d]
theorem ldB64 (d : BitVec 6) (a : BitVec 6) (i : BitVec 9) (g : BitVec 3) : Statement (.ldB64 d a i g) := by
  have hf : Fits [(3, g.toNat), (9, i.toNat), (6, a.toNat), (6, d.toNat), (8, 98)] := ⟨g.isLt, i.isLt, a.isLt, d.isLt, by decide, trivial⟩
  refine of_fields rfl hf rfl (by simp only [word, put, fields, List.foldl]; omega) ?_
  have c0 : fld _ 24 8 = 98 := fld_fields _ hf 4
  have e_g := of_low (x := g) (fld_fields _ hf 0)
  have e_i := of_fld 8 (lo := 3) (x := i) (fld_fields _ hf 1)
  have e_a := of_fld 4096 (lo := 12) (x := a) (fld_fields _ hf 2)
  have e_d := of_fld 262144 (lo := 18) (x := d) (fld_fields _ hf 3)
  generalize fields [(3, g.toNat), (9, i.toNat), (6, a.toNat), (6, d.toNat), (8, 98)] = enc at *
  simp [decodeWord, decodeClass6, c0, e_g, e_i, e_a, e_d]
theorem ldF32 (d : BitVec 6) (a : BitVec 6) (i : BitVec 9) (g : BitVec 3) : Statement (.ldF32 d a i g) := by
  have hf : Fits [(3, g.toNat), (9, i.toNat), (6, a.toNat), (6, d.toNat), (8, 99)] := ⟨g.isLt, i.isLt, a.isLt, d.isLt, by decide, trivial⟩
  refine of_fields rfl hf rfl (by simp only [word, put, fields, List.foldl]; omega) ?_
  have c0 : fld _ 24 8 = 99 := fld_fields _ hf 4
  have e_g := of_low (x := g) (fld_fields _ hf 0)
  have e_i := of_fld 8 (lo := 3) (x := i) (fld_fields _ hf 1)
  have e_a := of_fld 4096 (lo := 12) (x := a) (fld_fields _ hf 2)
  have e_d := of_fld 262144 (lo := 18) (x := d) (fld_fields _ hf 3)
  generalize fields [(3, g.toNat), (9, i.toNat), (6, a.toNat), (6, d.toNat), (8, 99)] = enc at *
  simp [decodeWord, decodeClass6, c0, e_g, e_i, e_a, e_d]
theorem ldF16 (d : BitVec 6) (a : BitVec 6) (i : BitVec 9) (g : BitVec 3) : Statement (.ldF16 d a i g) := by
  have hf : Fits [(3, g.toNat), (9, i.toNat), (6, a.toNat), (6, d.toNat), (8, 100)] := ⟨g.isLt, i.isLt, a.isLt, d.isLt, by decide, trivial⟩
  refine of_fields rfl hf rfl (by simp only [word, put, fields, List.foldl]; omega) ?_
  have c0 : fld _ 24 8 = 100 := fld_fields _ hf 4
  have e_g := of_low (x := g) (fld_fields _ hf 0)
  have e_i := of_fld 8 (lo := 3) (x := i) (fld_fields _ hf 1)
  have e_a := of_fld 4096 (lo := 12) (x := a) (fld_fields _ hf 2)
  have e_d := of_fld 262144 (lo := 18) (x := d) (fld_fields _ hf 3)
  generalize fields [(3, g.toNat), (9, i.toNat), (6, a.toNat), (6, d.toNat), (8, 100)] = enc at *
  simp [decodeWord, decodeClass6, c0, e_g, e_i, e_a, e_d]
theorem ldBf16 (d : BitVec 6) (a : BitVec 6) (i : BitVec 9) (g : BitVec 3) : Statement (.ldBf16 d a i g) := by
  have hf : Fits [(3, g.toNat), (9, i.toNat), (6, a.toNat), (6, d.toNat), (8, 101)] := ⟨g.isLt, i.isLt, a.isLt, d.isLt, by decide, trivial⟩
  refine of_fields rfl hf rfl (by simp only [word, put, fields, List.foldl]; omega) ?_
  have c0 : fld _ 24 8 = 101 := fld_fields _ hf 4
  have e_g := of_low (x := g) (fld_fields _ hf 0)
  have e_i := of_fld 8 (lo := 3) (x := i) (fld_fields _ hf 1)
  have e_a := of_fld 4096 (lo := 12) (x := a) (fld_fields _ hf 2)
  have e_d := of_fld 262144 (lo := 18) (x := d) (fld_fields _ hf 3)
  generalize fields [(3, g.toNat), (9, i.toNat), (6, a.toNat), (6, d.toNat), (8, 101)] = enc at *
  simp [decodeWord, decodeClass6, c0, e_g, e_i, e_a, e_d]
theorem ldI32 (d : BitVec 6) (a : BitVec 6) (i : BitVec 9) (g : BitVec 3) : Statement (.ldI32 d a i g) := by
  have hf : Fits [(3, g.toNat), (9, i.toNat), (6, a.toNat), (6, d.toNat), (8, 102)] := ⟨g.isLt, i.isLt, a.isLt, d.isLt, by decide, trivial⟩
  refine of_fields rfl hf rfl (by simp only [word, put, fields, List.foldl]; omega) ?_
  have c0 : fld _ 24 8 = 102 := fld_fields _ hf 4
  have e_g := of_low (x := g) (fld_fields _ hf 0)
  have e_i := of_fld 8 (lo := 3) (x := i) (fld_fields _ hf 1)
  have e_a := of_fld 4096 (lo := 12) (x := a) (fld_fields _ hf 2)
  have e_d := of_fld 262144 (lo := 18) (x := d) (fld_fields _ hf 3)
  generalize fields [(3, g.toNat), (9, i.toNat), (6, a.toNat), (6, d.toNat), (8, 102)] = enc at *
  simp [decodeWord, decodeClass6, c0, e_g, e_i, e_a, e_d]
theorem stB8 (d : BitVec 6) (a : BitVec 6) (i : BitVec 9) (g : BitVec 3) : Statement (.stB8 d a i g) := by
  have hf : Fits [(3, g.toNat), (9, i.toNat), (6, a.toNat), (6, d.toNat), (8, 103)] := ⟨g.isLt, i.isLt, a.isLt, d.isLt, by decide, trivial⟩
  refine of_fields rfl hf rfl (by simp only [word, put, fields, List.foldl]; omega) ?_
  have c0 : fld _ 24 8 = 103 := fld_fields _ hf 4
  have e_g := of_low (x := g) (fld_fields _ hf 0)
  have e_i := of_fld 8 (lo := 3) (x := i) (fld_fields _ hf 1)
  have e_a := of_fld 4096 (lo := 12) (x := a) (fld_fields _ hf 2)
  have e_d := of_fld 262144 (lo := 18) (x := d) (fld_fields _ hf 3)
  generalize fields [(3, g.toNat), (9, i.toNat), (6, a.toNat), (6, d.toNat), (8, 103)] = enc at *
  simp [decodeWord, decodeClass6, c0, e_g, e_i, e_a, e_d]
theorem stB16 (d : BitVec 6) (a : BitVec 6) (i : BitVec 9) (g : BitVec 3) : Statement (.stB16 d a i g) := by
  have hf : Fits [(3, g.toNat), (9, i.toNat), (6, a.toNat), (6, d.toNat), (8, 104)] := ⟨g.isLt, i.isLt, a.isLt, d.isLt, by decide, trivial⟩
  refine of_fields rfl hf rfl (by simp only [word, put, fields, List.foldl]; omega) ?_
  have c0 : fld _ 24 8 = 104 := fld_fields _ hf 4
  have e_g := of_low (x := g) (fld_fields _ hf 0)
  have e_i := of_fld 8 (lo := 3) (x := i) (fld_fields _ hf 1)
  have e_a := of_fld 4096 (lo := 12) (x := a) (fld_fields _ hf 2)
  have e_d := of_fld 262144 (lo := 18) (x := d) (fld_fields _ hf 3)
  generalize fields [(3, g.toNat), (9, i.toNat), (6, a.toNat), (6, d.toNat), (8, 104)] = enc at *
  simp [decodeWord, decodeClass6, c0, e_g, e_i, e_a, e_d]
theorem stB32 (d : BitVec 6) (a : BitVec 6) (i : BitVec 9) (g : BitVec 3) : Statement (.stB32 d a i g) := by
  have hf : Fits [(3, g.toNat), (9, i.toNat), (6, a.toNat), (6, d.toNat), (8, 105)] := ⟨g.isLt, i.isLt, a.isLt, d.isLt, by decide, trivial⟩
  refine of_fields rfl hf rfl (by simp only [word, put, fields, List.foldl]; omega) ?_
  have c0 : fld _ 24 8 = 105 := fld_fields _ hf 4
  have e_g := of_low (x := g) (fld_fields _ hf 0)
  have e_i := of_fld 8 (lo := 3) (x := i) (fld_fields _ hf 1)
  have e_a := of_fld 4096 (lo := 12) (x := a) (fld_fields _ hf 2)
  have e_d := of_fld 262144 (lo := 18) (x := d) (fld_fields _ hf 3)
  generalize fields [(3, g.toNat), (9, i.toNat), (6, a.toNat), (6, d.toNat), (8, 105)] = enc at *
  simp [decodeWord, decodeClass6, c0, e_g, e_i, e_a, e_d]
theorem stB64 (d : BitVec 6) (a : BitVec 6) (i : BitVec 9) (g : BitVec 3) : Statement (.stB64 d a i g) := by
  have hf : Fits [(3, g.toNat), (9, i.toNat), (6, a.toNat), (6, d.toNat), (8, 106)] := ⟨g.isLt, i.isLt, a.isLt, d.isLt, by decide, trivial⟩
  refine of_fields rfl hf rfl (by simp only [word, put, fields, List.foldl]; omega) ?_
  have c0 : fld _ 24 8 = 106 := fld_fields _ hf 4
  have e_g := of_low (x := g) (fld_fields _ hf 0)
  have e_i := of_fld 8 (lo := 3) (x := i) (fld_fields _ hf 1)
  have e_a := of_fld 4096 (lo := 12) (x := a) (fld_fields _ hf 2)
  have e_d := of_fld 262144 (lo := 18) (x := d) (fld_fields _ hf 3)
  generalize fields [(3, g.toNat), (9, i.toNat), (6, a.toNat), (6, d.toNat), (8, 106)] = enc at *
  simp [decodeWord, decodeClass6, c0, e_g, e_i, e_a, e_d]
theorem ldbW (d : BitVec 6) (a : BitVec 6) (i : BitVec 9) (g : BitVec 3) : Statement (.ldbW d a i g) := by
  have hf : Fits [(3, g.toNat), (9, i.toNat), (6, a.toNat), (6, d.toNat), (8, 107)] := ⟨g.isLt, i.isLt, a.isLt, d.isLt, by decide, trivial⟩
  refine of_fields rfl hf rfl (by simp only [word, put, fields, List.foldl]; omega) ?_
  have c0 : fld _ 24 8 = 107 := fld_fields _ hf 4
  have e_g := of_low (x := g) (fld_fields _ hf 0)
  have e_i := of_fld 8 (lo := 3) (x := i) (fld_fields _ hf 1)
  have e_a := of_fld 4096 (lo := 12) (x := a) (fld_fields _ hf 2)
  have e_d := of_fld 262144 (lo := 18) (x := d) (fld_fields _ hf 3)
  generalize fields [(3, g.toNat), (9, i.toNat), (6, a.toNat), (6, d.toNat), (8, 107)] = enc at *
  simp [decodeWord, decodeClass6, c0, e_g, e_i, e_a, e_d]
theorem ldbA (d : BitVec 6) (a : BitVec 6) (i : BitVec 9) (g : BitVec 3) : Statement (.ldbA d a i g) := by
  have hf : Fits [(3, g.toNat), (9, i.toNat), (6, a.toNat), (6, d.toNat), (8, 108)] := ⟨g.isLt, i.isLt, a.isLt, d.isLt, by decide, trivial⟩
  refine of_fields rfl hf rfl (by simp only [word, put, fields, List.foldl]; omega) ?_
  have c0 : fld _ 24 8 = 108 := fld_fields _ hf 4
  have e_g := of_low (x := g) (fld_fields _ hf 0)
  have e_i := of_fld 8 (lo := 3) (x := i) (fld_fields _ hf 1)
  have e_a := of_fld 4096 (lo := 12) (x := a) (fld_fields _ hf 2)
  have e_d := of_fld 262144 (lo := 18) (x := d) (fld_fields _ hf 3)
  generalize fields [(3, g.toNat), (9, i.toNat), (6, a.toNat), (6, d.toNat), (8, 108)] = enc at *
  simp [decodeWord, decodeClass6, c0, e_g, e_i, e_a, e_d]
theorem ldbC (d : BitVec 6) (a : BitVec 6) (i : BitVec 9) (g : BitVec 3) : Statement (.ldbC d a i g) := by
  have hf : Fits [(3, g.toNat), (9, i.toNat), (6, a.toNat), (6, d.toNat), (8, 109)] := ⟨g.isLt, i.isLt, a.isLt, d.isLt, by decide, trivial⟩
  refine of_fields rfl hf rfl (by simp only [word, put, fields, List.foldl]; omega) ?_
  have c0 : fld _ 24 8 = 109 := fld_fields _ hf 4
  have e_g := of_low (x := g) (fld_fields _ hf 0)
  have e_i := of_fld 8 (lo := 3) (x := i) (fld_fields _ hf 1)
  have e_a := of_fld 4096 (lo := 12) (x := a) (fld_fields _ hf 2)
  have e_d := of_fld 262144 (lo := 18) (x := d) (fld_fields _ hf 3)
  generalize fields [(3, g.toNat), (9, i.toNat), (6, a.toNat), (6, d.toNat), (8, 109)] = enc at *
  simp [decodeWord, decodeClass6, c0, e_g, e_i, e_a, e_d]
theorem stbA (d : BitVec 6) (a : BitVec 6) (i : BitVec 9) (g : BitVec 3) : Statement (.stbA d a i g) := by
  have hf : Fits [(3, g.toNat), (9, i.toNat), (6, a.toNat), (6, d.toNat), (8, 110)] := ⟨g.isLt, i.isLt, a.isLt, d.isLt, by decide, trivial⟩
  refine of_fields rfl hf rfl (by simp only [word, put, fields, List.foldl]; omega) ?_
  have c0 : fld _ 24 8 = 110 := fld_fields _ hf 4
  have e_g := of_low (x := g) (fld_fields _ hf 0)
  have e_i := of_fld 8 (lo := 3) (x := i) (fld_fields _ hf 1)
  have e_a := of_fld 4096 (lo := 12) (x := a) (fld_fields _ hf 2)
  have e_d := of_fld 262144 (lo := 18) (x := d) (fld_fields _ hf 3)
  generalize fields [(3, g.toNat), (9, i.toNat), (6, a.toNat), (6, d.toNat), (8, 110)] = enc at *
  simp [decodeWord, decodeClass6, c0, e_g, e_i, e_a, e_d]
theorem stbC (d : BitVec 6) (a : BitVec 6) (i : BitVec 9) (g : BitVec 3) : Statement (.stbC d a i g) := by
  have hf : Fits [(3, g.toNat), (9, i.toNat), (6, a.toNat), (6, d.toNat), (8, 111)] := ⟨g.isLt, i.isLt, a.isLt, d.isLt, by decide, trivial⟩
  refine of_fields rfl hf rfl (by simp only [word, put, fields, List.foldl]; omega) ?_
  have c0 : fld _ 24 8 = 111 := fld_fields _ hf 4
  have e_g := of_low (x := g) (fld_fields _ hf 0)
  have e_i := of_fld 8 (lo := 3) (x := i) (fld_fields _ hf 1)
  have e_a := of_fld 4096 (lo := 12) (x := a) (fld_fields _ hf 2)
  have e_d := of_fld 262144 (lo := 18) (x := d) (fld_fields _ hf 3)
  generalize fields [(3, g.toNat), (9, i.toNat), (6, a.toNat), (6, d.toNat), (8, 111)] = enc at *
  simp [decodeWord, decodeClass6, c0, e_g, e_i, e_a, e_d]
theorem atom (d : BitVec 6) (a : BitVec 6) (b : BitVec 6) (f : BitVec 3) (g : BitVec 3) : Statement (.atom d a b f g) := by
  have hf : Fits [(3, g.toNat), (3, f.toNat), (6, b.toNat), (6, a.toNat), (6, d.toNat), (8, 113)] := ⟨g.isLt, f.isLt, b.isLt, a.isLt, d.isLt, by decide, trivial⟩
  refine of_fields rfl hf rfl (by simp only [word, put, fields, List.foldl]; omega) ?_
  have c0 : fld _ 24 8 = 113 := fld_fields _ hf 5
  have e_g := of_low (x := g) (fld_fields _ hf 0)
  have e_f := of_fld 8 (lo := 3) (x := f) (fld_fields _ hf 1)
  have e_b := of_fld 64 (lo := 6) (x := b) (fld_fields _ hf 2)
  have e_a := of_fld 4096 (lo := 12) (x := a) (fld_fields _ hf 3)
  have e_d := of_fld 262144 (lo := 18) (x := d) (fld_fields _ hf 4)
  generalize fields [(3, g.toNat), (3, f.toNat), (6, b.toNat), (6, a.toNat), (6, d.toNat), (8, 113)] = enc at *
  simp [decodeWord, decodeClass7, c0, e_g, e_f, e_b, e_a, e_d]
theorem atomAcq (d : BitVec 6) (a : BitVec 6) (b : BitVec 6) (f : BitVec 3) (g : BitVec 3) : Statement (.atomAcq d a b f g) := by
  have hf : Fits [(3, g.toNat), (3, f.toNat), (6, b.toNat), (6, a.toNat), (6, d.toNat), (8, 114)] := ⟨g.isLt, f.isLt, b.isLt, a.isLt, d.isLt, by decide, trivial⟩
  refine of_fields rfl hf rfl (by simp only [word, put, fields, List.foldl]; omega) ?_
  have c0 : fld _ 24 8 = 114 := fld_fields _ hf 5
  have e_g := of_low (x := g) (fld_fields _ hf 0)
  have e_f := of_fld 8 (lo := 3) (x := f) (fld_fields _ hf 1)
  have e_b := of_fld 64 (lo := 6) (x := b) (fld_fields _ hf 2)
  have e_a := of_fld 4096 (lo := 12) (x := a) (fld_fields _ hf 3)
  have e_d := of_fld 262144 (lo := 18) (x := d) (fld_fields _ hf 4)
  generalize fields [(3, g.toNat), (3, f.toNat), (6, b.toNat), (6, a.toNat), (6, d.toNat), (8, 114)] = enc at *
  simp [decodeWord, decodeClass7, c0, e_g, e_f, e_b, e_a, e_d]
theorem atomRel (d : BitVec 6) (a : BitVec 6) (b : BitVec 6) (f : BitVec 3) (g : BitVec 3) : Statement (.atomRel d a b f g) := by
  have hf : Fits [(3, g.toNat), (3, f.toNat), (6, b.toNat), (6, a.toNat), (6, d.toNat), (8, 115)] := ⟨g.isLt, f.isLt, b.isLt, a.isLt, d.isLt, by decide, trivial⟩
  refine of_fields rfl hf rfl (by simp only [word, put, fields, List.foldl]; omega) ?_
  have c0 : fld _ 24 8 = 115 := fld_fields _ hf 5
  have e_g := of_low (x := g) (fld_fields _ hf 0)
  have e_f := of_fld 8 (lo := 3) (x := f) (fld_fields _ hf 1)
  have e_b := of_fld 64 (lo := 6) (x := b) (fld_fields _ hf 2)
  have e_a := of_fld 4096 (lo := 12) (x := a) (fld_fields _ hf 3)
  have e_d := of_fld 262144 (lo := 18) (x := d) (fld_fields _ hf 4)
  generalize fields [(3, g.toNat), (3, f.toNat), (6, b.toNat), (6, a.toNat), (6, d.toNat), (8, 115)] = enc at *
  simp [decodeWord, decodeClass7, c0, e_g, e_f, e_b, e_a, e_d]
theorem atomAcqRel (d : BitVec 6) (a : BitVec 6) (b : BitVec 6) (f : BitVec 3) (g : BitVec 3) : Statement (.atomAcqRel d a b f g) := by
  have hf : Fits [(3, g.toNat), (3, f.toNat), (6, b.toNat), (6, a.toNat), (6, d.toNat), (8, 116)] := ⟨g.isLt, f.isLt, b.isLt, a.isLt, d.isLt, by decide, trivial⟩
  refine of_fields rfl hf rfl (by simp only [word, put, fields, List.foldl]; omega) ?_
  have c0 : fld _ 24 8 = 116 := fld_fields _ hf 5
  have e_g := of_low (x := g) (fld_fields _ hf 0)
  have e_f := of_fld 8 (lo := 3) (x := f) (fld_fields _ hf 1)
  have e_b := of_fld 64 (lo := 6) (x := b) (fld_fields _ hf 2)
  have e_a := of_fld 4096 (lo := 12) (x := a) (fld_fields _ hf 3)
  have e_d := of_fld 262144 (lo := 18) (x := d) (fld_fields _ hf 4)
  generalize fields [(3, g.toNat), (3, f.toNat), (6, b.toNat), (6, a.toNat), (6, d.toNat), (8, 116)] = enc at *
  simp [decodeWord, decodeClass7, c0, e_g, e_f, e_b, e_a, e_d]
theorem cas (d : BitVec 6) (a : BitVec 6) (b : BitVec 6) (o : BitVec 2) (w : BitVec 1) (g : BitVec 3) : Statement (.cas d a b o w g) := by
  have hf : Fits [(3, g.toNat), (1, w.toNat), (2, o.toNat), (6, b.toNat), (6, a.toNat), (6, d.toNat), (8, 117)] := ⟨g.isLt, w.isLt, o.isLt, b.isLt, a.isLt, d.isLt, by decide, trivial⟩
  refine of_fields rfl hf rfl (by simp only [word, put, fields, List.foldl]; omega) ?_
  have c0 : fld _ 24 8 = 117 := fld_fields _ hf 6
  have e_g := of_low (x := g) (fld_fields _ hf 0)
  have e_w := of_fld 8 (lo := 3) (x := w) (fld_fields _ hf 1)
  have e_o := of_fld 16 (lo := 4) (x := o) (fld_fields _ hf 2)
  have e_b := of_fld 64 (lo := 6) (x := b) (fld_fields _ hf 3)
  have e_a := of_fld 4096 (lo := 12) (x := a) (fld_fields _ hf 4)
  have e_d := of_fld 262144 (lo := 18) (x := d) (fld_fields _ hf 5)
  generalize fields [(3, g.toNat), (1, w.toNat), (2, o.toNat), (6, b.toNat), (6, a.toNat), (6, d.toNat), (8, 117)] = enc at *
  simp [decodeWord, decodeClass7, c0, e_g, e_w, e_o, e_b, e_a, e_d]
theorem acq : Statement .acq := by
  have hf : Fits [(24, 0), (8, 118)] := ⟨by decide, by decide, trivial⟩
  refine of_fields rfl hf rfl rfl ?_
  have c0 : fld _ 24 8 = 118 := fld_fields _ hf 1
  have c1 : fld _ 0 24 = 0 := fld_fields _ hf 0
  generalize fields [(24, 0), (8, 118)] = enc at *
  simp [decodeWord, decodeClass7, c0, c1]
theorem rel : Statement .rel := by
  have hf : Fits [(24, 0), (8, 119)] := ⟨by decide, by decide, trivial⟩
  refine of_fields rfl hf rfl rfl ?_
  have c0 : fld _ 24 8 = 119 := fld_fields _ hf 1
  have c1 : fld _ 0 24 = 0 := fld_fields _ hf 0
  generalize fields [(24, 0), (8, 119)] = enc at *
  simp [decodeWord, decodeClass7, c0, c1]
theorem fence : Statement .fence := by
  have hf : Fits [(24, 0), (8, 120)] := ⟨by decide, by decide, trivial⟩
  refine of_fields rfl hf rfl rfl ?_
  have c0 : fld _ 24 8 = 120 := fld_fields _ hf 1
  have c1 : fld _ 0 24 = 0 := fld_fields _ hf 0
  generalize fields [(24, 0), (8, 120)] = enc at *
  simp [decodeWord, decodeClass7, c0, c1]
theorem waita (d : BitVec 6) (a : BitVec 6) (b : BitVec 6) (p : BitVec 3) (g : BitVec 3) : Statement (.waita d a b p g) := by
  have hf : Fits [(3, g.toNat), (3, p.toNat), (6, b.toNat), (6, a.toNat), (6, d.toNat), (8, 121)] := ⟨g.isLt, p.isLt, b.isLt, a.isLt, d.isLt, by decide, trivial⟩
  refine of_fields rfl hf rfl (by simp only [word, put, fields, List.foldl]; omega) ?_
  have c0 : fld _ 24 8 = 121 := fld_fields _ hf 5
  have e_g := of_low (x := g) (fld_fields _ hf 0)
  have e_p := of_fld 8 (lo := 3) (x := p) (fld_fields _ hf 1)
  have e_b := of_fld 64 (lo := 6) (x := b) (fld_fields _ hf 2)
  have e_a := of_fld 4096 (lo := 12) (x := a) (fld_fields _ hf 3)
  have e_d := of_fld 262144 (lo := 18) (x := d) (fld_fields _ hf 4)
  generalize fields [(3, g.toNat), (3, p.toNat), (6, b.toNat), (6, a.toNat), (6, d.toNat), (8, 121)] = enc at *
  simp [decodeWord, decodeClass7, c0, e_g, e_p, e_b, e_a, e_d]
theorem txb (g : BitVec 3) : Statement (.txb g) := by
  have hf : Fits [(3, g.toNat), (21, 0), (8, 122)] := ⟨g.isLt, by decide, by decide, trivial⟩
  refine of_fields rfl hf rfl (by simp only [word, put, fields, List.foldl]; omega) ?_
  have c0 : fld _ 24 8 = 122 := fld_fields _ hf 2
  have c1 : fld _ 3 21 = 0 := fld_fields _ hf 1
  have e_g := of_low (x := g) (fld_fields _ hf 0)
  generalize fields [(3, g.toNat), (21, 0), (8, 122)] = enc at *
  simp [decodeWord, decodeClass7, c0, c1, e_g]
theorem txc (p : BitVec 3) (g : BitVec 3) : Statement (.txc p g) := by
  have hf : Fits [(3, g.toNat), (15, 0), (3, p.toNat), (3, 0), (8, 123)] := ⟨g.isLt, by decide, p.isLt, by decide, by decide, trivial⟩
  refine of_fields rfl hf rfl (by simp only [word, put, fields, List.foldl]; omega) ?_
  have c0 : fld _ 24 8 = 123 := fld_fields _ hf 4
  have c1 : fld _ 3 15 = 0 := fld_fields _ hf 1
  have c2 : fld _ 21 3 = 0 := fld_fields _ hf 3
  have e_g := of_low (x := g) (fld_fields _ hf 0)
  have e_p := of_fld 262144 (lo := 18) (x := p) (fld_fields _ hf 2)
  generalize fields [(3, g.toNat), (15, 0), (3, p.toNat), (3, 0), (8, 123)] = enc at *
  simp [decodeWord, decodeClass7, c0, c1, c2, e_g, e_p]
theorem txa (g : BitVec 3) : Statement (.txa g) := by
  have hf : Fits [(3, g.toNat), (21, 0), (8, 124)] := ⟨g.isLt, by decide, by decide, trivial⟩
  refine of_fields rfl hf rfl (by simp only [word, put, fields, List.foldl]; omega) ?_
  have c0 : fld _ 24 8 = 124 := fld_fields _ hf 2
  have c1 : fld _ 3 21 = 0 := fld_fields _ hf 1
  have e_g := of_low (x := g) (fld_fields _ hf 0)
  generalize fields [(3, g.toNat), (21, 0), (8, 124)] = enc at *
  simp [decodeWord, decodeClass7, c0, c1, e_g]
theorem cp (d : BitVec 6) (a : BitVec 6) (b : BitVec 6) (c : BitVec 6) : Statement (.cp d a b c) := by
  have hf : Fits [(6, c.toNat), (6, b.toNat), (6, a.toNat), (6, d.toNat), (8, 129)] := ⟨c.isLt, b.isLt, a.isLt, d.isLt, by decide, trivial⟩
  refine of_fields rfl hf rfl (by simp only [word, put, fields, List.foldl]; omega) ?_
  have c0 : fld _ 24 8 = 129 := fld_fields _ hf 4
  have e_c := of_low (x := c) (fld_fields _ hf 0)
  have e_b := of_fld 64 (lo := 6) (x := b) (fld_fields _ hf 1)
  have e_a := of_fld 4096 (lo := 12) (x := a) (fld_fields _ hf 2)
  have e_d := of_fld 262144 (lo := 18) (x := d) (fld_fields _ hf 3)
  generalize fields [(6, c.toNat), (6, b.toNat), (6, a.toNat), (6, d.toNat), (8, 129)] = enc at *
  simp [decodeWord, decodeClass8, c0, e_c, e_b, e_a, e_d]
theorem cp2 (d : BitVec 6) (a : BitVec 6) (b : BitVec 6) (c : BitVec 6) : Statement (.cp2 d a b c) := by
  have hf : Fits [(6, c.toNat), (6, b.toNat), (6, a.toNat), (6, d.toNat), (8, 130)] := ⟨c.isLt, b.isLt, a.isLt, d.isLt, by decide, trivial⟩
  refine of_fields rfl hf rfl (by simp only [word, put, fields, List.foldl]; omega) ?_
  have c0 : fld _ 24 8 = 130 := fld_fields _ hf 4
  have e_c := of_low (x := c) (fld_fields _ hf 0)
  have e_b := of_fld 64 (lo := 6) (x := b) (fld_fields _ hf 1)
  have e_a := of_fld 4096 (lo := 12) (x := a) (fld_fields _ hf 2)
  have e_d := of_fld 262144 (lo := 18) (x := d) (fld_fields _ hf 3)
  generalize fields [(6, c.toNat), (6, b.toNat), (6, a.toNat), (6, d.toNat), (8, 130)] = enc at *
  simp [decodeWord, decodeClass8, c0, e_c, e_b, e_a, e_d]
theorem cptab (d : BitVec 6) (a : BitVec 6) (b : BitVec 6) (c : BitVec 6) : Statement (.cptab d a b c) := by
  have hf : Fits [(6, c.toNat), (6, b.toNat), (6, a.toNat), (6, d.toNat), (8, 131)] := ⟨c.isLt, b.isLt, a.isLt, d.isLt, by decide, trivial⟩
  refine of_fields rfl hf rfl (by simp only [word, put, fields, List.foldl]; omega) ?_
  have c0 : fld _ 24 8 = 131 := fld_fields _ hf 4
  have e_c := of_low (x := c) (fld_fields _ hf 0)
  have e_b := of_fld 64 (lo := 6) (x := b) (fld_fields _ hf 1)
  have e_a := of_fld 4096 (lo := 12) (x := a) (fld_fields _ hf 2)
  have e_d := of_fld 262144 (lo := 18) (x := d) (fld_fields _ hf 3)
  generalize fields [(6, c.toNat), (6, b.toNat), (6, a.toNat), (6, d.toNat), (8, 131)] = enc at *
  simp [decodeWord, decodeClass8, c0, e_c, e_b, e_a, e_d]
theorem wait (l : BitVec 6) (s : BitVec 6) (c : BitVec 6) (m : BitVec 6) : Statement (.wait l s c m) := by
  have hf : Fits [(6, m.toNat), (6, c.toNat), (6, s.toNat), (6, l.toNat), (8, 132)] := ⟨m.isLt, c.isLt, s.isLt, l.isLt, by decide, trivial⟩
  refine of_fields rfl hf rfl (by simp only [word, put, fields, List.foldl]; omega) ?_
  have c0 : fld _ 24 8 = 132 := fld_fields _ hf 4
  have e_m := of_low (x := m) (fld_fields _ hf 0)
  have e_c := of_fld 64 (lo := 6) (x := c) (fld_fields _ hf 1)
  have e_s := of_fld 4096 (lo := 12) (x := s) (fld_fields _ hf 2)
  have e_l := of_fld 262144 (lo := 18) (x := l) (fld_fields _ hf 3)
  generalize fields [(6, m.toNat), (6, c.toNat), (6, s.toNat), (6, l.toNat), (8, 132)] = enc at *
  simp [decodeWord, decodeClass8, c0, e_m, e_c, e_s, e_l]
theorem waitx (t : BitVec 6) (s : BitVec 6) (c : BitVec 6) : Statement (.waitx t s c) := by
  have hf : Fits [(6, 0), (6, c.toNat), (6, s.toNat), (6, t.toNat), (8, 133)] := ⟨by decide, c.isLt, s.isLt, t.isLt, by decide, trivial⟩
  refine of_fields rfl hf rfl (by simp only [word, put, fields, List.foldl]; omega) ?_
  have c0 : fld _ 24 8 = 133 := fld_fields _ hf 4
  have c1 : fld _ 0 6 = 0 := fld_fields _ hf 0
  have e_c := of_fld 64 (lo := 6) (x := c) (fld_fields _ hf 1)
  have e_s := of_fld 4096 (lo := 12) (x := s) (fld_fields _ hf 2)
  have e_t := of_fld 262144 (lo := 18) (x := t) (fld_fields _ hf 3)
  generalize fields [(6, 0), (6, c.toNat), (6, s.toNat), (6, t.toNat), (8, 133)] = enc at *
  simp [decodeWord, decodeClass8, c0, c1, e_c, e_s, e_t]
theorem pgreq (d : BitVec 6) (a : BitVec 6) (g : BitVec 3) : Statement (.pgreq d a g) := by
  have hf : Fits [(3, g.toNat), (9, 0), (6, a.toNat), (6, d.toNat), (8, 134)] := ⟨g.isLt, by decide, a.isLt, d.isLt, by decide, trivial⟩
  refine of_fields rfl hf rfl (by simp only [word, put, fields, List.foldl]; omega) ?_
  have c0 : fld _ 24 8 = 134 := fld_fields _ hf 4
  have c1 : fld _ 3 9 = 0 := fld_fields _ hf 1
  have e_g := of_low (x := g) (fld_fields _ hf 0)
  have e_a := of_fld 4096 (lo := 12) (x := a) (fld_fields _ hf 2)
  have e_d := of_fld 262144 (lo := 18) (x := d) (fld_fields _ hf 3)
  generalize fields [(3, g.toNat), (9, 0), (6, a.toNat), (6, d.toNat), (8, 134)] = enc at *
  simp [decodeWord, decodeClass8, c0, c1, e_g, e_a, e_d]
theorem pfetch (a : BitVec 6) (l : BitVec 1) (n : BitVec 8) (g : BitVec 3) : Statement (.pfetch a l n g) := by
  have hf : Fits [(3, g.toNat), (8, n.toNat), (1, l.toNat), (6, a.toNat), (6, 0), (8, 135)] := ⟨g.isLt, n.isLt, l.isLt, a.isLt, by decide, by decide, trivial⟩
  refine of_fields rfl hf rfl (by simp only [word, put, fields, List.foldl]; omega) ?_
  have c0 : fld _ 24 8 = 135 := fld_fields _ hf 5
  have c1 : fld _ 18 6 = 0 := fld_fields _ hf 4
  have e_g := of_low (x := g) (fld_fields _ hf 0)
  have e_n := of_fld 8 (lo := 3) (x := n) (fld_fields _ hf 1)
  have e_l := of_fld 2048 (lo := 11) (x := l) (fld_fields _ hf 2)
  have e_a := of_fld 4096 (lo := 12) (x := a) (fld_fields _ hf 3)
  generalize fields [(3, g.toNat), (8, n.toNat), (1, l.toNat), (6, a.toNat), (6, 0), (8, 135)] = enc at *
  simp [decodeWord, decodeClass8, c0, c1, e_g, e_n, e_l, e_a]
theorem mres (p : BitVec 3) : Statement (.mres p) := by
  have hf : Fits [(12, 0), (3, p.toNat), (9, 0), (8, 145)] := ⟨by decide, p.isLt, by decide, by decide, trivial⟩
  refine of_fields rfl hf rfl (by simp only [word, put, fields, List.foldl]; omega) ?_
  have c0 : fld _ 24 8 = 145 := fld_fields _ hf 3
  have c1 : fld _ 0 12 = 0 := fld_fields _ hf 0
  have c2 : fld _ 15 9 = 0 := fld_fields _ hf 2
  have e_p := of_fld 4096 (lo := 12) (x := p) (fld_fields _ hf 1)
  generalize fields [(12, 0), (3, p.toNat), (9, 0), (8, 145)] = enc at *
  simp [decodeWord, decodeClass9, c0, c1, c2, e_p]
theorem mrel : Statement .mrel := by
  have hf : Fits [(24, 0), (8, 146)] := ⟨by decide, by decide, trivial⟩
  refine of_fields rfl hf rfl rfl ?_
  have c0 : fld _ 24 8 = 146 := fld_fields _ hf 1
  have c1 : fld _ 0 24 = 0 := fld_fields _ hf 0
  generalize fields [(24, 0), (8, 146)] = enc at *
  simp [decodeWord, decodeClass9, c0, c1]
theorem cdecl (c : BitVec 3) (n : BitVec 12) : Statement (.cdecl c n) := by
  have hf : Fits [(12, n.toNat), (3, c.toNat), (9, 0), (8, 147)] := ⟨n.isLt, c.isLt, by decide, by decide, trivial⟩
  refine of_fields rfl hf rfl (by simp only [word, put, fields, List.foldl]; omega) ?_
  have c0 : fld _ 24 8 = 147 := fld_fields _ hf 3
  have c1 : fld _ 15 9 = 0 := fld_fields _ hf 2
  have e_n := of_low (x := n) (fld_fields _ hf 0)
  have e_c := of_fld 4096 (lo := 12) (x := c) (fld_fields _ hf 1)
  generalize fields [(12, n.toNat), (3, c.toNat), (9, 0), (8, 147)] = enc at *
  simp [decodeWord, decodeClass9, c0, c1, e_n, e_c]
theorem tld (t : BitVec 4) (a : BitVec 4) (b : BitVec 4) (c : BitVec 3) (q : BitVec 1) (s : BitVec 2) (e : BitVec 1) (g : BitVec 3) : Statement (.tld t a b c q s e g) := by
  have hf : Fits [(3, g.toNat), (2, 0), (1, e.toNat), (2, s.toNat), (1, q.toNat), (3, c.toNat), (4, b.toNat), (4, a.toNat), (4, t.toNat), (8, 148)] := ⟨g.isLt, by decide, e.isLt, s.isLt, q.isLt, c.isLt, b.isLt, a.isLt, t.isLt, by decide, trivial⟩
  refine of_fields rfl hf rfl (by simp only [word, put, fields, List.foldl]; omega) ?_
  have c0 : fld _ 24 8 = 148 := fld_fields _ hf 9
  have c1 : fld _ 3 2 = 0 := fld_fields _ hf 1
  have e_g := of_low (x := g) (fld_fields _ hf 0)
  have e_e := of_fld 32 (lo := 5) (x := e) (fld_fields _ hf 2)
  have e_s := of_fld 64 (lo := 6) (x := s) (fld_fields _ hf 3)
  have e_q := of_fld 256 (lo := 8) (x := q) (fld_fields _ hf 4)
  have e_c := of_fld 512 (lo := 9) (x := c) (fld_fields _ hf 5)
  have e_b := of_fld 4096 (lo := 12) (x := b) (fld_fields _ hf 6)
  have e_a := of_fld 65536 (lo := 16) (x := a) (fld_fields _ hf 7)
  have e_t := of_fld 1048576 (lo := 20) (x := t) (fld_fields _ hf 8)
  generalize fields [(3, g.toNat), (2, 0), (1, e.toNat), (2, s.toNat), (1, q.toNat), (3, c.toNat), (4, b.toNat), (4, a.toNat), (4, t.toNat), (8, 148)] = enc at *
  simp [decodeWord, decodeClass9, c0, c1, e_g, e_e, e_s, e_q, e_c, e_b, e_a, e_t]
theorem tst (t : BitVec 4) (a : BitVec 4) (b : BitVec 4) (c : BitVec 3) (q : BitVec 1) (s : BitVec 2) (g : BitVec 3) : Statement (.tst t a b c q s g) := by
  have hf : Fits [(3, g.toNat), (3, 0), (2, s.toNat), (1, q.toNat), (3, c.toNat), (4, b.toNat), (4, a.toNat), (4, t.toNat), (8, 149)] := ⟨g.isLt, by decide, s.isLt, q.isLt, c.isLt, b.isLt, a.isLt, t.isLt, by decide, trivial⟩
  refine of_fields rfl hf rfl (by simp only [word, put, fields, List.foldl]; omega) ?_
  have c0 : fld _ 24 8 = 149 := fld_fields _ hf 8
  have c1 : fld _ 3 3 = 0 := fld_fields _ hf 1
  have e_g := of_low (x := g) (fld_fields _ hf 0)
  have e_s := of_fld 64 (lo := 6) (x := s) (fld_fields _ hf 2)
  have e_q := of_fld 256 (lo := 8) (x := q) (fld_fields _ hf 3)
  have e_c := of_fld 512 (lo := 9) (x := c) (fld_fields _ hf 4)
  have e_b := of_fld 4096 (lo := 12) (x := b) (fld_fields _ hf 5)
  have e_a := of_fld 65536 (lo := 16) (x := a) (fld_fields _ hf 6)
  have e_t := of_fld 1048576 (lo := 20) (x := t) (fld_fields _ hf 7)
  generalize fields [(3, g.toNat), (3, 0), (2, s.toNat), (1, q.toNat), (3, c.toNat), (4, b.toNat), (4, a.toNat), (4, t.toNat), (8, 149)] = enc at *
  simp [decodeWord, decodeClass9, c0, c1, e_g, e_s, e_q, e_c, e_b, e_a, e_t]
theorem tzero (t : BitVec 4) (c : BitVec 3) (q : BitVec 1) (g : BitVec 3) : Statement (.tzero t c q g) := by
  have hf : Fits [(3, g.toNat), (5, 0), (1, q.toNat), (3, c.toNat), (8, 0), (4, t.toNat), (8, 150)] := ⟨g.isLt, by decide, q.isLt, c.isLt, by decide, t.isLt, by decide, trivial⟩
  refine of_fields rfl hf rfl (by simp only [word, put, fields, List.foldl]; omega) ?_
  have c0 : fld _ 24 8 = 150 := fld_fields _ hf 6
  have c1 : fld _ 3 5 = 0 := fld_fields _ hf 1
  have c2 : fld _ 12 8 = 0 := fld_fields _ hf 4
  have e_g := of_low (x := g) (fld_fields _ hf 0)
  have e_q := of_fld 256 (lo := 8) (x := q) (fld_fields _ hf 2)
  have e_c := of_fld 512 (lo := 9) (x := c) (fld_fields _ hf 3)
  have e_t := of_fld 1048576 (lo := 20) (x := t) (fld_fields _ hf 5)
  generalize fields [(3, g.toNat), (5, 0), (1, q.toNat), (3, c.toNat), (8, 0), (4, t.toNat), (8, 150)] = enc at *
  simp [decodeWord, decodeClass9, c0, c1, c2, e_g, e_q, e_c, e_t]
theorem tmeta (t : BitVec 4) (a : BitVec 4) (b : BitVec 4) (c : BitVec 3) (q : BitVec 1) (s : BitVec 2) (g : BitVec 3) : Statement (.tmeta t a b c q s g) := by
  have hf : Fits [(3, g.toNat), (3, 0), (2, s.toNat), (1, q.toNat), (3, c.toNat), (4, b.toNat), (4, a.toNat), (4, t.toNat), (8, 151)] := ⟨g.isLt, by decide, s.isLt, q.isLt, c.isLt, b.isLt, a.isLt, t.isLt, by decide, trivial⟩
  refine of_fields rfl hf rfl (by simp only [word, put, fields, List.foldl]; omega) ?_
  have c0 : fld _ 24 8 = 151 := fld_fields _ hf 8
  have c1 : fld _ 3 3 = 0 := fld_fields _ hf 1
  have e_g := of_low (x := g) (fld_fields _ hf 0)
  have e_s := of_fld 64 (lo := 6) (x := s) (fld_fields _ hf 2)
  have e_q := of_fld 256 (lo := 8) (x := q) (fld_fields _ hf 3)
  have e_c := of_fld 512 (lo := 9) (x := c) (fld_fields _ hf 4)
  have e_b := of_fld 4096 (lo := 12) (x := b) (fld_fields _ hf 5)
  have e_a := of_fld 65536 (lo := 16) (x := a) (fld_fields _ hf 6)
  have e_t := of_fld 1048576 (lo := 20) (x := t) (fld_fields _ hf 7)
  generalize fields [(3, g.toNat), (3, 0), (2, s.toNat), (1, q.toNat), (3, c.toNat), (4, b.toNat), (4, a.toNat), (4, t.toNat), (8, 151)] = enc at *
  simp [decodeWord, decodeClass9, c0, c1, e_g, e_s, e_q, e_c, e_b, e_a, e_t]
theorem mma (a : BitVec 4) (b : BitVec 4) (c : BitVec 3) (q : BitVec 1) (g : BitVec 3) : Statement (.mma a b c q g) := by
  have hf : Fits [(3, g.toNat), (5, 0), (1, q.toNat), (3, c.toNat), (4, b.toNat), (4, a.toNat), (4, 0), (8, 152)] := ⟨g.isLt, by decide, q.isLt, c.isLt, b.isLt, a.isLt, by decide, by decide, trivial⟩
  refine of_fields rfl hf rfl (by simp only [word, put, fields, List.foldl]; omega) ?_
  have c0 : fld _ 24 8 = 152 := fld_fields _ hf 7
  have c1 : fld _ 3 5 = 0 := fld_fields _ hf 1
  have c2 : fld _ 20 4 = 0 := fld_fields _ hf 6
  have e_g := of_low (x := g) (fld_fields _ hf 0)
  have e_q := of_fld 256 (lo := 8) (x := q) (fld_fields _ hf 2)
  have e_c := of_fld 512 (lo := 9) (x := c) (fld_fields _ hf 3)
  have e_b := of_fld 4096 (lo := 12) (x := b) (fld_fields _ hf 4)
  have e_a := of_fld 65536 (lo := 16) (x := a) (fld_fields _ hf 5)
  generalize fields [(3, g.toNat), (5, 0), (1, q.toNat), (3, c.toNat), (4, b.toNat), (4, a.toNat), (4, 0), (8, 152)] = enc at *
  simp [decodeWord, decodeClass9, c0, c1, c2, e_g, e_q, e_c, e_b, e_a]
theorem mmas (t : BitVec 4) (a : BitVec 4) (b : BitVec 4) (c : BitVec 3) (q : BitVec 1) (g : BitVec 3) : Statement (.mmas t a b c q g) := by
  have hf : Fits [(3, g.toNat), (5, 0), (1, q.toNat), (3, c.toNat), (4, b.toNat), (4, a.toNat), (4, t.toNat), (8, 153)] := ⟨g.isLt, by decide, q.isLt, c.isLt, b.isLt, a.isLt, t.isLt, by decide, trivial⟩
  refine of_fields rfl hf rfl (by simp only [word, put, fields, List.foldl]; omega) ?_
  have c0 : fld _ 24 8 = 153 := fld_fields _ hf 7
  have c1 : fld _ 3 5 = 0 := fld_fields _ hf 1
  have e_g := of_low (x := g) (fld_fields _ hf 0)
  have e_q := of_fld 256 (lo := 8) (x := q) (fld_fields _ hf 2)
  have e_c := of_fld 512 (lo := 9) (x := c) (fld_fields _ hf 3)
  have e_b := of_fld 4096 (lo := 12) (x := b) (fld_fields _ hf 4)
  have e_a := of_fld 65536 (lo := 16) (x := a) (fld_fields _ hf 5)
  have e_t := of_fld 1048576 (lo := 20) (x := t) (fld_fields _ hf 6)
  generalize fields [(3, g.toNat), (5, 0), (1, q.toNat), (3, c.toNat), (4, b.toNat), (4, a.toNat), (4, t.toNat), (8, 153)] = enc at *
  simp [decodeWord, decodeClass9, c0, c1, e_g, e_q, e_c, e_b, e_a, e_t]
theorem mswap (c : BitVec 3) (q : BitVec 1) (g : BitVec 3) : Statement (.mswap c q g) := by
  have hf : Fits [(3, g.toNat), (5, 0), (1, q.toNat), (3, c.toNat), (12, 0), (8, 154)] := ⟨g.isLt, by decide, q.isLt, c.isLt, by decide, by decide, trivial⟩
  refine of_fields rfl hf rfl (by simp only [word, put, fields, List.foldl]; omega) ?_
  have c0 : fld _ 24 8 = 154 := fld_fields _ hf 5
  have c1 : fld _ 3 5 = 0 := fld_fields _ hf 1
  have c2 : fld _ 12 12 = 0 := fld_fields _ hf 4
  have e_g := of_low (x := g) (fld_fields _ hf 0)
  have e_q := of_fld 256 (lo := 8) (x := q) (fld_fields _ hf 2)
  have e_c := of_fld 512 (lo := 9) (x := c) (fld_fields _ hf 3)
  generalize fields [(3, g.toNat), (5, 0), (1, q.toNat), (3, c.toNat), (12, 0), (8, 154)] = enc at *
  simp [decodeWord, decodeClass9, c0, c1, c2, e_g, e_q, e_c]
theorem mdrain (k : BitVec 1) (a : BitVec 4) (b : BitVec 4) (c : BitVec 3) (q : BitVec 1) (t : BitVec 3) (x : BitVec 2) (g : BitVec 3) : Statement (.mdrain k a b c q t x g) := by
  have hf : Fits [(3, g.toNat), (2, x.toNat), (3, t.toNat), (1, q.toNat), (3, c.toNat), (4, b.toNat), (4, a.toNat), (1, k.toNat), (3, 0), (8, 155)] := ⟨g.isLt, x.isLt, t.isLt, q.isLt, c.isLt, b.isLt, a.isLt, k.isLt, by decide, by decide, trivial⟩
  refine of_fields rfl hf rfl (by simp only [word, put, fields, List.foldl]; omega) ?_
  have c0 : fld _ 24 8 = 155 := fld_fields _ hf 9
  have c1 : fld _ 21 3 = 0 := fld_fields _ hf 8
  have e_g := of_low (x := g) (fld_fields _ hf 0)
  have e_x := of_fld 8 (lo := 3) (x := x) (fld_fields _ hf 1)
  have e_t := of_fld 32 (lo := 5) (x := t) (fld_fields _ hf 2)
  have e_q := of_fld 256 (lo := 8) (x := q) (fld_fields _ hf 3)
  have e_c := of_fld 512 (lo := 9) (x := c) (fld_fields _ hf 4)
  have e_b := of_fld 4096 (lo := 12) (x := b) (fld_fields _ hf 5)
  have e_a := of_fld 65536 (lo := 16) (x := a) (fld_fields _ hf 6)
  have e_k := of_fld 1048576 (lo := 20) (x := k) (fld_fields _ hf 7)
  generalize fields [(3, g.toNat), (2, x.toNat), (3, t.toNat), (1, q.toNat), (3, c.toNat), (4, b.toNat), (4, a.toNat), (1, k.toNat), (3, 0), (8, 155)] = enc at *
  simp [decodeWord, decodeClass9, c0, c1, e_g, e_x, e_t, e_q, e_c, e_b, e_a, e_k]
theorem mclr (k : BitVec 1) (c : BitVec 3) (q : BitVec 1) (m : BitVec 1) (g : BitVec 3) : Statement (.mclr k c q m g) := by
  have hf : Fits [(3, g.toNat), (1, m.toNat), (4, 0), (1, q.toNat), (3, c.toNat), (8, 0), (1, k.toNat), (3, 0), (8, 156)] := ⟨g.isLt, m.isLt, by decide, q.isLt, c.isLt, by decide, k.isLt, by decide, by decide, trivial⟩
  refine of_fields rfl hf rfl (by simp only [word, put, fields, List.foldl]; omega) ?_
  have c0 : fld _ 24 8 = 156 := fld_fields _ hf 8
  have c1 : fld _ 4 4 = 0 := fld_fields _ hf 2
  have c2 : fld _ 12 8 = 0 := fld_fields _ hf 5
  have c3 : fld _ 21 3 = 0 := fld_fields _ hf 7
  have e_g := of_low (x := g) (fld_fields _ hf 0)
  have e_m := of_fld 8 (lo := 3) (x := m) (fld_fields _ hf 1)
  have e_q := of_fld 256 (lo := 8) (x := q) (fld_fields _ hf 3)
  have e_c := of_fld 512 (lo := 9) (x := c) (fld_fields _ hf 4)
  have e_k := of_fld 1048576 (lo := 20) (x := k) (fld_fields _ hf 6)
  generalize fields [(3, g.toNat), (1, m.toNat), (4, 0), (1, q.toNat), (3, c.toNat), (8, 0), (1, k.toNat), (3, 0), (8, 156)] = enc at *
  simp [decodeWord, decodeClass9, c0, c1, c2, c3, e_g, e_m, e_q, e_c, e_k]
theorem mstat (d : BitVec 6) : Statement (.mstat d) := by
  have hf : Fits [(12, 0), (6, d.toNat), (6, 0), (8, 157)] := ⟨by decide, d.isLt, by decide, by decide, trivial⟩
  refine of_fields rfl hf rfl (by simp only [word, put, fields, List.foldl]; omega) ?_
  have c0 : fld _ 24 8 = 157 := fld_fields _ hf 3
  have c1 : fld _ 0 12 = 0 := fld_fields _ hf 0
  have c2 : fld _ 18 6 = 0 := fld_fields _ hf 2
  have e_d := of_fld 4096 (lo := 12) (x := d) (fld_fields _ hf 1)
  generalize fields [(12, 0), (6, d.toNat), (6, 0), (8, 157)] = enc at *
  simp [decodeWord, decodeClass9, c0, c1, c2, e_d]
theorem hgf (d : BitVec 6) (a : BitVec 6) (b : BitVec 6) (o : BitVec 1) (g : BitVec 3) : Statement (.hgf d a b o g) := by
  have hf : Fits [(3, g.toNat), (2, 0), (1, o.toNat), (6, b.toNat), (6, a.toNat), (6, d.toNat), (8, 161)] := ⟨g.isLt, by decide, o.isLt, b.isLt, a.isLt, d.isLt, by decide, trivial⟩
  refine of_fields rfl hf rfl (by simp only [word, put, fields, List.foldl]; omega) ?_
  have c0 : fld _ 24 8 = 161 := fld_fields _ hf 6
  have c1 : fld _ 3 2 = 0 := fld_fields _ hf 1
  have e_g := of_low (x := g) (fld_fields _ hf 0)
  have e_o := of_fld 32 (lo := 5) (x := o) (fld_fields _ hf 2)
  have e_b := of_fld 64 (lo := 6) (x := b) (fld_fields _ hf 3)
  have e_a := of_fld 4096 (lo := 12) (x := a) (fld_fields _ hf 4)
  have e_d := of_fld 262144 (lo := 18) (x := d) (fld_fields _ hf 5)
  generalize fields [(3, g.toNat), (2, 0), (1, o.toNat), (6, b.toNat), (6, a.toNat), (6, d.toNat), (8, 161)] = enc at *
  simp [decodeWord, decodeClassA, c0, c1, e_g, e_o, e_b, e_a, e_d]
theorem hgs (d : BitVec 6) (a : BitVec 6) (b : BitVec 6) (i : BitVec 1) (g : BitVec 3) : Statement (.hgs d a b i g) := by
  have hf : Fits [(3, g.toNat), (2, 0), (1, i.toNat), (6, b.toNat), (6, a.toNat), (6, d.toNat), (8, 162)] := ⟨g.isLt, by decide, i.isLt, b.isLt, a.isLt, d.isLt, by decide, trivial⟩
  refine of_fields rfl hf rfl (by simp only [word, put, fields, List.foldl]; omega) ?_
  have c0 : fld _ 24 8 = 162 := fld_fields _ hf 6
  have c1 : fld _ 3 2 = 0 := fld_fields _ hf 1
  have e_g := of_low (x := g) (fld_fields _ hf 0)
  have e_i := of_fld 32 (lo := 5) (x := i) (fld_fields _ hf 2)
  have e_b := of_fld 64 (lo := 6) (x := b) (fld_fields _ hf 3)
  have e_a := of_fld 4096 (lo := 12) (x := a) (fld_fields _ hf 4)
  have e_d := of_fld 262144 (lo := 18) (x := d) (fld_fields _ hf 5)
  generalize fields [(3, g.toNat), (2, 0), (1, i.toNat), (6, b.toNat), (6, a.toNat), (6, d.toNat), (8, 162)] = enc at *
  simp [decodeWord, decodeClassA, c0, c1, e_g, e_i, e_b, e_a, e_d]
theorem hgfold (d : BitVec 6) (a : BitVec 6) (b : BitVec 6) (c : BitVec 6) : Statement (.hgfold d a b c) := by
  have hf : Fits [(6, c.toNat), (6, b.toNat), (6, a.toNat), (6, d.toNat), (8, 163)] := ⟨c.isLt, b.isLt, a.isLt, d.isLt, by decide, trivial⟩
  refine of_fields rfl hf rfl (by simp only [word, put, fields, List.foldl]; omega) ?_
  have c0 : fld _ 24 8 = 163 := fld_fields _ hf 4
  have e_c := of_low (x := c) (fld_fields _ hf 0)
  have e_b := of_fld 64 (lo := 6) (x := b) (fld_fields _ hf 1)
  have e_a := of_fld 4096 (lo := 12) (x := a) (fld_fields _ hf 2)
  have e_d := of_fld 262144 (lo := 18) (x := d) (fld_fields _ hf 3)
  generalize fields [(6, c.toNat), (6, b.toNat), (6, a.toNat), (6, d.toNat), (8, 163)] = enc at *
  simp [decodeWord, decodeClassA, c0, e_c, e_b, e_a, e_d]
theorem march (d : BitVec 6) (a : BitVec 6) (b : BitVec 6) (g : BitVec 3) : Statement (.march d a b g) := by
  have hf : Fits [(3, g.toNat), (3, 0), (6, b.toNat), (6, a.toNat), (6, d.toNat), (8, 164)] := ⟨g.isLt, by decide, b.isLt, a.isLt, d.isLt, by decide, trivial⟩
  refine of_fields rfl hf rfl (by simp only [word, put, fields, List.foldl]; omega) ?_
  have c0 : fld _ 24 8 = 164 := fld_fields _ hf 5
  have c1 : fld _ 3 3 = 0 := fld_fields _ hf 1
  have e_g := of_low (x := g) (fld_fields _ hf 0)
  have e_b := of_fld 64 (lo := 6) (x := b) (fld_fields _ hf 2)
  have e_a := of_fld 4096 (lo := 12) (x := a) (fld_fields _ hf 3)
  have e_d := of_fld 262144 (lo := 18) (x := d) (fld_fields _ hf 4)
  generalize fields [(3, g.toNat), (3, 0), (6, b.toNat), (6, a.toNat), (6, d.toNat), (8, 164)] = enc at *
  simp [decodeWord, decodeClassA, c0, c1, e_g, e_b, e_a, e_d]
theorem tex (d : BitVec 6) (a : BitVec 6) (b : BitVec 6) (g : BitVec 3) : Statement (.tex d a b g) := by
  have hf : Fits [(3, g.toNat), (3, 0), (6, b.toNat), (6, a.toNat), (6, d.toNat), (8, 165)] := ⟨g.isLt, by decide, b.isLt, a.isLt, d.isLt, by decide, trivial⟩
  refine of_fields rfl hf rfl (by simp only [word, put, fields, List.foldl]; omega) ?_
  have c0 : fld _ 24 8 = 165 := fld_fields _ hf 5
  have c1 : fld _ 3 3 = 0 := fld_fields _ hf 1
  have e_g := of_low (x := g) (fld_fields _ hf 0)
  have e_b := of_fld 64 (lo := 6) (x := b) (fld_fields _ hf 2)
  have e_a := of_fld 4096 (lo := 12) (x := a) (fld_fields _ hf 3)
  have e_d := of_fld 262144 (lo := 18) (x := d) (fld_fields _ hf 4)
  generalize fields [(3, g.toNat), (3, 0), (6, b.toNat), (6, a.toNat), (6, d.toNat), (8, 165)] = enc at *
  simp [decodeWord, decodeClassA, c0, c1, e_g, e_b, e_a, e_d]
theorem trace (d : BitVec 6) (a : BitVec 6) (b : BitVec 6) (g : BitVec 3) : Statement (.trace d a b g) := by
  have hf : Fits [(3, g.toNat), (3, 0), (6, b.toNat), (6, a.toNat), (6, d.toNat), (8, 166)] := ⟨g.isLt, by decide, b.isLt, a.isLt, d.isLt, by decide, trivial⟩
  refine of_fields rfl hf rfl (by simp only [word, put, fields, List.foldl]; omega) ?_
  have c0 : fld _ 24 8 = 166 := fld_fields _ hf 5
  have c1 : fld _ 3 3 = 0 := fld_fields _ hf 1
  have e_g := of_low (x := g) (fld_fields _ hf 0)
  have e_b := of_fld 64 (lo := 6) (x := b) (fld_fields _ hf 2)
  have e_a := of_fld 4096 (lo := 12) (x := a) (fld_fields _ hf 3)
  have e_d := of_fld 262144 (lo := 18) (x := d) (fld_fields _ hf 4)
  generalize fields [(3, g.toNat), (3, 0), (6, b.toNat), (6, a.toNat), (6, d.toNat), (8, 166)] = enc at *
  simp [decodeWord, decodeClassA, c0, c1, e_g, e_b, e_a, e_d]
theorem tcontReject (d : BitVec 6) (a : BitVec 6) (g : BitVec 3) : Statement (.tcontReject d a g) := by
  have hf : Fits [(3, g.toNat), (9, 0), (6, a.toNat), (6, d.toNat), (8, 167)] := ⟨g.isLt, by decide, a.isLt, d.isLt, by decide, trivial⟩
  refine of_fields rfl hf rfl (by simp only [word, put, fields, List.foldl]; omega) ?_
  have c0 : fld _ 24 8 = 167 := fld_fields _ hf 4
  have c1 : fld _ 3 9 = 0 := fld_fields _ hf 1
  have e_g := of_low (x := g) (fld_fields _ hf 0)
  have e_a := of_fld 4096 (lo := 12) (x := a) (fld_fields _ hf 2)
  have e_d := of_fld 262144 (lo := 18) (x := d) (fld_fields _ hf 3)
  generalize fields [(3, g.toNat), (9, 0), (6, a.toNat), (6, d.toNat), (8, 167)] = enc at *
  simp [decodeWord, decodeClassA, c0, c1, e_g, e_a, e_d]
theorem tcontAccept (d : BitVec 6) (a : BitVec 6) (g : BitVec 3) : Statement (.tcontAccept d a g) := by
  have hf : Fits [(3, g.toNat), (9, 1), (6, a.toNat), (6, d.toNat), (8, 167)] := ⟨g.isLt, by decide, a.isLt, d.isLt, by decide, trivial⟩
  refine of_fields rfl hf rfl (by simp only [word, put, fields, List.foldl]; omega) ?_
  have c0 : fld _ 24 8 = 167 := fld_fields _ hf 4
  have c1 : fld _ 3 9 = 1 := fld_fields _ hf 1
  have e_g := of_low (x := g) (fld_fields _ hf 0)
  have e_a := of_fld 4096 (lo := 12) (x := a) (fld_fields _ hf 2)
  have e_d := of_fld 262144 (lo := 18) (x := d) (fld_fields _ hf 3)
  generalize fields [(3, g.toNat), (9, 1), (6, a.toNat), (6, d.toNat), (8, 167)] = enc at *
  simp [decodeWord, decodeClassA, c0, c1, e_g, e_a, e_d]
theorem tcontTerminate (d : BitVec 6) (a : BitVec 6) (g : BitVec 3) : Statement (.tcontTerminate d a g) := by
  have hf : Fits [(3, g.toNat), (9, 2), (6, a.toNat), (6, d.toNat), (8, 167)] := ⟨g.isLt, by decide, a.isLt, d.isLt, by decide, trivial⟩
  refine of_fields rfl hf rfl (by simp only [word, put, fields, List.foldl]; omega) ?_
  have c0 : fld _ 24 8 = 167 := fld_fields _ hf 4
  have c1 : fld _ 3 9 = 2 := fld_fields _ hf 1
  have e_g := of_low (x := g) (fld_fields _ hf 0)
  have e_a := of_fld 4096 (lo := 12) (x := a) (fld_fields _ hf 2)
  have e_d := of_fld 262144 (lo := 18) (x := d) (fld_fields _ hf 3)
  generalize fields [(3, g.toNat), (9, 2), (6, a.toNat), (6, d.toNat), (8, 167)] = enc at *
  simp [decodeWord, decodeClassA, c0, c1, e_g, e_a, e_d]
theorem thit (d : BitVec 6) (s : BitVec 1) (g : BitVec 3) : Statement (.thit d s g) := by
  have hf : Fits [(3, g.toNat), (1, s.toNat), (14, 0), (6, d.toNat), (8, 168)] := ⟨g.isLt, s.isLt, by decide, d.isLt, by decide, trivial⟩
  refine of_fields rfl hf rfl (by simp only [word, put, fields, List.foldl]; omega) ?_
  have c0 : fld _ 24 8 = 168 := fld_fields _ hf 4
  have c1 : fld _ 4 14 = 0 := fld_fields _ hf 2
  have e_g := of_low (x := g) (fld_fields _ hf 0)
  have e_s := of_fld 8 (lo := 3) (x := s) (fld_fields _ hf 1)
  have e_d := of_fld 262144 (lo := 18) (x := d) (fld_fields _ hf 3)
  generalize fields [(3, g.toNat), (1, s.toNat), (14, 0), (6, d.toNat), (8, 168)] = enc at *
  simp [decodeWord, decodeClassA, c0, c1, e_g, e_s, e_d]
theorem tabort (g : BitVec 3) : Statement (.tabort g) := by
  have hf : Fits [(3, g.toNat), (21, 0), (8, 169)] := ⟨g.isLt, by decide, by decide, trivial⟩
  refine of_fields rfl hf rfl (by simp only [word, put, fields, List.foldl]; omega) ?_
  have c0 : fld _ 24 8 = 169 := fld_fields _ hf 2
  have c1 : fld _ 3 21 = 0 := fld_fields _ hf 1
  have e_g := of_low (x := g) (fld_fields _ hf 0)
  generalize fields [(3, g.toNat), (21, 0), (8, 169)] = enc at *
  simp [decodeWord, decodeClassA, c0, c1, e_g]
theorem srd (d : BitVec 6) (v : BitVec 1) (s : BitVec 4) (b : BitVec 6) (p : BitVec 3) (g : BitVec 3) : Statement (.srd d v s b p g) := by
  have hf : Fits [(3, g.toNat), (3, p.toNat), (6, b.toNat), (4, s.toNat), (1, v.toNat), (1, 0), (6, d.toNat), (8, 177)] := ⟨g.isLt, p.isLt, b.isLt, s.isLt, v.isLt, by decide, d.isLt, by decide, trivial⟩
  refine of_fields rfl hf rfl (by simp only [word, put, fields, List.foldl]; omega) ?_
  have c0 : fld _ 24 8 = 177 := fld_fields _ hf 7
  have c1 : fld _ 17 1 = 0 := fld_fields _ hf 5
  have e_g := of_low (x := g) (fld_fields _ hf 0)
  have e_p := of_fld 8 (lo := 3) (x := p) (fld_fields _ hf 1)
  have e_b := of_fld 64 (lo := 6) (x := b) (fld_fields _ hf 2)
  have e_s := of_fld 4096 (lo := 12) (x := s) (fld_fields _ hf 3)
  have e_v := of_fld 65536 (lo := 16) (x := v) (fld_fields _ hf 4)
  have e_d := of_fld 262144 (lo := 18) (x := d) (fld_fields _ hf 6)
  generalize fields [(3, g.toNat), (3, p.toNat), (6, b.toNat), (4, s.toNat), (1, v.toNat), (1, 0), (6, d.toNat), (8, 177)] = enc at *
  simp [decodeWord, decodeClassB, c0, c1, e_g, e_p, e_b, e_s, e_v, e_d]
theorem srdt (t : BitVec 4) (s : BitVec 4) (b : BitVec 6) (p : BitVec 3) (g : BitVec 3) : Statement (.srdt t s b p g) := by
  have hf : Fits [(3, g.toNat), (3, p.toNat), (6, b.toNat), (4, s.toNat), (2, 0), (4, t.toNat), (2, 0), (8, 178)] := ⟨g.isLt, p.isLt, b.isLt, s.isLt, by decide, t.isLt, by decide, by decide, trivial⟩
  refine of_fields rfl hf rfl (by simp only [word, put, fields, List.foldl]; omega) ?_
  have c0 : fld _ 24 8 = 178 := fld_fields _ hf 7
  have c1 : fld _ 16 2 = 0 := fld_fields _ hf 4
  have c2 : fld _ 22 2 = 0 := fld_fields _ hf 6
  have e_g := of_low (x := g) (fld_fields _ hf 0)
  have e_p := of_fld 8 (lo := 3) (x := p) (fld_fields _ hf 1)
  have e_b := of_fld 64 (lo := 6) (x := b) (fld_fields _ hf 2)
  have e_s := of_fld 4096 (lo := 12) (x := s) (fld_fields _ hf 3)
  have e_t := of_fld 262144 (lo := 18) (x := t) (fld_fields _ hf 5)
  generalize fields [(3, g.toNat), (3, p.toNat), (6, b.toNat), (4, s.toNat), (2, 0), (4, t.toNat), (2, 0), (8, 178)] = enc at *
  simp [decodeWord, decodeClassB, c0, c1, c2, e_g, e_p, e_b, e_s, e_t]
theorem swr (d : BitVec 6) (v : BitVec 1) (s : BitVec 4) (b : BitVec 6) (g : BitVec 3) : Statement (.swr d v s b g) := by
  have hf : Fits [(3, g.toNat), (3, 0), (6, b.toNat), (4, s.toNat), (1, v.toNat), (1, 0), (6, d.toNat), (8, 179)] := ⟨g.isLt, by decide, b.isLt, s.isLt, v.isLt, by decide, d.isLt, by decide, trivial⟩
  refine of_fields rfl hf rfl (by simp only [word, put, fields, List.foldl]; omega) ?_
  have c0 : fld _ 24 8 = 179 := fld_fields _ hf 7
  have c1 : fld _ 3 3 = 0 := fld_fields _ hf 1
  have c2 : fld _ 17 1 = 0 := fld_fields _ hf 5
  have e_g := of_low (x := g) (fld_fields _ hf 0)
  have e_b := of_fld 64 (lo := 6) (x := b) (fld_fields _ hf 2)
  have e_s := of_fld 4096 (lo := 12) (x := s) (fld_fields _ hf 3)
  have e_v := of_fld 65536 (lo := 16) (x := v) (fld_fields _ hf 4)
  have e_d := of_fld 262144 (lo := 18) (x := d) (fld_fields _ hf 6)
  generalize fields [(3, g.toNat), (3, 0), (6, b.toNat), (4, s.toNat), (1, v.toNat), (1, 0), (6, d.toNat), (8, 179)] = enc at *
  simp [decodeWord, decodeClassB, c0, c1, c2, e_g, e_b, e_s, e_v, e_d]
theorem sinh (s : BitVec 4) (m : BitVec 4) (g : BitVec 3) : Statement (.sinh s m g) := by
  have hf : Fits [(3, g.toNat), (3, 0), (4, m.toNat), (2, 0), (4, s.toNat), (2, 0), (6, 0), (8, 180)] := ⟨g.isLt, by decide, m.isLt, by decide, s.isLt, by decide, by decide, by decide, trivial⟩
  refine of_fields rfl hf rfl (by simp only [word, put, fields, List.foldl]; omega) ?_
  have c0 : fld _ 24 8 = 180 := fld_fields _ hf 7
  have c1 : fld _ 3 3 = 0 := fld_fields _ hf 1
  have c2 : fld _ 10 2 = 0 := fld_fields _ hf 3
  have c3 : fld (fields [(3, g.toNat), (3, 0), (4, m.toNat), (2, 0), (4, s.toNat), (2, 0), (6, 0), (8, 180)]) 16 8 = 0 := by simp only [fld, fields]; omega
  have e_g := of_low (x := g) (fld_fields _ hf 0)
  have e_m := of_fld 64 (lo := 6) (x := m) (fld_fields _ hf 2)
  have e_s := of_fld 4096 (lo := 12) (x := s) (fld_fields _ hf 4)
  generalize fields [(3, g.toNat), (3, 0), (4, m.toNat), (2, 0), (4, s.toNat), (2, 0), (6, 0), (8, 180)] = enc at *
  simp [decodeWord, decodeClassB, c0, c1, c2, c3, e_g, e_m, e_s]
theorem sinhOffset (d : BitVec 6) (s : BitVec 4) (m : BitVec 4) (g : BitVec 3) : Statement (.sinhOffset d s m g) := by
  have hf : Fits [(3, g.toNat), (3, 1), (4, m.toNat), (2, 0), (4, s.toNat), (2, 0), (6, d.toNat), (8, 180)] := ⟨g.isLt, by decide, m.isLt, by decide, s.isLt, by decide, d.isLt, by decide, trivial⟩
  refine of_fields rfl hf rfl (by simp only [word, put, fields, List.foldl]; omega) ?_
  have c0 : fld _ 24 8 = 180 := fld_fields _ hf 7
  have c1 : fld _ 3 3 = 1 := fld_fields _ hf 1
  have c2 : fld _ 10 2 = 0 := fld_fields _ hf 3
  have c4 : fld _ 16 2 = 0 := fld_fields _ hf 5
  have e_g := of_low (x := g) (fld_fields _ hf 0)
  have e_m := of_fld 64 (lo := 6) (x := m) (fld_fields _ hf 2)
  have e_s := of_fld 4096 (lo := 12) (x := s) (fld_fields _ hf 4)
  have e_d := of_fld 262144 (lo := 18) (x := d) (fld_fields _ hf 6)
  generalize fields [(3, g.toNat), (3, 1), (4, m.toNat), (2, 0), (4, s.toNat), (2, 0), (6, d.toNat), (8, 180)] = enc at *
  simp [decodeWord, decodeClassB, c0, c1, c2, c4, e_g, e_m, e_s, e_d]
theorem sts (d : BitVec 6) (s : BitVec 4) (f : BitVec 3) (g : BitVec 3) : Statement (.sts d s f g) := by
  have hf : Fits [(3, g.toNat), (3, f.toNat), (6, 0), (4, s.toNat), (2, 0), (6, d.toNat), (8, 181)] := ⟨g.isLt, f.isLt, by decide, s.isLt, by decide, d.isLt, by decide, trivial⟩
  refine of_fields rfl hf rfl (by simp only [word, put, fields, List.foldl]; omega) ?_
  have c0 : fld _ 24 8 = 181 := fld_fields _ hf 6
  have c1 : fld _ 6 6 = 0 := fld_fields _ hf 2
  have c2 : fld _ 16 2 = 0 := fld_fields _ hf 4
  have e_g := of_low (x := g) (fld_fields _ hf 0)
  have e_f := of_fld 8 (lo := 3) (x := f) (fld_fields _ hf 1)
  have e_s := of_fld 4096 (lo := 12) (x := s) (fld_fields _ hf 3)
  have e_d := of_fld 262144 (lo := 18) (x := d) (fld_fields _ hf 5)
  generalize fields [(3, g.toNat), (3, f.toNat), (6, 0), (4, s.toNat), (2, 0), (6, d.toNat), (8, 181)] = enc at *
  simp [decodeWord, decodeClassB, c0, c1, c2, e_g, e_f, e_s, e_d]
theorem sstat (d : BitVec 6) (s : BitVec 4) (f : BitVec 3) (g : BitVec 3) : Statement (.sstat d s f g) := by
  have hf : Fits [(3, g.toNat), (3, f.toNat), (6, 0), (4, s.toNat), (2, 0), (6, d.toNat), (8, 182)] := ⟨g.isLt, f.isLt, by decide, s.isLt, by decide, d.isLt, by decide, trivial⟩
  refine of_fields rfl hf rfl (by simp only [word, put, fields, List.foldl]; omega) ?_
  have c0 : fld _ 24 8 = 182 := fld_fields _ hf 6
  have c1 : fld _ 6 6 = 0 := fld_fields _ hf 2
  have c2 : fld _ 16 2 = 0 := fld_fields _ hf 4
  have e_g := of_low (x := g) (fld_fields _ hf 0)
  have e_f := of_fld 8 (lo := 3) (x := f) (fld_fields _ hf 1)
  have e_s := of_fld 4096 (lo := 12) (x := s) (fld_fields _ hf 3)
  have e_d := of_fld 262144 (lo := 18) (x := d) (fld_fields _ hf 5)
  generalize fields [(3, g.toNat), (3, f.toNat), (6, 0), (4, s.toNat), (2, 0), (6, d.toNat), (8, 182)] = enc at *
  simp [decodeWord, decodeClassB, c0, c1, c2, e_g, e_f, e_s, e_d]
theorem sflushLine (s : BitVec 4) (g : BitVec 3) : Statement (.sflushLine s g) := by
  have hf : Fits [(3, g.toNat), (9, 0), (4, s.toNat), (8, 0), (8, 183)] := ⟨g.isLt, by decide, s.isLt, by decide, by decide, trivial⟩
  refine of_fields rfl hf rfl (by simp only [word, put, fields, List.foldl]; omega) ?_
  have c0 : fld _ 24 8 = 183 := fld_fields _ hf 4
  have c1 : fld _ 3 9 = 0 := fld_fields _ hf 1
  have c2 : fld _ 16 8 = 0 := fld_fields _ hf 3
  have e_g := of_low (x := g) (fld_fields _ hf 0)
  have e_s := of_fld 4096 (lo := 12) (x := s) (fld_fields _ hf 2)
  generalize fields [(3, g.toNat), (9, 0), (4, s.toNat), (8, 0), (8, 183)] = enc at *
  simp [decodeWord, decodeClassB, c0, c1, c2, e_g, e_s]
theorem sflushFrame (s : BitVec 4) (g : BitVec 3) : Statement (.sflushFrame s g) := by
  have hf : Fits [(3, g.toNat), (9, 1), (4, s.toNat), (8, 0), (8, 183)] := ⟨g.isLt, by decide, s.isLt, by decide, by decide, trivial⟩
  refine of_fields rfl hf rfl (by simp only [word, put, fields, List.foldl]; omega) ?_
  have c0 : fld _ 24 8 = 183 := fld_fields _ hf 4
  have c1 : fld _ 3 9 = 1 := fld_fields _ hf 1
  have c2 : fld _ 16 8 = 0 := fld_fields _ hf 3
  have e_g := of_low (x := g) (fld_fields _ hf 0)
  have e_s := of_fld 4096 (lo := 12) (x := s) (fld_fields _ hf 2)
  generalize fields [(3, g.toNat), (9, 1), (4, s.toNat), (8, 0), (8, 183)] = enc at *
  simp [decodeWord, decodeClassB, c0, c1, c2, e_g, e_s]
theorem time (d : BitVec 6) : Statement (.time d) := by
  have hf : Fits [(12, 0), (6, d.toNat), (6, 0), (8, 184)] := ⟨by decide, d.isLt, by decide, by decide, trivial⟩
  refine of_fields rfl hf rfl (by simp only [word, put, fields, List.foldl]; omega) ?_
  have c0 : fld _ 24 8 = 184 := fld_fields _ hf 3
  have c1 : fld _ 0 12 = 0 := fld_fields _ hf 0
  have c2 : fld _ 18 6 = 0 := fld_fields _ hf 2
  have e_d := of_fld 4096 (lo := 12) (x := d) (fld_fields _ hf 1)
  generalize fields [(12, 0), (6, d.toNat), (6, 0), (8, 184)] = enc at *
  simp [decodeWord, decodeClassB, c0, c1, c2, e_d]
theorem sleepu (a : BitVec 6) : Statement (.sleepu a) := by
  have hf : Fits [(12, 0), (6, a.toNat), (6, 0), (8, 185)] := ⟨by decide, a.isLt, by decide, by decide, trivial⟩
  refine of_fields rfl hf rfl (by simp only [word, put, fields, List.foldl]; omega) ?_
  have c0 : fld _ 24 8 = 185 := fld_fields _ hf 3
  have c1 : fld _ 0 12 = 0 := fld_fields _ hf 0
  have c2 : fld _ 18 6 = 0 := fld_fields _ hf 2
  have e_a := of_fld 4096 (lo := 12) (x := a) (fld_fields _ hf 1)
  generalize fields [(12, 0), (6, a.toNat), (6, 0), (8, 185)] = enc at *
  simp [decodeWord, decodeClassB, c0, c1, c2, e_a]
theorem launch (p : BitVec 3) (a : BitVec 6) (g : BitVec 3) : Statement (.launch p a g) := by
  have hf : Fits [(3, g.toNat), (9, 0), (6, a.toNat), (3, p.toNat), (3, 0), (8, 193)] := ⟨g.isLt, by decide, a.isLt, p.isLt, by decide, by decide, trivial⟩
  refine of_fields rfl hf rfl (by simp only [word, put, fields, List.foldl]; omega) ?_
  have c0 : fld _ 24 8 = 193 := fld_fields _ hf 5
  have c1 : fld _ 3 9 = 0 := fld_fields _ hf 1
  have c2 : fld _ 21 3 = 0 := fld_fields _ hf 4
  have e_g := of_low (x := g) (fld_fields _ hf 0)
  have e_a := of_fld 4096 (lo := 12) (x := a) (fld_fields _ hf 2)
  have e_p := of_fld 262144 (lo := 18) (x := p) (fld_fields _ hf 3)
  generalize fields [(3, g.toNat), (9, 0), (6, a.toNat), (3, p.toNat), (3, 0), (8, 193)] = enc at *
  simp [decodeWord, decodeClassC, c0, c1, c2, e_g, e_a, e_p]
theorem launchTail (p : BitVec 3) (a : BitVec 6) (g : BitVec 3) : Statement (.launchTail p a g) := by
  have hf : Fits [(3, g.toNat), (9, 1), (6, a.toNat), (3, p.toNat), (3, 0), (8, 193)] := ⟨g.isLt, by decide, a.isLt, p.isLt, by decide, by decide, trivial⟩
  refine of_fields rfl hf rfl (by simp only [word, put, fields, List.foldl]; omega) ?_
  have c0 : fld _ 24 8 = 193 := fld_fields _ hf 5
  have c1 : fld _ 3 9 = 1 := fld_fields _ hf 1
  have c2 : fld _ 21 3 = 0 := fld_fields _ hf 4
  have e_g := of_low (x := g) (fld_fields _ hf 0)
  have e_a := of_fld 4096 (lo := 12) (x := a) (fld_fields _ hf 2)
  have e_p := of_fld 262144 (lo := 18) (x := p) (fld_fields _ hf 3)
  generalize fields [(3, g.toNat), (9, 1), (6, a.toNat), (3, p.toNat), (3, 0), (8, 193)] = enc at *
  simp [decodeWord, decodeClassC, c0, c1, c2, e_g, e_a, e_p]
theorem publish (w : BitVec 3) : Statement (.publish w) := by
  have hf : Fits [(3, w.toNat), (21, 0), (8, 194)] := ⟨w.isLt, by decide, by decide, trivial⟩
  refine of_fields rfl hf rfl (by simp only [word, put, fields, List.foldl]; omega) ?_
  have c0 : fld _ 24 8 = 194 := fld_fields _ hf 2
  have c1 : fld _ 3 21 = 0 := fld_fields _ hf 1
  have e_w := of_low (x := w) (fld_fields _ hf 0)
  generalize fields [(3, w.toNat), (21, 0), (8, 194)] = enc at *
  simp [decodeWord, decodeClassC, c0, c1, e_w]
theorem cprog (p : BitVec 3) (a : BitVec 6) (g : BitVec 3) : Statement (.cprog p a g) := by
  have hf : Fits [(3, g.toNat), (9, 0), (6, a.toNat), (3, p.toNat), (3, 0), (8, 195)] := ⟨g.isLt, by decide, a.isLt, p.isLt, by decide, by decide, trivial⟩
  refine of_fields rfl hf rfl (by simp only [word, put, fields, List.foldl]; omega) ?_
  have c0 : fld _ 24 8 = 195 := fld_fields _ hf 5
  have c1 : fld _ 3 9 = 0 := fld_fields _ hf 1
  have c2 : fld _ 21 3 = 0 := fld_fields _ hf 4
  have e_g := of_low (x := g) (fld_fields _ hf 0)
  have e_a := of_fld 4096 (lo := 12) (x := a) (fld_fields _ hf 2)
  have e_p := of_fld 262144 (lo := 18) (x := p) (fld_fields _ hf 3)
  generalize fields [(3, g.toNat), (9, 0), (6, a.toNat), (3, p.toNat), (3, 0), (8, 195)] = enc at *
  simp [decodeWord, decodeClassC, c0, c1, c2, e_g, e_a, e_p]
theorem ctrigArm (p : BitVec 3) (a : BitVec 6) (s : BitVec 5) (g : BitVec 3) : Statement (.ctrigArm p a s g) := by
  have hf : Fits [(3, g.toNat), (3, 0), (5, s.toNat), (1, 0), (6, a.toNat), (3, p.toNat), (3, 0), (8, 196)] := ⟨g.isLt, by decide, s.isLt, by decide, a.isLt, p.isLt, by decide, by decide, trivial⟩
  refine of_fields rfl hf rfl (by simp only [word, put, fields, List.foldl]; omega) ?_
  have c0 : fld _ 24 8 = 196 := fld_fields _ hf 7
  have c1 : fld _ 3 3 = 0 := fld_fields _ hf 1
  have c2 : fld _ 11 1 = 0 := fld_fields _ hf 3
  have c3 : fld _ 21 3 = 0 := fld_fields _ hf 6
  have e_g := of_low (x := g) (fld_fields _ hf 0)
  have e_s := of_fld 64 (lo := 6) (x := s) (fld_fields _ hf 2)
  have e_a := of_fld 4096 (lo := 12) (x := a) (fld_fields _ hf 4)
  have e_p := of_fld 262144 (lo := 18) (x := p) (fld_fields _ hf 5)
  generalize fields [(3, g.toNat), (3, 0), (5, s.toNat), (1, 0), (6, a.toNat), (3, p.toNat), (3, 0), (8, 196)] = enc at *
  simp [decodeWord, decodeClassC, c0, c1, c2, c3, e_g, e_s, e_a, e_p]
theorem ctrigDisarm (p : BitVec 3) (s : BitVec 5) (g : BitVec 3) : Statement (.ctrigDisarm p s g) := by
  have hf : Fits [(3, g.toNat), (3, 1), (5, s.toNat), (1, 0), (6, 0), (3, p.toNat), (3, 0), (8, 196)] := ⟨g.isLt, by decide, s.isLt, by decide, by decide, p.isLt, by decide, by decide, trivial⟩
  refine of_fields rfl hf rfl (by simp only [word, put, fields, List.foldl]; omega) ?_
  have c0 : fld _ 24 8 = 196 := fld_fields _ hf 7
  have c1 : fld _ 3 3 = 1 := fld_fields _ hf 1
  have c2 : fld _ 11 1 = 0 := fld_fields _ hf 3
  have c3 : fld _ 21 3 = 0 := fld_fields _ hf 6
  have c4 : fld (fields [(3, g.toNat), (3, 1), (5, s.toNat), (1, 0), (6, 0), (3, p.toNat), (3, 0), (8, 196)]) 11 7 = 0 := by simp only [fld, fields]; omega
  have e_g := of_low (x := g) (fld_fields _ hf 0)
  have e_s := of_fld 64 (lo := 6) (x := s) (fld_fields _ hf 2)
  have e_p := of_fld 262144 (lo := 18) (x := p) (fld_fields _ hf 5)
  generalize fields [(3, g.toNat), (3, 1), (5, s.toNat), (1, 0), (6, 0), (3, p.toNat), (3, 0), (8, 196)] = enc at *
  simp [decodeWord, decodeClassC, c0, c1, c2, c3, c4, e_g, e_s, e_p]
theorem cctrAdd (d : BitVec 6) (a : BitVec 6) (k : BitVec 3) (g : BitVec 3) : Statement (.cctrAdd d a k g) := by
  have hf : Fits [(3, g.toNat), (3, 0), (3, k.toNat), (3, 0), (6, a.toNat), (6, d.toNat), (8, 197)] := ⟨g.isLt, by decide, k.isLt, by decide, a.isLt, d.isLt, by decide, trivial⟩
  refine of_fields rfl hf rfl (by simp only [word, put, fields, List.foldl]; omega) ?_
  have c0 : fld _ 24 8 = 197 := fld_fields _ hf 6
  have c1 : fld _ 3 3 = 0 := fld_fields _ hf 1
  have c2 : fld _ 9 3 = 0 := fld_fields _ hf 3
  have e_g := of_low (x := g) (fld_fields _ hf 0)
  have e_k := of_fld 64 (lo := 6) (x := k) (fld_fields _ hf 2)
  have e_a := of_fld 4096 (lo := 12) (x := a) (fld_fields _ hf 4)
  have e_d := of_fld 262144 (lo := 18) (x := d) (fld_fields _ hf 5)
  generalize fields [(3, g.toNat), (3, 0), (3, k.toNat), (3, 0), (6, a.toNat), (6, d.toNat), (8, 197)] = enc at *
  simp [decodeWord, decodeClassC, c0, c1, c2, e_g, e_k, e_a, e_d]
theorem cctrSet (d : BitVec 6) (a : BitVec 6) (k : BitVec 3) (g : BitVec 3) : Statement (.cctrSet d a k g) := by
  have hf : Fits [(3, g.toNat), (3, 1), (3, k.toNat), (3, 0), (6, a.toNat), (6, d.toNat), (8, 197)] := ⟨g.isLt, by decide, k.isLt, by decide, a.isLt, d.isLt, by decide, trivial⟩
  refine of_fields rfl hf rfl (by simp only [word, put, fields, List.foldl]; omega) ?_
  have c0 : fld _ 24 8 = 197 := fld_fields _ hf 6
  have c1 : fld _ 3 3 = 1 := fld_fields _ hf 1
  have c2 : fld _ 9 3 = 0 := fld_fields _ hf 3
  have e_g := of_low (x := g) (fld_fields _ hf 0)
  have e_k := of_fld 64 (lo := 6) (x := k) (fld_fields _ hf 2)
  have e_a := of_fld 4096 (lo := 12) (x := a) (fld_fields _ hf 4)
  have e_d := of_fld 262144 (lo := 18) (x := d) (fld_fields _ hf 5)
  generalize fields [(3, g.toNat), (3, 1), (3, k.toNat), (3, 0), (6, a.toNat), (6, d.toNat), (8, 197)] = enc at *
  simp [decodeWord, decodeClassC, c0, c1, c2, e_g, e_k, e_a, e_d]
theorem cctrRead (d : BitVec 6) (k : BitVec 3) (g : BitVec 3) : Statement (.cctrRead d k g) := by
  have hf : Fits [(3, g.toNat), (3, 2), (3, k.toNat), (3, 0), (6, 0), (6, d.toNat), (8, 197)] := ⟨g.isLt, by decide, k.isLt, by decide, by decide, d.isLt, by decide, trivial⟩
  refine of_fields rfl hf rfl (by simp only [word, put, fields, List.foldl]; omega) ?_
  have c0 : fld _ 24 8 = 197 := fld_fields _ hf 6
  have c1 : fld _ 3 3 = 2 := fld_fields _ hf 1
  have c2 : fld _ 9 3 = 0 := fld_fields _ hf 3
  have c3 : fld (fields [(3, g.toNat), (3, 2), (3, k.toNat), (3, 0), (6, 0), (6, d.toNat), (8, 197)]) 9 9 = 0 := by simp only [fld, fields]; omega
  have e_g := of_low (x := g) (fld_fields _ hf 0)
  have e_k := of_fld 64 (lo := 6) (x := k) (fld_fields _ hf 2)
  have e_d := of_fld 262144 (lo := 18) (x := d) (fld_fields _ hf 5)
  generalize fields [(3, g.toNat), (3, 2), (3, k.toNat), (3, 0), (6, 0), (6, d.toNat), (8, 197)] = enc at *
  simp [decodeWord, decodeClassC, c0, c1, c2, c3, e_g, e_k, e_d]
theorem tbar (d : BitVec 6) (a : BitVec 6) (s : BitVec 4) (x : BitVec 3) (g : BitVec 3) : Statement (.tbar d a s x g) := by
  have hf : Fits [(3, g.toNat), (3, x.toNat), (4, s.toNat), (2, 0), (6, a.toNat), (6, d.toNat), (8, 198)] := ⟨g.isLt, x.isLt, s.isLt, by decide, a.isLt, d.isLt, by decide, trivial⟩
  refine of_fields rfl hf rfl (by simp only [word, put, fields, List.foldl]; omega) ?_
  have c0 : fld _ 24 8 = 198 := fld_fields _ hf 6
  have c1 : fld _ 10 2 = 0 := fld_fields _ hf 3
  have e_g := of_low (x := g) (fld_fields _ hf 0)
  have e_x := of_fld 8 (lo := 3) (x := x) (fld_fields _ hf 1)
  have e_s := of_fld 64 (lo := 6) (x := s) (fld_fields _ hf 2)
  have e_a := of_fld 4096 (lo := 12) (x := a) (fld_fields _ hf 4)
  have e_d := of_fld 262144 (lo := 18) (x := d) (fld_fields _ hf 5)
  generalize fields [(3, g.toNat), (3, x.toNat), (4, s.toNat), (2, 0), (6, a.toNat), (6, d.toNat), (8, 198)] = enc at *
  simp [decodeWord, decodeClassC, c0, c1, e_g, e_x, e_s, e_a, e_d]
theorem idemb : Statement .idemb := by
  have hf : Fits [(24, 0), (8, 209)] := ⟨by decide, by decide, trivial⟩
  refine of_fields rfl hf rfl rfl ?_
  have c0 : fld _ 24 8 = 209 := fld_fields _ hf 1
  have c1 : fld _ 0 24 = 0 := fld_fields _ hf 0
  generalize fields [(24, 0), (8, 209)] = enc at *
  simp [decodeWord, decodeClassD, c0, c1]
theorem ideme : Statement .ideme := by
  have hf : Fits [(24, 0), (8, 210)] := ⟨by decide, by decide, trivial⟩
  refine of_fields rfl hf rfl rfl ?_
  have c0 : fld _ 24 8 = 210 := fld_fields _ hf 1
  have c1 : fld _ 0 24 = 0 := fld_fields _ hf 0
  generalize fields [(24, 0), (8, 210)] = enc at *
  simp [decodeWord, decodeClassD, c0, c1]
theorem tlbw (a : BitVec 6) (l : BitVec 2) : Statement (.tlbw a l) := by
  have hf : Fits [(2, l.toNat), (10, 0), (6, a.toNat), (6, 0), (8, 211)] := ⟨l.isLt, by decide, a.isLt, by decide, by decide, trivial⟩
  refine of_fields rfl hf rfl (by simp only [word, put, fields, List.foldl]; omega) ?_
  have c0 : fld _ 24 8 = 211 := fld_fields _ hf 4
  have c1 : fld _ 2 10 = 0 := fld_fields _ hf 1
  have c2 : fld _ 18 6 = 0 := fld_fields _ hf 3
  have e_l := of_low (x := l) (fld_fields _ hf 0)
  have e_a := of_fld 4096 (lo := 12) (x := a) (fld_fields _ hf 2)
  generalize fields [(2, l.toNat), (10, 0), (6, a.toNat), (6, 0), (8, 211)] = enc at *
  simp [decodeWord, decodeClassD, c0, c1, c2, e_l, e_a]
theorem tlbiVaCore (a : BitVec 6) : Statement (.tlbiVaCore a) := by
  have hf : Fits [(12, 0), (6, a.toNat), (6, 0), (8, 212)] := ⟨by decide, a.isLt, by decide, by decide, trivial⟩
  refine of_fields rfl hf rfl (by simp only [word, put, fields, List.foldl]; omega) ?_
  have c0 : fld _ 24 8 = 212 := fld_fields _ hf 3
  have c1 : fld _ 0 12 = 0 := fld_fields _ hf 0
  have c2 : fld _ 18 6 = 0 := fld_fields _ hf 2
  have e_a := of_fld 4096 (lo := 12) (x := a) (fld_fields _ hf 1)
  generalize fields [(12, 0), (6, a.toNat), (6, 0), (8, 212)] = enc at *
  simp [decodeWord, decodeClassD, c0, c1, c2, e_a]
theorem tlbiVaAll (a : BitVec 6) : Statement (.tlbiVaAll a) := by
  have hf : Fits [(12, 0), (6, a.toNat), (6, 1), (8, 212)] := ⟨by decide, a.isLt, by decide, by decide, trivial⟩
  refine of_fields rfl hf rfl (by simp only [word, put, fields, List.foldl]; omega) ?_
  have c0 : fld _ 24 8 = 212 := fld_fields _ hf 3
  have c1 : fld _ 0 12 = 0 := fld_fields _ hf 0
  have c2 : fld _ 18 6 = 1 := fld_fields _ hf 2
  have e_a := of_fld 4096 (lo := 12) (x := a) (fld_fields _ hf 1)
  generalize fields [(12, 0), (6, a.toNat), (6, 1), (8, 212)] = enc at *
  simp [decodeWord, decodeClassD, c0, c1, c2, e_a]
theorem tlbiCtxCore : Statement .tlbiCtxCore := by
  have hf : Fits [(12, 0), (6, 0), (6, 2), (8, 212)] := ⟨by decide, by decide, by decide, by decide, trivial⟩
  refine of_fields rfl hf rfl rfl ?_
  have c0 : fld _ 24 8 = 212 := fld_fields _ hf 3
  have c1 : fld _ 0 12 = 0 := fld_fields _ hf 0
  have c2 : fld _ 18 6 = 2 := fld_fields _ hf 2
  have c3 : fld (fields [(12, 0), (6, 0), (6, 2), (8, 212)]) 0 24 = 524288 := rfl
  generalize fields [(12, 0), (6, 0), (6, 2), (8, 212)] = enc at *
  simp [decodeWord, decodeClassD, c0, c1, c2, c3]
theorem tlbiCtxAll : Statement .tlbiCtxAll := by
  have hf : Fits [(12, 0), (6, 0), (6, 3), (8, 212)] := ⟨by decide, by decide, by decide, by decide, trivial⟩
  refine of_fields rfl hf rfl rfl ?_
  have c0 : fld _ 24 8 = 212 := fld_fields _ hf 3
  have c1 : fld _ 0 12 = 0 := fld_fields _ hf 0
  have c2 : fld _ 18 6 = 3 := fld_fields _ hf 2
  have c3 : fld (fields [(12, 0), (6, 0), (6, 3), (8, 212)]) 0 24 = 786432 := rfl
  generalize fields [(12, 0), (6, 0), (6, 3), (8, 212)] = enc at *
  simp [decodeWord, decodeClassD, c0, c1, c2, c3]
theorem lpiCore : Statement .lpiCore := by
  have hf : Fits [(24, 0), (8, 213)] := ⟨by decide, by decide, trivial⟩
  refine of_fields rfl hf rfl rfl ?_
  have c0 : fld _ 24 8 = 213 := fld_fields _ hf 1
  have c1 : fld _ 0 24 = 0 := fld_fields _ hf 0
  generalize fields [(24, 0), (8, 213)] = enc at *
  simp [decodeWord, decodeClassD, c0, c1]
theorem lpiAll : Statement .lpiAll := by
  have hf : Fits [(24, 262144), (8, 213)] := ⟨by decide, by decide, trivial⟩
  refine of_fields rfl hf rfl rfl ?_
  have c0 : fld _ 24 8 = 213 := fld_fields _ hf 1
  have c1 : fld _ 0 24 = 262144 := fld_fields _ hf 0
  generalize fields [(24, 262144), (8, 213)] = enc at *
  simp [decodeWord, decodeClassD, c0, c1]
theorem walkd : Statement .walkd := by
  have hf : Fits [(24, 0), (8, 214)] := ⟨by decide, by decide, trivial⟩
  refine of_fields rfl hf rfl rfl ?_
  have c0 : fld _ 24 8 = 214 := fld_fields _ hf 1
  have c1 : fld _ 0 24 = 0 := fld_fields _ hf 0
  generalize fields [(24, 0), (8, 214)] = enc at *
  simp [decodeWord, decodeClassD, c0, c1]
theorem trap (c : BitVec 12) : Statement (.trap c) := by
  have hf : Fits [(12, c.toNat), (12, 0), (8, 215)] := ⟨c.isLt, by decide, by decide, trivial⟩
  refine of_fields rfl hf rfl (by simp only [word, put, fields, List.foldl]; omega) ?_
  have c0 : fld _ 24 8 = 215 := fld_fields _ hf 2
  have c1 : fld _ 12 12 = 0 := fld_fields _ hf 1
  have e_c := of_low (x := c) (fld_fields _ hf 0)
  generalize fields [(12, c.toNat), (12, 0), (8, 215)] = enc at *
  simp [decodeWord, decodeClassD, c0, c1, e_c]
theorem rtt : Statement .rtt := by
  have hf : Fits [(24, 0), (8, 216)] := ⟨by decide, by decide, trivial⟩
  refine of_fields rfl hf rfl rfl ?_
  have c0 : fld _ 24 8 = 216 := fld_fields _ hf 1
  have c1 : fld _ 0 24 = 0 := fld_fields _ hf 0
  generalize fields [(24, 0), (8, 216)] = enc at *
  simp [decodeWord, decodeClassD, c0, c1]
theorem snap (t : BitVec 12) : Statement (.snap t) := by
  have hf : Fits [(12, t.toNat), (12, 0), (8, 217)] := ⟨t.isLt, by decide, by decide, trivial⟩
  refine of_fields rfl hf rfl (by simp only [word, put, fields, List.foldl]; omega) ?_
  have c0 : fld _ 24 8 = 217 := fld_fields _ hf 2
  have c1 : fld _ 12 12 = 0 := fld_fields _ hf 1
  have e_t := of_low (x := t) (fld_fields _ hf 0)
  generalize fields [(12, t.toNat), (12, 0), (8, 217)] = enc at *
  simp [decodeWord, decodeClassD, c0, c1, e_t]
theorem brk (c : BitVec 12) : Statement (.brk c) := by
  have hf : Fits [(12, c.toNat), (12, 0), (8, 218)] := ⟨c.isLt, by decide, by decide, trivial⟩
  refine of_fields rfl hf rfl (by simp only [word, put, fields, List.foldl]; omega) ?_
  have c0 : fld _ 24 8 = 218 := fld_fields _ hf 2
  have c1 : fld _ 12 12 = 0 := fld_fields _ hf 1
  have e_c := of_low (x := c) (fld_fields _ hf 0)
  generalize fields [(12, c.toNat), (12, 0), (8, 218)] = enc at *
  simp [decodeWord, decodeClassD, c0, c1, e_c]
theorem hintImm (i : BitVec 24) : Statement (.hintImm i) := by
  have hf : Fits [(24, i.toNat), (8, 225)] := ⟨i.isLt, by decide, trivial⟩
  refine of_fields rfl hf rfl (by simp only [word, put, fields, List.foldl]; omega) ?_
  have c0 : fld _ 24 8 = 225 := fld_fields _ hf 1
  have e_i := of_low (x := i) (fld_fields _ hf 0)
  generalize fields [(24, i.toNat), (8, 225)] = enc at *
  simp [decodeWord, decodeClassE, c0, e_i]
theorem hintPref (a : BitVec 6) (b : BitVec 6) (c : BitVec 6) (v : BitVec 3) : Statement (.hintPref a b c v) := by
  have hf : Fits [(3, 0), (3, v.toNat), (6, c.toNat), (6, b.toNat), (6, a.toNat), (8, 226)] := ⟨by decide, v.isLt, c.isLt, b.isLt, a.isLt, by decide, trivial⟩
  refine of_fields rfl hf rfl (by simp only [word, put, fields, List.foldl]; omega) ?_
  have c0 : fld _ 24 8 = 226 := fld_fields _ hf 5
  have c1 : fld _ 0 3 = 0 := fld_fields _ hf 0
  have e_v := of_fld 8 (lo := 3) (x := v) (fld_fields _ hf 1)
  have e_c := of_fld 64 (lo := 6) (x := c) (fld_fields _ hf 2)
  have e_b := of_fld 4096 (lo := 12) (x := b) (fld_fields _ hf 3)
  have e_a := of_fld 262144 (lo := 18) (x := a) (fld_fields _ hf 4)
  generalize fields [(3, 0), (3, v.toNat), (6, c.toNat), (6, b.toNat), (6, a.toNat), (8, 226)] = enc at *
  simp [decodeWord, decodeClassE, c0, c1, e_v, e_c, e_b, e_a]
theorem hintRnd (m : BitVec 3) (v : BitVec 1) (s : BitVec 1) (q : BitVec 1) : Statement (.hintRnd m v s q) := by
  have hf : Fits [(1, q.toNat), (1, s.toNat), (1, v.toNat), (3, m.toNat), (18, 0), (8, 227)] := ⟨q.isLt, s.isLt, v.isLt, m.isLt, by decide, by decide, trivial⟩
  refine of_fields rfl hf rfl (by simp only [word, put, fields, List.foldl]; omega) ?_
  have c0 : fld _ 24 8 = 227 := fld_fields _ hf 5
  have c1 : fld _ 6 18 = 0 := fld_fields _ hf 4
  have e_q := of_low (x := q) (fld_fields _ hf 0)
  have e_s := of_fld 2 (lo := 1) (x := s) (fld_fields _ hf 1)
  have e_v := of_fld 4 (lo := 2) (x := v) (fld_fields _ hf 2)
  have e_m := of_fld 8 (lo := 3) (x := m) (fld_fields _ hf 3)
  generalize fields [(1, q.toNat), (1, s.toNat), (1, v.toNat), (3, m.toNat), (18, 0), (8, 227)] = enc at *
  simp [decodeWord, decodeClassE, c0, c1, e_q, e_s, e_v, e_m]
theorem hintSched (s : BitVec 4) (r : BitVec 3) (y : BitVec 1) : Statement (.hintSched s r y) := by
  have hf : Fits [(16, 0), (1, y.toNat), (3, r.toNat), (4, s.toNat), (8, 228)] := ⟨by decide, y.isLt, r.isLt, s.isLt, by decide, trivial⟩
  refine of_fields rfl hf rfl (by simp only [word, put, fields, List.foldl]; omega) ?_
  have c0 : fld _ 24 8 = 228 := fld_fields _ hf 4
  have c1 : fld _ 0 16 = 0 := fld_fields _ hf 0
  have e_y := of_fld 65536 (lo := 16) (x := y) (fld_fields _ hf 1)
  have e_r := of_fld 131072 (lo := 17) (x := r) (fld_fields _ hf 2)
  have e_s := of_fld 1048576 (lo := 20) (x := s) (fld_fields _ hf 3)
  generalize fields [(16, 0), (1, y.toNat), (3, r.toNat), (4, s.toNat), (8, 228)] = enc at *
  simp [decodeWord, decodeClassE, c0, c1, e_y, e_r, e_s]
theorem rep (n : BitVec 6) (d : BitVec 3) (a : BitVec 3) (b : BitVec 3) (o : BitVec 3) : Statement (.rep n d a b o) := by
  have hf : Fits [(6, 0), (3, o.toNat), (3, b.toNat), (3, a.toNat), (3, d.toNat), (6, n.toNat), (8, 229)] := ⟨by decide, o.isLt, b.isLt, a.isLt, d.isLt, n.isLt, by decide, trivial⟩
  refine of_fields rfl hf rfl (by simp only [word, put, fields, List.foldl]; omega) ?_
  have c0 : fld _ 24 8 = 229 := fld_fields _ hf 6
  have c1 : fld _ 0 6 = 0 := fld_fields _ hf 0
  have e_o := of_fld 64 (lo := 6) (x := o) (fld_fields _ hf 1)
  have e_b := of_fld 512 (lo := 9) (x := b) (fld_fields _ hf 2)
  have e_a := of_fld 4096 (lo := 12) (x := a) (fld_fields _ hf 3)
  have e_d := of_fld 32768 (lo := 15) (x := d) (fld_fields _ hf 4)
  have e_n := of_fld 262144 (lo := 18) (x := n) (fld_fields _ hf 5)
  generalize fields [(6, 0), (3, o.toNat), (3, b.toNat), (3, a.toNat), (3, d.toNat), (6, n.toNat), (8, 229)] = enc at *
  simp [decodeWord, decodeClassE, c0, c1, e_o, e_b, e_a, e_d, e_n]
theorem loadValueArrival (crew strand op : Nat) : Statement (.loadValueArrival crew strand op) := of_event rfl
theorem storeAcknowledge (crew strand op : Nat) : Statement (.storeAcknowledge crew strand op) := of_event rfl
theorem copyCompletion (crew strand op : Nat) : Statement (.copyCompletion crew strand op) := of_event rfl
theorem swageOperationCompletion (crew strand op : Nat) : Statement (.swageOperationCompletion crew strand op) := of_event rfl
theorem fieldRequestCompletion (crew strand op : Nat) : Statement (.fieldRequestCompletion crew strand op) := of_event rfl
theorem traversalStop (crew strand lane : Nat) : Statement (.traversalStop crew strand lane) := of_event rfl
theorem streamOperationCompletion (crew strand op : Nat) : Statement (.streamOperationCompletion crew strand op) := of_event rfl
theorem rgrowGrant (core : Nat) : Statement (.rgrowGrant core) := of_event rfl
theorem strandEnd (crew strand : Nat) : Statement (.strandEnd crew strand) := of_event rfl
theorem fairnessRotation (crew strand : Nat) : Statement (.fairnessRotation crew strand) := of_event rfl
theorem activeSetRotation (crew strand : Nat) : Statement (.activeSetRotation crew strand) := of_event rfl
theorem sleepExpiry (crew strand : Nat) : Statement (.sleepExpiry crew strand) := of_event rfl
theorem sleepuExpiry (crew strand : Nat) : Statement (.sleepuExpiry crew strand) := of_event rfl
theorem waitaDeadline (crew strand lane : Nat) : Statement (.waitaDeadline crew strand lane) := of_event rfl
theorem trapEntry (crew strand : Nat) (cause : BitVec 4) (mask : Mask) (va : VAddr) : Statement (.trapEntry crew strand cause mask va) := of_event rfl
theorem deferredTrap (crew strand : Nat) : Statement (.deferredTrap crew strand) := of_event rfl
theorem watchdogExpiry (seq : Nat) : Statement (.watchdogExpiry seq) := of_event rfl
theorem queueKick (queue off width : Nat) (value : DWord) : Statement (.queueKick queue off width value) := of_event rfl
theorem packetPull : Statement .packetPull := of_event rfl
theorem dependencyMet (queue : Nat) : Statement (.dependencyMet queue) := of_event rfl
theorem earliestReached (seq : Nat) : Statement (.earliestReached seq) := of_event rfl
theorem heapDeadlineExpiry (seq : Nat) : Statement (.heapDeadlineExpiry seq) := of_event rfl
theorem placeUnit : Statement .placeUnit := of_event rfl
theorem launchDeadlineCut (seq : Nat) : Statement (.launchDeadlineCut seq) := of_event rfl
theorem timeSliceTick : Statement .timeSliceTick := of_event rfl
theorem gangQuench (seq gang : Nat) : Statement (.gangQuench seq gang) := of_event rfl
theorem gangSave (seq gang : Nat) : Statement (.gangSave seq gang) := of_event rfl
theorem restoreOnRelease : Statement .restoreOnRelease := of_event rfl
theorem launchCompletion (seq : Nat) : Statement (.launchCompletion seq) := of_event rfl
theorem cxassistWrite (ctx : Nat) (value : Word) : Statement (.cxassistWrite ctx value) := of_event rfl
theorem saveAreaWrite (ctx off : Nat) (value : DWord) : Statement (.saveAreaWrite ctx off value) := of_event rfl
theorem translationRegisterWrite (ctx off : Nat) (value : DWord) : Statement (.translationRegisterWrite ctx off value) := of_event rfl
theorem contextReset (ctx : Nat) : Statement (.contextReset ctx) := of_event rfl
theorem queueBindingWrite (queue off : Nat) (value : DWord) : Statement (.queueBindingWrite queue off value) := of_event rfl
theorem walkStart (core ctx : Nat) (va : VAddr) (kind : BitVec 5) : Statement (.walkStart core ctx va kind) := of_event rfl
theorem hostFill (ctx : Nat) (value : Word) : Statement (.hostFill ctx value) := of_event rfl
theorem hostWalkEnd (ctx : Nat) (value : Word) : Statement (.hostWalkEnd ctx value) := of_event rfl
theorem resvaWrite (ctx : Nat) (value : DWord) : Statement (.resvaWrite ctx value) := of_event rfl
theorem pageMigration (ctx : Nat) (va : VAddr) : Statement (.pageMigration ctx va) := of_event rfl
theorem hostWrite (pa : Nat) (data : List Byte) (atomic : Bool) : Statement (.hostWrite pa data atomic) := of_event rfl
theorem hostRead (pa count : Nat) : Statement (.hostRead pa count) := of_event rfl
theorem windowRegisterWrite (ctx win off : Nat) (value : DWord) : Statement (.windowRegisterWrite ctx win off value) := of_event rfl
theorem publicationServe (ctx win : Nat) : Statement (.publicationServe ctx win) := of_event rfl
theorem publicationComplete (ctx win : Nat) : Statement (.publicationComplete ctx win) := of_event rfl
theorem loaderGo (ctx : Nat) : Statement (.loaderGo ctx) := of_event rfl
theorem loaderDone (ctx : Nat) : Statement (.loaderDone ctx) := of_event rfl
theorem portctlWrite (port : Nat) (value : Word) : Statement (.portctlWrite port value) := of_event rfl
theorem ptpctlWrite (value : DWord) : Statement (.ptpctlWrite value) := of_event rfl
theorem sessionOpen (session : Nat) (value : Word) : Statement (.sessionOpen session value) := of_event rfl
theorem sessionClose (session : Nat) : Statement (.sessionClose session) := of_event rfl
theorem arpRequest (lport : Nat) (target senderIp : Word) (senderMac : BitVec 48) : Statement (.arpRequest lport target senderIp senderMac) := of_event rfl
theorem ptpEventMessage (lport : Nat) (msg : PtpMsg) : Statement (.ptpEventMessage lport msg) := of_event rfl
theorem ptpMasterLoss : Statement .ptpMasterLoss := of_event rfl
theorem videoPacketReceive (lport : Nat) (pkt : VideoPacket) : Statement (.videoPacketReceive lport pkt) := of_event rfl
theorem opaquePacketReceive (lport : Nat) (pkt : RtpPacket) : Statement (.opaquePacketReceive lport pkt) := of_event rfl
theorem lineClose (session frame line : Nat) : Statement (.lineClose session frame line) := of_event rfl
theorem packetTransmit (session : Nat) : Statement (.packetTransmit session) := of_event rfl
theorem opaqueTransmit (session : Nat) : Statement (.opaqueTransmit session) := of_event rfl
theorem portLinkChange (lport : Nat) (up : Bool) : Statement (.portLinkChange lport up) := of_event rfl
theorem llynadReq (lport : Nat) (hdr : LlyHeader) : Statement (.llynadReq lport hdr) := of_event rfl
theorem llynadGrant (lport : Nat) (hdr : LlyHeader) : Statement (.llynadGrant lport hdr) := of_event rfl
theorem llynadData (lport : Nat) (hdr : LlyHeader) (flits : List Byte) : Statement (.llynadData lport hdr flits) := of_event rfl
theorem llynadAck (lport : Nat) (hdr : LlyHeader) : Statement (.llynadAck lport hdr) := of_event rfl
theorem llynadSig (lport : Nat) (hdr : LlyHeader) : Statement (.llynadSig lport hdr) := of_event rfl
theorem llynadAbt (lport : Nat) (hdr : LlyHeader) : Statement (.llynadAbt lport hdr) := of_event rfl
theorem llynadArrive (lport : Nat) (hdr : LlyHeader) : Statement (.llynadArrive lport hdr) := of_event rfl
theorem llynadCommit (lport : Nat) (hdr : LlyHeader) : Statement (.llynadCommit lport hdr) := of_event rfl
theorem llynadCack (lport : Nat) (hdr : LlyHeader) : Statement (.llynadCack lport hdr) := of_event rfl
theorem llynadResend (peer lport rport : Nat) : Statement (.llynadResend peer lport rport) := of_event rfl
theorem llynadPathRetry (peer lport rport : Nat) : Statement (.llynadPathRetry peer lport rport) := of_event rfl
theorem relayWrite (ctx : Nat) (value : Word) : Statement (.relayWrite ctx value) := of_event rfl
theorem collSend (prog : Nat) : Statement (.collSend prog) := of_event rfl
theorem collRecv (prog : Nat) : Statement (.collRecv prog) := of_event rfl
theorem collRrs (prog : Nat) : Statement (.collRrs prog) := of_event rfl
theorem collCopy (prog : Nat) : Statement (.collCopy prog) := of_event rfl
theorem collWait (prog : Nat) : Statement (.collWait prog) := of_event rfl
theorem collLoop (prog : Nat) : Statement (.collLoop prog) := of_event rfl
theorem collSig (prog : Nat) : Statement (.collSig prog) := of_event rfl
theorem collEnd (prog : Nat) : Statement (.collEnd prog) := of_event rfl
theorem triggerCounterWrite (ctx k : Nat) (value : DWord) : Statement (.triggerCounterWrite ctx k value) := of_event rfl
theorem triggerActionEnd (ctx slot : Nat) : Statement (.triggerActionEnd ctx slot) := of_event rfl
theorem genlockArrive (group : Nat) : Statement (.genlockArrive group) := of_event rfl
theorem genlockCommitInstant (group : Nat) : Statement (.genlockCommitInstant group) := of_event rfl
theorem genlockDecision (group : Nat) : Statement (.genlockDecision group) := of_event rfl
theorem genlockCackCheck (group : Nat) : Statement (.genlockCackCheck group) := of_event rfl
theorem patchgo : Statement .patchgo := of_event rfl
theorem patchVerifyDone : Statement .patchVerifyDone := of_event rfl
theorem nopatch : Statement .nopatch := of_event rfl
theorem timego : Statement .timego := of_event rfl
theorem svnburn : Statement .svnburn := of_event rfl
theorem attgo : Statement .attgo := of_event rfl
theorem attestationDone : Statement .attestationDone := of_event rfl
theorem softcoreWrite (value : DWord) : Statement (.softcoreWrite value) := of_event rfl
theorem coreRetirementDone (core : Nat) : Statement (.coreRetirementDone core) := of_event rfl
theorem softchanWrite (value : BitVec 16) : Statement (.softchanWrite value) := of_event rfl
theorem softportWrite (value : BitVec 4) : Statement (.softportWrite value) := of_event rfl
theorem rcandRead : Statement .rcandRead := of_event rfl
theorem retwWrite (value : DWord) : Statement (.retwWrite value) := of_event rfl
theorem hearthRowRepair (slice row : Nat) : Statement (.hearthRowRepair slice row) := of_event rfl
theorem uncorrectableWriteback (pa : Nat) : Statement (.uncorrectableWriteback pa) := of_event rfl
theorem coreParityError (core : Nat) : Statement (.coreParityError core) := of_event rfl
theorem deviceParityError (addr : DWord) : Statement (.deviceParityError addr) := of_event rfl
theorem snapshotRearm : Statement .snapshotRearm := of_event rfl
theorem snapshotTimeTrigger : Statement .snapshotTimeTrigger := of_event rfl
theorem snapshotPinTrigger : Statement .snapshotPinTrigger := of_event rfl
theorem throttleTick (power : BitVec 16) (temp : BitVec 8) : Statement (.throttleTick power temp) := of_event rfl
theorem thermalTrip : Statement .thermalTrip := of_event rfl
theorem powerGood : Statement .powerGood := of_event rfl
theorem functionLevelReset : Statement .functionLevelReset := of_event rfl
theorem moduleResetPin : Statement .moduleResetPin := of_event rfl
theorem resetStateDone : Statement .resetStateDone := of_event rfl
theorem rominitDone (badCores : DWord) : Statement (.rominitDone badCores) := of_event rfl
theorem hostLinkTrained : Statement .hostLinkTrained := of_event rfl
theorem memtrainDone (badChans : BitVec 16) : Statement (.memtrainDone badChans) := of_event rfl
theorem portsUp (badPorts : BitVec 4) : Statement (.portsUp badPorts) := of_event rfl
theorem registerWrite (off width : Nat) (value : DWord) : Statement (.registerWrite off width value) := of_event rfl
theorem powerDown : Statement .powerDown := of_event rfl
theorem delayReqTransmit : Statement .delayReqTransmit := of_event rfl
theorem peerMemoryAccess (rank pa : Nat) (acc : PeerAccess) : Statement (.peerMemoryAccess rank pa acc) := of_event rfl
theorem svnBurnDone : Statement .svnBurnDone := of_event rfl
theorem triggerOutputPulseEnd : Statement .triggerOutputPulseEnd := of_event rfl

end Sys2Proof.Laws.RoundTrip
end

