-- ==== Sys2Proof/Laws/State.lean ====
section
/-! SUPPORT. What each named update of the state leaves in each field, so that no proof unfolds a record update. -/

namespace Sys2Proof.Machine

/-! ### `State.setCrew` -/

@[simp] theorem State.setCrew_mem (s : State) (c : Crew) : (s.setCrew c).mem = s.mem := rfl
@[simp] theorem State.setCrew_owners (s : State) (c : Crew) : (s.setCrew c).owners = s.owners := rfl
@[simp] theorem State.setCrew_ue (s : State) (c : Crew) : (s.setCrew c).ue = s.ue := rfl
@[simp] theorem State.setCrew_lastCtx (s : State) (c : Crew) : (s.setCrew c).lastCtx = s.lastCtx := rfl
@[simp] theorem State.setCrew_clock (s : State) (c : Crew) : (s.setCrew c).clock = s.clock := rfl
@[simp] theorem State.setCrew_cycle (s : State) (c : Crew) : (s.setCrew c).cycle = s.cycle := rfl
@[simp] theorem State.setCrew_cur (s : State) (c : Crew) : (s.setCrew c).cur = s.cur := rfl
@[simp] theorem State.setCrew_agenda (s : State) (c : Crew) : (s.setCrew c).agenda = s.agenda := rfl
@[simp] theorem State.setCrew_crews (s : State) (c : Crew) : (s.setCrew c).crews = s.crews.map (fun x => if x.id = c.id then c else x) := rfl
@[simp] theorem State.setCrew_cores (s : State) (c : Crew) : (s.setCrew c).cores = s.cores := rfl
@[simp] theorem State.setCrew_launches (s : State) (c : Crew) : (s.setCrew c).launches = s.launches := rfl
@[simp] theorem State.setCrew_queues (s : State) (c : Crew) : (s.setCrew c).queues = s.queues := rfl
@[simp] theorem State.setCrew_bellows (s : State) (c : Crew) : (s.setCrew c).bellows = s.bellows := rfl
@[simp] theorem State.setCrew_ctxs (s : State) (c : Crew) : (s.setCrew c).ctxs = s.ctxs := rfl
@[simp] theorem State.setCrew_sessions (s : State) (c : Crew) : (s.setCrew c).sessions = s.sessions := rfl
@[simp] theorem State.setCrew_ports (s : State) (c : Crew) : (s.setCrew c).ports = s.ports := rfl
@[simp] theorem State.setCrew_ptp (s : State) (c : Crew) : (s.setCrew c).ptp = s.ptp := rfl
@[simp] theorem State.setCrew_lly (s : State) (c : Crew) : (s.setCrew c).lly = s.lly := rfl
@[simp] theorem State.setCrew_progs (s : State) (c : Crew) : (s.setCrew c).progs = s.progs := rfl
@[simp] theorem State.setCrew_groups (s : State) (c : Crew) : (s.setCrew c).groups = s.groups := rfl
@[simp] theorem State.setCrew_mig (s : State) (c : Crew) : (s.setCrew c).mig = s.mig := rfl
@[simp] theorem State.setCrew_dev (s : State) (c : Crew) : (s.setCrew c).dev = s.dev := rfl
@[simp] theorem State.setCrew_hostRd (s : State) (c : Crew) : (s.setCrew c).hostRd = s.hostRd := rfl
@[simp] theorem State.setCrew_out (s : State) (c : Crew) : (s.setCrew c).out = s.out := rfl

/-! ### `State.setCore` -/

@[simp] theorem State.setCore_mem (s : State) (k : Nat) (c : Core) : (s.setCore k c).mem = s.mem := rfl
@[simp] theorem State.setCore_owners (s : State) (k : Nat) (c : Core) : (s.setCore k c).owners = s.owners := rfl
@[simp] theorem State.setCore_ue (s : State) (k : Nat) (c : Core) : (s.setCore k c).ue = s.ue := rfl
@[simp] theorem State.setCore_lastCtx (s : State) (k : Nat) (c : Core) : (s.setCore k c).lastCtx = s.lastCtx := rfl
@[simp] theorem State.setCore_clock (s : State) (k : Nat) (c : Core) : (s.setCore k c).clock = s.clock := rfl
@[simp] theorem State.setCore_cycle (s : State) (k : Nat) (c : Core) : (s.setCore k c).cycle = s.cycle := rfl
@[simp] theorem State.setCore_cur (s : State) (k : Nat) (c : Core) : (s.setCore k c).cur = s.cur := rfl
@[simp] theorem State.setCore_agenda (s : State) (k : Nat) (c : Core) : (s.setCore k c).agenda = s.agenda := rfl
@[simp] theorem State.setCore_crews (s : State) (k : Nat) (c : Core) : (s.setCore k c).crews = s.crews := rfl
@[simp] theorem State.setCore_cores (s : State) (k : Nat) (c : Core) : (s.setCore k c).cores = s.cores.set k c := rfl
@[simp] theorem State.setCore_launches (s : State) (k : Nat) (c : Core) : (s.setCore k c).launches = s.launches := rfl
@[simp] theorem State.setCore_queues (s : State) (k : Nat) (c : Core) : (s.setCore k c).queues = s.queues := rfl
@[simp] theorem State.setCore_bellows (s : State) (k : Nat) (c : Core) : (s.setCore k c).bellows = s.bellows := rfl
@[simp] theorem State.setCore_ctxs (s : State) (k : Nat) (c : Core) : (s.setCore k c).ctxs = s.ctxs := rfl
@[simp] theorem State.setCore_sessions (s : State) (k : Nat) (c : Core) : (s.setCore k c).sessions = s.sessions := rfl
@[simp] theorem State.setCore_ports (s : State) (k : Nat) (c : Core) : (s.setCore k c).ports = s.ports := rfl
@[simp] theorem State.setCore_ptp (s : State) (k : Nat) (c : Core) : (s.setCore k c).ptp = s.ptp := rfl
@[simp] theorem State.setCore_lly (s : State) (k : Nat) (c : Core) : (s.setCore k c).lly = s.lly := rfl
@[simp] theorem State.setCore_progs (s : State) (k : Nat) (c : Core) : (s.setCore k c).progs = s.progs := rfl
@[simp] theorem State.setCore_groups (s : State) (k : Nat) (c : Core) : (s.setCore k c).groups = s.groups := rfl
@[simp] theorem State.setCore_mig (s : State) (k : Nat) (c : Core) : (s.setCore k c).mig = s.mig := rfl
@[simp] theorem State.setCore_dev (s : State) (k : Nat) (c : Core) : (s.setCore k c).dev = s.dev := rfl
@[simp] theorem State.setCore_hostRd (s : State) (k : Nat) (c : Core) : (s.setCore k c).hostRd = s.hostRd := rfl
@[simp] theorem State.setCore_out (s : State) (k : Nat) (c : Core) : (s.setCore k c).out = s.out := rfl

/-! ### `State.modCore` -/

@[simp] theorem State.modCore_mem (s : State) (k : Nat) (f : Core → Core) : (s.modCore k f).mem = s.mem := rfl
@[simp] theorem State.modCore_owners (s : State) (k : Nat) (f : Core → Core) : (s.modCore k f).owners = s.owners := rfl
@[simp] theorem State.modCore_ue (s : State) (k : Nat) (f : Core → Core) : (s.modCore k f).ue = s.ue := rfl
@[simp] theorem State.modCore_lastCtx (s : State) (k : Nat) (f : Core → Core) : (s.modCore k f).lastCtx = s.lastCtx := rfl
@[simp] theorem State.modCore_clock (s : State) (k : Nat) (f : Core → Core) : (s.modCore k f).clock = s.clock := rfl
@[simp] theorem State.modCore_cycle (s : State) (k : Nat) (f : Core → Core) : (s.modCore k f).cycle = s.cycle := rfl
@[simp] theorem State.modCore_cur (s : State) (k : Nat) (f : Core → Core) : (s.modCore k f).cur = s.cur := rfl
@[simp] theorem State.modCore_agenda (s : State) (k : Nat) (f : Core → Core) : (s.modCore k f).agenda = s.agenda := rfl
@[simp] theorem State.modCore_crews (s : State) (k : Nat) (f : Core → Core) : (s.modCore k f).crews = s.crews := rfl
@[simp] theorem State.modCore_cores (s : State) (k : Nat) (f : Core → Core) : (s.modCore k f).cores = s.cores.set k (f (s.core k)) := rfl
@[simp] theorem State.modCore_launches (s : State) (k : Nat) (f : Core → Core) : (s.modCore k f).launches = s.launches := rfl
@[simp] theorem State.modCore_queues (s : State) (k : Nat) (f : Core → Core) : (s.modCore k f).queues = s.queues := rfl
@[simp] theorem State.modCore_bellows (s : State) (k : Nat) (f : Core → Core) : (s.modCore k f).bellows = s.bellows := rfl
@[simp] theorem State.modCore_ctxs (s : State) (k : Nat) (f : Core → Core) : (s.modCore k f).ctxs = s.ctxs := rfl
@[simp] theorem State.modCore_sessions (s : State) (k : Nat) (f : Core → Core) : (s.modCore k f).sessions = s.sessions := rfl
@[simp] theorem State.modCore_ports (s : State) (k : Nat) (f : Core → Core) : (s.modCore k f).ports = s.ports := rfl
@[simp] theorem State.modCore_ptp (s : State) (k : Nat) (f : Core → Core) : (s.modCore k f).ptp = s.ptp := rfl
@[simp] theorem State.modCore_lly (s : State) (k : Nat) (f : Core → Core) : (s.modCore k f).lly = s.lly := rfl
@[simp] theorem State.modCore_progs (s : State) (k : Nat) (f : Core → Core) : (s.modCore k f).progs = s.progs := rfl
@[simp] theorem State.modCore_groups (s : State) (k : Nat) (f : Core → Core) : (s.modCore k f).groups = s.groups := rfl
@[simp] theorem State.modCore_mig (s : State) (k : Nat) (f : Core → Core) : (s.modCore k f).mig = s.mig := rfl
@[simp] theorem State.modCore_dev (s : State) (k : Nat) (f : Core → Core) : (s.modCore k f).dev = s.dev := rfl
@[simp] theorem State.modCore_hostRd (s : State) (k : Nat) (f : Core → Core) : (s.modCore k f).hostRd = s.hostRd := rfl
@[simp] theorem State.modCore_out (s : State) (k : Nat) (f : Core → Core) : (s.modCore k f).out = s.out := rfl

/-! ### `State.modCores` -/

@[simp] theorem State.modCores_mem (s : State) (f : Core → Core) : (s.modCores f).mem = s.mem := rfl
@[simp] theorem State.modCores_owners (s : State) (f : Core → Core) : (s.modCores f).owners = s.owners := rfl
@[simp] theorem State.modCores_ue (s : State) (f : Core → Core) : (s.modCores f).ue = s.ue := rfl
@[simp] theorem State.modCores_lastCtx (s : State) (f : Core → Core) : (s.modCores f).lastCtx = s.lastCtx := rfl
@[simp] theorem State.modCores_clock (s : State) (f : Core → Core) : (s.modCores f).clock = s.clock := rfl
@[simp] theorem State.modCores_cycle (s : State) (f : Core → Core) : (s.modCores f).cycle = s.cycle := rfl
@[simp] theorem State.modCores_cur (s : State) (f : Core → Core) : (s.modCores f).cur = s.cur := rfl
@[simp] theorem State.modCores_agenda (s : State) (f : Core → Core) : (s.modCores f).agenda = s.agenda := rfl
@[simp] theorem State.modCores_crews (s : State) (f : Core → Core) : (s.modCores f).crews = s.crews := rfl
@[simp] theorem State.modCores_cores (s : State) (f : Core → Core) : (s.modCores f).cores = s.cores.map f := rfl
@[simp] theorem State.modCores_launches (s : State) (f : Core → Core) : (s.modCores f).launches = s.launches := rfl
@[simp] theorem State.modCores_queues (s : State) (f : Core → Core) : (s.modCores f).queues = s.queues := rfl
@[simp] theorem State.modCores_bellows (s : State) (f : Core → Core) : (s.modCores f).bellows = s.bellows := rfl
@[simp] theorem State.modCores_ctxs (s : State) (f : Core → Core) : (s.modCores f).ctxs = s.ctxs := rfl
@[simp] theorem State.modCores_sessions (s : State) (f : Core → Core) : (s.modCores f).sessions = s.sessions := rfl
@[simp] theorem State.modCores_ports (s : State) (f : Core → Core) : (s.modCores f).ports = s.ports := rfl
@[simp] theorem State.modCores_ptp (s : State) (f : Core → Core) : (s.modCores f).ptp = s.ptp := rfl
@[simp] theorem State.modCores_lly (s : State) (f : Core → Core) : (s.modCores f).lly = s.lly := rfl
@[simp] theorem State.modCores_progs (s : State) (f : Core → Core) : (s.modCores f).progs = s.progs := rfl
@[simp] theorem State.modCores_groups (s : State) (f : Core → Core) : (s.modCores f).groups = s.groups := rfl
@[simp] theorem State.modCores_mig (s : State) (f : Core → Core) : (s.modCores f).mig = s.mig := rfl
@[simp] theorem State.modCores_dev (s : State) (f : Core → Core) : (s.modCores f).dev = s.dev := rfl
@[simp] theorem State.modCores_hostRd (s : State) (f : Core → Core) : (s.modCores f).hostRd = s.hostRd := rfl
@[simp] theorem State.modCores_out (s : State) (f : Core → Core) : (s.modCores f).out = s.out := rfl

/-! ### `State.setCtx` -/

@[simp] theorem State.setCtx_mem (s : State) (x : Nat) (c : Context) : (s.setCtx x c).mem = s.mem := rfl
@[simp] theorem State.setCtx_owners (s : State) (x : Nat) (c : Context) : (s.setCtx x c).owners = s.owners := rfl
@[simp] theorem State.setCtx_ue (s : State) (x : Nat) (c : Context) : (s.setCtx x c).ue = s.ue := rfl
@[simp] theorem State.setCtx_lastCtx (s : State) (x : Nat) (c : Context) : (s.setCtx x c).lastCtx = s.lastCtx := rfl
@[simp] theorem State.setCtx_clock (s : State) (x : Nat) (c : Context) : (s.setCtx x c).clock = s.clock := rfl
@[simp] theorem State.setCtx_cycle (s : State) (x : Nat) (c : Context) : (s.setCtx x c).cycle = s.cycle := rfl
@[simp] theorem State.setCtx_cur (s : State) (x : Nat) (c : Context) : (s.setCtx x c).cur = s.cur := rfl
@[simp] theorem State.setCtx_agenda (s : State) (x : Nat) (c : Context) : (s.setCtx x c).agenda = s.agenda := rfl
@[simp] theorem State.setCtx_crews (s : State) (x : Nat) (c : Context) : (s.setCtx x c).crews = s.crews := rfl
@[simp] theorem State.setCtx_cores (s : State) (x : Nat) (c : Context) : (s.setCtx x c).cores = s.cores := rfl
@[simp] theorem State.setCtx_launches (s : State) (x : Nat) (c : Context) : (s.setCtx x c).launches = s.launches := rfl
@[simp] theorem State.setCtx_queues (s : State) (x : Nat) (c : Context) : (s.setCtx x c).queues = s.queues := rfl
@[simp] theorem State.setCtx_bellows (s : State) (x : Nat) (c : Context) : (s.setCtx x c).bellows = s.bellows := rfl
@[simp] theorem State.setCtx_ctxs (s : State) (x : Nat) (c : Context) : (s.setCtx x c).ctxs = s.ctxs.set x c := rfl
@[simp] theorem State.setCtx_sessions (s : State) (x : Nat) (c : Context) : (s.setCtx x c).sessions = s.sessions := rfl
@[simp] theorem State.setCtx_ports (s : State) (x : Nat) (c : Context) : (s.setCtx x c).ports = s.ports := rfl
@[simp] theorem State.setCtx_ptp (s : State) (x : Nat) (c : Context) : (s.setCtx x c).ptp = s.ptp := rfl
@[simp] theorem State.setCtx_lly (s : State) (x : Nat) (c : Context) : (s.setCtx x c).lly = s.lly := rfl
@[simp] theorem State.setCtx_progs (s : State) (x : Nat) (c : Context) : (s.setCtx x c).progs = s.progs := rfl
@[simp] theorem State.setCtx_groups (s : State) (x : Nat) (c : Context) : (s.setCtx x c).groups = s.groups := rfl
@[simp] theorem State.setCtx_mig (s : State) (x : Nat) (c : Context) : (s.setCtx x c).mig = s.mig := rfl
@[simp] theorem State.setCtx_dev (s : State) (x : Nat) (c : Context) : (s.setCtx x c).dev = s.dev := rfl
@[simp] theorem State.setCtx_hostRd (s : State) (x : Nat) (c : Context) : (s.setCtx x c).hostRd = s.hostRd := rfl
@[simp] theorem State.setCtx_out (s : State) (x : Nat) (c : Context) : (s.setCtx x c).out = s.out := rfl

/-! ### `State.modCtx` -/

@[simp] theorem State.modCtx_mem (s : State) (x : Nat) (f : Context → Context) : (s.modCtx x f).mem = s.mem := rfl
@[simp] theorem State.modCtx_owners (s : State) (x : Nat) (f : Context → Context) : (s.modCtx x f).owners = s.owners := rfl
@[simp] theorem State.modCtx_ue (s : State) (x : Nat) (f : Context → Context) : (s.modCtx x f).ue = s.ue := rfl
@[simp] theorem State.modCtx_lastCtx (s : State) (x : Nat) (f : Context → Context) : (s.modCtx x f).lastCtx = s.lastCtx := rfl
@[simp] theorem State.modCtx_clock (s : State) (x : Nat) (f : Context → Context) : (s.modCtx x f).clock = s.clock := rfl
@[simp] theorem State.modCtx_cycle (s : State) (x : Nat) (f : Context → Context) : (s.modCtx x f).cycle = s.cycle := rfl
@[simp] theorem State.modCtx_cur (s : State) (x : Nat) (f : Context → Context) : (s.modCtx x f).cur = s.cur := rfl
@[simp] theorem State.modCtx_agenda (s : State) (x : Nat) (f : Context → Context) : (s.modCtx x f).agenda = s.agenda := rfl
@[simp] theorem State.modCtx_crews (s : State) (x : Nat) (f : Context → Context) : (s.modCtx x f).crews = s.crews := rfl
@[simp] theorem State.modCtx_cores (s : State) (x : Nat) (f : Context → Context) : (s.modCtx x f).cores = s.cores := rfl
@[simp] theorem State.modCtx_launches (s : State) (x : Nat) (f : Context → Context) : (s.modCtx x f).launches = s.launches := rfl
@[simp] theorem State.modCtx_queues (s : State) (x : Nat) (f : Context → Context) : (s.modCtx x f).queues = s.queues := rfl
@[simp] theorem State.modCtx_bellows (s : State) (x : Nat) (f : Context → Context) : (s.modCtx x f).bellows = s.bellows := rfl
@[simp] theorem State.modCtx_ctxs (s : State) (x : Nat) (f : Context → Context) : (s.modCtx x f).ctxs = s.ctxs.set x (f (s.ctx x)) := rfl
@[simp] theorem State.modCtx_sessions (s : State) (x : Nat) (f : Context → Context) : (s.modCtx x f).sessions = s.sessions := rfl
@[simp] theorem State.modCtx_ports (s : State) (x : Nat) (f : Context → Context) : (s.modCtx x f).ports = s.ports := rfl
@[simp] theorem State.modCtx_ptp (s : State) (x : Nat) (f : Context → Context) : (s.modCtx x f).ptp = s.ptp := rfl
@[simp] theorem State.modCtx_lly (s : State) (x : Nat) (f : Context → Context) : (s.modCtx x f).lly = s.lly := rfl
@[simp] theorem State.modCtx_progs (s : State) (x : Nat) (f : Context → Context) : (s.modCtx x f).progs = s.progs := rfl
@[simp] theorem State.modCtx_groups (s : State) (x : Nat) (f : Context → Context) : (s.modCtx x f).groups = s.groups := rfl
@[simp] theorem State.modCtx_mig (s : State) (x : Nat) (f : Context → Context) : (s.modCtx x f).mig = s.mig := rfl
@[simp] theorem State.modCtx_dev (s : State) (x : Nat) (f : Context → Context) : (s.modCtx x f).dev = s.dev := rfl
@[simp] theorem State.modCtx_hostRd (s : State) (x : Nat) (f : Context → Context) : (s.modCtx x f).hostRd = s.hostRd := rfl
@[simp] theorem State.modCtx_out (s : State) (x : Nat) (f : Context → Context) : (s.modCtx x f).out = s.out := rfl

/-! ### `State.modQueue` -/

@[simp] theorem State.modQueue_mem (s : State) (q : Nat) (f : Queue → Queue) : (s.modQueue q f).mem = s.mem := rfl
@[simp] theorem State.modQueue_owners (s : State) (q : Nat) (f : Queue → Queue) : (s.modQueue q f).owners = s.owners := rfl
@[simp] theorem State.modQueue_ue (s : State) (q : Nat) (f : Queue → Queue) : (s.modQueue q f).ue = s.ue := rfl
@[simp] theorem State.modQueue_lastCtx (s : State) (q : Nat) (f : Queue → Queue) : (s.modQueue q f).lastCtx = s.lastCtx := rfl
@[simp] theorem State.modQueue_clock (s : State) (q : Nat) (f : Queue → Queue) : (s.modQueue q f).clock = s.clock := rfl
@[simp] theorem State.modQueue_cycle (s : State) (q : Nat) (f : Queue → Queue) : (s.modQueue q f).cycle = s.cycle := rfl
@[simp] theorem State.modQueue_cur (s : State) (q : Nat) (f : Queue → Queue) : (s.modQueue q f).cur = s.cur := rfl
@[simp] theorem State.modQueue_agenda (s : State) (q : Nat) (f : Queue → Queue) : (s.modQueue q f).agenda = s.agenda := rfl
@[simp] theorem State.modQueue_crews (s : State) (q : Nat) (f : Queue → Queue) : (s.modQueue q f).crews = s.crews := rfl
@[simp] theorem State.modQueue_cores (s : State) (q : Nat) (f : Queue → Queue) : (s.modQueue q f).cores = s.cores := rfl
@[simp] theorem State.modQueue_launches (s : State) (q : Nat) (f : Queue → Queue) : (s.modQueue q f).launches = s.launches := rfl
@[simp] theorem State.modQueue_queues (s : State) (q : Nat) (f : Queue → Queue) : (s.modQueue q f).queues = s.queues.set q (f (s.queue q)) := rfl
@[simp] theorem State.modQueue_bellows (s : State) (q : Nat) (f : Queue → Queue) : (s.modQueue q f).bellows = s.bellows := rfl
@[simp] theorem State.modQueue_ctxs (s : State) (q : Nat) (f : Queue → Queue) : (s.modQueue q f).ctxs = s.ctxs := rfl
@[simp] theorem State.modQueue_sessions (s : State) (q : Nat) (f : Queue → Queue) : (s.modQueue q f).sessions = s.sessions := rfl
@[simp] theorem State.modQueue_ports (s : State) (q : Nat) (f : Queue → Queue) : (s.modQueue q f).ports = s.ports := rfl
@[simp] theorem State.modQueue_ptp (s : State) (q : Nat) (f : Queue → Queue) : (s.modQueue q f).ptp = s.ptp := rfl
@[simp] theorem State.modQueue_lly (s : State) (q : Nat) (f : Queue → Queue) : (s.modQueue q f).lly = s.lly := rfl
@[simp] theorem State.modQueue_progs (s : State) (q : Nat) (f : Queue → Queue) : (s.modQueue q f).progs = s.progs := rfl
@[simp] theorem State.modQueue_groups (s : State) (q : Nat) (f : Queue → Queue) : (s.modQueue q f).groups = s.groups := rfl
@[simp] theorem State.modQueue_mig (s : State) (q : Nat) (f : Queue → Queue) : (s.modQueue q f).mig = s.mig := rfl
@[simp] theorem State.modQueue_dev (s : State) (q : Nat) (f : Queue → Queue) : (s.modQueue q f).dev = s.dev := rfl
@[simp] theorem State.modQueue_hostRd (s : State) (q : Nat) (f : Queue → Queue) : (s.modQueue q f).hostRd = s.hostRd := rfl
@[simp] theorem State.modQueue_out (s : State) (q : Nat) (f : Queue → Queue) : (s.modQueue q f).out = s.out := rfl

/-! ### `State.modSession` -/

@[simp] theorem State.modSession_mem (s : State) (k : Nat) (f : Session → Session) : (s.modSession k f).mem = s.mem := rfl
@[simp] theorem State.modSession_owners (s : State) (k : Nat) (f : Session → Session) : (s.modSession k f).owners = s.owners := rfl
@[simp] theorem State.modSession_ue (s : State) (k : Nat) (f : Session → Session) : (s.modSession k f).ue = s.ue := rfl
@[simp] theorem State.modSession_lastCtx (s : State) (k : Nat) (f : Session → Session) : (s.modSession k f).lastCtx = s.lastCtx := rfl
@[simp] theorem State.modSession_clock (s : State) (k : Nat) (f : Session → Session) : (s.modSession k f).clock = s.clock := rfl
@[simp] theorem State.modSession_cycle (s : State) (k : Nat) (f : Session → Session) : (s.modSession k f).cycle = s.cycle := rfl
@[simp] theorem State.modSession_cur (s : State) (k : Nat) (f : Session → Session) : (s.modSession k f).cur = s.cur := rfl
@[simp] theorem State.modSession_agenda (s : State) (k : Nat) (f : Session → Session) : (s.modSession k f).agenda = s.agenda := rfl
@[simp] theorem State.modSession_crews (s : State) (k : Nat) (f : Session → Session) : (s.modSession k f).crews = s.crews := rfl
@[simp] theorem State.modSession_cores (s : State) (k : Nat) (f : Session → Session) : (s.modSession k f).cores = s.cores := rfl
@[simp] theorem State.modSession_launches (s : State) (k : Nat) (f : Session → Session) : (s.modSession k f).launches = s.launches := rfl
@[simp] theorem State.modSession_queues (s : State) (k : Nat) (f : Session → Session) : (s.modSession k f).queues = s.queues := rfl
@[simp] theorem State.modSession_bellows (s : State) (k : Nat) (f : Session → Session) : (s.modSession k f).bellows = s.bellows := rfl
@[simp] theorem State.modSession_ctxs (s : State) (k : Nat) (f : Session → Session) : (s.modSession k f).ctxs = s.ctxs := rfl
@[simp] theorem State.modSession_sessions (s : State) (k : Nat) (f : Session → Session) : (s.modSession k f).sessions = s.sessions.set k (f (s.session k)) := rfl
@[simp] theorem State.modSession_ports (s : State) (k : Nat) (f : Session → Session) : (s.modSession k f).ports = s.ports := rfl
@[simp] theorem State.modSession_ptp (s : State) (k : Nat) (f : Session → Session) : (s.modSession k f).ptp = s.ptp := rfl
@[simp] theorem State.modSession_lly (s : State) (k : Nat) (f : Session → Session) : (s.modSession k f).lly = s.lly := rfl
@[simp] theorem State.modSession_progs (s : State) (k : Nat) (f : Session → Session) : (s.modSession k f).progs = s.progs := rfl
@[simp] theorem State.modSession_groups (s : State) (k : Nat) (f : Session → Session) : (s.modSession k f).groups = s.groups := rfl
@[simp] theorem State.modSession_mig (s : State) (k : Nat) (f : Session → Session) : (s.modSession k f).mig = s.mig := rfl
@[simp] theorem State.modSession_dev (s : State) (k : Nat) (f : Session → Session) : (s.modSession k f).dev = s.dev := rfl
@[simp] theorem State.modSession_hostRd (s : State) (k : Nat) (f : Session → Session) : (s.modSession k f).hostRd = s.hostRd := rfl
@[simp] theorem State.modSession_out (s : State) (k : Nat) (f : Session → Session) : (s.modSession k f).out = s.out := rfl

/-! ### `State.modLaunch` -/

@[simp] theorem State.modLaunch_mem (s : State) (q : Nat) (f : Launch → Launch) : (s.modLaunch q f).mem = s.mem := rfl
@[simp] theorem State.modLaunch_owners (s : State) (q : Nat) (f : Launch → Launch) : (s.modLaunch q f).owners = s.owners := rfl
@[simp] theorem State.modLaunch_ue (s : State) (q : Nat) (f : Launch → Launch) : (s.modLaunch q f).ue = s.ue := rfl
@[simp] theorem State.modLaunch_lastCtx (s : State) (q : Nat) (f : Launch → Launch) : (s.modLaunch q f).lastCtx = s.lastCtx := rfl
@[simp] theorem State.modLaunch_clock (s : State) (q : Nat) (f : Launch → Launch) : (s.modLaunch q f).clock = s.clock := rfl
@[simp] theorem State.modLaunch_cycle (s : State) (q : Nat) (f : Launch → Launch) : (s.modLaunch q f).cycle = s.cycle := rfl
@[simp] theorem State.modLaunch_cur (s : State) (q : Nat) (f : Launch → Launch) : (s.modLaunch q f).cur = s.cur := rfl
@[simp] theorem State.modLaunch_agenda (s : State) (q : Nat) (f : Launch → Launch) : (s.modLaunch q f).agenda = s.agenda := rfl
@[simp] theorem State.modLaunch_crews (s : State) (q : Nat) (f : Launch → Launch) : (s.modLaunch q f).crews = s.crews := rfl
@[simp] theorem State.modLaunch_cores (s : State) (q : Nat) (f : Launch → Launch) : (s.modLaunch q f).cores = s.cores := rfl
@[simp] theorem State.modLaunch_launches (s : State) (q : Nat) (f : Launch → Launch) : (s.modLaunch q f).launches = s.launches.map (fun l => if l.seq = q then f l else l) := rfl
@[simp] theorem State.modLaunch_queues (s : State) (q : Nat) (f : Launch → Launch) : (s.modLaunch q f).queues = s.queues := rfl
@[simp] theorem State.modLaunch_bellows (s : State) (q : Nat) (f : Launch → Launch) : (s.modLaunch q f).bellows = s.bellows := rfl
@[simp] theorem State.modLaunch_ctxs (s : State) (q : Nat) (f : Launch → Launch) : (s.modLaunch q f).ctxs = s.ctxs := rfl
@[simp] theorem State.modLaunch_sessions (s : State) (q : Nat) (f : Launch → Launch) : (s.modLaunch q f).sessions = s.sessions := rfl
@[simp] theorem State.modLaunch_ports (s : State) (q : Nat) (f : Launch → Launch) : (s.modLaunch q f).ports = s.ports := rfl
@[simp] theorem State.modLaunch_ptp (s : State) (q : Nat) (f : Launch → Launch) : (s.modLaunch q f).ptp = s.ptp := rfl
@[simp] theorem State.modLaunch_lly (s : State) (q : Nat) (f : Launch → Launch) : (s.modLaunch q f).lly = s.lly := rfl
@[simp] theorem State.modLaunch_progs (s : State) (q : Nat) (f : Launch → Launch) : (s.modLaunch q f).progs = s.progs := rfl
@[simp] theorem State.modLaunch_groups (s : State) (q : Nat) (f : Launch → Launch) : (s.modLaunch q f).groups = s.groups := rfl
@[simp] theorem State.modLaunch_mig (s : State) (q : Nat) (f : Launch → Launch) : (s.modLaunch q f).mig = s.mig := rfl
@[simp] theorem State.modLaunch_dev (s : State) (q : Nat) (f : Launch → Launch) : (s.modLaunch q f).dev = s.dev := rfl
@[simp] theorem State.modLaunch_hostRd (s : State) (q : Nat) (f : Launch → Launch) : (s.modLaunch q f).hostRd = s.hostRd := rfl
@[simp] theorem State.modLaunch_out (s : State) (q : Nat) (f : Launch → Launch) : (s.modLaunch q f).out = s.out := rfl

/-! ### `State.modGroup` -/

@[simp] theorem State.modGroup_mem (s : State) (g : Nat) (f : Group → Group) : (s.modGroup g f).mem = s.mem := rfl
@[simp] theorem State.modGroup_owners (s : State) (g : Nat) (f : Group → Group) : (s.modGroup g f).owners = s.owners := rfl
@[simp] theorem State.modGroup_ue (s : State) (g : Nat) (f : Group → Group) : (s.modGroup g f).ue = s.ue := rfl
@[simp] theorem State.modGroup_lastCtx (s : State) (g : Nat) (f : Group → Group) : (s.modGroup g f).lastCtx = s.lastCtx := rfl
@[simp] theorem State.modGroup_clock (s : State) (g : Nat) (f : Group → Group) : (s.modGroup g f).clock = s.clock := rfl
@[simp] theorem State.modGroup_cycle (s : State) (g : Nat) (f : Group → Group) : (s.modGroup g f).cycle = s.cycle := rfl
@[simp] theorem State.modGroup_cur (s : State) (g : Nat) (f : Group → Group) : (s.modGroup g f).cur = s.cur := rfl
@[simp] theorem State.modGroup_agenda (s : State) (g : Nat) (f : Group → Group) : (s.modGroup g f).agenda = s.agenda := rfl
@[simp] theorem State.modGroup_crews (s : State) (g : Nat) (f : Group → Group) : (s.modGroup g f).crews = s.crews := rfl
@[simp] theorem State.modGroup_cores (s : State) (g : Nat) (f : Group → Group) : (s.modGroup g f).cores = s.cores := rfl
@[simp] theorem State.modGroup_launches (s : State) (g : Nat) (f : Group → Group) : (s.modGroup g f).launches = s.launches := rfl
@[simp] theorem State.modGroup_queues (s : State) (g : Nat) (f : Group → Group) : (s.modGroup g f).queues = s.queues := rfl
@[simp] theorem State.modGroup_bellows (s : State) (g : Nat) (f : Group → Group) : (s.modGroup g f).bellows = s.bellows := rfl
@[simp] theorem State.modGroup_ctxs (s : State) (g : Nat) (f : Group → Group) : (s.modGroup g f).ctxs = s.ctxs := rfl
@[simp] theorem State.modGroup_sessions (s : State) (g : Nat) (f : Group → Group) : (s.modGroup g f).sessions = s.sessions := rfl
@[simp] theorem State.modGroup_ports (s : State) (g : Nat) (f : Group → Group) : (s.modGroup g f).ports = s.ports := rfl
@[simp] theorem State.modGroup_ptp (s : State) (g : Nat) (f : Group → Group) : (s.modGroup g f).ptp = s.ptp := rfl
@[simp] theorem State.modGroup_lly (s : State) (g : Nat) (f : Group → Group) : (s.modGroup g f).lly = s.lly := rfl
@[simp] theorem State.modGroup_progs (s : State) (g : Nat) (f : Group → Group) : (s.modGroup g f).progs = s.progs := rfl
@[simp] theorem State.modGroup_groups (s : State) (g : Nat) (f : Group → Group) : (s.modGroup g f).groups = s.groups.set g (f (s.group g)) := rfl
@[simp] theorem State.modGroup_mig (s : State) (g : Nat) (f : Group → Group) : (s.modGroup g f).mig = s.mig := rfl
@[simp] theorem State.modGroup_dev (s : State) (g : Nat) (f : Group → Group) : (s.modGroup g f).dev = s.dev := rfl
@[simp] theorem State.modGroup_hostRd (s : State) (g : Nat) (f : Group → Group) : (s.modGroup g f).hostRd = s.hostRd := rfl
@[simp] theorem State.modGroup_out (s : State) (g : Nat) (f : Group → Group) : (s.modGroup g f).out = s.out := rfl

/-! ### `State.setProg` -/

@[simp] theorem State.setProg_mem (s : State) (p : Nat) (v : Option CProg) : (s.setProg p v).mem = s.mem := rfl
@[simp] theorem State.setProg_owners (s : State) (p : Nat) (v : Option CProg) : (s.setProg p v).owners = s.owners := rfl
@[simp] theorem State.setProg_ue (s : State) (p : Nat) (v : Option CProg) : (s.setProg p v).ue = s.ue := rfl
@[simp] theorem State.setProg_lastCtx (s : State) (p : Nat) (v : Option CProg) : (s.setProg p v).lastCtx = s.lastCtx := rfl
@[simp] theorem State.setProg_clock (s : State) (p : Nat) (v : Option CProg) : (s.setProg p v).clock = s.clock := rfl
@[simp] theorem State.setProg_cycle (s : State) (p : Nat) (v : Option CProg) : (s.setProg p v).cycle = s.cycle := rfl
@[simp] theorem State.setProg_cur (s : State) (p : Nat) (v : Option CProg) : (s.setProg p v).cur = s.cur := rfl
@[simp] theorem State.setProg_agenda (s : State) (p : Nat) (v : Option CProg) : (s.setProg p v).agenda = s.agenda := rfl
@[simp] theorem State.setProg_crews (s : State) (p : Nat) (v : Option CProg) : (s.setProg p v).crews = s.crews := rfl
@[simp] theorem State.setProg_cores (s : State) (p : Nat) (v : Option CProg) : (s.setProg p v).cores = s.cores := rfl
@[simp] theorem State.setProg_launches (s : State) (p : Nat) (v : Option CProg) : (s.setProg p v).launches = s.launches := rfl
@[simp] theorem State.setProg_queues (s : State) (p : Nat) (v : Option CProg) : (s.setProg p v).queues = s.queues := rfl
@[simp] theorem State.setProg_bellows (s : State) (p : Nat) (v : Option CProg) : (s.setProg p v).bellows = s.bellows := rfl
@[simp] theorem State.setProg_ctxs (s : State) (p : Nat) (v : Option CProg) : (s.setProg p v).ctxs = s.ctxs := rfl
@[simp] theorem State.setProg_sessions (s : State) (p : Nat) (v : Option CProg) : (s.setProg p v).sessions = s.sessions := rfl
@[simp] theorem State.setProg_ports (s : State) (p : Nat) (v : Option CProg) : (s.setProg p v).ports = s.ports := rfl
@[simp] theorem State.setProg_ptp (s : State) (p : Nat) (v : Option CProg) : (s.setProg p v).ptp = s.ptp := rfl
@[simp] theorem State.setProg_lly (s : State) (p : Nat) (v : Option CProg) : (s.setProg p v).lly = s.lly := rfl
@[simp] theorem State.setProg_progs (s : State) (p : Nat) (v : Option CProg) : (s.setProg p v).progs = s.progs.set p v := rfl
@[simp] theorem State.setProg_groups (s : State) (p : Nat) (v : Option CProg) : (s.setProg p v).groups = s.groups := rfl
@[simp] theorem State.setProg_mig (s : State) (p : Nat) (v : Option CProg) : (s.setProg p v).mig = s.mig := rfl
@[simp] theorem State.setProg_dev (s : State) (p : Nat) (v : Option CProg) : (s.setProg p v).dev = s.dev := rfl
@[simp] theorem State.setProg_hostRd (s : State) (p : Nat) (v : Option CProg) : (s.setProg p v).hostRd = s.hostRd := rfl
@[simp] theorem State.setProg_out (s : State) (p : Nat) (v : Option CProg) : (s.setProg p v).out = s.out := rfl

/-! ### `State.modPort` -/

@[simp] theorem State.modPort_mem (s : State) (p : Nat) (f : Port → Port) : (s.modPort p f).mem = s.mem := rfl
@[simp] theorem State.modPort_owners (s : State) (p : Nat) (f : Port → Port) : (s.modPort p f).owners = s.owners := rfl
@[simp] theorem State.modPort_ue (s : State) (p : Nat) (f : Port → Port) : (s.modPort p f).ue = s.ue := rfl
@[simp] theorem State.modPort_lastCtx (s : State) (p : Nat) (f : Port → Port) : (s.modPort p f).lastCtx = s.lastCtx := rfl
@[simp] theorem State.modPort_clock (s : State) (p : Nat) (f : Port → Port) : (s.modPort p f).clock = s.clock := rfl
@[simp] theorem State.modPort_cycle (s : State) (p : Nat) (f : Port → Port) : (s.modPort p f).cycle = s.cycle := rfl
@[simp] theorem State.modPort_cur (s : State) (p : Nat) (f : Port → Port) : (s.modPort p f).cur = s.cur := rfl
@[simp] theorem State.modPort_agenda (s : State) (p : Nat) (f : Port → Port) : (s.modPort p f).agenda = s.agenda := rfl
@[simp] theorem State.modPort_crews (s : State) (p : Nat) (f : Port → Port) : (s.modPort p f).crews = s.crews := rfl
@[simp] theorem State.modPort_cores (s : State) (p : Nat) (f : Port → Port) : (s.modPort p f).cores = s.cores := rfl
@[simp] theorem State.modPort_launches (s : State) (p : Nat) (f : Port → Port) : (s.modPort p f).launches = s.launches := rfl
@[simp] theorem State.modPort_queues (s : State) (p : Nat) (f : Port → Port) : (s.modPort p f).queues = s.queues := rfl
@[simp] theorem State.modPort_bellows (s : State) (p : Nat) (f : Port → Port) : (s.modPort p f).bellows = s.bellows := rfl
@[simp] theorem State.modPort_ctxs (s : State) (p : Nat) (f : Port → Port) : (s.modPort p f).ctxs = s.ctxs := rfl
@[simp] theorem State.modPort_sessions (s : State) (p : Nat) (f : Port → Port) : (s.modPort p f).sessions = s.sessions := rfl
@[simp] theorem State.modPort_ports (s : State) (p : Nat) (f : Port → Port) : (s.modPort p f).ports = s.ports.set p (f (s.port p)) := rfl
@[simp] theorem State.modPort_ptp (s : State) (p : Nat) (f : Port → Port) : (s.modPort p f).ptp = s.ptp := rfl
@[simp] theorem State.modPort_lly (s : State) (p : Nat) (f : Port → Port) : (s.modPort p f).lly = s.lly := rfl
@[simp] theorem State.modPort_progs (s : State) (p : Nat) (f : Port → Port) : (s.modPort p f).progs = s.progs := rfl
@[simp] theorem State.modPort_groups (s : State) (p : Nat) (f : Port → Port) : (s.modPort p f).groups = s.groups := rfl
@[simp] theorem State.modPort_mig (s : State) (p : Nat) (f : Port → Port) : (s.modPort p f).mig = s.mig := rfl
@[simp] theorem State.modPort_dev (s : State) (p : Nat) (f : Port → Port) : (s.modPort p f).dev = s.dev := rfl
@[simp] theorem State.modPort_hostRd (s : State) (p : Nat) (f : Port → Port) : (s.modPort p f).hostRd = s.hostRd := rfl
@[simp] theorem State.modPort_out (s : State) (p : Nat) (f : Port → Port) : (s.modPort p f).out = s.out := rfl

/-! ### `State.modLport` -/

@[simp] theorem State.modLport_mem (s : State) (l : Nat) (f : LPort → LPort) : (s.modLport l f).mem = s.mem := rfl
@[simp] theorem State.modLport_owners (s : State) (l : Nat) (f : LPort → LPort) : (s.modLport l f).owners = s.owners := rfl
@[simp] theorem State.modLport_ue (s : State) (l : Nat) (f : LPort → LPort) : (s.modLport l f).ue = s.ue := rfl
@[simp] theorem State.modLport_lastCtx (s : State) (l : Nat) (f : LPort → LPort) : (s.modLport l f).lastCtx = s.lastCtx := rfl
@[simp] theorem State.modLport_clock (s : State) (l : Nat) (f : LPort → LPort) : (s.modLport l f).clock = s.clock := rfl
@[simp] theorem State.modLport_cycle (s : State) (l : Nat) (f : LPort → LPort) : (s.modLport l f).cycle = s.cycle := rfl
@[simp] theorem State.modLport_cur (s : State) (l : Nat) (f : LPort → LPort) : (s.modLport l f).cur = s.cur := rfl
@[simp] theorem State.modLport_agenda (s : State) (l : Nat) (f : LPort → LPort) : (s.modLport l f).agenda = s.agenda := rfl
@[simp] theorem State.modLport_crews (s : State) (l : Nat) (f : LPort → LPort) : (s.modLport l f).crews = s.crews := rfl
@[simp] theorem State.modLport_cores (s : State) (l : Nat) (f : LPort → LPort) : (s.modLport l f).cores = s.cores := rfl
@[simp] theorem State.modLport_launches (s : State) (l : Nat) (f : LPort → LPort) : (s.modLport l f).launches = s.launches := rfl
@[simp] theorem State.modLport_queues (s : State) (l : Nat) (f : LPort → LPort) : (s.modLport l f).queues = s.queues := rfl
@[simp] theorem State.modLport_bellows (s : State) (l : Nat) (f : LPort → LPort) : (s.modLport l f).bellows = s.bellows := rfl
@[simp] theorem State.modLport_ctxs (s : State) (l : Nat) (f : LPort → LPort) : (s.modLport l f).ctxs = s.ctxs := rfl
@[simp] theorem State.modLport_sessions (s : State) (l : Nat) (f : LPort → LPort) : (s.modLport l f).sessions = s.sessions := rfl
@[simp] theorem State.modLport_ports (s : State) (l : Nat) (f : LPort → LPort) : (s.modLport l f).ports = s.ports.set (l / 2) (if l % 2 = 0 then { (s.port (l / 2)) with lp0 := f (s.port (l / 2)).lp0 } else { (s.port (l / 2)) with lp1 := f (s.port (l / 2)).lp1 }) := rfl
@[simp] theorem State.modLport_ptp (s : State) (l : Nat) (f : LPort → LPort) : (s.modLport l f).ptp = s.ptp := rfl
@[simp] theorem State.modLport_lly (s : State) (l : Nat) (f : LPort → LPort) : (s.modLport l f).lly = s.lly := rfl
@[simp] theorem State.modLport_progs (s : State) (l : Nat) (f : LPort → LPort) : (s.modLport l f).progs = s.progs := rfl
@[simp] theorem State.modLport_groups (s : State) (l : Nat) (f : LPort → LPort) : (s.modLport l f).groups = s.groups := rfl
@[simp] theorem State.modLport_mig (s : State) (l : Nat) (f : LPort → LPort) : (s.modLport l f).mig = s.mig := rfl
@[simp] theorem State.modLport_dev (s : State) (l : Nat) (f : LPort → LPort) : (s.modLport l f).dev = s.dev := rfl
@[simp] theorem State.modLport_hostRd (s : State) (l : Nat) (f : LPort → LPort) : (s.modLport l f).hostRd = s.hostRd := rfl
@[simp] theorem State.modLport_out (s : State) (l : Nat) (f : LPort → LPort) : (s.modLport l f).out = s.out := rfl

/-! ### `State.emit` -/

@[simp] theorem State.emit_mem (s : State) (o : Out) : (s.emit o).mem = s.mem := rfl
@[simp] theorem State.emit_owners (s : State) (o : Out) : (s.emit o).owners = s.owners := rfl
@[simp] theorem State.emit_ue (s : State) (o : Out) : (s.emit o).ue = s.ue := rfl
@[simp] theorem State.emit_lastCtx (s : State) (o : Out) : (s.emit o).lastCtx = s.lastCtx := rfl
@[simp] theorem State.emit_clock (s : State) (o : Out) : (s.emit o).clock = s.clock := rfl
@[simp] theorem State.emit_cycle (s : State) (o : Out) : (s.emit o).cycle = s.cycle := rfl
@[simp] theorem State.emit_cur (s : State) (o : Out) : (s.emit o).cur = s.cur := rfl
@[simp] theorem State.emit_agenda (s : State) (o : Out) : (s.emit o).agenda = s.agenda := rfl
@[simp] theorem State.emit_crews (s : State) (o : Out) : (s.emit o).crews = s.crews := rfl
@[simp] theorem State.emit_cores (s : State) (o : Out) : (s.emit o).cores = s.cores := rfl
@[simp] theorem State.emit_launches (s : State) (o : Out) : (s.emit o).launches = s.launches := rfl
@[simp] theorem State.emit_queues (s : State) (o : Out) : (s.emit o).queues = s.queues := rfl
@[simp] theorem State.emit_bellows (s : State) (o : Out) : (s.emit o).bellows = s.bellows := rfl
@[simp] theorem State.emit_ctxs (s : State) (o : Out) : (s.emit o).ctxs = s.ctxs := rfl
@[simp] theorem State.emit_sessions (s : State) (o : Out) : (s.emit o).sessions = s.sessions := rfl
@[simp] theorem State.emit_ports (s : State) (o : Out) : (s.emit o).ports = s.ports := rfl
@[simp] theorem State.emit_ptp (s : State) (o : Out) : (s.emit o).ptp = s.ptp := rfl
@[simp] theorem State.emit_lly (s : State) (o : Out) : (s.emit o).lly = s.lly := rfl
@[simp] theorem State.emit_progs (s : State) (o : Out) : (s.emit o).progs = s.progs := rfl
@[simp] theorem State.emit_groups (s : State) (o : Out) : (s.emit o).groups = s.groups := rfl
@[simp] theorem State.emit_mig (s : State) (o : Out) : (s.emit o).mig = s.mig := rfl
@[simp] theorem State.emit_dev (s : State) (o : Out) : (s.emit o).dev = s.dev := rfl
@[simp] theorem State.emit_hostRd (s : State) (o : Out) : (s.emit o).hostRd = s.hostRd := rfl
@[simp] theorem State.emit_out (s : State) (o : Out) : (s.emit o).out = s.out ++ [o] := rfl

/-! ### `State.modDev` -/

@[simp] theorem State.modDev_mem (s : State) (f : Device → Device) : (s.modDev f).mem = s.mem := rfl
@[simp] theorem State.modDev_owners (s : State) (f : Device → Device) : (s.modDev f).owners = s.owners := rfl
@[simp] theorem State.modDev_ue (s : State) (f : Device → Device) : (s.modDev f).ue = s.ue := rfl
@[simp] theorem State.modDev_lastCtx (s : State) (f : Device → Device) : (s.modDev f).lastCtx = s.lastCtx := rfl
@[simp] theorem State.modDev_clock (s : State) (f : Device → Device) : (s.modDev f).clock = s.clock := rfl
@[simp] theorem State.modDev_cycle (s : State) (f : Device → Device) : (s.modDev f).cycle = s.cycle := rfl
@[simp] theorem State.modDev_cur (s : State) (f : Device → Device) : (s.modDev f).cur = s.cur := rfl
@[simp] theorem State.modDev_agenda (s : State) (f : Device → Device) : (s.modDev f).agenda = s.agenda := rfl
@[simp] theorem State.modDev_crews (s : State) (f : Device → Device) : (s.modDev f).crews = s.crews := rfl
@[simp] theorem State.modDev_cores (s : State) (f : Device → Device) : (s.modDev f).cores = s.cores := rfl
@[simp] theorem State.modDev_launches (s : State) (f : Device → Device) : (s.modDev f).launches = s.launches := rfl
@[simp] theorem State.modDev_queues (s : State) (f : Device → Device) : (s.modDev f).queues = s.queues := rfl
@[simp] theorem State.modDev_bellows (s : State) (f : Device → Device) : (s.modDev f).bellows = s.bellows := rfl
@[simp] theorem State.modDev_ctxs (s : State) (f : Device → Device) : (s.modDev f).ctxs = s.ctxs := rfl
@[simp] theorem State.modDev_sessions (s : State) (f : Device → Device) : (s.modDev f).sessions = s.sessions := rfl
@[simp] theorem State.modDev_ports (s : State) (f : Device → Device) : (s.modDev f).ports = s.ports := rfl
@[simp] theorem State.modDev_ptp (s : State) (f : Device → Device) : (s.modDev f).ptp = s.ptp := rfl
@[simp] theorem State.modDev_lly (s : State) (f : Device → Device) : (s.modDev f).lly = s.lly := rfl
@[simp] theorem State.modDev_progs (s : State) (f : Device → Device) : (s.modDev f).progs = s.progs := rfl
@[simp] theorem State.modDev_groups (s : State) (f : Device → Device) : (s.modDev f).groups = s.groups := rfl
@[simp] theorem State.modDev_mig (s : State) (f : Device → Device) : (s.modDev f).mig = s.mig := rfl
@[simp] theorem State.modDev_dev (s : State) (f : Device → Device) : (s.modDev f).dev = f s.dev := rfl
@[simp] theorem State.modDev_hostRd (s : State) (f : Device → Device) : (s.modDev f).hostRd = s.hostRd := rfl
@[simp] theorem State.modDev_out (s : State) (f : Device → Device) : (s.modDev f).out = s.out := rfl

/-! ### `State.modCrew` -/

@[simp] theorem State.modCrew_mem (s : State) (i : Nat) (f : Crew → Crew) : (s.modCrew i f).mem = s.mem := rfl
@[simp] theorem State.modCrew_owners (s : State) (i : Nat) (f : Crew → Crew) : (s.modCrew i f).owners = s.owners := rfl
@[simp] theorem State.modCrew_ue (s : State) (i : Nat) (f : Crew → Crew) : (s.modCrew i f).ue = s.ue := rfl
@[simp] theorem State.modCrew_lastCtx (s : State) (i : Nat) (f : Crew → Crew) : (s.modCrew i f).lastCtx = s.lastCtx := rfl
@[simp] theorem State.modCrew_clock (s : State) (i : Nat) (f : Crew → Crew) : (s.modCrew i f).clock = s.clock := rfl
@[simp] theorem State.modCrew_cycle (s : State) (i : Nat) (f : Crew → Crew) : (s.modCrew i f).cycle = s.cycle := rfl
@[simp] theorem State.modCrew_cur (s : State) (i : Nat) (f : Crew → Crew) : (s.modCrew i f).cur = s.cur := rfl
@[simp] theorem State.modCrew_agenda (s : State) (i : Nat) (f : Crew → Crew) : (s.modCrew i f).agenda = s.agenda := rfl
@[simp] theorem State.modCrew_crews (s : State) (i : Nat) (f : Crew → Crew) : (s.modCrew i f).crews = s.crews.map (fun c => if c.id = i then f c else c) := rfl
@[simp] theorem State.modCrew_cores (s : State) (i : Nat) (f : Crew → Crew) : (s.modCrew i f).cores = s.cores := rfl
@[simp] theorem State.modCrew_launches (s : State) (i : Nat) (f : Crew → Crew) : (s.modCrew i f).launches = s.launches := rfl
@[simp] theorem State.modCrew_queues (s : State) (i : Nat) (f : Crew → Crew) : (s.modCrew i f).queues = s.queues := rfl
@[simp] theorem State.modCrew_bellows (s : State) (i : Nat) (f : Crew → Crew) : (s.modCrew i f).bellows = s.bellows := rfl
@[simp] theorem State.modCrew_ctxs (s : State) (i : Nat) (f : Crew → Crew) : (s.modCrew i f).ctxs = s.ctxs := rfl
@[simp] theorem State.modCrew_sessions (s : State) (i : Nat) (f : Crew → Crew) : (s.modCrew i f).sessions = s.sessions := rfl
@[simp] theorem State.modCrew_ports (s : State) (i : Nat) (f : Crew → Crew) : (s.modCrew i f).ports = s.ports := rfl
@[simp] theorem State.modCrew_ptp (s : State) (i : Nat) (f : Crew → Crew) : (s.modCrew i f).ptp = s.ptp := rfl
@[simp] theorem State.modCrew_lly (s : State) (i : Nat) (f : Crew → Crew) : (s.modCrew i f).lly = s.lly := rfl
@[simp] theorem State.modCrew_progs (s : State) (i : Nat) (f : Crew → Crew) : (s.modCrew i f).progs = s.progs := rfl
@[simp] theorem State.modCrew_groups (s : State) (i : Nat) (f : Crew → Crew) : (s.modCrew i f).groups = s.groups := rfl
@[simp] theorem State.modCrew_mig (s : State) (i : Nat) (f : Crew → Crew) : (s.modCrew i f).mig = s.mig := rfl
@[simp] theorem State.modCrew_dev (s : State) (i : Nat) (f : Crew → Crew) : (s.modCrew i f).dev = s.dev := rfl
@[simp] theorem State.modCrew_hostRd (s : State) (i : Nat) (f : Crew → Crew) : (s.modCrew i f).hostRd = s.hostRd := rfl
@[simp] theorem State.modCrew_out (s : State) (i : Nat) (f : Crew → Crew) : (s.modCrew i f).out = s.out := rfl

/-! ### `State.modStrand` -/

@[simp] theorem State.modStrand_mem (s : State) (i j : Nat) (f : Strand → Strand) : (s.modStrand i j f).mem = s.mem := rfl
@[simp] theorem State.modStrand_owners (s : State) (i j : Nat) (f : Strand → Strand) : (s.modStrand i j f).owners = s.owners := rfl
@[simp] theorem State.modStrand_ue (s : State) (i j : Nat) (f : Strand → Strand) : (s.modStrand i j f).ue = s.ue := rfl
@[simp] theorem State.modStrand_lastCtx (s : State) (i j : Nat) (f : Strand → Strand) : (s.modStrand i j f).lastCtx = s.lastCtx := rfl
@[simp] theorem State.modStrand_clock (s : State) (i j : Nat) (f : Strand → Strand) : (s.modStrand i j f).clock = s.clock := rfl
@[simp] theorem State.modStrand_cycle (s : State) (i j : Nat) (f : Strand → Strand) : (s.modStrand i j f).cycle = s.cycle := rfl
@[simp] theorem State.modStrand_cur (s : State) (i j : Nat) (f : Strand → Strand) : (s.modStrand i j f).cur = s.cur := rfl
@[simp] theorem State.modStrand_agenda (s : State) (i j : Nat) (f : Strand → Strand) : (s.modStrand i j f).agenda = s.agenda := rfl
@[simp] theorem State.modStrand_crews (s : State) (i j : Nat) (f : Strand → Strand) : (s.modStrand i j f).crews = s.crews.map (fun c => if c.id = i then { c with strands := c.strands.map (fun t => if t.idx = j then f t else t) } else c) := rfl
@[simp] theorem State.modStrand_cores (s : State) (i j : Nat) (f : Strand → Strand) : (s.modStrand i j f).cores = s.cores := rfl
@[simp] theorem State.modStrand_launches (s : State) (i j : Nat) (f : Strand → Strand) : (s.modStrand i j f).launches = s.launches := rfl
@[simp] theorem State.modStrand_queues (s : State) (i j : Nat) (f : Strand → Strand) : (s.modStrand i j f).queues = s.queues := rfl
@[simp] theorem State.modStrand_bellows (s : State) (i j : Nat) (f : Strand → Strand) : (s.modStrand i j f).bellows = s.bellows := rfl
@[simp] theorem State.modStrand_ctxs (s : State) (i j : Nat) (f : Strand → Strand) : (s.modStrand i j f).ctxs = s.ctxs := rfl
@[simp] theorem State.modStrand_sessions (s : State) (i j : Nat) (f : Strand → Strand) : (s.modStrand i j f).sessions = s.sessions := rfl
@[simp] theorem State.modStrand_ports (s : State) (i j : Nat) (f : Strand → Strand) : (s.modStrand i j f).ports = s.ports := rfl
@[simp] theorem State.modStrand_ptp (s : State) (i j : Nat) (f : Strand → Strand) : (s.modStrand i j f).ptp = s.ptp := rfl
@[simp] theorem State.modStrand_lly (s : State) (i j : Nat) (f : Strand → Strand) : (s.modStrand i j f).lly = s.lly := rfl
@[simp] theorem State.modStrand_progs (s : State) (i j : Nat) (f : Strand → Strand) : (s.modStrand i j f).progs = s.progs := rfl
@[simp] theorem State.modStrand_groups (s : State) (i j : Nat) (f : Strand → Strand) : (s.modStrand i j f).groups = s.groups := rfl
@[simp] theorem State.modStrand_mig (s : State) (i j : Nat) (f : Strand → Strand) : (s.modStrand i j f).mig = s.mig := rfl
@[simp] theorem State.modStrand_dev (s : State) (i j : Nat) (f : Strand → Strand) : (s.modStrand i j f).dev = s.dev := rfl
@[simp] theorem State.modStrand_hostRd (s : State) (i j : Nat) (f : Strand → Strand) : (s.modStrand i j f).hostRd = s.hostRd := rfl
@[simp] theorem State.modStrand_out (s : State) (i j : Nat) (f : Strand → Strand) : (s.modStrand i j f).out = s.out := rfl

/-! ### `Crew.setStrand` -/

@[simp] theorem Crew.setStrand_id (c : Crew) (t : Strand) : (c.setStrand t).id = c.id := rfl
@[simp] theorem Crew.setStrand_walker (c : Crew) (t : Strand) : (c.setStrand t).walker = c.walker := rfl
@[simp] theorem Crew.setStrand_ctx (c : Crew) (t : Strand) : (c.setStrand t).ctx = c.ctx := rfl
@[simp] theorem Crew.setStrand_seq (c : Crew) (t : Strand) : (c.setStrand t).seq = c.seq := rfl
@[simp] theorem Crew.setStrand_stage (c : Crew) (t : Strand) : (c.setStrand t).stage = c.stage := rfl
@[simp] theorem Crew.setStrand_gang (c : Crew) (t : Strand) : (c.setStrand t).gang = c.gang := rfl
@[simp] theorem Crew.setStrand_idx (c : Crew) (t : Strand) : (c.setStrand t).idx = c.idx := rfl
@[simp] theorem Crew.setStrand_gangSize (c : Crew) (t : Strand) : (c.setStrand t).gangSize = c.gangSize := rfl
@[simp] theorem Crew.setStrand_gangFall (c : Crew) (t : Strand) : (c.setStrand t).gangFall = c.gangFall := rfl
@[simp] theorem Crew.setStrand_core (c : Crew) (t : Strand) : (c.setStrand t).core = c.core := rfl
@[simp] theorem Crew.setStrand_state (c : Crew) (t : Strand) : (c.setStrand t).state = c.state := rfl
@[simp] theorem Crew.setStrand_slot (c : Crew) (t : Strand) : (c.setStrand t).slot = c.slot := rfl
@[simp] theorem Crew.setStrand_order (c : Crew) (t : Strand) : (c.setStrand t).order = c.order := rfl
@[simp] theorem Crew.setStrand_naming (c : Crew) (t : Strand) : (c.setStrand t).naming = c.naming := rfl
@[simp] theorem Crew.setStrand_progress (c : Crew) (t : Strand) : (c.setStrand t).progress = c.progress := rfl
@[simp] theorem Crew.setStrand_vnhits (c : Crew) (t : Strand) : (c.setStrand t).vnhits = c.vnhits := rfl
@[simp] theorem Crew.setStrand_vndedup (c : Crew) (t : Strand) : (c.setStrand t).vndedup = c.vndedup := rfl
@[simp] theorem Crew.setStrand_vncoll (c : Crew) (t : Strand) : (c.setStrand t).vncoll = c.vncoll := rfl
@[simp] theorem Crew.setStrand_xgen (c : Crew) (t : Strand) : (c.setStrand t).xgen = c.xgen := rfl
@[simp] theorem Crew.setStrand_xpat (c : Crew) (t : Strand) : (c.setStrand t).xpat = c.xpat := rfl
@[simp] theorem Crew.setStrand_xtab (c : Crew) (t : Strand) : (c.setStrand t).xtab = c.xtab := rfl
@[simp] theorem Crew.setStrand_nbars (c : Crew) (t : Strand) : (c.setStrand t).nbars = c.nbars := rfl
@[simp] theorem Crew.setStrand_bars (c : Crew) (t : Strand) : (c.setStrand t).bars = c.bars := rfl
@[simp] theorem Crew.setStrand_sbars (c : Crew) (t : Strand) : (c.setStrand t).sbars = c.sbars := rfl
@[simp] theorem Crew.setStrand_baseRegs (c : Crew) (t : Strand) : (c.setStrand t).baseRegs = c.baseRegs := rfl
@[simp] theorem Crew.setStrand_ceil (c : Crew) (t : Strand) : (c.setStrand t).ceil = c.ceil := rfl
@[simp] theorem Crew.setStrand_wclaim (c : Crew) (t : Strand) : (c.setStrand t).wclaim = c.wclaim := rfl
@[simp] theorem Crew.setStrand_aclaim (c : Crew) (t : Strand) : (c.setStrand t).aclaim = c.aclaim := rfl
@[simp] theorem Crew.setStrand_cclaim (c : Crew) (t : Strand) : (c.setStrand t).cclaim = c.cclaim := rfl
@[simp] theorem Crew.setStrand_binds (c : Crew) (t : Strand) : (c.setStrand t).binds = c.binds := rfl
@[simp] theorem Crew.setStrand_region (c : Crew) (t : Strand) : (c.setStrand t).region = c.region := rfl
@[simp] theorem Crew.setStrand_idemAt (c : Crew) (t : Strand) : (c.setStrand t).idemAt = c.idemAt := rfl
@[simp] theorem Crew.setStrand_restart (c : Crew) (t : Strand) : (c.setStrand t).restart = c.restart := rfl
@[simp] theorem Crew.setStrand_dispSlot (c : Crew) (t : Strand) : (c.setStrand t).dispSlot = c.dispSlot := rfl
@[simp] theorem Crew.setStrand_entryPc (c : Crew) (t : Strand) : (c.setStrand t).entryPc = c.entryPc := rfl
@[simp] theorem Crew.setStrand_seed (c : Crew) (t : Strand) : (c.setStrand t).seed = c.seed := rfl
@[simp] theorem Crew.setStrand_placedAt (c : Crew) (t : Strand) : (c.setStrand t).placedAt = c.placedAt := rfl
@[simp] theorem Crew.setStrand_waitFrom (c : Crew) (t : Strand) : (c.setStrand t).waitFrom = c.waitFrom := rfl
@[simp] theorem Crew.setStrand_swage (c : Crew) (t : Strand) : (c.setStrand t).swage = c.swage := rfl
@[simp] theorem Crew.setStrand_leaving (c : Crew) (t : Strand) : (c.setStrand t).leaving = c.leaving := rfl
@[simp] theorem Crew.setStrand_strands (c : Crew) (t : Strand) : (c.setStrand t).strands = c.strands.map (fun x => if x.idx = t.idx then t else x) := rfl

/-! ### `Strand.modThreads` -/

@[simp] theorem Strand.modThreads_idx (t : Strand) (m : Mask) (f : Nat → Thread → Thread) : (t.modThreads m f).idx = t.idx := rfl
@[simp] theorem Strand.modThreads_num (t : Strand) (m : Mask) (f : Nat → Thread → Thread) : (t.modThreads m f).num = t.num := rfl
@[simp] theorem Strand.modThreads_regs (t : Strand) (m : Mask) (f : Nat → Thread → Thread) : (t.modThreads m f).regs = t.regs := rfl
@[simp] theorem Strand.modThreads_preds (t : Strand) (m : Mask) (f : Nat → Thread → Thread) : (t.modThreads m f).preds = t.preds := rfl
@[simp] theorem Strand.modThreads_threads (t : Strand) (m : Mask) (f : Nat → Thread → Thread) : (t.modThreads m f).threads = t.threads.mapi (fun k x => if laneOn m k then f k x else x) := rfl
@[simp] theorem Strand.modThreads_group (t : Strand) (m : Mask) (f : Nat → Thread → Thread) : (t.modThreads m f).group = t.group := rfl
@[simp] theorem Strand.modThreads_lastLow (t : Strand) (m : Mask) (f : Nat → Thread → Thread) : (t.modThreads m f).lastLow = t.lastLow := rfl
@[simp] theorem Strand.modThreads_timer (t : Strand) (m : Mask) (f : Nat → Thread → Thread) : (t.modThreads m f).timer = t.timer := rfl
@[simp] theorem Strand.modThreads_active (t : Strand) (m : Mask) (f : Nat → Thread → Thread) : (t.modThreads m f).active = t.active := rfl
@[simp] theorem Strand.modThreads_activeFor (t : Strand) (m : Mask) (f : Nat → Thread → Thread) : (t.modThreads m f).activeFor = t.activeFor := rfl
@[simp] theorem Strand.modThreads_outSince (t : Strand) (m : Mask) (f : Nat → Thread → Thread) : (t.modThreads m f).outSince = t.outSince := rfl
@[simp] theorem Strand.modThreads_readyAt (t : Strand) (m : Mask) (f : Nat → Thread → Thread) : (t.modThreads m f).readyAt = t.readyAt := rfl
@[simp] theorem Strand.modThreads_unit (t : Strand) (m : Mask) (f : Nat → Thread → Thread) : (t.modThreads m f).unit = t.unit := rfl
@[simp] theorem Strand.modThreads_resume (t : Strand) (m : Mask) (f : Nat → Thread → Thread) : (t.modThreads m f).resume = t.resume := rfl
@[simp] theorem Strand.modThreads_repHeld (t : Strand) (m : Mask) (f : Nat → Thread → Thread) : (t.modThreads m f).repHeld = t.repHeld := rfl
@[simp] theorem Strand.modThreads_partMask (t : Strand) (m : Mask) (f : Nat → Thread → Thread) : (t.modThreads m f).partMask = t.partMask := rfl
@[simp] theorem Strand.modThreads_fflags (t : Strand) (m : Mask) (f : Nat → Thread → Thread) : (t.modThreads m f).fflags = t.fflags := rfl
@[simp] theorem Strand.modThreads_repleft (t : Strand) (m : Mask) (f : Nat → Thread → Thread) : (t.modThreads m f).repleft = t.repleft := rfl
@[simp] theorem Strand.modThreads_emerg (t : Strand) (m : Mask) (f : Nat → Thread → Thread) : (t.modThreads m f).emerg = t.emerg := rfl
@[simp] theorem Strand.modThreads_grow (t : Strand) (m : Mask) (f : Nat → Thread → Thread) : (t.modThreads m f).grow = t.grow := rfl
@[simp] theorem Strand.modThreads_fldev (t : Strand) (m : Mask) (f : Nat → Thread → Thread) : (t.modThreads m f).fldev = t.fldev := rfl
@[simp] theorem Strand.modThreads_trap (t : Strand) (m : Mask) (f : Nat → Thread → Thread) : (t.modThreads m f).trap = t.trap := rfl
@[simp] theorem Strand.modThreads_handler (t : Strand) (m : Mask) (f : Nat → Thread → Thread) : (t.modThreads m f).handler = t.handler := rfl
@[simp] theorem Strand.modThreads_deferred (t : Strand) (m : Mask) (f : Nat → Thread → Thread) : (t.modThreads m f).deferred = t.deferred := rfl
@[simp] theorem Strand.modThreads_inflight (t : Strand) (m : Mask) (f : Nat → Thread → Thread) : (t.modThreads m f).inflight = t.inflight := rfl
@[simp] theorem Strand.modThreads_nextOp (t : Strand) (m : Mask) (f : Nat → Thread → Thread) : (t.modThreads m f).nextOp = t.nextOp := rfl
@[simp] theorem Strand.modThreads_answers (t : Strand) (m : Mask) (f : Nat → Thread → Thread) : (t.modThreads m f).answers = t.answers := rfl
@[simp] theorem Strand.modThreads_waita (t : Strand) (m : Mask) (f : Nat → Thread → Thread) : (t.modThreads m f).waita = t.waita := rfl
@[simp] theorem Strand.modThreads_turnAt (t : Strand) (m : Mask) (f : Nat → Thread → Thread) : (t.modThreads m f).turnAt = t.turnAt := rfl
@[simp] theorem Strand.modThreads_growAge (t : Strand) (m : Mask) (f : Nat → Thread → Thread) : (t.modThreads m f).growAge = t.growAge := rfl
@[simp] theorem Strand.modThreads_qstill (t : Strand) (m : Mask) (f : Nat → Thread → Thread) : (t.modThreads m f).qstill = t.qstill := rfl
@[simp] theorem Strand.modThreads_stale (t : Strand) (m : Mask) (f : Nat → Thread → Thread) : (t.modThreads m f).stale = t.stale := rfl
@[simp] theorem Strand.modThreads_acq (t : Strand) (m : Mask) (f : Nat → Thread → Thread) : (t.modThreads m f).acq = t.acq := rfl
@[simp] theorem Strand.modThreads_locked (t : Strand) (m : Mask) (f : Nat → Thread → Thread) : (t.modThreads m f).locked = t.locked := rfl
@[simp] theorem Strand.modThreads_ended (t : Strand) (m : Mask) (f : Nat → Thread → Thread) : (t.modThreads m f).ended = t.ended := rfl

/-! ### `Strand.modThread` -/

@[simp] theorem Strand.modThread_idx (t : Strand) (l : Nat) (f : Thread → Thread) : (t.modThread l f).idx = t.idx := rfl
@[simp] theorem Strand.modThread_num (t : Strand) (l : Nat) (f : Thread → Thread) : (t.modThread l f).num = t.num := rfl
@[simp] theorem Strand.modThread_regs (t : Strand) (l : Nat) (f : Thread → Thread) : (t.modThread l f).regs = t.regs := rfl
@[simp] theorem Strand.modThread_preds (t : Strand) (l : Nat) (f : Thread → Thread) : (t.modThread l f).preds = t.preds := rfl
@[simp] theorem Strand.modThread_threads (t : Strand) (l : Nat) (f : Thread → Thread) : (t.modThread l f).threads = t.threads.mapi (fun k x => if k = l then f x else x) := rfl
@[simp] theorem Strand.modThread_group (t : Strand) (l : Nat) (f : Thread → Thread) : (t.modThread l f).group = t.group := rfl
@[simp] theorem Strand.modThread_lastLow (t : Strand) (l : Nat) (f : Thread → Thread) : (t.modThread l f).lastLow = t.lastLow := rfl
@[simp] theorem Strand.modThread_timer (t : Strand) (l : Nat) (f : Thread → Thread) : (t.modThread l f).timer = t.timer := rfl
@[simp] theorem Strand.modThread_active (t : Strand) (l : Nat) (f : Thread → Thread) : (t.modThread l f).active = t.active := rfl
@[simp] theorem Strand.modThread_activeFor (t : Strand) (l : Nat) (f : Thread → Thread) : (t.modThread l f).activeFor = t.activeFor := rfl
@[simp] theorem Strand.modThread_outSince (t : Strand) (l : Nat) (f : Thread → Thread) : (t.modThread l f).outSince = t.outSince := rfl
@[simp] theorem Strand.modThread_readyAt (t : Strand) (l : Nat) (f : Thread → Thread) : (t.modThread l f).readyAt = t.readyAt := rfl
@[simp] theorem Strand.modThread_unit (t : Strand) (l : Nat) (f : Thread → Thread) : (t.modThread l f).unit = t.unit := rfl
@[simp] theorem Strand.modThread_resume (t : Strand) (l : Nat) (f : Thread → Thread) : (t.modThread l f).resume = t.resume := rfl
@[simp] theorem Strand.modThread_repHeld (t : Strand) (l : Nat) (f : Thread → Thread) : (t.modThread l f).repHeld = t.repHeld := rfl
@[simp] theorem Strand.modThread_partMask (t : Strand) (l : Nat) (f : Thread → Thread) : (t.modThread l f).partMask = t.partMask := rfl
@[simp] theorem Strand.modThread_fflags (t : Strand) (l : Nat) (f : Thread → Thread) : (t.modThread l f).fflags = t.fflags := rfl
@[simp] theorem Strand.modThread_repleft (t : Strand) (l : Nat) (f : Thread → Thread) : (t.modThread l f).repleft = t.repleft := rfl
@[simp] theorem Strand.modThread_emerg (t : Strand) (l : Nat) (f : Thread → Thread) : (t.modThread l f).emerg = t.emerg := rfl
@[simp] theorem Strand.modThread_grow (t : Strand) (l : Nat) (f : Thread → Thread) : (t.modThread l f).grow = t.grow := rfl
@[simp] theorem Strand.modThread_fldev (t : Strand) (l : Nat) (f : Thread → Thread) : (t.modThread l f).fldev = t.fldev := rfl
@[simp] theorem Strand.modThread_trap (t : Strand) (l : Nat) (f : Thread → Thread) : (t.modThread l f).trap = t.trap := rfl
@[simp] theorem Strand.modThread_handler (t : Strand) (l : Nat) (f : Thread → Thread) : (t.modThread l f).handler = t.handler := rfl
@[simp] theorem Strand.modThread_deferred (t : Strand) (l : Nat) (f : Thread → Thread) : (t.modThread l f).deferred = t.deferred := rfl
@[simp] theorem Strand.modThread_inflight (t : Strand) (l : Nat) (f : Thread → Thread) : (t.modThread l f).inflight = t.inflight := rfl
@[simp] theorem Strand.modThread_nextOp (t : Strand) (l : Nat) (f : Thread → Thread) : (t.modThread l f).nextOp = t.nextOp := rfl
@[simp] theorem Strand.modThread_answers (t : Strand) (l : Nat) (f : Thread → Thread) : (t.modThread l f).answers = t.answers := rfl
@[simp] theorem Strand.modThread_waita (t : Strand) (l : Nat) (f : Thread → Thread) : (t.modThread l f).waita = t.waita := rfl
@[simp] theorem Strand.modThread_turnAt (t : Strand) (l : Nat) (f : Thread → Thread) : (t.modThread l f).turnAt = t.turnAt := rfl
@[simp] theorem Strand.modThread_growAge (t : Strand) (l : Nat) (f : Thread → Thread) : (t.modThread l f).growAge = t.growAge := rfl
@[simp] theorem Strand.modThread_qstill (t : Strand) (l : Nat) (f : Thread → Thread) : (t.modThread l f).qstill = t.qstill := rfl
@[simp] theorem Strand.modThread_stale (t : Strand) (l : Nat) (f : Thread → Thread) : (t.modThread l f).stale = t.stale := rfl
@[simp] theorem Strand.modThread_acq (t : Strand) (l : Nat) (f : Thread → Thread) : (t.modThread l f).acq = t.acq := rfl
@[simp] theorem Strand.modThread_locked (t : Strand) (l : Nat) (f : Thread → Thread) : (t.modThread l f).locked = t.locked := rfl
@[simp] theorem Strand.modThread_ended (t : Strand) (l : Nat) (f : Thread → Thread) : (t.modThread l f).ended = t.ended := rfl

end Sys2Proof.Machine
end

