-- ==== Sys2Proof/Laws/Words.lean ====
section
/-! SUPPORT. Values: the manual's exact integers brought to words agree with the operations of two's complement words. -/

namespace Sys2Proof.Machine

theorem shlWord_eq (x y : Word) : shlWord x y.toNat = x <<< y.toNat := by
  unfold shlWord
  split
  · rename_i h; exact (BitVec.shiftLeft_eq_zero (by omega)).symm
  · rfl

theorem shrWord_eq (x y : Word) : shrWord x y.toNat = x >>> y.toNat := by
  unfold shrWord
  split
  · rename_i h; exact (BitVec.ushiftRight_eq_zero (by omega)).symm
  · rfl

theorem sarWord_eq (x y : Word) : sarWord x y.toNat = x.sshiftRight y.toNat := by
  unfold sarWord
  by_cases h : y.toNat ≤ 31
  · rw [Nat.min_eq_left h]
  · rw [Nat.min_eq_right (by omega)]
    ext i hi
    simp only [BitVec.getElem_sshiftRight]
    have h1 : ¬ (y.toNat + i < 32) := by omega
    by_cases h0 : i = 0
    · subst h0
      have h2 : ¬ (y.toNat < 32) := by omega
      simp [h2, BitVec.msb_eq_getLsbD_last]
    · have h2 : ¬ (31 + i < 32) := by omega
      simp [*]

/-- a AND NOT b, as the exclusive or with a masked by a. -/
theorem andn_eq (x y : Word) : BitVec.ofNat 32 (x.toNat &&& (x.toNat ^^^ y.toNat)) = x &&& ~~~y := by
  have : x.toNat &&& (x.toNat ^^^ y.toNat) = (x &&& (x ^^^ y)).toNat := by simp
  rw [this, BitVec.ofNat_toNat, BitVec.setWidth_eq]
  ext i hi
  simp only [BitVec.getElem_and, BitVec.getElem_xor, BitVec.getElem_not]
  cases x[i] <;> cases y[i] <;> rfl

/-- The low and the high word of a pair. -/
theorem lane64_low (t : Strand) (v l : Nat) : BitVec.ofNat 32 (t.lane64 v l).toNat = t.lane v l := by
  apply BitVec.eq_of_toNat_eq
  have h1 := (t.lane v l).isLt
  have h2 := (t.lane (v + 1) l).isLt
  simp only [Strand.lane64, BitVec.toNat_ofNat]
  omega

theorem lane64_high (t : Strand) (v l : Nat) : BitVec.ofNat 32 ((t.lane64 v l).toNat / 2 ^ 32) = t.lane (v + 1) l := by
  apply BitVec.eq_of_toNat_eq
  have h1 := (t.lane v l).isLt
  have h2 := (t.lane (v + 1) l).isLt
  simp only [Strand.lane64, BitVec.toNat_ofNat]
  omega

/-- Bitwise operations on pairs act on their halves. -/
theorem and_low (x y : Nat) : BitVec.ofNat 32 (x &&& y) = BitVec.ofNat 32 x &&& BitVec.ofNat 32 y := by
  apply BitVec.eq_of_toNat_eq; simp
theorem xor_low (x y : Nat) : BitVec.ofNat 32 (x ^^^ y) = BitVec.ofNat 32 x ^^^ BitVec.ofNat 32 y := by
  apply BitVec.eq_of_toNat_eq; simp
theorem and_high (x y : Nat) : BitVec.ofNat 32 ((x &&& y) / 2 ^ 32) = BitVec.ofNat 32 (x / 2 ^ 32) &&& BitVec.ofNat 32 (y / 2 ^ 32) := by
  rw [← and_low, Nat.and_div_two_pow]
theorem xor_high (x y : Nat) : BitVec.ofNat 32 ((x ^^^ y) / 2 ^ 32) = BitVec.ofNat 32 (x / 2 ^ 32) ^^^ BitVec.ofNat 32 (y / 2 ^ 32) := by
  rw [← xor_low, Nat.xor_div_two_pow]

theorem andn_bits (x y : Word) : x &&& (x ^^^ y) = x &&& ~~~y := by
  ext i hi
  simp only [BitVec.getElem_and, BitVec.getElem_xor, BitVec.getElem_not]
  cases x[i] <;> cases y[i] <;> rfl

/-- Wrapping an exact integer. -/
theorem word32_eq (x : Int) : word32 x = BitVec.ofInt 32 x := by
  apply BitVec.eq_of_toNat_eq
  unfold word32 wrapNat
  rw [BitVec.toNat_ofInt, BitVec.toNat_ofNat, Nat.mod_eq_of_lt]
  · rfl
  · omega

/-- A word as a signed integer. -/
theorem sgn_eq (x : Word) : sgn x = x.toInt := by
  have h := x.isLt
  unfold sgn sextInt
  rw [BitVec.toInt_eq_toNat_cond, Nat.mod_eq_of_lt h]
  rfl

/-- An operand of 32 bits, signed or unsigned, is its word. -/
theorem ofInt_opnd (t : Strand) (uns : Bool) (v l : Nat) : BitVec.ofInt 32 (opndInt t false uns v l) = t.lane v l := by
  cases uns
  · show BitVec.ofInt 32 (sgn (t.lane v l)) = _
    rw [sgn_eq, BitVec.ofInt_toInt]
  · show BitVec.ofInt 32 ((t.lane v l).toNat : Int) = _
    rw [BitVec.ofInt_natCast, BitVec.ofNat_toNat, BitVec.setWidth_eq]

theorem ofInt_minus (x y : Int) : BitVec.ofInt 32 (x - y) = BitVec.ofInt 32 x - BitVec.ofInt 32 y := by
  rw [Int.sub_eq_add_neg, BitVec.ofInt_add, BitVec.ofInt_neg, BitVec.sub_eq_add_neg]

/-- Exact 32-bit arithmetic that wraps. -/
theorem narrow_wrap (uns : Bool) (x : Int) : BitVec.ofNat 32 (narrow false uns false x) = BitVec.ofInt 32 x := word32_eq x

/-- The smaller and the larger word. -/
theorem word32_min (x y : Word) : word32 (min (sgn x) (sgn y)) = if x.toInt ≤ y.toInt then x else y := by
  rw [word32_eq, sgn_eq, sgn_eq]
  split
  · rename_i h; rw [Int.min_eq_left h, BitVec.ofInt_toInt]
  · rename_i h; rw [Int.min_eq_right (by omega), BitVec.ofInt_toInt]

theorem word32_max (x y : Word) : word32 (max (sgn x) (sgn y)) = if x.toInt ≤ y.toInt then y else x := by
  rw [word32_eq, sgn_eq, sgn_eq]
  split
  · rename_i h; rw [Int.max_eq_right h, BitVec.ofInt_toInt]
  · rename_i h; rw [Int.max_eq_left (by omega), BitVec.ofInt_toInt]

/-- A sum that wraps. -/
theorem word32_add (x y : Word) : word32 (sgn x + sgn y) = x + y := by
  rw [word32_eq, sgn_eq, sgn_eq, BitVec.ofInt_add, BitVec.ofInt_toInt, BitVec.ofInt_toInt]

/-- Bits replaced, as bits put side by side. -/
theorem insertBits_spec (o v : Word) (lo n i : Nat) (hi : i < 32) :
    (insertBits o lo n v)[i] = if lo ≤ i ∧ i < lo + n then v.getLsbD (i - lo) else o[i] := by
  have hm : (BitVec.ofNat 32 ((2 ^ n - 1) * 2 ^ lo)).getLsbD i = (decide (lo ≤ i) && decide (i < lo + n)) := by
    rw [BitVec.getLsbD_ofNat, ← Nat.shiftLeft_eq, Nat.testBit_shiftLeft, Nat.testBit_two_pow_sub_one]
    by_cases h1 : lo ≤ i <;> by_cases h2 : i < lo + n <;> simp [hi, h1, h2] <;> omega
  have hm' : (BitVec.ofNat 32 ((2 ^ n - 1) * 2 ^ lo))[i] = (decide (lo ≤ i) && decide (i < lo + n)) := by
    rw [← hm, BitVec.getLsbD_eq_getElem]
  unfold insertBits
  simp only [BitVec.getElem_or, BitVec.getElem_and, BitVec.getElem_not, hm']
  by_cases h1 : lo ≤ i <;> by_cases h2 : i < lo + n <;> simp [h1, h2, BitVec.getElem_shiftLeft]
  have h3 : ¬ i < lo := by omega
  rw [BitVec.getLsbD_eq_getElem (by omega)]
  simp [h3]

end Sys2Proof.Machine
end

