-- ==== Sys2Proof/Tests/Slice0.lean ====
section
/-! SUPPORT. Tests. Words are written out from the encodings of the manual; expected results are the manual's own examples and
tables, or are worked out from its rules by hand. The witnesses at the end are small machines that meet the hypotheses of the
obligations. -/

namespace Sys2Proof.Tests
open Sys2Proof.Machine
set_option Elab.async false

/-! ### Decoding: words printed in the manual (spec/04 to spec/20) -/

theorem test_decode_integer : [0x0138A310, 0x0730C010, 0x11225678, 0x1220048D, 0x1327F802, 0x19308028].map decodeWord
    = [some (.add 14 10 12 2 0), some (.lea 12 12 0 2 0), some (.movi 8 0x25678), some (.movhi 8 0x048D), some (.iota 9 0x1FC 2),
       some (.shlImm 12 8 5 0)] := by decide +kernel

/-- Class 0x2 has no word printed in the manual: `fadd.f16 v1, v2, v3` with fn = FT 1, S 0 (R91, R107), by hand. -/
theorem test_decode_float : decodeWord (0x21 * 2 ^ 24 + 1 * 2 ^ 18 + 2 * 2 ^ 12 + 3 * 2 ^ 6 + 2 * 2 ^ 3) = some (.fadd 1 2 3 2 0) := by decide +kernel

theorem test_decode_conversion : [0x31289C00, 0x312CA180].map decodeWord = [some (.cvt 10 9 6 0 0 0 0), some (.cvt 11 10 0 6 0 0 0)] := by
  decide +kernel

theorem test_decode_predicate_cross : [0x42081000, 0x49308000, 0x4D04A0D0].map decodeWord
    = [some (.pnot 2 1 0), some (.xred 12 8 0 0), some (.movcWrite 10 0x0D0)] := by decide +kernel

theorem test_decode_flow : [0x51FFFFC8, 0x52014000, 0x53F80010, 0x5403E000, 0x57000002, 0x58000000, 0x5A000003, 0x5B000000, 0x5C000000,
      0x5D043002, 0x5F201000].map decodeWord
    = [some (.bra 0x1FFFF9 0), some (.brx 20 0), some (.callDirect 31 16), some (.ret 62 0), some (.exit 2), some .nop, some (.bar 3),
       some .gbar, some .sbar, some (.rgrowTry 3 2), some (.disp 8 1 0)] := by decide +kernel

theorem test_decode_loads_stores : [0x61404000, 0x62284000, 0x64504000, 0x6920E000].map decodeWord
    = [some (.ldB32 16 4 0 0), some (.ldB64 10 4 0 0), some (.ldF16 20 4 0 0), some (.stB32 8 14 0 0)] := by decide +kernel

theorem test_decode_atomics : [0x713883C0, 0x76000000, 0x77000000, 0x78000000].map decodeWord
    = [some (.atom 14 8 15 0 0), some .acq, some .rel, some .fence] := by decide +kernel

theorem test_decode_copies_waits : [0x8130A38F, 0x8120C38F, 0x84FFF03F, 0x8403FFFF, 0x8503FFC0].map decodeWord
    = [some (.cp 12 10 14 15), some (.cp 8 12 14 15), some (.wait 63 63 0 63), some (.wait 0 63 63 63), some (.waitx 0 63 63)] := by decide +kernel

theorem test_decode_swage : [0x91001000, 0x94023000, 0x98001000, 0x9B067028].map decodeWord
    = [some (.mres 1), some (.tld 0 2 3 0 0 0 0 0), some (.mma 0 1 0 0 0), some (.mdrain 0 6 7 0 0 1 1 0)] := by decide +kernel

theorem test_decode_fields : [0xA1408180, 0xA2508180].map decodeWord = [some (.hgf 16 8 6 0 0), some (.hgs 20 8 6 0 0)] := by decide +kernel

theorem test_decode_streams : [0xB1202018, 0xB800A000, 0xB900C000].map decodeWord
    = [some (.srd 8 0 2 0 3 0), some (.time 10), some (.sleepu 12)] := by decide +kernel

theorem test_decode_launch_collective : [0xC104A008, 0xC10C8000, 0xC2000002, 0xC3048000, 0xC408A140, 0xC530E0C0, 0xC650C040].map decodeWord
    = [some (.launchTail 1 10 0), some (.launch 3 8 0), some (.publish 2), some (.cprog 1 8 0), some (.ctrigArm 2 10 5 0),
       some (.cctrAdd 12 14 3 0), some (.tbar 20 12 1 0 0)] := by decide +kernel

theorem test_decode_system : [0xD1000000, 0xD2000000, 0xD3014003, 0xD4044000, 0xD700002A, 0xD8000000, 0xD9000005, 0xDA000000].map decodeWord
    = [some .idemb, some .ideme, some (.tlbw 20 3), some (.tlbiVaAll 4), some (.trap 0x2A), some .rtt, some (.snap 5), some (.brk 0)] := by
  decide +kernel

theorem test_decode_prefix : [0xE100103C, 0xE50C8040].map decodeWord = [some (.hintImm 0x103C), some (.rep 3 1 0 0 1)] := by decide +kernel

/-- R74: the zero word, the word of ones, class 0xF, and `rtt` and `exit` with a reserved bit set. -/
theorem test_decode_refuses : [0x00000000, 0xFFFFFFFF, 0xF1000000, 0xD8000001, 0x57000008].map decodeWord = [none, none, none, none, none] := by
  decide +kernel

/-- R6, R69: the first byte of a word is its low byte; three bytes are no word. -/
theorem test_decode_bytes : decode [0x2A, 0, 0, 0xD7] = .ok (.trap 0x2A) ∧ ∀ i, decode [0x2A, 0, 0] ≠ .ok i := by
  refine ⟨rfl, fun i h => ?_⟩
  cases h

/-! ### Well-formedness: an ill-formed word for each check, and its well-formed neighbour -/

theorem test_wf_pairs : [Instr.add 9 10 12 2 0, .add 8 11 12 2 0, .add 8 10 13 2 0, .and 9 10 12 1 0, .icmp 1 0 1 9 10 0 0, .mov 9 8 1 0,
    .ldB64 9 4 0 0, .ldB32 8 5 0 0, .stB64 9 4 0 0, .atom 9 8 10 1 0, .atom 8 9 10 0 0, .cas 9 8 10 0 1 0, .waita 8 9 10 1 0, .waita 8 10 9 1 0,
    .cp 9 8 1 2, .cp2 8 10 11 12, .cptab 8 10 1 13, .pgreq 1 9 0, .pfetch 9 0 0 0, .brx 21 0, .callIndirect 3 21, .ret 21 0, .xmaxi 9 8 10 0 0,
    .hgf 8 9 11 0 0, .hgs 8 9 11 0 0, .hgfold 8 9 10 1, .hgfold 8 10 11 1, .march 8 9 11 0, .tex 8 9 11 0, .trace 8 9 11 0, .srdt 0 0 11 1 0,
    .sinhOffset 9 0 1 0, .sts 9 0 0 0, .time 9, .sleepu 9, .launch 1 9 0, .launchTail 1 9 0, .cprog 1 9 0, .ctrigArm 1 9 0 0,
    .cctrAdd 9 8 0 0, .tlbw 9 3, .tlbiVaCore 9, .tlbiVaAll 9].all (fun i => !i.wellFormed) = true := by decide +kernel

theorem test_wf_pairs_even : [Instr.add 8 10 12 2 0, .and 8 10 12 1 0, .ldB64 8 4 0 0, .ldB32 9 4 0 0, .atom 8 8 10 1 0, .cas 8 8 10 0 1 0,
    .waita 9 8 10 1 0, .cp2 8 10 12 14, .brx 20 0, .hgf 9 9 10 0 0, .sts 8 0 0 0, .time 8, .tlbw 8 3].all Instr.wellFormed = true := by decide +kernel

/-- R91, R110, R115: float type 3; a conversion to its own type, and U = 1 where no type is an integer. -/
theorem test_wf_types : [Instr.fadd 1 2 3 6 0, .fmin 1 2 3 3 0, .fcmp 3 1 2 3 0 0, .fdot2 1 2 3 0 0 0, .cvt 1 2 0 0 0 0 0, .cvt 1 2 0 1 1 0 0,
    .ffract 1 2 3 0, .icmp 0 0 1 2 3 6 0].all (fun i => !i.wellFormed) = true := by decide +kernel

/-- R118, R126, R164: fields outside their range. -/
theorem test_wf_ranges : [Instr.unpack 1 2 2 0 0 0, .unpack 1 2 4 0 1 0, .unpack 1 2 0 0 3 0, .xmaxi 8 2 3 5 0, .rgrow 0, .rgrowTry 1 0, .rshrink 0,
    .cdecl 0 0, .cdecl 0 513, .sts 8 0 4 0, .sstat 8 0 4 0].all (fun i => !i.wellFormed) = true := by decide +kernel

/-- R237, R242, R244, R250: a convergence register without a signature, a page-mode load from a buffer, a store to WBUF, a drain type
and an activation that are reserved. -/
theorem test_wf_tiles : [Instr.tzero 0 1 0 0, .mma 0 1 2 0 0, .tld 0 2 3 0 0 1 1 0, .tst 0 2 3 0 0 1 0, .mdrain 0 1 2 0 0 5 0 0, .mdrain 0 1 2 0 0 0 3 0].all
    (fun i => !i.wellFormed) = true := by decide +kernel

/-! ### A small machine: one strand of eight lanes, placed as `withFetchWord` places it -/

def base : State := State.reset.withFetchWord 32 0x58000000

def withStrand (f : Strand → Strand) (s : State) : State :=
  { s with crews := s.crews.map (fun c => { c with strands := c.strands.map f }) }

def withCrew (f : Crew → Crew) (s : State) : State := { s with crews := s.crews.map f }

def general (f : Nat → Word) : Reg := { tag := .general, lanes := L8.ofFn f, loc := 0, bad := false }
def uniform (x : Word) : Reg := { tag := .uniform, lanes := L8.all x, loc := 0, bad := false }

def withRegs (rs : List (Nat × Reg)) : State → State :=
  withStrand (fun t => { t with regs := rs.foldl (fun xs r => xs.set r.1 r.2) t.regs })

def withRounding (mode : Option (BitVec 3)) (sat : Option Bool) : State → State :=
  withStrand (fun t => { t with unit := { t.unit with rnd := some { mode := mode, sat := sat } } })

/-- The strand after an instruction. -/
def after (o : Host.Outcome State Fault Refusal) : Strand :=
  match o with
  | .next t => (t.strand? 0 0).getD (Strand.entry 0 0 [] 0)
  | _ => Strand.entry 0 0 [] 0

def reg (i : Instr) (v : Nat) (s : State) : List Word := ((after (exec i s)).reg v).lanes.toList
def lane0 (i : Instr) (v : Nat) (s : State) : Word := (reg i v s).headD 0
def two (a b : Word) : State := withRegs [(9, general (fun _ => a)), (10, general (fun _ => b))] base

/-! ### Lane words -/

/-- R95: 0xFFFF_FFFF + 2 wraps to 1; saturating unsigned it is 0xFFFF_FFFF, saturating signed −1 + 2 = 1. -/
theorem test_add : lane0 (.add 8 9 10 0 0) 8 (two 0xFFFFFFFF 2) = 1 ∧ lane0 (.add 8 9 10 5 0) 8 (two 0xFFFFFFFF 2) = 0xFFFFFFFF
    ∧ lane0 (.add 8 9 10 4 0) 8 (two 0xFFFFFFFF 2) = 1 := by decide +kernel

/-- R95: the high half of −1 × −1 is 0 signed and 0xFFFF_FFFE unsigned. -/
theorem test_mulhi : lane0 (.mulhi 8 9 10 0 0) 8 (two 0xFFFFFFFF 0xFFFFFFFF) = 0 ∧ lane0 (.mulhi 8 9 10 1 0) 8 (two 0xFFFFFFFF 0xFFFFFFFF) = 0xFFFFFFFE := by
  decide +kernel

/-- R95, R49: a 64-bit sum carries into the odd register. -/
theorem test_add64 : reg (.add 8 10 12 2 0) 9 (withRegs [(10, general (fun _ => 0xFFFFFFFF)), (12, general (fun _ => 1))] base) = List.replicate 8 1 := by
  decide +kernel

/-- R96: 0x7FFF_FFFF × 2 + 3 wraps, and saturates under hint.rnd with SV = SAT = 1. -/
theorem test_mad : lane0 (.mad 8 9 10 11) 8 (withRegs [(11, general (fun _ => 3))] (two 0x7FFFFFFF 2)) = 1
    ∧ lane0 (.mad 8 9 10 11) 8 (withRounding none (some true) (withRegs [(11, general (fun _ => 3))] (two 0x7FFFFFFF 2))) = 0x7FFFFFFF := by decide +kernel

/-- R97: −1 and 1, signed and unsigned. -/
theorem test_min_max : lane0 (.min 8 9 10 0 0) 8 (two 0xFFFFFFFF 1) = 0xFFFFFFFF ∧ lane0 (.min 8 9 10 1 0) 8 (two 0xFFFFFFFF 1) = 1
    ∧ lane0 (.max 8 9 10 1 0) 8 (two 0xFFFFFFFF 1) = 0xFFFFFFFF := by decide +kernel

/-- R99, the corners of its table. -/
theorem test_unary : lane0 (.abs 8 9 0) 8 (two 0x80000000 0) = 0x80000000 ∧ lane0 (.neg 8 9 0) 8 (withRounding none (some true) (two 0x80000000 0)) = 0x7FFFFFFF
    ∧ lane0 (.clz 8 9 0) 8 (two 0 0) = 32 ∧ lane0 (.clz 8 9 0) 8 (two 0x00010000 0) = 15 ∧ lane0 (.popc 8 9 0) 8 (two 0xF0F0 0) = 8
    ∧ lane0 (.brev 8 9 0) 8 (two 1 0) = 0x80000000 := by decide +kernel

/-- R101: shifts by 32 and more. -/
theorem test_shifts : lane0 (.shl 8 9 10 0) 8 (two 0xFFFFFFFF 32) = 0 ∧ lane0 (.shr 8 9 10 0) 8 (two 0xFFFFFFFF 33) = 0
    ∧ lane0 (.sar 8 9 10 0) 8 (two 0x80000000 40) = 0xFFFFFFFF ∧ lane0 (.rot 8 9 10 0) 8 (two 0x80000001 33) = 3 := by decide +kernel

/-- R102: pos 8, len 4 of 0x0000_0F00; sign extension; insertion. -/
theorem test_fields : lane0 (.bfe 8 9 10 0 0) 8 (two 0xF00 0x408) = 0xF ∧ lane0 (.bfe 8 9 10 1 0) 8 (two 0xF00 0x408) = 0xFFFFFFFF
    ∧ lane0 (.bfi 8 9 10 11) 8 (withRegs [(11, general (fun _ => 0x408))] (two 0x5 0xFFFFFFFF)) = 0xFFFFF5FF := by decide +kernel

/-- R106, the manual's example: v8 = 0xFFFE_5678, then 0x1236_5678; iota lanes −4, −2, …, 10. -/
theorem test_immediates : lane0 (.movi 8 0x25678) 8 base = 0xFFFE5678
    ∧ lane0 (.movhi 8 0x048D) 8 (withRegs [(8, uniform 0xFFFE5678)] base) = 0x12365678
    ∧ reg (.iota 9 0x1FC 2) 9 base = [-4, -2, 0, 2, 4, 6, 8, 10] := by decide +kernel

/-- R108, R36: 1 + 2^−24 ties to 1.0, and rounds up to 0x3F80_0001 under .rup; NX both times. -/
theorem test_fadd : lane0 (.fadd 8 9 10 0 0) 8 (two 0x3F800000 0x33800000) = 0x3F800000
    ∧ lane0 (.fadd 8 9 10 0 0) 8 (withRounding (some 3) none (two 0x3F800000 0x33800000)) = 0x3F800001
    ∧ (after (exec (.fadd 8 9 10 0 0) (two 0x3F800000 0x33800000))).fflags = 1 := by decide +kernel

/-- R108, R27: Inf − Inf is the canonical NaN with NV; 1 / 0 is +Inf with DZ. -/
theorem test_float_invalid : lane0 (.fsub 8 9 10 0 0) 8 (two 0x7F800000 0x7F800000) = 0x7FC00000
    ∧ (after (exec (.fsub 8 9 10 0 0) (two 0x7F800000 0x7F800000))).fflags = 16
    ∧ lane0 (.fdiv 8 9 10 0 0) 8 (two 0x3F800000 0) = 0x7F800000 ∧ (after (exec (.fdiv 8 9 10 0 0) (two 0x3F800000 0))).fflags = 8 := by decide +kernel

/-- R112: the square root of 2 is 0x3FB5_04F3, exp2(3) is 8 exactly, log2(8) is 3. -/
theorem test_functions : lane0 (.fsqrt 8 9 0 0) 8 (two 0x40000000 0) = 0x3FB504F3 ∧ lane0 (.fexp2 8 9 0 0) 8 (two 0x40400000 0) = 0x41000000
    ∧ lane0 (.flog2 8 9 0 0) 8 (two 0x41000000 0) = 0x40400000 := by decide +kernel

/-- R109: the minimum of −0 and +0 is −0, and a quiet NaN loses. -/
theorem test_fmin : lane0 (.fmin 8 9 10 0 0) 8 (two 0 0x80000000) = 0x80000000 ∧ lane0 (.fmin 8 9 10 0 0) 8 (two 0x7FC00000 0x40000000) = 0x40000000 := by
  decide +kernel

/-- The worked example of spec/05: 7.6 to DL8 is 0x57 with NX and one draw a lane; back it is 0x40EF_0000. -/
theorem test_cvt_example : lane0 (.cvt 10 9 6 0 0 0 0) 10 (two 0x40F33333 0) = 0x57 ∧ (after (exec (.cvt 10 9 6 0 0 0 0) (two 0x40F33333 0))).fflags = 1
    ∧ ((after (exec (.cvt 10 9 6 0 0 0 0) (two 0x40F33333 0))).thread 7).draws = 1
    ∧ lane0 (.cvt 11 10 0 6 0 0 0) 11 (two 0 0x57) = 0x40EF0000 := by decide +kernel

/-- The worked example of spec/05: the tree sum is 0x3F80_0002 in every lane. -/
theorem test_xred_example : reg (.xred 12 8 0 0) 12 (withRegs [(8, general (fun l => if l = 0 then 0x3F800000 else if l < 5 then 0x33800000 else 0))] base)
    = List.replicate 8 0x3F800002 := by decide +kernel

/-- R117: two fields into the upper half, the lower half kept. -/
theorem test_pack : lane0 (.packB8Hi 8 9 10 0) 8 (withRegs [(8, general (fun _ => 0x11112222))] (two 0xAB 0xCD)) = 0xCDAB2222 := by decide +kernel

/-- R103, R50: lanes below 4; p0 stays all ones. -/
theorem test_icmp : (after (exec (.icmp 0 0 1 9 10 2 0) (withRegs [(9, general (fun l => BitVec.ofNat 32 l)), (10, general (fun _ => 4))] base))).pred 1 = 0x0F
    ∧ (after (exec (.icmp 0 0 0 9 10 1 0) (two 1 1))).pred 0 = 0xFF := by decide +kernel

/-- R124: `xshfl.up` by 2 keeps lanes 0 and 1. -/
theorem test_xshfl : reg (.xshflUp 8 9 10 0) 8 (withRegs [(9, general (fun l => BitVec.ofNat 32 l)), (10, general (fun _ => 2))] base) = [0, 1, 0, 1, 2, 3, 4, 5] := by
  decide +kernel

/-! ### Control flow -/

/-- R155: `bra −7` from 0x4000 goes to 0x3FE4; guarded by an empty predicate it goes on. -/
theorem test_bra : ((after (exec (.bra 0x1FFFF9 0) base)).thread 3).pc = 0x3FE4 ∧ ((after (exec (.bra 0x1FFFF9 1) base)).thread 3).pc = 0x4004 := by decide +kernel

/-- R157: `call` 16 words on from 0x4000 leaves the return address 0x4004 in the pair. -/
theorem test_call : lane0 (.callDirect 31 16) 62 base = 0x4004 ∧ ((after (exec (.callDirect 31 16) base)).thread 0).pc = 0x4040 := by decide +kernel

/-- R162: `bar 16` does not exist; `bar 3` of the only strand completes at once, and the threads run on. -/
theorem test_bar : ((after (exec (.bar 3) base)).thread 0).state = .running ∧ ((after (exec (.bar 3) base)).thread 0).pc = 0x4004 := by decide +kernel

/-- R160: `sleep 2` waits until 128 cycles have passed. -/
theorem test_sleep : ((after (exec (.sleep 2) base)).thread 5).state = .waiting (.sleep 128) := by decide +kernel

/-- R167, R169, the table of spec/07: request 5 steals two of slot 2 and returns 8; request 9 takes 9 from slot 0. -/
theorem test_dispenser : dispense [⟨3, 3⟩, ⟨4, 6⟩, ⟨6, 10⟩] 0 = (some 8, [⟨9, 10⟩, ⟨4, 6⟩, ⟨6, 8⟩])
    ∧ dispense [⟨9, 10⟩, ⟨5, 6⟩, ⟨8, 8⟩] 2 = (some 9, [⟨9, 9⟩, ⟨5, 6⟩, ⟨10, 10⟩]) ∧ (dispense [⟨9, 9⟩, ⟨6, 6⟩, ⟨10, 10⟩] 1).1 = none := by decide +kernel

/-! ### Memory -/

/-- Addresses 0x5000 + 4 l in v40:v41, within the page that `withFetchWord` maps. -/
def mem1 : State := withRegs [(40, general (fun l => BitVec.ofNat 32 (0x5000 + 4 * l))), (8, general (fun l => BitVec.ofNat 32 (0x100 + l)))] base

def next (o : Host.Outcome State Fault Refusal) : State := match o with | .next t => t | _ => base

/-- R205, R179: a store changes memory when it is performed, little end first, and is counted until then. -/
theorem test_store : Memory.readNat (next (exec (.stB32 8 40 0 0) mem1)).mem 0x5004 4 = 0
    ∧ (after (exec (.stB32 8 40 0 0) mem1)).inflight.length = 1
    ∧ Memory.readBytes (next (exec (.storeAcknowledge 0 0 0) (next (exec (.stB32 8 40 0 0) mem1)))).mem 0x5004 4 = [0x01, 0x01, 0, 0] := by decide +kernel

/-- R204: a load delivers its value when it arrives. -/
theorem test_load : ((after (exec (.loadValueArrival 0 0 0) (next (exec (.ldB32 16 40 0 0) { mem1 with mem := Memory.writeBytes mem1.mem 0x5008 [1, 2, 3, 4] })))).reg 16).lanes.toList
    = [0, 0, 0x04030201, 0, 0, 0, 0, 0] := by decide +kernel

/-- R208: an atomic add returns the old word and adds. -/
theorem test_atom : let z := next (exec (.loadValueArrival 0 0 0) (next (exec (.atom 16 40 8 0 0) { mem1 with mem := Memory.writeBytes mem1.mem 0x5000 [5] })))
    ((after (.next z)).lane 16 0, Memory.readNat z.mem 0x5000 4) = (5, 0x105) := by decide +kernel

/-! ### System -/

/-- R431, R424 to R426: `trap 0x2A` with a handler at 0x4100. -/
def handled : State := { base with ctxs := base.ctxs.map (fun c => { c with trapPc := 0x4100 }) }

theorem test_trap : (after (exec (.trap 0x2A) handled)).trap.code = 0x2A ∧ (after (exec (.trap 0x2A) handled)).trap.next = true
    ∧ (after (exec (.trap 0x2A) handled)).trap.pc = 0x4000 ∧ ((after (exec (.trap 0x2A) handled)).thread 7).pc = 0x4100
    ∧ (after (exec (.trap 0x2A) handled)).handler = 0xFF := by decide +kernel

/-- R432: and `rtt` goes on past it. -/
theorem test_rtt : ((after (exec .rtt (next (exec (.trap 0x2A) handled)))).thread 7).pc = 0x4004 ∧ (after (exec .rtt (next (exec (.trap 0x2A) handled)))).handler = 0 := by
  decide +kernel

/-- R128, R144: `ctl.regcount` reads 64; the number 0x04A is reserved, and traps ILLEGAL (1). -/
theorem test_movc : reg (.movcRead 8 0x047) 8 base = List.replicate 8 64 ∧ (after (exec (.movcRead 8 0x04A) handled)).trap.cause = 1 := by decide +kernel

/-- R198, R424: a misaligned word traps ALIGN (4) in the lanes that have it; nothing is stored. -/
theorem test_store_misaligned : let t := after (exec (.stB32 8 40 0 0) (withRegs [(40, general (fun l => if l < 2 then 0x5000 else 0x5001))] handled))
    t.trap.cause = 4 ∧ t.trap.mask = 0xFC ∧ t.inflight = [] := by decide +kernel

/-- The whole way once: the bytes of `movi v8` at the program counter are fetched, decoded and run. -/
theorem test_step : ((after (step (State.reset.withFetchWord 32 0x11225678))).reg 8).lanes.toList = List.replicate 8 0xFFFE5678 := by decide +kernel

/-- R464: nothing runs at reset. -/
theorem test_reset_waits : (match step State.reset with | .next t => decide (t.crews = [] ∧ t.dev.stage = 0) | _ => false) = true := by decide +kernel

/-! ### Witnesses: machines that meet the hypotheses of the obligations -/

/-- The issuing strand's view. -/
def envOf (s : State) : Env :=
  match s.issuer with
  | some e => e
  | none => { s := s, c := fetchCrew s, t := Strand.entry 0 0 [] 0 }

/-- Whether the issuing strand starts the word. -/
def ready (s : State) (i : Instr) : Bool :=
  match s.issuer with
  | some e => !(reqOf i).illegal e && !(reqOf i).blocked e.t && !(reqOf i).sourceBad e.t
  | none => false

theorem starts_of_ready {s : State} {i : Instr} (h : ready s i = true) : Starts s (envOf s) i := by
  unfold ready at h
  cases hs : s.issuer with
  | none => rw [hs] at h; exact absurd h Bool.false_ne_true
  | some e =>
    rw [hs] at h
    simp only [Bool.and_eq_true, Bool.not_eq_true'] at h
    have he : envOf s = e := by unfold envOf; rw [hs]
    rw [he]
    exact ⟨hs, h.1.1, h.1.2, h.2⟩

theorem all_start {s : State} {is : List Instr} (h : is.all (ready s) = true) : ∀ i ∈ is, Starts s (envOf s) i :=
  fun i hi => starts_of_ready (List.all_eq_true.1 h i hi)

def goodEl (x : LaneEl) : Bool :=
  match x.cls with
  | .good _ => true
  | .absent _ => true
  | _ => false

theorem clear_of {m : Mask} {els : Nat → List LaneEl} (h : (lanesOf m).all (fun l => (els l).all goodEl) = true) : Clear m els := by
  intro l hl x hx
  have hg := List.all_eq_true.1 (List.all_eq_true.1 h l hl) x hx
  unfold goodEl at hg
  split at hg
  · exact ⟨_, .inl ‹_›⟩
  · exact ⟨_, .inr ‹_›⟩
  · exact absurd hg Bool.false_ne_true

def withThreads (f : Nat → Thread → Thread) : State → State := withStrand (fun t => { t with threads := t.threads.mapi f })
def withUnit (f : UnitSt → UnitSt) : State → State := withStrand (fun t => { t with unit := f t.unit })

/-! #### Lane words -/

/-- v8 and the pairs from v10 are uniform, as `movhi` needs. -/
def lanes : State := withRegs [(8, uniform 1), (9, uniform 2)] base

theorem witness_integer_arithmetic : ∀ i ∈ [Instr.add 8 10 12 7 0, .sub 8 9 10 0 1, .mul 8 10 12 2 0, .mulhi 63 62 61 1 7, .min 8 10 12 3 0, .max 0 0 0 0 0,
    .mad 8 9 10 11, .lea 63 9 10 7 0], Starts lanes (envOf lanes) i := all_start (by decide +kernel)

theorem witness_integer_logic : ∀ i ∈ [Instr.and 8 10 12 1 0, .or 8 9 10 0 0, .xor 8 9 10 0 7, .andn 8 9 10 0 0, .andn 8 10 12 1 0, .shl 8 9 10 0, .shr 8 9 10 0,
    .sar 8 9 10 0, .rot 8 9 10 0, .bfe 8 9 10 1 0, .bfi 8 9 10 11, .abs 8 9 0, .neg 8 9 0, .not 8 9 0, .clz 8 9 0, .popc 8 9 0, .brev 8 9 0,
    .sel 8 9 10 11, .mov 8 9 0 0, .mov 8 10 1 0], Starts lanes (envOf lanes) i := all_start (by decide +kernel)

theorem witness_integer_immediate : (∀ i ∈ [Instr.movi 8 0x3FFFF, .movhi 8 0x3FFF, .iota 8 0x1FF 0x100, .addImm 8 9 0x100 0, .mulImm 8 9 1 0, .andImm 8 9 0 0,
    .orImm 8 9 0 0, .xorImm 8 9 0 0, .minImm 8 9 0x1FF 0, .maxImm 8 9 0x0FF 0, .leaImm 8 9 1 0, .shlImm 8 9 31 0, .shrImm 8 9 0 0, .sarImm 8 9 31 0,
    .rotImm 8 9 1 0], Starts lanes (envOf lanes) i) ∧ ((envOf lanes).t.reg 8).tag = .uniform := ⟨all_start (by decide +kernel), by decide +kernel⟩

theorem witness_wrapping : (∀ i ∈ [Instr.add 8 9 10 5 0, .sub 8 9 10 1 0, .mul 8 9 10 5 0], Starts lanes (envOf lanes) i)
    ∧ (1 : BitVec 3).getLsbD 1 = false ∧ (envOf lanes).t.unit.sat ((1 : BitVec 3).getLsbD 2) = false := ⟨all_start (by decide +kernel), by decide +kernel⟩

theorem witness_float_rounding : ∀ i ∈ [Instr.fadd 8 9 10 0 0, .fsub 8 9 10 2 0, .fmul 8 9 10 4 0, .fma 8 9 10 1 0, .fdiv 8 9 10 0 0, .fscale 8 9 10 0 0,
    .fsqrt 8 9 0 0, .frcp 8 9 2 0, .frsqrt 8 9 4 0, .fexp2 8 9 0 0, .flog2 8 9 0 0, .fsin 8 9 0 0, .fcos 8 9 5 7, .ffract 8 9 2 0, .fround 8 9 0 0,
    .fdot2 8 9 10 1 0 0, .cvt 8 9 6 0 0 0 0, .cvt 8 9 0 7 1 1 0], Starts lanes (envOf lanes) i := all_start (by decide +kernel)

theorem witness_float_bits : ∀ i ∈ [Instr.fmin 8 9 10 0 0, .fmax 8 9 10 2 0, .fabs 8 9 1 0, .fneg 8 9 0 0, .fclass 8 9 2 7], Starts lanes (envOf lanes) i :=
  all_start (by decide +kernel)

theorem witness_pack_unpack : ∀ i ∈ [Instr.packB16 8 9 10 0, .packB8Lo 8 9 10 0, .packB8Hi 8 9 10 0, .packB4Q0 8 9 10 0, .packB4Q1 8 9 10 0, .packB4Q2 8 9 10 0,
    .packB4Q3 8 9 10 0, .unpack 8 9 1 1 0 0, .unpack 8 9 3 0 1 0, .unpack 8 9 7 1 2 0], Starts lanes (envOf lanes) i := all_start (by decide +kernel)

theorem witness_predicates : ∀ i ∈ [Instr.icmp 1 1 7 8 10 5 0, .icmp 0 0 0 8 9 0 0, .fcmp 0 1 8 9 0 0, .fcmp 2 1 8 9 5 0, .pand 1 2 3 0, .por 1 2 3 0,
    .pxor 0 2 3 0, .pnot 1 0 0, .pmov 7 1 0, .pfirst 1 2 0], Starts lanes (envOf lanes) i := all_start (by decide +kernel)

theorem witness_cross_lane : ∀ i ∈ [Instr.pcnt 8 0, .xperm 8 9 15 0, .xtab 8 9 1 0, .xbcast 8 9 7 0, .xshflIdx 8 9 10 0, .xshflXor 8 9 10 0, .xshflUp 8 9 10 0,
    .xshflDown 8 9 10 0, .xred 8 9 0 0, .xred 8 9 7 1, .xscan 8 9 0 0, .xmaxi 8 9 10 4 0, .voteAny 8 9 0, .voteAll 8 9 1, .voteBallot 8 9 0, .vshape 8 9 0],
    Starts lanes (envOf lanes) i := all_start (by decide +kernel)

theorem witness_representable : fmtFp32 ∈ [fmtFp32, fmtBf16, fmtFp16, fmtE5m2, fmtE4m3, fmtE2m1] ∧ 5 < 6 ∧ 0xFF7FFFFF < 2 * fmtFp32.signBit
    ∧ 0xFF7FFFFF % fmtFp32.signBit ≤ fmtFp32.maxFin := ⟨List.mem_cons_self .., by decide +kernel⟩

/-! #### Control flow -/

def jump (lo : Word) : State := withRegs [(20, uniform lo)] base

theorem witness_branching : (∀ i ∈ [Instr.bra 0 0, .brx 20 0, .ret 20 7, .callDirect 31 16, .callIndirect 0 20], Starts (jump 0x4040) (envOf (jump 0x4040)) i)
    ∧ (∀ l, l < 8 → (envOf (jump 0x4040)).badTarget ((envOf (jump 0x4040)).t.lane64 20 l).toNat = false)
    ∧ (envOf (jump 0x4040)).badTarget ((envOf (jump 0x4040)).directTarget 21 0) = false
    ∧ (envOf (jump 0x4040)).badTarget ((envOf (jump 0x4040)).directTarget 18 16) = false := ⟨all_start (by decide +kernel), by decide +kernel⟩

theorem witness_bad_targets : (∀ i ∈ [Instr.bra 0x100000 0, .brx 20 0, .ret 20 0, .callDirect 31 0x20000, .callIndirect 0 20], Starts (jump 0x4042) (envOf (jump 0x4042)) i)
    ∧ (∀ l, l < 8 → (envOf (jump 0x4042)).badTarget ((envOf (jump 0x4042)).t.lane64 20 l).toNat = true)
    ∧ (envOf (jump 0x4042)).badTarget ((envOf (jump 0x4042)).directTarget 21 0x100000) = true
    ∧ (envOf (jump 0x4042)).badTarget ((envOf (jump 0x4042)).directTarget 18 0x20000) = true
    ∧ maskFor (.brx 20 0) (envOf (jump 0x4042)) = 0xFF := ⟨all_start (by decide +kernel), by decide +kernel⟩

/-- A walker strand on the walk of a miss, which its core's walk shows. -/
def walking : State :=
  let s := base.modCore 0 (fun co => { co with walks := [{ num := 0, ctx := 0, va := 0x8000, kind := 0, joined := [], result := none, again := false, host := false }] })
  withCrew (fun c => { c with walker := true }) s

theorem witness_meet_sleep_exit : (∀ i ∈ [Instr.meet 0 0, .meet 5 0, .nop, .yield, .sleep 0, .sleep 4095, .exit 0, .exit 1], Starts base (envOf base) i)
    ∧ maskFor (.exit 0) (envOf base) ≠ 0 ∧ maskFor (.exit 1) (envOf base) = 0 ∧ (envOf base).c.walker = false
    ∧ Starts walking (envOf walking) (.exit 0) ∧ (envOf walking).c.walker = true :=
  ⟨all_start (by decide +kernel), by decide +kernel, by decide +kernel, by decide +kernel, starts_of_ready (by decide +kernel), by decide +kernel⟩

def fewBars : State := withCrew (fun c => { c with nbars := 2 }) base

theorem witness_barriers : (∀ i ∈ [Instr.bar 1, .bar 2, .gbar, .sbar], Starts fewBars (envOf fewBars) i) ∧ (1 : BitVec 4).toNat < (envOf fewBars).c.nbars
    ∧ (envOf fewBars).c.nbars ≤ (2 : BitVec 4).toNat := ⟨all_start (by decide +kernel), by decide +kernel⟩

/-- Sixteen registers of which eight are the strand's own blocks, up to a ceiling of 32. -/
def blocks : State := withStrand (fun t => { t with regs := t.regs.take 16 }) (withCrew (fun c => { c with baseRegs := 8, ceil := 32 }) base)

def persisting (b : Bool) : State :=
  { base with launches := base.launches.map (fun l => { l with pkt := { l.pkt with persist := b }, disp := [⟨0, 4⟩] }) }

theorem witness_blocks : (∀ i ∈ [Instr.rgrow 2, .rgrow 3, .rgrowTry 1 2, .rshrink 1], Starts blocks (envOf blocks) i) ∧ (envOf blocks).t.regs.length + 8 * 2 ≤ (envOf blocks).c.ceil
    ∧ (envOf blocks).c.ceil < (envOf blocks).t.regs.length + 8 * 3 ∧ (envOf blocks).t.grow = none ∧ (envOf blocks).olderWaits = false
    ∧ 2 ≤ (envOf blocks).commit.poolFree (envOf blocks).c.core ∧ (envOf blocks).c.baseRegs + 8 ≤ (envOf blocks).t.regs.length ∧ (envOf blocks).t.inflight = [] :=
  ⟨all_start (by decide +kernel), by decide +kernel⟩

theorem witness_dispenser : (∀ b, Starts (persisting b) (envOf (persisting b)) (.disp 8 1 0)
      ∧ ((persisting b).launch? (envOf (persisting b)).c.seq).map (fun l => l.pkt.persist) = some b)
    ∧ maskFor (.disp 8 1 0) (envOf (persisting true)) ≠ 0 :=
  ⟨fun b => by cases b <;> exact ⟨starts_of_ready (by decide +kernel), by decide +kernel⟩, by decide +kernel⟩

theorem witness_dispenser_ranges : 2 < [DispRange.mk 9 10, .mk 5 6, .mk 8 8].length ∧ ∀ r ∈ [DispRange.mk 9 10, .mk 5 6, .mk 8 8], r.lo ≤ r.hi := by decide +kernel

/-! #### Memory -/

/-- Aligned addresses in the mapped page in v40:v41; claims of 4 KiB on every buffer. -/
def data : State :=
  withRegs [(40, general (fun l => BitVec.ofNat 32 (0x5000 + 8 * l))), (42, general (fun l => BitVec.ofNat 32 (4 * l))), (20, uniform 0x5000)]
    (withCrew (fun c => { c with wclaim := ⟨0, 4096⟩, aclaim := ⟨0, 4096⟩, cclaim := ⟨0, 4096⟩ }) base)

theorem witness_loads : (∀ i ∈ [Instr.ldB32 16 40 0 0, .ldB64 16 40 0 0, .ldF32 16 40 0 0, .ldF16 16 40 0 0, .ldBf16 16 40 0 0, .ldI32 16 40 0 0],
      Starts data (envOf data) i ∧ maskFor i (envOf data) ≠ 0)
    ∧ memOff (envOf data).t.unit 0x1FF = some (-1) ∧ (envOf data).c.walker = false ∧ (envOf data).t.full .ld = false ∧ (envOf data).t.txActive = false
    ∧ (envOf data).namesLoads 0xFF = false
    ∧ (∀ ty ∈ [LoadTy.b32, .f32, .f16, .bf16, .i32], Clear 0xFF (loadEls (envOf data) ty (if ty = .b32 then 4 else 1) 40 0))
    ∧ Clear 0xFF (loadEls (envOf data) .b64 8 40 0) := by
  refine ⟨fun i hi => ⟨all_start (by decide +kernel) i hi, ?_⟩, by decide +kernel, by decide +kernel, by decide +kernel, by decide +kernel, by decide +kernel, ?_, ?_⟩
  · exact (by decide +kernel : ∀ i ∈ [Instr.ldB32 16 40 0 0, .ldB64 16 40 0 0, .ldF32 16 40 0 0, .ldF16 16 40 0 0, .ldBf16 16 40 0 0, .ldI32 16 40 0 0],
      maskFor i (envOf data) ≠ 0) i hi
  · intro ty hty
    simp only [List.mem_cons, List.not_mem_nil, or_false] at hty
    rcases hty with rfl | rfl | rfl | rfl | rfl <;> exact clear_of (by decide +kernel)
  · exact clear_of (by decide +kernel)

/-- The same load once more with naming on, from a page that is read only during launches: its value is in the table. -/
def named : State :=
  let page (t : Trans) : Trans := { t with entry := t.entry ||| 0x200 }
  let s := withCrew (fun c => { c with naming := true }) (data.modCore 0 (fun co => { co with tlb := co.tlb.map page }))
  next (exec (.loadValueArrival 0 0 0) (next (exec (.ldB32 16 40 0 0) (next (exec (.movi 41 0) (next (exec (.movi 40 0x5000) s)))))))

theorem witness_load_hit : Starts named (envOf named) (.ldB32 16 40 0 0) ∧ (envOf named).namesLoads 0xFF = true
    ∧ ((envOf named).reuse? ((reqOf (.ldB32 16 40 0 0)).loadKey (envOf named) 0xFF 0 [(envOf named).c.ctx, (envOf named).c.seq]) [16]).isSome = true :=
  ⟨starts_of_ready (by decide +kernel), by decide +kernel, by decide +kernel⟩

theorem witness_stores : (∀ i ∈ [Instr.stB8 8 40 0 0, .stB16 8 40 0 0, .stB32 8 40 0 0, .stB64 8 40 0 0], Starts data (envOf data) i)
    ∧ (∀ n ∈ [1, 2, 4, 8], Clear 0xFF (fun l => [rawEl ((envOf data).look l) pteW n ((envOf data).t.ea 40 0 n l)])) ∧ (envOf data).t.full .st = false
    ∧ (∀ l, l < 8 → ((envOf data).t.thread l).tx.open = false) := by
  refine ⟨all_start (by decide +kernel), fun n hn => ?_, by decide +kernel, by decide +kernel⟩
  simp only [List.mem_cons, List.not_mem_nil, or_false] at hn
  rcases hn with rfl | rfl | rfl | rfl <;> exact clear_of (by decide +kernel)

theorem witness_local_accesses : (∀ i ∈ [Instr.ldbW 16 42 0 0, .ldbA 16 42 0 0, .ldbC 16 42 0 0, .stbA 8 42 0 0, .stbC 8 42 0 0], Starts data (envOf data) i)
    ∧ (∀ sp ∈ [Space.wbuf, .abuf, .cbuf], ∀ b, LocalClear (envOf data) sp 0xFF ((envOf data).t.eaLocal 42 0) b)
    ∧ (∀ l ∈ lanesOf 0xFF, ∀ sp ∈ [Space.wbuf, .abuf, .cbuf], (envOf data).s.ue.contains (bufUnit 0 sp (0 + (envOf data).t.eaLocal 42 0 l)) = false) := by
  refine ⟨all_start (by decide +kernel), fun sp hsp b => ?_, by decide +kernel⟩
  simp only [List.mem_cons, List.not_mem_nil, or_false] at hsp
  rcases hsp with rfl | rfl | rfl <;> exact ⟨by decide +kernel, fun x hx => ((by decide +kernel : ∀ x ∈ ((envOf data).s.core (envOf data).c.core).sboard, False) x hx).elim⟩

/-- A store of lane 7 alone in flight, and an atomic. -/
def storing (i : Instr) : State := next (exec i (withStrand (fun t => { t with preds := t.preds.set 1 0x80 }) data))

theorem witness_store_performed : ∃ p accs, ((storing (.stB32 8 40 0 1)).env? 0 0).map (fun e => (e.c.state, e.t.inflight)) = some (.resident, [p]) ∧ p.ctr = .st
    ∧ p.done = false ∧ p.kind = .store 4 accs ∧ (storing (.stB32 8 40 0 1)).mem.wf = true :=
  ⟨_, _, by rfl, by rfl, by rfl, by rfl, by decide +kernel⟩

theorem witness_atomic_performed : ∃ p y, ((storing (.atom 16 40 8 7 1)).env? 0 0).map (fun e => (e.c.state, e.t.inflight)) = some (.resident, [p]) ∧ p.ctr = .ld
    ∧ p.done = false ∧ p.kind = .atom 7 16 [y] ∧ y.absent = false ∧ y.pa < kickBase ∧ (storing (.atom 16 40 8 7 1)).hasMemory y.pa = true
    ∧ (storing (.atom 16 40 8 7 1)).bad y.pa 8 = false :=
  ⟨_, _, by rfl, by rfl, by rfl, by rfl, by rfl, by decide +kernel, by decide +kernel, by decide +kernel⟩

theorem witness_atomics : (∀ i ∈ [Instr.atom 16 40 8 0 0, .atom 16 40 8 7 0, .atomAcq 16 40 8 2 0, .atomRel 16 40 8 1 0, .atomAcqRel 16 40 8 6 7, .cas 16 40 8 3 1 0,
      .cas 16 40 8 0 0 0, .acq, .rel, .fence], Starts data (envOf data) i)
    ∧ (∀ n ∈ [4, 8], Clear 0xFF (fun l => [rawEl ((envOf data).look l) pteRWA n ((envOf data).t.lane64 40 l).toNat]))
    ∧ (envOf data).t.full .ld = false ∧ (envOf data).release.t.full .ld = false := by
  refine ⟨all_start (by decide +kernel), fun n hn => ?_, by decide +kernel, by decide +kernel⟩
  simp only [List.mem_cons, List.not_mem_nil, or_false] at hn
  rcases hn with rfl | rfl <;> exact clear_of (by decide +kernel)

/-! #### Transactions and waiting -/

/-- Lanes 0 and 1 in a transaction of the given state that has read or written the word at 0x5000. -/
def inTx (st : Nat) (read : Word) (lock : Mask) : State :=
  withStrand (fun t => { t with locked := lock, preds := t.preds.set 1 0x01 }) (withThreads (fun l th => if l < 2 then
    { th with tx := { state := st, begun := true, fails := 8, prio := false, rset := [{ word := 0x5000 / 4, value := read, va := 0x5000, tr := none }], wset := [] } } else th) data)

theorem witness_transactions : (∀ i ∈ [Instr.txa 0, .txc 1 1], Starts (inTx 1 0 0) (envOf (inTx 1 0 0)) i) ∧ Starts data (envOf data) (.txb 0) ∧ maskFor (.txc 1 1) (envOf (inTx 1 0 0)) = laneBit 0
    ∧ ((envOf (inTx 1 0 0)).drainMem.t.thread 0).tx.active = true ∧ (envOf (inTx 1 0 0)).drainMem.s.validates ((envOf (inTx 1 0 0)).drainMem.t.thread 0).tx = true
    ∧ (envOf (inTx 1 7 0)).drainMem.s.validates ((envOf (inTx 1 7 0)).drainMem.t.thread 0).tx = false
    ∧ laneOn (envOf (inTx 1 0 1)).drainMem.t.locked 0 = true ∧ ((envOf (inTx 1 0 1)).drainMem.t.thread 0).tx.rset ≠ []
    ∧ Starts base (envOf base) (.txc 1 0) ∧ ((envOf base).drainMem.t.thread 0).tx.open = false :=
  ⟨all_start (by decide +kernel), starts_of_ready (by decide +kernel), by decide +kernel, by decide +kernel, by decide +kernel, by decide +kernel, by decide +kernel, by decide +kernel,
    starts_of_ready (by decide +kernel), by decide +kernel⟩

theorem witness_doomed : Starts (inTx 2 0 0) (envOf (inTx 2 0 0)) (.txc 1 1) ∧ ((envOf (inTx 2 0 0)).drainMem.t.thread 0).tx.doomed = true
    ∧ Starts (inTx 1 7 0) (envOf (inTx 1 7 0)) (.txc 1 1) ∧ Starts (inTx 1 0 1) (envOf (inTx 1 0 1)) (.txc 1 1) :=
  ⟨starts_of_ready (by decide +kernel), by decide +kernel, starts_of_ready (by decide +kernel), starts_of_ready (by decide +kernel)⟩

/-- Lane 7 writes the word that lane 0 has read. -/
def conflicting : State :=
  withThreads (fun l th => if l = 0 then { th with tx := { state := 1, begun := true, fails := 0, prio := false, rset := [{ word := 0x5000 / 4, value := 0, va := 0x5000, tr := none }], wset := [] } }
    else if l = 7 then { th with tx := { state := 1, begun := true, fails := 0, prio := false, rset := [], wset := [{ word := 0x5000 / 4, bytes := 0xF, value := 1, wide := false, tr := none }] } } else th) data

theorem witness_commit_conflict : Starts Tests.conflicting (envOf Tests.conflicting) (.txc 0 0) ∧ laneOn (maskFor (.txc 0 0) (envOf Tests.conflicting)) 0 = true
    ∧ laneOn (maskFor (.txc 0 0) (envOf Tests.conflicting)) 7 = true
    ∧ ((envOf Tests.conflicting).drainMem.t.thread 0).tx.active = true ∧ ((envOf Tests.conflicting).drainMem.t.thread 7).tx.active = true
    ∧ ((envOf Tests.conflicting).drainMem.t.thread 0).tx.conflicts ((envOf Tests.conflicting).drainMem.t.thread 7).tx = true :=
  ⟨starts_of_ready (by decide +kernel), by decide +kernel⟩

/-- `waita` on words that hold what is expected, with the latest deadline there is. -/
def waiting : State := withRegs [(44, uniform 0xFFFFFFFF), (45, uniform 0xFFFFFFFF), (16, uniform 0)] data

theorem witness_waita : Starts waiting (envOf waiting) (.waita 16 40 44 1 0) ∧ maskFor (.waita 16 40 44 1 0) (envOf waiting) ≠ 0
    ∧ Clear 0xFF (fun l => [rawEl ((envOf waiting).look l) pteR 4 ((envOf waiting).t.lane64 40 l).toNat])
    ∧ (∀ l, l < 8 → (envOf waiting).waitaRead (rawEl ((envOf waiting).look l) pteR 4 ((envOf waiting).t.lane64 40 l).toNat) = some 0)
    ∧ (∀ l, l < 8 → (envOf waiting).s.clock.toNat ≤ ((envOf waiting).t.lane64 44 l).toNat) ∧ (envOf waiting).t.waita = none ∧ (envOf waiting).t.inflight = [] :=
  ⟨starts_of_ready (by decide +kernel), by decide +kernel, clear_of (by decide +kernel), by decide +kernel, by decide +kernel, by decide +kernel⟩

/-! #### Copies, waits and residency -/

/-- Copies of lane 0: eight FP32 words from 0x5000 to ABUF, a block of two rows, and a table in ABUF. -/
def copying (cw : Word) : State :=
  withRegs [(48, uniform 8), (50, uniform 0x20004), (51, uniform 32), (52, uniform cw), (53, uniform 32)] data

def planOf (e : Env) (cw : Word) (n m : Nat) (x y : Int) : CopyPlan :=
  { dst := { space := spaceOf (cwDS cw), base := e.t.copyAddr (spaceOf (cwDS cw)) 42 0, stride := x, m := m, n := n, bits := sideBits (cwDT cw), perm := pteW, whole := true }
    src := { space := spaceOf (cwSS cw), base := e.t.copyAddr (spaceOf (cwSS cw)) 40 0, stride := y, m := m, n := n, bits := sideBits (cwST cw), perm := pteR, whole := false }
    table := none }

def tablePlan (e : Env) (cw : Word) (n : Nat) : CopyPlan :=
  let w := 2 ^ bitsOf cw.toNat 0 2
  { dst := { space := spaceOf (cwDS cw), base := e.t.copyAddr (spaceOf (cwDS cw)) 42 0, stride := 0, m := 1, n := n, bits := some (8 * w), perm := pteW, whole := true }
    src := { space := spaceOf (cwSS cw), base := e.t.copyAddr (spaceOf (cwSS cw)) 40 0, stride := 0, m := 1, n := n, bits := some 8, perm := pteR, whole := false }
    table := (spaceOf (bitsOf cw.toNat 12 2)).map (fun sp => (sp, (e.t.lane 53 0).toNat, w)) }

/-- One side of a copy: translated, aligned and permitted, and inside its claim. -/
def sideClear (e : Env) (x : Side) : Bool :=
  let r := x.scan (e.look 0)
  r.needs.isEmpty && !r.align && r.refused.isEmpty
    && (match x.space with | some sp => (x.leaves (e.c.claim sp).size).isNone | none => true)

theorem sideClear_spec {e : Env} {x : Side} (h : sideClear e x = true) : (x.scan (e.look 0)).needs = [] ∧ (x.scan (e.look 0)).align = false
    ∧ (x.scan (e.look 0)).refused = [] ∧ ∀ sp, x.space = some sp → x.leaves (e.c.claim sp).size = none := by
  simp only [sideClear, Bool.and_eq_true, List.isEmpty_iff, Bool.not_eq_true'] at h
  refine ⟨h.1.1.1, h.1.1.2, h.1.2, fun sp hs => ?_⟩
  have hi := h.2
  rw [hs] at hi
  exact Option.isNone_iff_eq_none.1 hi

/-- What `CopyClear` asks beside its two sides: the table, the formats, and room on the scoreboard and the counter. -/
def copyRoom (e : Env) (p : CopyPlan) (cw : Word) : Bool :=
  (match p.table with | some (sp, off, w) => off % w = 0 && off + 256 * w ≤ (e.c.claim sp).size | none => true)
    && (p.dst.scan (e.look 0)).fmts.all (fun f => !modeRefused f (cwRM cw))
    && (decide (e.c.core < e.s.cores.length) && decide ((e.s.board e.c.core).length + p.ranges.length ≤ 32) && !e.t.full .cp)

theorem copyClear_of {e : Env} {p : CopyPlan} {cw : Word} (h : (sideClear e p.src && sideClear e p.dst && copyRoom e p cw) = true) :
    CopyClear e p cw 0 := by
  have sides := (Bool.and_eq_true _ _).mp ((Bool.and_eq_true _ _).mp h).1
  have src := sideClear_spec sides.1
  have dst := sideClear_spec sides.2
  have room := ((Bool.and_eq_true _ _).mp h).2
  simp only [copyRoom, Bool.and_eq_true, Bool.not_eq_true', decide_eq_true_eq] at room
  refine ⟨src.1, dst.1, src.2.1, dst.2.1, src.2.2.1, dst.2.2.1, src.2.2.2, dst.2.2.2, fun sp off w ht => ?_, fun f hf => ?_,
    room.2.1.1, room.2.1.2, room.2.2⟩
  · have := room.1.1
    rw [ht] at this
    simpa using this
  · simpa using List.all_eq_true.1 room.1.2 f hf

theorem witness_copies : (∀ i ∈ [Instr.cp 42 40 48 52, .cp2 42 40 50 52], Starts (copying 0x211) (envOf (copying 0x211)) i)
    ∧ copyIllegal 0x211 (fun sp => ((envOf (copying 0x211)).c.claim sp).size) = false
    ∧ CopyClear (envOf (copying 0x211)) (planOf (envOf (copying 0x211)) 0x211 8 1 0 0) 0x211 0
    ∧ CopyClear (envOf (copying 0x211)) (planOf (envOf (copying 0x211)) 0x211 4 2 32 32) 0x211 0
    ∧ lowLane (envOf (copying 0x211)).t.group = 0 :=
  ⟨all_start (by decide +kernel), by decide +kernel, copyClear_of (by decide +kernel), copyClear_of (by decide +kernel), by decide +kernel⟩

theorem witness_table_copy : Starts (copying 0x2300) (envOf (copying 0x2300)) (.cptab 42 40 48 52)
    ∧ tableIllegal 0x2300 (fun sp => ((envOf (copying 0x2300)).c.claim sp).size) = false
    ∧ CopyClear (envOf (copying 0x2300)) (tablePlan (envOf (copying 0x2300)) 0x2300 8) (0x2300 &&& 0xF00) 0 :=
  ⟨starts_of_ready (by decide +kernel), by decide +kernel, copyClear_of (by decide +kernel)⟩

theorem witness_refused_copies : (∀ i ∈ [Instr.cp 42 40 48 52, .cp2 42 40 50 52, .cptab 42 40 48 52], Starts (copying 0x10000) (envOf (copying 0x10000)) i)
    ∧ copyIllegal 0x10000 (fun sp => ((envOf (copying 0x10000)).c.claim sp).size) = true
    ∧ tableIllegal 0x10000 (fun sp => ((envOf (copying 0x10000)).c.claim sp).size) = true := ⟨all_start (by decide +kernel), by decide +kernel⟩

def none63 : Thresholds := { ld := 63, st := 63, cp := 63, mx := 63, tr := 63, sr := 63, cl := 63 }

def copyInFlight : State := next (exec (.cp 40 42 48 52) (copying 0x811))

/-- A publication that only an event of its own ends. -/
def publishing : State :=
  withStrand (fun t => { t with inflight := [{ id := 0, ctr := .cl, dsts := [], pdst := none, pc := 0x4000, kind := .publish 0 0 0, done := false, srcs := [], gone := 0 }], nextOp := 1 }) base

theorem witness_counter_waits : (∀ i ∈ [Instr.wait 63 63 63 63, .waitx 63 63 63], Starts base (envOf base) i) ∧ (envOf base).t.thresholdsMet none63 = true
    ∧ (envOf base).t.observesStale none63 = false
    ∧ Starts (storing (.stB32 8 40 0 0)) (envOf (storing (.stB32 8 40 0 0))) (.wait 63 0 63 63)
    ∧ (envOf (storing (.stB32 8 40 0 0))).t.thresholdsMet { none63 with st := 0 } = false
    ∧ ((envOf (storing (.stB32 8 40 0 0))).settle (fun p => ({ none63 with st := 0 } : Thresholds).names.contains p.ctr)).t.thresholdsMet { none63 with st := 0 } = true
    ∧ ((envOf (storing (.stB32 8 40 0 0))).settle (fun p => ({ none63 with st := 0 } : Thresholds).names.contains p.ctr)).t.observesStale { none63 with st := 0 } = false :=
  ⟨all_start (by decide +kernel), by decide +kernel, by decide +kernel, starts_of_ready (by decide +kernel), by decide +kernel, by decide +kernel, by decide +kernel⟩

theorem witness_stale_waits : Starts copyInFlight (envOf copyInFlight) (.wait 63 63 0 63) ∧ (envOf copyInFlight).t.thresholdsMet { none63 with cp := 0 } = false
    ∧ ((envOf copyInFlight).settle (fun p => ({ none63 with cp := 0 } : Thresholds).names.contains p.ctr)).t.thresholdsMet { none63 with cp := 0 } = true
    ∧ ((envOf copyInFlight).settle (fun p => ({ none63 with cp := 0 } : Thresholds).names.contains p.ctr)).t.observesStale { none63 with cp := 0 } = true
    ∧ (envOf (next (exec (.copyCompletion 0 0 0) copyInFlight))).t.thresholdsMet { none63 with cp := 0 } = true
    ∧ (envOf (next (exec (.copyCompletion 0 0 0) copyInFlight))).t.observesStale { none63 with cp := 0 } = true
    ∧ Starts publishing (envOf publishing) (.waitx 63 63 0) ∧ (envOf publishing).t.thresholdsMet { none63 with cl := 0 } = false
    ∧ ((envOf publishing).settle (fun p => ({ none63 with cl := 0 } : Thresholds).names.contains p.ctr)).t.thresholdsMet { none63 with cl := 0 } = false :=
  ⟨starts_of_ready (by decide +kernel), by decide +kernel, by decide +kernel, by decide +kernel, by decide +kernel, by decide +kernel,
    starts_of_ready (by decide +kernel), by decide +kernel, by decide +kernel⟩

def found (x : Lookup) : Bool := match x with | .found _ => true | _ => false

/-- Addresses above 2^57 in v44:v45. -/
def wild : State := withRegs [(44, uniform 0), (45, uniform 0x02000000)] data

theorem witness_residency : (∀ i ∈ [Instr.pgreq 16 40 0, .pfetch 40 1 1 0], Starts data (envOf data) i ∧ maskFor i (envOf data) = 0xFF)
    ∧ (∀ l, l < 8 → vaBad ((envOf data).t.lane64 40 l).toNat = false ∧ found ((envOf data).look l ((envOf data).t.lane64 40 l).toNat) = true)
    ∧ (envOf data).t.full .cp = false ∧ Starts wild (envOf wild) (.pgreq 16 44 0)
    ∧ maskOf (fun l => laneOn (maskFor (.pgreq 16 44 0) (envOf wild)) l && vaBad ((envOf wild).t.lane64 44 l).toNat) ≠ 0 := by
  refine ⟨fun i hi => ⟨all_start (by decide +kernel) i hi, ?_⟩, by decide +kernel, by decide +kernel, starts_of_ready (by decide +kernel), by decide +kernel⟩
  exact (by decide +kernel : ∀ i ∈ [Instr.pgreq 16 40 0, .pfetch 40 1 1 0], maskFor i (envOf data) = 0xFF) i hi

theorem witness_prefetch_known : ∀ l, l < 8 → ∀ j, j < 2 → vaBad ((((envOf data).t.lane64 40 l).toNat / 128 + j) * 128) = false
    ∧ (envOf data).look l ((((envOf data).t.lane64 40 l).toNat / 128 + j) * 128) ≠ .miss := by decide +kernel

/-! #### Regions, translation and traps -/

def region (open_ : Bool) (at_ : Option VAddr) : State := withCrew (fun c => { c with region := open_, idemAt := at_ }) base

theorem witness_regions : Starts (region false none) (envOf (region false none)) .idemb ∧ (envOf (region false none)).t.inflight = []
    ∧ (envOf (region false none)).c.idemAt = none ∧ Starts (region true none) (envOf (region true none)) .ideme ∧ (envOf (region true none)).c.region = true
    ∧ Starts (region false none) (envOf (region false none)) .ideme ∧ Starts (region false (some 0x4100)) (envOf (region false (some 0x4100))) .idemb
    ∧ (0x4100 : VAddr) ≠ (envOf (region false (some 0x4100))).t.fetchPc :=
  ⟨starts_of_ready (by decide +kernel), by decide +kernel, by decide +kernel, starts_of_ready (by decide +kernel), by decide +kernel,
    starts_of_ready (by decide +kernel), starts_of_ready (by decide +kernel), by decide +kernel⟩

theorem witness_translation : (∀ i ∈ [Instr.tlbw 40 3, .tlbw 40 1, .walkd], Starts walking (envOf walking) i) ∧ (envOf walking).c.walker = true
    ∧ vaBad ((envOf walking).t.lane64 40 0).toNat = false
    ∧ (∀ i ∈ [Instr.tlbw 40 3, .walkd, .tlbiVaCore 40, .tlbiVaAll 40, .tlbiCtxCore, .tlbiCtxAll, .lpiCore, .lpiAll], Starts data (envOf data) i)
    ∧ vaBad ((envOf data).t.lane64 40 0).toNat = false
    ∧ (∀ i ∈ [Instr.tlbiVaCore 44, .tlbiVaAll 44], Starts wild (envOf wild) i) ∧ vaBad ((envOf wild).t.lane64 44 0).toNat = true :=
  ⟨all_start (by decide +kernel), by decide +kernel, by decide +kernel, all_start (by decide +kernel), by decide +kernel, all_start (by decide +kernel), by decide +kernel⟩

def inHandler (i : Instr) : State := next (exec i handled)

theorem witness_translation_free : ∀ all ∈ [true, false], (envOf data).release.commit.bufferedThrough (some (0, 0)) (if all then (envOf data).release.s.enabledCores else [(envOf data).c.core])
    (envOf data).c.ctx (fun _ => true) = false := by decide +kernel

theorem witness_traps : (∀ i ∈ [Instr.trap 0xFFF, .brk 0, .rtt, .snap 5], Starts base (envOf base) i) ∧ (envOf base).t.inHandler = false
    ∧ Starts (inHandler (.brk 1)) (envOf (inHandler (.brk 1))) .rtt ∧ (envOf (inHandler (.brk 1))).t.inHandler = true ∧ (envOf (inHandler (.brk 1))).t.trap.next = false
    ∧ (envOf (inHandler (.brk 1))).t.unit.sched ≠ some true
    ∧ Starts (inHandler (.trap 1)) (envOf (inHandler (.trap 1))) .rtt ∧ (envOf (inHandler (.trap 1))).t.trap.next = true
    ∧ (envOf (inHandler (.trap 1))).unitWords (envOf (inHandler (.trap 1))).t.trap.pc.toNat 1024 = .ok 1 :=
  ⟨all_start (by decide +kernel), by decide +kernel, starts_of_ready (by decide +kernel), by decide +kernel, by decide +kernel, by decide +kernel,
    starts_of_ready (by decide +kernel), by decide +kernel, by rfl⟩

/-! #### Prefixes and control registers -/

theorem witness_prefixes : base.issuer = some (envOf base) ∧ staticIllegal (.hintPref 0 0 0 0) = false ∧ staticIllegal (.hintRnd 5 1 1 1) = false
    ∧ staticIllegal (.hintRnd 6 1 0 0) = true ∧ staticIllegal (.hintSched 15 0 1) = false ∧ (envOf base).t.badResume 64 = false ∧ (envOf base).t.repHeld = none
    ∧ (envOf (withStrand (fun t => { t with resume := true, repleft := 5 }) base)).t.badResume 4 = true := ⟨by rfl, by decide +kernel⟩

theorem witness_controls : (∀ i ∈ [Instr.movcRead 8 0x000, .movcRead 8 0x049, .movcRead 8 0x04A, .movcWrite 8 0x000, .movcWrite 8 0x040, .movcWrite 8 0x041, .movcWrite 8 0x180,
      .movcWrite 8 0x185], Starts base (envOf base) i) ∧ ((envOf base).control 0x049).isSome = true ∧ ((envOf base).control 0x04A).isNone = true
    ∧ writable 0x041 = false ∧ (match (envOf base).writeControl 0x040 1 with | .done _ => true | _ => false) = true ∧ (envOf base).t.inflight = []
    ∧ (∀ i ∈ [Instr.movcWrite 8 0x180, .movcWrite 8 0x185], Starts (inHandler (.trap 1)) (envOf (inHandler (.trap 1))) i) :=
  ⟨all_start (by decide +kernel), by decide +kernel, by decide +kernel, by decide +kernel, by decide +kernel, by decide +kernel, all_start (by decide +kernel)⟩


/-! #### The Swage -/

def tileReady (s : State) (i : Instr) : Bool :=
  ready s i && (envOf s).holdsSwage && !(envOf s).srdtOpen && maskFor i (envOf s) != 0 && !(envOf s).t.full .mx

theorem tileReady_of {s : State} {i : Instr} (h : tileReady s i = true) : TileReady s (envOf s) i := by
  simp only [tileReady, Bool.and_eq_true, Bool.not_eq_true', bne_iff_ne] at h
  obtain ⟨⟨⟨⟨h1, h2⟩, h3⟩, h4⟩, h5⟩ := h
  exact ⟨starts_of_ready h1, h2, h3, h4, h5⟩

def tile (shape : Word) : Tile := { (.fresh : Tile) with shape := shape }

/-- The Swage held, or not: two rows of FP16 in tiles 0 (four columns) and 1 (eight), an index tile in 2, tile 3 without a shape;
cv0 is not declared, cv1 takes nine signatures, cv2 takes eight, cv3 has one of two. -/
def swaging (held : Option Nat) (sigs : Nat) : State :=
  let s := withRegs [(20, uniform 0x5000), (22, uniform 8), (24, uniform 0), (25, uniform 64), (26, uniform 0x3F800000), (27, uniform 0x202), (28, uniform 0x10000)] data
  s.modCore 0 (fun co => { co with holder := held, swage := { co.swage with
    tiles := [tile 0x402, tile 0x802, tile 0xA00402] ++ List.replicate 13 (tile 0)
    cvs := [⟨0, 0, none, []⟩, ⟨9, 0, none, []⟩, ⟨8, 0, none, []⟩, ⟨2, sigs, none, []⟩] ++ List.replicate 4 ⟨0, 0, none, []⟩ } })

/-- A strand of a crew that another crew's reservation keeps out, and of one that no reservation keeps out. -/
theorem witness_reservation : (∀ h ∈ [none, some 1], ∀ i ∈ [Instr.mres 0, .mres 1, .mrel, .mstat 8, .cdecl 0 512], Starts (swaging h 0) (envOf (swaging h 0)) i)
    ∧ (envOf (swaging none 0)).t.inflight = [] ∧ ((envOf (swaging none 0)).s.core 0).holder = none ∧ ((envOf (swaging (some 1) 0)).s.core 0).holder ≠ none
    ∧ (envOf (swaging (some 1) 0)).holdsSwage = false ∧ (envOf (swaging (some 1) 0)).t.inflight = [] := by
  refine ⟨fun h hh => ?_, by decide +kernel⟩
  simp only [List.mem_cons, List.not_mem_nil, or_false] at hh
  rcases hh with rfl | rfl <;> exact all_start (by decide +kernel)

theorem witness_holder : (∀ n ∈ [0, 1], ∀ i ∈ [Instr.mres 1, .mrel, .mstat 8, .cdecl 2 1, .cdecl 3 1], Starts (swaging (some 0) n) (envOf (swaging (some 0) n)) i)
    ∧ (envOf (swaging (some 0) 0)).holdsSwage = true ∧ (envOf (swaging (some 0) 1)).holdsSwage = true ∧ (envOf (swaging (some 0) 0)).t.full .mx = false
    ∧ (∀ v ∈ (envOf (swaging (some 0) 0)).swage.cvs, v.sigs = 0) ∧ (∃ v ∈ (envOf (swaging (some 0) 1)).swage.cvs, 0 < v.sigs)
    ∧ (envOf (swaging (some 0) 1)).swage.cvs[3]? = some ⟨2, 1, none, []⟩ := by
  refine ⟨fun n hn => ?_, by decide +kernel, by decide +kernel, by decide +kernel, by decide +kernel, by decide +kernel, by decide +kernel⟩
  simp only [List.mem_cons, List.not_mem_nil, or_false] at hn
  rcases hn with rfl | rfl <;> exact all_start (by decide +kernel)

def held : State := swaging (some 0) 0

theorem all_ready {s : State} {is : List Instr} (h : is.all (tileReady s) = true) : ∀ i ∈ is, TileReady s (envOf s) i :=
  fun i hi => tileReady_of (List.all_eq_true.1 h i hi)

theorem witness_tile_arithmetic : (∀ i ∈ [Instr.tzero 15 0 0 0, .mswap 0 0 0, .mclr 1 0 0 1 0, .mma 0 0 0 0 0, .mma 0 1 0 0 0, .mmas 2 0 1 0 0 0, .mmas 0 0 1 0 0 0,
      .mdrain 0 12 13 0 0 4 2 0, .mdrain 0 14 13 0 0 3 0 0], TileReady held (envOf held) i)
    ∧ (let w := (envOf held).swage
       w.mulRefused (w.tile 0) (w.tile 0) ((w.tile 0).cols = (w.tile 0).cols) none = none
       ∧ w.mulRefused (w.tile 0) (w.tile 1) ((w.tile 1).cols = (w.tile 0).cols) none = some cSHAPE
       ∧ w.mulRefused (w.tile 0) (w.tile 1) ((w.tile 1).cols % 4 = 0 && (w.tile 0).cols = (w.tile 1).cols / 2 && (w.tile 2).rows = (w.tile 0).rows
           && (w.tile 2).cols = (w.tile 1).cols / 2) (some (w.tile 2)) = none
       ∧ w.mulRefused (w.tile 0) (w.tile 1) true (some (w.tile 0)) = some cILLEGAL)
    ∧ (envOf held).swSound = true
    ∧ drainRefused (envOf held).c.cclaim.size 4 (envOf held).t.unit.mode 0x202 0 64 = none
    ∧ drainRefused (envOf held).c.cclaim.size 3 (envOf held).t.unit.mode 0x202 0x10000 0 = some cPERM :=
  ⟨all_ready (by decide +kernel), by decide +kernel⟩

/-- `MoveClear` as a computation. -/
def moveClear (e : Env) (tn lane : Nat) (isMeta : Bool) (perm : DWord → Bool) (sp : BitVec 2) (a b : BitVec 4) : Bool :=
  let t := e.swage.tile tn
  let base := e.moveBase sp a lane
  (decide (t.fmt = fmtMeta) == isMeta) && t.rows != 0 && (sp != 0 || !vaBad base)
  && (tileBits t.fmt != 16 || (base % 2 == 0 && e.moveStride b lane % 2 == 0))
  && (e.moveRows tn lane sp a b).all (fun r => decide (0 ≤ r) && (match spaceOf sp.toNat with
      | none => decide (r + t.memRow ≤ 2 ^ 57)
      | some x => decide (r + t.memRow ≤ (e.c.claim x).size)))
  && (sp != 0 || (e.movePieces tn lane perm sp a b).all (fun p => match p.cls with | .good _ => true | .absent _ => true | _ => false))

theorem moveClear_of {e : Env} {tn lane : Nat} {isMeta : Bool} {perm : DWord → Bool} {sp : BitVec 2} {a b : BitVec 4}
    (h : moveClear e tn lane isMeta perm sp a b = true) : MoveClear e tn lane isMeta perm sp a b := by
  simp only [moveClear, Bool.and_eq_true, Bool.or_eq_true, beq_iff_eq, bne_iff_ne, Bool.not_eq_true'] at h
  obtain ⟨⟨⟨⟨⟨h1, h2⟩, h3⟩, h4⟩, h5⟩, h6⟩ := h
  refine ⟨h1, h2, fun h => h3.resolve_left (fun g => g h), fun h => h4.resolve_left (fun g => g h), fun r hr => ?_, fun h p hp => ?_⟩
  · have hx := List.all_eq_true.1 h5 r hr
    simp only [Bool.and_eq_true, decide_eq_true_eq] at hx
    refine ⟨hx.1, ?_⟩
    cases hsp : spaceOf sp.toNat <;> rw [hsp] at hx <;> exact of_decide_eq_true hx.2
  · have hx := List.all_eq_true.1 (h6.resolve_left (fun g => g h)) p hp
    split at hx
    · exact ⟨_, .inl ‹_›⟩
    · exact ⟨_, .inr ‹_›⟩
    · exact absurd hx Bool.false_ne_true

theorem witness_tile_moves : (∀ i ∈ [Instr.tld 0 10 11 0 0 0 0 0, .tld 0 12 11 0 0 3 0 0, .tld 0 10 11 0 0 0 1 0, .tld 2 10 11 0 0 0 0 0, .tld 3 10 11 0 0 0 0 0,
      .tmeta 2 10 11 0 0 0 0, .tmeta 0 10 11 0 0 0 0, .tst 0 10 11 0 0 0 0, .tst 0 12 11 0 0 2 0], TileReady held (envOf held) i)
    ∧ (envOf held).s.ue = [] ∧ MoveClear (envOf held) 0 0 false pteR 0 10 11 ∧ MoveClear (envOf held) 0 0 false pteR 3 12 11
    ∧ MoveClear (envOf held) 2 0 true pteR 0 10 11 ∧ MoveClear (envOf held) 0 0 false pteW 0 10 11 ∧ MoveClear (envOf held) 0 0 false pteW 2 12 11
    ∧ ((envOf held).swage.tile 2).fmt = fmtMeta ∧ ((envOf held).swage.tile 3).rows = 0 :=
  ⟨all_ready (by decide +kernel), by decide +kernel, moveClear_of (by decide +kernel), moveClear_of (by decide +kernel), moveClear_of (by decide +kernel),
    moveClear_of (by decide +kernel), moveClear_of (by decide +kernel), by decide +kernel, by decide +kernel⟩

theorem witness_page_move : let e := envOf held
    let rows := rowStarts (e.swage.tile 0) (e.moveBase 0 10 0) (e.moveStride 11 0)
    let sc := rows.foldl (fun (q : PgScan) r => q.row (e.look 0) (e.swage.tile 0) r) { needs := [], align := false, refused := [], rows := [] }
    sc.needs = [] ∧ sc.align = false ∧ sc.refused = [] ∧ vaBad (e.moveBase 0 10 0) = false ∧ e.moveBase 0 10 0 % 2 = 0 ∧ e.moveStride 11 0 % 2 = 0 := by
  decide +kernel

/-- cv1 takes a ninth signature, cv0 is not declared, cv3 takes two. -/
theorem witness_signatures : (∀ i ∈ [Instr.tzero 0 1 1 0, .mswap 1 1 0, .mclr 0 1 1 0 0, .mma 0 0 1 1 0, .mmas 2 0 1 1 1 0, .mdrain 0 12 13 1 1 0 0 0, .tld 0 10 11 1 1 0 1 0,
      .tmeta 2 10 11 1 1 0 0, .tst 0 10 11 1 1 0 0, .tzero 0 0 1 0, .mma 0 0 3 1 0], TileReady held (envOf held) i)
    ∧ (let cv (c : Nat) : Conv := (envOf held).swage.cvs.getD c ⟨0, 0, none, []⟩
       (cv 1).decl ≠ 0 ∧ (cv 1).sigs = 0 ∧ (cv 1).sigs + laneCount (maskFor (.mma 0 0 1 1 0) (envOf held)) < (cv 1).decl ∧ (cv 0).decl = 0
       ∧ (cv 3).decl < (cv 3).sigs + laneCount (maskFor (.mma 0 0 3 1 0) (envOf held))) :=
  ⟨all_ready (by decide +kernel), by decide +kernel⟩

/-! #### Fields, rays and samples -/

/-- A field of one level in two dimensions at 0x5000, a texture at 0x5040, one with three channels at 0x5060, a grid at 0x5080, a
scene at 0x50C0, one whose nodes are misaligned at 0x50E0, a field with SCALE 63 at 0x5100. -/
def fielding : State :=
  let fld (scale : Nat) : List Byte := leBytes 8 0x6000 ++ leBytes 8 0x7000 ++ leBytes 4 4 ++ leBytes 4 scale ++ leBytes 4 2
  let txt (flags : Nat) : List Byte := leBytes 8 0x6000 ++ leBytes 2 1 ++ leBytes 2 1 ++ leBytes 4 4 ++ leBytes 4 flags
  let grd : List Byte := leBytes 8 0x6000 ++ leBytes 4 0 ++ leBytes 4 0 ++ leBytes 4 0 ++ leBytes 4 0x3F800000 ++ leBytes 4 0x3F800000
  let put (s : State) (x : Nat × List Byte) : State := { s with mem := Memory.writeBytes s.mem x.1 x.2 }
  [(0x5000, fld 0), (0x5040, txt 0), (0x5060, txt 3), (0x5080, grd), (0x50C0, leBytes 8 0x6000 ++ leBytes 8 0x7000), (0x50E0, leBytes 8 0x6020 ++ leBytes 8 0x7000),
      (0x5100, fld 63)].foldl put
    (withRegs [(20, uniform 0x5000), (22, uniform 0x5040), (24, uniform 0x5060), (26, uniform 0x5080), (28, uniform 0x50C0), (30, uniform 0x50E0), (32, uniform 0x5100),
      (34, uniform 0), (35, uniform 16)] base)

/-- `StructAt` as a computation. -/
def structAt (e : Env) (lane va n : Nat) : Bool :=
  !vaBad va && va % n == 0 && match e.look lane va with
    | .found tr => pteR tr.entry && pteP tr.entry && !e.s.bad (tr.pa va) n
    | _ => false

def structBytes (e : Env) (lane va n : Nat) : List Byte :=
  match e.look lane va with | .found tr => e.s.peekBytes (tr.pa va) n | _ => []

theorem structAt_of {e : Env} {lane va n : Nat} (h : structAt e lane va n = true) : StructAt e lane va n (structBytes e lane va n) := by
  unfold structAt at h
  simp only [Bool.and_eq_true, Bool.not_eq_true', beq_iff_eq] at h
  obtain ⟨⟨h1, h2⟩, h3⟩ := h
  cases hl : e.look lane va with
  | found tr =>
    rw [hl] at h3
    simp only [Bool.and_eq_true, Bool.not_eq_true'] at h3
    exact ⟨h1, h2, tr, hl, h3.1.1, h3.1.2, h3.2, by unfold structBytes; rw [hl]⟩
  | miss => rw [hl] at h3; exact absurd h3 Bool.false_ne_true
  | invalid => rw [hl] at h3; exact absurd h3 Bool.false_ne_true

def allClear (look : Nat → Lookup) (w : Want) (vas : List Nat) : Bool :=
  vas.all (fun va => match classify look w va with | .good _ => true | .absent _ => true | _ => false)

theorem allClear_of {look : Nat → Lookup} {w : Want} {vas : List Nat} (h : allClear look w vas = true) : AllClear look w vas := by
  intro va hva
  have hx := List.all_eq_true.1 h va hva
  split at hx
  · exact ⟨_, .inl ‹_›⟩
  · exact ⟨_, .inr ‹_›⟩
  · exact absurd hx Bool.false_ne_true

theorem witness_field_starts : (∀ i ∈ [Instr.hgf 16 8 20 0 0, .hgf 16 8 20 1 0, .hgs 16 8 20 0 0, .hgfold 8 20 34 36, .tex 16 8 22 0, .tex 16 8 24 0, .hgf 16 8 32 0 0],
      Starts fielding (envOf fielding) i ∧ maskFor i (envOf fielding) ≠ 0) ∧ (envOf fielding).t.inflight = [] ∧ (envOf fielding).t.full .tr = false := by
  refine ⟨fun i hi => ⟨all_start (by decide +kernel) i hi, ?_⟩, by decide +kernel⟩
  exact (by decide +kernel : ∀ i ∈ [Instr.hgf 16 8 20 0 0, .hgf 16 8 20 1 0, .hgs 16 8 20 0 0, .hgfold 8 20 34 36, .tex 16 8 22 0, .tex 16 8 24 0, .hgf 16 8 32 0 0],
    maskFor i (envOf fielding) ≠ 0) i hi

theorem ok_of {α ε : Type} {x : Except ε α} {v : α} (h : x.toOption = some v) : x = .ok v := by
  cases x with
  | ok a => exact congrArg _ (Option.some.inj h)
  | error e => cases h

def fieldAt (va : Nat) : Field := parseField (structBytes (envOf fielding) 0 va 64)

theorem witness_field_headers : (∀ va ∈ [0x5000, 0x5100], StructAt (envOf fielding) 0 va 64 (structBytes (envOf fielding) 0 va 64))
    ∧ (∀ va ∈ [0x5040, 0x5060], StructAt (envOf fielding) 0 va 32 (structBytes (envOf fielding) 0 va 32))
    ∧ (fieldAt 0x5000).aligned = true ∧ (fieldAt 0x5000).inRange = true ∧ (fieldAt 0x5100).aligned = true ∧ (fieldAt 0x5100).inRange = false
    ∧ (parseTexture (structBytes (envOf fielding) 0 0x5040 32)).inRange = true ∧ (parseTexture (structBytes (envOf fielding) 0 0x5060 32)).inRange = false
    ∧ (fieldAt 0x5000).lev = 1 ∧ levelSizes ((envOf fielding).look 0) (fieldAt 0x5000) [0] = .ok [4]
    ∧ texSize ((envOf fielding).look 0) (parseTexture (structBytes (envOf fielding) 0 0x5040 32)) = .ok 4 := by
  refine ⟨fun va hva => ?_, fun va hva => ?_, ?_⟩
  rotate_left 2
  · exact ⟨by decide +kernel, by decide +kernel, by decide +kernel, by decide +kernel, by decide +kernel, by decide +kernel,
      by decide +kernel, ok_of (by decide +kernel), ok_of (by decide +kernel)⟩
  all_goals
    simp only [List.mem_cons, List.not_mem_nil, or_false] at hva
    rcases hva with rfl | rfl <;> exact structAt_of (by decide +kernel)

/-- All lanes at the origin; the fold of all sixteen entries. -/
theorem witness_field_elements : (∀ l ∈ lanesOf 0xFF,
      AllClear ((envOf fielding).look l) (paramWant 4 pteR) (laneParams (fieldAt 0x5000) (coords (fieldAt 0x5000) ((envOf fielding).t.run 8 2) l) 0 4)
      ∧ AllClear ((envOf fielding).look l) (shadowWant (fieldAt 0x5000) pteWA) (laneShadows (fieldAt 0x5000) (coords (fieldAt 0x5000) ((envOf fielding).t.run 8 2) l) 0))
    ∧ levelPart (fieldAt 0x5000) 0 16 0 = (0, 16)
    ∧ AllClear ((envOf fielding).look 0) (paramWant 4 pteW) (rangePages (paramVa (fieldAt 0x5000) 4 0 0) (16 * 2 * 4))
    ∧ AllClear ((envOf fielding).look 0) (shadowWant (fieldAt 0x5000) pteRWAny) (rangePages (shadowVa (fieldAt 0x5000) 0 0) (16 * 2 * 4)) := by
  refine ⟨fun l hl => ⟨allClear_of ?_, allClear_of ?_⟩, by decide +kernel, allClear_of (by decide +kernel), allClear_of (by decide +kernel)⟩
  · exact (by decide +kernel : ∀ l ∈ lanesOf 0xFF, allClear ((envOf fielding).look l) (paramWant 4 pteR)
      (laneParams (fieldAt 0x5000) (coords (fieldAt 0x5000) ((envOf fielding).t.run 8 2) l) 0 4) = true) l hl
  · exact (by decide +kernel : ∀ l ∈ lanesOf 0xFF, allClear ((envOf fielding).look l) (shadowWant (fieldAt 0x5000) pteWA)
      (laneShadows (fieldAt 0x5000) (coords (fieldAt 0x5000) ((envOf fielding).t.run 8 2) l) 0) = true) l hl

def texAt : Texture := parseTexture (structBytes (envOf fielding) 0 0x5040 32)

theorem witness_texels : ∀ l ∈ lanesOf 0xFF, AllClear ((envOf fielding).look l) (texWant 4)
    ((texCorners texAt ((envOf fielding).t.lane 8 l) ((envOf fielding).t.lane 9 l)).1.flatMap (fun ab =>
      (List.range texAt.channels).map (fun h => texVa texAt 4 ab.1 ab.2 h))) := by
  intro l hl
  refine allClear_of ?_
  exact (by decide +kernel : ∀ l ∈ lanesOf 0xFF, allClear ((envOf fielding).look l) (texWant 4)
    ((texCorners texAt ((envOf fielding).t.lane 8 l) ((envOf fielding).t.lane 9 l)).1.flatMap (fun ab =>
      (List.range texAt.channels).map (fun h => texVa texAt 4 ab.1 ab.2 h))) = true) l hl

theorem ok_isSome {α ε : Type} {x : Except ε α} (h : x.toOption.isSome = true) : ∃ v, x = .ok v := by
  cases x with
  | ok a => exact ⟨a, rfl⟩
  | error e => cases h

theorem witness_march : Starts fielding (envOf fielding) (.march 40 8 26 0) ∧ maskFor (.march 40 8 26 0) (envOf fielding) ≠ 0
    ∧ StructAt (envOf fielding) 0 0x5080 64 (structBytes (envOf fielding) 0 0x5080 64)
    ∧ (parseGrid (structBytes (envOf fielding) 0 0x5080 64)).inRange (leAt (structBytes (envOf fielding) 0 0x5080 64) 0x18 4) = true
    ∧ ∀ l, l < 8 → ∃ out, (envOf fielding).s.marchLane (gridClass ((envOf fielding).look l)) (parseGrid (structBytes (envOf fielding) 0 0x5080 64))
        ((List.range 8).map (fun k => decF32 ((envOf fielding).t.lane (8 + k) l))) = .ok out :=
  ⟨starts_of_ready (by decide +kernel), by decide +kernel, structAt_of (by decide +kernel), by decide +kernel, fun l hl =>
    ok_isSome ((by decide +kernel : ∀ l, l < 8 → ((envOf fielding).s.marchLane (gridClass ((envOf fielding).look l)) (parseGrid (structBytes (envOf fielding) 0 0x5080 64))
        ((List.range 8).map (fun k => decF32 ((envOf fielding).t.lane (8 + k) l)))).toOption.isSome = true) l hl)⟩

/-- That march performed, with the grid's page known to its command. -/
def marched : FieldCmd :=
  { kind := .march, vd := 40, mask := 0xFF, lane := 0, header := structBytes (envOf fielding) 0 0x5080 64, inputs := (envOf fielding).t.run 8 8,
    trans := [Trans.ofLeaf 0 fetchVa 3 fetchLeaf], key := 0, seed := 0, ctx := 0, gone := 0, bad := 0, badVa := none, drop := false, got := [], sent := [] }

theorem witness_march_performed : 40 + 10 ≤ (envOf fielding).t.regs.length ∧ ∀ l, l < 8 → ((envOf fielding).s.marchLane marched.gridHeld (parseGrid marched.header)
    (marched.inputs.map (fun r => decF32 (r.get l)))).toOption.map (fun x => x.2.2) = some none := by decide +kernel

/-- All lanes have the status of the instruction that the strand is at. -/
def traced : State := withThreads (fun _ th => { th with query := { th.query with done := some 0x4000 } }) fielding

theorem witness_rays : (∀ i ∈ [Instr.trace 16 8 28 0, .trace 16 8 30 0, .tcontReject 16 8 0, .tcontAccept 16 8 0, .tcontTerminate 16 8 0, .thit 59 1 7, .tabort 0],
      Starts fielding (envOf fielding) i)
    ∧ (∀ i ∈ [Instr.trace 16 8 28 0, .tcontReject 16 8 0], maskFor i (envOf fielding) ≠ 0 ∧ (envOf fielding).t.toTrace (maskFor i (envOf fielding)) = maskFor i (envOf fielding))
    ∧ leAt (structBytes (envOf fielding) 0 0x50C0 32) 0 8 % 64 = 0 ∧ leAt (structBytes (envOf fielding) 0 0x50E0 32) 0 8 % 64 ≠ 0
    ∧ StructAt (envOf fielding) 0 0x50C0 32 (structBytes (envOf fielding) 0 0x50C0 32) ∧ StructAt (envOf fielding) 0 0x50E0 32 (structBytes (envOf fielding) 0 0x50E0 32)
    ∧ (∀ i ∈ [Instr.trace 16 8 28 0, .tcontReject 16 8 0, .tcontAccept 16 8 0, .tcontTerminate 16 8 0], Starts traced (envOf traced) i)
    ∧ (envOf traced).t.toTrace 0xFF = 0 :=
  ⟨all_start (by decide +kernel), by decide +kernel, by decide +kernel, by decide +kernel, structAt_of (by decide +kernel), structAt_of (by decide +kernel),
    all_start (by decide +kernel), by decide +kernel⟩

/-! #### Streams and requests to the machine -/

/-- The Swage's holder with binding 0 receiving from session 0, whose frame 0 has its slot, 1 sending to session 1, 2 not bound, 3
receiving from session 2, which has no frame yet; and session 1's frame begun to go out or not. -/
def streaming (begun : Bool) : State :=
  let b : Binding := { Binding.unbound with bound := true }
  let s := withCrew (fun c => { c with binds := [b, { b with dir := true, session := 1 }, .unbound, { b with session := 2 }] ++ List.replicate 12 .unbound }) held
  let slot : FrameSlot := { FrameSlot.fresh with frame := some 0 }
  let s1 := s.modSession 0 (fun x => { x with slots := [slot, .fresh] })
  s1.modSession 1 (fun x => { x with slots := [{ slot with state := if begun then 3 else 0 }, .fresh] })

theorem witness_streams : (∀ i ∈ [Instr.srd 8 0 0 20 1 0, .srd 8 1 0 20 0 0, .swr 8 0 1 20 0, .srdt 0 0 20 1 0, .srdt 3 0 20 1 0, .srdt 2 0 20 1 0, .srdt 0 0 24 1 0,
      .sflushLine 1 0, .sflushFrame 1 0, .srd 8 0 2 20 1 0, .srd 8 0 1 20 1 0, .swr 8 0 0 20 0],
      Starts (streaming false) (envOf (streaming false)) i ∧ maskFor i (envOf (streaming false)) ≠ 0) := by
  intro i hi
  refine ⟨all_start (is := [Instr.srd 8 0 0 20 1 0, .srd 8 1 0 20 0 0, .swr 8 0 1 20 0, .srdt 0 0 20 1 0, .srdt 3 0 20 1 0, .srdt 2 0 20 1 0, .srdt 0 0 24 1 0,
      .sflushLine 1 0, .sflushFrame 1 0, .srd 8 0 2 20 1 0, .srd 8 0 1 20 1 0, .swr 8 0 0 20 0]) (by decide +kernel) i hi, ?_⟩
  exact (by decide +kernel : ∀ i ∈ [Instr.srd 8 0 0 20 1 0, .srd 8 1 0 20 0 0, .swr 8 0 1 20 0, .srdt 0 0 20 1 0, .srdt 3 0 20 1 0, .srdt 2 0 20 1 0, .srdt 0 0 24 1 0,
      .sflushLine 1 0, .sflushFrame 1 0, .srd 8 0 2 20 1 0, .srd 8 0 1 20 1 0, .swr 8 0 0 20 0], maskFor i (envOf (streaming false)) ≠ 0) i hi

theorem bindingReady_of {e : Env} {k : Nat} {dir : Bool} {frame : Binding → Nat}
    (h : ((e.c.bind k).bound && !(e.c.bind k).closed && ((e.c.bind k).dir == dir) && !(e.s.session (e.c.bind k).session).passedBy (frame (e.c.bind k))) = true) :
    BindingReady e k (some dir) frame := by
  simp only [Bool.and_eq_true, Bool.not_eq_true', beq_iff_eq] at h
  exact ⟨h.1.1.1, h.1.1.2, fun d hd => by rw [← Option.some.inj hd]; exact h.1.2, h.2⟩

theorem witness_bindings : BindingReady (envOf (streaming false)) 0 (some false) Binding.frame ∧ BindingReady (envOf (streaming false)) 1 (some true) Binding.frame
    ∧ BindingReady (envOf (streaming false)) 3 (some false) Binding.frame
    ∧ BindingReady (envOf (streaming false)) 1 (some true) Binding.flushFrame ∧ ((envOf (streaming false)).c.bind 2).bound = false ∧ ((envOf (streaming false)).c.bind 1).dir = true
    ∧ ((envOf (streaming false)).c.bind 0).dir = false ∧ (envOf (streaming false)).t.full .sr = false ∧ (envOf (streaming false)).holdsSwage = true
    ∧ ((envOf (streaming false)).t.lane 21 0).toNat < 3 ∧ ((envOf (streaming false)).t.lane 25 0).toNat = 64 ∧ ((envOf (streaming false)).swage.tile 0).fmt < 2
    ∧ ((envOf (streaming false)).swage.tile 0).rows ≠ 0 ∧ 2 ≤ ((envOf (streaming false)).swage.tile 2).fmt :=
  ⟨bindingReady_of (by decide +kernel), bindingReady_of (by decide +kernel), bindingReady_of (by decide +kernel), bindingReady_of (by decide +kernel), by decide +kernel⟩

theorem witness_stream_times : (∀ i ∈ [Instr.sinh 1 0 0, .sinh 1 3 0, .sinhOffset 24 1 0 0, .sts 8 0 3 0, .sts 8 1 0 0, .sstat 8 0 0 0, .sstat 8 0 3 0, .time 8, .sleepu 40,
      .sleepu 60], Starts (streaming false) (envOf (streaming false)) i)
    ∧ (∀ i ∈ [Instr.sinh 1 0 0, .sinhOffset 24 1 0 0, .sts 8 0 3 0, .sstat 8 0 0 0], maskFor i (envOf (streaming false)) ≠ 0)
    ∧ ((envOf (streaming false)).s.session 0).claimed 0 = true ∧ ((envOf (streaming false)).s.session 2).claimed 0 = false
    ∧ ((envOf (streaming false)).s.session 1).begun 0 = false ∧ Starts (streaming true) (envOf (streaming true)) (.sinh 1 0 0) ∧ ((envOf (streaming true)).s.session 1).begun 0 = true
    ∧ (envOf (streaming false)).t.inflight = [] ∧ (envOf (streaming false)).t.lane64 60 0 = (envOf (streaming false)).s.clock ∧ (envOf (streaming false)).s.clock.toNat
      < ((envOf (streaming false)).t.lane64 40 0).toNat :=
  ⟨all_start (by decide +kernel), by decide +kernel, by decide +kernel, by decide +kernel, by decide +kernel, starts_of_ready (by decide +kernel), by decide +kernel⟩

theorem witness_device_launch : (∀ i ∈ [Instr.launch 1 20 0, .launchTail 1 20 0, .launch 1 24 0, .launch 1 44 0],
      Starts wild (envOf wild) i ∧ maskFor i (envOf wild) ≠ 0) ∧ ((envOf wild).release.t.lane64 20 0).toNat = 0x5000 ∧ 0x5000 % 128 = 0
    ∧ (∃ tr, (envOf wild).release.look 0 0x5000 = .found tr ∧ pteR tr.entry = true ∧ pteP tr.entry = true ∧ (envOf wild).release.s.bad (tr.pa 0x5000) 128 = false)
    ∧ vaBad ((envOf wild).release.t.lane64 44 0).toNat = true := by
  refine ⟨fun i hi => ⟨all_start (by decide +kernel) i hi, ?_⟩, by decide +kernel, by decide +kernel,
    ⟨_, by rfl, by decide +kernel, by decide +kernel, by decide +kernel⟩, by decide +kernel⟩
  exact (by decide +kernel : ∀ i ∈ [Instr.launch 1 20 0, .launchTail 1 20 0, .launch 1 24 0, .launch 1 44 0], maskFor i (envOf wild) ≠ 0) i hi

/-- The same page absent. -/
def absentPage : State := data.modCore 0 (fun co => { co with tlb := co.tlb.map (fun t => { t with entry := t.entry &&& ~~~2 }) })

def windowed (en : Bool) : State := base.modCtx 0 (fun x => { x with windows := modAt x.windows 7 (fun w => { w with en := en }) })

theorem witness_publication : ∀ b, Starts (windowed b) (envOf (windowed b)) (.publish 7) ∧ (((envOf (windowed b)).s.ctx (envOf (windowed b)).c.ctx).windows.getD 7 .fresh).en = b
    ∧ (envOf (windowed b)).release.t.full .cl = false := by
  intro b
  cases b <;> exact ⟨starts_of_ready (by decide +kernel), by decide +kernel⟩

theorem witness_collectives : (∀ i ∈ [Instr.cprog 1 20 0, .ctrigArm 1 20 31 0, .ctrigDisarm 1 31 0, .cctrAdd 8 20 7 0, .cctrSet 8 20 0 0, .cctrRead 8 7 0],
      Starts data (envOf data) i ∧ maskFor i (envOf data) ≠ 0)
    ∧ (∃ tr, (envOf data).release.look 0 0x5000 = .found tr ∧ pteR tr.entry = true ∧ pteP tr.entry = true ∧ (envOf data).release.s.bad (tr.pa 0x5000) 64 = false)
    ∧ ((envOf data).release.t.lane64 20 0).toNat = 0x5000 ∧ ((envOf data).release.s.progs.findIdx? (fun x => x.isNone)) = some 0
    ∧ (envOf data).release.t.full .cl = false := by
  refine ⟨fun i hi => ⟨all_start (by decide +kernel) i hi, ?_⟩, ⟨_, by rfl, by decide +kernel, by decide +kernel, by decide +kernel⟩, by decide +kernel⟩
  exact (by decide +kernel : ∀ i ∈ [Instr.cprog 1 20 0, .ctrigArm 1 20 31 0, .ctrigDisarm 1 31 0, .cctrAdd 8 20 7 0, .cctrSet 8 20 0 0, .cctrRead 8 7 0],
    maskFor i (envOf data) ≠ 0) i hi

theorem witness_absent_packet : Starts absentPage (envOf absentPage) (.launch 1 20 0)
    ∧ ∃ tr, (envOf absentPage).release.look 0 0x5000 = .found tr ∧ pteR tr.entry = true ∧ pteP tr.entry = false :=
  ⟨starts_of_ready (by decide +kernel), _, by rfl, by decide +kernel, by decide +kernel⟩

/-- Group 7 is a genlock group of module 0; binding 1 has flushed frame 0, binding 4 none. -/
def locking (en : Bool) : State :=
  let s := withCrew (fun c => { c with binds := modAt (modAt c.binds 1 (fun b => { b with flushed := some 0 })) 4 (fun b => { b with bound := true, dir := true }) }) (streaming false)
  withRegs [(44, uniform 0xFFFFFFFF), (58, uniform 100000), (59, uniform 0)] (s.modGroup 7 (fun x => { x with en := en, size := 1 }))

theorem witness_time_barrier : (∀ i ∈ [Instr.tbar 8 44 1 7 0, .tbar 8 58 1 7 0, .tbar 8 44 0 7 0, .tbar 8 44 4 7 0],
      Starts (locking true) (envOf (locking true)) i ∧ maskFor i (envOf (locking true)) ≠ 0)
    ∧ ((envOf (locking true)).s.group 7).genlock (envOf (locking true)).s.lly.rank = true ∧ ((envOf (locking true)).c.bind 1).refuses (some true) = false
    ∧ ((envOf (locking true)).c.bind 1).flushed = some 0 ∧ ((envOf (locking true)).c.bind 0).refuses (some true) = true
    ∧ ((envOf (locking true)).c.bind 4).refuses (some true) = false ∧ ((envOf (locking true)).c.bind 4).flushed = none
    ∧ ¬(((envOf (locking true)).t.lane64 44 0 - BitVec.ofNat 64 (((envOf (locking true)).s.group 7).guard.toNat * 500)).toNat ≤ (envOf (locking true)).s.clock.toNat)
    ∧ ((envOf (locking true)).s.session 1).firstSent 0 = false
    ∧ ((envOf (locking true)).t.lane64 58 0 - BitVec.ofNat 64 (((envOf (locking true)).s.group 7).guard.toNat * 500)).toNat ≤ (envOf (locking true)).s.clock.toNat
    ∧ Starts (locking false) (envOf (locking false)) (.tbar 8 44 1 7 0) ∧ ((envOf (locking false)).s.group 7).genlock (envOf (locking false)).s.lly.rank = false := by
  refine ⟨fun i hi => ⟨all_start (by decide +kernel) i hi, ?_⟩, ?_⟩
  rotate_left
  · and_intros <;> first | decide +kernel | exact starts_of_ready (by decide +kernel)
  exact (by decide +kernel : ∀ i ∈ [Instr.tbar 8 44 1 7 0, .tbar 8 58 1 7 0, .tbar 8 44 0 7 0, .tbar 8 44 4 7 0], maskFor i (envOf (locking true)) ≠ 0) i hi

/-! #### Events -/

/-- One operation on each counter. -/
def operating : State :=
  let f : FieldCmd := { kind := .march, vd := 8, mask := 0, lane := 0, header := [], inputs := [], trans := [], key := 0, seed := 0, ctx := 0, gone := 0, bad := 0, badVa := none, drop := false, got := [], sent := [] }
  let op (n : Nat) (k : Ctr) (o : OpKind) : Pending := { id := n, ctr := k, dsts := [], pdst := none, pc := 0x4000, kind := o, done := false, srcs := [], gone := 0 }
  withStrand (fun t => { t with nextOp := 6, inflight := [op 0 .ld (.atom 0 8 []), op 1 .st (.store 4 []), op 2 .cp (.pfetch [] false), op 3 .mx (.mstat 8 0 0 []),
    op 4 .sr (.sflush 0 0 0 0 0 false), op 5 .tr (.field f)] }) base

theorem witness_operations : (operating.env? 0 0).map (fun e => (e.c.state, e.t.ended)) = some (.resident, false)
    ∧ (operating.env? 0 0).map (fun e => [Ctr.ld, .st, .cp, .mx, .sr, .tr].zipIdx.map (fun k => (e.t.inflight.find? (fun q => q.id = k.2 && q.ctr = k.1 && !q.done)).isSome))
      = some (List.replicate 6 true) := ⟨by decide +kernel, by decide +kernel⟩

/-- A traversal of lane 7 in flight. -/
def traversing : State :=
  withStrand (fun t => { t with inflight := [{ id := 0, ctr := .tr, dsts := [], pdst := none, pc := 0x4000, kind := .trace 8 0x80 [], done := false, srcs := [], gone := 0 }], nextOp := 1 }) base

/-- The query of lane 7 stands still in the handler of a PERM trap. -/
def standing : State := withStrand (fun t => { t with handler := 0xFF, trap := { t.trap with inh := true }, qstill := 0x80 }) traversing

theorem witness_traversal : (base.env? 0 0).map (fun e => e.t.traceOf 7) = some none
    ∧ ∃ p, (traversing.env? 0 0).map (fun e => e.t.traceOf 7) = some (some p) ∧ (standing.env? 0 0).map (fun e => e.t.queryHeld 7) = some true :=
  ⟨by decide +kernel, _, by rfl, by decide +kernel⟩

/-- A strand whose rotation is due, at the last cycle before and at it; one whose turn in the active set is over while another waits. -/
def rotating (n : Nat) : State := withStrand (fun t => { t with timer := n }) (withCrew (fun c => { c with progress := true }) base)

def crowded : State :=
  withCrew (fun c => { c with strands := c.strands ++ c.strands.map (fun t => { t with idx := 1, active := false }) })
    (withStrand (fun t => { t with active := true, activeFor := 2048 }) base)

theorem witness_turns : (rotating 256).env? 0 0 = some (envOf (rotating 256)) ∧ (envOf (rotating 256)).rotationDue = true ∧ (envOf (rotating 255)).rotationDue = false
    ∧ crowded.env? 0 0 = some (envOf crowded) ∧ (envOf crowded).t.inSet = true ∧ (envOf crowded).t.activeFor = 2048
    ∧ crowded.readyOutside (envOf crowded).c.core 0 0 = true := ⟨by rfl, by decide +kernel, by decide +kernel, by rfl, by decide +kernel, by decide +kernel, by decide +kernel⟩

def asleep (w : Wait) : State := withThreads (fun _ th => { th with state := .waiting w }) { base with clock := 7, cycle := 7 }

theorem witness_waits : ((asleep (.sleep 7)).env? 0 0).map (fun e => e.t.lanesWhere (fun t => match t.state with | .waiting (.sleep k) => decide (k ≤ 7) | _ => false)) = some 0xFF
    ∧ ((asleep (.sleepu 7)).env? 0 0).map (fun e => e.t.lanesWhere (fun t => match t.state with | .waiting (.sleepu d) => (asleep (.sleepu 7)).reached d | _ => false)) = some 0xFF
    ∧ inKick 0x5000 = false ∧ (asleep (.waita 0x5000 0 6 8 1 { pc := 0x4000, va := 0x5000, tr := none })).passed 6 = true ∧ (asleep (.waita 0x5000 0 7 8 1 { pc := 0x4000, va := 0x5000, tr := none })).passed 7 = false
    ∧ ((asleep (.waita 0x5000 0 6 8 1 { pc := 0x4000, va := 0x5000, tr := none })).env? 0 0).map (fun e => ((e.t.thread 7).state, e.t.ended)) = some (.waiting (.waita 0x5000 0 6 8 1 { pc := 0x4000, va := 0x5000, tr := none }), false) :=
  ⟨by decide +kernel, by decide +kernel, by decide +kernel, by decide +kernel, by decide +kernel, by decide +kernel⟩

theorem witness_trap_entry : handled.env? 0 0 = some (envOf handled) ∧ (envOf handled).handled = true ∧ (envOf handled).mayIssue = true ∧ (envOf handled).c.walker = false
    ∧ (envOf handled).t.midUnit = false ∧ (envOf handled).t.group = 0xFF := ⟨by rfl, by decide +kernel⟩

def deferring : State := withStrand (fun t => { t with deferred := [{ op := 999, mask := 1, va := 0x5000, src := 0x4000 }] }) handled

theorem witness_deferred : deferring.env? 0 0 = some (envOf deferring) ∧ ((envOf deferring).on (envOf deferring).t.regroup).deferredDue = true
    ∧ ((envOf deferring).on (envOf deferring).t.regroup).mayIssue = true := ⟨by rfl, by decide +kernel⟩

/-- The launch of `base` in another phase, with other fields of its packet. -/
def launching (f : Launch → Launch) : State := { base with launches := base.launches.map f, clock := 9 }

theorem witness_launches : (launching (fun l => { l with phase := .heap })).top.isSome = true ∧ (launching (fun l => { l with phase := .heap })).markTop.top.map Launch.seq = some 1
    ∧ (launching (fun l => { l with phase := .heap, pkt := { l.pkt with kind := 2 } })).top.map (fun l => l.pkt.kind) = some 2
    ∧ ((launching (fun l => { l with phase := .heap, pkt := { l.pkt with deadline := 8 } })).launch? 1).map (fun l => (l.phase, (launching id).passed l.pkt.deadline)) = some (.heap, true)
    ∧ ((launching (fun l => { l with phase := .running, pkt := { l.pkt with cut := true, deadline := 8 } })).launch? 1).map (fun l => (l.phase, l.pkt.cut)) = some (.running, true)
    ∧ ((launching (fun l => { l with firstAt := some 0, pkt := { l.pkt with watchdog := 1 } })).launch? 1).map (fun l => (l.firstAt, l.pkt.watchdog)) = some (some 0, 1)
    ∧ ((launching id).ctx 0).frozen = false ∧ (launching id).waitingGangs = [] ∧ (launching id).heapFree = true ∧ (launching id).metHeld = [] :=
  by and_intros <;> decide +kernel

/-- The crew of `base` saved, with room to return; and one of a core out of service, with none. -/
def away (on : Bool) : State :=
  { launching id with
    crews := base.crews.map (fun c => { c with state := .saved })
    cores := if on then base.cores else base.cores.map (fun c => { c with enabled := false }) }

theorem witness_restore : (away true).waitingGangs.length = 1 ∧ (away true).top.isNone = true ∧ (away true).waitingGangs.all (fun g => ((away true).planReturn g.crews).isSome) = true
    ∧ (away false).waitingGangs.length = 1 ∧ (away false).waitingGangs.all (fun g => ((away false).planReturn g.crews).isNone) = true
    ∧ (let z : State := { away true with launches := (away true).launches.map (fun l => { l with pkt := { l.pkt with deadline := 9 } })
                            ++ (away true).launches.map (fun l => { l with seq := 7, phase := .heap, pkt := { l.pkt with deadline := 5 } }) }
       z.waitingGangs.length = 1 ∧ (z.top.map (fun t => z.waitingGangs.all (fun g => decide (t.pkt.deadline.toNat < g.deadline z)))) = some true) := by decide +kernel

/-- Queue 3 of a machine in RUN holds a packet; a held launch of queue 5 has met its dependencies. -/
def queued : State :=
  { (base.modQueue 3 (fun q => { q with en := true, ctx := 0, rbase := 0x5000, k := 4, widx := 1 })) with dev := { base.dev with stage := 6 } }

def heldLaunch : State := { launching (fun l => { l with phase := .waitDep, queue := 5, metOrder := some 0 }) with dev := { base.dev with stage := 6 } }

theorem witness_pulls : queued.dev.stage = 6 ∧ queued.heapFree = true ∧ queued.metHeld = [] ∧ queued.nextQueue = some 3
    ∧ (heldLaunch.latchDeps.metHeld.head?).map Launch.queue = some 5 ∧ heldLaunch.latchDeps.heapFree = true := by decide +kernel

theorem witness_tick : ({ queued with clock := 500000 } : State).bellows.tickDone < ({ queued with clock := 500000 } : State).clock.toNat / 500000 := by decide +kernel

/-- A machine in RUN that runs nothing. -/
def running : State := State.reset.modDev (fun d => { d with power := true, stage := 6, linkUp := true, memSize := 0x100000 })

theorem witness_contexts : running.managed 63 = true ∧ running.idle 63 = true ∧ queued.managed 0 = true ∧ queued.idle 0 = false
    ∧ (running.queue 1023).ridx = (running.queue 1023).widx ∧ (running.queue 1023).ctx < 64 ∧ running.idle (running.queue 1023).ctx = true
    ∧ ((running.queue 1023).setEntry 0 0).entryOk = true ∧ BitVec.truncate 5 (1 : Word) ≠ (queued.ctx 0).assist := by decide +kernel

/-- A miss that no translation covers and no walk resolves. -/
theorem witness_walk_start : (∃ c ∈ base.residentOn 0, c.walker = false ∧ c.ctx = 0) ∧ (∀ t ∈ (base.core 0).tlb, t.covers 0 0x10000 = false)
    ∧ (base.core 0).walks = [] ∧ (base.core 0).misses = [] := by decide +kernel

def requested : State := running.modCtx 63 (fun x => { x with resReqs := [2], migQueue := [0x8000] })

theorem witness_pages : requested.managed 63 = true ∧ 0x8001 / 2 ^ 14 ∈ (requested.ctx 63).resReqs ∧ 0x8000 / 2 ^ 14 ∈ (requested.ctx 63).resReqs ∧ 0x8000 ∈ (requested.ctx 63).migQueue
    ∧ requested.progs.all (fun p => p.isNone) = true := by decide +kernel

/-- A page of host memory behind a table at 0, with frame 3 in the pool; the same while it moves. -/
def migrating (moving : Option PageMove) : State :=
  let s := requested.modCtx 63 (fun x => { x with ptroot := 0, pool := 0xC000, moving := moving })
  { s with mem := Memory.writeBytes (Memory.writeBytes s.mem 0 (leBytes 8 1)) 0x10 (leBytes 8 0x1000000FF) }

def move (va : VAddr) : PageMove := { va := va, leaf := 0x10, entry := 0x1000000FD, frame := 3 }

theorem witness_migration : (let z := (migrating none).modCtx 63 (fun y => { y with migQueue := y.migQueue.filter (fun u => u ≠ 0x8000) })
       0x8000 ∈ ((migrating none).ctx 63).migQueue ∧ ((migrating none).ctx 63).moving = none ∧ z.leafFrom 0x8000 0 (z.ctx 63).ptroot.toNat 4 = some (0x10, 3)
       ∧ (let e : DWord := BitVec.ofNat 64 (z.peek 0x10 8)
          pteHome e ≠ 0 ∧ pteP e = true) ∧ (z.ctx 63).pool.toNat / 2 ^ 14 ≠ 0)
    ∧ ((migrating (some (move 0x8000))).ctx 63).moving = some (move 0x8000) ∧ (move 0x8000).va ≠ 0x4000 := by decide +kernel

/-- Window 7 of context 63: disabled, enabled, and publishing two units. -/
def window (en : Bool) (busy : Option (List Nat)) : State :=
  running.modCtx 63 (fun x => { x with windows := modAt x.windows 7 (fun w => { w with en := en, busy := busy, queue := if en then [(0, 0, 0)] else [] }) })

theorem witness_windows : hostReaches 0x5000 2 = true ∧ (∀ i, i < 2 → running.inFront (0x5000 + i) = false) ∧ (window false none).managed 63 = true
    ∧ ((window false none).ctx 63).window 7 = Window.fresh ∧ Window.fresh.quiet = true ∧ Window.fresh.en = false
    ∧ (((window true none).ctx 63).window 7).en = true ∧ (((window true none).ctx 63).window 7).busy = none ∧ (((window true none).ctx 63).window 7).queue ≠ []
    ∧ (((window true none).ctx 63).window 7).setReg 0 0x4000 ≠ ((window true none).ctx 63).window 7
    ∧ (((window true (some [])).ctx 63).window 7).busy ≠ none ∧ (((window true (some [])).ctx 63).window 7).queue = (0, 0, 0) :: [] := by decide +kernel

def loading : State := running.modCtx 63 (fun x => { x with loader := { x.loader with busy := true } })

theorem witness_loader : (loading.ctx 63).loader.busy = true ∧ ∃ r, loading.load 63 = r := ⟨by decide +kernel, _, rfl⟩

/-- Port 3 in two-by-two mode with both logical ports up, followed by the clock on logical port 7. -/
def linkedUp : State :=
  let s := running.modPort 3 (fun p => { p with mode := 2, ptpEn := true, llyn := true, lp0 := { p.lp0 with link := true, ip := 1 }, lp1 := { p.lp1 with link := true, ip := 2 } })
  { s with ptp := { s.ptp with port := 7 } }

theorem witness_ports : 2 ≤ linkedUp.dev.stage ∧ linkedUp.lportPresent 7 = true ∧ linkedUp.lportUp 7 = true ∧ (linkedUp.lport 7).ip = 2 ∧ linkedUp.follows 7 = true
    ∧ linkedUp.follows linkedUp.ptp.port.toNat = true ∧ linkedUp.portInUse 3 = true ∧ running.ptp.restart ≠ { running.ptp with host := true }
    ∧ (∀ z ∈ linkedUp.sessions, z.up = false) ∧ linkedUp.genlockOn = false := by decide +kernel

/-- A Sync of the follower's domain with no Announce heard, and with another master heard. -/
def sync : PtpMsg :=
  { kind := .sync, domain := linkedUp.ptp.domain, source := 1, twoStep := false, origin := 0, stamp := 0, quality := [], gm := 0, steps := 0, sumOk := true }

theorem witness_ptp : sync.domain = linkedUp.ptp.domain ∧ sync.sumOk = true ∧ linkedUp.ptp.heeds sync = true
    ∧ ({ linkedUp.ptp with masters := [{ source := 2, quality := [], gm := 0, steps := 0 }] } : Ptp).heeds sync = false
    ∧ linkedUp.follows 6 = false ∧ linkedUp.lportUp 6 = true := by decide +kernel

/-- Host reads of a register, of the candidate and of the kick pages over a trained link. -/
theorem witness_bars : running.dev.linkUp = true ∧ (∀ pa ∈ [bar0Base, bar0Base + 0x508, bar2Base + 0x3FFF8], hostReaches pa 8 = false ∧ inBars pa 8 = true)
    ∧ takesCandidate bar0Base 8 = false ∧ takesCandidate (bar0Base + 0x508) 8 = true := by decide +kernel

def session (f : Session → Session) : State := linkedUp.modSession 63 (fun x => f { x with up := true, d := { x.d with porta := 7 } })

/-- A receive session that line 1 of frame 0 may close; a send session with nothing to send; one of opaque packets with a packet of one byte ready. -/
theorem witness_sessions : ((running.session 63).up = false ∧ running.dev.stage = 6)
    ∧ running.openWhy 0 0 (SessDesc.ofBytes (running.peekBytes 0 128)) ≠ 0
    ∧ (let z := (session (fun x => { x with d := { x.d with h := 2, send := true } })).claimSubst 63
       (z.session 63).up = true ∧ (z.session 63).d.send = true ∧ (z.session 63).d.opaque_ = false ∧ (z.session 63).sending = none ∧ (z.session 63).nextSend = none) := by
  decide +kernel

/-- A send session of two lines of one packet each, whose frame 0 is next; and the same with its first packet gone. -/
def sending (next : Nat) : State :=
  let s := session (fun x => { x with
    d := { x.d with h := 2, w := 4, send := true, sndt := 1, maxPay := 8952 }, slots := [{ FrameSlot.fresh with frame := some 0 }, .fresh]
    sending := if next = 0 then none else some { frame := 0, next := next, sent := [] } })
  { s with clock := 0x7FFFFFFFFFFFFFFF }

theorem witness_sending : (let z := ((sending 0).claimSubst 63).session 63
       z.up = true ∧ z.d.send = true ∧ z.d.opaque_ = false ∧ z.sending = none ∧ z.nextSend = some 0 ∧ z.packetTime 0 0 ≤ (sending 0).clock.toNat ∧ 0 + 1 ≠ z.d.framePackets)
    ∧ (let z := ((sending 1).claimSubst 63).session 63
       z.sending = some { frame := 0, next := 1, sent := [] } ∧ z.packetTime 0 1 ≤ (sending 1).clock.toNat ∧ 1 + 1 = z.d.framePackets)
    ∧ (let z := ((sending 1).claimSubst 63).session 63
       0 < z.packetTime 0 1) := by decide +kernel

def closing : State := { session (fun x => { x with d := { x.d with h := 2 }, slots := [{ FrameSlot.fresh with frame := some 0, lines := [(0, { LineSt.fresh with closed := true })] }, .fresh] }) with clock := 0x7FFFFFFFFFFFFFFF }

theorem witness_line_close : ((closing.session 63).d.deadline 0 1 ≤ closing.clock.toNat) ∧ (closing.session 63).mayClose 0 1 = true ∧ closing.handedOver (closing.session 63) ((closing.session 63).d.deadline 0 1) = true
    ∧ (closing.modLport 7 (fun z => { z with ingress := [0] })).handedOver (closing.session 63) ((closing.session 63).d.deadline 0 1) = false ∧ (closing.session 63).d.send = false
    ∧ (closing.session 63).d.opaque_ = false := by decide +kernel

def opaqueSending : State :=
  let s := session (fun x => { x with d := { x.d with fmt := 7, send := true, pitch := 128, store := 0x5000 } })
  { s with mem := Memory.writeBytes s.mem 0x5008 [112] }

theorem witness_opaque : (opaqueSending.session 63).d.opaque_ = true ∧ opaqueSending.peek 0x5008 4 = 112
    ∧ (rtp90 opaqueSending.clock.toNat - BitVec.ofNat 32 (opaqueSending.peek 0x500C 4)).toNat < 2 ^ 31 := by decide +kernel

/-- Packets for that session: one without segments' data of line 0, and one of an opaque essence that fills its slot. -/
def video : VideoPacket :=
  { stamp := 0, srcIp := 0, dstIp := 0, dport := 0, pt := 0, ssrc := 0, seq := 0, rtp := 0, sumOk := true, segs := [{ line := 1, first := 0, data := [] }] }

def packet : RtpPacket :=
  { stamp := 0, srcIp := 0, dstIp := 0, dport := 0, pt := 0, ssrc := 0, seq := 0, rtp := 0, sumOk := true, payload := List.replicate 112 0 }

def opaqueReceiving : State := session (fun x => { x with d := { x.d with fmt := 7, pitch := 128, store := 0x5000 } })

theorem witness_packets : ((closing.handOver 7 0).countRecv 7).matchSession (fun x => !x.d.opaque_ && x.d.matches_ 7 0 0 0 0 0) = some 63 ∧ (((closing.handOver 7 0).countRecv 7).session 63).d.portb = 15
    ∧ closing.lportUp 7 = true ∧ video.segs.all (((closing.handOver 7 0).countRecv 7).session 63).d.segOk = true
    ∧ ((linkedUp.handOver 7 0).countRecv 7).matchSession (fun x => !x.d.opaque_ && x.d.matches_ 7 0 0 0 0 0) = none
    ∧ ((opaqueReceiving.handOver 7 0).countRecv 7).matchSession (fun x => x.d.opaque_ && x.d.matches_ 7 0 0 0 0 0) = some 63
    ∧ packet.payload.length + 16 ≤ (((opaqueReceiving.handOver 7 0).countRecv 7).session 63).d.pitch
    ∧ ((linkedUp.handOver 7 0).countRecv 7).matchSession (fun x => x.d.opaque_ && x.d.matches_ 7 0 0 0 0 0) = none := by decide +kernel

/-- A descriptor of opaque packets on logical port 7, at 0, that may open. -/
def openable : State :=
  let b : List Byte := [0x70, 0x10, 0xF7, 0] ++ leBytes 2 1 ++ leBytes 2 1 ++ leBytes 4 1 ++ leBytes 4 1
  let s := linkedUp.modCtx 0 (fun x => { x with slots := 16 })
  { s with mem := Memory.writeBytes s.mem 0 b }

theorem witness_open : (openable.session 63).desc = 0 ∧ openable.openWhy 0 0 (SessDesc.ofBytes (openable.peekBytes 0 128)) = 0 ∧ (openable.session 63).up = false
    ∧ openable.dev.stage = 6 := by decide +kernel

/-! Llynad and collective programs -/

/-- A machine that takes datagrams from module 1 on logical port 7; a program of tag 9 runs, row 127 is granted to message 3 of module
1, and group 0 is a genlock group of modules 0 and 1 that this module leads. -/
def linking : State :=
  let pr : CProg := { ctx := 0, hdr := some 0, steps := 0x5000, nsteps := 9, ty := 1, rop := 0, det := false, group := 0, tag := 9, src := 0x6000, dst := 0x6000, scr := 0x6000,
                      csize := 256, nch := 1, ctr := 0, cinc := 0, pc := 0, loops := [0, 0, 0, 0], txNum := [], rxNum := [], detPort := [], routes := [], out := [], got := [],
                      held := none, owner := none, slotOf := none, ending := none }
  let s := (linkedUp.setProg 31 (some pr)).modGroup 0 (fun x => { x with en := true, size := 2, ranks := [0, 1] })
  { s with lly := { s.lly with
      peers := s.lly.peers.set 1 { (s.lly.peers.getD 1 .fresh) with mask := 0x80 }
      rows := s.lly.rows.set 127 { (s.lly.rows.getD 127 .fresh) with owner := some (1, 9, 3) } } }

def header (dst : Nat) (tag : Word) : LlyHeader :=
  { src := 1, dst := dst, tag := tag, seq := 1, ackSeq := 0, msg := 3, row := 127, nflit := 1, param := 0xFFFFFFFFFFFF, rport := 0, via := 1, sumOk := true }

theorem witness_datagrams : linking.llyAccepts 7 (header 0 9) = true ∧ linking.llyAccepts 6 (header 0 9) = false ∧ linking.lportUp 6 = true
    ∧ ((((linking.countRecv 7).learnPort 1 7 0).path 1 7 0).acknowledge 0).rxSeq = 0 ∧ (header 0 9).seq = 0 + 1 ∧ (header 2 9).dst ≠ linking.lly.rank ∧ (header 0 9).dst = linking.lly.rank
    ∧ linking.programOf 9 = some 31 ∧ linking.programOf 8 = none ∧ linking.lly.rows.findIdx? (fun r => r.isFor (header 0 9) && r.data.isNone) = some 127
    ∧ (linking.lly.rows.getD 127 .fresh).isFor (header 0 9) = true ∧ linking.genlockOf (header 0 8) = some 0 ∧ linking.leads 0 = true
    ∧ linking.clock.toNat < (linking.group 0).decideAt (header 0 8).param
    ∧ linking.lly.rows.findIdx? (fun r => r.isFor (header 0 8) && r.data.isNone) = none ∧ linking.lly.reqs = [] := by decide +kernel

/-- The program has asked for a row for a message of three bytes to module 1. -/
def asking : State :=
  { linking with progs := linking.progs.map (fun p => p.map (fun x => { x with out := [{ peer := 1, num := 3, data := [1, 2, 3], sent := 0, asked := true }] })) }

theorem witness_grant : asking.llyAccepts 7 (header 0 9) = true ∧ asking.programOf 9 = some 31
    ∧ (let taken := asking.receiveLly 7 kGRANT (header 0 9) [] id
       taken.programOf 9 = some 31 ∧ (taken.prog? 31).map (fun pr => (pr.out.find? (fun m => m.peer = 1 && m.num = 3 && m.asked)).isSome) = some true
       ∧ (let u := taken.progSend 31 1 kDATA (taken.llyHeader 1 9 3 127 1 0) (List.replicate 256 0)
          u.1 = true ∧ (u.2.prog? 31).isSome = true)) := by decide +kernel

/-- A path with a datagram sent at 0 that has been sent again seven and eight times; and one that has failed. -/
def resending (tries : Nat) (failed : Bool) : State :=
  ({ linking with clock := 20000 } : State).setPath { (LPath.fresh 1 7 0) with
    unacked := if tries = 0 then [] else [{ kind := kREQ, hdr := header 0 9, data := [], sent := 0, tries := tries, moved := false, fixed := false }], failed := failed }

theorem witness_paths : (∀ n ∈ [7, 8], ((resending n false).path 1 7 0).failed = false ∧ ((resending n false).path 1 7 0).unacked.map (fun d => (d.sent, d.tries)) = [(0, n)]
      ∧ ((resending n false).path 1 7 0).unacked.any (resending n false).resendDue = true)
    ∧ ((resending 0 false).path 1 7 0).unacked.any (resending 0 false).resendDue = false
    ∧ (∀ n ∈ [0, 8], ((resending n true).path 1 7 0).failed = true ∧ ((resending n true).path 1 7 0).retryAt ≤ (resending n true).clock)
    ∧ ((resending 0 true).path 1 7 0).unacked = [] ∧ ((resending 8 true).path 1 7 0).unacked ≠ [] := by decide +kernel

/-- The nine step words of program 31 behind a page table at 0 that maps 0x4000 to itself: END, SEND, RECV, RRS, COPY, WAIT, LOOP twice to step 0, SIG, and a
word with a reserved operation. -/
def stepping (pc : Nat) : State :=
  let ws : List Nat := [0, 1 * 2 ^ 60, 2 * 2 ^ 60, 3 * 2 ^ 60, 4 * 2 ^ 60, 5 * 2 ^ 60, 6 * 2 ^ 60 + 2 * 2 ^ 12, 7 * 2 ^ 60, 8 * 2 ^ 60]
  let s := linking.modCtx 0 (fun x => { x with ptroot := 0 })
  let m := Memory.writeBytes (Memory.writeBytes s.mem 0 (leBytes 8 1 ++ leBytes 8 fetchLeaf.toNat)) 0x5000 (ws.flatMap (leBytes 8))
  { s with mem := m, progs := s.progs.map (fun p => p.map (fun x => { x with pc := pc })) }

theorem witness_steps : (List.range 9).map (fun k => ((stepping k).prog? 31).map (fun pr => (pr.pc, (stepping k).tablePa pr.ctx (pr.steps.toNat + 8 * pr.pc) pteR)))
      = (List.range 9).map (fun k => some (k, some (0x5000 + 8 * k)))
    ∧ (List.range 9).map (fun k => ((stepping k).prog? 31).map (fun pr => (pr.ending.isNone && pr.out.isEmpty,
        stepWordOk ((stepping k).peek (0x5000 + 8 * k) 8) ((stepping k).group pr.group).myIdx ((stepping k).groupSize pr) pr.nsteps pr.ty,
        bitsOf ((stepping k).peek (0x5000 + 8 * k) 8) 60 4)))
      = (List.range 9).map (fun k => some (true, decide (k < 8), k))
    ∧ (linking.prog? 0).isNone = true ∧ (linking.tablePa 0 0x5000 pteR).isNone = true := by decide +kernel

theorem witness_step_effects : (((stepping 1).prog? 31).map (fun pr => ((stepping 1).readChunk pr 0x6000 256).isSome && ((stepping 4).writeChunk pr 0x6000 (List.replicate 256 0)).isSome
      && (stepping 5).allAcked pr)) = some true
    ∧ (((stepping 7).prog? 31).map (fun pr => (stepping 7).peerRank pr 0 0)) = some (stepping 7).lly.rank := by decide +kernel

/-- A timed barrier of group 0 at T = 300 µs, whose guard is 200 µs. -/
def barring (t : DWord) (f : Genlock → Genlock) : State :=
  let b : Genlock := { target := 300000, session := 63, frame := 0, ctx := 0, owner := (0, 0, 0), vd := 8, mask := 0xFF, arrived := false, instant := false, decided := false, late := false, checked := false,
                       cacks := [] }
  ({ linking with clock := t } : State).modGroup 0 (fun x => { x with tbars := [f b] })

theorem witness_genlock : (((barring 100000 id).group 0).tbars.filter (fun b => !b.instant && decide (((barring 100000 id).group 0).commitAt b.target ≤ 100000))).length = 1
    ∧ (((barring 200000 id).group 0).tbars.filter (fun b => !b.decided && decide (((barring 200000 id).group 0).decideAt b.target ≤ 200000))).length = 1
    ∧ (((barring 300000 (fun b => { b with decided := true })).group 0).tbars.filter (fun b => b.decided && !b.checked && decide (b.target ≤ 300000))).length = 1
    ∧ 300000 ∉ ((barring 300000 (fun b => { b with decided := true })).group 0).commits := by decide +kernel

/-- The same where module 1 leads, and the frame is complete. -/
def arriving : State :=
  let s := (barring 0 id).modGroup 0 (fun x => { x with ranks := [1, 2] })
  s.modSession 63 (fun x => { x with slots := [{ FrameSlot.fresh with frame := some 0, state := 2 }, .fresh] })

theorem witness_arrive : ((arriving.group 0).tbars.filter (fun b => !b.arrived && !b.decided && (arriving.session b.session).claimed b.frame
      && ((arriving.session b.session).slot b.frame).state = 2)).length = 1 ∧ (arriving.group 0).leader ≠ arriving.lly.rank := by decide +kernel

/-- Two actions of trigger slot 31: a copy, and a program. -/
def acting31 (kind : Nat) : State := linking.modCtx 0 (fun x => { x with trigs := modAt x.trigs 31 (fun t => { t with actions := [(5, leBytes 64 kind)] }) })

theorem witness_actions : (((acting31 1).ctx 0).trigs.getD 31 .fresh).actions.find? (fun a => !(acting31 1).actionRuns 0 31 a.1) = some (5, leBytes 64 1)
    ∧ leAt (leBytes 64 1) 0 4 % 4 = 1 ∧ (((acting31 2).ctx 0).trigs.getD 31 .fresh).actions.find? (fun a => !(acting31 2).actionRuns 0 31 a.1) = some (5, leBytes 64 2)
    ∧ leAt (leBytes 64 2) 0 4 % 4 ≠ 1 := by decide +kernel

/-! Bring-up and the device -/

def staged (k : Nat) (verify : Bool) : State := State.reset.modDev (fun d => { d with power := true, stage := k, verify := verify, linkUp := decide (1 ≤ k), burning := decide (k = 7) })

theorem witness_bring_up : (State.reset.modDev (fun d => { d with power := false })).dev.power = false ∧ (∀ k, k < 8 → (staged k false).dev.stage = k ∧ (staged k false).dev.power = true)
    ∧ (staged 1 false).dev.romDone = false ∧ (staged 1 false).dev.linkUp = true ∧ (staged 2 true).dev.verify = true ∧ (staged 2 false).dev.verify = false
    ∧ (staged 5 false).ptp.stepped = false := by decide +kernel

theorem witness_device : (staged 6 false).dev.romOnly = false ∧ (staged 6 false).dev.burning = false ∧ (staged 7 false).dev.burning = true ∧ (staged 6 false).dev.attBusy = false
    ∧ (let z := (staged 6 false).modDev (fun d => { d with attBusy := true, leaving := 1, softCore := 1, temp := 105, pwrLim := 5 })
       z.dev.attBusy = true ∧ z.retiring 0 = true ∧ (z.core 0).enabled = true ∧ z.residentOn 0 = [] ∧ 105 ≤ z.dev.temp.toNat ∧ z.dev.pwrLim < 6 ∧ (5 : BitVec 16) ≤ z.dev.pwrLim)
    ∧ 0x4001 / 2 ^ 14 ∉ (staged 6 false).dev.retired ∧ (staged 6 false).dev.retired.length < 512 ∧ (smapGet (staged 6 false).dev.spares 127).getD 0 < 8
    ∧ (staged 6 false).reached (staged 6 false).dev.snap.time = true := by decide +kernel

theorem witness_writeback : let z : State := ({ staged 6 false with ue := [0x5000 / 32], lastCtx := [(0x5000 / 128, 63)] } : State).modDev (fun d => { d with memSize := 0x8000 })
    z.bad (0x5000 / 128 * 128) 128 = true ∧ smapGet z.lastCtx (0x5000 / 128) = some 63 ∧ (staged 6 false).dev.rcand = []
      ∧ smapGet ({ z with lastCtx := [] } : State).lastCtx (0x5000 / 128) = none := by decide +kernel

/-! #### The encoding, the step, traps and memory -/

theorem witness_round_trip : (Instr.add 62 62 60 7 7).wellFormed = true ∧ (encodeNat (.add 62 62 60 7 7)).isSome = true := by decide +kernel

/-- `State.withFetchWord` about to issue: after the model's own cycle, and at once by a move of the agenda. -/
def ticked (s : State) : State := s.arrange.elapse 1 0

theorem witness_step : base.agenda = [] ∧ base.arrange.pick = some (0, 0) ∧ (ticked base).canIssue 0 0 = true ∧ (((ticked base).select 0 0).issuer).isSome = true
    ∧ base.arrange.canIssue 0 0 = true ∧ ((base.arrange.select 0 0).issuer).isSome = true
    ∧ (({ base with agenda := [.issue 0 0] } : State).agenda = .issue 0 0 :: []) := by
  and_intros <;> decide +kernel

/-- The word is in the instruction cache. -/
theorem witness_step_strand : ∃ e tr x, ((ticked base).select 0 0).issuer = some e ∧ e.t.fetchPc.toNat = 0x4000 ∧ e.setRotationDue = false ∧ e.deferredDue = false
    ∧ e.rotationDue = false ∧ e.c.walker = false ∧ lookupTrans (e.s.core e.c.core) e.t.answers none e.c.ctx 0x4000 = .found tr ∧ pteX tr.entry = true
    ∧ pteP tr.entry = true ∧ (e.s.core e.c.core).iline? e.c.seq (tr.pa 0x4000) = some x ∧ decode ((x.bytes.drop (tr.pa 0x4000 % 128)).take 4) = .ok .nop
    ∧ e.t.unit.rep = none :=
  ⟨_, _, _, by rfl, by decide +kernel, by decide +kernel, by decide +kernel, by decide +kernel, by decide +kernel, by rfl, by decide +kernel, by decide +kernel,
    by rfl, by rfl, by decide +kernel⟩

/-- The line of the word holds an uncorrectable error elsewhere: the word comes from memory. -/
def upsetLine : State := { base with ue := [(0x4000 + 32) / 32] }

theorem witness_step_memory : ∃ e tr, ((ticked upsetLine).select 0 0).issuer = some e ∧ lookupTrans (e.s.core e.c.core) e.t.answers none e.c.ctx 0x4000 = .found tr
    ∧ (e.s.core e.c.core).iline? e.c.seq (tr.pa 0x4000) = none ∧ e.s.bad (tr.pa 0x4000) 4 = false ∧ decode (e.s.peekBytes (tr.pa 0x4000) 4) = .ok .nop :=
  ⟨_, _, by rfl, by rfl, by decide +kernel, by decide +kernel, by rfl⟩

/-- A strand that has not fetched yet. -/
theorem witness_fill : (envOf base).codePa = some 0x4000 ∧ ((envOf base).s.core (envOf base).c.core).iline? (envOf base).c.seq 0x4000 = none
    ∧ (envOf base).s.bad 0x4000 128 = false ∧ (envOf base).c.core < (envOf base).s.cores.length := by decide +kernel

theorem witness_undecoded : (let z := State.reset.withFetchWord 32 0xFFFFFFFF
    z.agenda = [] ∧ z.arrange.pick = some (0, 0) ∧ (ticked z).canIssue 0 0 = true)
    ∧ decode ((State.reset.withFetchWord 32 0xFFFFFFFF).peekBytes 0x4000 4) = .error (.unassignedOpcode 0xFF) :=
  ⟨by decide +kernel, by rfl⟩

/-- An ill-formed word; a register pair past the last register; a result in flight on v8; a source with an uncorrectable error. -/
theorem witness_checks : State.reset.issuer = none ∧ isWord (.add 9 10 12 2 0) = true ∧ (Instr.add 9 10 12 2 0).wellFormed = false ∧ base.issuer = some (envOf base)
    ∧ (reqOf (.add 17 9 10 0 0)).illegal (envOf blocks) = true ∧ blocks.issuer = some (envOf blocks)
    ∧ (let z := withStrand (fun t => { t with inflight := [{ id := 0, ctr := .cl, dsts := [8], pdst := none, pc := 0x4000, kind := .publish 0 0 0, done := false, srcs := [], gone := 0 }] }) base
       (reqOf (.add 8 9 10 0 0)).illegal (envOf z) = false ∧ (reqOf (.add 8 9 10 0 0)).blocked ((reqOf (.add 8 9 10 0 0)).ready (envOf z)).t = true)
    ∧ (let z := withRegs [(9, { uniform 0 with bad := true })] base
       (reqOf (.add 8 9 10 0 0)).blocked ((reqOf (.add 8 9 10 0 0)).ready (envOf z)).t = false
       ∧ (reqOf (.add 8 9 10 0 0)).sourceBad ((reqOf (.add 8 9 10 0 0)).ready (envOf z)).t = true) := by
  exact ⟨by decide +kernel, by decide +kernel, by decide +kernel, by rfl, by decide +kernel, by rfl, by and_intros <;> decide +kernel⟩

theorem witness_taking : (envOf handled).c.walker = false ∧ (envOf base).c.walker = false
    ∧ (let p := ((envOf handled).s.ctx (envOf handled).c.ctx).trapPc.toNat
       p ≠ 0 ∧ p % 4 = 0 ∧ p < 2 ^ 57 ∧ p / 2 ^ 32 = (envOf handled).c.entryPc.toNat / 2 ^ 32 ∧ (envOf handled).t.inHandler = false)
    ∧ ((envOf base).s.ctx (envOf base).c.ctx).trapPc = 0 := by decide +kernel

theorem witness_home_writes : base.mem.wf = true ∧ base.hasMemory 0xFFFFF = true ∧ base.hasMemory 0x100000 = false := by decide +kernel

/-! ### Witnesses of the forms that trap, wait or are refused -/

theorem witness_movhi_refused : ((envOf data).t.reg 40).tag ≠ .uniform ∧ Starts data (envOf data) (.movhi 40 1) :=
  ⟨by decide +kernel, starts_of_ready (by decide +kernel)⟩

/-- A running machine whose memories are in canonical form, and a step of it. -/
theorem witness_canonical : base.Canonical ∧ ∃ t, step base = .next t :=
  ⟨{ mem := by decide +kernel, buffers := by decide +kernel, device := by decide +kernel
     swages := fun k hk => (by decide +kernel : ∀ k ∈ base.cores, ∀ t ∈ k.swage.tiles, t.data.wf = true ∧ t.scale.wf = true) k hk
     saved := fun c hc w hw => by simp [(by decide +kernel : ∀ c ∈ base.crews, c.swage = none) c hc] at hw }, _, by rfl⟩

/-- The page of `data` without some of its permissions. -/
def stripped (bits : DWord) : State := data.modCore 0 (fun co => { co with tlb := co.tlb.map (fun t => { t with entry := t.entry &&& ~~~bits }) })

/-- Addresses four bytes apart. -/
def skewed : State := withRegs [(42, general (fun l => BitVec.ofNat 32 (0x5000 + 4 * l)))] data

/-- Loads, stores and atomics with misaligned elements, and on a page that refuses them; local accesses off their claim. -/
theorem witness_access_traps : memOff (envOf data).t.unit 1 = some 1 ∧ lanesWith 0xFF (loadEls (envOf skewed) .b64 8 42 0) .misaligned = 0xAA
    ∧ lanesWith 0xFF (loadEls (envOf (stripped 8)) .b32 4 40 0) .misaligned = 0 ∧ lanesWith 0xFF (loadEls (envOf (stripped 8)) .b32 4 40 0) .refused = 0xFF
    ∧ lanesWith 0xFF (fun l => [rawEl ((envOf (stripped 16)).look l) pteW 4 ((envOf (stripped 16)).t.ea 40 0 4 l)]) .refused = 0xFF
    ∧ lanesWith 0xFF (fun l => [rawEl ((envOf (stripped 16)).look l) pteRWA 4 ((envOf (stripped 16)).t.lane64 40 l).toNat]) .refused = 0xFF
    ∧ (envOf data).t.eaLocal 40 0 0 % 4 = 0 ∧ ((envOf data).c.claim .wbuf).size < (envOf data).t.eaLocal 40 0 0 + 4
    ∧ (envOf (withRegs [(44, uniform 1)] data)).t.eaLocal 44 0 0 % 4 ≠ 0 := by decide +kernel

theorem witness_access_starts : Starts skewed (envOf skewed) (.ldB64 16 42 0 0) ∧ (∀ i ∈ [Instr.ldbW 16 40 0 0, .stbC 8 40 0 0], Starts data (envOf data) i) ∧ Starts (withRegs [(44, uniform 1)] data) (envOf (withRegs [(44, uniform 1)] data)) (.stbC 8 44 0 0)
    ∧ Starts (stripped 8) (envOf (stripped 8)) (.ldB32 16 40 0 0) ∧ (∀ i ∈ [Instr.stB32 8 40 0 0, .atom 16 40 8 0 0], Starts (stripped 16) (envOf (stripped 16)) i) :=
  ⟨starts_of_ready (by decide +kernel), all_start (by decide +kernel), starts_of_ready (by decide +kernel), starts_of_ready (by decide +kernel), all_start (by decide +kernel)⟩

/-- Loads and stores of lanes in transactions, and raw loads of a walker strand, aligned and not. -/
theorem witness_transactional : (∀ i ∈ [Instr.ldB32 16 40 0 0, .stB32 8 40 0 0], Starts (inTx 1 0 0) (envOf (inTx 1 0 0)) i) ∧ (envOf (inTx 1 0 0)).t.txActive = true
    ∧ ((envOf (inTx 1 0 0)).t.thread 0).tx.open = true ∧ ((envOf (inTx 1 0 0)).t.thread 2).tx.open = false
    ∧ (∀ i ∈ [Instr.ldB32 16 40 0 0, .ldB64 16 40 0 0, .ldB64 16 40 1 0], Starts walking (envOf walking) i)
    ∧ (∀ l ∈ lanesOf 0xFF, vaBad ((envOf walking).t.ea 40 0 8 l) = false ∧ (envOf walking).t.ea 40 0 8 l % 8 = 0
        ∧ (envOf walking).s.bad ((envOf walking).t.ea 40 0 8 l) 8 = false) :=
  ⟨all_start (by decide +kernel), by decide +kernel, by decide +kernel, by decide +kernel, all_start (by decide +kernel), by decide +kernel⟩

theorem witness_refused_words : staticIllegal (.hintPref 1 0 0 0) = true
    ∧ (∀ v ∈ pairReads 42 40 0x211, (∀ q ∈ (envOf (copying 0x211)).t.inflight, q.done = true ∨ v ∉ q.dsts) ∧ ((envOf (copying 0x211)).t.reg v).bad = false)
    ∧ (let cv : Conv := (envOf held).swage.cvs.getD 2 ⟨0, 0, none, []⟩
       cv.decl ≠ 0 ∧ cv.sigs + laneCount (maskFor (.mswap 2 1 0) (envOf held)) = cv.decl) := by decide +kernel

theorem witness_last_signatures : ∀ i ∈ [Instr.tzero 0 2 1 0, .mswap 2 1 0, .mclr 0 2 1 0 0], TileReady held (envOf held) i := all_ready (by decide +kernel)

/-- The structures of `fielding` on a page that may not be read, that is absent, or that may not be written; and one whose numbers are
out of range. -/
def fieldPage (bits : DWord) : State := fielding.modCore 0 (fun co => { co with tlb := co.tlb.map (fun t => { t with entry := t.entry &&& ~~~bits }) })

theorem witness_field_pages : (∀ bits ∈ [2, 8], ∃ tr, (envOf (fieldPage bits)).look 0 0x5000 = .found tr ∧ pteR tr.entry = decide (bits = 2)
      ∧ pteP tr.entry = decide (bits = 8)) ∧ vaBad 0x5000 = false ∧ 0x5000 % 64 = 0 ∧ (fieldAt 0x5100).aligned = true ∧ (fieldAt 0x5100).inRange = false
    ∧ classify ((envOf (fieldPage 16)).look 0) (shadowWant (fieldAt 0x5000) pteWA) 0x7000 = .refused := by
  refine ⟨fun bits hb => ?_, by decide +kernel⟩
  simp only [List.mem_cons, List.not_mem_nil, or_false] at hb
  rcases hb with rfl | rfl <;> exact ⟨_, by rfl, by decide +kernel, by decide +kernel⟩

theorem witness_field_refusals : (∀ i ∈ [Instr.hgf 16 8 20 0 0, .hgs 16 8 20 0 0, .tex 16 8 22 0, .march 40 8 26 0, .trace 16 8 28 0, .hgfold 8 20 34 36],
      Starts (fieldPage 2) (envOf (fieldPage 2)) i) ∧ (∀ i ∈ [Instr.hgf 16 8 20 0 0, .hgs 16 8 20 0 0, .tex 16 8 22 0, .hgfold 8 20 34 36],
      Starts (fieldPage 8) (envOf (fieldPage 8)) i) ∧ Starts (fieldPage 16) (envOf (fieldPage 16)) (.hgs 16 8 20 0 0) :=
  ⟨all_start (by decide +kernel), all_start (by decide +kernel), starts_of_ready (by decide +kernel)⟩

/-- A fold's control word: in range, and not. -/
theorem witness_folds : foldRm ((envOf fielding).t.lane 36 0) ≤ 5 ∧ ((envOf fielding).t.lane 36 0).toNat < 32
    ∧ ((envOf fielding).t.lane 34 0).toNat + ((envOf fielding).t.lane 35 0).toNat ≤ (fieldAt 0x5000).lev * (fieldAt 0x5000).entries
    ∧ 32 ≤ ((envOf (withRegs [(36, uniform 32)] fielding)).t.lane 36 0).toNat ∧ Starts (withRegs [(36, uniform 32)] fielding) (envOf (withRegs [(36, uniform 32)] fielding))
      (.hgfold 8 20 34 36) := ⟨by decide +kernel, by decide +kernel, by decide +kernel, by decide +kernel, starts_of_ready (by decide +kernel)⟩

/-- A binding whose frame a later one has displaced. -/
def displaced : State := (streaming false).modSession 0 (fun x => { x with slots := [{ FrameSlot.fresh with frame := some 2 }, .fresh] })

theorem witness_displaced : Starts displaced (envOf displaced) (.srd 8 0 0 20 1 0) ∧ ((envOf displaced).c.bind 0).refuses (some false) = false
    ∧ ((envOf displaced).s.session ((envOf displaced).c.bind 0).session).passedBy ((envOf displaced).c.bind 0).frame = true :=
  ⟨starts_of_ready (by decide +kernel), by decide +kernel⟩

/-- A guard that a stream read in flight will write. -/
def guarded : State :=
  withStrand (fun t => { t with inflight := [{ id := 0, ctr := .cl, dsts := [], pdst := some 3, pc := 0x4000, kind := .publish 0 0 0, done := false, srcs := [], gone := 0 }] }) base

theorem witness_guards : guarded.issuer = some (envOf guarded) ∧ isWord (.add 8 9 10 0 3) = true ∧ isPrefix (.add 8 9 10 0 3) = false
    ∧ (reqOf (.add 8 9 10 0 3)).guardPending ((reqOf (.add 8 9 10 0 3)).guardReady (envOf guarded)).t = true
    ∧ (reqOf (.add 8 9 10 0 0)).guardPending ((reqOf (.add 8 9 10 0 0)).guardReady (envOf guarded)).t = false
    ∧ (reqOf (.add 8 9 10 0 0)).idle ((reqOf (.add 8 9 10 0 0)).guardReady (envOf guarded)) = false ∧ (reqOf (.tst 0 0 0 0 0 0 0)).bitM = true :=
  ⟨by rfl, by decide +kernel⟩

/-- A request answered where a transaction's buffered stores still need the page. -/
def buffering : State :=
  let s := (inTx 1 0 0).modCtx 0 (fun x => { x with resReqs := [1] })
  { withThreads (fun _ th => { th with tx := { th.tx with rset := th.tx.rset.map (fun r => { r with tr := some (Trans.ofLeaf 0 fetchVa 3 fetchLeaf) }) } }) s with
    dev := { s.dev with stage := 6 } }

theorem witness_residency_waits : buffering.managed 0 = true ∧ 0x4001 / 2 ^ 14 ∈ (buffering.ctx 0).resReqs ∧ (buffering.ctx 0).resWait = []
    ∧ (let asked := buffering.modCtx 0 (fun y => { y with resWait := y.resWait ++ [(1, true)] })
       asked.bufferedThrough none asked.enabledCores 0 (fun tr => tr.covers 0 0x4000) = true)
    ∧ buffering.bufferedThrough none buffering.enabledCores 0 (fun tr => tr.covers 0 0x4001) = true ∧ (requested.ctx 63).resWait = []
    ∧ requested.bufferedThrough none requested.enabledCores 63 (fun tr => tr.covers 63 0x8000) = false := by decide +kernel

/-- A front frame of one page at 0x8000. -/
def fronted : State :=
  running.modCtx 63 (fun x => { x with windows := modAt x.windows 7 (fun w => { w with en := true, wfront := 0x8000, wpages := 1 }) })

theorem witness_fronted : hostReaches 0x7FFF 2 = true ∧ fronted.inFront 0x7FFF = false ∧ fronted.inFront (0x7FFF + 1) = true := by decide +kernel

theorem witness_port_modes : (running.port 2).enabled = true ∧ running.portInUse 2 = false ∧ (running.port 2).mode ≠ 3
    ∧ ((running.modPort 2 (fun p => { p with enabled := false })).port 2).enabled = false ∧ ((session id).session 63).up = true
    ∧ ((staged 5 false).session 63).up = false ∧ (staged 5 false).dev.stage ≠ 6 := by decide +kernel

/-- The state after a datagram has been acknowledged. -/
def received (s : State) : State := s.receiveLly 7 kACK (header 0 9) [] id

theorem witness_grants : (linking.lly.rows.findIdx? (fun r => r.isFor { header 0 9 with param := 0 } && r.off = 0 && r.data.isNone)) = some 127
    ∧ linking.lly.rows.findIdx? (fun r => r.isFor (header 0 9) && r.off = (header 0 9).param.toNat && r.data.isNone) = none
    ∧ ({ linking with lly := { linking.lly with reqs := [(0, 7, header 0 9)] } } : State).lly.reqs.any (fun q => sameLoad q.2.2 (header 0 9)) = true
    ∧ (linking.prog? 31).map (fun pr => (decide (pr.csize < 0xFFFFFFFFFFFF + 256), decide (0 + 256 ≤ pr.csize))) = some (true, true) := by decide +kernel

theorem witness_late_commit : (let z := barring 290000 (fun b => { b with decided := true })
       (z.group 0).decideAt 300000 ≤ z.clock.toNat ∧ 300000 ∉ (z.group 0).commits
         ∧ ((z.group 0).tbars.filter (fun b => b.target = 300000 && b.decided && !b.late)).length = 1)
    ∧ (linking.group 0).commitAt 300000 < (barring 290000 id).clock.toNat ∧ linking.clock.toNat ≤ (linking.group 0).commitAt 300000 := by decide +kernel

theorem witness_own_arrival : (let z := (barring 0 id).modSession 63 (fun x => { x with slots := [{ FrameSlot.fresh with frame := some 0, state := 2 }, .fresh] })
    ((z.group 0).tbars.filter (fun b => !b.arrived && !b.decided && (z.session b.session).claimed b.frame && ((z.session b.session).slot b.frame).state = 2)).length = 1
      ∧ (z.group 0).leader = z.lly.rank ∧ z.clock.toNat ≤ (z.group 0).commitAt 300000) := by decide +kernel

/-- A row with four corrected errors, with a spare left and without; a hot device; full tables. -/
def failing (used : Nat) : State := running.modDev (fun d => { d with rowCe := [(127 + 128 * 1535, 4)], spares := [(127, used)] })

theorem witness_repair : (∀ n ∈ [7, 8], 127 + 128 * 1535 ∉ (failing n).dev.rowsDead ∧ (smapGet (failing n).dev.rowCe (127 + 128 * 1535)).getD 0 = 4
      ∧ (smapGet (failing n).dev.spares 127).getD 0 = n) ∧ 1535 < hearthRows ∧ ¬1536 < hearthRows := by decide +kernel

/-- A hot device with `n` retired pages and `m` candidates, none of them page 513. -/
def crammed (n m : Nat) : State := running.modDev (fun d => { d with thr := 32, retired := List.replicate n 0, rcand := List.replicate m 3 })

theorem crammed_tables (n m : Nat) : n ≤ (crammed n m).dev.retired.length ∧ m ≤ (crammed n m).dev.rcand.length ∧ 513 ∉ (crammed n m).dev.retired
    ∧ ∀ c ∈ (crammed n m).dev.rcand, c.toNat / 2 ^ 14 ≠ 513 := by
  refine ⟨?_, ?_, ?_, fun c h => ?_⟩
  · simp [crammed, State.modDev]
  · simp [crammed, State.modDev]
  · simp [crammed, State.modDev, List.mem_replicate]
  · obtain ⟨-, rfl⟩ : m ≠ 0 ∧ c = 3 := by simpa [crammed, State.modDev, List.mem_replicate] using h
    decide

/-- Tables without room: 512 retired pages and 64 candidates. -/
theorem witness_full_tables : 512 ≤ (crammed 512 64).dev.retired.length ∧ 64 ≤ (crammed 512 64).dev.rcand.length :=
  ⟨(crammed_tables 512 64).1, (crammed_tables 512 64).2.1⟩

theorem witness_hot : 32 ≤ (crammed 0 0).dev.thr ∧ running.dev.thr < 32 := by decide +kernel
end Sys2Proof.Tests
end

section
/-! The events of a context's registers, translations and pages (O46): what each answers under the condition that its rule names,
from the shared operations to the events, and the obligation assembled from them. -/

namespace Sys2Proof.Machine

/-! ### Contexts and queues in place -/

/-- An update of a context matters only at the context as it stands. -/
theorem State.modCtx_congr {s : State} {x : Nat} {f g : Context → Context} (h : f (s.ctx x) = g (s.ctx x)) :
    s.modCtx x f = s.modCtx x g := by
  simp only [State.modCtx, h]

theorem State.modQueue_congr {s : State} {q : Nat} {f g : Queue → Queue} (h : f (s.queue q) = g (s.queue q)) :
    s.modQueue q f = s.modQueue q g := by
  simp only [State.modQueue, h]

theorem State.ctx_modCtx (s : State) (x : Nat) (f : Context → Context) (h : x < s.ctxs.length) :
    (s.modCtx x f).ctx x = f (s.ctx x) := by
  simp [State.ctx, State.modCtx, State.setCtx, h]

/-- A context with a residency request is one of the machine's: the context read past the end of the list has none. -/
theorem State.ctx_lt_of_requested {s : State} {x page : Nat} (h : page ∈ (s.ctx x).resReqs) : x < s.ctxs.length := by
  refine Nat.lt_of_not_le fun hx => ?_
  have hfresh : s.ctx x = .fresh := by
    rw [State.ctx, List.getD_eq_getElem?_getD, List.getElem?_eq_none hx, Option.getD_none]
  rw [hfresh] at h
  exact List.not_mem_nil h

/-! ### Guarded registers (R22, R23, R334, R359) -/

/-- CXASSIST in an idle context takes the value. -/
theorem cxassistWrite_idle {s : State} {x : Nat} (w : Word) (ho : s.managed x = true) (hi : s.idle x = true) :
    exec (.cxassistWrite x w) s = .next (s.modCtx x (fun y =>
      { y with assist := BitVec.truncate 5 w, assistRej := y.assistRej && !w.getLsbD 31 })) := by
  change execCxassistWrite x w s = _
  simp [execCxassistWrite, ho, hi]

/-- CXASSIST refuses a change of a mode in a context that is not idle. -/
theorem cxassistWrite_busy {s : State} {x : Nat} {w : Word} (ho : s.managed x = true) (hi : s.idle x = false)
    (hv : BitVec.truncate 5 w ≠ (s.ctx x).assist) :
    exec (.cxassistWrite x w) s = .next (s.modCtx x (fun y => { y with assistRej := true })) :=
  congrArg Host.Outcome.next (State.modCtx_congr (by simp [ho, hi, hv]))

theorem saveBaseWrite_idle {s : State} {x : Nat} (v : DWord) (ho : s.managed x = true) (hi : s.idle x = true) :
    exec (.saveAreaWrite x 8 v) s = .next (s.modCtx x (fun y => { y with saveBase := v })) := by
  change execSaveAreaWrite x 8 v s = _
  simp [execSaveAreaWrite, ho, hi]

/-- SLOTS in an idle context takes 0 and every number from 16 to 4096. -/
theorem slotsWrite_idle {s : State} {x : Nat} {v : DWord} (ho : s.managed x = true) (hi : s.idle x = true)
    (hlow : bitsOf v.toNat 0 13 = 0 ∨ 16 ≤ bitsOf v.toNat 0 13) (hhigh : bitsOf v.toNat 0 13 ≤ 4096) :
    exec (.saveAreaWrite x 0x10 v) s = .next (s.modCtx x (fun y =>
      { y with slots := bitsOf v.toNat 0 13, slotsRej := y.slotsRej && !v.getLsbD 31 })) := by
  have hrange : ¬ (1 ≤ bitsOf v.toNat 0 13 ∧ bitsOf v.toNat 0 13 ≤ 15) := by omega
  change execSaveAreaWrite x 0x10 v s = _
  simp [execSaveAreaWrite, ho, hi, hrange, Nat.not_lt.mpr hhigh]

/-- PTROOT, WALKPC, WALKARG and EVRING in an idle context take the value. -/
theorem translationRegisterWrite_idle {s : State} {x : Nat} (off : Nat) (v : DWord) (ho : s.managed x = true) (hi : s.idle x = true) :
    exec (.translationRegisterWrite x off v) s = .next (s.modCtx x (fun y => y.setTranslation off v)) := by
  change execTranslationRegisterWrite x off v s = _
  simp [execTranslationRegisterWrite, ho, hi]

theorem contextReset_managed {s : State} {x : Nat} (ho : s.managed x = true) :
    exec (.contextReset x) s = .next ((s.recordError x (.plain 21 false 0 0)).contextReset x) :=
  congrArg Host.Outcome.next (if_pos ho)

/-- The binding of an empty queue of an idle context takes a sound entry and clears the indices (R379). -/
theorem queueBindingWrite_quiet {s : State} {q off : Nat} {v : DWord} (hs : 6 ≤ s.dev.stage) (he : (s.queue q).ridx = (s.queue q).widx)
    (hi : s.idle (s.queue q).ctx = true) (hoff : off < 0x10) (hal : off % 4 = 0) (hok : ((s.queue q).setEntry off v).entryOk = true) :
    exec (.queueBindingWrite q off v) s =
      .next (s.modQueue q (fun y => { y.setEntry off v with widx := 0, ridx := 0 })) := by
  change execQueueBindingWrite q off v s = _
  have hnamed : (decide (0x10 ≤ off) || decide (off % 4 ≠ 0)) = false := by simp [hal, Nat.not_le.mpr hoff]
  simp only [execQueueBindingWrite, hnamed, Bool.false_eq_true, if_false]
  exact congrArg Host.Outcome.next (State.modQueue_congr (by simp [Nat.not_lt.mpr hs, Queue.quiet, he, hi, hok]))

/-! ### Walks and host fills (R363, R365) -/

/-- An engine's miss on a page that no translation of the core covers, that no walk is on and no miss waits for, queues. -/
theorem walkStart_queues {s : State} {core x : Nat} {va : VAddr} (kind : BitVec 5)
    (hres : ∃ c ∈ s.residentOn core, c.walker = false ∧ c.ctx = x) (htlb : ∀ t ∈ (s.core core).tlb, t.covers x va.toNat = false)
    (hwalks : ∀ m ∈ (s.core core).walks, m.ctx ≠ x ∨ pageNo m.va.toNat ≠ pageNo va.toNat)
    (hmiss : ∀ m ∈ (s.core core).misses, m.ctx ≠ x ∨ pageNo m.va.toNat ≠ pageNo va.toNat) :
    exec (.walkStart core x va kind) s = .next ((s.setCore core { s.core core with
      misses := (s.core core).misses ++ [{ ctx := x, va := va, kind := kind, joined := [] }] }).serveMisses core 4) := by
  refine congrArg Host.Outcome.next (if_pos ?_)
  simp only [Bool.and_eq_true, List.any_eq_true, List.all_eq_true, Bool.not_eq_true', Bool.or_eq_true, decide_eq_true_eq]
  exact ⟨⟨⟨hres, htlb⟩, hwalks⟩, hmiss⟩

/-- FILLCTL with GO. -/
theorem hostFill_go {s : State} {x : Nat} {w : Word} (ho : s.managed x = true) (hb : w.getLsbD 31 = true) :
    exec (.hostFill x w) s = .next (s.fillControl x w) :=
  congrArg Host.Outcome.next (if_pos (by simp only [ho, hb, Bool.and_self]))

/-- FILLCTL with END. -/
theorem hostWalkEnd_end {s : State} {x : Nat} {w : Word} (ho : s.managed x = true) (hb : w.getLsbD 30 = true) :
    exec (.hostWalkEnd x w) s = .next (s.fillControl x w) :=
  congrArg Host.Outcome.next (if_pos (by simp only [ho, hb, Bool.and_self]))

/-! ### Residency (R369, R372) -/

/-- Whether a transaction's buffered stores need the translation of an address of a context (R369). -/
def State.buffered (s : State) (x a : Nat) : Bool := s.bufferedThrough none s.enabledCores x (fun tr => tr.covers x a)

/-- One RESVA write takes effect: the page's translation goes, a refusal is told, and the requests and writes for it are closed. -/
def State.answerResidency (s : State) (x : Nat) (w : Nat × Bool) : State :=
  let gone := s.invalidatePage x (w.1 * 2 ^ 14)
  let told := if w.2 then gone.refusePage x w.1 else gone
  (told.modCtx x (fun y => { y with
    resReqs := y.resReqs.filter (fun p => p ≠ w.1), resWait := y.resWait.filter (fun z => z ≠ w) })).settlePgreqs x

/-- With one write waiting, a context's residency is served by that write, unless a transaction's buffered stores hold it back. -/
theorem State.serveResidency_one {s : State} {x : Nat} {w : Nat × Bool} (h : (s.ctx x).resWait = [w]) :
    s.serveResidency x =
      if s.buffered x (w.1 * 2 ^ 14) then s else s.answerResidency x w := by
  simp only [State.serveResidency, h, List.foldl_cons, List.foldl_nil]
  rfl

/-- The context with the write to RESVA waiting. -/
def State.askResidency (s : State) (x : Nat) (w : Nat × Bool) : State := s.modCtx x (fun y => { y with resWait := y.resWait ++ [w] })

/-- A RESVA write for a requested page, with no other waiting, is answered at once or waits for a transaction's buffered stores. -/
theorem resvaWrite_requested {s : State} {x : Nat} {v : DWord} (ho : s.managed x = true) (hp : v.toNat / 2 ^ 14 ∈ (s.ctx x).resReqs)
    (hw : (s.ctx x).resWait = []) :
    let w := (v.toNat / 2 ^ 14, v.getLsbD 0)
    let asked := s.askResidency x w
    exec (.resvaWrite x v) s = .next
      (if asked.buffered x (w.1 * 2 ^ 14) then asked else asked.answerResidency x w) := by
  intro w asked
  have hwait : (asked.ctx x).resWait = [w] := by
    simp [asked, State.askResidency, State.ctx_modCtx _ _ _ (State.ctx_lt_of_requested hp), hw]
  rw [← State.serveResidency_one hwait]
  refine congrArg Host.Outcome.next (if_pos ?_)
  simp only [ho, hw, List.all_nil, List.contains_iff_mem.mpr hp, Bool.and_self]

/-! ### Migration (R374) -/

/-- A step of a migration waits for a transaction's buffered stores. -/
theorem pageMigration_waits {s : State} {x : Nat} {va : VAddr} (h : s.buffered x va.toNat = true) :
    exec (.pageMigration x va) s = .next s :=
  congrArg Host.Outcome.next (if_pos h)

/-- A queued page's move begins while no page of the context is moving. -/
theorem pageMigration_begins {s : State} {x : Nat} {va : VAddr} (h : s.buffered x va.toNat = false) (hq : va ∈ (s.ctx x).migQueue)
    (hm : (s.ctx x).moving = none) :
    exec (.pageMigration x va) s =
      .next ((s.modCtx x (fun y => { y with migQueue := y.migQueue.filter (fun u => u ≠ va) })).beginMove x va) := by
  change execPageMigration x va s = _
  rw [State.buffered] at h
  simp only [execPageMigration, h, Bool.false_eq_true, if_false, hm, List.contains_iff_mem.mpr hq, if_true]

/-- While a page of the context is moving, its own event ends its move and that of another page changes nothing. -/
theorem pageMigration_moving {s : State} {x : Nat} {va : VAddr} {m : PageMove} (h : s.buffered x va.toNat = false)
    (hm : (s.ctx x).moving = some m) :
    exec (.pageMigration x va) s = .next (if m.va = va then s.finishMove x m else s) := by
  change execPageMigration x va s = _
  rw [State.buffered] at h
  simp only [execPageMigration, h, Bool.false_eq_true, if_false, hm]

/-- A move begins for a resident page of 16 KiB that stands elsewhere, while POOL has a page: its leaf loses P and its translation goes. -/
theorem State.beginMove_resident {s : State} {x a : Nat} {va : VAddr} (hleaf : s.leafFrom va.toNat 0 (s.ctx x).ptroot.toNat 4 = some (a, 3)) :
    let e : DWord := BitVec.ofNat 64 (s.peek a 8)
    let frame := (s.ctx x).pool.toNat / 2 ^ 14
    pteHome e ≠ 0 → pteP e = true → frame ≠ 0 →
      s.beginMove x va = ((s.engineWrite x a (leBytes 8 (e &&& ~~~2).toNat)).invalidatePage x va.toNat).modCtx x
        (fun y => { y with moving := some { va := va, leaf := a, entry := e, frame := frame } }) := by
  intro e frame hhome hp hf
  simp only [State.beginMove, hleaf]
  rw [if_neg (by simp only [e, hhome, hp]; decide), if_neg (by simp only [frame, hf]; decide)]

/-! ### The relay and the trigger counters (R407, R408) -/

/-- A running program stands in the machine's list. -/
theorem State.mem_progs_of_prog? {s : State} {k : Nat} {p : CProg} (h : s.prog? k = some p) : some p ∈ s.progs := by
  rw [State.prog?, List.getD_eq_getElem?_getD] at h
  obtain hk | hk := Option.getD_eq_iff.mp h
  · exact List.mem_of_getElem? hk
  · simp at hk

/-- RELAY in a context none of whose programs holds traffic routes nothing. -/
theorem relayWrite_unheld {s : State} {x : Nat} (w : Word) (ho : s.managed x = true)
    (hheld : ∀ p ∈ s.progs, ∀ y, p = some y → y.ctx = x → y.held = none) :
    exec (.relayWrite x w) s = .next (s.modCtx x (fun y => { y with relay := w })).pumpAll := by
  change execRelayWrite x w s = _
  have hnone (k : Nat) (p : CProg) (hp : (s.modCtx x (fun y => { y with relay := w })).prog? k = some p) :
      (decide (p.ctx = x) && p.held.isSome) = false := by
    by_cases hx : p.ctx = x
    · simp [hheld _ (State.mem_progs_of_prog? hp) p rfl hx]
    · simp [hx]
  simp only [execRelayWrite, ho, Bool.not_true, Bool.false_eq_true, if_false]
  rw [List.filter_eq_nil_iff.mpr, List.foldl_nil]
  intro k _
  split
  · next p hp => simp only [hnone k p hp, Bool.false_eq_true, not_false_eq_true]
  · exact Bool.false_ne_true

theorem triggerCounterWrite_managed {s : State} {x tc : Nat} (v : DWord) (ho : s.managed x = true) (ht : tc < 8) :
    exec (.triggerCounterWrite x tc v) s = .next (s.setTc x tc v) :=
  congrArg Host.Outcome.next (if_pos (by simp only [ho, ht, decide_true, Bool.and_self]))

/-- Settles O46: each clause is the law of its event above; an answer of RESVA is split by whether buffered stores hold it back, and a
migration by whether a page is moving. -/
theorem contextEvents : Obligations.ContextEvents := by
  unfold Obligations.ContextEvents
  intro s x q off core tc v w va kind go owned rest page qu co n unqueued frame bit asked gone told answered buffered
  have hresva (ho : owned) (hp : page ∈ (s.ctx x).resReqs) (hw : (s.ctx x).resWait = []) :
      go (.resvaWrite x v) (if buffered asked (page * 2 ^ 14) then asked else answered) := resvaWrite_requested ho hp hw
  refine ⟨cxassistWrite_idle w, cxassistWrite_busy, saveBaseWrite_idle v, slotsWrite_idle, translationRegisterWrite_idle 0x20 v,
    translationRegisterWrite_idle 0x28 v, translationRegisterWrite_idle 0x30 v, translationRegisterWrite_idle 0x48 v, contextReset_managed,
    queueBindingWrite_quiet, walkStart_queues kind, hostFill_go, hostWalkEnd_end, fun ho hp hw => ⟨fun hb => ?_, fun hb => ?_⟩,
    pageMigration_waits, ?_, fun m hb hm hva => ?_, fun m hb hm hva => ?_, relayWrite_unheld w, triggerCounterWrite_managed v⟩
  · simpa only [hb, Bool.false_eq_true, if_false] using hresva ho hp hw
  · simpa only [hb, if_true] using hresva ho hp hw
  · intro a hb hq hm hleaf e hhome hp hf
    exact (pageMigration_begins hb hq hm).trans (congrArg Host.Outcome.next (State.beginMove_resident hleaf hhome hp hf))
  · exact (pageMigration_moving hb hm).trans (congrArg Host.Outcome.next (if_neg hva))
  · subst hva
    exact (pageMigration_moving hb hm).trans (congrArg Host.Outcome.next (if_pos rfl))

end Sys2Proof.Machine
end

section
/-! Representable values under rounding (O10): a code's value is a significand scaled by a power of two, and rounding such a value at
its own unit finds no remainder, so that no mode, draw or saturation choice is consulted. -/

namespace Sys2Proof.Machine

/-! ### Values scaled by a power of two -/

/-- Both signs of the exponent at once: one of the two powers is 1. -/
theorem Num.scaled_eq (neg : Bool) (m : Nat) (k : Int) : Num.scaled neg m k = .fin neg (m * 2 ^ k.toNat) (2 ^ (-k).toNat) := by
  unfold Num.scaled
  split
  · next h => rw [Int.toNat_of_nonpos (by omega : -k ≤ 0), Nat.pow_zero]
  · next h => rw [Int.toNat_of_nonpos (by omega : k ≤ 0), Nat.pow_zero, Nat.mul_one]

theorem two_pow_le_mul_two_pow {m i j : Nat} (hm : m ≠ 0) (h : i ≤ m.log2 + j) : 2 ^ i ≤ m * 2 ^ j :=
  calc 2 ^ i ≤ 2 ^ (m.log2 + j) := Nat.pow_le_pow_right Nat.two_pos h
    _ = 2 ^ m.log2 * 2 ^ j := Nat.pow_add ..
    _ ≤ m * 2 ^ j := Nat.mul_le_mul_right _ (Nat.log2_self_le hm)

theorem log2_mul_two_pow {m : Nat} (hm : m ≠ 0) (j : Nat) : (m * 2 ^ j).log2 = m.log2 + j := by
  refine (Nat.log2_eq_iff (Nat.mul_ne_zero hm (Nat.ne_of_gt (Nat.two_pow_pos j)))).mpr ⟨two_pow_le_mul_two_pow hm (Nat.le_refl _), ?_⟩
  calc m * 2 ^ j < 2 ^ (m.log2 + 1) * 2 ^ j := Nat.mul_lt_mul_of_pos_right Nat.lt_log2_self (Nat.two_pow_pos j)
    _ = 2 ^ (m.log2 + j + 1) := by rw [← Nat.pow_add, Nat.add_right_comm]

/-- Over a power of two the difference of the bit lengths is exact: `floorLog2` has nothing to correct. -/
theorem floorLog2_two_pow {m : Nat} (hm : m ≠ 0) (a b : Nat) : floorLog2 (m * 2 ^ a) (2 ^ b) = m.log2 + a - b := by
  have hlog : ((m * 2 ^ a).log2 : Int) - (2 ^ b).log2 = m.log2 + a - b := by
    rw [log2_mul_two_pow hm, Nat.log2_two_pow, Int.natCast_add]
  simp only [floorLog2, hlog]
  rw [if_pos]
  split
  · rw [← Nat.pow_add]
    exact two_pow_le_mul_two_pow hm (by omega)
  · rw [Nat.mul_assoc, ← Nat.pow_add]
    exact two_pow_le_mul_two_pow hm (by omega)

/-! ### Codes -/

/-- The canonical NaN, where a format has one, is no finite code. -/
def Fmt.NanAboveFinite (f : Fmt) : Prop := ∀ c ∈ f.nanC, f.maxFin < c

/-- The formats of R25. -/
theorem Fmt.nanAboveFinite_of_mem {f : Fmt} (hf : f ∈ [fmtFp32, fmtBf16, fmtFp16, fmtE5m2, fmtE4m3, fmtE2m1]) : f.NanAboveFinite := by
  have hall : ∀ g ∈ [fmtFp32, fmtBf16, fmtFp16, fmtE5m2, fmtE4m3, fmtE2m1], ∀ c ∈ g.nanC, g.maxFin < c := by decide
  exact hall f hf

/-- A magnitude code that is no NaN carries the sign in its own bit. -/
theorem withSign_finite {f : Fmt} (hnan : f.NanAboveFinite) {c : Nat} (hc : c ≤ f.maxFin) (neg : Bool) :
    withSign f neg c = if neg then c + f.signBit else c :=
  if_neg fun h => absurd (hnan c h.symm) (Nat.not_lt.mpr hc)

/-- Sign and magnitude make up the code. -/
theorem withSign_mag {f : Fmt} (hnan : f.NanAboveFinite) {code : Nat} (hcode : code < 2 * f.signBit)
    (hfin : code % f.signBit ≤ f.maxFin) : withSign f (code / f.signBit % 2 = 1) (code % f.signBit) = code := by
  have hsign : code / f.signBit < 2 := Nat.div_lt_of_lt_mul (by rwa [Nat.mul_comm])
  have hsplit := Nat.div_add_mod code f.signBit
  rw [withSign_finite hnan hfin, Nat.mod_eq_of_lt hsign]
  obtain h | h := Nat.le_one_iff_eq_zero_or_eq_one.mp (Nat.le_of_lt_succ hsign)
  · simp only [h, Nat.mul_zero, Nat.zero_add, Nat.zero_ne_one, decide_false, Bool.false_eq_true, if_false] at hsplit ⊢
    exact hsplit
  · simp only [h, Nat.mul_one, decide_true, if_true] at hsplit ⊢
    omega

/-- R26: a magnitude code below the first normal one counts units of the smallest subnormal. -/
theorem decodeFmt_subnormal {f : Fmt} {code : Nat} (hfin : code % f.signBit ≤ f.maxFin) (hsub : code % f.signBit < 2 ^ f.fw) :
    decodeFmt f code = Num.scaled (code / f.signBit % 2 = 1) (code % f.signBit) (1 - f.bias - f.fw) := by
  simp only [decodeFmt, Nat.not_lt.mpr hfin, if_false, Nat.div_eq_of_lt hsub, Nat.mod_eq_of_lt hsub, if_true]

/-- R26: a normal code has the leading one before its fraction. -/
theorem decodeFmt_normal {f : Fmt} {code : Nat} (hfin : code % f.signBit ≤ f.maxFin) (hnorm : code % f.signBit / 2 ^ f.fw ≠ 0) :
    decodeFmt f code = Num.scaled (code / f.signBit % 2 = 1) (2 ^ f.fw + code % f.signBit % 2 ^ f.fw)
      ((code % f.signBit / 2 ^ f.fw : Nat) - f.bias - f.fw) := by
  simp only [decodeFmt, Nat.not_lt.mpr hfin, if_false, hnorm]

/-! ### Rounding a value at its own unit -/

theorem roundFmt_scaled_zero (f : Fmt) (mode : Nat) (sat : Bool) (draw : Nat) (neg : Bool) (k : Int) :
    roundFmt f mode sat draw (Num.scaled neg 0 k) = { code := withSign f neg 0, flags := noFlags } := by
  rw [Num.scaled_eq, Nat.zero_mul]
  rfl

/-- A value m × 2^k whose unit 2^k is the one at which the format rounds it: the remainder is 0, whatever the mode. -/
theorem roundFmt_scaled_exact {f : Fmt} {m : Nat} {k : Int} (mode : Nat) (sat : Bool) (draw : Nat) (neg : Bool) (hm : m ≠ 0)
    (hunit : max (1 - (f.bias : Int) - f.fw) (m.log2 + k - f.fw) = k)
    (hfin : (k - (1 - (f.bias : Int) - f.fw)).toNat * 2 ^ f.fw + m ≤ f.maxFin) :
    roundFmt f mode sat draw (Num.scaled neg m k) =
      { code := withSign f neg ((k - (1 - (f.bias : Int) - f.fw)).toNat * 2 ^ f.fw + m), flags := noFlags } := by
  have hlog : floorLog2 (m * 2 ^ k.toNat) (2 ^ (-k).toNat) = m.log2 + k := by
    rw [floorLog2_two_pow hm]
    omega
  have hmin : ¬ (m.log2 + k < 1 - (f.bias : Int) - f.fw) := by omega
  have hn : (if k < 0 then m * 2 ^ k.toNat * 2 ^ (-k).toNat else m * 2 ^ k.toNat) = m * 2 ^ k.natAbs := by
    split
    · next h => rw [Nat.mul_assoc, ← Nat.pow_add, show k.toNat + (-k).toNat = k.natAbs by omega]
    · next h => rw [show k.toNat = k.natAbs by omega]
  have hd : (if k < 0 then 2 ^ (-k).toNat else 2 ^ (-k).toNat * 2 ^ k.toNat) = 2 ^ k.natAbs := by
    split
    · next h => rw [show (-k).toNat = k.natAbs by omega]
    · next h => rw [← Nat.pow_add, show (-k).toNat + k.toNat = k.natAbs by omega]
  have hpos : m * 2 ^ k.toNat ≠ 0 := Nat.mul_ne_zero hm (Nat.ne_of_gt (Nat.two_pow_pos _))
  rw [Num.scaled_eq]
  simp only [roundFmt, hpos, if_false, hlog, hmin, decide_false, Bool.and_false, Bool.false_eq_true, hunit, hn, hd,
    Nat.mul_mod_left, Nat.mul_div_cancel m (Nat.two_pow_pos k.natAbs), bne_self_eq_false, Bool.false_and, Nat.not_lt.mpr hfin, if_true]
  rfl

/-- Below 2^fw units of the smallest subnormal, that unit is the one that counts. -/
theorem roundFmt_subnormal {f : Fmt} {m : Nat} (mode : Nat) (sat : Bool) (draw : Nat) (neg : Bool) (hsub : m < 2 ^ f.fw)
    (hfin : m ≤ f.maxFin) :
    roundFmt f mode sat draw (Num.scaled neg m (1 - f.bias - f.fw)) = { code := withSign f neg m, flags := noFlags } := by
  by_cases hm : m = 0
  · rw [hm, roundFmt_scaled_zero]
  · have hlog := (Nat.log2_lt hm).mpr hsub
    have hmag : ((1 : Int) - f.bias - f.fw - (1 - f.bias - f.fw)).toNat * 2 ^ f.fw + m = m := by
      rw [Int.sub_self, Int.toNat_zero, Nat.zero_mul, Nat.zero_add]
    rw [roundFmt_scaled_exact mode sat draw neg hm (by omega) (by rwa [hmag]), hmag]

/-- With the leading one at bit fw, the exponent field says how far the unit stands above the smallest. -/
theorem roundFmt_normal {f : Fmt} {e x : Nat} (mode : Nat) (sat : Bool) (draw : Nat) (neg : Bool) (he : e ≠ 0) (hx : x < 2 ^ f.fw)
    (hfin : e * 2 ^ f.fw + x ≤ f.maxFin) :
    roundFmt f mode sat draw (Num.scaled neg (2 ^ f.fw + x) (e - f.bias - f.fw)) =
      { code := withSign f neg (e * 2 ^ f.fw + x), flags := noFlags } := by
  have hpos : 2 ^ f.fw + x ≠ 0 := Nat.ne_of_gt (Nat.add_pos_left (Nat.two_pow_pos _) x)
  have hlog : (2 ^ f.fw + x).log2 = f.fw := by
    rw [Nat.log2_eq_iff hpos, Nat.pow_succ]
    omega
  have hmag : ((e : Int) - f.bias - f.fw - (1 - f.bias - f.fw)).toNat * 2 ^ f.fw + (2 ^ f.fw + x) = e * 2 ^ f.fw + x := by
    rw [show ((e : Int) - f.bias - f.fw - (1 - f.bias - f.fw)).toNat = e - 1 by omega, ← Nat.add_assoc, ← Nat.succ_mul,
      Nat.succ_eq_add_one, Nat.sub_add_cancel (Nat.pos_of_ne_zero he)]
  rw [roundFmt_scaled_exact mode sat draw neg hpos (by omega) (by rwa [hmag]), hmag]

/-! ### Representable values -/

/-- R36, R37 and R40: rounding a finite code's value gives back the code, sign included. -/
theorem roundFmt_decodeFmt {f : Fmt} (hnan : f.NanAboveFinite) (mode : Nat) (sat : Bool) (draw : Nat) {code : Nat}
    (hcode : code < 2 * f.signBit) (hfin : code % f.signBit ≤ f.maxFin) :
    roundFmt f mode sat draw (decodeFmt f code) = { code := code, flags := noFlags } := by
  by_cases hsub : code % f.signBit < 2 ^ f.fw
  · rw [decodeFmt_subnormal hfin hsub, roundFmt_subnormal mode sat draw _ hsub hfin, withSign_mag hnan hcode hfin]
  · have hexp : code % f.signBit / 2 ^ f.fw ≠ 0 := Nat.div_ne_zero_iff.mpr ⟨Nat.ne_of_gt (Nat.two_pow_pos f.fw), Nat.not_lt.mp hsub⟩
    have hfields := Nat.div_add_mod' (code % f.signBit) (2 ^ f.fw)
    rw [decodeFmt_normal hfin hexp,
      roundFmt_normal mode sat draw _ hexp (Nat.mod_lt _ (Nat.two_pow_pos f.fw)) (by rwa [hfields]), hfields,
      withSign_mag hnan hcode hfin]

/-- Settles O10: no format of R25 has its NaN among its finite codes, so that each of these rounds to itself. -/
theorem representableUnchanged : Obligations.RepresentableUnchanged := by
  unfold Obligations.RepresentableUnchanged
  intro f mode draw code sat hf _ hcode hfin
  exact roundFmt_decodeFmt (Fmt.nanAboveFinite_of_mem hf) mode sat draw hcode hfin

end Sys2Proof.Machine
end

section
/-! What an instruction word's issue comes to when a check stops it (O58): the guard, the checks of the word, the operands in flight and
the sources, in the order in which `Req.run` makes them; and the prefixes, which issue outside it. -/

namespace Sys2Proof.Machine

/-! ### The demands of a word -/

@[simp] theorem Req.signed_instr (r : Req) (sg : BitVec 1) : (r.signed sg).instr = r.instr := by
  unfold Req.signed
  split <;> rfl

/-- The table of demands names the word that it is asked about. -/
@[simp] theorem reqOf_instr (i : Instr) : (reqOf i).instr = i := by
  cases i with
  | tld | tst | tmeta | tzero | mma | mmas | mswap | mclr | mdrain => exact Req.signed_instr _ _
  | _ => rfl

theorem reqOf_prefix {i : Instr} (hp : isPrefix i = true) : reqOf i = { instr := i } := by
  cases i with
  | hintImm | hintPref | hintRnd | hintSched | rep => rfl
  | _ => exact absurd hp Bool.false_ne_true

/-- A word that is not well-formed breaks the first of the checks (R49, R74). -/
theorem illegal_of_illFormed {i : Instr} (hw : i.wellFormed = false) (e : Env) : (reqOf i).illegal e = true := by
  simp [Req.illegal, staticIllegal, hw]

/-- A word without a guard waits for none. -/
theorem Req.guardReady_unguarded {r : Req} (h : r.pg = 0) (e : Env) : r.guardReady e = e := by
  have hg : ∀ p, r.guardedBy p = false := fun p => by simp [Req.guardedBy, h]
  simp [Req.guardReady, Req.guardPending, hg]

/-- Only a tile move's ILLEGAL names another mask than its group (R244). -/
theorem Req.illegalMask_group {r : Req} (h : r.bitM = false) (t : Strand) : r.illegalMask t = t.group := by
  simp [Req.illegalMask, h]

/-! ### Where an issue stops -/

section
variable {r : Req} {e : Env} (body : Env → Mask → Res)

theorem Req.run_guardPending (hg : r.guardPending (r.guardReady e).t = true) : r.run e body = .hold (r.guardReady e) := by
  rw [Req.run, Req.awaitGuard, if_pos hg]

theorem Req.run_illegal (hg : r.guardPending (r.guardReady e).t = false) (hl : r.illegal (r.guardReady e) = true) :
    r.run e body = r.refuse (r.guardReady e) := by
  rw [Req.run, Req.awaitGuard, if_neg (ne_true_of_eq_false hg), if_pos hl]

/-- A legal word that reads operands stops where gathering them does. -/
theorem Req.run_gather_error (hg : r.guardPending (r.guardReady e).t = false) (hl : r.illegal (r.guardReady e) = false)
    (hi : r.idle (r.guardReady e) = false) {x : Res} (hx : r.gather (r.guardReady e) = .error x) : r.run e body = x := by
  simp only [Req.run, Req.awaitGuard, hg, hl, hi, hx, Bool.false_eq_true, if_false]

end

theorem Req.gather_blocked {r : Req} {e : Env} (hb : r.blocked (r.ready e).t = true) : r.gather e = .error (.hold (r.ready e)) := by
  rw [Req.gather, if_pos hb]

theorem Req.gather_sourceBad {r : Req} {e : Env} (hb : r.blocked (r.ready e).t = false) (hu : r.sourceBad (r.ready e).t = true) :
    r.gather e = .error (.trap ((r.ready e).via (fun s => s.consumeUe e.c.ctx (2 ^ 90))) (.plain cECC e.t.group) false) := by
  simp only [Req.gather, hb, hu, Bool.false_eq_true, if_false, if_true]

/-- An issue that holds or traps whatever the word's body is: nothing follows it, and the machine is what the hold or the trap leaves. -/
theorem exec_of_run {s : State} {e : Env} {i : Instr} (hw : isWord i = true) (hp : isPrefix i = false) (hi : s.issuer = some e) {x : Res}
    (hrun : ∀ body, (reqOf i).run e body = x) (hstop : ∀ after, x.finishThen after = x.finish) : exec i s = .next x.finish := by
  obtain ⟨after, body, hx⟩ := exec_issues i hw hp
  simp only [hx, issueThen, hi, hrun, hstop]

/-! ### Prefixes -/

/-- The form that prefixes share has no meaning without a strand that issues, and traps ILLEGAL when it is not well-formed. -/
theorem prefixForm_stops (i : Instr) (bad : Env → Bool) (f : Env → UnitSt → UnitSt) (s : State) :
    (s.issuer = none → prefixForm i bad f s = .fault .noStrand)
      ∧ ∀ e, s.issuer = some e → i.wellFormed = false →
          prefixForm i bad f s = .next (e.takeTrap (.plain cILLEGAL e.t.group) false none) := by
  constructor
  · intro hn
    rw [prefixForm, hn]
  · intro e hi hw
    simp only [prefixForm, hi, staticIllegal, hw, Bool.not_false, Bool.true_or, if_true]
    rfl

/-- The same for all prefixes (R76 to R80): `hint.sched`, which delays its strand as well, has a meaning of its own. -/
theorem prefix_stops {i : Instr} (hp : isPrefix i = true) (s : State) :
    (s.issuer = none → exec i s = .fault .noStrand)
      ∧ ∀ e, s.issuer = some e → i.wellFormed = false → exec i s = .next (e.takeTrap (.plain cILLEGAL e.t.group) false none) := by
  cases i with
  | hintImm | hintPref | hintRnd | rep =>
    dsimp only [exec, execHintImm, execHintPref, execHintRnd, execRep]
    exact prefixForm_stops _ _ _ s
  | hintSched n r y =>
    constructor
    · intro hn
      simp only [exec, execHintSched, hn]
    · intro e hi hw
      simp only [exec, execHintSched, hi, staticIllegal, hw, Bool.not_false, if_true]
      rfl
  | _ => exact absurd hp Bool.false_ne_true

/-! ### Every word -/

theorem exec_noStrand {s : State} {i : Instr} (hw : isWord i = true) (hn : s.issuer = none) : exec i s = .fault .noStrand := by
  cases hp : isPrefix i with
  | true => exact (prefix_stops hp s).1 hn
  | false =>
    obtain ⟨after, body, hx⟩ := exec_issues i hw hp
    simp only [hx, issueThen, hn]

section
variable {s : State} {e : Env} {i : Instr} (hw : isWord i = true) (hp : isPrefix i = false) (hi : s.issuer = some e)
include hw hp hi

theorem exec_guardPending (hg : (reqOf i).guardPending ((reqOf i).guardReady e).t = true) :
    exec i s = .next ((reqOf i).guardReady e).commit :=
  exec_of_run hw hp hi (fun body => Req.run_guardPending body hg) (fun _ => rfl)

variable (hg : (reqOf i).guardPending ((reqOf i).guardReady e).t = false)
include hg

theorem exec_illegal (hl : (reqOf i).illegal ((reqOf i).guardReady e) = true) :
    exec i s = .next (((reqOf i).guardReady e).takeTrap (.plain cILLEGAL ((reqOf i).illegalMask ((reqOf i).guardReady e).t)) false none) :=
  exec_of_run hw hp hi (fun body => Req.run_illegal body hg hl) (fun _ => rfl)

variable (hl : (reqOf i).illegal ((reqOf i).guardReady e) = false) (ha : (reqOf i).idle ((reqOf i).guardReady e) = false)
include hl ha

theorem exec_blocked (hb : (reqOf i).blocked ((reqOf i).ready ((reqOf i).guardReady e)).t = true) :
    exec i s = .next ((reqOf i).ready ((reqOf i).guardReady e)).commit :=
  exec_of_run hw hp hi (fun body => Req.run_gather_error body hg hl ha (Req.gather_blocked hb)) (fun _ => rfl)

theorem exec_sourceBad (hb : (reqOf i).blocked ((reqOf i).ready ((reqOf i).guardReady e)).t = false)
    (hu : (reqOf i).sourceBad ((reqOf i).ready ((reqOf i).guardReady e)).t = true) :
    exec i s = .next ((((reqOf i).ready ((reqOf i).guardReady e)).via
      (fun z => z.consumeUe ((reqOf i).guardReady e).c.ctx (2 ^ 90))).takeTrap (.plain cECC ((reqOf i).guardReady e).t.group) false none) :=
  exec_of_run hw hp hi (fun body => Req.run_gather_error body hg hl ha (Req.gather_sourceBad hb hu)) (fun _ => rfl)

end

/-- R74: an ill-formed word, prefixes included, traps ILLEGAL once its guard is there. -/
theorem exec_illFormed {s : State} {e : Env} {i : Instr} (hw : isWord i = true) (hf : i.wellFormed = false) (hi : s.issuer = some e)
    (hg : (reqOf i).guardPending ((reqOf i).guardReady e).t = false) :
    exec i s = .next (((reqOf i).guardReady e).takeTrap (.plain cILLEGAL ((reqOf i).illegalMask ((reqOf i).guardReady e).t)) false none) := by
  cases hp : isPrefix i with
  | true =>
    have hpg : (reqOf i).pg = 0 := by rw [reqOf_prefix hp]
    have hbit : (reqOf i).bitM = false := by rw [reqOf_prefix hp]
    rw [Req.guardReady_unguarded hpg, Req.illegalMask_group hbit]
    exact (prefix_stops hp s).2 e hi hf
  | false => exact exec_illegal hw hp hi hg (illegal_of_illFormed hf _)

/-- Settles O58: each of the checks of `Req.run` stops the issue before the word's own body is asked. -/
theorem issueChecks : Obligations.IssueChecks := by
  unfold Obligations.IssueChecks
  intro s e i
  exact ⟨exec_noStrand, exec_illFormed, exec_guardPending,
    fun hw hp hi hg => ⟨exec_illegal hw hp hi hg, exec_blocked hw hp hi hg, exec_sourceBad hw hp hi hg⟩, Req.illegalMask_group⟩

end Sys2Proof.Machine
end

section
/-! Control registers (O30): `movc` has nothing to wait for where no load is in flight for `ctl.fflags` and no tile write of `srdt` is open
for a shape register; then a read gives what `Env.control` shows, and a write is `Env.writeControl`. -/

namespace Sys2Proof.Machine

/-! ### Nothing to wait for -/

/-- R129: no flag is outstanding for a register that is not `ctl.fflags`, or with no load in flight. -/
def Env.FlagsQuiet (e : Env) (n : Nat) : Prop := n ≠ 0 ∨ ∀ p ∈ e.t.inflight, p.ctr ≠ .ld

/-- R237: no tile write of `srdt` stands before a write of a shape register. -/
def Env.ShapesQuiet (e : Env) (n : Nat) : Prop := 0x0D0 ≤ n ∧ n ≤ 0x0DF → e.holdsSwage = true → e.srdtOpen = false

section
variable {e : Env} {n : Nat}

theorem Env.flagsReady_quiet (h : e.FlagsQuiet n) : e.flagsReady n = e := by
  unfold Env.flagsReady
  split
  · next hn => exact e.settle_none _ fun p hp => decide_eq_false (h.resolve_left (not_not_intro hn) p hp)
  · rfl

theorem Env.flagsPending_quiet (h : e.FlagsQuiet n) : e.t.flagsPending n = false := by
  simp only [Strand.flagsPending, Bool.and_eq_false_iff, decide_eq_false_iff_not, List.any_eq_false]
  exact h.imp_right fun hp p hm => by simp [hp p hm]

theorem Env.shapeWaits_quiet (h : e.ShapesQuiet n) : e.shapeWaits n = false := by
  cases hw : e.shapeWaits n with
  | false => rfl
  | true =>
    simp only [Env.shapeWaits, isShape, Bool.and_eq_true, decide_eq_true_eq] at hw
    obtain ⟨⟨hn, hh⟩, ho⟩ := hw
    exact absurd ho (ne_true_of_eq_false (h hn hh))

/-- Where no tile write stands before, none is performed. -/
theorem Env.shapeReady_quiet (h : e.ShapesQuiet n) : e.shapeReady n = e := by
  unfold Env.shapeReady
  split
  · next hs =>
    simp only [isShape, Bool.and_eq_true, decide_eq_true_eq] at hs
    obtain ⟨hn, hh⟩ := hs
    rw [Env.awaitSrdt, if_neg (ne_true_of_eq_false (h hn hh))]
  · rfl

/-! ### A write, register by register -/

/-- R52: a number that no write may name. -/
theorem Env.writeControl_unwritable (hn : writable n = false) (v : Word) : e.writeControl n v = e.illegal := by
  simp only [Env.writeControl, hn, Bool.not_false, if_true]

theorem Env.writeControl_fflags (e : Env) (v : Word) :
    e.writeControl 0 v = .done (e.on { e.t with fflags := BitVec.truncate 5 v }) := rfl

theorem Env.writeControl_progress (e : Env) (v : Word) :
    e.writeControl 0x040 v = .done { e with c := { e.c with progress := v.getLsbD 0 } } := rfl

theorem writable_trap (hlo : 0x180 ≤ n) (hhi : n < 0x186) : writable n = true := by
  have : n ≤ 0x185 := Nat.le_of_lt_succ hhi
  simp [writable, hlo, this]

/-- R424: the trap registers are written in handler mode only. -/
theorem Env.writeControl_trap (hlo : 0x180 ≤ n) (hhi : n < 0x186) (v : Word) :
    e.writeControl n v = if e.t.inHandler then .done (e.on { e.t with trap := e.t.trap.write n v }) else e.illegal := by
  simp only [Env.writeControl, writable_trap hlo hhi, hlo, Bool.not_true, Bool.false_eq_true, if_false, if_true]
  rfl

end

/-! ### The two words -/

section
variable {s : State} {e : Env} {d a : BitVec 6} {n : BitVec 12}

theorem movcRead_gives (h : Starts s e (.movcRead d n)) (hq : e.FlagsQuiet n.toNat) {w : Word} (hc : e.control n.toNat = some w) :
    Gives s e (.movcRead d n) [(d.toNat, fun _ => w)] 0 0 := by
  refine gives_one (el := false) (xg := 0) (tag := .uniform) h rfl ?_ List.mem_cons_self
  simp only [Env.flagsReady_quiet hq, Env.flagsPending_quiet hq, hc]
  rfl

theorem movcRead_traps (h : Starts s e (.movcRead d n)) (hq : e.FlagsQuiet n.toNat) (hc : e.control n.toNat = none) :
    Traps s (.movcRead d n) e (.plain cILLEGAL e.t.group) false := by
  refine traps_of h rfl ?_
  simp only [Env.flagsReady_quiet hq, Env.flagsPending_quiet hq, hc]
  rfl

/-- The body of a write that has nothing to wait for: the value of the group's lowest lane (R128) goes to `Env.writeControl`. -/
theorem movcWrite_issues (hq : e.FlagsQuiet n.toNat) (hs : e.ShapesQuiet n.toNat) :
    ∃ body, (∀ s, exec (.movcWrite a n) s = issue (reqOf (.movcWrite a n)) body s)
      ∧ ∀ m, body e m = e.writeControl n.toNat (e.t.lane a.toNat (lowLane e.t.group)) := by
  refine ⟨_, fun _ => rfl, fun m => ?_⟩
  simp only [Env.flagsReady_quiet hq, Env.shapeReady_quiet hs, Env.flagsPending_quiet hq, Env.shapeWaits_quiet hs, Bool.or_self,
    Bool.false_eq_true, if_false]

section
variable (h : Starts s e (.movcWrite a n)) (hq : e.FlagsQuiet n.toNat) (hs : e.ShapesQuiet n.toNat)
include h hq hs

theorem movcWrite_ends {e' : Env} (hx : e.writeControl n.toNat (e.t.lane a.toNat (lowLane e.t.group)) = .done e') :
    Ends s (.movcWrite a n) e' := by
  obtain ⟨body, hi, hb⟩ := movcWrite_issues (a := a) hq hs
  exact ends_of h (hi s) ((hb _).trans hx)

theorem movcWrite_traps (hx : e.writeControl n.toNat (e.t.lane a.toNat (lowLane e.t.group)) = e.illegal) :
    Traps s (.movcWrite a n) e (.plain cILLEGAL e.t.group) false := by
  obtain ⟨body, hi, hb⟩ := movcWrite_issues (a := a) hq hs
  exact traps_of h (hi s) ((hb _).trans hx)

end
end

/-- A trap register waits for nothing: in handler mode it is written, else the write is ILLEGAL (R424). -/
theorem movcWrite_trapRegister {s : State} {e : Env} {a : BitVec 6} {k : Nat} (hlo : 0x180 ≤ k) (hhi : k < 0x186)
    (h : Starts s e (.movcWrite a (BitVec.ofNat 12 k))) :
    (e.t.inHandler = true → Ends s (.movcWrite a (BitVec.ofNat 12 k))
      (e.on { e.t with trap := e.t.trap.write k (e.t.lane a.toNat (lowLane e.t.group)) }))
    ∧ (e.t.inHandler = false → Traps s (.movcWrite a (BitVec.ofNat 12 k)) e (.plain cILLEGAL e.t.group) false) := by
  have hk : (BitVec.ofNat 12 k).toNat = k := (BitVec.toNat_ofNat k 12).trans (Nat.mod_eq_of_lt (by omega))
  have hq : e.FlagsQuiet (BitVec.ofNat 12 k).toNat := .inl (by omega)
  have hs : e.ShapesQuiet (BitVec.ofNat 12 k).toNat := fun hn => absurd hn.2 (by omega)
  have hx := Env.writeControl_trap (e := e) hlo hhi (e.t.lane a.toNat (lowLane e.t.group))
  rw [← hk] at hx
  constructor
  · intro hh
    rw [hh, if_pos rfl, hk] at hx
    exact movcWrite_ends h hq hs (by rw [hk]; exact hx)
  · intro hh
    rw [hh, if_neg Bool.false_ne_true] at hx
    exact movcWrite_traps h hq hs hx

/-- Settles O30: with nothing to wait for, `movc` is `Env.control` and `Env.writeControl`. -/
theorem controlRegisters : Obligations.ControlRegisters := by
  unfold Obligations.ControlRegisters
  intro s e d a n v quiet calm
  have hquiet : quiet → e.FlagsQuiet n.toNat := fun hq => hq.imp_left fun hn h0 => hn (BitVec.eq_of_toNat_eq h0)
  refine ⟨fun h hq w hc => movcRead_gives h (hquiet hq) hc, fun h hq hc => movcRead_traps h (hquiet hq) hc,
    fun h hc e' hx => movcWrite_ends h (hquiet hc.1) hc.2 hx,
    fun h hc hn => movcWrite_traps h (hquiet hc.1) hc.2 (Env.writeControl_unwritable hn v),
    fun h hl => movcWrite_ends h (.inr hl) ?_ (e.writeControl_fflags v),
    fun h => movcWrite_ends h (.inl ?_) ?_ (e.writeControl_progress v),
    fun k hlo hhi h => movcWrite_trapRegister hlo hhi h⟩
  · exact fun hn => absurd hn.1 (by decide)
  · decide
  · exact fun hn => absurd hn.1 (by decide)

end Sys2Proof.Machine
end

section
/-! Words and the instructions that they stand for (O53, O54): the laws of the several words put together, and a word read from its
four bytes. -/

namespace Sys2Proof.Laws.RoundTrip

/-- The laws of the words put together (R71, R73, R74). -/
theorem statement_of (i : Instr) : Statement i := by
  cases i with
  | add => apply add | sub => apply sub | mul => apply mul | mulhi => apply mulhi | mad => apply mad | min => apply min
  | max => apply max | lea => apply lea | abs => apply abs | neg => apply neg | not => apply not | clz => apply clz
  | popc => apply popc | brev => apply brev | and => apply and | or => apply or | xor => apply xor | andn => apply andn
  | shl => apply shl | shr => apply shr | sar => apply sar | rot => apply rot | bfe => apply bfe | bfi => apply bfi
  | icmp => apply icmp | sel => apply sel | mov => apply mov | movi => apply movi | movhi => apply movhi | iota => apply iota
  | addImm => apply addImm | mulImm => apply mulImm | andImm => apply andImm | orImm => apply orImm | xorImm => apply xorImm
  | shlImm => apply shlImm | shrImm => apply shrImm | sarImm => apply sarImm | rotImm => apply rotImm | minImm => apply minImm
  | maxImm => apply maxImm | leaImm => apply leaImm | fadd => apply fadd | fsub => apply fsub | fmul => apply fmul
  | fma => apply fma | fmin => apply fmin | fmax => apply fmax | fabs => apply fabs | fneg => apply fneg | fcmp => apply fcmp
  | fclass => apply fclass | fdiv => apply fdiv | fscale => apply fscale | fsqrt => apply fsqrt | frcp => apply frcp
  | frsqrt => apply frsqrt | fexp2 => apply fexp2 | flog2 => apply flog2 | fsin => apply fsin | fcos => apply fcos
  | ffract => apply ffract | fround => apply fround | fdot2 => apply fdot2 | cvt => apply cvt | packB16 => apply packB16
  | packB8Lo => apply packB8Lo | packB8Hi => apply packB8Hi | packB4Q0 => apply packB4Q0 | packB4Q1 => apply packB4Q1
  | packB4Q2 => apply packB4Q2 | packB4Q3 => apply packB4Q3 | unpack => apply unpack | pand => apply pand | por => apply por
  | pxor => apply pxor | pnot => apply pnot | pmov => apply pmov | pcnt => apply pcnt | pfirst => apply pfirst
  | xperm => apply xperm | xtab => apply xtab | xbcast => apply xbcast | xshflIdx => apply xshflIdx
  | xshflXor => apply xshflXor | xshflUp => apply xshflUp | xshflDown => apply xshflDown | xred => apply xred
  | xscan => apply xscan | xmaxi => apply xmaxi | voteAny => apply voteAny | voteAll => apply voteAll
  | voteBallot => apply voteBallot | movcRead => apply movcRead | movcWrite => apply movcWrite | vshape => apply vshape
  | bra => apply bra | brx => apply brx | callDirect => apply callDirect | callIndirect => apply callIndirect
  | ret => apply ret | meet => apply meet | yield => apply yield | exit => apply exit | nop => apply nop | sleep => apply sleep
  | bar => apply bar | gbar => apply gbar | sbar => apply sbar | rgrow => apply rgrow | rgrowTry => apply rgrowTry
  | rshrink => apply rshrink | disp => apply disp | ldB32 => apply ldB32 | ldB64 => apply ldB64 | ldF32 => apply ldF32
  | ldF16 => apply ldF16 | ldBf16 => apply ldBf16 | ldI32 => apply ldI32 | stB8 => apply stB8 | stB16 => apply stB16
  | stB32 => apply stB32 | stB64 => apply stB64 | ldbW => apply ldbW | ldbA => apply ldbA | ldbC => apply ldbC
  | stbA => apply stbA | stbC => apply stbC | atom => apply atom | atomAcq => apply atomAcq | atomRel => apply atomRel
  | atomAcqRel => apply atomAcqRel | cas => apply cas | acq => apply acq | rel => apply rel | fence => apply fence
  | waita => apply waita | txb => apply txb | txc => apply txc | txa => apply txa | cp => apply cp | cp2 => apply cp2
  | cptab => apply cptab | wait => apply wait | waitx => apply waitx | pgreq => apply pgreq | pfetch => apply pfetch
  | mres => apply mres | mrel => apply mrel | cdecl => apply cdecl | tld => apply tld | tst => apply tst | tzero => apply tzero
  | tmeta => apply tmeta | mma => apply mma | mmas => apply mmas | mswap => apply mswap | mdrain => apply mdrain
  | mclr => apply mclr | mstat => apply mstat | hgf => apply hgf | hgs => apply hgs | hgfold => apply hgfold
  | march => apply march | tex => apply tex | trace => apply trace | tcontReject => apply tcontReject
  | tcontAccept => apply tcontAccept | tcontTerminate => apply tcontTerminate | thit => apply thit | tabort => apply tabort
  | srd => apply srd | srdt => apply srdt | swr => apply swr | sinh => apply sinh | sinhOffset => apply sinhOffset
  | sts => apply sts | sstat => apply sstat | sflushLine => apply sflushLine | sflushFrame => apply sflushFrame
  | time => apply time | sleepu => apply sleepu | launch => apply launch | launchTail => apply launchTail
  | publish => apply publish | cprog => apply cprog | ctrigArm => apply ctrigArm | ctrigDisarm => apply ctrigDisarm
  | cctrAdd => apply cctrAdd | cctrSet => apply cctrSet | cctrRead => apply cctrRead | tbar => apply tbar
  | idemb => apply idemb | ideme => apply ideme | tlbw => apply tlbw | tlbiVaCore => apply tlbiVaCore
  | tlbiVaAll => apply tlbiVaAll | tlbiCtxCore => apply tlbiCtxCore | tlbiCtxAll => apply tlbiCtxAll | lpiCore => apply lpiCore
  | lpiAll => apply lpiAll | walkd => apply walkd | trap => apply trap | rtt => apply rtt | snap => apply snap
  | brk => apply brk | hintImm => apply hintImm | hintPref => apply hintPref | hintRnd => apply hintRnd
  | hintSched => apply hintSched | rep => apply rep
  | _ => exact of_event rfl

end Sys2Proof.Laws.RoundTrip

namespace Sys2Proof.Machine

/-! ### The bytes of a word -/

/-- The lowest byte first (R6): reading the bytes back gives the number. -/
theorem leNat_leBytes (n x : Nat) : leNat (leBytes n x) = x % 2 ^ (8 * n) := by
  induction n generalizing x with
  | zero => exact (Nat.mod_one x).symm
  | succ n ih => rw [leBytes, leNat, ih, BitVec.toNat_ofNat, Nat.mul_succ, Nat.add_comm (8 * n), Nat.pow_add, Nat.mod_mul]

/-- Four bytes are the word that they write (R69). -/
theorem decode_eq_ok_iff {bs : List Byte} (h : bs.length = 4) {i : Instr} : decode bs = .ok i ↔ decodeWord (leNat bs) = some i := by
  match bs, h with
  | [b0, b1, b2, b3], _ =>
    cases hd : decodeWord (leNat [b0, b1, b2, b3]) with
    | some j => simp only [decode, hd, Except.ok.injEq, Option.some.injEq]
    | none =>
      simp only [decode, hd, reduceCtorEq, iff_false]
      split <;> exact nofun

/-- Settles O53: each word decodes by the law of its instruction, and its bytes are the word's. -/
theorem wordsRoundTrip : Obligations.WordsRoundTrip := by
  unfold Obligations.WordsRoundTrip
  intro i w hi he
  obtain ⟨hlt, hd⟩ := Laws.RoundTrip.statement_of i w hi he
  refine ⟨hlt, hd, ?_⟩
  rw [encodeBytes, he, decode_eq_ok_iff (by rfl), leNat_leBytes, Nat.mod_eq_of_lt hlt, hd]

/-! ### Words that stand for nothing -/

/-- Class 0xF has no opcode. -/
theorem decodeWord_classF {w : Nat} (h : fld w 24 8 / 16 = 15) : decodeWord w = none := by
  simp [decodeWord, h]

/-- The first cell of class 0x0 is blank. -/
theorem decodeWord_opcode_zero {w : Nat} (h : fld w 24 8 = 0) : decodeWord w = none := by
  simp [decodeWord, decodeClass0, h]

/-- Settles O54: the words written out are decoded by evaluation, and the refused ranges by their opcodes. -/
theorem sampleWords : Obligations.SampleWords := by
  unfold Obligations.SampleWords
  refine ⟨rfl, rfl, rfl, rfl, rfl, rfl, rfl, rfl, rfl, rfl, rfl, rfl, rfl, rfl,
    fun w hlo hhi => decodeWord_classF ?_, fun w hlo => decodeWord_opcode_zero ?_, rfl⟩
  all_goals
    rw [fld]
    omega

end Sys2Proof.Machine
end

section
/-! The prefixes (O29): with a strand that issues, each marks its issue unit or traps ILLEGAL. -/

namespace Sys2Proof.Machine

section
variable {s : State} {e : Env} {i : Instr} {bad : Env → Bool} {f : Env → UnitSt → UnitSt} (h : s.issuer = some e)
include h

/-- The form that prefixes share: a reserved code or a refused position traps ILLEGAL, else the unit is marked (R77 to R80). -/
theorem prefixForm_issues : prefixForm i bad f s = .next (if staticIllegal i || bad e then e.illegal.finish
    else (e.endPrefix (f e e.t.unit)).commit) := by
  rw [prefixForm, h]

theorem prefixForm_marks (hw : staticIllegal i = false) (hb : bad e = false) :
    prefixForm i bad f s = .next (e.endPrefix (f e e.t.unit)).commit := by
  simp only [prefixForm_issues h, hw, hb, Bool.or_self, Bool.false_eq_true, if_false]

theorem prefixForm_traps (hb : staticIllegal i = true ∨ bad e = true) :
    prefixForm i bad f s = .next (e.takeTrap (.plain cILLEGAL e.t.group) false none) := by
  simp only [prefixForm_issues h, Bool.or_eq_true_iff.mpr hb, if_true]
  rfl

/-- The stall counts from the hint itself (R78). -/
theorem hintSched_marks {k : BitVec 4} {r : BitVec 3} {y : BitVec 1} (hw : staticIllegal (.hintSched k r y) = false) :
    exec (.hintSched k r y) s = .next ((e.on { e.t with readyAt := s.cycle + k.toNat }).endPrefix
      { e.t.unit.again e.t.unit.sched.isSome with sched := some (y = 1) }).commit := by
  obtain ⟨rfl, -⟩ := State.issuer_spec h
  simp only [exec, execHintSched, h, hw, Bool.false_eq_true, if_false]
  rfl

end

/-- Settles O29: the prefixes share one form, but for `hint.sched`, which delays its strand as well. -/
theorem prefixes : Obligations.Prefixes := by
  unfold Obligations.Prefixes
  intro s e x a b c n m v t q y k r d sa sb o h mark rep count first run u
  dsimp only [mark, rep, exec, execHintImm, execHintPref, execHintRnd, execRep, Traps]
  refine ⟨prefixForm_marks h rfl rfl, fun hw => prefixForm_marks h hw rfl, fun hw => prefixForm_marks h hw rfl, hintSched_marks h,
    fun hb => (prefixForm_marks h rfl hb).trans ?_, fun hb => prefixForm_traps h (.inr hb), fun hw => prefixForm_traps h (.inl hw),
    fun hw => prefixForm_traps h (.inl hw)⟩
  dsimp only [run, first]
  cases e.t.repHeld <;> rfl

end Sys2Proof.Machine
end

section
/-! The machine never stops (O56): an event always has a next state, and so has a word in a machine with a strand that issues; a turn
runs a word in no other machine. -/

namespace Sys2Proof.Machine

/-! ### One instruction -/

/-- Whatever the outside world and the device's own units do has a next state. -/
theorem exec_event_goesOn {i : Instr} (h : isWord i = false) (s : State) : ∃ t, exec i s = .next t := by
  cases i with
  | loadValueArrival | storeAcknowledge | copyCompletion | swageOperationCompletion | fieldRequestCompletion | traversalStop
  | streamOperationCompletion | rgrowGrant | strandEnd | fairnessRotation | activeSetRotation | sleepExpiry | sleepuExpiry
  | waitaDeadline | trapEntry | deferredTrap | watchdogExpiry | queueKick | packetPull | dependencyMet | earliestReached
  | heapDeadlineExpiry | placeUnit | launchDeadlineCut | timeSliceTick | gangQuench | gangSave | restoreOnRelease
  | launchCompletion | cxassistWrite | saveAreaWrite | translationRegisterWrite | contextReset | queueBindingWrite | walkStart
  | hostFill | hostWalkEnd | resvaWrite | pageMigration | hostWrite | hostRead | windowRegisterWrite | publicationServe
  | publicationComplete | loaderGo | loaderDone | portctlWrite | ptpctlWrite | sessionOpen | sessionClose | arpRequest
  | ptpEventMessage | ptpMasterLoss | videoPacketReceive | opaquePacketReceive | lineClose | packetTransmit | opaqueTransmit
  | portLinkChange | llynadReq | llynadGrant | llynadData | llynadAck | llynadSig | llynadAbt | llynadArrive | llynadCommit
  | llynadCack | llynadResend | llynadPathRetry | relayWrite | collSend | collRecv | collRrs | collCopy | collWait | collLoop
  | collSig | collEnd | triggerCounterWrite | triggerActionEnd | genlockArrive | genlockCommitInstant | genlockDecision
  | genlockCackCheck | patchgo | patchVerifyDone | nopatch | timego | svnburn | attgo | attestationDone | softcoreWrite
  | coreRetirementDone | softchanWrite | softportWrite | rcandRead | retwWrite | hearthRowRepair | uncorrectableWriteback
  | coreParityError | deviceParityError | snapshotRearm | snapshotTimeTrigger | snapshotPinTrigger | throttleTick | thermalTrip
  | powerGood | functionLevelReset | moduleResetPin | resetStateDone | rominitDone | hostLinkTrained | memtrainDone | portsUp
  | registerWrite | powerDown | delayReqTransmit | peerMemoryAccess | svnBurnDone | triggerOutputPulseEnd =>
    exact ⟨_, rfl⟩
  | _ => cases h

theorem exec_prefix_goesOn {s : State} {e : Env} {i : Instr} (hp : isPrefix i = true) (h : s.issuer = some e) :
    ∃ t, exec i s = .next t := by
  cases i with
  | hintImm | hintPref | hintRnd | rep =>
    dsimp only [exec, execHintImm, execHintPref, execHintRnd, execRep]
    exact ⟨_, prefixForm_issues h⟩
  | hintSched =>
    simp only [exec, execHintSched, h]
    exact ⟨_, rfl⟩
  | _ => exact absurd hp Bool.false_ne_true

/-- Only a word without a strand that issues it has no next state. -/
theorem exec_goesOn {s : State} {i : Instr} (h : isWord i = true → ∃ e, s.issuer = some e) : ∃ t, exec i s = .next t := by
  cases hw : isWord i with
  | false => exact exec_event_goesOn hw s
  | true =>
    obtain ⟨e, he⟩ := h hw
    cases hp : isPrefix i with
    | true => exact exec_prefix_goesOn hp he
    | false =>
      obtain ⟨after, body, hx⟩ := exec_issues i hw hp
      simp only [hx, issueThen, he]
      exact ⟨_, rfl⟩

/-! ### One step -/

/-- A turn runs its instruction in the machine whose issuer it has found. -/
theorem State.turn_goesOn (s : State) (crew strand : Nat) : ∃ t, s.turn crew strand = .next t := by
  unfold State.turn
  split
  · dsimp only
    split
    · exact ⟨s, rfl⟩
    · next e he =>
      split
      · exact exec_goesOn fun _ => ⟨e, he⟩
      · next s' _ => exact ⟨s', rfl⟩
  · exact ⟨s, rfl⟩

theorem State.move_goesOn (s : State) (m : Move) : ∃ t, s.move m = .next t := by
  cases m with
  | issue crew strand => exact s.turn_goesOn crew strand
  | event i =>
    simp only [State.move]
    split
    · next hn => exact exec_event_goesOn (Option.isSome_eq_false_iff.mpr hn) s
    · exact ⟨s, rfl⟩
  | _ => exact ⟨_, rfl⟩

theorem State.onward_goesOn (s : State) : ∃ t, s.onward = .next t := by
  unfold State.onward
  split
  · next crew strand _ => exact State.turn_goesOn _ crew strand
  · split <;> exact ⟨_, rfl⟩

/-- Settles O56: a step is a move of the agenda, or the machine's own going on. -/
theorem stepAlwaysGoesOn : Obligations.StepAlwaysGoesOn := by
  unfold Obligations.StepAlwaysGoesOn
  intro s
  unfold step
  split
  · next m rest _ => exact State.move_goesOn _ m
  · exact s.arrange.onward_goesOn

end Sys2Proof.Machine
end

section
/-! A strand's turn (O55): the word that it fetches, what the word stands for, and the line that a fetch leaves in the instruction
cache. -/

namespace Sys2Proof.Machine

/-! ### The fetch -/

/-- The four bytes at a physical address as a launch of the core reads them (R70): those of its line in the instruction cache, else
memory's. -/
def Env.codeBytes (e : Env) (pa : Nat) : List Byte :=
  match (e.s.core e.c.core).iline? e.c.seq pa with
  | some x => (x.bytes.drop (pa % 128)).take 4
  | none => e.s.peekBytes pa 4

/-- A fetch from a resident page that lets the strand execute gives the word there. -/
theorem Env.fetch_word {e : Env} {tr : Trans} (hw : e.c.walker = false)
    (hl : lookupTrans (e.s.core e.c.core) e.t.answers none e.c.ctx e.t.fetchPc.toNat = .found tr) (hx : pteX tr.entry = true)
    (hp : pteP tr.entry = true)
    (hb : (e.s.core e.c.core).iline? e.c.seq (tr.pa e.t.fetchPc.toNat) = none → e.s.bad (tr.pa e.t.fetchPc.toNat) 4 = false) :
    e.fetch = .word (leNat (e.codeBytes (tr.pa e.t.fetchPc.toNat))) := by
  simp only [Env.fetch, hw, hl, hx, hp, Bool.and_self, Bool.false_eq_true, if_true, if_false, Env.codeBytes]
  cases hi : (e.s.core e.c.core).iline? e.c.seq (tr.pa e.t.fetchPc.toNat) with
  | some x => rfl
  | none =>
    simp only [hb hi, Bool.false_eq_true, if_false]
    rfl

/-- Without a `rep` the word is read as it stands. -/
theorem instrOf_noRep {u : UnitSt} (h : u.rep = none) (w : Nat) : instrOf u w = decodeWord w := by
  simp only [instrOf, stepWord, h]

/-! ### The turn -/

section
variable {e : Env} {w : Nat} (hd : e.deferredDue = false) (hf : e.fetch = .word w) (hr : e.t.unit.rep = none)
include hd hf hr

theorem Env.turn_decoded {i : Instr} (hi : decodeWord w = some i) : e.turn = .run i := by
  simp only [Env.turn, hd, hf, instrOf_noRep hr, hi, Bool.false_eq_true, if_false]

/-- R74: a word that stands for nothing traps once its guard is there. -/
theorem Env.turn_unassigned (hi : decodeWord w = none) (hg : (unassigned w).guardPending e.t = false) :
    e.turn = .moved (e.takeTrap (.plain cILLEGAL ((unassigned w).illegalMask e.t)) false none) := by
  have hready : (unassigned w).guardReady e = e := if_neg (ne_true_of_eq_false hg)
  simp only [Env.turn, hd, hf, instrOf_noRep hr, hi, Req.awaitGuard, hready, hg, Bool.false_eq_true, if_false]
  rfl

end

section
variable {s : State} {c n : Nat} {e : Env} (hc : s.canIssue c n = true) (hi : (s.select c n).issuer = some e)
include hc hi

theorem State.turn_run {i : Instr} (ht : e.turn = .run i) : s.turn c n = exec i (s.select c n) := by
  simp only [State.turn, hc, hi, ht, if_true]

theorem State.turn_moved {t : State} (ht : e.turn = .moved t) : s.turn c n = .next t := by
  simp only [State.turn, hc, hi, ht, if_true]

end

/-! ### The step -/

/-- With a silent agenda the strand that is picked takes its turn. -/
theorem step_silent {s : State} {c n : Nat} (ha : s.agenda = []) (hp : s.arrange.pick = some (c, n)) :
    step s = (s.arrange.cycleFor c n).turn c n := by
  simp only [step, ha, State.onward, hp]

theorem step_issue {s : State} {c n : Nat} {rest : List Move} (ha : s.agenda = .issue c n :: rest) :
    step s = ({ s with agenda := rest } : State).arrange.turn c n := by
  simp only [step, ha, State.move]

/-! ### Words that stand for nothing -/

theorem Req.illegalMask_eq (r : Req) (t : Strand) :
    r.illegalMask t = if r.bitM = true ∧ r.mask t ≠ 0 then laneBit (lowLane (r.mask t)) else t.group := by
  simp [Req.illegalMask]

theorem unassigned_bitM (w : Nat) : (unassigned w).bitM = true ↔ w / 2 ^ 24 = 0x94 ∨ w / 2 ^ 24 = 0x95 ∨ w / 2 ^ 24 = 0x97 := by
  dsimp only [unassigned]
  split
  · next h => simpa only [Bool.or_eq_true, decide_eq_true_eq, or_assoc, true_iff] using h
  · next h => simpa only [Bool.or_eq_true, decide_eq_true_eq, or_assoc, Bool.false_eq_true, false_iff] using h

/-! ### The line that a fetch leaves -/

theorem Core.iline?_putIline (co : Core) (x : ILine) {seq pa : Nat} (hs : x.seq = seq) (hl : x.line = pa / 128) :
    (co.putIline x).iline? seq pa = some x := by
  simp only [Core.putIline]
  split <;> simp [Core.iline?, hs, hl]

theorem State.core_modCore (s : State) {k : Nat} (f : Core → Core) (h : k < s.cores.length) : (s.modCore k f).core k = f (s.core k) :=
  (s.core_setCore k k (f (s.core k))).trans (if_pos ⟨rfl, h⟩)

theorem Env.fillCode_iline? {e : Env} {pa : Nat} (hp : e.codePa = some pa) (hl : (e.s.core e.c.core).iline? e.c.seq pa = none)
    (hb : e.s.bad (pa / 128 * 128) 128 = false) (hk : e.c.core < e.s.cores.length) :
    (e.fillCode.s.core e.c.core).iline? e.c.seq pa =
      some { seq := e.c.seq, line := pa / 128, bytes := e.s.peekBytes (pa / 128 * 128) 128 } := by
  simp only [Env.fillCode, hp, hl, hb, Option.isSome_none, Bool.or_self, Bool.false_eq_true, if_false, State.core_modCore _ _ hk]
  exact Core.iline?_putIline _ _ rfl rfl

/-- Settles O55: both ways to a turn come to `State.turn`, whose instruction is the one that the fetched bytes decode to. -/
theorem stepRunsDecoded : Obligations.StepRunsDecoded := by
  unfold Obligations.StepRunsDecoded
  intro s c n rest e tr i pc pa silent line fetched at_ z r y
  have hfetch {z : State} (h : at_ z) : e.fetch = .word (leNat fetched) := by
    obtain ⟨-, -, -, hw, hl, hx, hp, hb, -⟩ := h
    exact Env.fetch_word hw hl hx hp hb
  have hruns {z : State} (h : at_ z) (hd : decode fetched = .ok i) : z.turn c n = exec i (z.select c n) := by
    have hword := hfetch h
    obtain ⟨hc, hi, hdue, -, -, -, -, -, hrep, h4⟩ := h
    exact State.turn_run hc hi (Env.turn_decoded hdue hword hrep ((decode_eq_ok_iff h4).mp hd))
  refine ⟨fun hs h hd => (step_silent hs.1 hs.2).trans (hruns h hd), fun ha h hd => (step_issue ha).trans (hruns h hd),
    fun hs h hd hg => ?_, r.illegalMask_eq, unassigned_bitM _, Env.fillCode_iline?⟩
  have hword := hfetch h
  obtain ⟨hc, hi, hdue, -, -, -, -, -, hrep, h4⟩ := h
  have hnone : decodeWord (leNat fetched) = none := Option.eq_none_iff_forall_ne_some.mpr fun j hj => hd j ((decode_eq_ok_iff h4).mpr hj)
  exact (step_silent hs.1 hs.2).trans (State.turn_moved hc hi (Env.turn_unassigned hdue hword hrep hnone hg))

end Sys2Proof.Machine
end

section
/-! Ray queries (O37): `trace` and `tcont` start the lanes that they are still to start, and then pass or wait in one way. -/

namespace Sys2Proof.Machine

/-! ### Passing and waiting -/

/-- The lanes of a mask past their `trace` or `tcont`. -/
def Env.tracePassed (e : Env) (m : Mask) : Env :=
  e.on (e.t.modThreads m (fun _ x => { x with query := { x.query with done := none }, acts := none }))

/-- The lanes of a mask still at their `trace` or `tcont`, as those that act in it. -/
def Env.traceWaits (e : Env) (m : Mask) : Env := e.on (e.t.modThreads m (fun _ x => { x with acts := some e.t.unitPc }))

/-- The word's group passes once every acting lane has its status, and waits till then (R260). -/
def TracePasses (s : State) (i : Instr) (e : Env) (m : Mask) : Prop :=
  ((∀ l ∈ lanesOf m, e.t.traced l = true) → Ends s i (e.tracePassed m))
    ∧ (¬(∀ l ∈ lanesOf m, e.t.traced l = true) → Becomes s i (e.traceWaits m))

theorem tracePasses_of {s : State} {e e1 : Env} {i : Instr} (h : Starts s e i) {m : Mask} {body : Env → Mask → Res}
    (hx : exec i s = issue (reqOf i) body s) (hb : body e (maskFor i e) = e1.passTrace m) : TracePasses s i e1 m := by
  constructor
  · intro ht
    exact ends_of h hx (hb.trans (if_pos (List.all_eq_true.mpr ht)))
  · intro ht
    exact holds_of h hx (hb.trans (if_neg (mt List.all_eq_true.mp ht)))

/-! ### Starting -/

/-- With room on tr the queries are started. -/
theorem Env.startTrace_room {e : Env} (h : e.t.full .tr = false) (vd : Nat) (m : Mask) (f : Nat → Query → Option Query) :
    ∃ e1, e.startTrace vd m f = .done e1 := by
  simp only [Env.startTrace, e.start_room _ _ _ _ h]
  exact ⟨_, rfl⟩

theorem Env.traceLanes_started {e : Env} {m : Mask} (ht : e.t.toTrace m = 0) (vd : Nat) (f : Nat → Query → Option Query) :
    e.traceLanes vd m f = e.passTrace m := if_pos ht

theorem Env.traceLanes_starts {e e1 : Env} {m : Mask} {vd : Nat} {f : Nat → Query → Option Query} (ht : e.t.toTrace m ≠ 0)
    (hs : e.startTrace vd (e.t.toTrace m) f = .done e1) : e.traceLanes vd m f = e1.passTrace m := by
  simp only [Env.traceLanes, ht, hs, if_false]

/-- A word that starts its lanes passes or waits as they then stand. -/
theorem tracePasses_starts {s : State} {e e0 : Env} {i : Instr} (h : Starts s e i) {m : Mask} {vd : Nat}
    {f : Nat → Query → Option Query} {body : Env → Mask → Res} (hx : exec i s = issue (reqOf i) body s)
    (ht : e0.t.toTrace m ≠ 0) (hr : e0.t.full .tr = false) (hb : body e (maskFor i e) = e0.traceLanes vd m f) :
    ∃ e1, TracePasses s i e1 m ∧ e0.startTrace vd (e0.t.toTrace m) f = .done e1 := by
  obtain ⟨e1, hs⟩ := Env.startTrace_room hr vd (e0.t.toTrace m) f
  exact ⟨e1, tracePasses_of h hx (hb.trans (Env.traceLanes_starts ht hs)), hs⟩

/-! ### Descriptors (R259) -/

theorem Env.readStruct_structAt {e : Env} {lane va n : Nat} {bytes : List Byte} (h : StructAt e lane va n bytes) :
    e.readStruct lane va n = .bytes bytes := by
  obtain ⟨hva, hal, tr, hl, hr, hp, hb, rfl⟩ := h
  simp [Env.readStruct, hva, hal, hl, hr, hp, hb]

theorem Env.readStruct_absent {e : Env} {lane va n : Nat} (hva : vaBad va = false) (hal : va % n = 0)
    (h : ∃ tr, e.look lane va = .found tr ∧ pteR tr.entry = true ∧ pteP tr.entry = false) : e.readStruct lane va n = .absent := by
  obtain ⟨tr, hl, hr, hp⟩ := h
  simp [Env.readStruct, hva, hal, hl, hr, hp]

/-! ### The words -/

section
variable {s : State} {e : Env} {d a b : BitVec 6} {g : BitVec 3} {m : Mask} {va : Nat} {hd : List Byte} (h : Starts s e (.trace d a b g))
  (hm : e.t.acting (maskFor (.trace d a b g) e) = m) (h0 : m ≠ 0)
include h hm h0

/-- Where every lane has been started, `trace` reads no descriptor. -/
theorem trace_started (ht : e.t.toTrace m = 0) : TracePasses s (.trace d a b g) e m := by
  refine tracePasses_of h rfl ?_
  simp only [hm, h0, ht, if_true, if_false]

variable (ht : e.t.toTrace m ≠ 0)
include ht

/-- A descriptor whose addresses are not aligned (R277). -/
theorem trace_misaligned (hva : (e.t.lane64 b.toNat (lowLane m)).toNat = va) (hr : StructAt e (lowLane m) va 32 hd)
    (hal : leAt hd 0 8 % 64 ≠ 0 ∨ leAt hd 8 8 % 16 ≠ 0) :
    Traps s (.trace d a b g) e (.at cALIGN (laneBit (lowLane m)) va) false := by
  refine traps_of h rfl ?_
  simp only [hm, hva, h0, ht, Env.readStruct_structAt hr, if_false]
  exact if_pos (by simpa using hal)

variable (hfull : e.t.full .tr = false)
include hfull

/-- R277: the lanes that are still to start begin with their descriptor and their own rays. -/
theorem trace_starts (hva : (e.t.lane64 b.toNat (lowLane m)).toNat = va) (hr : StructAt e (lowLane m) va 32 hd)
    (hroot : leAt hd 0 8 % 64 = 0) (hgeom : leAt hd 8 8 % 16 = 0) :
    ∃ e1, TracePasses s (.trace d a b g) e1 m ∧
      (e.on { e.t with qstill := e.t.qstill &&& ~~~m }).startTrace d.toNat (e.t.toTrace m)
        (fun l _ => some (Query.start hd ((List.range 8).map (fun k => e.t.lane (a.toNat + k) l)))) = .done e1 := by
  refine tracePasses_starts h rfl ht hfull ?_
  simp only [hm, hva, h0, ht, Env.readStruct_structAt hr, hroot, hgeom, ne_eq, not_true_eq_false, decide_false, Bool.or_self,
    Bool.false_eq_true, if_false]
  rfl

/-- R259, R280: with the descriptor's page absent every query ends, with reason 4. -/
theorem trace_absent (hva : (e.t.lane64 b.toNat (lowLane m)).toNat = va) (hbad : vaBad va = false) (hal : va % 32 = 0)
    (hr : ∃ tr, e.look (lowLane m) va = .found tr ∧ pteR tr.entry = true ∧ pteP tr.entry = false) :
    ∃ e1, TracePasses s (.trace d a b g) e1 m ∧
      (e.on { e.t.markAbsent (e.t.toTrace m) with qstill := e.t.qstill &&& ~~~m }).startTrace d.toNat (e.t.toTrace m)
        (fun _ _ => some ((Query.start [] []).abort 4)) = .done e1 := by
  refine tracePasses_starts h rfl ht hfull ?_
  simp only [hm, hva, h0, ht, Env.readStruct_absent hbad hal hr, if_false]
  rfl

end

section
variable {s : State} {e : Env} {i : Instr} {action : Nat} {d a : BitVec 6} {g : BitVec 3}

/-- What `tcont` makes of a lane's query: a stopped one that no trap holds goes on. -/
def Env.continued (e : Env) (action : Nat) (a : BitVec 6) (l : Nat) (q : Query) : Option Query :=
  if q.stopped && !e.t.queryHeld l then some (q.continue action (e.t.lane a.toNat l)) else none

/-- The three forms of `tcont` (R278). -/
theorem continueForm_continues (h : Starts s e i) (hx : exec i s = continueForm i action d a g s)
    (hreq : reqOf i = { instr := i, pg := g.toNat, reads := regs1 a, writes := regs1 d, lazy := true })
    (h0 : e.t.acting (maskFor i e) ≠ 0) :
    (e.t.toTrace (e.t.acting (maskFor i e)) = 0 → TracePasses s i e (e.t.acting (maskFor i e)))
    ∧ (e.t.toTrace (e.t.acting (maskFor i e)) ≠ 0 → e.t.full .tr = false → ∃ e1, TracePasses s i e1 (e.t.acting (maskFor i e)) ∧
        e.startTrace d.toNat (e.t.toTrace (e.t.acting (maskFor i e))) (e.continued action a) = .done e1) := by
  simp only [continueForm, ← hreq] at hx
  constructor
  · intro ht
    exact tracePasses_of h hx ((if_neg h0).trans (Env.traceLanes_started ht _ _))
  · intro ht hfull
    exact tracePasses_starts h hx ht hfull (if_neg h0)

end

/-! ### Runs of registers -/

@[simp] theorem Env.orFlags_zero (e : Env) : e.orFlags 0 = e := by
  simp [Env.orFlags]

/-- A run of registers is a list of results with general tags (R258). -/
theorem Env.putRun_give (r : Req) (e : Env) (vd n : Nat) (m : Mask) (val : Nat → Nat → Word) :
    .done (e.putRun vd n m val) = r.give e m false 0 0 ((List.range n).map (fun k => e.t.result m .general (vd + k) (val k))) := by
  simp only [Env.putRun, Req.give, Bool.false_and, Bool.false_eq_true, if_false, Env.orFlags_zero, Strand.result, ite_self]
  split <;> rfl

/-- A word whose results are a run of registers. -/
theorem gives_run {s : State} {e : Env} {i : Instr} (h : Starts s e i) {body : Env → Mask → Res} (hx : exec i s = issue (reqOf i) body s)
    {d : BitVec 6} {n : Nat} {val : Nat → Nat → Word} (hb : body e (maskFor i e) = .done (e.putRun d.toNat n (maskFor i e) val))
    (hw : (reqOf i).writes = regsRun d n) : Gives s e i ((List.range n).map (fun k => (d.toNat + k, val k))) 0 0 := by
  have hfst : ((List.range n).map (fun k => (d.toNat + k, Tag.general, val k))).map Prod.fst = regsRun d n := by
    simp only [List.map_map, regsRun, Function.comp_def]
  have hnodup : (regsRun d n).Nodup :=
    List.pairwise_map.mpr (List.nodup_range.imp fun hne => mt Nat.add_left_cancel hne)
  have hg := gives_list (el := false) (xg := 0) h hx (rs := (List.range n).map (fun k => (d.toNat + k, Tag.general, val k)))
    (hb.trans ?_) (hfst.trans hw.symm) (hfst ▸ hnodup)
  · simpa only [List.map_map, Function.comp_def] using hg
  · rw [List.map_map]
    exact Env.putRun_give ..

/-- Settles O37: a `trace` by what its descriptor is, and the forms of `tcont` in one way. -/
theorem rayQueries : Obligations.RayQueries := by
  unfold Obligations.RayQueries
  intro s e d a b c g hd trace acts lane va passed waits goes continues begun lost q hit words
  have htcont {i : Instr} {action : Nat} (hx : ∀ s, exec i s = continueForm i action d a g s)
      (hreq : reqOf i = { instr := i, pg := g.toNat, reads := regs1 a, writes := regs1 d, lazy := true }) : continues i action :=
    fun h h0 => continueForm_continues h (hx s) hreq h0
  refine ⟨fun h h0 ht => trace_started h rfl h0 ht,
    fun h h0 ht hf hr hroot hgeom => trace_starts h rfl h0 ht hf rfl hr hroot hgeom,
    fun h h0 ht hf hbad hal hr => trace_absent h rfl h0 ht hf rfl hbad hal hr,
    fun h h0 ht hr hal => trace_misaligned h rfl h0 ht rfl hr hal,
    htcont (fun _ => rfl) rfl, htcont (fun _ => rfl) rfl, htcont (fun _ => rfl) rfl, fun h => ?_, fun h => ends_of h rfl rfl⟩
  have hwords : words = fun k l => (hitWords (hit l)).getD k 0 := by
    funext k l
    dsimp only [words]
    cases hit l <;> rfl
  rw [hwords]
  exact gives_run h rfl rfl rfl

end Sys2Proof.Machine
end

section
/-! The integer words of the lanes (O1, O2, O3). A law of `Laws/Results.lean` stands on three equations that hold by unfolding: the
meaning is an issue under the demands of `reqOf`, its body gives these results, and the demands list their registers. What is left are
values: the manual's exact integers come to two's complement words. -/

namespace Sys2Proof.Machine

/-! ### Arithmetic (R95 to R98) -/

/-- A 32-bit result that wraps, as two's complement words. -/
theorem resultOf_narrow_wrap (uns : Bool) (d : Nat) (x : Nat → Int) :
    resultOf false d (fun l => narrow false uns false (x l)) = [(d, fun l => BitVec.ofInt 32 (x l))] := by
  simp only [resultOf, Bool.false_eq_true, if_false, narrow_wrap]

/-- The sum of `lea` (R98). -/
theorem lea_word (x y : Word) (n : Nat) : BitVec.ofNat 32 (x.toNat + y.toNat * 2 ^ n) = x + y <<< n :=
  BitVec.eq_of_toNat_eq (by simp [Nat.shiftLeft_eq])

/-- Settles O1: each body gives its integers as a result of 32 or 64 bits; a sum, difference or product of the integers that 32-bit
operands stand for wraps to that of their words. -/
theorem integerArithmetic : Obligations.IntegerArithmetic := by
  unfold Obligations.IntegerArithmetic
  intro s e d a b c f g sh k
  have hadd (h : Starts s e (.add d a b f g)) := gives_int h rfl rfl rfl
  have hsub (h : Starts s e (.sub d a b f g)) := gives_int h rfl rfl rfl
  have hmul (h : Starts s e (.mul d a b f g)) := gives_int h rfl rfl rfl
  refine ⟨hadd, hsub, hmul, fun hw hs => ⟨fun h => ?add, fun h => ?sub, fun h => ?mul⟩, (gives_int · rfl rfl rfl),
    (gives_int · rfl rfl rfl), (gives_int · rfl rfl rfl), (gives_put · rfl rfl rfl), fun h => ?lea⟩
  case add => simpa only [hw, hs, resultOf_narrow_wrap, BitVec.ofInt_add, ofInt_opnd] using hadd h
  case sub => simpa only [hw, hs, resultOf_narrow_wrap, ofInt_minus, ofInt_opnd] using hsub h
  case mul => simpa only [hw, hs, resultOf_narrow_wrap, BitVec.ofInt_mul, ofInt_opnd] using hmul h
  case lea =>
    simp only [← lea_word]
    exact gives_put h rfl rfl rfl

/-! ### Bits of words and of pairs (R100 to R102) -/

/-- a AND NOT b of 32 bits, which the model takes as an exclusive or masked by a (R100). -/
theorem resultOf_andn (t : Strand) (d a b : Nat) :
    resultOf false d (fun l => t.opnd false a l &&& (t.opnd false a l ^^^ t.opnd false b l))
      = [(d, fun l => t.lane a l &&& ~~~(t.lane b l))] := by
  simp only [resultOf, Strand.opnd, Bool.false_eq_true, if_false, andn_eq]

/-- The same of 64 bits, half by half. -/
theorem resultOf_andn_pair (t : Strand) (d a b : Nat) :
    resultOf true d (fun l => t.opnd true a l &&& (t.opnd true a l ^^^ t.opnd true b l))
      = [(d, fun l => t.lane a l &&& ~~~(t.lane b l)), (d + 1, fun l => t.lane (a + 1) l &&& ~~~(t.lane (b + 1) l))] := by
  simp only [resultOf, Strand.opnd, if_true, and_low, xor_low, and_high, xor_high, lane64_low, lane64_high, andn_bits]

/-- A 32-bit form whose value is a word. -/
theorem resultOf_word (d : Nat) (x : Nat → Word) : resultOf false d (fun l => (x l).toNat) = [(d, x)] := by
  simp only [resultOf, Bool.false_eq_true, if_false, BitVec.ofNat_toNat, BitVec.setWidth_eq]

/-- Settles O2: each body gives its value; the amounts of shifts need no bound, and a AND NOT b is formed half by half of a pair. -/
theorem integerLogic : Obligations.IntegerLogic := by
  unfold Obligations.IntegerLogic
  intro s e d a b c g w
  have handn (h : Starts s e (.andn d a b w g)) := gives_int h rfl rfl rfl
  have hbfe (h : Starts s e (.bfe d a b w g)) := gives_int h rfl rfl rfl
  refine ⟨(gives_int · rfl rfl rfl), (gives_int · rfl rfl rfl), (gives_int · rfl rfl rfl), fun hw h => ?andn32, fun hw h => ?andn64,
    fun h => ?shl, fun h => ?shr, fun h => ?sar, (gives_put · rfl rfl rfl), fun h => ?bfe, (gives_put · rfl rfl rfl),
    (gives_put · rfl rfl rfl), (gives_put · rfl rfl rfl), (gives_put · rfl rfl rfl), (gives_put · rfl rfl rfl),
    (gives_put · rfl rfl rfl), (gives_put · rfl rfl rfl), (gives_put · rfl rfl rfl), fun hw h => ?mov32, fun hw h => ?mov64⟩
  case andn32 =>
    subst hw
    exact resultOf_andn e.t d.toNat a.toNat b.toNat ▸ handn h
  case andn64 =>
    subst hw
    exact resultOf_andn_pair e.t d.toNat a.toNat b.toNat ▸ handn h
  case shl =>
    simp only [← shlWord_eq]
    exact gives_put h rfl rfl rfl
  case shr =>
    simp only [← shrWord_eq]
    exact gives_put h rfl rfl rfl
  case sar =>
    simp only [← sarWord_eq]
    exact gives_put h rfl rfl rfl
  case bfe => exact resultOf_word d.toNat (fun l => bfeWord (w = 1) (e.t.lane a.toNat l) (e.t.lane b.toNat l)) ▸ hbfe h
  case mov32 =>
    subst hw
    exact gives_put h rfl rfl rfl
  case mov64 =>
    subst hw
    exact gives_list (rs := [(d.toNat, _, _), (d.toNat + 1, _, _)]) h rfl rfl rfl (by simp)

/-! ### Immediates (R105, R106) -/

theorem shlWord_of_lt (x : Word) {n : Nat} (hn : n < 32) : shlWord x n = x <<< n := if_neg (by omega)

theorem shrWord_of_lt (x : Word) {n : Nat} (hn : n < 32) : shrWord x n = x >>> n := if_neg (by omega)

theorem sarWord_of_lt (x : Word) {n : Nat} (hn : n < 32) : sarWord x n = x.sshiftRight n := by
  rw [sarWord, Nat.min_eq_left (by omega)]

theorem rotWord_of_lt (x : Word) {n : Nat} (hn : n < 32) : rotWord x n = x.rotateLeft n := by
  rw [rotWord, Nat.mod_eq_of_lt hn]

/-- Settles O3: each body gives its value, and `movhi` traps where its old destination is not uniform; the amount of an immediate shift
is below 32. -/
theorem integerImmediate : Obligations.IntegerImmediate := by
  unfold Obligations.IntegerImmediate
  intro s e d a i st j k n g
  have hadd (h : Starts s e (.addImm d a i g)) := gives_put h rfl rfl rfl
  refine ⟨(gives_put · rfl rfl rfl), fun hu h => gives_put h rfl (if_neg (not_not_intro hu)) rfl, fun hu h => traps_of h rfl (if_pos hu),
    (gives_put · rfl rfl rfl), fun h => ?add, (gives_put · rfl rfl rfl), (gives_put · rfl rfl rfl),
    (gives_put · rfl rfl rfl), (gives_put · rfl rfl rfl), fun h => ?min, fun h => ?max, (gives_put · rfl rfl rfl),
    fun h => ?shl, fun h => ?shr, fun h => ?sar, fun h => ?rot⟩
  case add =>
    simpa only [apply_ite word32, word32_add, Bool.true_and] using hadd h
  case min =>
    simp only [← word32_min]
    exact gives_put h rfl rfl rfl
  case max =>
    simp only [← word32_max]
    exact gives_put h rfl rfl rfl
  case shl =>
    simp only [← shlWord_of_lt _ n.isLt]
    exact gives_put h rfl rfl rfl
  case shr =>
    simp only [← shrWord_of_lt _ n.isLt]
    exact gives_put h rfl rfl rfl
  case sar =>
    simp only [← sarWord_of_lt _ n.isLt]
    exact gives_put h rfl rfl rfl
  case rot =>
    simp only [← rotWord_of_lt _ n.isLt]
    exact gives_put h rfl rfl rfl

end Sys2Proof.Machine
end

section
/-! The float words of the lanes and the moving of bits (O5, O6, O7): every word but `pack` and `unpack` is a rounding form, those that
round nothing included. -/

namespace Sys2Proof.Machine

/-- Settles O5: each word is a rounding form, with a draw for each element where its mode or its destination draws. -/
theorem floatRounding : Obligations.FloatRounding := by
  unfold Obligations.FloatRounding
  intro s e d a b f g ty dt st u q t mode sto x z rnd
  exact ⟨-- fadd, fsub, fmul, fma, fdiv, fscale
    (rounds_of_give · rfl rfl rfl), (rounds_of_give · rfl rfl rfl), (rounds_of_give · rfl rfl rfl),
    (rounds_of_give · rfl rfl rfl), (rounds_of_give · rfl rfl rfl), (rounds_of_give · rfl rfl rfl),
    -- fsqrt, frcp, frsqrt, fexp2, flog2, fsin, fcos
    (rounds_of_give · rfl rfl rfl), (rounds_of_give · rfl rfl rfl), (rounds_of_give · rfl rfl rfl), (rounds_of_give · rfl rfl rfl),
    (rounds_of_give · rfl rfl rfl), (rounds_of_give · rfl rfl rfl), (rounds_of_give · rfl rfl rfl),
    -- ffract, fround, fdot2, cvt
    (rounds_of_give · rfl rfl rfl), (rounds_of_give · rfl rfl rfl), (rounds_of_give · rfl rfl rfl), (rounds_of_give · rfl rfl rfl)⟩

/-- Settles O7: each word gives one result, and neither raises a flag nor draws. -/
theorem packUnpack : Obligations.PackUnpack := by
  unfold Obligations.PackUnpack
  intro s e d a b k sx w g x y o
  exact ⟨(gives_put · rfl rfl rfl), (gives_put · rfl rfl rfl), (gives_put · rfl rfl rfl), (gives_put · rfl rfl rfl),
    (gives_put · rfl rfl rfl), (gives_put · rfl rfl rfl), (gives_put · rfl rfl rfl), (gives_put · rfl rfl rfl)⟩

end Sys2Proof.Machine

namespace Sys2Proof

/-- Settles O6: each word is a rounding form that draws in no mode. (`Machine.floatBits` is the form itself.) -/
theorem floatBits : Obligations.FloatBits := by
  unfold Obligations.FloatBits
  intro s e d a b ty g t x
  exact ⟨(Machine.rounds_of_give · rfl rfl rfl), (Machine.rounds_of_give · rfl rfl rfl), (Machine.rounds_of_give · rfl rfl rfl),
    (Machine.rounds_of_give · rfl rfl rfl), (Machine.rounds_of_give · rfl rfl rfl)⟩

end Sys2Proof
end

section
/-! Words that write a predicate (O8), which merge the bits of the acting lanes, and may raise flags beside that. -/

namespace Sys2Proof.Machine

/-- A predicate written and flags raised are apart: either may come first. -/
theorem Env.putPred_orFlags (e : Env) (m : Mask) (p : Nat) (val : Nat → Bool) (fl : BitVec 5) :
    (e.putPred m p val).orFlags fl = (e.orFlags fl).putPred m p val := by
  simp only [Env.putPred, Env.orFlags, Strand.mergePred, Strand.setPred]
  split <;> rfl

/-- A word that merges one predicate and raises no flag. -/
theorem sets_merge_quiet {s : State} {e : Env} {i : Instr} (h : Starts s e i) {body : Env → Mask → Res} (hx : exec i s = issue (reqOf i) body s)
    {p : Nat} {val : Mask} (hb : body e (maskFor i e) = .done { e with t := e.t.mergePred p (maskFor i e) val }) : Sets s e i p val 0 :=
  sets_merge h hx (hb.trans (by rw [Env.orFlags_zero]))

/-- Settles O8: of the words that merge a predicate only `fcmp` raises flags. -/
theorem predicateResults : Obligations.PredicateResults := by
  unfold Obligations.PredicateResults
  intro s e w u ty p q r c g a b
  exact ⟨(sets_merge_quiet · rfl rfl), fun h => sets_merge h rfl (congrArg Res.done (Env.putPred_orFlags ..)), (sets_merge_quiet · rfl rfl),
    (sets_merge_quiet · rfl rfl), (sets_merge_quiet · rfl rfl), (sets_merge_quiet · rfl rfl), (sets_merge_quiet · rfl rfl),
    (sets_merge_quiet · rfl rfl)⟩

end Sys2Proof.Machine
end

section
/-! The cross-lane words (O9): what `vote` finds in the mask of the acting lanes whose value is not 0, and results whose flags count
only where some lane acts. -/

namespace Sys2Proof.Machine

/-- One 32-bit result whose flags come from the acting lanes as a whole (R125). -/
theorem gives_flags_of_acting {s : State} {e : Env} {i : Instr} (h : Starts s e i) {body : Env → Mask → Res} (hx : exec i s = issue (reqOf i) body s)
    {xg : Word} {tag : Tag} {d : BitVec 6} {f : Nat → Word} {fl : BitVec 5}
    (hb : body e (maskFor i e) = (reqOf i).give e (maskFor i e) true xg fl [e.t.result (maskFor i e) tag d.toNat f])
    (hw : (reqOf i).writes = regs1 d) : Gives s e i [(d.toNat, f)] (if maskFor i e = 0 then 0 else fl) 0 :=
  gives_flags h hx (hb.trans (Req.give_empty ..)) (by rw [hw]; exact List.mem_cons_self) (fun hm => if_pos hm)

/-- The acting lanes that satisfy `p` are all of them exactly when every lane that acts satisfies it. -/
theorem maskOf_and_eq_iff (m : Mask) (p : Nat → Bool) :
    maskOf (fun l => laneOn m l && p l) = m ↔ (List.range 8).all (fun l => !laneOn m l || p l) = true := by
  have hbit (u v : Bool) : (u && v) = u ↔ (!u || v) = true := by decide +revert
  simp only [List.all_eq_true, List.mem_range, ← hbit]
  constructor
  · intro h l hl
    rw [← laneOn_maskOf (fun l => laneOn m l && p l) l hl, h]
  · exact fun h => mask_ext fun l hl => (laneOn_maskOf _ l hl).trans (h l hl)

/-- The low bits of a number. -/
theorem bitsOf_low (x n : Nat) : bitsOf x 0 n = x % 2 ^ n := congrArg (· % 2 ^ n) (Nat.div_one x)

/-- Settles O9: each body gives its value from the lanes that it reads; `vote` asks whether the acting lanes with a value that is not 0
are none, and whether they are all. -/
theorem crossLane : Obligations.CrossLane := by
  unfold Obligations.CrossLane
  intro s e d a b k t m f g x by3
  have hby3 : by3 = fun l => bitsOf (e.t.lane b.toNat l).toNat 0 3 := funext fun l => (bitsOf_low _ 3).symm
  refine ⟨(gives_put · rfl rfl rfl), (gives_one · rfl rfl List.mem_cons_self), (gives_one · rfl rfl List.mem_cons_self),
    (gives_put · rfl rfl rfl), fun h => ?idx, fun h => ?xor, fun h => ?up, fun h => ?down,
    (gives_flags_of_acting · rfl rfl rfl), (gives_flags_of_acting · rfl rfl rfl),
    fun h => gives_list (rs := [(d.toNat, _, _), (d.toNat + 1, _, _)]) h rfl rfl rfl (by simp), fun h => ?any, fun h => ?all,
    (gives_put · rfl rfl rfl), fun h => ?vshape⟩
  case idx | xor | up | down =>
    rw [hby3]
    exact gives_one h rfl rfl List.mem_cons_self
  case any =>
    simp only [← Bool.not_eq_false, ← maskOf_eq_zero, ite_not]
    exact gives_put h rfl rfl rfl
  case all =>
    simp only [← maskOf_and_eq_iff]
    exact gives_put h rfl rfl rfl
  case vshape =>
    have hg : Gives s e (.vshape d a g) [(d.toNat, fun _ => BitVec.ofNat 32 (e.t.reg a.toNat).tag.code)] 0 0 := gives_put h rfl rfl rfl
    cases htag : (e.t.reg a.toNat).tag
    all_goals
      rw [htag] at hg
      exact hg

end Sys2Proof.Machine
end

section
/-! Arrival at a barrier (O13): the three words are one form, `arrive`, in which a current group that is not refused begins to wait. -/

namespace Sys2Proof.Machine

/-- The current group, at the next word, waiting for `w` (R134). -/
theorem Env.waitNext_eq (e : Env) (w : Wait) :
    e.waitNext w = .moved (e.on ((e.t.advance e.t.group (e.t.unit.words + 1)).waitLanes e.t.group w)) := rfl

section
variable {s : State} {e : Env} {i : Instr} {w : Wait} {refused : Env → Bool} {count : Env → Env} (h : Starts s e i)
  (hx : exec i s = arrive i w refused count s) (hreq : reqOf i = { instr := i, handler := false, tx := false })
include hx hreq

/-- The barrier words issue under the demands of `reqOf`, and the completion of barriers follows them. -/
theorem exec_arrive : exec i s = issueThen (reqOf i) (fun crew s => s.completeBarriers crew 8)
    (fun e _ => if refused e then e.illegal else (count e).waitNext w) s := by
  rw [hx, hreq]
  rfl

include h

/-- R149, R162, R163: a group that may arrive is counted and waits, and the barriers that this completes complete. -/
theorem arrive_waits (hr : refused e = false) : exec i s = .next ((((count e).on
    (((count e).t.advance (count e).t.group ((count e).t.unit.words + 1)).waitLanes (count e).t.group w)).endUnit true).commit.completeBarriers
      e.c.id 8) :=
  then_moved_of h (exec_arrive hx hreq) ((if_neg (ne_true_of_eq_false hr)).trans ((count e).waitNext_eq w))

/-- R148: a refused arrival is ILLEGAL. -/
theorem arrive_traps (hr : refused e = true) : Traps s i e (.plain cILLEGAL e.t.group) false :=
  then_trap_of h (exec_arrive hx hreq) (if_pos hr)

end

/-- R148: `bar` counts the threads of the group in its slot, and is refused where the crew has no such slot. -/
theorem exec_bar (b : BitVec 4) (s : State) : exec (.bar b) s = arrive (.bar b) (.bar b.toNat) (fun e => decide (e.c.nbars ≤ b.toNat))
    (fun e => { e with c := { e.c with bars := modAt e.c.bars b.toNat (fun x => { x with count := x.count + laneCount e.t.group }) } }) s := rfl

theorem exec_gbar (s : State) : exec .gbar s = arrive .gbar .gbar (fun _ => false) id s := rfl

theorem exec_sbar (s : State) : exec .sbar s = arrive .sbar .sbar (fun _ => false) id s := rfl

/-- Settles O13: of the three arrivals only `bar` counts its threads in a slot, and only it can be refused. -/
theorem barrierArrival : Obligations.BarrierArrival := by
  unfold Obligations.BarrierArrival
  intro s e b waits
  -- each law is elaborated by itself: matched against the goal, the statement's `waits` is unfolded too far
  exact ⟨fun h hb => (arrive_waits h (exec_bar b s) rfl (decide_eq_false (Nat.not_le.mpr hb)) :),
    fun h hb => (arrive_traps h (exec_bar b s) rfl (decide_eq_true hb) :),
    fun h => (arrive_waits h (exec_gbar s) rfl rfl :), fun h => (arrive_waits h (exec_sbar s) rfl rfl :)⟩

end Sys2Proof.Machine
end

section
/-! The events of a strand (O44): each acts on the strand that it names when that stands in a resident crew, on the operation in flight
that it names or through `State.onResident`. -/

namespace Sys2Proof.Machine

/-- A view of a named strand shows the crew and the strand of those names. -/
theorem State.env?_names {s : State} {crew strand : Nat} {e : Env} (h : s.env? crew strand = some e) : e.c.id = crew ∧ e.t.idx = strand := by
  unfold State.env? at h
  split at h
  · cases h
  · next hc =>
    split at h
    · cases h
    · next ht =>
      cases h
      exact ⟨State.crew?_id hc, Crew.strand?_idx ht⟩

/-- A query that stands still until `rtt` makes no stop (R281). -/
theorem Env.traverse_held {e : Env} {l : Nat} (h : e.t.queryHeld l = true) : e.traverse l = e := by
  rw [Env.traverse]
  exact if_pos (by simp only [h, Bool.or_true])

section
variable {s : State} {e : Env} {c n : Nat} (he : s.env? c n = some e) (hc : e.c.state = .resident)
include he hc

/-! ### Operations in flight (R185, R260, R277) -/

section
variable {op : Nat} {p : Pending}

/-- The named operation of the named counter is performed by its unit. -/
theorem State.completeOp_pending {k : Ctr} (hp : e.t.inflight.find? (fun q => q.id = op && q.ctr = k && !q.done) = some p) :
    s.completeOp k c n op = (e.performAny p).commit := by
  simp only [State.completeOp, he, hp, hc, if_true]

/-- A field request is performed like another operation; only a `trace` or `tcont` waits for its stops (R260). -/
theorem fieldRequestCompletion_field {f : FieldCmd} (hp : e.t.inflight.find? (fun q => q.id = op && q.ctr = .tr && !q.done) = some p)
    (hf : p.kind = .field f) : exec (.fieldRequestCompletion c n op) s = .next (e.performAny p).commit := by
  change execFieldRequestCompletion c n op s = _
  simp only [execFieldRequestCompletion, he, hp, hf, State.completeOp_pending he hc hp]

end

/-- A lane's query goes on to its next stop, and the `trace` or `tcont` that waits for it is counted when that was its last. -/
theorem traversalStop_resident {l : Nat} {o : Option Pending} (hl : l < 8) (ho : e.t.traceOf l = o) :
    exec (.traversalStop c n l) s = .next (o.elim (e.traverse l) (e.traverse l).settleTrace).commit := by
  change execTraversalStop c n l s = _
  simp only [execTraversalStop, he, hc, Nat.not_le.mpr hl, ne_eq, not_true_eq_false, decide_false, Bool.or_self, Bool.false_eq_true, if_false]
  cases o with
  | none => rw [ho]; rfl
  | some p => rw [ho]; rfl

/-! ### A live strand (R134 to R137, R213, R426, R429) -/

variable (ht : e.t.ended = false)
include ht

theorem State.onResident_live (f : Env → State) : s.onResident c n f = f e := by
  simp only [State.onResident, he, hc, ht, decide_true, Bool.not_false, Bool.and_self, if_true]

/-- Threads whose time has come run again (R134). -/
theorem State.onResident_wakes {due : Thread → Bool} (hm : e.t.lanesWhere due ≠ 0) :
    s.onResident c n (fun e => if e.t.lanesWhere due = 0 then s else ({ e with t := e.t.wakeLanes (e.t.lanesWhere due) } : Env).commit)
      = (e.on (e.t.wakeLanes (e.t.lanesWhere due))).commit :=
  (State.onResident_live he hc ht _).trans (if_neg hm)

/-- R136: the fairness timer's rotation, when it is due. -/
theorem fairnessRotation_due (hd : e.rotationDue = true) : exec (.fairnessRotation c n) s = .next (e.on e.t.selectNext).commit :=
  congrArg Host.Outcome.next ((State.onResident_live he hc ht _).trans (if_pos hd))

/-- R137: a strand that has spent 2048 cycles in the active set while a ready one was outside gives up its place. -/
theorem activeSetRotation_due (hin : e.t.inSet = true) (hfor : 2048 ≤ e.t.activeFor) (hout : s.readyOutside e.c.core c n = true) :
    exec (.activeSetRotation c n) s = .next (e.on (e.t.leaveSet s.cycle)).commit := by
  obtain ⟨hs, -, -⟩ := State.env?_spec he
  obtain ⟨hcrew, hstrand⟩ := State.env?_names he
  have hd : e.setRotationDue = true := by
    simp only [Env.setRotationDue, hin, hfor, hs, hcrew, hstrand, hout, decide_true, Bool.and_self]
  have hleave : e.leaveSet = e.on (e.t.leaveSet s.cycle) := by rw [← hs]; rfl
  exact congrArg Host.Outcome.next ((State.onResident_live he hc ht _).trans ((if_pos hd).trans (congrArg Env.commit hleave)))

/-- R213: at its deadline a thread asleep in `waita` returns with its word, read once more. -/
theorem waitaDeadline_passed {l pa vd pd : Nat} {x : Word} {d : DWord} {z : WaitAt} (hl : l < 8)
    (hst : (e.t.thread l).state = .waiting (.waita pa x d vd pd z)) (hk : inKick pa = false) (hb : s.bad pa 4 = false)
    (hd : s.passed d = true) :
    exec (.waitaDeadline c n l) s = .next (s.returnWaita c n l vd pd (BitVec.ofNat 32 (s.peek pa 4)) (BitVec.ofNat 32 (s.peek pa 4) ≠ x)) := by
  refine congrArg Host.Outcome.next ((State.onResident_live he hc ht _).trans ?_)
  simp only [hst, hl, hd, State.rereadWaita, hk, hb, decide_true, Bool.and_self, Bool.and_false, Bool.false_eq_true, if_true, if_false]

/-- R426: a handled trap of lanes of the current group is entered at a boundary. -/
theorem trapEntry_due {cause : BitVec 4} {mask : Mask} (va : VAddr) (hh : e.handled = true) (hi : e.mayIssue = true) (hw : e.c.walker = false)
    (hm : e.t.midUnit = false) (hlo : 1 ≤ cause.toNat) (hhi : cause.toNat ≤ 9) (hmask : mask ≠ 0) (hg : mask &&& ~~~e.t.group = 0) :
    exec (.trapEntry c n cause mask va) s =
      .next (e.takeTrap { cause := cause.toNat, mask := mask, va := va.toNat, code := 0 } false none) :=
  congrArg Host.Outcome.next ((State.onResident_live he hc ht _).trans
    (if_pos (by simp only [hh, hi, hw, hm, hlo, hhi, hmask, hg, ne_eq, not_false_eq_true, decide_true, Bool.not_false, Bool.and_self])))

/-- R429: a deferred trap that is due is taken at a boundary, where groups that came to hold equal program counters are one. -/
theorem deferredTrap_due (hd : (e.on e.t.regroup).deferredDue = true) (hi : (e.on e.t.regroup).mayIssue = true) :
    exec (.deferredTrap c n) s = .next (e.on e.t.regroup).takeDeferred :=
  congrArg Host.Outcome.next ((State.onResident_live he hc ht _).trans (if_pos (Bool.and_eq_true_iff.mpr ⟨hd, hi⟩)))

end

/-- Settles O44: an event of a counter performs the operation that it finds, and the others are the laws above; `rgrowGrant` and
`strandEnd` name what serves them. -/
theorem strandEvents : Obligations.StrandEvents := by
  unfold Obligations.StrandEvents
  intro s e c n op l p cause mask va d pa vd pd w z go live pending wakes
  have hop {k : Ctr} : pending k → s.completeOp k c n op = (e.performAny p).commit :=
    fun ⟨⟨he, hc⟩, hp⟩ => State.completeOp_pending he hc hp
  refine ⟨-- loadValueArrival, storeAcknowledge, copyCompletion, swageOperationCompletion, streamOperationCompletion
    (congrArg Host.Outcome.next <| hop ·), (congrArg Host.Outcome.next <| hop ·), (congrArg Host.Outcome.next <| hop ·),
    (congrArg Host.Outcome.next <| hop ·), (congrArg Host.Outcome.next <| hop ·),
    -- fieldRequestCompletion, traversalStop
    fun _ ⟨⟨he, hc⟩, hp⟩ => fieldRequestCompletion_field he hc hp, fun ⟨he, hc⟩ => traversalStop_resident he hc,
    fun ⟨he, hc⟩ => traversalStop_resident he hc, fun _ _ hq => congrArg Env.commit (Env.traverse_held hq),
    -- rgrowGrant, strandEnd, fairnessRotation, activeSetRotation
    rfl, rfl, fun ⟨he, hc⟩ => fairnessRotation_due he hc, fun ⟨he, hc⟩ => activeSetRotation_due he hc,
    -- sleepExpiry, sleepuExpiry, waitaDeadline
    fun ⟨he, hc⟩ ht hm => congrArg Host.Outcome.next (State.onResident_wakes he hc ht hm),
    fun ⟨he, hc⟩ ht hm => congrArg Host.Outcome.next (State.onResident_wakes he hc ht hm),
    fun ⟨he, hc⟩ ht => waitaDeadline_passed he hc ht,
    -- trapEntry, deferredTrap
    fun ⟨he, hc⟩ ht => trapEntry_due he hc ht va, fun ⟨he, hc⟩ => deferredTrap_due he hc⟩

end Sys2Proof.Machine
end

section
/-! Branches and calls (O11): the five words are one form, `Env.branch`, and differ in where a lane's target comes from and in whether a
return address is written first. -/

namespace Sys2Proof.Machine

/-- R155: the target of `bra` is the same in every lane. -/
theorem exec_bra (o : BitVec 21) (g : BitVec 3) (s : State) : exec (.bra o g) s =
    issue (reqOf (.bra o g)) (fun e m => e.branch m (fun _ => e.directTarget 21 o.toNat) id) s := rfl

/-- R157: each lane of `brx` takes its target from its own register pair. -/
theorem exec_brx (a : BitVec 6) (g : BitVec 3) (s : State) : exec (.brx a g) s =
    issue (reqOf (.brx a g)) (fun e m => e.branch m (fun l => (e.t.lane64 a.toNat l).toNat) id) s := rfl

theorem exec_ret (a : BitVec 6) (g : BitVec 3) (s : State) : exec (.ret a g) s =
    issue (reqOf (.ret a g)) (fun e m => e.branch m (fun l => (e.t.lane64 a.toNat l).toNat) id) s := rfl

/-- R154, R158: the return address of a direct call is uniform, that of an indirect one general. -/
theorem exec_callDirect (d : BitVec 5) (j : BitVec 18) (s : State) : exec (.callDirect d j) s = issue (reqOf (.callDirect d j))
    (fun e m => e.branch m (fun _ => e.directTarget 18 j.toNat) (fun e => e.putReturn m .uniform (2 * d.toNat))) s := rfl

theorem exec_callIndirect (d : BitVec 5) (a : BitVec 6) (s : State) : exec (.callIndirect d a) s = issue (reqOf (.callIndirect d a))
    (fun e m => e.branch m (fun l => (e.t.lane64 a.toNat l).toNat) (fun e => e.putReturn m .general (2 * d.toNat))) s := rfl

/-- Settles O11: with good targets each word is a branch, which for a call writes the return address first; with a bad one each traps. -/
theorem branching : Obligations.Branching := by
  unfold Obligations.Branching
  intro s e o j g a d ra direct pairOf good badMask
  exact ⟨-- bra, brx, ret, callDirect and callIndirect with good targets
    fun h => branches_plain h (exec_bra o g s) rfl rfl, fun h => branches_plain h (exec_brx a g s) rfl rfl,
    fun h => branches_plain h (exec_ret a g s) rfl rfl, fun h hgood => branches_call h (exec_callDirect d j s) rfl rfl hgood rfl,
    fun h hgood => branches_call h (exec_callIndirect d a s) rfl rfl hgood rfl,
    -- the same words with a bad one
    fun h => branch_traps h (exec_bra o g s) rfl, fun h => branch_traps h (exec_brx a g s) rfl, fun h => branch_traps h (exec_ret a g s) rfl,
    fun h => branch_traps h (exec_callDirect d j s) rfl, fun h => branch_traps h (exec_callIndirect d a s) rfl⟩

end Sys2Proof.Machine
end

section
/-! Meeting, yielding, sleeping and ending (O12). Only `exit` has cases: no acting thread, a walker's, and threads that end. -/

namespace Sys2Proof.Machine

/-- R161: what `exit` does with its acting lanes; the barriers that this completes follow. -/
def exitBody (e : Env) (m : Mask) : Res :=
  if m = 0 then .done e
  else if e.c.walker then e.endOwnWalk
  else .moved (e.on ((e.t.advance (e.t.group &&& ~~~m) (e.t.unit.words + 1)).modThreads m (fun _ x => { x with state := .exited })))

theorem exec_exit (g : BitVec 3) (s : State) :
    exec (.exit g) s = issueThen (reqOf (.exit g)) (fun crew s => s.completeBarriers crew 8) exitBody s := rfl

theorem exitBody_idle (e : Env) : exitBody e 0 = .done e := if_pos rfl

/-- R364: a walker's `exit` ends the walk. -/
theorem exitBody_walker {e : Env} {m : Mask} (hm : m ≠ 0) (hw : e.c.walker = true) :
    exitBody e m = .ovr (e.via (fun s => s.endWalk e.c.core e.t.idx)) :=
  (if_neg hm).trans (if_pos hw)

theorem exitBody_ends {e : Env} {m : Mask} (hm : m ≠ 0) (hw : e.c.walker = false) : exitBody e m =
    .moved (e.on ((e.t.advance (e.t.group &&& ~~~m) (e.t.unit.words + 1)).modThreads m (fun _ x => { x with state := .exited }))) :=
  (if_neg hm).trans (if_neg (ne_true_of_eq_false hw))

theorem exec_meet (o : BitVec 21) (g : BitVec 3) (s : State) : exec (.meet o g) s = issue (reqOf (.meet o g)) (fun e m =>
    .done (e.on (e.t.modThreads m (fun _ x => { x with meeting :=
      if o = 0 && e.t.unit.imm.isNone then noMeeting else BitVec.ofNat 32 (e.directTarget 21 o.toNat) })))) s := rfl

/-- R159: `meet` with offset 0 and no `hint.imm` clears the meeting register, which any other offset sets to its target. -/
theorem meet_ends {s : State} {e : Env} {o : BitVec 21} {g : BitVec 3} (h : Starts s e (.meet o g)) :
    Ends s (.meet o g) (e.on (e.t.modThreads (maskFor (.meet o g) e) (fun _ x =>
      { x with meeting := if o = 0 ∧ e.t.unit.imm = none then 1 else BitVec.ofNat 32 (e.directTarget 21 o.toNat) }))) := by
  have hc : (o = 0 && e.t.unit.imm.isNone) = true ↔ o = 0 ∧ e.t.unit.imm = none := by simp
  have hb := ends_of h (exec_meet o g s) rfl
  simp only [hc] at hb
  exact hb

theorem exec_sleep (n : BitVec 12) (s : State) : exec (.sleep n) s = issue (reqOf (.sleep n)) (fun e _ =>
    if n = 0 then .done e else e.waitNext (.sleep (e.s.cycle + 64 * n.toNat))) s := rfl

/-- R160: the group sleeps for 64 cycles a unit. -/
theorem sleep_waits {s : State} {e : Env} {n : BitVec 12} (hn : n ≠ 0) (h : Starts s e (.sleep n)) : Moves s (.sleep n)
    (e.on ((e.t.advance e.t.group (e.t.unit.words + 1)).waitLanes e.t.group (.sleep (s.cycle + 64 * n.toNat)))) := by
  refine moves_of h (exec_sleep n s) ?_
  rw [if_neg hn, e.waitNext_eq, h.machine]

/-- Settles O12. -/
theorem meetSleepExit : Obligations.MeetSleepExit := by
  unfold Obligations.MeetSleepExit
  intro s e o g n
  exact ⟨-- meet, nop, yield, sleep
    meet_ends, fun h => ends_of h rfl rfl, fun h => ends_of h rfl rfl, fun h => ends_of h (exec_sleep 0 s) (if_pos rfl), sleep_waits,
    -- exit
    fun h hm => then_done_of h (exec_exit g s) (hm ▸ exitBody_idle e), fun h hm hw => then_moved_of h (exec_exit g s) (exitBody_ends hm hw),
    fun h hm hw => then_ovr_of h (exec_exit g s) (exitBody_walker hm hw)⟩

end Sys2Proof.Machine
end

section
/-! Register blocks (O14). A request of `rgrow` carries its crew's order of dispatch as its age (R146, R164). -/

namespace Sys2Proof.Machine

/-- R164: within the ceiling, and with no earlier request, the group waits for a request whose age is its crew's order of dispatch. -/
theorem rgrow_waits {s : State} {e : Env} {n : BitVec 3} (h : Starts s e (.rgrow n)) (hc : e.t.regs.length + 8 * n.toNat ≤ e.c.ceil)
    (hg : e.t.grow = none) : exec (.rgrow n) s = .next (((e.on
      ((({ e.t with grow := some n.toNat, growAge := e.c.order } : Strand).advance e.t.group (e.t.unit.words + 1)).waitLanes
        e.t.group .rgrow)).endUnit true).commit.serveCrewCore e.c.id) := by
  have hover : e.overCeiling n.toNat = false := decide_eq_false (Nat.not_lt.mpr hc)
  refine then_moved_of h (after := fun crew s => s.serveCrewCore crew) rfl ?_
  simp only [hover, hg, Bool.false_eq_true, Option.isSome_none, if_false]
  rfl

/-- The strand of `Tests.blocks`, which has made no request yet, in a crew that was the second to be dispatched. -/
def secondCrew : State := Tests.withCrew (fun c => { c with order := 1 }) Tests.blocks

/-- Refutes O14: after `rgrow 2` the strand of `secondCrew` holds the age 1 of its request, where the statement leaves it 0. -/
theorem not_blocksAndTiles : ¬ Obligations.BlocksAndTiles := by
  unfold Obligations.BlocksAndTiles
  intro h
  obtain ⟨hgrow, -⟩ := h secondCrew (Tests.envOf secondCrew) 2 0 0 0 (fetchLaunch secondCrew)
  have hstart : Starts secondCrew (Tests.envOf secondCrew) (.rgrow 2) := Tests.starts_of_ready (by decide +kernel)
  have hceil : (Tests.envOf secondCrew).t.regs.length + 8 * (2 : BitVec 3).toNat ≤ (Tests.envOf secondCrew).c.ceil := by decide +kernel
  have hnone : (Tests.envOf secondCrew).t.grow = none := by decide +kernel
  have hsame := (rgrow_waits hstart hceil hnone).symm.trans (hgrow hstart hceil hnone)
  exact absurd (congrArg (fun o => (Tests.after o).growAge) hsame) (by decide +kernel)

end Sys2Proof.Machine
end

section
/-! The tile dispenser (O15): a request changes one range or two, and counting an index over the ranges shows where it went. -/

namespace Sys2Proof

/-- Joined lists with one entry replaced by another: the new entry's elements come in for those of the old. -/
theorem count_flatMap_set {α β : Type} [BEq β] (f : α → List β) (b : α) (x : β) {xs : List α} {j : Nat} (h : j < xs.length) :
    ((xs.set j b).flatMap f).count x + (f xs[j]).count x = (xs.flatMap f).count x + (f b).count x := by
  induction xs generalizing j with
  | nil => simp at h
  | cons y ys ih =>
    cases j with
    | zero => simp only [List.set_cons_zero, List.flatMap_cons, List.count_append, List.getElem_cons_zero]; omega
    | succ k =>
      have := ih (Nat.lt_of_succ_lt_succ h)
      simp only [List.set_cons_succ, List.flatMap_cons, List.count_append, List.getElem_cons_succ]
      omega

namespace Machine

/-- The indices of a range. -/
def DispRange.indices (r : DispRange) : List Nat := (List.range (r.hi - r.lo)).map (fun k => r.lo + k)

theorem DispRange.indices_eq (r : DispRange) : r.indices = List.range' r.lo r.len := List.range'_eq_map_range.symm

theorem DispRange.indices_empty {r : DispRange} (h : r.len = 0) : r.indices = [] := by rw [r.indices_eq, h]; rfl

/-- A range cut at an index of its own: the indices below it, it, and those above. -/
theorem DispRange.indices_cut {r : DispRange} {k : Nat} (h1 : r.lo ≤ k) (h2 : k < r.hi) :
    r.indices = (DispRange.mk r.lo k).indices ++ k :: (DispRange.mk (k + 1) r.hi).indices := by
  have hlen : r.hi - r.lo = (k - r.lo) + (1 + (r.hi - (k + 1))) := by omega
  have hk : r.lo + (k - r.lo) = k := by omega
  simp only [DispRange.indices_eq, DispRange.len]
  rw [hlen, ← List.range'_append_1, hk, Nat.add_comm 1, List.range'_succ]

/-- The slot that `longest` finds has at least the length of every other. -/
theorem len_le_longest (rs : List DispRange) {j : Nat} (h : j < rs.length) :
    (rs.getD j { lo := 0, hi := 0 }).len ≤ (rs.getD (longest rs) { lo := 0, hi := 0 }).len := by
  unfold longest
  generalize rs.length = n at h
  induction n with
  | zero => omega
  | succ n ih =>
    rw [List.range_succ, List.foldl_append, List.foldl_cons, List.foldl_nil]
    rcases Nat.lt_succ_iff_lt_or_eq.mp h with hj | rfl
    · have := ih hj
      split <;> omega
    · split <;> omega

section
variable {rs : List DispRange} {j : Nat} (h : j < rs.length)
include h

/-- A slot that is there, as the dispenser reads it. -/
theorem getD_slot : rs.getD j { lo := 0, hi := 0 } = rs[j] := by
  rw [List.getD_eq_getElem?_getD, List.getElem?_eq_getElem h, Option.getD_some]

theorem len_getElem_le_longest : rs[j].len ≤ (rs.getD (longest rs) { lo := 0, hi := 0 }).len := by
  rw [← getD_slot h]
  exact len_le_longest rs h

/-- R168: a slot with indices of its own gives its lowest. -/
theorem dispense_own (hown : rs[j].len ≠ 0) : dispense rs j = (some rs[j].lo, rs.set j ⟨rs[j].lo + 1, rs[j].hi⟩) := by
  simp only [dispense, getD_slot h, hown, if_false]

/-- R169: with every range empty the request gets nothing. -/
theorem dispense_none (hfar : (rs.getD (longest rs) { lo := 0, hi := 0 }).len = 0) : dispense rs j = (none, rs) := by
  have hown : rs[j].len = 0 := Nat.le_zero.mp (hfar ▸ len_getElem_le_longest h)
  simp only [dispense, getD_slot h, hown, hfar, if_true]

/-- R169: an empty slot steals the upper half of another, `v`: it is given the half's first index, `k`, and keeps those above. -/
theorem dispense_steal (hown : rs[j].len = 0) (hfar : (rs.getD (longest rs) { lo := 0, hi := 0 }).len ≠ 0) :
    ∃ (v : Nat) (hv : v < rs.length) (k : Nat), v ≠ j ∧ rs[v].lo ≤ k ∧ k < rs[v].hi
      ∧ dispense rs j = (some k, (rs.set v ⟨rs[v].lo, k⟩).set j ⟨k + 1, rs[v].hi⟩) := by
  have hv : longest rs < rs.length := by
    refine Nat.lt_of_not_le fun hge => hfar ?_
    rw [List.getD_eq_getElem?_getD, List.getElem?_eq_none hge]
    rfl
  simp only [dispense, getD_slot h, getD_slot hv, hown, if_true] at hfar ⊢
  refine ⟨longest rs, hv, rs[longest rs].hi - ceilDiv rs[longest rs].len 2, ?_, ?_, ?_, by rw [if_neg hfar]⟩
  · intro heq
    simp only [heq] at hfar
    exact hfar hown
  all_goals
    simp only [DispRange.len, ceilDiv] at hfar ⊢
    omega

/-- What a request of slot `j` can do: nothing, where every range is empty; take the slot's own lowest index; or steal. -/
theorem dispense_cases :
    ((∀ r ∈ rs, r.len = 0) ∧ dispense rs j = (none, rs))
    ∨ (rs[j].lo < rs[j].hi ∧ dispense rs j = (some rs[j].lo, rs.set j ⟨rs[j].lo + 1, rs[j].hi⟩))
    ∨ rs[j].len = 0 ∧ ∃ (v : Nat) (hv : v < rs.length) (k : Nat), v ≠ j ∧ rs[v].lo ≤ k ∧ k < rs[v].hi
        ∧ dispense rs j = (some k, (rs.set v ⟨rs[v].lo, k⟩).set j ⟨k + 1, rs[v].hi⟩) := by
  by_cases hfar : (rs.getD (longest rs) { lo := 0, hi := 0 }).len = 0
  · refine .inl ⟨fun r hr => ?_, dispense_none h hfar⟩
    obtain ⟨k, hk, rfl⟩ := List.getElem_of_mem hr
    exact Nat.le_zero.mp (hfar ▸ len_getElem_le_longest hk)
  · by_cases hown : rs[j].len = 0
    · exact .inr (.inr ⟨hown, dispense_steal h hown hfar⟩)
    · exact .inr (.inl ⟨Nat.lt_of_sub_ne_zero hown, dispense_own h hown⟩)

/-- R169: the index given was in one range, and every other index is in one range still. -/
theorem dispense_perm {x : Nat} (hx : (dispense rs j).1 = some x) :
    (rs.flatMap DispRange.indices).Perm (x :: (dispense rs j).2.flatMap DispRange.indices) := by
  rw [List.perm_iff_count]
  intro y
  rcases dispense_cases h with ⟨-, heq⟩ | ⟨hlt, heq⟩ | ⟨hown, v, hv, k, hne, hlo, hhi, heq⟩
  all_goals rw [heq] at hx ⊢
  · exact absurd hx.symm (Option.some_ne_none x)
  all_goals rw [← Option.some.inj hx]
  · have hcut := congrArg (List.count y) (DispRange.indices_cut (r := rs[j]) (Nat.le_refl _) hlt)
    have hset := count_flatMap_set DispRange.indices ⟨rs[j].lo + 1, rs[j].hi⟩ y h
    rw [DispRange.indices_empty (r := ⟨rs[j].lo, rs[j].lo⟩) (Nat.sub_self _), List.nil_append] at hcut
    simp only [List.count_cons] at hcut ⊢
    omega
  · have hcut := congrArg (List.count y) (DispRange.indices_cut hlo hhi)
    have hset := count_flatMap_set DispRange.indices ⟨rs[v].lo, k⟩ y hv
    have hset' := count_flatMap_set DispRange.indices ⟨k + 1, rs[v].hi⟩ y (j := j) (xs := rs.set v ⟨rs[v].lo, k⟩) (by rwa [List.length_set])
    rw [List.getElem_set_ne hne, DispRange.indices_empty hown, List.count_nil] at hset'
    simp only [List.count_append, List.count_cons] at hcut ⊢
    omega

theorem dispense_eq_none (hn : (dispense rs j).1 = none) : rs.flatMap DispRange.indices = [] ∧ (dispense rs j).2 = rs := by
  rcases dispense_cases h with ⟨hempty, heq⟩ | ⟨-, heq⟩ | ⟨-, v, hv, k, -, -, -, heq⟩
  · exact ⟨List.flatMap_eq_nil_iff.mpr fun r hr => DispRange.indices_empty (hempty r hr), by rw [heq]⟩
  all_goals rw [heq] at hn; cases hn

/-- A request leaves no range with its ends crossed. -/
theorem dispense_lo_le_hi (hwf : ∀ r ∈ rs, r.lo ≤ r.hi) : ∀ r ∈ (dispense rs j).2, r.lo ≤ r.hi := by
  intro r hr
  rcases dispense_cases h with ⟨-, heq⟩ | ⟨hlt, heq⟩ | ⟨-, v, hv, k, -, hlo, hhi, heq⟩
  all_goals rw [heq] at hr
  · exact hwf r hr
  · rcases List.mem_or_eq_of_mem_set hr with hr | rfl
    · exact hwf r hr
    · exact hlt
  · rcases List.mem_or_eq_of_mem_set hr with hr | rfl
    · rcases List.mem_or_eq_of_mem_set hr with hr | rfl
      · exact hwf r hr
      · exact hlo
    · exact hhi

end

/-- Settles O15: `DispRange.indices` is what the statement counts of a range. -/
theorem dispenserKeepsIndices : Obligations.DispenserKeepsIndices := by
  unfold Obligations.DispenserKeepsIndices
  intro rs j h hwf indices
  exact ⟨fun x => dispense_perm h, dispense_eq_none h, dispense_lo_le_hi h hwf⟩

end Machine
end Sys2Proof
end

section
/-! Waiting for counters (O23): both words are one form, which performs what it waits for where its thresholds are not met yet. -/

namespace Sys2Proof.Machine

/-- R186, R223: what a wait finds: the strand as it stands where the thresholds are met, else with the operations waited for performed. -/
def Env.waited (e : Env) (x : Thresholds) : Env := if e.t.thresholdsMet x then e else e.settle (fun p => x.names.contains p.ctr)

/-- What `wait` and `waitx` do under their thresholds. -/
def waitBody (x : Thresholds) (e : Env) (_ : Mask) : Res :=
  if (e.waited x).t.thresholdsMet x then
    let e2 := if (e.waited x).t.observesStale x then (e.waited x).acquire else e.waited x
    .done (e2.on (e2.t.observed x))
  else (e.waited x).waitNext (.counters x)

theorem exec_wait (a b c d : BitVec 6) (s : State) : exec (.wait a b c d) s = issue (reqOf (.wait a b c d))
    (waitBody { ld := a.toNat, st := b.toNat, cp := c.toNat, mx := d.toNat, tr := 63, sr := 63, cl := 63 }) s := rfl

theorem exec_waitx (a b c : BitVec 6) (s : State) : exec (.waitx a b c) s = issue (reqOf (.waitx a b c))
    (waitBody { ld := 63, st := 63, cp := 63, mx := 63, tr := a.toNat, sr := b.toNat, cl := c.toNat }) s := rfl

theorem Env.waited_met {e : Env} {x : Thresholds} (h : e.t.thresholdsMet x = true) : e.waited x = e := if_pos h

theorem Env.waited_unmet {e : Env} {x : Thresholds} (h : e.t.thresholdsMet x = false) :
    e.waited x = e.settle (fun p => x.names.contains p.ctr) := if_neg (ne_true_of_eq_false h)

section
variable {s : State} {e e1 : Env} {i : Instr} {x : Thresholds} (h : Starts s e i) (hx : exec i s = issue (reqOf i) (waitBody x) s)
  (hw : e.waited x = e1)
include h hx hw

/-- R223: a wait that observes no write to global memory ends without an acquire. -/
theorem wait_ends (hm : e1.t.thresholdsMet x = true) (hs : e1.t.observesStale x = false) : Ends s i (e1.on (e1.t.observed x)) :=
  ends_of h hx (by simp only [waitBody, hw, hm, hs, if_true, Bool.false_eq_true, if_false])

theorem wait_ends_acquiring (hm : e1.t.thresholdsMet x = true) (hs : e1.t.observesStale x = true) :
    Ends s i (e1.acquire.on (e1.acquire.t.observed x)) :=
  ends_of h hx (by simp only [waitBody, hw, hm, hs, if_true])

/-- R186: the group of a wait that is not met goes to the next word and waits there. -/
theorem wait_waits (hm : e1.t.thresholdsMet x = false) :
    Moves s i (e1.on ((e1.t.advance e1.t.group (e1.t.unit.words + 1)).waitLanes e1.t.group (.counters x))) :=
  moves_of h hx (by simp only [waitBody, hw, hm, Bool.false_eq_true, if_false, Env.waitNext_eq])

end

/-- Settles O23: the thresholds are met at once, or once the operations waited for are performed, or not. -/
theorem counterWaits : Obligations.CounterWaits := by
  unfold Obligations.CounterWaits
  intro s e i x a b c d hi h e1
  have hx : exec i s = issue (reqOf i) (waitBody x) s := by
    rcases hi with ⟨rfl, rfl⟩ | ⟨rfl, rfl⟩
    · exact exec_wait a b c d s
    · exact exec_waitx a b c s
  exact ⟨fun hm => wait_ends h hx (Env.waited_met hm) hm, fun hm => wait_ends_acquiring h hx (Env.waited_met hm) hm,
    fun hm => wait_ends h hx (Env.waited_unmet hm), fun hm => wait_ends_acquiring h hx (Env.waited_unmet hm),
    fun hm => wait_waits h hx (Env.waited_unmet hm)⟩

end Sys2Proof.Machine
end

section
/-! A write at a home slice (O60). -/

namespace Sys2Proof.Machine

/-- A machine whose device memory reaches past the kick window. -/
def vast : State := Tests.base.modDev (fun d => { d with memSize := 2 ^ 46 })

/-- Refutes O60: a write to the kick window stores nothing (R377), and `vast` has memory there. -/
theorem not_homeWrites : ¬ Obligations.HomeWrites := by
  unfold Obligations.HomeWrites
  intro h
  obtain ⟨-, -, hbytes, -⟩ := h vast .host none kickBase kickBase [1]
  have hread := hbytes (by decide +kernel) (by decide +kernel) (Nat.le_refl _) (by decide)
  exact absurd hread (by decide +kernel)

end Sys2Proof.Machine
end

section
/-! Waiting for a word (O21): with every page translated and permitted no lane faults, so that a `waita` comes to `Env.waitaIssue`, which
where no lane returns only puts the lanes to sleep. -/

namespace Sys2Proof.Machine

/-! ### The words that the lanes wait for -/

/-- The element of a lane of `waita` (R213). -/
def waitaEls (e : Env) (a : BitVec 6) (l : Nat) : List LaneEl := [rawEl (e.look l) pteR 4 (e.t.lane64 a.toNat l).toNat]

/-- The memory words under the elements of some lanes. -/
def elWords (ys : List (Nat × List LaneEl)) : List Nat :=
  ys.flatMap (fun y => y.2.flatMap (fun x => match x.cls with | .good tr => wordsOf (tr.pa x.va) 4 | _ => []))

/-- What the lanes of `ys`, whose operands stand in `e`, find in the machine `e1`. -/
def waitaLanes (e e1 : Env) (d b : BitVec 6) (ys : List (Nat × List LaneEl)) : List WaitaLane :=
  ys.flatMap (fun y => y.2.map (fun x =>
    { lane := y.1, va := x.va, pa := (match x.cls with | .good tr => tr.pa x.va | _ => 0), exp := e.t.lane d.toNat y.1, time := e.t.lane64 b.toNat y.1,
      read := e1.waitaRead x, gone := (match x.cls with | .good _ => false | _ => true), tr := x.trans }))

/-- The strand `e0` with its own accesses in flight to the words of `ys` performed (R179). -/
def Env.waitaPerformed (e0 : Env) (ys : List (Nat × List LaneEl)) : Env := e0.performAll (conflicting e0.t.inflight.reverse (elWords ys))

/-- R213: with every word read and no lane that faults, some lanes return and the others wait. -/
theorem waita_moves {s : State} {e : Env} {d a b : BitVec 6} {p g : BitVec 3} (h : Starts s e (.waita d a b p g)) {m : Mask}
    (hmask : maskFor (.waita d a b p g) e = m) (hm : m ≠ 0) (hheld : ∀ w, e.t.waita = some w → w.pc ≠ e.t.fetchPc)
    (hc : Clear m (waitaEls e a)) {ys : List (Nat × List LaneEl)} (hys : acting m (waitaEls e a) = ys) {e1 : Env}
    (he1 : (e.keepLast ys).waitaPerformed ys = e1) (hr : ∀ w ∈ waitaLanes e e1 d b ys, w.read.isSome = true) :
    Moves s (.waita d a b p g) (e1.waitaIssue (waitaLanes e e1 d b ys) d.toNat p.toNat e.t.group) := by
  have hfaults : (lanesOf m).filter (fun l => (waitaEls e a l).any (fun x => x.cls = .refused)) = [] := by
    rw [List.filter_eq_nil_iff]
    intro l hl
    rw [Bool.not_eq_true, List.any_eq_false]
    intro x hx
    obtain ⟨tr, hcls | hcls⟩ := hc l hl x hx <;> simp [hcls]
  have hbad : (waitaLanes e e1 d b ys).filter (fun w => w.read.isNone) = [] := by
    rw [List.filter_eq_nil_iff]
    intro w hw
    simp [Option.isSome_iff_ne_none.mp (hr w hw)]
  refine moves_of h rfl ?_
  rw [hmask]
  refine (if_neg hm).trans ?_
  split
  case' h_1 v hv => rw [if_neg (hheld v hv)]
  all_goals
    refine (Env.access_clear e kindRead m (waitaEls e a) _ hc).trans ?_
    rw [hys]
    refine (if_neg hm).trans ?_
    subst he1
    split
    next w ws heq => exact absurd (hbad.symm.trans heq) (List.cons_ne_nil w ws).symm
    next =>
      split
      next => rfl
      next l ls heq => exact absurd (hfaults.symm.trans heq) (List.cons_ne_nil l ls).symm

/-! ### Lanes that wait -/

/-- What a lane of `waita` that does not return waits for (R213). -/
def Env.waitaSleep (e : Env) (vd pd : Nat) (w : WaitaLane) : Wait :=
  .waita w.pa w.exp w.time vd pd { pc := (e.t.thread w.lane).pc, va := w.va, tr := w.tr }

/-- One such lane put to sleep. -/
def Env.sleepLane (e : Env) (vd pd : Nat) (t : Strand) (w : WaitaLane) : Strand :=
  t.modThread w.lane (fun x => { x with state := .waiting (e.waitaSleep vd pd w) })

/-- R213: where no lane returns, the group is at the next word, and the lanes wait. -/
theorem Env.waitaIssue_sleeps {e : Env} {ws : List WaitaLane} (h : ∀ w ∈ ws, w.returns e.s.clock = false) (vd pd : Nat) (past : Mask) :
    e.waitaIssue ws vd pd past = e.on (ws.foldl (e.sleepLane vd pd) (e.t.advance past (e.t.unit.words + 1))) := by
  have hnow : ws.filter (fun w => w.returns e.s.clock) = [] := List.filter_eq_nil_iff.mpr fun w hw => by simp [h w hw]
  have hlater : ws.filter (fun w => !w.returns e.s.clock) = ws := List.filter_eq_self.mpr fun w hw => by simp [h w hw]
  have hnone : maskOf (fun _ => false) = 0 := by decide
  simp only [Env.waitaIssue, hnow, hlater, hnone, List.any_nil, if_true, Strand.markAbsent_zero]
  rfl

theorem Env.sleepLane_regs (e : Env) (vd pd : Nat) (t : Strand) (w : WaitaLane) : (e.sleepLane vd pd t w).regs = t.regs := rfl

/-- Induction over a list by what is appended to it, as a fold over it goes. -/
theorem list_snoc_induction {α : Type} {motive : List α → Prop} (nil : motive []) (append_singleton : ∀ xs x, motive xs → motive (xs ++ [x]))
    (xs : List α) : motive xs := by
  rw [← List.reverse_reverse xs]
  induction xs.reverse with
  | nil => exact nil
  | cons y ys ih =>
    rw [List.reverse_cons]
    exact append_singleton _ _ ih

/-- Among lanes put to sleep one after another, each waits for a word of its own. -/
theorem Env.thread_sleepLanes (e : Env) (vd pd : Nat) (t : Strand) {ws : List WaitaLane} {l : Nat} (hl : l < 8) (h : ∃ w ∈ ws, w.lane = l) :
    ∃ w ∈ ws, w.lane = l ∧ ((ws.foldl (e.sleepLane vd pd) t).thread l).state = .waiting (e.waitaSleep vd pd w) := by
  induction ws using list_snoc_induction with
  | nil => simp at h
  | append_singleton ws v ih =>
    rw [List.foldl_append, List.foldl_cons, List.foldl_nil, Env.sleepLane, Strand.thread_modThread _ _ _ _ hl]
    by_cases hv : v.lane = l
    · exact ⟨v, by simp, hv, by rw [if_pos hv.symm]⟩
    · obtain ⟨w, hw, hwl⟩ : ∃ w ∈ ws, w.lane = l := by
        obtain ⟨w, hw, hwl⟩ := h
        rcases List.mem_append.mp hw with hw | hw
        · exact ⟨w, hw, hwl⟩
        · exact absurd (List.mem_singleton.mp hw ▸ hwl) hv
      obtain ⟨w, hw, hwl, hst⟩ := ih ⟨w, hw, hwl⟩
      exact ⟨w, List.mem_append_left _ hw, hwl, by rw [if_neg (Ne.symm hv)]; exact hst⟩

/-- Every acting lane looks at a word. -/
theorem exists_mem_waitaLanes (e e1 : Env) (d a b : BitVec 6) {m : Mask} {l : Nat} (hl : l < 8) (hm : laneOn m l = true) :
    ∃ w ∈ waitaLanes e e1 d b (acting m (waitaEls e a)), w.lane = l := by
  have hmem : l ∈ lanesOf m := List.mem_filter.mpr ⟨List.mem_range.mpr hl, hm⟩
  exact ⟨_, List.mem_flatMap.mpr ⟨(l, waitaEls e a l), List.mem_map_of_mem hmem, List.mem_map_of_mem List.mem_cons_self⟩, rfl⟩

/-- The lanes of a `waita` none of which returns wait, and the rest of the machine is as it was. -/
theorem waita_sleeps {s : State} {e e1 : Env} {i : Instr} {m past : Mask} {vd pd : Nat} {ws : List WaitaLane}
    (hmoves : Moves s i (e1.waitaIssue ws vd pd past)) (hs : e1.s = s) (hpages : PagesOnly e.t e1.t)
    (hlanes : ∀ l, l < 8 → laneOn m l = true → ∃ w ∈ ws, w.lane = l)
    (hwait : ∀ w ∈ ws, w.gone = false ∧ w.read = some w.exp ∧ s.clock.toNat ≤ w.time.toNat) :
    ∃ e2, Moves s i e2 ∧ e2.s = s ∧ e2.t.regs = e.t.regs ∧ ∀ l, l < 8 → laneOn m l = true → ∃ w ∈ ws, w.lane = l ∧
      (e2.t.thread l).state = .waiting (.waita w.pa w.exp w.time vd pd { pc := (e.t.thread l).pc, va := w.va, tr := w.tr }) := by
  have hlater : ∀ w ∈ ws, w.returns e1.s.clock = false := by
    intro w hw
    obtain ⟨hgone, hread, htime⟩ := hwait w hw
    simp only [WaitaLane.returns, hgone, hread, hs, Nat.not_lt.mpr htime, ne_eq, not_true_eq_false, decide_false, Bool.or_self]
  rw [Env.waitaIssue_sleeps hlater] at hmoves
  refine ⟨_, hmoves, hs, ?_, fun l hl hon => ?_⟩
  · refine (foldl_keeps (e1.sleepLane vd pd) Strand.regs (e1.sleepLane_regs vd pd) _ _).trans ?_
    rw [Strand.advance, hpages.rest]
    rfl
  · obtain ⟨w, hw, hwl, hst⟩ := e1.thread_sleepLanes vd pd (e1.t.advance past (e1.t.unit.words + 1)) hl (hlanes l hl hon)
    obtain ⟨_, hpc⟩ := hpages.threads l hl
    exact ⟨w, hw, hwl, hst.trans (by rw [Env.waitaSleep, hwl, hpc])⟩

/-- Settles O21: with nothing in flight the lanes that wait are all that `waita_moves` leaves. -/
theorem waitForWord : Obligations.WaitForWord := by
  unfold Obligations.WaitForWord
  intro s e d a b p g h i m els words e1 ws hheld hm hc hr
  have hys : (e.keepLast (acting m els)).t.inflight = e.t.inflight := by rw [(e.keepLast_strand _).rest]
  have he1 : (e.keepLast (acting m els)).waitaPerformed (acting m els) = e1 := by rw [Env.waitaPerformed, hys]; rfl
  have hmoves : Moves s i (e1.waitaIssue ws d.toNat p.toNat e.t.group) := waita_moves h rfl hm hheld hc rfl he1 hr
  refine ⟨hmoves, fun hnone hwait => ?_⟩
  have hkeep : e1 = e.keepLast (acting m els) := by rw [← he1, Env.waitaPerformed, hys, hnone]; rfl
  refine waita_sleeps hmoves (by rw [hkeep, Env.keepLast_s, h.machine]) (hkeep ▸ e.keepLast_strand _)
    (fun l => exists_mem_waitaLanes e e1 d a b) (h.machine ▸ hwait)

end Sys2Proof.Machine
end

section
/-! Lane accesses that meet a fault (R198): what the scan of the elements comes to when every translation is known, and what the word
does then. -/

namespace Sys2Proof.Machine

/-! ### Lanes of a mask -/

theorem mem_lanesOf {m : Mask} {l : Nat} : l ∈ lanesOf m ↔ l < 8 ∧ laneOn m l = true := by
  rw [lanesOf, List.mem_filter, show laneIds = List.range 8 from rfl, List.mem_range]

theorem laneOn_or (a b : Mask) (l : Nat) : laneOn (a ||| b) l = (laneOn a l || laneOn b l) := BitVec.getLsbD_or

theorem laneOn_and_not (a b : Mask) {l : Nat} (hl : l < 8) : laneOn (a &&& ~~~b) l = (laneOn a l && !laneOn b l) := by
  simp only [laneOn, BitVec.getLsbD_and, BitVec.getLsbD_not, hl, decide_true, Bool.true_and]

theorem laneOn_laneBit (k : Nat) {l : Nat} (hl : l < 8) : laneOn (laneBit k) l = decide (l = k) := laneOn_maskOf _ l hl

/-- The acting lanes that are left to a smaller mask. -/
theorem acting_filter_and_not (m r : Mask) (els : Nat → List LaneEl) :
    (acting m els).filter (fun x => laneOn (m &&& ~~~r) x.1) = acting (m &&& ~~~r) els := by
  simp only [acting, List.filter_map, lanesOf, List.filter_filter]
  congr 1
  refine List.filter_congr fun l hl => ?_
  simp only [Function.comp, laneOn_and_not m r (List.mem_range.mp hl)]
  cases laneOn m l <;> simp

@[simp] theorem acting_zero (els : Nat → List LaneEl) : acting 0 els = [] := by rw [acting, lanesOf_zero]; rfl

/-! ### The scan -/

/-- One element of a lane scanned. -/
def Scan.see (s : Scan) (z : Nat × LaneEl) : Scan :=
  match z.2.cls with
  | .need => s.add z.1 z.2.want .need
  | c => s.add z.1 z.2.va c

/-- The elements of some lanes, each with its lane. -/
def laneEls (xs : List (Nat × List LaneEl)) : List (Nat × LaneEl) := xs.flatMap (fun x => x.2.map (fun el => (x.1, el)))

theorem scanLanes_eq (xs : List (Nat × List LaneEl)) : scanLanes xs = (laneEls xs).foldl Scan.see .empty := by
  rw [laneEls, List.foldl_flatMap]
  simp only [List.foldl_map]
  rfl

/-- The lanes with an element of a class among scanned elements. -/
def lanesSeen (zs : List (Nat × LaneEl)) (c : ECls) : Mask := maskOf (fun l => zs.any (fun z => z.1 = l && z.2.cls = c))

/-- The refused elements among scanned ones. -/
def refusedEls (zs : List (Nat × LaneEl)) : List (Nat × LaneEl) := zs.filter (fun z => z.2.cls = .refused)

theorem lanesSeen_append (zs : List (Nat × LaneEl)) (z : Nat × LaneEl) (c : ECls) :
    lanesSeen (zs ++ [z]) c = if z.2.cls = c then lanesSeen zs c ||| laneBit z.1 else lanesSeen zs c := by
  refine mask_ext fun l hl => ?_
  by_cases hz : z.2.cls = c
  · simp only [lanesSeen, laneOn_maskOf, hl, List.any_append, List.any_cons, List.any_nil, hz, if_true, laneOn_or, laneOn_laneBit,
      decide_true, Bool.and_true, Bool.or_false, eq_comm]
  · simp only [lanesSeen, List.any_append, List.any_cons, List.any_nil, hz, if_false, decide_false, Bool.and_false, Bool.or_false]

/-- A lane is seen refused exactly when some element is. -/
theorem lanesSeen_refused_eq_zero {zs : List (Nat × LaneEl)} (hl : ∀ z ∈ zs, z.1 < 8) : lanesSeen zs .refused = 0 ↔ refusedEls zs = [] := by
  rw [lanesSeen, maskOf_eq_zero, refusedEls, List.filter_eq_nil_iff, List.any_eq_false]
  constructor
  · intro h z hz hc
    have := h z.1 (List.mem_range.mpr (hl z hz))
    rw [List.any_eq_true] at this
    exact this ⟨z, hz, by simpa using hc⟩
  · intro h l _ ha
    obtain ⟨z, hz, hc⟩ := List.any_eq_true.mp ha
    exact h z hz (Bool.and_eq_true_iff.mp hc).2

/-- R198: what a scan comes to when every translation is known. -/
theorem scan_known {zs : List (Nat × LaneEl)} (hl : ∀ z ∈ zs, z.1 < 8) (hn : ∀ z ∈ zs, z.2.cls ≠ .need) :
    (zs.foldl Scan.see .empty).needs = [] ∧ (zs.foldl Scan.see .empty).align = lanesSeen zs .misaligned
      ∧ (zs.foldl Scan.see .empty).fault = lanesSeen zs .refused
      ∧ (zs.foldl Scan.see .empty).faultVa = ((refusedEls zs).map (fun z => z.2.va)).headD 0 := by
  induction zs using list_snoc_induction with
  | nil => exact ⟨rfl, by decide, by decide, rfl⟩
  | append_singleton zs z ih =>
    have hl' : ∀ y ∈ zs, y.1 < 8 := fun y hy => hl y (List.mem_append_left _ hy)
    obtain ⟨hneeds, halign, hfault, hva⟩ := ih hl' (fun y hy => hn y (List.mem_append_left _ hy))
    have hz := hn z (List.mem_append_right _ List.mem_cons_self)
    have happ : refusedEls (zs ++ [z]) = refusedEls zs ++ refusedEls [z] := List.filter_append ..
    rw [List.foldl_append, List.foldl_cons, List.foldl_nil, lanesSeen_append, lanesSeen_append, happ, ← halign, ← hfault]
    generalize zs.foldl Scan.see .empty = sc at *
    cases hc : z.2.cls with
    | need => exact absurd hc hz
    | misaligned => simp [Scan.see, Scan.add, hc, hneeds, hva, refusedEls]
    | absent tr =>
      simp only [Scan.see, Scan.add, hc]
      split <;> simp [hneeds, hva, refusedEls, hc]
    | good tr =>
      simp only [Scan.see, Scan.add, hc]
      split <;> simp [hneeds, hva, refusedEls, hc]
    | refused =>
      have hzero := lanesSeen_refused_eq_zero hl'
      rw [← hfault] at hzero
      have hva' : (if sc.fault = 0 then z.2.va else sc.faultVa) = ((refusedEls zs ++ refusedEls [z]).map (fun z => z.2.va)).headD 0 := by
        cases hr : refusedEls zs with
        | nil => simp [hzero.mpr hr, refusedEls, hc]
        | cons y ys =>
          have hne : sc.fault ≠ 0 := fun h0 => List.cons_ne_nil y ys (hr.symm.trans (hzero.mp h0))
          rw [if_neg hne, hva, hr]
          rfl
      simpa [Scan.see, Scan.add, hc, hneeds] using hva'

/-- The elements of the acting lanes, lane by lane. -/
theorem mem_laneEls_acting {m : Mask} {els : Nat → List LaneEl} {z : Nat × LaneEl} :
    z ∈ laneEls (acting m els) ↔ z.1 ∈ lanesOf m ∧ z.2 ∈ els z.1 := by
  obtain ⟨l, x⟩ := z
  simp only [laneEls, acting, List.mem_flatMap, List.mem_map, Prod.mk.injEq]
  constructor
  · rintro ⟨_, ⟨k, hk, rfl⟩, y, hy, rfl, rfl⟩
    exact ⟨hk, hy⟩
  · rintro ⟨hl, hx⟩
    exact ⟨_, ⟨l, hl, rfl⟩, x, hx, rfl, rfl⟩

theorem lanesSeen_acting (m : Mask) (els : Nat → List LaneEl) (c : ECls) : lanesSeen (laneEls (acting m els)) c = lanesWith m els c := by
  refine mask_ext fun l hl => ?_
  simp only [lanesSeen, lanesWith, laneOn_maskOf, hl]
  rw [Bool.eq_iff_iff]
  simp only [List.any_eq_true, mem_laneEls_acting, mem_lanesOf, Bool.and_eq_true, decide_eq_true_eq]
  constructor
  · rintro ⟨⟨_, x⟩, ⟨⟨-, hon⟩, hx⟩, rfl, hc⟩
    exact ⟨hon, x, hx, hc⟩
  · rintro ⟨hon, x, hx, hc⟩
    exact ⟨(l, x), ⟨⟨hl, hon⟩, hx⟩, rfl, hc⟩

theorem refusedEls_acting (m : Mask) (els : Nat → List LaneEl) :
    ((refusedEls (laneEls (acting m els))).map (fun z => z.2.va)).headD 0 = firstRefused m els := by
  simp only [firstRefused, refusedEls, laneEls, acting, List.flatMap_map, List.filter_flatMap, List.map_flatMap, List.filter_map,
    List.map_map, Function.comp_def]

section
variable {e : Env} {kind : BitVec 5} {m : Mask} {els : Nat → List LaneEl} {go : Env → Mask → List (Nat × List LaneEl) → Res}
  (hn : ∀ l ∈ lanesOf m, ∀ x ∈ els l, x.cls ≠ .need)
include hn

/-- R198: the scan of the acting lanes when every translation is known. -/
theorem scanLanes_known : (scanLanes (acting m els)).needs = [] ∧ (scanLanes (acting m els)).align = lanesWith m els .misaligned
    ∧ (scanLanes (acting m els)).fault = lanesWith m els .refused
    ∧ (scanLanes (acting m els)).faultVa = firstRefused m els := by
  have := scan_known (zs := laneEls (acting m els)) (fun z hz => (mem_lanesOf.mp (mem_laneEls_acting.mp hz).1).1)
    (fun z hz => hn z.1 (mem_laneEls_acting.mp hz).1 z.2 (mem_laneEls_acting.mp hz).2)
  rwa [lanesSeen_acting, lanesSeen_acting, refusedEls_acting, ← scanLanes_eq] at this

/-- R198, R199: a misaligned element traps before anything is performed. -/
theorem Env.access_misaligned (hmis : lanesWith m els .misaligned ≠ 0) :
    e.access kind m els go = .trap e (.plain cALIGN (lanesWith m els .misaligned)) false := by
  obtain ⟨hneeds, halign, -, -⟩ := scanLanes_known hn
  unfold acting at hneeds halign
  simp only [Env.access, hneeds, halign, hmis, List.isEmpty_nil, Bool.not_true, Bool.false_eq_true, if_false, ne_eq, not_false_eq_true,
    if_true]

/-- R198: where elements are refused the other lanes perform, and then the lanes with a refused element trap. -/
theorem Env.access_refused (hmis : lanesWith m els .misaligned = 0) (href : lanesWith m els .refused ≠ 0) {rest : Mask}
    (hrest : m &&& ~~~lanesWith m els .refused = rest) {e1 : Env} (hgo : go (e.keepLast (acting rest els)) rest (acting rest els) = .done e1) :
    e.access kind m els go = .trap e1 (.at cPERM (lanesWith m els .refused) (firstRefused m els)) (rest ≠ 0) := by
  obtain ⟨hneeds, halign, hfault, hva⟩ := scanLanes_known hn
  have hfilter := acting_filter_and_not m (lanesWith m els .refused) els
  rw [hrest] at hfilter
  unfold acting at hneeds halign hfault hva hfilter hgo
  simp only [Env.access, hneeds, halign, hmis, hfault, hva, hrest, hfilter, hgo, href, List.isEmpty_nil, Bool.not_true, Bool.false_eq_true,
    if_false, ne_eq, not_true_eq_false]

end

@[simp] theorem Env.keepLast_nil (e : Env) : e.keepLast [] = e := rfl

/-- R198: a lane access traps as `AccessTraps` says when what it performs for some lanes is `performed`, and nothing for none. -/
theorem accessTraps_of {s : State} {e : Env} {i : Instr} (h : Starts s e i) {body : Env → Mask → Res} (hx : exec i s = issue (reqOf i) body s)
    {kind : BitVec 5} {m : Mask} {els : Nat → List LaneEl} {go : Env → Mask → List (Nat × List LaneEl) → Res}
    (hb : body e (maskFor i e) = e.access kind m els go) {room : Prop} {performed : Mask → Env}
    (hnone : go e 0 [] = .done e)
    (hgo : room → ∀ k, k ≠ 0 → go (e.keepLast (acting k els)) k (acting k els) = .done (performed k)) :
    AccessTraps s e i m els room performed := by
  intro hn
  refine ⟨fun hmis => traps_of h hx (hb.trans (Env.access_misaligned hn hmis)), fun hmis href hroom => traps_of h hx ?_⟩
  generalize hrest : m &&& ~~~lanesWith m els .refused = rest
  refine hb.trans (Env.access_refused hn hmis href hrest ?_)
  by_cases hr : rest = 0
  · rw [if_pos hr, hr, acting_zero, Env.keepLast_nil, hnone]
  · rw [if_neg hr]
    exact hgo hroom rest hr

end Sys2Proof.Machine
end

section
/-! Atomics (O18): an atomic is a lane access whose release half comes before the lanes' operations and whose acquire half after them;
and what one lane's operation does to memory. -/

namespace Sys2Proof.Machine

/-! ### Issuing (R208, R209) -/

/-- What an atomic does for the lanes that its access leaves it. -/
def atomicGo (acq rel : Bool) (dsts : List Nat) (lane : LaneEl → Nat → LaneAcc) (srcs : List Nat) (kind : List LaneAcc → OpKind)
    (e : Env) (perf : Mask) (ys : List (Nat × List LaneEl)) : Res :=
  if perf = 0 then .done e
  else
    match (if rel then e.release else e).startMem .ld dsts (kind (ys.flatMap (fun y => y.2.map (fun x => lane x y.1)))) acq srcs with
    | .done e2 => .done (if acq then e2.acquire else e2)
    | x => x

theorem Env.atomic_access (e : Env) {m : Mask} (hm : m ≠ 0) (n a : Nat) (acq rel : Bool) (dsts : List Nat) (lane : LaneEl → Nat → LaneAcc)
    (srcs : List Nat) (kind : List LaneAcc → OpKind) : e.atomic m n a acq rel dsts lane srcs kind
      = e.access kindAtomic m (fun l => [rawEl (e.look l) pteRWA n (e.t.lane64 a l).toNat]) (atomicGo acq rel dsts lane srcs kind) := if_neg hm

/-- R209: with room on the counter the operation is in flight after the release half, and with an acquire half it is performed before that. -/
theorem atomicGo_room {acq rel : Bool} {dsts srcs : List Nat} {lane : LaneEl → Nat → LaneAcc} {kind : List LaneAcc → OpKind} {e e1 : Env}
    {k : Mask} {ys : List (Nat × List LaneEl)} (hk : k ≠ 0) (he : (if rel then e.release else e) = e1) (hf : e1.t.full .ld = false)
    {accs : List LaneAcc} (ha : ys.flatMap (fun y => y.2.map (fun x => lane x y.1)) = accs) :
    atomicGo acq rel dsts lane srcs kind e k ys = .done (if acq then ((e1.inFlight .ld dsts none (kind accs) srcs).performOp e1.t.nextOp).acquire
      else e1.inFlight .ld dsts none (kind accs) srcs) := by
  rw [atomicGo, if_neg hk, he, ha, Env.startMem_room _ _ _ _ _ _ hf]
  cases acq <;> rfl

/-- The element of a lane of an atomic. -/
def atomEl (e : Env) (wide : Bool) (a : BitVec 6) (l : Nat) : LaneEl :=
  rawEl (e.look l) pteRWA (if wide then 8 else 4) (e.t.lane64 a.toNat l).toNat

/-- R198, R208, R209: an atomic word, whose body is `Env.atomic` on its operands. -/
theorem atomicIssues_of {s : State} {e : Env} {i : Instr} {body : Env → Mask → Res} (hx : exec i s = issue (reqOf i) body s)
    {wide acq rel : Bool} {a : BitVec 6} {kind : List LaneAcc → OpKind} {x y : Nat → DWord} {dsts srcs : List Nat}
    (hb : body e (maskFor i e) = e.atomic (maskFor i e) (if wide then 8 else 4) a.toNat acq rel dsts (fun el l => el.acc l (x l) (y l)) srcs kind) :
    AtomicIssues s e i wide acq rel a kind x y dsts srcs := by
  intro h hm
  have hb' := hb.trans (e.atomic_access hm ..)
  have hgo {k : Mask} (hk : k ≠ 0) :=
    atomicGo_room (acq := acq) (rel := rel) (dsts := dsts) (srcs := srcs) (lane := fun el l => el.acc l (x l) (y l)) (kind := kind)
      (e := e.keepLast (acting k (fun l => [atomEl e wide a l]))) hk rfl (ha := acting_accs k (atomEl e wide a) x y)
  exact ⟨fun hc hf => ends_of h hx (hb'.trans ((Env.access_clear _ _ _ _ _ hc).trans (hgo hm hf))),
    accessTraps_of h hx hb' rfl (fun hf k hk => hgo hk (hf k))⟩

/-! ### A byte string as a number (R6) -/

theorem leBytes_length (n x : Nat) : (leBytes n x).length = n := by
  induction n generalizing x with
  | zero => rfl
  | succ n ih => simp only [leBytes, List.length_cons, ih]

theorem leBytes_leNat (bs : List Byte) : leBytes bs.length (leNat bs) = bs := by
  induction bs with
  | nil => rfl
  | cons b bs ih =>
    have hlow : BitVec.ofNat 8 (leNat (b :: bs)) = b := by
      apply BitVec.eq_of_toNat_eq
      have := b.isLt
      simp only [leNat, BitVec.toNat_ofNat]
      omega
    have hhigh : leNat (b :: bs) / 256 = leNat bs := by
      have := b.isLt
      simp only [leNat]
      omega
    rw [List.length_cons, leBytes, hlow, hhigh, ih]

theorem State.peekBytes_there {s : State} {pa : Nat} (n : Nat) (h : s.hasMemory pa = true) : s.peekBytes pa n = Memory.readBytes s.mem pa n :=
  if_pos h

/-- The bytes of what is read are what stands there. -/
theorem State.leBytes_peek {s : State} {pa : Nat} (n : Nat) (h : s.hasMemory pa = true) : leBytes n (s.peek pa n) = Memory.readBytes s.mem pa n := by
  have hlen : (Memory.readBytes s.mem pa n).length = n := by rw [Memory.readBytes, List.length_map, List.length_range]
  have hround := leBytes_leNat (Memory.readBytes s.mem pa n)
  rw [hlen] at hround
  rw [State.peek, State.peekBytes_there n h, hround]

theorem Memory.getD_readBytes (m : Memory) (a : Nat) {n i : Nat} (h : i < n) : (Memory.readBytes m a n).getD i 0 = Memory.readByte m (a + i) := by
  rw [Memory.readBytes, List.getD_eq_getElem?_getD, List.getElem?_map, List.getElem?_range h]
  rfl

/-! ### One lane's operation (R208) -/

/-- A value stored: its bytes stand at their addresses, and every other byte is as it was. -/
structure Stores (m m' : Memory) (pa n v : Nat) : Prop where
  wf    : m'.wf = true
  bytes : ∀ b, Memory.readByte m' b = if pa ≤ b ∧ b < pa + n then (leBytes n v).getD (b - pa) 0 else Memory.readByte m b

theorem stores_writeBytes {m : Memory} (hwf : m.wf = true) (pa n v : Nat) : Stores m (Memory.writeBytes m pa (leBytes n v)) pa n v :=
  ⟨Memory.writeBytes_wf pa _ hwf, fun b => by rw [Memory.readByte_writeBytes pa b _ hwf, leBytes_length]⟩

/-- A value that stands there already is stored by leaving memory as it is (R178). -/
theorem stores_peek {s : State} (hwf : s.mem.wf = true) {pa : Nat} (n : Nat) (h : s.hasMemory pa = true) : Stores s.mem s.mem pa n (s.peek pa n) := by
  refine ⟨hwf, fun b => ?_⟩
  split
  next hb =>
    rw [State.leBytes_peek n h, Memory.getD_readBytes _ _ (by omega)]
    congr 1
    omega
  next => rfl

theorem State.hasMemory_congr {s t : State} (h : s.dev = t.dev) (pa : Nat) : s.hasMemory pa = t.hasMemory pa := by
  rw [State.hasMemory, State.hasMemory, h]

/-- R208: a lane's read-modify-write gives the old word and stores the new one. -/
theorem State.rmw_stores {s : State} {k : Nat} {ctx : Option Nat} {pa n : Nat} {f : Nat → Nat} (hwf : s.mem.wf = true)
    (hk : inKick pa = false) (hm : s.hasMemory pa = true) (hb : s.bad pa n = false) :
    (s.rmw (.core k) (some k) ctx pa n f).1 = some (s.peek pa n)
      ∧ Stores s.mem (s.rmw (.core k) (some k) ctx pa n f).2.mem pa n (f (s.peek pa n)) := by
  rw [State.rmw, if_neg (ne_true_of_eq_false hb)]
  refine ⟨rfl, ?_⟩
  dsimp only
  generalize hs1 : (wordsOf pa n).foldl (fun st wd => st.modCore k (fun co => co.dropWord wd)) s = s1
  have hstored : s1.stored = s.stored := by
    rw [← hs1]
    exact foldl_keeps (fun st wd => State.modCore st k (fun co => co.dropWord wd)) State.stored (fun _ _ => rfl) _ _
  have hmem : s1.mem = s.mem := congrArg Prod.fst hstored
  have hdev : s1.dev = s.dev := congrArg (fun x => x.2.2.2) hstored
  split
  next hsame =>
    rw [Bool.and_eq_true, decide_eq_true_eq] at hsame
    rw [hmem, hsame.1]
    exact stores_peek hwf n hm
  next =>
    rw [State.homeWrite_mem _ _ _ _ _ hk, State.hasMemory_congr hdev, if_pos hm, hmem]
    exact stores_writeBytes hwf pa n _

@[simp] theorem Env.reload_s (e : Env) (s : State) : (e.reload s).s = s := by
  unfold Env.reload
  split
  · split <;> rfl
  · rfl

/-- What arrives in registers leaves memory as it is. -/
theorem Env.arrive_mem (e : Env) (id vd : Nat) (wide uni : Bool) (pc : VAddr) (range : Option (Nat × Nat)) (acc : LoadAcc) :
    (e.arrive id vd wide uni pc none range acc).s.mem = e.s.mem := by
  change (e.puts true _).s.mem = e.s.mem
  rw [(Env.puts_computed e true _).rest]

section
variable {e : Env} {p : Pending} {k vd : Nat} (hin : e.t.inflight = [p]) (hd : p.done = false) {ys : List LaneAcc} (hk : p.kind = .atom k vd ys)
include hin hd hk

/-- An atomic that is alone in flight waits for no other operation. -/
theorem Env.performAny_lone : e.performAny p = e.performMem p := by
  have hfind : e.t.inflight.find? (fun q => q.id = p.id && q.isMem && !q.done) = some p := by
    simp [hin, Pending.isMem, hk, hd]
  have holder : e.t.inflight.filter (fun q => q.id < p.id) = [] := by simp [hin]
  simp only [Env.performAny, hd, hk, Bool.false_eq_true, if_false]
  simp only [Env.performOp, hfind, holder]
  rfl
end

/-- R208: the memory that an atomic of one lane leaves. -/
theorem Env.performMem_atom_stores {e : Env} {p : Pending} {k vd : Nat} {y : LaneAcc} (hk : p.kind = .atom k vd [y]) (hwf : e.s.mem.wf = true)
    (habs : y.absent = false) (hpa : y.pa < kickBase) (hm : e.s.hasMemory y.pa = true) (hb : e.s.bad y.pa (if atomWide k then 8 else 4) = false) :
    Stores e.s.mem (e.performMem p).commit.mem y.pa (if atomWide k then 8 else 4)
      (atomNew k (e.s.peek y.pa (if atomWide k then 8 else 4)) y.a.toNat) := by
  have hkick : inKick y.pa = false := by simp [inKick, Nat.not_le.mpr hpa]
  have hhost : ¬ hostBase ≤ y.pa := by unfold hostBase; unfold kickBase at hpa; omega
  obtain ⟨hold, hst⟩ := State.rmw_stores (s := e.commit) (k := e.c.core) (ctx := some e.c.ctx) (f := fun old => atomNew k old y.a.toNat)
    hwf hkick hm hb
  simp only [Env.performMem, hk, atomAccs, habs, hkick, Bool.false_eq_true, if_false]
  generalize e.commit.rmw _ _ _ _ _ _ = r at *
  obtain ⟨old, s1⟩ := r
  dsimp only at hold
  subst hold
  simp only [hhost, if_false]
  change Stores _ (Env.arrive _ _ _ _ _ _ _ _ _).s.mem _ _ _
  rw [Env.arrive_mem, Env.reload_s]
  exact hst

/-! ### The words -/

/-- Settles O18: an atomic word is `Env.atomic` on its operands, and one of a lane stores its new value. -/
theorem atomicsAndOrdering : Obligations.AtomicsAndOrdering := by
  unfold Obligations.AtomicsAndOrdering
  intro s e d a b f g o w x op ds
  refine ⟨atomicIssues_of rfl rfl, atomicIssues_of rfl rfl, atomicIssues_of rfl rfl, atomicIssues_of rfl rfl, atomicIssues_of rfl ?cas,
    fun h => ends_of h rfl rfl, fun h => ends_of h rfl rfl, fun h => ends_of h rfl rfl, ?performed⟩
  case cas =>
    simp only [decide_eq_true_eq]
  case performed =>
    intro c n k vd p y he hc hin hctr hd hk hwf habs hpa hm n8 hb
    obtain ⟨rfl, -, -⟩ := State.env?_spec he
    have hfind : e.t.inflight.find? (fun q => q.id = p.id && q.ctr = .ld && !q.done) = some p := by simp [hin, hctr, hd]
    have hst := Env.performMem_atom_stores hk hwf habs hpa hm hb
    have hx : exec (.loadValueArrival c n p.id) e.s = .next (e.performMem p).commit := by
      rw [← Env.performAny_lone hin hd hk]
      exact congrArg Host.Outcome.next (State.completeOp_pending he hc hfind)
    refine ⟨_, hx, hst.wf, fun b hb => ?_, fun j hj => ?_⟩
    · rw [hst.bytes, if_neg (by omega)]
    · rw [hst.bytes, if_pos (by omega), Nat.add_sub_cancel_left]

end Sys2Proof.Machine
end

section
/-! `txb`, `txc` and `txa` (O19): what a commit comes to in the acting lanes, and in one acting lane. -/

namespace Sys2Proof.Machine

/-! ### One lane of a mask -/

theorem lanesOf_laneBit {l : Nat} (hl : l < 8) : lanesOf (laneBit l) = [l] := by
  revert l
  decide

/-- Threads of one lane are one thread. -/
theorem Strand.modThreads_laneBit (t : Strand) {l : Nat} (hl : l < 8) (f : Nat → Thread → Thread) :
    t.modThreads (laneBit l) f = t.modThread l (f l) := by
  have hthreads : t.threads.mapi (fun k x => if laneOn (laneBit l) k then f k x else x) = t.threads.mapi (fun k x => if k = l then f l x else x) := by
    refine L8.ext_get fun k hk => ?_
    rw [L8.get_mapi _ _ k hk, L8.get_mapi _ _ k hk, laneOn_laneBit l hk]
    by_cases h : k = l
    · subst h
      simp
    · simp [h]
  exact congrArg (fun ts => ({ t with threads := ts } : Strand)) hthreads

/-- Threads that a change leaves as they are. -/
theorem Strand.modThreads_same {t : Strand} {m : Mask} {f : Nat → Thread → Thread}
    (h : ∀ l, l < 8 → laneOn m l = true → f l (t.thread l) = t.thread l) :
    t.modThreads m f = t := by
  have hthreads : t.threads.mapi (fun k x => if laneOn m k then f k x else x) = t.threads := by
    refine L8.ext_get fun k hk => ?_
    rw [L8.get_mapi _ _ k hk]
    split
    next hon => exact h k hk hon
    next => rfl
  exact congrArg (fun ts => ({ t with threads := ts } : Strand)) hthreads

theorem mask_and_not_zero (m : Mask) : m &&& ~~~0 = m := mask_ext fun l hl => by rw [laneOn_and_not _ _ hl, laneOn_zero, Bool.not_false, Bool.and_true]

/-- No bit of a predicate changes under an empty mask. -/
theorem Strand.mergePred_none (t : Strand) (p : Nat) (v : Mask) : t.mergePred p 0 v = t := by
  unfold Strand.mergePred Strand.setPred
  split
  · rfl
  next h0 =>
    have hpreds : t.preds.set p ((t.pred p &&& ~~~0) ||| (v &&& 0)) = t.preds := by
      refine L8.ext_get fun q hq => ?_
      rw [mask_and_not_zero, show t.pred p ||| v &&& 0 = t.pred p by simp, L8.set, L8.get_mapi _ _ q hq, Strand.pred, if_neg h0]
      split
      next h => rw [h]
      next => rfl
    rw [hpreds]

/-! ### The parts of a commit (R194) -/

/-- A lane's transaction set. -/
def Env.setTx (e : Env) (l : Nat) (y : Tx) : Env := e.on (e.t.modThread l (fun th => { th with tx := y }))

theorem Env.setTx_tx (e : Env) (l : Nat) (y : Tx) {k : Nat} (hk : k < 8) : ((e.setTx l y).t.thread k).tx = if k = l then y else (e.t.thread k).tx := by
  rw [Env.setTx, Env.on, Strand.thread_modThread _ _ _ k hk]
  split <;> rfl

/-- The lanes that commit or abort: those whose transactions are ACTIVE. -/
def Env.liveLanes (e0 : Env) (m : Mask) : List Nat := (lanesOf m).filter (fun l => (e0.t.thread l).tx.active)

/-- Doomed lanes take their codes. -/
def Env.endDoomed (e0 : Env) (m : Mask) : Env :=
  e0.on (e0.t.modThreads m (fun _ x => if x.tx.doomed then { x with tx := x.tx.endWith x.tx.state } else x))

/-- The live lanes below `l`, with the transactions they came with. -/
def Env.lowerTxs (e0 : Env) (m : Mask) (l : Nat) : List Tx := ((e0.liveLanes m).filter (fun k => decide (k < l))).map (fun k => (e0.t.thread k).tx)

/-- The outcomes of the lanes of `ls` in turn. -/
def Env.commitLanes (e0 : Env) (m : Mask) (ls : List Nat) (e : Env) : Env :=
  ls.foldl (fun e l => e.commitLane (e0.lowerTxs m l) (laneOn e0.t.locked l) l) e

/-- Every lane has its outcome. -/
def Env.txcDecided (e0 : Env) (m : Mask) : Env := e0.commitLanes m (e0.liveLanes m) (e0.endDoomed m)

/-- The live lanes that have read an uncorrectable word. -/
def Env.stuckLanes (e0 : Env) (m : Mask) : List Nat := (e0.liveLanes m).filter (fun l => ((e0.txcDecided m).t.thread l).tx.active)

/-- Whether a lane's commit succeeded. -/
def Env.txcOk (e0 : Env) (m : Mask) (l : Nat) : Bool := (e0.liveLanes m).contains l && ((e0.txcDecided m).t.thread l).tx.state = 0

/-- The predicate written and the lanes' locks given up. -/
def Env.txcClosed (e2 : Env) (p : Nat) (out : Mask) (ok : Nat → Bool) (locked : Mask) : Env :=
  (e2.putPred out p ok).on { (e2.putPred out p ok).t with locked := locked &&& ~~~out }

/-- `txc` once the strand's earlier memory operations are performed. -/
def Env.txcOut (e0 : Env) (ctx p : Nat) (m : Mask) : Res :=
  let out := m &&& ~~~maskOf (fun l => (e0.stuckLanes m).contains l)
  let e3 := ((e0.txcDecided m).txcClosed p out (e0.txcOk m) e0.t.locked).fence
  match (e0.stuckLanes m).flatMap (fun l => (e0.txcDecided m).s.badReads ((e0.txcDecided m).t.thread l).tx) with
  | [] => .done e3
  | r :: rs =>
    .trap (e3.via (fun s => s.consumeUes ctx false ((r :: rs).map (fun r => 4 * r.word))))
      (.at cECC (m &&& ~~~out) (rs.foldl (fun a r => min a r.va) r.va)) (out ≠ 0)

theorem exec_txc (p g : BitVec 3) (s : State) :
    exec (.txc p g) s = issue (reqOf (.txc p g)) (fun e m => e.drainMem.txcOut e.c.ctx p.toNat m) s := rfl

/-- A commit where no lane has read an uncorrectable word. -/
theorem Env.txcOut_done {e0 : Env} {m : Mask} (h : e0.stuckLanes m = []) (ctx p : Nat) :
    e0.txcOut ctx p m = .done ((e0.txcDecided m).txcClosed p m (e0.txcOk m) e0.t.locked).fence := by
  have hout : m &&& ~~~maskOf (fun l => (e0.stuckLanes m).contains l) = m := by
    rw [h, (maskOf_eq_zero _).mpr (by decide), mask_and_not_zero]
  unfold Env.txcOut
  dsimp only
  rw [hout, h]
  rfl

/-! ### One lane's outcome (R194) -/

/-- Whether a locked word keeps a transaction from committing. -/
def Tx.stopped (x : Tx) (locked : Bool) : Bool := locked && !x.prio && !(x.rset.isEmpty && x.wset.isEmpty)

theorem Tx.stopped_iff {x : Tx} {locked : Bool} : x.stopped locked = true ↔ locked = true ∧ x.prio = false ∧ ¬(x.rset = [] ∧ x.wset = []) := by
  simp only [Tx.stopped, Bool.and_eq_true, Bool.not_eq_true', List.isEmpty_iff, ← Bool.not_eq_true (_ && _), and_assoc]

section
variable {e : Env} {lower : List Tx} {locked : Bool} {l : Nat}

theorem Env.commitLane_conflict (h : lower.any (fun a => a.conflicts (e.t.thread l).tx) = true) :
    e.commitLane lower locked l = e.setTx l ((e.t.thread l).tx.endWith 4) := if_pos h

theorem Env.commitLane_stopped (h : lower.any (fun a => a.conflicts (e.t.thread l).tx) = false) (hs : (e.t.thread l).tx.stopped locked = true) :
    e.commitLane lower locked l = e.setTx l ((e.t.thread l).tx.endWith 6) := (if_neg (Bool.eq_false_iff.mp h)).trans (if_pos hs)

theorem Env.commitLane_bad (h : lower.any (fun a => a.conflicts (e.t.thread l).tx) = false) (hs : (e.t.thread l).tx.stopped locked = false)
    (hb : e.s.badReads (e.t.thread l).tx ≠ []) : e.commitLane lower locked l = e :=
  (if_neg (Bool.eq_false_iff.mp h)).trans ((if_neg (Bool.eq_false_iff.mp hs)).trans (if_pos (by simpa using hb)))

theorem Env.commitLane_sound (h : lower.any (fun a => a.conflicts (e.t.thread l).tx) = false) (hs : (e.t.thread l).tx.stopped locked = false)
    (hb : e.s.badReads (e.t.thread l).tx = []) :
    e.commitLane lower locked l = if e.s.validates (e.t.thread l).tx
      then (e.via (fun s => s.commitWrites e.c.core e.c.ctx (e.t.thread l).tx.wset)).setTx l Tx.committed
      else e.setTx l ((e.t.thread l).tx.endWith 5) :=
  (if_neg (Bool.eq_false_iff.mp h)).trans ((if_neg (Bool.eq_false_iff.mp hs)).trans (if_neg (by simp [hb])))

end

/-! ### A commit of one lane -/

theorem Tx.doomed_of_active {x : Tx} (h : x.active = true) : x.doomed = false := by
  obtain ⟨-, hstate⟩ := Bool.and_eq_true_iff.mp h
  rw [Tx.doomed, of_decide_eq_true hstate]
  simp

theorem Env.liveLanes_laneBit (e0 : Env) {l : Nat} (hl : l < 8) : e0.liveLanes (laneBit l) = if (e0.t.thread l).tx.active then [l] else [] := by
  rw [Env.liveLanes, lanesOf_laneBit hl, List.filter_cons, List.filter_nil]

/-- Where no acting lane is doomed none ends so. -/
theorem Env.endDoomed_same {e0 : Env} {m : Mask} (h : ∀ l, l < 8 → laneOn m l = true → (e0.t.thread l).tx.doomed = false) : e0.endDoomed m = e0 := by
  rw [Env.endDoomed, Strand.modThreads_same fun l hl hon => by rw [h l hl hon, if_neg Bool.false_ne_true]]
  rfl

theorem Env.endDoomed_laneBit {e0 : Env} {l : Nat} (hl : l < 8) (h : (e0.t.thread l).tx.doomed = true) :
    e0.endDoomed (laneBit l) = e0.setTx l ((e0.t.thread l).tx.endWith (e0.t.thread l).tx.state) := by
  rw [Env.endDoomed, Strand.modThreads_laneBit _ hl]
  refine congrArg e0.on (congrArg (fun ts => ({ e0.t with threads := ts } : Strand)) (L8.ext_get fun k hk => ?_))
  rw [L8.get_mapi _ _ k hk, L8.get_mapi _ _ k hk]
  by_cases hkl : k = l
  · subst hkl
    rw [if_pos rfl, if_pos rfl]
    exact (if_pos h)
  · rw [if_neg hkl, if_neg hkl]

theorem Env.txcDecided_laneBit {e0 : Env} {l : Nat} (hl : l < 8) (h : (e0.t.thread l).tx.active = true) :
    e0.txcDecided (laneBit l) = e0.commitLane [] (laneOn e0.t.locked l) l := by
  have hsame : e0.endDoomed (laneBit l) = e0 := Env.endDoomed_same fun k hk hon => by
    rw [of_decide_eq_true ((laneOn_laneBit l hk).symm.trans hon)]
    exact Tx.doomed_of_active h
  have hlive : e0.liveLanes (laneBit l) = [l] := by rw [e0.liveLanes_laneBit hl, if_pos h]
  rw [Env.txcDecided, hsame, hlive, Env.commitLanes, List.foldl_cons, List.foldl_nil, Env.lowerTxs, hlive,
    List.filter_cons, List.filter_nil, if_neg (by simp)]
  rfl

/-- A commit of one lane that is not ACTIVE. -/
theorem Env.txcOut_idle {e0 : Env} {l : Nat} (hl : l < 8) (h : (e0.t.thread l).tx.active = false) (ctx p : Nat) :
    e0.txcOut ctx p (laneBit l) = .done ((e0.endDoomed (laneBit l)).txcClosed p (laneBit l) (fun k => decide (k = l) && false) e0.t.locked).fence := by
  have hlive : e0.liveLanes (laneBit l) = [] := by rw [e0.liveLanes_laneBit hl, h, if_neg Bool.false_ne_true]
  have hok : e0.txcOk (laneBit l) = fun k => decide (k = l) && false := funext fun k => by rw [Env.txcOk, hlive, Bool.and_false]; rfl
  rw [Env.txcOut_done (by rw [Env.stuckLanes, hlive]; rfl), hok, Env.txcDecided, hlive]
  rfl

/-- A commit of one lane that has an outcome. -/
theorem Env.txcOut_decided {e0 e1 : Env} {l : Nat} {y : Tx} (hl : l < 8) (h : (e0.t.thread l).tx.active = true)
    (hdec : e0.commitLane [] (laneOn e0.t.locked l) l = e1.setTx l y) (hy : y.begun = false) (ctx p : Nat) :
    e0.txcOut ctx p (laneBit l)
      = .done ((e1.setTx l y).txcClosed p (laneBit l) (fun k => decide (k = l) && decide (y.state = 0)) e0.t.locked).fence := by
  have hlive : e0.liveLanes (laneBit l) = [l] := by rw [e0.liveLanes_laneBit hl, if_pos h]
  have hdec := (Env.txcDecided_laneBit hl h).trans hdec
  have htx : ((e0.txcDecided (laneBit l)).t.thread l).tx = y := by rw [hdec, e1.setTx_tx l y hl, if_pos rfl]
  have hstuck : e0.stuckLanes (laneBit l) = [] := by
    rw [Env.stuckLanes, hlive, List.filter_cons, List.filter_nil, htx, Tx.active, hy]
    rfl
  have hok : e0.txcOk (laneBit l) = fun k => decide (k = l) && decide (y.state = 0) := funext fun k => by
    rw [Env.txcOk, hlive]
    by_cases hk : k = l
    · rw [hk, htx, decide_eq_true rfl, List.contains_cons, BEq.rfl, Bool.true_or]
    · simp [hk]
  rw [Env.txcOut_done hstuck, hok, hdec]

/-- A commit of one lane that has read an uncorrectable word. -/
theorem Env.txcOut_stuck {e0 : Env} {l : Nat} (hl : l < 8) (h : (e0.t.thread l).tx.active = true)
    (hdec : e0.commitLane [] (laneOn e0.t.locked l) l = e0) (hbad : e0.s.badReads (e0.t.thread l).tx ≠ []) (ctx p : Nat) :
    e0.txcOut ctx p (laneBit l)
      = .trap (e0.fence.via (fun s => s.consumeUes ctx false ((e0.s.badReads (e0.t.thread l).tx).map (fun r => 4 * r.word))))
          (.at cECC (laneBit l) (lowest ((e0.s.badReads (e0.t.thread l).tx).map TxRead.va))) false := by
  have hlive : e0.liveLanes (laneBit l) = [l] := by rw [e0.liveLanes_laneBit hl, if_pos h]
  have hdec := (Env.txcDecided_laneBit hl h).trans hdec
  have hstuck : e0.stuckLanes (laneBit l) = [l] := by rw [Env.stuckLanes, hlive, hdec, List.filter_cons, List.filter_nil, if_pos h]
  have hall : laneBit l &&& ~~~maskOf (fun k => [l].contains k) = 0 := mask_ext fun k hk => by
    rw [laneOn_and_not _ _ hk, laneOn_laneBit l hk, laneOn_maskOf _ k hk, laneOn_zero]
    by_cases hkl : k = l <;> simp [hkl]
  have hclosed : e0.txcClosed p 0 (e0.txcOk (laneBit l)) e0.t.locked = e0 := by
    rw [Env.txcClosed, Env.putPred, Strand.mergePred_none, mask_and_not_zero]
    rfl
  unfold Env.txcOut
  dsimp only
  rw [hstuck, hall, hdec, hclosed, mask_and_not_zero, List.flatMap_cons, List.flatMap_nil, List.append_nil]
  cases hr : e0.s.badReads (e0.t.thread l).tx with
  | nil => exact absurd hr hbad
  | cons r rs =>
    dsimp only
    rw [List.map_cons (f := TxRead.va), lowest, List.foldl_map]
    rfl

theorem Tx.active_of_open {x : Tx} (h : x.open = false) : x.active = false ∧ x.doomed = false := Bool.or_eq_false_iff.mp h

theorem Tx.active_of_doomed {x : Tx} (h : x.doomed = true) : x.active = false :=
  Bool.eq_false_iff.mpr fun hact => Bool.false_ne_true ((Tx.doomed_of_active hact).symm.trans h)

/-- Settles O19: `txb` and `txa` change the transactions of the acting lanes and nothing else; a commit of one lane is that lane's outcome,
its predicate bit and its locks, and a fence. -/
theorem transactions : Obligations.Transactions := by
  unfold Obligations.Transactions
  intro s e g p l
  dsimp only
  refine ⟨fun h => ends_of h rfl rfl, fun h => ends_of h rfl rfl, fun hl h hm => ?_⟩
  have hend {e1 : Env} {out : Res} (hout : e.drainMem.txcOut e.c.ctx p.toNat (laneBit l) = out) (hdone : out = .done e1) : Ends s (.txc p g) e1 :=
    ends_of h (exec_txc p g s) (by rw [hm]; exact hout.trans hdone)
  have hrun (hs : ¬(laneOn e.drainMem.t.locked l = true ∧ (e.drainMem.t.thread l).tx.prio = false
      ∧ ¬((e.drainMem.t.thread l).tx.rset = [] ∧ (e.drainMem.t.thread l).tx.wset = []))) :
      (e.drainMem.t.thread l).tx.stopped (laneOn e.drainMem.t.locked l) = false := Bool.eq_false_iff.mpr fun h => hs (Tx.stopped_iff.mp h)
  refine ⟨fun hopen => ?notOpen, fun hdoomed => ?doomed, fun hact hs => ?stopped, fun hact hs hbad => ?bad, fun hact hs hbad hval => ?changed,
    fun hact hs hbad hval => ?commits⟩
  case notOpen =>
    obtain ⟨hidle, hsound⟩ := Tx.active_of_open hopen
    have hsame : e.drainMem.endDoomed (laneBit l) = e.drainMem := Env.endDoomed_same fun k hk hon => by
      rw [of_decide_eq_true ((laneOn_laneBit l hk).symm.trans hon), hsound]
    exact hend (Env.txcOut_idle hl hidle ..) (by rw [hsame]; rfl)
  case doomed => exact hend (Env.txcOut_idle hl (Tx.active_of_doomed hdoomed) ..) (by rw [Env.endDoomed_laneBit hl hdoomed]; rfl)
  case stopped => exact hend (Env.txcOut_decided hl hact (Env.commitLane_stopped rfl (Tx.stopped_iff.mpr hs)) rfl ..) rfl
  case bad =>
    exact traps_of h (exec_txc p g s) (by rw [hm]; exact Env.txcOut_stuck hl hact (Env.commitLane_bad rfl (hrun hs) hbad) hbad ..)
  case changed =>
    have hdec := Env.commitLane_sound (lower := []) rfl (hrun hs) hbad
    rw [hval, if_neg Bool.false_ne_true] at hdec
    exact hend (Env.txcOut_decided hl hact hdec rfl ..) rfl
  case commits =>
    have hdec := Env.commitLane_sound (lower := []) rfl (hrun hs) hbad
    rw [hval, if_pos rfl] at hdec
    exact hend (Env.txcOut_decided hl hact hdec rfl ..) rfl

end Sys2Proof.Machine
end

section
/-! What writes at home slices leave of the machine around them: the device, the errors of memory, and the transactions of waiting
lanes that they wake. -/

namespace Sys2Proof.Machine

/-! ### Memory, its errors and the device -/

theorem State.ue_of_stored {s t : State} (h : s.stored = t.stored) : s.ue = t.ue := congrArg (fun x => x.2.1) h

theorem State.dev_of_stored {s t : State} (h : s.stored = t.stored) : s.dev = t.dev := congrArg (fun x => x.2.2.2) h

/-- Memory and the device, which decide what a read of memory gives. -/
def State.place (s : State) : Memory × Device := (s.mem, s.dev)

theorem State.peek_congr {s t : State} (h : s.place = t.place) (pa n : Nat) : s.peek pa n = t.peek pa n := by
  obtain ⟨hmem, hdev⟩ := Prod.mk.inj h
  rw [State.peek, State.peek, State.peekBytes, State.peekBytes, State.hasMemory_congr hdev, hmem]

/-- The device and the crews, which the ownership of words leaves as they are. -/
def State.aside (s : State) : Device × List Crew := (s.dev, s.crews)

theorem State.dropOwner_aside (s : State) (line : Nat) : (s.dropOwner line).aside = s.aside := by
  unfold State.dropOwner
  refine foldl_keeps _ State.aside (fun st i => ?_) _ _
  dsimp only
  split <;> rfl

theorem State.ownRoom_aside (s : State) (l : Nat) : (s.ownRoom l).aside = s.aside := by
  unfold State.ownRoom
  dsimp only
  split
  · rfl
  · split
    · exact State.dropOwner_aside s _
    · rfl

theorem State.takeWord_aside (s : State) (w : Writer) (x : Nat) : (s.takeWord w x).aside = s.aside := by
  unfold State.takeWord
  cases w with
  | core k =>
    refine (State.ownRoom_aside _ (x / 32)).trans ?_
    dsimp only
    split
    · split <;> rfl
    · rfl
  | _ =>
    dsimp only
    split <;> rfl

theorem State.markDirty_aside (s : State) (pa n : Nat) : (s.markDirty pa n).aside = s.aside := by
  unfold State.markDirty
  split <;> rfl

theorem State.performWrite_aside (s : State) (w : Writer) (ctx : Option Nat) (pa : Nat) (bs : List Byte) :
    (s.performWrite w ctx pa bs).aside = s.aside := by
  unfold State.performWrite
  split
  · rfl
  · exact (State.markDirty_aside ..).trans (foldl_keeps _ State.aside (fun st x => State.takeWord_aside st w x) _ _)

/-- A write leaves no error that was not there (R434). -/
theorem State.performWrite_ue (s : State) (w : Writer) (ctx : Option Nat) (pa : Nat) (bs : List Byte) :
    (s.performWrite w ctx pa bs).ue ⊆ s.ue := by
  unfold State.performWrite
  split
  · exact List.Subset.refl _
  · dsimp only
    rw [State.ue_of_stored (State.markDirty_stored ..)]
    dsimp only
    rw [foldl_keeps (fun (st : State) x => st.takeWord w x) State.ue (fun st x => (State.takeWord_stored st w x).2)]
    exact List.filter_sublist.subset

theorem State.homeWrite_kick {s : State} {pa : Nat} (hk : inKick pa = true) (w : Writer) (ctx : Option Nat) (bs : List Byte) :
    s.homeWrite w ctx pa bs = s.kickRefused pa bs.length := if_pos hk

theorem State.homeWrite_dev (s : State) (w : Writer) (ctx : Option Nat) (pa : Nat) (bs : List Byte) : (s.homeWrite w ctx pa bs).dev = s.dev := by
  cases hk : inKick pa with
  | false => exact (State.dev_of_stored (State.homeWrite_stored s w ctx pa bs hk)).trans (congrArg Prod.fst (State.performWrite_aside ..))
  | true => rw [State.homeWrite_kick hk, State.dev_of_stored (State.kickRefused_stored ..)]

theorem State.homeWrite_ue (s : State) (w : Writer) (ctx : Option Nat) (pa : Nat) (bs : List Byte) : (s.homeWrite w ctx pa bs).ue ⊆ s.ue := by
  cases hk : inKick pa with
  | false =>
    rw [State.ue_of_stored (State.homeWrite_stored s w ctx pa bs hk)]
    exact State.performWrite_ue ..
  | true =>
    rw [State.homeWrite_kick hk, State.ue_of_stored (State.kickRefused_stored ..)]
    exact List.Subset.refl _

/-- No error comes where the device is the same and there are no more errors. -/
theorem State.bad_mono {s t : State} (hd : t.dev = s.dev) (hu : t.ue ⊆ s.ue) {pa n : Nat} (h : s.bad pa n = false) : t.bad pa n = false := by
  rw [State.bad, State.hasMemory_congr hd]
  rw [State.bad] at h
  rcases Bool.and_eq_false_iff.mp h with h | h
  · rw [h, Bool.false_and]
  · rw [Bool.and_eq_false_iff]
    exact .inr (List.any_eq_false.mpr fun g hg => List.any_eq_false.mp h g (hu hg))

/-! ### The transactions of a strand's lanes -/

/-- The transactions of a strand's lanes. -/
def Strand.txs (t : Strand) : L8 Tx := t.threads.mapi (fun _ x => x.tx)

theorem Strand.txs_eq {t u : Strand} : u.txs = t.txs ↔ ∀ l, l < 8 → (u.thread l).tx = (t.thread l).tx := by
  have hget (t : Strand) {l : Nat} (hl : l < 8) : t.txs.get l = (t.thread l).tx := L8.get_mapi _ _ l hl
  constructor
  · intro h l hl
    rw [← hget u hl, ← hget t hl, h]
  · intro h
    refine L8.ext_get fun l hl => ?_
    rw [hget u hl, hget t hl, h l hl]

theorem Strand.txs_modThreads {t : Strand} {m : Mask} {f : Nat → Thread → Thread} (h : ∀ l x, (f l x).tx = x.tx) :
    (t.modThreads m f).txs = t.txs := by
  rw [Strand.txs_eq]
  intro l hl
  rw [Strand.thread_modThreads _ _ _ _ hl]
  split
  · exact h _ _
  · rfl

theorem Restated.tx {x y : Thread} (h : Restated x y) : y.tx = x.tx := by rw [h.1]

theorem Strand.txs_regroupIdle (t : Strand) : t.regroupIdle.txs = t.txs := by
  unfold Strand.regroupIdle
  split <;> rfl

/-- Threads that run again keep their transactions. -/
theorem Strand.txs_wakeLanes (t : Strand) (m : Mask) : (t.wakeLanes m).txs = t.txs := by
  unfold Strand.wakeLanes
  dsimp only
  rw [Strand.txs_regroupIdle, Strand.txs_eq.mpr fun l hl => (Strand.releaseMet_thread _ l hl).tx,
    Strand.txs_eq.mpr fun l hl => (Strand.parkLanes_thread _ _ l hl).tx]
  exact (Strand.txs_modThreads (f := fun _ x => { x with state := .running }) fun _ _ => rfl).trans
    (Strand.txs_modThreads (f := fun _ x => { x with state := .waiting (.sleep 0) }) fun _ _ => rfl)

theorem Strand.wakeLanes_idx (t : Strand) (m : Mask) : (t.wakeLanes m).idx = t.idx := by
  unfold Strand.wakeLanes
  have hregroup (u : Strand) : u.regroupIdle.idx = u.idx := by unfold Strand.regroupIdle; split <;> rfl
  have hrelease (u : Strand) : u.releaseMet.idx = u.idx := by unfold Strand.releaseMet; split <;> rfl
  have hpark (u : Strand) (k : Mask) : (u.parkLanes k).idx = u.idx := by unfold Strand.parkLanes; split <;> rfl
  dsimp only
  rw [hregroup, hrelease, hpark]
  rfl

theorem Thread.rewait_tx (x : Thread) : x.rewait.tx = x.tx := by
  unfold Thread.rewait
  split <;> rfl

theorem Strand.txs_rewait (t : Strand) (which : Nat → Thread → Bool) : (t.rewait which).txs = t.txs := by
  rw [Strand.txs_eq]
  intro l hl
  change (L8.get (t.threads.mapi fun l x => if which l x then x.rewait else x) l).tx = _
  rw [L8.get_mapi _ _ l hl]
  split
  · exact Thread.rewait_tx _
  · rfl

theorem Strand.mergePred_idx (t : Strand) (p : Nat) (m v : Mask) : (t.mergePred p m v).idx = t.idx := by
  unfold Strand.mergePred Strand.setPred
  split <;> rfl

@[simp] theorem Strand.mergePred_threads (t : Strand) (p : Nat) (m v : Mask) : (t.mergePred p m v).threads = t.threads := by
  unfold Strand.mergePred Strand.setPred
  split <;> rfl

/-- The transactions of a strand of the machine. -/
def State.txsOf (s : State) (crew i : Nat) : Option (L8 Tx) := (s.strand? crew i).map Strand.txs

theorem State.txsOf_congr {s t : State} (h : s.crews = t.crews) (crew i : Nat) : s.txsOf crew i = t.txsOf crew i := by
  simp only [State.txsOf, State.strand?, State.crew?, h]

/-- A strand put back with the transactions that it has changes those of no strand. -/
theorem Env.txsOf_commit {s : State} {e : Env} {c : Crew} {t : Strand} (hcrews : e.s.crews = s.crews) (hc : s.crew? e.c.id = some c)
    (hstrands : e.c.strands = c.strands) (ht : c.strand? e.t.idx = some t) (htx : e.t.txs = t.txs) (crew i : Nat) :
    e.commit.txsOf crew i = s.txsOf crew i := by
  have hcrew (id : Nat) : e.s.crew? id = s.crew? id := by simp only [State.crew?, hcrews]
  have hstrand (j : Nat) : e.c.strand? j = c.strand? j := by simp only [Crew.strand?, hstrands]
  have hid : (e.c.setStrand e.t).id = e.c.id := rfl
  unfold State.txsOf State.strand? Env.commit
  rw [State.crew?_setCrew, hid, hcrew]
  by_cases h : crew = e.c.id
  · subst h
    rw [if_pos rfl, hc, Option.map_some, Option.bind_some, Option.bind_some, Crew.strand?_setStrand, hstrand]
    by_cases hi : i = e.t.idx
    · subst hi
      rw [if_pos rfl, ht, Option.map_some, Option.map_some, Option.map_some, htx]
    · rw [if_neg hi]
  · rw [if_neg h]

theorem Env.put1_txs (e : Env) (counted : Bool) (p : Put) : (e.put1 counted p).t.txs = e.t.txs := by
  obtain ⟨r, hr, -⟩ := e.put1_t counted p
  rw [hr]
  rfl

theorem State.txsOf_returnWaita (s : State) (c n l vd pd : Nat) (x : Word) (hit : Bool) (crew i : Nat) :
    (s.returnWaita c n l vd pd x hit).txsOf crew i = s.txsOf crew i := by
  unfold State.returnWaita
  split
  · rfl
  next y hy =>
    split
    · rfl
    next t ht =>
      have hcomp := Env.put1_computed { s := s, c := y, t := t } true { d := vd, tag := .general, vals := (t.reg vd).lanes.set l x }
      have htx := Env.put1_txs { s := s, c := y, t := t } true { d := vd, tag := .general, vals := (t.reg vd).lanes.set l x }
      dsimp only
      generalize Env.put1 _ true _ = e1 at *
      generalize hw : ({ (e1.t.mergePred pd _ _).wakeLanes _ with acq := true } : Strand) = w
      have hidx : w.idx = t.idx := by
        rw [← hw, Strand.wakeLanes_idx, Strand.mergePred_idx, congrArg Strand.idx hcomp.strand]
      have hwoken : w.txs = t.txs := by
        rw [← hw, ← htx]
        exact (Strand.txs_wakeLanes ..).trans (by rw [Strand.txs, Strand.mergePred_threads, Strand.txs])
      refine Env.txsOf_commit (c := y) (t := t) (e := e1.on w) (congrArg State.crews hcomp.rest :) ?_ (congrArg Crew.strands hcomp.crew :) ?_ hwoken crew i
      · exact (congrArg s.crew? (congrArg Crew.id hcomp.crew :)).trans ((State.crew?_id hy).symm ▸ hy)
      · exact (congrArg y.strand? (hidx.trans (Crew.strand?_idx ht))).trans ht

/-- A strand changed in place with the transactions that it has (R213). -/
theorem State.txsOf_modStrand (s : State) (c n : Nat) {f : Strand → Strand} (hidx : ∀ t, (f t).idx = t.idx) (htx : ∀ t, (f t).txs = t.txs)
    (crew i : Nat) : (s.modStrand c n f).txsOf crew i = s.txsOf crew i := by
  have hstrand (xs : List Strand) : ((xs.map fun t => if t.idx = n then f t else t).find? fun t => t.idx = i).map Strand.txs
      = (xs.find? fun t => t.idx = i).map Strand.txs := by
    have hsame (t : Strand) : (if t.idx = n then f t else t).idx = t.idx ∧ (if t.idx = n then f t else t).txs = t.txs := by
      split
      · exact ⟨hidx t, htx t⟩
      · exact ⟨rfl, rfl⟩
    rw [List.find?_map, Option.map_map,
      show (fun t : Strand => decide (t.idx = i)) ∘ (fun t => if t.idx = n then f t else t) = fun t => decide (t.idx = i) from
      funext fun t => by simp only [Function.comp_apply, (hsame t).1]]
    exact congrArg (Option.map · _) (funext fun t => (hsame t).2)
  unfold State.txsOf State.strand? State.crew?
  rw [State.modStrand_crews, List.find?_map, show (fun c : Crew => decide (c.id = crew)) ∘ (fun x => if x.id = c then
      { x with strands := x.strands.map fun t => if t.idx = n then f t else t } else x) = fun c => decide (c.id = crew) from
    funext fun x => by simp only [Function.comp_apply]; split <;> rfl]
  cases s.crews.find? fun c => decide (c.id = crew) with
  | none => rfl
  | some y =>
    simp only [Option.map_some, Option.bind_some, Crew.strand?]
    split
    · exact hstrand y.strands
    · rfl

theorem State.txsOf_rereadWaita {s : State} {c n l pa crew i : Nat} {f : Word → State} (h : ∀ v, (f v).txsOf crew i = s.txsOf crew i) :
    (s.rereadWaita c n l pa f).txsOf crew i = s.txsOf crew i := by
  unfold State.rereadWaita
  split
  · exact State.txsOf_modStrand s c n (f := fun t => t.rewait fun k _ => k = l) (fun _ => rfl) (fun t => t.txs_rewait _) crew i
  · exact h _

theorem State.txsOf_wakeWaita (s : State) (pa n crew i : Nat) : (s.wakeWaita pa n).txsOf crew i = s.txsOf crew i := by
  unfold State.wakeWaita
  refine foldl_keeps _ (fun st : State => st.txsOf crew i) (fun st w => State.txsOf_rereadWaita fun v => ?_) _ _
  split
  · rfl
  · exact State.txsOf_returnWaita ..

theorem State.txsOf_homeWrite (s : State) (w : Writer) (ctx : Option Nat) (pa : Nat) (bs : List Byte) (crew i : Nat) :
    (s.homeWrite w ctx pa bs).txsOf crew i = s.txsOf crew i := by
  unfold State.homeWrite
  split
  · unfold State.kickRefused
    refine foldl_keeps _ (fun st : State => st.txsOf crew i) (fun st k => ?_) _ _
    rfl
  · rw [State.txsOf_wakeWaita]
    refine Eq.trans (State.txsOf_congr ?_ crew i) (State.txsOf_congr (congrArg Prod.snd (State.performWrite_aside s w ctx pa bs)) crew i)
    unfold State.latchDeps
    split <;> rfl

/-! ### The writes of a commit (R195) -/

/-- One word of a commit to the kick space. -/
def State.commitKick (s : State) (ws : List TxWrite) (w : TxWrite) : State :=
  let half (k : Nat) : Option TxWrite := ws.find? (fun y => y.word = k && y.wide && y.bytes = 0xF)
  match half (w.word / 64 * 64), half (w.word / 64 * 64 + 1) with
  | some x, some y =>
    if w.word = x.word then s.kickStore (4 * w.word) 8 (BitVec.ofNat 64 (x.value.toNat + 2 ^ 32 * y.value.toNat))
    else if w.word = y.word then s
    else s.kickStore (4 * w.word) 4 (w.value.setWidth 64)
  | _, _ => s.kickStore (4 * w.word) 4 (w.value.setWidth 64)

/-- The bytes of one word of a commit in the core's L1. -/
def State.commitL1 (s : State) (core : Nat) (w : TxWrite) : State :=
  (List.range 4).foldl (fun s k =>
    if w.bytes.getLsbD k then
      s.modCore core (fun co => co.storeL1 (4 * w.word + k) [BitVec.ofNat 8 (w.value.toNat / 2 ^ (8 * k))]) else s) s

/-- One word of a commit. -/
def State.commitWord (core ctx : Nat) (ws : List TxWrite) (s : State) (w : TxWrite) : State :=
  if inKick (4 * w.word) then s.commitKick ws w
  else (s.commitL1 core w).homeWrite (.core core) (some ctx) (4 * w.word) (leBytes 4 (overlay w (s.peek (4 * w.word) 4)))

theorem State.commitWrites_eq (s : State) (core ctx : Nat) (ws : List TxWrite) :
    s.commitWrites core ctx ws = ws.foldl (State.commitWord core ctx ws) s := rfl

/-- A kick changes queue blocks alone (R309, R377). -/
theorem State.kickStore_rest (s : State) (pa n : Nat) (v : DWord) : s.kickStore pa n v = { s with queues := (s.kickStore pa n v).queues } := by
  unfold State.kickStore
  dsimp only
  split <;> rfl

theorem State.commitKick_rest (s : State) (ws : List TxWrite) (w : TxWrite) : s.commitKick ws w = { s with queues := (s.commitKick ws w).queues } := by
  unfold State.commitKick
  dsimp only
  split
  · split
    · exact State.kickStore_rest ..
    · split
      · rfl
      · exact State.kickStore_rest ..
  · exact State.kickStore_rest ..

theorem State.commitL1_rest (s : State) (core : Nat) (w : TxWrite) : s.commitL1 core w = { s with cores := (s.commitL1 core w).cores } := by
  have h := foldl_keeps (fun s k => if w.bytes.getLsbD k then
    s.modCore core (fun co => co.storeL1 (4 * w.word + k) [BitVec.ofNat 8 (w.value.toNat / 2 ^ (8 * k))]) else s)
    (fun st : State => { st with cores := [] }) (fun st k => by split <;> rfl) (List.range 4) s
  exact (congrArg (fun st : State => { st with cores := (s.commitL1 core w).cores }) h :)

/-- The writes of a commit leave the transactions of every strand. -/
theorem State.txsOf_commitWrites (s : State) (core ctx : Nat) (ws : List TxWrite) (crew i : Nat) :
    (s.commitWrites core ctx ws).txsOf crew i = s.txsOf crew i := by
  rw [State.commitWrites_eq]
  refine foldl_keeps _ (fun st : State => st.txsOf crew i) (fun st w => ?_) _ _
  unfold State.commitWord
  split
  · exact State.txsOf_congr (congrArg State.crews (State.commitKick_rest st ws w) :) crew i
  · rw [State.txsOf_homeWrite]
    exact State.txsOf_congr (congrArg State.crews (State.commitL1_rest st core w) :) crew i

theorem State.commitWrites_dev (s : State) (core ctx : Nat) (ws : List TxWrite) : (s.commitWrites core ctx ws).dev = s.dev := by
  rw [State.commitWrites_eq]
  refine foldl_keeps _ State.dev (fun st w => ?_) _ _
  unfold State.commitWord
  split
  · exact (congrArg State.dev (State.commitKick_rest st ws w) :)
  · rw [State.homeWrite_dev]
    exact (congrArg State.dev (State.commitL1_rest st core w) :)

theorem State.commitWord_ue (core ctx : Nat) (ws : List TxWrite) (s : State) (w : TxWrite) : (State.commitWord core ctx ws s w).ue ⊆ s.ue := by
  unfold State.commitWord
  split
  · rw [(congrArg State.ue (State.commitKick_rest s ws w) :)]
    exact List.Subset.refl _
  · refine List.Subset.trans (State.homeWrite_ue ..) ?_
    rw [(congrArg State.ue (State.commitL1_rest s core w) :)]
    exact List.Subset.refl _

/-- The writes of a commit leave no error that was not there. -/
theorem State.commitWrites_ue (s : State) (core ctx : Nat) (ws : List TxWrite) : (s.commitWrites core ctx ws).ue ⊆ s.ue := by
  rw [State.commitWrites_eq]
  generalize State.commitWord core ctx ws = f, State.commitWord_ue core ctx ws = hf
  induction ws generalizing s with
  | nil => exact List.Subset.refl _
  | cons w ws ih => exact List.Subset.trans (ih _) (hf s w)

/-- One word of a commit comes to the same memory from the same memory. -/
theorem State.commitWord_place {s t : State} (h : s.place = t.place) (core ctx core' ctx' : Nat) (ws : List TxWrite) (w : TxWrite) :
    (State.commitWord core ctx ws s w).place = (State.commitWord core' ctx' ws t w).place := by
  unfold State.commitWord
  cases hk : inKick (4 * w.word) with
  | true =>
    rw [if_pos rfl, if_pos rfl]
    exact (congrArg State.place (State.commitKick_rest s ws w) :).trans (h.trans (congrArg State.place (State.commitKick_rest t ws w)).symm)
  | false =>
    rw [if_neg Bool.false_ne_true, if_neg Bool.false_ne_true, State.peek_congr h]
    have hs : (s.commitL1 core w).place = s.place := (congrArg State.place (State.commitL1_rest s core w) :)
    have ht : (t.commitL1 core' w).place = t.place := (congrArg State.place (State.commitL1_rest t core' w) :)
    obtain ⟨hmem, hdev⟩ := Prod.mk.inj (hs.trans (h.trans ht.symm))
    unfold State.place
    rw [State.homeWrite_dev, State.homeWrite_dev, State.homeWrite_mem _ _ _ _ _ hk, State.homeWrite_mem _ _ _ _ _ hk,
      State.hasMemory_congr hdev, hmem, hdev]

/-- The writes of a commit come to the same memory from the same memory, whichever core makes them. -/
theorem State.commitWrites_place {s t : State} (h : s.place = t.place) (core ctx core' ctx' : Nat) (ws : List TxWrite) :
    (s.commitWrites core ctx ws).place = (t.commitWrites core' ctx' ws).place := by
  rw [State.commitWrites_eq, State.commitWrites_eq]
  exact List.foldl_rel (r := fun u v : State => u.place = v.place) h fun w _ u v huv => State.commitWord_place huv core ctx core' ctx' ws w

/-! ### A change made with the strand put back -/

/-- The strand found where the issuing strand was put back is that strand. -/
theorem Env.eq_of_commit_strand? {e : Env} {u : Strand} (h : e.commit.strand? e.c.id e.t.idx = some u) : u = e.t := by
  rw [State.strand?, Env.commit, State.crew?_setCrew, show (e.c.setStrand e.t).id = e.c.id from rfl, if_pos rfl] at h
  cases hc : e.s.crew? e.c.id with
  | none => rw [hc] at h; cases h
  | some c =>
    rw [hc, Option.map_some, Option.bind_some, Crew.strand?_setStrand, if_pos rfl] at h
    obtain ⟨-, -, hu⟩ := Option.map_eq_some_iff.mp h
    exact hu.symm

/-- The issuing strand keeps the transactions of its lanes where the change keeps those of every strand. -/
theorem Env.via_txs {e : Env} {f : State → State} (h : ∀ crew i, (f e.commit).txsOf crew i = e.commit.txsOf crew i) : (e.via f).t.txs = e.t.txs := by
  have hfound := h e.c.id e.t.idx
  unfold Env.via Env.reload
  cases hc : (f e.commit).crew? e.c.id with
  | none => rfl
  | some c =>
    dsimp only
    cases ht : c.strand? e.t.idx with
    | none => rfl
    | some t =>
      rw [State.txsOf, State.strand?, hc, Option.bind_some, ht, Option.map_some] at hfound
      obtain ⟨u, hu, htx⟩ := Option.map_eq_some_iff.mp hfound.symm
      rw [← Env.eq_of_commit_strand? hu]
      exact htx.symm

end Sys2Proof.Machine
end

section
/-! Lanes that commit together (O20): every live lane has its outcome in turn, and memory is what the lanes that commit write. -/

namespace Sys2Proof.Machine

/-! ### One lane's outcome among others -/

theorem State.badReads_mono {s t : State} (hd : t.dev = s.dev) (hu : t.ue ⊆ s.ue) {x : Tx} (h : s.badReads x = []) : t.badReads x = [] := by
  refine List.filter_eq_nil_iff.mpr fun r hr => ?_
  rw [State.bad_mono hd hu (Bool.eq_false_iff.mpr (List.filter_eq_nil_iff.mp h r hr))]
  exact Bool.false_ne_true

/-- A lane's transaction has the outcome `y`: it conflicts with none of `lower`, or aborts with 4; no other lane's transaction changes;
and memory is what the lane's commit makes of it, if it commits. -/
structure Env.Decides (lower : List Tx) (l : Nat) (e e' : Env) (y : Tx) : Prop where
  ended     : y.begun = false
  conflict  : lower.any (fun a => a.conflicts (e.t.thread l).tx) = true → y.state = 4
  committed : y.state = 0 → y = Tx.committed
  txs       : ∀ k, k < 8 → (e'.t.thread k).tx = if k = l then y else (e.t.thread k).tx
  dev       : e'.s.dev = e.s.dev
  ue        : e'.s.ue ⊆ e.s.ue
  place     : ∀ (w : State) (core ctx : Nat), w.place = e.s.place →
                e'.s.place = (if y.state = 0 then w.commitWrites core ctx (e.t.thread l).tx.wset else w).place

/-- An abort decides a lane. -/
theorem Env.decides_endWith {e : Env} {lower : List Tx} {l code : Nat} (h0 : code ≠ 0)
    (h4 : lower.any (fun a => a.conflicts (e.t.thread l).tx) = true → code = 4) :
    Env.Decides lower l e (e.setTx l ((e.t.thread l).tx.endWith code)) ((e.t.thread l).tx.endWith code) where
  ended := rfl
  conflict := h4
  committed h := absurd h h0
  txs _ hk := e.setTx_tx l _ hk
  dev := rfl
  ue := List.Subset.refl _
  place _ _ _ hw := by
    rw [if_neg (show ((e.t.thread l).tx.endWith code).state ≠ 0 from h0), hw]
    rfl

/-- A commit decides a lane. -/
theorem Env.decides_committed {e : Env} {lower : List Tx} {l : Nat} (h : lower.any (fun a => a.conflicts (e.t.thread l).tx) = false) :
    Env.Decides lower l e ((e.via (fun s => s.commitWrites e.c.core e.c.ctx (e.t.thread l).tx.wset)).setTx l Tx.committed) Tx.committed where
  ended := rfl
  conflict hc := absurd (h.symm.trans hc) Bool.false_ne_true
  committed _ := rfl
  txs k hk := by
    have hvia := Env.via_txs (e := e) (f := fun s => s.commitWrites e.c.core e.c.ctx (e.t.thread l).tx.wset) fun crew i =>
      State.txsOf_commitWrites ..
    rw [Env.setTx_tx _ l _ hk, Strand.txs_eq.mp hvia k hk]
  dev := (congrArg State.dev (Env.reload_s ..)).trans (State.commitWrites_dev ..)
  ue := by
    have hs : (e.via (fun s => s.commitWrites e.c.core e.c.ctx (e.t.thread l).tx.wset)).s.ue ⊆ e.s.ue := by
      rw [Env.via, Env.reload_s]
      exact State.commitWrites_ue ..
    exact hs
  place w core ctx hw := by
    rw [if_pos (show Tx.committed.state = 0 from rfl)]
    exact (congrArg State.place (Env.reload_s ..)).trans (State.commitWrites_place (show e.commit.place = w.place from hw.symm) ..)

theorem Env.commitLane_decides {e : Env} {lower : List Tx} {locked : Bool} {l : Nat} (hb : e.s.badReads (e.t.thread l).tx = []) :
    ∃ y, Env.Decides lower l e (e.commitLane lower locked l) y := by
  cases hc : lower.any (fun a => a.conflicts (e.t.thread l).tx) with
  | true =>
    rw [Env.commitLane_conflict hc]
    exact ⟨_, Env.decides_endWith (by decide) fun _ => rfl⟩
  | false =>
    have hnot {code : Nat} : lower.any (fun a => a.conflicts (e.t.thread l).tx) = true → code = 4 := fun h => absurd (hc.symm.trans h) Bool.false_ne_true
    cases hs : (e.t.thread l).tx.stopped locked with
    | true =>
      rw [Env.commitLane_stopped hc hs]
      exact ⟨_, Env.decides_endWith (by decide) hnot⟩
    | false =>
      rw [Env.commitLane_sound hc hs hb]
      split
      · exact ⟨_, Env.decides_committed hc⟩
      · exact ⟨_, Env.decides_endWith (by decide) hnot⟩

/-! ### The outcomes of several lanes in turn -/

/-- The writes of the lanes of `ls` performed in turn. -/
def State.commitAll (s : State) (core ctx : Nat) (x : Nat → Tx) (ls : List Nat) : State := ls.foldl (fun st n => st.commitWrites core ctx (x n).wset) s

/-- The lanes of a list that have committed. -/
def Strand.commits (t : Strand) (ls : List Nat) : List Nat := ls.filter (fun n => (t.thread n).tx.state = 0)

/-- Every lane of `ls` has its outcome, the lanes with the transactions `x` and `lower l` those that come before lane `l`. -/
structure Env.DecidesAll (lower : Nat → List Tx) (x : Nat → Tx) (ls : List Nat) (e e' : Env) : Prop where
  ended     : ∀ l ∈ ls, (e'.t.thread l).tx.begun = false
  conflict  : ∀ l ∈ ls, (lower l).any (fun a => a.conflicts (x l)) = true → (e'.t.thread l).tx.state = 4
  committed : ∀ l ∈ ls, (e'.t.thread l).tx.state = 0 → (e'.t.thread l).tx = Tx.committed
  other     : ∀ k, k < 8 → k ∉ ls → (e'.t.thread k).tx = (e.t.thread k).tx
  place     : ∀ (w : State) (core ctx : Nat), w.place = e.s.place → e'.s.place = (w.commitAll core ctx x (e'.t.commits ls)).place

/-- One more lane, whose outcome comes first. -/
theorem Env.DecidesAll.cons {lower : Nat → List Tx} {x : Nat → Tx} {l : Nat} {ls : List Nat} {e e1 e' : Env} {y : Tx} (hl8 : l < 8) (hl : l ∉ ls)
    (hx : (e.t.thread l).tx = x l) (h1 : Env.Decides (lower l) l e e1 y) (h : Env.DecidesAll lower x ls e1 e') :
    Env.DecidesAll lower x (l :: ls) e e' := by
  have hy : (e'.t.thread l).tx = y := by rw [h.other l hl8 hl, h1.txs l hl8, if_pos rfl]
  refine ⟨?_, ?_, ?_, fun k hk hkl => ?_, fun w core ctx hw => ?_⟩
  · exact List.forall_mem_cons.mpr ⟨by rw [hy, h1.ended], h.ended⟩
  · exact List.forall_mem_cons.mpr ⟨fun hc => by rw [hy, h1.conflict (by rw [hx]; exact hc)], h.conflict⟩
  · exact List.forall_mem_cons.mpr ⟨by rw [hy]; exact h1.committed, h.committed⟩
  · obtain ⟨hne, hk'⟩ := List.ne_and_not_mem_of_not_mem_cons hkl
    rw [h.other k hk hk', h1.txs k hk, if_neg hne]
  · have hplace := h1.place w core ctx hw
    rw [h.place _ core ctx hplace.symm, Strand.commits, Strand.commits, List.filter_cons, hy, hx]
    by_cases h0 : y.state = 0
    · rw [if_pos h0, if_pos (decide_eq_true h0)]
      rfl
    · rw [if_neg h0, if_neg (by simpa using h0)]

theorem Env.commitLanes_decides (e0 : Env) (m : Mask) {x : Nat → Tx} {ls : List Nat} {e : Env} (hnd : ls.Nodup) (h8 : ∀ l ∈ ls, l < 8)
    (hx : ∀ l ∈ ls, (e.t.thread l).tx = x l) (hb : ∀ l ∈ ls, e.s.badReads (x l) = []) :
    Env.DecidesAll (e0.lowerTxs m) x ls e (e0.commitLanes m ls e) := by
  induction ls generalizing e with
  | nil => exact ⟨nofun, nofun, nofun, fun _ _ _ => rfl, fun _ _ _ hw => hw.symm⟩
  | cons l ls ih =>
    obtain ⟨hl, hnd⟩ := List.nodup_cons.mp hnd
    obtain ⟨hl8, h8⟩ := List.forall_mem_cons.mp h8
    obtain ⟨hxl, hx⟩ := List.forall_mem_cons.mp hx
    obtain ⟨hbl, hb⟩ := List.forall_mem_cons.mp hb
    obtain ⟨y, hy⟩ := Env.commitLane_decides (lower := e0.lowerTxs m l) (locked := laneOn e0.t.locked l) (hxl ▸ hbl)
    refine Env.DecidesAll.cons hl8 hl hxl hy (ih hnd h8 (fun k hk => ?_) fun k hk => State.badReads_mono hy.dev hy.ue (hb k hk))
    rw [hy.txs k (h8 k hk), if_neg (ne_of_mem_of_not_mem hk hl), hx k hk]

/-! ### A whole commit -/

theorem Env.mem_liveLanes {e0 : Env} {m : Mask} {l : Nat} :
    l ∈ e0.liveLanes m ↔ l < 8 ∧ (laneOn m l && (e0.t.thread l).tx.active) = true := by
  rw [Env.liveLanes, List.mem_filter, mem_lanesOf, Bool.and_eq_true, and_assoc]

theorem Env.nodup_liveLanes (e0 : Env) (m : Mask) : (e0.liveLanes m).Nodup :=
  (show laneIds.Nodup by decide).filter _ |>.filter _

/-- The lanes that end a commit with state 0, in ascending order. -/
theorem Env.commits_liveLanes (e0 : Env) (m : Mask) (t : Strand) :
    t.commits (e0.liveLanes m) = (lanesOf m).filter (fun n => (laneOn m n && (e0.t.thread n).tx.active) && (t.thread n).tx.state = 0) := by
  rw [Strand.commits, Env.liveLanes, List.filter_filter]
  refine List.filter_congr fun n hn => ?_
  rw [(mem_lanesOf.mp hn).2, Bool.true_and, Bool.and_comm]

theorem Env.endDoomed_tx {e0 : Env} {m : Mask} {l : Nat} (hl : l < 8) (h : (e0.t.thread l).tx.active = true) :
    ((e0.endDoomed m).t.thread l).tx = (e0.t.thread l).tx := by
  rw [Env.endDoomed, Env.on, Strand.thread_modThreads _ _ _ l hl, Tx.doomed_of_active h, if_neg Bool.false_ne_true]
  split <;> rfl

/-- Every live lane of a commit has its outcome where none has read an uncorrectable word. -/
theorem Env.txcDecided_decides {e0 : Env} {m : Mask}
    (hb : ∀ n, n < 8 → (laneOn m n && (e0.t.thread n).tx.active) = true → e0.s.badReads (e0.t.thread n).tx = []) :
    Env.DecidesAll (e0.lowerTxs m) (fun n => (e0.t.thread n).tx) (e0.liveLanes m) (e0.endDoomed m) (e0.txcDecided m) := by
  refine Env.commitLanes_decides e0 m (e0.nodup_liveLanes m) (fun l hl => (Env.mem_liveLanes.mp hl).1) (fun l hl => ?_) fun l hl => ?_
  · obtain ⟨hl8, hon⟩ := Env.mem_liveLanes.mp hl
    exact Env.endDoomed_tx hl8 (Bool.and_eq_true_iff.mp hon).2
  · obtain ⟨hl8, hon⟩ := Env.mem_liveLanes.mp hl
    exact hb l hl8 hon

theorem Env.any_lowerTxs {e0 : Env} {m : Mask} {j l : Nat} {x : Tx} (hj : j ∈ e0.liveLanes m) (hjl : j < l)
    (hc : (e0.t.thread j).tx.conflicts x = true) :
    (e0.lowerTxs m l).any (fun a => a.conflicts x) = true :=
  List.any_eq_true.mpr ⟨_, List.mem_map.mpr ⟨j, List.mem_filter.mpr ⟨hj, decide_eq_true hjl⟩, rfl⟩, hc⟩

/-- A lane that has not committed gets 0 in the predicate. -/
theorem Env.txcClosed_pred {e2 : Env} {p k : Nat} {m locked : Mask} {ok : Nat → Bool} (hp : p < 8) (hp0 : p ≠ 0) (hk : k < 8) (hon : laneOn m k = true)
    (hok : ok k = false) : laneOn ((e2.txcClosed p m ok locked).t.pred p) k = false := by
  have hpred : (e2.txcClosed p m ok locked).t.pred p = (e2.t.mergePred p m (maskOf ok)).pred p := rfl
  rw [hpred, Strand.pred_mergePred _ _ _ _ _ hp, if_pos ⟨rfl, hp0⟩, laneOn_or, laneOn_and_not _ _ hk, hon,
    show laneOn (maskOf ok &&& m) k = (laneOn (maskOf ok) k && laneOn m k) from BitVec.getLsbD_and, laneOn_maskOf ok k hk, hok]
  rw [Bool.not_true, Bool.and_false, Bool.false_and, Bool.or_false]

theorem Env.txcClosed_thread (e2 : Env) (p : Nat) (m locked : Mask) (ok : Nat → Bool) (l : Nat) :
    (e2.txcClosed p m ok locked).t.thread l = e2.t.thread l :=
  congrArg (fun ts => L8.get ts l) (Strand.mergePred_threads e2.t p m (maskOf ok))

/-- Settles O20: of two conflicting lanes the lower one is among those that the higher one is checked against, and what is performed is
the fold of the commits over the lanes that end with state 0. -/
theorem commitConflict : Obligations.CommitConflict := by
  unfold Obligations.CommitConflict
  intro s e p g l k hlk hk8 h honl honk
  dsimp only
  intro hactl hactk hconf hb
  generalize hm : maskFor (.txc p g) e = m at *
  have hall := Env.txcDecided_decides hb
  have hlive {n : Nat} (hn : n < 8) (hon : laneOn m n = true) (hact : (e.drainMem.t.thread n).tx.active = true) : n ∈ e.drainMem.liveLanes m :=
    Env.mem_liveLanes.mpr ⟨hn, by rw [hon, hact, Bool.and_true]⟩
  have hk := hlive hk8 honk hactk
  have hfour : ((e.drainMem.txcDecided m).t.thread k).tx.state = 4 :=
    hall.conflict k hk (Env.any_lowerTxs (hlive (Nat.lt_trans hlk hk8) honl hactl) hlk hconf)
  have hstuck : e.drainMem.stuckLanes m = [] := List.filter_eq_nil_iff.mpr fun n hn => by
    rw [Tx.active, hall.ended n hn, Bool.false_and]
    exact Bool.false_ne_true
  have hends := ends_of h (exec_txc p g s) (by rw [hm]; exact Env.txcOut_done hstuck e.c.ctx p.toNat)
  have hmem := congrArg Prod.fst (hall.place e.drainMem.commit e.c.core e.c.ctx rfl)
  refine ⟨_, hends, ?_⟩
  simp only [Env.txcClosed_thread, ← Env.commits_liveLanes]
  refine ⟨hfour, hall.ended k hk, fun hp => ?pred, fun hcommits => ?aborts, hmem, fun hnone => ?unchanged, fun n hn => ?commit⟩
  case pred =>
    have hp0 : p.toNat ≠ 0 := fun h0 => hp (BitVec.eq_of_toNat_eq h0)
    refine Env.txcClosed_pred p.isLt hp0 hk8 honk ?_
    rw [Env.txcOk, hfour]
    exact Bool.and_false _
  case aborts => exact absurd (hfour.symm.trans (of_decide_eq_true (List.mem_filter.mp hcommits).2)) (by decide)
  case unchanged =>
    rw [hnone] at hmem
    exact hmem
  case commit =>
    obtain ⟨hlive', hzero⟩ := List.mem_filter.mp hn
    have hzero := of_decide_eq_true hzero
    refine ⟨hall.committed n hlive' hzero, fun j hj hact => Bool.eq_false_iff.mpr fun hc => ?_⟩
    have hj8 := Nat.lt_trans hj (Env.mem_liveLanes.mp hlive').1
    have hstate := hall.conflict n hlive' (Env.any_lowerTxs (Env.mem_liveLanes.mpr ⟨hj8, hact⟩) hj hc)
    exact absurd (hstate.symm.trans hzero) (by decide)

end Sys2Proof.Machine
end

section
/-! Global loads (O16): a load's body is `loadBody`, which in a walker strand is `Env.walkerLoad` and elsewhere a value-table hit or a lane
access; what traps leave performed is a load of fewer lanes than those that act, which enters no value table. -/

namespace Sys2Proof.Machine

/-! ### The body of a load (R204, R206) -/

/-- Every element lies on a resident page that is read-only during launches (R206). -/
def allNameable (ty : LoadTy) (ys : List (Nat × List LaneEl)) : Bool :=
  ys.all (fun y => y.2.all (fun x =>
    (x.elem y.1 (!(ty = .b32 || ty = .b64))).rodl && !(x.elem y.1 (!(ty = .b32 || ty = .b64))).absent))

theorem all_flatMap_elem (ty : LoadTy) (ys : List (Nat × List LaneEl)) :
    (ys.flatMap (fun y => y.2.map (fun x => x.elem y.1 (!(ty = .b32 || ty = .b64))))).all (fun x => x.rodl && !x.absent) = allNameable ty ys := by
  simp only [allNameable, List.all_flatMap, List.all_map, Function.comp_def]

/-- The tag of a value loaded from the address in a register pair (R54, R206). -/
def Strand.addrTag (t : Strand) (a : BitVec 6) : Tag :=
  if (t.reg a.toNat).tag = .uniform && (t.reg (a.toNat + 1)).tag = .uniform then .uniform else .general

/-- What a load does for the lanes that its access leaves it. -/
def loadGo (names : Bool) (m : Mask) (key : VKey) (ty : LoadTy) (d a : BitVec 6) (dsts : List Nat) (e : Env) (perf : Mask)
    (ys : List (Nat × List LaneEl)) : Res :=
  if perf = 0 then .done e
  else
    let els := ys.flatMap (fun y => y.2.map (fun x => x.elem y.1 (!(ty = .b32 || ty = .b64))))
    let uni := (e.t.reg a.toNat).tag = .uniform && (e.t.reg (a.toNat + 1)).tag = .uniform
    let eligible := names && perf = m && els.all (fun x => x.rodl && !x.absent)
    match e.startMem .ld dsts (.load ty d.toNat els uni (if eligible then some key else none) .empty) e.t.txActive with
    | .done e1 => .done { e1 with t := e1.t.doomAbsent (absentLanes ys) }
    | x => x

/-- What a load word does under its effective lane mask. -/
def loadBody (r : Req) (ty : LoadTy) (unit : Nat) (d a : BitVec 6) (imm9 : BitVec 9) (e : Env) (m : Mask) : Res :=
  match memOff e.t.unit imm9 with
  | none => e.illegal
  | some off =>
    if m = 0 then .done e
    else if e.c.walker then
      e.walkerLoad m unit d.toNat (e.t.addrTag a) (e.t.ea a.toNat off unit)
    else
      match (if e.namesLoads m then e.reuse? (r.loadKey e m off [e.c.ctx, e.c.seq]) r.writes else none) with
      | some e1 => .done e1
      | none => e.access kindRead m (loadEls e ty unit a off)
          (loadGo (e.namesLoads m) m (r.loadKey e m off [e.c.ctx, e.c.seq]) ty d a r.writes)

/-- With room on the counter the load is in flight, and may enter the value table where it is that of every acting lane. -/
theorem loadGo_room {e : Env} (hf : e.t.full .ld = false) {k : Mask} (hk : k ≠ 0) (names : Bool) (m : Mask) (key : VKey) (ty : LoadTy)
    (d a : BitVec 6) (els : Nat → List LaneEl) :
    loadGo names m key ty d a (regsW (ty = .b64) d) (e.keepLast (acting k els)) k (acting k els)
      = .done (e.loads k ty d a els (if names && k = m && allNameable ty (acting k els) then some key else none)) := by
  have hpages := e.keepLast_strand (acting k els)
  have hnext : (e.keepLast (acting k els)).t.nextOp = e.t.nextOp := by rw [hpages.rest]
  have hroom := (e.keepLast_full (acting k els) .ld).trans hf
  simp only [loadGo, if_neg hk, Env.startMem_room _ _ _ _ _ _ hroom, all_flatMap_elem, Env.keepLast_reg, Strand.txActive_pages hpages, hnext,
    Env.loads, Env.on]

/-! ### Which way it goes -/

section
variable {s : State} {e : Env} {i : Instr} {ty : LoadTy} {unit : Nat} {d a : BitVec 6} {imm9 : BitVec 9}

theorem loadBody_walker {r : Req} {m : Mask} {off : Int} (hoff : memOff e.t.unit imm9 = some off) (hm : m ≠ 0) (hw : e.c.walker = true) :
    loadBody r ty unit d a imm9 e m = e.walkerLoad m unit d.toNat (e.t.addrTag a) (e.t.ea a.toNat off unit) := by
  simp only [loadBody, hoff, if_neg hm, if_pos hw]

theorem loadBody_hit {r : Req} {m : Mask} {off : Int} (hoff : memOff e.t.unit imm9 = some off) (hm : m ≠ 0) (hw : e.c.walker = false)
    {e1 : Env} (hn : e.namesLoads m = true) (hhit : e.reuse? (r.loadKey e m off [e.c.ctx, e.c.seq]) r.writes = some e1) :
    loadBody r ty unit d a imm9 e m = .done e1 := by
  simp only [loadBody, hoff, if_neg hm, hw, Bool.false_eq_true, if_false, if_pos hn, hhit]

theorem loadBody_miss {r : Req} {m : Mask} {off : Int} (hoff : memOff e.t.unit imm9 = some off) (hm : m ≠ 0) (hw : e.c.walker = false)
    (hmiss : e.namesLoads m = true → e.reuse? (r.loadKey e m off [e.c.ctx, e.c.seq]) r.writes = none) :
    loadBody r ty unit d a imm9 e m = e.access kindRead m (loadEls e ty unit a off)
      (loadGo (e.namesLoads m) m (r.loadKey e m off [e.c.ctx, e.c.seq]) ty d a r.writes) := by
  have hnone : (if e.namesLoads m = true then e.reuse? (r.loadKey e m off [e.c.ctx, e.c.seq]) r.writes else none) = none := by
    split
    next hn => exact hmiss hn
    next => rfl
  simp only [loadBody, hoff, if_neg hm, hw, Bool.false_eq_true, if_false, hnone]

/-! ### Loads in flight and their traps (R198, R204) -/

/-- Lanes with an element of a class are among those that act. -/
theorem and_not_lanesWith_ne {m : Mask} {els : Nat → List LaneEl} {c : ECls} (h : lanesWith m els c ≠ 0) : m &&& ~~~lanesWith m els c ≠ m := by
  intro heq
  refine h (mask_ext fun l hl => ?_)
  have hl' := (laneOn_and_not m (lanesWith m els c) hl).symm.trans (congrArg (laneOn · l) heq)
  rw [laneOn_zero]
  simp only [lanesWith, laneOn_maskOf _ _ hl] at hl' ⊢
  cases hon : laneOn m l <;> simp_all

/-- Before a PERM trap fewer lanes perform than act (R198), so that what all of them would perform does not matter. -/
theorem AccessTraps.congr {m : Mask} {els : Nat → List LaneEl} {room : Prop} {performed performed' : Mask → Env}
    (h : AccessTraps s e i m els room performed) (heq : ∀ k, k ≠ m → performed k = performed' k) : AccessTraps s e i m els room performed' := by
  intro hn
  obtain ⟨halign, hperm⟩ := h hn
  refine ⟨halign, fun hmis href hroom => ?_⟩
  rw [← heq _ (and_not_lanesWith_ne href)]
  exact hperm hmis href hroom

/-- R200, R204, R206: a load in a strand that is no walker. -/
theorem loadIssues_of (hx : exec i s = issue (reqOf i) (loadBody (reqOf i) ty unit d a imm9) s) (hw : (reqOf i).writes = regsW (ty = .b64) d) :
    LoadIssues s e i ty unit d a imm9 := by
  intro off h hoff hm hwalk m key els named
  refine ⟨fun e1 hn hhit => ends_of h hx (loadBody_hit hoff hm hwalk hn hhit), fun hmiss => ?_⟩
  have hb := loadBody_miss (ty := ty) (unit := unit) (d := d) (a := a) hoff hm hwalk hmiss
  have hgo (hf : e.t.full .ld = false) {k : Mask} (hk : k ≠ 0) := loadGo_room hf hk (e.namesLoads m) m key ty d a els
  rw [← hw] at hgo
  constructor
  · intro hc hf
    refine ends_of h hx (hb.trans ((Env.access_clear _ _ _ _ _ hc).trans ((hgo hf hm).trans ?_)))
    rw [decide_eq_true rfl, Bool.and_true]
    rfl
  · refine (accessTraps_of h hx hb rfl fun hf k hk => hgo hf hk).congr fun k hk => ?_
    have hfewer : decide (k = m) = false := decide_eq_false hk
    simp only [hfewer, Bool.and_false, Bool.false_and, Bool.false_eq_true, if_false]

end

/-! ### Loads of walkers (R364) -/

/-- Results that are not looked up are written. -/
theorem Req.give_puts (r : Req) (e : Env) {m : Mask} (hm : m ≠ 0) (xg : Word) (ps : List Put) :
    r.give e m false xg 0 ps = .done (e.puts true ps) := by
  have hflags : e.orFlags 0 = e := by simp only [Env.orFlags, BitVec.ofNat_eq_ofNat, BitVec.or_zero]
  simp only [Req.give, if_neg hm, Bool.false_and, Bool.false_eq_true, if_false, hflags]

/-- R364: aligned words without an error are read at their home slices. -/
theorem Env.walkerLoad_sound {e : Env} {m : Mask} {n : Nat} {addr : Nat → Nat} (hm : m ≠ 0)
    (hmis : maskOf (fun l => laneOn m l && (vaBad (addr l) || addr l % n ≠ 0)) = 0) (hs : ∀ l ∈ lanesOf m, e.s.bad (addr l) n = false)
    (r : Req) (d : Nat) (tag : Tag) : e.walkerLoad m n d tag addr = r.give e m false 0 0 (if decide (n = 8) then
      e.t.result64 m tag tag d (fun l => e.s.peek (addr l) n) else [e.t.result m tag d (fun l => BitVec.ofNat 32 (e.s.peek (addr l) n))]) := by
  have herrs : ((lanesOf m).filter (fun l => e.s.bad (addr l) n)).map addr = [] := by
    rw [List.map_eq_nil_iff, List.filter_eq_nil_iff]
    intro l hl
    rw [hs l hl]
    exact Bool.false_ne_true
  refine (if_neg (fun hne => hne hmis)).trans ?_
  simp only [herrs, Req.give_puts r e hm, decide_eq_true_eq]

/-- R364: a raw load in a walker strand. -/
theorem walkerLoads_of {s : State} {e : Env} {i : Instr} {ty : LoadTy} {n : Nat} {d a : BitVec 6} {imm9 : BitVec 9}
    (hx : exec i s = issue (reqOf i) (loadBody (reqOf i) ty n d a imm9) s) (hw : (reqOf i).writes = regsW (n = 8) d) :
    WalkerLoads s e i n d a imm9 := by
  intro off h hoff hm hwalk m addr mis
  have hb := loadBody_walker (r := reqOf i) (ty := ty) (unit := n) (d := d) (a := a) hoff hm hwalk
  refine ⟨fun hmis => traps_of h hx (hb.trans (if_pos hmis)), fun hmis hs => ?_⟩
  obtain rfl := h.machine
  exact gives_wide h hx (hb.trans (Env.walkerLoad_sound hm hmis hs ..)) hw

/-- Settles O16: each word is `loadBody` on its operands. -/
theorem globalLoads : Obligations.GlobalLoads := by
  unfold Obligations.GlobalLoads
  intro s e d a i g
  exact ⟨loadIssues_of rfl rfl, loadIssues_of rfl rfl, loadIssues_of rfl rfl, loadIssues_of rfl rfl, loadIssues_of rfl rfl, loadIssues_of rfl rfl,
    walkerLoads_of rfl rfl, walkerLoads_of rfl rfl⟩

end Sys2Proof.Machine
end

section
/-! Stores and local accesses (O17): a store of 8 bytes may have memory under its first half alone. -/

namespace Sys2Proof.Machine

/-- Lane 7's store of 2^32 in 8 bytes at 0x5038 in flight, in a machine whose device memory ends in the middle of those bytes. -/
def storeAcrossEnd : State :=
  (Tests.next (exec (.stB64 16 40 0 1)
    (Tests.withRegs [(17, Tests.uniform 1)] (Tests.withStrand (fun t => { t with preds := t.preds.set 1 0x80 }) Tests.data)))).modDev
    (fun d => { d with memSize := 0x503C })

/-- Refutes O17: an 8-byte store is performed as two of 4 bytes (R179), each where there is memory (R460); the statement asks for memory
at the first only, and in `storeAcrossEnd` there is none at the second, whose lowest byte is to be 1. -/
theorem not_storesAndLocalAccesses : ¬ Obligations.StoresAndLocalAccesses := by
  unfold Obligations.StoresAndLocalAccesses
  intro h
  obtain ⟨-, -, -, -, -, -, -, -, -, hperformed⟩ := h storeAcrossEnd (Tests.envOf storeAcrossEnd) 0 0 0 0
  obtain ⟨t, ht, -, -, hbytes⟩ := hperformed 0 0 8 _ _ (by rfl) (by rfl) (by rfl) (by rfl) (by rfl) (by rfl) (by decide +kernel)
  have hnext : Tests.next (exec (.storeAcknowledge 0 0 0) storeAcrossEnd) = t := congrArg Tests.next ht
  have hread := hbytes [] _ 4 (by rfl) (by rfl) (by decide +kernel) (by decide +kernel) (by decide)
  rw [← hnext] at hread
  exact absurd hread (by decide +kernel)

end Sys2Proof.Machine
end

section
/-! Copies (O22): the three words come to `Env.checkCopy` once the odd registers of their global addresses are there, and with both sides
clear a copy starts as `Env.launchedCopy` has it. -/

namespace Sys2Proof.Machine

/-! ### The checks (R217, R219) -/

theorem not_isEmpty_of_nil {α : Type} {xs : List α} (h : xs = []) : ¬((!xs.isEmpty) = true) := by
  rw [h]
  exact Bool.false_ne_true

/-- R68, R187: the odd registers of a copy's global addresses are there and sound. -/
theorem Env.copyPairs_ready {e : Env} {d a : BitVec 6} {cw : Word}
    (h : ∀ v ∈ pairReads d a cw, (∀ q ∈ e.t.inflight, q.done = true ∨ v ∉ q.dsts) ∧ (e.t.reg v).bad = false) (go : Env → Res) :
    e.copyPairs d a cw go = go e := by
  generalize hr : ({ instr := .nop, reads := pairReads d a cw } : Req) = r
  have hblocked : r.blocked e.t = false := by
    refine List.any_eq_false.mpr fun q hq => ?_
    have hdsts : q.done = false → q.dsts.any (fun v => (pairReads d a cw).contains v || [].contains v) = false := fun hdone =>
      List.any_eq_false.mpr fun v hv hc => by
        obtain hmem | hnil := Bool.or_eq_true_iff.mp hc
        · obtain hdone' | hnot := (h v (List.contains_iff_mem.mp hmem)).1 q hq
          · exact Bool.false_ne_true (hdone.symm.trans hdone')
          · exact hnot hv
        · exact absurd hnil Bool.false_ne_true
    rw [Bool.and_eq_true, Bool.not_eq_true', not_and, Bool.not_eq_true, ← hr]
    intro hdone
    rw [Req.needs, hdsts hdone]
    cases q.pdst <;> rfl
  have hsound : r.sourceBad e.t = false := List.any_eq_false.mpr fun v hv => by
    rw [← hr] at hv
    rw [(h v hv).2]
    exact Bool.false_ne_true
  rw [Env.copyPairs, hr, Req.gather_ready hblocked hsound]

/-- Where a local side leaves its claim. -/
def Env.sideLeaves (e : Env) (x : Side) : Option Nat :=
  match x.space with
  | some sp => x.leaves (e.c.claim sp).size
  | none => none

theorem Env.sideLeaves_inside {e : Env} {x : Side} (h : ∀ sp, x.space = some sp → x.leaves (e.c.claim sp).size = none) :
    e.sideLeaves x = none := by
  unfold Env.sideLeaves
  split
  next sp hsp => exact h sp hsp
  next => rfl

/-- Whether a table is misaligned. -/
def CopyPlan.tableMisaligned (p : CopyPlan) : Bool :=
  match p.table with
  | some (_, off, w) => off % w ≠ 0
  | none => false

/-- Where a table leaves its claim. -/
def Env.tableLeaves (e : Env) (p : CopyPlan) : Option Nat :=
  match p.table with
  | some (sp, off, w) => if (e.c.claim sp).size < off + 256 * w then some (max off (e.c.claim sp).size) else none
  | none => none

theorem Env.table_inside {e : Env} {p : CopyPlan}
    (h : ∀ sp off w, p.table = some (sp, off, w) → off % w = 0 ∧ off + 256 * w ≤ (e.c.claim sp).size) :
    p.tableMisaligned = false ∧ e.tableLeaves p = none := by
  unfold CopyPlan.tableMisaligned Env.tableLeaves
  split
  next sp off w ht =>
    obtain ⟨hoff, hsize⟩ := h sp off w ht
    exact ⟨decide_eq_false (fun hne => hne hoff), if_neg (Nat.not_lt.mpr hsize)⟩
  next => exact ⟨rfl, rfl⟩

/-- The translations that a copy's pages used, the source's first. -/
def Env.copyTrans (e : Env) (p : CopyPlan) (lane : Nat) : List Trans :=
  (p.src.scan (e.look lane)).trans ++ (p.dst.scan (e.look lane)).trans.filter (fun t => !(p.src.scan (e.look lane)).trans.contains t)

/-- R219: a copy whose sides are clear starts. -/
theorem Env.checkCopy_clear {e : Env} {p : CopyPlan} {cw : Word} {lane : Nat} (h : CopyClear e p cw lane) :
    e.checkCopy p cw lane = e.launchCopy p cw lane (e.copyTrans p lane) := by
  obtain ⟨hneeds, hneeds', halign, halign', href, href', hsrc, hdst, htable, hmodes, -, -, -⟩ := h
  obtain ⟨hmis, hout⟩ := Env.table_inside htable
  have hearly : (if p.src.bits.isNone then (p.src.scan (e.look lane)).needs else [])
      ++ (if p.dst.bits.isNone then (p.dst.scan (e.look lane)).needs else []) = [] := by
    rw [hneeds, hneeds', ite_self, ite_self, List.append_nil]
  have hmisaligned : ¬((p.src.scan (e.look lane)).align || (p.dst.scan (e.look lane)).align || p.tableMisaligned) = true := by
    rw [halign, halign', hmis]
    exact Bool.false_ne_true
  have hmiss : (p.src.scan (e.look lane)).needs ++ (p.dst.scan (e.look lane)).needs = [] := by rw [hneeds, hneeds', List.append_nil]
  have hrefused : (p.src.scan (e.look lane)).refused ++ (p.dst.scan (e.look lane)).refused ++ (e.sideLeaves p.src).toList
      ++ (e.sideLeaves p.dst).toList ++ (e.tableLeaves p).toList = [] := by
    rw [href, href', Env.sideLeaves_inside hsrc, Env.sideLeaves_inside hdst, hout]
    rfl
  have hmode : ¬(p.dst.scan (e.look lane)).fmts.any (fun f => modeRefused f (cwRM cw)) = true := by
    rw [List.any_eq_true]
    rintro ⟨f, hf, hbad⟩
    exact Bool.false_ne_true ((hmodes f hf).symm.trans hbad)
  refine (if_neg (not_isEmpty_of_nil hearly)).trans ((if_neg hmisaligned).trans ((if_neg (not_isEmpty_of_nil hmiss)).trans ?_))
  split
  next v rest heq => exact absurd (hrefused.symm.trans heq) (List.cons_ne_nil v rest).symm
  next => exact if_neg hmode

/-! ### The start (R220, R221, R64) -/

/-- Where the offsets of a side begin in the core's buffer. -/
def Env.sideBase (e : Env) (x : Side) : Nat :=
  match x.space with
  | some sp => (e.c.claim sp).base
  | none => 0

/-- The bytes of a table. -/
def Env.tableBytes (e : Env) (t : Option (Space × Nat × Nat)) : Option (List Byte) :=
  t.map (fun t => Memory.readBytes ((e.s.core e.c.core).buf t.1) ((e.c.claim t.1).base + t.2.1) (256 * t.2.2))

/-- The uncorrectable entries of a table, with their offsets. -/
def Env.tableBad (e : Env) (t : Option (Space × Nat × Nat)) : List (Nat × Nat) :=
  match t with
  | some (sp, off, w) => (List.range 256).filterMap (fun i =>
      if e.s.ue.contains (bufUnit e.c.core sp ((e.c.claim sp).base + off + i * w)) then some (i, off + i * w) else none)
  | none => []

theorem Env.readTable_eq (e : Env) (t : Option (Space × Nat × Nat)) : e.readTable t = (e.tableBytes t, e.tableBad t) := by
  cases t <;> rfl

/-- The command of a copy that lane `lane` starts. -/
def Env.copyCmd (e : Env) (p : CopyPlan) (cw : Word) (lane : Nat) (trs : List Trans) : CopyCmd :=
  { table := e.tableBytes p.table, tabBad := e.tableBad p.table
    entryW := (match p.table with | some (_, _, w) => w | none => 0), base := e.sideBase p.src
    dst := BitVec.ofNat 64 (e.sideBase p.dst + p.dst.base), src := BitVec.ofNat 64 (e.sideBase p.src + p.src.base), n := p.dst.n, m := p.dst.m
    dstride := p.dst.stride, sstride := p.src.stride, cw := cw
    key := BitVec.ofNat 64 (engineKey ((e.t.thread lane).copies % 2 ^ 11 * 2 ^ 52 + globalThread e.c e.t lane)), ctr0 := 0, seed := e.c.seed
    lane := lane, trans := trs, ctx := e.c.ctx }

/-- A range of a local buffer in the scoreboard, held by the operation that is about to issue. -/
def Env.copyHeld (e : Env) (r : Space × Nat × Nat × Bool) : SbEntry :=
  { crew := e.c.id, strand := e.t.idx, op := e.t.nextOp, space := r.1, first := (e.c.claim r.1).base + r.2.1,
    last := (e.c.claim r.1).base + r.2.2.1, writes := r.2.2.2 }

/-- The bytes of WBUF that a copy writes, from the first to past the last. -/
def Env.copyKills (e : Env) (p : CopyPlan) : List (Nat × Nat) :=
  (p.ranges.filter (fun r => r.1 = .wbuf && r.2.2.2)).map (fun r => ((e.c.claim .wbuf).base + r.2.1, (e.c.claim .wbuf).base + r.2.2.1 + 1))

/-- The strand and its machine with a copy started. -/
def Env.launchedCopy (e : Env) (p : CopyPlan) (cw : Word) (lane : Nat) (trs : List Trans) : Env :=
  (e.copyKills p).foldl (fun e r => e.unkeyLoads r.1 r.2)
    { s := e.s.modCore e.c.core (fun co => { co with
        sboard := e.s.board e.c.core ++ p.ranges.map e.copyHeld, naming := (e.copyKills p).foldl (fun n r => n.killRange r.1 r.2) co.naming })
      c := e.c
      t := (e.inFlight .cp [] none (.copy (e.copyCmd p cw lane trs))).t.modThread lane (fun x => { x with copies := x.copies + 1 }) }

/-- R188, R221: with room in the scoreboard and on the counter the copy starts. -/
theorem Env.launchCopy_room {e : Env} {p : CopyPlan} (hboard : (e.s.board e.c.core).length + p.ranges.length ≤ 32)
    (hroom : e.t.full .cp = false) (cw : Word) (lane : Nat) (trs : List Trans) :
    e.launchCopy p cw lane trs = .done (e.launchedCopy p cw lane trs) := by
  have he : e.boardRoom p.ranges.length = e := if_pos hboard
  simp only [Env.launchCopy, he, e.readTable_eq, Nat.not_lt.mpr hboard, if_false, e.start_room _ _ _ _ hroom, Env.launchedCopy, Env.copyKills, List.foldl_map]
  rfl

/-- R217 to R221: a copy that passes every check starts. -/
theorem Env.checkCopy_starts {e : Env} {p : CopyPlan} {cw : Word} {lane : Nat} (h : CopyClear e p cw lane) :
    e.checkCopy p cw lane = .done (e.launchedCopy p cw lane (e.copyTrans p lane)) := by
  rw [Env.checkCopy_clear h]
  obtain ⟨-, -, -, -, -, -, -, -, -, -, -, hboard, hroom⟩ := h
  exact Env.launchCopy_room hboard hroom cw lane _

/-! ### The words -/

/-- The two sides of a `cp` or `cp2` with counts and strides. -/
def Env.convertPlan (e : Env) (d a : BitVec 6) (cw : Word) (n m : Nat) (x y : Int) : CopyPlan :=
  { dst := { space := spaceOf (cwDS cw), base := e.t.copyAddr (spaceOf (cwDS cw)) d.toNat (lowLane e.t.group), stride := x, m := m, n := n,
             bits := sideBits (cwDT cw), perm := pteW, whole := true }
    src := { space := spaceOf (cwSS cw), base := e.t.copyAddr (spaceOf (cwSS cw)) a.toNat (lowLane e.t.group), stride := y, m := m, n := n,
             bits := sideBits (cwST cw), perm := pteR, whole := false }
    table := none }

theorem Env.convertCopy_legal {e : Env} {d a : BitVec 6} {cw : Word} (h : copyIllegal cw (fun sp => (e.c.claim sp).size) = false)
    (n m : Nat) (x y : Int) : e.convertCopy d a cw n m x y = e.checkCopy (e.convertPlan d a cw n m x y) cw (lowLane e.t.group) :=
  if_neg (ne_true_of_eq_false h)

theorem Env.convertCopy_illegal {e : Env} {d a : BitVec 6} {cw : Word} (h : copyIllegal cw (fun sp => (e.c.claim sp).size) = true)
    (n m : Nat) (x y : Int) : e.convertCopy d a cw n m x y = .trap e (.plain cILLEGAL (laneBit (lowLane e.t.group))) false :=
  if_pos h

/-- Settles O22: `cptab` is checked before its registers are waited for, `cp` and `cp2` after that, and what passes starts. -/
theorem copies : Obligations.Copies := by
  unfold Obligations.Copies
  intro s e d a b c l cw nm plan p1 p2 w p3 size base tableAt cmd held launched paired lone
  refine ⟨fun h hp hlegal hc _ => ends_of h rfl ?cp, fun h hp hlegal hc _ => ends_of h rfl ?cp2, fun h hp hlegal hc _ => ends_of h rfl ?cptab,
    fun h hp hillegal => traps_of h rfl ?cpRefused, fun h hp hillegal => traps_of h rfl ?cp2Refused,
    fun h hillegal => traps_of h rfl (if_pos hillegal)⟩
  case cp => exact (Env.copyPairs_ready hp _).trans ((Env.convertCopy_legal hlegal ..).trans (Env.checkCopy_starts hc))
  case cp2 => exact (Env.copyPairs_ready hp _).trans ((Env.convertCopy_legal hlegal ..).trans (Env.checkCopy_starts hc))
  case cptab => exact (if_neg (ne_true_of_eq_false hlegal)).trans ((Env.copyPairs_ready hp _).trans (Env.checkCopy_starts hc))
  case cpRefused => exact (Env.copyPairs_ready hp _).trans (Env.convertCopy_illegal hillegal ..)
  case cp2Refused => exact (Env.copyPairs_ready hp _).trans (Env.convertCopy_illegal hillegal ..)

end Sys2Proof.Machine
end

section
/-! Residency requests and prefetches (O24): with every translation known `pgreq` finds each lane's page, and `pfetch` the lines of the pages
that are resident and may be read. -/

namespace Sys2Proof.Machine

/-- No lane of a mask satisfies a condition. -/
theorem maskOf_acting_eq_zero {m : Mask} {p : Nat → Bool} : maskOf (fun l => laneOn m l && p l) = 0 ↔ ∀ l ∈ lanesOf m, p l = false := by
  simp only [maskOf_eq_zero, List.any_eq_false, List.mem_range, Bool.and_eq_true, not_and, Bool.not_eq_true, mem_lanesOf, and_imp]

/-- Lanes act where some of them satisfy a condition. -/
theorem acts_of_maskOf {m : Mask} {p : Nat → Bool} (h : maskOf (fun l => laneOn m l && p l) ≠ 0) : m ≠ 0 := by
  rintro rfl
  exact h (maskOf_acting_eq_zero.mpr fun l hl => absurd (lanesOf_zero ▸ hl) List.not_mem_nil)

/-! ### Requests (R215) -/

/-- The request of a `pgreq` whose acting lanes find what `state` gives: an answer, a page, and whether the page is resident (R215). -/
def Env.pgreqStart (e : Env) (d : BitVec 6) (m : Mask) (state : Nat → Nat × Nat × Bool) : Res :=
  let xs := (lanesOf m).map (fun l => (l, state l))
  match e.start .cp (regs1 d) none
    (.pgreq d.toNat m (xs.map (fun x => (x.1, x.2.2.1))) ((xs.filter (fun x => x.2.1 = 1)).map (fun x => x.2.2.1))) with
  | .done e1 => .done (e1.via (fun s => s.requestPages e.c.ctx ((xs.filter (fun x => !x.2.2.2)).map (fun x => x.2.2.1))))
  | x => x

/-- R215: with every page known none is refused, and those that are not resident are requested. -/
theorem Env.pgreqStart_known (e : Env) {d : BitVec 6} {m : Mask} {state : Nat → Nat × Nat × Bool} {page : Nat → Nat} {gone : Nat → Bool}
    (hroom : e.t.full .cp = false) (hstate : ∀ l ∈ lanesOf m, state l = (0, page l, !gone l)) :
    e.pgreqStart d m state = .done ((e.inFlight .cp [d.toNat] none (.pgreq d.toNat m ((lanesOf m).map (fun l => (l, page l))) [])).via
      (fun s => s.requestPages e.c.ctx (((lanesOf m).filter gone).map page))) := by
  have hxs : (lanesOf m).map (fun l => (l, state l)) = (lanesOf m).map (fun l => (l, 0, page l, !gone l)) :=
    List.map_congr_left fun l hl => by rw [hstate l hl]
  have hrefused : (lanesOf m).filter (fun _ => decide (0 = 1)) = [] := List.filter_eq_nil_iff.mpr fun _ _ => by decide
  simp only [Env.pgreqStart, hxs, e.start_room _ _ _ _ hroom, List.map_map, List.filter_map, Function.comp_def, Bool.not_not, hrefused,
    List.map_nil]
  rfl

/-! ### Prefetches (R216) -/

/-- The lines that lane l of a `pfetch` asks for (R216). -/
def pfetchLines (e : Env) (a : BitVec 6) (n : BitVec 8) (l : Nat) : List Nat :=
  (List.range (n.toNat + 1)).map (fun i => ((e.t.lane64 a.toNat l).toNat / 128 + i) * 128)

/-- Those of its acting lanes whose address a page can have. -/
def pfetchVas (e : Env) (m : Mask) (a : BitVec 6) (n : BitVec 8) : List (Nat × Nat) :=
  (lanesOf m).flatMap (fun l => (pfetchLines e a n l).filterMap (fun v => if vaBad v then none else some (l, v)))

/-- The line in memory that a line asked for lies on, if its page is resident and may be read. -/
def Env.fetchedLine (e : Env) (x : Nat × Nat) : Option Nat :=
  match e.look x.1 x.2 with
  | .found tr => if pteR tr.entry && pteP tr.entry then some (tr.pa x.2 / 128) else none
  | _ => none

theorem mem_pfetchVas {e : Env} {m : Mask} {a : BitVec 6} {n : BitVec 8} {l v : Nat} :
    (l, v) ∈ pfetchVas e m a n ↔ l ∈ lanesOf m ∧ (∃ j, j ≤ n.toNat ∧ ((e.t.lane64 a.toNat l).toNat / 128 + j) * 128 = v) ∧ vaBad v = false := by
  simp only [pfetchVas, pfetchLines, List.mem_flatMap, List.mem_filterMap, List.mem_map, List.mem_range, Nat.lt_succ_iff]
  constructor
  · rintro ⟨k, hk, w, hw, heq⟩
    split at heq
    · cases heq
    · next hbad =>
      cases heq
      exact ⟨hk, hw, by simpa using hbad⟩
  · rintro ⟨hl, hv, hbad⟩
    exact ⟨l, hl, v, hv, by rw [hbad]; rfl⟩

theorem Env.fetchedLine_eq_some {e : Env} {l v x : Nat} : e.fetchedLine (l, v) = some x ↔
    ∃ tr, e.look l v = .found tr ∧ pteR tr.entry = true ∧ pteP tr.entry = true ∧ x = tr.pa v / 128 := by
  unfold Env.fetchedLine
  cases hlook : e.look l v with
  | miss => simp
  | invalid => simp
  | found tr =>
    simp only [Option.ite_none_right_eq_some, Bool.and_eq_true, Option.some.injEq, Lookup.found.injEq, exists_eq_left', and_assoc, @eq_comm _ x]

/-! ### The words -/

/-- Settles O24: known translations leave both words nothing to miss, so that they start on cp with the pages and the lines that they found. -/
theorem residency : Obligations.Residency := by
  unfold Obligations.Residency
  intro s e d a o n g
  refine ⟨fun h => ?request, fun h => ?misaligned, fun h => ?fetch⟩
  case request =>
    intro m va hm hfound hroom page gone
    have hmis : maskOf (fun l => laneOn m l && vaBad (va l)) = 0 := maskOf_acting_eq_zero.mpr fun l hl => (hfound l hl).1
    have hneeds : (lanesOf m).filter (fun l => e.look l (va l) = .miss) = [] := List.filter_eq_nil_iff.mpr fun l hl => by
      obtain ⟨-, tr, htr⟩ := hfound l hl
      simp [htr]
    refine ends_of h rfl ((if_neg hm).trans ((if_neg (fun hne => hne hmis)).trans ((if_neg (not_isEmpty_of_nil hneeds)).trans
      (e.pgreqStart_known (page := page) (gone := gone) hroom fun l hl => ?_))))
    obtain ⟨-, tr, htr⟩ := hfound l hl
    simp only [va] at htr
    simp only [page, gone, va, htr, Bool.not_not]
  case misaligned =>
    intro m bad hbad
    exact traps_of h rfl ((if_neg (acts_of_maskOf hbad)).trans (if_pos hbad))
  case fetch =>
    intro m line hm hknown hroom
    have hneeds : (pfetchVas e m a n).filter (fun x => e.look x.1 x.2 = .miss) = [] := List.filter_eq_nil_iff.mpr fun x hx => by
      obtain ⟨hl, ⟨j, hj, hv⟩, hbad⟩ := mem_pfetchVas.mp hx
      rw [← hv] at hbad ⊢
      exact mt of_decide_eq_true (hknown x.1 hl j hj hbad)
    refine ⟨(pfetchVas e m a n).filterMap e.fetchedLine, ends_of h rfl ?_, fun x => ?_⟩
    · exact (if_neg hm).trans ((if_neg (not_isEmpty_of_nil hneeds)).trans (e.start_room _ _ _ _ hroom))
    · simp only [List.mem_filterMap, Prod.exists, mem_pfetchVas, Env.fetchedLine_eq_some]
      constructor
      · rintro ⟨l, _, ⟨hl, ⟨j, hj, rfl⟩, hbad⟩, tr, hlook, hr, hp, rfl⟩
        exact ⟨l, hl, j, tr, hj, hbad, hlook, hr, hp, rfl⟩
      · rintro ⟨l, hl, j, tr, hj, hbad, hlook, hr, hp, rfl⟩
        exact ⟨l, _, ⟨hl, ⟨j, hj, rfl⟩, hbad⟩, tr, hlook, hr, hp, rfl⟩

end Sys2Proof.Machine
end

section
/-! The reservation of the Swage (O31). A class 0x9 word of a strand that passes the reservation (R234), with no tile write of `srdt` before
it (R237), comes to its own body. -/

namespace Sys2Proof.Machine

/-! ### The checks that class 0x9 words share (R234, R237) -/

/-- What a class 0x9 word does before its own body. -/
def swBody (r : Req) (held : Bool) (body : Env → Mask → Res) (e : Env) (m : Mask) : Res :=
  if held && !e.holdsSwage then e.illegal
  else if r.idle e then body e m
  else if e.awaitSrdt.srdtOpen then .hold e.awaitSrdt
  else body e.awaitSrdt m

theorem swIssue_eq (r : Req) (held : Bool) (body : Env → Mask → Res) (s : State) :
    swIssue r held body s = issue r (swBody r held body) s := rfl

/-- R234: the reservation is asked for and is not there. -/
theorem swBody_unheld {e : Env} (h : e.holdsSwage = false) (r : Req) (body : Env → Mask → Res) (m : Mask) : swBody r true body e m = e.illegal := by
  rw [swBody, h]
  rfl

/-- The reservation is there, if it is asked for, and no tile write of `srdt` is open. -/
theorem swBody_calm {e : Env} {held : Bool} (hh : held = true → e.holdsSwage = true) (hc : e.srdtOpen = false) (r : Req)
    (body : Env → Mask → Res) (m : Mask) : swBody r held body e m = body e m := by
  have hheld : ¬(held && !e.holdsSwage) = true := by
    rw [Bool.and_eq_true, Bool.not_eq_true', not_and]
    intro h
    rw [hh h]
    exact Bool.noConfusion
  have hsrdt : e.awaitSrdt = e := if_neg (ne_true_of_eq_false hc)
  rw [swBody, if_neg hheld, hsrdt, if_neg (ne_true_of_eq_false hc), ite_self]

section
variable {s : State} {e e' : Env} {i : Instr} {held : Bool} {body : Env → Mask → Res}

theorem unheld_traps (h : Starts s e i) (hx : exec i s = swIssue (reqOf i) true body s) (hh : e.holdsSwage = false) :
    Traps s i e (.plain cILLEGAL e.t.group) false :=
  traps_of h (hx.trans (swIssue_eq ..)) (swBody_unheld hh ..)

section
variable (h : Starts s e i) (hx : exec i s = swIssue (reqOf i) held body s) (hh : held = true → e.holdsSwage = true)
  (hc : e.srdtOpen = false)
include h hx hh hc

theorem swage_ends (hb : body e (maskFor i e) = .done e') : Ends s i e' :=
  ends_of h (hx.trans (swIssue_eq ..)) ((swBody_calm hh hc ..).trans hb)

theorem swage_holds (hb : body e (maskFor i e) = .hold e') : Becomes s i e' :=
  holds_of h (hx.trans (swIssue_eq ..)) ((swBody_calm hh hc ..).trans hb)

theorem swage_traps {ti : TrapInfo} {part : Bool} (hb : body e (maskFor i e) = .trap e' ti part) : Traps s i e' ti part :=
  traps_of h (hx.trans (swIssue_eq ..)) ((swBody_calm hh hc ..).trans hb)

end
end

/-! ### The words (R232, R233, R240, R252) -/

section
variable {s : State} {e : Env}

theorem mres_free {p : BitVec 3} (h : Starts s e (.mres p)) (hf : (e.s.core e.c.core).holder = none) :
    Ends s (.mres p) (e.takeSwage.putPred (maskFor (.mres p) e) p.toNat (fun _ => true)) := by
  refine ends_of h rfl ?_
  simp only [hf, Option.isNone_none, if_true, Bool.true_or]

theorem mres_taken {p : BitVec 3} (h : Starts s e (.mres p)) (hf : (e.s.core e.c.core).holder ≠ none) :
    Ends s (.mres p) (e.putPred (maskFor (.mres p) e) p.toNat (fun _ => e.holdsSwage)) := by
  refine ends_of h rfl ?_
  simp only [Option.isNone_eq_false_iff.mpr (Option.isSome_iff_ne_none.mpr hf), Bool.false_eq_true, if_false, Bool.false_or]

/-- The machine once the operations that the unit has of a crew have completed. -/
def Env.swSettled (e : Env) : Env := e.via (fun s => s.settleCrew e.c.id Pending.isSwage)

/-- Whether the unit still has an operation of the crew. -/
def Env.swOpen (e : Env) : Bool :=
  (match e.commit.crew? e.c.id with | some c => c.strands | none => []).any (fun t => t.inflight.any (fun p => p.isSwage && !p.done))

theorem Env.swOpen_iff (e : Env) : e.swOpen = true ↔
    ∃ c, e.commit.crew? e.c.id = some c ∧ ∃ t ∈ c.strands, ∃ q ∈ t.inflight, q.isSwage = true ∧ q.done = false := by
  unfold Env.swOpen
  cases e.commit.crew? e.c.id <;> simp

/-- The body of `mrel` (R233). -/
def mrelBody (e : Env) : Res :=
  if !e.holdsSwage then .done e
  else if e.swage.cvs.any (fun c => decide (0 < c.sigs)) then .trap e (.plain cCONV e.t.group) false
  else if e.swSettled.swOpen then .hold e.swSettled
  else .done { e.swSettled with s := e.swSettled.s.modCore e.swSettled.c.core (fun co => { co with holder := none, swage := .fresh }) }

theorem exec_mrel (s : State) : exec .mrel s = swIssue (reqOf .mrel) false (fun e _ => mrelBody e) s := rfl

theorem mrelBody_unheld (hh : e.holdsSwage = false) : mrelBody e = .done e := if_pos (by rw [hh]; rfl)

section
variable (hh : e.holdsSwage = true)
include hh

theorem mrelBody_signed (hs : ∃ v ∈ e.swage.cvs, 0 < v.sigs) : mrelBody e = .trap e (.plain cCONV e.t.group) false := by
  rw [mrelBody, hh, Bool.not_true, if_neg Bool.false_ne_true, if_pos]
  simpa only [List.any_eq_true, decide_eq_true_eq] using hs

theorem mrelBody_unsigned (hs : ∀ v ∈ e.swage.cvs, v.sigs = 0) : mrelBody e = if e.swSettled.swOpen then .hold e.swSettled
    else .done { e.swSettled with s := e.swSettled.s.modCore e.swSettled.c.core (fun co => { co with holder := none, swage := .fresh }) } := by
  rw [mrelBody, hh, Bool.not_true, if_neg Bool.false_ne_true, if_neg]
  simpa only [List.any_eq_true, decide_eq_true_eq, not_exists, not_and, Nat.not_lt, Nat.le_zero] using hs

end

section
variable {c : BitVec 3} {n : BitVec 12} (h : Starts s e (.cdecl c n)) (hc : e.srdtOpen = false) (hh : e.holdsSwage = true)
  {v : Conv} (hv : e.swage.cvs[c.toNat]? = some v)
include h hc hh hv

theorem cdecl_unsigned (h0 : v.sigs = 0) : Ends s (.cdecl c n) (e.setSwage { e.swage with
    cvs := e.swage.cvs.set c.toNat { decl := n.toNat, sigs := 0, key := none, signers := [] } }) :=
  swage_ends h rfl (fun _ => hh) hc (by simp only [hv, h0, Nat.lt_irrefl, if_false])

theorem cdecl_signed (h0 : 0 < v.sigs) : Traps s (.cdecl c n) e (.plain cCONV e.t.group) false :=
  swage_traps h rfl (fun _ => hh) hc (by simp only [hv, h0, if_true])

end
end

/-- Settles O31: `mres` by whether the Swage is free, and the other words by the reservation and the open signatures. -/
theorem swageReservation : Obligations.SwageReservation := by
  unfold Obligations.SwageReservation
  intro s e p c n d calm pred taken fresh e1 open_
  have hfree : false = true → e.holdsSwage = true := Bool.noConfusion
  refine ⟨mres_free, mres_taken, fun h hc hh => ?unheld, fun h hc hh hs => ?signed, fun h hc hh hs ho => ?released, fun h hc hh hs ho => ?held,
    fun h hc hh v hv => ⟨cdecl_unsigned h hc hh hv, cdecl_signed h hc hh hv⟩, fun h hc hh hroom => ?mstat,
    fun h hh => unheld_traps h rfl hh, fun h hh => unheld_traps h rfl hh⟩
  case unheld => exact swage_ends h (exec_mrel s) hfree hc (mrelBody_unheld hh)
  case signed => exact swage_traps h (exec_mrel s) hfree hc (mrelBody_signed hh hs)
  case released => exact swage_ends h (exec_mrel s) hfree hc ((mrelBody_unsigned hh hs).trans (if_neg (mt e.swSettled.swOpen_iff.mp ho)))
  case held => exact swage_holds h (exec_mrel s) hfree hc ((mrelBody_unsigned hh hs).trans (if_pos (e.swSettled.swOpen_iff.mpr ho)))
  case mstat => exact swage_ends h rfl (fun _ => hh) hc (e.start_room _ _ _ _ hroom)

end Sys2Proof.Machine
end

section
/-! Tile arithmetic (O32). A tile word with an acting lane and room on mx comes to what the unit makes of it: an unsigned one is accepted at
once (R237, R238). -/

namespace Sys2Proof.Machine

/-! ### Acceptance of an unsigned word (R237, R238) -/

/-- R186: a counter with room needs none made. -/
theorem Env.makeRoom_room {e : Env} {k : Ctr} (h : e.t.full k = false) : e.makeRoom k = e := if_neg (ne_true_of_eq_false h)

/-- An operation that meets nothing uncorrectable is counted on mx. -/
theorem Env.swUnsigned_ok {e e1 : Env} {lane : Nat} {stores gone : Bool} {pas : List Nat} {accept : Env → Nat → SwRes}
    (hroom : e.t.full .mx = false) (ha : accept e lane = .ok { e := e1, absent := gone, bad := none, pas := pas })
    (hfull : e1.t.full .mx = e.t.full .mx) : e.swUnsigned lane stores accept
      = .done (e1.inFlight .mx [] none (.swage (if gone then some lane else none) false none stores)) := by
  simp only [Env.swUnsigned, Env.makeRoom_room hroom, hroom, ha, Bool.false_eq_true, if_false]
  exact e1.start_room _ _ _ _ (hfull.trans hroom)

theorem Env.swUnsigned_stop {e : Env} {lane : Nat} {stores : Bool} {accept : Env → Nat → SwRes} {x : Res} (hroom : e.t.full .mx = false)
    (ha : accept e lane = .stop x) : e.swUnsigned lane stores accept = x := by
  simp only [Env.swUnsigned, Env.makeRoom_room hroom, hroom, ha, Bool.false_eq_true, if_false]

section
variable {s : State} {e e1 : Env} {i : Instr} {r : Req} {cv : BitVec 3} {stores : Bool} {accept : Env → Nat → SwRes}
  {refuse : Env → Option Nat}
variable (hx : exec i s = tileOp r cv 0 stores accept refuse s) (hr : reqOf i = r.signed 0)
include hx hr

/-- What an unsigned word with an acting lane is. -/
theorem exec_unsigned : exec i s = swIssue (reqOf i) true (fun e m =>
    if m = 0 then (match refuse e with
      | some cause => .trap e (.plain cause e.t.group) false
      | none => .done e)
    else e.swUnsigned (lowLane m) stores accept) s := by
  rw [hx, hr]
  rfl

variable (h : TileReady s e i)
include h

/-- An unsigned word that is accepted. -/
theorem tile_ends {gone : Bool} {pas : List Nat}
    (ha : accept e (lowLane (maskFor i e)) = .ok { e := e1, absent := gone, bad := none, pas := pas }) (hfull : e1.t.full .mx = e.t.full .mx) :
    Ends s i (e1.inFlight .mx [] none (.swage (if gone then some (lowLane (maskFor i e)) else none) false none stores)) :=
  swage_ends h.starts (exec_unsigned hx hr) (fun _ => h.held) h.calm ((if_neg h.acts).trans (Env.swUnsigned_ok h.room ha hfull))

/-- An unsigned word that is refused. -/
theorem tile_traps {ti : TrapInfo} {part : Bool} (ha : accept e (lowLane (maskFor i e)) = .stop (.trap e1 ti part)) : Traps s i e1 ti part :=
  swage_traps h.starts (exec_unsigned hx hr) (fun _ => h.held) h.calm ((if_neg h.acts).trans (Env.swUnsigned_stop h.room ha))

end

/-- An unsigned word that nothing refuses, and that leaves the strand. -/
theorem plain_ends {s : State} {e : Env} {i : Instr} {r : Req} {cv : BitVec 3} {f : Env → Env}
    (hx : exec i s = tileOp r cv 0 false (fun e _ => .plain (f e)) (fun _ => none) s) (hr : reqOf i = r.signed 0) (h : TileReady s e i)
    (ht : (f e).t = e.t) : TileDone s e i false (f e) :=
  tile_ends (pas := []) hx hr h rfl (congrArg (fun t : Strand => t.full .mx) ht)

/-! ### Words that nothing refuses (R246, R249, R250) -/

/-- A tile whose shaped elements are zero. -/
def Env.zeroTile (e : Env) (tn : Nat) : Env := (e.setSwage (e.swage.setTile tn (e.swage.tile tn).zero)).swWritten tn []

/-- The other bank active. -/
def Env.swapBanks (e : Env) : Env := e.setSwage { e.swage with act := !e.swage.act }

/-- A bank in its fresh state, in one of its modes. -/
def Env.clearBank (e : Env) (one int : Bool) : Env := (e.setSwage (e.swage.setBank one (.fresh int))).swFresh (fun u => u / 2048 = if one then 5 else 4)

section
variable (t : BitVec 4) (k q md : BitVec 1) (c g : BitVec 3) (s : State)

theorem exec_tzero : exec (.tzero t c q g) s = tileOp { instr := .tzero t c q g, pg := g.toNat, lazy := true } c q false
    (fun e _ => .plain (e.zeroTile t.toNat)) (fun _ => none) s := rfl

theorem exec_mswap : exec (.mswap c q g) s = tileOp { instr := .mswap c q g, pg := g.toNat, lazy := true } c q false
    (fun e _ => .plain e.swapBanks) (fun _ => none) s := rfl

theorem exec_mclr : exec (.mclr k c q md g) s = tileOp { instr := .mclr k c q md g, pg := g.toNat, lazy := true } c q false
    (fun e _ => .plain (e.clearBank (e.swage.selected k) (md = 1))) (fun _ => none) s := rfl

end

/-! ### What operations leave of the strand -/

@[simp] theorem Env.swFresh_t (e : Env) (whole : Nat → Bool) : (e.swFresh whole).t = e.t := by
  unfold Env.swFresh
  split <;> rfl

@[simp] theorem Env.swWritten_t (e : Env) (tn : Nat) (missing : List (Nat × Nat)) : (e.swWritten tn missing).t = e.t := Env.swFresh_t ..

/-- The key of an operation that may be stochastic (R253). -/
def Env.swKeyed (e : Env) (stoch : Bool) (lane : Nat) : Nat × Env := if stoch then e.swKey lane else (0, e)

/-- A key leaves everything but the count of draws. -/
theorem Env.swKeyed_rest (e : Env) (stoch : Bool) (lane : Nat) : (e.swKeyed stoch lane).2.s = e.s ∧ (e.swKeyed stoch lane).2.c = e.c
    ∧ ∀ k, (e.swKeyed stoch lane).2.t.full k = e.t.full k := by
  unfold Env.swKeyed
  split <;> exact ⟨rfl, rfl, fun _ => rfl⟩

/-! ### Multiplies (R247, R248) -/

section
variable {e : Env} {lane an bn : Nat} {index : Option Nat} {refused : Option Nat} {pairs : Nat → List (Nat × Nat)}

/-- Operands that fit, and nothing uncorrectable: every accumulator is worked out. -/
theorem Env.multiply_sound (hs : e.swSound = true) (hr : refused = none) : e.multiply lane an bn index refused pairs
    = .ok { e := e.setSwage (e.swage.setBank e.swage.act ((e.swage.bank e.swage.act).multiply (e.swage.tile an) (e.swage.tile bn) pairs (fun _ _ => false)))
            absent := false, bad := none } := by
  have hskip : e.cellBad an bn index pairs = fun _ _ => false := by
    funext i j
    simp only [Env.cellBad, hs, Bool.not_true, Bool.false_and]
  simp only [Env.multiply, hr, hskip, hs, Bool.not_true, Bool.false_and]
  rfl

theorem Env.multiply_refused {cause : Nat} (hr : refused = some cause) :
    e.multiply lane an bn index refused pairs = swTrap e cause lane := by
  simp only [Env.multiply, hr]

end

/-! ### Drains (R251) -/

/-- With no column left out a drained row has all its bytes. -/
theorem Bank.drainRow_whole (bk : Bank) (row col0 nc dt actv mode : Nat) (sat : Bool) (scale : Num) (draw : Nat → Nat) :
    (bk.drainRow row col0 nc dt actv mode sat scale draw (fun _ => false)).all Option.isSome = true := by
  simp [Bank.drainRow]

theorem State.writeSome_whole {s : State} {write : State → Nat → List Byte → State} {a : Nat} {bs : List (Option Byte)}
    (h : bs.all Option.isSome = true) : s.writeSome write a bs = write s a (bs.filterMap id) := if_pos h

/-- A bank with a region of it drained into CBUF, by the operands of lane m (R251). -/
def Env.drained (e : Env) (k : BitVec 1) (a b : BitVec 4) (dt : BitVec 3) (actv : BitVec 2) (lane : Nat) : Env :=
  let x := regionOf (e.t.lane (tlReg b + 1) lane)
  let keyed := e.swKeyed (dt = 3 || e.t.unit.mode = rsto) lane
  let row (i : Nat) : List (Option Byte) := (e.swage.bank (e.swage.selected k)).drainRow (x.row0 + i) x.col0 x.nc dt.toNat actv.toNat e.t.unit.mode
    (e.t.unit.sat false) (decodeFmt fmtFp32 (e.t.lane (tlReg b) lane).toNat) (fun j => srDraw e.c.seed.toNat keyed.1 (i * x.nc + j)) (fun _ => false)
  { keyed.2 with s := (List.range x.nr).foldl (fun s i => s.writeLocal e.c.core .cbuf
      (e.c.cclaim.base + (e.t.lane (tlReg a) lane).toNat + i * (e.t.lane (tlReg a + 1) lane).toNat) ((row i).filterMap id)) keyed.2.s }

/-- What refuses a drain by those operands. -/
def Env.drainCheck (e : Env) (a b : BitVec 4) (dt : BitVec 3) (lane : Nat) : Option Nat :=
  drainRefused e.c.cclaim.size dt.toNat e.t.unit.mode (e.t.lane (tlReg b + 1) lane) (e.t.lane (tlReg a) lane).toNat
    (e.t.lane (tlReg a + 1) lane).toNat

/-- The trap of a refused drain: a PERM gives the lowest refused offset (R244, R251). -/
def Env.drainTrap (e : Env) (a b : BitVec 4) (dt : BitVec 3) (lane cause : Nat) : TrapInfo :=
  if cause = cPERM then .at cPERM (laneBit lane) (drainPast e.c.cclaim.size dt.toNat (e.t.lane (tlReg b + 1) lane)
    (e.t.lane (tlReg a) lane).toNat (e.t.lane (tlReg a + 1) lane).toNat)
  else .plain cause (laneBit lane)

section
variable {s : State} {e : Env} {k : BitVec 1} {a b : BitVec 4} {c dt g : BitVec 3} {actv : BitVec 2} {lane : Nat}
  (h : TileReady s e (.mdrain k a b c 0 dt actv g)) (hl : lowLane (maskFor (.mdrain k a b c 0 dt actv g) e) = lane)
include h hl

theorem mdrain_ends (hs : e.swSound = true) (hd : e.drainCheck a b dt lane = none) :
    TileDone s e (.mdrain k a b c 0 dt actv g) false (e.drained k a b dt actv lane) := by
  refine tile_ends (pas := []) rfl rfl h ?_ ((e.swKeyed_rest _ _).2.2 .mx)
  have hnone (n m : Nat) : noAddress ((List.range n).any (fun _ => (List.range m).any (fun _ => false))) = none := by simp [noAddress]
  rw [Env.drainCheck] at hd
  rw [hl]
  simp only [Crew.claim, hd, hs, hnone, Bool.not_true, Bool.false_and, State.writeSome_whole (Bank.drainRow_whole ..)]
  rfl

theorem mdrain_traps {cause : Nat} (hd : e.drainCheck a b dt lane = some cause) :
    Traps s (.mdrain k a b c 0 dt actv g) e (e.drainTrap a b dt lane cause) false := by
  refine tile_traps rfl rfl h ?_
  rw [Env.drainCheck] at hd
  rw [hl, Env.drainTrap]
  simp only [Crew.claim, hd]
  split <;> rfl

end

/-- Settles O32: each word is accepted with what it leaves, or stopped by what refuses it. -/
theorem tileArithmetic : Obligations.TileArithmetic := by
  unfold Obligations.TileArithmetic
  intro s e t a b c g dt k md actv w x y z mma mmas drain lane one fits off stride region scale bank
  refine ⟨fun h => ?tzero, fun h => ?mswap, fun h => ?mclr, fun h hr hs => ?mma, fun cause h hr => ?mmaRefused, fun h hr hs => ?mmas,
    fun cause h hr => ?mmasRefused, fun h hd hs => mdrain_ends h rfl hs hd, fun cause h hd => mdrain_traps h rfl hd⟩
  case tzero => exact (plain_ends (exec_tzero ..) rfl h (Env.swWritten_t ..) :)
  case mswap => exact (plain_ends (exec_mswap ..) rfl h rfl :)
  case mclr => exact (plain_ends (exec_mclr ..) rfl h (Env.swFresh_t ..) :)
  case mma => exact tile_ends rfl rfl h (Env.multiply_sound hs hr) rfl
  case mmas => exact tile_ends rfl rfl h (Env.multiply_sound hs hr) rfl
  case mmaRefused => exact tile_traps rfl rfl h (Env.multiply_refused hr)
  case mmasRefused => exact tile_traps rfl rfl h (Env.multiply_refused hr)

end Sys2Proof.Machine
end

section
/-! What writes at home slices and accepted signatures leave of the strands that they find: as many operations on each counter (R185). So a
strand that has room on a counter has room there after a change of the machine made with the strand put back. -/

namespace Sys2Proof.Machine

/-! ### The counters of a strand -/

/-- The counters of a strand's operations, in the order of their issue. -/
def Strand.counters (t : Strand) : List Ctr := t.inflight.map Pending.ctr

theorem Strand.full_congr {t u : Strand} (h : u.counters = t.counters) (k : Ctr) : u.full k = t.full k := by
  have hcount (t : Strand) : (t.inflight.filter (fun p => p.ctr = k)).length = (t.counters.filter (fun c => c = k)).length := by
    rw [Strand.counters, List.filter_map, List.length_map]
    rfl
  rw [Strand.full, Strand.full, hcount, hcount, h]

theorem Strand.wakeLanes_inflight (t : Strand) (m : Mask) : (t.wakeLanes m).inflight = t.inflight := by
  unfold Strand.wakeLanes
  have hregroup (u : Strand) : u.regroupIdle.inflight = u.inflight := by unfold Strand.regroupIdle; split <;> rfl
  dsimp only
  rw [hregroup, Strand.releaseMet_frame, Strand.parkLanes_frame]
  rfl

theorem Strand.mergePred_inflight (t : Strand) (p : Nat) (m v : Mask) : (t.mergePred p m v).inflight = t.inflight := by
  unfold Strand.mergePred Strand.setPred
  split <;> rfl

/-- The counters of a strand of the machine. -/
def State.countersOf (s : State) (crew i : Nat) : Option (List Ctr) := (s.strand? crew i).map Strand.counters

theorem State.countersOf_congr {s t : State} (h : s.crews = t.crews) (crew i : Nat) : s.countersOf crew i = t.countersOf crew i := by
  simp only [State.countersOf, State.strand?, State.crew?, h]

/-! ### Changes of one strand -/

/-- A strand changed in place. -/
theorem State.strand?_modStrand (s : State) (c n : Nat) {f : Strand → Strand} (hidx : ∀ t, (f t).idx = t.idx) (crew i : Nat) :
    (s.modStrand c n f).strand? crew i = (s.strand? crew i).map (fun t => if crew = c ∧ i = n then f t else t) := by
  have hcrew : (s.modStrand c n f).crew? crew = (s.crew? crew).map (fun y =>
      if y.id = c then { y with strands := y.strands.map fun t => if t.idx = n then f t else t } else y) := by
    rw [State.crew?, State.modStrand_crews, List.find?_map]
    refine congrArg (Option.map _) (congrArg (fun p => s.crews.find? p) (funext fun y => ?_))
    simp only [Function.comp_apply]
    split <;> rfl
  have hstrand (y : Crew) : ({ y with strands := y.strands.map fun t => if t.idx = n then f t else t } : Crew).strand? i
      = (y.strand? i).map (fun t => if t.idx = n then f t else t) := by
    refine List.find?_map.trans (congrArg (Option.map _) (congrArg (fun p => y.strands.find? p) (funext fun t => ?_)))
    simp only [Function.comp_apply]
    split
    · rw [hidx]
    · rfl
  rw [State.strand?, State.strand?, hcrew]
  cases hc : s.crew? crew with
  | none => rfl
  | some y =>
    rw [Option.map_some, Option.bind_some, Option.bind_some, ← State.crew?_id hc]
    by_cases h : y.id = c
    · rw [if_pos h, hstrand]
      cases ht : y.strand? i with
      | none => rfl
      | some t => simp only [Option.map_some, Crew.strand?_idx ht, h, true_and]
    · simp only [h, false_and, if_false, Option.map_id']

/-- A strand put back in its place. -/
theorem Env.strand?_commit {s : State} {e : Env} {c : Crew} (hcrews : e.s.crews = s.crews) (hc : s.crew? e.c.id = some c)
    (hstrands : e.c.strands = c.strands) (crew i : Nat) :
    e.commit.strand? crew i = (s.strand? crew i).map (fun t => if crew = e.c.id ∧ i = e.t.idx then e.t else t) := by
  have hcrew (id : Nat) : e.s.crew? id = s.crew? id := by simp only [State.crew?, hcrews]
  have hstrand (j : Nat) : e.c.strand? j = c.strand? j := by simp only [Crew.strand?, hstrands]
  have hid : (e.c.setStrand e.t).id = e.c.id := rfl
  rw [State.strand?, State.strand?, Env.commit, State.crew?_setCrew, hid, hcrew]
  by_cases h : crew = e.c.id
  · rw [if_pos h, h, hc, Option.map_some, Option.bind_some, Option.bind_some, Crew.strand?_setStrand, hstrand]
    by_cases hi : i = e.t.idx <;> simp only [hi, and_true, and_false, if_true, if_false, Option.map_id']
  · simp only [h, false_and, if_false, Option.map_id']

/-- A change of strands that keeps the counters of each. -/
theorem State.countersOf_of_map {s s' : State} {crew i : Nat} {f : Strand → Strand} (h : s'.strand? crew i = (s.strand? crew i).map f)
    (hf : ∀ t, s.strand? crew i = some t → (f t).counters = t.counters) : s'.countersOf crew i = s.countersOf crew i := by
  rw [State.countersOf, State.countersOf, h]
  cases ht : s.strand? crew i with
  | none => rfl
  | some t => exact congrArg some (hf t ht)

theorem State.countersOf_modStrand (s : State) (c n : Nat) {f : Strand → Strand} (hidx : ∀ t, (f t).idx = t.idx)
    (hf : ∀ t, (f t).counters = t.counters) (crew i : Nat) : (s.modStrand c n f).countersOf crew i = s.countersOf crew i :=
  State.countersOf_of_map (s.strand?_modStrand c n hidx crew i) fun t _ => by
    split
    · exact hf t
    · rfl

theorem Env.countersOf_commit {s : State} {e : Env} {c : Crew} {t : Strand} (hcrews : e.s.crews = s.crews) (hc : s.crew? e.c.id = some c)
    (hstrands : e.c.strands = c.strands) (ht : c.strand? e.t.idx = some t) (hcount : e.t.counters = t.counters) (crew i : Nat) :
    e.commit.countersOf crew i = s.countersOf crew i :=
  State.countersOf_of_map (Env.strand?_commit hcrews hc hstrands crew i) fun u hu => by
    split
    next hat =>
      rw [hat.1, hat.2, State.strand?, hc, Option.bind_some, ht] at hu
      rw [hcount, Option.some.inj hu]
    next => rfl

/-! ### Writes at home slices (R213) -/

/-- A thread that returns from `waita` leaves the operations in flight. -/
theorem State.countersOf_returnWaita (s : State) (c n l vd pd : Nat) (x : Word) (hit : Bool) (crew i : Nat) :
    (s.returnWaita c n l vd pd x hit).countersOf crew i = s.countersOf crew i := by
  unfold State.returnWaita
  split
  · rfl
  next y hy =>
    split
    · rfl
    next t ht =>
      have hcomp := Env.put1_computed { s := s, c := y, t := t } true { d := vd, tag := .general, vals := (t.reg vd).lanes.set l x }
      dsimp only
      generalize Env.put1 _ true _ = e1 at hcomp ⊢
      generalize hw : ({ (e1.t.mergePred pd _ _).wakeLanes _ with acq := true } : Strand) = w
      have hidx : w.idx = t.idx := by
        rw [← hw, Strand.wakeLanes_idx, Strand.mergePred_idx, congrArg Strand.idx hcomp.strand]
      have hflight : w.inflight = t.inflight := by
        rw [← hw, Strand.wakeLanes_inflight, Strand.mergePred_inflight, congrArg Strand.inflight hcomp.strand]
      refine Env.countersOf_commit (c := y) (t := t) (e := e1.on w) (congrArg State.crews hcomp.rest :) ?_ (congrArg Crew.strands hcomp.crew :) ?_
        (congrArg (List.map Pending.ctr) hflight) crew i
      · exact (congrArg s.crew? (congrArg Crew.id hcomp.crew :)).trans ((State.crew?_id hy).symm ▸ hy)
      · exact (congrArg y.strand? (hidx.trans (Crew.strand?_idx ht))).trans ht

theorem State.countersOf_wakeWaita (s : State) (pa n crew i : Nat) : (s.wakeWaita pa n).countersOf crew i = s.countersOf crew i := by
  unfold State.wakeWaita
  refine foldl_keeps _ (fun st : State => st.countersOf crew i) (fun st w => ?_) _ _
  dsimp only
  unfold State.rereadWaita
  split
  · exact State.countersOf_modStrand st _ _ (f := fun t => t.rewait fun l _ => l = w.2.2.1) (fun _ => rfl) (fun _ => rfl) crew i
  · generalize BitVec.ofNat 32 _ = v
    dsimp only
    split
    · rfl
    · exact State.countersOf_returnWaita ..

theorem State.countersOf_homeWrite (s : State) (w : Writer) (ctx : Option Nat) (pa : Nat) (bs : List Byte) (crew i : Nat) :
    (s.homeWrite w ctx pa bs).countersOf crew i = s.countersOf crew i := by
  unfold State.homeWrite
  split
  · unfold State.kickRefused
    refine foldl_keeps _ (fun st : State => st.countersOf crew i) (fun st k => ?_) _ _
    rfl
  · rw [State.countersOf_wakeWaita]
    refine Eq.trans (State.countersOf_congr ?_ crew i) (State.countersOf_congr (congrArg Prod.snd (State.performWrite_aside s w ctx pa bs)) crew i)
    unfold State.latchDeps
    split <;> rfl

/-! ### Signatures (R241) -/

theorem modWhere_counters (xs : List Pending) (p : Pending → Bool) {f : Pending → Pending} (hf : ∀ q, (f q).ctr = q.ctr) :
    (modWhere xs p f).map Pending.ctr = xs.map Pending.ctr := by
  rw [modWhere, List.map_map]
  refine List.map_congr_left fun q _ => ?_
  rw [Function.comp_apply]
  split
  · exact hf q
  · rfl

/-- The shares of signers that complete stay counted. -/
theorem State.countersOf_readySigners (s : State) (ss : List (Nat × Nat × Nat)) (crew i : Nat) :
    (s.readySigners ss).countersOf crew i = s.countersOf crew i := by
  unfold State.readySigners
  refine foldl_keeps _ (fun st : State => st.countersOf crew i) (fun st o => ?_) _ _
  refine State.countersOf_modStrand st o.1 o.2.1 ?_ ?_ crew i
  · exact fun _ => rfl
  · refine fun t => modWhere_counters t.inflight _ ?_
    exact fun _ => rfl

/-! ### The issuing strand -/

/-- The issuing strand keeps its counters where the change keeps those of every strand. -/
theorem Env.via_full {e : Env} {f : State → State} (h : ∀ s crew i, (f s).countersOf crew i = s.countersOf crew i) (k : Ctr) :
    (e.via f).t.full k = e.t.full k := by
  have hfound := h e.commit e.c.id e.t.idx
  refine Strand.full_congr ?_ k
  unfold Env.via Env.reload
  cases hc : (f e.commit).crew? e.c.id with
  | none => rfl
  | some c =>
    dsimp only
    cases ht : c.strand? e.t.idx with
    | none => rfl
    | some t =>
      rw [State.countersOf, State.strand?, hc, Option.bind_some, ht, Option.map_some] at hfound
      obtain ⟨u, hu, hcount⟩ := Option.map_eq_some_iff.mp hfound.symm
      rw [← Env.eq_of_commit_strand? hu]
      exact hcount.symm

end Sys2Proof.Machine
end

section
/-! Tile moves (O33). A move whose tile passes the checks of R244 comes to what it loads or stores; in a machine without uncorrectable errors
every byte of it is there. -/

namespace Sys2Proof.Machine

/-- A move is global where its SP field is 0 (R242). -/
theorem spaceOf_eq_none {sp : BitVec 2} : spaceOf sp.toNat = none ↔ sp = 0 := by
  revert sp
  decide

/-! ### The checks of a move (R244) -/

section
variable {e : Env} {tn lane : Nat} {isMeta : Bool} {sp : BitVec 2} {base : Nat} {stride : Int} {go : Tile → SwRes}

theorem Env.checkMove_kind (h : decide ((e.swage.tile tn).fmt = fmtMeta) ≠ isMeta) :
    e.checkMove tn lane isMeta sp base stride go = swTrap e cILLEGAL lane := if_pos (bne_iff_ne.mpr h)

theorem Env.checkMove_shape (h : decide ((e.swage.tile tn).fmt = fmtMeta) = isMeta) (hr : (e.swage.tile tn).rows = 0) :
    e.checkMove tn lane isMeta sp base stride go = swTrap e cSHAPE lane :=
  (if_neg fun hne => bne_iff_ne.mp hne h).trans (if_pos hr)

theorem Env.checkMove_pass (h : decide ((e.swage.tile tn).fmt = fmtMeta) = isMeta) (hr : (e.swage.tile tn).rows ≠ 0)
    (hva : sp = 0 → vaBad base = false) (halign : tileBits (e.swage.tile tn).fmt = 16 → base % 2 = 0 ∧ stride % 2 = 0) :
    e.checkMove tn lane isMeta sp base stride go = go (e.swage.tile tn) := by
  refine (if_neg fun hne => bne_iff_ne.mp hne h).trans ((if_neg hr).trans (if_neg ?_))
  simp only [Bool.or_eq_true, Bool.and_eq_true, decide_eq_true_eq]
  rintro (⟨hsp, hbad⟩ | ⟨hbits, hodd⟩)
  · exact Bool.false_ne_true ((hva hsp).symm.trans hbad)
  · obtain ⟨hb, hs⟩ := halign hbits
    exact hodd.elim (· hb) (· hs)

end

section
variable {e : Env} {tn lane : Nat} {isMeta : Bool} {perm : DWord → Bool} {sp : BitVec 2} {a b : BitVec 4}

/-- The rows of a global move that is clear. -/
theorem Env.globalRows_clear (hsp : sp = 0) (h : MoveClear e tn lane isMeta perm sp a b) (kind : BitVec 5) (go : List Piece → SwRes) :
    e.globalRows lane kind perm (e.moveRows tn lane sp a b) (e.swage.tile tn).memRow go = go (e.movePieces tn lane perm sp a b) := by
  obtain ⟨-, -, -, -, hrows, hpieces⟩ := h
  have hinside : ¬((e.moveRows tn lane sp a b).any (fun r => decide (r < 0 ∨ 2 ^ 57 < r + (e.swage.tile tn).memRow))) = true := by
    rw [List.any_eq_true]
    rintro ⟨r, hr, hout⟩
    obtain ⟨hlo, hhi⟩ := hrows r hr
    rw [spaceOf_eq_none.mpr hsp] at hhi
    exact (of_decide_eq_true hout).elim (Int.not_lt.mpr hlo) (Int.not_lt.mpr hhi)
  have hclass (c : ECls) (hc : c = .need ∨ c = .refused) :
      (e.movePieces tn lane perm sp a b).filter (fun p => decide (p.cls = c)) = [] := by
    refine List.filter_eq_nil_iff.mpr fun p hp hpc => ?_
    obtain ⟨tr, hgood⟩ := hpieces hsp p hp
    rw [of_decide_eq_true hpc] at hgood
    rcases hc with rfl | rfl <;> exact hgood.elim nofun nofun
  exact (if_neg hinside).trans ((if_neg (not_isEmpty_of_nil (hclass _ (.inl rfl)))).trans (if_neg (not_isEmpty_of_nil (hclass _ (.inr rfl)))))

/-- The rows of a local move that is clear. -/
theorem Env.localRows_clear {x : Space} (hsp : spaceOf sp.toNat = some x) (h : MoveClear e tn lane isMeta perm sp a b)
    (go : List Nat → SwRes) : e.localRows lane x (e.moveRows tn lane sp a b) (e.swage.tile tn).memRow go
      = go ((e.moveRows tn lane sp a b).map (fun r => (e.c.claim x).base + r.toNat)) := by
  obtain ⟨-, -, -, -, hrows, -⟩ := h
  have hout : (e.moveRows tn lane sp a b).filter (fun r => decide (r < 0 ∨ ((e.c.claim x).size : Int) < r + (e.swage.tile tn).memRow)) = [] := by
    refine List.filter_eq_nil_iff.mpr fun r hr hbad => ?_
    obtain ⟨hlo, hhi⟩ := hrows r hr
    rw [hsp] at hhi
    exact (of_decide_eq_true hbad).elim (Int.not_lt.mpr hlo) (Int.not_lt.mpr hhi)
  simp only [Env.localRows, hout]
  rfl

end

/-! ### A machine without uncorrectable errors (R256) -/

theorem State.bad_of_noErrors {s : State} (hue : s.ue = []) (pa n : Nat) : s.bad pa n = false := by
  rw [State.bad, hue, List.any_nil, Bool.and_false]

theorem State.soundBytes_all {s : State} (hue : s.ue = []) (pa n : Nat) : s.soundBytes pa n = (s.peekBytes pa n).map some :=
  if_neg (ne_true_of_eq_false (State.bad_of_noErrors hue pa n))

theorem Env.swSound_of_noErrors {e : Env} (hue : e.s.ue = []) : e.swSound = true := by
  rw [Env.swSound, hue]
  rfl

theorem Env.setSwage_swWritten {e : Env} (hue : e.s.ue = []) (w : Swage) (tn : Nat) (missing : List (Nat × Nat)) :
    (e.setSwage w).swWritten tn missing = e.setSwage w := if_pos (Env.swSound_of_noErrors (e := e.setSwage w) hue)

theorem Env.localBytes_all {e : Env} (hue : e.s.ue = []) (sp : Space) (a n : Nat) :
    e.localBytes sp a n = (Memory.readBytes ((e.s.core e.c.core).buf sp) a n).map some := by
  refine List.ext_getElem (by simp [Env.localBytes]) fun k _ _ => ?_
  simp [Env.localBytes, hue]

/-- A row of a sound tile has all its bytes. -/
theorem Env.soundRow_all {e : Env} (h : e.swSound = true) (tn i : Nat) : e.soundRow tn i = ((e.swage.tile tn).rawRow i).map some := if_pos h

theorem missingAt_map_some (bs : List Byte) : missingAt (bs.map some) = [] := by
  simp [missingAt, List.zipIdx_map]

theorem any_isNone_map_some (bs : List Byte) : (bs.map some).any Option.isNone = false := by
  simp

theorem State.writeSome_map_some (s : State) (write : State → Nat → List Byte → State) (a : Nat) (bs : List Byte) :
    s.writeSome write a (bs.map some) = write s a bs := by
  rw [State.writeSome_whole (by simp), List.filterMap_map, Function.id_comp, List.filterMap_some]

/-! ### Raw loads (R243) -/

/-- A stretch of a row that is not in memory. -/
def Piece.gone (p : Piece) : Bool := match p.cls with | .good _ => false | _ => true

/-- The bytes that a load finds on a stretch, zeros where its page is absent. -/
def Env.pieceBytes (e : Env) (p : Piece) : List Byte :=
  match p.cls with
  | .good tr => e.s.peekBytes (tr.pa p.va) p.len
  | _ => List.replicate p.len 0

section
variable {e : Env} (hue : e.s.ue = [])
include hue

theorem Env.loadGlobal_all (tn : Nat) (ps : List Piece) : e.loadGlobal tn ps = .ok {
    e := e.setSwage (e.swage.setTile tn (ps.foldl (fun t p => t.setRow p.row p.off ((e.pieceBytes p).map some)) (e.swage.tile tn)))
    absent := ps.any Piece.gone, bad := none } := by
  unfold Env.loadGlobal
  extract_lets t0 bytes t lost
  have hbytes : bytes = fun p => (e.pieceBytes p).map some := funext fun ⟨row, off, va, len, cls⟩ => by
    cases cls with
    | good tr => exact State.soundBytes_all hue ..
    | _ => exact List.map_replicate.symm
  have hlost : lost = [] := by
    simp only [lost, hbytes, missingAt_map_some, List.map_nil, List.flatMap_eq_nil_iff, implies_true]
  have ht : t = ps.foldl (fun t p => t.setRow p.row p.off ((e.pieceBytes p).map some)) (e.swage.tile tn) := by
    simp only [t, hbytes, t0]
  clear_value lost t
  subst hlost ht
  rw [Env.setSwage_swWritten hue]
  rfl

theorem Env.loadLocalRows_all (tn : Nat) (sp : Space) (base n : Nat) (rows : List Nat) : e.loadLocalRows tn sp base n rows = .ok {
    e := e.setSwage (e.swage.setTile tn (rows.zipIdx.foldl (fun t r => t.setRow r.2 0
      ((Memory.readBytes ((e.s.core e.c.core).buf sp) r.1 n).map some)) (e.swage.tile tn)))
    absent := false, bad := none } := by
  have hlost : rows.zipIdx.flatMap (fun r => ([] : List Nat).map (fun k => (r, k))) = [] := by simp
  simp only [Env.loadLocalRows, Env.localBytes_all hue, missingAt_map_some, hlost]
  rw [Env.setSwage_swWritten hue]
  rfl

/-- A raw load that is clear. -/
theorem Env.rawLoad_clear {tn lane : Nat} {isMeta : Bool} {sp : BitVec 2} {a b : BitVec 4} (h : MoveClear e tn lane isMeta pteR sp a b) :
    e.rawLoad tn lane isMeta sp a b = .ok {
      e := e.setSwage (e.swage.setTile tn (e.loadedTile tn lane sp a b)), absent := e.moveAbsent tn lane pteR sp a b, bad := none } := by
  obtain ⟨hkind, hshape, hva, halign, -, -⟩ := id h
  unfold Env.rawLoad
  extract_lets base stride
  refine (Env.checkMove_pass hkind hshape hva halign).trans ?_
  cases hsp : spaceOf sp.toNat with
  | none =>
    have h0 : sp = 0 := spaceOf_eq_none.mp hsp
    refine (Env.globalRows_clear h0 h _ _).trans ((Env.loadGlobal_all hue tn _).trans ?_)
    subst h0
    have htile : (e.movePieces tn lane pteR 0 a b).foldl (fun t p => t.setRow p.row p.off ((e.pieceBytes p).map some)) (e.swage.tile tn)
        = e.loadedTile tn lane 0 a b := List.foldl_ext _ _ _ fun t ⟨row, off, va, len, cls⟩ _ => by
      cases cls with
      | good tr => rfl
      | _ => exact congrArg (t.setRow row off) List.map_replicate
    rw [htile]
    rfl
  | some x =>
    have h0 : sp ≠ 0 := fun h0 => nomatch hsp.symm.trans (spaceOf_eq_none.mpr h0)
    refine (Env.localRows_clear hsp h _).trans ((Env.loadLocalRows_all hue tn x ..).trans ?_)
    have habsent : e.moveAbsent tn lane pteR sp a b = false := by rw [Env.moveAbsent, decide_eq_false h0, Bool.false_and]
    rw [habsent]
    simp only [Env.loadedTile, hsp, List.zipIdx_map, List.foldl_map]
    rfl

end

/-! ### Raw stores (R245) -/

/-- What the unit makes of a store of a tile. -/
def Env.rawStore (e : Env) (tn lane : Nat) (sp : BitVec 2) (a b : BitVec 4) : SwRes :=
  e.checkMove tn lane false sp (e.moveBase sp a lane) (e.moveStride b lane) (fun t =>
    match spaceOf sp.toNat with
    | none => e.globalRows lane kindEngineWrite pteW (rowStarts t (e.moveBase sp a lane) (e.moveStride b lane)) t.memRow (fun ps => e.storeGlobal tn ps)
    | some x => e.localRows lane x (rowStarts t (e.moveBase sp a lane) (e.moveStride b lane)) t.memRow (fun rs => e.storeLocalRows tn x rs))

section
variable {e : Env} {tn lane : Nat} {sp : BitVec 2} {a b : BitVec 4} 

/-- A store that is clear. -/
theorem Env.rawStore_clear (hs : e.swSound = true) (h : MoveClear e tn lane false pteW sp a b) :
    e.rawStore tn lane sp a b = .ok { e := e.storedRows tn lane sp a b, absent := e.moveAbsent tn lane pteW sp a b, bad := none } := by
  obtain ⟨hkind, hshape, hva, halign, -, -⟩ := id h
  refine (Env.checkMove_pass hkind hshape hva halign).trans ?_
  cases hsp : spaceOf sp.toNat with
  | none =>
    have h0 : sp = 0 := spaceOf_eq_none.mp hsp
    refine (Env.globalRows_clear h0 h _ _).trans ?_
    have hnone (ps : List Piece) : ps.any (fun _ => false) = false := by simp
    simp only [Env.storeGlobal, Env.soundRow_all hs, ← List.map_drop, ← List.map_take, any_isNone_map_some, hnone, noAddress, State.writeSome_map_some]
    subst h0
    rfl
  | some x =>
    have h0 : sp ≠ 0 := fun h0 => nomatch hsp.symm.trans (spaceOf_eq_none.mpr h0)
    refine (Env.localRows_clear hsp h _).trans ?_
    have habsent : e.moveAbsent tn lane pteW sp a b = false := by rw [Env.moveAbsent, decide_eq_false h0, Bool.false_and]
    have hnone (rs : List (Nat × Nat)) : rs.any (fun _ => false) = false := by simp
    rw [habsent]
    simp only [Env.storeLocalRows, Env.soundRow_all hs, any_isNone_map_some, hnone, noAddress, State.writeSome_map_some, Env.storedRows, hsp,
      List.zipIdx_map, List.foldl_map]
    rfl

/-- A store leaves the counters of its strand. -/
theorem Env.storedRows_full (e : Env) (tn lane : Nat) (sp : BitVec 2) (a b : BitVec 4) (k : Ctr) :
    (e.storedRows tn lane sp a b).t.full k = e.t.full k := by
  unfold Env.storedRows
  dsimp only
  split
  · refine Env.via_full (fun s crew i => foldl_keeps _ (fun st : State => st.countersOf crew i) (fun st p => ?_) _ _) k
    split
    · exact State.countersOf_homeWrite ..
    · rfl
  · rfl

end

/-! ### Page-mode loads (R243) -/

/-- What the elements of a page-mode load come to. -/
def Env.pageScan (e : Env) (tn lane : Nat) (a b : BitVec 4) : PgScan :=
  (rowStarts (e.swage.tile tn) (e.moveBase 0 a lane) (e.moveStride b lane)).foldl (fun s r => s.row (e.look lane) (e.swage.tile tn) r)
    { needs := [], align := false, refused := [], rows := [] }

/-- The elements of a page-mode load as they are read. -/
def Env.pageVals (e : Env) (tn lane : Nat) (a b : BitVec 4) : List (List PgVal) :=
  (e.pageScan tn lane a b).rows.map (fun r => r.map (e.s.pageVal (e.swage.tile tn).fmt))

/-- The tile with those elements, drawn with a key where they are rounded. -/
def Env.pageTile (e : Env) (tn lane : Nat) (a b : BitVec 4) (key : Nat) : Tile :=
  (e.pageVals tn lane a b).zipIdx.foldl (fun t r => t.setPageRow r.2 r.1 (fun j =>
    srDraw e.c.seed.toNat key (r.2 * (e.swage.tile tn).cols + j))) (e.swage.tile tn)

@[simp] theorem Tile.setBits_shape (t : Tile) (i j v : Nat) : (t.setBits i j v).shape = t.shape := by
  unfold Tile.setBits
  dsimp only
  split <;> rfl

theorem Tile.setBlock_shape (t : Tile) (i j : Nat) (xs : List PgVal) (draw : Nat → Nat) : (t.setBlock i j xs draw).shape = t.shape := by
  have hcodes (t : Tile) (ys : List ((Nat × PgVal) × Nat)) :
      (ys.foldl (fun t p => if p.1.2.bad.isEmpty then t.setBits i (j + p.2) p.1.1 else t) t).shape = t.shape :=
    foldl_keeps _ Tile.shape (fun t p => by split <;> simp) ys t
  unfold Tile.setBlock
  dsimp only
  split
  · exact hcodes ..
  · exact hcodes ..

/-- A row of a page-mode load leaves the shape. -/
theorem Tile.setPageRow_shape (t : Tile) (i : Nat) (xs : List PgVal) (draw : Nat → Nat) : (t.setPageRow i xs draw).shape = t.shape := by
  unfold Tile.setPageRow
  split
  · exact foldl_keeps _ Tile.shape (fun t k => Tile.setBlock_shape t i (32 * k) _ draw) _ t
  · exact foldl_keeps _ Tile.shape (fun t p => by split <;> simp) _ t

/-- Every row counts its draws by the columns that the tile has at first. -/
theorem setPageRows_cols (draw : Nat → Nat) (rows : List (List PgVal × Nat)) (x : Tile) :
    ∀ t : Tile, t.shape = x.shape → rows.foldl (fun t r => t.setPageRow r.2 r.1 (fun j => draw (r.2 * t.cols + j))) t
      = rows.foldl (fun t r => t.setPageRow r.2 r.1 (fun j => draw (r.2 * x.cols + j))) t := by
  induction rows with
  | nil => exact fun _ _ => by rw [List.foldl_nil, List.foldl_nil]
  | cons r rows ih =>
    intro t ht
    have hcols : t.cols = x.cols := congrArg shCols ht
    rw [List.foldl_cons, List.foldl_cons, hcols]
    exact ih _ ((Tile.setPageRow_shape ..).trans ht)

theorem State.pageVal_sound {s : State} (hue : s.ue = []) (fmt : Nat) (x : PgEl) : (s.pageVal fmt x).bad = [] := by
  unfold State.pageVal
  extract_lets f geom gone bits pa code sn sc scaleBad bad val
  have hscale : scaleBad = [] := by
    cases hx : x.scale <;> simp [scaleBad, hx, State.bad_of_noErrors hue]
  split
  · rfl
  · simp [bad, hscale, State.bad_of_noErrors hue]

theorem Env.pageVals_sound {e : Env} (hue : e.s.ue = []) (tn lane : Nat) (a b : BitVec 4) :
    (e.pageVals tn lane a b).flatten.flatMap PgVal.bad = [] := by
  refine List.flatMap_eq_nil_iff.mpr fun v hv => ?_
  obtain ⟨r, hr, hmem⟩ := List.mem_flatten.mp hv
  obtain ⟨xs, -, rfl⟩ := List.mem_map.mp hr
  obtain ⟨x, -, rfl⟩ := List.mem_map.mp hmem
  exact State.pageVal_sound hue _ x

/-- A page-mode load whose elements are clear. -/
theorem Env.pageLoad_clear {e : Env} {tn lane : Nat} {a b : BitVec 4} (hue : e.s.ue = []) (hkind : (e.swage.tile tn).fmt ≠ fmtMeta)
    (hshape : (e.swage.tile tn).rows ≠ 0) (hva : vaBad (e.moveBase 0 a lane) = false)
    (halign : tileBits (e.swage.tile tn).fmt = 16 → e.moveBase 0 a lane % 2 = 0 ∧ e.moveStride b lane % 2 = 0)
    (hneeds : (e.pageScan tn lane a b).needs = []) (hels : (e.pageScan tn lane a b).align = false)
    (hrefused : (e.pageScan tn lane a b).refused = []) :
    e.pageLoad tn lane a b = .ok {
      e := (e.swKeyed (tileNarrow (e.swage.tile tn).fmt) lane).2.setSwage
        (e.swage.setTile tn (e.pageTile tn lane a b (e.swKeyed (tileNarrow (e.swage.tile tn).fmt) lane).1))
      absent := (e.pageVals tn lane a b).flatten.any PgVal.gone, bad := none } := by
  obtain ⟨hs, hc, -⟩ := e.swKeyed_rest (tileNarrow (e.swage.tile tn).fmt) lane
  have hlost := Env.pageVals_sound hue tn lane a b
  have htile (key : Nat) : (e.pageVals tn lane a b).zipIdx.foldl (fun t r => t.setPageRow r.2 r.1 (fun j =>
      srDraw e.c.seed.toNat key (r.2 * t.cols + j))) (e.swage.tile tn) = e.pageTile tn lane a b key := setPageRows_cols _ _ _ _ rfl
  generalize hkeyed : e.swKeyed (tileNarrow (e.swage.tile tn).fmt) lane = keyed at hs hc ⊢
  obtain ⟨key, e1⟩ := keyed
  have hswage : e1.swage = e.swage := by rw [Env.swage, hs, hc]; rfl
  rw [Env.swKeyed] at hkeyed
  simp only [Env.pageVals, Env.pageScan] at hneeds hels hrefused hlost htile ⊢
  simp only [Env.pageLoad, Env.checkMove_pass (decide_eq_false hkind) hshape (fun _ => hva) halign, hneeds, hels, hrefused, hkeyed, hswage,
    hlost, htile, Env.setSwage_swWritten (e := e1) (hs ▸ hue), List.isEmpty_nil, Bool.not_true, Bool.false_eq_true, if_false, List.foldl_nil,
    List.map_nil]

/-! ### The words -/

theorem exec_tst (t a b : BitVec 4) (c : BitVec 3) (q : BitVec 1) (sp : BitVec 2) (g : BitVec 3) (s : State) :
    exec (.tst t a b c q sp g) s = tileOp { instr := .tst t a b c q sp g, pg := g.toNat, reads := moveReads sp a b, lazy := true, bitM := true }
      c q true (fun e lane => e.rawStore t.toNat lane sp a b) (fun e => shapeOnly ((e.swage.tile t.toNat).rows ≠ 0)) s := rfl

theorem exec_tmeta (t a b : BitVec 4) (c : BitVec 3) (q : BitVec 1) (sp : BitVec 2) (g : BitVec 3) (s : State) :
    exec (.tmeta t a b c q sp g) s = tileOp { instr := .tmeta t a b c q sp g, pg := g.toNat, reads := moveReads sp a b, lazy := true, bitM := true }
      c q false (fun e lane => e.rawLoad t.toNat lane true sp a b) (fun e => shapeOnly ((e.swage.tile t.toNat).rows ≠ 0)) s := rfl

theorem exec_tldRaw (t a b : BitVec 4) (c : BitVec 3) (q : BitVec 1) (sp : BitVec 2) (g : BitVec 3) (s : State) :
    exec (.tld t a b c q sp 0 g) s = tileOp { instr := .tld t a b c q sp 0 g, pg := g.toNat, reads := moveReads sp a b, lazy := true, bitM := true }
      c q false (fun e lane => e.rawLoad t.toNat lane false sp a b) (fun e => shapeOnly ((e.swage.tile t.toNat).rows ≠ 0)) s := rfl

theorem exec_tldPage (t a b : BitVec 4) (c : BitVec 3) (q : BitVec 1) (sp : BitVec 2) (g : BitVec 3) (s : State) :
    exec (.tld t a b c q sp 1 g) s = tileOp { instr := .tld t a b c q sp 1 g, pg := g.toNat, reads := moveReads sp a b, lazy := true, bitM := true }
      c q false (fun e lane => e.pageLoad t.toNat lane a b) (fun e => shapeOnly ((e.swage.tile t.toNat).rows ≠ 0)) s := rfl

/-- What the unit makes of a move begins with the checks that moves share. -/
def Env.ChecksMove (e : Env) (tn lane : Nat) (isMeta : Bool) (x : SwRes) : Prop :=
  ∃ sp base stride go, x = e.checkMove tn lane isMeta sp base stride go

theorem Env.rawLoad_checks (e : Env) (tn lane : Nat) (isMeta : Bool) (sp : BitVec 2) (a b : BitVec 4) :
    e.ChecksMove tn lane isMeta (e.rawLoad tn lane isMeta sp a b) := by
  unfold Env.rawLoad
  extract_lets base stride
  exact ⟨_, _, _, _, rfl⟩

theorem Env.rawStore_checks (e : Env) (tn lane : Nat) (sp : BitVec 2) (a b : BitVec 4) :
    e.ChecksMove tn lane false (e.rawStore tn lane sp a b) := ⟨_, _, _, _, rfl⟩

theorem Env.pageLoad_checks (e : Env) (tn lane : Nat) (a b : BitVec 4) : e.ChecksMove tn lane false (e.pageLoad tn lane a b) := by
  unfold Env.pageLoad
  extract_lets base stride
  exact ⟨_, _, _, _, rfl⟩

section
variable {s : State} {e : Env} {i : Instr} {r : Req} {cv : BitVec 3} {stores isMeta : Bool} {accept : Env → Nat → SwRes}
  {refuse : Env → Option Nat} {tn : Nat}
variable (hx : exec i s = tileOp r cv 0 stores accept refuse s) (hr : reqOf i = r.signed 0)
  (ha : e.ChecksMove tn (lowLane (maskFor i e)) isMeta (accept e (lowLane (maskFor i e)))) (h : TileReady s e i)
include hx hr ha h

/-- A move of a tile of the other kind. -/
theorem move_kind_traps (hk : decide ((e.swage.tile tn).fmt = fmtMeta) ≠ isMeta) :
    Traps s i e (.plain cILLEGAL (laneBit (lowLane (maskFor i e)))) false := by
  obtain ⟨_, _, _, _, hcheck⟩ := ha
  exact tile_traps hx hr h (hcheck.trans (Env.checkMove_kind hk))

/-- A move of a tile without rows. -/
theorem move_shape_traps (hk : decide ((e.swage.tile tn).fmt = fmtMeta) = isMeta) (h0 : (e.swage.tile tn).rows = 0) :
    Traps s i e (.plain cSHAPE (laneBit (lowLane (maskFor i e)))) false := by
  obtain ⟨_, _, _, _, hcheck⟩ := ha
  exact tile_traps hx hr h (hcheck.trans (Env.checkMove_shape hk h0))

end

/-- Settles O33: what is clear comes to what it loads or stores, and the first two checks of a move refuse it in lane m. -/
theorem tileMoves : Obligations.TileMoves := by
  unfold Obligations.TileMoves
  intro s e t a b c g sp w x ld page idx st loads refused shapeless
  have noErrors {i : Instr} (h : TileReady s e i) (hue : s.ue = []) : e.s.ue = [] := (congrArg State.ue h.starts.machine).trans hue
  refine ⟨fun h hue hm => tile_ends (exec_tldRaw ..) rfl h (Env.rawLoad_clear (noErrors h hue) hm) rfl,
    fun h hue hm => tile_ends (exec_tmeta ..) rfl h (Env.rawLoad_clear (noErrors h hue) hm) rfl,
    fun h hue hm => tile_ends (exec_tst ..) rfl h (Env.rawStore_clear (Env.swSound_of_noErrors (noErrors h hue)) hm) (e.storedRows_full ..),
    fun h hue hkind hshape hva halign hneeds hels hrefused => ?page,
    move_kind_traps (exec_tldRaw ..) rfl (e.rawLoad_checks ..), move_kind_traps (exec_tmeta ..) rfl (e.rawLoad_checks ..),
    move_kind_traps (exec_tst ..) rfl (e.rawStore_checks ..), move_kind_traps (exec_tldPage ..) rfl (e.pageLoad_checks ..),
    move_shape_traps (exec_tldRaw ..) rfl (e.rawLoad_checks ..), move_shape_traps (exec_tmeta ..) rfl (e.rawLoad_checks ..),
    move_shape_traps (exec_tst ..) rfl (e.rawStore_checks ..), move_shape_traps (exec_tldPage ..) rfl (e.pageLoad_checks ..)⟩
  case page =>
    exact tile_ends (exec_tldPage ..) rfl h (Env.pageLoad_clear (noErrors h hue) hkind hshape hva halign hneeds hels hrefused)
      ((e.swKeyed_rest _ _).2.2 .mx)

end Sys2Proof.Machine
end

section
/-! Signatures (O34). A signed tile word with an acting lane asks its convergence register (R241): it is refused, it joins the signers, or it is
the last signature, with which the unit accepts the operation. -/

namespace Sys2Proof.Machine

/-! ### Convergence registers (R240, R241) -/

/-- A convergence register as it stands. -/
def Env.conv (e : Env) (cv : Nat) : Conv := e.swage.cvs.getD cv { decl := 0, sigs := 0, key := none, signers := [] }

def Env.setConv (e : Env) (cv : Nat) (v : Conv) : Env := e.setSwage { e.swage with cvs := e.swage.cvs.set cv v }

/-- What a signer's word must agree in with those before it. -/
def Env.signKey (e : Env) (key : Nat) : Option (Nat × Option RndSt) := some (key, e.t.unit.override)

/-- A register that is not declared, holds a different word, or takes fewer signatures than `n` more. -/
def Conv.Refuses (v : Conv) (own : Option (Nat × Option RndSt)) (n : Nat) : Prop :=
  v.decl = 0 ∨ (0 < v.sigs ∧ v.key ≠ own) ∨ v.decl < v.sigs + n

theorem Conv.not_refuses {v : Conv} {own : Option (Nat × Option RndSt)} {n : Nat} (hd : v.decl ≠ 0) (hk : 0 < v.sigs → v.key = own)
    (hn : v.sigs + n ≤ v.decl) : ¬v.Refuses own n := by
  rintro (h | ⟨h, hne⟩ | h)
  · exact hd h
  · exact hne (hk h)
  · exact Nat.not_lt.mpr hn h

section
variable {e : Env} {m : Mask} {cv key : Nat} {stores : Bool} {accept : Env → Nat → SwRes} (hroom : e.t.full .mx = false)
include hroom

theorem Env.swSigned_refused (h : (e.conv cv).Refuses (e.signKey key) (laneCount m)) :
    e.swSigned m cv key stores accept = .trap e (.plain cCONV m) false := by
  unfold Env.swSigned
  rw [Env.makeRoom_room hroom]
  refine if_pos ?_
  simp only [Bool.or_eq_true, Bool.and_eq_true, decide_eq_true_eq, or_assoc]
  exact h

section
variable (h : ¬(e.conv cv).Refuses (e.signKey key) (laneCount m))
include h

/-- A signature that is not refused: below the declared count it joins, else the unit accepts the operation. -/
theorem Env.swSigned_agrees : e.swSigned m cv key stores accept =
    if (e.conv cv).sigs + laneCount m < (e.conv cv).decl then
      .done ((e.inFlight .mx [] none (.swage none true (some cv) stores)).setConv cv { e.conv cv with
        sigs := (e.conv cv).sigs + laneCount m, key := e.signKey key, signers := (e.conv cv).signers ++ [(e.c.id, e.t.idx, e.t.nextOp)] })
    else match accept e (lowLane m) with
      | .stop r => r
      | .ok d => (((d.deferred (lowLane m)).setConv cv { (d.deferred (lowLane m)).conv cv with sigs := 0, key := none, signers := [] }).via
          (fun s => s.readySigners (e.conv cv).signers)).start .mx [] none (.swage (if d.absent then some (lowLane m) else none) false none stores) := by
  unfold Env.swSigned
  rw [Env.makeRoom_room hroom]
  refine (if_neg ?_).trans ((if_neg (ne_true_of_eq_false hroom)).trans ?_)
  · simp only [Bool.or_eq_true, Bool.and_eq_true, decide_eq_true_eq, or_assoc]
    exact h
  · rw [e.start_room _ _ _ _ hroom]
    rfl

/-- The last signature of an operation that nothing refuses, and that leaves the strand. -/
theorem Env.swSigned_last {e1 : Env} (hn : (e.conv cv).sigs + laneCount m = (e.conv cv).decl) (ha : accept e (lowLane m) = .plain e1)
    (ht : e1.t = e.t) : e.swSigned m cv key stores accept
      = .done (((e1.setConv cv { e1.conv cv with sigs := 0, key := none, signers := [] }).via
          (fun s => s.readySigners (e.conv cv).signers)).inFlight .mx [] none (.swage none false none stores)) := by
  rw [Env.swSigned_agrees hroom h, if_neg (Nat.not_lt.mpr hn.ge), ha]
  refine Env.start_room _ _ _ _ _ ((Env.via_full (fun s crew i => State.countersOf_readySigners s _ crew i) .mx).trans ?_)
  rw [← hroom, ← ht]
  rfl

end
end

/-! ### Signed words -/

/-- The instruction bits that signers must agree in (R241). -/
def signBits (i : Instr) : Nat := ((encodeNat i).getD 0) / 8

/-- A tile word with SG = 1, which an acting lane signs (R237, R241). -/
def SignedWord (s : State) (i : Instr) (cv : BitVec 3) (stores : Bool) (accept : Env → Nat → SwRes) : Prop :=
  exec i s = swIssue (reqOf i) true (fun e m => if m = 0 then .done e else e.swSigned m cv.toNat (signBits i) stores accept) s

/-- What the last signer's acceptance is: its operands first (R241). -/
def Req.lastSigner (r : Req) (accept : Env → Nat → SwRes) (e : Env) (lane : Nat) : SwRes :=
  match r.gather e with
  | .error x => .stop x
  | .ok e1 => accept e1 lane

theorem signedWord_of {s : State} {i : Instr} {r : Req} {cv : BitVec 3} {stores : Bool} {accept : Env → Nat → SwRes} {refuse : Env → Option Nat}
    (hx : exec i s = tileOp r cv 1 stores accept refuse s) (hr : reqOf i = r.signed 1) (hi : r.instr = i) :
    SignedWord s i cv stores (r.lastSigner accept) := by
  rw [SignedWord, hx, hr, ← hi]
  rfl

section
variable {s : State} {e : Env} {i : Instr} {cv : BitVec 3} {stores : Bool} {accept : Env → Nat → SwRes}
variable (h : TileReady s e i)
include h

section
variable (hw : SignedWord s i cv stores accept)
include hw

theorem signed_traps (hc : (e.conv cv.toNat).Refuses (e.signKey (signBits i)) (laneCount (maskFor i e))) :
    Traps s i e (.plain cCONV (maskFor i e)) false :=
  swage_traps h.starts hw (fun _ => h.held) h.calm ((if_neg h.acts).trans (Env.swSigned_refused h.room hc))

theorem signed_joins (hc : ¬(e.conv cv.toNat).Refuses (e.signKey (signBits i)) (laneCount (maskFor i e)))
    (hn : (e.conv cv.toNat).sigs + laneCount (maskFor i e) < (e.conv cv.toNat).decl) :
    Ends s i ((e.inFlight .mx [] none (.swage none true (some cv.toNat) stores)).setConv cv.toNat { e.conv cv.toNat with
      sigs := (e.conv cv.toNat).sigs + laneCount (maskFor i e), key := e.signKey (signBits i)
      signers := (e.conv cv.toNat).signers ++ [(e.c.id, e.t.idx, e.t.nextOp)] }) :=
  swage_ends h.starts hw (fun _ => h.held) h.calm ((if_neg h.acts).trans ((Env.swSigned_agrees h.room hc).trans (if_pos hn)))

end

/-- The last signature of a word that names no register. -/
theorem signed_last {r : Req} {f : Env → Env} (hx : exec i s = tileOp r cv 1 false (fun e _ => .plain (f e)) (fun _ => none) s)
    (hr : reqOf i = r) (hreads : r.signed 1 = r) (hi : r.instr = i)
    (hc : ¬(e.conv cv.toNat).Refuses (e.signKey (signBits i)) (laneCount (maskFor i e)))
    (hn : (e.conv cv.toNat).sigs + laneCount (maskFor i e) = (e.conv cv.toNat).decl) (ht : (f e).t = e.t) :
    Ends s i ((((f e).setConv cv.toNat { (f e).conv cv.toNat with sigs := 0, key := none, signers := [] }).via
      (fun s => s.readySigners (e.conv cv.toNat).signers)).inFlight .mx [] none (.swage none false none false)) := by
  have hgather : r.gather e = .ok e := Req.gather_ready (hr ▸ h.starts.ready) (hr ▸ h.starts.sound)
  have haccept : r.lastSigner (fun e _ => .plain (f e)) e (lowLane (maskFor i e)) = .plain (f e) := by
    rw [Req.lastSigner, hgather]
  exact swage_ends h.starts (signedWord_of hx (hr.trans hreads.symm) hi) (fun _ => h.held) h.calm
    ((if_neg h.acts).trans (Env.swSigned_last h.room hc hn haccept ht))

end

/-- Settles O34: every one of the nine words is a signed word, and the last signature of three performs what they do unsigned. -/
theorem signatures : Obligations.Signatures := by
  unfold Obligations.Signatures
  intro s e i c stores t a b g dt k md pg sp actv hi h v n own
  have hword : ∃ accept, SignedWord s i c stores accept := by
    obtain ⟨rfl, rfl | rfl | rfl | rfl | rfl | rfl | rfl | rfl⟩ | ⟨rfl, rfl⟩ := hi
    all_goals exact ⟨_, signedWord_of (refuse := fun _ => none) rfl rfl rfl⟩
  obtain ⟨accept, hw⟩ := hword
  refine ⟨fun hd hk hn => signed_joins h hw (Conv.not_refuses hd hk hn.le) hn, signed_traps h hw, fun hd hk hn => ?last⟩
  case last =>
    have hc := Conv.not_refuses hd hk hn.le
    refine ⟨?mswap, ?tzero, ?mclr⟩
    case mswap =>
      rintro rfl
      exact (signed_last h (exec_mswap ..) rfl rfl rfl hc hn rfl :)
    case tzero =>
      rintro rfl
      exact (signed_last h (exec_tzero ..) rfl rfl rfl hc hn (Env.swWritten_t ..) :)
    case mclr =>
      rintro rfl
      exact (signed_last h (exec_mclr ..) rfl rfl rfl hc hn (Env.swFresh_t ..) :)

end Sys2Proof.Machine
end

section
/-! Idempotent regions, the translation instructions, the trap instructions, and the way into a handler and back (O25 to O28, O59). -/

namespace Sys2Proof.Machine

/-! ### Idempotent regions (R341 to R344) -/

theorem exec_idemb (s : State) : exec .idemb s = issueThen (reqOf .idemb) (fun crew s => s.completeBarriers crew 8) (fun e _ =>
    if (e.settle (fun _ => true)).t.inflight.isEmpty then (e.settle (fun _ => true)).arriveRound false else .hold (e.settle (fun _ => true))) s := rfl

theorem exec_ideme (s : State) : exec .ideme s = issueThen (reqOf .ideme) (fun crew s => s.completeBarriers crew 8) (fun e _ =>
    if e.c.region then e.arriveRound true else e.illegal) s := rfl

/-- The group goes to the next word and waits there for the round, which begins at this word. -/
theorem Env.arriveRound_same {e : Env} (h : e.c.idemAt = none ∨ e.c.idemAt = some e.t.fetchPc) (closing : Bool) : e.arriveRound closing =
    .moved ((({ e with c := { e.c with idemAt := some e.t.fetchPc } } : Env).on
      ((e.t.advance e.t.group (e.t.unit.words + 1)).waitLanes e.t.group (.idem closing)))) := by
  have hr : e.otherRound = false := by
    obtain h | h := h <;> simp [Env.otherRound, h]
  rw [Env.arriveRound, if_neg (ne_true_of_eq_false hr)]
  rfl

/-- R341: a round at another word stands in the way. -/
theorem Env.arriveRound_other {e : Env} {x : VAddr} (h : e.c.idemAt = some x) (hx : x ≠ e.t.fetchPc) (closing : Bool) :
    e.arriveRound closing = e.illegal :=
  if_pos (by simpa [Env.otherRound, h] using hx)

/-- R342: with nothing in flight `idemb` comes to its round. -/
theorem idemb_issues {e : Env} (h : e.t.inflight = []) (x : Res) (hx : e.arriveRound false = x) :
    (if (e.settle (fun _ => true)).t.inflight.isEmpty then (e.settle (fun _ => true)).arriveRound false else .hold (e.settle (fun _ => true)))
      = x := by
  have hs : e.settle (fun _ => true) = e := Env.settle_none e _ (by simp [h])
  rw [hs, if_pos (by rw [h]; rfl), hx]

/-- Settles O25. -/
theorem regionRounds : Obligations.RegionRounds := by
  unfold Obligations.RegionRounds
  intro s e arrives
  refine ⟨fun h hf hr => ?idemb, fun h hr hs => ?ideme, fun h hr => ?outside, fun x h hf hx hne => ?second⟩
  case idemb => exact then_moved_of h (exec_idemb s) (idemb_issues hf _ (Env.arriveRound_same hr false))
  case ideme => exact then_moved_of h (exec_ideme s) ((if_pos hr).trans (Env.arriveRound_same hs true))
  case outside => exact then_trap_of h (exec_ideme s) (if_neg (ne_true_of_eq_false hr))
  case second => exact then_trap_of h (exec_idemb s) (idemb_issues hf _ (Env.arriveRound_other hx hne false))

/-! ### Translation (R364 to R370) -/

/-- `tlbi` once no transaction holds a buffered store through a translation that it names (R369). -/
theorem Env.tlbi_free {e : Env} {everywhere : Bool} {p : Trans → Bool}
    (h : e.release.commit.bufferedThrough (some (e.release.c.id, e.release.t.idx))
      (if everywhere then e.release.s.enabledCores else [e.release.c.core]) e.release.c.ctx p = false) :
    e.tlbi everywhere p = .done (e.release.sweep everywhere true p) :=
  if_neg (ne_true_of_eq_false h)

/-- What `tlbi.va` does on the cores that it reaches. -/
def tlbiVaBody (everywhere : Bool) (a : BitVec 6) (e : Env) (_ : Mask) : Res :=
    if vaBad (e.t.lane64 a.toNat (lowLane e.t.group)).toNat then .trap e (.plain cALIGN (laneBit (lowLane e.t.group))) false
    else e.tlbi everywhere (fun tr => tr.covers e.c.ctx (e.t.lane64 a.toNat (lowLane e.t.group)).toNat)

theorem exec_tlbiVaCore (a : BitVec 6) (s : State) : exec (.tlbiVaCore a) s = issue (reqOf (.tlbiVaCore a)) (tlbiVaBody false a) s := rfl
theorem exec_tlbiVaAll (a : BitVec 6) (s : State) : exec (.tlbiVaAll a) s = issue (reqOf (.tlbiVaAll a)) (tlbiVaBody true a) s := rfl

section
variable {s : State} {e : Env} {i : Instr} {everywhere : Bool} {a : BitVec 6} (h : Starts s e i)
  (hx : exec i s = issue (reqOf i) (tlbiVaBody everywhere a) s)
include h hx

/-- The two words of `tlbi.va` differ only in the cores that they reach. -/
theorem tlbiVa_ends (hva : vaBad (e.t.lane64 a.toNat (lowLane e.t.group)).toNat = false)
    (hf : e.release.commit.bufferedThrough (some (e.release.c.id, e.release.t.idx))
      (if everywhere then e.release.s.enabledCores else [e.release.c.core]) e.release.c.ctx
      (fun tr => tr.covers e.c.ctx (e.t.lane64 a.toNat (lowLane e.t.group)).toNat) = false) :
    Ends s i (e.release.sweep everywhere true (fun tr => tr.covers e.c.ctx (e.t.lane64 a.toNat (lowLane e.t.group)).toNat)) :=
  ends_of h hx ((if_neg (ne_true_of_eq_false hva)).trans (Env.tlbi_free hf))

theorem tlbiVa_misaligned (hva : vaBad (e.t.lane64 a.toNat (lowLane e.t.group)).toNat = true) :
    Traps s i e (.plain cALIGN (laneBit (lowLane e.t.group))) false :=
  traps_of h hx (if_pos hva)

end
theorem exec_tlbiCtxCore (s : State) : exec .tlbiCtxCore s = issue (reqOf .tlbiCtxCore) (fun e _ => e.tlbi false (fun _ => true)) s := rfl
theorem exec_tlbiCtxAll (s : State) : exec .tlbiCtxAll s = issue (reqOf .tlbiCtxAll) (fun e _ => e.tlbi true (fun _ => true)) s := rfl

theorem exec_lpiCore (s : State) : exec .lpiCore s = issue (reqOf .lpiCore) (fun e _ => .done (e.sweep false false (fun _ => true))) s := rfl
theorem exec_lpiAll (s : State) : exec .lpiAll s = issue (reqOf .lpiAll) (fun e _ => .done (e.sweep true false (fun _ => true))) s := rfl
theorem exec_tlbw (a : BitVec 6) (l : BitVec 2) (s : State) : exec (.tlbw a l) s = issue (reqOf (.tlbw a l)) (fun e _ =>
    if !e.c.walker || l = 0 || vaBad (e.t.lane64 a.toNat (lowLane e.t.group)).toNat then e.illegal
    else .done (e.via (fun s => s.installLeaf e.c.core e.c.ctx (some e.t.idx) (e.t.lane64 a.toNat (lowLane e.t.group)).toNat l.toNat
      (e.t.lane64 (a.toNat + 2) (lowLane e.t.group))))) s := rfl

theorem exec_walkd (s : State) : exec .walkd s = issue (reqOf .walkd) (fun e _ => if e.c.walker then e.endOwnWalk else e.illegal) s := rfl

/-- R369, R370: what goes, on the cores that are enabled as the word issues. -/
theorem Env.sweep_eq (e : Env) (everywhere tlb : Bool) (p : Trans → Bool) : e.sweep everywhere tlb p =
    let cores := if everywhere then e.s.enabledCores else [e.c.core]
    e.via (fun s =>
      let s1 := ((s.settleAccesses cores e.c.ctx).invalidate cores e.c.ctx tlb p).retranslateDeps e.c.ctx
      if tlb then s1.reissueWaita cores e.c.ctx p else s1) := by
  have hc : e.commit.enabledCores = e.s.enabledCores := rfl
  simp only [Env.sweep, Env.via, hc]

/-- Settles O26. -/
theorem translationControl : Obligations.TranslationControl := by
  unfold Obligations.TranslationControl
  intro s e a l lane va removed free
  have hsweep (e : Env) (all tlb : Bool) (p : Trans → Bool) : removed e all tlb p = e.sweep all tlb p := (e.sweep_eq all tlb p).symm
  simp only [hsweep]
  refine ⟨fun h hw hl hva => ?tlbw, fun h hw => ?tlbwProgram, fun h hw => ?walkd, fun h hw => ?walkdProgram,
    fun h hva hf => tlbiVa_ends h (exec_tlbiVaCore a s) hva hf, fun h hva hf => tlbiVa_ends h (exec_tlbiVaAll a s) hva hf,
    fun h hva => tlbiVa_misaligned h (exec_tlbiVaCore a s) hva, fun h hva => tlbiVa_misaligned h (exec_tlbiVaAll a s) hva,
    fun h hf => ends_of h (exec_tlbiCtxCore s) (Env.tlbi_free hf), fun h hf => ends_of h (exec_tlbiCtxAll s) (Env.tlbi_free hf),
    fun h => ends_of h (exec_lpiCore s) rfl, fun h => ends_of h (exec_lpiAll s) rfl⟩
  case tlbw =>
    have hva : vaBad (e.t.lane64 a.toNat (lowLane e.t.group)).toNat = false := hva
    have hl : ¬l = 0#2 := hl
    exact ends_of h (exec_tlbw a l s) (if_neg (by simp [hw, hl, hva]))
  case tlbwProgram => exact traps_of h (exec_tlbw a l s) (if_pos (by simp [hw]))
  case walkd => exact becomes_of h (exec_walkd s) (if_pos hw)
  case walkdProgram => exact traps_of h (exec_walkd s) (if_neg (ne_true_of_eq_false hw))

/-! ### The trap instructions (R430 to R433) -/

theorem exec_rtt (s : State) : exec .rtt s = issue (reqOf .rtt) (fun e _ =>
    if !e.t.inHandler then e.illegal
    else
      let back (n : Nat) : Res := .ovr (if e.t.unit.sched = some true then (e.on (e.t.rtt n)).yieldGroup else e.on (e.t.rtt n))
      if e.t.trap.next then
        match e.unitWords e.t.trap.pc.toNat 1024 with
        | .ok n => back n
        | .error va => e.missAll kindExec [va]
      else back 0) s := rfl

theorem rtt_outside {s : State} {e : Env} (h : Starts s e .rtt) (hh : e.t.inHandler = false) :
    Traps s .rtt e (.plain cILLEGAL e.t.group) false :=
  traps_of h (exec_rtt s) (if_pos (by rw [hh]; rfl))

theorem rtt_again {s : State} {e : Env} (h : Starts s e .rtt) (hh : e.t.inHandler = true) (hn : e.t.trap.next = false)
    (hy : e.t.unit.sched ≠ some true) : Becomes s .rtt (e.on (e.t.rtt 0)) := by
  refine becomes_of h (exec_rtt s) ?_
  simp only [hh, hn, hy, Bool.not_true, Bool.false_eq_true, if_false]

/-- Past the unit of n words at the trap PC. -/
theorem rtt_past {s : State} {e : Env} {n : Nat} (h : Starts s e .rtt) (hh : e.t.inHandler = true) (hn : e.t.trap.next = true)
    (hw : e.unitWords e.t.trap.pc.toNat 1024 = .ok n) (hy : e.t.unit.sched ≠ some true) : Becomes s .rtt (e.on (e.t.rtt n)) := by
  refine becomes_of h (exec_rtt s) ?_
  simp only [hh, hn, hw, hy, Bool.not_true, Bool.false_eq_true, if_false, if_true]

/-- Settles O27. -/
theorem trapInstructions : Obligations.TrapInstructions := by
  unfold Obligations.TrapInstructions
  intro s e c
  exact ⟨fun h => traps_of h rfl rfl, fun h => traps_of h rfl rfl, rtt_outside, rtt_again, fun n => rtt_past, fun h => ends_of h rfl rfl⟩

/-! ### Returning from a handler (R432) -/

theorem Strand.regroup_frame (t : Strand) :
    t.regroup = { t with group := t.regroup.group, lastLow := t.regroup.lastLow, timer := t.regroup.timer } := by
  simp only [Strand.regroup]
  split
  · rfl
  · split
    · rfl
    · split <;> rfl

/-- Strands that differ at most in the states of their threads and in which group is current. -/
def SamePlaces (t u : Strand) : Prop :=
  u = { t with threads := u.threads, group := u.group, lastLow := u.lastLow, timer := u.timer }
    ∧ ∀ l, l < 8 → (u.thread l).pc = (t.thread l).pc

theorem SamePlaces.trans {t u v : Strand} (h : SamePlaces t u) (k : SamePlaces u v) : SamePlaces t v :=
  ⟨by rw [k.1, h.1], fun l hl => (k.2 l hl).trans (h.2 l hl)⟩

theorem Restated.pc {x y : Thread} (h : Restated x y) : y.pc = x.pc := by rw [h.1]

theorem Strand.parkLanes_samePlaces (t : Strand) (m : Mask) : SamePlaces t (t.parkLanes m) :=
  ⟨by rw [Strand.parkLanes_frame], fun l hl => (t.parkLanes_thread m l hl).pc⟩

theorem Strand.releaseMet_samePlaces (t : Strand) : SamePlaces t t.releaseMet :=
  ⟨by rw [Strand.releaseMet_frame], fun l hl => (t.releaseMet_thread l hl).pc⟩

theorem Strand.regroup_samePlaces (t : Strand) : SamePlaces t t.regroup :=
  ⟨by rw [Strand.regroup_frame], fun l _ => by rw [Strand.regroup_frame]; rfl⟩

theorem Strand.runLanes_samePlaces (t : Strand) (m : Mask) : SamePlaces t (t.modThreads m (fun _ x => { x with state := .running })) :=
  ⟨rfl, fun l hl => by rw [Strand.thread_modThreads _ _ _ _ hl]; split <;> rfl⟩

theorem Strand.setGroup_samePlaces (t : Strand) (g : Mask) : SamePlaces t { t with group := g } := ⟨rfl, fun _ _ => rfl⟩

/-- Where `rtt` sends the handler group. -/
def Strand.returnPc (t : Strand) (n : Nat) : VAddr := if t.trap.next then t.trap.pc + BitVec.ofNat 57 (4 * n) else t.trap.pc

/-- The strand that `rtt` leaves, with the given threads. -/
def Strand.returned (t : Strand) (n : Nat) (threads : L8 Thread) : Strand :=
  { t with
    threads := threads, trap := t.trap.cleared, handler := 0, unit := .fresh, resume := !t.trap.next, answers := []
    partMask := if t.trap.part && !t.trap.next then some (t.returnPc n, t.trap.mask) else if t.trap.defer then t.partMask else none
    qstill := 0 }

/-- The threads of the handler group at their return address: a status that a traversal gave stands only where the group goes back to it. -/
def Strand.sentBack (t : Strand) (n : Nat) : L8 Thread :=
  let back (x : Thread) : Thread :=
    { (if x.query.done = some (t.returnPc n) then x else { x with query := { x.query with done := none } } : Thread) with
      acts := if x.acts = some (t.returnPc n) then x.acts else none }
  (t.modThreads t.handler (fun _ x => { back x with pc := t.returnPc n })).threads

/-- R432: the groups that the handler held are released, lanes park, and the current group is chosen. -/
theorem Strand.rtt_eq (t : Strand) (n : Nat) :
    let r := t.returned n (t.sentBack n)
    let held := r.lanesWhere (fun x => x.state = .waiting (.sleep 0))
    t.rtt n = { ((r.modThreads held (fun _ x => { x with state := .running })).parkLanes
      (if t.trap.next then held ||| t.handler else held)).releaseMet with group := t.handler }.regroup := rfl

theorem Strand.rtt_returned (t : Strand) (n : Nat) : SamePlaces (t.returned n (t.sentBack n)) (t.rtt n) := by
  rw [Strand.rtt_eq]
  exact ((((Strand.runLanes_samePlaces _ _).trans (Strand.parkLanes_samePlaces _ _)).trans (Strand.releaseMet_samePlaces _)).trans
    (Strand.setGroup_samePlaces _ _)).trans (Strand.regroup_samePlaces _)

theorem Strand.sentBack_pc (t : Strand) (n : Nat) {l : Nat} (hl : l < 8) :
    ((t.sentBack n).get l).pc = if laneOn t.handler l then t.returnPc n else (t.thread l).pc := by
  refine (congrArg Thread.pc (Strand.thread_modThreads t _ _ l hl)).trans ?_
  split <;> rfl

/-- Settles O28. -/
theorem returnFromTrap : Obligations.ReturnFromTrap := by
  unfold Obligations.ReturnFromTrap
  intro t n u
  obtain ⟨hu, hpc⟩ := t.rtt_returned n
  have hpart : (t.returned n (t.sentBack n)).partMask = if t.trap.part = true ∧ t.trap.next = false then some (t.trap.pc, t.trap.mask)
      else if t.trap.defer = true then t.partMask else none := by
    cases hn : t.trap.next <;> simp [Strand.returned, Strand.returnPc, hn]
  exact ⟨congrArg (fun x => x.trap.inh) hu, congrArg Strand.handler hu, congrArg Strand.resume hu, congrArg (fun x => x.trap.pc) hu,
    congrArg (fun x => x.trap.mask) hu, congrArg (fun x => x.trap.va) hu, (congrArg Strand.partMask hu).trans hpart,
    (congrArg Strand.regs hu).trans rfl,
    (congrArg Strand.preds hu).trans rfl, (congrArg Strand.inflight hu).trans rfl, fun l hl => (hpc l hl).trans (t.sentBack_pc n hl)⟩

/-! ### Taking a trap (R423 to R426) -/

theorem Env.handled_iff {e : Env} {p : Nat} (hp : (e.s.ctx e.c.ctx).trapPc.toNat = p) : e.handled = true ↔
    p ≠ 0 ∧ p % 4 = 0 ∧ p < 2 ^ 57 ∧ p / 2 ^ 32 = e.c.entryPc.toNat / 2 ^ 32 ∧ e.t.inHandler = false := by
  simp only [Env.handled, hp, Bool.and_eq_true, decide_eq_true_eq, Bool.not_eq_true', ne_eq, Nat.div_eq_zero_iff_lt (Nat.two_pow_pos 57),
    and_assoc]

theorem Env.takeTrap_handled {e : Env} (hw : e.c.walker = false) (hh : e.handled = true) (ti : TrapInfo) (part : Bool) (src : Option VAddr) :
    e.takeTrap ti part src = ((e.on (e.t.giveUp src.isSome)).enterTrap ti part src).commit := by
  simp only [Env.takeTrap, hw, hh, Bool.false_eq_true, if_false, if_true]
  rfl

theorem Env.takeTrap_unhandled {e : Env} (hw : e.c.walker = false) (hh : e.handled = false) (ti : TrapInfo) (part : Bool) (src : Option VAddr) :
    e.takeTrap ti part src = (e.on (e.t.giveUp src.isSome)).commit.fatalEvent e.c.ctx (e.trapError ti) := by
  simp only [Env.takeTrap, hw, hh, Bool.false_eq_true, if_false]
  rfl

/-- R193: no lane is ACTIVE after an interruption. -/
theorem Strand.interruptTx_inactive (t : Strand) {l : Nat} (hl : l < 8) : (t.interruptTx.thread l).tx.active = false := by
  simp only [Strand.interruptTx, Strand.thread, L8.get_mapi _ _ _ hl]
  split
  · simp [Tx.active]
  · next h => exact Bool.eq_false_iff.mpr h

theorem Strand.repleftAt_eq (t : Strand) : t.repleftAt = match t.unit.rep, t.repHeld with
    | some r, _ => BitVec.ofNat 32 (r.n - r.iter)
    | none, some (i, n) => BitVec.ofNat 32 (n - i)
    | none, none => t.repleft := by
  cases hr : t.unit.rep with
  | some r => simp only [Strand.repleftAt, hr]
  | none =>
    cases hh : t.repHeld with
    | some x => simp only [Strand.repleftAt, hr, hh]
    | none => simp only [Strand.repleftAt, hr, hh]

/-- R281: the causes on which the queries stand still, in the four bits that the record keeps. -/
theorem cause_stills (n : Nat) : (BitVec.ofNat 4 n = BitVec.ofNat 4 cPERM || BitVec.ofNat 4 n = BitVec.ofNat 4 cALIGN) = true
    ↔ n % 16 = cPERM ∨ n % 16 = cALIGN := by
  simp [← BitVec.toNat_inj, cPERM, cALIGN]

/-- Settles O59: a handled trap writes the record over the strand that its completed operations leave. -/
theorem takingATrap : Obligations.TakingATrap := by
  unfold Obligations.TakingATrap
  intro e ti part src p handled given e1 t
  refine ⟨fun hw hh => ?_, fun hw hh => ?_, e.t.repleftAt_eq, fun l hl => Strand.interruptTx_inactive _ hl⟩
  case refine_1 =>
    refine ⟨t.enterHandler (trapRecord ti part e.t.unitPc src) (BitVec.truncate 57 (e.s.ctx e.c.ctx).trapPc),
      Env.takeTrap_handled hw ((Env.handled_iff rfl).mpr hh) ti part src, ?_, rfl, fun l hl => Strand.thread_modThreads t t.group _ l hl⟩
    simp only [← cause_stills]
    rfl
  case refine_2 =>
    exact Env.takeTrap_unhandled hw (Bool.eq_false_iff.mpr fun h => hh ((Env.handled_iff rfl).mp h)) ti part src

end Sys2Proof.Machine
end

section
/-! What a strand asks of Bellows, the window unit, the collective engines and the genlock (O40 to O43). -/

namespace Sys2Proof.Machine

/-! ### Objects named by the lowest acting lane (R329, R411) -/

section
variable {e : Env} {lane va : Nat} {low : Bool} {tr : Trans}

theorem Env.named_misaligned (h : vaBad va = true ∨ low = true) :
    e.named lane va low = .stop (.trap e (.plain cALIGN (laneBit lane)) false) :=
  if_pos (Bool.or_eq_true_iff.mpr h)

/-- An object on a readable page is there, or absent. -/
theorem Env.named_found (hva : vaBad va = false) (hlow : low = false) (hl : e.look lane va = .found tr) (hr : pteR tr.entry = true) :
    e.named lane va low = if pteP tr.entry then .at tr else .absent := by
  cases hp : pteP tr.entry <;> simp [Env.named, hva, hlow, hl, hr, hp]

end

theorem State.object_sound {s : State} {pa n : Nat} (h : s.bad pa n = false) : s.object pa n = some (s.peekBytes pa n) :=
  if_neg (ne_true_of_eq_false h)

/-! ### launch (R329 to R331) -/

/-- What `launch` asks for once its earlier memory operations are released. -/
def launchBody (tail : Bool) (p : BitVec 3) (a : BitVec 6) (e : Env) (m : Mask) : Res :=
  let lane := lowLane m
  let va := (e.t.lane64 a.toNat lane).toNat
  match e.named lane va (va % 128 ≠ 0) with
  | .stop x => x
  | .absent => .done ((e.on (e.t.markAbsent (laneBit lane))).putPred m p.toNat (fun _ => false))
  | .at tr =>
    match e.s.object (tr.pa va) 128 with
    | none => e.objectBad lane va (tr.pa va)
    | some b => .done ((e.via (fun s => (s.offer e.c.ctx b (if tail then some e.c.seq else none)).2)).putPred m p.toNat
        (fun _ => decide ((e.s.ctx e.c.ctx).dlq.length < 256)))

theorem exec_launch (p : BitVec 3) (a : BitVec 6) (g : BitVec 3) (s : State) : exec (.launch p a g) s = issue (reqOf (.launch p a g))
    (fun e m => if m = 0 then .done e else launchBody false p a e.release m) s := rfl

theorem exec_launchTail (p : BitVec 3) (a : BitVec 6) (g : BitVec 3) (s : State) : exec (.launchTail p a g) s =
    issue (reqOf (.launchTail p a g)) (fun e m => if m = 0 then .done e else launchBody true p a e.release m) s := rfl

section
variable {e : Env} {m : Mask} {tail : Bool} {p : BitVec 3} {a : BitVec 6} {va : Nat} {tr : Trans}
  (hva : (e.t.lane64 a.toNat (lowLane m)).toNat = va)
include hva

theorem launchBody_misaligned (h : vaBad va = true ∨ va % 128 ≠ 0) :
    launchBody tail p a e m = .trap e (.plain cALIGN (laneBit (lowLane m))) false := by
  simp only [launchBody, hva, Env.named_misaligned (h.imp_right decide_eq_true)]

theorem launchBody_absent (hb : vaBad va = false) (hal : va % 128 = 0) (hl : e.look (lowLane m) va = .found tr) (hr : pteR tr.entry = true)
    (hp : pteP tr.entry = false) : launchBody tail p a e m =
      .done ((e.on (e.t.markAbsent (laneBit (lowLane m)))).putPred m p.toNat (fun _ => false)) := by
  simp only [launchBody, hva, Env.named_found hb (decide_eq_false (not_not_intro hal)) hl hr, hp, Bool.false_eq_true, if_false]

theorem launchBody_sound (hb : vaBad va = false) (hal : va % 128 = 0) (hl : e.look (lowLane m) va = .found tr) (hr : pteR tr.entry = true)
    (hp : pteP tr.entry = true) (hs : e.s.bad (tr.pa va) 128 = false) : launchBody tail p a e m =
      .done ((e.via (fun s => (s.offer e.c.ctx (e.s.peekBytes (tr.pa va) 128) (if tail then some e.c.seq else none)).2)).putPred m p.toNat
        (fun _ => decide ((e.s.ctx e.c.ctx).dlq.length < 256))) := by
  simp only [launchBody, hva, Env.named_found hb (decide_eq_false (not_not_intro hal)) hl hr, hp, if_true, State.object_sound hs]

end

/-- Settles O40: both words are one form. -/
theorem deviceLaunch : Obligations.DeviceLaunch := by
  unfold Obligations.DeviceLaunch
  intro s e p g a i tail hi h hm m e0 lane va free
  have hx : exec i s = issue (reqOf i) (fun e m => if m = 0 then .done e else launchBody tail p a e.release m) s := by
    obtain ⟨rfl, rfl⟩ | ⟨rfl, rfl⟩ := hi
    · exact exec_launch p a g s
    · exact exec_launchTail p a g s
  exact ⟨fun tr hb hal hl hr hp hs => ends_of h hx ((if_neg hm).trans (launchBody_sound rfl hb hal hl hr hp hs)),
    fun tr hb hal hl hr hp => ends_of h hx ((if_neg hm).trans (launchBody_absent rfl hb hal hl hr hp)),
    fun hbad => traps_of h hx ((if_neg hm).trans (launchBody_misaligned rfl hbad))⟩

/-! ### publish (R383) -/

/-- The publication joins the queue of its window once it is in flight. -/
def publishBody (w : BitVec 3) (e : Env) (_ : Mask) : Res :=
  if !((e.s.ctx e.c.ctx).windows.getD w.toNat .fresh).en then e.illegal
  else
    match e.release.start .cl [] none (.publish e.c.ctx w.toNat (lowLane e.t.group)) with
    | .done e1 =>
      .done (e1.via (fun s => s.modCtx e.c.ctx (fun x => { x with windows := modAt x.windows w.toNat (fun n =>
        { n with queue := n.queue ++ [(e1.c.id, e1.t.idx, e1.t.nextOp - 1)] }) })))
    | x => x

theorem exec_publish (w : BitVec 3) (s : State) : exec (.publish w) s = issue (reqOf (.publish w)) (publishBody w) s := rfl

@[simp] theorem Env.inFlight_s (e : Env) (k : Ctr) (dsts : List Nat) (pdst : Option Nat) (kind : OpKind) (srcs : List Nat) :
    (e.inFlight k dsts pdst kind srcs).s = e.s := rfl

@[simp] theorem Env.inFlight_c (e : Env) (k : Ctr) (dsts : List Nat) (pdst : Option Nat) (kind : OpKind) (srcs : List Nat) :
    (e.inFlight k dsts pdst kind srcs).c = e.c := rfl

@[simp] theorem Env.inFlight_idx (e : Env) (k : Ctr) (dsts : List Nat) (pdst : Option Nat) (kind : OpKind) (srcs : List Nat) :
    (e.inFlight k dsts pdst kind srcs).t.idx = e.t.idx := rfl

@[simp] theorem Env.inFlight_nextOp (e : Env) (k : Ctr) (dsts : List Nat) (pdst : Option Nat) (kind : OpKind) (srcs : List Nat) :
    (e.inFlight k dsts pdst kind srcs).t.nextOp = e.t.nextOp + 1 := rfl

/-- Settles O41. -/
theorem publication : Obligations.Publication := by
  unfold Obligations.Publication
  intro s e w win e0 e1
  refine ⟨fun h hen hf => ends_of h (exec_publish w s) ?enabled, fun h hen => traps_of h (exec_publish w s) ?disabled⟩
  case enabled =>
    have hen : ((e.s.ctx e.c.ctx).windows.getD w.toNat .fresh).en = true := hen
    simp only [publishBody, hen, Env.start_room e.release _ _ _ _ hf, Bool.not_true, Bool.false_eq_true, if_false, Env.inFlight_c,
      Env.inFlight_idx, Env.inFlight_nextOp, Nat.add_sub_cancel]
    rfl
  case disabled =>
    have hen : ((e.s.ctx e.c.ctx).windows.getD w.toNat .fresh).en = false := hen
    exact if_pos (by rw [hen]; rfl)

/-! ### cprog, ctrig and cctr (R411 to R414) -/

/-- What `cprog` asks for after its release. -/
def cprogBody (p : BitVec 3) (a : BitVec 6) (e : Env) (m : Mask) : Res :=
  let lane := lowLane m
  let va := (e.t.lane64 a.toNat lane).toNat
  match e.named lane va false with
  | .stop x => x
  | _ =>
    match e.s.progs.findIdx? (fun x => x.isNone) with
    | none => .done (e.putPred m p.toNat (fun _ => false))
    | some k =>
      match e.start .cl [] none (.cprog k lane) with
      | .done e1 =>
        .done ((e1.putPred m p.toNat (fun _ => true)).via (fun s =>
          ((s.startProg e.c.ctx va (some (e1.c.id, e1.t.idx, e1.t.nextOp - 1)) none).getD s).endIfBad k))
      | x => x

theorem exec_cprog (p : BitVec 3) (a : BitVec 6) (g : BitVec 3) (s : State) : exec (.cprog p a g) s = issue (reqOf (.cprog p a g))
    (fun e m => if m = 0 then .done e else cprogBody p a e.release m) s := rfl

/-- What `ctrig.arm` asks for after its release. -/
def armBody (p : BitVec 3) (a : BitVec 6) (t : BitVec 5) (e : Env) (m : Mask) : Res :=
  let lane := lowLane m
  let va := (e.t.lane64 a.toNat lane).toNat
  match e.named lane va false with
  | .stop x => x
  | .absent =>
    let e1 := e.putPred m p.toNat (fun _ => false)
    .done { e1 with t := e1.t.markAbsent (laneBit lane) }
  | .at tr =>
    if va % 64 ≠ 0 then .done (e.putPred m p.toNat (fun _ => false))
    else match e.s.object (tr.pa va) 64 with
      | none => e.objectBad lane va (tr.pa va)
      | some b =>
        let ok := ((e.s.ctx e.c.ctx).trigs.getD t.toNat .fresh).desc.isNone && trigOk b
        let e1 := e.putPred m p.toNat (fun _ => ok)
        .done (if ok then e1.via (fun s => s.armSlot e.c.ctx t.toNat b) else e1)

theorem exec_ctrigArm (p : BitVec 3) (a : BitVec 6) (t : BitVec 5) (g : BitVec 3) (s : State) : exec (.ctrigArm p a t g) s =
    issue (reqOf (.ctrigArm p a t g)) (fun e m => if m = 0 then .done e else armBody p a t e.release m) s := rfl

theorem exec_ctrigDisarm (p : BitVec 3) (t : BitVec 5) (g : BitVec 3) (s : State) : exec (.ctrigDisarm p t g) s =
    issue (reqOf (.ctrigDisarm p t g)) (fun e m => if m = 0 then .done e else
      .done ((e.putPred m p.toNat (fun _ => ((e.s.ctx e.c.ctx).trigs.getD t.toNat .fresh).desc.isSome)).via (fun s =>
        s.modCtx e.c.ctx (fun x => { x with trigs := modAt x.trigs t.toNat (fun sl => { sl with desc := none }) })))) s := rfl

/-- A counter's former value delivered, and its new value set. -/
def counterBody (d a : BitVec 6) (k : BitVec 3) (f : DWord → DWord → DWord) (e : Env) (m : Mask) : Res :=
  .done ((e.puts true (e.t.result64 m .general .general d.toNat (fun _ => (e.s.tc e.c.ctx k.toNat).toNat))).via (fun s =>
    s.setTc e.c.ctx k.toNat (f (e.s.tc e.c.ctx k.toNat) (e.t.lane64 a.toNat (lowLane m)))))

theorem exec_cctrAdd (d a : BitVec 6) (k g : BitVec 3) (s : State) : exec (.cctrAdd d a k g) s = issue (reqOf (.cctrAdd d a k g))
    (fun e m => if m = 0 then .done e else counterBody d a k (fun old x => old + x) e.release m) s := rfl

theorem exec_cctrSet (d a : BitVec 6) (k g : BitVec 3) (s : State) : exec (.cctrSet d a k g) s = issue (reqOf (.cctrSet d a k g))
    (fun e m => if m = 0 then .done e else counterBody d a k (fun _ x => x) e.release m) s := rfl

theorem exec_cctrRead (d : BitVec 6) (k g : BitVec 3) (s : State) : exec (.cctrRead d k g) s = issue (reqOf (.cctrRead d k g))
    (fun e m => if m = 0 then .done e else
      .done (e.puts true (e.t.result64 m .uniform .uniform d.toNat (fun _ => (e.s.tc e.c.ctx k.toNat).toNat))).acquire) s := rfl

section
variable {e : Env} {m : Mask} {p : BitVec 3} {a : BitVec 6} {t : BitVec 5} {va : Nat} {tr : Trans}
  (hva : (e.t.lane64 a.toNat (lowLane m)).toNat = va) (hb : vaBad va = false) (hl : e.look (lowLane m) va = .found tr)
  (hr : pteR tr.entry = true)
include hva hb hl hr

theorem cprogBody_refused (hn : e.s.progs.findIdx? (fun x => x.isNone) = none) :
    cprogBody p a e m = .done (e.putPred m p.toNat (fun _ => false)) := by
  simp only [cprogBody, hva, Env.named_found hb rfl hl hr, hn]
  cases pteP tr.entry <;> rfl

/-- R412: a header on an absent page starts the program as well, which it then ends. -/
theorem cprogBody_starts {n : Nat} (hn : e.s.progs.findIdx? (fun x => x.isNone) = some n) (hf : e.t.full .cl = false) :
    cprogBody p a e m = .done (((e.inFlight .cl [] none (.cprog n (lowLane m))).putPred m p.toNat (fun _ => true)).via (fun s =>
      ((s.startProg e.c.ctx va (some (e.c.id, e.t.idx, e.t.nextOp)) none).getD s).endIfBad n)) := by
  simp only [cprogBody, hva, Env.named_found hb rfl hl hr, hn, Env.start_room e _ _ _ _ hf, Env.inFlight_c, Env.inFlight_idx,
    Env.inFlight_nextOp, Nat.add_sub_cancel]
  cases pteP tr.entry <;> rfl

theorem armBody_sound (hp : pteP tr.entry = true) (hal : va % 64 = 0) (hs : e.s.bad (tr.pa va) 64 = false) :
    let ok := ((e.s.ctx e.c.ctx).trigs.getD t.toNat .fresh).desc.isNone && trigOk (e.s.peekBytes (tr.pa va) 64)
    armBody p a t e m = .done (if ok then (e.putPred m p.toNat (fun _ => ok)).via (fun s =>
      s.armSlot e.c.ctx t.toNat (e.s.peekBytes (tr.pa va) 64)) else e.putPred m p.toNat (fun _ => ok)) := by
  simp only [armBody, hva, Env.named_found hb rfl hl hr, hp, if_true, hal, ne_eq, not_true_eq_false, if_false, State.object_sound hs]

end

/-- Settles O42. -/
theorem collectiveRequests : Obligations.CollectiveRequests := by
  unfold Obligations.CollectiveRequests
  intro s e p k g a d t e0 lane at_ known cprog arm disarm slot old counts operand
  refine ⟨fun tr h hm hk hfull => ?refused, fun tr n h hm hk hn hf => ?starts, fun tr h hm hk hp hal hs => ?arm,
    fun h hm => ends_of h (exec_ctrigDisarm p t g s) (if_neg hm), fun h hm => ends_of h (exec_cctrAdd d a k g s) (if_neg hm),
    fun h hm => ends_of h (exec_cctrSet d a k g s) (if_neg hm), fun h hm => ends_of h (exec_cctrRead d k g s) (if_neg hm)⟩
  case refused =>
    obtain ⟨hb, hl, hr⟩ := hk
    exact ends_of h (exec_cprog p a g s) ((if_neg hm).trans (cprogBody_refused rfl hb hl hr (List.findIdx?_eq_none_iff.mpr hfull)))
  case starts =>
    obtain ⟨hb, hl, hr⟩ := hk
    exact ends_of h (exec_cprog p a g s) ((if_neg hm).trans (cprogBody_starts rfl hb hl hr hn hf))
  case arm =>
    obtain ⟨hb, hl, hr⟩ := hk
    exact ends_of h (exec_ctrigArm p a t g s) ((if_neg hm).trans (armBody_sound rfl hb hl hr hp hal hs))

/-! ### tbar (R415, R416) -/

/-- The barrier that a `tbar` adds to its group. -/
def Env.newBarrier (e : Env) (d : BitVec 6) (m : Mask) (k : Nat) (f : Nat) (target : DWord) : Genlock :=
  { target := target, session := (e.c.bind k).session, frame := f, ctx := e.c.ctx, owner := (e.c.id, e.t.idx, e.t.nextOp),
    vd := d.toNat, mask := m, arrived := false, instant := false, decided := false, late := false, checked := false, cacks := [] }

/-- What `tbar` does for its acting lanes. -/
def tbarBody (d a : BitVec 6) (k : BitVec 4) (x : BitVec 3) (e : Env) (m : Mask) : Res :=
  let grp := e.s.group x.toNat
  let b := e.c.bind k.toNat
  if !grp.genlock e.s.lly.rank then e.illegal
  else if b.refuses (some true) then e.sessionTrap m
  else match b.flushed with
    | none => e.illegal
    | some f =>
      let t := e.t.lane64 a.toNat (lowLane m)
      match e.start .cl (regs1 d) none (.tbar x.toNat d.toNat m) with
      | .done e1 =>
        if decide (grp.decideAt t ≤ e.s.clock.toNat) || (e.s.session b.session).firstSent f then .done (e1.tbarLate m d.toNat)
        else
          let tb : Genlock :=
            { target := t, session := b.session, frame := f, ctx := e.c.ctx, owner := (e1.c.id, e1.t.idx, e1.t.nextOp - 1), vd := d.toNat, mask := m,
              arrived := false, instant := false, decided := false, late := false, checked := false, cacks := [] }
          .done (e1.via (fun s => (s.holdFrame b.session f t).modGroup x.toNat (fun y => { y with tbars := y.tbars ++ [tb] })))
      | y => y

theorem exec_tbar (d a : BitVec 6) (k : BitVec 4) (x g : BitVec 3) (s : State) : exec (.tbar d a k x g) s =
    issue (reqOf (.tbar d a k x g)) (fun e m => if m = 0 then .done e else tbarBody d a k x e m) s := rfl

section
variable {e : Env} {m : Mask} {d a : BitVec 6} {k : BitVec 4} {x : BitVec 3} (hg : (e.s.group x.toNat).genlock e.s.lly.rank = true)
include hg

theorem tbarBody_refused (hb : (e.c.bind k.toNat).refuses (some true) = true) : tbarBody d a k x e m = e.sessionTrap m := by
  simp only [tbarBody, hg, hb, Bool.not_true, Bool.false_eq_true, if_false, if_true]

variable (hb : (e.c.bind k.toNat).refuses (some true) = false)
include hb

theorem tbarBody_unflushed (hn : (e.c.bind k.toNat).flushed = none) : tbarBody d a k x e m = e.illegal := by
  simp only [tbarBody, hg, hb, hn, Bool.not_true, Bool.false_eq_true, if_false]

/-- R416: with a frame flushed and room, only the time and the frame's own start decide. -/
theorem tbarBody_flushed {f : Nat} (hn : (e.c.bind k.toNat).flushed = some f) (hf : e.t.full .cl = false) :
    tbarBody d a k x e m =
      let t := e.t.lane64 a.toNat (lowLane m)
      let e1 := e.inFlight .cl [d.toNat] none (.tbar x.toNat d.toNat m)
      if (e.s.group x.toNat).decideAt t ≤ e.s.clock.toNat ∨ (e.s.session (e.c.bind k.toNat).session).firstSent f = true then
        .done (e1.tbarLate m d.toNat)
      else .done (e1.via (fun s => (s.holdFrame (e.c.bind k.toNat).session f t).modGroup x.toNat
        (fun y => { y with tbars := y.tbars ++ [e.newBarrier d m k.toNat f t] }))) := by
  simp only [tbarBody, hg, hb, hn, Env.start_room e _ _ _ _ hf, Bool.not_true, Bool.false_eq_true, if_false, Env.inFlight_c, Env.inFlight_idx,
    Env.inFlight_nextOp, Nat.add_sub_cancel, Bool.or_eq_true, decide_eq_true_eq]
  rfl

end

/-- Settles O43. -/
theorem timeBarrier : Obligations.TimeBarrier := by
  unfold Obligations.TimeBarrier
  intro s e d a k x g f i m grp b target e1 tooLate tb h hm
  have hx := exec_tbar d a k x g s
  exact ⟨fun hg => traps_of h hx ((if_neg hm).trans (if_pos (by rw [show (e.s.group x.toNat).genlock e.s.lly.rank = false from hg]; rfl))),
    fun hg hb => traps_of h hx ((if_neg hm).trans (tbarBody_refused hg hb)),
    fun hg hb hn => traps_of h hx ((if_neg hm).trans (tbarBody_unflushed hg hb hn)),
    fun hg hb hn hf hl => ends_of h hx ((if_neg hm).trans ((tbarBody_flushed hg hb hn hf).trans (if_neg hl))),
    fun hg hb hn hf hl => ends_of h hx ((if_neg hm).trans ((tbarBody_flushed hg hb hn hf).trans (if_pos hl)))⟩

end Sys2Proof.Machine
end

section
/-! Stream registers and presentation time (O38, O39). -/

namespace Sys2Proof.Machine

/-! ### Bindings (R284, R289) -/

theorem Binding.refuses_iff {b : Binding} {d : Bool} : b.refuses (some d) = true ↔ b.bound = false ∨ b.closed = true ∨ b.dir ≠ d := by
  simp only [Binding.refuses, Bool.or_eq_true, Bool.not_eq_true', bne_iff_ne, or_assoc]

section
variable {e : Env} {m : Mask} {k : Nat} {dir : Option Bool} {frame : Binding → Nat} (go : Binding → Session → Res)

theorem Env.withBinding_ready (h : BindingReady e k dir frame) :
    e.withBinding m k dir frame go = go (e.c.bind k) (e.s.session (e.c.bind k).session) := by
  obtain ⟨hb, hc, hd, hp⟩ := h
  have hr : (e.c.bind k).refuses dir = false := by
    cases dir with
    | none => simp [Binding.refuses, hb, hc]
    | some d => simp [Binding.refuses, hb, hc, hd d rfl]
  simp only [Env.withBinding, hr, hp, Bool.false_eq_true, if_false]

theorem Env.withBinding_refused (h : (e.c.bind k).refuses dir = true) : e.withBinding m k dir frame go = e.sessionTrap m := if_pos h

/-- R289: a binding in use whose frame a later one has displaced. -/
theorem Env.withBinding_displaced (hr : (e.c.bind k).refuses dir = false)
    (h : (e.s.session (e.c.bind k).session).passedBy (frame (e.c.bind k)) = true) : e.withBinding m k dir frame go = e.sessionTrap m := by
  simp only [Env.withBinding, hr, h, Bool.false_eq_true, if_false, if_true]

end

/-! ### srd, swr and srdt (R296 to R298) -/

/-- What `srd` does with its binding. -/
def srdGo (d : BitVec 6) (v : BitVec 1) (k : BitVec 4) (b : BitVec 6) (p : BitVec 3) (e : Env) (m : Mask) (bd : Binding) (x : Session) : Res :=
  match e.start .sr (regsRun d 3) (predDst p) (.srd bd.session bd.frame bd.y d.toNat p.toNat (v = 1) m (e.pixels bd.x b.toNat)) with
  | .done e1 => .done (e1.setBind k.toNat { bd.step x.d with wrap := bd.wrap })
  | y => y

theorem exec_srd (d : BitVec 6) (v : BitVec 1) (k : BitVec 4) (b : BitVec 6) (p g : BitVec 3) (s : State) : exec (.srd d v k b p g) s =
    issue (reqOf (.srd d v k b p g)) (fun e m => if m = 0 then .done e else
      e.withBinding m k.toNat (some false) Binding.frame (srdGo d v k b p e m)) s := rfl

theorem srdGo_room {e : Env} (h : e.t.full .sr = false) (d : BitVec 6) (v : BitVec 1) (k : BitVec 4) (b : BitVec 6) (p : BitVec 3) (m : Mask)
    (bd : Binding) (x : Session) : srdGo d v k b p e m bd x = .done ((e.inFlight .sr (regsRun d 3) (predDst p)
      (.srd bd.session bd.frame bd.y d.toNat p.toNat (v = 1) m (e.pixels bd.x b.toNat))).setBind k.toNat { bd.step x.d with wrap := bd.wrap }) := by
  simp only [srdGo, Env.start_room e _ _ _ _ h]

/-- What `swr` does with its binding. -/
def swrGo (d : BitVec 6) (v : BitVec 1) (k : BitVec 4) (b : BitVec 6) (e : Env) (m : Mask) (bd : Binding) (x : Session) : Res :=
  match e.start .sr [] none (.swr k.toNat x.turn bd.session bd.frame bd.y (v = 1) m (e.pixels bd.x b.toNat) (e.t.run d.toNat 3)) (regsRun d 3) with
  | .done e1 => .done ((e1.accept bd.session).setBind k.toNat (bd.step x.d))
  | y => y

theorem exec_swr (d : BitVec 6) (v : BitVec 1) (k : BitVec 4) (b : BitVec 6) (g : BitVec 3) (s : State) : exec (.swr d v k b g) s =
    issue (reqOf (.swr d v k b g)) (fun e m => if m = 0 then .done e else
      e.withBinding m k.toNat (some true) Binding.frame (swrGo d v k b e m)) s := rfl

theorem swrGo_room {e : Env} (h : e.t.full .sr = false) (d : BitVec 6) (v : BitVec 1) (k : BitVec 4) (b : BitVec 6) (m : Mask) (bd : Binding)
    (x : Session) : swrGo d v k b e m bd x = .done (((e.inFlight .sr [] none (.swr k.toNat x.turn bd.session bd.frame bd.y (v = 1) m
      (e.pixels bd.x b.toNat) (e.t.run d.toNat 3)) (regsRun d 3)).accept bd.session).setBind k.toNat (bd.step x.d)) := by
  simp only [swrGo, Env.start_room e _ _ _ _ h (regsRun d 3)]

/-- What `srdt` does once no tile write of another strand stands before it. -/
def srdtBody (t k : BitVec 4) (b : BitVec 6) (p : BitVec 3) (e : Env) (m : Mask) : Res :=
  let lane := lowLane m
  let pos := (e.t.lane b.toNat lane).toNat
  let ch := (e.t.lane (b.toNat + 1) lane).toNat
  let td := e.swage.tile t.toNat
  if !e.holdsSwage || 3 ≤ ch || 2 ≤ td.fmt then .trap e (.plain cILLEGAL (laneBit lane)) false
  else if td.rows = 0 then .trap e (.plain cSHAPE (laneBit lane)) false
  else e.withBinding m k.toNat (some false) Binding.frame (fun bd _ =>
    e.start .sr [] (predDst p) (.srdt bd.session bd.frame t.toNat p.toNat m (pos % 2 ^ 16) (pos / 2 ^ 16) ch))

theorem exec_srdt (t k : BitVec 4) (b : BitVec 6) (p g : BitVec 3) (s : State) : exec (.srdt t k b p g) s =
    issue (reqOf (.srdt t k b p g)) (fun e0 m =>
      let e := if e0.srdtElsewhere then e0.awaitSrdt else e0
      if m = 0 then .done e0 else if e.srdtElsewhere then .hold e else srdtBody t k b p e m) s := rfl

section
variable {s : State} {e : Env} {t k : BitVec 4} {b : BitVec 6} {p g : BitVec 3} {m : Mask}

/-- With no tile write of another strand to wait for, `srdt` comes to its own checks (R237). -/
theorem srdt_calm (hc : e.srdtElsewhere = false) (hm : m ≠ 0) :
    (let e1 := if e.srdtElsewhere then e.awaitSrdt else e
     if m = 0 then .done e else if e1.srdtElsewhere then .hold e1 else srdtBody t k b p e1 m) = srdtBody t k b p e m := by
  simp only [hc, hm, Bool.false_eq_true, if_false]

theorem srdtBody_illegal (h : e.holdsSwage = false ∨ 3 ≤ (e.t.lane (b.toNat + 1) (lowLane m)).toNat ∨ 2 ≤ (e.swage.tile t.toNat).fmt) :
    srdtBody t k b p e m = .trap e (.plain cILLEGAL (laneBit (lowLane m))) false :=
  if_pos (by simpa [or_assoc] using h)

theorem srdtBody_legal (hh : e.holdsSwage = true) (hch : (e.t.lane (b.toNat + 1) (lowLane m)).toNat < 3)
    (hf : (e.swage.tile t.toNat).fmt < 2) : srdtBody t k b p e m =
      if (e.swage.tile t.toNat).rows = 0 then .trap e (.plain cSHAPE (laneBit (lowLane m))) false
      else e.withBinding m k.toNat (some false) Binding.frame (fun bd _ =>
        e.start .sr [] (predDst p) (.srdt bd.session bd.frame t.toNat p.toNat m ((e.t.lane b.toNat (lowLane m)).toNat % 2 ^ 16)
          ((e.t.lane b.toNat (lowLane m)).toNat / 2 ^ 16) (e.t.lane (b.toNat + 1) (lowLane m)).toNat)) :=
  if_neg (by simp [hh, hch, hf])

end

/-! ### sflush (R299) -/

/-- What `sflush` does with its binding; `whole` for the frame. -/
def flushGo (whole : Bool) (k : BitVec 4) (e : Env) (bd : Binding) (x : Session) : Res :=
  let f := bd.flushFrame
  match e.start .sr [] none (.sflush k.toNat x.turn bd.session f (if bd.wrap then x.d.h else bd.y) whole) with
  | .done e1 => .done ((e1.accept bd.session).setBind k.toNat
      (if whole then { bd with frame := f + 1, x := 0, y := 0, wrap := false } else { bd with wrap := false }))
  | y => y

theorem exec_sflushLine (k : BitVec 4) (g : BitVec 3) (s : State) : exec (.sflushLine k g) s = issue (reqOf (.sflushLine k g))
    (fun e m => if m = 0 then .done e else e.withBinding m k.toNat (some true) Binding.flushFrame (flushGo false k e)) s := rfl

theorem exec_sflushFrame (k : BitVec 4) (g : BitVec 3) (s : State) : exec (.sflushFrame k g) s = issue (reqOf (.sflushFrame k g))
    (fun e m => if m = 0 then .done e else e.withBinding m k.toNat (some true) Binding.flushFrame (flushGo true k e)) s := rfl

theorem flushGo_room {e : Env} (h : e.t.full .sr = false) (whole : Bool) (k : BitVec 4) (bd : Binding) (x : Session) : flushGo whole k e bd x =
    .done (((e.inFlight .sr [] none
      (.sflush k.toNat x.turn bd.session bd.flushFrame (if bd.wrap then x.d.h else bd.y) whole)).accept bd.session).setBind
      k.toNat (if whole then { bd with frame := bd.flushFrame + 1, x := 0, y := 0, wrap := false } else { bd with wrap := false })) := by
  simp only [flushGo, Env.start_room e _ _ _ _ h]

/-- Settles O38: the operations start once `BindingReady` holds; a refused or a displaced binding stops them before. -/
theorem streamTransfers : Obligations.StreamTransfers := by
  unfold Obligations.StreamTransfers
  intro s e d b v k t p g bd desc turn px srd srdt swr ready lane pos ch tile f lines
  refine ⟨?srd, ?swr, ?srdt, ?line, ?frame, fun h hm hr => ?srdRefused, fun h hm hr => ?swrRefused, ?displaced, ?illegal, ?shape⟩
  case srd =>
    rintro ⟨h, hm, hf⟩ hb
    exact ends_of h (exec_srd d v k b p g s) ((if_neg hm).trans ((Env.withBinding_ready _ hb).trans (srdGo_room hf ..)))
  case swr =>
    rintro ⟨h, hm, hf⟩ hb
    exact ends_of h (exec_swr d v k b g s) ((if_neg hm).trans ((Env.withBinding_ready _ hb).trans (swrGo_room hf ..)))
  case srdt =>
    rintro ⟨h, hm, hf⟩ hc hh hch hfmt hrows hb
    exact ends_of h (exec_srdt t k b p g s) ((srdt_calm hc hm).trans ((srdtBody_legal hh hch hfmt).trans ((if_neg hrows).trans
      ((Env.withBinding_ready _ hb).trans (Env.start_room e _ _ _ _ hf)))))
  case line =>
    rintro ⟨h, hm, hf⟩ hb
    exact ends_of h (exec_sflushLine k g s) ((if_neg hm).trans ((Env.withBinding_ready _ hb).trans (flushGo_room hf ..)))
  case frame =>
    rintro ⟨h, hm, hf⟩ hb
    exact ends_of h (exec_sflushFrame k g s) ((if_neg hm).trans ((Env.withBinding_ready _ hb).trans (flushGo_room hf ..)))
  case srdRefused =>
    have hr : bd.refuses (some false) = true := Binding.refuses_iff.mpr (by simpa using hr)
    exact traps_of h (exec_srd d v k b p g s) ((if_neg hm).trans (Env.withBinding_refused _ hr))
  case swrRefused =>
    have hr : bd.refuses (some true) = true := Binding.refuses_iff.mpr (by simpa using hr)
    exact traps_of h (exec_swr d v k b g s) ((if_neg hm).trans (Env.withBinding_refused _ hr))
  case displaced =>
    rintro i dir (⟨rfl, rfl⟩ | ⟨rfl, rfl⟩) h hm hr hp
    · exact traps_of h (exec_srd d v k b p g s) ((if_neg hm).trans (Env.withBinding_displaced _ hr hp))
    · exact traps_of h (exec_swr d v k b g s) ((if_neg hm).trans (Env.withBinding_displaced _ hr hp))
  case illegal =>
    intro h hm hc hbad
    exact traps_of h (exec_srdt t k b p g s) ((srdt_calm hc hm).trans (srdtBody_illegal hbad))
  case shape =>
    intro h hm hc hh hch hfmt hrows
    exact traps_of h (exec_srdt t k b p g s) ((srdt_calm hc hm).trans ((srdtBody_legal hh hch hfmt).trans (if_pos hrows)))

/-! ### sinh (R300) -/

/-- What `sinh` does with its two bindings. -/
def inheritGo (k m : BitVec 4) (off : Env → Nat → DWord) (e : Env) (am : Mask) : Res :=
  e.withBinding am k.toNat (some true) Binding.frame (fun sb sx =>
    e.withBinding am m.toNat (some false) Binding.frame (fun rb rx =>
      if !rx.claimed rb.frame then .hold e
      else
        let late := sx.begun sb.frame
        let e1 := e.setBind k.toNat { sb with lateInh := late }
        if late then .done e1
        else
          let (cap, pres) := rx.timesOf rb.frame
          .done (e1.via (fun s => s.setTimes sb.session sb.frame cap (pres + off e (lowLane am))))))

theorem exec_sinh (k m : BitVec 4) (g : BitVec 3) (s : State) : exec (.sinh k m g) s = issue (reqOf (.sinh k m g))
    (fun e am => if am = 0 then .done e else inheritGo k m (fun _ _ => 0) e am) s := rfl

theorem exec_sinhOffset (d : BitVec 6) (k m : BitVec 4) (g : BitVec 3) (s : State) : exec (.sinhOffset d k m g) s =
    issue (reqOf (.sinhOffset d k m g)) (fun e am => if am = 0 then .done e else inheritGo k m (fun e l => e.t.lane64 d.toNat l) e am) s := rfl

section
variable {e : Env} {am : Mask} {k m : BitVec 4} {off : Env → Nat → DWord} {sb rb : Binding} {sx rx : Session}
  (hs : e.c.bind k.toNat = sb) (hr : e.c.bind m.toNat = rb) (hsx : e.s.session sb.session = sx) (hrx : e.s.session rb.session = rx)
  (hk : BindingReady e k.toNat (some true) Binding.frame) (hm : BindingReady e m.toNat (some false) Binding.frame)
include hr hrx hk hm

theorem inheritGo_unclaimed (hc : rx.claimed rb.frame = false) : inheritGo k m off e am = .hold e := by
  simp only [inheritGo, Env.withBinding_ready _ hk, Env.withBinding_ready _ hm, hr, hrx, hc, Bool.not_false, if_true]

include hs hsx

theorem inheritGo_late (hc : rx.claimed rb.frame = true) (hb : sx.begun sb.frame = true) :
    inheritGo k m off e am = .done (e.setBind k.toNat { sb with lateInh := true }) := by
  simp only [inheritGo, Env.withBinding_ready _ hk, Env.withBinding_ready _ hm, hs, hr, hsx, hrx, hc, hb, Bool.not_true, Bool.false_eq_true,
    if_false, if_true]

theorem inheritGo_inTime (hc : rx.claimed rb.frame = true) (hb : sx.begun sb.frame = false) :
    inheritGo k m off e am = .done ((e.setBind k.toNat { sb with lateInh := false }).via (fun s =>
      s.setTimes sb.session sb.frame (rx.timesOf rb.frame).1 ((rx.timesOf rb.frame).2 + off e (lowLane am)))) := by
  simp only [inheritGo, Env.withBinding_ready _ hk, Env.withBinding_ready _ hm, hs, hr, hsx, hrx, hc, hb, Bool.not_true, Bool.false_eq_true,
    if_false]

end

/-! ### sts and sstat (R301) -/

/-- The strands of the crew have no write of a binding left to perform. -/
def Env.bindingBusy (e1 : Env) (k : Nat) : Prop :=
  ∃ c, e1.commit.crew? e1.c.id = some c ∧ ∃ t ∈ c.strands, ∃ q ∈ t.inflight, q.writesBinding k = true ∧ q.done = false

section
variable {e e1 : Env} {k : Nat} (he : e.via (fun s => s.settleCrew e.c.id (fun p => p.writesBinding k)) = e1) (go : Env → Res)
include he

theorem Env.afterStream_busy (h : e1.bindingBusy k) : e.afterStream k go = .hold e1 := by
  obtain ⟨c, hc, t, ht, q, hq, hw, hd⟩ := h
  simp only [Env.afterStream, he]
  rw [if_pos]
  simp only [hc, List.any_eq_true]
  exact ⟨t, ht, q, hq, by rw [hw, hd]; rfl⟩

theorem Env.afterStream_free (h : ¬e1.bindingBusy k) : e.afterStream k go = go e1 := by
  simp only [Env.afterStream, he]
  rw [if_neg]
  intro hany
  refine h ?_
  cases hc : e1.commit.crew? e1.c.id with
  | none => simp [hc] at hany
  | some c =>
    simp only [hc, List.any_eq_true, Bool.and_eq_true, Bool.not_eq_true'] at hany
    obtain ⟨t, ht, q, hq, hw, hd⟩ := hany
    exact ⟨c, hc, t, ht, q, hq, hw, hd⟩

end

theorem exec_sts (d : BitVec 6) (k : BitVec 4) (f g : BitVec 3) (s : State) : exec (.sts d k f g) s = issue (reqOf (.sts d k f g))
    (fun e m => if m = 0 then .done e else e.withBinding m k.toNat none Binding.frame (fun bd _ => e.afterStream k.toNat (fun e =>
      .done (e.puts true (e.t.result64 m .uniform .uniform d.toNat (fun _ => stsValue bd (e.s.session bd.session) f.toNat)))))) s := rfl

theorem exec_sstat (d : BitVec 6) (k : BitVec 4) (f g : BitVec 3) (s : State) : exec (.sstat d k f g) s = issue (reqOf (.sstat d k f g))
    (fun e m => if m = 0 then .done e else e.withBinding m k.toNat none Binding.frame (fun bd _ => e.afterStream k.toNat (fun e =>
      .done (e.puts true [e.t.result m .uniform d.toNat (fun _ => sstatValue bd (e.s.session bd.session) f.toNat)])))) s := rfl

/-! ### time and sleepu (R302) -/

/-- A word that places its results without the value table, and does so under an empty mask as well. -/
theorem gives_puts {s : State} {e : Env} {i : Instr} (h : Starts s e i) {body : Env → Mask → Res} (hx : exec i s = issue (reqOf i) body s)
    {ps : List Put} {rs : List (Nat × (Nat → Word))} (hb : body e (maskFor i e) = .done (e.puts true ps)) (hds : ps.map Put.d = rs.map Prod.fst)
    (hv : ∀ r ∈ rs, ∃ p ∈ ps, p.d = r.1 ∧ ∀ l, l < 8 → p.vals.get l = if laneOn (maskFor i e) l then r.2 l else e.t.lane r.1 l)
    (hw : ∀ r ∈ rs, r.1 ∈ (reqOf i).writes) (hn : (rs.map Prod.fst).Nodup) : Gives s e i rs 0 0 := by
  obtain ⟨hs, hpl, -⟩ := State.issuer_spec h.issuer
  have hd : ∀ p ∈ ps, p.d < e.t.regs.length := by
    intro p hp
    obtain ⟨r, hr, hrd⟩ := List.mem_map.mp (hds ▸ List.mem_map_of_mem hp)
    exact hrd ▸ h.bound (List.mem_append_right _ (hw r hr))
  have hwr := e.puts_written true ps hd (hds ▸ hn)
  obtain ⟨u, hu, hothers, hstrand, hthreads, hdraws, hregs, hpreds, hflags⟩ := (e.puts_computed true ps).kept hs hpl
  refine ⟨_, u, by rw [hx, issue_starts h, hb], hu, hothers, hstrand, hthreads, fun l hl => ?_, fun r hr l hl => ?_, fun v hvn => ?_, ?_, ?_⟩
  · rw [hdraws l hl, hwr.rest]
    exact Drew.none i e l hl
  · obtain ⟨p, hp, hpd, hpv⟩ := hv r hr
    rw [← hpv l hl, ← hwr.vals p hp, hpd]
    simp only [Strand.lane, Strand.reg, hregs]
  · rw [← hwr.other v (hds ▸ hvn)]
    simp only [Strand.reg, hregs]
  · rw [hpreds, hwr.rest]
  · rw [hflags, hwr.rest]
    simp

theorem exec_time (d : BitVec 6) (s : State) : exec (.time d) s = issue (reqOf (.time d))
    (fun e m => .done (e.puts true (e.t.result64 m .uniform .uniform d.toNat (fun _ => e.s.clock.toNat)))) s := rfl

theorem time_gives {s : State} {e : Env} {d : BitVec 6} (h : Starts s e (.time d)) :
    Gives s e (.time d) (resultOf true d.toNat (fun _ => s.clock.toNat)) 0 0 := by
  rw [show s.clock = e.s.clock by rw [h.machine]]
  obtain ⟨hds, hv⟩ := e.t.result_vals (maskFor (.time d) e) true .uniform .uniform .uniform d.toNat (fun _ => e.s.clock.toNat)
  have hwrites : (resultOf true d.toNat (fun _ => e.s.clock.toNat)).map Prod.fst = (reqOf (.time d)).writes := resultOf_regs true d _
  exact gives_puts h (exec_time d s) rfl hds hv (fun r hr => hwrites ▸ List.mem_map_of_mem hr) (resultOf_nodup _ _ _)

theorem exec_sleepu (d : BitVec 6) (s : State) : exec (.sleepu d) s = issue (reqOf (.sleepu d)) (fun e _ =>
    if (e.t.lane64 d.toNat (lowLane e.t.group)).toNat ≤ e.s.clock.toNat then .done e
    else e.waitNext (.sleepu (e.t.lane64 d.toNat (lowLane e.t.group)))) s := rfl

/-- Settles O39. -/
theorem streamTimes : Obligations.StreamTimes := by
  unfold Obligations.StreamTimes
  intro s e d k m f g sb rb sx rx both times inherits e1 busy x t
  refine ⟨fun h hm hb => ?sinh, fun h hm hb => ?sinhOffset, fun h hm hb hf => ?stsFree, fun h hm hb hf => ?stsBusy, fun h hm hb hf => ?sstatFree,
    fun h hm hb hf => ?sstatBusy, time_gives, fun h ht => ?sleepuPast, fun h ht => ?sleepuWaits⟩
  case sinh =>
    obtain ⟨hk, hr⟩ := hb
    exact ⟨fun hc => holds_of h (exec_sinh k m g s) ((if_neg hm).trans (inheritGo_unclaimed rfl rfl hk hr hc)),
      fun hc hb => ends_of h (exec_sinh k m g s) ((if_neg hm).trans (inheritGo_late rfl rfl rfl rfl hk hr hc hb)),
      fun hc hb => ends_of h (exec_sinh k m g s) ((if_neg hm).trans (inheritGo_inTime rfl rfl rfl rfl hk hr hc hb))⟩
  case sinhOffset =>
    obtain ⟨hk, hr⟩ := hb
    exact ⟨fun hc => holds_of h (exec_sinhOffset d k m g s) ((if_neg hm).trans (inheritGo_unclaimed rfl rfl hk hr hc)),
      fun hc hb => ends_of h (exec_sinhOffset d k m g s) ((if_neg hm).trans (inheritGo_late rfl rfl rfl rfl hk hr hc hb)),
      fun hc hb => ends_of h (exec_sinhOffset d k m g s) ((if_neg hm).trans (inheritGo_inTime rfl rfl rfl rfl hk hr hc hb))⟩
  case stsFree =>
    exact ends_of h (exec_sts d k f g s) ((if_neg hm).trans ((Env.withBinding_ready _ hb).trans (Env.afterStream_free rfl _ hf)))
  case stsBusy =>
    exact holds_of h (exec_sts d k f g s) ((if_neg hm).trans ((Env.withBinding_ready _ hb).trans (Env.afterStream_busy rfl _ hf)))
  case sstatFree =>
    exact ends_of h (exec_sstat d k f g s) ((if_neg hm).trans ((Env.withBinding_ready _ hb).trans (Env.afterStream_free rfl _ hf)))
  case sstatBusy =>
    exact holds_of h (exec_sstat d k f g s) ((if_neg hm).trans ((Env.withBinding_ready _ hb).trans (Env.afterStream_busy rfl _ hf)))
  case sleepuPast => exact ends_of h (exec_sleepu d s) (if_pos (h.machine ▸ ht))
  case sleepuWaits =>
    exact moves_of h (exec_sleepu d s) ((if_neg (Nat.not_le.mpr (h.machine ▸ ht))).trans (e.waitNext_eq _))

end Sys2Proof.Machine
end

section
/-! Fields, marches and samples (O35, O36): the requests read a structure, scan the elements of their lanes, and go in flight on tr with
what they were given. -/

namespace Sys2Proof.Machine

/-! ### The scan of the lanes' elements (R259) -/

/-- The elements of the lanes of a mask, in ascending order: for each lane, lists of addresses with how each is classed. -/
def scanOf (m : Mask) (els : Nat → List (List Nat × (Nat → ECls))) : Scan :=
  (lanesOf m).foldl (fun sc l => (els l).foldl (fun sc x => sc.lane l x.1 x.2) sc) .empty

/-- A scan that has met nothing to translate and nothing misaligned. -/
def Scan.Known (sc : Scan) : Prop := sc.needs = [] ∧ sc.align = 0

theorem Scan.Known.lane {sc : Scan} (h : sc.Known) (l : Nat) {vas : List Nat} {cls : Nat → ECls}
    (hv : ∀ va ∈ vas, cls va ≠ .need ∧ cls va ≠ .misaligned) : (sc.lane l vas cls).Known := by
  refine List.foldlRecOn vas _ h fun sc hsc va hva => ?_
  obtain ⟨hn, hm⟩ := hv va hva
  unfold Scan.add
  split
  · next hc => exact absurd hc hn
  · next hc => exact absurd hc hm
  · exact hsc
  · split <;> exact hsc
  · split <;> exact hsc

theorem Scan.Sound.lane {sc : Scan} (h : sc.Sound) (l : Nat) {look : Nat → Lookup} {w : Want} {vas : List Nat} (hv : AllClear look w vas) :
    (sc.lane l vas (classify look w)).Sound :=
  List.foldlRecOn vas _ h fun _ hsc va hva => hsc.add l va (hv va hva)

/-- Clear elements give no miss, no misalignment and no refusal. -/
theorem scanOf_sound {m : Mask} {els : Nat → List (List Nat × (Nat → ECls))}
    (h : ∀ l ∈ lanesOf m, ∀ x ∈ els l, ∃ look w, x.2 = classify look w ∧
    AllClear look w x.1) : (scanOf m els).Sound := by
  refine List.foldlRecOn (lanesOf m) _ ⟨rfl, rfl, rfl⟩ fun sc hsc l hl => List.foldlRecOn (els l) _ hsc fun sc hsc x hx => ?_
  obtain ⟨look, w, hc, hclear⟩ := h l hl x hx
  rw [hc]
  exact hsc.lane l hclear

/-! ### A request of the lanes (R259, R260) -/

/-- The request of the lanes that do not fault, once their elements are scanned. -/
def Env.requestLanes (e : Env) (kind : BitVec 5) (m : Mask) (sc : Scan) (dsts : List Nat) (cmd : Env → Mask → FieldCmd) : Res :=
  e.fieldLanes kind m sc (fun e perf => e.startField dsts (cmd e perf) sc)

theorem Env.startField_sound {e : Env} (hf : e.t.full .tr = false) (dsts : List Nat) (c : FieldCmd) {sc : Scan} (h : sc.fault = 0) :
    e.startField dsts c sc = .done (e.inFlight .tr dsts none (.field c)) := by
  simp only [Env.startField, Env.start_room e _ _ _ _ hf, h, if_true]

section
variable {e : Env} {kind : BitVec 5} {m : Mask} {sc : Scan} {dsts : List Nat} {cmd : Env → Mask → FieldCmd}

theorem Env.requestLanes_sound (hf : e.t.full .tr = false) (hm : m ≠ 0) (h : sc.Sound) :
    e.requestLanes kind m sc dsts cmd = .done (e.inFlight .tr dsts none (.field (cmd e m))) := by
  obtain ⟨hn, ha, hz⟩ := h
  simp only [Env.requestLanes, Env.fieldLanes, hn, ha, hz, List.isEmpty_nil, Bool.not_true, Bool.false_eq_true, if_false, ne_eq,
    not_true_eq_false, mask_and_not_zero, hm, Env.startField_sound hf _ _ hz]

variable (hn : sc.needs = [])
include hn

theorem Env.requestLanes_misaligned (ha : sc.align ≠ 0) :
    e.requestLanes kind m sc dsts cmd = .trap e (.plain cALIGN sc.align) false := by
  simp only [Env.requestLanes, Env.fieldLanes, hn, ha, List.isEmpty_nil, Bool.not_true, Bool.false_eq_true, if_false, ne_eq,
    not_false_eq_true, if_true]

theorem Env.requestLanes_refused (ha : sc.align = 0) (hr : m &&& ~~~sc.fault = 0) :
    e.requestLanes kind m sc dsts cmd = .trap e (.at cPERM sc.fault sc.faultVa) false := by
  simp only [Env.requestLanes, Env.fieldLanes, hn, ha, hr, List.isEmpty_nil, Bool.not_true, Bool.false_eq_true, if_false, ne_eq,
    not_true_eq_false, if_true]

/-- The lanes that are not refused have their request performed before the trap (R259). -/
theorem Env.requestLanes_partial (hf : e.t.full .tr = false) (ha : sc.align = 0) (hz : sc.fault ≠ 0) (hr : m &&& ~~~sc.fault ≠ 0)
    (hmask : ∀ k, (cmd e k).mask = k) : e.requestLanes kind m sc dsts cmd =
      .trap ((e.inFlight .tr dsts none (.field (cmd e (m &&& ~~~sc.fault)))).settle (fun p => p.id = e.t.nextOp))
        (.at cPERM sc.fault sc.faultVa) true := by
  simp only [Env.requestLanes, Env.fieldLanes, Env.startField, Env.start_room e _ _ _ _ hf, hn, ha, hz, hr, hmask, List.isEmpty_nil,
    Bool.not_true, Bool.false_eq_true, if_false, ne_eq, not_true_eq_false, not_false_eq_true, decide_true, Env.inFlight_nextOp,
    Nat.add_sub_cancel]

end

theorem Strand.full_of_idle {t : Strand} (h : t.inflight = []) (k : Ctr) : t.full k = false := by
  simp [Strand.full, h]

/-- Registers that are there, with nothing in flight and no error, hold a request back by nothing (R187, R257). -/
theorem Env.withRuns_ready {e : Env} {reads writes : List Nat} (hf : e.t.inflight = [])
    (hr : ∀ v ∈ reads, v < e.t.regs.length ∧ (e.t.reg v).bad = false) (hw : ∀ v ∈ writes, v < e.t.regs.length)
    (lane : Nat) (go : Env → Res) :
    e.withRuns lane reads writes go = go e := by
  have hin : (reads ++ writes).any (fun v => decide (e.t.regs.length ≤ v)) = false := by
    simp only [List.any_eq_false, decide_eq_true_eq, Nat.not_le]
    intro v hv
    exact (List.mem_append.mp hv).elim (fun h => (hr v h).1) (hw v)
  have hblocked : ({ instr := .nop, reads := reads, writes := writes } : Req).blocked e.t = false := by simp [Req.blocked, hf]
  have hbad : ({ instr := .nop, reads := reads, writes := writes } : Req).sourceBad e.t = false := by
    simp only [Req.sourceBad, List.any_eq_false]
    exact fun v hv => ne_true_of_eq_false (hr v hv).2
  simp only [Env.withRuns, hin, Req.ready, hblocked, hbad, Bool.false_eq_true, if_false]

/-! ### Structures (R258, R259) -/

/-- A structure on a page that may not be read. -/
theorem Env.readStruct_refused {e : Env} {lane va n : Nat} (hva : vaBad va = false) (hal : va % n = 0)
    (h : ∃ tr, e.look lane va = .found tr ∧ pteR tr.entry = false) :
    e.readStruct lane va n = .stop (.trap e (.at cPERM (laneBit lane) va) false) := by
  obtain ⟨tr, hl, hr⟩ := h
  simp [Env.readStruct, hva, hal, hl, hr]

section
variable {e : Env} {lane va : Nat} {hd : List Byte} {absent : Env → Res} {go : Field → List Byte → Res}

theorem Env.withField_good (h : StructAt e lane va 64 hd) (ha : (parseField hd).aligned = true) (hr : (parseField hd).inRange = true) :
    e.withField lane va absent go = go (parseField hd) hd := by
  simp only [Env.withField, Env.readStruct_structAt h, ha, hr, Bool.not_true, Bool.false_eq_true, if_false]

theorem Env.withField_outOfRange (h : StructAt e lane va 64 hd) (ha : (parseField hd).aligned = true) (hr : (parseField hd).inRange = false) :
    e.withField lane va absent go = .trap e (.plain cILLEGAL (laneBit lane)) false := by
  simp only [Env.withField, Env.readStruct_structAt h, ha, hr, Bool.not_true, Bool.not_false, Bool.false_eq_true, if_false, if_true]

theorem Env.withField_absent (hva : vaBad va = false) (hal : va % 64 = 0)
    (h : ∃ tr, e.look lane va = .found tr ∧ pteR tr.entry = true ∧ pteP tr.entry = false) : e.withField lane va absent go = absent e := by
  simp only [Env.withField, Env.readStruct_absent hva hal h]

theorem Env.withField_refused (hva : vaBad va = false) (hal : va % 64 = 0) (h : ∃ tr, e.look lane va = .found tr ∧ pteR tr.entry = false) :
    e.withField lane va absent go = .trap e (.at cPERM (laneBit lane) va) false := by
  simp only [Env.withField, Env.readStruct_refused hva hal h]

end

/-! ### march (R271, R272) -/

/-- What `march` does with its descriptor. -/
def marchBody (d a b : BitVec 6) (e : Env) (m : Mask) : Res :=
  let lane := lowLane m
  let va := (e.t.lane64 b.toNat lane).toNat
  match e.readStruct lane va 64 with
  | .stop x => x
  | .absent => e.startField (regsRun d 10) { e.fieldCmd (.given 10) d.toNat lane m [] (noSamples.map L8.all) [] with gone := m } .empty
  | .bytes hd =>
    let gr := parseGrid hd
    if gr.base % 64 ≠ 0 then .trap e (.at cALIGN (laneBit lane) va) false
    else if !gr.inRange (leAt hd 0x18 4) then .trap e (.plain cILLEGAL (laneBit lane)) false
    else e.requestLanes kindField m (marchScan (e.marchAll m gr a.toNat)) (regsRun d 10)
      (fun e perf => e.fieldCmd .march d.toNat lane perf hd (e.t.run a.toNat 8) (e.gridTrans lane gr))

theorem exec_march (d a b : BitVec 6) (g : BitVec 3) (s : State) : exec (.march d a b g) s = issue (reqOf (.march d a b g))
    (fun e m => if m = 0 then .done e else marchBody d a b e m) s := rfl

/-- Grid bytes that are all permitted leave nothing to report. -/
theorem marchScan_ok {rs : List (Nat × Except MarchStop (List Word × Bool × Option Nat))} (h : ∀ r ∈ rs, ∃ x, r.2 = .ok x) :
    marchScan rs = .empty := by
  refine List.foldlRecOn (motive := fun sc => sc = Scan.empty) rs _ rfl fun sc hsc r hr => ?_
  obtain ⟨x, hx⟩ := h r hr
  simp only [hx, hsc]

section
variable {e : Env} {m : Mask} {d a b : BitVec 6} {va : Nat} {hd : List Byte} (hva : (e.t.lane64 b.toNat (lowLane m)).toNat = va)
  (hf : e.t.full .tr = false)
include hva hf

theorem marchBody_permitted (hm : m ≠ 0) (h : StructAt e (lowLane m) va 64 hd) (hb : (parseGrid hd).base % 64 = 0)
    (hr : (parseGrid hd).inRange (leAt hd 0x18 4) = true) (hl : ∀ l ∈ lanesOf m, ∃ x, e.s.marchLane (gridClass (e.look l)) (parseGrid hd)
      ((List.range 8).map (fun k => decF32 (e.t.lane (a.toNat + k) l))) = .ok x) :
    marchBody d a b e m = .done (e.inFlight .tr (regsRun d 10) none (.field (e.fieldCmd .march d.toNat (lowLane m) m hd (e.t.run a.toNat 8)
      (e.gridTrans (lowLane m) (parseGrid hd))))) := by
  have hscan : (marchScan (e.marchAll m (parseGrid hd) a.toNat)).Sound := by
    rw [marchScan_ok]
    · exact ⟨rfl, rfl, rfl⟩
    · simpa [Env.marchAll] using hl
  simp only [marchBody, hva, Env.readStruct_structAt h, hb, hr, ne_eq, not_true_eq_false, if_false, Bool.not_true, Bool.false_eq_true,
    Env.requestLanes_sound hf hm hscan]

theorem marchBody_absent (hb : vaBad va = false) (hal : va % 64 = 0)
    (h : ∃ tr, e.look (lowLane m) va = .found tr ∧ pteR tr.entry = true ∧ pteP tr.entry = false) : marchBody d a b e m =
      .done (e.inFlight .tr (regsRun d 10) none (.field
        { e.fieldCmd (.given 10) d.toNat (lowLane m) m [] (noSamples.map L8.all) [] with gone := m })) := by
  simp only [marchBody, hva, Env.readStruct_absent hb hal h, Env.startField_sound hf _ _ (show Scan.empty.fault = 0 from rfl)]

end

/-! ### The delivery of a march's samples -/

/-- A run of registers written in some lanes. -/
theorem Env.putRun_lane {e : Env} {vd n : Nat} (hd : vd + n ≤ e.t.regs.length) (m : Mask) (val : Nat → Nat → Word) {k l : Nat} (hk : k < n)
    (hl : l < 8) : (e.putRun vd n m val).t.lane (vd + k) l = if laneOn m l then val k l else e.t.lane (vd + k) l := by
  by_cases hm : m = 0
  · simp only [Env.putRun, hm, if_true, laneOn_zero, Bool.false_eq_true, if_false]
  · simp only [Env.putRun, hm, if_false]
    have hwr := e.puts_written true ((List.range n).map (fun i => Put.mk (vd + i) .general
      ((e.t.reg (vd + i)).lanes.mapi (fun l o => if laneOn m l then val i l else o)))) ?bound ?nodup
    case bound =>
      simp only [List.mem_map, List.mem_range]
      rintro p ⟨i, hi, rfl⟩
      exact Nat.lt_of_lt_of_le (Nat.add_lt_add_left hi vd) hd
    case nodup =>
      rw [List.map_map]
      exact List.pairwise_map.mpr (List.nodup_range.imp fun hne => mt Nat.add_left_cancel hne)
    have hval := hwr.vals _ (List.mem_map_of_mem (List.mem_range.mpr hk))
    exact (congrArg (fun x => x.get l) hval).trans (L8.get_mapi _ _ _ hl)

theorem Strand.mergePred_regs (t : Strand) (p : Nat) (m v : Mask) : (t.mergePred p m v).regs = t.regs := by
  unfold Strand.mergePred Strand.setPred
  split <;> rfl

theorem Strand.wakeLanes_regs (t : Strand) (m : Mask) : (t.wakeLanes m).regs = t.regs := by
  have hregroup (u : Strand) : u.regroupIdle.regs = u.regs := by unfold Strand.regroupIdle; split <;> rfl
  rw [Strand.wakeLanes, hregroup, Strand.releaseMet_frame, Strand.parkLanes_frame]
  rfl

/-- The waits that a completion ends write no register. -/
theorem Strand.endWaits_regs (t : Strand) : t.endWaits.regs = t.regs := by
  simp only [Strand.endWaits]
  split
  · rfl
  · rw [Strand.wakeLanes_regs]
    refine List.foldlRecOn (motive := fun u : Strand => u.regs = t.regs) _ _ rfl fun u hu l _ => ?_
    split
    · exact hu
    · exact hu

/-- Counting an operation complete leaves the registers as they are. -/
theorem Strand.finishOp_regs (t : Strand) (id : Nat) : (t.finishOp id).regs = t.regs := by
  rw [Strand.finishOp, Strand.finishAbsent, Strand.countDone, Strand.endWaits_regs]
  exact Strand.mergePred_regs ..

/-- The word that a lane is given for output i, of those worked out. -/
def wordFound (rs : List (Nat × List Word × Bool × Option Nat)) (i l : Nat) : Word :=
  match rs.find? (fun r => r.1 = l) with
  | some r => r.2.1.getD i 0
  | none => 0

/-- Outputs without an uncorrectable element reach their lanes. -/
theorem Env.fieldOutputs_lane {e : Env} {c : FieldCmd} {n : Nat} {rs : List (Nat × List Word × Bool × Option Nat)}
    (hd : c.vd + n ≤ e.t.regs.length) (hbad : ∀ r ∈ rs, r.2.2.2 = none) (p : Pending) {k l : Nat} (hk : k < n) (hl : l < 8) :
    (e.fieldOutputs p c n rs).t.lane (c.vd + k) l = if laneOn c.mask l then wordFound rs k l else e.t.lane (c.vd + k) l := by
  have hz : maskOf (fun l => rs.any (fun r => decide (r.1 = l) && r.2.2.2.isSome)) = 0 := by
    rw [maskOf_eq_zero, List.any_eq_false]
    intro l _
    simp only [List.any_eq_true, Bool.and_eq_true, not_exists, not_and]
    rintro r hr -
    simp [hbad r hr]
  have hregs : (e.fieldOutputs p c n rs).t.regs = (e.putRun c.vd n c.mask (wordFound rs)).t.regs := by
    simp only [Env.fieldOutputs, hz, mask_and_not_zero, Env.deferLanes, if_true, Strand.finishOp_regs, Strand.markAbsent, Strand.mergePred_regs]
    rfl
  rw [← Env.putRun_lane hd c.mask (wordFound rs) hk hl]
  simp only [Strand.lane, Strand.reg, hregs]

/-- Each lane's own entry is found in what was worked out for the lanes. -/
theorem wordFound_lane {ls : List Nat} {l : Nat} (h : l ∈ ls) (out : Nat → List Word × Bool × Option Nat) (i : Nat) :
    wordFound (ls.map (fun l => (l, out l))) i l = (out l).1.getD i 0 := by
  have hmem : (l, out l) ∈ ls.map (fun l => (l, out l)) := List.mem_map_of_mem (f := fun l => (l, out l)) h
  obtain ⟨r, hr⟩ := Option.isSome_iff_exists.mp (List.find?_isSome (p := fun r => decide (r.1 = l)).mpr ⟨_, hmem, decide_eq_true rfl⟩)
  obtain ⟨k, -, rfl⟩ := List.mem_map.mp (List.mem_of_find?_eq_some hr)
  obtain rfl : k = l := by simpa using List.find?_some hr
  simp only [wordFound, hr]

/-- R260: a march that is performed gives its lanes their samples. -/
theorem Env.performField_march {e : Env} {p : Pending} {q : FieldCmd} {out : Nat → List Word × Bool × Option Nat} (hp : p.kind = .field q)
    (hk : q.kind = .march) (hd : q.vd + 10 ≤ e.t.regs.length)
    (ho : ∀ l ∈ lanesOf q.mask, e.s.marchLane q.gridHeld (parseGrid q.header) (q.inputs.map (fun r => decF32 (r.get l))) = .ok (out l)
      ∧ (out l).2.2 = none) {k l : Nat} (hk10 : k < 10) (hl : l < 8) :
    (e.performField p).t.lane (q.vd + k) l = if laneOn q.mask l then (out l).1.getD k 0 else e.t.lane (q.vd + k) l := by
  have hrs : (lanesOf q.mask).map (fun l => match e.s.marchLane q.gridHeld (parseGrid q.header) (q.inputs.map (fun r => decF32 (r.get l))) with
      | .ok (outs, gone, bad) => (l, outs, gone, bad)
      | .error _ => (l, ([], false, none))) = (lanesOf q.mask).map (fun l => (l, out l)) :=
    List.map_congr_left fun l hm => by rw [(ho l hm).1]
  have hperf : e.performField p = e.fieldOutputs p q 10 ((lanesOf q.mask).map (fun l => (l, out l))) := by
    simp only [Env.performField, hp, hk, Env.performMarch]
    exact congrArg _ hrs
  have hbad : ∀ r ∈ (lanesOf q.mask).map (fun l => (l, out l)), r.2.2.2 = none := by
    simpa using fun l hm => (ho l hm).2
  rw [hperf, Env.fieldOutputs_lane hd hbad p hk10 hl]
  split
  · next hon => exact wordFound_lane (mem_lanesOf.mpr ⟨hl, hon⟩) out k
  · rfl

/-- Settles O36. -/
theorem march : Obligations.March := by
  unfold Obligations.March
  intro s e d a b g hd p q out i m lane va gr ray
  refine ⟨fun h hm hf hr hb hin hl => ?issues, fun h hm hf hb hal hr => ?absent, fun hp hk hd ho k l hk10 hl =>
    Env.performField_march hp hk hd ho hk10 hl⟩
  case issues =>
    exact ⟨_, ends_of h (exec_march d a b g s) ((if_neg hm).trans (marchBody_permitted rfl hf hm hr hb hin hl)), rfl, rfl, rfl, rfl, rfl, rfl⟩
  case absent =>
    exact ⟨_, ends_of h (exec_march d a b g s) ((if_neg hm).trans (marchBody_absent rfl hf hb hal hr)), rfl, rfl, rfl, rfl, rfl⟩

end Sys2Proof.Machine
end

section
/-! The requests of fields and textures (O35). -/

namespace Sys2Proof.Machine

/-! ### What the words do with their structures -/

/-- The outputs of a request whose structure is absent (R259). -/
def Env.givenCmd (e : Env) (n vd lane : Nat) (m : Mask) : FieldCmd :=
  { e.fieldCmd (.given n) vd lane m [] (List.replicate n (L8.all 0)) [] with gone := m }

/-- The scan of the parameters that the lanes of `hgf` read, level by level. -/
def Env.hgfScan (e : Env) (a : BitVec 6) (m : Mask) (f : Field) (sizes : List Nat) : Scan :=
  (lanesOf m).foldl (fun (sc : Scan) l => ((List.range f.lev).zip sizes).foldl (fun sc p =>
    sc.lane l (laneParams f (coords f (e.t.run a.toNat f.dim) l) p.1 p.2) (classify (e.look l) (paramWant p.2 pteR))) sc) .empty

theorem Env.hgfScan_eq (e : Env) (a : BitVec 6) (m : Mask) (f : Field) (sizes : List Nat) : e.hgfScan a m f sizes =
    scanOf m (fun l => ((List.range f.lev).zip sizes).map (fun p =>
      (laneParams f (coords f (e.t.run a.toNat f.dim) l) p.1 p.2, classify (e.look l) (paramWant p.2 pteR)))) := by
  simp only [Env.hgfScan, scanOf, List.foldl_map]

/-- What `hgf` asks for once its header is read. -/
def hgfGo (d a : BitVec 6) (half : Bool) (m : Mask) (lane : Nat) (f : Field) (hd : List Byte) (e : Env) : Res :=
  match levelSizes (e.look lane) f (List.range f.lev) with
  | .error v => e.missAll kindField [v]
  | .ok sizes => e.requestLanes kindField m (e.hgfScan a m f sizes) (regsRun d (fieldRun f half))
      (fun e' perf => e'.fieldCmd (.hgf half) d.toNat lane perf hd (e.t.run a.toNat f.dim)
        ((e.hgfScan a m f sizes).trans ++ e'.sizeTrans lane f (List.range f.lev)))

def hgfBody (d a b : BitVec 6) (half : Bool) (e : Env) (m : Mask) : Res :=
  let lane := lowLane m
  e.withField lane (e.t.lane64 b.toNat lane).toNat
    (fun e => e.withRuns lane [] (regsRun d (fieldRun absentField half)) (fun e =>
      e.startField (regsRun d (fieldRun absentField half)) (e.givenCmd (fieldRun absentField half) d.toNat lane m) .empty))
    (fun f hd => e.withRuns lane (regsRun a f.dim) (regsRun d (fieldRun f half)) (hgfGo d a half m lane f hd))

theorem exec_hgf (d a b : BitVec 6) (o : BitVec 1) (g : BitVec 3) (s : State) : exec (.hgf d a b o g) s = issue (reqOf (.hgf d a b o g))
    (fun e m => if m = 0 then .done e else hgfBody d a b (o = 1) e m) s := rfl

/-- The scan of the shadow words that the lanes of `hgs` update. -/
def Env.hgsScan (e : Env) (d a : BitVec 6) (half : Bool) (m : Mask) (f : Field) : Scan :=
  (lanesOf m).foldl (fun (sc : Scan) l => (List.range f.lev).foldl (fun sc k =>
    sc.lane l (laneShadows f (coords f (e.t.run a.toNat f.dim ++ e.t.run d.toNat (fieldRun f half)) l) k)
      (classify (e.look l) (shadowWant f pteWA))) sc) .empty

theorem Env.hgsScan_eq (e : Env) (d a : BitVec 6) (half : Bool) (m : Mask) (f : Field) : e.hgsScan d a half m f =
    scanOf m (fun l => (List.range f.lev).map (fun k =>
      (laneShadows f (coords f (e.t.run a.toNat f.dim ++ e.t.run d.toNat (fieldRun f half)) l) k,
        classify (e.look l) (shadowWant f pteWA)))) := by
  simp only [Env.hgsScan, scanOf, List.foldl_map]

def hgsGo (d a : BitVec 6) (half : Bool) (m : Mask) (lane : Nat) (f : Field) (hd : List Byte) (e : Env) : Res :=
  e.requestLanes kindShadow m (e.hgsScan d a half m f) [] (fun e' perf =>
    e'.fieldCmd (.hgs half) d.toNat lane perf hd (e.t.run a.toNat f.dim ++ e.t.run d.toNat (fieldRun f half)) (e.hgsScan d a half m f).trans)

def hgsBody (d a b : BitVec 6) (half : Bool) (e : Env) (m : Mask) : Res :=
  let lane := lowLane m
  e.withField lane (e.t.lane64 b.toNat lane).toNat
    (fun e => e.startField [] (e.givenCmd 0 d.toNat lane m) .empty)
    (fun f hd => e.withRuns lane (regsRun a f.dim ++ regsRun d (fieldRun f half)) [] (hgsGo d a half m lane f hd))

theorem exec_hgs (d a b : BitVec 6) (o : BitVec 1) (g : BitVec 3) (s : State) : exec (.hgs d a b o g) s = issue (reqOf (.hgs d a b o g))
    (fun e m => if m = 0 then .done e else hgsBody d a b (o = 1) e m) s := rfl

/-- The scan of the texels that the lanes of `tex` read. -/
def Env.texScan (e : Env) (a : BitVec 6) (m : Mask) (t : Texture) (size : Nat) : Scan :=
  (lanesOf m).foldl (fun (sc : Scan) l => sc.lane l
    ((texCorners t (e.t.lane a.toNat l) (e.t.lane (a.toNat + 1) l)).1.flatMap (fun ab =>
      (List.range t.channels).map (fun h => texVa t size ab.1 ab.2 h))) (classify (e.look l) (texWant size))) .empty

theorem Env.texScan_eq (e : Env) (a : BitVec 6) (m : Mask) (t : Texture) (size : Nat) : e.texScan a m t size =
    scanOf m (fun l => [((texCorners t (e.t.lane a.toNat l) (e.t.lane (a.toNat + 1) l)).1.flatMap (fun ab =>
      (List.range t.channels).map (fun h => texVa t size ab.1 ab.2 h)), classify (e.look l) (texWant size))]) := by
  simp only [Env.texScan, scanOf, List.foldl_cons, List.foldl_nil]

def texGo (d a : BitVec 6) (m : Mask) (lane : Nat) (t : Texture) (hd : List Byte) (e : Env) : Res :=
  match texSize (e.look lane) t with
  | .error v => e.missAll kindField [v]
  | .ok size => e.requestLanes kindField m (e.texScan a m t size) (regsRun d t.channels) (fun e' perf =>
      e'.fieldCmd .tex d.toNat lane perf hd (e.t.run a.toNat 2)
        ((e.texScan a m t size).trans ++ (match e.look lane t.base with | .found tr => [tr] | _ => [])))

def texBody (d a b : BitVec 6) (e : Env) (m : Mask) : Res :=
  let lane := lowLane m
  let va := (e.t.lane64 b.toNat lane).toNat
  match e.readStruct lane va 32 with
  | .stop x => x
  | .absent => e.withRuns lane [] (regsRun d 1) (fun e => e.startField (regsRun d 1) (e.givenCmd 1 d.toNat lane m) .empty)
  | .bytes hd =>
    if !(parseTexture hd).inRange then .trap e (.plain cILLEGAL (laneBit lane)) false
    else e.withRuns lane [] (regsRun d (parseTexture hd).channels) (texGo d a m lane (parseTexture hd) hd)

theorem exec_tex (d a b : BitVec 6) (g : BitVec 3) (s : State) : exec (.tex d a b g) s = issue (reqOf (.tex d a b g))
    (fun e m => if m = 0 then .done e else texBody d a b e m) s := rfl

/-! ### hgfold (R268, R269) -/

/-- The pages of the part of a level's table that is folded, and of the shadow words read. -/
def foldPages (f : Field) (x0 k : Nat) (p : Nat × Nat) : List Nat :=
  rangePages (paramVa f p.2 (levelPart f x0 k p.1).1 0) ((levelPart f x0 k p.1).2 * f.feat * p.2)

def foldShadows (f : Field) (x0 k : Nat) : List Nat := rangePages (shadowVa f x0 0) (k * f.feat * (if f.smode then 8 else 4))

def foldLevels (f : Field) (x0 k : Nat) : List Nat := (List.range f.lev).filter (fun n => (levelPart f x0 k n).2 ≠ 0)

/-- The formats of the table pages that are folded into. -/
def foldFmts (look : Nat → Lookup) (f : Field) (x0 k : Nat) (parts : List (Nat × Nat)) : List Nat :=
  parts.flatMap (fun p => (foldPages f x0 k p).filterMap (fun v => match look v with | .found tr => some (tableFmt tr.entry) | _ => none))

def foldScan (look : Nat → Lookup) (lane : Nat) (f : Field) (x0 k : Nat) (parts : List (Nat × Nat)) : Scan :=
  (parts.foldl (fun (sc : Scan) p => sc.lane lane (foldPages f x0 k p) (classify look (paramWant p.2 pteW))) .empty).lane lane
    (foldShadows f x0 k) (classify look (shadowWant f pteRWAny))

def refusedAt (look : Nat → Lookup) (vas : List Nat) (w : Want) : List Nat := vas.filter (fun v => classify look w v = .refused)

/-- The pages that refuse a fold. -/
def foldRefused (look : Nat → Lookup) (f : Field) (x0 k : Nat) (parts : List (Nat × Nat)) : List Nat :=
  parts.flatMap (fun p => refusedAt look (foldPages f x0 k p) (paramWant p.2 pteW)) ++ refusedAt look (foldShadows f x0 k) (shadowWant f pteRWAny)

/-- The command of a fold. -/
def Env.foldCmd (e : Env) (lane : Nat) (f : Field) (hd : List Byte) (eta x0 k cw : Word) (parts : List (Nat × Nat)) : FieldCmd :=
  { e.fieldCmd .hgfold 0 lane (laneBit lane) hd [L8.all eta, L8.all x0, L8.all k, L8.all cw]
      ((foldScan (e.look lane) lane f x0.toNat k.toNat parts).trans ++ e.sizeTrans lane f (foldLevels f x0.toNat k.toNat)) with
    key := BitVec.ofNat 64 (engineKey ((e.t.thread lane).copies % 2 ^ 11 * 2 ^ 52 + globalThread e.c e.t lane)) }

/-- A fold once the sizes of its levels are known. -/
def Env.foldParts (e : Env) (lane : Nat) (f : Field) (hd : List Byte) (eta x0 k cw : Word) (parts : List (Nat × Nat)) : Res :=
  let sc := foldScan (e.look lane) lane f x0.toNat k.toNat parts
  if !sc.needs.isEmpty then e.missAll kindFold sc.needs
  else if sc.align ≠ 0 then .trap e (.plain cALIGN (laneBit lane)) false
  else if !(foldRefused (e.look lane) f x0.toNat k.toNat parts).isEmpty then
    .trap e (.at cPERM (laneBit lane) (lowest (foldRefused (e.look lane) f x0.toNat k.toNat parts))) false
  else if foldRm cw = 4 && (foldFmts (e.look lane) f x0.toNat k.toNat parts).contains 7 then .trap e (.plain cILLEGAL (laneBit lane)) false
  else match e.startField [] (e.foldCmd lane f hd eta x0 k cw parts) .empty with
    | .done e1 => .done (if foldRm cw = rsto || (foldFmts (e.look lane) f x0.toNat k.toNat parts).any foldNarrow then
        { e1 with t := e1.t.modThread lane (fun x => { x with copies := x.copies + 1 }) } else e1)
    | x => x

theorem Env.fold_eq (e : Env) (lane : Nat) (f : Field) (hd : List Byte) (eta x0 k cw : Word) : e.fold lane f hd eta x0 k cw =
    if cw.toNat / 32 ≠ 0 || 5 < foldRm cw || f.lev * f.entries < x0.toNat + k.toNat then .trap e (.plain cILLEGAL (laneBit lane)) false
    else match levelSizes (e.look lane) f (foldLevels f x0.toNat k.toNat) with
      | .error v => e.missAll kindFold [v]
      | .ok sizes => e.foldParts lane f hd eta x0 k cw ((foldLevels f x0.toNat k.toNat).zip sizes) := rfl

def hgfoldBody (d a b c : BitVec 6) (e : Env) (m : Mask) : Res :=
  let lane := lowLane m
  e.withField lane (e.t.lane64 a.toNat lane).toNat (fun e => e.startField [] (e.givenCmd 0 0 lane m) .empty)
    (fun f hd => e.fold lane f hd (e.t.lane d.toNat lane) (e.t.lane b.toNat lane) (e.t.lane (b.toNat + 1) lane) (e.t.lane c.toNat lane))

theorem exec_hgfold (d a b c : BitVec 6) (s : State) : exec (.hgfold d a b c) s = issue (reqOf (.hgfold d a b c)) (hgfoldBody d a b c) s := rfl

/-! ### Sound, misaligned and refused requests -/

section
variable {e : Env} {m : Mask} {lane : Nat} {f : Field} {hd : List Byte} {d a b : BitVec 6} {half : Bool} {sizes : List Nat}

theorem hgfGo_sized (hs : levelSizes (e.look lane) f (List.range f.lev) = .ok sizes) : hgfGo d a half m lane f hd e =
    e.requestLanes kindField m (e.hgfScan a m f sizes) (regsRun d (fieldRun f half)) (fun e' perf =>
      e'.fieldCmd (.hgf half) d.toNat lane perf hd (e.t.run a.toNat f.dim)
        ((e.hgfScan a m f sizes).trans ++ e'.sizeTrans lane f (List.range f.lev))) := by
  simp only [hgfGo, hs]

theorem texGo_sized {t : Texture} {size : Nat} (hs : texSize (e.look lane) t = .ok size) : texGo d a m lane t hd e =
    e.requestLanes kindField m (e.texScan a m t size) (regsRun d t.channels) (fun e' perf =>
      e'.fieldCmd .tex d.toNat lane perf hd (e.t.run a.toNat 2)
        ((e.texScan a m t size).trans ++ (match e.look lane t.base with | .found tr => [tr] | _ => []))) := by
  simp only [texGo, hs]

/-- Registers that hold their values, with nothing in flight, let `hgf` come to its lanes. -/
theorem hgfBody_good (hfl : e.t.inflight = []) (h : StructAt e (lowLane m) (e.t.lane64 b.toNat (lowLane m)).toNat 64 hd)
    (ha : (parseField hd).aligned = true) (hr : (parseField hd).inRange = true)
    (hin : ∀ v ∈ regsRun a (parseField hd).dim, v < e.t.regs.length ∧ (e.t.reg v).bad = false)
    (hout : ∀ v ∈ regsRun d (fieldRun (parseField hd) half), v < e.t.regs.length) :
    hgfBody d a b half e m = hgfGo d a half m (lowLane m) (parseField hd) hd e := by
  simpa only [hgfBody, Env.withField_good h ha hr] using Env.withRuns_ready hfl hin hout _ _

theorem hgsBody_good (hfl : e.t.inflight = []) (h : StructAt e (lowLane m) (e.t.lane64 b.toNat (lowLane m)).toNat 64 hd)
    (ha : (parseField hd).aligned = true) (hr : (parseField hd).inRange = true)
    (hin : ∀ v ∈ regsRun a (parseField hd).dim, v < e.t.regs.length ∧ (e.t.reg v).bad = false)
    (hgrad : ∀ v ∈ regsRun d (fieldRun (parseField hd) half), v < e.t.regs.length ∧ (e.t.reg v).bad = false) :
    hgsBody d a b half e m = hgsGo d a half m (lowLane m) (parseField hd) hd e := by
  simpa only [hgsBody, Env.withField_good h ha hr] using
    Env.withRuns_ready hfl (fun v hv => (List.mem_append.mp hv).elim (hin v) (hgrad v)) (fun _ h => absurd h List.not_mem_nil) _ _

theorem hgfBody_outOfRange (h : StructAt e (lowLane m) (e.t.lane64 b.toNat (lowLane m)).toNat 64 hd) (ha : (parseField hd).aligned = true)
    (hr : (parseField hd).inRange = false) : hgfBody d a b half e m = .trap e (.plain cILLEGAL (laneBit (lowLane m))) false := by
  simp only [hgfBody, Env.withField_outOfRange h ha hr]

theorem texBody_good (hfl : e.t.inflight = []) (h : StructAt e (lowLane m) (e.t.lane64 b.toNat (lowLane m)).toNat 32 hd)
    (hr : (parseTexture hd).inRange = true) (hout : ∀ v ∈ regsRun d (parseTexture hd).channels, v < e.t.regs.length) :
    texBody d a b e m = texGo d a m (lowLane m) (parseTexture hd) hd e := by
  simp only [texBody, Env.readStruct_structAt h, hr, Bool.not_true, Bool.false_eq_true, if_false]
  exact Env.withRuns_ready hfl (fun _ h => absurd h List.not_mem_nil) hout _ _

theorem texBody_outOfRange (h : StructAt e (lowLane m) (e.t.lane64 b.toNat (lowLane m)).toNat 32 hd)
    (hr : (parseTexture hd).inRange = false) : texBody d a b e m = .trap e (.plain cILLEGAL (laneBit (lowLane m))) false := by
  simp only [texBody, Env.readStruct_structAt h, hr, Bool.not_false, if_true]

end

section
variable {e : Env} {m : Mask} {va : Nat} {d a b : BitVec 6}

/-- A request that an absent structure answers (R259). -/
theorem Env.given_room (hf : e.t.full .tr = false) (dsts : List Nat) (n vd lane : Nat) : e.startField dsts (e.givenCmd n vd lane m) .empty =
    .done (e.inFlight .tr dsts none (.field (e.givenCmd n vd lane m))) :=
  Env.startField_sound hf dsts _ rfl

variable (hva : (e.t.lane64 b.toNat (lowLane m)).toNat = va) (hb : vaBad va = false)
include hva hb

theorem hgfBody_absent {half : Bool} (hfl : e.t.inflight = []) (hal : va % 64 = 0)
    (hout : ∀ v ∈ regsRun d (fieldRun absentField half), v < e.t.regs.length)
    (h : ∃ tr, e.look (lowLane m) va = .found tr ∧ pteR tr.entry = true ∧ pteP tr.entry = false) : hgfBody d a b half e m =
      .done (e.inFlight .tr (regsRun d (fieldRun absentField half)) none
        (.field (e.givenCmd (fieldRun absentField half) d.toNat (lowLane m) m))) := by
  simp only [hgfBody, hva, Env.withField_absent hb hal h]
  exact (Env.withRuns_ready hfl (fun _ h => absurd h List.not_mem_nil) hout _ _).trans (Env.given_room (Strand.full_of_idle hfl _) ..)

theorem hgfBody_refused {half : Bool} (hal : va % 64 = 0) (h : ∃ tr, e.look (lowLane m) va = .found tr ∧ pteR tr.entry = false) :
    hgfBody d a b half e m = .trap e (.at cPERM (laneBit (lowLane m)) va) false := by
  simp only [hgfBody, hva, Env.withField_refused hb hal h]

theorem hgsBody_absent {half : Bool} (hf : e.t.full .tr = false) (hal : va % 64 = 0)
    (h : ∃ tr, e.look (lowLane m) va = .found tr ∧ pteR tr.entry = true ∧ pteP tr.entry = false) :
    hgsBody d a b half e m = .done (e.inFlight .tr [] none (.field (e.givenCmd 0 d.toNat (lowLane m) m))) := by
  simp only [hgsBody, hva, Env.withField_absent hb hal h, Env.given_room hf]

theorem hgsBody_refused {half : Bool} (hal : va % 64 = 0) (h : ∃ tr, e.look (lowLane m) va = .found tr ∧ pteR tr.entry = false) :
    hgsBody d a b half e m = .trap e (.at cPERM (laneBit (lowLane m)) va) false := by
  simp only [hgsBody, hva, Env.withField_refused hb hal h]

theorem texBody_absent (hfl : e.t.inflight = []) (hal : va % 32 = 0) (hout : ∀ v ∈ regsRun d 1, v < e.t.regs.length)
    (h : ∃ tr, e.look (lowLane m) va = .found tr ∧ pteR tr.entry = true ∧ pteP tr.entry = false) : texBody d a b e m =
      .done (e.inFlight .tr (regsRun d 1) none (.field (e.givenCmd 1 d.toNat (lowLane m) m))) := by
  simp only [texBody, hva, Env.readStruct_absent hb hal h]
  exact (Env.withRuns_ready hfl (fun _ h => absurd h List.not_mem_nil) hout _ _).trans (Env.given_room (Strand.full_of_idle hfl _) ..)

theorem texBody_refused (hal : va % 32 = 0) (h : ∃ tr, e.look (lowLane m) va = .found tr ∧ pteR tr.entry = false) :
    texBody d a b e m = .trap e (.at cPERM (laneBit (lowLane m)) va) false := by
  simp only [texBody, hva, Env.readStruct_refused hb hal h]

end

/-- What a request that its scan stops comes to (R259): the misaligned lanes trap before anything; refused ones do once the others'
request is performed. -/
theorem requestLanes_stops {s : State} {e : Env} {i : Instr} (h : Starts s e i) {body : Env → Mask → Res} (hx : exec i s = issue (reqOf i) body s)
    {kind : BitVec 5} {sc : Scan} {dsts : List Nat} {cmd : Env → Mask → FieldCmd}
    (hb : body e (maskFor i e) = e.requestLanes kind (maskFor i e) sc dsts cmd) (hf : e.t.full .tr = false) (hmask : ∀ k, (cmd e k).mask = k)
    (hn : sc.needs = []) :
    (sc.align ≠ 0 → Traps s i e (.plain cALIGN sc.align) false)
    ∧ (sc.align = 0 → sc.fault ≠ 0 → maskFor i e &&& ~~~sc.fault = 0 → Traps s i e (.at cPERM sc.fault sc.faultVa) false)
    ∧ (sc.align = 0 → sc.fault ≠ 0 → maskFor i e &&& ~~~sc.fault ≠ 0 →
        Traps s i ((e.inFlight .tr dsts none (.field (cmd e (maskFor i e &&& ~~~sc.fault)))).settle (fun p => p.id = e.t.nextOp))
          (.at cPERM sc.fault sc.faultVa) true) :=
  ⟨fun ha => traps_of h hx (hb.trans (Env.requestLanes_misaligned hn ha)),
    fun ha _ hr => traps_of h hx (hb.trans (Env.requestLanes_refused hn ha hr)),
    fun ha hz hr => traps_of h hx (hb.trans (Env.requestLanes_partial hn hf ha hz hr hmask))⟩

/-! ### A fold's outcomes -/

section
variable {e : Env} {m : Mask} {d a b c : BitVec 6} {hd : List Byte} {va : Nat}

theorem hgfoldBody_good (h : StructAt e (lowLane m) (e.t.lane64 a.toNat (lowLane m)).toNat 64 hd) (ha : (parseField hd).aligned = true)
    (hr : (parseField hd).inRange = true) : hgfoldBody d a b c e m =
      e.fold (lowLane m) (parseField hd) hd (e.t.lane d.toNat (lowLane m)) (e.t.lane b.toNat (lowLane m))
        (e.t.lane (b.toNat + 1) (lowLane m)) (e.t.lane c.toNat (lowLane m)) := by
  simp only [hgfoldBody, Env.withField_good h ha hr]

variable (hva : (e.t.lane64 a.toNat (lowLane m)).toNat = va) (hb : vaBad va = false) (hal : va % 64 = 0)
include hva hb hal

theorem hgfoldBody_absent (hf : e.t.full .tr = false)
    (h : ∃ tr, e.look (lowLane m) va = .found tr ∧ pteR tr.entry = true ∧ pteP tr.entry = false) :
    hgfoldBody d a b c e m = .done (e.inFlight .tr [] none (.field (e.givenCmd 0 0 (lowLane m) m))) := by
  simp only [hgfoldBody, hva, Env.withField_absent hb hal h, Env.given_room hf]

theorem hgfoldBody_refused (h : ∃ tr, e.look (lowLane m) va = .found tr ∧ pteR tr.entry = false) :
    hgfoldBody d a b c e m = .trap e (.at cPERM (laneBit (lowLane m)) va) false := by
  simp only [hgfoldBody, hva, Env.withField_refused hb hal h]

end

theorem foldScan_known {look : Nat → Lookup} {lane : Nat} {f : Field} {x0 k : Nat} {parts : List (Nat × Nat)}
    (hp : ∀ p ∈ parts, ∀ v ∈ foldPages f x0 k p,
      classify look (paramWant p.2 pteW) v ≠ .need ∧ classify look (paramWant p.2 pteW) v ≠ .misaligned)
    (hs : ∀ v ∈ foldShadows f x0 k,
      classify look (shadowWant f pteRWAny) v ≠ .need ∧ classify look (shadowWant f pteRWAny) v ≠ .misaligned) :
    (foldScan look lane f x0 k parts).Known :=
  Scan.Known.lane (List.foldlRecOn (motive := Scan.Known) parts _ ⟨rfl, rfl⟩ fun _ hsc p hm => hsc.lane lane (hp p hm)) lane hs

section
variable {e : Env} {lane : Nat} {f : Field} {hd : List Byte} {eta x0 k cw : Word} {parts : List (Nat × Nat)}
  (hk : (foldScan (e.look lane) lane f x0.toNat k.toNat parts).Known)
include hk

theorem Env.foldParts_refused (ho : foldRefused (e.look lane) f x0.toNat k.toNat parts ≠ []) : e.foldParts lane f hd eta x0 k cw parts =
    .trap e (.at cPERM (laneBit lane) (lowest (foldRefused (e.look lane) f x0.toNat k.toNat parts))) false := by
  obtain ⟨hn, ha⟩ := hk
  simp only [Env.foldParts, hn, ha, List.isEmpty_nil, Bool.not_true, Bool.false_eq_true, if_false, ne_eq, not_true_eq_false]
  rw [if_pos (by simpa using ho)]

variable (ho : foldRefused (e.look lane) f x0.toNat k.toNat parts = [])
include ho

theorem Env.foldParts_illegal (hrm : foldRm cw = 4) (h7 : 7 ∈ foldFmts (e.look lane) f x0.toNat k.toNat parts) :
    e.foldParts lane f hd eta x0 k cw parts = .trap e (.plain cILLEGAL (laneBit lane)) false := by
  obtain ⟨hn, ha⟩ := hk
  simp only [Env.foldParts, hn, ha, ho, hrm, List.contains_iff_mem.mpr h7, List.isEmpty_nil, Bool.not_true, Bool.false_eq_true, if_false, ne_eq,
    not_true_eq_false, decide_true, Bool.and_self, if_true]

/-- R268: a fold that draws takes a copy's number. -/
theorem Env.foldParts_starts (hf : e.t.full .tr = false) (h7 : foldRm cw = 4 → 7 ∉ foldFmts (e.look lane) f x0.toNat k.toNat parts) :
    e.foldParts lane f hd eta x0 k cw parts =
      let e1 := e.inFlight .tr [] none (.field (e.foldCmd lane f hd eta x0 k cw parts))
      .done (if foldRm cw = rsto || (foldFmts (e.look lane) f x0.toNat k.toNat parts).any foldNarrow then
        e1.on (e1.t.modThread lane (fun x => { x with copies := x.copies + 1 })) else e1) := by
  obtain ⟨hn, ha⟩ := hk
  have h7 : (decide (foldRm cw = 4) && (foldFmts (e.look lane) f x0.toNat k.toNat parts).contains 7) = false := by
    simpa using h7
  simp only [Env.foldParts, hn, ha, ho, h7, List.isEmpty_nil, Bool.not_true, Bool.false_eq_true, if_false, ne_eq, not_true_eq_false,
    Env.startField_sound hf [] _ (show Scan.empty.fault = 0 from rfl)]
  rfl

end

/-- R268: what the word of `hgfold` itself refuses. -/
theorem Env.fold_illegal {e : Env} {lane : Nat} {f : Field} {hd : List Byte} {eta x0 k cw : Word}
    (h : 32 ≤ cw.toNat ∨ 5 < foldRm cw ∨ f.lev * f.entries < x0.toNat + k.toNat) :
    e.fold lane f hd eta x0 k cw = .trap e (.plain cILLEGAL (laneBit lane)) false := by
  rw [Env.fold_eq, if_pos]
  simpa [Nat.div_eq_zero_iff, or_assoc] using h

theorem Env.fold_legal {e : Env} {lane : Nat} {f : Field} {hd : List Byte} {eta x0 k cw : Word} {sizes : List Nat} (hc : cw.toNat < 32)
    (hrm : foldRm cw ≤ 5) (hx : x0.toNat + k.toNat ≤ f.lev * f.entries)
    (hs : levelSizes (e.look lane) f (foldLevels f x0.toNat k.toNat) = .ok sizes) :
    e.fold lane f hd eta x0 k cw = e.foldParts lane f hd eta x0 k cw ((foldLevels f x0.toNat k.toNat).zip sizes) := by
  rw [Env.fold_eq, if_neg, hs]
  simp [Nat.div_eq_zero_iff, hc, hrm, hx]

theorem regsRun_length (d : BitVec 6) (n : Nat) : (regsRun d n).length = n := by simp [regsRun]

/-- Settles O35: each word's body is taken to its lanes, and the scan of their elements decides. -/
theorem fieldRequests : Obligations.FieldRequests := by
  unfold Obligations.FieldRequests
  intro s e d a b c o g hd sizes f half n levels lane ready holds starts header good page absent stops hgf hgs tex tx scan
  have hxf := exec_hgf d a b o g s
  have hxs := exec_hgs d a b o g s
  have hxt := exec_tex d a b g s
  refine ⟨?hgf, ?hgs, ?tex, ?hgfStops, ?hgsStops, ?hgfAbsent, ?hgsAbsent, ?texAbsent, ?hgfRefused, ?hgsRefused, ?texRefused, ?texRange, ?hgfRange,
    ?fold, ?foldAbsent, ?foldRefused⟩
  case hgf =>
    rintro ⟨h, hm, hfl⟩ hr ⟨ha, hrange⟩ hin hout hs hclear
    have hsound : (e.hgfScan a (maskFor hgf e) f sizes).Sound := by
      rw [Env.hgfScan_eq]
      refine scanOf_sound fun l hl x hx => ?_
      obtain ⟨p, hp, rfl⟩ := List.mem_map.mp hx
      exact ⟨_, _, rfl, hclear l hl p hp⟩
    exact ⟨_, ends_of h hxf ((if_neg hm).trans ((hgfBody_good hfl hr ha hrange hin (fun v hv => (hout v hv).1)).trans ((hgfGo_sized hs).trans
      (Env.requestLanes_sound (Strand.full_of_idle hfl _) hm hsound)))), rfl, rfl, rfl, rfl, rfl, rfl⟩
  case hgs =>
    rintro ⟨h, hm, hfl⟩ hr ⟨ha, hrange⟩ hin hgrad hclear
    have hsound : (e.hgsScan d a half (maskFor hgs e) f).Sound := by
      rw [Env.hgsScan_eq]
      refine scanOf_sound fun l hl x hx => ?_
      obtain ⟨k, hk, rfl⟩ := List.mem_map.mp hx
      exact ⟨_, _, rfl, hclear l hl k hk⟩
    exact ⟨_, ends_of h hxs ((if_neg hm).trans ((hgsBody_good hfl hr ha hrange hin hgrad).trans
      (Env.requestLanes_sound (Strand.full_of_idle hfl _) hm hsound))), rfl, rfl, rfl, rfl, rfl, rfl⟩
  case tex =>
    rintro ⟨h, hm, hfl⟩ hr hrange hout size hs hclear
    have hsound : (e.texScan a (maskFor tex e) tx size).Sound := by
      rw [Env.texScan_eq]
      refine scanOf_sound fun l hl x hx => ?_
      obtain rfl := List.mem_singleton.mp hx
      exact ⟨_, _, rfl, hclear l hl⟩
    exact ⟨_, ends_of h hxt ((if_neg hm).trans ((texBody_good hfl hr hrange (fun v hv => (hout v hv).1)).trans ((texGo_sized hs).trans
      (Env.requestLanes_sound (Strand.full_of_idle hfl _) hm hsound)))), rfl, rfl, rfl, rfl, rfl, rfl⟩
  case hgfStops =>
    rintro ⟨h, hm, hfl⟩ hr ⟨ha, hrange⟩ hin hout hs sc
    have hsc : e.hgfScan a (maskFor hgf e) f sizes = sc := Env.hgfScan_eq ..
    rw [← hsc]
    exact requestLanes_stops h hxf ((if_neg hm).trans ((hgfBody_good hfl hr ha hrange hin (fun v hv => (hout v hv).1)).trans (hgfGo_sized hs)))
      (Strand.full_of_idle hfl _) (fun _ => rfl)
  case hgsStops =>
    rintro ⟨h, hm, hfl⟩ hr ⟨ha, hrange⟩ hin hgrad given sc
    have hsc : e.hgsScan d a half (maskFor hgs e) f = sc := Env.hgsScan_eq ..
    rw [← hsc]
    exact requestLanes_stops h hxs ((if_neg hm).trans (hgsBody_good hfl hr ha hrange hin hgrad)) (Strand.full_of_idle hfl _) (fun _ => rfl)
  case hgfAbsent =>
    rintro ⟨h, hm, hfl⟩ ⟨hb, hal, tr, hl, hperm, hp⟩ hout
    have hlen := regsRun_length d (fieldRun absentField (decide half))
    exact ⟨_, ends_of h hxf ((if_neg hm).trans (hgfBody_absent rfl hb hfl hal (fun v hv => (hout v hv).1) ⟨tr, hl, hperm, hp rfl⟩)),
      by rw [hlen]; rfl, rfl, rfl, rfl, by rw [hlen]; rfl⟩
  case hgsAbsent =>
    rintro ⟨h, hm, hfl⟩ ⟨hb, hal, tr, hl, hperm, hp⟩
    exact ⟨_, ends_of h hxs ((if_neg hm).trans (hgsBody_absent rfl hb (Strand.full_of_idle hfl _) hal ⟨tr, hl, hperm, hp rfl⟩)),
      rfl, rfl, rfl, rfl, rfl⟩
  case texAbsent =>
    rintro ⟨h, hm, hfl⟩ ⟨hb, hal, tr, hl, hperm, hp⟩ hout
    exact ⟨_, ends_of h hxt ((if_neg hm).trans (texBody_absent rfl hb hfl hal (fun v hv => (hout v hv).1) ⟨tr, hl, hperm, hp rfl⟩)),
      rfl, rfl, rfl, rfl, rfl⟩
  case hgfRefused =>
    rintro h hm ⟨hb, hal, tr, hl, hperm, -⟩
    exact traps_of h hxf ((if_neg hm).trans (hgfBody_refused rfl hb hal ⟨tr, hl, hperm⟩))
  case hgsRefused =>
    rintro h hm ⟨hb, hal, tr, hl, hperm, -⟩
    exact traps_of h hxs ((if_neg hm).trans (hgsBody_refused rfl hb hal ⟨tr, hl, hperm⟩))
  case texRefused =>
    rintro h hm ⟨hb, hal, tr, hl, hperm, -⟩
    exact traps_of h hxt ((if_neg hm).trans (texBody_refused rfl hb hal ⟨tr, hl, hperm⟩))
  case texRange => exact fun h hm hr hrange => traps_of h hxt ((if_neg hm).trans (texBody_outOfRange hr hrange))
  case hgfRange => exact fun h hm hr ha hrange => traps_of h hxf ((if_neg hm).trans (hgfBody_outOfRange hr ha hrange))
  case fold =>
    intro h hr hgood hf i l cw x0 k part touched pages shadows fmts refused out fits
    obtain ⟨ha, hrange⟩ := hgood
    have hx := exec_hgfold d a b c s
    refine ⟨fun hbad => traps_of h hx ((hgfoldBody_good hr ha hrange).trans (Env.fold_illegal hbad)), fun hc hrm hxk hs hpages hshadows => ?_⟩
    have hbody : hgfoldBody d a b c e (maskFor i e) =
        e.foldParts l f hd (e.t.lane d.toNat l) (e.t.lane b.toNat l) (e.t.lane (b.toNat + 1) l) cw (touched.zip sizes) :=
      (hgfoldBody_good hr ha hrange).trans (Env.fold_legal hc hrm hxk hs)
    have hk : (foldScan (e.look l) l f x0 k (touched.zip sizes)).Known := foldScan_known hpages hshadows
    refine ⟨fun ho => traps_of h hx (hbody.trans (Env.foldParts_refused hk ho)),
      fun ho hrm4 h7 => traps_of h hx (hbody.trans (Env.foldParts_illegal hk ho hrm4 h7)), fun ho h7 => ?_⟩
    have hend := ends_of h hx (hbody.trans (Env.foldParts_starts hk ho hf h7))
    exact ⟨_, hend, rfl, rfl, rfl, rfl, rfl⟩
  case foldAbsent =>
    rintro h hf ⟨hb, hal, tr, hl, hperm, hp⟩
    exact ⟨_, ends_of h (exec_hgfold d a b c s) (hgfoldBody_absent rfl hb hal hf ⟨tr, hl, hperm, hp rfl⟩),
      rfl, rfl, rfl, rfl⟩
  case foldRefused =>
    rintro h ⟨hb, hal, tr, hl, hperm, -⟩
    exact traps_of h (exec_hgfold d a b c s) (hgfoldBody_refused rfl hb hal ⟨tr, hl, hperm⟩)

end Sys2Proof.Machine
end

section
/-! The events of Bellows' queue, heap and placement (O45): what each answers under the condition that its rule names. -/

namespace Sys2Proof.Machine

/-! ### Kicks and pulling (R308, R309, R311, R315) -/

theorem queueKick_accepted {s : State} {q off : Nat} (w : Nat) (v : DWord) (h : s.dev.stage = 6 ∨ 8 ≤ off) (hq : q < 1024) :
    exec (.queueKick q off w v) s = .next (s.hostKick q off w v) := by
  change execQueueKick q off w v s = _
  simp only [execQueueKick, if_neg (Nat.not_le.mpr hq), Bool.or_eq_true, decide_eq_true_eq, if_pos h]

/-- R464: before RUN a kick only sets a refusal bit; a failed device takes none (R459). -/
theorem queueKick_refused {s : State} {q off : Nat} (w : Nat) (v : DWord) (hs : s.dev.stage ≠ 6) (hq : q < 1024) (ho : off < 8) :
    exec (.queueKick q off w v) s = .next (s.refuseKick q off w) := by
  change execQueueKick q off w v s = _
  have hno : ¬ (s.dev.stage = 6 ∨ 8 ≤ off) := by omega
  simp only [execQueueKick, if_neg (Nat.not_le.mpr hq), Bool.or_eq_true, decide_eq_true_eq, if_neg hno]

theorem State.refuseKick_early {s : State} (q off w : Nat) (hs : s.dev.stage < 6) : s.refuseKick q off w =
    s.modQueue q (fun x => if off = 0 && w = 8 then { x with range := true } else { x with width := true }) :=
  if_neg (by omega)

theorem State.refuseKick_failed {s : State} (q off w : Nat) (hs : s.dev.stage = 7) : s.refuseKick q off w = s := if_pos hs

theorem packetPull_next {s : State} {q : Nat} (hs : s.dev.stage = 6) (hf : s.heapFree = true) (hm : s.metHeld = [])
    (hq : s.nextQueue = some q) : exec .packetPull s = .next (s.pullFrom q).markTop := by
  change execPacketPull s = _
  simp [execPacketPull, hs, hf, hm, hq]

theorem dependencyMet_earliest {s : State} {l : Launch} {q : Nat} (hh : s.latchDeps.metHeld.head? = some l) (hq : l.queue = q)
    (hf : s.latchDeps.heapFree = true) : exec (.dependencyMet q) s = .next (s.latchDeps.test l).markTop := by
  change execDependencyMet q s = _
  obtain ⟨rest, hrest⟩ := List.head?_eq_some_iff.mp hh
  simp only [execDependencyMet, hrest, hq, hf, decide_true, Bool.and_self, if_true]

/-! ### The heap (R318, R322) -/

/-- A launch in the heap whose EARLIEST has come: the top is marked, and a MARKER that becomes it completes. -/
theorem earliestReached_inHeap {s : State} {l : Launch} {seq : Nat} (h : s.launch? seq = some l) (hh : l.inHeap = true)
    (hr : s.reached l.pkt.earliest = true) :
    exec (.earliestReached seq) s =
      .next (if s.markTop.top.map Launch.seq = some seq then s.markTop.completeMarker else s.markTop) := by
  change execEarliestReached seq s = _
  simp only [execEarliestReached, h, hh, hr, Bool.and_self, if_true]

theorem heapDeadlineExpiry_passed {s : State} {l : Launch} {seq : Nat} (h : s.launch? seq = some l) (hp : l.phase = .heap)
    (hd : s.passed l.pkt.deadline = true) (ha : (s.ctx l.ctx).frozen = false) :
    exec (.heapDeadlineExpiry seq) s = .next (s.shed l true).markTop := by
  change execHeapDeadlineExpiry seq s = _
  simp only [execHeapDeadlineExpiry, h, hp, hd, ha, decide_true, Bool.not_false, Bool.and_self, if_true]

/-! ### Placing and the time slice (R322, R336) -/

theorem placeUnit_launch {s : State} {l : Launch} (h : s.top = some l) (hk : l.pkt.kind ≠ 2) :
    exec .placeUnit s = .next (s.placeTop l).markTop := by
  change execPlaceUnit s = _
  simp only [execPlaceUnit, h, if_neg hk]

/-- A MARKER on top completes DONE. -/
theorem State.completeMarker_marker {s : State} {l : Launch} (h : s.top = some l) (hk : l.pkt.kind = 2) :
    s.completeMarker = (s.complete l.seq CplStatus.done.code).markTop := by
  simp only [State.completeMarker, h, if_pos hk]

theorem placeUnit_marker {s : State} {l : Launch} (h : s.top = some l) (hk : l.pkt.kind = 2) :
    exec .placeUnit s = .next (s.complete l.seq CplStatus.done.code).markTop := by
  change execPlaceUnit s = _
  simp only [execPlaceUnit, h, if_pos hk, State.completeMarker_marker h hk]

theorem timeSliceTick_due {s : State} (hk : s.bellows.tickDone < s.clock.toNat / 500000) (hs : s.dev.stage = 6) :
    let s1 := ({ s with bellows := { s.bellows with tickDone := s.clock.toNat / 500000 } } : State).markTop
    exec .timeSliceTick s = .next ((List.range 64).foldl (fun st x => st.sliceContext x) s1.leaveRetiring).markTop :=
  congrArg Host.Outcome.next (if_pos (by simp only [hk, hs, decide_true, Bool.and_self]))

/-! ### Bringing gangs back (R339) -/

/-- The deadline that a waiting gang must meet to come before the top. -/
def State.restoreLimit (s : State) : Nat := match s.top with | some l => l.pkt.deadline.toNat | none => 2 ^ 64

theorem Gang.deadline_le (g : Gang) (s : State) : g.deadline s ≤ 2 ^ 64 := by
  unfold Gang.deadline
  split
  · exact (BitVec.isLt _).le
  · omega

theorem Gang.deadline_le_restoreLimit {g : Gang} {s : State} (h : ∀ t, s.top = some t → g.deadline s ≤ t.pkt.deadline.toNat) :
    g.deadline s ≤ s.restoreLimit := by
  unfold State.restoreLimit
  split
  · next t ht => exact h t ht
  · exact g.deadline_le s

/-- A waiting gang comes back when its crews fit. -/
def State.tryReturn (s : State) (g : Gang) : State := match s.planReturn g.crews with | some cs => s.returnGang g.crews cs | none => s

theorem State.tryReturn_fits {s : State} {g : Gang} {cs : List Nat} (h : s.planReturn g.crews = some cs) :
    s.tryReturn g = s.returnGang g.crews cs := by simp only [State.tryReturn, h]

theorem State.tryReturn_noRoom {s : State} {g : Gang} (h : s.planReturn g.crews = none) : s.tryReturn g = s := by
  simp only [State.tryReturn, h]

theorem State.restoreWaiting_eq (s : State) : s.restoreWaiting =
    (sortBy (fun a b => lexLe [a.deadline s, a.waitFrom, a.seq, a.gang] [b.deadline s, b.waitFrom, b.seq, b.gang])
      (s.waitingGangs.filter (fun g => decide (g.deadline s ≤ s.restoreLimit)))).foldl State.tryReturn s := rfl

theorem State.restoreWaiting_none {s : State} (h : s.waitingGangs = []) : s.restoreWaiting = s := by
  rw [State.restoreWaiting_eq, h, List.filter_nil, sortBy, List.foldr_nil, List.foldl_nil]

theorem State.restoreWaiting_one {s : State} {g : Gang} (h : s.waitingGangs = [g]) (hd : g.deadline s ≤ s.restoreLimit) :
    s.restoreWaiting = s.tryReturn g := by
  have hf : [g].filter (fun g => decide (g.deadline s ≤ s.restoreLimit)) = [g] := by simp [hd]
  rw [State.restoreWaiting_eq, h, hf, sortBy, List.foldr_cons, List.foldr_nil, insertBy, List.foldl_cons, List.foldl_nil]

theorem State.restoreWaiting_late {s : State} {g : Gang} {t : Launch} (h : s.waitingGangs = [g]) (ht : s.top = some t)
    (hd : t.pkt.deadline.toNat < g.deadline s) : s.restoreWaiting = s := by
  have hf : [g].filter (fun g => decide (g.deadline s ≤ s.restoreLimit)) = [] := by simp [State.restoreLimit, ht, hd]
  rw [State.restoreWaiting_eq, h, hf, sortBy, List.foldr_nil, List.foldl_nil]

/-! ### Cut, completion and the watchdog (R319, R320, R442) -/

theorem launchDeadlineCut_passed {s : State} {l : Launch} {seq : Nat} (h : s.launch? seq = some l)
    (hp : l.phase = .placing ∨ l.phase = .running) (hc : l.pkt.cut = true) (hd : s.passed l.pkt.deadline = true)
    (ha : (s.ctx l.ctx).frozen = false) :
    let cutOff := s.modLaunch seq (fun l => { l with
      phase := .cutting, crewsLeft := 0, nextStage := 0, cutAt := if l.allPlaced then none else some s.clock })
    exec (.launchDeadlineCut seq) s =
      .next (((cutOff.crews.filter (fun c => c.live && c.seq = seq)).map Crew.id).foldl (fun st c => st.cutCrew c) cutOff).markTop := by
  intro cutOff
  change execLaunchDeadlineCut seq s = _
  have hph : (decide (l.phase = .placing) || decide (l.phase = .running)) = true := by simpa using hp
  simp only [execLaunchDeadlineCut, h, hph, hc, hd, ha, Bool.not_false, Bool.and_self, if_true, cutOff]

theorem launchCompletion_ended {s : State} {l : Launch} {seq : Nat} (h : s.launch? seq = some l)
    (hp : l.phase = .running ∨ l.phase = .cutting) (he : ∀ c ∈ s.crews, c.walker = true ∨ c.seq ≠ seq ∨ c.state = .ended) :
    exec (.launchCompletion seq) s = .next
      (s.complete seq (if s.lastEnd seq ≤ l.pkt.deadline.toNat then CplStatus.done.code else CplStatus.missed.code)).markTop := by
  change execLaunchCompletion seq s = _
  have hph : (decide (l.phase = .running) || decide (l.phase = .cutting)) = true := by simpa using hp
  have hall : s.crews.all (fun c => c.walker || decide (c.seq ≠ seq) || decide (c.state = .ended)) = true := by
    simpa [or_assoc] using he
  simp only [execLaunchCompletion, h, hph, hall, Bool.and_self, if_true]

theorem watchdogExpiry_due {s : State} {l : Launch} {seq : Nat} {start : DWord} (h : s.launch? seq = some l) (hs : l.firstAt = some start)
    (hw : l.pkt.watchdog ≠ 0) (ha : (s.ctx l.ctx).frozen = false)
    (hd : l.pkt.watchdog * 1000 + l.frozenFor ≤ (s.clock - start).toNat) :
    exec (.watchdogExpiry seq) s =
      .next (((s.settleLaunch seq).complete seq CplStatus.fault.code).fatalEvent l.ctx (.plain 16 true seq 0)).markTop := by
  change execWatchdogExpiry seq s = _
  simp only [execWatchdogExpiry, h, hs, hw, ha, hd, ne_eq, not_false_eq_true, decide_true, Bool.not_false, Bool.and_self, if_true]

/-- Settles O45: each clause is the law of its event above. -/
theorem launchEvents : Obligations.LaunchEvents := by
  unfold Obligations.LaunchEvents
  intro s l q off w seq gang v start go found alive held cutOff k
  have hrestore {t : State} (ht : s.restoreWaiting = t) : go .restoreOnRelease t.markTop :=
    congrArg (fun x => Host.Outcome.next (State.markTop x)) ht
  refine ⟨queueKick_accepted w v, fun hs hq ho => ?_, fun hs hq ho => ?_, packetPull_next, dependencyMet_earliest,
    fun h hh hr hne => (earliestReached_inHeap h hh hr).trans (congrArg _ (if_neg hne)),
    fun h hh hr he => (earliestReached_inHeap h hh hr).trans (congrArg _ (if_pos he)), heapDeadlineExpiry_passed, placeUnit_launch,
    placeUnit_marker, launchDeadlineCut_passed, timeSliceTick_due, rfl, rfl, fun h => hrestore (State.restoreWaiting_none h),
    fun g h hd => ?_, fun g t h ht hd => hrestore (State.restoreWaiting_late h ht hd), launchCompletion_ended, watchdogExpiry_due⟩
  · exact (queueKick_refused w v (by omega) hq ho).trans (congrArg _ (State.refuseKick_early q off w hs))
  · exact (queueKick_refused w v (by omega) hq ho).trans (congrArg _ (State.refuseKick_failed q off w hs))
  · have hone := State.restoreWaiting_one h (Gang.deadline_le_restoreLimit hd)
    exact ⟨fun _ hcs => hrestore (hone.trans (State.tryReturn_fits hcs)), fun hno => hrestore (hone.trans (State.tryReturn_noRoom hno))⟩

end Sys2Proof.Machine
end

section
/-! Ports, the PTP follower and the packets of sessions (O48): what each event answers under the condition that its rule names. -/

namespace Sys2Proof.Machine

/-! ### Ports and links (R389, R390) -/

/-- An update of a port matters only at the port as it stands. -/
theorem State.modPort_congr {s : State} {p : Nat} {f g : Port → Port} (h : f (s.port p) = g (s.port p)) : s.modPort p f = s.modPort p g := by
  simp only [State.modPort, h]

theorem portctlWrite_accepted {s : State} {p : Nat} {w : Word} (hs : 2 ≤ s.dev.stage)
    (h : BitVec.truncate 2 w = (s.port p).mode ∨ ((s.port p).enabled = true ∧ s.portInUse p = false)) :
    exec (.portctlWrite p w) s = .next (s.modPort p (fun z =>
      { z.setMode (BitVec.truncate 2 w) with llyn := w.getLsbD 2, ptpEn := w.getLsbD 3, rej := z.rej && !w.getLsbD 31 })) := by
  refine congrArg Host.Outcome.next ((if_neg (Nat.not_lt.mpr hs)).trans (State.modPort_congr (if_neg ?_)))
  obtain h | ⟨he, hu⟩ := h
  · simp only [h, ne_eq, not_true_eq_false, decide_false, Bool.false_and, Bool.false_eq_true, not_false_eq_true]
  · simp only [he, hu, Bool.not_true, Bool.or_self, Bool.and_false, Bool.false_eq_true, not_false_eq_true]

theorem portctlWrite_rejected {s : State} {p : Nat} {w : Word} (hs : 2 ≤ s.dev.stage) (hm : BitVec.truncate 2 w ≠ (s.port p).mode)
    (h : (s.port p).enabled = false ∨ s.portInUse p = true) :
    exec (.portctlWrite p w) s = .next (s.modPort p (fun z => { z with rej := true })) := by
  refine congrArg Host.Outcome.next ((if_neg (Nat.not_lt.mpr hs)).trans (State.modPort_congr (if_pos ?_)))
  simpa only [Bool.and_eq_true, decide_eq_true_eq, Bool.or_eq_true, Bool.not_eq_true'] using ⟨hm, h⟩

theorem portLinkChange_present {s : State} {l : Nat} (up : Bool) (h : s.lportPresent l = true) (hs : 4 ≤ s.dev.stage) :
    exec (.portLinkChange l up) s = .next (s.modLport l (fun z => { z with link := up, ingress := if up then z.ingress else [] })) :=
  congrArg Host.Outcome.next (if_pos (by simp only [h, hs, decide_true, Bool.and_self]))

theorem arpRequest_own {s : State} {l : Nat} {target : Word} (ip : Word) (mac : BitVec 48) (hu : s.lportUp l = true)
    (ht : target = (s.lport l).ip) (h0 : target ≠ 0) : exec (.arpRequest l target ip mac) s = .next (s.emit (.arpReply l ip mac)) :=
  congrArg Host.Outcome.next (if_pos (by
    simp only [Bool.and_eq_true, decide_eq_true_eq]
    exact ⟨⟨hu, ht⟩, h0⟩))

/-! ### The follower (R391 to R393) -/

theorem ptpctlWrite_quiet {s : State} {v : DWord} (hs : 2 ≤ s.dev.stage) (hc : ∀ z ∈ s.sessions, z.up = false) (hg : s.genlockOn = false) :
    let ptp : Ptp := { s.ptp with
      host := v.getLsbD 0, port := BitVec.ofNat 3 (bitsOf v.toNat 10 3)
      domain := BitVec.ofNat 8 (bitsOf v.toNat 16 8) }
    ptp ≠ s.ptp → exec (.ptpctlWrite v) s = .next { s with ptp := ptp.restart } := by
  intro ptp hne
  refine congrArg Host.Outcome.next (if_neg ?_)
  have hclosed : s.sessions.any Session.up = false := by simpa using hc
  simp only [hclosed, hg, Bool.or_false, Bool.or_eq_true, decide_eq_true_eq]
  exact fun h => h.elim (fun h => absurd hs (by omega)) hne

section
variable {s : State} {l : Nat} {msg : PtpMsg} (hu : s.lportUp l = true)
include hu

/-- R390, R391: a message with a bad checksum, on another port or of another domain is dropped and counted. -/
theorem ptpEventMessage_dropped (h : msg.sumOk = false ∨ s.follows l = false ∨ msg.domain ≠ s.ptp.domain) :
    exec (.ptpEventMessage l msg) s = .next ((s.countRecv l).countDrop l) := by
  refine congrArg Host.Outcome.next ((if_neg (by simp only [hu, Bool.not_true, Bool.false_eq_true, not_false_eq_true])).trans (if_pos ?_))
  simpa only [Bool.or_eq_true, Bool.not_eq_true', decide_eq_true_eq, or_assoc] using h

theorem ptpEventMessage_taken (hs : msg.sumOk = true) (hf : s.follows l = true) (hd : msg.domain = s.ptp.domain) :
    exec (.ptpEventMessage l msg) s = .next ((s.countRecv l).takePtp msg) := by
  refine congrArg Host.Outcome.next ((if_neg (by simp only [hu, Bool.not_true, Bool.false_eq_true, not_false_eq_true])).trans (if_neg ?_))
  simp only [hs, hf, hd, ne_eq, not_true_eq_false, decide_false, Bool.not_true, Bool.or_self, Bool.false_eq_true, not_false_eq_true]

end

theorem State.takePtp_sync {s : State} {msg : PtpMsg} (hk : msg.kind = .sync) (hh : s.ptp.heeds msg = true) : s.takePtp msg =
    ({ s with ptp := { s.ptp with t2 := some msg.stamp, t1 := if msg.twoStep then none else some msg.origin } } : State).measureSync := by
  simp only [State.takePtp, hk, hh, if_true]

/-- Another sender's message changes nothing, but an Announce. -/
theorem State.takePtp_unheeded {s : State} {msg : PtpMsg} (hk : msg.kind ≠ .announce) (hh : s.ptp.heeds msg = false) :
    s.takePtp msg = s := by
  cases hkind : msg.kind with
  | announce => exact absurd hkind hk
  | sync => simp only [State.takePtp, hkind, hh, Bool.false_eq_true, if_false]
  | followUp => simp only [State.takePtp, hkind, hh, Bool.and_false, Bool.false_eq_true, if_false]
  | delayResp => simp only [State.takePtp, hkind, hh, Bool.and_false, Bool.false_eq_true, if_false]

theorem State.takePtp_announce {s : State} {msg : PtpMsg} (hk : msg.kind = .announce) : s.takePtp msg = { s with ptp := s.ptp.hear msg } := by
  simp only [State.takePtp, hk]

/-! ### Opening a session (R395, R396) -/

section
variable {s : State} {k : Nat} (w : Word) (hk : k < 64)
include hk

theorem sessionOpen_alreadyUp (hu : (s.session k).up = true) : exec (.sessionOpen k w) s = .next
    (s.modSession k (fun z => { z with ctx := bitsOf w.toNat 0 6, rej := z.rej && !w.getLsbD 28 })) :=
  congrArg Host.Outcome.next ((if_neg (Nat.not_le.mpr hk)).trans (if_pos hu))

variable (hu : (s.session k).up = false)
include hu

/-- R464: before RUN a session opens nowhere. -/
theorem sessionOpen_early (hs : s.dev.stage ≠ 6) : exec (.sessionOpen k w) s = .next (s.modSession k (fun z => { z with rej := true })) :=
  congrArg Host.Outcome.next ((if_neg (Nat.not_le.mpr hk)).trans ((if_neg (ne_true_of_eq_false hu)).trans (if_pos hs)))

variable (hs : s.dev.stage = 6)
include hs

theorem sessionOpen_refused {desc : SessDesc} (hd : SessDesc.ofBytes (s.peekBytes (s.session k).desc.toNat 128) = desc)
    (hw : s.openWhy (s.session k).desc (bitsOf w.toNat 0 6) desc ≠ 0) :
    exec (.sessionOpen k w) s = .next (s.modSession k (fun z =>
      { z with ctx := bitsOf w.toNat 0 6, rej := true, why := s.openWhy (s.session k).desc (bitsOf w.toNat 0 6) desc })) := by
  subst hd
  exact congrArg Host.Outcome.next ((if_neg (Nat.not_le.mpr hk)).trans ((if_neg (ne_true_of_eq_false hu)).trans
    ((if_neg (not_not_intro hs)).trans (if_pos hw))))

theorem sessionOpen_opens {desc : SessDesc} (hd : SessDesc.ofBytes (s.peekBytes (s.session k).desc.toNat 128) = desc)
    (hw : s.openWhy (s.session k).desc (bitsOf w.toNat 0 6) desc = 0) :
    exec (.sessionOpen k w) s = .next (((s.modSession k (fun _ => { Session.fresh with
      desc := (s.session k).desc, ctx := bitsOf w.toNat 0 6, up := true, d := desc, slots := List.replicate desc.nf .fresh
      txSeq := Config.rtpStart k s.clock })).emptyObjects k).joinGroup desc) := by
  subst hd
  exact congrArg Host.Outcome.next ((if_neg (Nat.not_le.mpr hk)).trans ((if_neg (ne_true_of_eq_false hu)).trans
    ((if_neg (not_not_intro hs)).trans (if_neg (not_not_intro hw)))))

end

/-! ### Received packets (R390, R391, R394, R397) -/

/-- A session on one path merges nothing. -/
theorem Session.merges_onePath {x : Session} (h : x.d.portb = 15) (seq : Word) (stamp : DWord) : x.merges seq stamp = (false, x) := if_pos h

/-- What matches a packet's session. -/
def isForVideo (vp : VideoPacket) (l : Nat) (x : Session) : Bool :=
  !x.d.opaque_ && x.d.matches_ l vp.srcIp vp.dstIp vp.dport vp.pt vp.ssrc

def isForRtp (rp : RtpPacket) (l : Nat) (x : Session) : Bool :=
  x.d.opaque_ && x.d.matches_ l rp.srcIp rp.dstIp rp.dport rp.pt rp.ssrc

section
variable {s : State} {l k : Nat} {vp : VideoPacket} {rp : RtpPacket} (hu : s.lportUp l = true)
include hu

theorem videoPacketReceive_unmatched
    (h : vp.sumOk = false ∨ ((s.handOver l vp.stamp).countRecv l).matchSession (isForVideo vp l) = none) :
    exec (.videoPacketReceive l vp) s = .next (((s.handOver l vp.stamp).countRecv l).countDrop l) := by
  change execVideoPacketReceive l vp s = _
  unfold isForVideo at h
  simp only [execVideoPacketReceive, hu, Bool.not_true, Bool.false_eq_true, if_false]
  obtain h | h := h
  · simp only [h, Bool.not_false, if_true]
  · simp only [h, ite_self]

theorem videoPacketReceive_taken (hsum : vp.sumOk = true)
    (hm : ((s.handOver l vp.stamp).countRecv l).matchSession (isForVideo vp l) = some k)
    (hp : (((s.handOver l vp.stamp).countRecv l).session k).d.portb = 15) (hne : vp.segs ≠ []) (hlen : vp.segs.length ≤ 3)
    (hok : vp.segs.all (((s.handOver l vp.stamp).countRecv l).session k).d.segOk = true) :
    let s1 := (s.handOver l vp.stamp).countRecv l
    exec (.videoPacketReceive l vp) s = .next ((s1.modSession k (fun _ => s1.session k)).takeVideo k vp) := by
  intro s1
  change execVideoPacketReceive l vp s = _
  unfold isForVideo at hm
  have hcond : (vp.segs.isEmpty || decide (3 < vp.segs.length) || !vp.segs.all (s1.session k).d.segOk) = false := by
    simp [s1, hne, hok, Nat.not_lt.mpr hlen]
  simp only [execVideoPacketReceive, hu, hsum, hm, Session.merges_onePath hp, hcond, Bool.not_true, Bool.false_eq_true, if_false, s1]

theorem opaquePacketReceive_unmatched
    (h : rp.sumOk = false ∨ ((s.handOver l rp.stamp).countRecv l).matchSession (isForRtp rp l) = none) :
    exec (.opaquePacketReceive l rp) s = .next (((s.handOver l rp.stamp).countRecv l).countDrop l) := by
  change execOpaquePacketReceive l rp s = _
  unfold isForRtp at h
  simp only [execOpaquePacketReceive, hu, Bool.not_true, Bool.false_eq_true, if_false]
  obtain h | h := h
  · simp only [h, Bool.not_false, if_true]
  · simp only [h, ite_self]

theorem opaquePacketReceive_stored (hsum : rp.sumOk = true)
    (hm : ((s.handOver l rp.stamp).countRecv l).matchSession (isForRtp rp l) = some k)
    (hp : (((s.handOver l rp.stamp).countRecv l).session k).d.portb = 15)
    (hfit : rp.payload.length + 16 ≤ (((s.handOver l rp.stamp).countRecv l).session k).d.pitch) :
    let s1 := (s.handOver l rp.stamp).countRecv l
    let z := s1.session k
    exec (.opaquePacketReceive l rp) s = .next (((s1.modSession k (fun _ => z)).engineWrite z.ctx
      (z.d.store.toNat + z.packets % (z.d.nf * z.d.h) * z.d.pitch)
      (leBytes 8 rp.stamp.toNat ++ leBytes 4 rp.payload.length ++ leBytes 4 rp.rtp.toNat ++ rp.payload)).modSession k
        (fun z => { z with packets := z.packets + 1 })) := by
  intro s1 z
  change execOpaquePacketReceive l rp s = _
  unfold isForRtp at hm
  simp only [execOpaquePacketReceive, hu, hsum, hm, Session.merges_onePath hp, if_neg (Nat.not_lt.mpr hfit), Bool.not_true,
    Bool.false_eq_true, if_false, s1, z]

end

/-! ### Closing lines (R291) -/

section
variable {s : State} {k f y : Nat}

/-- A line waits for the packets that its ports stamped below its deadline. -/
theorem lineClose_held (h : s.handedOver (s.session k) ((s.session k).d.deadline f y) = false) : exec (.lineClose k f y) s = .next s :=
  congrArg Host.Outcome.next (if_pos (by simp only [h, Bool.not_false, Bool.or_true]))

theorem lineClose_due (hu : (s.session k).up = true) (hsend : (s.session k).d.send = false) (ho : (s.session k).d.opaque_ = false)
    (ht : (s.session k).d.deadline f y ≤ s.clock.toNat) (hh : s.handedOver (s.session k) ((s.session k).d.deadline f y) = true)
    (hy : y ≠ 0) (hc : (s.session k).mayClose f y = true) : exec (.lineClose k f y) s = .next (s.closeLine k f y) := by
  change execLineClose k f y s = _
  simp only [execLineClose, hu, hsend, ho, hh, hy, hc, Nat.not_lt.mpr ht, Bool.not_true, Bool.or_self, decide_false, Bool.false_and,
    Bool.false_eq_true, if_false, if_true]

end

/-! ### Sending (R398, R299, R417) -/

/-- What a session sends now: the frame it is within, or the next one. -/
def Session.current (x : Session) : Option Sending :=
  match x.sending with
  | some sd => some sd
  | none => x.nextSend.map (fun f => ({ frame := f, next := 0, sent := [] } : Sending))

theorem Session.current_eq_none {x : Session} (hs : x.sending = none) (hn : x.nextSend = none) : x.current = none := by
  simp only [Session.current, hs, hn, Option.map_none]

theorem Session.current_eq_some {x : Session} {sd : Sending}
    (h : x.sending = some sd ∨ ∃ f, x.sending = none ∧ x.nextSend = some f ∧ sd = { frame := f, next := 0, sent := [] }) :
    x.current = some sd := by
  obtain h | ⟨f, hs, hn, rfl⟩ := h
  · simp only [Session.current, h]
  · simp only [Session.current, hs, hn, Option.map_some]

/-- A packet leaves, its line readied with its first packet; the frame's sending as it then stands. -/
def State.packetOut (s0 : State) (k : Nat) (sd : Sending) (marker : Bool) : State × Sending :=
  let x := s0.session k
  let y := sd.next / x.d.perLine
  let i := sd.next % x.d.perLine
  let b := if i = 0 then s0.beginLine k sd.frame y sd else (s0, sd)
  let n := groupOctets x.d.fmt
  let data := (((smapGet b.2.sent y).getD []).drop (i * x.d.perPacket * n)).take (x.d.perPacket * n)
  (b.1.sendVideo k (rtp90 (x.timesOf sd.frame).1.toNat) y (i * x.d.perPacket * groupPixels x.d.fmt) marker data, { b.2 with next := sd.next + 1 })

/-- One packet of a frame sent: the frame ends with its last. -/
def State.sendPacket (s0 : State) (k : Nat) (sd : Sending) : State :=
  let last := sd.next + 1 = (s0.session k).d.framePackets
  if last then (s0.packetOut k sd last).1.endFrame k sd.frame (s0.packetOut k sd last).2
  else (s0.packetOut k sd last).1.modSession k (fun x => { x with sending := some (s0.packetOut k sd last).2 })

theorem State.sendPacket_last {s0 : State} {k : Nat} {sd : Sending} (h : sd.next + 1 = (s0.session k).d.framePackets) :
    s0.sendPacket k sd = (s0.packetOut k sd true).1.endFrame k sd.frame (s0.packetOut k sd true).2 := by
  simp only [State.sendPacket, h, decide_true, if_true]

theorem State.sendPacket_within {s0 : State} {k : Nat} {sd : Sending} (h : sd.next + 1 ≠ (s0.session k).d.framePackets) :
    s0.sendPacket k sd = (s0.packetOut k sd false).1.modSession k (fun x => { x with sending := some (s0.packetOut k sd false).2 }) := by
  simp only [State.sendPacket, h, decide_false, if_false]

theorem exec_packetTransmit (k : Nat) (s : State) : exec (.packetTransmit k) s =
    .next (if !((s.claimSubst k).session k).up || !((s.claimSubst k).session k).d.send || ((s.claimSubst k).session k).d.opaque_ then s
      else match ((s.claimSubst k).session k).current with
        | none => s.claimSubst k
        | some sd => if s.clock.toNat < ((s.claimSubst k).session k).packetTime sd.frame sd.next then s.claimSubst k
          else (s.claimSubst k).sendPacket k sd) := rfl

section
variable {s : State} {k : Nat} (hu : ((s.claimSubst k).session k).up = true) (hsend : ((s.claimSubst k).session k).d.send = true)
  (ho : ((s.claimSubst k).session k).d.opaque_ = false)
include hu hsend ho

theorem packetTransmit_idle (h : ((s.claimSubst k).session k).current = none) : exec (.packetTransmit k) s = .next (s.claimSubst k) := by
  simp only [exec_packetTransmit, hu, hsend, ho, h, Bool.not_true, Bool.or_self, Bool.false_eq_true, if_false]

variable {sd : Sending} (h : ((s.claimSubst k).session k).current = some sd)
include h

theorem packetTransmit_waits (ht : s.clock.toNat < ((s.claimSubst k).session k).packetTime sd.frame sd.next) :
    exec (.packetTransmit k) s = .next (s.claimSubst k) := by
  simp only [exec_packetTransmit, hu, hsend, ho, h, ht, Bool.not_true, Bool.or_self, Bool.false_eq_true, if_false, if_true]

theorem packetTransmit_sends (ht : ((s.claimSubst k).session k).packetTime sd.frame sd.next ≤ s.clock.toNat) :
    exec (.packetTransmit k) s = .next ((s.claimSubst k).sendPacket k sd) := by
  simp only [exec_packetTransmit, hu, hsend, ho, h, Nat.not_lt.mpr ht, Bool.not_true, Bool.or_self, Bool.false_eq_true, if_false]

end

section
variable {s : State} {k : Nat}

/-- The next record of an opaque session leaves once its RTP time is reached (R399). -/
theorem opaqueTransmit_due (hu : (s.session k).up = true) (hsend : (s.session k).d.send = true) (ho : (s.session k).d.opaque_ = true) :
    let x := s.session k
    let at_ := x.d.store.toNat + x.packets % (x.d.nf * x.d.h) * x.d.pitch
    let len := s.peek (at_ + 8) 4
    let rtp : Word := BitVec.ofNat 32 (s.peek (at_ + 12) 4)
    len ≠ 0 → len + 16 ≤ x.d.pitch → (rtp90 s.clock.toNat - rtp).toNat < 2 ^ 31 →
      exec (.opaqueTransmit k) s = .next (((x.d.ports.filter s.lportUp).foldl (fun st l =>
        (st.emit (.opaque k l s.clock x.txSeq rtp (s.peekBytes (at_ + 16) len))).countSent l) s).modSession k
          (fun z => { z with packets := z.packets + 1, txSeq := z.txSeq + 1 })) := by
  intro x at_ len rtp hlen hfit ht
  refine congrArg Host.Outcome.next (if_neg ?_)
  simp only [hu, hsend, ho, Bool.not_true, Bool.or_self, Bool.false_or, Bool.or_eq_true, decide_eq_true_eq, not_or]
  exact ⟨⟨hlen, Nat.not_lt.mpr hfit⟩, Nat.not_le.mpr ht⟩

end

/-- Settles O48: each clause is the law of its event above; a transmit is split by what the session sends now, and by its frame's last
packet. -/
theorem portsAndSessions : Obligations.PortsAndSessions := by
  unfold Obligations.PortsAndSessions
  intro s p l k f y w target ip mac v up msg vp rp go m port x ptp counted own ctx desc opened video rtp lost s0 z0 sending videoFor rtpFor at_ len
  refine ⟨portctlWrite_accepted, portctlWrite_rejected, portLinkChange_present up, arpRequest_own ip mac, ptpctlWrite_quiet,
    fun hu hs hf hd => ⟨fun hk hh => ?_, fun hk hh => ?_, fun hk => ?_⟩, ptpEventMessage_dropped, fun h => congrArg _ (if_pos h), rfl,
    fun hk hu hs hw => sessionOpen_opens w hk hu hs rfl hw, fun hk hu hs hw => sessionOpen_refused w hk hu hs rfl hw, sessionOpen_alreadyUp w,
    sessionOpen_early w, rfl, videoPacketReceive_unmatched, videoPacketReceive_taken, opaquePacketReceive_unmatched,
    opaquePacketReceive_stored,
    lineClose_due, fun _ h => lineClose_held h,
    fun hu hsend ho hs hn => packetTransmit_idle hu hsend ho (Session.current_eq_none hs hn), ?waits, ?sends, opaqueTransmit_due⟩
  · exact (ptpEventMessage_taken hu hs hf hd).trans (congrArg _ (State.takePtp_sync hk hh))
  · exact (ptpEventMessage_taken hu hs hf hd).trans (congrArg _ (State.takePtp_unheeded hk hh))
  · exact (ptpEventMessage_taken hu hs hf hd).trans (congrArg _ (State.takePtp_announce hk))
  case waits =>
    rintro sd ⟨hu, hsend, ho, hcur⟩ ht
    exact packetTransmit_waits hu hsend ho (Session.current_eq_some hcur) ht
  case sends =>
    rintro sd ⟨hu, hsend, ho, hcur⟩ ht line i b n data sent sd2
    have hgo : go (.packetTransmit k) (s0.sendPacket k sd) := packetTransmit_sends hu hsend ho (Session.current_eq_some hcur) ht
    exact ⟨fun h => hgo.trans (congrArg _ (State.sendPacket_last h)), fun h => hgo.trans (congrArg _ (State.sendPacket_within h))⟩

end Sys2Proof.Machine
end

section
/-! Datagrams of Llynad (O49): what a port takes of a datagram in the order of its path, and what each kind then does. -/

namespace Sys2Proof.Machine

/-! ### Reception (R401) -/

/-- A datagram's path with its acknowledgement taken. -/
def State.llyPath (s : State) (l : Nat) (h : LlyHeader) : LPath :=
  (((s.countRecv l).learnPort h.via l h.rport).path h.via l h.rport).acknowledge h.ackSeq

/-- The machine with a datagram's acknowledgement taken. -/
def State.llyHeard (s : State) (l : Nat) (h : LlyHeader) : State := ((s.countRecv l).learnPort h.via l h.rport).setPath (s.llyPath l h)

/-- The machine with a datagram that is next on its path taken and acknowledged. -/
def State.llyTaken (s : State) (l : Nat) (h : LlyHeader) : State :=
  ((s.llyHeard l h).setPath { s.llyPath l h with rxSeq := h.seq }).sendAck l h.via h.rport

/-- A datagram is next on its path, and for this module. -/
def State.llyNext (s : State) (l : Nat) (h : LlyHeader) : Prop :=
  s.llyAccepts l h = true ∧ h.seq = (s.llyPath l h).rxSeq + 1 ∧ h.dst = s.lly.rank

section
variable {s : State} {l kind : Nat} {h : LlyHeader} {data : List Byte} {f : State → State}

theorem State.receiveLly_dropped (ha : s.llyAccepts l h = false) (hu : s.lportUp l = true) :
    s.receiveLly l kind h data f = (s.countRecv l).countDrop l := by
  simp only [State.receiveLly, ha, hu, Bool.not_false, if_true]

theorem State.receiveLly_accepted (ha : s.llyAccepts l h = true) : s.receiveLly l kind h data f =
    if kind = kACK then (s.llyHeard l h).pumpAll
    else if h.seq ≠ (s.llyPath l h).rxSeq + 1 then (s.llyHeard l h).sendAck l h.via h.rport
    else (if h.dst = s.lly.rank then f (s.llyTaken l h) else (s.llyTaken l h).sendLly h.dst kind h data).pumpAll := by
  simp only [State.receiveLly, ha, Bool.not_true, Bool.false_eq_true, if_false]
  rfl

theorem State.receiveLly_ack (ha : s.llyAccepts l h = true) : s.receiveLly l kACK h data f = (s.llyHeard l h).pumpAll :=
  (State.receiveLly_accepted ha).trans (if_pos rfl)

variable (hk : kind ≠ kACK)
include hk

/-- A repeated or early datagram is only acknowledged. -/
theorem State.receiveLly_outOfOrder (ha : s.llyAccepts l h = true) (hs : h.seq ≠ (s.llyPath l h).rxSeq + 1) :
    s.receiveLly l kind h data f = (s.llyHeard l h).sendAck l h.via h.rport :=
  (State.receiveLly_accepted ha).trans ((if_neg hk).trans (if_pos hs))

/-- R407: a datagram for another rank is sent on. -/
theorem State.receiveLly_relayed (ha : s.llyAccepts l h = true) (hs : h.seq = (s.llyPath l h).rxSeq + 1) (hd : h.dst ≠ s.lly.rank) :
    s.receiveLly l kind h data f = ((s.llyTaken l h).sendLly h.dst kind h data).pumpAll :=
  (State.receiveLly_accepted ha).trans ((if_neg hk).trans ((if_neg (not_not_intro hs)).trans (congrArg State.pumpAll (if_neg hd))))

theorem State.receiveLly_next (hn : s.llyNext l h) : s.receiveLly l kind h data f = (f (s.llyTaken l h)).pumpAll := by
  obtain ⟨ha, hs, hd⟩ := hn
  exact (State.receiveLly_accepted ha).trans ((if_neg hk).trans ((if_neg (not_not_intro hs)).trans (congrArg State.pumpAll (if_pos hd))))

end

/-- Every datagram but an acknowledgement comes to the same reception, with what its kind does. -/
theorem exec_llynad {s : State} {l kind : Nat} {h : LlyHeader} {flits : List Byte} {i : Instr}
    (hn : i = .llynadReq l h ∧ kind = kREQ ∧ flits = [] ∨ i = .llynadGrant l h ∧ kind = kGRANT ∧ flits = []
      ∨ i = .llynadData l h flits ∧ kind = kDATA ∨ i = .llynadSig l h ∧ kind = kSIG ∧ flits = []
      ∨ i = .llynadAbt l h ∧ kind = kABT ∧ flits = [] ∨ i = .llynadArrive l h ∧ kind = kARRIVE ∧ flits = []
      ∨ i = .llynadCommit l h ∧ kind = kCOMMIT ∧ flits = [] ∨ i = .llynadCack l h ∧ kind = kCACK ∧ flits = []) :
    kind ≠ kACK ∧ ∃ f, exec i s = .next (s.receiveLly l kind h flits f) := by
  obtain ⟨rfl, rfl, rfl⟩ | ⟨rfl, rfl, rfl⟩ | ⟨rfl, rfl⟩ | ⟨rfl, rfl, rfl⟩ | ⟨rfl, rfl, rfl⟩ | ⟨rfl, rfl, rfl⟩ | ⟨rfl, rfl, rfl⟩
    | ⟨rfl, rfl, rfl⟩ := hn
  all_goals exact ⟨by decide, _, rfl⟩

/-! ### Reception leaves the time as it is -/

theorem State.learnPort_cycle (s : State) (peer l r : Nat) : (s.learnPort peer l r).cycle = s.cycle := by
  unfold State.learnPort
  split <;> rfl

@[simp] theorem State.setPath_cycle (s : State) (p : LPath) : (s.setPath p).cycle = s.cycle := rfl
@[simp] theorem State.sendAck_cycle (s : State) (l peer r : Nat) : (s.sendAck l peer r).cycle = s.cycle := rfl
@[simp] theorem State.countRecv_cycle (s : State) (l : Nat) : (s.countRecv l).cycle = s.cycle := rfl

theorem State.llyTaken_cycle (s : State) (l : Nat) (h : LlyHeader) : (s.llyTaken l h).cycle = s.cycle := by
  simp only [State.llyTaken, State.llyHeard, State.sendAck_cycle, State.setPath_cycle, State.learnPort_cycle, State.countRecv_cycle]

/-! ### What the kinds do (R400, R402, R405) -/

section
variable {s : State} {l k : Nat} {h : LlyHeader} {flits : List Byte} (hn : s.llyNext l h)
include hn

section
variable (hp : (s.llyTaken l h).programOf h.tag = some k)
include hp

theorem llynadSig_counts {pr : CProg} (hpr : (s.llyTaken l h).prog? k = some pr) :
    exec (.llynadSig l h) s = .next ((s.llyTaken l h).addTc pr.ctx (h.param.toNat % 8) 1).pumpAll := by
  change execLlynadSig l h s = _
  simp only [execLlynadSig, State.receiveLly_next (by decide : kSIG ≠ kACK) hn, hp, hpr]

theorem llynadAbt_ends : exec (.llynadAbt l h) s = .next ((s.llyTaken l h).endProg k psAborted true).pumpAll := by
  change execLlynadAbt l h s = _
  simp only [execLlynadAbt, State.receiveLly_next (by decide : kABT ≠ kACK) hn, hp]

/-- A message longer than a chunk ends its receiver. -/
theorem llynadData_long {pr : CProg} (hpr : (s.llyTaken l h).prog? k = some pr) (hlong : pr.csize < h.param.toNat + flits.length) :
    exec (.llynadData l h flits) s = .next ((s.llyTaken l h).endProg k psBadProg true).pumpAll := by
  change execLlynadData l h flits s = _
  simp only [execLlynadData, State.receiveLly_next (by decide : kDATA ≠ kACK) hn, hp, hpr, hlong, if_true]

/-- The data of a captured message that a GRANT asks for leaves, if the path takes it. -/
theorem llynadGrant_sends {pr : CProg} {m : OutMsg} (hpr : (s.llyTaken l h).prog? k = some pr)
    (hm : pr.out.find? (fun m => m.peer = h.src && m.num = h.msg.toNat && m.asked) = some m) :
    let taken := s.llyTaken l h
    let part := (m.data.drop m.sent).take 8192
    let nf := ceilDiv part.length 256
    let u := taken.progSend k m.peer kDATA (taken.llyHeader m.peer pr.tag h.msg h.row nf (BitVec.ofNat 64 m.sent))
      (part ++ List.replicate (256 * nf - part.length) 0)
    let same (y : OutMsg) : Bool := y.peer = m.peer && y.num = m.num
    (u.1 = false → exec (.llynadGrant l h) s = .next u.2.pumpAll)
    ∧ (∀ q, u.1 = true → u.2.prog? k = some q → exec (.llynadGrant l h) s = .next (u.2.setProg k (some { q with
        out := if m.data.length ≤ m.sent + part.length then q.out.filter (fun y => !same y)
               else modWhere q.out same (fun y => { y with sent := m.sent + part.length, asked := false }) })).pumpAll) := by
  intro taken part nf u same
  change (_ → execLlynadGrant l h s = _) ∧ (∀ q, _ → _ → execLlynadGrant l h s = _)
  simp only [execLlynadGrant, State.receiveLly_next (by decide : kGRANT ≠ kACK) hn, hp, hpr, hm]
  refine ⟨fun hu => ?_, fun q hu hq => ?_⟩
  · simp only [u, part, nf, taken] at hu
    simp only [hu, Bool.not_false, if_true, u, part, nf, taken]
  · simp only [u, part, nf, taken] at hu hq
    simp only [hu, hq, Bool.not_true, Bool.false_eq_true, if_false, u, part, nf, taken, same]

end

theorem llynadGrant_stranger (hp : (s.llyTaken l h).programOf h.tag = none) :
    exec (.llynadGrant l h) s = .next (s.llyTaken l h).pumpAll := by
  change execLlynadGrant l h s = _
  simp only [execLlynadGrant, State.receiveLly_next (by decide : kGRANT ≠ kACK) hn, hp]

/-- Data lands in the row that is kept for its message. -/
theorem llynadData_lands
    (hfits : ∀ k pr, (s.llyTaken l h).programOf h.tag = some k → (s.llyTaken l h).prog? k = some pr → h.param.toNat + flits.length ≤ pr.csize)
    (hlen : flits.length = 256 * h.nflit) (hmax : h.nflit ≤ 32) (hrow : ((s.llyTaken l h).lly.rows.getD h.row .fresh).isFor h = true) :
    exec (.llynadData l h flits) s = .next ({ s.llyTaken l h with lly := { (s.llyTaken l h).lly with
      rows := modAt (s.llyTaken l h).lly.rows h.row (fun r => { r with data := some (h.param.toNat, flits) }) } } : State).pumpAll := by
  have hok : (decide (flits.length ≠ 256 * h.nflit) || decide (32 < h.nflit)
      || !((s.llyTaken l h).lly.rows.getD h.row .fresh).isFor h) = false := by
    simp only [hrow, Bool.not_true, Bool.or_false, Bool.or_eq_false_iff, decide_eq_false_iff_not]
    exact ⟨not_not_intro hlen, Nat.not_lt.mpr hmax⟩
  change execLlynadData l h flits s = _
  simp only [execLlynadData, State.receiveLly_next (by decide : kDATA ≠ kACK) hn]
  cases hp : (s.llyTaken l h).programOf h.tag with
  | none => simp only [hok, Bool.false_eq_true, if_false]
  | some k =>
    cases hpr : (s.llyTaken l h).prog? k with
    | none => simp only [hok, hpr, Bool.false_eq_true, if_false]
    | some pr => simp only [hok, hpr, Nat.not_lt.mpr (hfits k pr hp hpr), Bool.false_eq_true, if_false]

/-! ### Requests (R402) -/

section
variable {g : Option Nat}
  (hg : (s.llyTaken l h).lly.rows.findIdx? (fun r => r.isFor h && r.off = h.param.toNat && r.data.isNone) = g)
include hg

theorem llynadReq_granted {r : Nat} (he : g = some r) : exec (.llynadReq l h) s = .next ((s.llyTaken l h).tellGrant r).pumpAll := by
  change execLlynadReq l h s = _
  simp only [execLlynadReq, State.receiveLly_next (by decide : kREQ ≠ kACK) hn, hg, he]

variable (he : g = none)
include he

theorem llynadReq_waiting (hw : (s.llyTaken l h).lly.reqs.any (fun q => sameLoad q.2.2 h) = true) :
    exec (.llynadReq l h) s = .next (s.llyTaken l h).pumpAll := by
  change execLlynadReq l h s = _
  simp only [execLlynadReq, State.receiveLly_next (by decide : kREQ ≠ kACK) hn, hg, he, hw, if_true]

theorem llynadReq_queues (hw : (s.llyTaken l h).lly.reqs.any (fun q => sameLoad q.2.2 h) = false) :
    exec (.llynadReq l h) s = .next ((s.llyTaken l h).queueReq (s.cycle, l, h)).pumpAll := by
  change execLlynadReq l h s = _
  simp only [execLlynadReq, State.receiveLly_next (by decide : kREQ ≠ kACK) hn, hg, he, hw, Bool.false_eq_true, if_false, State.llyTaken_cycle]

end

/-! ### Genlock (R416) -/

section
variable {g : Nat} (hg : (s.llyTaken l h).genlockOf h = some g)
include hg

theorem llynadArrive_leader (hl : (s.llyTaken l h).leads g = true) :
    exec (.llynadArrive l h) s = .next ((s.llyTaken l h).takeArrive g h.src h.param).pumpAll := by
  change execLlynadArrive l h s = _
  simp only [execLlynadArrive, State.receiveLly_next (by decide : kARRIVE ≠ kACK) hn, hg, hl, if_true]

theorem llynadCommit_takes : exec (.llynadCommit l h) s = .next ((s.llyTaken l h).takeCommit g h.param).pumpAll := by
  change execLlynadCommit l h s = _
  simp only [execLlynadCommit, State.receiveLly_next (by decide : kCOMMIT ≠ kACK) hn, hg]

theorem llynadCack_counts : exec (.llynadCack l h) s =
    .next ((s.llyTaken l h).modTbar g (fun b => b.target = h.param) (fun b => { b with cacks := b.cacks ++ [h.src] })).pumpAll := by
  change execLlynadCack l h s = _
  simp only [execLlynadCack, State.receiveLly_next (by decide : kCACK ≠ kACK) hn, hg]

end

end

/-- A COMMIT at its decision or later makes the one barrier that has been decided without it disagree. -/
theorem State.takeCommit_late {s : State} {g : Nat} {t : DWord} {b : Genlock} (ht : (s.group g).decideAt t ≤ s.clock.toNat)
    (hc : t ∉ (s.group g).commits) (hb : (s.group g).tbars.filter (fun b => b.target = t && b.decided && !b.late) = [b]) :
    s.takeCommit g t = ((s.disagree b).tryEvent b.ctx (disagreeRecord t g 0 0xFF)).modTbar g (fun b => b.target = t)
      (fun b => { b with late := true }) := by
  have hnot : (s.group g).commits.contains t = false := by simpa using hc
  simp only [State.takeCommit, if_neg (Nat.not_lt.mpr ht), hnot, Bool.not_false, Bool.and_true, hb, List.foldl_cons, List.foldl_nil]

/-! ### Resending and failure (R401, R407) -/

section
variable {s : State} {peer l r : Nat}

theorem llynadResend_quiet (hq : (s.path peer l r).unacked.any s.resendDue = false) : exec (.llynadResend peer l r) s = .next s :=
  congrArg Host.Outcome.next (if_pos (by simp only [hq, Bool.not_false, Bool.or_true]))

theorem llynadResend_due (hf : (s.path peer l r).failed = false) (hd : (s.path peer l r).unacked.any s.resendDue = true) :
    exec (.llynadResend peer l r) s = .next
      (if (s.path peer l r).unacked.any (fun d => s.resendDue d && decide (8 ≤ d.tries)) then s.failPath (s.path peer l r)
       else s.resendPath (s.path peer l r) s.resendDue) :=
  congrArg Host.Outcome.next (if_neg (by simp only [hf, hd, Bool.not_true, Bool.or_self, Bool.false_eq_true, not_false_eq_true]))

theorem llynadPathRetry_due (hf : (s.path peer l r).failed = true) (ht : (s.path peer l r).retryAt ≤ s.clock) :
    let q : LPath := { s.path peer l r with retryAt := s.clock + 10000000 }
    exec (.llynadPathRetry peer l r) s =
      .next (if q.unacked.isEmpty then (s.setPath q).sendAck l peer r else s.resendPath q (fun _ => true)) := by
  have hnot : ¬ (s.clock < (s.path peer l r).retryAt) := BitVec.not_lt.mpr ht
  exact congrArg Host.Outcome.next (if_neg (by
    simp only [hf, hnot, Bool.not_true, decide_false, Bool.or_self, Bool.false_eq_true, not_false_eq_true]))

end

/-- Settles O49: each clause is the law of its datagram above; a request is split by what has been granted, and a resend by the tries. -/
theorem llynadDatagrams : Obligations.LlynadDatagrams := by
  unfold Obligations.LlynadDatagrams
  intro s l peer r k h flits i kind go named s1 learnt path s2 taken next p granted landed fits
  refine ⟨fun hi ha hu => ?_, fun hi ha hs => ?_, fun hi ha hs hd => ?_,
    fun ha => congrArg Host.Outcome.next (State.receiveLly_ack ha), fun hn hp => ⟨fun _ hpr => llynadSig_counts hn hp hpr, llynadAbt_ends hn hp⟩,
    fun hn => llynadReq_granted hn rfl, fun hn => llynadReq_waiting hn rfl, fun hn => llynadReq_queues hn rfl, llynadGrant_stranger,
    fun pr m hn hp hpr hm => llynadGrant_sends hn hp hpr hm, llynadData_lands, fun pr hn hp hpr => llynadData_long hn hp hpr, fun g hn hg => ?_,
    fun hf hd => ?_, fun _ hq => llynadResend_quiet hq, fun hf ht he => ?_, fun hf ht he => ?_⟩
  · obtain ⟨-, f, hx⟩ := exec_llynad (s := s) hi
    exact hx.trans (congrArg _ (State.receiveLly_dropped ha hu))
  · obtain ⟨hk, f, hx⟩ := exec_llynad (s := s) hi
    exact hx.trans (congrArg _ (State.receiveLly_outOfOrder hk ha hs))
  · obtain ⟨hk, f, hx⟩ := exec_llynad (s := s) hi
    exact hx.trans (congrArg _ (State.receiveLly_relayed hk ha hs hd))
  · refine ⟨fun hl ht => ?_, fun hl ht => ?_, fun b ht hc hb => ?_, fun ht => ?_, llynadCack_counts hn hg⟩
    · exact (llynadArrive_leader hn hg hl).trans (congrArg (fun z => Host.Outcome.next (State.pumpAll z)) (if_pos ht))
    · exact (llynadArrive_leader hn hg hl).trans (congrArg (fun z => Host.Outcome.next (State.pumpAll z)) (if_neg (Nat.not_le.mpr ht)))
    · exact (llynadCommit_takes hn hg).trans (congrArg (fun z => Host.Outcome.next (State.pumpAll z)) (State.takeCommit_late ht hc hb))
    · exact (llynadCommit_takes hn hg).trans (congrArg (fun z => Host.Outcome.next (State.pumpAll z)) (if_pos ht))
  · refine ⟨fun hlow => (llynadResend_due hf hd).trans (congrArg _ (if_neg ?_)),
      fun d hm hdue hhigh => (llynadResend_due hf hd).trans (congrArg _ (if_pos ?_))⟩
    · simpa using hlow
    · exact List.any_eq_true.mpr ⟨d, hm, by simp only [hdue, hhigh, decide_true, Bool.and_self]⟩
  · exact (llynadPathRetry_due hf ht).trans (congrArg _ (if_pos (List.isEmpty_iff.mpr he)))
  · exact (llynadPathRetry_due hf ht).trans (congrArg _ (if_neg (by simpa using he)))

end Sys2Proof.Machine
end

section
/-! Steps of collective programs, trigger actions and the instants of timed barriers (O50). -/

namespace Sys2Proof.Machine

/-! ### A program's step (R404, R405) -/

/-- A program stands at a good step word of an operation. -/
def State.stepAt (s : State) (k : Nat) (pr : CProg) (pa op : Nat) : Prop :=
  s.prog? k = some pr ∧ pr.ending = none ∧ s.tablePa pr.ctx (pr.steps.toNat + 8 * pr.pc) pteR = some pa
    ∧ stepWordOk (s.peek pa 8) (s.group pr.group).myIdx (s.groupSize pr) pr.nsteps pr.ty = true ∧ bitsOf (s.peek pa 8) 60 4 = op

section
variable {s : State} {k op : Nat} {f : CProg → Nat → CStep → State}

theorem State.onStep_gone (h : s.prog? k = none) : s.onStep k op f = s := by
  simp only [State.onStep, h]

variable {pr : CProg} (h : s.prog? k = some pr)
include h

theorem State.onStep_ending {code : Nat} (he : pr.ending = some code) : s.onStep k op f = s.endProg k code true := by
  simp only [State.onStep, h, he]

variable (he : pr.ending = none)
include he

theorem State.onStep_unreadable (hp : s.tablePa pr.ctx (pr.steps.toNat + 8 * pr.pc) pteR = none) :
    s.onStep k op f = s.endProg k psPage true := by
  simp only [State.onStep, h, he, hp]

theorem State.onStep_badWord {pa : Nat} (hp : s.tablePa pr.ctx (pr.steps.toNat + 8 * pr.pc) pteR = some pa)
    (hw : stepWordOk (s.peek pa 8) (s.group pr.group).myIdx (s.groupSize pr) pr.nsteps pr.ty = false) :
    s.onStep k op f = s.endProg k psBadProg true := by
  simp only [State.onStep, h, he, hp, hw, Bool.not_false, if_true]

end

/-- The step that the program stands at is performed by the event of its operation. -/
theorem State.onStep_stepAt {s : State} {k op pa : Nat} {f : CProg → Nat → CStep → State} {pr : CProg} (h : s.stepAt k pr pa op) :
    s.onStep k op f = f pr (s.peek pa 8) (CStep.ofWord (s.peek pa 8)) := by
  obtain ⟨hpr, he, hp, hw, hop⟩ := h
  simp only [State.onStep, hpr, he, hp, hw, hop, Bool.not_true, Bool.false_eq_true, if_false, if_true]

/-- The events of the steps. -/
theorem exec_collStep (s : State) {i : Instr} {k : Nat} (h : i = .collSend k ∨ i = .collRecv k ∨ i = .collRrs k ∨ i = .collCopy k
    ∨ i = .collWait k ∨ i = .collLoop k ∨ i = .collSig k ∨ i = .collEnd k) : ∃ op f, exec i s = .next (s.onStep k op f) := by
  obtain rfl | rfl | rfl | rfl | rfl | rfl | rfl | rfl := h
  all_goals exact ⟨_, _, rfl⟩

/-! ### The operations (R405) -/

section
variable {s : State} {k pa : Nat} {pr : CProg}

theorem collSend_captures (h : s.stepAt k pr pa 1) {bs : List Byte} {s1 : State} :
    let st := CStep.ofWord (s.peek pa 8)
    s.readChunk pr (pr.chunk (s.group pr.group).myIdx st st.a) pr.csize = some (bs, s1) →
      exec (.collSend k) s = .next (((s1.capture k (s1.peerRank pr st.pm st.poff) bs).advance k).pump k) := by
  intro st hr
  change execCollSend k s = _
  simp only [st] at hr
  simp only [execCollSend, State.onStep_stepAt h, hr, st]

theorem collCopy_copies (h : s.stepAt k pr pa 4) {bs : List Byte} {s1 s2 : State} :
    let st := CStep.ofWord (s.peek pa 8)
    s.readChunk pr (pr.chunk (s.group pr.group).myIdx st st.a) pr.csize = some (bs, s1) →
      s1.writeChunk pr (pr.chunk (s.group pr.group).myIdx st st.b) bs = some s2 → exec (.collCopy k) s = .next (s2.advance k) := by
  intro st hr hw
  change execCollCopy k s = _
  simp only [st] at hr hw
  simp only [execCollCopy, State.onStep_stepAt h, hr, hw]

theorem collWait_acked (h : s.stepAt k pr pa 5) (ha : s.allAcked pr = true) : exec (.collWait k) s = .next (s.advance k) := by
  change execCollWait k s = _
  simp only [execCollWait, State.onStep_stepAt h, ha, if_true]

/-- LOOP goes back while its count lasts. -/
theorem collLoop_repeats (h : s.stepAt k pr pa 6) :
    let w := s.peek pa 8
    pr.loops.getD (bitsOf w 26 2) 0 + 1 < bitsOf w 12 12 → exec (.collLoop k) s = .next ((s.setProg k (some { pr with
      loops := pr.loops.set (bitsOf w 26 2) (pr.loops.getD (bitsOf w 26 2) 0 + 1), pc := bitsOf w 0 12 })).fetchStep k) := by
  intro w hlt
  change execCollLoop k s = _
  rw [execCollLoop, State.onStep_stepAt h]
  exact congrArg _ (if_pos hlt)

theorem collLoop_ends (h : s.stepAt k pr pa 6) :
    let w := s.peek pa 8
    bitsOf w 12 12 ≤ pr.loops.getD (bitsOf w 26 2) 0 + 1 →
      exec (.collLoop k) s = .next ((s.setProg k (some { pr with loops := pr.loops.set (bitsOf w 26 2) 0 })).advance k) := by
  intro w hle
  change execCollLoop k s = _
  rw [execCollLoop, State.onStep_stepAt h]
  exact congrArg _ (if_neg (Nat.not_lt.mpr hle))

theorem collSig_own (h : s.stepAt k pr pa 7) :
    let st := CStep.ofWord (s.peek pa 8)
    s.peerRank pr st.pm st.poff = s.lly.rank → exec (.collSig k) s = .next ((s.addTc pr.ctx (s.peek pa 8 % 8) 1).advance k) := by
  intro st hr
  change execCollSig k s = _
  rw [execCollSig, State.onStep_stepAt h]
  exact congrArg _ (if_pos hr)

theorem collEnd_done (h : s.stepAt k pr pa 0) (ho : pr.out = []) : exec (.collEnd k) s = .next (s.endProg k psDone true) := by
  change execCollEnd k s = _
  simp only [execCollEnd, State.onStep_stepAt h, ho, List.isEmpty_nil, if_true]

end

/-! ### Trigger actions (R410) -/

theorem triggerActionEnd_begins {s : State} {x slot f : Nat} {b : List Byte}
    (h : ((s.ctx x).trigs.getD slot .fresh).actions.find? (fun a => !s.actionRuns x slot a.1) = some (f, b)) :
    exec (.triggerActionEnd x slot) s = .next (if leAt b 0 4 % 4 = 1 then s.runTriggerCopy x slot f b
      else (s.startProg x (leAt b 8 8) none (some (slot, f))).getD s) := by
  change execTriggerActionEnd x slot s = _
  simp only [execTriggerActionEnd, h]

/-! ### The instants of timed barriers (R416), with one barrier due -/

section
variable {s : State} {g : Nat} {t : Genlock}

/-- One barrier's ARRIVE, counted here by the leader or sent to it. -/
def State.arriveFor (s : State) (g : Nat) (t : Genlock) : State :=
  let z := s.modTbar g (fun y => y.owner = t.owner) (fun y => { y with arrived := true })
  if (s.group g).leader = s.lly.rank then z.takeArrive g s.lly.rank t.target
  else z.sendLly (s.group g).leader kARRIVE (z.genlockHeader (s.group g).leader g t.target) []

theorem genlockArrive_one (h : (s.group g).tbars.filter (fun b =>
      !b.arrived && !b.decided && (s.session b.session).claimed b.frame && ((s.session b.session).slot b.frame).state = 2) = [t]) :
    exec (.genlockArrive g) s = .next (s.arriveFor g t) := by
  change execGenlockArrive g s = _
  simp only [execGenlockArrive, h, List.foldl_cons, List.foldl_nil, State.arriveFor]

theorem genlockCommitInstant_one (hl : s.leads g = true)
    (h : (s.group g).tbars.filter (fun b => !b.instant && decide ((s.group g).commitAt b.target ≤ s.clock.toNat)) = [t]) :
    exec (.genlockCommitInstant g) s =
      .next ((s.modTbar g (fun y => y.owner = t.owner) (fun y => { y with instant := true })).commitTo g t.target) := by
  change execGenlockCommitInstant g s = _
  simp only [execGenlockCommitInstant, hl, Bool.not_true, Bool.false_eq_true, if_false, h, List.foldl_cons, List.foldl_nil]

theorem genlockDecision_one
    (h : (s.group g).tbars.filter (fun b => !b.decided && decide ((s.group g).decideAt b.target ≤ s.clock.toNat)) = [t]) :
    exec (.genlockDecision g) s = .next (s.decideTbar g t) := by
  change execGenlockDecision g s = _
  simp only [execGenlockDecision, h, List.foldl_cons, List.foldl_nil]

theorem genlockCackCheck_uncommitted (hl : s.leads g = true)
    (h : (s.group g).tbars.filter (fun b => b.decided && !b.checked && decide (b.target ≤ s.clock)) = [t])
    (hc : t.target ∉ (s.group g).commits) :
    exec (.genlockCackCheck g) s = .next (s.modTbar g (fun y => y.owner = t.owner) (fun y => { y with checked := true })) := by
  have hnot : (s.group g).commits.contains t.target = false := by simpa using hc
  change execGenlockCackCheck g s = _
  simp only [execGenlockCackCheck, hl, Bool.not_true, Bool.false_eq_true, if_false, h, List.foldl_cons, List.foldl_nil, hnot,
    Bool.not_false, if_true]

end

/-- Settles O50: a step's event is taken to the program's state, and then to its operation; an instant to its one barrier. -/
theorem collectivesAndGenlock : Obligations.CollectivesAndGenlock := by
  unfold Obligations.CollectivesAndGenlock
  intro s k x slot g pa f pr i b go w st me at_ aStep due
  have onStep {t : State} (hi : aStep) (h : ∀ op f, s.onStep k op f = t) : go i t := by
    obtain ⟨op, f, hx⟩ := exec_collStep s hi
    exact hx.trans (congrArg _ (h op f))
  refine ⟨fun hi h => onStep hi fun _ _ => State.onStep_gone h, fun _ hi h he => onStep hi fun _ _ => State.onStep_ending h he,
    fun hi h he hp => onStep hi fun _ _ => State.onStep_unreadable h he hp,
    fun hi h he hp hw => onStep hi fun _ _ => State.onStep_badWord h he hp hw, fun bs s1 h => collSend_captures h,
    fun h => congrArg _ (State.onStep_stepAt h), fun h => congrArg _ (State.onStep_stepAt h), fun bs s1 s2 h => collCopy_copies h, collWait_acked,
    collLoop_repeats, collLoop_ends, collSig_own, collEnd_done, fun h => ⟨fun hc => ?_, fun hp => ?_⟩,
    fun t ht => ⟨fun hl => ?_, fun hl hc => ?_⟩, fun t => genlockCommitInstant_one, fun t => genlockDecision_one, fun t => genlockCackCheck_uncommitted⟩
  · exact (triggerActionEnd_begins h).trans (congrArg _ (if_pos hc))
  · exact (triggerActionEnd_begins h).trans (congrArg _ (if_neg hp))
  · exact (genlockArrive_one ht).trans (congrArg _ (if_neg hl))
  · exact (genlockArrive_one ht).trans (congrArg _ ((if_pos hl).trans (if_pos hc)))

end Sys2Proof.Machine
end

section
/-! Bring-up from RESET to RUN, the patch, and every way back (O51). -/

namespace Sys2Proof.Machine

/-! ### States of bring-up (R464) -/

theorem State.setStage_stage (s : State) (n : Nat) : (s.setStage n).dev.stage = n := by
  unfold State.setStage
  split <;> rfl

/-- From PATCH on a change of state raises the device vector. -/
theorem State.setStage_out (s : State) (n : Nat) : (s.setStage n).out = if 2 ≤ n then s.out ++ [.msix 64] else s.out := by
  unfold State.setStage
  split <;> rfl

/-! ### Ways back to RESET (R465) -/

theorem powerGood_off {s : State} (h : s.dev.power = false) : exec .powerGood s = .next s.restart :=
  congrArg Host.Outcome.next (if_neg (ne_true_of_eq_false h))

theorem functionLevelReset_on {s : State} (h : s.dev.power = true) : exec .functionLevelReset s = .next s.restart :=
  congrArg Host.Outcome.next (if_pos h)

theorem moduleResetPin_on {s : State} (h : s.dev.power = true) : exec .moduleResetPin s = .next s.restart :=
  congrArg Host.Outcome.next (if_pos h)

/-! ### ROMINIT -/

theorem resetStateDone_on {s : State} (hp : s.dev.power = true) (hs : s.dev.stage = 0) : exec .resetStateDone s = .next (s.setStage 1) :=
  congrArg Host.Outcome.next (if_pos (by simp only [hp, hs, decide_true, Bool.and_self]))

/-- ROMINIT waits for its own work. -/
theorem State.leaveRominit_working {s : State} (h : s.dev.romDone = false) : s.leaveRominit = s :=
  if_neg (by simp only [h, Bool.and_false, Bool.false_and, Bool.false_eq_true, not_false_eq_true])

theorem State.leaveRominit_ready {s : State} (hs : s.dev.stage = 1) (hr : s.dev.romDone = true) (hl : s.dev.linkUp = true) :
    s.leaveRominit = s.setStage 2 :=
  if_pos (by simp only [hs, hr, hl, decide_true, Bool.and_self])

theorem hostLinkTrained_working {s : State} (hp : s.dev.power = true) (hr : s.dev.romDone = false) :
    exec .hostLinkTrained s = .next (s.modDev (fun d => { d with linkUp := true })) :=
  congrArg Host.Outcome.next ((if_pos hp).trans (State.leaveRominit_working hr))

/-- The machine at the end of the self-test: keys derived, fused and failing cores and fused ports disabled. -/
def State.romFinished (s : State) (badCores : DWord) : State :=
  { s with
    cores := s.cores.mapIdx (fun k c => { c with enabled := (s.dev.capCore &&& ~~~badCores).getLsbD k })
    ports := s.ports.mapIdx (fun p x => { x with enabled := s.dev.capPort.getLsbD p })
    dev := { s.dev.deriveKeys with romDone := true, capCore := s.dev.capCore &&& ~~~badCores } }

theorem rominitDone_linked {s : State} (cores : DWord) (hp : s.dev.power = true) (hs : s.dev.stage = 1) (hr : s.dev.romDone = false)
    (hl : s.dev.linkUp = true) : exec (.rominitDone cores) s = .next ((s.romFinished cores).setStage 2) := by
  have hcond : (s.dev.power && decide (s.dev.stage = 1) && !s.dev.romDone) = true := by
    simp only [hp, hs, hr, decide_true, Bool.not_false, Bool.and_self]
  exact congrArg Host.Outcome.next ((if_pos hcond).trans (State.leaveRominit_ready (s := s.romFinished cores) hs rfl hl))

/-! ### PATCH (R445, R446) -/

section
variable {s : State}

theorem patchgo_accepted (hs : s.dev.stage = 2) (hv : s.dev.verify = false) :
    exec .patchgo s = .next (s.modDev (fun d => { d with verify := true })) :=
  congrArg Host.Outcome.next (if_pos (by simp only [hs, hv, decide_true, Bool.not_false, Bool.and_self]))

theorem nopatch_accepted (hs : s.dev.stage = 2) (hv : s.dev.verify = false) : exec .nopatch s = .next (s.leavePatch 0 none) :=
  congrArg Host.Outcome.next (if_pos (by simp only [hs, hv, decide_true, Bool.not_false, Bool.and_self]))

/-- Out of PATCH, or once an image is being verified, both words are refused. -/
theorem patch_closed (h : s.dev.stage ≠ 2 ∨ s.dev.verify = true) : ¬ (decide (s.dev.stage = 2) && !s.dev.verify) = true := by
  simp only [Bool.and_eq_true, decide_eq_true_eq, Bool.not_eq_true', not_and, Bool.not_eq_false]
  exact fun hs => h.resolve_left (not_not_intro hs)

theorem patchgo_refused (h : s.dev.stage ≠ 2 ∨ s.dev.verify = true) : exec .patchgo s = .next s.refuseControl :=
  congrArg Host.Outcome.next (if_neg (patch_closed h))

theorem nopatch_refused (h : s.dev.stage ≠ 2 ∨ s.dev.verify = true) : exec .nopatch s = .next s.refuseControl :=
  congrArg Host.Outcome.next (if_neg (patch_closed h))

theorem patchVerifyDone_verified (hs : s.dev.stage = 2) (hv : s.dev.verify = true) :
    let patch := Patch.ofMemory s.dev.staging
    let code := patch.status s.dev.staging s.dev.fuses
    exec .patchVerifyDone s =
      .next (if code = 15 then s.leavePatch 15 (some patch) else (s.leavePatch code none).deviceError 5 0 false) :=
  congrArg Host.Outcome.next (if_pos (by simp only [hs, hv, decide_true, Bool.and_self]))

/-! ### MEMTRAIN, PORTS and TIME (R460, R464) -/

/-- A stage's end, as its event answers it: the guard is the stage. -/
theorem memtrainDone_inStage (chans : BitVec 16) (hs : s.dev.stage = 3) :
    let d := s.dev
    let cap := d.capChan &&& ~~~d.softChan &&& ~~~chans
    let cleared : State := { s with mem := s.mem.filter (fun c => decide (hostBase ≤ c.1)), owners := [], ue := [], lastCtx := [] }
    let sized := cleared.modDev (fun d => { d with capChan := cap, memSize := BitVec.ofNat 64 (memSizeOf (maskList 16 cap.toNat).length) })
    exec (.memtrainDone chans) s = .next ((maskList 16 (d.capChan &&& ~~~d.softChan &&& chans).toNat).foldl
      (fun st c => st.deviceError 6 c false) ((sized.modDev Device.remeasure).setStage 4)) :=
  congrArg Host.Outcome.next (if_pos hs)

theorem portsUp_inStage (ports : BitVec 4) (hs : s.dev.stage = 4) :
    let d := s.dev
    let up := d.capPort &&& ~~~d.softPort &&& ~~~ports
    let linked := ({ s with ports := s.ports.mapIdx (fun p x => x.bringUp (up.getLsbD p)) } : State).modDev (fun d => { d with capPort := up })
    exec (.portsUp ports) s = .next ((maskList 4 (d.capPort &&& ~~~d.softPort &&& ports).toNat).foldl
      (fun st p => st.deviceError 6 p false) ((linked.modDev Device.remeasure).setStage 5)) :=
  congrArg Host.Outcome.next (if_pos hs)

/-- The follower at the end of TIME: before it has locked, OFFSET is 0 (R393). -/
def Ptp.quieted (p : Ptp) : Ptp := { p with offset := if p.lock then p.offset else 0, hushed := !p.lock }

/-- TIMEGO sets the clock, once. -/
def State.clockSet (s : State) : State :=
  if s.ptp.stepped then s else { s with clock := s.dev.timeSet, ptp := { s.ptp with stepped := true } }

theorem timego_inStage (hs : s.dev.stage = 5) :
    exec .timego s = .next (({ s.clockSet with ptp := s.clockSet.ptp.quieted } : State).setStage 6) :=
  congrArg Host.Outcome.next (if_pos hs)

theorem State.clockSet_unset (hp : s.ptp.stepped = false) :
    s.clockSet = { s with clock := s.dev.timeSet, ptp := { s.ptp with stepped := true } } := if_neg (ne_true_of_eq_false hp)

theorem timego_unset (hs : s.dev.stage = 5) (hp : s.ptp.stepped = false) : exec .timego s =
    .next (({ s with clock := s.dev.timeSet, ptp := ({ s.ptp with stepped := true } : Ptp).quieted } : State).setStage 6) := by
  rw [timego_inStage hs, State.clockSet_unset hp]

/-- A clock already set is left. -/
theorem timego_set (hs : s.dev.stage = 5) (hp : s.ptp.stepped = true) :
    exec .timego s = .next (({ s with ptp := s.ptp.quieted } : State).setStage 6) := by
  rw [timego_inStage hs, State.clockSet, if_pos hp]

theorem timego_refused (hs : s.dev.stage ≠ 5) : exec .timego s = .next s.refuseControl := congrArg Host.Outcome.next (if_neg hs)

end

/-- Settles O51: each clause is the law of its event above. -/
theorem bringUp : Obligations.BringUp := by
  unfold Obligations.BringUp
  intro s cores chans ports go d patch code refused lost trained cap cleared sized up linked quiet
  exact ⟨powerGood_off, fun h => ⟨functionLevelReset_on h, moduleResetPin_on h⟩, rfl, resetStateDone_on,
    fun n => ⟨State.setStage_stage s n, State.setStage_out s n⟩,
    fun hp hs hr hl => ⟨hostLinkTrained_working hp hr, rominitDone_linked cores hp hs hr hl⟩, patchgo_accepted,
    fun h => ⟨patchgo_refused h, nopatch_refused h⟩, patchVerifyDone_verified, rfl, nopatch_accepted, memtrainDone_inStage chans,
    portsUp_inStage ports, timego_unset, timego_set, timego_refused⟩

end Sys2Proof.Machine
end

section
/-! The device's own registers and errors (O52): attestation, retirement, the row repairs, snapshots, throttling, and the errors that end
a context or the device. -/

namespace Sys2Proof.Machine

/-- An update of the device matters only at the device as it stands. -/
theorem State.modDev_congr {s : State} {f g : Device → Device} (h : f s.dev = g s.dev) : s.modDev f = s.modDev g := by
  simp only [State.modDev, h]

section
variable {s : State}

/-! ### Version fuses and attestation (R449, R451, R452) -/

theorem svnburn_accepted (hs : s.dev.stage = 6) (hr : s.dev.romOnly = false) (hb : s.dev.burning = false) :
    exec .svnburn s = .next (s.modDev (fun d => { d with burning := true })) :=
  congrArg Host.Outcome.next (if_pos (by simp only [hs, hr, hb, decide_true, Bool.not_false, Bool.and_self]))

/-- The device with its minimum version raised to the patch's. -/
def Device.burnt (d : Device) : Device := { d with burning := false, fuses := { d.fuses with minSvn := max d.fuses.minSvn d.svn } }

theorem svnBurnDone_burning (hb : s.dev.burning = true) :
    exec .svnBurnDone s = .next (s.modDev (fun _ => { s.dev.burnt with meas := s.dev.burnt.meas.set 2 s.dev.burnt.measure2 })) :=
  congrArg Host.Outcome.next ((if_pos hb).trans (State.modDev_congr rfl))

theorem attgo_accepted (hb : s.dev.attBusy = false) (hs : 3 ≤ s.dev.stage) :
    exec .attgo s = .next (s.modDev (fun d => { d with attBusy := true, nonce := d.attBuf.readBytes 0x3F00 32 })) :=
  congrArg Host.Outcome.next (State.modDev_congr (if_neg (by
    simp only [hb, Bool.false_or, decide_eq_true_eq]
    exact Nat.not_lt.mpr hs)))

theorem attgo_refused (h : s.dev.attBusy = true ∨ s.dev.stage < 3) :
    exec .attgo s = .next (s.modDev (fun d => { d with attRej := true })) :=
  congrArg Host.Outcome.next (State.modDev_congr (if_pos (by simpa only [Bool.or_eq_true, decide_eq_true_eq] using h)))

theorem attestationDone_busy (h : s.dev.attBusy = true) : exec .attestationDone s =
    .next (s.modDev (fun d => { d with attBusy := false, attBuf := Memory.writeBytes d.attBuf 0 s.report })) :=
  congrArg Host.Outcome.next (if_pos h)

/-! ### Retirement (R454 to R458) -/

theorem softcoreWrite_running (v : DWord) (hs : 6 ≤ s.dev.stage) :
    exec (.softcoreWrite v) s = .next (s.modDev (fun d => { d with softCore := v, leaving := d.leaving ||| v })) :=
  congrArg Host.Outcome.next ((if_neg (by omega)).trans (if_pos hs))

theorem coreRetirementDone_empty {core : Nat} (hr : s.retiring core = true) (he : (s.core core).enabled = true) (hc : s.residentOn core = [])
    (hs : 6 ≤ s.dev.stage) :
    exec (.coreRetirementDone core) s = .next (((s.disableCore core).modDev Device.remeasure).deviceError 3 core false) :=
  congrArg Host.Outcome.next (if_pos (by simp only [hr, he, hc, hs, List.isEmpty_nil, decide_true, Bool.and_self]))

theorem softchanWrite_early (chans : BitVec 16) (hs : s.dev.stage ≤ 2) :
    exec (.softchanWrite chans) s = .next (s.modDev (fun d => { d with softChan := chans })) := congrArg Host.Outcome.next (if_pos hs)

theorem softportWrite_early (ports : BitVec 4) (hs : s.dev.stage ≤ 2) :
    exec (.softportWrite ports) s = .next (s.modDev (fun d => { d with softPort := ports })) := congrArg Host.Outcome.next (if_pos hs)

theorem softchanWrite_late (chans : BitVec 16) (hs : 2 < s.dev.stage) : exec (.softchanWrite chans) s = .next s.refuseControl :=
  congrArg Host.Outcome.next (if_neg (Nat.not_le.mpr hs))

theorem softportWrite_late (ports : BitVec 4) (hs : 2 < s.dev.stage) : exec (.softportWrite ports) s = .next s.refuseControl :=
  congrArg Host.Outcome.next (if_neg (Nat.not_le.mpr hs))

section
variable {v : DWord}

theorem retwWrite_removes (h : v.getLsbD 0 = false) : exec (.retwWrite v) s =
    .next (s.modDev (fun d => { d with retired := d.retired.filter (fun p => p ≠ v.toNat / 2 ^ 14) })) :=
  congrArg Host.Outcome.next (State.modDev_congr (if_pos (by simp only [h, Bool.not_false])))

variable (h : v.getLsbD 0 = true) (hp : v.toNat / 2 ^ 14 ∉ s.dev.retired)
include h hp

theorem retwWrite_adds (hl : s.dev.retired.length < 512) : exec (.retwWrite v) s =
    .next (s.modDev (fun d => { d with retired := d.retired ++ [v.toNat / 2 ^ 14] })) := by
  have hnot : s.dev.retired.contains (v.toNat / 2 ^ 14) = false := by simpa using hp
  exact congrArg Host.Outcome.next (State.modDev_congr (by
    simp only [h, hnot, Bool.not_true, Bool.false_eq_true, if_false, if_neg (Nat.not_le.mpr hl)]))

/-- A full table takes no page. -/
theorem retwWrite_full (hl : 512 ≤ s.dev.retired.length) : exec (.retwWrite v) s =
    .next (s.modDev (fun d => { d with rcOver := d.rcOver ||| 2 })) := by
  have hnot : s.dev.retired.contains (v.toNat / 2 ^ 14) = false := by simpa using hp
  exact congrArg Host.Outcome.next (State.modDev_congr (by
    simp only [h, hnot, Bool.not_true, Bool.false_eq_true, if_false, if_pos hl]))

end

section
variable {pa : Nat} (hp : pa < 2 ^ 46) (hr : pa / 2 ^ 14 ∉ s.dev.retired) (hc : ∀ c ∈ s.dev.rcand, c.toNat / 2 ^ 14 ≠ pa / 2 ^ 14)
include hp hr hc

/-- A page that is neither retired nor a candidate becomes one while the list has room. -/
theorem State.uncorrectable_new : s.uncorrectable pa =
    if 64 ≤ s.dev.rcand.length then s.modDev (fun d => { d with rcOver := d.rcOver ||| 1 })
    else (s.modDev (fun d => { d with rcand := d.rcand ++ [BitVec.ofNat 64 (pa / 2 ^ 14 * 2 ^ 14 + 3)] })).emit (.msix 64) := by
  have hnew : ¬ (s.dev.retired.contains (pa / 2 ^ 14) || s.dev.rcand.any (fun c => decide (c.toNat / 2 ^ 14 = pa / 2 ^ 14))) = true := by
    simp only [Bool.or_eq_true, List.contains_iff_mem, List.any_eq_true, decide_eq_true_eq, not_or, not_exists, not_and]
    exact ⟨hr, hc⟩
  rw [State.uncorrectable, if_pos hp, State.addCandidate, if_neg hnew]
  rfl

end

/-! ### Errors (R434, R436, R453, R459) -/

theorem State.dropWriteback_bad {pa : Nat} (hp : pa < 2 ^ 46) (hb : s.bad (pa / 128 * 128) 128 = true) :
    let line := pa / 128
    let old := (List.range 128).map (fun i => Config.olderByte s.clock (line * 128 + i))
    let kept : State := { s with mem := Memory.writeBytes s.mem (line * 128) old, ue := s.ue.filter (fun g => g / 4 ≠ line) }
    (∀ x, smapGet s.lastCtx line = some x → s.dropWriteback pa = kept.fatalEvent x (.plain 17 true 0 pa))
    ∧ (smapGet s.lastCtx line = none → s.dropWriteback pa = kept.deviceError 1 pa false) := by
  intro line old kept
  have hcond : (decide (2 ^ 46 ≤ pa) || !s.bad (pa / 128 * 128) 128) = false := by
    simp only [hb, Bool.not_true, Bool.or_false, decide_eq_false_iff_not]
    exact Nat.not_le.mpr hp
  unfold State.dropWriteback
  simp only [hcond, Bool.false_eq_true, if_false]
  exact ⟨fun x hx => by simp only [line] at hx; simp only [hx]; rfl, fun hx => by simp only [line] at hx; simp only [hx]; rfl⟩

/-- A row is to be repaired (R453). -/
def State.RowFails (s : State) (slice row : Nat) : Prop :=
  slice < 128 ∧ row < hearthRows ∧ slice + 128 * row ∉ s.dev.rowsDead
    ∧ (4 ≤ (smapGet s.dev.rowCe (slice + 128 * row)).getD 0 ∨ ∃ l ∈ s.rowLines slice row, s.bad (128 * l) 128 = true)

theorem State.rowFails_iff {slice row : Nat} : s.rowFails slice row = true ↔ s.RowFails slice row := by
  simp [State.rowFails, State.RowFails, and_assoc]

/-- The machine with a row's dirty lines that have uncorrectable errors dropped. -/
def State.dropRow (s : State) (slice row : Nat) : State :=
  ((s.rowLines slice row).filter (fun l => Config.hearthDirty l s.clock)).foldl (fun st l => st.dropWriteback (128 * l)) s

theorem hearthRowRepair_sound {slice row : Nat} (h : ¬ s.RowFails slice row) : exec (.hearthRowRepair slice row) s = .next s := by
  rw [← State.rowFails_iff, Bool.not_eq_true] at h
  exact congrArg Host.Outcome.next (if_pos (by simp only [h, Bool.not_false]))

theorem hearthRowRepair_fails {slice row : Nat} (h : s.RowFails slice row) :
    exec (.hearthRowRepair slice row) s = .next ((s.dropRow slice row).modDev (fun d => d.replaceRow slice row)) := by
  rw [← State.rowFails_iff] at h
  exact congrArg Host.Outcome.next (if_neg (by simp only [h, Bool.not_true, Bool.false_eq_true, not_false_eq_true]))

theorem Device.replaceRow_spare {d : Device} {slice row : Nat} (h : (smapGet d.spares slice).getD 0 < 8) : d.replaceRow slice row =
    { d with
      rowCe := smapErase d.rowCe (slice + 128 * row), rowsFixed := (d.rowsFixed + 1) % 2 ^ 16
      spares := smapSet d.spares slice ((smapGet d.spares slice).getD 0 + 1) } := if_pos h

theorem Device.replaceRow_disabled {d : Device} {slice row : Nat} (h : 8 ≤ (smapGet d.spares slice).getD 0) : d.replaceRow slice row =
    { d with
      rowCe := smapErase d.rowCe (slice + 128 * row), rowsOff := (d.rowsOff + 1) % 2 ^ 16
      rowsDead := d.rowsDead ++ [slice + 128 * row] } := if_neg (Nat.not_lt.mpr h)

theorem coreParityError_core {core : Nat} (h : core < 64) : exec (.coreParityError core) s =
    .next (((s.contextsOn core).foldl (fun st x => st.fatalEvent x { ErrInfo.plain 17 true 0 0 with core := core }) s).modDev
      (fun d => { d with leaving := d.leaving ||| BitVec.ofNat 64 (2 ^ core) })) := congrArg Host.Outcome.next (if_pos h)

theorem deviceParityError_on (v : DWord) (h : s.dev.power = true) : exec (.deviceParityError v) s = .next (s.failDevice 2 v.toNat) :=
  congrArg Host.Outcome.next (if_pos h)

theorem thermalTrip_hot (h : 105 ≤ s.dev.temp.toNat) : exec .thermalTrip s = .next (s.failDevice 4 0) := congrArg Host.Outcome.next (if_pos h)

/-! ### Snapshots, power and temperature (R462, R463) -/

theorem snapshotTimeTrigger_reached (h : s.reached s.dev.snap.time = true) :
    exec .snapshotTimeTrigger s = .next (s.snapTrigger 2 (0, 0, 0)) := congrArg Host.Outcome.next (if_pos h)

/-- The throttle level that a tick leaves: up while the device is over its limits, else down, to 32 at least while it is hot. -/
def Device.throttle (d : Device) (power : BitVec 16) (temp : BitVec 8) : Nat :=
  if d.pwrLim < power ∨ (95 ≤ temp.toNat ∧ d.thr < 32) then min 48 (d.thr + 1)
  else if 95 ≤ temp.toNat then max 32 (d.thr - 1) else d.thr - 1

theorem throttleTick_throttles (power : BitVec 16) (temp : BitVec 8) {n : Nat} (h : s.dev.throttle power temp = n) :
    exec (.throttleTick power temp) s = .next (s.modDev (fun d => { d with pwr := power, temp := temp, thr := n })) := by
  refine congrArg Host.Outcome.next (State.modDev_congr ?_)
  subst h
  simp only [Device.throttle, Bool.or_eq_true, Bool.and_eq_true, decide_eq_true_eq]

theorem Device.throttle_down {d : Device} {power : BitVec 16} {temp : BitVec 8} (ht : temp.toNat < 95) (hp : power ≤ d.pwrLim) :
    d.throttle power temp = d.thr - 1 := by
  rw [Device.throttle, if_neg, if_neg (Nat.not_le.mpr ht)]
  rintro (h | ⟨h, -⟩)
  · exact BitVec.not_lt.mpr hp h
  · omega

theorem Device.throttle_hot {d : Device} {power : BitVec 16} {temp : BitVec 8} (hp : power ≤ d.pwrLim) (ht : 95 ≤ temp.toNat)
    (hn : 32 ≤ d.thr) : d.throttle power temp = max 32 (d.thr - 1) := by
  rw [Device.throttle, if_neg, if_pos ht]
  rintro (h | ⟨-, h⟩)
  · exact BitVec.not_lt.mpr hp h
  · omega

/-! ### Registers (R376) -/

section
variable {off : Nat} (v : DWord) (hl : s.dev.linkUp = true) (ha : off % 4 = 0)
include hl ha

/-- An aligned write of 4 bytes is taken over a trained link. -/
theorem registerWrite_four : exec (.registerWrite off 4 v) s =
    .next (if 0x20000 ≤ off && off < 0x30000 then s.modDev (fun d => d.writeStaging (off - 0x20000) (leBytes 4 v.toNat))
      else s.writeHalf off (BitVec.truncate 32 v)) :=
  congrArg Host.Outcome.next (if_neg (by simp [hl, ha]))

theorem registerWrite_register (h : off < 0x20000 ∨ 0x30000 ≤ off) :
    exec (.registerWrite off 4 v) s = .next (s.writeHalf off (BitVec.truncate 32 v)) := by
  refine (registerWrite_four v hl ha).trans (congrArg _ (if_neg ?_))
  simp only [Bool.and_eq_true, decide_eq_true_eq]
  omega

theorem registerWrite_staging (hlo : 0x20000 ≤ off) (hhi : off < 0x30000) : exec (.registerWrite off 4 v) s =
    .next (s.modDev (fun d => d.writeStaging (off - 0x20000) (leBytes 4 v.toNat))) :=
  (registerWrite_four v hl ha).trans (congrArg _ (if_pos (by simp only [hlo, hhi, decide_true, Bool.and_self])))

end

end

/-- Settles O52: each clause is the law of its event above; a failing row is split by the spares of its slice. -/
theorem deviceEvents : Obligations.DeviceEvents := by
  unfold Obligations.DeviceEvents
  intro s core slice row pa off v chans power ports temp go d page line lost repaired used place fails cand burnt old failed throttled
  refine ⟨svnburn_accepted, svnBurnDone_burning, attgo_accepted, attgo_refused, attestationDone_busy, softcoreWrite_running v,
    coreRetirementDone_empty, softchanWrite_early chans, softportWrite_early ports,
    fun h => ⟨softchanWrite_late chans h, softportWrite_late ports h⟩, rfl, retwWrite_adds, retwWrite_removes, retwWrite_full,
    fun hp hr hc => ⟨fun hfull => (State.uncorrectable_new hp hr hc).trans (if_pos hfull),
      fun hroom => (State.uncorrectable_new hp hr hc).trans (if_neg (Nat.not_le.mpr hroom))⟩,
    hearthRowRepair_sound, fun hf hu => ?_, fun hf hu => ?_, fun hp hb => ?_, coreParityError_core, deviceParityError_on v, thermalTrip_hot, rfl,
    snapshotTimeTrigger_reached, rfl, rfl, fun ht hp => throttleTick_throttles power temp (Device.throttle_down ht hp),
    fun h => throttleTick_throttles power temp (if_pos h), fun hp ht hn => throttleTick_throttles power temp (Device.throttle_hot hp ht hn),
    registerWrite_register v, registerWrite_staging v⟩
  · exact (hearthRowRepair_fails hf).trans (congrArg _ (State.modDev_congr (Device.replaceRow_spare hu)))
  · exact (hearthRowRepair_fails hf).trans (congrArg _ (State.modDev_congr (Device.replaceRow_disabled hu)))
  · obtain ⟨hsome, hnone⟩ := State.dropWriteback_bad hp hb
    exact ⟨fun x hx => congrArg Host.Outcome.next (hsome x hx), fun hx => congrArg Host.Outcome.next (hnone hx)⟩

end Sys2Proof.Machine
end

section
/-! What reset leaves (O57): every register of a kind starts as the fresh one, and every memory is empty. -/

namespace Sys2Proof.Machine

theorem State.reset_ctx {x : Nat} (h : x < 64) : State.reset.ctx x = .fresh := List.getD_replicate _ h

theorem State.reset_queue {q : Nat} (h : q < 1024) : State.reset.queue q = .fresh := List.getD_replicate _ h

theorem Swage.fresh_canonical : Swage.fresh.Canonical := fun t ht => by
  rw [List.eq_of_mem_replicate (show t ∈ List.replicate 16 .fresh from ht)]
  exact ⟨rfl, rfl⟩

theorem State.reset_canonical : State.reset.Canonical where
  mem := rfl
  buffers := fun k hk => by
    rw [List.eq_of_mem_replicate (show k ∈ List.replicate 64 .fresh from hk)]
    exact ⟨rfl, rfl, rfl⟩
  swages := fun k hk => by
    rw [List.eq_of_mem_replicate (show k ∈ List.replicate 64 .fresh from hk)]
    exact Swage.fresh_canonical
  saved := fun _ hc => absurd hc List.not_mem_nil
  device := ⟨rfl, rfl, rfl⟩

/-- Settles O57: the fields are the reset state's own, and the lists hold fresh entries. -/
theorem resetState : Obligations.ResetState := by
  unfold Obligations.ResetState
  intro s
  refine ⟨rfl, rfl, rfl, rfl, rfl, rfl, rfl, rfl, rfl, rfl, rfl, rfl, rfl, rfl, rfl, rfl, List.length_replicate, List.length_replicate,
    List.length_replicate, fun x hx => ?_, fun q hq => ?_, State.reset_canonical, rfl, fun _ => rfl⟩
  · rw [State.reset_ctx hx]
    exact ⟨rfl, rfl, rfl, rfl⟩
  · rw [State.reset_queue hq]
    exact ⟨rfl, rfl, rfl⟩

end Sys2Proof.Machine
end

section
/-! Host and peer accesses, register reads, windows, publications and the loader (O47). -/

namespace Sys2Proof.Machine

/-! ### What a write leaves of the windows (R382) -/

theorem State.dropOwner_ctxs (s : State) (line : Nat) : (s.dropOwner line).ctxs = s.ctxs := by
  unfold State.dropOwner
  refine foldl_keeps _ State.ctxs (fun st i => ?_) _ _
  dsimp only
  split <;> rfl

theorem State.ownRoom_ctxs (s : State) (l : Nat) : (s.ownRoom l).ctxs = s.ctxs := by
  unfold State.ownRoom
  dsimp only
  split
  · rfl
  · split
    · exact State.dropOwner_ctxs s _
    · rfl

theorem State.takeWord_ctxs (s : State) (w : Writer) (x : Nat) : (s.takeWord w x).ctxs = s.ctxs := by
  unfold State.takeWord
  cases w with
  | core k =>
    refine (State.ownRoom_ctxs _ (x / 32)).trans ?_
    dsimp only
    split
    · split <;> rfl
    · rfl
  | _ =>
    dsimp only
    split <;> rfl

/-- A mark makes pages dirty and moves no frame. -/
theorem Window.mark_inFront (w : Window) (a n pa : Nat) : (w.mark a n).inFront pa = w.inFront pa := by
  unfold Window.mark
  dsimp only
  split
  · split <;> rfl
  · rfl

theorem State.inFront_congr {s t : State} (h : t.ctxs = s.ctxs) : t.inFront = s.inFront :=
  funext fun _ => by rw [State.inFront, State.inFront, h]

theorem State.markDirty_inFront (s : State) (pa n : Nat) : (s.markDirty pa n).inFront = s.inFront := by
  unfold State.markDirty
  split
  · funext a
    simp only [State.inFront, List.any_map, Function.comp_def, Window.mark_inFront]
  · rfl

theorem State.performWrite_inFront (s : State) (w : Writer) (ctx : Option Nat) (pa : Nat) (bs : List Byte) :
    (s.performWrite w ctx pa bs).inFront = s.inFront := by
  unfold State.performWrite
  split
  · rfl
  · exact (State.markDirty_inFront ..).trans
      (State.inFront_congr (foldl_keeps (fun (st : State) x => st.takeWord w x) State.ctxs (fun st x => State.takeWord_ctxs st w x) _ _))

theorem Env.put1_ctxs (e : Env) (b : Bool) (p : Put) : (e.put1 b p).s.ctxs = e.s.ctxs := by
  unfold Env.put1
  split <;> rfl

theorem State.returnWaita_ctxs (s : State) (c n l vd pd : Nat) (x : Word) (hit : Bool) : (s.returnWaita c n l vd pd x hit).ctxs = s.ctxs := by
  unfold State.returnWaita
  split
  · rfl
  · split
    · rfl
    · exact Env.put1_ctxs _ _ _

theorem State.rereadWaita_ctxs (s : State) (c n l pa : Nat) (f : Word → State) (h : ∀ v, (f v).ctxs = s.ctxs) :
    (s.rereadWaita c n l pa f).ctxs = s.ctxs := by
  unfold State.rereadWaita
  split
  · rfl
  · exact h _

theorem State.wakeWaita_ctxs (s : State) (pa n : Nat) : (s.wakeWaita pa n).ctxs = s.ctxs := by
  unfold State.wakeWaita
  refine foldl_keeps _ State.ctxs (fun st w => ?_) _ _
  refine State.rereadWaita_ctxs _ _ _ _ _ _ fun v => ?_
  split
  · rfl
  · exact State.returnWaita_ctxs ..

theorem State.latchDeps_ctxs (s : State) : s.latchDeps.ctxs = s.ctxs := by
  unfold State.latchDeps
  split <;> rfl

theorem State.kickRefused_inFront (s : State) (pa n : Nat) : (s.kickRefused pa n).inFront = s.inFront := by
  unfold State.kickRefused
  dsimp only
  exact foldl_keeps _ State.inFront (fun st i => State.inFront_congr (State.modQueue_ctxs ..)) _ _

/-- No write moves a front frame. -/
theorem State.homeWrite_inFront (s : State) (w : Writer) (ctx : Option Nat) (pa : Nat) (bs : List Byte) :
    (s.homeWrite w ctx pa bs).inFront = s.inFront := by
  unfold State.homeWrite
  split
  · exact State.kickRefused_inFront ..
  · exact (State.inFront_congr ((State.wakeWaita_ctxs ..).trans (State.latchDeps_ctxs _))).trans (State.performWrite_inFront ..)

/-- A host write without the bytes that lie in a front frame when their turn comes. -/
def State.writeSpared (s : State) (pa : Nat) (bs : List (Byte × Nat)) : State :=
  bs.foldl (fun st p => if st.inFront (pa + p.2) then st else st.homeWrite .host none (pa + p.2) [p.1]) s

/-- The front frames may as well be those of any state with the same windows, since no byte's write moves one. -/
theorem State.writeSpared_congr {s t : State} (pa : Nat) (bs : List (Byte × Nat)) (h : t.inFront = s.inFront) :
    t.writeSpared pa bs = bs.foldl (fun st p => if s.inFront (pa + p.2) then st else st.homeWrite .host none (pa + p.2) [p.1]) t := by
  unfold State.writeSpared
  induction bs generalizing t with
  | nil => rfl
  | cons p ps ih =>
    simp only [List.foldl_cons, h]
    split
    · exact ih h
    · exact ih ((State.homeWrite_inFront ..).trans h)

section
variable {s : State} {x win pa n off : Nat}

/-! ### Accesses at the home slices (R353, R380, R382) -/

theorem State.outsideWrite_host_clear {data : List Byte} (h : ∀ i, i < data.length → s.inFront (pa + i) = false) :
    s.outsideWrite .host pa data = s.homeWrite .host none pa data :=
  if_pos (by
    simp only [Bool.or_eq_true, List.all_eq_true, List.mem_range, Bool.not_eq_true']
    exact .inr h)

/-- A write that touches a front frame stores its other bytes one by one. -/
theorem State.outsideWrite_host_front {data : List Byte} (h : ∃ i, i < data.length ∧ s.inFront (pa + i) = true) :
    s.outsideWrite .host pa data =
      s.writeSpared pa data.zipIdx := by
  rw [State.writeSpared_congr pa data.zipIdx rfl]
  obtain ⟨i, hi, hfront⟩ := h
  refine if_neg ?_
  simp only [Bool.or_eq_true, List.all_eq_true, List.mem_range, Bool.not_eq_true', not_or, not_forall]
  exact ⟨by decide, i, hi, by simp only [hfront, Bool.true_eq_false, not_false_eq_true]⟩

/-- A host write that reaches memory: its bytes outside the front frames, and for an atomic one remote access. -/
theorem hostWrite_reaching {data : List Byte} {t : State} (hr : hostReaches pa data.length = true) (ht : s.outsideWrite .host pa data = t) :
    exec (.hostWrite pa data false) s = .next t
      ∧ exec (.hostWrite pa data true) s = .next (t.countRemote (s.pageCtx pa) pa) := by
  subst ht
  have hreach : ¬ (!hostReaches pa data.length) = true := by simp only [hr, Bool.not_true, Bool.false_eq_true, not_false_eq_true]
  exact ⟨congrArg Host.Outcome.next (if_neg hreach), congrArg Host.Outcome.next (if_neg hreach)⟩

theorem hostRead_memory (h : hostReaches pa n = true) : exec (.hostRead pa n) s = .next { s with hostRd := s.peekBytes pa n } :=
  congrArg Host.Outcome.next (if_pos h)

/-- A host read of registers over a trained link gives their bytes, and takes the candidate that RCAND holds when it covers it. -/
theorem hostRead_bars (hr : hostReaches pa n = false) (hl : s.dev.linkUp = true) (hb : inBars pa n = true) :
    exec (.hostRead pa n) s = .next (if takesCandidate pa n then
      ({ s with hostRd := s.barBytes pa n } : State).modDev (fun d => { d with rcand := d.rcand.tail })
      else { s with hostRd := s.barBytes pa n }) :=
  congrArg Host.Outcome.next ((if_neg (by simp only [hr, Bool.false_eq_true, not_false_eq_true])).trans
    (if_pos (by simp only [hl, hb, Bool.and_self])))

theorem peerMemoryAccess_device (rank : Nat) (acc : PeerAccess) (h : pa < 2 ^ 46) :
    exec (.peerMemoryAccess rank pa acc) s = .next (match acc with
      | .read n => s.emit (.peer rank (s.peekBytes pa n))
      | .write bs => s.outsideWrite .peer pa bs
      | .atomicAdd wide y =>
        let n := if wide then 8 else 4
        let (old, s1) := s.rmw .peer none none pa n (fun v => (v + y.toNat) % 2 ^ (8 * n))
        (s1.emit (.peer rank (leBytes n (old.getD 0)))).countRemote (s.pageCtx pa) pa) :=
  congrArg Host.Outcome.next (if_neg (Nat.not_le.mpr h))

/-! ### Register reads (R376) -/

/-- The bytes of a read of BAR 0 that starts at a register are those of the register's word, lowest first. -/
theorem State.barBytes_getD {word i : Nat} (s : State) (hi : i < 4) (hw : word < 2 ^ 19) (hn : i < n) :
    (s.barBytes (bar0Base + 4 * word) n).getD i 0 = BitVec.ofNat 8 (s.readWord (4 * word) / 2 ^ (8 * i)) := by
  have hbar : bar0Base + 4 * word + i < bar2Base := by unfold bar0Base bar2Base; omega
  have hoff : (bar0Base + 4 * word + i - bar0Base) / 4 * 4 = 4 * word := by omega
  have hbyte : (bar0Base + 4 * word + i) % 4 = i := by unfold bar0Base; omega
  simp only [barBytes, List.getD_eq_getElem?_getD, List.getElem?_map, List.getElem?_range hn, Option.map_some, Option.getD_some, hbar,
    if_true, hoff, hbyte]

/-- A word of a context's management block. -/
theorem State.readWord_block {at_ : Nat} (s : State) (hx : x < 64) (ha : at_ < 0x1000) :
    s.readWord (0x100000 + x * 0x1000 + at_) = s.readBlock x at_ := by
  have hblk : (0x100000 + x * 0x1000 + at_ - 0x100000) / 0x1000 = x := by omega
  have hat : (0x100000 + x * 0x1000 + at_) % 0x1000 = at_ := by omega
  have hbar : (decide (0x100000 ≤ 0x100000 + x * 0x1000 + at_) && decide (0x100000 + x * 0x1000 + at_ < 0x140000)) = true := by
    simp only [Bool.and_eq_true, decide_eq_true_eq]
    omega
  unfold readWord
  rw [if_neg (by omega), if_neg (by omega), if_neg (by simp; omega), if_neg (by simp; omega), if_neg (by omega), if_neg (by simp; omega),
    if_neg (by simp; omega), if_neg (by simp; omega), if_pos hbar, hblk, hat]

theorem State.readWord_sessionStat {rank : Nat} (s : State) (hr : rank < 64) :
    s.readWord (0x11000 + rank * 32 + 0x0C) = (s.session rank).sstat.toNat := by
  have hnum : (0x11000 + rank * 32 + 0x0C - 0x11000) / 32 = rank := by omega
  have hat : (0x11000 + rank * 32 + 0x0C) % 32 = 0x0C := by omega
  unfold readWord
  rw [if_neg (by omega), if_neg (by omega), if_neg (by simp; omega), if_pos (by simp; omega), hnum, hat]
  rfl

/-! ### Windows and publications (R381 to R385) -/

/-- An update of a window matters only at the window as it stands. -/
theorem State.modWindow_congr {f g : Window → Window} (h : f ((s.ctx x).window win) = g ((s.ctx x).window win)) :
    s.modWindow x win f = s.modWindow x win g := by
  refine State.modCtx_congr ?_
  unfold modAt
  cases hw : (s.ctx x).windows[win]? with
  | none => rfl
  | some w =>
    have hwin : (s.ctx x).window win = w := by simp only [Context.window, List.getD_eq_getElem?_getD, hw, Option.getD_some]
    simp only [hwin ▸ h]

/-- A write to a window's registers in state RUN acts on the window as it stands. -/
theorem windowRegisterWrite_managed {v : DWord} {f : Window → Window} (ho : s.managed x = true)
    (hf : ((s.ctx x).window win).write off v = f ((s.ctx x).window win)) :
    exec (.windowRegisterWrite x win off v) s = .next (s.modWindow x win f) :=
  congrArg Host.Outcome.next (State.modWindow_congr ((if_pos ho).trans hf))

theorem Window.write_quiet {w : Window} (v : DWord) (he : w.en = false) (hq : w.quiet = true) (hoff : off ≠ 0x1C) :
    w.write off v = w.setReg off v := by
  simp [Window.write, hoff, he, hq]

theorem Window.write_guarded {w : Window} {v : DWord} (h : w.en = true ∨ w.quiet = false) (hoff : off ≠ 0x1C) (hv : w.setReg off v ≠ w) :
    w.write off v = { w with rej := true } := by
  have hg : (w.en || !w.quiet) = true := by simpa only [Bool.or_eq_true, Bool.not_eq_true'] using h
  simp [Window.write, hoff, hv, hg]

theorem Window.write_enable {w : Window} {v : DWord} (he : w.en = false) (hen : v.getLsbD 31 = true) (hrej : v.getLsbD 30 = false) :
    w.write 0x1C v = { w with en := true, dirty := List.range w.wpages } := by
  have hclear : (!v.getLsbD 30) = true := by rw [hrej, Bool.not_false]
  simp only [Window.write, Window.control, Window.allDirty, he, hen, hclear, Bool.and_true, Bool.not_false, if_true]

/-- Instant S of a queued publication. -/
theorem publicationServe_queued (hwin : win < 8) (hb : ((s.ctx x).window win).busy = none) (hq : ((s.ctx x).window win).queue ≠ []) :
    exec (.publicationServe x win) s = .next ((s.homeWrite .engine (some x) (hostBase + ((s.ctx x).window win).wvera.toNat)
      (leBytes 8 (((s.ctx x).window win).wver + 1).toNat)).modWindow x win (fun y => { y with busy := some y.dirty, dirty := [] })) :=
  congrArg Host.Outcome.next (if_pos (by simp [hwin, hb, hq]))

/-- A publication without uncorrectable units ends: its copy, the even version, and the operation that asked for it. -/
theorem publicationComplete_sound {w : Window} {pages : List Nat} {o : Nat × Nat × Nat} {rest : List (Nat × Nat × Nat)}
    (hw : (s.ctx x).window win = w) (hb : w.busy = some pages) (hq : w.queue = o :: rest)
    (hsound : ∀ i ∈ publishUnits pages, s.bad (w.wback.toNat + i) 32 = false) :
    exec (.publicationComplete x win) s = .next (((((publishUnits pages).foldl (fun st i => st.publishUnit x w i) s).modWindow x win
      (fun y => { y with wver := w.wver + 2, busy := none, queue := y.queue.tail, en := y.en && !y.drop, drop := false })).homeWrite
      .engine (some x) (hostBase + w.wvera.toNat) (leBytes 8 (w.wver + 2).toNat)).finishFor o) := by
  have hbad : ((publishUnits pages).map (fun i => w.wback.toNat + i)).filter (fun a => s.bad a 32) = [] := by
    simpa [List.filter_eq_nil_iff] using hsound
  change execPublicationComplete x win s = _
  simp only [execPublicationComplete, hw, hb, hq, hbad, List.map_nil]
  rfl

/-! ### The loader (R388) -/

theorem loaderGo_managed (ho : s.managed x = true) :
    exec (.loaderGo x) s = .next (s.modCtx x (fun y => { y with loader := { y.loader with busy := true } })) :=
  congrArg Host.Outcome.next (if_pos ho)

theorem loaderDone_busy {r : State × Nat × Nat × Nat} (hb : (s.ctx x).loader.busy = true) (hr : s.load x = r) :
    exec (.loaderDone x) s = .next (r.1.modCtx x (fun y => { y with loader := { y.loader with
      busy := false, status := BitVec.ofNat 8 r.2.1, site := BitVec.ofNat 24 r.2.2.1, sym := BitVec.ofNat 24 r.2.2.2 } })) := by
  subst hr
  exact congrArg Host.Outcome.next (if_pos hb)

end

/-- Settles O47: each clause is the law of its event above; a host write is split by whether it touches a front frame, a read of
registers by whether it covers RCAND. -/
theorem hostEvents : Obligations.HostEvents := by
  unfold Obligations.HostEvents
  intro s x win pa n rank off v data o rest r go owned w units published ended spared
  refine ⟨fun hr hc => hostWrite_reaching hr (State.outsideWrite_host_clear hc),
    fun hr hf => hostWrite_reaching hr (State.outsideWrite_host_front hf), hostRead_memory,
    fun hr hl hb => ⟨fun hc => (hostRead_bars hr hl hb).trans (congrArg _ (if_neg (Bool.not_eq_true _ ▸ hc))),
      fun hc => (hostRead_bars hr hl hb).trans (congrArg _ (if_pos hc))⟩,
    fun i hi hwin hpa hn => hpa ▸ State.barBytes_getD s hi hwin hn, fun hx => State.readWord_block s hx (at_ := 0) (by decide),
    fun hx => State.readWord_block s hx (at_ := 0x14) (by decide), State.readWord_sessionStat s,
    fun ho he hq hoff => windowRegisterWrite_managed ho (Window.write_quiet v he hq hoff),
    fun ho hg hoff hv => windowRegisterWrite_managed ho (Window.write_guarded hg hoff hv),
    fun ho he hen hrej => windowRegisterWrite_managed ho (Window.write_enable he hen hrej), publicationServe_queued, fun hb hq hsound => ?_,
    loaderGo_managed, loaderDone_busy, peerMemoryAccess_device rank (.read n), peerMemoryAccess_device rank (.write data)⟩
  obtain ⟨pages, hpages⟩ := Option.ne_none_iff_exists'.mp hb
  have hunits : units = publishUnits pages := by simp only [units, hpages, Option.getD_some]
  have hdone := publicationComplete_sound rfl hpages hq (hunits ▸ hsound)
  rw [← hunits] at hdone
  exact hdone

end Sys2Proof.Machine
end

section
/-! The canonical form of the machine's memories (R6, R176, R460), part by part. Each predicate below is stated so that an update of
what it does not speak of leaves it as it is by definition: `h` itself then proves the form of the updated part, and `(by exact h)` does
where the part is not yet known when the term is read. After the predicates stands one law for each operation that a step is made of, in
the order of the model's files: the operation keeps the form. -/

namespace Sys2Proof.Machine

/-! ### The form of each part -/

/-- A tile stores its elements and its scales in canonical form. -/
def Tile.InForm (t : Tile) : Prop := t.data.wf = true ∧ t.scale.wf = true

/-- A core stores its three buffers and its Swage in canonical form. -/
def Core.InForm (k : Core) : Prop := (k.wbuf.wf = true ∧ k.abuf.wf = true ∧ k.cbuf.wf = true) ∧ k.swage.Canonical

/-- A crew that keeps a Swage over a save keeps it in canonical form. -/
def Crew.InForm (c : Crew) : Prop := ∀ w, c.swage = some w → w.Canonical

/-- The firmware stores its buffers in canonical form. -/
def Device.InForm (d : Device) : Prop := d.staging.wf = true ∧ d.attBuf.wf = true ∧ d.snap.areas.wf = true

/-- Every core of a list is in form. -/
def Core.AllInForm (ks : List Core) : Prop := ∀ k ∈ ks, k.InForm

/-- Every crew of a list is in form. -/
def Crew.AllInForm (cs : List Crew) : Prop := ∀ c ∈ cs, c.InForm

/-- The machine's canonical form, with the parts grouped by who holds them. -/
def State.InForm (s : State) : Prop := s.mem.wf = true ∧ Core.AllInForm s.cores ∧ Crew.AllInForm s.crews ∧ s.dev.InForm

/-- The form of what an instruction acts on: the machine, and the crew taken out of it. -/
def Env.InForm (e : Env) : Prop := e.s.InForm ∧ e.c.InForm

/-- The form of what an issue comes to. -/
def Res.InForm : Res → Prop
  | .done e | .moved e | .ovr e | .hold e | .trap e _ _ => e.InForm

/-- The form of what a tile operation leaves. -/
def SwDone.InForm (x : SwDone) : Prop := x.e.InForm

/-- The form of what a tile operation answers. -/
def SwRes.InForm : SwRes → Prop
  | .ok x => x.InForm
  | .stop r => r.InForm

/-- The form of what reading a structure comes to: only an early end carries the machine. -/
def Struct.InForm : Struct → Prop
  | .stop r => r.InForm
  | _ => True

/-- The form of the machine that an outcome goes on with. -/
def Outcome.InForm : Host.Outcome State Fault Refusal → Prop
  | .next t => t.InForm
  | _ => True

variable {s : State} {e : Env} {c : Crew} {co : Core} {d : Device}

theorem State.inForm_iff_canonical : s.InForm ↔ s.Canonical where
  mp := fun ⟨hmem, hcores, hcrews, hdev⟩ => ⟨hmem, fun k hk => (hcores k hk).1, fun k hk => (hcores k hk).2, hcrews, hdev⟩
  mpr := fun h => ⟨h.mem, fun k hk => ⟨h.buffers k hk, h.swages k hk⟩, h.saved, h.device⟩

/-! ### The parts of a machine in form -/

theorem State.InForm.mem (h : s.InForm) : s.mem.wf = true := h.1
theorem State.InForm.cores (h : s.InForm) : Core.AllInForm s.cores := h.2.1
theorem State.InForm.crews (h : s.InForm) : Crew.AllInForm s.crews := h.2.2.1
theorem State.InForm.dev (h : s.InForm) : s.dev.InForm := h.2.2.2
theorem Env.InForm.machine (h : e.InForm) : e.s.InForm := h.1
theorem Env.InForm.crew (h : e.InForm) : e.c.InForm := h.2
theorem State.InForm.of_fst {α : Type} {p : State × α} {a : α} (h : p.1.InForm) (hp : p = (s, a)) : s.InForm := by subst hp; exact h
theorem State.InForm.of_snd {α : Type} {p : α × State} {a : α} (h : p.2.InForm) (hp : p = (a, s)) : s.InForm := by subst hp; exact h
theorem Env.InForm.of_snd {α : Type} {p : α × Env} {a : α} (h : p.2.InForm) (hp : p = (a, e)) : e.InForm := by subst hp; exact h

theorem Res.InForm.of_done {r : Res} (h : r.InForm) (hr : r = .done e) : e.InForm := by subst hr; exact h
theorem Res.InForm.of_hold {r : Res} (h : r.InForm) (hr : r = .hold e) : e.InForm := by subst hr; exact h

theorem SwDone.InForm.env {x : SwDone} (h : x.InForm) : x.e.InForm := h
theorem SwRes.InForm.of_ok {r : SwRes} {x} (h : r.InForm) (hr : r = .ok x) : x.InForm := by subst hr; exact h
theorem SwRes.InForm.of_stop {r : SwRes} {x} (h : r.InForm) (hr : r = .stop x) : x.InForm := by subst hr; exact h
theorem Struct.InForm.of_stop {r : Struct} {x} (h : r.InForm) (hr : r = .stop x) : x.InForm := by subst hr; exact h

theorem Core.InForm.wbuf (h : co.InForm) : co.wbuf.wf = true := h.1.1
theorem Core.InForm.abuf (h : co.InForm) : co.abuf.wf = true := h.1.2.1
theorem Core.InForm.cbuf (h : co.InForm) : co.cbuf.wf = true := h.1.2.2
theorem Device.InForm.staging (h : d.InForm) : d.staging.wf = true := h.1
theorem Device.InForm.attBuf (h : d.InForm) : d.attBuf.wf = true := h.2.1
theorem Device.InForm.areas (h : d.InForm) : d.snap.areas.wf = true := h.2.2
theorem Tile.InForm.data {t : Tile} (h : t.InForm) : t.data.wf = true := h.1
theorem Tile.InForm.scale {t : Tile} (h : t.InForm) : t.scale.wf = true := h.2
theorem Core.InForm.swage (h : co.InForm) : co.swage.Canonical := h.2

theorem Crew.inForm_of_none (h : c.swage = none) : c.InForm := fun w hw => by rw [h] at hw; cases hw
theorem Crew.inForm_of_some {w : Swage} (hc : c.swage = some w) (h : w.Canonical) : c.InForm :=
  fun v hv => by rw [hc] at hv; cases hv; exact h

theorem Crew.InForm.kept {w : Swage} (h : c.InForm) (hw : c.swage = some w) : w.Canonical := h w hw

theorem Tile.fresh_inForm : Tile.fresh.InForm := ⟨rfl, rfl⟩

theorem Core.fresh_inForm : Core.fresh.InForm := ⟨⟨rfl, rfl, rfl⟩, Swage.fresh_canonical⟩

/-! ### Lists of parts -/

theorem Core.AllInForm.getD {ks : List Core} {i} (h : Core.AllInForm ks) : (ks.getD i .fresh).InForm := by
  rw [List.getD_eq_getElem?_getD]
  cases hk : ks[i]? with
  | none => exact Core.fresh_inForm
  | some k => exact h k (List.mem_of_getElem? hk)

theorem Core.AllInForm.set {ks : List Core} {i} {k : Core} (h : Core.AllInForm ks) (hk : k.InForm) : Core.AllInForm (ks.set i k) :=
  fun _ hx => (List.mem_or_eq_of_mem_set hx).elim (h _) (fun hx => hx ▸ hk)

theorem Core.AllInForm.map {ks : List Core} {f : Core → Core} (h : Core.AllInForm ks) (hf : ∀ k, k.InForm → (f k).InForm) :
    Core.AllInForm (ks.map f) :=
  List.forall_mem_map.mpr fun k hk => hf k (h k hk)

theorem Core.AllInForm.mapIdx {ks : List Core} {f : Nat → Core → Core} (h : Core.AllInForm ks) (hf : ∀ i k, k.InForm → (f i k).InForm) :
    Core.AllInForm (ks.mapIdx f) := fun x hx => by
  obtain ⟨i, hi, rfl⟩ := List.mem_mapIdx.mp hx
  exact hf i _ (h _ (List.getElem_mem hi))

theorem Crew.AllInForm.map {cs : List Crew} {f : Crew → Crew} (h : Crew.AllInForm cs) (hf : ∀ c, c.InForm → (f c).InForm) :
    Crew.AllInForm (cs.map f) :=
  List.forall_mem_map.mpr fun c hc => hf c (h c hc)

theorem Crew.AllInForm.filter {cs : List Crew} {p : Crew → Bool} (h : Crew.AllInForm cs) : Crew.AllInForm (cs.filter p) :=
  fun c hc => h c (List.mem_filter.mp hc).1

theorem Crew.AllInForm.append {cs : List Crew} (h : Crew.AllInForm cs) (hc : c.InForm) : Crew.AllInForm (cs ++ [c]) :=
  fun _ hx => (List.mem_append.mp hx).elim (h _) (fun hx => List.mem_singleton.mp hx ▸ hc)

/-- A change of a crew that keeps its Swage, made where a condition holds. -/
theorem Crew.InForm.ite {p : Prop} [Decidable p] {x y : Crew} (hx : x.InForm) (hy : y.InForm) : (if p then x else y).InForm := by
  split
  · exact hx
  · exact hy

/-! ### Machines, cores and crews changed in place -/

theorem State.InForm.crew {id} (h : s.InForm) (hc : s.crew? id = some c) : c.InForm := h.crews c (List.mem_of_find?_eq_some hc)

theorem State.InForm.env {crew i} (h : s.InForm) (he : s.env? crew i = some e) : e.InForm := by
  unfold State.env? at he
  split at he
  · cases he
  · next c hc =>
    split at he
    · cases he
    · cases he
      exact ⟨h, h.crew hc⟩

theorem State.InForm.core {k} (h : s.InForm) : (s.core k).InForm := h.cores.getD

theorem State.InForm.setCrew (h : s.InForm) (hc : c.InForm) : (s.setCrew c).InForm :=
  ⟨h.mem, h.cores, h.crews.map fun _ hx => .ite hc hx, h.dev⟩

theorem State.InForm.setCore {k} (h : s.InForm) (hc : co.InForm) : (s.setCore k co).InForm := ⟨h.mem, h.cores.set hc, h.crews, h.dev⟩

theorem State.InForm.modCore {k} {f : Core → Core} (h : s.InForm) (hf : ∀ co, co.InForm → (f co).InForm) : (s.modCore k f).InForm :=
  h.setCore (hf _ h.core)

theorem State.InForm.modCores {f : Core → Core} (h : s.InForm) (hf : ∀ co, co.InForm → (f co).InForm) : (s.modCores f).InForm :=
  ⟨h.mem, h.cores.map hf, h.crews, h.dev⟩

theorem State.InForm.modDev {f : Device → Device} (h : s.InForm) (hf : ∀ d, d.InForm → (f d).InForm) : (s.modDev f).InForm :=
  ⟨h.mem, h.cores, h.crews, hf _ h.dev⟩

theorem State.InForm.modCrew {id} {f : Crew → Crew} (h : s.InForm) (hf : ∀ c, c.InForm → (f c).InForm) : (s.modCrew id f).InForm :=
  ⟨h.mem, h.cores, h.crews.map fun c hc => .ite (hf c hc) hc, h.dev⟩

theorem State.InForm.modStrand {id i f} (h : s.InForm) : (s.modStrand id i f).InForm := h.modCrew fun _ hc => hc

/-! ### Local buffers, tiles and Swages -/

theorem Core.InForm.buf {sp} (h : co.InForm) : (co.buf sp).wf = true := by
  cases sp with
  | wbuf => exact h.wbuf
  | abuf => exact h.abuf
  | cbuf => exact h.cbuf

theorem Core.InForm.setBuf {sp} {m : Memory} (h : co.InForm) (hm : m.wf = true) : (co.setBuf sp m).InForm := by
  cases sp with
  | wbuf => exact ⟨⟨hm, h.abuf, h.cbuf⟩, h.swage⟩
  | abuf => exact ⟨⟨h.wbuf, hm, h.cbuf⟩, h.swage⟩
  | cbuf => exact ⟨⟨h.wbuf, h.abuf, hm⟩, h.swage⟩

theorem Swage.Canonical.tile {w : Swage} {i} (h : w.Canonical) : (w.tile i).InForm := by
  rw [Swage.tile, List.getD_eq_getElem?_getD]
  cases ht : w.tiles[i]? with
  | none => exact Tile.fresh_inForm
  | some t => exact h t (List.mem_of_getElem? ht)

theorem Swage.Canonical.setTile {w : Swage} {i} {t : Tile} (h : w.Canonical) (ht : t.InForm) : (w.setTile i t).Canonical :=
  fun _ hx => (List.mem_or_eq_of_mem_set hx).elim (h _) (fun hx => hx ▸ ht)

theorem Tile.InForm.setBits {t : Tile} {i j v} (h : t.InForm) : (t.setBits i j v).InForm := by
  unfold Tile.setBits
  dsimp only
  split
  · exact ⟨Memory.writeBytes_wf _ _ h.data, h.scale⟩
  · exact ⟨Memory.writeByte_wf _ _ h.data, h.scale⟩

theorem Tile.InForm.setScale {t : Tile} {i blk v} (h : t.InForm) : (t.setScale i blk v).InForm := ⟨h.data, Memory.writeByte_wf _ _ h.scale⟩

/-! ### Runs over a list -/

section
variable {α β : Type} {xs : List α}

theorem State.InForm.foldl {f : State → α → State} (h : s.InForm) (hf : ∀ s x, s.InForm → (f s x).InForm) : (xs.foldl f s).InForm :=
  xs.foldlRecOn f h fun s hs x _ => hf s x hs

/-- A run that carries something beside the machine. -/
theorem State.InForm.foldl_fst {f : State × β → α → State × β} {p : State × β} (h : p.1.InForm)
    (hf : ∀ p x, p.1.InForm → (f p x).1.InForm) : (xs.foldl f p).1.InForm :=
  xs.foldlRecOn (motive := fun p => p.1.InForm) f h fun p hp x _ => hf p x hp

theorem Env.InForm.foldl {f : Env → α → Env} (h : e.InForm) (hf : ∀ e x, e.InForm → (f e x).InForm) : (xs.foldl f e).InForm :=
  xs.foldlRecOn f h fun e he x _ => hf e x he

theorem Tile.InForm.foldl {f : Tile → α → Tile} {t : Tile} (h : t.InForm) (hf : ∀ t x, t.InForm → (f t x).InForm) :
    (xs.foldl f t).InForm :=
  xs.foldlRecOn f h fun t ht x _ => hf t x ht

theorem Memory.foldl_wf {f : Memory → α → Memory} {m : Memory} (h : m.wf = true) (hf : ∀ m x, m.wf = true → (f m x).wf = true) :
    Memory.wf (xs.foldl f m) = true :=
  xs.foldlRecOn (motive := fun m => Memory.wf m = true) f h fun m hm x _ => hf m x hm

end

theorem Env.InForm.commit (h : e.InForm) : e.commit.InForm := h.machine.setCrew h.crew

theorem Swage.Canonical.of_mem_zipIdx {w : Swage} {p : Tile × Nat} (h : w.Canonical) (hp : p ∈ w.tiles.zipIdx) : p.1.InForm :=
  h p.1 (List.mem_of_getElem? (List.mem_zipIdx_iff_getElem?.mp hp))

/-- A change of the tiles, each at its place. -/
theorem Swage.Canonical.zipIdx_map {w v : Swage} {f : Tile × Nat → Tile} (h : w.Canonical) (hf : ∀ t i, t.InForm → (f (t, i)).InForm)
    (hv : v.tiles = w.tiles.zipIdx.map f) : v.Canonical := by
  intro t ht
  rw [hv, List.mem_map] at ht
  obtain ⟨p, hp, rfl⟩ := ht
  exact hf p.1 p.2 (h.of_mem_zipIdx hp)

/-- A crew that keeps the Swage of its core, when it holds it, keeps it in form. -/
theorem Core.InForm.kept {w : Swage} {p : Prop} [Decidable p] (h : co.InForm) (hw : (if p then some co.swage else none) = some w) :
    w.Canonical := by
  split at hw
  · cases hw
    exact h.swage
  · cases hw

/-! ### The state: parts read and put back -/

theorem State.boot_inForm {f} : (State.boot f).InForm :=
  ⟨rfl, fun _ hk => List.eq_of_mem_replicate hk ▸ Core.fresh_inForm, fun _ hc => absurd hc List.not_mem_nil, rfl, rfl, rfl⟩

/-! ### Reads and writes of the home slices -/

theorem State.InForm.setCtx {c : Context} {x} (h : s.InForm) : (s.setCtx x c).InForm := h

theorem State.InForm.modCtx {x f} (h : s.InForm) : (s.modCtx x f).InForm := h.setCtx

theorem State.InForm.modQueue {q f} (h : s.InForm) : (s.modQueue q f).InForm := h

theorem State.InForm.modSession {k f} (h : s.InForm) : (s.modSession k f).InForm := h

theorem State.InForm.modLaunch {seq f} (h : s.InForm) : (s.modLaunch seq f).InForm := h

theorem State.InForm.modGroup {g f} (h : s.InForm) : (s.modGroup g f).InForm := h

theorem State.InForm.setProg {p v} (h : s.InForm) : (s.setProg p v).InForm := h

theorem State.InForm.modPort {p f} (h : s.InForm) : (s.modPort p f).InForm := h

theorem State.InForm.modLport {lp f} (h : s.InForm) : (s.modLport lp f).InForm := h.modPort

theorem State.InForm.emit {o : Out} (h : s.InForm) : (s.emit o).InForm := h

/-! ### Registers, blocks and value tables -/

theorem Env.InForm.reload (h : e.InForm) (hs : s.InForm) : (e.reload s).InForm := by
  unfold Env.reload
  split
  · next hc =>
    split <;> exact ⟨hs, hs.crew hc⟩
  · exact ⟨hs, h.crew⟩

theorem Env.InForm.via {f} (h : e.InForm) (hf : ∀ (s : State), s.InForm → (f s).InForm) : (e.via f).InForm := h.reload (hf _ h.commit)

theorem Env.InForm.put1 {p : Put} {counted} (h : e.InForm) : (e.put1 counted p).InForm := by
  unfold Env.put1
  split
  · exact ⟨h.machine.setCore (by exact h.machine.core), Crew.InForm.ite (by exact h.crew) h.crew⟩
  · exact h

theorem Env.InForm.puts {counted ps} (h : e.InForm) : (e.puts counted ps).InForm := h.foldl fun _ _ he => he.put1

theorem Env.InForm.mapHit {ent : VEntry} {ps} (h : e.InForm) : (e.mapHit ent ps).InForm :=
  ⟨h.machine.setCore (by exact h.machine.core), h.crew⟩

theorem Env.InForm.putMissed {key : VKey} {flags range ps} (h : e.InForm) : (e.putMissed key flags range ps).InForm := by
  unfold Env.putMissed
  extract_lets e' _ _ _ src
  have he' : e'.InForm := h.puts
  have hsrc : src.InForm := he'.machine.core
  split
  · exact ⟨he'.machine.setCore (by exact hsrc), he'.crew⟩
  · exact he'

theorem Env.InForm.putKeyed {key : VKey} {flags ps} (h : e.InForm) : (e.putKeyed key flags ps).InForm := by
  unfold Env.putKeyed
  split
  · exact h.mapHit
  · exact h.putMissed

theorem Env.InForm.reuse? {key : VKey} {ds} {e1 : Env} (h : e.InForm) (he : e.reuse? key ds = some e1) : e1.InForm := by
  unfold Env.reuse? at he
  extract_lets nm at he
  split at he
  · cases he
  · cases he
    exact h.mapHit

theorem Env.InForm.reuse_of_ite {p : Prop} [Decidable p] {key : VKey} {ds} {e1 : Env} (h : e.InForm)
    (he : (if p then e.reuse? key ds else none) = some e1) : e1.InForm := by
  split at he
  · exact h.reuse? he
  · cases he

theorem Env.InForm.lookEmpty {key : VKey} {ds} (h : e.InForm) : (e.lookEmpty key ds).InForm := by
  unfold Env.lookEmpty
  extract_lets _ src
  have hsrc : src.InForm := h.crew
  split <;> exact ⟨h.machine.modCore fun _ hco => hco, hsrc⟩

/-! ### Translation, misses and walks -/

theorem State.InForm.writeEvent {x rec} (h : s.InForm) : (s.writeEvent x rec).InForm := by
  unfold State.writeEvent
  extract_lets _ pa
  have hs1 : State.InForm { s with mem := Memory.writeBytes s.mem pa rec } := ⟨Memory.writeBytes_wf _ _ h.mem, h.cores, h.crews, h.dev⟩
  exact hs1.setCtx.emit

theorem State.InForm.postEvent {x rec} (h : s.InForm) : (s.postEvent x rec).InForm := by
  unfold State.postEvent
  extract_lets
  split
  · exact h.setCtx
  · exact h.writeEvent

theorem State.InForm.tryEvent {x rec} (h : s.InForm) : (s.tryEvent x rec).InForm := by
  unfold State.tryEvent
  split
  · exact h
  · exact h.writeEvent

theorem State.InForm.flushEvents {x fuel} (h : s.InForm) : (s.flushEvents x fuel).InForm := by
  induction fuel generalizing s with
  | zero => exact h
  | succ n ih =>
    unfold State.flushEvents
    split
    · exact h
    · split
      · exact h
      · exact ih h.modCtx.writeEvent

theorem State.InForm.serveMisses {core fuel} (h : s.InForm) : (s.serveMisses core fuel).InForm := by
  induction fuel generalizing s with
  | zero => exact h
  | succ n ih =>
    unfold State.serveMisses
    extract_lets co
    have hco : co.InForm := h.core
    split
    · extract_lets _ _ s1 s2
      have hs1 : s1.InForm := h.setCore (by exact hco)
      have hs2 : s2.InForm := by
        unfold s2
        split
        · exact hs1.postEvent
        · exact State.InForm.modStrand (hs1.modCrew fun _ hc => hc)
      exact ih hs2
    · exact h

theorem State.InForm.missOn {core ctx va kind who} (h : s.InForm) : (s.missOn core ctx va kind who).InForm := by
  unfold State.missOn
  extract_lets co
  have hco : co.InForm := h.core
  split
  · exact h.setCore (by exact hco)
  · split
    · exact h.setCore (by exact hco)
    · exact State.InForm.serveMisses (h.setCore (by exact hco))

theorem State.InForm.trimWalker {core} (h : s.InForm) : (s.trimWalker core).InForm := by
  unfold State.trimWalker
  split
  · exact h
  · exact ⟨h.mem, h.cores, h.crews.filter, h.dev⟩

theorem State.InForm.endWalk {core num} (h : s.InForm) : (s.endWalk core num).InForm := by
  unfold State.endWalk
  extract_lets co s1
  have hco : co.InForm := h.core
  have hs1 : s1.InForm := h.setCore (by exact hco)
  split
  · exact h
  · extract_lets _ s2 s3
    have hs2 : s2.InForm := by
      unfold s2
      split
      · exact hs1
      · exact hs1.foldl fun _ _ hs => hs.modStrand
    have hs3 : s3.InForm := by
      unfold s3
      split
      · exact hs2
      · exact hs2.modStrand
    exact hs3.serveMisses.trimWalker

theorem State.InForm.emptyLast {core ctx p} (h : s.InForm) : (s.emptyLast core ctx p).InForm :=
  ⟨h.mem, h.cores, h.crews.map fun _ hc => Crew.InForm.ite (by exact hc) hc, h.dev⟩

theorem State.InForm.installLeaf {core ctx walk va level e} (h : s.InForm) : (s.installLeaf core ctx walk va level e).InForm := by
  unfold State.installLeaf
  split
  · exact h
  · exact State.InForm.emptyLast (h.setCore (by exact h.core))

theorem State.InForm.invalidateCore {core ctx tlb p} (h : s.InForm) : (s.invalidateCore core ctx tlb p).InForm :=
  State.InForm.emptyLast (h.setCore (by exact h.core))

theorem State.InForm.invalidate {cores ctx tlb p} (h : s.InForm) : (s.invalidate cores ctx tlb p).InForm := by
  unfold State.invalidate
  extract_lets s1
  have hs1 : s1.InForm := h.foldl fun _ _ hs => hs.invalidateCore
  split
  · exact ⟨hs1.mem, hs1.cores, hs1.crews.map fun _ hc => Crew.InForm.ite (by exact hc) hc, hs1.dev⟩
  · exact hs1

/-! ### Loads, stores and the local buffers -/

theorem State.InForm.kick {q value} (h : s.InForm) : (s.kick q value).InForm := h.modQueue

theorem State.InForm.kickStore {pa n v} (h : s.InForm) : (s.kickStore pa n v).InForm := by
  unfold State.kickStore
  extract_lets
  split
  · exact h.kick
  · exact h.modQueue

theorem State.InForm.addCandidate {page uncorrectable} (h : s.InForm) : (s.addCandidate page uncorrectable).InForm := by
  unfold State.addCandidate
  extract_lets
  split
  · exact h
  · split <;> exact h

theorem State.InForm.uncorrectable {pa} (h : s.InForm) : (s.uncorrectable pa).InForm := by
  unfold State.uncorrectable
  split
  · exact h.addCandidate
  · exact h

theorem State.InForm.countUe {ctx} (h : s.InForm) : (s.countUe ctx).InForm := h.modCtx

theorem State.InForm.consumeUe {ctx pa} (h : s.InForm) : (s.consumeUe ctx pa).InForm := h.countUe.uncorrectable

theorem State.InForm.consumeUes {ctx counted pas} (h : s.InForm) : (s.consumeUes ctx counted pas).InForm := by
  unfold State.consumeUes
  split
  · exact h
  · refine State.InForm.foldl ?_ fun _ _ hs => hs.uncorrectable
    split
    · exact h
    · exact h.countUe

theorem Core.InForm.fitL1 {bytes} (h : co.InForm) : (co.fitL1 bytes).InForm := h

theorem State.InForm.trimL1 {core} (h : s.InForm) : (s.trimL1 core).InForm := by
  unfold State.trimL1
  split
  · exact h
  · exact h.modCore fun _ hco => hco.fitL1

theorem State.InForm.fillLine {core line} (h : s.InForm) : (s.fillLine core line).InForm :=
  State.InForm.trimL1 (h.modCore fun _ hco => hco)

theorem State.InForm.loadPart {core pa n} (h : s.InForm) : (s.loadPart core pa n).2.InForm := by
  unfold State.loadPart
  extract_lets _ _ _ hit s1
  have hs1 : s1.InForm := h.fillLine
  clear_value hit
  split
  · exact h
  · split
    · exact h
    · split <;> exact hs1

theorem State.InForm.acquireL1 {core} (h : s.InForm) : (s.acquireL1 core).InForm := h.modCore fun _ hco => hco

theorem Core.InForm.revoke {word} (h : co.InForm) : (co.revoke word).InForm := h

theorem Core.InForm.dropWord {word} (h : co.InForm) : (co.dropWord word).InForm := h

theorem Core.InForm.storeL1 {pa bs} (h : co.InForm) : (co.storeL1 pa bs).InForm := h

theorem State.InForm.dropOwner {line} (h : s.InForm) : (s.dropOwner line).InForm := h.foldl fun _ _ hs => by
    extract_lets
    split
    · exact State.InForm.modCore (by exact hs) fun _ hco => hco.revoke
    · exact hs

theorem State.InForm.ownRoom {line} (h : s.InForm) : (s.ownRoom line).InForm := by
  unfold State.ownRoom
  split
  · exact h
  · extract_lets
    split
    · exact h.dropOwner
    · exact h

theorem State.InForm.takeWord {w : Writer} {word} (h : s.InForm) : (s.takeWord w word).InForm := by
  unfold State.takeWord
  extract_lets prev me s1 s2
  have hs1 : s1.InForm := by
    unfold s1
    clear_value prev
    split
    · split
      · exact h
      · exact h.modCore fun _ hco => hco.revoke
    · exact h
  have hs2 : s2.InForm := hs1.ownRoom
  clear_value me
  split
  · exact hs2
  · exact hs1

theorem State.InForm.markDirty {pa n} (h : s.InForm) : (s.markDirty pa n).InForm := by
  unfold State.markDirty
  split <;> exact h

theorem State.InForm.performWrite {w : Writer} {ctx pa bs} (h : s.InForm) : (s.performWrite w ctx pa bs).InForm := by
  unfold State.performWrite
  split
  · exact h
  · extract_lets _ s1 s2
    have hs1 : s1.InForm := ⟨Memory.writeBytes_wf _ _ h.mem, h.cores, h.crews, h.dev⟩
    have hs2 : s2.InForm := hs1.foldl fun _ _ hs => hs.takeWord
    exact State.InForm.markDirty (by exact hs2)

theorem State.InForm.returnWaita {crew strand lane vd pd x hit} (h : s.InForm) : (s.returnWaita crew strand lane vd pd x hit).InForm := by
  unfold State.returnWaita
  split
  · exact h
  · next hc =>
    split
    · exact h
    · exact Env.InForm.commit (by exact Env.InForm.put1 ⟨h, h.crew hc⟩)

theorem State.InForm.rereadWaita {crew strand lane pa f} (h : s.InForm) (hf : ∀ (x : Word), (f x).InForm) :
    (s.rereadWaita crew strand lane pa f).InForm := by
  unfold State.rereadWaita
  split
  · exact h.modStrand
  · exact hf _

theorem State.InForm.wakeWaita {pa n} (h : s.InForm) : (s.wakeWaita pa n).InForm := h.foldl fun _ _ hs => by
    split
    exact hs.rereadWaita fun _ => by
      split
      · exact hs
      · exact hs.returnWaita

theorem State.InForm.latchDeps (h : s.InForm) : s.latchDeps.InForm := by
  unfold State.latchDeps
  split <;> exact h

theorem State.InForm.retranslateDeps {ctx} (h : s.InForm) : (s.retranslateDeps ctx).InForm := State.InForm.latchDeps (by exact h)

theorem State.InForm.kickRefused {pa n} (h : s.InForm) : (s.kickRefused pa n).InForm := by
  unfold State.kickRefused
  extract_lets
  exact h.foldl fun _ _ hs => hs.modQueue

theorem State.InForm.homeWrite {w : Writer} {ctx pa bs} (h : s.InForm) : (s.homeWrite w ctx pa bs).InForm := by
  unfold State.homeWrite
  split
  · exact h.kickRefused
  · exact h.performWrite.latchDeps.wakeWaita

theorem State.InForm.countAtomic {ctx pa va isLocal} (h : s.InForm) : (s.countAtomic ctx pa va isLocal).InForm := by
  unfold State.countAtomic
  extract_lets _ _ _ _ _ _ _ _ s1
  have hs1 : s1.InForm := h
  split
  · split
    · exact hs1.modCtx
    · exact hs1.postEvent
  · exact hs1

/-! ### Operations in flight, and what they bring back -/

theorem Env.InForm.readPart {lane va tr pa n} (h : e.InForm) : (e.readPart lane va tr pa n).2.InForm := by
  unfold Env.readPart
  extract_lets
  split
  · exact h
  · split
    · split
      next hx =>
        split
        · exact ⟨h.machine.loadPart.of_snd hx, h.crew⟩
        · split
          · exact ⟨h.machine.loadPart.of_snd hx, h.crew⟩
          · extract_lets
            exact ⟨h.machine.loadPart.of_snd hx, h.crew⟩
    · split
      next hx =>
        exact ⟨h.machine.loadPart.of_snd hx, h.crew⟩

theorem Env.InForm.readLane {lane va tr pa n} (h : e.InForm) : (e.readLane lane va tr pa n).2.InForm := by
  unfold Env.readLane
  split
  · exact h
  · split
    · split
      next hx =>
        split
        next hy =>
          split <;> exact (h.readPart.of_snd hx).readPart.of_snd hy
    · exact h.readPart

theorem Env.InForm.readElem {ty : LoadTy} {x : Elem} (h : e.InForm) : (e.readElem ty x).2.InForm := by
  unfold Env.readElem
  split
  · exact h
  · split
    next hx =>
      extract_lets
      split
      · exact h.readLane.of_snd hx
      · split
        next hy =>
          exact (h.readLane.of_snd hx).readLane.of_snd hy

theorem loadElems_inForm {ty : LoadTy} {acc : LoadAcc} {els} (h : e.InForm) : (loadElems e ty els acc).2.InForm := by
  induction els generalizing e acc with
  | nil => exact h
  | cons x rest ih =>
    unfold loadElems
    split
    next hx =>
      split
      · exact ih ((h.readElem.of_snd hx).via fun _ hs => hs.consumeUes)
      · extract_lets
        exact ih (h.readElem.of_snd hx)

theorem Env.InForm.arrive {acc : LoadAcc} {id vd wide uni pc key range} (h : e.InForm) :
    (e.arrive id vd wide uni pc key range acc).InForm := by
  unfold Env.arrive
  extract_lets _ _ _ _ _ e1
  unfold e1
  split
  · split
    · exact h.putMissed
    · exact h.puts
  · exact h.puts

theorem storeAccs_inForm {core ctx n accs} (h : s.InForm) : (storeAccs s core ctx n accs).InForm := by
  induction accs generalizing s with
  | nil => exact h
  | cons a rest ih =>
    unfold storeAccs
    split
    · exact ih h
    · split
      · exact ih h.kickStore
      · extract_lets put bs
        have hput (t : State) (ht : t.InForm) (pa : Nat) (xs : List Byte) : (put t pa xs).InForm :=
          State.InForm.homeWrite (ht.modCore fun _ hco => hco.storeL1)
        split
        · exact ih (hput _ (hput _ h _ _) _ _)
        · exact ih (hput _ h _ _)

theorem State.InForm.rmw {w : Writer} {core ctx pa n f} (h : s.InForm) : (s.rmw w core ctx pa n f).2.InForm := by
  unfold State.rmw
  split
  · exact h
  · extract_lets _ _ s1
    have hs1 : s1.InForm := by
      unfold s1
      split
      · exact h.foldl fun _ _ hs => hs.modCore fun _ hco => hco.dropWord
      · exact h
    split
    · exact hs1
    · exact hs1.homeWrite

theorem atomAccs_inForm {acc : LoadAcc} {n f g accs} (h : e.InForm) : (atomAccs e n f g accs acc).2.InForm := by
  induction accs generalizing e acc with
  | nil => exact h
  | cons x rest ih =>
    unfold atomAccs
    split
    · exact ih h
    · split
      · exact ih (h.via fun _ hs => hs.modQueue)
      · extract_lets s0
        have hs0 : s0.InForm := h.commit
        split
        next hx =>
          split
          · exact ih (h.reload (hs0.rmw.of_snd hx).consumeUes)
          · extract_lets s22
            have hs22 : s22.InForm := by
              unfold s22
              split
              · exact (hs0.rmw.of_snd hx).countAtomic
              · exact hs0.rmw.of_snd hx
            exact ih (h.reload hs22)

theorem Env.InForm.performMem {p : Pending} (h : e.InForm) : (e.performMem p).InForm := by
  unfold Env.performMem
  split
  · exact (loadElems_inForm h).arrive
  · exact h.via fun _ hs => storeAccs_inForm hs
  · exact (atomAccs_inForm h).arrive
  · exact (atomAccs_inForm h).arrive
  · extract_lets _ _ e1
    have he1 : e1.InForm := by
      unfold e1
      split
      · exact h
      · exact h.via fun _ hs => hs.countUe
    exact he1.arrive
  · exact h
  · exact h

theorem Env.InForm.performAll {ps} (h : e.InForm) : (e.performAll ps).InForm := h.foldl fun _ _ he => he.performMem

theorem Env.InForm.performOp {id} (h : e.InForm) : (e.performOp id).InForm := by
  unfold Env.performOp
  split
  · exact h
  · exact h.performAll.performMem

theorem Env.InForm.drain {want} (h : e.InForm) : (e.drain want).InForm := h.foldl fun _ _ he => he.performOp

theorem Env.InForm.drainMem (h : e.InForm) : e.drainMem.InForm := h.drain

theorem Env.InForm.partOp {e0 : Env} {id i} (h : e0.InForm) : (e0.partOp id i).InForm := by
  unfold Env.partOp
  split
  · exact h
  · extract_lets
    split
    · extract_lets
      split
      · exact h
      · exact loadElems_inForm h.performAll
    · extract_lets split
      split
      · exact h
      · split
        · exact h
        · exact h.performAll.via fun _ hs => storeAccs_inForm hs
    · exact h

theorem Env.InForm.release (h : e.InForm) : e.release.InForm := h.drainMem

theorem Env.InForm.acquire (h : e.InForm) : e.acquire.InForm := ⟨h.drainMem.machine.acquireL1, h.drainMem.crew⟩

/-! ### The saved image of a crew -/

theorem State.InForm.device {pa bs} (h : s.InForm) : (s.device pa bs).InForm := h.foldl fun _ _ hs => by
    extract_lets
    split
    · exact hs
    · exact State.InForm.markDirty ⟨Memory.writeBytes_wf _ _ hs.mem, hs.cores, hs.crews, hs.dev⟩

theorem Swage.Canonical.unpack {w : Swage} {b} (h : w.Canonical) : (w.unpack b).Canonical := h.zipIdx_map (fun _ _ ht => ht) rfl

theorem Crew.InForm.ofHeader {b} (h : c.InForm) : (c.ofHeader b).InForm := by
  unfold Crew.ofHeader
  split
  · exact h
  · intro w hw
    obtain ⟨v, hv, rfl⟩ := Option.map_eq_some_iff.mp hw
    exact (h v hv).unpack

theorem State.InForm.writeStrandRec {t : Strand} {rec} (h : s.InForm) : (s.writeStrandRec rec t).InForm :=
  h.device.device.device.foldl fun _ _ hs => hs.device

/-! ### Snapshots -/

theorem Snap.fire_areas {x : Snap} {src sw} : (x.fire src sw).areas = x.areas := by
  unfold Snap.fire
  extract_lets
  split <;> rfl

theorem State.InForm.setSnap {y : Snap} {m : Memory} (h : s.InForm) (hm : m.wf = true) :
    State.InForm { s with dev := { s.dev with snap := { y with areas := m } } } :=
  ⟨h.mem, h.cores, h.crews, h.dev.staging, h.dev.attBuf, hm⟩

theorem State.InForm.snapTrigger {src sw} (h : s.InForm) : (s.snapTrigger src sw).InForm := by
  unfold State.snapTrigger
  extract_lets x y _ y' parts areas
  split
  · exact h
  · split
    · split
      · have hareas : y.areas.wf = true := by
          rw [Snap.fire_areas]
          exact h.dev.areas
        exact h.setSnap (Memory.writeBytes_wf _ _ hareas)
      · exact h
    · have hareas : Memory.wf areas = true := Memory.foldl_wf (m := []) rfl fun _ _ hm => Memory.writeBytes_wf _ _ hm
      exact (h.setSnap hareas).emit

theorem State.InForm.raise {v} (h : s.InForm) : (s.raise v).InForm := by
  unfold State.raise
  split
  · exact h.emit
  · exact h

theorem State.InForm.setStage {n} (h : s.InForm) : (s.setStage n).InForm := by
  unfold State.setStage
  extract_lets s1
  have hs1 : s1.InForm := h.modDev fun _ hd => hd
  split
  · exact hs1.raise
  · exact hs1

theorem State.InForm.deviceError {cause addr fatal} (h : s.InForm) : (s.deviceError cause addr fatal).InForm := by
  unfold State.deviceError
  extract_lets
  split
  · exact State.InForm.snapTrigger (State.InForm.raise (h.modDev fun _ hd => hd))
  · exact h.modDev fun _ hd => hd

/-! ### Launches and crews -/

theorem State.InForm.recordError {i : ErrInfo} {x} (h : s.InForm) : (s.recordError x i).InForm := by
  unfold State.recordError
  extract_lets _ _ s1
  have hs1 : s1.InForm := h.modCtx.raise
  split
  · split
    · exact hs1.snapTrigger
    · exact hs1
  · exact h.modCtx

theorem State.InForm.fitEmergency {core} (h : s.InForm) : (s.fitEmergency core).InForm := by
  unfold State.fitEmergency
  extract_lets _ co
  have hco : co.InForm := h.core
  split
  · exact h.setCore (by exact hco)
  · split
    · exact State.InForm.modStrand (h.setCore (by exact hco))
    · exact h.setCore (by exact hco)

theorem State.InForm.giveBack {core who blocks} (h : s.InForm) : (s.giveBack core who blocks).InForm := by
  unfold State.giveBack
  extract_lets co _ _ s1
  have hco : co.InForm := h.core
  have hs1 : s1.InForm := h.setCore (by exact hco)
  split
  · split
    · exact hs1.modStrand
    · exact hs1
  · exact h

theorem Env.InForm.addBlocks {n} (h : e.InForm) : (e.addBlocks n).InForm := ⟨h.machine.setCore (by exact h.machine.core), h.crew⟩

theorem State.InForm.grantTo {crew strand n} (h : s.InForm) : (s.grantTo crew strand n).InForm := by
  unfold State.grantTo
  split
  · exact h
  · next he =>
    exact Env.InForm.commit (by exact (h.env he).addBlocks)

theorem State.InForm.serveGrowth {core fuel} (h : s.InForm) : (s.serveGrowth core fuel).InForm := by
  induction fuel generalizing s with
  | zero => exact h
  | succ n ih =>
    unfold State.serveGrowth
    split
    · exact h
    · split
      · exact ih h.grantTo
      · extract_lets co s1
        have hco : co.InForm := h.core
        have hs1 : s1.InForm := h.setCore (by exact hco)
        split
        · exact ih hs1.modStrand.grantTo
        · exact h

theorem State.InForm.drainEarlier {crew} (h : s.InForm) : (s.drainEarlier crew).InForm := by
  unfold State.drainEarlier
  split
  · exact h
  · exact h.foldl fun _ _ hs => by
      split
      · next he =>
        exact (hs.env he).drain.commit
      · exact hs

theorem State.InForm.releaseAll {w : Wait} {crews} (h : s.InForm) : (s.releaseAll crews w).InForm := by
  unfold State.releaseAll
  extract_lets s1 s2
  have hs1 : s1.InForm := h.foldl fun _ _ hs => hs.drainEarlier
  have hs2 : s2.InForm := hs1.foldl fun _ _ hs => by
      split
      · exact hs.acquireL1
      · exact hs
  exact hs2.foldl fun _ _ hs => hs.modCrew fun _ hc => hc

theorem State.InForm.releaseWaiters {w : Wait} {crew} (h : s.InForm) : (s.releaseWaiters crew w).InForm := h.releaseAll

theorem State.InForm.writeRestart {crew} (h : s.InForm) : (s.writeRestart crew).InForm := by
  unfold State.writeRestart
  split
  · exact h
  · split
    · exact h
    · exact h.device.foldl fun _ _ hs => hs.device

theorem State.InForm.completeIdem {crew closing} (h : s.InForm) : (s.completeIdem crew closing).InForm := by
  unfold State.completeIdem
  extract_lets s1
  have hs1 : s1.InForm := h.releaseWaiters
  split
  · exact hs1
  · extract_lets _ s2
    have hs2 : s2.InForm := hs1.modCrew fun _ hc2 => hc2
    split
    · exact hs2
    · exact hs2.writeRestart

theorem State.InForm.completeBarriers {crew fuel} (h : s.InForm) : (s.completeBarriers crew fuel).InForm := by
  induction fuel generalizing s crew with
  | zero => exact h
  | succ n ih =>
    unfold State.completeBarriers
    split
    · exact h
    · split
      · exact h
      · extract_lets _ s1 s12 _ _ s2 s' s3
        have hs1 : s1.InForm := h.foldl fun _ _ hs => hs.releaseWaiters.modCrew fun _ hc2 => hc2
        have hs12 : s12.InForm := hs1.foldl fun _ _ hs => by
            split
            · split
              · exact hs.completeIdem
              · exact hs
            · exact hs
        have hs2 : s2.InForm := by
          unfold s2
          split
          · exact hs12.releaseAll
          · exact hs12
        have hs' : s'.InForm := hs2.releaseWaiters.modCrew fun _ hc2 => hc2
        unfold s3
        split
        · split
          · split
            · exact ih hs'
            · exact hs'
          · exact hs2
        · exact hs2

theorem State.InForm.releaseCrew {crew} (h : s.InForm) : (s.releaseCrew crew).InForm := by
  unfold State.releaseCrew
  split
  · exact h
  · exact State.InForm.modCore (h.foldl fun _ _ hs => hs.giveBack) fun _ hco => hco

theorem State.InForm.afterLeave {core} (h : s.InForm) : (s.afterLeave core).InForm := by
  unfold State.afterLeave
  extract_lets _ s1
  have hs1 : s1.InForm := by
    unfold s1
    split
    · exact h
    · exact ⟨h.mem, h.cores, h.crews.filter, h.dev⟩
  exact hs1.fitEmergency.serveGrowth

theorem State.InForm.endCrew {crew} (h : s.InForm) : (s.endCrew crew).InForm := by
  unfold State.endCrew
  split
  · exact h
  · extract_lets s1 s2 s3
    have hs1 : s1.InForm := by
      unfold s1
      split
      · exact h.releaseCrew
      · exact h
    have hs2 : s2.InForm := hs1.modCrew fun _ _ => Crew.inForm_of_none rfl
    have hs3 : s3.InForm := by
      unfold s3
      split
      · exact hs2.afterLeave
      · exact hs2
    split
    · exact hs3.completeBarriers
    · exact hs3

theorem State.InForm.writeCompletion {ctx addr inc status seq} (h : s.InForm) : (s.writeCompletion ctx addr inc status seq).InForm := by
  unfold State.writeCompletion
  split
  · exact h
  · split
    · exact h
    · exact h.homeWrite.homeWrite

theorem State.InForm.releaseTails {ctx seq fault} (h : s.InForm) : (s.releaseTails ctx seq fault).InForm := h.modCtx

theorem State.InForm.complete {seq status} (h : s.InForm) : (s.complete seq status).InForm := by
  unfold State.complete
  split
  · exact h
  · extract_lets s1 s2 s3
    have hs3 : s3.InForm := h.releaseTails.writeCompletion.modCores fun _ hco => hco
    exact ⟨hs3.mem, hs3.cores, hs3.crews.filter, hs3.dev⟩

/-! ### The copy engine -/

theorem State.InForm.writeLocal {sp : Space} {core a bs} (h : s.InForm) : (s.writeLocal core sp a bs).InForm := by
  unfold State.writeLocal
  extract_lets s1
  have hs1 : s1.InForm := h.modCore fun _ hco => hco.setBuf (Memory.writeBytes_wf _ _ hco.buf)
  split <;> exact hs1

theorem State.InForm.writeCells {ctx cells} (h : s.InForm) : (s.writeCells ctx cells).InForm := h.foldl fun _ _ hs => by
    split <;> exact hs.homeWrite

theorem State.InForm.writeLocalCells {sp : Space} {core cells} (h : s.InForm) : (s.writeLocalCells core sp cells).InForm :=
  h.foldl fun _ _ hs => by
    split <;> exact hs.writeLocal

theorem writeBlock_inForm {c : CopyCmd} {xs key} (h : s.InForm) : (writeBlock s c xs key).1.InForm := by
  unfold writeBlock
  extract_lets _ mine
  clear_value mine
  split
  · exact h
  · split
    · split
      · exact h
      · extract_lets
        split
        extract_lets
        exact h.writeCells
    · exact h

theorem State.InForm.copyRow {c : CopyCmd} {acc : CopyAcc} {core r} (h : s.InForm) : (s.copyRow core c r acc).1.InForm := by
  unfold State.copyRow
  extract_lets
  split
  · exact h.writeLocalCells
  · split <;> exact h.writeCells

theorem State.InForm.runCopy {c : CopyCmd} {core} (h : s.InForm) : (s.runCopy core c).1.InForm := by
  unfold State.runCopy
  extract_lets
  split
  · exact h
  · split
    next hx =>
      exact State.InForm.foldl_fst ((h.foldl_fst fun _ _ h2 => h2.copyRow).of_fst hx) fun _ _ h2 => by
        split
        next hy =>
          exact (writeBlock_inForm h2).of_fst hy

theorem Env.InForm.performCopy {p : Pending} (h : e.InForm) : (e.performCopy p).InForm := by
  unfold Env.performCopy
  split
  · split
    next hx =>
      extract_lets s2
      have hs2 : s2.InForm := by
        unfold s2
        split
        · exact (h.commit.runCopy.of_fst hx).consumeUe
        · exact h.commit.runCopy.of_fst hx
      exact h.reload hs2
  · exact h

/-! ### Links, datagrams and collective programs -/

theorem State.InForm.setPath {p : LPath} (h : s.InForm) : (s.setPath p).InForm := h

theorem State.InForm.learnPort {peer lport rport} (h : s.InForm) : (s.learnPort peer lport rport).InForm := by
  unfold State.learnPort
  split <;> exact h

theorem State.InForm.countSent {l} (h : s.InForm) : (s.countSent l).InForm := h.modLport

theorem State.InForm.sendOn {lport peer kind h data fixed} (hin : s.InForm) : (s.sendOn lport peer kind h data fixed).InForm :=
  hin.setPath.emit.countSent

theorem State.InForm.sendLly {peer kind h data} (hin : s.InForm) : (s.sendLly peer kind h data).InForm := by
  unfold State.sendLly
  split
  · exact hin.sendOn
  · split
    · split
      · exact hin.sendOn
      · exact hin
    · exact hin

theorem State.InForm.holdTraffic {k peer} (h : s.InForm) : (s.holdTraffic k peer).InForm := by
  unfold State.holdTraffic
  split
  · exact h
  · split
    · exact h
    · exact h.setProg.tryEvent

theorem State.InForm.tellGrant {row} (h : s.InForm) : (s.tellGrant row).InForm := by
  unfold State.tellGrant
  extract_lets
  split
  · exact h
  · extract_lets
    split
    · exact h
    · split
      · exact State.InForm.sendOn (by exact h)
      · exact h.holdTraffic
      · exact h

theorem State.InForm.grantRow {row h} (hin : s.InForm) : (s.grantRow row h).InForm := State.InForm.tellGrant (by exact hin)

theorem State.InForm.queueReq {q} (h : s.InForm) : (s.queueReq q).InForm := h

theorem State.InForm.serveRows {fuel} (h : s.InForm) : (s.serveRows fuel).InForm := by
  induction fuel generalizing s with
  | zero => exact h
  | succ n ih =>
    unfold State.serveRows
    split
    · exact h
    · exact ih (State.InForm.grantRow (by exact h))

theorem State.InForm.releaseRows {p} (h : s.InForm) : (s.releaseRows p).InForm := State.InForm.serveRows (by exact h)

theorem State.InForm.deferFor {o ctx bad} (h : s.InForm) : (s.deferFor o ctx bad).InForm := by
  unfold State.deferFor
  extract_lets
  split
  · exact h
  · exact h.consumeUes.modStrand

theorem State.InForm.noteBad {pr : CProg} {va n} (h : s.InForm) : (s.noteBad pr va n).InForm := by
  unfold State.noteBad
  extract_lets
  split
  · exact h.deferFor
  · exact h.consumeUes

theorem State.InForm.fetchStep {k} (h : s.InForm) : (s.fetchStep k).InForm := by
  unfold State.fetchStep
  split
  · split
    · exact h.noteBad
    · exact h
  · exact h

theorem State.InForm.startProg {ctx va owner slotOf} {t : State} (h : s.InForm) (ht : s.startProg ctx va owner slotOf = some t) :
    t.InForm := by
  unfold State.startProg at ht
  extract_lets bad at ht
  split at ht
  · cases ht
  · split at ht
    · cases ht
      exact h
    · split at ht
      · extract_lets _ _ _ s1 at ht
        have hs1 : s1.InForm := by
          unfold s1
          split
          · exact h.noteBad
          · exact h
        cases ht
        exact hs1.setProg.homeWrite.fetchStep
      · cases ht
        exact h

theorem State.InForm.startProg_getD {ctx va owner slotOf} (h : s.InForm) : ((s.startProg ctx va owner slotOf).getD s).InForm := by
  cases hp : s.startProg ctx va owner slotOf with
  | none => exact h
  | some t => exact h.startProg hp

theorem State.InForm.fireSlot {ctx t b} (h : s.InForm) : (s.fireSlot ctx t b).InForm := by
  unfold State.fireSlot
  extract_lets f s1
  have hs1 : s1.InForm := h.modCtx
  split
  · exact hs1.startProg_getD
  · exact hs1

theorem State.InForm.evalTriggers {ctx} (h : s.InForm) : (s.evalTriggers ctx).InForm := h.foldl fun _ _ hs => by
    split
    · split
      · exact hs.fireSlot
      · exact hs
    · exact hs

theorem State.InForm.setTc {ctx k v} (h : s.InForm) : (s.setTc ctx k v).InForm := h.modCtx.evalTriggers

theorem State.InForm.addTc {ctx k v} (h : s.InForm) : (s.addTc ctx k v).InForm := h.setTc

theorem State.InForm.endAction {ctx t f counts} (h : s.InForm) : (s.endAction ctx t f counts).InForm := by
  unfold State.endAction
  split
  · exact h
  · extract_lets s1
    have hs1 : s1.InForm := h.modCtx
    split
    · exact hs1.addTc
    · exact hs1

theorem State.InForm.finishFor {o} (h : s.InForm) : (s.finishFor o).InForm := by
  unfold State.finishFor
  split
  · exact h
  · exact h.modStrand

theorem State.InForm.sendAbt {pr : CProg} {r} (h : s.InForm) : (s.sendAbt pr r).InForm := by
  unfold State.sendAbt
  split
  · exact h.sendOn
  · exact h

theorem State.InForm.endProg {k status counts} (h : s.InForm) : (s.endProg k status counts).InForm := by
  unfold State.endProg
  split
  · exact h
  · extract_lets s1 s2 s3 s4 s5
    have hs1 : s1.InForm := by
      unfold s1
      split
      · exact h
      · exact h.foldl fun _ _ hs => hs.sendAbt
    have hs2 : s2.InForm := hs1.setProg.releaseRows
    have hs3 : s3.InForm := by
      unfold s3
      split
      · exact hs2.homeWrite
      · exact hs2
    have hs4 : s4.InForm := by
      unfold s4
      split
      · exact hs3.addTc
      · exact hs3
    have hs5 : s5.InForm := by
      unfold s5
      split
      · exact hs4.finishFor
      · exact hs4
    split
    · exact hs5.endAction
    · exact hs5

theorem State.InForm.closeSession {k} (h : s.InForm) : (s.closeSession k).InForm := by
  unfold State.closeSession
  extract_lets _ s1 s2
  have hs1 : s1.InForm := by
    unfold s1
    split
    · exact h.foldl fun _ _ hs => hs.emit
    · exact h
  have hs2 : s2.InForm := hs1.modSession
  split
  · exact h
  · exact ⟨hs2.mem, hs2.cores, hs2.crews.map fun _ hc => hc, hs2.dev⟩

/-! ### Lanes scanned before an operation starts -/

theorem Env.InForm.missAll {kind vas} (h : e.InForm) : (e.missAll kind vas).InForm := h.via fun _ hs => hs.foldl fun _ _ hs2 => hs2.missOn

/-! ### The field engine -/

theorem Env.InForm.putRun {vd n lanes val} (h : e.InForm) : (e.putRun vd n lanes val).InForm := by
  unfold Env.putRun
  split
  · exact h
  · exact h.puts

theorem Env.InForm.deferLanes {p : Pending} {c : FieldCmd} {lanes vas} (h : e.InForm) : (e.deferLanes p c lanes vas).InForm := by
  unfold Env.deferLanes
  split
  · exact h
  · extract_lets
    exact h.via fun _ hs => hs.countUe.foldl fun _ _ hs2 => hs2.uncorrectable

theorem Env.InForm.fieldOutputs {p : Pending} {c : FieldCmd} {n rs} (h : e.InForm) : (e.fieldOutputs p c n rs).InForm :=
  Env.InForm.deferLanes (by exact h.putRun)

theorem Env.InForm.performHgf {p : Pending} {c : FieldCmd} {o16} (h : e.InForm) : (e.performHgf p c o16).InForm := h.fieldOutputs

theorem State.InForm.sendUpdate {c : FieldCmd} {f : Field} {x} (h : s.InForm) : (s.sendUpdate c f x).1.InForm := by
  unfold State.sendUpdate
  extract_lets
  split
  · exact h
  · split
    · exact h
    · split
      · next hx =>
        exact h.rmw.of_snd hx
      · next hx =>
        exact h.rmw.of_snd hx

theorem Env.InForm.endField {p : Pending} {c : FieldCmd} (h : e.InForm) : (e.endField p c).InForm := Env.InForm.deferLanes (by exact h)

theorem Env.InForm.performHgs {p : Pending} {c : FieldCmd} {i16} (h : e.InForm) : (e.performHgs p c i16).InForm := by
  unfold Env.performHgs
  extract_lets
  split
  next hx =>
    extract_lets e1
    have he1 : e1.InForm := h.reload ((h.commit.foldl_fst fun _ _ h2 => h2.sendUpdate).of_fst hx)
    exact Env.InForm.endField (by exact he1)

theorem State.InForm.foldOne {c : FieldCmd} {f : Field} {k} (h : s.InForm) : (s.foldOne c f k).1.InForm := by
  unfold State.foldOne
  extract_lets
  split
  next word s1 c1 hread =>
    have hs1 : s1.InForm := by
      split at hread
      · cases hread
        exact h
      · split at hread
        · cases hread
          exact h
        · split at hread
          · cases hread
            exact h
          · cases hread
            split
            · exact h.homeWrite
            · exact h
    split
    · exact hs1
    · extract_lets
      split
      · exact hs1
      · split
        · exact hs1
        · extract_lets
          split
          · exact hs1
          · exact hs1.homeWrite

theorem Env.InForm.performHgfold {p : Pending} {c : FieldCmd} (h : e.InForm) : (e.performHgfold p c).InForm := by
  unfold Env.performHgfold
  extract_lets f n
  split
  next s1 c1 hrun =>
    have hs1 : s1.InForm := State.InForm.of_fst (State.InForm.foldl_fst h.commit fun _ _ hs => hs.foldOne) hrun
    extract_lets e1 _ e2
    have he1 : e1.InForm := h.reload hs1
    have he2 : e2.InForm := by
      unfold e2
      split <;> exact he1
    exact he2.endField

theorem Env.InForm.performTex {p : Pending} {c : FieldCmd} (h : e.InForm) : (e.performTex p c).InForm := h.fieldOutputs

theorem Env.InForm.performMarch {p : Pending} {c : FieldCmd} (h : e.InForm) : (e.performMarch p c).InForm := h.fieldOutputs

theorem Env.InForm.performGiven {p : Pending} {c : FieldCmd} {n} (h : e.InForm) : (e.performGiven p c n).InForm := h.putRun.endField

theorem Env.InForm.performField {p : Pending} (h : e.InForm) : (e.performField p).InForm := by
  unfold Env.performField
  split
  · split
    · exact h.performHgf
    · extract_lets _ e1
      have he1 : e1.InForm := h.foldl fun _ _ he => by
          split
          · split
            · exact he.performHgs
            · exact he
          · exact he
      exact he1.performHgs
    · exact h.performHgfold
    · exact h.performMarch
    · exact h.performTex
    · exact h.performGiven
  · exact h

theorem Env.InForm.partField {id i} (h : e.InForm) : (e.partField id i).InForm := by
  unfold Env.partField
  split
  · exact h
  · extract_lets keep
    have hkeep (t : State) (ht : t.InForm) (c : FieldCmd) : (keep (e.reload t) c).InForm := h.reload ht
    split
    · extract_lets
      split
      · split
        · split <;> exact h
        · exact h
      · split
        · exact h
        · extract_lets
          split
          · exact h
          · exact hkeep _ h.commit.sendUpdate _
      · split
        · exact hkeep _ h.commit.foldOne _
        · exact h
      · exact h
    · exact h

/-! ### Rays -/

theorem Env.InForm.traverse {lane} (h : e.InForm) : (e.traverse lane).InForm := by
  unfold Env.traverse
  extract_lets _ op _ e1 _ _ e2 e3
  have he1 : e1.InForm := h
  have he2 : e2.InForm := he1
  have he3 : e3.InForm := by
    unfold e3
    split
    · exact he2.via fun _ hs => hs.consumeUe
    · exact he2
  split
  · exact h
  · split
    · exact he1.via fun _ hs => hs.missOn
    · clear_value op
      split
      · exact he1
      · split
        · split
          · exact he3.putRun
          · exact he3
        · exact he3

theorem Env.InForm.settleTrace {p : Pending} (h : e.InForm) : (e.settleTrace p).InForm := by
  unfold Env.settleTrace
  split
  · split <;> exact h
  · exact h

/-! ### The Swage engine -/

theorem Swage.Canonical.setBank {w : Swage} {b : Bank} {one} (h : w.Canonical) : (w.setBank one b).Canonical := by
  unfold Swage.setBank
  split <;> exact h

theorem Tile.InForm.zero {t : Tile} (h : t.InForm) : t.zero.InForm := by
  unfold Tile.zero
  extract_lets t1
  have ht1 : t1.InForm := h.foldl fun _ _ ht => ht.foldl fun _ _ ht2 => ht2.setBits
  split
  · exact ht1.foldl fun _ _ ht => ht.foldl fun _ _ ht2 => ht2.setScale
  · exact ht1

theorem Env.InForm.swage (h : e.InForm) : e.swage.Canonical := h.machine.core.swage

theorem Env.InForm.setSwage {w : Swage} (h : e.InForm) (hw : w.Canonical) : (e.setSwage w).InForm :=
  ⟨h.machine.modCore fun _ hco => ⟨⟨hco.wbuf, hco.abuf, hco.cbuf⟩, hw⟩, h.crew⟩

theorem Env.InForm.swFresh {whole} (h : e.InForm) : (e.swFresh whole).InForm := by
  unfold Env.swFresh
  split <;> exact h

theorem Env.InForm.swWritten {tn missing} (h : e.InForm) : (e.swWritten tn missing).InForm := h.swFresh

theorem Env.InForm.swKey {lane} (h : e.InForm) : (e.swKey lane).2.InForm := by
  unfold Env.swKey
  extract_lets
  exact h

theorem State.InForm.readySigners {ss} (h : s.InForm) : (s.readySigners ss).InForm := h.foldl fun _ _ hs => hs.modStrand

theorem Env.InForm.performShare {p : Pending} (h : e.InForm) : (e.performShare p).InForm := by
  unfold Env.performShare
  split
  · split <;> exact h
  · exact h.puts
  · exact h

theorem Env.InForm.performSwage {p : Pending} (h : e.InForm) : (e.performSwage p).InForm := by
  unfold Env.performSwage
  split
  · refine Env.InForm.performShare ?_
    exact h.via fun _ hs => hs.foldl fun _ _ hs2 => by
      split
      · next he2 =>
        split
        · exact (hs2.env he2).performShare.commit
        · exact hs2
      · exact hs2
  · exact h.performShare

/-! ### The stream engine -/

theorem State.InForm.modSlot {k f g} (h : s.InForm) : (s.modSlot k f g).InForm := h.modSession

theorem State.InForm.engineWrite {ctx pa bs} (h : s.InForm) : (s.engineWrite ctx pa bs).InForm := h.homeWrite

theorem State.InForm.writeFilled {k f} (h : s.InForm) : (s.writeFilled k f).InForm := h.engineWrite

theorem State.InForm.setTimes {k f cap pres} (h : s.InForm) : (s.setTimes k f cap pres).InForm := by
  unfold State.setTimes
  extract_lets s1
  have hs1 : s1.InForm := h.modSession
  split
  · exact hs1.engineWrite
  · exact hs1

theorem State.InForm.writeObject {k f t} (h : s.InForm) : (s.writeObject k f t).InForm := h.engineWrite.engineWrite

theorem State.InForm.setFrameState {k f st t} (h : s.InForm) : (s.setFrameState k f st t).InForm := by
  unfold State.setFrameState
  split
  · exact h
  · exact h.modSlot.writeObject

theorem State.InForm.claimSlot {k f t} (h : s.InForm) : (s.claimSlot k f t).InForm := h.modSlot.modSession.writeObject

theorem State.InForm.sendClaim {k f} (h : s.InForm) : (s.sendClaim k f).InForm := by
  unfold State.sendClaim
  split
  · exact h.claimSlot
  · exact h

theorem Env.InForm.deliver {ps} (h : e.InForm) : (e.deliver ps).InForm := by
  unfold Env.deliver
  split
  · exact h.puts
  · exact h

theorem Env.InForm.deferGroups {p : Pending} {lanes pas} (h : e.InForm) : (e.deferGroups p lanes pas).InForm := by
  unfold Env.deferGroups
  split
  · exact h
  · exact h.via fun _ hs => hs.consumeUes

theorem Env.InForm.finish {id} (h : e.InForm) : (e.finish id).InForm := by
  unfold Env.finish
  split <;> exact h

theorem Env.InForm.performSrd {p : Pending} {k f y vd pd cv mask px} (h : e.InForm) : (e.performSrd p k f y vd pd cv mask px).InForm := by
  unfold Env.performSrd
  extract_lets _ _ _ _ _ _ _ _ _ e1 e2
  have he1 : e1.InForm := h.deliver
  have he2 : e2.InForm := he1
  split
  · exact h.finish
  · split
    · exact h
    · split
      · exact he2
      · exact he2.deferGroups.finish

theorem Env.InForm.crewSwage {w : Swage} (h : e.InForm) (hw : e.crewSwage = some w) : w.Canonical := by
  unfold Env.crewSwage at hw
  split at hw
  · split at hw
    · cases hw
      exact h.swage
    · cases hw
  · exact h.crew w hw

theorem Env.InForm.setCrewSwage {w : Swage} (h : e.InForm) (hw : w.Canonical) : (e.setCrewSwage w).InForm := by
  unfold Env.setCrewSwage
  split
  · exact h.setSwage hw
  · exact ⟨h.machine, Crew.inForm_of_some rfl hw⟩

theorem Env.InForm.performSrdt {p : Pending} {k f tile pd mask x0 y0 ch} (h : e.InForm) :
    (e.performSrdt p k f tile pd mask x0 y0 ch).InForm := by
  unfold Env.performSrdt
  extract_lets _ d gp inside
  split
  · exact h.finish
  · next w hw =>
    have hw' : w.Canonical := h.crewSwage hw
    extract_lets td _ _ _ _ fm cells td' bad filled e1 e2 lost e3
    split
    · exact h.finish
    · split
      · exact h
      · have htd : td'.InForm := Tile.InForm.foldl hw'.tile fun t x ht => by
          split
          · split
            · exact ht.setBits
            · exact ht
          · exact ht.setBits
        have he1 : e1.InForm := h.setCrewSwage (hw'.setTile htd)
        have he2 : e2.InForm := he1
        have he3 : e3.InForm := by
          unfold e3
          split
          · exact he2.swWritten
          · exact he2
        exact he3.deferGroups.finish

theorem State.InForm.writePixels {k f y cv mask px data} (h : s.InForm) : (s.writePixels k f y cv mask px data).1.InForm := by
  unfold State.writePixels
  extract_lets
  exact h.foldl_fst fun _ _ h2 => by
    split
    extract_lets
    split
    · exact h2
    · exact h2.engineWrite

theorem Env.InForm.performSwr {p : Pending} {k f y cv mask px data} (h : e.InForm) : (e.performSwr p k f y cv mask px data).InForm := by
  unfold Env.performSwr
  extract_lets _ s1
  have hs1 : s1.InForm := h.commit.sendClaim
  split
  · exact h.finish
  · split
    · exact h
    · split
      next hx =>
        extract_lets s3
        have hs3 : s3.InForm := by
          unfold s3
          split
          · exact (hs1.writePixels.of_fst hx).setFrameState
          · exact hs1.writePixels.of_fst hx
        exact (h.reload hs3).deferGroups.finish

theorem Env.InForm.performFlush {p : Pending} {b k f lines whole} (h : e.InForm) : (e.performFlush p b k f lines whole).InForm := by
  unfold Env.performFlush
  extract_lets _ s1 _ s2 s3 s4
  have hs1 : s1.InForm := h.commit.sendClaim
  have hs2 : s2.InForm := hs1.modSlot
  have hs3 : s3.InForm := by
    unfold s3
    split
    · exact hs2.setFrameState
    · exact hs2
  have hs4 : s4.InForm := by
    unfold s4
    split
    · exact hs3.modCrew fun _ hc => hc
    · exact hs3
  split
  · exact h.finish
  · split
    · exact h.reload hs1
    · exact (h.reload hs4).finish

theorem Env.InForm.performStream {p : Pending} (h : e.InForm) : (e.performStream p).InForm := by
  unfold Env.performStream
  split
  · exact h.performSrd
  · exact h.performSrdt
  · exact h.performSwr
  · exact h.performFlush
  · exact h

theorem State.InForm.performSwrs {xs} (h : s.InForm) : (s.performSwrs xs).InForm := h.foldl fun _ _ hs => by
    split
    · exact hs
    · next he =>
      split
      · exact (hs.env he).performStream.commit
      · exact hs

/-! ### Operations performed -/

theorem Env.InForm.performPgreq {p : Pending} {vd mask pages refused} (h : e.InForm) :
    (e.performPgreq p vd mask pages refused).InForm := by
  unfold Env.performPgreq
  split
  · exact h
  · exact h.puts

theorem Env.InForm.performPfetch {p : Pending} {lines l1} (h : e.InForm) : (e.performPfetch p lines l1).InForm := by
  unfold Env.performPfetch
  extract_lets _ s1
  have hs1 : s1.InForm := by
    unfold s1
    split
    · exact h.machine.foldl fun _ _ hs => hs.fillLine
    · exact h.machine
  exact ⟨hs1, h.crew⟩

theorem Env.InForm.performTrace {p : Pending} (h : e.InForm) : (e.performTrace p).InForm := by
  unfold Env.performTrace
  split
  · exact Env.InForm.settleTrace (h.foldl fun _ _ he => he.traverse)
  · exact h

theorem Env.InForm.performAny {p : Pending} (h : e.InForm) : (e.performAny p).InForm := by
  unfold Env.performAny
  split
  · exact h
  · split
    · exact h.performCopy
    · exact h.performPgreq
    · exact h.performPfetch
    · exact h.performSwage
    · exact h.performSwage
    · exact h.performField
    · exact h.performTrace
    · exact h.performStream
    · extract_lets e1
      have he1 : e1.InForm := h.foldl fun _ _ he => he.performStream
      split
      · exact he1
      · exact he1.performStream
    · extract_lets e1
      have he1 : e1.InForm := h.via fun _ hs => hs.performSwrs
      split
      · exact he1.performStream
      · exact he1
    · exact Env.InForm.performStream (h.via fun _ hs => hs.foldl fun _ _ hs2 => hs2.performSwrs)
    · exact h
    · exact h
    · exact h
    · exact h.performOp

theorem State.InForm.partAccess {crew strand op i} (h : s.InForm) : (s.partAccess crew strand op i).InForm := by
  unfold State.partAccess
  split
  · next he =>
    exact (h.env he).partOp.partField.commit
  · exact h

theorem Env.InForm.settle {want} (h : e.InForm) : (e.settle want).InForm := h.foldl fun _ _ he => by
    split
    · exact he.performAny
    · exact he

theorem State.InForm.settleStrand {crew strand want} (h : s.InForm) : (s.settleStrand crew strand want).InForm := by
  unfold State.settleStrand
  split
  · next he =>
    exact (h.env he).settle.commit
  · exact h

theorem State.InForm.settleCrew {crew want} (h : s.InForm) : (s.settleCrew crew want).InForm := by
  unfold State.settleCrew
  split
  · exact h
  · exact h.foldl fun _ _ hs => hs.settleStrand

theorem State.InForm.settleAccesses {cores ctx} (h : s.InForm) : (s.settleAccesses cores ctx).InForm :=
  h.foldl fun _ _ hs => hs.settleCrew

theorem State.InForm.reissueWaita {cores ctx p} (h : s.InForm) : (s.reissueWaita cores ctx p).InForm :=
  ⟨h.mem, h.cores, h.crews.map fun _ hc => Crew.InForm.ite (by exact hc) hc, h.dev⟩

theorem State.InForm.invalidatePage {ctx va} (h : s.InForm) : (s.invalidatePage ctx va).InForm :=
  h.settleAccesses.invalidate.retranslateDeps.reissueWaita

theorem State.InForm.refusePage {ctx page} (h : s.InForm) : (s.refusePage ctx page).InForm :=
  ⟨h.mem, h.cores, h.crews.map fun _ hc => hc.ite (by exact hc), h.dev⟩

theorem State.InForm.settlePgreqs {ctx} (h : s.InForm) : (s.settlePgreqs ctx).InForm := h.foldl fun _ _ hs => hs.settleCrew

theorem State.InForm.serveResidency {ctx} (h : s.InForm) : (s.serveResidency ctx).InForm := h.foldl fun _ _ hs => by
    split
    · exact hs
    · extract_lets s1 s2
      have hs1 : s1.InForm := hs.invalidatePage
      have hs2 : s2.InForm := by
        unfold s2
        split
        · exact hs1.refusePage
        · exact hs1
      exact hs2.modCtx.settlePgreqs

theorem State.InForm.serveAllResidency (h : s.InForm) : s.serveAllResidency.InForm := by
  unfold State.serveAllResidency
  split
  · exact h
  · exact h.foldl fun _ _ hs => hs.serveResidency

/-! ### Placing crews -/

theorem State.InForm.walkerCrew {core} : (s.walkerCrew core).InForm := Crew.inForm_of_none rfl

theorem State.InForm.bringWalker {core ctx} (h : s.InForm) : (s.bringWalker core ctx).InForm := by
  unfold State.bringWalker
  split
  · exact ⟨h.mem, h.cores, h.crews.append State.InForm.walkerCrew, h.dev⟩
  · exact h

theorem State.InForm.clearClaim {sp : Space} {cl : Claim} {core} (h : s.InForm) : (s.clearClaim core sp cl).InForm := by
  unfold State.clearClaim
  extract_lets _ s1
  have hs1 : s1.InForm := h.modCore fun _ hco => hco.setBuf (Memory.clear_wf _ _ hco.buf)
  split <;> exact hs1

theorem State.InForm.takeClaims {core w a c} (h : s.InForm) : (s.takeClaims core w a c).2.2.2.InForm := by
  unfold State.takeClaims
  extract_lets
  exact h.clearClaim.clearClaim.clearClaim

theorem State.InForm.afterArrive {core ctx} (h : s.InForm) : (s.afterArrive core ctx).InForm :=
  h.trimL1.fitEmergency.bringWalker.acquireL1.serveGrowth

theorem State.InForm.enterCrew {l : Launch} {gang idx gangSize fall stage core dispSlot} (h : s.InForm) :
    (s.enterCrew l gang idx gangSize fall stage core dispSlot).InForm := by
  unfold State.enterCrew
  extract_lets p
  split
  next w a c s1 htake =>
    have hs1 : s1.InForm := by
      have hclaims := h.takeClaims (core := core) (w := p.wbuf * 1024) (a := p.abuf * 1024) (c := p.cbuf * 1024)
      rwa [htake] at hclaims
    extract_lets
    split
    next nm strands hplace =>
      extract_lets crew s2 _ s3
      have hs2 : s2.InForm := hs1.modCore fun _ hco => hco
      have hcrew : crew.InForm := Crew.inForm_of_none rfl
      clear_value s2 crew
      have hs3 : s3.InForm := ⟨hs2.mem, hs2.cores, hs2.crews.append hcrew, hs2.dev⟩
      exact hs3.afterArrive

theorem State.InForm.placeUnitAt {l : Launch} {u : Unit4} (h : s.InForm) : (s.placeUnitAt l u).InForm := by
  unfold State.placeUnitAt
  extract_lets s1 _ _ s2
  have hs1 : s1.InForm := by
    unfold s1
    split <;> exact h.foldl fun _ _ hs => hs.enterCrew
  have hs2 : s2.InForm := hs1.modLaunch
  split <;> exact hs2

/-! ### Preemption, saving and restoring -/

theorem saveTile_wf {m : Memory} {x : Tile} {base t} (h : m.wf = true) (hx : x.InForm) : (saveTile m base t x).wf = true := by
  unfold saveTile
  extract_lets m1
  have hm1 : m1.wf = true := Memory.splice_wf _ _ h (Memory.slice_wf _ _ hx.data)
  split
  · exact Memory.foldl_wf hm1 fun _ _ hm => Memory.foldl_wf hm fun _ _ hm => Memory.writeByte_wf _ _ hm
  · exact hm1

theorem loadTile_inForm {m : Memory} {x : Tile} {base t} (h : m.wf = true) (hx : x.InForm) : (loadTile m base t x).InForm := by
  unfold loadTile
  extract_lets x1
  have hy : x1.InForm := ⟨Memory.splice_wf _ _ hx.data (Memory.slice_wf _ _ h), hx.scale⟩
  split
  · exact hy.foldl fun _ _ ht => ht.foldl fun _ _ ht2 => ht2.setScale
  · exact hy

theorem saveBank_wf {m : Memory} {b : Bank} {a} (h : m.wf = true) : (saveBank m a b).wf = true :=
  Memory.foldl_wf (Memory.clear_wf _ _ h) fun _ _ hm => Memory.writeBytes_wf _ _ hm

theorem saveSwage_wf {m : Memory} {base} {w : Swage} (h : m.wf = true) (hw : w.Canonical) : (saveSwage m base w).wf = true := by
  have hm1 : Memory.wf (w.tiles.zipIdx.foldl (fun m p => saveTile m base p.2 p.1) m) = true :=
    w.tiles.zipIdx.foldlRecOn (motive := fun m => Memory.wf m = true) _ h fun _ hm p hp =>
      saveTile_wf hm (hw.of_mem_zipIdx hp)
  exact saveBank_wf (saveBank_wf hm1)

theorem loadSwage_inForm {m : Memory} {base} {w : Swage} (h : m.wf = true) (hw : w.Canonical) : (loadSwage m base w).Canonical :=
  hw.zipIdx_map (fun _ _ ht => loadTile_inForm h ht) rfl

theorem State.InForm.putImage {m : Memory} {rs} (h : s.InForm) (hm : m.wf = true) : (s.putImage m rs).InForm := by
  unfold State.putImage
  extract_lets _ _ m1
  have hm1 : m1.wf = true := Memory.foldl_wf hm fun _ _ hm => Memory.splice_wf _ _ hm (Memory.slice_wf _ _ h.mem)
  exact State.InForm.foldl ⟨hm1, h.cores, h.crews, h.dev⟩ fun _ _ hs => hs.markDirty

theorem State.InForm.writeSwage {w : Swage} {base} (h : s.InForm) (hw : w.Canonical) : (s.writeSwage base w).InForm :=
  h.putImage (saveSwage_wf h.mem hw)

theorem State.InForm.writeClaim {sp : Space} (h : s.InForm) : (s.writeClaim c sp).InForm :=
  h.putImage (Memory.splice_wf _ _ h.mem (Memory.slice_wf _ _ h.core.buf))

theorem State.InForm.saveImage (h : s.InForm) (hc : c.InForm) : (s.saveImage c).InForm := by
  unfold State.saveImage
  extract_lets s1 s2 s3
  have hs1 : s1.InForm := h.device
  have hs2 : s2.InForm := hs1.foldl fun _ _ hs => hs.writeStrandRec
  have hs3 : s3.InForm := hs2.foldl fun _ _ hs => hs.writeClaim
  split
  · next hw =>
    exact hs3.writeSwage (hc.kept hw)
  · exact hs3

theorem State.InForm.resave {crew strand} (h : s.InForm) : (s.resave crew strand).InForm := by
  unfold State.resave
  split
  · next he =>
    split
    · extract_lets s1
      have hs1 : s1.InForm := h.device.writeStrandRec
      split
      · next hw =>
        exact hs1.writeSwage ((h.env he).crew.kept hw)
      · exact hs1
    · exact h
  · exact h

theorem State.InForm.chargeCrew (h : s.InForm) : (s.chargeCrew c).InForm := by
  unfold State.chargeCrew
  split
  · exact h.modLaunch
  · exact h

theorem State.InForm.forgetWalks {id} (h : s.InForm) : (s.forgetWalks id).InForm := by
  unfold State.forgetWalks
  split
  · exact h
  · exact h.modCore fun _ hco => hco

theorem State.InForm.saveCrew {id} (h : s.InForm) : (s.saveCrew id).InForm := by
  unfold State.saveCrew
  split
  · exact h
  · next c0 hc0 =>
    extract_lets stop co w s0 c s1 s2 held s3
    have hs0 : s0.InForm := h.modCrew fun _ _ v hv => h.core.kept hv
    have hc : c.InForm := by
      unfold c
      cases hcrew : s0.crew? id with
      | none => exact h.crew hc0
      | some k => exact hs0.crew hcrew
    have hs1 : s1.InForm := (hs0.saveImage hc).chargeCrew
    have hs2 : s2.InForm := hs1.releaseCrew.forgetWalks
    have hs3 : s3.InForm := hs2.modCrew fun _ hc => hc
    exact hs3.modCtx.afterLeave

theorem State.InForm.disown {crew} (h : s.InForm) : (s.disown crew).InForm := h

theorem State.InForm.quenchCrew {id} (h : s.InForm) : (s.quenchCrew id).InForm := by
  unfold State.quenchCrew
  split
  · exact h
  · extract_lets s1 s2
    have hs1 : s1.InForm := h.chargeCrew.releaseCrew.disown.forgetWalks
    have hs2 : s2.InForm := hs1.modCrew fun _ _ => Crew.inForm_of_none rfl
    exact hs2.modCtx.afterLeave

theorem State.InForm.takeOff {save seq gang stage} {t : State} (h : s.InForm) (ht : s.takeOff save seq gang stage = some t) :
    t.InForm := by
  unfold State.takeOff at ht
  extract_lets l cs q want s1 left at ht
  have hs1 : s1.InForm := h.foldl fun _ _ hs => hs.settleCrew
  split at ht
  · cases ht
  · cases ht
    exact hs1.foldl fun _ _ hs => by
      split
      · exact hs.quenchCrew
      · exact hs.saveCrew

theorem State.InForm.freshGen {core xpat xtab} (h : s.InForm) : (s.freshGen core xpat xtab).2.InForm := by
  unfold State.freshGen
  split
  · exact h
  · exact h.modCore fun _ hco => hco

theorem State.InForm.swageWritten {core} (h : s.InForm) : (s.swageWritten core).InForm := by
  unfold State.swageWritten
  split <;> exact h

theorem State.InForm.slotMem (h : s.InForm) : (s.slotMem c).wf = true := by
  unfold State.slotMem
  extract_lets
  split
  · exact h.mem
  · exact Memory.foldl_wf h.mem fun _ _ hm => Memory.clear_wf _ _ hm

theorem State.InForm.restartCrew {id core} (h : s.InForm) : (s.restartCrew id core).InForm := by
  unfold State.restartCrew
  split
  · exact h
  · next c hc =>
    split
    · exact h
    · extract_lets r
      clear_value r
      split
      next w a cb s1 htake =>
        have hs1 : s1.InForm := by
          have hclaims := h.takeClaims (core := core) (w := c.wclaim.size) (a := c.aclaim.size) (c := c.cclaim.size)
          rwa [htake] at hclaims
        extract_lets _ raw
        clear_value raw
        split
        next nm strands hplace =>
          extract_lets s2
          have hs2 : s2.InForm := hs1.modCore fun _ hco => hco
          clear_value s2
          split
          next g s3 hgen =>
            have hs3 : s3.InForm := hs2.freshGen.of_snd hgen
            extract_lets s4 s5
            have hs4 : s4.InForm := by
              unfold s4
              split
              · exact hs3.swageWritten.modCore fun _ hco => ⟨hco.1, Swage.fresh_canonical⟩
              · exact hs3
            have hs5 : s5.InForm := hs4.modCrew fun _ hc => hc
            exact hs5.afterArrive

theorem State.InForm.recheckWaits {id} (h : s.InForm) : (s.recheckWaits id).InForm := by
  unfold State.recheckWaits
  split
  · exact h
  · extract_lets s1
    have hs1 : s1.InForm := h.modCrew fun _ hc2 => hc2
    refine State.InForm.completeBarriers ?_
    exact hs1.foldl fun _ _ hs => hs.foldl fun _ _ hs2 => by
      split
      · split
        · exact hs2.modStrand
        · exact hs2.rereadWaita fun _ => by
            split
            · exact hs2.returnWaita
            · split
              · exact hs2.returnWaita
              · exact hs2.modStrand
      · exact hs2

theorem State.InForm.restoreCrew {id core} (h : s.InForm) : (s.restoreCrew id core).InForm := by
  unfold State.restoreCrew
  split
  · exact h
  · next c0 hc0 =>
    extract_lets m c b put
    have hput (t : State) (ht : t.InForm) (sp : Space) (cl : Claim) : (put t sp cl).InForm :=
      ht.modCore fun _ hco => hco.setBuf (Memory.splice_wf _ _ hco.buf (Memory.slice_wf _ _ h.slotMem))
    have hm : m.wf = true := h.slotMem
    have hc : c.InForm := (h.crew hc0).ofHeader
    clear_value put m c b
    split
    next w a cb s1 htake =>
      have hs1 : s1.InForm := by
        have hclaims := h.takeClaims (core := core) (w := c.wclaim.size) (a := c.aclaim.size) (c := c.cclaim.size)
        rwa [htake] at hclaims
      extract_lets s2 _ raw
      have hs2 : s2.InForm := hput _ (hput _ (hput _ hs1 _ _) _ _) _ _
      clear_value s2 raw
      split
      next nm strands hplace =>
        extract_lets s3
        have hs3 : s3.InForm := hs2.modCore fun _ hco => hco
        clear_value s3
        split
        next g s4 hgen =>
          have hs4 : s4.InForm := hs3.freshGen.of_snd hgen
          extract_lets s5 s6
          have hs5 : s5.InForm := by
            unfold s5
            split
            · next sw hsw => exact hs4.swageWritten.modCore fun _ hco => ⟨hco.1, loadSwage_inForm hm (hc.kept hsw)⟩
            · exact hs4
          have hs6 : s6.InForm := hs5.modCrew fun _ _ => Crew.inForm_of_none rfl
          exact hs6.afterArrive

theorem State.InForm.returnGang {cs cores} (h : s.InForm) : (s.returnGang cs cores).InForm := by
  unfold State.returnGang
  extract_lets s1
  have hs1 : s1.InForm := h.foldl fun _ _ hs => by
      split
      · exact hs.restoreCrew
      · exact hs.restartCrew
  exact hs1.foldl fun _ _ hs => hs.recheckWaits

theorem State.InForm.takeAll {save gs} {t : State} (h : s.InForm) (ht : s.takeAll save gs = some t) : t.InForm := by
  unfold State.takeAll at ht
  induction gs generalizing s with
  | nil =>
    cases ht
    exact h
  | cons g gs ih =>
    rw [List.foldl_cons] at ht
    dsimp only at ht
    cases hg : s.takeOff save g.1 g.2.1 g.2.2 with
    | none =>
      rw [hg, List.foldl_fixed'] at ht
      · cases ht
      · exact fun _ => rfl
    | some u =>
      rw [hg] at ht
      exact ih (h.takeOff hg) ht

theorem State.InForm.serveTaking {w : TakeFor} (h : s.InForm) : (s.serveTaking w).InForm := by
  unfold State.serveTaking
  split
  · exact h
  · split
    · split
      · exact h
      · split
        · exact h.placeUnitAt
        · exact h
    · exact h
  · split
    · split
      · exact h.returnGang
      · exact h
    · exact h

theorem State.InForm.tryTaking {k : Taking} (h : s.InForm) : (s.tryTaking k).InForm := by
  unfold State.tryTaking
  split
  · next st hst =>
    refine State.InForm.serveTaking ?_
    have hst' : st.InForm := h.takeAll hst
    exact hst'
  · exact h

theorem State.InForm.goOnTaking (h : s.InForm) : s.goOnTaking.InForm := h.foldl fun _ _ hs => hs.tryTaking

theorem State.InForm.startTaking {w : TakeFor} {gs save} (h : s.InForm) : (s.startTaking gs w save).InForm :=
  State.InForm.tryTaking ⟨h.mem, h.cores, h.crews.map fun _ hc => Crew.InForm.ite (by exact hc) hc, h.dev⟩

theorem State.InForm.restoreWaiting (h : s.InForm) : s.restoreWaiting.InForm := by
  unfold State.restoreWaiting
  extract_lets
  exact h.foldl fun _ _ hs => by
    split
    · exact hs.returnGang
    · exact hs

theorem State.InForm.bringBack (h : s.InForm) : s.bringBack.InForm := by
  unfold State.bringBack
  split
  · exact h.restoreWaiting
  · exact h

theorem State.InForm.markTopFrom {since} (h : s.InForm) : (s.markTopFrom since).InForm := by
  unfold State.markTopFrom
  split
  · split <;> exact h
  · exact h

theorem State.InForm.markTop (h : s.InForm) : s.markTop.InForm := h.markTopFrom

theorem State.InForm.endStrand {crew strand} (h : s.InForm) : (s.endStrand crew strand).InForm := by
  unfold State.endStrand
  extract_lets s1
  have hs1 : s1.InForm := h.settleStrand
  split
  · exact h
  · split
    · exact h
    · split
      · exact hs1
      · extract_lets _ s2 s3
        have hs2 : s2.InForm := by
          unfold s2
          split
          · exact hs1.giveBack.modCore fun _ hco => hco
          · exact hs1
        have hs3 : s3.InForm := hs2.modStrand
        split
        · exact hs3.chargeCrew.endCrew
        · exact hs3.serveGrowth

theorem State.InForm.cutCrew {id} (h : s.InForm) : (s.cutCrew id).InForm := by
  unfold State.cutCrew
  split
  · exact h
  · split
    · exact h
    · exact h.endCrew
    · exact State.InForm.completeBarriers (State.InForm.foldl (h.modCrew fun _ hc2 => hc2) fun _ _ hs => hs.endStrand)

/-! ### Traps, faults and resets -/

theorem State.InForm.takeSeq (h : s.InForm) : s.takeSeq.2.InForm := h

theorem State.InForm.faultBytes {ctx b} (h : s.InForm) : (s.faultBytes ctx b).InForm := by
  unfold State.faultBytes
  split
  next hx =>
    split
    · exact h.takeSeq.of_snd hx
    · extract_lets
      split
      · exact (h.takeSeq.of_snd hx).writeCompletion
      · exact h.takeSeq.of_snd hx

theorem State.InForm.faultRing {q fuel} (h : s.InForm) : (s.faultRing q fuel).InForm := by
  induction fuel generalizing s with
  | zero => exact h
  | succ n ih =>
    unfold State.faultRing
    extract_lets _ s1
    have hs1 : s1.InForm := h.faultBytes
    split
    · exact h
    · exact ih hs1.modQueue

theorem State.InForm.faultPackets {x} (h : s.InForm) : (s.faultPackets x).InForm := by
  unfold State.faultPackets
  extract_lets s1 qs s2 s3
  have hs1 : s1.InForm := h.foldl fun _ _ hs => hs.complete
  have hs2 : s2.InForm := hs1.foldl fun _ _ hs => hs.faultRing
  have hs3 : s3.InForm := hs2.foldl fun _ _ hs => hs.faultBytes
  exact hs3.modCtx

theorem State.InForm.dropWalks {core x} (h : s.InForm) : (s.dropWalks core x).InForm := by
  unfold State.dropWalks
  extract_lets co _ _ s1
  have hco : co.InForm := h.core
  have hs1 : s1.InForm := h.setCore (by exact hco)
  exact State.InForm.emptyLast (hs1.foldl fun _ _ hs => hs.endWalk)

theorem State.InForm.contextReset {x} (h : s.InForm) : (s.contextReset x).InForm := by
  unfold State.contextReset
  extract_lets _ s1 s2 s3 _ s4 s5 s6 s7 s8 s9
  have hs1 : s1.InForm := h.foldl fun _ _ hs => hs.settleCrew
  have hs2 : s2.InForm := hs1.foldl fun _ _ hs => hs.dropWalks
  have hs3 : s3.InForm := hs2.foldl fun _ _ hs => hs.endCrew
  have hs4 : s4.InForm := hs3.foldl fun _ _ hs => hs.endProg
  have hs5 : s5.InForm := hs4.modCtx
  have hs6 : s6.InForm := hs5
  have hs7 : s7.InForm := hs6.foldl fun _ _ hs => by
    split
    · exact hs.closeSession
    · exact hs
  have hs8 : s8.InForm := hs7.faultPackets
  clear_value s8
  have hs9 : s9.InForm := ⟨hs8.mem, hs8.cores, hs8.crews.filter, hs8.dev⟩
  exact hs9.modCtx.markTop

theorem State.InForm.fatalEvent {i : ErrInfo} {x} (h : s.InForm) : (s.fatalEvent x i).InForm := by
  unfold State.fatalEvent
  extract_lets s1
  have hs1 : s1.InForm := h.recordError
  split
  · exact hs1
  · split
    · exact hs1.modCtx.markTop
    · exact hs1.contextReset

/-! ### Strands, turns and waits -/

theorem Env.InForm.walkFault (h : e.InForm) : e.walkFault.InForm := by
  unfold Env.walkFault
  extract_lets s
  have hs : s.InForm := h.commit
  split
  · exact hs
  · exact State.InForm.recordError (State.InForm.endWalk (hs.modCore fun _ hco => hco))

theorem Env.InForm.enterTrap {ti : TrapInfo} {part src} (h : e.InForm) : (e.enterTrap ti part src).InForm := h.drainMem

theorem Env.InForm.takeTrap {ti : TrapInfo} {part src} (h : e.InForm) : (e.takeTrap ti part src).InForm := by
  unfold Env.takeTrap
  extract_lets e1
  have he1 : e1.InForm := h
  split
  · exact he1.walkFault
  · split
    · exact he1.enterTrap.commit
    · exact he1.commit.fatalEvent

theorem Env.InForm.takeDeferred (h : e.InForm) : e.takeDeferred.InForm := by
  unfold Env.takeDeferred
  split
  · exact h.commit
  · exact Env.InForm.takeTrap (by exact h)

theorem Env.InForm.yieldGroup (h : e.InForm) : e.yieldGroup.InForm := by
  unfold Env.yieldGroup
  split <;> exact h

theorem Env.InForm.yieldAfter {old} (h : e.InForm) : (e.yieldAfter old).InForm := by
  unfold Env.yieldAfter
  split
  · exact h
  · exact h.yieldGroup

theorem Env.InForm.endUnit {moved} (h : e.InForm) : (e.endUnit moved).InForm := by
  unfold Env.endUnit
  split
  · exact h
  · extract_lets _ _ _ _ e1
    have he1 : e1.InForm := h
    split
    · exact he1.yieldAfter
    · exact he1

theorem Env.InForm.endPrefix {u : UnitSt} (h : e.InForm) : (e.endPrefix u).InForm := h

/-! ### Flags -/

theorem Env.InForm.orFlags {f} (h : e.InForm) : (e.orFlags f).InForm := h

theorem Env.InForm.tookDraws {m n} (h : e.InForm) : (e.tookDraws m n).InForm := by
  unfold Env.tookDraws
  split <;> exact h

/-! ### Operands, guards and the end of an issue -/

theorem Env.InForm.ofWalk (h : e.InForm) : e.ofWalk.InForm := by
  unfold Env.ofWalk
  split
  · split <;> exact h
  · exact h

theorem State.InForm.issuer (h : s.InForm) (he : s.issuer = some e) : e.InForm := by
  unfold State.issuer at he
  split at he
  · next hi =>
    split at he
    · cases he
      exact (h.env hi).ofWalk
    · cases he
  · cases he

theorem Req.ready_inForm {r : Req} (h : e.InForm) : (r.ready e).InForm := by
  unfold Req.ready
  split
  · exact h.settle
  · exact h

theorem Env.InForm.illegal (h : e.InForm) : e.illegal.InForm := h

theorem Req.refuse_inForm {r : Req} (h : e.InForm) : (r.refuse e).InForm := h

theorem Req.guardReady_inForm {r : Req} (h : e.InForm) : (r.guardReady e).InForm := by
  unfold Req.guardReady
  split
  · exact h.settle
  · exact h

theorem Req.awaitGuard_inForm {r : Req} {go} (h : e.InForm) (hgo : ∀ (e : Env), e.InForm → (go e).InForm) :
    (r.awaitGuard e go).InForm := by
  unfold Req.awaitGuard
  split
  · exact Req.guardReady_inForm h
  · exact hgo _ (Req.guardReady_inForm h)

theorem Req.gather_ok {r : Req} {e1 : Env} (h : e.InForm) (hg : r.gather e = .ok e1) : e1.InForm := by
  unfold Req.gather at hg
  extract_lets e2 at hg
  have he2 : e2.InForm := Req.ready_inForm h
  split at hg
  · cases hg
  · split at hg
    · cases hg
    · injection hg with heq
      exact heq ▸ he2

theorem Req.gather_error {r : Req} {x : Res} (h : e.InForm) (hg : r.gather e = .error x) : x.InForm := by
  unfold Req.gather at hg
  extract_lets e2 at hg
  have he2 : e2.InForm := Req.ready_inForm h
  split at hg
  · cases hg
    exact he2
  · split at hg
    · cases hg
      exact he2.via fun _ hs => hs.consumeUe
    · cases hg

theorem Req.run_inForm {r : Req} {body} (h : e.InForm) (hbody : ∀ (e : Env) (x : Mask), e.InForm → (body e x).InForm) :
    (r.run e body).InForm :=
  Req.awaitGuard_inForm h fun _ he => by
    split
    · exact Req.refuse_inForm he
    · split
      · exact hbody _ _ he
      · split
        · next hx =>
          exact Req.gather_error he hx
        · next hx =>
          exact hbody _ _ (Req.gather_ok he hx)

theorem Res.InForm.finish {x : Res} (h : x.InForm) : x.finish.InForm := by
  cases x with
  | done e => exact Env.InForm.commit (Env.InForm.endUnit h)
  | moved e => exact Env.InForm.commit (Env.InForm.endUnit h)
  | ovr e => exact Env.InForm.commit h
  | hold e => exact Env.InForm.commit h
  | trap e t part => exact Env.InForm.takeTrap h

theorem Res.InForm.finishThen {x : Res} {after} (h : x.InForm) (hafter : ∀ (s : State), s.InForm → (after s).InForm) :
    (x.finishThen after).InForm := by
  unfold Res.finishThen
  split
  · exact hafter _ (Res.InForm.finish h)
  · exact hafter _ (Res.InForm.finish h)
  · exact hafter _ (Res.InForm.finish h)
  · exact Res.InForm.finish h
  · exact Res.InForm.finish h

theorem issueThen_inForm {r : Req} {after body} (h : ∀ (n : ℕ) (s : State), s.InForm → (after n s).InForm)
    (hbody : ∀ (e : Env) (x : Mask), e.InForm → (body e x).InForm) (hs : s.InForm) : Outcome.InForm (issueThen r after body s) := by
  unfold issueThen
  split
  · exact trivial
  · next he =>
    exact Res.InForm.finishThen (Req.run_inForm (hs.issuer he) fun _ _ he2 => hbody _ _ he2) fun _ hs2 => h _ _ hs2

theorem issue_inForm {r : Req} {body} (h : ∀ (e : Env) (x : Mask), e.InForm → (body e x).InForm) (hs : s.InForm) :
    Outcome.InForm (issue r body s) := by
  unfold issue
  exact issueThen_inForm (fun _ _ hs2 => hs2) (fun _ _ he => h _ _ he) hs

theorem Req.give_inForm {r : Req} {m eligible xgen flags ps} (h : e.InForm) : (r.give e m eligible xgen flags ps).InForm := by
  unfold Req.give
  extract_lets _ e1
  have he1 : e1.InForm := h.orFlags
  split
  · split
    · exact h.lookEmpty
    · exact h
  · split
    · exact he1.putKeyed
    · exact he1.puts

theorem Req.put_inForm {r : Req} {m ps} (h : e.InForm) : (r.put e m ps).InForm := Req.give_inForm h

theorem Env.InForm.putPred {m p f} (h : e.InForm) : (e.putPred m p f).InForm := h

theorem Env.InForm.makeRoom {k : Ctr} (h : e.InForm) : (e.makeRoom k).InForm := by
  unfold Env.makeRoom
  split
  · split
    · exact h.settle
    · exact h
  · exact h

theorem Env.InForm.start {k : Ctr} {kind : OpKind} {dsts pdst srcs} (h : e.InForm) : (e.start k dsts pdst kind srcs).InForm := by
  unfold Env.start
  extract_lets e1
  have he1 : e1.InForm := h.makeRoom
  split <;> exact he1

/-! ### Integer instructions -/

theorem Req.giveInt_inForm {r : Req} {tag : Tag} {m wide d f} (h : e.InForm) : (r.giveInt e m wide tag d f).InForm := Req.put_inForm h

theorem intArith_inForm {i d a b f g op wrapTag} (h : s.InForm) : Outcome.InForm (intArith i d a b f g op wrapTag s) := by
  unfold intArith
  exact issue_inForm (fun _ _ he => Req.giveInt_inForm he) h

theorem intBinary_inForm {i d a b wide g f} (h : s.InForm) : Outcome.InForm (intBinary i d a b wide g f s) := by
  unfold intBinary
  exact issue_inForm (fun _ _ he => Req.giveInt_inForm he) h

theorem intUnary_inForm {i d a g sat aff f} (h : s.InForm) : Outcome.InForm (intUnary i d a g sat aff f s) := by
  unfold intUnary
  exact issue_inForm (fun _ _ he => Req.put_inForm he) h

theorem intTernary_inForm {i d a b c sat f} (h : s.InForm) : Outcome.InForm (intTernary i d a b c sat f s) := by
  unfold intTernary
  exact issue_inForm (fun _ _ he => Req.put_inForm he) h

theorem execAdd_inForm {d a b f g} (h : s.InForm) : Outcome.InForm (execAdd d a b f g s) := by
  unfold execAdd
  exact intArith_inForm h

theorem execSub_inForm {d a b f g} (h : s.InForm) : Outcome.InForm (execSub d a b f g s) := by
  unfold execSub
  exact intArith_inForm h

theorem execMul_inForm {d a b f g} (h : s.InForm) : Outcome.InForm (execMul d a b f g s) := by
  unfold execMul
  exact intArith_inForm h

theorem execMulhi_inForm {d a b f g} (h : s.InForm) : Outcome.InForm (execMulhi d a b f g s) := by
  unfold execMulhi
  exact intBinary_inForm h

theorem execMad_inForm {d a b c} (h : s.InForm) : Outcome.InForm (execMad d a b c s) := by
  unfold execMad
  exact intTernary_inForm h

theorem execMin_inForm {d a b f g} (h : s.InForm) : Outcome.InForm (execMin d a b f g s) := by
  unfold execMin
  exact intBinary_inForm h

theorem execMax_inForm {d a b f g} (h : s.InForm) : Outcome.InForm (execMax d a b f g s) := by
  unfold execMax
  exact intBinary_inForm h

theorem execLea_inForm {d a b sh g} (h : s.InForm) : Outcome.InForm (execLea d a b sh g s) := by
  unfold execLea
  exact issue_inForm (fun _ _ he => Req.put_inForm he) h

theorem execAbs_inForm {d a g} (h : s.InForm) : Outcome.InForm (execAbs d a g s) := by
  unfold execAbs
  exact intUnary_inForm h

theorem execNeg_inForm {d a g} (h : s.InForm) : Outcome.InForm (execNeg d a g s) := by
  unfold execNeg
  exact intUnary_inForm h

theorem execNot_inForm {d a g} (h : s.InForm) : Outcome.InForm (execNot d a g s) := by
  unfold execNot
  exact intUnary_inForm h

theorem execClz_inForm {d a g} (h : s.InForm) : Outcome.InForm (execClz d a g s) := by
  unfold execClz
  exact intUnary_inForm h

theorem execPopc_inForm {d a g} (h : s.InForm) : Outcome.InForm (execPopc d a g s) := by
  unfold execPopc
  exact intUnary_inForm h

theorem execBrev_inForm {d a g} (h : s.InForm) : Outcome.InForm (execBrev d a g s) := by
  unfold execBrev
  exact intUnary_inForm h

theorem logicForm_inForm {i d a b w g f} (h : s.InForm) : Outcome.InForm (logicForm i d a b w g f s) := by
  unfold logicForm
  exact intBinary_inForm h

theorem execAnd_inForm {d a b w g} (h : s.InForm) : Outcome.InForm (execAnd d a b w g s) := by
  unfold execAnd
  exact logicForm_inForm h

theorem execOr_inForm {d a b w g} (h : s.InForm) : Outcome.InForm (execOr d a b w g s) := by
  unfold execOr
  exact logicForm_inForm h

theorem execXor_inForm {d a b w g} (h : s.InForm) : Outcome.InForm (execXor d a b w g s) := by
  unfold execXor
  exact logicForm_inForm h

theorem execAndn_inForm {d a b w g} (h : s.InForm) : Outcome.InForm (execAndn d a b w g s) := by
  unfold execAndn
  exact logicForm_inForm h

theorem shiftForm_inForm {i d a b g aff f} (h : s.InForm) : Outcome.InForm (shiftForm i d a b g aff f s) := by
  unfold shiftForm
  exact issue_inForm (fun _ _ he => Req.put_inForm he) h

theorem execShl_inForm {d a b g} (h : s.InForm) : Outcome.InForm (execShl d a b g s) := by
  unfold execShl
  exact shiftForm_inForm h

theorem execShr_inForm {d a b g} (h : s.InForm) : Outcome.InForm (execShr d a b g s) := by
  unfold execShr
  exact shiftForm_inForm h

theorem execSar_inForm {d a b g} (h : s.InForm) : Outcome.InForm (execSar d a b g s) := by
  unfold execSar
  exact shiftForm_inForm h

theorem execRot_inForm {d a b g} (h : s.InForm) : Outcome.InForm (execRot d a b g s) := by
  unfold execRot
  exact shiftForm_inForm h

theorem execBfe_inForm {d a b sx g} (h : s.InForm) : Outcome.InForm (execBfe d a b sx g s) := by
  unfold execBfe
  exact intBinary_inForm h

theorem execBfi_inForm {d a b c} (h : s.InForm) : Outcome.InForm (execBfi d a b c s) := by
  unfold execBfi
  exact intTernary_inForm h

theorem execIcmp_inForm {w u p a b c g} (h : s.InForm) : Outcome.InForm (execIcmp w u p a b c g s) := by
  unfold execIcmp
  exact issue_inForm (fun _ _ he => he.putPred) h

theorem execSel_inForm {d a b c} (h : s.InForm) : Outcome.InForm (execSel d a b c s) := by
  unfold execSel
  exact intTernary_inForm h

theorem execMov_inForm {d a w g} (h : s.InForm) : Outcome.InForm (execMov d a w g s) := by
  unfold execMov
  exact issue_inForm (fun _ _ he => Req.put_inForm he) h

/-! ### Floating-point instructions -/

theorem roundForm_inForm {r : Req} {d cnt join own stoch elem} (h : s.InForm) :
    Outcome.InForm (roundForm r d cnt join own stoch elem s) := by
  unfold roundForm
  exact issue_inForm (fun _ _ he => Req.give_inForm he.tookDraws) h

theorem floatArith_inForm {i d a b f g old op} (h : s.InForm) : Outcome.InForm (floatArith i d a b f g old op s) := by
  unfold floatArith
  exact roundForm_inForm h

theorem floatFn_inForm {i d a f g op} (h : s.InForm) : Outcome.InForm (floatFn i d a f g op s) := by
  unfold floatFn
  exact roundForm_inForm h

theorem floatBits_inForm {i d a b ty g elem} (h : s.InForm) : Outcome.InForm (floatBits i d a b ty g elem s) := by
  unfold floatBits
  exact roundForm_inForm h

theorem execFadd_inForm {d a b f g} (h : s.InForm) : Outcome.InForm (execFadd d a b f g s) := by
  unfold execFadd
  exact floatArith_inForm h

theorem execFsub_inForm {d a b f g} (h : s.InForm) : Outcome.InForm (execFsub d a b f g s) := by
  unfold execFsub
  exact floatArith_inForm h

theorem execFmul_inForm {d a b f g} (h : s.InForm) : Outcome.InForm (execFmul d a b f g s) := by
  unfold execFmul
  exact floatArith_inForm h

theorem execFma_inForm {d a b f g} (h : s.InForm) : Outcome.InForm (execFma d a b f g s) := by
  unfold execFma
  exact floatArith_inForm h

theorem execFdiv_inForm {d a b f g} (h : s.InForm) : Outcome.InForm (execFdiv d a b f g s) := by
  unfold execFdiv
  exact floatArith_inForm h

theorem execFscale_inForm {d a b f g} (h : s.InForm) : Outcome.InForm (execFscale d a b f g s) := by
  unfold execFscale
  exact roundForm_inForm h

theorem execFmin_inForm {d a b t g} (h : s.InForm) : Outcome.InForm (execFmin d a b t g s) := by
  unfold execFmin
  exact floatBits_inForm h

theorem execFmax_inForm {d a b t g} (h : s.InForm) : Outcome.InForm (execFmax d a b t g s) := by
  unfold execFmax
  exact floatBits_inForm h

theorem execFabs_inForm {d a t g} (h : s.InForm) : Outcome.InForm (execFabs d a t g s) := by
  unfold execFabs
  exact floatBits_inForm h

theorem execFneg_inForm {d a t g} (h : s.InForm) : Outcome.InForm (execFneg d a t g s) := by
  unfold execFneg
  exact floatBits_inForm h

theorem execFcmp_inForm {t p a b c g} (h : s.InForm) : Outcome.InForm (execFcmp t p a b c g s) := by
  unfold execFcmp
  exact issue_inForm (fun _ _ he => he.putPred.orFlags) h

theorem execFclass_inForm {d a t g} (h : s.InForm) : Outcome.InForm (execFclass d a t g s) := by
  unfold execFclass
  exact floatBits_inForm h

theorem execFsqrt_inForm {d a f g} (h : s.InForm) : Outcome.InForm (execFsqrt d a f g s) := by
  unfold execFsqrt
  exact floatFn_inForm h

theorem execFrcp_inForm {d a f g} (h : s.InForm) : Outcome.InForm (execFrcp d a f g s) := by
  unfold execFrcp
  exact floatFn_inForm h

theorem execFrsqrt_inForm {d a f g} (h : s.InForm) : Outcome.InForm (execFrsqrt d a f g s) := by
  unfold execFrsqrt
  exact floatFn_inForm h

theorem execFexp2_inForm {d a f g} (h : s.InForm) : Outcome.InForm (execFexp2 d a f g s) := by
  unfold execFexp2
  exact floatFn_inForm h

theorem execFlog2_inForm {d a f g} (h : s.InForm) : Outcome.InForm (execFlog2 d a f g s) := by
  unfold execFlog2
  exact floatFn_inForm h

theorem execFsin_inForm {d a f g} (h : s.InForm) : Outcome.InForm (execFsin d a f g s) := by
  unfold execFsin
  exact floatFn_inForm h

theorem execFcos_inForm {d a f g} (h : s.InForm) : Outcome.InForm (execFcos d a f g s) := by
  unfold execFcos
  exact floatFn_inForm h

theorem fractForm_inForm {i d a t g op} (h : s.InForm) : Outcome.InForm (fractForm i d a t g op s) := by
  unfold fractForm
  exact roundForm_inForm h

theorem execFfract_inForm {d a t g} (h : s.InForm) : Outcome.InForm (execFfract d a t g s) := by
  unfold execFfract
  exact fractForm_inForm h

theorem execFround_inForm {d a t g} (h : s.InForm) : Outcome.InForm (execFround d a t g s) := by
  unfold execFround
  exact fractForm_inForm h

theorem execFdot2_inForm {d a b t sb g} (h : s.InForm) : Outcome.InForm (execFdot2 d a b t sb g s) := by
  unfold execFdot2
  exact roundForm_inForm h

/-! ### Lanes across a strand -/

theorem predForm_inForm {i d srcs g f} (h : s.InForm) : Outcome.InForm (predForm i d srcs g f s) := by
  unfold predForm
  exact issue_inForm (fun _ _ he => he) h

theorem execPand_inForm {d a b g} (h : s.InForm) : Outcome.InForm (execPand d a b g s) := by
  unfold execPand
  exact predForm_inForm h

theorem execPor_inForm {d a b g} (h : s.InForm) : Outcome.InForm (execPor d a b g s) := by
  unfold execPor
  exact predForm_inForm h

theorem execPxor_inForm {d a b g} (h : s.InForm) : Outcome.InForm (execPxor d a b g s) := by
  unfold execPxor
  exact predForm_inForm h

theorem execPnot_inForm {d a g} (h : s.InForm) : Outcome.InForm (execPnot d a g s) := by
  unfold execPnot
  exact predForm_inForm h

theorem execPmov_inForm {d a g} (h : s.InForm) : Outcome.InForm (execPmov d a g s) := by
  unfold execPmov
  exact predForm_inForm h

theorem execPfirst_inForm {d a g} (h : s.InForm) : Outcome.InForm (execPfirst d a g s) := by
  unfold execPfirst
  exact predForm_inForm h

theorem execPcnt_inForm {d g} (h : s.InForm) : Outcome.InForm (execPcnt d g s) := by
  unfold execPcnt
  exact issue_inForm (fun _ _ he => Req.put_inForm he) h

theorem permForm_inForm {r : Req} {d a gen f} (h : s.InForm) : Outcome.InForm (permForm r d a gen f s) := by
  unfold permForm
  exact issue_inForm (fun _ _ he => Req.give_inForm he) h

theorem execXperm_inForm {d a k g} (h : s.InForm) : Outcome.InForm (execXperm d a k g s) := by
  unfold execXperm
  exact permForm_inForm h

theorem execXtab_inForm {d a t g} (h : s.InForm) : Outcome.InForm (execXtab d a t g s) := by
  unfold execXtab
  exact permForm_inForm h

theorem execXbcast_inForm {d a k g} (h : s.InForm) : Outcome.InForm (execXbcast d a k g s) := by
  unfold execXbcast
  exact issue_inForm (fun _ _ he => Req.put_inForm he) h

theorem shuffle_inForm {i d a b g src} (h : s.InForm) : Outcome.InForm (shuffle i d a b g src s) := by
  unfold shuffle
  exact permForm_inForm h

theorem execXshflIdx_inForm {d a b g} (h : s.InForm) : Outcome.InForm (execXshflIdx d a b g s) := by
  unfold execXshflIdx
  exact shuffle_inForm h

theorem execXshflXor_inForm {d a b g} (h : s.InForm) : Outcome.InForm (execXshflXor d a b g s) := by
  unfold execXshflXor
  exact shuffle_inForm h

theorem execXshflUp_inForm {d a b g} (h : s.InForm) : Outcome.InForm (execXshflUp d a b g s) := by
  unfold execXshflUp
  exact shuffle_inForm h

theorem execXshflDown_inForm {d a b g} (h : s.InForm) : Outcome.InForm (execXshflDown d a b g s) := by
  unfold execXshflDown
  exact shuffle_inForm h

theorem execXred_inForm {d a f g} (h : s.InForm) : Outcome.InForm (execXred d a f g s) := by
  unfold execXred
  exact issue_inForm (fun _ _ he => Req.give_inForm he) h

theorem execXscan_inForm {d a f g} (h : s.InForm) : Outcome.InForm (execXscan d a f g s) := by
  unfold execXscan
  exact issue_inForm (fun _ _ he => Req.give_inForm he) h

theorem execXmaxi_inForm {d a b f g} (h : s.InForm) : Outcome.InForm (execXmaxi d a b f g s) := by
  unfold execXmaxi
  exact issue_inForm (fun _ _ he => Req.put_inForm he) h

theorem voteForm_inForm {i d a g f} (h : s.InForm) : Outcome.InForm (voteForm i d a g f s) := by
  unfold voteForm
  exact issue_inForm (fun _ _ he => Req.put_inForm he) h

theorem execVoteAny_inForm {d a g} (h : s.InForm) : Outcome.InForm (execVoteAny d a g s) := by
  unfold execVoteAny
  exact voteForm_inForm h

theorem execVoteAll_inForm {d a g} (h : s.InForm) : Outcome.InForm (execVoteAll d a g s) := by
  unfold execVoteAll
  exact voteForm_inForm h

theorem execVoteBallot_inForm {d a g} (h : s.InForm) : Outcome.InForm (execVoteBallot d a g s) := by
  unfold execVoteBallot
  exact voteForm_inForm h

theorem execVshape_inForm {d a g} (h : s.InForm) : Outcome.InForm (execVshape d a g s) := by
  unfold execVshape
  exact issue_inForm (fun _ _ he => Req.put_inForm he) h

/-! ### Control words -/

theorem Env.InForm.writeTable {n v} (h : e.InForm) : (e.writeTable n v).InForm :=
  ⟨h.machine.setCore (by exact h.machine.core), Crew.InForm.ite (by exact h.crew) (by exact h.crew)⟩

theorem Env.InForm.writeStream {n v} (h : e.InForm) : (e.writeStream n v).InForm := by
  unfold Env.writeStream
  extract_lets _ _ _ _ refuse
  have hrefuse : refuse.InForm := h
  split
  · exact hrefuse
  · split
    · split
      · exact hrefuse
      · exact h
    · exact h

theorem Env.InForm.awaitSrdt (h : e.InForm) : e.awaitSrdt.InForm := by
  unfold Env.awaitSrdt
  split
  · exact h.via fun _ hs => hs.settleCrew
  · exact h

theorem Env.InForm.writeShape {n v} (h : e.InForm) : (e.writeShape n v).InForm := by
  unfold Env.writeShape
  split
  · exact h.illegal
  · split
    · exact h
    · exact h.setSwage (h.swage.setTile (by exact h.swage.tile))

theorem Env.InForm.writeControl {n v} (h : e.InForm) : (e.writeControl n v).InForm := by
  unfold Env.writeControl
  split
  · exact h.illegal
  · split
    · split
      · exact h
      · exact h.illegal
    · split
      · exact h.writeStream
      · split
        · exact h
        · split
          · exact h.writeShape
          · split
            · exact h
            · split
              · exact h.writeTable
              · split <;> exact h

theorem Env.InForm.flagsReady {n} (h : e.InForm) : (e.flagsReady n).InForm := by
  unfold Env.flagsReady
  split
  · exact h.settle
  · exact h

theorem Env.InForm.shapeReady {n} (h : e.InForm) : (e.shapeReady n).InForm := by
  unfold Env.shapeReady
  split
  · exact h.awaitSrdt
  · exact h

theorem execMovcRead_inForm {d n} (h : s.InForm) : Outcome.InForm (execMovcRead d n s) := by
  unfold execMovcRead
  extract_lets
  refine issue_inForm (fun _ _ he => ?_) h
  extract_lets e1
  have he1 : e1.InForm := he.flagsReady
  split
  · exact he1
  · split
    · exact he.illegal
    · exact Req.give_inForm he1

theorem execMovcWrite_inForm {a n} (h : s.InForm) : Outcome.InForm (execMovcWrite a n s) := by
  unfold execMovcWrite
  extract_lets
  refine issue_inForm (fun _ _ he => ?_) h
  extract_lets e1
  have he1 : e1.InForm := he.flagsReady.shapeReady
  split
  · exact he1
  · exact he1.writeControl

/-! ### Branches and strand instructions -/

theorem Env.InForm.branch {m target first} (h : e.InForm) (hfirst : ∀ (e : Env), e.InForm → (first e).InForm) :
    (e.branch m target first).InForm := by
  unfold Env.branch
  extract_lets _ _ e1
  have he1 : e1.InForm := hfirst _ h
  split
  · exact h
  · exact he1

theorem execBra_inForm {o g} (h : s.InForm) : Outcome.InForm (execBra o g s) := by
  unfold execBra
  exact issue_inForm (fun _ _ he => he.branch fun _ he2 => he2) h

theorem indirect_inForm {i a g} (h : s.InForm) : Outcome.InForm (indirect i a g s) := by
  unfold indirect
  exact issue_inForm (fun _ _ he => he.branch fun _ he2 => he2) h

theorem execBrx_inForm {a g} (h : s.InForm) : Outcome.InForm (execBrx a g s) := by
  unfold execBrx
  exact indirect_inForm h

theorem execRet_inForm {a g} (h : s.InForm) : Outcome.InForm (execRet a g s) := by
  unfold execRet
  exact indirect_inForm h

theorem Env.InForm.putReturn {tag : Tag} {m pair} (h : e.InForm) : (e.putReturn m tag pair).InForm := h.puts

theorem execCallDirect_inForm {d i} (h : s.InForm) : Outcome.InForm (execCallDirect d i s) := by
  unfold execCallDirect
  exact issue_inForm (fun _ _ he => he.branch fun _ he2 => he2.putReturn) h

theorem execCallIndirect_inForm {d a} (h : s.InForm) : Outcome.InForm (execCallIndirect d a s) := by
  unfold execCallIndirect
  exact issue_inForm (fun _ _ he => he.branch fun _ he2 => he2.putReturn) h

theorem execMeet_inForm {o g} (h : s.InForm) : Outcome.InForm (execMeet o g s) := by
  unfold execMeet
  exact issue_inForm (fun _ _ he => he) h

theorem execYield_inForm (h : s.InForm) : Outcome.InForm (execYield s) := by
  unfold execYield
  exact issue_inForm (fun _ _ he => he) h

theorem execNop_inForm (h : s.InForm) : Outcome.InForm (execNop s) := by
  unfold execNop
  exact issue_inForm (fun _ _ he => he) h

theorem Env.InForm.waitNext {w : Wait} (h : e.InForm) : (e.waitNext w).InForm := h

theorem execSleep_inForm {n} (h : s.InForm) : Outcome.InForm (execSleep n s) := by
  unfold execSleep
  extract_lets
  refine issue_inForm (fun _ _ he => ?_) h
  split
  · exact he
  · exact he.waitNext

theorem Env.InForm.endOwnWalk (h : e.InForm) : e.endOwnWalk.InForm := h.via fun _ hs => hs.endWalk

theorem execExit_inForm {g} (h : s.InForm) : Outcome.InForm (execExit g s) := by
  unfold execExit
  extract_lets
  refine issueThen_inForm (fun _ _ hs => hs.completeBarriers) (fun _ _ he => ?_) h
  split
  · exact he
  · split
    · exact he.endOwnWalk
    · exact he

theorem arrive_inForm {w : Wait} {i refused count} (h : ∀ (e : Env), e.InForm → (count e).InForm) (hs : s.InForm) :
    Outcome.InForm (arrive i w refused count s) := by
  unfold arrive
  extract_lets
  refine issueThen_inForm (fun _ _ hs2 => hs2.completeBarriers) (fun _ _ he => ?_) hs
  split
  · exact he.illegal
  · exact (h _ he).waitNext

theorem execBar_inForm {b} (h : s.InForm) : Outcome.InForm (execBar b s) := by
  unfold execBar
  exact arrive_inForm (fun _ he => he) h

theorem execGbar_inForm (h : s.InForm) : Outcome.InForm (execGbar s) := by
  unfold execGbar
  exact arrive_inForm (fun _ he => he) h

theorem execSbar_inForm (h : s.InForm) : Outcome.InForm (execSbar s) := by
  unfold execSbar
  exact arrive_inForm (fun _ he => he) h

theorem State.InForm.serveCrewCore {crew} (h : s.InForm) : (s.serveCrewCore crew).InForm := by
  unfold State.serveCrewCore
  split
  · exact h.serveGrowth
  · exact h

theorem Env.InForm.waitEarlier (h : e.InForm) : e.waitEarlier.InForm := h

theorem execRgrow_inForm {n} (h : s.InForm) : Outcome.InForm (execRgrow n s) := by
  unfold execRgrow
  extract_lets
  refine issueThen_inForm (fun _ _ hs => hs.serveCrewCore) (fun _ _ he => ?_) h
  split
  · exact he.illegal
  · split
    · exact he.waitEarlier
    · exact Env.InForm.waitNext (by exact he)

theorem execRgrowTry_inForm {p n} (h : s.InForm) : Outcome.InForm (execRgrowTry p n s) := by
  unfold execRgrowTry
  extract_lets
  refine issue_inForm (fun _ _ he => ?_) h
  split
  · exact he.illegal
  · extract_lets
    refine Env.InForm.putPred ?_
    split
    · exact he.addBlocks
    · exact he

theorem Env.InForm.dropBlocks {keep n} (h : e.InForm) : (e.dropBlocks keep n).InForm := by
  unfold Env.dropBlocks
  extract_lets s1
  have hs1 : s1.InForm := h.machine.modCore fun _ hco => hco
  exact Env.InForm.via (e := { e with s := s1, t := _ }) ⟨hs1, h.crew⟩ fun _ hs => hs.giveBack

theorem execRshrink_inForm {n} (h : s.InForm) : Outcome.InForm (execRshrink n s) := by
  unfold execRshrink
  extract_lets
  refine issueThen_inForm (fun _ _ hs => hs.serveCrewCore) (fun _ _ he => ?_) h
  split
  · exact he.illegal
  · extract_lets _ _ e1
    have he1 : e1.InForm := he.settle
    split
    · exact he1
    · exact he1.dropBlocks

theorem execDisp_inForm {d p g} (h : s.InForm) : Outcome.InForm (execDisp d p g s) := by
  unfold execDisp
  extract_lets
  refine issue_inForm (fun _ _ he => ?_) h
  split
  · exact he.illegal
  · split
    · exact he.illegal
    · split
      · exact he
      · exact Env.InForm.putPred (Env.InForm.puts (by exact he))

/-! ### Loads and stores -/

theorem Env.InForm.keepLast {xs} (h : e.InForm) : (e.keepLast xs).InForm := h

theorem Env.InForm.access {kind m els go} (h : e.InForm)
    (hgo : ∀ (e : Env) (x : Mask) (x2 : List (ℕ × List LaneEl)), e.InForm → (go e x x2).InForm) : (e.access kind m els go).InForm := by
  unfold Env.access
  extract_lets
  split
  · exact h.missAll
  · split
    · exact h
    · split
      · next hx =>
        split <;> exact (hgo _ _ _ h.keepLast).of_done hx
      · exact hgo _ _ _ h.keepLast

theorem Env.InForm.startMem {k : Ctr} {kind : OpKind} {dsts now srcs} (h : e.InForm) : (e.startMem k dsts kind now srcs).InForm := by
  unfold Env.startMem
  split
  · next hx =>
    split
    · exact (h.start.of_done hx).performOp
    · exact h.start.of_done hx
  · exact h.start

theorem Env.InForm.walkerLoad {tag : Tag} {m n d addr} (h : e.InForm) : (e.walkerLoad m n d tag addr).InForm := by
  unfold Env.walkerLoad
  extract_lets
  split
  · exact h
  · split
    · exact h.via fun _ hs => hs.consumeUes
    · exact h.puts

theorem loadForm_inForm {ty : LoadTy} {i unit d a imm9 g} (h : s.InForm) : Outcome.InForm (loadForm i ty unit d a imm9 g s) := by
  unfold loadForm
  extract_lets
  refine issue_inForm (fun _ _ he => ?_) h
  split
  · exact he.illegal
  · split
    · exact he
    · extract_lets
      split
      · exact he.walkerLoad
      · split
        · next he2 =>
          exact he.reuse_of_ite he2
        · exact he.access fun _ _ _ he2 => by
            split
            · exact he2
            · extract_lets
              split
              · next e1 hx =>
                have he1 : e1.InForm := he2.startMem.of_done hx
                exact he1
              · exact he2.startMem

theorem execLdB32_inForm {d a i g} (h : s.InForm) : Outcome.InForm (execLdB32 d a i g s) := by
  unfold execLdB32
  exact loadForm_inForm h

theorem execLdB64_inForm {d a i g} (h : s.InForm) : Outcome.InForm (execLdB64 d a i g s) := by
  unfold execLdB64
  exact loadForm_inForm h

theorem execLdF32_inForm {d a i g} (h : s.InForm) : Outcome.InForm (execLdF32 d a i g s) := by
  unfold execLdF32
  exact loadForm_inForm h

theorem execLdF16_inForm {d a i g} (h : s.InForm) : Outcome.InForm (execLdF16 d a i g s) := by
  unfold execLdF16
  exact loadForm_inForm h

theorem execLdBf16_inForm {d a i g} (h : s.InForm) : Outcome.InForm (execLdBf16 d a i g s) := by
  unfold execLdBf16
  exact loadForm_inForm h

theorem execLdI32_inForm {d a i g} (h : s.InForm) : Outcome.InForm (execLdI32 d a i g s) := by
  unfold execLdI32
  exact loadForm_inForm h

theorem Env.InForm.bufferStore {a : LaneAcc} {n tr} (h : e.InForm) : (e.bufferStore n tr a).InForm := by
  unfold Env.bufferStore
  split <;> exact h

theorem Env.InForm.storeLanes {n srcs trs accs} (h : e.InForm) : (e.storeLanes n srcs trs accs).InForm := by
  unfold Env.storeLanes
  extract_lets _ _ e1 e2
  have he1 : e1.InForm := h.foldl fun _ _ he => he.bufferStore
  have he2 : e2.InForm := he1
  split
  · next e3 hx =>
    have he3 : e3.InForm := he2.startMem.of_hold hx
    exact he3
  · exact he2.startMem

theorem storeForm_inForm {i n d a imm9 g} (h : s.InForm) : Outcome.InForm (storeForm i n d a imm9 g s) := by
  unfold storeForm
  extract_lets
  refine issue_inForm (fun _ _ he => ?_) h
  split
  · exact he.illegal
  · split
    · exact he
    · exact he.access fun _ _ _ he2 => by
        split
        · exact he2
        · exact he2.storeLanes

theorem execStB8_inForm {d a i g} (h : s.InForm) : Outcome.InForm (execStB8 d a i g s) := by
  unfold execStB8
  exact storeForm_inForm h

theorem execStB16_inForm {d a i g} (h : s.InForm) : Outcome.InForm (execStB16 d a i g s) := by
  unfold execStB16
  exact storeForm_inForm h

theorem execStB32_inForm {d a i g} (h : s.InForm) : Outcome.InForm (execStB32 d a i g s) := by
  unfold execStB32
  exact storeForm_inForm h

theorem execStB64_inForm {d a i g} (h : s.InForm) : Outcome.InForm (execStB64 d a i g s) := by
  unfold execStB64
  exact storeForm_inForm h

theorem Env.InForm.clearBoard {sp : Space} {addrs store} (h : e.InForm) : (e.clearBoard sp addrs store).InForm :=
  h.foldl fun _ _ he => he.via fun _ hs => hs.settleStrand

theorem Env.InForm.localAccess {sp : Space} {m addr store go} (h : e.InForm) (hgo : ∀ (e : Env) (x : ℕ → ℕ), e.InForm → (go e x).InForm) :
    (e.localAccess sp m addr store go).InForm := by
  unfold Env.localAccess
  extract_lets _ _ _ _ _ e1
  have he1 : e1.InForm := h.clearBoard
  split
  · exact h
  · split
    · exact h
    · split
      · exact he1
      · exact hgo _ _ he1

theorem loadLocal_inForm {sp : Space} {i d a imm9 g} (h : s.InForm) : Outcome.InForm (loadLocal i sp d a imm9 g s) := by
  unfold loadLocal
  extract_lets
  refine issue_inForm (fun _ _ he => ?_) h
  split
  · exact he.illegal
  · split
    · exact he
    · extract_lets
      split
      · next he2 =>
        exact he.reuse_of_ite he2
      · exact he.localAccess fun _ _ he2 => he2.start

theorem execLdbW_inForm {d a i g} (h : s.InForm) : Outcome.InForm (execLdbW d a i g s) := by
  unfold execLdbW
  exact loadLocal_inForm h

theorem execLdbA_inForm {d a i g} (h : s.InForm) : Outcome.InForm (execLdbA d a i g s) := by
  unfold execLdbA
  exact loadLocal_inForm h

theorem execLdbC_inForm {d a i g} (h : s.InForm) : Outcome.InForm (execLdbC d a i g s) := by
  unfold execLdbC
  exact loadLocal_inForm h

theorem storeLocal_inForm {sp : Space} {i d a imm9 g} (h : s.InForm) : Outcome.InForm (storeLocal i sp d a imm9 g s) := by
  unfold storeLocal
  extract_lets
  refine issue_inForm (fun _ _ he => ?_) h
  split
  · exact he.illegal
  · split
    · exact he
    · exact he.localAccess fun _ _ he2 => by
        split
        · next hx =>
          exact ⟨(he2.start.of_done hx).machine.foldl fun _ _ hs => hs.writeLocal, (he2.start.of_done hx).crew⟩
        · exact he2.start

theorem execStbA_inForm {d a i g} (h : s.InForm) : Outcome.InForm (execStbA d a i g s) := by
  unfold execStbA
  exact storeLocal_inForm h

theorem execStbC_inForm {d a i g} (h : s.InForm) : Outcome.InForm (execStbC d a i g s) := by
  unfold execStbC
  exact storeLocal_inForm h

/-! ### Atomics and transactions -/

theorem Env.InForm.atomic {m n a acq rel dsts lane srcs kind} (h : e.InForm) : (e.atomic m n a acq rel dsts lane srcs kind).InForm := by
  unfold Env.atomic
  split
  · exact h
  · exact h.access fun _ _ _ he => by
      split
      · exact he
      · extract_lets _ e1
        have he1 : e1.InForm := by
          unfold e1
          split
          · exact he.release
          · exact he
        split
        · next hx =>
          split
          · exact (he1.startMem.of_done hx).acquire
          · exact he1.startMem.of_done hx
        · exact he1.startMem

theorem atomForm_inForm {i acq rel d a b f g} (h : s.InForm) : Outcome.InForm (atomForm i acq rel d a b f g s) := by
  unfold atomForm
  exact issue_inForm (fun _ _ he => he.atomic) h

theorem execAtom_inForm {d a b f g} (h : s.InForm) : Outcome.InForm (execAtom d a b f g s) := by
  unfold execAtom
  exact atomForm_inForm h

theorem execAtomAcq_inForm {d a b f g} (h : s.InForm) : Outcome.InForm (execAtomAcq d a b f g s) := by
  unfold execAtomAcq
  exact atomForm_inForm h

theorem execAtomRel_inForm {d a b f g} (h : s.InForm) : Outcome.InForm (execAtomRel d a b f g s) := by
  unfold execAtomRel
  exact atomForm_inForm h

theorem execAtomAcqRel_inForm {d a b f g} (h : s.InForm) : Outcome.InForm (execAtomAcqRel d a b f g s) := by
  unfold execAtomAcqRel
  exact atomForm_inForm h

theorem execCas_inForm {d a b o w g} (h : s.InForm) : Outcome.InForm (execCas d a b o w g s) := by
  unfold execCas
  exact issue_inForm (fun _ _ he => he.atomic) h

theorem Env.InForm.fence (h : e.InForm) : e.fence.InForm := h.release.acquire

theorem execAcq_inForm (h : s.InForm) : Outcome.InForm (execAcq s) := by
  unfold execAcq
  exact issue_inForm (fun _ _ he => he.acquire) h

theorem execRel_inForm (h : s.InForm) : Outcome.InForm (execRel s) := by
  unfold execRel
  exact issue_inForm (fun _ _ he => he.release) h

theorem execFence_inForm (h : s.InForm) : Outcome.InForm (execFence s) := by
  unfold execFence
  exact issue_inForm (fun _ _ he => he.fence) h

theorem Env.InForm.waitaIssue {ws vd pd past} (h : e.InForm) : (e.waitaIssue ws vd pd past).InForm := by
  unfold Env.waitaIssue
  extract_lets _ _ _ _ _ _ e1 e2
  have he1 : e1.InForm := by
    unfold e1
    split
    · exact h
    · exact h.puts
  unfold e2
  split
  · exact he1
  · exact he1.putPred.acquire

theorem Env.InForm.waitaFault {w : WaitaFault} (h : e.InForm) : (e.waitaFault w).InForm := by
  unfold Env.waitaFault
  split <;> exact h

theorem execWaita_inForm {d a b p g} (h : s.InForm) : Outcome.InForm (execWaita d a b p g s) := by
  unfold execWaita
  extract_lets
  refine issue_inForm (fun _ _ he => ?_) h
  split
  · exact he
  · extract_lets _ faults held
    clear_value held
    split
    · exact he.waitaFault
    · exact he.access fun _ _ _ he2 => by
        extract_lets _ e1 _ bad e2
        have he1 : e1.InForm := he2.performAll
        have he2 : e2.InForm := he1.waitaIssue
        clear_value bad
        split
        · exact he1
        · split
          · exact he1.via fun _ hs => hs.consumeUe
          · clear_value faults
            split
            · exact he1.waitaIssue
            · exact he2

theorem execTxb_inForm {g} (h : s.InForm) : Outcome.InForm (execTxb g s) := by
  unfold execTxb
  exact issue_inForm (fun _ _ he => he.acquire) h

theorem execTxa_inForm {g} (h : s.InForm) : Outcome.InForm (execTxa g s) := by
  unfold execTxa
  exact issue_inForm (fun _ _ he => he) h

theorem State.InForm.commitWrites {core ctx ws} (h : s.InForm) : (s.commitWrites core ctx ws).InForm := h.foldl fun _ _ hs => by
    extract_lets _ _ _ s1
    have hs1 : s1.InForm := hs.foldl fun _ _ hs2 => by
        split
        · exact hs2.modCore fun _ hco => hco.storeL1
        · exact hs2
    split
    · split
      · split
        · exact hs.kickStore
        · split
          · exact hs
          · exact hs.kickStore
      · exact hs.kickStore
    · exact hs1.homeWrite

theorem Env.InForm.commitLane {lower locked lane} (h : e.InForm) : (e.commitLane lower locked lane).InForm := by
  unfold Env.commitLane
  extract_lets
  split
  · exact h
  · split
    · exact h
    · split
      · exact h
      · split
        · exact h.via fun _ hs => hs.commitWrites
        · exact h

theorem execTxc_inForm {p g} (h : s.InForm) : Outcome.InForm (execTxc p g s) := by
  unfold execTxc
  extract_lets
  refine issue_inForm (fun _ _ he => ?_) h
  extract_lets e0 _ _ e1 e2 _ _ _ src _ e3
  have he0 : e0.InForm := he.drainMem
  have he1 : e1.InForm := he0
  have he2 : e2.InForm := he1.foldl fun _ _ he2 => he2.commitLane
  have hsrc : src.InForm := he2.putPred
  have he3 : e3.InForm := Env.InForm.fence (by exact hsrc)
  split
  · exact he3
  · exact he3.via fun _ hs => hs.consumeUes

/-! ### Waits, orders and prefetches -/

theorem State.InForm.fillSet {core fuel} (h : s.InForm) : (s.fillSet core fuel).InForm := by
  induction fuel generalizing s with
  | zero => exact h
  | succ n ih =>
    unfold State.fillSet
    extract_lets
    split
    · exact h
    · split
      · exact h
      · exact ih h.modStrand

theorem State.InForm.rotateSet {core} (h : s.InForm) : (s.rotateSet core).InForm := by
  unfold State.rotateSet
  extract_lets
  split
  · exact State.InForm.fillSet ⟨h.mem, h.cores, h.crews.map fun _ hc => Crew.InForm.ite (by exact hc) hc, h.dev⟩
  · exact h

theorem State.InForm.arrangeSets (h : s.InForm) : s.arrangeSets.InForm := by
  unfold State.arrangeSets
  extract_lets _ s1 s2
  have hs1 : s1.InForm := ⟨h.mem, h.cores, h.crews.map fun _ hc => Crew.InForm.ite (by exact hc) hc, h.dev⟩
  have hs2 : s2.InForm := hs1.foldl fun _ _ hs => hs.fillSet
  exact hs2.foldl fun _ _ hs => hs.rotateSet

theorem State.InForm.arrange (h : s.InForm) : s.arrange.InForm := h.serveRows.goOnTaking.serveAllResidency.bringBack.markTop.arrangeSets

theorem Env.InForm.leaveSet (h : e.InForm) : e.leaveSet.InForm := h

theorem Env.InForm.rotate (h : e.InForm) : e.rotate.InForm := h

theorem Core.InForm.putIline {x : ILine} (h : co.InForm) : (co.putIline x).InForm := by
  unfold Core.putIline
  extract_lets
  split <;> exact h

theorem Env.InForm.fillCode (h : e.InForm) : e.fillCode.InForm := by
  unfold Env.fillCode
  split
  · exact h
  · split
    · exact h
    · exact ⟨h.machine.modCore fun _ hco => hco.putIline, h.crew⟩

theorem Env.InForm.fetch_wait {t : State} (h : e.InForm) (ht : e.fetch = .wait t) : t.InForm := by
  unfold Env.fetch at ht
  extract_lets pc at_ at ht
  have hat (pa : Nat) : at_ pa ≠ .wait t := by
    dsimp only [at_]
    split
    · exact Fetched.noConfusion
    · split <;> exact Fetched.noConfusion
  split at ht
  · exact absurd ht (hat _)
  · split at ht
    · cases ht
      exact h.commit.missOn
    · cases ht
    · split at ht
      · exact absurd ht (hat _)
      · cases ht

theorem Env.InForm.turn_moved {t : State} (h : e.InForm) (ht : e.turn = .moved t) : t.InForm := by
  unfold Env.turn at ht
  split at ht
  · cases ht
    exact h.takeDeferred
  · split at ht
    · next u hwait =>
      cases ht
      exact h.fetch_wait hwait
    · cases ht
      exact h.takeTrap
    · cases ht
      exact (h.via fun _ hs => hs.consumeUe).takeTrap
    · split at ht
      · cases ht
      · cases ht
        exact Res.InForm.finish (Req.awaitGuard_inForm h fun _ he => Req.refuse_inForm he)

theorem Env.InForm.acquireDue (h : e.InForm) : e.acquireDue.InForm := by
  unfold Env.acquireDue
  split
  · exact h.acquire
  · exact h

theorem Env.InForm.rotateDue (h : e.InForm) : e.rotateDue.InForm := by
  unfold Env.rotateDue
  split
  · exact h.rotate
  · exact h

theorem State.InForm.select {crew strand} (h : s.InForm) : (s.select crew strand).InForm := by
  unfold State.select
  extract_lets s1
  have hs1 : s1.InForm := h
  split
  · next e he =>
    have he' : e.InForm := hs1.env he
    have hturn : Env.InForm { e with t := { e.t.regroup with turnAt := s.cycle + 1 } } := he'
    exact hturn.acquireDue.rotateDue.fillCode.commit
  · exact hs1

theorem Crew.InForm.tick {outside n} (h : c.InForm) : (c.tick outside n).InForm := h

theorem State.InForm.elapse {cycles ns} (h : s.InForm) : (s.elapse cycles ns).InForm :=
  State.InForm.markTopFrom ⟨h.mem, h.cores, h.crews.map fun _ hc => hc.tick.ite hc, h.dev⟩

theorem State.InForm.evictL1 {core line} (h : s.InForm) : (s.evictL1 core line).InForm := h.modCore fun _ hco => hco

theorem Device.InForm.hearthCe {place} (h : d.InForm) : (d.hearthCe place).InForm := by
  unfold Device.hearthCe
  extract_lets d1
  have hd1 : d1.InForm := h
  split <;> exact hd1

theorem State.InForm.softError {counter page} (h : s.InForm) : (s.softError counter page).InForm := by
  unfold State.softError
  extract_lets d _ s1
  have hd : d.InForm := h.dev
  have hs1 : s1.InForm := h
  split
  · split
    · exact h
    · split
      · exact hs1.addCandidate
      · exact hs1
  · exact ⟨h.mem, h.cores, h.crews, hd.hearthCe⟩
  · exact hs1
  · exact hs1
  · exact hs1
  · exact hs1

theorem State.InForm.parityIndex {core entry} (h : s.InForm) : (s.parityIndex core entry).InForm :=
  State.InForm.softError (h.modCore fun _ hco => hco)

theorem State.InForm.parityValue {core entry} (h : s.InForm) : (s.parityValue core entry).InForm :=
  State.InForm.softError (h.modCore fun _ hco => hco)

theorem State.InForm.parityLast {crew strand lane} (h : s.InForm) : (s.parityLast crew strand lane).InForm := h.modStrand.softError

theorem State.InForm.migError {page} (h : s.InForm) : (s.migError page).InForm := h

theorem State.InForm.evictI {core seq line} (h : s.InForm) : (s.evictI core seq line).InForm := h.modCore fun _ hco => hco

theorem State.InForm.evictTlb {core ctx va} (h : s.InForm) : (s.evictTlb core ctx va).InForm := h.modCore fun _ hco => hco

theorem State.InForm.upsetReg {crew strand reg} (h : s.InForm) : (s.upsetReg crew strand reg).InForm := by
  unfold State.upsetReg
  split
  · exact h
  · extract_lets loc hit s1
    have hs1 : s1.InForm := h.modCore fun _ hco => hco
    exact ⟨hs1.mem, hs1.cores, hs1.crews.map fun _ hc => hc, hs1.dev⟩

theorem State.InForm.contend {crew strand lanes} (h : s.InForm) : (s.contend crew strand lanes).InForm := h.modStrand

theorem State.InForm.ownMove {m : Move} (h : s.InForm) : (s.ownMove m).InForm := by
  unfold State.ownMove
  split
  · exact h.elapse
  · exact h.evictL1
  · exact h.dropOwner
  · exact h.evictI
  · exact h.evictTlb
  · exact h.parityIndex
  · exact h.parityValue
  · exact h.parityLast
  · exact h.migError
  · split <;> exact h
  · exact h.softError
  · exact h.upsetReg
  · exact h.contend
  · exact h.partAccess
  · exact h.modLport
  · exact h
  · exact h

/-! ### Prefixes -/

theorem prefixForm_inForm {i bad f} (h : s.InForm) : Outcome.InForm (prefixForm i bad f s) := by
  unfold prefixForm
  split
  · exact trivial
  · next he =>
    split
    · exact Res.InForm.finish (h.issuer he).illegal
    · exact (h.issuer he).endPrefix.commit

theorem execHintImm_inForm {i} (h : s.InForm) : Outcome.InForm (execHintImm i s) := by
  unfold execHintImm
  exact prefixForm_inForm h

theorem execHintPref_inForm {a b c v} (h : s.InForm) : Outcome.InForm (execHintPref a b c v s) := by
  unfold execHintPref
  exact prefixForm_inForm h

theorem execHintRnd_inForm {m v t q} (h : s.InForm) : Outcome.InForm (execHintRnd m v t q s) := by
  unfold execHintRnd
  exact prefixForm_inForm h

theorem execHintSched_inForm {n r y} (h : s.InForm) : Outcome.InForm (execHintSched n r y s) := by
  unfold execHintSched
  split
  · exact trivial
  · next e he =>
    extract_lets _ e1
    have he1 : e1.InForm := by
      unfold e1
      have he' : e.InForm := h.issuer he
      exact he'
    split
    · exact Res.InForm.finish (h.issuer he).illegal
    · exact he1.endPrefix.commit

theorem execRep_inForm {n d a b o} (h : s.InForm) : Outcome.InForm (execRep n d a b o s) := by
  unfold execRep
  exact prefixForm_inForm h

/-! ### Copies -/

theorem Env.InForm.boardRoom {n} (h : e.InForm) : (e.boardRoom n).InForm := by
  unfold Env.boardRoom
  extract_lets
  split
  · exact h
  · exact h.foldl fun _ _ he => he.via fun _ hs => hs.settleStrand

theorem Crew.InForm.unkey {a b} (h : c.InForm) : (c.unkey a b).InForm := h

theorem Env.InForm.unkeyLoads {a b} (h : e.InForm) : (e.unkeyLoads a b).InForm :=
  ⟨⟨h.machine.mem, h.machine.cores, h.machine.crews.map fun _ hc => hc.unkey.ite hc, h.machine.dev⟩, h.crew.unkey⟩

theorem Env.InForm.launchCopy {p : CopyPlan} {cw lane trs} (h : e.InForm) : (e.launchCopy p cw lane trs).InForm := by
  unfold Env.launchCopy
  extract_lets _ e1
  have he1 : e1.InForm := h.boardRoom
  clear_value e1
  split
  · exact he1
  · split
    extract_lets
    split
    · next e2 hstart =>
      have he2 : e2.InForm := he1.start.of_done hstart
      extract_lets _ s1 e3
      have hs1 : s1.InForm := he2.machine.modCore fun _ hco => hco
      clear_value s1
      have he3 : e3.InForm := ⟨hs1, he2.crew⟩
      exact he3.foldl fun _ _ he => he.unkeyLoads
    · exact he1.start

theorem Env.InForm.checkCopy {p : CopyPlan} {cw lane} (h : e.InForm) : (e.checkCopy p cw lane).InForm := by
  unfold Env.checkCopy
  extract_lets _ _ _ _ _ _ _ _ _ refused
  clear_value refused
  split
  · exact h.missAll
  · split
    · exact h
    · split
      · exact h.missAll
      · split
        · exact h
        · split
          · exact h
          · exact h.launchCopy

theorem Env.InForm.copyPairs {d a cw go} (h : e.InForm) (hgo : ∀ (e : Env), e.InForm → (go e).InForm) :
    (e.copyPairs d a cw go).InForm := by
  unfold Env.copyPairs
  split
  · next hx =>
    exact Req.gather_error h hx
  · next hx =>
    exact hgo _ (Req.gather_ok h hx)

theorem Env.InForm.convertCopy {d a cw n m dstride sstride} (h : e.InForm) : (e.convertCopy d a cw n m dstride sstride).InForm := by
  unfold Env.convertCopy
  extract_lets
  split
  · exact h
  · exact h.checkCopy

theorem execCp_inForm {d a b c} (h : s.InForm) : Outcome.InForm (execCp d a b c s) := by
  unfold execCp
  exact issue_inForm (fun _ _ he => he.copyPairs fun _ he2 => he2.convertCopy) h

theorem execCp2_inForm {d a b c} (h : s.InForm) : Outcome.InForm (execCp2 d a b c s) := by
  unfold execCp2
  exact issue_inForm (fun _ _ he => he.copyPairs fun _ he2 => he2.convertCopy) h

theorem execCptab_inForm {d a b c} (h : s.InForm) : Outcome.InForm (execCptab d a b c s) := by
  unfold execCptab
  extract_lets
  refine issue_inForm (fun _ _ he => ?_) h
  extract_lets
  split
  · exact he
  · exact he.copyPairs fun _ he2 => he2.checkCopy

theorem waitFor_inForm {x : Thresholds} {i walker} (h : s.InForm) : Outcome.InForm (waitFor i walker x s) := by
  unfold waitFor
  extract_lets
  refine issue_inForm (fun _ _ he => ?_) h
  extract_lets e1 e2
  have he1 : e1.InForm := by
    unfold e1
    split
    · exact he
    · exact he.settle
  have he2 : e2.InForm := by
    unfold e2
    split
    · exact he1.acquire
    · exact he1
  split
  · exact he2
  · exact he1.waitNext

theorem execWait_inForm {l st c m} (h : s.InForm) : Outcome.InForm (execWait l st c m s) := by
  unfold execWait
  exact waitFor_inForm h

theorem execWaitx_inForm {t sr c} (h : s.InForm) : Outcome.InForm (execWaitx t sr c s) := by
  unfold execWaitx
  exact waitFor_inForm h

theorem State.InForm.requestPages {ctx pages} (h : s.InForm) : (s.requestPages ctx pages).InForm := h.foldl fun _ _ hs => by
    split
    · exact hs
    · exact hs.modCtx.postEvent

theorem execPgreq_inForm {d a g} (h : s.InForm) : Outcome.InForm (execPgreq d a g s) := by
  unfold execPgreq
  extract_lets
  refine issue_inForm (fun _ _ he => ?_) h
  split
  · exact he
  · extract_lets
    split
    · exact he
    · split
      · exact he.missAll
      · split
        · next hx =>
          exact (he.start.of_done hx).via fun _ hs => hs.requestPages
        · exact he.start

theorem execPfetch_inForm {a l n g} (h : s.InForm) : Outcome.InForm (execPfetch a l n g s) := by
  unfold execPfetch
  extract_lets
  refine issue_inForm (fun _ _ he => ?_) h
  split
  · exact he
  · extract_lets
    split
    · exact he.missAll
    · exact he.start

/-! ### Swage instructions -/

theorem SwRes.InForm.plain (h : e.InForm) : (SwRes.plain e).InForm := h

theorem swTrap_inForm {cause lane} (h : e.InForm) : (swTrap e cause lane).InForm := h

theorem swPerm_inForm {lane va} (h : e.InForm) : (swPerm e lane va).InForm := h

theorem SwDone.InForm.deferred {d : SwDone} {lane} (h : d.InForm) : (d.deferred lane).InForm := by
  unfold SwDone.deferred
  split
  · exact h.env.via fun _ hs => hs.countUe.foldl fun _ _ hs2 => hs2.uncorrectable
  · exact h.env

theorem Env.InForm.swUnsigned {lane stores accept} (h : e.InForm) (haccept : ∀ (e : Env) (n : ℕ), e.InForm → (accept e n).InForm) :
    (e.swUnsigned lane stores accept).InForm := by
  unfold Env.swUnsigned
  extract_lets e0
  have he0 : e0.InForm := h.makeRoom
  split
  · exact he0
  · split
    · next hx =>
      exact (haccept _ _ he0).of_stop hx
    · next hx =>
      exact ((haccept _ _ he0).of_ok hx).deferred.start

theorem Env.InForm.swSigned {m cv key stores accept} (h : e.InForm)
    (haccept : ∀ (e : Env) (n : ℕ), e.InForm → (accept e n).InForm) : (e.swSigned m cv key stores accept).InForm := by
  unfold Env.swSigned
  extract_lets lane k e0 cvOf setCv c own wrong
  have hset (e : Env) (he : e.InForm) (c : Conv) : (setCv e c).InForm := he.setSwage (by exact he.swage)
  have he0 : e0.InForm := h.makeRoom
  clear_value e0 setCv
  split
  · exact he0
  · split
    · exact he0
    · split
      · split
        · next e1 hstart => exact hset e1 (he0.start.of_done hstart) _
        · exact he0.start
      · split
        · next r hr => exact (haccept e0 lane he0).of_stop hr
        · next d hd =>
          extract_lets e1 _ e2
          have he1 : e1.InForm := ((haccept e0 lane he0).of_ok hd).deferred
          have he2 : e2.InForm := (hset e1 he1 _).via fun _ hs => hs.readySigners
          exact he2.start

theorem swIssue_inForm {r : Req} {held body} (h : ∀ (e : Env) (x : Mask), e.InForm → (body e x).InForm) (hs : s.InForm) :
    Outcome.InForm (swIssue r held body s) := by
  unfold swIssue
  refine issue_inForm (fun _ _ he => ?_) hs
  split
  · exact he.illegal
  · split
    · exact h _ _ he
    · split
      · exact he.awaitSrdt
      · exact h _ _ he.awaitSrdt

theorem tileOp_inForm {r : Req} {cv sg stores accept refuse} (h : ∀ (e : Env) (n : ℕ), e.InForm → (accept e n).InForm) (hs : s.InForm) :
    Outcome.InForm (tileOp r cv sg stores accept refuse s) := by
  unfold tileOp
  refine swIssue_inForm (fun _ _ he => ?_) hs
  split
  · split <;> exact he
  · split
    · exact he.swSigned fun _ _ he2 => by
        split
        · next hx =>
          exact Req.gather_error he2 hx
        · next hx =>
          exact h _ _ (Req.gather_ok he2 hx)
    · exact he.swUnsigned fun _ _ he2 => h _ _ he2

theorem Env.InForm.takeSwage (h : e.InForm) : e.takeSwage.InForm := by
  have hs1 : (e.s.modCore e.c.core fun co => { co with holder := some e.c.id, swage := .fresh }).InForm :=
    h.machine.modCore fun _ hco => ⟨hco.1, Swage.fresh_canonical⟩
  exact ⟨hs1, h.crew⟩

theorem execMres_inForm {p} (h : s.InForm) : Outcome.InForm (execMres p s) := by
  unfold execMres
  extract_lets
  refine issue_inForm (fun _ _ he => ?_) h
  extract_lets
  refine Env.InForm.putPred ?_
  split
  · exact he.takeSwage
  · exact he

theorem execMrel_inForm (h : s.InForm) : Outcome.InForm (execMrel s) := by
  unfold execMrel
  extract_lets
  refine swIssue_inForm (fun _ _ he => ?_) h
  split
  · exact he
  · split
    · exact he
    · extract_lets e1
      have he1 : e1.InForm := he.via fun _ hs => hs.settleCrew
      split
      · exact he1
      · exact ⟨he1.machine.modCore fun _ hco => ⟨⟨hco.wbuf, hco.abuf, hco.cbuf⟩, Swage.fresh_canonical⟩, he1.crew⟩

theorem execCdecl_inForm {c n} (h : s.InForm) : Outcome.InForm (execCdecl c n s) := by
  unfold execCdecl
  extract_lets
  refine swIssue_inForm (fun _ _ he => ?_) h
  extract_lets w
  have hw : w.Canonical := he.swage
  split
  · exact he
  · split
    · exact he
    · exact he.setSwage (by exact hw)

theorem execMstat_inForm {d} (h : s.InForm) : Outcome.InForm (execMstat d s) := by
  unfold execMstat
  exact swIssue_inForm (fun _ _ he => he.start) h

theorem Tile.InForm.setRaw {t : Tile} {i k b} (h : t.InForm) : (t.setRaw i k b).InForm := by
  unfold Tile.setRaw
  split
  · exact ⟨Memory.writeByte_wf _ _ h.data, h.scale⟩
  · exact h.setScale

theorem Tile.InForm.setRow {t : Tile} {i k bs} (h : t.InForm) : (t.setRow i k bs).InForm := h.foldl fun _ _ ht => by
    split
    · exact ht.setRaw
    · exact ht

theorem Env.InForm.globalRows {lane kind perm rows n go} (h : e.InForm) (hgo : ∀ (x : List Piece), (go x).InForm) :
    (e.globalRows lane kind perm rows n go).InForm := by
  unfold Env.globalRows
  split
  · exact swTrap_inForm h
  · extract_lets
    split
    · exact h.missAll
    · split
      · exact swPerm_inForm h
      · exact hgo _

theorem Env.InForm.loadGlobal {tn ps} (h : e.InForm) : (e.loadGlobal tn ps).InForm := by
  unfold Env.loadGlobal
  extract_lets t0 _ t
  have ht0 : t0.InForm := h.swage.tile
  have ht : t.InForm := ht0.foldl fun _ _ ht => ht.setRow
  exact (h.setSwage (h.swage.setTile ht)).swWritten

theorem Env.InForm.loadLocalRows {sp : Space} {tn base n rows} (h : e.InForm) : (e.loadLocalRows tn sp base n rows).InForm := by
  unfold Env.loadLocalRows
  extract_lets t0 t
  have ht0 : t0.InForm := h.swage.tile
  have ht : t.InForm := ht0.foldl fun _ _ ht => ht.setRow
  exact (h.setSwage (h.swage.setTile ht)).swWritten

theorem State.InForm.writeSome {write a bs} (h : s.InForm)
    (hwrite : ∀ (s : State) (n : ℕ) (x : List Byte), s.InForm → (write s n x).InForm) : (s.writeSome write a bs).InForm := by
  unfold State.writeSome
  split
  · exact hwrite _ _ _ h
  · exact h.foldl fun _ _ hs => by
      split
      · exact hwrite _ _ _ hs
      · exact hs

theorem Env.InForm.storeGlobal {tn ps} (h : e.InForm) : (e.storeGlobal tn ps).InForm := by
  unfold Env.storeGlobal
  extract_lets
  exact h.via fun _ hs => hs.foldl fun _ _ hs2 => by
      split
      · exact hs2.writeSome fun _ _ _ hs3 => hs3.homeWrite
      · exact hs2

theorem Env.InForm.storeLocalRows {sp : Space} {tn rows} (h : e.InForm) : (e.storeLocalRows tn sp rows).InForm :=
  ⟨h.machine.foldl fun _ _ hs => hs.writeSome fun _ _ _ hs2 => hs2.writeLocal, h.crew⟩

theorem Env.InForm.localRows {sp : Space} {lane rows n go} (h : e.InForm) (hgo : ∀ (x : List ℕ), (go x).InForm) :
    (e.localRows lane sp rows n go).InForm := by
  unfold Env.localRows
  extract_lets
  split
  · exact swPerm_inForm h
  · split
    · exact swPerm_inForm h
    · exact hgo _

theorem Env.InForm.checkMove {tn lane isMeta sp base stride go} (h : e.InForm) (hgo : ∀ (t : Tile), t.InForm → (go t).InForm) :
    (e.checkMove tn lane isMeta sp base stride go).InForm := by
  unfold Env.checkMove
  extract_lets t
  have ht : t.InForm := h.swage.tile
  split
  · exact swTrap_inForm h
  · split
    · exact swTrap_inForm h
    · split
      · exact swTrap_inForm h
      · exact hgo _ ht

theorem Env.InForm.rawLoad {tn lane isMeta sp a b} (h : e.InForm) : (e.rawLoad tn lane isMeta sp a b).InForm := by
  unfold Env.rawLoad
  refine h.checkMove fun _ _ => ?_
  extract_lets
  split
  · exact h.globalRows fun _ => h.loadGlobal
  · exact h.localRows fun _ => h.loadLocalRows

theorem Tile.InForm.setBlock {t : Tile} {i j xs draw} (h : t.InForm) : (t.setBlock i j xs draw).InForm := by
  unfold Tile.setBlock
  extract_lets
  split
  extract_lets t1
  have ht1 : t1.InForm := h.foldl fun _ _ ht => by
      split
      · exact ht.setBits
      · exact ht
  split
  · exact ht1
  · exact ht1.setScale

theorem Tile.InForm.setPageRow {t : Tile} {i xs draw} (h : t.InForm) : (t.setPageRow i xs draw).InForm := by
  unfold Tile.setPageRow
  split
  · exact h.foldl fun _ _ ht => ht.setBlock
  · exact h.foldl fun _ _ ht => by
      split
      · exact ht.setBits
      · exact ht

theorem Env.InForm.pageLoad {tn lane a b} (h : e.InForm) : (e.pageLoad tn lane a b).InForm := by
  unfold Env.pageLoad
  refine h.checkMove fun t ht => ?_
  extract_lets
  split
  · exact h.missAll
  · split
    · exact swTrap_inForm h
    · split
      · exact swPerm_inForm h
      · split
        next key e1 hkey =>
          have he1 : e1.InForm := by
            split at hkey
            · exact h.swKey.of_snd hkey
            · cases hkey
              exact h
          extract_lets t1
          have ht1 : t1.InForm := ht.foldl fun _ _ ht => ht.setPageRow
          exact (he1.setSwage (he1.swage.setTile ht1)).swWritten

theorem execTld_inForm {t a b c q sp pg g} (h : s.InForm) : Outcome.InForm (execTld t a b c q sp pg g s) := by
  unfold execTld
  extract_lets
  refine tileOp_inForm (fun _ _ he => ?_) h
  split
  · exact he.pageLoad
  · exact he.rawLoad

theorem execTmeta_inForm {t a b c q sp g} (h : s.InForm) : Outcome.InForm (execTmeta t a b c q sp g s) := by
  unfold execTmeta
  exact tileOp_inForm (fun _ _ he => he.rawLoad) h

theorem execTst_inForm {t a b c q sp g} (h : s.InForm) : Outcome.InForm (execTst t a b c q sp g s) := by
  unfold execTst
  extract_lets
  refine tileOp_inForm (fun _ _ he => he.checkMove fun _ _ => ?_) h
  extract_lets
  split
  · exact he.globalRows fun _ => he.storeGlobal
  · exact he.localRows fun _ => he.storeLocalRows

theorem execTzero_inForm {t c q g} (h : s.InForm) : Outcome.InForm (execTzero t c q g s) := by
  unfold execTzero
  exact tileOp_inForm (fun _ _ he => SwRes.InForm.plain (he.setSwage (he.swage.setTile he.swage.tile.zero)).swWritten) h

theorem Env.InForm.multiply {lane an bn index refused pairs} (h : e.InForm) : (e.multiply lane an bn index refused pairs).InForm := by
  unfold Env.multiply
  split
  · exact swTrap_inForm h
  · exact h.setSwage h.swage.setBank

theorem execMma_inForm {a b c q g} (h : s.InForm) : Outcome.InForm (execMma a b c q g s) := by
  unfold execMma
  exact tileOp_inForm (fun _ _ he => he.multiply) h

theorem execMmas_inForm {t a b c q g} (h : s.InForm) : Outcome.InForm (execMmas t a b c q g s) := by
  unfold execMmas
  exact tileOp_inForm (fun _ _ he => he.multiply) h

theorem execMswap_inForm {c q g} (h : s.InForm) : Outcome.InForm (execMswap c q g s) := by
  unfold execMswap
  exact tileOp_inForm (fun _ _ he => SwRes.InForm.plain (he.setSwage (by exact he.swage))) h

theorem execMclr_inForm {k c q md g} (h : s.InForm) : Outcome.InForm (execMclr k c q md g s) := by
  unfold execMclr
  exact tileOp_inForm (fun _ _ he => SwRes.InForm.plain (he.setSwage he.swage.setBank).swFresh) h

theorem execMdrain_inForm {k a b c q dt actv g} (h : s.InForm) : Outcome.InForm (execMdrain k a b c q dt actv g s) := by
  unfold execMdrain
  extract_lets
  refine tileOp_inForm (fun e lane he => ?_) h
  extract_lets
  split
  · split
    · exact swPerm_inForm he
    · exact swTrap_inForm he
  · split
    next key e1 hkey =>
      have he1 : e1.InForm := by
        split at hkey
        · exact he.swKey.of_snd hkey
        · cases hkey
          exact he
      extract_lets _ put
      have hput (t : State) (i : Nat) (ht : t.InForm) : (put t i).InForm := ht.writeSome fun _ _ _ hs => hs.writeLocal
      exact ⟨he1.machine.foldl hput, he1.crew⟩

/-! ### Fields and textures -/

theorem Env.InForm.readStruct {lane va n} (h : e.InForm) : (e.readStruct lane va n).InForm := by
  unfold Env.readStruct
  extract_lets
  split
  · exact h
  · split
    · exact h.missAll
    · exact h
    · split
      · exact h
      · split
        · exact trivial
        · split
          · exact h.via fun _ hs => hs.consumeUe
          · exact trivial

theorem Env.InForm.withRuns {lane reads writes go} (h : e.InForm) (hgo : ∀ (e : Env), e.InForm → (go e).InForm) :
    (e.withRuns lane reads writes go).InForm := by
  unfold Env.withRuns
  split
  · exact h
  · extract_lets _ e1
    have he1 : e1.InForm := Req.ready_inForm h
    split
    · exact he1
    · split
      · exact he1.via fun _ hs => hs.consumeUe
      · exact hgo _ he1

theorem Env.InForm.startField {c : FieldCmd} {sc : Scan} {dsts} (h : e.InForm) : (e.startField dsts c sc).InForm := by
  unfold Env.startField
  split
  · next hx =>
    split
    · exact h.start.of_done hx
    · exact (h.start.of_done hx).settle
  · exact h.start

theorem Env.InForm.fieldLanes {sc : Scan} {kind m go} (h : e.InForm) (hgo : ∀ (e : Env) (x : Mask), e.InForm → (go e x).InForm) :
    (e.fieldLanes kind m sc go).InForm := by
  unfold Env.fieldLanes
  split
  · exact h.missAll
  · split
    · exact h
    · extract_lets
      split
      · exact h
      · exact hgo _ _ h

theorem Env.InForm.withField {lane va absent go} (h : e.InForm) (habsent : ∀ (e : Env), e.InForm → (absent e).InForm)
    (hgo : ∀ (x : Field) (x2 : List Byte), (go x x2).InForm) : (e.withField lane va absent go).InForm := by
  unfold Env.withField
  split
  · next hx =>
    exact h.readStruct.of_stop hx
  · exact habsent _ h
  · extract_lets
    split
    · exact h
    · split
      · exact h
      · exact hgo _ _

theorem execHgf_inForm {d a b o g} (h : s.InForm) : Outcome.InForm (execHgf d a b o g s) := by
  unfold execHgf
  extract_lets
  refine issue_inForm (fun _ _ he => ?_) h
  split
  · exact he
  · exact he.withField (fun _ he2 => he2.withRuns fun _ he3 => he3.startField) fun _ _ => he.withRuns fun _ he2 => by
      extract_lets
      split
      · exact he2.missAll
      · exact he2.fieldLanes fun _ _ he3 => he3.startField

theorem execHgs_inForm {d a b i g} (h : s.InForm) : Outcome.InForm (execHgs d a b i g s) := by
  unfold execHgs
  extract_lets
  refine issue_inForm (fun _ _ he => ?_) h
  split
  · exact he
  · exact he.withField (fun _ he2 => he2.startField) fun _ _ => he.withRuns fun _ he2 => he2.fieldLanes fun _ _ he3 => he3.startField

theorem Env.InForm.fold {f : Field} {lane hd eta x0 k cw} (h : e.InForm) : (e.fold lane f hd eta x0 k cw).InForm := by
  unfold Env.fold
  extract_lets _ _ illegal
  have hillegal : illegal.InForm := h
  split
  · exact hillegal
  · split
    · exact h.missAll
    · extract_lets
      split
      · exact h.missAll
      · split
        · exact h
        · split
          · exact h
          · split
            · exact hillegal
            · split
              · next e1 hx =>
                split
                · have he1 : e1.InForm := h.startField.of_done hx
                  exact he1
                · exact h.startField.of_done hx
              · exact h.startField

theorem execHgfold_inForm {d a b c} (h : s.InForm) : Outcome.InForm (execHgfold d a b c s) := by
  unfold execHgfold
  exact issue_inForm (fun _ _ he => he.withField (fun _ he2 => he2.startField) fun _ _ => he.fold) h

theorem execMarch_inForm {d a b g} (h : s.InForm) : Outcome.InForm (execMarch d a b g s) := by
  unfold execMarch
  extract_lets
  refine issue_inForm (fun _ _ he => ?_) h
  split
  · exact he
  · extract_lets
    split
    · next hx =>
      exact he.readStruct.of_stop hx
    · exact he.startField
    · extract_lets
      split
      · exact he
      · split
        · exact he
        · exact he.fieldLanes fun _ _ he2 => he2.startField

theorem execTex_inForm {d a b g} (h : s.InForm) : Outcome.InForm (execTex d a b g s) := by
  unfold execTex
  extract_lets
  refine issue_inForm (fun _ _ he => ?_) h
  split
  · exact he
  · extract_lets
    split
    · next hx =>
      exact he.readStruct.of_stop hx
    · exact he.withRuns fun _ he2 => he2.startField
    · extract_lets
      split
      · exact he
      · exact he.withRuns fun _ he2 => by
          split
          · exact he2.missAll
          · exact he2.fieldLanes fun _ _ he3 => he3.startField

/-! ### Rays traced -/

theorem Env.InForm.passTrace {m} (h : e.InForm) : (e.passTrace m).InForm := by
  unfold Env.passTrace
  split <;> exact h

theorem Env.InForm.startTrace {vd m f} (h : e.InForm) : (e.startTrace vd m f).InForm := by
  unfold Env.startTrace
  extract_lets
  split
  · next e1 hx =>
    extract_lets _ _ _ e2
    have he2 : e2.InForm := by
      unfold e2
      refine Env.InForm.putRun ?_
      have he1 : e1.InForm := h.start.of_done hx
      exact he1
    exact he2.settle
  · exact h.start

theorem Env.InForm.traceLanes {vd m f} (h : e.InForm) : (e.traceLanes vd m f).InForm := by
  unfold Env.traceLanes
  extract_lets
  split
  · exact h.passTrace
  · split
    · next hx =>
      exact (h.startTrace.of_done hx).passTrace
    · exact h.startTrace

theorem execTrace_inForm {d a b g} (h : s.InForm) : Outcome.InForm (execTrace d a b g s) := by
  unfold execTrace
  extract_lets
  refine issue_inForm (fun _ _ he => ?_) h
  extract_lets _ _ _ _ e1
  have he1 : e1.InForm := he
  split
  · exact he
  · split
    · exact he.passTrace
    · split
      · next hx =>
        exact he.readStruct.of_stop hx
      · exact he1.traceLanes
      · split
        · exact he
        · exact Env.InForm.traceLanes (by exact he1)

theorem continueForm_inForm {i action d a g} (h : s.InForm) : Outcome.InForm (continueForm i action d a g s) := by
  unfold continueForm
  extract_lets
  refine issue_inForm (fun _ _ he => ?_) h
  extract_lets
  split
  · exact he
  · exact he.traceLanes

theorem execTcontReject_inForm {d a g} (h : s.InForm) : Outcome.InForm (execTcontReject d a g s) := by
  unfold execTcontReject
  exact continueForm_inForm h

theorem execTcontAccept_inForm {d a g} (h : s.InForm) : Outcome.InForm (execTcontAccept d a g s) := by
  unfold execTcontAccept
  exact continueForm_inForm h

theorem execTcontTerminate_inForm {d a g} (h : s.InForm) : Outcome.InForm (execTcontTerminate d a g s) := by
  unfold execTcontTerminate
  exact continueForm_inForm h

theorem execThit_inForm {d c g} (h : s.InForm) : Outcome.InForm (execThit d c g s) := by
  unfold execThit
  exact issue_inForm (fun _ _ he => he.putRun) h

theorem execTabort_inForm {g} (h : s.InForm) : Outcome.InForm (execTabort g s) := by
  unfold execTabort
  exact issue_inForm (fun _ _ he => he) h

/-! ### Streams -/

theorem Env.InForm.sessionTrap {m} (h : e.InForm) : (e.sessionTrap m).InForm := h

theorem Env.InForm.withBinding {m k dir frame go} (h : e.InForm) (hgo : ∀ (x : Binding) (x2 : Session), (go x x2).InForm) :
    (e.withBinding m k dir frame go).InForm := by
  unfold Env.withBinding
  extract_lets
  split
  · exact h.sessionTrap
  · split
    · exact h.sessionTrap
    · exact hgo _ _

theorem Env.InForm.setBind {b : Binding} {k} (h : e.InForm) : (e.setBind k b).InForm := h

theorem Env.InForm.accept {session} (h : e.InForm) : (e.accept session).InForm := h

theorem execSrd_inForm {d v k b p g} (h : s.InForm) : Outcome.InForm (execSrd d v k b p g s) := by
  unfold execSrd
  extract_lets
  refine issue_inForm (fun _ _ he => ?_) h
  split
  · exact he
  · exact he.withBinding fun _ _ => by
      split
      · next hx =>
        exact (he.start.of_done hx).setBind
      · exact he.start

theorem execSrdt_inForm {t k b p g} (h : s.InForm) : Outcome.InForm (execSrdt t k b p g s) := by
  unfold execSrdt
  extract_lets
  refine issue_inForm (fun _ _ he => ?_) h
  extract_lets e2
  have he2 : e2.InForm := by
    unfold e2
    split
    · exact he.awaitSrdt
    · exact he
  split
  · exact he
  · split
    · exact he2
    · split
      · exact he2
      · split
        · exact he2
        · exact he2.withBinding fun _ _ => he2.start

theorem execSwr_inForm {d v k b g} (h : s.InForm) : Outcome.InForm (execSwr d v k b g s) := by
  unfold execSwr
  extract_lets
  refine issue_inForm (fun _ _ he => ?_) h
  split
  · exact he
  · exact he.withBinding fun _ _ => by
      split
      · next hx =>
        exact (he.start.of_done hx).accept.setBind
      · exact he.start

theorem flushForm_inForm {i whole k g} (h : s.InForm) : Outcome.InForm (flushForm i whole k g s) := by
  unfold flushForm
  extract_lets
  refine issue_inForm (fun _ _ he => ?_) h
  split
  · exact he
  · exact he.withBinding fun _ _ => by
      extract_lets
      split
      · next hx =>
        exact (he.start.of_done hx).accept.setBind
      · exact he.start

theorem execSflushLine_inForm {k g} (h : s.InForm) : Outcome.InForm (execSflushLine k g s) := by
  unfold execSflushLine
  exact flushForm_inForm h

theorem execSflushFrame_inForm {k g} (h : s.InForm) : Outcome.InForm (execSflushFrame k g s) := by
  unfold execSflushFrame
  exact flushForm_inForm h

theorem inherit_inForm {r : Req} {k m off} (h : s.InForm) : Outcome.InForm (inherit r k m off s) := by
  unfold inherit
  refine issue_inForm (fun _ _ he => ?_) h
  split
  · exact he
  · exact he.withBinding fun _ _ => he.withBinding fun _ _ => by
      split
      · exact he
      · extract_lets _ e1
        have he1 : e1.InForm := he.setBind
        split
        · exact he1
        · exact he1.via fun _ hs => hs.setTimes

theorem execSinh_inForm {k m g} (h : s.InForm) : Outcome.InForm (execSinh k m g s) := by
  unfold execSinh
  exact inherit_inForm h

theorem execSinhOffset_inForm {d k m g} (h : s.InForm) : Outcome.InForm (execSinhOffset d k m g s) := by
  unfold execSinhOffset
  exact inherit_inForm h

theorem Env.InForm.afterStream {k go} (h : e.InForm) (hgo : ∀ (e : Env), e.InForm → (go e).InForm) : (e.afterStream k go).InForm := by
  unfold Env.afterStream
  extract_lets e1
  have he1 : e1.InForm := h.via fun _ hs => hs.settleCrew
  split
  · exact he1
  · exact hgo _ he1

theorem execSts_inForm {d k f g} (h : s.InForm) : Outcome.InForm (execSts d k f g s) := by
  unfold execSts
  extract_lets
  refine issue_inForm (fun _ _ he => ?_) h
  split
  · exact he
  · exact he.withBinding fun _ _ => he.afterStream fun _ he2 => he2.puts

theorem execSstat_inForm {d k f g} (h : s.InForm) : Outcome.InForm (execSstat d k f g s) := by
  unfold execSstat
  extract_lets
  refine issue_inForm (fun _ _ he => ?_) h
  split
  · exact he
  · exact he.withBinding fun _ _ => he.afterStream fun _ he2 => he2.puts

theorem execTime_inForm {d} (h : s.InForm) : Outcome.InForm (execTime d s) := by
  unfold execTime
  exact issue_inForm (fun _ _ he => he.puts) h

theorem execSleepu_inForm {a} (h : s.InForm) : Outcome.InForm (execSleepu a s) := by
  unfold execSleepu
  extract_lets
  refine issue_inForm (fun _ _ he => ?_) h
  extract_lets
  split
  · exact he
  · exact he.waitNext

/-! ### Requests -/

theorem Env.InForm.named_stop {lane va mis} {x : Res} (h : e.InForm) (hx : e.named lane va mis = .stop x) : x.InForm := by
  unfold Env.named at hx
  split at hx
  · cases hx
    exact h
  · split at hx
    · cases hx
      exact h.missAll
    · cases hx
      exact h
    · split at hx
      · cases hx
        exact h
      · split at hx
        · cases hx
        · cases hx

theorem Env.InForm.objectBad {lane va pa} (h : e.InForm) : (e.objectBad lane va pa).InForm := h.via fun _ hs => hs.consumeUe

theorem State.InForm.offer {ctx b reserved} (h : s.InForm) : (s.offer ctx b reserved).2.InForm := by
  unfold State.offer
  split
  · exact h.modCtx
  · exact h

theorem launchForm_inForm {i tail p a g} (h : s.InForm) : Outcome.InForm (launchForm i tail p a g s) := by
  unfold launchForm
  extract_lets
  refine issue_inForm (fun _ _ he => ?_) h
  split
  · exact he
  · extract_lets e2
    have he2 : e2.InForm := he.release
    split
    · next hx =>
      exact he2.named_stop hx
    · exact Env.InForm.putPred (by exact he2)
    · split
      · exact he2.objectBad
      · exact Env.InForm.putPred (he2.via fun _ hs => hs.offer)

theorem execLaunch_inForm {p a g} (h : s.InForm) : Outcome.InForm (execLaunch p a g s) := by
  unfold execLaunch
  exact launchForm_inForm h

theorem execLaunchTail_inForm {p a g} (h : s.InForm) : Outcome.InForm (execLaunchTail p a g s) := by
  unfold execLaunchTail
  exact launchForm_inForm h

theorem execPublish_inForm {w} (h : s.InForm) : Outcome.InForm (execPublish w s) := by
  unfold execPublish
  extract_lets
  refine issue_inForm (fun _ _ he => ?_) h
  split
  · exact he.illegal
  · split
    · next hx =>
      exact (he.release.start.of_done hx).via fun _ hs => hs.modCtx
    · exact he.release.start

theorem State.InForm.endIfBad {k} (h : s.InForm) : (s.endIfBad k).InForm := by
  unfold State.endIfBad
  split
  · split
    · exact h.endProg
    · exact h
  · exact h

theorem execCprog_inForm {p a g} (h : s.InForm) : Outcome.InForm (execCprog p a g s) := by
  unfold execCprog
  extract_lets
  refine issue_inForm (fun _ _ he => ?_) h
  split
  · exact he
  · extract_lets e2
    have he2 : e2.InForm := he.release
    split
    · next hx =>
      exact he2.named_stop hx
    · split
      · exact he2.putPred
      · split
        · next hy =>
          exact (he2.start.of_done hy).putPred.via fun _ hs => hs.startProg_getD.endIfBad
        · exact he2.start

theorem State.InForm.armSlot {ctx t b} (h : s.InForm) : (s.armSlot ctx t b).InForm := h.modCtx.evalTriggers

theorem execCtrigArm_inForm {p a t g} (h : s.InForm) : Outcome.InForm (execCtrigArm p a t g s) := by
  unfold execCtrigArm
  extract_lets
  refine issue_inForm (fun _ _ he => ?_) h
  split
  · exact he
  · extract_lets e2 _ _ e1
    have he2 : e2.InForm := he.release
    have he1 : e1.InForm := he2.putPred
    split
    · next hx =>
      exact he2.named_stop hx
    · exact he1
    · split
      · exact he1
      · split
        · exact he2.objectBad
        · extract_lets _ e12
          have he12 : e12.InForm := he2.putPred
          split
          · exact he12.via fun _ hs => hs.armSlot
          · exact he12

theorem execCtrigDisarm_inForm {p t g} (h : s.InForm) : Outcome.InForm (execCtrigDisarm p t g s) := by
  unfold execCtrigDisarm
  extract_lets
  refine issue_inForm (fun _ _ he => ?_) h
  split
  · exact he
  · exact he.putPred.via fun _ hs => hs.modCtx

theorem counterForm_inForm {i d a k g f} (h : s.InForm) : Outcome.InForm (counterForm i d a k g f s) := by
  unfold counterForm
  extract_lets
  refine issue_inForm (fun _ _ he => ?_) h
  split
  · exact he
  · exact he.release.puts.via fun _ hs => hs.setTc

theorem execCctrAdd_inForm {d a k g} (h : s.InForm) : Outcome.InForm (execCctrAdd d a k g s) := by
  unfold execCctrAdd
  exact counterForm_inForm h

theorem execCctrSet_inForm {d a k g} (h : s.InForm) : Outcome.InForm (execCctrSet d a k g s) := by
  unfold execCctrSet
  exact counterForm_inForm h

theorem execCctrRead_inForm {d k g} (h : s.InForm) : Outcome.InForm (execCctrRead d k g s) := by
  unfold execCctrRead
  extract_lets
  refine issue_inForm (fun _ _ he => ?_) h
  split
  · exact he
  · exact he.puts.acquire

theorem Env.InForm.tbarLate {m d} (h : e.InForm) : (e.tbarLate m d).InForm := h.puts

theorem State.InForm.holdFrame {k f t} (h : s.InForm) : (s.holdFrame k f t).InForm := h.setTimes.modSession

theorem execTbar_inForm {d a k x g} (h : s.InForm) : Outcome.InForm (execTbar d a k x g s) := by
  unfold execTbar
  extract_lets
  refine issue_inForm (fun _ _ he => ?_) h
  split
  · exact he
  · extract_lets
    split
    · exact he.illegal
    · split
      · exact he.sessionTrap
      · split
        · exact he.illegal
        · split
          · next hx =>
            split
            · exact (he.start.of_done hx).tbarLate
            · exact (he.start.of_done hx).via fun _ hs => hs.holdFrame.modGroup
          · exact he.start

/-! ### System instructions -/

theorem Env.InForm.arriveRound {closing} (h : e.InForm) : (e.arriveRound closing).InForm := by
  unfold Env.arriveRound
  split
  · exact h.illegal
  · exact h

theorem execIdemb_inForm (h : s.InForm) : Outcome.InForm (execIdemb s) := by
  unfold execIdemb
  extract_lets
  refine issueThen_inForm (fun _ _ hs => hs.completeBarriers) (fun _ _ he => ?_) h
  extract_lets e1
  have he1 : e1.InForm := he.settle
  split
  · exact he1.arriveRound
  · exact he1

theorem execIdeme_inForm (h : s.InForm) : Outcome.InForm (execIdeme s) := by
  unfold execIdeme
  extract_lets
  refine issueThen_inForm (fun _ _ hs => hs.completeBarriers) (fun _ _ he => ?_) h
  split
  · exact he.arriveRound
  · exact he.illegal

theorem execTlbw_inForm {a l} (h : s.InForm) : Outcome.InForm (execTlbw a l s) := by
  unfold execTlbw
  extract_lets
  refine issue_inForm (fun _ _ he => ?_) h
  extract_lets
  split
  · exact he.illegal
  · exact he.via fun _ hs => hs.installLeaf

theorem Env.InForm.sweep {everywhere tlb p} (h : e.InForm) : (e.sweep everywhere tlb p).InForm := h.via fun _ hs => by
    extract_lets _ s1
    have hs1 : s1.InForm := hs.settleAccesses.invalidate.retranslateDeps
    split
    · exact hs1.reissueWaita
    · exact hs1

theorem Env.InForm.tlbi {everywhere p} (h : e.InForm) : (e.tlbi everywhere p).InForm := by
  unfold Env.tlbi
  extract_lets e1
  have he1 : e1.InForm := h.release
  split
  · split
    · exact he1
    · exact he1.sweep
  · split
    · exact he1
    · exact he1.sweep

theorem tlbiVa_inForm {i everywhere a} (h : s.InForm) : Outcome.InForm (tlbiVa i everywhere a s) := by
  unfold tlbiVa
  extract_lets
  refine issue_inForm (fun _ _ he => ?_) h
  extract_lets
  split
  · exact he
  · exact he.tlbi

theorem execTlbiVaCore_inForm {a} (h : s.InForm) : Outcome.InForm (execTlbiVaCore a s) := by
  unfold execTlbiVaCore
  exact tlbiVa_inForm h

theorem execTlbiVaAll_inForm {a} (h : s.InForm) : Outcome.InForm (execTlbiVaAll a s) := by
  unfold execTlbiVaAll
  exact tlbiVa_inForm h

theorem tlbiCtx_inForm {i everywhere} (h : s.InForm) : Outcome.InForm (tlbiCtx i everywhere s) := by
  unfold tlbiCtx
  exact issue_inForm (fun _ _ he => he.tlbi) h

theorem execTlbiCtxCore_inForm (h : s.InForm) : Outcome.InForm (execTlbiCtxCore s) := by
  unfold execTlbiCtxCore
  exact tlbiCtx_inForm h

theorem execTlbiCtxAll_inForm (h : s.InForm) : Outcome.InForm (execTlbiCtxAll s) := by
  unfold execTlbiCtxAll
  exact tlbiCtx_inForm h

theorem lpi_inForm {i everywhere} (h : s.InForm) : Outcome.InForm (lpi i everywhere s) := by
  unfold lpi
  exact issue_inForm (fun _ _ he => he.sweep) h

theorem execLpiCore_inForm (h : s.InForm) : Outcome.InForm (execLpiCore s) := by
  unfold execLpiCore
  exact lpi_inForm h

theorem execLpiAll_inForm (h : s.InForm) : Outcome.InForm (execLpiAll s) := by
  unfold execLpiAll
  exact lpi_inForm h

theorem execWalkd_inForm (h : s.InForm) : Outcome.InForm (execWalkd s) := by
  unfold execWalkd
  extract_lets
  refine issue_inForm (fun _ _ he => ?_) h
  split
  · exact he.endOwnWalk
  · exact he.illegal

theorem execTrap_inForm {c} (h : s.InForm) : Outcome.InForm (execTrap c s) := by
  unfold execTrap
  exact issue_inForm (fun _ _ he => he) h

theorem execBrk_inForm {c} (h : s.InForm) : Outcome.InForm (execBrk c s) := by
  unfold execBrk
  exact issue_inForm (fun _ _ he => he) h

theorem execRtt_inForm (h : s.InForm) : Outcome.InForm (execRtt s) := by
  unfold execRtt
  refine issue_inForm (fun e _ he => ?_) h
  split
  · exact he
  · extract_lets back
    have hback (n : Nat) : (back n).InForm := by
      have he1 : Env.InForm { e with t := e.t.rtt n } := he
      dsimp only [back, Res.InForm]
      split
      · exact he1.yieldGroup
      · exact he1
    split
    · split
      · exact hback _
      · exact he.missAll
    · exact hback 0

theorem execSnap_inForm {t} (h : s.InForm) : Outcome.InForm (execSnap t s) := by
  unfold execSnap
  exact issue_inForm (fun _ _ he => he.via fun _ hs => hs.snapTrigger) h

/-! ### Events of strands -/

theorem State.InForm.completeOp {k : Ctr} {crew strand op} (h : s.InForm) : (s.completeOp k crew strand op).InForm := by
  unfold State.completeOp
  split
  · exact h
  · next he =>
    split
    · exact h
    · split
      · exact (h.env he).performAny.commit
      · split
        · exact (h.env he).performAny.commit.resave
        · exact h

theorem execLoadValueArrival_inForm {crew strand op} (h : s.InForm) : Outcome.InForm (execLoadValueArrival crew strand op s) :=
  h.completeOp

theorem execStoreAcknowledge_inForm {crew strand op} (h : s.InForm) : Outcome.InForm (execStoreAcknowledge crew strand op s) :=
  h.completeOp

theorem execCopyCompletion_inForm {crew strand op} (h : s.InForm) : Outcome.InForm (execCopyCompletion crew strand op s) := h.completeOp

theorem execSwageOperationCompletion_inForm {crew strand op} (h : s.InForm) :
    Outcome.InForm (execSwageOperationCompletion crew strand op s) :=
  h.completeOp

theorem execFieldRequestCompletion_inForm {crew strand op} (h : s.InForm) :
    Outcome.InForm (execFieldRequestCompletion crew strand op s) := by
  unfold execFieldRequestCompletion
  split
  · exact h
  · next he =>
    split
    · exact h
    · split
      · split
        · exact (h.env he).settleTrace.commit
        · exact h
      · exact h.completeOp

theorem execStreamOperationCompletion_inForm {crew strand op} (h : s.InForm) :
    Outcome.InForm (execStreamOperationCompletion crew strand op s) :=
  h.completeOp

theorem execTraversalStop_inForm {crew strand lane} (h : s.InForm) : Outcome.InForm (execTraversalStop crew strand lane s) := by
  unfold execTraversalStop
  split
  · exact h
  · next he =>
    split
    · exact h
    · extract_lets e1
      have he1 : e1.InForm := (h.env he).traverse
      split
      · exact he1.settleTrace.commit
      · exact he1.commit

theorem execRgrowGrant_inForm {core} (h : s.InForm) : Outcome.InForm (execRgrowGrant core s) := h.serveGrowth

theorem execStrandEnd_inForm {crew strand} (h : s.InForm) : Outcome.InForm (execStrandEnd crew strand s) := h.endStrand

theorem State.InForm.onResident {crew strand f} (h : s.InForm) (hf : ∀ (e : Env), e.InForm → (f e).InForm) :
    (s.onResident crew strand f).InForm := by
  unfold State.onResident
  split
  · next he =>
    split
    · exact hf _ (h.env he)
    · exact h
  · exact h

theorem execFairnessRotation_inForm {crew strand} (h : s.InForm) : Outcome.InForm (execFairnessRotation crew strand s) :=
  h.onResident fun _ he => by
    split
    · exact he.rotate.commit
    · exact h

theorem execActiveSetRotation_inForm {crew strand} (h : s.InForm) : Outcome.InForm (execActiveSetRotation crew strand s) :=
  h.onResident fun _ he => by
    split
    · exact he.leaveSet.commit
    · exact h

theorem execSleepExpiry_inForm {crew strand} (h : s.InForm) : Outcome.InForm (execSleepExpiry crew strand s) :=
  h.onResident fun _ he => by
    extract_lets
    split
    · exact h
    · exact Env.InForm.commit (by exact he)

theorem execSleepuExpiry_inForm {crew strand} (h : s.InForm) : Outcome.InForm (execSleepuExpiry crew strand s) :=
  h.onResident fun _ he => by
    extract_lets
    split
    · exact h
    · exact Env.InForm.commit (by exact he)

theorem execWaitaDeadline_inForm {crew strand lane} (h : s.InForm) : Outcome.InForm (execWaitaDeadline crew strand lane s) :=
  h.onResident fun _ _ => by
    split
    · split
      · exact h.rereadWaita fun _ => h.returnWaita
      · exact h
    · exact h

theorem execTrapEntry_inForm {crew strand cause mask va} (h : s.InForm) : Outcome.InForm (execTrapEntry crew strand cause mask va s) :=
  h.onResident fun _ he => by
    split
    · exact he.takeTrap
    · exact h

theorem execDeferredTrap_inForm {crew strand} (h : s.InForm) : Outcome.InForm (execDeferredTrap crew strand s) :=
  h.onResident fun _ he => by
    extract_lets e1
    have he1 : e1.InForm := he
    split
    · exact he1.takeDeferred
    · exact h

/-! ### Events of queues -/

theorem State.InForm.hostKick {q off width value} (h : s.InForm) : (s.hostKick q off width value).InForm := by
  unfold State.hostKick
  split
  · split
    · exact h.kick
    · exact h.modQueue
  · exact h.modQueue

theorem State.InForm.refuseKick {q off width} (h : s.InForm) : (s.refuseKick q off width).InForm := by
  unfold State.refuseKick
  split
  · exact h
  · exact h.modQueue

theorem execQueueKick_inForm {queue off width value} (h : s.InForm) : Outcome.InForm (execQueueKick queue off width value s) := by
  unfold execQueueKick
  split
  · exact h
  · split
    · exact h.hostKick
    · exact h.refuseKick

theorem State.InForm.badPacket {p : Packet} {ctx seq addr} (h : s.InForm) : (s.badPacket ctx seq addr p).InForm := by
  unfold State.badPacket
  extract_lets s1
  have hs1 : s1.InForm := by
    unfold s1
    split
    · exact h.writeCompletion
    · exact h
  exact hs1.recordError

theorem State.InForm.addLaunch {l : Launch} (h : s.InForm) : (s.addLaunch l).InForm := h

theorem State.InForm.substituteDue {es} (h : s.InForm) : (s.substituteDue es).InForm := h.foldl fun _ _ hs => by
    split
    · exact hs.modSession
    · exact hs

theorem State.InForm.reject {l : Launch} {expired} (h : s.InForm) : (s.reject l expired).InForm := by
  unfold State.reject
  split
  · exact h.substituteDue.complete
  · exact h.complete

theorem State.InForm.tryAlternate {l : Launch} (h : s.InForm) : (s.tryAlternate l).InForm := by
  unfold State.tryAlternate
  split
  · exact h.recordError
  · extract_lets
    split
    · exact h.badPacket
    · extract_lets _ _ s1
      have hs1 : s1.InForm := h.addLaunch
      split
      · exact hs1
      · exact hs1.reject

theorem State.InForm.shed {l : Launch} {expired} (h : s.InForm) : (s.shed l expired).InForm := by
  unfold State.shed
  split
  · exact h.complete.tryAlternate
  · exact h.reject

theorem State.InForm.test {l : Launch} (h : s.InForm) : (s.test l).InForm := by
  unfold State.test
  split
  · exact h.modLaunch
  · exact h.shed

theorem State.InForm.takeHead {q} (h : s.InForm) : (s.takeHead q).2.2.2.InForm := by
  unfold State.takeHead
  split
  · extract_lets
    exact h.modQueue
  · extract_lets
    exact h.modCtx

theorem State.InForm.pullFrom {q} (h : s.InForm) : (s.pullFrom q).InForm := by
  unfold State.pullFrom
  split
  next ctx va bytes s1 hhead =>
    have hs1 : s1.InForm := by
      have hq := h.takeHead (q := q)
      rwa [hhead] at hq
    split
    next seq s2 hseq =>
      extract_lets _ s3
      have hs3 : s3.InForm := by
        have hs2 : s2.InForm := hs1.takeSeq.of_snd hseq
        exact hs2
      split
      · exact hs3.recordError
      · extract_lets p
        split
        · exact hs3.badPacket
        · extract_lets _ _ s4
          have hs4 : s4.InForm := hs3.addLaunch
          split
          · exact hs4.test
          · exact hs4

theorem execPacketPull_inForm (h : s.InForm) : Outcome.InForm (execPacketPull s) := by
  unfold execPacketPull
  split
  · exact h
  · split
    · exact h.pullFrom.markTop
    · exact h

theorem execDependencyMet_inForm {queue} (h : s.InForm) : Outcome.InForm (execDependencyMet queue s) := by
  unfold execDependencyMet
  extract_lets s1
  have hs1 : s1.InForm := h.latchDeps
  split
  · split
    · exact hs1.test.markTop
    · exact hs1
  · exact hs1

theorem State.InForm.completeMarker (h : s.InForm) : s.completeMarker.InForm := by
  unfold State.completeMarker
  split
  · split
    · exact h.complete.markTop
    · exact h
  · exact h

theorem execEarliestReached_inForm {seq} (h : s.InForm) : Outcome.InForm (execEarliestReached seq s) := by
  unfold execEarliestReached
  split
  · split
    · extract_lets s1
      have hs1 : s1.InForm := h.markTop
      split
      · exact hs1.completeMarker
      · exact hs1
    · exact h
  · exact h

theorem execHeapDeadlineExpiry_inForm {seq} (h : s.InForm) : Outcome.InForm (execHeapDeadlineExpiry seq s) := by
  unfold execHeapDeadlineExpiry
  split
  · split
    · exact h.shed.markTop
    · exact h
  · exact h

theorem execLaunchDeadlineCut_inForm {seq} (h : s.InForm) : Outcome.InForm (execLaunchDeadlineCut seq s) := by
  unfold execLaunchDeadlineCut
  split
  · split
    · extract_lets s1
      have hs1 : s1.InForm := h.modLaunch
      exact State.InForm.markTop (hs1.foldl fun _ _ hs => hs.cutCrew)
    · exact h
  · exact h

theorem execLaunchCompletion_inForm {seq} (h : s.InForm) : Outcome.InForm (execLaunchCompletion seq s) := by
  unfold execLaunchCompletion
  split
  · split
    · exact h.complete.markTop
    · exact h
  · exact h

theorem State.InForm.settleLaunch {seq} (h : s.InForm) : (s.settleLaunch seq).InForm := h.foldl fun _ _ hs => hs.settleCrew

theorem execWatchdogExpiry_inForm {seq} (h : s.InForm) : Outcome.InForm (execWatchdogExpiry seq s) := by
  unfold execWatchdogExpiry
  split
  · split
    · split
      · exact h.settleLaunch.complete.fatalEvent.markTop
      · exact h
    · exact h
  · exact h

/-! ### Events of placement -/

theorem State.InForm.placeTop {s0 : State} {l0 : Launch} (h : s0.InForm) : (s0.placeTop l0).InForm := by
  unfold State.placeTop
  extract_lets s
  have hs : s.InForm := h.restoreWaiting
  split
  · exact hs
  · split
    · exact hs.placeUnitAt
    · split
      · exact hs.startTaking
      · exact hs

theorem execPlaceUnit_inForm (h : s.InForm) : Outcome.InForm (execPlaceUnit s) := by
  unfold execPlaceUnit
  split
  · split
    · exact h.completeMarker
    · exact h.placeTop.markTop
  · exact h

theorem State.InForm.sliceContext {x} (h : s.InForm) : (s.sliceContext x).InForm := by
  unfold State.sliceContext
  split
  · exact h
  · split
    · exact h
    · split
      · exact h
      · exact h.startTaking

theorem State.InForm.leaveRetiring (h : s.InForm) : s.leaveRetiring.InForm := h.foldl fun _ _ hs => hs.startTaking

theorem execTimeSliceTick_inForm (h : s.InForm) : Outcome.InForm (execTimeSliceTick s) := by
  unfold execTimeSliceTick
  extract_lets _ _ s1
  have hs1 : s1.InForm := State.InForm.markTop (by exact h)
  split
  · exact State.InForm.markTop (hs1.leaveRetiring.foldl fun _ _ hs => hs.sliceContext)
  · exact h

theorem State.InForm.takeGang {seq gang quench} (h : s.InForm) : (s.takeGang seq gang quench).InForm := h.foldl fun _ _ hs => by
    split
    · exact hs.startTaking
    · exact hs

theorem execGangQuench_inForm {seq gang} (h : s.InForm) : Outcome.InForm (execGangQuench seq gang s) := h.takeGang

theorem execGangSave_inForm {seq gang} (h : s.InForm) : Outcome.InForm (execGangSave seq gang s) := h.takeGang

theorem execRestoreOnRelease_inForm (h : s.InForm) : Outcome.InForm (execRestoreOnRelease s) := h.restoreWaiting.markTop

/-! ### Events of contexts -/

theorem execCxassistWrite_inForm {ctx value} (h : s.InForm) : Outcome.InForm (execCxassistWrite ctx value s) := h.modCtx

theorem execSaveAreaWrite_inForm {ctx off value} (h : s.InForm) : Outcome.InForm (execSaveAreaWrite ctx off value s) := h.modCtx

theorem execTranslationRegisterWrite_inForm {ctx off value} (h : s.InForm) :
    Outcome.InForm (execTranslationRegisterWrite ctx off value s) :=
  h.modCtx

theorem execContextReset_inForm {ctx} (h : s.InForm) : Outcome.InForm (execContextReset ctx s) := by
  unfold execContextReset
  split
  · exact h.recordError.contextReset
  · exact h

theorem execQueueBindingWrite_inForm {queue off value} (h : s.InForm) : Outcome.InForm (execQueueBindingWrite queue off value s) := by
  unfold execQueueBindingWrite
  split
  · exact h
  · exact h.modQueue

theorem execWalkStart_inForm {core ctx va kind} (h : s.InForm) : Outcome.InForm (execWalkStart core ctx va kind s) := by
  unfold execWalkStart
  extract_lets co
  have hco : co.InForm := h.core
  split
  · exact State.InForm.serveMisses (h.setCore (by exact hco))
  · exact h

theorem State.InForm.fillControl {ctx v} (h : s.InForm) : (s.fillControl ctx v).InForm := by
  unfold State.fillControl
  extract_lets _ _ _ _ s1 _ s2
  have hs1 : s1.InForm := h.modCtx
  have hs2 : s2.InForm := by
    unfold s2
    split
    · exact hs1.installLeaf
    · exact hs1
  split
  · exact hs2.endWalk
  · exact hs2

theorem execHostFill_inForm {ctx value} (h : s.InForm) : Outcome.InForm (execHostFill ctx value s) := by
  unfold execHostFill
  split
  · exact h.fillControl
  · exact h

theorem execHostWalkEnd_inForm {ctx value} (h : s.InForm) : Outcome.InForm (execHostWalkEnd ctx value s) := by
  unfold execHostWalkEnd
  split
  · exact h.fillControl
  · exact h

theorem execResvaWrite_inForm {ctx value} (h : s.InForm) : Outcome.InForm (execResvaWrite ctx value s) := by
  unfold execResvaWrite
  extract_lets
  split
  · exact h.modCtx.serveResidency
  · exact h

theorem State.InForm.copyPage {ctx src dst} (h : s.InForm) : (s.copyPage ctx src dst).InForm := h.foldl fun _ _ hs => by
    split
    · exact hs.uncorrectable
    · exact hs.engineWrite

theorem State.InForm.beginMove {ctx va} (h : s.InForm) : (s.beginMove ctx va).InForm := by
  unfold State.beginMove
  split
  · exact h
  · extract_lets
    split
    · exact h
    · split
      · exact h.postEvent
      · exact h.engineWrite.invalidatePage.modCtx

theorem State.InForm.finishMove {p : PageMove} {ctx} (h : s.InForm) : (s.finishMove ctx p).InForm :=
  h.copyPage.engineWrite.invalidatePage.modCtx.postEvent.settlePgreqs

theorem execPageMigration_inForm {ctx va} (h : s.InForm) : Outcome.InForm (execPageMigration ctx va s) := by
  unfold execPageMigration
  split
  · exact h
  · split
    · split
      · exact h.finishMove
      · exact h
    · split
      · exact h.modCtx.beginMove
      · exact h

/-! ### Events of the host -/

theorem State.InForm.outsideWrite {w : Writer} {pa data} (h : s.InForm) : (s.outsideWrite w pa data).InForm := by
  unfold State.outsideWrite
  extract_lets
  split
  · exact h.homeWrite
  · exact h.foldl fun _ _ hs => by
      split
      · exact hs
      · exact hs.homeWrite

theorem State.InForm.countRemote {ctx pa} (h : s.InForm) : (s.countRemote ctx pa).InForm := by
  unfold State.countRemote
  split
  · exact h.countAtomic
  · exact h

theorem execHostWrite_inForm {pa data atomic} (h : s.InForm) : Outcome.InForm (execHostWrite pa data atomic s) := by
  unfold execHostWrite
  split
  · exact h
  · extract_lets s1
    have hs1 : s1.InForm := h.outsideWrite
    split
    · exact hs1.countRemote
    · exact hs1

theorem State.InForm.modWindow {ctx win f} (h : s.InForm) : (s.modWindow ctx win f).InForm := h.modCtx

theorem execWindowRegisterWrite_inForm {ctx win off value} (h : s.InForm) :
    Outcome.InForm (execWindowRegisterWrite ctx win off value s) :=
  h.modWindow

theorem execPublicationServe_inForm {ctx win} (h : s.InForm) : Outcome.InForm (execPublicationServe ctx win s) := by
  unfold execPublicationServe
  extract_lets _ s1
  have hs1 : s1.InForm := h.homeWrite
  split
  · exact hs1.modWindow
  · exact h

theorem State.InForm.publishUnit {w : Window} {ctx i} (h : s.InForm) : (s.publishUnit ctx w i).InForm := by
  unfold State.publishUnit
  split
  · exact h
  · exact h.homeWrite

theorem execPublicationComplete_inForm {ctx win} (h : s.InForm) : Outcome.InForm (execPublicationComplete ctx win s) := by
  unfold execPublicationComplete
  extract_lets
  split
  · extract_lets _ _ s0 s1 s2
    have hs0 : s0.InForm := h.deferFor
    have hs1 : s1.InForm := hs0.foldl fun _ _ hs => hs.publishUnit
    have hs2 : s2.InForm := hs1.modWindow
    exact hs2.homeWrite.finishFor
  · exact h

/-! ### The loader -/

theorem State.InForm.writeVirtual {ctx va bs fuel} (h : s.InForm) : (s.writeVirtual ctx va bs fuel).InForm := by
  induction fuel generalizing s va bs with
  | zero => exact h
  | succ n ih =>
    unfold State.writeVirtual
    split
    · exact h
    · extract_lets _ s1
      have hs1 : s1.InForm := by
        unfold s1
        split
        · exact h.engineWrite
        · exact h
      exact ih hs1

theorem State.InForm.writeImage {x : Image} {m : Memory} {ctx b} (h : s.InForm) : (s.writeImage ctx b x m).InForm :=
  h.foldl fun _ _ hs => hs.writeVirtual

theorem State.InForm.load {ctx} (h : s.InForm) : (s.load ctx).1.InForm := by
  unfold State.load
  extract_lets
  split
  · exact h
  · split
    · exact h
    · split
      · exact h
      · split
        · exact h
        · split
          · exact h
          · exact h.writeImage

theorem execLoaderGo_inForm {ctx} (h : s.InForm) : Outcome.InForm (execLoaderGo ctx s) := by
  unfold execLoaderGo
  split
  · exact h.modCtx
  · exact h

theorem execLoaderDone_inForm {ctx} (h : s.InForm) : Outcome.InForm (execLoaderDone ctx s) := by
  unfold execLoaderDone
  split
  · split
    next hx =>
      exact (h.load.of_fst hx).modCtx
  · exact h

/-! ### Events of ports -/

theorem State.InForm.countRecv {l} (h : s.InForm) : (s.countRecv l).InForm := h.modLport

theorem State.InForm.countDrop {l} (h : s.InForm) : (s.countDrop l).InForm := h.modLport

theorem execPortctlWrite_inForm {port value} (h : s.InForm) : Outcome.InForm (execPortctlWrite port value s) := by
  unfold execPortctlWrite
  extract_lets
  split
  · exact h
  · exact h.modPort

theorem execPortLinkChange_inForm {lport up} (h : s.InForm) : Outcome.InForm (execPortLinkChange lport up s) := by
  unfold execPortLinkChange
  split
  · exact h.modLport
  · exact h

theorem execArpRequest_inForm {lport target senderIp senderMac} (h : s.InForm) :
    Outcome.InForm (execArpRequest lport target senderIp senderMac s) := by
  unfold execArpRequest
  split
  · exact h.emit
  · exact h

theorem execPtpctlWrite_inForm {value} (h : s.InForm) : Outcome.InForm (execPtpctlWrite value s) := by
  unfold execPtpctlWrite
  extract_lets
  split <;> exact h

theorem State.InForm.measureSync (h : s.InForm) : s.measureSync.InForm := by
  unfold State.measureSync
  extract_lets
  split
  · extract_lets _ s1
    have hs1 : s1.InForm := h
    split
    · exact hs1.setStage
    · exact hs1
  · exact h

theorem State.InForm.finishExchange (h : s.InForm) : s.finishExchange.InForm := by
  unfold State.finishExchange
  extract_lets
  split
  · extract_lets
    split
    · exact h
    · split <;> exact h
  · exact h

theorem State.InForm.takePtp {msg} (h : s.InForm) : (s.takePtp msg).InForm := by
  unfold State.takePtp
  extract_lets
  split
  · exact h
  · split
    · exact State.InForm.measureSync (by exact h)
    · exact h
  · split
    · exact State.InForm.measureSync (by exact h)
    · exact h
  · split
    · exact State.InForm.finishExchange (by exact h)
    · exact h

theorem execPtpEventMessage_inForm {lport msg} (h : s.InForm) : Outcome.InForm (execPtpEventMessage lport msg s) := by
  unfold execPtpEventMessage
  split
  · exact h
  · extract_lets s1
    have hs1 : s1.InForm := h.countRecv
    split
    · exact hs1.countDrop
    · exact hs1.takePtp

theorem execDelayReqTransmit_inForm (h : s.InForm) : Outcome.InForm (execDelayReqTransmit s) := by
  unfold execDelayReqTransmit
  extract_lets
  split <;> exact h

theorem execPtpMasterLoss_inForm (h : s.InForm) : Outcome.InForm (execPtpMasterLoss s) := h

/-! ### Events of sessions -/

theorem State.InForm.emptyObjects {k} (h : s.InForm) : (s.emptyObjects k).InForm :=
  h.foldl fun _ _ hs => hs.engineWrite.engineWrite.engineWrite

theorem State.InForm.joinGroup {d : SessDesc} (h : s.InForm) : (s.joinGroup d).InForm := by
  unfold State.joinGroup
  split
  · exact h.foldl fun _ _ hs => hs.emit
  · exact h

theorem execSessionOpen_inForm {session value} (h : s.InForm) : Outcome.InForm (execSessionOpen session value s) := by
  unfold execSessionOpen
  extract_lets
  split
  · exact h
  · split
    · exact h.modSession
    · split
      · exact h.modSession
      · split
        · exact h.modSession
        · exact h.modSession.emptyObjects.joinGroup

theorem execSessionClose_inForm {session} (h : s.InForm) : Outcome.InForm (execSessionClose session s) := h.closeSession

theorem State.InForm.settleReads {k want} (h : s.InForm) : (s.settleReads k want).InForm :=
  h.foldl fun _ _ hs => hs.foldl fun _ _ hs2 => by
    split
    · exact hs2.settleStrand.resave
    · exact hs2

theorem State.InForm.recvClaim {k f t} (h : s.InForm) : (s.recvClaim k f t).InForm := by
  unfold State.recvClaim
  split
  · exact h
  · exact h.settleReads.claimSlot

theorem State.InForm.settleFrame {k f t} (h : s.InForm) : (s.settleFrame k f t).InForm := by
  unfold State.settleFrame
  extract_lets s1
  have hs1 : s1.InForm := by
    unfold s1
    split
    · exact h.setFrameState
    · exact h
  split
  · exact hs1
  · split
    · exact hs1.setFrameState
    · exact hs1

theorem State.InForm.storeGroup {k f y g bs} (h : s.InForm) : (s.storeGroup k f y g bs).InForm := by
  unfold State.storeGroup
  extract_lets
  split
  · exact h.modSession
  · exact h.engineWrite.modSlot

theorem State.InForm.storeSegment {k f stamp g} (h : s.InForm) : (s.storeSegment k f stamp g).InForm := by
  unfold State.storeSegment
  extract_lets
  split
  · exact h
  · exact h.foldl fun _ _ hs => hs.storeGroup

theorem State.InForm.takeVideo {k p} (h : s.InForm) : (s.takeVideo k p).InForm := by
  unfold State.takeVideo
  extract_lets
  split
  · exact h.modSession
  · split
    · exact h.modSession
    · extract_lets s1 _ _ s2 s3
      have hs1 : s1.InForm := h.recvClaim
      have hs2 : s2.InForm := hs1.foldl fun _ _ hs => hs.storeSegment
      have hs3 : s3.InForm := by
        unfold s3
        split
        · exact hs2
        · exact hs2.settleFrame
      split
      · exact hs3.modSession
      · exact hs3

theorem State.InForm.handOver {l stamp} (h : s.InForm) : (s.handOver l stamp).InForm := h.modLport

theorem execVideoPacketReceive_inForm {lport pkt} (h : s.InForm) : Outcome.InForm (execVideoPacketReceive lport pkt s) := by
  unfold execVideoPacketReceive
  split
  · exact h
  · extract_lets s1
    have hs1 : s1.InForm := h.handOver.countRecv
    split
    · exact hs1.countDrop
    · split
      · exact hs1.countDrop
      · split
        extract_lets s2
        have hs2 : s2.InForm := hs1.modSession
        split
        · exact hs2
        · split
          · exact hs2.countDrop
          · exact hs2.takeVideo

theorem execOpaquePacketReceive_inForm {lport pkt} (h : s.InForm) : Outcome.InForm (execOpaquePacketReceive lport pkt s) := by
  unfold execOpaquePacketReceive
  split
  · exact h
  · extract_lets s1
    have hs1 : s1.InForm := h.handOver.countRecv
    split
    · exact hs1.countDrop
    · split
      · exact hs1.countDrop
      · split
        extract_lets s2
        have hs2 : s2.InForm := hs1.modSession
        split
        · exact hs2
        · split
          · exact hs2.countDrop
          · exact hs2.engineWrite.modSession

theorem State.InForm.fillLineGroups {k f y} (h : s.InForm) : (s.fillLineGroups k f y).InForm := by
  unfold State.fillLineGroups
  extract_lets _ _ _ s1 s2
  have hs1 : s1.InForm := h.foldl fun _ _ hs => hs.engineWrite
  have hs2 : s2.InForm := hs1.modSlot
  exact hs2.modSession.writeFilled

theorem State.InForm.closeLine {k f y} (h : s.InForm) : (s.closeLine k f y).InForm := h.fillLineGroups.settleFrame.settleReads

theorem execLineClose_inForm {session frame line} (h : s.InForm) : Outcome.InForm (execLineClose session frame line s) := by
  unfold execLineClose
  extract_lets _ _ s1
  have hs1 : s1.InForm := by
    unfold s1
    split
    · exact h.recvClaim
    · exact h
  split
  · exact h
  · split
    · exact hs1.closeLine
    · exact hs1

theorem State.InForm.claimSubst {k} (h : s.InForm) : (s.claimSubst k).InForm := by
  unfold State.claimSubst
  extract_lets
  split
  · exact h
  · extract_lets _ s1
    have hs1 : s1.InForm := h.sendClaim
    split
    · exact h.modSession
    · split
      · exact hs1.modSession.modSlot
      · exact h

theorem State.InForm.beginLine {sd : Sending} {k f y} (h : s.InForm) : (s.beginLine k f y sd).1.InForm := by
  unfold State.beginLine
  extract_lets _ _ _ _ _ s1 s2
  have hs1 : s1.InForm := h.modSlot
  unfold s2
  split
  · exact hs1.modSession.writeFilled
  · exact hs1

theorem State.InForm.endFrame {sd : Sending} {k f} (h : s.InForm) : (s.endFrame k f sd).InForm := h.setFrameState.modSession

theorem State.InForm.sendVideo {k rtp line first marker data} (h : s.InForm) : (s.sendVideo k rtp line first marker data).InForm :=
  State.InForm.modSession (h.foldl fun _ _ hs => hs.emit.countSent)

theorem execPacketTransmit_inForm {session} (h : s.InForm) : Outcome.InForm (execPacketTransmit session s) := by
  unfold execPacketTransmit
  extract_lets s0 x cur
  have hs0 : s0.InForm := h.claimSubst
  clear_value s0 cur
  split
  · exact h
  · split
    · exact hs0
    · extract_lets
      split
      · exact hs0
      · split
        next s1 sd1 hline =>
          have hs1 : s1.InForm := by
            split at hline
            · exact hs0.beginLine.of_fst hline
            · cases hline
              exact hs0
          extract_lets _ s2
          have hs2 : s2.InForm := hs1.sendVideo
          split
          · exact hs2.endFrame
          · exact hs2.modSession

theorem execOpaqueTransmit_inForm {session} (h : s.InForm) : Outcome.InForm (execOpaqueTransmit session s) := by
  unfold execOpaqueTransmit
  extract_lets _ _ _ _ _ s1
  have hs1 : s1.InForm := h.foldl fun _ _ hs => hs.emit.countSent
  split
  · exact h
  · exact hs1.modSession

/-! ### Events of links -/

theorem State.InForm.progSend {k peer kind h data} (hin : s.InForm) : (s.progSend k peer kind h data).2.InForm := by
  unfold State.progSend
  split
  · exact hin
  · split
    · exact hin.sendOn
    · exact hin.holdTraffic
    · exact hin.endProg
    · exact hin

theorem State.InForm.askRow {m : OutMsg} {k} (h : s.InForm) : (s.askRow k m).InForm := by
  unfold State.askRow
  split
  · exact h
  · split
    next hx =>
      split
      · exact h.progSend.of_snd hx
      · split
        · exact h.progSend.of_snd hx
        · exact (h.progSend.of_snd hx).setProg

theorem State.InForm.pump {k} (h : s.InForm) : (s.pump k).InForm := by
  unfold State.pump
  split
  · exact h
  · exact h.foldl fun _ _ hs => hs.askRow

theorem State.InForm.retryGrant {row} (h : s.InForm) : (s.retryGrant row).InForm := by
  unfold State.retryGrant
  extract_lets
  split
  · exact h
  · split
    · exact h
    · split
      · exact h.endProg
      · exact h.tellGrant

theorem State.InForm.pumpAll (h : s.InForm) : s.pumpAll.InForm := by
  unfold State.pumpAll
  extract_lets s1
  have hs1 : s1.InForm := h.foldl fun _ _ hs => by
      split
      · split
        · exact hs
        · exact hs.pump
      · exact hs
  exact hs1.foldl fun _ _ hs => hs.retryGrant

theorem State.InForm.sendAck {l peer rport} (h : s.InForm) : (s.sendAck l peer rport).InForm := h.emit.countSent

theorem State.InForm.receiveLly {l kind h data f} (hin : s.InForm) (hf : ∀ (s : State), s.InForm → (f s).InForm) :
    (s.receiveLly l kind h data f).InForm := by
  unfold State.receiveLly
  split
  · split
    · exact hin.countRecv.countDrop
    · exact hin
  · extract_lets s1 _ s2 s3
    have hs1 : s1.InForm := hin.countRecv.learnPort
    have hs2 : s2.InForm := hs1.setPath
    have hs3 : s3.InForm := hs2.setPath.sendAck
    split
    · exact hs2.pumpAll
    · split
      · exact hs2.sendAck
      · refine State.InForm.pumpAll ?_
        split
        · exact hf _ hs3
        · exact hs3.sendLly

theorem execLlynadReq_inForm {lport hdr} (h : s.InForm) : Outcome.InForm (execLlynadReq lport hdr s) := h.receiveLly fun _ hs => by
    split
    · exact hs.tellGrant
    · split
      · exact hs
      · exact hs.queueReq

theorem execLlynadGrant_inForm {lport hdr} (h : s.InForm) : Outcome.InForm (execLlynadGrant lport hdr s) := h.receiveLly fun _ hs => by
    split
    · exact hs
    · split
      · exact hs
      · split
        · exact hs
        · extract_lets
          split
          next hx =>
            split
            · exact hs.progSend.of_snd hx
            · split
              · exact hs.progSend.of_snd hx
              · exact (hs.progSend.of_snd hx).setProg

theorem execLlynadData_inForm {lport hdr flits} (h : s.InForm) : Outcome.InForm (execLlynadData lport hdr flits s) :=
  h.receiveLly fun _ hs => by
    extract_lets _ long
    clear_value long
    split
    · exact hs.endProg
    · split <;> exact hs

theorem execLlynadAck_inForm {lport hdr} (h : s.InForm) : Outcome.InForm (execLlynadAck lport hdr s) := h.receiveLly fun _ hs => hs

theorem execLlynadSig_inForm {lport hdr} (h : s.InForm) : Outcome.InForm (execLlynadSig lport hdr s) := h.receiveLly fun _ hs => by
    split
    · split
      · exact hs.addTc
      · exact hs
    · exact hs

theorem execLlynadAbt_inForm {lport hdr} (h : s.InForm) : Outcome.InForm (execLlynadAbt lport hdr s) := h.receiveLly fun _ hs => by
    split
    · exact hs.endProg
    · exact hs

theorem State.InForm.moveDatagram {p : LPath} {d : Datagram} (h : s.InForm) : (s.moveDatagram p d).InForm := by
  unfold State.moveDatagram
  split
  next ok s1 hsend =>
    have hs1 : s1.InForm := by
      split at hsend
      · cases hsend
        exact h
      · split at hsend
        · exact h.progSend.of_snd hsend
        · cases hsend
          exact h.sendLly
    split
    · exact hs1
    · exact hs1.setPath

theorem State.InForm.failPath {p : LPath} (h : s.InForm) : (s.failPath p).InForm := by
  unfold State.failPath
  extract_lets _ s1 s2
  have hs1 : s1.InForm := h.setPath
  have hs2 : s2.InForm := hs1.foldl fun _ _ hs => by
      split
      · extract_lets st1
        have hst1 : st1.InForm := hs.tryEvent
        split
        · exact hst1.endProg
        · exact hst1
      · exact hs
  exact hs2.foldl fun _ _ hs => hs.moveDatagram

theorem State.InForm.resendPath {p : LPath} {due} (h : s.InForm) : (s.resendPath p due).InForm :=
  h.setPath.foldl fun _ _ hs => hs.emit.countSent

theorem execLlynadResend_inForm {peer lport rport} (h : s.InForm) : Outcome.InForm (execLlynadResend peer lport rport s) := by
  unfold execLlynadResend
  extract_lets
  split
  · exact h
  · split
    · exact h.failPath
    · exact h.resendPath

theorem execLlynadPathRetry_inForm {peer lport rport} (h : s.InForm) : Outcome.InForm (execLlynadPathRetry peer lport rport s) := by
  unfold execLlynadPathRetry
  extract_lets
  split
  · exact h
  · split
    · exact h.setPath.sendAck
    · exact h.resendPath

theorem State.InForm.rerouteTo {peer} (h : s.InForm) : (s.rerouteTo peer).InForm :=
  h.foldl fun _ _ hs => hs.foldl fun _ _ hs2 => hs2.moveDatagram

theorem execRelayWrite_inForm {ctx value} (h : s.InForm) : Outcome.InForm (execRelayWrite ctx value s) := by
  unfold execRelayWrite
  extract_lets _ s1
  have hs1 : s1.InForm := h.modCtx
  split
  · exact h
  · refine State.InForm.pumpAll ?_
    exact hs1.foldl fun _ _ hs => by
      split
      · exact hs
      · split
        · exact hs.endProg
        · split
          · exact hs.setProg.rerouteTo
          · exact hs

/-! ### Events of collective programs -/

theorem State.InForm.readChunk {pr : CProg} {va n} {bs} {t : State} (h : s.InForm) (ht : s.readChunk pr va n = some (bs, t)) :
    t.InForm := by
  obtain ⟨xs, _, hxs⟩ := Option.map_eq_some_iff.mp ht
  cases hxs
  exact h.noteBad

theorem State.InForm.writeChunk {pr : CProg} {va bs} {t : State} (h : s.InForm) (ht : s.writeChunk pr va bs = some t) : t.InForm := by
  unfold State.writeChunk at ht
  split at ht
  · cases ht
    exact h.writeVirtual
  · cases ht

theorem State.InForm.advance {k} (h : s.InForm) : (s.advance k).InForm := by
  unfold State.advance
  split
  · exact h
  · split
    · exact h.endProg
    · exact h.setProg.fetchStep

theorem State.InForm.onStep {k op f} (h : s.InForm) (hf : ∀ (x : CProg) (n : ℕ) (x2 : CStep), (f x n x2).InForm) :
    (s.onStep k op f).InForm := by
  unfold State.onStep
  split
  · exact h
  · split
    · exact h.endProg
    · split
      · exact h.endProg
      · extract_lets
        split
        · exact h.endProg
        · split
          · exact hf _ _ _
          · exact h

theorem State.InForm.capture {k peer data} (h : s.InForm) : (s.capture k peer data).InForm := by
  unfold State.capture
  split
  · exact h
  · exact h.setProg

theorem execCollSend_inForm {prog} (h : s.InForm) : Outcome.InForm (execCollSend prog s) := by
  unfold execCollSend
  refine State.InForm.onStep h fun _ _ _ => ?_
  extract_lets
  split
  · exact h.endProg
  · next bs s1 hread => exact (h.readChunk hread).capture.advance.pump

theorem State.InForm.landed {pr : CProg} {peer num got bs} {t : State} (h : s.InForm) (ht : s.landed pr peer num got = some (bs, t)) :
    t.InForm := by
  unfold State.landed at ht
  split at ht
  · split at ht
    · cases ht
      exact h
    · cases ht
  · extract_lets own here at ht
    split at ht
    · cases ht
      exact h.releaseRows
    · cases ht

theorem State.InForm.endReceive {k peer num forward} (h : s.InForm) : (s.endReceive k peer num forward).InForm := by
  unfold State.endReceive
  split
  · exact h
  · extract_lets _ s1 s2
    have hs1 : s1.InForm := h.setProg
    have hs2 : s2.InForm := by
      unfold s2
      split
      · exact hs1.capture
      · exact hs1
    exact hs2.advance.pump

/-- The receive of a message, for a way of joining a chunk that keeps the form. -/
theorem State.InForm.receiveStep {k peer forward dst} {form : CProg → State → Nat → List Byte → Option (List Byte × State)} {fuel}
    (h : s.InForm) (hform : ∀ pr (s : State) off bs ys t, s.InForm → form pr s off bs = some (ys, t) → t.InForm) :
    (s.receiveStep k peer forward dst form fuel).InForm := by
  induction fuel generalizing s with
  | zero => exact h
  | succ n ih =>
    unfold State.receiveStep
    split
    · exact h
    · next pr hpr =>
      extract_lets num off
      split
      · exact h.endReceive
      · split
        · split
          · exact h.endProg
          · exact h
        · next bs s1 hland =>
          have hs1 : s1.InForm := h.landed hland
          split
          · exact hs1.endProg
          · split
            · exact hs1.endProg
            · next ys s2 hys =>
              have hs2 : s2.InForm := hform pr s1 off bs ys s2 hs1 hys
              split
              · exact hs2.endProg
              · next s3 hwrite =>
                have hs3 : s3.InForm := hs2.writeChunk hwrite
                split
                · exact hs3
                · exact ih hs3.setProg

theorem execCollRecv_inForm {prog} (h : s.InForm) : Outcome.InForm (execCollRecv prog s) := by
  unfold execCollRecv
  refine State.InForm.onStep h fun _ _ _ => h.receiveStep fun _ t _ _ _ u ht hu => ?_
  cases hu
  exact ht

theorem execCollRrs_inForm {prog} (h : s.InForm) : Outcome.InForm (execCollRrs prog s) := by
  unfold execCollRrs
  refine State.InForm.onStep h fun _ _ _ => h.receiveStep fun _ t _ _ _ u ht hu => ?_
  obtain ⟨⟨xs, v⟩, hread, hv⟩ := Option.map_eq_some_iff.mp hu
  cases hv
  exact ht.readChunk hread

theorem execCollCopy_inForm {prog} (h : s.InForm) : Outcome.InForm (execCollCopy prog s) := by
  unfold execCollCopy
  refine State.InForm.onStep h fun _ _ _ => ?_
  extract_lets
  split
  · exact h.endProg
  · next bs s1 hread =>
    have hs1 := h.readChunk hread
    split
    · exact hs1.endProg
    · next s2 hwrite => exact (hs1.writeChunk hwrite).advance

theorem execCollWait_inForm {prog} (h : s.InForm) : Outcome.InForm (execCollWait prog s) := h.onStep fun _ _ _ => by
    split
    · exact h.advance
    · exact h.pump

theorem execCollLoop_inForm {prog} (h : s.InForm) : Outcome.InForm (execCollLoop prog s) := h.onStep fun _ _ _ => by
    extract_lets
    split
    · exact h.setProg.fetchStep
    · exact h.setProg.advance

theorem execCollSig_inForm {prog} (h : s.InForm) : Outcome.InForm (execCollSig prog s) := h.onStep fun _ _ _ => by
    extract_lets
    split
    · exact h.addTc.advance
    · split
      next hx =>
        split
        · exact (h.progSend.of_snd hx).advance
        · exact h.progSend.of_snd hx

theorem execCollEnd_inForm {prog} (h : s.InForm) : Outcome.InForm (execCollEnd prog s) := h.onStep fun _ _ _ => by
    split
    · exact h.endProg
    · exact h.pump

theorem execTriggerCounterWrite_inForm {ctx k value} (h : s.InForm) : Outcome.InForm (execTriggerCounterWrite ctx k value s) := by
  unfold execTriggerCounterWrite
  split
  · exact h.setTc
  · exact h

theorem State.InForm.runTriggerCopy {ctx slot f b} (h : s.InForm) : (s.runTriggerCopy ctx slot f b).InForm := by
  unfold State.runTriggerCopy
  split
  · exact h.recordError.endAction
  · split
    next hx =>
      extract_lets s2
      have hs2 : s2.InForm := by
        unfold s2
        split
        · exact (h.runCopy.of_fst hx).consumeUe
        · exact h.runCopy.of_fst hx
      exact hs2.endAction

theorem execTriggerActionEnd_inForm {ctx slot} (h : s.InForm) : Outcome.InForm (execTriggerActionEnd ctx slot s) := by
  unfold execTriggerActionEnd
  split
  · exact h
  · split
    · exact h.runTriggerCopy
    · exact h.startProg_getD

/-! ### Sessions converted -/

theorem execCvt_inForm {d a t st u q g} (h : s.InForm) : Outcome.InForm (execCvt d a t st u q g s) := by
  unfold execCvt
  exact roundForm_inForm h

theorem packForm_inForm {i d a b g merge f} (h : s.InForm) : Outcome.InForm (packForm i d a b g merge f s) := by
  unfold packForm
  exact issue_inForm (fun _ _ he => Req.put_inForm he) h

theorem execPackB16_inForm {d a b g} (h : s.InForm) : Outcome.InForm (execPackB16 d a b g s) := by
  unfold execPackB16
  exact packForm_inForm h

theorem execPackB8Lo_inForm {d a b g} (h : s.InForm) : Outcome.InForm (execPackB8Lo d a b g s) := by
  unfold execPackB8Lo
  exact packForm_inForm h

theorem execPackB8Hi_inForm {d a b g} (h : s.InForm) : Outcome.InForm (execPackB8Hi d a b g s) := by
  unfold execPackB8Hi
  exact packForm_inForm h

theorem execPackB4Q0_inForm {d a b g} (h : s.InForm) : Outcome.InForm (execPackB4Q0 d a b g s) := by
  unfold execPackB4Q0
  exact packForm_inForm h

theorem execPackB4Q1_inForm {d a b g} (h : s.InForm) : Outcome.InForm (execPackB4Q1 d a b g s) := by
  unfold execPackB4Q1
  exact packForm_inForm h

theorem execPackB4Q2_inForm {d a b g} (h : s.InForm) : Outcome.InForm (execPackB4Q2 d a b g s) := by
  unfold execPackB4Q2
  exact packForm_inForm h

theorem execPackB4Q3_inForm {d a b g} (h : s.InForm) : Outcome.InForm (execPackB4Q3 d a b g s) := by
  unfold execPackB4Q3
  exact packForm_inForm h

theorem execUnpack_inForm {d a k sx w g} (h : s.InForm) : Outcome.InForm (execUnpack d a k sx w g s) := by
  unfold execUnpack
  exact issue_inForm (fun _ _ he => Req.put_inForm he) h

/-! ### Events of genlock groups -/

theorem State.InForm.modTbar {g p f} (h : s.InForm) : (s.modTbar g p f).InForm := h.modGroup

theorem State.InForm.takeArrive {g rank t} (h : s.InForm) : (s.takeArrive g rank t).InForm := by
  unfold State.takeArrive
  split
  · exact h.modGroup
  · exact h

theorem execLlynadArrive_inForm {lport hdr} (h : s.InForm) : Outcome.InForm (execLlynadArrive lport hdr s) := h.receiveLly fun _ hs => by
    split
    · split
      · exact hs.takeArrive
      · exact hs
    · exact hs

theorem State.InForm.disagree {b : Genlock} (h : s.InForm) : (s.disagree b).InForm := by
  unfold State.disagree
  split
  · exact h
  · next he =>
    extract_lets
    split
    · exact h
    · exact (h.env he).deliver.commit.resave

theorem State.InForm.takeCommit {g t} (h : s.InForm) : (s.takeCommit g t).InForm := by
  unfold State.takeCommit
  split
  · exact h.modGroup
  · exact State.InForm.modTbar (h.foldl fun _ _ hs => hs.disagree.tryEvent)

theorem execLlynadCommit_inForm {lport hdr} (h : s.InForm) : Outcome.InForm (execLlynadCommit lport hdr s) := h.receiveLly fun _ hs => by
    split
    · exact hs.takeCommit
    · exact hs

theorem execLlynadCack_inForm {lport hdr} (h : s.InForm) : Outcome.InForm (execLlynadCack lport hdr s) := h.receiveLly fun _ hs => by
    split
    · exact hs.modTbar
    · exact hs

theorem execGenlockArrive_inForm {group} (h : s.InForm) : Outcome.InForm (execGenlockArrive group s) := by
  unfold execGenlockArrive
  extract_lets
  exact h.foldl fun _ _ hs => by
    extract_lets st1
    have hst1 : st1.InForm := hs.modTbar
    split
    · exact hst1.takeArrive
    · exact hst1.sendLly

theorem State.InForm.commitTo {g t} (h : s.InForm) : (s.commitTo g t).InForm := by
  unfold State.commitTo
  extract_lets
  split
  · exact h
  · exact h.foldl fun _ _ hs => by
      split
      · exact hs.takeCommit
      · exact hs.sendLly

theorem execGenlockCommitInstant_inForm {group} (h : s.InForm) : Outcome.InForm (execGenlockCommitInstant group s) := by
  unfold execGenlockCommitInstant
  extract_lets
  split
  · exact h
  · exact h.foldl fun _ _ hs => hs.modTbar.commitTo

theorem State.InForm.writeBarrier {ctx pa t} (h : s.InForm) : (s.writeBarrier ctx pa t).InForm := by
  unfold State.writeBarrier
  split
  · exact h
  · exact h.engineWrite.engineWrite.engineWrite

theorem State.InForm.deliverStatus {o status} (h : s.InForm) : (s.deliverStatus o status).InForm := by
  unfold State.deliverStatus
  split
  · exact h
  · next he =>
    split
    · split
      · exact (h.env he).deliver.finish.commit.resave
      · exact h
    · exact h

theorem State.InForm.decideTbar {b : Genlock} {g} (h : s.InForm) : (s.decideTbar g b).InForm := by
  unfold State.decideTbar
  extract_lets _ _ _ s1 s2 s3 s4 s5 s6
  have hs1 : s1.InForm := h.modTbar
  have hs2 : s2.InForm := hs1.modGroup
  have hs3 : s3.InForm := by
    unfold s3
    split
    · exact hs2
    · split
      · exact hs2.modTbar
      · exact hs2.sendLly
  have hs4 : s4.InForm := hs3.modSession
  have hs5 : s5.InForm := by
    unfold s5
    split
    · exact hs4
    · exact hs4.modSlot
  have hs6 : s6.InForm := by
    unfold s6
    split
    · exact hs5.tryEvent
    · exact hs5
  exact hs6.writeBarrier.deliverStatus

theorem execGenlockDecision_inForm {group} (h : s.InForm) : Outcome.InForm (execGenlockDecision group s) :=
  h.foldl fun _ _ hs => hs.decideTbar

theorem execGenlockCackCheck_inForm {group} (h : s.InForm) : Outcome.InForm (execGenlockCackCheck group s) := by
  unfold execGenlockCackCheck
  extract_lets
  split
  · exact h
  · exact h.foldl fun _ _ hs => by
      extract_lets st1
      have hst1 : st1.InForm := hs.modTbar
      split
      · exact hst1
      · exact hst1.foldl fun _ _ hs2 => hs2.modGroup.tryEvent

theorem execPeerMemoryAccess_inForm {rank pa acc} (h : s.InForm) : Outcome.InForm (execPeerMemoryAccess rank pa acc s) := by
  unfold execPeerMemoryAccess
  split
  · exact h
  · split
    · exact h.emit
    · exact h.outsideWrite
    · extract_lets
      split
      next hx =>
        exact (h.rmw.of_snd hx).emit.countRemote

/-! ### Events of the device -/

theorem Device.InForm.remeasure (h : d.InForm) : d.remeasure.InForm := h

theorem Device.InForm.measureAll {msg} (h : d.InForm) : (d.measureAll msg).InForm := h

theorem State.InForm.refuseControl (h : s.InForm) : s.refuseControl.InForm := h.modDev fun _ hd => hd

theorem execPatchgo_inForm (h : s.InForm) : Outcome.InForm (execPatchgo s) := by
  unfold execPatchgo
  split
  · exact h.modDev fun _ hd => hd
  · exact h.refuseControl

theorem Device.InForm.leavePatch {pstat p} (h : d.InForm) : (d.leavePatch pstat p).InForm := by
  unfold Device.leavePatch
  extract_lets d1 src
  have hd1 : d1.InForm := by
    unfold d1
    split <;> exact h
  have hsrc : src.InForm := hd1.measureAll
  exact ⟨rfl, hsrc.attBuf, hsrc.areas⟩

theorem State.InForm.leavePatch {pstat p} (h : s.InForm) : (s.leavePatch pstat p).InForm :=
  State.InForm.setStage (h.modDev fun _ hd => hd.leavePatch)

theorem execPatchVerifyDone_inForm (h : s.InForm) : Outcome.InForm (execPatchVerifyDone s) := by
  unfold execPatchVerifyDone
  split
  · extract_lets
    split
    · exact h.leavePatch
    · exact h.leavePatch.deviceError
  · exact h

theorem execNopatch_inForm (h : s.InForm) : Outcome.InForm (execNopatch s) := by
  unfold execNopatch
  split
  · exact h.leavePatch
  · exact h.refuseControl

theorem execSvnburn_inForm (h : s.InForm) : Outcome.InForm (execSvnburn s) := by
  unfold execSvnburn
  split
  · exact h.modDev fun _ hd => hd
  · exact h.refuseControl

theorem execSvnBurnDone_inForm (h : s.InForm) : Outcome.InForm (execSvnBurnDone s) := by
  unfold execSvnBurnDone
  split
  · exact h.modDev fun _ hd => hd
  · exact h

theorem Device.InForm.deriveKeys (h : d.InForm) : d.deriveKeys.InForm := h

theorem execAttgo_inForm (h : s.InForm) : Outcome.InForm (execAttgo s) := h.modDev fun _ hd => by
    split <;> exact hd

theorem execAttestationDone_inForm (h : s.InForm) : Outcome.InForm (execAttestationDone s) := by
  unfold execAttestationDone
  split
  · extract_lets r
    clear_value r
    exact State.InForm.modDev h fun _ hd => ⟨hd.staging, Memory.writeBytes_wf 0 r hd.attBuf, hd.areas⟩
  · exact h

theorem State.InForm.disableCore {k} (h : s.InForm) : (s.disableCore k).InForm :=
  State.InForm.modDev (h.modCore fun _ hco => hco) fun _ hd => hd

theorem execSoftcoreWrite_inForm {value} (h : s.InForm) : Outcome.InForm (execSoftcoreWrite value s) := by
  unfold execSoftcoreWrite
  split
  · exact h
  · extract_lets s1
    have hs1 : s1.InForm := h.modDev fun _ hd => hd
    split
    · exact hs1
    · exact hs1.foldl fun _ _ hs => by
        split
        · exact hs.disableCore
        · exact hs

theorem execCoreRetirementDone_inForm {core} (h : s.InForm) : Outcome.InForm (execCoreRetirementDone core s) := by
  unfold execCoreRetirementDone
  split
  · exact State.InForm.deviceError (h.disableCore.modDev fun _ hd => hd.remeasure)
  · exact h

theorem execSoftchanWrite_inForm {value} (h : s.InForm) : Outcome.InForm (execSoftchanWrite value s) := by
  unfold execSoftchanWrite
  split
  · exact h.modDev fun _ hd => hd
  · exact h.refuseControl

theorem execSoftportWrite_inForm {value} (h : s.InForm) : Outcome.InForm (execSoftportWrite value s) := by
  unfold execSoftportWrite
  split
  · exact h.modDev fun _ hd => hd
  · exact h.refuseControl

theorem execRcandRead_inForm (h : s.InForm) : Outcome.InForm (execRcandRead s) := State.InForm.modDev (by exact h) fun _ hd => hd

theorem execRetwWrite_inForm {value} (h : s.InForm) : Outcome.InForm (execRetwWrite value s) := h.modDev fun _ hd => by
    split
    · exact hd
    · split
      · exact hd
      · split <;> exact hd

theorem State.InForm.dropWriteback {pa} (h : s.InForm) : (s.dropWriteback pa).InForm := by
  unfold State.dropWriteback
  extract_lets line old mem s1
  clear_value old
  have hs1 : s1.InForm := ⟨Memory.writeBytes_wf _ _ h.mem, h.cores, h.crews, h.dev⟩
  split
  · exact h
  · split
    · exact hs1.fatalEvent
    · exact hs1.deviceError

theorem execUncorrectableWriteback_inForm {pa} (h : s.InForm) : Outcome.InForm (execUncorrectableWriteback pa s) := h.dropWriteback

theorem Device.InForm.replaceRow {slice row} (h : d.InForm) : (d.replaceRow slice row).InForm := by
  unfold Device.replaceRow
  extract_lets _ _ d1
  have hd1 : d1.InForm := h
  split <;> exact hd1

theorem execHearthRowRepair_inForm {slice row} (h : s.InForm) : Outcome.InForm (execHearthRowRepair slice row s) := by
  unfold execHearthRowRepair
  split
  · exact h
  · exact State.InForm.modDev (h.foldl fun _ _ hs => hs.dropWriteback) fun _ hd => hd.replaceRow

theorem execCoreParityError_inForm {core} (h : s.InForm) : Outcome.InForm (execCoreParityError core s) := by
  unfold execCoreParityError
  extract_lets _ s1
  have hs1 : s1.InForm := h.foldl fun _ _ hs => hs.fatalEvent
  split
  · exact hs1.modDev fun _ hd => hd
  · exact h

theorem State.InForm.failDevice {cause addr} (h : s.InForm) : (s.failDevice cause addr).InForm := by
  unfold State.failDevice
  extract_lets s1 s2
  have hs1 : s1.InForm := h.deviceError
  have hs2 : s2.InForm := hs1.foldl fun _ _ hs => hs.recordError.contextReset
  exact hs2.modDev fun _ hd => hd

theorem execDeviceParityError_inForm {addr} (h : s.InForm) : Outcome.InForm (execDeviceParityError addr s) := by
  unfold execDeviceParityError
  split
  · exact h.failDevice
  · exact h

theorem execSnapshotRearm_inForm (h : s.InForm) : Outcome.InForm (execSnapshotRearm s) := h.modDev fun _ hd => hd

theorem execSnapshotTimeTrigger_inForm (h : s.InForm) : Outcome.InForm (execSnapshotTimeTrigger s) := by
  unfold execSnapshotTimeTrigger
  split
  · exact h.snapTrigger
  · exact h

theorem execSnapshotPinTrigger_inForm (h : s.InForm) : Outcome.InForm (execSnapshotPinTrigger s) := h.snapTrigger

theorem execTriggerOutputPulseEnd_inForm (h : s.InForm) : Outcome.InForm (execTriggerOutputPulseEnd s) := h.modDev fun _ hd => hd

theorem execThrottleTick_inForm {power temp} (h : s.InForm) : Outcome.InForm (execThrottleTick power temp s) := h.modDev fun _ hd => hd

theorem execThermalTrip_inForm (h : s.InForm) : Outcome.InForm (execThermalTrip s) := by
  unfold execThermalTrip
  split
  · exact h.failDevice
  · exact h

theorem State.InForm.restart (h : s.InForm) : s.restart.InForm := by
  have hboot : (State.boot s.dev.fuses).InForm := State.boot_inForm
  exact ⟨Memory.filter_wf _ h.mem, hboot.cores, hboot.crews, hboot.dev⟩

theorem execPowerGood_inForm (h : s.InForm) : Outcome.InForm (execPowerGood s) := by
  unfold execPowerGood
  split
  · exact h
  · exact h.restart

theorem execPowerDown_inForm (h : s.InForm) : Outcome.InForm (execPowerDown s) := h.restart.modDev fun _ hd => hd

theorem execFunctionLevelReset_inForm (h : s.InForm) : Outcome.InForm (execFunctionLevelReset s) := by
  unfold execFunctionLevelReset
  split
  · exact h.restart
  · exact h

theorem execModuleResetPin_inForm (h : s.InForm) : Outcome.InForm (execModuleResetPin s) := by
  unfold execModuleResetPin
  split
  · exact h.restart
  · exact h

theorem execResetStateDone_inForm (h : s.InForm) : Outcome.InForm (execResetStateDone s) := by
  unfold execResetStateDone
  split
  · exact h.setStage
  · exact h

theorem State.InForm.leaveRominit (h : s.InForm) : s.leaveRominit.InForm := by
  unfold State.leaveRominit
  split
  · exact h.setStage
  · exact h

theorem execRominitDone_inForm {badCores} (h : s.InForm) : Outcome.InForm (execRominitDone badCores s) := by
  unfold execRominitDone
  split
  · exact State.InForm.leaveRominit ⟨h.mem, h.cores.mapIdx fun _ _ hk => hk, h.crews, h.dev.deriveKeys⟩
  · exact h

theorem execHostLinkTrained_inForm (h : s.InForm) : Outcome.InForm (execHostLinkTrained s) := by
  unfold execHostLinkTrained
  split
  · exact State.InForm.leaveRominit (h.modDev fun _ hd => hd)
  · exact h

theorem execMemtrainDone_inForm {badChans} (h : s.InForm) : Outcome.InForm (execMemtrainDone badChans s) := by
  unfold execMemtrainDone
  split
  · extract_lets _ _ _ s1 s2
    have hs1 : s1.InForm := ⟨Memory.filter_wf _ h.mem, h.cores, h.crews, h.dev⟩
    have hs2 : s2.InForm := hs1.modDev fun _ hd => hd
    exact State.InForm.foldl (State.InForm.setStage (hs2.modDev fun _ hd => hd.remeasure)) fun _ _ hs => hs.deviceError
  · exact h

theorem execPortsUp_inForm {badPorts} (h : s.InForm) : Outcome.InForm (execPortsUp badPorts s) := by
  unfold execPortsUp
  split
  · extract_lets _ _ _ s1 s2
    have hs1 : s1.InForm := h
    have hs2 : s2.InForm := hs1.modDev fun _ hd => hd
    exact State.InForm.foldl (State.InForm.setStage (hs2.modDev fun _ hd => hd.remeasure)) fun _ _ hs => hs.deviceError
  · exact h

theorem execTimego_inForm (h : s.InForm) : Outcome.InForm (execTimego s) := by
  unfold execTimego
  split
  · extract_lets _ s1
    have hs1 : s1.InForm := by
      unfold s1
      split <;> exact h
    exact State.InForm.setStage (by exact hs1)
  · exact h.refuseControl

/-! ### Immediate forms -/

theorem immForm_inForm {i d a imm g sat tag f} (h : s.InForm) : Outcome.InForm (immForm i d a imm g sat tag f s) := by
  unfold immForm
  exact issue_inForm (fun _ _ he => Req.put_inForm he) h

theorem immShift_inForm {i d a n g aff f} (h : s.InForm) : Outcome.InForm (immShift i d a n g aff f s) := by
  unfold immShift
  exact issue_inForm (fun _ _ he => Req.put_inForm he) h

theorem execMovi_inForm {d i} (h : s.InForm) : Outcome.InForm (execMovi d i s) := by
  unfold execMovi
  exact issue_inForm (fun _ _ he => Req.put_inForm he) h

theorem execMovhi_inForm {d i} (h : s.InForm) : Outcome.InForm (execMovhi d i s) := by
  unfold execMovhi
  extract_lets
  refine issue_inForm (fun _ _ he => ?_) h
  split
  · exact he.illegal
  · exact Req.put_inForm he

theorem execIota_inForm {d b st} (h : s.InForm) : Outcome.InForm (execIota d b st s) := by
  unfold execIota
  exact issue_inForm (fun _ _ he => Req.put_inForm he) h

theorem execAddImm_inForm {d a i g} (h : s.InForm) : Outcome.InForm (execAddImm d a i g s) := by
  unfold execAddImm
  exact immForm_inForm h

theorem execMulImm_inForm {d a i g} (h : s.InForm) : Outcome.InForm (execMulImm d a i g s) := by
  unfold execMulImm
  exact immForm_inForm h

theorem execAndImm_inForm {d a i g} (h : s.InForm) : Outcome.InForm (execAndImm d a i g s) := by
  unfold execAndImm
  exact immForm_inForm h

theorem execOrImm_inForm {d a i g} (h : s.InForm) : Outcome.InForm (execOrImm d a i g s) := by
  unfold execOrImm
  exact immForm_inForm h

theorem execXorImm_inForm {d a i g} (h : s.InForm) : Outcome.InForm (execXorImm d a i g s) := by
  unfold execXorImm
  exact immForm_inForm h

theorem execShlImm_inForm {d a n g} (h : s.InForm) : Outcome.InForm (execShlImm d a n g s) := by
  unfold execShlImm
  exact immShift_inForm h

theorem execShrImm_inForm {d a n g} (h : s.InForm) : Outcome.InForm (execShrImm d a n g s) := by
  unfold execShrImm
  exact immShift_inForm h

theorem execSarImm_inForm {d a n g} (h : s.InForm) : Outcome.InForm (execSarImm d a n g s) := by
  unfold execSarImm
  exact immShift_inForm h

theorem execRotImm_inForm {d a n g} (h : s.InForm) : Outcome.InForm (execRotImm d a n g s) := by
  unfold execRotImm
  exact immShift_inForm h

theorem execMinImm_inForm {d a i g} (h : s.InForm) : Outcome.InForm (execMinImm d a i g s) := by
  unfold execMinImm
  exact immForm_inForm h

theorem execMaxImm_inForm {d a i g} (h : s.InForm) : Outcome.InForm (execMaxImm d a i g s) := by
  unfold execMaxImm
  exact immForm_inForm h

theorem execLeaImm_inForm {d a i g} (h : s.InForm) : Outcome.InForm (execLeaImm d a i g s) := by
  unfold execLeaImm
  exact immForm_inForm h

/-! ### Events of registers -/

theorem execHostRead_inForm {pa count} (h : s.InForm) : Outcome.InForm (execHostRead pa count s) := by
  unfold execHostRead
  split
  · exact h
  · split
    · extract_lets s1
      have hs1 : s1.InForm := h
      split
      · exact hs1.modDev fun _ hd => hd
      · exact hs1
    · exact h

theorem State.InForm.putReg64 {off v} (h : s.InForm) : (s.putReg64 off v).InForm := by
  unfold State.putReg64
  extract_lets
  split
  · exact h.modDev fun _ hd => hd
  · split
    · exact h.modDev fun _ hd => hd
    · split
      · exact h
      · split
        · exact h.modSession
        · split
          · exact h.modGroup
          · split
            · exact h
            · exact h.modCtx

theorem Device.InForm.write32 {off v} (h : d.InForm) : (d.write32 off v).InForm := by
  unfold Device.write32
  extract_lets
  split <;> exact h

theorem State.InForm.writeBlock32 {x at_ v} (h : s.InForm) : (s.writeBlock32 x at_ v).InForm := by
  unfold State.writeBlock32
  split
  · exact h
  · split
    · exact h.fillControl
    · extract_lets s1
      have hs1 : s1.InForm := h.modCtx
      split
      · exact hs1.flushEvents
      · exact hs1

theorem Device.InForm.writeStaging {at_ bs} (h : d.InForm) : (d.writeStaging at_ bs).InForm := by
  unfold Device.writeStaging
  split
  · split
    · exact h
    · exact ⟨Memory.writeBytes_wf _ _ h.staging, h.attBuf, h.areas⟩
  · split
    · exact ⟨h.staging, Memory.writeBytes_wf _ _ h.attBuf, h.areas⟩
    · exact h

theorem State.InForm.write32 {off v} (h : s.InForm) : (s.write32 off v).InForm := by
  unfold State.write32
  split
  · exact h.modDev fun _ hd => hd.write32
  · split
    · extract_lets
      split
      · exact h.modPort
      · split
        · exact h.modPort
        · exact h
    · split
      · exact h.modSession
      · split
        · exact h
        · split
          · exact h
          · split
            · exact h.modGroup
            · split
              · exact h.writeBlock32
              · exact h

theorem State.InForm.writeHalf {off v} (h : s.InForm) : (s.writeHalf off v).InForm := by
  unfold State.writeHalf
  split
  · exact h.putReg64
  · exact h.write32

theorem execRegisterWrite_inForm {off width value} (h : s.InForm) : Outcome.InForm (execRegisterWrite off width value s) := by
  unfold execRegisterWrite
  extract_lets
  split
  · exact h
  · split
    · exact h.modDev fun _ hd => hd.writeStaging
    · split
      · exact h.writeHalf
      · split
        · exact h.putReg64
        · exact h.write32.write32

/-! ### Every operation -/

/-- The form is kept by every operation. -/
theorem exec_inForm {i} (h : s.InForm) : Outcome.InForm (exec i s) := by
  cases i with
  | add => exact execAdd_inForm h
  | sub => exact execSub_inForm h
  | mul => exact execMul_inForm h
  | mulhi => exact execMulhi_inForm h
  | mad => exact execMad_inForm h
  | min => exact execMin_inForm h
  | max => exact execMax_inForm h
  | lea => exact execLea_inForm h
  | abs => exact execAbs_inForm h
  | neg => exact execNeg_inForm h
  | not => exact execNot_inForm h
  | clz => exact execClz_inForm h
  | popc => exact execPopc_inForm h
  | brev => exact execBrev_inForm h
  | and => exact execAnd_inForm h
  | or => exact execOr_inForm h
  | xor => exact execXor_inForm h
  | andn => exact execAndn_inForm h
  | shl => exact execShl_inForm h
  | shr => exact execShr_inForm h
  | sar => exact execSar_inForm h
  | rot => exact execRot_inForm h
  | bfe => exact execBfe_inForm h
  | bfi => exact execBfi_inForm h
  | icmp => exact execIcmp_inForm h
  | sel => exact execSel_inForm h
  | mov => exact execMov_inForm h
  | movi => exact execMovi_inForm h
  | movhi => exact execMovhi_inForm h
  | iota => exact execIota_inForm h
  | addImm => exact execAddImm_inForm h
  | mulImm => exact execMulImm_inForm h
  | andImm => exact execAndImm_inForm h
  | orImm => exact execOrImm_inForm h
  | xorImm => exact execXorImm_inForm h
  | shlImm => exact execShlImm_inForm h
  | shrImm => exact execShrImm_inForm h
  | sarImm => exact execSarImm_inForm h
  | rotImm => exact execRotImm_inForm h
  | minImm => exact execMinImm_inForm h
  | maxImm => exact execMaxImm_inForm h
  | leaImm => exact execLeaImm_inForm h
  | fadd => exact execFadd_inForm h
  | fsub => exact execFsub_inForm h
  | fmul => exact execFmul_inForm h
  | fma => exact execFma_inForm h
  | fmin => exact execFmin_inForm h
  | fmax => exact execFmax_inForm h
  | fabs => exact execFabs_inForm h
  | fneg => exact execFneg_inForm h
  | fcmp => exact execFcmp_inForm h
  | fclass => exact execFclass_inForm h
  | fdiv => exact execFdiv_inForm h
  | fscale => exact execFscale_inForm h
  | fsqrt => exact execFsqrt_inForm h
  | frcp => exact execFrcp_inForm h
  | frsqrt => exact execFrsqrt_inForm h
  | fexp2 => exact execFexp2_inForm h
  | flog2 => exact execFlog2_inForm h
  | fsin => exact execFsin_inForm h
  | fcos => exact execFcos_inForm h
  | ffract => exact execFfract_inForm h
  | fround => exact execFround_inForm h
  | fdot2 => exact execFdot2_inForm h
  | cvt => exact execCvt_inForm h
  | packB16 => exact execPackB16_inForm h
  | packB8Lo => exact execPackB8Lo_inForm h
  | packB8Hi => exact execPackB8Hi_inForm h
  | packB4Q0 => exact execPackB4Q0_inForm h
  | packB4Q1 => exact execPackB4Q1_inForm h
  | packB4Q2 => exact execPackB4Q2_inForm h
  | packB4Q3 => exact execPackB4Q3_inForm h
  | unpack => exact execUnpack_inForm h
  | pand => exact execPand_inForm h
  | por => exact execPor_inForm h
  | pxor => exact execPxor_inForm h
  | pnot => exact execPnot_inForm h
  | pmov => exact execPmov_inForm h
  | pcnt => exact execPcnt_inForm h
  | pfirst => exact execPfirst_inForm h
  | xperm => exact execXperm_inForm h
  | xtab => exact execXtab_inForm h
  | xbcast => exact execXbcast_inForm h
  | xshflIdx => exact execXshflIdx_inForm h
  | xshflXor => exact execXshflXor_inForm h
  | xshflUp => exact execXshflUp_inForm h
  | xshflDown => exact execXshflDown_inForm h
  | xred => exact execXred_inForm h
  | xscan => exact execXscan_inForm h
  | xmaxi => exact execXmaxi_inForm h
  | voteAny => exact execVoteAny_inForm h
  | voteAll => exact execVoteAll_inForm h
  | voteBallot => exact execVoteBallot_inForm h
  | movcRead => exact execMovcRead_inForm h
  | movcWrite => exact execMovcWrite_inForm h
  | vshape => exact execVshape_inForm h
  | bra => exact execBra_inForm h
  | brx => exact execBrx_inForm h
  | callDirect => exact execCallDirect_inForm h
  | callIndirect => exact execCallIndirect_inForm h
  | ret => exact execRet_inForm h
  | meet => exact execMeet_inForm h
  | yield => exact execYield_inForm h
  | exit => exact execExit_inForm h
  | nop => exact execNop_inForm h
  | sleep => exact execSleep_inForm h
  | bar => exact execBar_inForm h
  | gbar => exact execGbar_inForm h
  | sbar => exact execSbar_inForm h
  | rgrow => exact execRgrow_inForm h
  | rgrowTry => exact execRgrowTry_inForm h
  | rshrink => exact execRshrink_inForm h
  | disp => exact execDisp_inForm h
  | ldB32 => exact execLdB32_inForm h
  | ldB64 => exact execLdB64_inForm h
  | ldF32 => exact execLdF32_inForm h
  | ldF16 => exact execLdF16_inForm h
  | ldBf16 => exact execLdBf16_inForm h
  | ldI32 => exact execLdI32_inForm h
  | stB8 => exact execStB8_inForm h
  | stB16 => exact execStB16_inForm h
  | stB32 => exact execStB32_inForm h
  | stB64 => exact execStB64_inForm h
  | ldbW => exact execLdbW_inForm h
  | ldbA => exact execLdbA_inForm h
  | ldbC => exact execLdbC_inForm h
  | stbA => exact execStbA_inForm h
  | stbC => exact execStbC_inForm h
  | atom => exact execAtom_inForm h
  | atomAcq => exact execAtomAcq_inForm h
  | atomRel => exact execAtomRel_inForm h
  | atomAcqRel => exact execAtomAcqRel_inForm h
  | cas => exact execCas_inForm h
  | acq => exact execAcq_inForm h
  | rel => exact execRel_inForm h
  | fence => exact execFence_inForm h
  | waita => exact execWaita_inForm h
  | txb => exact execTxb_inForm h
  | txc => exact execTxc_inForm h
  | txa => exact execTxa_inForm h
  | cp => exact execCp_inForm h
  | cp2 => exact execCp2_inForm h
  | cptab => exact execCptab_inForm h
  | wait => exact execWait_inForm h
  | waitx => exact execWaitx_inForm h
  | pgreq => exact execPgreq_inForm h
  | pfetch => exact execPfetch_inForm h
  | mres => exact execMres_inForm h
  | mrel => exact execMrel_inForm h
  | cdecl => exact execCdecl_inForm h
  | tld => exact execTld_inForm h
  | tst => exact execTst_inForm h
  | tzero => exact execTzero_inForm h
  | tmeta => exact execTmeta_inForm h
  | mma => exact execMma_inForm h
  | mmas => exact execMmas_inForm h
  | mswap => exact execMswap_inForm h
  | mdrain => exact execMdrain_inForm h
  | mclr => exact execMclr_inForm h
  | mstat => exact execMstat_inForm h
  | hgf => exact execHgf_inForm h
  | hgs => exact execHgs_inForm h
  | hgfold => exact execHgfold_inForm h
  | march => exact execMarch_inForm h
  | tex => exact execTex_inForm h
  | trace => exact execTrace_inForm h
  | tcontReject => exact execTcontReject_inForm h
  | tcontAccept => exact execTcontAccept_inForm h
  | tcontTerminate => exact execTcontTerminate_inForm h
  | thit => exact execThit_inForm h
  | tabort => exact execTabort_inForm h
  | srd => exact execSrd_inForm h
  | srdt => exact execSrdt_inForm h
  | swr => exact execSwr_inForm h
  | sinh => exact execSinh_inForm h
  | sinhOffset => exact execSinhOffset_inForm h
  | sts => exact execSts_inForm h
  | sstat => exact execSstat_inForm h
  | sflushLine => exact execSflushLine_inForm h
  | sflushFrame => exact execSflushFrame_inForm h
  | time => exact execTime_inForm h
  | sleepu => exact execSleepu_inForm h
  | launch => exact execLaunch_inForm h
  | launchTail => exact execLaunchTail_inForm h
  | publish => exact execPublish_inForm h
  | cprog => exact execCprog_inForm h
  | ctrigArm => exact execCtrigArm_inForm h
  | ctrigDisarm => exact execCtrigDisarm_inForm h
  | cctrAdd => exact execCctrAdd_inForm h
  | cctrSet => exact execCctrSet_inForm h
  | cctrRead => exact execCctrRead_inForm h
  | tbar => exact execTbar_inForm h
  | idemb => exact execIdemb_inForm h
  | ideme => exact execIdeme_inForm h
  | tlbw => exact execTlbw_inForm h
  | tlbiVaCore => exact execTlbiVaCore_inForm h
  | tlbiVaAll => exact execTlbiVaAll_inForm h
  | tlbiCtxCore => exact execTlbiCtxCore_inForm h
  | tlbiCtxAll => exact execTlbiCtxAll_inForm h
  | lpiCore => exact execLpiCore_inForm h
  | lpiAll => exact execLpiAll_inForm h
  | walkd => exact execWalkd_inForm h
  | trap => exact execTrap_inForm h
  | rtt => exact execRtt_inForm h
  | snap => exact execSnap_inForm h
  | brk => exact execBrk_inForm h
  | hintImm => exact execHintImm_inForm h
  | hintPref => exact execHintPref_inForm h
  | hintRnd => exact execHintRnd_inForm h
  | hintSched => exact execHintSched_inForm h
  | rep => exact execRep_inForm h
  | loadValueArrival => exact execLoadValueArrival_inForm h
  | storeAcknowledge => exact execStoreAcknowledge_inForm h
  | copyCompletion => exact execCopyCompletion_inForm h
  | swageOperationCompletion => exact execSwageOperationCompletion_inForm h
  | fieldRequestCompletion => exact execFieldRequestCompletion_inForm h
  | traversalStop => exact execTraversalStop_inForm h
  | streamOperationCompletion => exact execStreamOperationCompletion_inForm h
  | rgrowGrant => exact execRgrowGrant_inForm h
  | strandEnd => exact execStrandEnd_inForm h
  | fairnessRotation => exact execFairnessRotation_inForm h
  | activeSetRotation => exact execActiveSetRotation_inForm h
  | sleepExpiry => exact execSleepExpiry_inForm h
  | sleepuExpiry => exact execSleepuExpiry_inForm h
  | waitaDeadline => exact execWaitaDeadline_inForm h
  | trapEntry => exact execTrapEntry_inForm h
  | deferredTrap => exact execDeferredTrap_inForm h
  | watchdogExpiry => exact execWatchdogExpiry_inForm h
  | queueKick => exact execQueueKick_inForm h
  | packetPull => exact execPacketPull_inForm h
  | dependencyMet => exact execDependencyMet_inForm h
  | earliestReached => exact execEarliestReached_inForm h
  | heapDeadlineExpiry => exact execHeapDeadlineExpiry_inForm h
  | placeUnit => exact execPlaceUnit_inForm h
  | launchDeadlineCut => exact execLaunchDeadlineCut_inForm h
  | timeSliceTick => exact execTimeSliceTick_inForm h
  | gangQuench => exact execGangQuench_inForm h
  | gangSave => exact execGangSave_inForm h
  | restoreOnRelease => exact execRestoreOnRelease_inForm h
  | launchCompletion => exact execLaunchCompletion_inForm h
  | cxassistWrite => exact execCxassistWrite_inForm h
  | saveAreaWrite => exact execSaveAreaWrite_inForm h
  | translationRegisterWrite => exact execTranslationRegisterWrite_inForm h
  | contextReset => exact execContextReset_inForm h
  | queueBindingWrite => exact execQueueBindingWrite_inForm h
  | walkStart => exact execWalkStart_inForm h
  | hostFill => exact execHostFill_inForm h
  | hostWalkEnd => exact execHostWalkEnd_inForm h
  | resvaWrite => exact execResvaWrite_inForm h
  | pageMigration => exact execPageMigration_inForm h
  | hostWrite => exact execHostWrite_inForm h
  | hostRead => exact execHostRead_inForm h
  | windowRegisterWrite => exact execWindowRegisterWrite_inForm h
  | publicationServe => exact execPublicationServe_inForm h
  | publicationComplete => exact execPublicationComplete_inForm h
  | loaderGo => exact execLoaderGo_inForm h
  | loaderDone => exact execLoaderDone_inForm h
  | portctlWrite => exact execPortctlWrite_inForm h
  | ptpctlWrite => exact execPtpctlWrite_inForm h
  | sessionOpen => exact execSessionOpen_inForm h
  | sessionClose => exact execSessionClose_inForm h
  | arpRequest => exact execArpRequest_inForm h
  | ptpEventMessage => exact execPtpEventMessage_inForm h
  | ptpMasterLoss => exact execPtpMasterLoss_inForm h
  | videoPacketReceive => exact execVideoPacketReceive_inForm h
  | opaquePacketReceive => exact execOpaquePacketReceive_inForm h
  | lineClose => exact execLineClose_inForm h
  | packetTransmit => exact execPacketTransmit_inForm h
  | opaqueTransmit => exact execOpaqueTransmit_inForm h
  | portLinkChange => exact execPortLinkChange_inForm h
  | llynadReq => exact execLlynadReq_inForm h
  | llynadGrant => exact execLlynadGrant_inForm h
  | llynadData => exact execLlynadData_inForm h
  | llynadAck => exact execLlynadAck_inForm h
  | llynadSig => exact execLlynadSig_inForm h
  | llynadAbt => exact execLlynadAbt_inForm h
  | llynadArrive => exact execLlynadArrive_inForm h
  | llynadCommit => exact execLlynadCommit_inForm h
  | llynadCack => exact execLlynadCack_inForm h
  | llynadResend => exact execLlynadResend_inForm h
  | llynadPathRetry => exact execLlynadPathRetry_inForm h
  | relayWrite => exact execRelayWrite_inForm h
  | collSend => exact execCollSend_inForm h
  | collRecv => exact execCollRecv_inForm h
  | collRrs => exact execCollRrs_inForm h
  | collCopy => exact execCollCopy_inForm h
  | collWait => exact execCollWait_inForm h
  | collLoop => exact execCollLoop_inForm h
  | collSig => exact execCollSig_inForm h
  | collEnd => exact execCollEnd_inForm h
  | triggerCounterWrite => exact execTriggerCounterWrite_inForm h
  | triggerActionEnd => exact execTriggerActionEnd_inForm h
  | genlockArrive => exact execGenlockArrive_inForm h
  | genlockCommitInstant => exact execGenlockCommitInstant_inForm h
  | genlockDecision => exact execGenlockDecision_inForm h
  | genlockCackCheck => exact execGenlockCackCheck_inForm h
  | patchgo => exact execPatchgo_inForm h
  | patchVerifyDone => exact execPatchVerifyDone_inForm h
  | nopatch => exact execNopatch_inForm h
  | timego => exact execTimego_inForm h
  | svnburn => exact execSvnburn_inForm h
  | attgo => exact execAttgo_inForm h
  | attestationDone => exact execAttestationDone_inForm h
  | softcoreWrite => exact execSoftcoreWrite_inForm h
  | coreRetirementDone => exact execCoreRetirementDone_inForm h
  | softchanWrite => exact execSoftchanWrite_inForm h
  | softportWrite => exact execSoftportWrite_inForm h
  | rcandRead => exact execRcandRead_inForm h
  | retwWrite => exact execRetwWrite_inForm h
  | hearthRowRepair => exact execHearthRowRepair_inForm h
  | uncorrectableWriteback => exact execUncorrectableWriteback_inForm h
  | coreParityError => exact execCoreParityError_inForm h
  | deviceParityError => exact execDeviceParityError_inForm h
  | snapshotRearm => exact execSnapshotRearm_inForm h
  | snapshotTimeTrigger => exact execSnapshotTimeTrigger_inForm h
  | snapshotPinTrigger => exact execSnapshotPinTrigger_inForm h
  | throttleTick => exact execThrottleTick_inForm h
  | thermalTrip => exact execThermalTrip_inForm h
  | powerGood => exact execPowerGood_inForm h
  | functionLevelReset => exact execFunctionLevelReset_inForm h
  | moduleResetPin => exact execModuleResetPin_inForm h
  | resetStateDone => exact execResetStateDone_inForm h
  | rominitDone => exact execRominitDone_inForm h
  | hostLinkTrained => exact execHostLinkTrained_inForm h
  | memtrainDone => exact execMemtrainDone_inForm h
  | portsUp => exact execPortsUp_inForm h
  | registerWrite => exact execRegisterWrite_inForm h
  | powerDown => exact execPowerDown_inForm h
  | delayReqTransmit => exact execDelayReqTransmit_inForm h
  | peerMemoryAccess => exact execPeerMemoryAccess_inForm h
  | svnBurnDone => exact execSvnBurnDone_inForm h
  | triggerOutputPulseEnd => exact execTriggerOutputPulseEnd_inForm h

/-! ### One step -/

theorem State.InForm.turn {crew strand} (h : s.InForm) : Outcome.InForm (s.turn crew strand) := by
  unfold State.turn
  split
  · extract_lets s1
    have hs1 : s1.InForm := h.select
    split
    · exact h
    · next e he =>
      split
      · exact exec_inForm hs1
      · next t ht => exact (hs1.issuer he).turn_moved ht
  · exact h

theorem State.InForm.move {m : Move} (h : s.InForm) : Outcome.InForm (s.move m) := by
  unfold State.move
  split
  · exact h.turn
  · split
    · exact exec_inForm h
    · exact h
  · exact h.ownMove

theorem State.InForm.cycleFor {crew strand} (h : s.InForm) : (s.cycleFor crew strand).InForm := by
  unfold State.cycleFor
  split
  · exact h
  · exact h.elapse

theorem State.InForm.onward (h : s.InForm) : Outcome.InForm s.onward := by
  unfold State.onward
  split
  · exact h.cycleFor.turn
  · split
    · exact h.elapse
    · exact h.elapse
    · exact h.elapse
    · exact h

theorem step_inForm (h : s.InForm) : Outcome.InForm (step s) := by
  unfold step
  split
  · next m rest hagenda =>
    have hs1 : State.InForm { s with agenda := rest } := h
    exact hs1.arrange.move
  · have hs1 : s.arrange.InForm := h.arrange
    generalize s.arrange = s1 at hs1 ⊢
    exact hs1.onward

/-- Settles O4: each operation that reaches a memory goes through a write, a clear, a copy or a filter that keeps its form, and every step
is made of such operations. -/
theorem stepKeepsMemories : Obligations.StepKeepsMemories := fun s t hs ht => by
  have hstep : Outcome.InForm (step s) := step_inForm (State.inForm_iff_canonical.mpr hs)
  rw [ht] at hstep
  exact State.inForm_iff_canonical.mp hstep

end Sys2Proof.Machine
end
